-- ==== Sys2Proof/Word.lean ====
section
/-!
DEFINITION. The word types of the machine and the shape of a sparse map.
A sparse map is a list of (key, value) pairs with strictly rising keys in which no entry holds the map's default value;
the operations over it stand in `Sys2Proof/Machine/Map.lean`.
-/
namespace Sys2Proof

/-- One byte of memory (R10). -/
abbrev Byte := BitVec 8
/-- A word of a general register, of code and of most records (R15, R147). -/
abbrev W64 := BitVec 64
/-- The bits of a vector register (R15). -/
abbrev W128 := BitVec 128
/-- A buffer record, a bind record, a ring descriptor: 32 bytes (R56, R335, R357). -/
abbrev W256 := BitVec 256
/-- A layout record, an event record, a graph record: 64 bytes (R65, R253, R383). -/
abbrev W512 := BitVec 512

/-- A sparse map from natural numbers: what an unlisted key reads as is the default the reader names. -/
abbrev FMap (α : Type) := List (Nat × α)

end Sys2Proof
end

