-- ==== Sys2Proof/Config.lean ====
section
/-!
DEFINITION. What an implementation fixes and what the spec leaves open: constants without a body.
Nothing in Lean can prove a value of one of these; a statement that holds, holds whatever they are.
-/
namespace Sys2Proof.Config

/-- A free choice between two outcomes the spec allows, at draw `n` and site `k` of the step (R69, R120, R121, R161, R375;
log entry 5). -/
opaque freeBit : (n k : Nat) → Bool

/-- A free natural number, at draw `n` and site `k`: the order in which unordered agents act (R102, R117; log entry 5). -/
opaque freeNat : (n k : Nat) → Nat

/-- Which of the two FP32 candidates of R87 `FEXP2` (0), `FLOG2` (1) and `FTANH` (2) deliver for an operand whose exact
result is not representable (R208): one fixed choice per operand (log entry 6). -/
opaque fp32Hi : (op : Nat) → BitVec 32 → Bool

/-- The cluster to which port `p` is attached: 0–23 Ndonar, 24–27 Ethernet (R325, R426, R428; log entry 7). -/
opaque portCluster : Nat → BitVec 4

/-- The module number of this module in the scale-up domain (R323; log entry 7). -/
opaque moduleNumber : BitVec 8

/-- The cluster whose router ejects packets bound for the host link (R323; log entry 7). -/
opaque hostCluster : BitVec 4

/-- The latency class 0–3 of the link that leaves cluster `c` in direction `d` (R324, R422; log entry 7). -/
opaque linkLat : (c d : Nat) → BitVec 2

/-- The switch port to which Ndonar port `p` is cabled (R325; log entry 7). -/
opaque switchPort : Nat → BitVec 8

/-- Byte `i` of the XMSS public key that lies in the ROM (R433; log entry 8). -/
opaque romKey : (i : Nat) → Byte

/-- The ML-DSA-65 public key of boot number `n`, as its bytes (R434; log entry 8). -/
opaque quoteKey : Nat → List Byte

/-- The ML-DSA-65 signature of boot number `n` over the bytes of a quote (R434; log entry 8). -/
opaque quoteSign : Nat → List Byte → List Byte

/-- The system registers that the configuration of a boot image loads: pairs of a register number and its value (R432; log entry 8). -/
opaque bootRegisters : List Byte → List (Nat × BitVec 64)

/-- The slice registers that the configuration of a boot image loads: triples of a cluster, an offset and a value (R432; log entry 8). -/
opaque bootSliceRegisters : List Byte → List (Nat × Nat × BitVec 64)

/-- The bytes that the configuration of a boot image writes at the world table (R432; log entry 8). -/
opaque bootWorldTable : List Byte → List (Nat × Byte)

/-- The words that firmware loads into memory at boot: pairs of a physical address and a byte (R432; log entry 8). -/
opaque bootMemory : List Byte → List (Nat × Byte)

end Sys2Proof.Config
end

