-- ==== Sys2Proof/Syntax.lean ====
section
/-!
DEFINITION. The instructions and the events of the opcode table: one constructor per row.
The constructors of classes 0 to 9 carry the control fields of the instruction word (R150) and its typed operands; the
constructors of the events carry what the outside world or an unordered agent supplies.
-/
namespace Sys2Proof

/-- A general register `g0`–`g63` (R151). -/
abbrev GReg := BitVec 6
/-- A vector register `v0`–`v31`. -/
abbrev VReg := BitVec 5
/-- A matrix register `m0`–`m7`. -/
abbrev MReg := BitVec 3
/-- A predicate register `p0`–`p7`; `p7` reads true. -/
abbrev PReg := BitVec 3
/-- A buffer record register `b0`–`b15`. -/
abbrev BReg := BitVec 4
/-- A codebook register `cb0`–`cb3`. -/
abbrev CReg := BitVec 2
/-- An index of the special file (R152). -/
abbrev SReg := BitVec 6

/-- A barrier register of the workgroup (`nb`) or of the cluster (`kb`) (R152, R245). -/
inductive Bar where
  | nb (i : BitVec 4)
  | kb (i : BitVec 4)
deriving DecidableEq, Repr

/-- A source of file 1 or file 7: a general register, a constant 0–62, or a literal word (R151, R157). -/
inductive Src where
  | g (r : GReg)
  | k (n : BitVec 6)
  | lit (w : W64)
deriving DecidableEq, Repr

/-- A data or destination register of a memory access: a general register (a pair with `.b128`) or a vector register (R228). -/
inductive Dat where
  | g (r : GReg)
  | v (r : VReg)
deriving DecidableEq, Repr

/-- A scratchpad operand `sp[ga + c]`; `none` when SB is absent (R228). -/
structure SpOp where
  base : GReg
  off  : Option (BitVec 16)
deriving DecidableEq, Repr

/-- The address operand of an atomic: a buffer record element or a scratchpad operand (R236). -/
inductive AAddr where
  | buf (b : BReg) (i : GReg)
  | sp (a : SpOp)
deriving DecidableEq, Repr

/-- The control fields of an instruction word: guard, stall count and dependency counter (R150, R154, R159). -/
structure Ctl where
  gneg  : Bool
  gpred : PReg
  stall : BitVec 3
  ctr   : Option (BitVec 3)
deriving DecidableEq, Repr

/-- The integer types (R156). -/
inductive ITy where
  | s8 | s16 | s32 | s64 | n8 | n16 | n32 | n64 | b8 | b16 | b32 | b64 | b128
deriving DecidableEq, Repr

/-- The float-format codes (R156). -/
inductive FFmt where
  | f32 | bf16 | f16 | e4m3 | e5m2 | e2m1 | s4 | cb4
deriving DecidableEq, Repr

/-- The rounding modes (R86). -/
inductive Rnd where
  | rne | rz | rdn | rup | rs
deriving DecidableEq, Repr

/-- The comparison codes (R156). -/
inductive CmpOp where
  | eq | ne | lt | le | gt | ge | un
deriving DecidableEq, Repr

/-- The ordering modifiers (R108). -/
inductive Ordr where
  | rlx | acq | rel | ar
deriving DecidableEq, Repr

/-- The ten scopes (R103). -/
inductive Scope where
  | lane | grp | wg | core | clus | die | dev | node | fab | sys
deriving DecidableEq, Repr

/-- The fence kinds (R156). -/
inductive FKind where
  | ld | st | rw
deriving DecidableEq, Repr

/-- The traffic classes (R156). -/
inductive TClass where
  | lat | bulk | xc | mg
deriving DecidableEq, Repr

/-- The predicate operations of `PLOP` and the combine codes of `VOTE` (R168). -/
inductive LogOp where
  | and | or | xor
deriving DecidableEq, Repr

/-- The modes of `SHFL` (R168). -/
inductive ShMode where
  | idx | up | down | xor
deriving DecidableEq, Repr

/-- The operations of `SCAN` and `REDUX` (R168). -/
inductive LaneOp where
  | add | min | max | and | or | xor
deriving DecidableEq, Repr

/-- The forms of `VOTE` (R168, R198). -/
inductive VoteForm where
  | all (d a : PReg)
  | any (d a : PReg)
  | bal (d : GReg) (a : PReg) (comb : Option (LogOp × PReg))
deriving DecidableEq, Repr

/-- The operations of `FRED` (R202). -/
inductive RedOp where
  | add | min | max
deriving DecidableEq, Repr

/-- The float types of `AFADD` (R237). -/
inductive AFTy where
  | f32 | bf16
deriving DecidableEq, Repr

/-- The types of `AMAXRST` (R237). -/
inductive MaxTy where
  | f32 | s32 | s64 | n32 | n64
deriving DecidableEq, Repr

/-- The modes of `TLBINV` (R352). -/
inductive TlbMode where
  | all | asid | page
deriving DecidableEq, Repr

/-- What the scrubber finds in a burst (R419). -/
inductive ScrubFind where
  | clean | corrected | uncorrectable
deriving DecidableEq, Repr

/-- The fields of a multiplying operation: slot, contraction length less one, and result tiles (R263). -/
structure MulF where
  slot : BitVec 5
  km1  : BitVec 8
  q    : BitVec 4
deriving DecidableEq, Repr

/-- Where firmware or software writes a HEAD: an event queue (R382), the accounting area at a physical address (R401), a graph-node queue
of the region on a cluster (R361), or the launch queue (R364). -/
inductive HeadOf where
  | eventQueue (secure : Bool)
  | accounting (base : BitVec 48)
  | launchQueue
  | graphQueue (cluster : BitVec 4) (q : BitVec 16)
deriving DecidableEq, Repr

/-- A packet that arrives at this module through a port: the rest of its route, its recorded return route unless it has crossed Ethernet,
its fabric context and its request, lane by lane with the data of a write; a message is one lane (R319, R321, R333, R427). -/
structure Arriving where
  port    : BitVec 5
  symbols : List (BitVec 4)
  back    : List (BitVec 4)
  crossed : Bool
  kind    : BitVec 3
  tc      : TClass
  fabctx  : BitVec 16
  write   : Bool
  width   : Nat
  lanes   : List (W64 × List Byte)
deriving DecidableEq, Repr

/-- The instructions of the ten engine classes and the events of the part, one constructor per row of the opcode table. -/
inductive Instr where
  -- class 0 (R168)
  | nop (c : Ctl)
  | bra (c : Ctl) (off : BitVec 18)
  | brx (c : Ctl) (a : GReg)
  | call (c : Ctl) (link : GReg) (off : BitVec 18)
  | callIndirect (c : Ctl) (link a : GReg)
  | ret (c : Ctl) (a : GReg)
  | exit (c : Ctl)
  | reconv (c : Ctl)
  | yield (c : Ctl)
  | phase (c : Ctl) (gmask word2 : W64)
  | idem (c : Ctl)
  | trap (c : Ctl) (code : BitVec 16)
  | brk (c : Ctl) (code : BitVec 16)
  | add (c : Ctl) (t : ITy) (d : GReg) (a b : Src)
  | sub (c : Ctl) (t : ITy) (d : GReg) (a b : Src)
  | mul (c : Ctl) (t : ITy) (d : GReg) (a b : Src)
  | mulh (c : Ctl) (t : ITy) (d : GReg) (a b : Src)
  | mad (c : Ctl) (t : ITy) (d : GReg) (a b x : Src)
  | min (c : Ctl) (t : ITy) (d : GReg) (a b : Src)
  | max (c : Ctl) (t : ITy) (d : GReg) (a b : Src)
  | abs (c : Ctl) (t : ITy) (d : GReg) (a : Src)
  | neg (c : Ctl) (t : ITy) (d : GReg) (a : Src)
  | and (c : Ctl) (t : ITy) (d : GReg) (a b : Src)
  | or (c : Ctl) (t : ITy) (d : GReg) (a b : Src)
  | xor (c : Ctl) (t : ITy) (d : GReg) (a b : Src)
  | andn (c : Ctl) (t : ITy) (d : GReg) (a b : Src)
  | not (c : Ctl) (t : ITy) (d : GReg) (a : Src)
  | shl (c : Ctl) (t : ITy) (d : GReg) (a b : Src)
  | shr (c : Ctl) (t : ITy) (d : GReg) (a b : Src)
  | sar (c : Ctl) (t : ITy) (d : GReg) (a b : Src)
  | rol (c : Ctl) (t : ITy) (d : GReg) (a b : Src)
  | popc (c : Ctl) (t : ITy) (d : GReg) (a : Src)
  | clz (c : Ctl) (t : ITy) (d : GReg) (a : Src)
  | brev (c : Ctl) (t : ITy) (d : GReg) (a : Src)
  | bfx (c : Ctl) (t : ITy) (d : GReg) (a b : Src)
  | bfi (c : Ctl) (t : ITy) (d : GReg) (a b x : Src)
  | sel (c : Ctl) (t : ITy) (d : GReg) (a b : Src) (p : PReg)
  | mov (c : Ctl) (t : ITy) (d : GReg) (a : Src)
  | movl (c : Ctl) (d : GReg) (value : W64)
  | cmp (c : Ctl) (k : CmpOp) (t : ITy) (d : PReg) (a b : Src)
  | plop (c : Ctl) (op : LogOp) (d a b : PReg) (na nb : Bool)
  | rds (c : Ctl) (d : GReg) (r : SReg)
  | wrs (c : Ctl) (r : SReg) (a : Src)
  | shfl (c : Ctl) (m : ShMode) (t : ITy) (d : GReg) (a b : Src)
  | bcast (c : Ctl) (t : ITy) (d : GReg) (a b : Src)
  | vote (c : Ctl) (f : VoteForm)
  | matchLanes (c : Ctl) (t : ITy) (d : GReg) (a : Src)
  | scan (c : Ctl) (op : LaneOp) (t : ITy) (exc : Bool) (d : GReg) (a : Src)
  | redux (c : Ctl) (op : LaneOp) (t : ITy) (d : GReg) (a : Src)
  -- class 1 (R202)
  | fadd (c : Ctl) (f : FFmt) (r : Rnd) (d a b : VReg)
  | fsub (c : Ctl) (f : FFmt) (r : Rnd) (d a b : VReg)
  | fmul (c : Ctl) (f : FFmt) (r : Rnd) (d a b : VReg)
  | ffma (c : Ctl) (f : FFmt) (r : Rnd) (d a b x : VReg)
  | fmin (c : Ctl) (f : FFmt) (d a b : VReg)
  | fmax (c : Ctl) (f : FFmt) (d a b : VReg)
  | famax (c : Ctl) (f : FFmt) (d a b : VReg)
  | fcmp (c : Ctl) (k : CmpOp) (f : FFmt) (d : GReg) (a b : VReg)
  | frcp (c : Ctl) (f : FFmt) (r : Rnd) (d a : VReg)
  | frsq (c : Ctl) (f : FFmt) (r : Rnd) (d a : VReg)
  | fsqrt (c : Ctl) (f : FFmt) (r : Rnd) (d a : VReg)
  | fexp2 (c : Ctl) (f : FFmt) (d a : VReg)
  | flog2 (c : Ctl) (f : FFmt) (d a : VReg)
  | ftanh (c : Ctl) (f : FFmt) (d a : VReg)
  | fred (c : Ctl) (op : RedOp) (f : FFmt) (r : Rnd) (d a : VReg)
  | fcvt (c : Ctl) (f : FFmt) (r : Rnd) (sat : Bool) (d a : VReg) (k : Option Src)
  | icvt (c : Ctl) (f : FFmt) (r : Rnd) (toFloat narrow : Bool) (d a : VReg) (k : Option Src)
  | fpack (c : Ctl) (d a b : VReg)
  | funpk (c : Ctl) (d a : VReg) (k : Src)
  | vmov (c : Ctl) (d : Dat) (a : VReg)
  | vtag (c : Ctl) (f : FFmt) (cb : CReg) (d : VReg) (a : Src)
  | vretag (c : Ctl) (f : FFmt) (cb : CReg) (d a : VReg)
  | seed (c : Ctl) (a : Src)
  | scale (c : Ctl) (f : FFmt) (d a : VReg)
  | qnt (c : Ctl) (f : FFmt) (r : Rnd) (sat : Bool) (d a : MReg) (sc : Option (VReg × Src))
  | dqnt (c : Ctl) (f : FFmt) (r : Rnd) (d a : MReg)
  | cbld (c : Ctl) (cb : CReg) (a b : VReg)
  | cbenc (c : Ctl) (d a : VReg) (cb : CReg)
  -- class 2 (R226)
  | ld (c : Ctl) (t : ITy) (o : Ordr) (sc : Scope) (d : Dat) (b : BReg) (i : GReg)
  | st (c : Ctl) (t : ITy) (o : Ordr) (sc : Scope) (b : BReg) (i : GReg) (x : Dat)
  | lds (c : Ctl) (t : ITy) (o : Ordr) (sc : Scope) (d : Dat) (a : SpOp)
  | sts (c : Ctl) (t : ITy) (o : Ordr) (sc : Scope) (a : SpOp) (x : Dat)
  | ldx (c : Ctl) (t : ITy) (n : Bar) (b : BReg) (i : GReg) (x : GReg)
  | tld (c : Ctl) (d : MReg) (h : Src) (xy : GReg)
  | tst (c : Ctl) (h : Src) (xy : GReg) (x : MReg)
  | pref (c : Ctl) (t : ITy) (b : BReg) (i : GReg)
  | brld (c : Ctl) (d : BReg) (a : GReg) (off : BitVec 16)
  | fence (c : Ctl) (k : FKind) (sc : Scope)
  | vfence (c : Ctl) (sc : Scope)
  | lfence (c : Ctl)
  | aadd (c : Ctl) (t : ITy) (o : Ordr) (sc : Scope) (d : Option GReg) (a : AAddr) (x : GReg)
  | afadd (c : Ctl) (t : AFTy) (o : Ordr) (sc : Scope) (d : Option GReg) (a : AAddr) (x : GReg)
  | amin (c : Ctl) (t : ITy) (o : Ordr) (sc : Scope) (d : Option GReg) (a : AAddr) (x : GReg)
  | amax (c : Ctl) (t : ITy) (o : Ordr) (sc : Scope) (d : Option GReg) (a : AAddr) (x : GReg)
  | afmax (c : Ctl) (o : Ordr) (sc : Scope) (d : Option GReg) (a : AAddr) (x : GReg)
  | aand (c : Ctl) (t : ITy) (o : Ordr) (sc : Scope) (d : Option GReg) (a : AAddr) (x : GReg)
  | aor (c : Ctl) (t : ITy) (o : Ordr) (sc : Scope) (d : Option GReg) (a : AAddr) (x : GReg)
  | axor (c : Ctl) (t : ITy) (o : Ordr) (sc : Scope) (d : Option GReg) (a : AAddr) (x : GReg)
  | axchg (c : Ctl) (t : ITy) (o : Ordr) (sc : Scope) (d : Option GReg) (a : AAddr) (x : GReg)
  | acas (c : Ctl) (t : ITy) (o : Ordr) (sc : Scope) (d : Option GReg) (a : AAddr) (x : GReg)
  | amaxrst (c : Ctl) (t : MaxTy) (o : Ordr) (sc : Scope) (d : Option GReg) (a : AAddr) (x : GReg)
  | aincw (c : Ctl) (t : ITy) (o : Ordr) (sc : Scope) (d : Option GReg) (a : AAddr) (x : GReg)
  -- class 3 (R227)
  | cpy (c : Ctl) (n : Option Bar) (a : GReg)
  | cpyw (c : Ctl) (t : ITy) (sc : Scope) (a w : GReg) (x : GReg)
  | qfence (c : Ctl) (mask : BitVec 16)
  | bari (c : Ctl) (n : Bar) (count : Src)
  | bara (c : Ctl) (n : Bar)
  | barw (c : Ctl) (n : Bar)
  | waita (c : Ctl) (t : ITy) (sc : Scope) (d : GReg) (a : SpOp) (x : GReg)
  | gfetch (c : Ctl) (f : FFmt) (d : VReg) (h : Src) (xy : GReg)
  | ginv (c : Ctl) (sc : Scope)
  | mrgopen (c : Ctl) (float : Bool) (a : GReg)
  | mrgpull (c : Ctl) (d : GReg)
  | mrgclose (c : Ctl)
  | emit (c : Ctl) (q a : GReg)
  | launch (c : Ctl) (a : GReg)
  | sample (c : Ctl) (tag : Src)
  -- class 4 (R262)
  | tsend (c : Ctl) (course : Src) (x : MReg)
  | trecv (c : Ctl) (d : MReg) (course : Src)
  | tzero (c : Ctl) (f : FFmt) (d : MReg)
  | tmov (c : Ctl) (d a : MReg)
  | ttrn (c : Ctl) (d a : MReg)
  | tscl (c : Ctl) (f : FFmt) (r : Rnd) (sat : Bool) (d a : MReg) (e : Src)
  -- class 5 (R263)
  | mlda (c : Ctl) (course h : Src) (xy : Option GReg)
  | mldb (c : Ctl) (course h : Src) (xy : Option GReg) (slot : BitVec 5)
  | mmul (c : Ctl) (course : Src) (f : MulF)
  | mmac (c : Ctl) (course : Src) (f : MulF)
  | mdist (c : Ctl) (course h : Src) (f : MulF)
  | mtopk (c : Ctl) (course : Src) (km1 : BitVec 5) (wm1 : BitVec 8) (max : Bool)
  | macc (c : Ctl) (course h : Src) (xy : Option GReg)
  | mstc (c : Ctl) (course h : Src) (xy : Option GReg)
  | mwait (c : Ctl) (mask : Src)
  | mchk (c : Ctl) (d : GReg) (course : Src)
  -- class 6 (R305)
  | deref (c : Ctl) (d a : GReg)
  | unify (c : Ctl) (d : PReg) (a b : GReg)
  | bind (c : Ctl) (a b : GReg)
  | mkvar (c : Ctl) (d : GReg)
  | mkstr (c : Ctl) (d a : GReg)
  | tagof (c : Ctl) (d a : GReg)
  | chpt (c : Ctl) (n : BitVec 4) (off : BitVec 18)
  | fail (c : Ctl)
  | cut (c : Ctl) (a : Option GReg)
  | ovpub (c : Ctl) (sc : Scope) (d : GReg)
  -- class 7 (R286)
  | bmand (c : Ctl) (d : GReg) (a b : Src)
  | popcp (c : Ctl) (d : GReg) (a b : Src)
  | isect (c : Ctl) (hi : Bool) (d : GReg) (p : PReg) (a b : GReg)
  | rebal (c : Ctl) (d : GReg) (a b : Src)
  | cmpk (c : Ctl) (a x : GReg) (p : PReg)
  | expnd (c : Ctl) (d : GReg) (p : PReg) (b : BReg) (a : GReg)
  -- class 8 (R332)
  | xwrite (c : Ctl) (t : ITy) (o : Ordr) (sc : Scope) (d : Option GReg) (a r : GReg) (x : Dat)
  | xread (c : Ctl) (t : ITy) (o : Ordr) (sc : Scope) (d : Dat) (a r : GReg)
  | xsend (c : Ctl) (d : GReg) (r q x : GReg) (nm1 : BitVec 3)
  | xfence (c : Ctl) (k : FKind) (sc : Scope)
  | rtxy (c : Ctl) (tc : TClass) (d : GReg) (a k : Src)
  | rtchk (c : Ctl) (d a : GReg)
  | ringpoll (c : Ctl) (d : GReg) (a : SpOp)
  | ringadv (c : Ctl) (a : SpOp) (n : Src)
  | ringwait (c : Ctl) (d : GReg) (a : SpOp)
  -- class 9 (R352)
  | sysrd (c : Ctl) (d : GReg) (n : BitVec 12)
  | syswr (c : Ctl) (n : BitVec 12) (a : Src)
  | eret (c : Ctl)
  | tlbinv (c : Ctl) (m : TlbMode) (a b : Src)
  | halt (c : Ctl) (code : BitVec 16)
  -- the events; a thread is named by its `gid`, a core by 17 × cluster + number (16 for the bow)
  | phaseArrival (t : Nat)
  | copyAcceptance (core sel : Nat)
  | copyCompletion (cl : BitVec 4) (q : BitVec 2)
  | mldbPerform (cl : BitVec 4) (n : BitVec 3)
  | mldaPerform (cl : BitVec 4) (n : BitVec 3)
  | mmulPerform (cl : BitVec 4) (n : BitVec 3)
  | mmacPerform (cl : BitVec 4) (n : BitVec 3)
  | mdistPerform (cl : BitVec 4) (n : BitVec 3)
  | mtopkPerform (cl : BitVec 4) (n : BitVec 3)
  | maccPerform (cl : BitVec 4) (n : BitVec 3)
  | mstcPerform (cl : BitVec 4) (n : BitVec 3)
  | harpCheck (cl : BitVec 4)
  | issueOpportunity (core : Nat)
  | resultCompletion (op : Nat)
  | trapDelivery (t : Nat)
  | faultReply (w : W64)
  | killPort (w : W64)
  | clusterAdvance (cl : BitVec 4)
  | stragglerTimeout (cl : BitVec 4)
  | bindgo (mc : BitVec 2) (w : W64)
  | groupStart (rec : BitVec 12) (base : Nat)
  | regionStart (cl : BitVec 4) (bases : List Nat)
  | regionResume (cl : BitVec 4) (bases : List Nat) (wgBases : List (Nat × Nat))
  | preempt (mc : BitVec 2) (w : W64)
  | save (rcb : BitVec 48)
  | wtsync (mc : BitVec 2) (w : W64)
  | wtsyncCompletion
  | systemRegisterWrite (mc : BitVec 2) (a : BitVec 32) (w : W64)
  | attach (mc : BitVec 2) (cmd data : W64)
  | debugHalt (mc : BitVec 2) (cmd data : W64)
  | resume (mc : BitVec 2) (cmd data : W64)
  | step (mc : BitVec 2) (cmd data : W64)
  | stepEnd (t : Nat)
  | read (mc : BitVec 2) (cmd data : W64)
  | write (mc : BitVec 2) (cmd data : W64)
  | revoke (mc : BitVec 2) (cmd data : W64)
  | mread (mc : BitVec 2) (cmd data : W64)
  | mwrite (mc : BitVec 2) (cmd data : W64)
  | retireCourse (w : W64)
  | retireCore (w : W64)
  | retirePseudoChannel (w : W64)
  | retireLink (w : W64)
  | retirePort (w : W64)
  | retireCluster (w : W64)
  | ukind (mc : BitVec 2) (cl : BitVec 4) (w : W64)
  | hashReq (mc : BitVec 2) (cl : BitVec 4) (w : W64)
  | rehashThreshold (cl : BitVec 4)
  | rehashUnitMove (cl : BitVec 4)
  | spareGo (mc : BitVec 2) (cl : BitVec 4) (w : W64)
  | spareRemap (cl : BitVec 4)
  | refresh (cl : BitVec 4) (pc : BitVec 6) (bank : BitVec 4)
  | scrub (cl : BitVec 4) (secondTier : Bool) (burst : Nat) (found : ScrubFind)
  | routerGrant (reply : Bool) (cl : BitVec 4) (out : BitVec 3)
  | sluice
  | ndonarDrain (port : BitVec 5)
  | requestAtDestination (x : Nat)
  | replyArrival (x : Nat)
  | exchangeTimeout (x : Nat)
  | ringMessageDelivery (x : Nat)
  | ingressCheck (p : Arriving)
  | ethernetFrameReceive (port : BitVec 2) (frame : List Byte) (fcsGood : Bool)
  | fixedLatencyRelease (x : Nat)
  /-- A mesh link, out of a cluster in a direction 1–4; or, with no cluster, the link of a port, 0–23 Ndonar and 24–27 Ethernet (R424). -/
  | linkDown (cl : Option (BitVec 4)) (dir : BitVec 5)
  | graphQueueTimeout (cl : BitVec 4) (q : BitVec 16)
  | deviceReset (ports : List (List Byte)) (mailbox : List Byte)
  | attestationQuote (nonce : W256)
  | thermalTrip (die : BitVec 2)
  | ldxCompletion (op : Nat)
  | queueHeadAdvance (h : HeadOf) (head : BitVec 32)
  | conflictWindow (cl : BitVec 4)
deriving DecidableEq, Repr

end Sys2Proof
end

