-- ==== Sys2Proof/WellFormed.lean ====
section
/-!
DEFINITION. Which instructions an encoding can hold: the checks 1 and 2 of R167 that the types of the operands do not
already make (R153, R156, R157, R159 and the encoding tables R168, R202, R226, R227, R262, R263, R286, R305, R332, R352).
-/
namespace Sys2Proof

/-- The width in bits of an integer type (R156). -/
def ITy.width : ITy → Nat
  | .s8 | .n8 | .b8 => 8
  | .s16 | .n16 | .b16 => 16
  | .s32 | .n32 | .b32 => 32
  | .s64 | .n64 | .b64 => 64
  | .b128 => 128

/-- Whether a type is signed (R74). -/
def ITy.signed : ITy → Bool
  | .s8 | .s16 | .s32 | .s64 => true
  | _ => false

/-- Whether a type is natural (R74). -/
def ITy.natural : ITy → Bool
  | .n8 | .n16 | .n32 | .n64 => true
  | _ => false

/-- Whether a type is raw bits of 8 to 64 bits (R74). -/
def ITy.raw : ITy → Bool
  | .b8 | .b16 | .b32 | .b64 => true
  | _ => false

/-- Whether a type is one of the types of 8 to 64 bits (R186). -/
def ITy.upTo64 (t : ITy) : Bool := t != .b128

/-- Whether a type is `.s32`, `.s64`, `.n32` or `.n64` (R237). -/
def ITy.atomInt : ITy → Bool
  | .s32 | .s64 | .n32 | .n64 => true
  | _ => false

/-- Whether a type is `.b32` or `.b64` (R237). -/
def ITy.atomRaw : ITy → Bool
  | .b32 | .b64 => true
  | _ => false

/-- A fixed-latency word uses no dependency counter (R159). -/
def Ctl.fixed (c : Ctl) : Bool := c.ctr.isNone
/-- A variable-latency word that writes a register uses a dependency counter (R159). -/
def Ctl.counted (c : Ctl) : Bool := c.ctr.isSome
/-- An unguarded word (R154). -/
def Ctl.unguarded (c : Ctl) : Bool := !c.gneg && c.gpred == 7#3

/-- An even register, the first of a pair (R153). -/
def GReg.pair (r : GReg) : Bool := !r.getLsbD 0

/-- A literal word for an operand of `w` bits: its other bits are the sign extension of a signed type and zero otherwise (R157). -/
def litFits (sg : Bool) (w : Nat) (x : W64) : Bool :=
  if sg then x == (x.truncate w).signExtend 64 else x == (x.truncate w).zeroExtend 64

/-- A source of file 1 or 7 read at `w` bits: a constant index is 0–62 and a literal fits the operand (R151, R157). -/
def Src.fits (sg : Bool) (w : Nat) : Src → Bool
  | .g _ => true
  | .k n => n != 63#6
  | .lit x => litFits sg w x

/-- A source of an integer type (R157, R185). -/
def Src.typed (t : ITy) (a : Src) : Bool := a.fits t.signed t.width
/-- A source read whole: an operand without a type is 64 bits wide, and a literal of it may have any high bits, also where its word reads
only low ones (R157). DESIGN CHOICE: log entry 81. -/
def Src.whole (a : Src) : Bool := a.fits false 64
/-- A handle operand: 32 bits (R64, R134). -/
def Src.handle (a : Src) : Bool := a.fits false 32

/-- A constant operand whose value is at most `n` (R202). -/
def Src.atMost (n : Nat) : Src → Bool
  | .g _ => false
  | .k i => i != 63#6 && decide (i.toNat ≤ n)
  | .lit x => decide (x.toNat ≤ n)

/-- A predicate destination is never `p7` (R153). -/
def PReg.dst (p : PReg) : Bool := p != 7#3

/-- A register that a load writes or a store reads: a v register or a g pair with `.b128`, another g register otherwise (R228). -/
def Dat.fits (t : ITy) : Dat → Bool
  | .g r => if t = .b128 then r.pair else true
  | .v _ => t = .b128

/-- The three formats of vector arithmetic (R83). -/
def FFmt.arith : FFmt → Bool
  | .f32 | .bf16 | .f16 => true
  | _ => false

/-- The storage formats that `SCALE` and `QNT` aim at (R217, R218). -/
def FFmt.quant : FFmt → Bool
  | .e4m3 | .e5m2 | .e2m1 => true
  | _ => false

/-- The formats numbered 1–6 (R211). -/
def FFmt.floating : FFmt → Bool
  | .s4 | .cb4 => false
  | _ => true

/-- The four rounding modes without `.rs` (R203). -/
def Rnd.plain (r : Rnd) : Bool := r != .rs

/-- The special registers that `RDS` and `WRS` take (R152, R191). -/
def SReg.readable (r : SReg) : Bool := decide (r.toNat < 59) && !(decide (32 ≤ r.toNat) && decide (r.toNat < 36))

/-- A multiplying operation has at most 8 result tiles (R263). -/
def MulF.fits (f : MulF) : Bool := decide (f.q.toNat ≤ 8)

/-- The system registers of R351. -/
def sysRegKnown (n : BitVec 12) : Bool :=
  let k := n.toNat
  k = 0 || k = 8 || k = 0x10 || k = 0x11 || k = 0x20 || k = 0x21 || k = 0x22 || k = 0x23 || k = 0x30 || k = 0x31 ||
  k = 0x40 || (decide (0x50 ≤ k) && decide (k ≤ 0x5A)) || k = 0x60 || k = 0x61 || k = 0x70 || k = 0x80

/-- The queues that a `QFENCE` mask may name (R248). -/
def queueMask (m : BitVec 16) : Bool := m != 0#16 && !m.getLsbD 7

/-- The ordering and scope fields of a non-atomic access (R155): the scope of a `.rlx` access has no effect. -/
def Ordr.isRlx (o : Ordr) : Bool := o == .rlx

/-- Whether an encoding can hold the instruction. Events are no encodings. -/
def Instr.wf : Instr → Bool
  | .nop c | .exit c | .reconv c | .yield c | .idem c => c.fixed
  | .bra c _ => c.fixed
  | .brx c _ | .ret c _ => c.fixed
  | .call c _ _ => c.fixed
  | .callIndirect c _ _ => c.fixed
  | .phase c _ _ => c.fixed && c.unguarded
  | .trap c _ | .brk c _ => c.fixed
  | .add c t _ a b | .sub c t _ a b | .mul c t _ a b => c.fixed && t.upTo64 && a.typed t && b.typed t
  | .and c t _ a b | .or c t _ a b | .xor c t _ a b | .andn c t _ a b => c.fixed && t.upTo64 && a.typed t && b.typed t
  | .shl c t _ a b | .shr c t _ a b | .sar c t _ a b | .rol c t _ a b => c.fixed && t.upTo64 && a.typed t && b.typed t
  | .mulh c t _ a b | .min c t _ a b | .max c t _ a b => c.fixed && (t.signed || t.natural) && a.typed t && b.typed t
  | .mad c t _ a b x => c.fixed && t.upTo64 && a.typed t && b.typed t && x.typed t
  | .abs c t _ a => c.fixed && t.signed && a.typed t
  | .neg c t _ a => c.fixed && (t.signed || t.raw) && a.typed t
  | .not c t _ a | .popc c t _ a | .clz c t _ a | .brev c t _ a => c.fixed && t.upTo64 && a.typed t
  | .bfx c t _ a b => c.fixed && t.upTo64 && a.typed t && b.whole
  | .bfi c t _ a b x => c.fixed && t.upTo64 && a.typed t && b.typed t && x.whole
  | .sel c t _ a b _ => c.fixed && t.upTo64 && a.typed t && b.typed t
  | .mov c t d a =>
    c.fixed && (if t = .b128 then d.pair && (match a with | .g r => r.pair | _ => a.whole) else a.typed t)
  | .movl c _ _ => c.fixed
  | .cmp c k t d a b =>
    c.fixed && t.upTo64 && k != .un && (!t.raw || k == .eq || k == .ne) && d.dst && a.typed t && b.typed t
  | .plop c _ d _ _ _ _ => c.fixed && d.dst
  | .rds c _ r => c.fixed && r.readable
  | .wrs c r a => c.fixed && r.readable && a.whole
  | .shfl c _ t _ a b | .bcast c t _ a b => c.fixed && t.upTo64 && a.typed t && b.typed t
  | .vote c f => c.fixed && (match f with | .all d _ | .any d _ => d.dst | .bal _ _ _ => true)
  | .matchLanes c t _ a => c.fixed && t.upTo64 && a.typed t
  | .scan c op t _ _ a | .redux c op t _ a =>
    c.fixed && t.upTo64 && a.typed t && (match op with | .min | .max => t.signed || t.natural | _ => true)
  | .fadd c f _ _ _ _ | .fsub c f _ _ _ _ | .fmul c f _ _ _ _ => c.fixed && f.arith
  | .ffma c f _ _ _ _ _ => c.fixed && f.arith
  | .fmin c f _ _ _ | .fmax c f _ _ _ | .famax c f _ _ _ => c.fixed && f.arith
  | .fcmp c _ f _ _ _ => c.fixed && f.arith
  | .frcp c f r _ _ | .frsq c f r _ _ | .fsqrt c f r _ _ => c.fixed && f.arith && r.plain
  | .fexp2 c f _ _ | .flog2 c f _ _ | .ftanh c f _ _ => c.fixed && f.arith
  | .fred c op f r _ _ => c.fixed && f.arith && (if op = .add then r.plain else r == .rne)
  | .fcvt c f _ _ _ _ k => c.fixed && f.floating && (match k with | none => true | some k => k.atMost 7)
  | .icvt c f r _ _ _ _ k => c.fixed && f.arith && r.plain && (match k with | none => true | some k => k.atMost 7)
  | .fpack c _ _ _ => c.fixed
  | .funpk c _ _ k => c.fixed && k.atMost 1
  | .vmov c d _ => c.fixed && (match d with | .g r => r.pair | .v _ => true)
  | .vtag c f cb _ a =>
    c.fixed && f != .s4 && (f == .cb4 || cb == 0#2) && (match a with | .g r => r.pair | _ => a.whole)
  | .vretag c f cb _ _ => c.fixed && f != .s4 && (f == .cb4 || cb == 0#2)
  | .seed c a => c.fixed && a.whole
  | .scale c f _ _ => c.fixed && f.quant
  | .qnt c f _ _ _ _ sc =>
    c.counted && f.quant && (match sc with | none => true | some (_, k) => k.atMost 3 && !k.atMost 0)
  | .dqnt c f r _ _ => c.counted && f.arith && r.plain
  | .cbld c _ _ _ => c.counted
  | .cbenc c _ _ _ => c.fixed
  | .ld c t o _ d _ _ => c.counted && d.fits t && (o == .rlx || o == .acq)
  | .st _ t o _ _ _ x => x.fits t && (o == .rlx || o == .rel)
  | .lds c t o _ d _ => c.counted && d.fits t && (o == .rlx || o == .acq)
  | .sts _ t o _ _ x => x.fits t && (o == .rlx || o == .rel)
  | .ldx _ t _ _ _ _ => t == .b32 || t == .b64 || t == .b128
  | .tld c _ h _ => c.counted && h.handle
  | .tst _ h _ _ => h.handle
  | .pref c _ _ _ => c.fixed
  | .brld c _ _ _ => c.counted
  | .fence _ _ _ | .vfence _ _ | .lfence _ => true
  | .aadd c t _ _ d _ _ | .amin c t _ _ d _ _ | .amax c t _ _ d _ _ => t.atomInt && (d.isNone || c.counted)
  | .afadd c _ _ _ d _ _ => d.isNone || c.counted
  | .afmax c _ _ d _ _ => d.isNone || c.counted
  | .aand c t _ _ d _ _ | .aor c t _ _ d _ _ | .axor c t _ _ d _ _ | .axchg c t _ _ d _ _ =>
    t.atomRaw && (d.isNone || c.counted)
  | .acas c t _ _ d _ x => t.atomRaw && x.pair && (d.isNone || c.counted)
  | .amaxrst c _ _ _ d _ _ => d.isNone || c.counted
  | .aincw c t _ _ d _ _ => (t == .n32 || t == .n64) && (d.isNone || c.counted)
  | .cpy _ _ _ => true
  | .cpyw _ t _ _ _ _ => t.atomRaw
  | .qfence _ m => queueMask m
  | .bari _ _ n => n.whole
  | .bara _ _ | .barw _ _ => true
  | .waita c t _ _ _ _ => c.counted && t.atomRaw
  | .gfetch c f _ h _ => c.counted && (f == .f32 || f == .bf16) && h.handle
  | .ginv _ _ | .mrgopen _ _ _ | .mrgclose _ | .emit _ _ _ | .launch _ _ => true
  | .mrgpull c d => c.counted && d.pair
  | .sample _ t => t.whole
  | .tsend _ n _ => n.whole
  | .trecv c _ n => c.counted && n.whole
  | .tzero c f _ => c.fixed && f != .cb4
  | .tmov c _ _ | .ttrn c _ _ => c.fixed
  | .tscl c f r _ _ _ e => c.fixed && f.arith && r.plain && e.whole
  | .mlda _ n h _ | .macc _ n h _ | .mstc _ n h _ => n.whole && h.handle
  | .mldb _ n h _ _ => n.whole && h.handle
  | .mmul _ n f | .mmac _ n f => n.whole && f.fits
  | .mdist _ n h f => n.whole && h.handle && f.fits
  | .mtopk _ n _ _ _ => n.whole
  | .mwait _ m => m.whole
  | .mchk c _ n => c.counted && n.whole
  | .deref c _ _ => c.counted
  | .unify c d _ _ => c.counted && d.dst
  | .bind c _ _ | .mkvar c _ | .mkstr c _ _ => c.counted
  | .tagof c _ _ => c.fixed
  | .chpt c n _ => c.counted && decide (n.toNat ≤ 8)
  | .fail c | .cut c _ => c.counted
  | .ovpub c _ _ => c.counted
  | .bmand c d a b => c.fixed && d.pair && a.whole && b.whole
  | .popcp c _ a b => c.fixed && a.whole && b.whole
  | .isect c _ d p a b =>
    c.fixed && d.pair && a.pair && b.pair && decide (b.toNat ≤ 60) && p.dst && d != b + 2#6
  | .rebal c d a b => c.fixed && decide (d.toNat ≤ 61) && a.whole && b.whole
  | .cmpk _ _ _ _ => true
  | .expnd c _ p _ a => c.counted && p.dst && a.pair
  | .xwrite c t o _ d _ r x => x.fits t && r.pair && (o == .rlx || o == .rel) && (d.isNone || c.counted)
  | .xread c t o _ d _ r => c.counted && d.fits t && r.pair && (o == .rlx || o == .acq)
  | .xsend c _ r _ _ _ => c.counted && r.pair
  | .xfence _ _ _ => true
  | .rtxy c _ d a k => c.fixed && d.pair && a.whole && k.whole
  | .rtchk c _ a => c.fixed && a.pair
  | .ringpoll c d _ => c.counted && d.pair
  | .ringadv _ _ n => n.whole
  | .ringwait c _ _ => c.counted
  | .sysrd c _ n => c.fixed && sysRegKnown n
  | .syswr _ n a => sysRegKnown n && a.whole
  | .eret _ => true
  | .tlbinv _ _ a b => a.whole && b.whole
  | .halt _ _ => true
  | .phaseArrival _ | .copyAcceptance _ _ | .copyCompletion _ _ | .mldbPerform _ _ | .mldaPerform _ _
  | .mmulPerform _ _ | .mmacPerform _ _ | .mdistPerform _ _ | .mtopkPerform _ _ | .maccPerform _ _ | .mstcPerform _ _
  | .harpCheck _ | .issueOpportunity _ | .resultCompletion _ | .trapDelivery _ | .faultReply _ | .killPort _
  | .clusterAdvance _ | .stragglerTimeout _ | .bindgo _ _ | .groupStart _ _ | .regionStart _ _ | .regionResume _ _ _
  | .preempt _ _ | .save _ | .wtsync _ _ | .wtsyncCompletion | .systemRegisterWrite _ _ _ | .attach _ _ _
  | .debugHalt _ _ _ | .resume _ _ _ | .step _ _ _ | .stepEnd _ | .read _ _ _ | .write _ _ _ | .revoke _ _ _
  | .mread _ _ _ | .mwrite _ _ _ | .retireCourse _ | .retireCore _ | .retirePseudoChannel _ | .retireLink _
  | .retirePort _ | .retireCluster _ | .ukind _ _ _ | .hashReq _ _ _ | .rehashThreshold _ | .rehashUnitMove _
  | .spareGo _ _ _ | .spareRemap _ | .refresh _ _ _ | .scrub _ _ _ _ | .routerGrant _ _ _ | .sluice | .ndonarDrain _
  | .requestAtDestination _ | .replyArrival _ | .exchangeTimeout _ | .ringMessageDelivery _ | .ingressCheck _
  | .ethernetFrameReceive _ _ _ | .fixedLatencyRelease _ | .linkDown _ _ | .graphQueueTimeout _ _ | .deviceReset _ _
  | .attestationQuote _ | .thermalTrip _ | .ldxCompletion _ | .queueHeadAdvance _ _ | .conflictWindow _ => false

end Sys2Proof
end

