-- ==== Sys2Proof/Decode.lean ====
section
/-!
DEFINITION. The clause header, the instruction word and its literal words (R147–R157), the decoder of every opcode of the
map (R165) and, after it, the encoder, each written from the encoding tables R168, R202, R226, R227, R262, R263, R286,
R305, R332 and R352.
-/
namespace Sys2Proof

/-- The fields of a clause header (R148). -/
structure Header where
  magic : BitVec 4
  cls   : BitVec 4
  nm1   : BitVec 4
  tail  : Bool
  res2  : BitVec 3
  wait  : BitVec 8
  res1  : BitVec 8
  lit   : BitVec 16
  res0  : BitVec 16
deriving DecidableEq, Repr

/-- The header that a word of code holds (R148). -/
def Header.ofWord (w : W64) : Header :=
  ⟨w.extractLsb' 60 4, w.extractLsb' 56 4, w.extractLsb' 52 4, w.getLsbD 51, w.extractLsb' 48 3, w.extractLsb' 40 8,
   w.extractLsb' 32 8, w.extractLsb' 16 16, w.extractLsb' 0 16⟩

/-- The word that holds a header (R148). -/
def Header.toWord (h : Header) : W64 :=
  h.magic ++ h.cls ++ h.nm1 ++ BitVec.ofBool h.tail ++ h.res2 ++ h.wait ++ h.res1 ++ h.lit ++ h.res0

/-- The number n of words of the clause (R148). -/
def Header.words (h : Header) : Nat := h.nm1.toNat + 1

/-- The checks of R149 that do not depend on the executing context. -/
def Header.ok (h : Header) : Bool :=
  h.magic == 0b1010#4 && h.res2 == 0#3 && h.res1 == 0#8 && h.res0 == 0#16 && decide (h.cls.toNat < 10) &&
  !h.lit.getLsbD 0 && decide (h.lit.toNat < 2 ^ h.words) &&
  !(h.tail && (h.cls == 0#4 || h.lit.getLsbD h.nm1.toNat || h.nm1 == 0#4))

/-- An instruction word taken apart, with its literal words (R150, R157). -/
structure Raw where
  opc   : BitVec 8
  gneg  : Bool
  gpred : BitVec 3
  stall : BitVec 3
  den   : Bool
  dctr  : BitVec 3
  dst   : BitVec 9
  sa    : BitVec 9
  sb    : BitVec 9
  low   : BitVec 18
  lits  : List W64
deriving DecidableEq, Repr

/-- The fields of an instruction word (R150). -/
def Raw.ofWord (w : W64) (lits : List W64) : Raw :=
  ⟨w.extractLsb' 56 8, w.getLsbD 55, w.extractLsb' 52 3, w.extractLsb' 49 3, w.getLsbD 48, w.extractLsb' 45 3,
   w.extractLsb' 36 9, w.extractLsb' 27 9, w.extractLsb' 18 9, w.extractLsb' 0 18, lits⟩

/-- The instruction word of a record of fields (R150). -/
def Raw.toWord (r : Raw) : W64 :=
  r.opc ++ BitVec.ofBool r.gneg ++ r.gpred ++ r.stall ++ BitVec.ofBool r.den ++ r.dctr ++ r.dst ++ r.sa ++ r.sb ++ r.low

/-! ## Codes of the modifier fields (R156) -/

/-- The integer type of a code. -/
def ITy.ofCode (b : BitVec 4) : Option ITy :=
  match b.toNat with
  | 0 => some .s8 | 1 => some .s16 | 2 => some .s32 | 3 => some .s64
  | 4 => some .n8 | 5 => some .n16 | 6 => some .n32 | 7 => some .n64
  | 8 => some .b8 | 9 => some .b16 | 10 => some .b32 | 11 => some .b64 | 12 => some .b128
  | _ => none

/-- The code of an integer type. -/
def ITy.code : ITy → BitVec 4
  | .s8 => 0 | .s16 => 1 | .s32 => 2 | .s64 => 3
  | .n8 => 4 | .n16 => 5 | .n32 => 6 | .n64 => 7
  | .b8 => 8 | .b16 => 9 | .b32 => 10 | .b64 => 11 | .b128 => 12

/-- The float format of a code. -/
def FFmt.ofCode (b : BitVec 4) : Option FFmt :=
  match b.toNat with
  | 1 => some .f32 | 2 => some .bf16 | 3 => some .f16 | 4 => some .e4m3 | 5 => some .e5m2 | 6 => some .e2m1
  | 8 => some .s4 | 10 => some .cb4
  | _ => none

/-- The code of a float format: the FMT number of R82. -/
def FFmt.code : FFmt → BitVec 4
  | .f32 => 1 | .bf16 => 2 | .f16 => 3 | .e4m3 => 4 | .e5m2 => 5 | .e2m1 => 6 | .s4 => 8 | .cb4 => 10

/-- The rounding mode of a number (R86). -/
def Rnd.ofCode (b : BitVec 3) : Option Rnd :=
  match b.toNat with
  | 0 => some .rne | 1 => some .rz | 2 => some .rdn | 3 => some .rup | 4 => some .rs
  | _ => none

/-- The number of a rounding mode (R86). -/
def Rnd.code : Rnd → BitVec 3
  | .rne => 0 | .rz => 1 | .rdn => 2 | .rup => 3 | .rs => 4

/-- The comparison of a code. -/
def CmpOp.ofCode (b : BitVec 3) : Option CmpOp :=
  match b.toNat with
  | 0 => some .eq | 1 => some .ne | 2 => some .lt | 3 => some .le | 4 => some .gt | 5 => some .ge | 6 => some .un
  | _ => none

/-- The code of a comparison. -/
def CmpOp.code : CmpOp → BitVec 3
  | .eq => 0 | .ne => 1 | .lt => 2 | .le => 3 | .gt => 4 | .ge => 5 | .un => 6

/-- The ordering of a code (R108). -/
def Ordr.ofCode (b : BitVec 2) : Ordr :=
  match b.toNat with
  | 0 => .rlx | 1 => .acq | 2 => .rel | _ => .ar

/-- The code of an ordering (R108). -/
def Ordr.code : Ordr → BitVec 2
  | .rlx => 0 | .acq => 1 | .rel => 2 | .ar => 3

/-- The scope of a number; 10–15 are none (R104). -/
def Scope.ofCode (b : BitVec 4) : Option Scope :=
  match b.toNat with
  | 0 => some .lane | 1 => some .grp | 2 => some .wg | 3 => some .core | 4 => some .clus | 5 => some .die
  | 6 => some .dev | 7 => some .node | 8 => some .fab | 9 => some .sys
  | _ => none

/-- The number of a scope (R103). -/
def Scope.code : Scope → BitVec 4
  | .lane => 0 | .grp => 1 | .wg => 2 | .core => 3 | .clus => 4 | .die => 5 | .dev => 6 | .node => 7 | .fab => 8 | .sys => 9

/-- The fence kind of a code; 0 is reserved. -/
def FKind.ofCode (b : BitVec 2) : Option FKind :=
  match b.toNat with
  | 1 => some .ld | 2 => some .st | 3 => some .rw
  | _ => none

/-- The code of a fence kind. -/
def FKind.code : FKind → BitVec 2
  | .ld => 1 | .st => 2 | .rw => 3

/-- The traffic class of a code. -/
def TClass.ofCode (b : BitVec 2) : TClass :=
  match b.toNat with
  | 0 => .lat | 1 => .bulk | 2 => .xc | _ => .mg

/-- The code of a traffic class. -/
def TClass.code : TClass → BitVec 2
  | .lat => 0 | .bulk => 1 | .xc => 2 | .mg => 3

/-- The predicate operation of a 3-bit code (R168). -/
def LogOp.ofCode (b : BitVec 3) : Option LogOp :=
  match b.toNat with
  | 0 => some .and | 1 => some .or | 2 => some .xor
  | _ => none

/-- The 3-bit code of a predicate operation (R168). -/
def LogOp.code : LogOp → BitVec 3
  | .and => 0 | .or => 1 | .xor => 2

/-- The shuffle mode of a code (R168). -/
def ShMode.ofCode (b : BitVec 3) : Option ShMode :=
  match b.toNat with
  | 0 => some .idx | 1 => some .up | 2 => some .down | 3 => some .xor
  | _ => none

/-- The code of a shuffle mode (R168). -/
def ShMode.code : ShMode → BitVec 3
  | .idx => 0 | .up => 1 | .down => 2 | .xor => 3

/-- The operation of `SCAN` and `REDUX` of a code (R168). -/
def LaneOp.ofCode (b : BitVec 3) : Option LaneOp :=
  match b.toNat with
  | 0 => some .add | 1 => some .min | 2 => some .max | 3 => some .and | 4 => some .or | 5 => some .xor
  | _ => none

/-- The code of an operation of `SCAN` and `REDUX` (R168). -/
def LaneOp.code : LaneOp → BitVec 3
  | .add => 0 | .min => 1 | .max => 2 | .and => 3 | .or => 4 | .xor => 5

/-- The operation of `FRED` of a code (R202). -/
def RedOp.ofCode (b : BitVec 2) : Option RedOp :=
  match b.toNat with
  | 0 => some .add | 1 => some .min | 2 => some .max
  | _ => none

/-- The code of an operation of `FRED` (R202). -/
def RedOp.code : RedOp → BitVec 2
  | .add => 0 | .min => 1 | .max => 2

/-- The type of `AFADD` of a code (R237). -/
def AFTy.ofCode (b : BitVec 4) : Option AFTy :=
  match b.toNat with
  | 1 => some .f32 | 2 => some .bf16
  | _ => none

/-- The code of a type of `AFADD` (R237). -/
def AFTy.code : AFTy → BitVec 4
  | .f32 => 1 | .bf16 => 2

/-- The type of `AMAXRST` of a code (R237). -/
def MaxTy.ofCode (b : BitVec 4) : Option MaxTy :=
  match b.toNat with
  | 1 => some .f32 | 2 => some .s32 | 3 => some .s64 | 6 => some .n32 | 7 => some .n64
  | _ => none

/-- The code of a type of `AMAXRST` (R237). -/
def MaxTy.code : MaxTy → BitVec 4
  | .f32 => 1 | .s32 => 2 | .s64 => 3 | .n32 => 6 | .n64 => 7

/-- The mode of `TLBINV` of a code; 3 is reserved (R352). -/
def TlbMode.ofCode (b : BitVec 2) : Option TlbMode :=
  match b.toNat with
  | 0 => some .all | 1 => some .asid | 2 => some .page
  | _ => none

/-- The code of a mode of `TLBINV` (R352). -/
def TlbMode.code : TlbMode → BitVec 2
  | .all => 0 | .asid => 1 | .page => 2

/-! ## Register specifiers (R151–R153) -/

/-- The file of a specifier. -/
def spFile (s : BitVec 9) : BitVec 3 := s.extractLsb' 6 3
/-- The index of a specifier. -/
def spIdx (s : BitVec 9) : BitVec 6 := s.extractLsb' 0 6

/-- An absent operand: file 0, index 0. -/
def spNone (s : BitVec 9) : Option Unit := if s = 0#9 then some () else none
/-- A general register. -/
def spG (s : BitVec 9) : Option GReg := if spFile s = 1#3 then some (spIdx s) else none
/-- A vector register. -/
def spV (s : BitVec 9) : Option VReg :=
  if spFile s = 2#3 && !(spIdx s).getLsbD 5 then some ((spIdx s).extractLsb' 0 5) else none
/-- A matrix register. -/
def spM (s : BitVec 9) : Option MReg :=
  if spFile s = 3#3 && (spIdx s).extractLsb' 3 3 == 0#3 then some ((spIdx s).extractLsb' 0 3) else none
/-- A predicate register. -/
def spP (s : BitVec 9) : Option PReg :=
  if spFile s = 4#3 && (spIdx s).extractLsb' 3 3 == 0#3 then some ((spIdx s).extractLsb' 0 3) else none
/-- A buffer record register. -/
def spB (s : BitVec 9) : Option BReg :=
  if spFile s = 5#3 && (spIdx s).extractLsb' 4 2 == 0#2 then some ((spIdx s).extractLsb' 0 4) else none
/-- A special register. -/
def spS (s : BitVec 9) : Option SReg := if spFile s = 6#3 then some (spIdx s) else none
/-- A barrier register: special indices 0–31. -/
def spBar (s : BitVec 9) : Option Bar :=
  if spFile s = 6#3 && !(spIdx s).getLsbD 5 then
    some (if (spIdx s).getLsbD 4 then .kb ((spIdx s).extractLsb' 0 4) else .nb ((spIdx s).extractLsb' 0 4))
  else none
/-- A codebook register: special indices 32–35. -/
def spCb (s : BitVec 9) : Option CReg :=
  if spFile s = 6#3 && (spIdx s).extractLsb' 2 4 == 0b1000#4 then some ((spIdx s).extractLsb' 0 2) else none
/-- A constant, with the literal words left after it (R157). -/
def spK (s : BitVec 9) (ls : List W64) : Option (Src × List W64) :=
  if spFile s = 7#3 then
    if spIdx s = 63#6 then (match ls with | x :: r => some (.lit x, r) | [] => none) else some (.k (spIdx s), ls)
  else none
/-- A general register or a constant, with the literal words left after it (R157). -/
def spGK (s : BitVec 9) (ls : List W64) : Option (Src × List W64) :=
  match spG s with
  | some r => some (.g r, ls)
  | none => spK s ls

/-- A scratchpad constant: absent, or file 7 index 63 with a literal whose bits above 16 are zero (R228). -/
def spOff (s : BitVec 9) (ls : List W64) : Option (Option (BitVec 16) × List W64) :=
  if s = 0#9 then some (none, ls)
  else match spK s ls with
    | some (.lit x, r) => if x.extractLsb' 16 48 = 0#48 then some (some (x.extractLsb' 0 16), r) else none
    | _ => none

/-- The specifier of a general register. -/
def mkG (r : GReg) : BitVec 9 := 1#3 ++ r
/-- The specifier of a vector register. -/
def mkV (r : VReg) : BitVec 9 := 2#3 ++ (0#1 ++ r)
/-- The specifier of a matrix register. -/
def mkM (r : MReg) : BitVec 9 := 3#3 ++ (0#3 ++ r)
/-- The specifier of a predicate register. -/
def mkP (r : PReg) : BitVec 9 := 4#3 ++ (0#3 ++ r)
/-- The specifier of a buffer record register. -/
def mkB (r : BReg) : BitVec 9 := 5#3 ++ (0#2 ++ r)
/-- The specifier of a special register. -/
def mkS (r : SReg) : BitVec 9 := 6#3 ++ r
/-- The specifier of a barrier register. -/
def mkBar : Bar → BitVec 9
  | .nb i => 6#3 ++ (0#2 ++ i)
  | .kb i => 6#3 ++ (1#2 ++ i)
/-- The specifier of a codebook register. -/
def mkCb (r : CReg) : BitVec 9 := 6#3 ++ (0b1000#4 ++ r)
/-- The specifier of a source. -/
def mkSrc : Src → BitVec 9
  | .g r => mkG r
  | .k n => 7#3 ++ n
  | .lit _ => 7#3 ++ 63#6
/-- The literal word that a source brings (R157). -/
def Src.lits : Src → List W64
  | .lit x => [x]
  | _ => []
/-- The specifier of a scratchpad constant (R228). -/
def SpOp.sb (a : SpOp) : BitVec 9 :=
  match a.off with
  | none => 0
  | some _ => 7#3 ++ 63#6
/-- The literal word of a scratchpad constant (R155, R228). -/
def SpOp.lits (a : SpOp) : List W64 :=
  match a.off with
  | none => []
  | some x => [x.zeroExtend 64]
/-- A data register in form M: file and index (R155). -/
def Dat.low : Dat → BitVec 7
  | .g r => 0#1 ++ r
  | .v r => 1#1 ++ (0#1 ++ r)
/-- The specifier of a destination of a load. -/
def mkDat : Dat → BitVec 9
  | .g r => mkG r
  | .v r => mkV r

/-! ## The four forms of LOW (R155) -/

/-- Form T: third specifier, type, three bits, two bits. -/
def lowT (x : BitVec 9) (t : BitVec 4) (m : BitVec 3) (l : BitVec 2) : BitVec 18 := x ++ t ++ m ++ l
/-- Form M: data register, type, ordering, scope. -/
def lowM (x : BitVec 7) (t : BitVec 4) (o : BitVec 2) (s : BitVec 4) : BitVec 18 := x ++ t ++ o ++ s ++ 0#1
/-- Form K with a 16-bit value. -/
def lowK (x : BitVec 16) : BitVec 18 := 0#2 ++ x
/-- The third specifier of form T. -/
def tX (l : BitVec 18) : BitVec 9 := l.extractLsb' 9 9
/-- The type field of form T. -/
def tT (l : BitVec 18) : BitVec 4 := l.extractLsb' 5 4
/-- Bits [4:2] of form T. -/
def tM (l : BitVec 18) : BitVec 3 := l.extractLsb' 2 3
/-- Bits [1:0] of form T. -/
def tL (l : BitVec 18) : BitVec 2 := l.extractLsb' 0 2
/-- The data register of form M. -/
def mX (l : BitVec 18) : BitVec 7 := l.extractLsb' 11 7
/-- The type field of form M. -/
def mT (l : BitVec 18) : BitVec 4 := l.extractLsb' 7 4
/-- The ordering field of form M. -/
def mO (l : BitVec 18) : BitVec 2 := l.extractLsb' 5 2
/-- The scope field of form M. -/
def mS (l : BitVec 18) : BitVec 4 := l.extractLsb' 1 4

/-- A condition of the decoder. -/
def need (b : Bool) : Option Unit := if b then some () else none

/-- The data register that form M names: a g register, or a v register with index below 32. -/
def lowDat (x : BitVec 7) : Option Dat :=
  if x.getLsbD 6 then (if x.getLsbD 5 then none else some (.v (x.extractLsb' 0 5))) else some (.g (x.extractLsb' 0 6))
/-- A data register of form M that must be a general register. -/
def lowG (x : BitVec 7) : Option GReg := if x.getLsbD 6 then none else some (x.extractLsb' 0 6)
/-- The destination of a load: a g or a v register. -/
def spDat (s : BitVec 9) : Option Dat :=
  match spG s with
  | some r => some (.g r)
  | none => (spV s).map .v
/-- A destination that may be absent. -/
def spOptG (s : BitVec 9) : Option (Option GReg) :=
  if s = 0#9 then some none else (spG s).map some
/-- No literal word is left over (R157). -/
def noLits (ls : List W64) : Option Unit := need ls.isEmpty

/-- The control fields of a word: DCTR is zero when DEN is (R150). -/
def Raw.ctl (r : Raw) : Option Ctl :=
  if r.den then some ⟨r.gneg, r.gpred, r.stall, some r.dctr⟩
  else if r.dctr = 0#3 then some ⟨r.gneg, r.gpred, r.stall, none⟩ else none

/-! ## Shapes shared by several opcodes -/

/-- No operand, form K with LOW zero. -/
def d0 (r : Raw) (mk : Ctl → Instr) : Option Instr := do
  let c ← r.ctl; spNone r.dst; spNone r.sa; spNone r.sb; need (r.low == 0#18); noLits r.lits
  return mk c
/-- Integer, two sources (R168). -/
def dT2 (r : Raw) (mk : Ctl → ITy → GReg → Src → Src → Instr) : Option Instr := do
  let c ← r.ctl; let t ← ITy.ofCode (tT r.low); let d ← spG r.dst
  let (a, ls) ← spGK r.sa r.lits; let (b, ls) ← spGK r.sb ls; noLits ls
  need (r.low == lowT 0 (tT r.low) 0 0)
  return mk c t d a b
/-- Integer, three sources (R168). -/
def dT3 (r : Raw) (mk : Ctl → ITy → GReg → Src → Src → Src → Instr) : Option Instr := do
  let c ← r.ctl; let t ← ITy.ofCode (tT r.low); let d ← spG r.dst
  let (a, ls) ← spGK r.sa r.lits; let (b, ls) ← spGK r.sb ls; let (x, ls) ← spGK (tX r.low) ls; noLits ls
  need (r.low == lowT (tX r.low) (tT r.low) 0 0)
  return mk c t d a b x
/-- Integer, one source (R168). -/
def dT1 (r : Raw) (mk : Ctl → ITy → GReg → Src → Instr) : Option Instr := do
  let c ← r.ctl; let t ← ITy.ofCode (tT r.low); let d ← spG r.dst
  let (a, ls) ← spGK r.sa r.lits; spNone r.sb; noLits ls
  need (r.low == lowT 0 (tT r.low) 0 0)
  return mk c t d a
/-- Vector, two sources with a rounding mode (R202). -/
def dV2r (r : Raw) (mk : Ctl → FFmt → Rnd → VReg → VReg → VReg → Instr) : Option Instr := do
  let c ← r.ctl; let f ← FFmt.ofCode (tT r.low); let m ← Rnd.ofCode (tM r.low)
  let d ← spV r.dst; let a ← spV r.sa; let b ← spV r.sb; noLits r.lits
  need (r.low == lowT 0 (tT r.low) (tM r.low) 0)
  return mk c f m d a b
/-- Vector, two sources (R202). -/
def dV2 (r : Raw) (mk : Ctl → FFmt → VReg → VReg → VReg → Instr) : Option Instr := do
  let c ← r.ctl; let f ← FFmt.ofCode (tT r.low)
  let d ← spV r.dst; let a ← spV r.sa; let b ← spV r.sb; noLits r.lits
  need (r.low == lowT 0 (tT r.low) 0 0)
  return mk c f d a b
/-- Vector, one source with a rounding mode (R202). -/
def dV1r (r : Raw) (mk : Ctl → FFmt → Rnd → VReg → VReg → Instr) : Option Instr := do
  let c ← r.ctl; let f ← FFmt.ofCode (tT r.low); let m ← Rnd.ofCode (tM r.low)
  let d ← spV r.dst; let a ← spV r.sa; spNone r.sb; noLits r.lits
  need (r.low == lowT 0 (tT r.low) (tM r.low) 0)
  return mk c f m d a
/-- Vector, one source (R202). -/
def dV1 (r : Raw) (mk : Ctl → FFmt → VReg → VReg → Instr) : Option Instr := do
  let c ← r.ctl; let f ← FFmt.ofCode (tT r.low)
  let d ← spV r.dst; let a ← spV r.sa; spNone r.sb; noLits r.lits
  need (r.low == lowT 0 (tT r.low) 0 0)
  return mk c f d a
/-- An atomic with its data register and its own type code (R226, R236). -/
def dAtom {τ : Type} (r : Raw) (ty : BitVec 4 → Option τ)
    (mk : Ctl → τ → Ordr → Scope → Option GReg → AAddr → GReg → Instr) : Option Instr := do
  let c ← r.ctl; let t ← ty (mT r.low); let sc ← Scope.ofCode (mS r.low); let x ← lowG (mX r.low)
  let d ← spOptG r.dst
  need (!r.low.getLsbD 0)
  match spB r.sa with
  | some b =>
    let i ← spG r.sb; noLits r.lits
    return mk c t (Ordr.ofCode (mO r.low)) sc d (.buf b i) x
  | none =>
    let a ← spG r.sa; let (off, ls) ← spOff r.sb r.lits; noLits ls
    return mk c t (Ordr.ofCode (mO r.low)) sc d (.sp ⟨a, off⟩) x
/-- A multiplying operation's LOW (R263). -/
def lowMul (f : MulF) : BitVec 18 := f.slot ++ f.km1 ++ f.q ++ 0#1
/-- The fields of a multiplying operation's LOW (R263). -/
def mulOf (l : BitVec 18) : MulF := ⟨l.extractLsb' 13 5, l.extractLsb' 5 8, l.extractLsb' 1 4⟩
/-- The coordinates specifier of class 5: a general register or none (R263). -/
def spXY (s : BitVec 9) : Option (Option GReg) := spOptG s
/-- A class-5 operation that names a handle and coordinates (R263). -/
def dHnd (r : Raw) (mk : Ctl → Src → Src → Option GReg → Instr) : Option Instr := do
  let c ← r.ctl; spNone r.dst; let (n, ls) ← spGK r.sa r.lits; let (h, ls) ← spGK r.sb ls
  let xy ← spXY (tX r.low); noLits ls
  need (r.low == lowT (tX r.low) 0 0 0)
  return mk c n h xy

/-! ## The opcode maps (R165) -/

/-- Class 0 (R168). `none` in the first component of the answer says that the opcode is reserved. -/
def decode0 (r : Raw) : Option (Option Instr) :=
  match r.opc.toNat with
  | 0x00 => some (d0 r .nop)
  | 0x01 => some (do
      let c ← r.ctl; spNone r.dst; spNone r.sa; spNone r.sb; noLits r.lits
      return .bra c r.low)
  | 0x02 => some (do
      let c ← r.ctl; spNone r.dst; let a ← spG r.sa; spNone r.sb; need (r.low == 0#18); noLits r.lits
      return .brx c a)
  | 0x03 => some (do
      let c ← r.ctl; let l ← spG r.dst; spNone r.sb; noLits r.lits
      if r.sa = 0#9 then return .call c l r.low
      else let a ← spG r.sa; need (r.low == 0#18); return .callIndirect c l a)
  | 0x04 => some (do
      let c ← r.ctl; spNone r.dst; let a ← spG r.sa; spNone r.sb; need (r.low == 0#18); noLits r.lits
      return .ret c a)
  | 0x05 => some (d0 r .exit)
  | 0x06 => some (d0 r .reconv)
  | 0x07 => some (d0 r .yield)
  | 0x08 => some (do
      let c ← r.ctl; spNone r.dst; spNone r.sa; spNone r.sb; need (r.low == 0#18)
      match r.lits with
      | [g, w] => return .phase c g w
      | _ => none)
  | 0x09 => some (d0 r .idem)
  | 0x0A => some (do
      let c ← r.ctl; spNone r.dst; spNone r.sa; spNone r.sb; noLits r.lits; need (r.low.extractLsb' 16 2 == 0#2)
      return .trap c (r.low.extractLsb' 0 16))
  | 0x0B => some (do
      let c ← r.ctl; spNone r.dst; spNone r.sa; spNone r.sb; noLits r.lits; need (r.low.extractLsb' 16 2 == 0#2)
      return .brk c (r.low.extractLsb' 0 16))
  | 0x10 => some (dT2 r .add)
  | 0x11 => some (dT2 r .sub)
  | 0x12 => some (dT2 r .mul)
  | 0x13 => some (dT2 r .mulh)
  | 0x14 => some (dT3 r .mad)
  | 0x15 => some (dT2 r .min)
  | 0x16 => some (dT2 r .max)
  | 0x17 => some (dT1 r .abs)
  | 0x18 => some (dT1 r .neg)
  | 0x19 => some (dT2 r .and)
  | 0x1A => some (dT2 r .or)
  | 0x1B => some (dT2 r .xor)
  | 0x1C => some (dT2 r .andn)
  | 0x1D => some (dT1 r .not)
  | 0x1E => some (dT2 r .shl)
  | 0x1F => some (dT2 r .shr)
  | 0x20 => some (dT2 r .sar)
  | 0x21 => some (dT2 r .rol)
  | 0x22 => some (dT1 r .popc)
  | 0x23 => some (dT1 r .clz)
  | 0x24 => some (dT1 r .brev)
  | 0x25 => some (dT2 r .bfx)
  | 0x26 => some (dT3 r .bfi)
  | 0x27 => some (do
      let c ← r.ctl; let t ← ITy.ofCode (tT r.low); let d ← spG r.dst
      let (a, ls) ← spGK r.sa r.lits; let (b, ls) ← spGK r.sb ls; let p ← spP (tX r.low); noLits ls
      need (r.low == lowT (tX r.low) (tT r.low) 0 0)
      return .sel c t d a b p)
  | 0x28 => some (dT1 r .mov)
  | 0x29 => some (do
      let c ← r.ctl; let d ← spG r.dst; spNone r.sa; spNone r.sb; need (r.low == 0#18)
      match r.lits with
      | [x] => return .movl c d x
      | _ => none)
  | 0x2A => some (do
      let c ← r.ctl; let t ← ITy.ofCode (tT r.low); let k ← CmpOp.ofCode (tM r.low); let d ← spP r.dst
      let (a, ls) ← spGK r.sa r.lits; let (b, ls) ← spGK r.sb ls; noLits ls
      need (r.low == lowT 0 (tT r.low) (tM r.low) 0)
      return .cmp c k t d a b)
  | 0x2B => some (do
      let c ← r.ctl; let op ← LogOp.ofCode (tM r.low); let d ← spP r.dst; let a ← spP r.sa; let b ← spP r.sb
      noLits r.lits; need (r.low == lowT 0 0 (tM r.low) (tL r.low))
      return .plop c op d a b (r.low.getLsbD 0) (r.low.getLsbD 1))
  | 0x2C => some (do
      let c ← r.ctl; let d ← spG r.dst; let s ← spS r.sa; spNone r.sb; need (r.low == 0#18); noLits r.lits
      return .rds c d s)
  | 0x2D => some (do
      let c ← r.ctl; let s ← spS r.dst; let (a, ls) ← spGK r.sa r.lits; spNone r.sb; need (r.low == 0#18); noLits ls
      return .wrs c s a)
  | 0x30 => some (do
      let c ← r.ctl; let t ← ITy.ofCode (tT r.low); let m ← ShMode.ofCode (tM r.low); let d ← spG r.dst
      let (a, ls) ← spGK r.sa r.lits; let (b, ls) ← spGK r.sb ls; noLits ls
      need (r.low == lowT 0 (tT r.low) (tM r.low) 0)
      return .shfl c m t d a b)
  | 0x31 => some (dT2 r .bcast)
  | 0x32 => some (do
      let c ← r.ctl; let a ← spP r.sa; noLits r.lits; need (r.low == lowT 0 0 (tM r.low) (tL r.low))
      match (tM r.low).toNat, (tL r.low).toNat with
      | 0, 0 => let d ← spP r.dst; spNone r.sb; return .vote c (.all d a)
      | 1, 0 => let d ← spP r.dst; spNone r.sb; return .vote c (.any d a)
      | 2, 0 => let d ← spG r.dst; spNone r.sb; return .vote c (.bal d a none)
      | 2, 1 => let d ← spG r.dst; let b ← spP r.sb; return .vote c (.bal d a (some (.and, b)))
      | 2, 2 => let d ← spG r.dst; let b ← spP r.sb; return .vote c (.bal d a (some (.or, b)))
      | 2, 3 => let d ← spG r.dst; let b ← spP r.sb; return .vote c (.bal d a (some (.xor, b)))
      | _, _ => none)
  | 0x33 => some (dT1 r .matchLanes)
  | 0x34 => some (do
      let c ← r.ctl; let t ← ITy.ofCode (tT r.low); let op ← LaneOp.ofCode (tM r.low); let d ← spG r.dst
      let (a, ls) ← spGK r.sa r.lits; spNone r.sb; noLits ls
      need (r.low == lowT 0 (tT r.low) (tM r.low) (0#1 ++ BitVec.ofBool (r.low.getLsbD 0)))
      return .scan c op t (r.low.getLsbD 0) d a)
  | 0x35 => some (do
      let c ← r.ctl; let t ← ITy.ofCode (tT r.low); let op ← LaneOp.ofCode (tM r.low); let d ← spG r.dst
      let (a, ls) ← spGK r.sa r.lits; spNone r.sb; noLits ls
      need (r.low == lowT 0 (tT r.low) (tM r.low) 0)
      return .redux c op t d a)
  | _ => none

/-- A constant operand that may be absent (R202). -/
def spOptK (s : BitVec 9) (ls : List W64) : Option (Option Src × List W64) :=
  if s = 0#9 then some (none, ls) else (spK s ls).map fun x => (some x.1, x.2)

/-- The codebook operand of `VTAG` and `VRETAG`: named with `.cb4`, absent otherwise (R214). -/
def spTagCb (f : FFmt) (s : BitVec 9) : Option CReg :=
  if f = .cb4 then spCb s else (spNone s).map fun _ => 0#2

/-- Class 1 (R202). -/
def decode1 (r : Raw) : Option (Option Instr) :=
  match r.opc.toNat with
  | 0x00 => some (dV2r r .fadd)
  | 0x01 => some (dV2r r .fsub)
  | 0x02 => some (dV2r r .fmul)
  | 0x03 => some (do
      let c ← r.ctl; let f ← FFmt.ofCode (tT r.low); let m ← Rnd.ofCode (tM r.low)
      let d ← spV r.dst; let a ← spV r.sa; let b ← spV r.sb; let x ← spV (tX r.low); noLits r.lits
      need (r.low == lowT (tX r.low) (tT r.low) (tM r.low) 0)
      return .ffma c f m d a b x)
  | 0x04 => some (dV2 r .fmin)
  | 0x05 => some (dV2 r .fmax)
  | 0x06 => some (do
      let c ← r.ctl; let f ← FFmt.ofCode (tT r.low); let k ← CmpOp.ofCode (tM r.low)
      let d ← spG r.dst; let a ← spV r.sa; let b ← spV r.sb; noLits r.lits
      need (r.low == lowT 0 (tT r.low) (tM r.low) 0)
      return .fcmp c k f d a b)
  | 0x07 => some (dV2 r .famax)
  | 0x08 => some (dV1r r .frcp)
  | 0x09 => some (dV1r r .frsq)
  | 0x0A => some (dV1r r .fsqrt)
  | 0x0B => some (dV1 r .fexp2)
  | 0x0C => some (dV1 r .flog2)
  | 0x0D => some (dV1 r .ftanh)
  | 0x0E => some (do
      let c ← r.ctl; let f ← FFmt.ofCode (tT r.low); let m ← Rnd.ofCode (tM r.low); let op ← RedOp.ofCode (tL r.low)
      let d ← spV r.dst; let a ← spV r.sa; spNone r.sb; noLits r.lits
      need (r.low == lowT 0 (tT r.low) (tM r.low) (tL r.low))
      return .fred c op f m d a)
  | 0x10 => some (do
      let c ← r.ctl; let f ← FFmt.ofCode (tT r.low); let m ← Rnd.ofCode (tM r.low)
      let d ← spV r.dst; let a ← spV r.sa; spNone r.sb; let (k, ls) ← spOptK (tX r.low) r.lits; noLits ls
      need (r.low == lowT (tX r.low) (tT r.low) (tM r.low) (BitVec.ofBool (r.low.getLsbD 1) ++ 0#1))
      return .fcvt c f m (r.low.getLsbD 1) d a k)
  | 0x11 => some (do
      let c ← r.ctl; let f ← FFmt.ofCode (tT r.low); let m ← Rnd.ofCode (tM r.low)
      let d ← spV r.dst; let a ← spV r.sa; spNone r.sb; let (k, ls) ← spOptK (tX r.low) r.lits; noLits ls
      return .icvt c f m (r.low.getLsbD 0) (r.low.getLsbD 1) d a k)
  | 0x12 => some (do
      let c ← r.ctl; let d ← spV r.dst; let a ← spV r.sa; let b ← spV r.sb; noLits r.lits; need (r.low == 0#18)
      return .fpack c d a b)
  | 0x13 => some (do
      let c ← r.ctl; let d ← spV r.dst; let a ← spV r.sa; spNone r.sb; let (k, ls) ← spK (tX r.low) r.lits; noLits ls
      need (r.low == lowT (tX r.low) 0 0 0)
      return .funpk c d a k)
  | 0x14 => some (do
      let c ← r.ctl; let d ← spDat r.dst; let a ← spV r.sa; spNone r.sb; noLits r.lits; need (r.low == 0#18)
      return .vmov c d a)
  | 0x15 => some (do
      let c ← r.ctl; let f ← FFmt.ofCode (tT r.low); let d ← spV r.dst
      let (a, ls) ← spGK r.sa r.lits; spNone r.sb; let cb ← spTagCb f (tX r.low); noLits ls
      need (r.low == lowT (tX r.low) (tT r.low) 0 0)
      return .vtag c f cb d a)
  | 0x16 => some (do
      let c ← r.ctl; let f ← FFmt.ofCode (tT r.low); let d ← spV r.dst; let a ← spV r.sa; spNone r.sb
      let cb ← spTagCb f (tX r.low); noLits r.lits
      need (r.low == lowT (tX r.low) (tT r.low) 0 0)
      return .vretag c f cb d a)
  | 0x17 => some (do
      let c ← r.ctl; let s ← spS r.dst; need (s == 43#6); let (a, ls) ← spGK r.sa r.lits; spNone r.sb; noLits ls
      need (r.low == 0#18)
      return .seed c a)
  | 0x18 => some (dV1 r .scale)
  | 0x19 => some (do
      let c ← r.ctl; let f ← FFmt.ofCode (tT r.low); let m ← Rnd.ofCode (tM r.low)
      let d ← spM r.dst; let a ← spM r.sa
      need (r.low == lowT (tX r.low) (tT r.low) (tM r.low) (BitVec.ofBool (r.low.getLsbD 1) ++ 0#1))
      if tX r.low = 0#9 then
        spNone r.sb; noLits r.lits
        return .qnt c f m (r.low.getLsbD 1) d a none
      else
        let v ← spV r.sb; let (k, ls) ← spK (tX r.low) r.lits; noLits ls
        return .qnt c f m (r.low.getLsbD 1) d a (some (v, k)))
  | 0x1A => some (do
      let c ← r.ctl; let f ← FFmt.ofCode (tT r.low); let m ← Rnd.ofCode (tM r.low)
      let d ← spM r.dst; let a ← spM r.sa; spNone r.sb; noLits r.lits
      need (r.low == lowT 0 (tT r.low) (tM r.low) 0)
      return .dqnt c f m d a)
  | 0x1B => some (do
      let c ← r.ctl; let cb ← spCb r.dst; let a ← spV r.sa; let b ← spV r.sb; noLits r.lits; need (r.low == 0#18)
      return .cbld c cb a b)
  | 0x1C => some (do
      let c ← r.ctl; let d ← spV r.dst; let a ← spV r.sa; let cb ← spCb r.sb; noLits r.lits
      need (r.low == lowT 0 10 0 0)
      return .cbenc c d a cb)
  | _ => none

/-- Class 2 (R226). -/
def decode2 (r : Raw) : Option (Option Instr) :=
  match r.opc.toNat with
  | 0x00 => some (do
      let c ← r.ctl; let t ← ITy.ofCode (mT r.low); let sc ← Scope.ofCode (mS r.low); let d ← spDat r.dst
      let b ← spB r.sa; let i ← spG r.sb; noLits r.lits; need (mX r.low == 0#7 && !r.low.getLsbD 0)
      return .ld c t (Ordr.ofCode (mO r.low)) sc d b i)
  | 0x01 => some (do
      let c ← r.ctl; let t ← ITy.ofCode (mT r.low); let sc ← Scope.ofCode (mS r.low); spNone r.dst
      let b ← spB r.sa; let i ← spG r.sb; let x ← lowDat (mX r.low); noLits r.lits; need (!r.low.getLsbD 0)
      return .st c t (Ordr.ofCode (mO r.low)) sc b i x)
  | 0x02 => some (do
      let c ← r.ctl; let t ← ITy.ofCode (mT r.low); let sc ← Scope.ofCode (mS r.low); let d ← spDat r.dst
      let a ← spG r.sa; let (off, ls) ← spOff r.sb r.lits; noLits ls; need (mX r.low == 0#7 && !r.low.getLsbD 0)
      return .lds c t (Ordr.ofCode (mO r.low)) sc d ⟨a, off⟩)
  | 0x03 => some (do
      let c ← r.ctl; let t ← ITy.ofCode (mT r.low); let sc ← Scope.ofCode (mS r.low); spNone r.dst
      let a ← spG r.sa; let (off, ls) ← spOff r.sb r.lits; let x ← lowDat (mX r.low); noLits ls
      need (!r.low.getLsbD 0)
      return .sts c t (Ordr.ofCode (mO r.low)) sc ⟨a, off⟩ x)
  | 0x04 => some (do
      let c ← r.ctl; let t ← ITy.ofCode (mT r.low); let n ← spBar r.dst
      let b ← spB r.sa; let i ← spG r.sb; let x ← lowG (mX r.low); noLits r.lits
      need (r.low == lowM (mX r.low) (mT r.low) 0 0)
      return .ldx c t n b i x)
  | 0x05 => some (do
      let c ← r.ctl; let d ← spM r.dst; let (h, ls) ← spGK r.sa r.lits; let g ← spG r.sb; noLits ls
      need (r.low == 0#18)
      return .tld c d h g)
  | 0x06 => some (do
      let c ← r.ctl; spNone r.dst; let (h, ls) ← spGK r.sa r.lits; let g ← spG r.sb; let x ← spM (tX r.low); noLits ls
      need (r.low == lowT (tX r.low) 0 0 0)
      return .tst c h g x)
  | 0x07 => some (do
      let c ← r.ctl; let t ← ITy.ofCode (mT r.low); spNone r.dst; let b ← spB r.sa; let i ← spG r.sb; noLits r.lits
      need (r.low == lowM 0 (mT r.low) 0 0)
      return .pref c t b i)
  | 0x08 => some (do
      let c ← r.ctl; let d ← spB r.dst; let a ← spG r.sa; spNone r.sb; noLits r.lits
      need (r.low.extractLsb' 16 2 == 0#2)
      return .brld c d a (r.low.extractLsb' 0 16))
  | 0x09 => some (do
      let c ← r.ctl; let k ← FKind.ofCode (r.low.extractLsb' 4 2); let sc ← Scope.ofCode (r.low.extractLsb' 0 4)
      spNone r.dst; spNone r.sa; spNone r.sb; noLits r.lits; need (r.low.extractLsb' 6 12 == 0#12)
      return .fence c k sc)
  | 0x0A => some (do
      let c ← r.ctl; let sc ← Scope.ofCode (r.low.extractLsb' 0 4)
      spNone r.dst; spNone r.sa; spNone r.sb; noLits r.lits; need (r.low.extractLsb' 4 14 == 0#14)
      return .vfence c sc)
  | 0x0B => some (d0 r .lfence)
  | 0x10 => some (dAtom r ITy.ofCode .aadd)
  | 0x11 => some (dAtom r AFTy.ofCode .afadd)
  | 0x12 => some (dAtom r ITy.ofCode .amin)
  | 0x13 => some (dAtom r ITy.ofCode .amax)
  | 0x14 => some (dAtom r (fun b => if b = 1#4 then some () else none) fun c _ o sc d a x => .afmax c o sc d a x)
  | 0x15 => some (dAtom r ITy.ofCode .aand)
  | 0x16 => some (dAtom r ITy.ofCode .aor)
  | 0x17 => some (dAtom r ITy.ofCode .axor)
  | 0x18 => some (dAtom r ITy.ofCode .axchg)
  | 0x19 => some (dAtom r ITy.ofCode .acas)
  | 0x1A => some (dAtom r MaxTy.ofCode .amaxrst)
  | 0x1B => some (dAtom r ITy.ofCode .aincw)
  | _ => none

/-- Class 3 (R227). -/
def decode3 (r : Raw) : Option (Option Instr) :=
  match r.opc.toNat with
  | 0x00 => some (do
      let c ← r.ctl; let a ← spG r.sa; spNone r.sb; need (r.low == 0#18); noLits r.lits
      if r.dst = 0#9 then return .cpy c none a
      else let n ← spBar r.dst; return .cpy c (some n) a)
  | 0x01 => some (do
      let c ← r.ctl; let t ← ITy.ofCode (mT r.low); let sc ← Scope.ofCode (mS r.low); spNone r.dst
      let a ← spG r.sa; let w ← spG r.sb; let x ← lowG (mX r.low); noLits r.lits
      need (mO r.low == 0#2 && !r.low.getLsbD 0)
      return .cpyw c t sc a w x)
  | 0x02 => some (do
      let c ← r.ctl; spNone r.dst; spNone r.sa; spNone r.sb; noLits r.lits; need (r.low.extractLsb' 16 2 == 0#2)
      return .qfence c (r.low.extractLsb' 0 16))
  | 0x03 => some (do
      let c ← r.ctl; let n ← spBar r.dst; let (a, ls) ← spGK r.sa r.lits; spNone r.sb; noLits ls; need (r.low == 0#18)
      return .bari c n a)
  | 0x04 => some (do
      let c ← r.ctl; spNone r.dst; let n ← spBar r.sa; spNone r.sb; noLits r.lits; need (r.low == 0#18)
      return .bara c n)
  | 0x05 => some (do
      let c ← r.ctl; spNone r.dst; let n ← spBar r.sa; spNone r.sb; noLits r.lits; need (r.low == 0#18)
      return .barw c n)
  | 0x06 => some (do
      let c ← r.ctl; let t ← ITy.ofCode (mT r.low); let sc ← Scope.ofCode (mS r.low); let d ← spG r.dst
      let a ← spG r.sa; let (off, ls) ← spOff r.sb r.lits; let x ← lowG (mX r.low); noLits ls
      need (mO r.low == 1#2 && !r.low.getLsbD 0)
      return .waita c t sc d ⟨a, off⟩ x)
  | 0x07 => some (do
      let c ← r.ctl; let f ← FFmt.ofCode (tT r.low); let d ← spV r.dst
      let (h, ls) ← spGK r.sa r.lits; let g ← spG r.sb; noLits ls
      need (r.low == lowT 0 (tT r.low) 0 0)
      return .gfetch c f d h g)
  | 0x08 => some (do
      let c ← r.ctl; let sc ← Scope.ofCode (r.low.extractLsb' 0 4)
      spNone r.dst; spNone r.sa; spNone r.sb; noLits r.lits; need (r.low.extractLsb' 4 14 == 0#14)
      return .ginv c sc)
  | 0x09 => some (do
      let c ← r.ctl; spNone r.dst; let a ← spG r.sa; spNone r.sb; noLits r.lits
      need (r.low == 0#18 || r.low == lowT 0 1 0 0)
      return .mrgopen c (r.low.getLsbD 5) a)
  | 0x0A => some (do
      let c ← r.ctl; let d ← spG r.dst; spNone r.sa; spNone r.sb; noLits r.lits; need (r.low == 0#18)
      return .mrgpull c d)
  | 0x0B => some (d0 r .mrgclose)
  | 0x0C => some (do
      let c ← r.ctl; spNone r.dst; let q ← spG r.sa; let a ← spG r.sb; noLits r.lits; need (r.low == 0#18)
      return .emit c q a)
  | 0x0D => some (do
      let c ← r.ctl; spNone r.dst; let a ← spG r.sa; spNone r.sb; noLits r.lits; need (r.low == 0#18)
      return .launch c a)
  | 0x0E => some (do
      let c ← r.ctl; spNone r.dst; let (a, ls) ← spGK r.sa r.lits; spNone r.sb; noLits ls; need (r.low == 0#18)
      return .sample c a)
  | _ => none

/-- Class 4 (R262). -/
def decode4 (r : Raw) : Option (Option Instr) :=
  match r.opc.toNat with
  | 0x00 => some (do
      let c ← r.ctl; spNone r.dst; let (n, ls) ← spGK r.sa r.lits; let x ← spM r.sb; noLits ls; need (r.low == 0#18)
      return .tsend c n x)
  | 0x01 => some (do
      let c ← r.ctl; let d ← spM r.dst; let (n, ls) ← spGK r.sa r.lits; spNone r.sb; noLits ls; need (r.low == 0#18)
      return .trecv c d n)
  | 0x02 => some (do
      let c ← r.ctl; let f ← FFmt.ofCode (tT r.low); let d ← spM r.dst; spNone r.sa; spNone r.sb; noLits r.lits
      need (r.low == lowT 0 (tT r.low) 0 0)
      return .tzero c f d)
  | 0x03 => some (do
      let c ← r.ctl; let d ← spM r.dst; let a ← spM r.sa; spNone r.sb; noLits r.lits; need (r.low == 0#18)
      return .tmov c d a)
  | 0x04 => some (do
      let c ← r.ctl; let d ← spM r.dst; let a ← spM r.sa; spNone r.sb; noLits r.lits; need (r.low == 0#18)
      return .ttrn c d a)
  | 0x05 => some (do
      let c ← r.ctl; let f ← FFmt.ofCode (tT r.low); let m ← Rnd.ofCode (tM r.low); let d ← spM r.dst; let a ← spM r.sa
      let (e, ls) ← spGK r.sb r.lits; noLits ls
      need (r.low == lowT 0 (tT r.low) (tM r.low) (BitVec.ofBool (r.low.getLsbD 1) ++ 0#1))
      return .tscl c f m (r.low.getLsbD 1) d a e)
  | _ => none

/-- Class 5 (R263). -/
def decode5 (r : Raw) : Option (Option Instr) :=
  match r.opc.toNat with
  | 0x00 => some (dHnd r .mlda)
  | 0x01 => some (do
      let c ← r.ctl; spNone r.dst; let (n, ls) ← spGK r.sa r.lits; let (h, ls) ← spGK r.sb ls
      let xy ← spXY (tX r.low); noLits ls; need (r.low.extractLsb' 5 4 == 0#4)
      return .mldb c n h xy (r.low.extractLsb' 0 5))
  | 0x02 => some (do
      let c ← r.ctl; spNone r.dst; let (n, ls) ← spGK r.sa r.lits; spNone r.sb; noLits ls
      need (r.low == lowMul (mulOf r.low))
      return .mmul c n (mulOf r.low))
  | 0x03 => some (do
      let c ← r.ctl; spNone r.dst; let (n, ls) ← spGK r.sa r.lits; spNone r.sb; noLits ls
      need (r.low == lowMul (mulOf r.low))
      return .mmac c n (mulOf r.low))
  | 0x04 => some (do
      let c ← r.ctl; spNone r.dst; let (n, ls) ← spGK r.sa r.lits; let (h, ls) ← spGK r.sb ls; noLits ls
      need (r.low == lowMul (mulOf r.low))
      return .mdist c n h (mulOf r.low))
  | 0x05 => some (do
      let c ← r.ctl; spNone r.dst; let (n, ls) ← spGK r.sa r.lits; spNone r.sb; noLits ls
      need (r.low.extractLsb' 0 4 == 0#4)
      return .mtopk c n (r.low.extractLsb' 13 5) (r.low.extractLsb' 5 8) (r.low.getLsbD 4))
  | 0x06 => some (dHnd r .macc)
  | 0x07 => some (dHnd r .mstc)
  | 0x08 => some (do
      let c ← r.ctl; spNone r.dst; let (m, ls) ← spGK r.sa r.lits; spNone r.sb; noLits ls; need (r.low == 0#18)
      return .mwait c m)
  | 0x09 => some (do
      let c ← r.ctl; let d ← spG r.dst; let (n, ls) ← spGK r.sa r.lits; spNone r.sb; noLits ls; need (r.low == 0#18)
      return .mchk c d n)
  | _ => none

/-- Class 6 (R305). -/
def decode6 (r : Raw) : Option (Option Instr) :=
  match r.opc.toNat with
  | 0x00 => some (do
      let c ← r.ctl; let d ← spG r.dst; let a ← spG r.sa; spNone r.sb; noLits r.lits; need (r.low == 0#18)
      return .deref c d a)
  | 0x01 => some (do
      let c ← r.ctl; let d ← spP r.dst; let a ← spG r.sa; let b ← spG r.sb; noLits r.lits; need (r.low == 0#18)
      return .unify c d a b)
  | 0x02 => some (do
      let c ← r.ctl; spNone r.dst; let a ← spG r.sa; let b ← spG r.sb; noLits r.lits; need (r.low == 0#18)
      return .bind c a b)
  | 0x03 => some (do
      let c ← r.ctl; let d ← spG r.dst; spNone r.sa; spNone r.sb; noLits r.lits; need (r.low == 0#18)
      return .mkvar c d)
  | 0x04 => some (do
      let c ← r.ctl; let d ← spG r.dst; let a ← spG r.sa; spNone r.sb; noLits r.lits; need (r.low == 0#18)
      return .mkstr c d a)
  | 0x05 => some (do
      let c ← r.ctl; let d ← spG r.dst; let a ← spG r.sa; spNone r.sb; noLits r.lits; need (r.low == 0#18)
      return .tagof c d a)
  | 0x06 => some (do
      let c ← r.ctl; spNone r.dst; spNone r.sb; noLits r.lits
      need (spFile r.sa == 7#3 && (spIdx r.sa).extractLsb' 4 2 == 0#2)
      return .chpt c ((spIdx r.sa).extractLsb' 0 4) r.low)
  | 0x07 => some (d0 r .fail)
  | 0x08 => some (do
      let c ← r.ctl; spNone r.dst; let a ← spOptG r.sa; spNone r.sb; noLits r.lits; need (r.low == 0#18)
      return .cut c a)
  | 0x09 => some (do
      let c ← r.ctl; let d ← spG r.dst; spNone r.sa; spNone r.sb; noLits r.lits
      let sc ← Scope.ofCode (r.low.extractLsb' 0 4); need (r.low.extractLsb' 4 14 == 0#14)
      return .ovpub c sc d)
  | _ => none

/-- Class 7 (R286). -/
def decode7 (r : Raw) : Option (Option Instr) :=
  match r.opc.toNat with
  | 0x00 => some (do
      let c ← r.ctl; let d ← spG r.dst; let (a, ls) ← spGK r.sa r.lits; let (b, ls) ← spGK r.sb ls; noLits ls
      need (r.low == 0#18)
      return .bmand c d a b)
  | 0x01 => some (do
      let c ← r.ctl; let d ← spG r.dst; let (a, ls) ← spGK r.sa r.lits; let (b, ls) ← spGK r.sb ls; noLits ls
      need (r.low == 0#18)
      return .popcp c d a b)
  | 0x02 => some (do
      let c ← r.ctl; let d ← spG r.dst; let a ← spG r.sa; let b ← spG r.sb; let p ← spP (tX r.low); noLits r.lits
      need (r.low == lowT (tX r.low) 0 0 (0#1 ++ BitVec.ofBool (r.low.getLsbD 0)))
      return .isect c (r.low.getLsbD 0) d p a b)
  | 0x03 => some (do
      let c ← r.ctl; let d ← spG r.dst; let (a, ls) ← spGK r.sa r.lits; let (b, ls) ← spGK r.sb ls; noLits ls
      need (r.low == 0#18)
      return .rebal c d a b)
  | 0x04 => some (do
      let c ← r.ctl; spNone r.dst; let a ← spG r.sa; let x ← spG r.sb; let p ← spP (tX r.low); noLits r.lits
      need (r.low == lowT (tX r.low) 0 0 0)
      return .cmpk c a x p)
  | 0x05 => some (do
      let c ← r.ctl; let d ← spG r.dst; let b ← spB r.sa; let a ← spG r.sb; let p ← spP (tX r.low); noLits r.lits
      need (r.low == lowT (tX r.low) 0 0 0)
      return .expnd c d p b a)
  | _ => none

/-- Class 8 (R332). -/
def decode8 (r : Raw) : Option (Option Instr) :=
  match r.opc.toNat with
  | 0x00 => some (do
      let c ← r.ctl; let t ← ITy.ofCode (mT r.low); let sc ← Scope.ofCode (mS r.low); let d ← spOptG r.dst
      let a ← spG r.sa; let g ← spG r.sb; let x ← lowDat (mX r.low); noLits r.lits; need (!r.low.getLsbD 0)
      return .xwrite c t (Ordr.ofCode (mO r.low)) sc d a g x)
  | 0x01 => some (do
      let c ← r.ctl; let t ← ITy.ofCode (mT r.low); let sc ← Scope.ofCode (mS r.low); let d ← spDat r.dst
      let a ← spG r.sa; let g ← spG r.sb; noLits r.lits; need (mX r.low == 0#7 && !r.low.getLsbD 0)
      return .xread c t (Ordr.ofCode (mO r.low)) sc d a g)
  | 0x02 => some (do
      let c ← r.ctl; let d ← spG r.dst; let g ← spG r.sa; let q ← spG r.sb; let x ← spG (tX r.low); noLits r.lits
      need (r.low == lowT (tX r.low) 0 (tM r.low) 0)
      return .xsend c d g q x (tM r.low))
  | 0x03 => some (do
      let c ← r.ctl; let k ← FKind.ofCode (r.low.extractLsb' 4 2); let sc ← Scope.ofCode (r.low.extractLsb' 0 4)
      spNone r.dst; spNone r.sa; spNone r.sb; noLits r.lits; need (r.low.extractLsb' 6 12 == 0#12)
      return .xfence c k sc)
  | 0x04 => some (do
      let c ← r.ctl; let d ← spG r.dst; let (a, ls) ← spGK r.sa r.lits; let (k, ls) ← spGK r.sb ls; noLits ls
      need (r.low == lowT 0 0 0 (tL r.low))
      return .rtxy c (TClass.ofCode (tL r.low)) d a k)
  | 0x05 => some (do
      let c ← r.ctl; let d ← spG r.dst; let a ← spG r.sa; spNone r.sb; noLits r.lits; need (r.low == 0#18)
      return .rtchk c d a)
  | 0x06 => some (do
      let c ← r.ctl; let d ← spG r.dst; let a ← spG r.sa; let (off, ls) ← spOff r.sb r.lits; noLits ls
      need (r.low == 0#18)
      return .ringpoll c d ⟨a, off⟩)
  | 0x07 => some (do
      let c ← r.ctl; spNone r.dst; let a ← spG r.sa; let (off, ls) ← spOff r.sb r.lits
      let (n, ls) ← spGK (tX r.low) ls; noLits ls
      need (r.low == lowT (tX r.low) 0 0 0)
      return .ringadv c ⟨a, off⟩ n)
  | 0x08 => some (do
      let c ← r.ctl; let d ← spG r.dst; let a ← spG r.sa; let (off, ls) ← spOff r.sb r.lits; noLits ls
      need (r.low == 0#18)
      return .ringwait c d ⟨a, off⟩)
  | _ => none

/-- Class 9 (R352). -/
def decode9 (r : Raw) : Option (Option Instr) :=
  match r.opc.toNat with
  | 0x00 => some (do
      let c ← r.ctl; let d ← spG r.dst; spNone r.sa; spNone r.sb; noLits r.lits; need (r.low.extractLsb' 12 6 == 0#6)
      return .sysrd c d (r.low.extractLsb' 0 12))
  | 0x01 => some (do
      let c ← r.ctl; spNone r.dst; let (a, ls) ← spGK r.sa r.lits; spNone r.sb; noLits ls
      need (r.low.extractLsb' 12 6 == 0#6)
      return .syswr c (r.low.extractLsb' 0 12) a)
  | 0x02 => some (d0 r .eret)
  | 0x03 => some (do
      let c ← r.ctl; spNone r.dst; let (a, ls) ← spGK r.sa r.lits; let (b, ls) ← spGK r.sb ls; noLits ls
      let m ← TlbMode.ofCode (tL r.low); need (r.low.extractLsb' 2 16 == 0#16)
      return .tlbinv c m a b)
  | 0x04 => some (do
      let c ← r.ctl; spNone r.dst; spNone r.sa; spNone r.sb; noLits r.lits; need (r.low.extractLsb' 16 2 == 0#2)
      return .halt c (r.low.extractLsb' 0 16))
  | _ => none

/-- The map of an engine class (R165). -/
def decodeClass (cls : Nat) (r : Raw) : Option (Option Instr) :=
  match cls with
  | 0 => decode0 r | 1 => decode1 r | 2 => decode2 r | 3 => decode3 r | 4 => decode4 r
  | 5 => decode5 r | 6 => decode6 r | 7 => decode7 r | 8 => decode8 r | 9 => decode9 r
  | _ => none

/-- Why a word is no instruction: its opcode is reserved (check 1 of R167), or a field breaks a rule (check 2). -/
inductive DecErr where
  | opcode
  | field
deriving DecidableEq, Repr

/-- Whether a decoding ends in a well-formed instruction (R167). -/
def decodeResult : Option (Option Instr) → Except DecErr Instr
  | none => .error .opcode
  | some none => .error .field
  | some (some i) => if i.wf then .ok i else .error .field

/-- The instruction that a word holds, with the literal words that follow it, in the map of a class (R165, R167). -/
def decode (cls : Nat) (w : W64) (lits : List W64) : Except DecErr Instr := decodeResult (decodeClass cls (Raw.ofWord w lits))

/-- The words of a clause that are literals after word `i`: the maximal run that follows it (R157). -/
def litRun (h : Header) (words : List W64) (i : Nat) : List W64 :=
  ((List.range h.words).drop (i + 1)).takeWhile (fun j => h.lit.getLsbD j) |>.map fun j => words.getD j 0

/-- The map in which word `i` of a clause is decoded: class 0 at a TAIL word (R164). -/
def Header.classAt (h : Header) (i : Nat) : Nat := if h.tail && i == h.nm1.toNat then 0 else h.cls.toNat

/-- The first instruction of a clause given as one number: the header in bits 63–0, then its words in order. -/
def decodeClause (w : Nat) : Option Instr :=
  let h := Header.ofWord (BitVec.ofNat 64 w)
  let words := (List.range 16).map fun i => BitVec.ofNat 64 (w >>> (64 * (i + 1)))
  if h.ok then
    match decode (h.classAt 0) (words.getD 0 0) (litRun h words 0) with
    | .ok i => some i
    | .error _ => none
  else none

/-- The instruction that the decoder reads from an instruction of the opcode table: its clause, header word first.
DESIGN CHOICE: log entry 12. -/
def decodeTableWord (nbits w : Nat) : Option Instr := decodeClause (w % 2 ^ nbits)

/-! ## The encoder -/

/-- The control fields and the opcode of a word; the operand fields follow. -/
def Ctl.raw (c : Ctl) (opc : BitVec 8) (dst sa sb : BitVec 9) (low : BitVec 18) (lits : List W64) : Raw :=
  ⟨opc, c.gneg, c.gpred, c.stall, c.ctr.isSome, c.ctr.getD 0, dst, sa, sb, low, lits⟩

/-- An integer operation of two sources (R168). -/
def eT2 (opc : BitVec 8) (c : Ctl) (t : ITy) (d : GReg) (a b : Src) : Nat × Raw :=
  (0, c.raw opc (mkG d) (mkSrc a) (mkSrc b) (lowT 0 t.code 0 0) (a.lits ++ b.lits))
/-- An integer operation of three sources (R168). -/
def eT3 (opc : BitVec 8) (c : Ctl) (t : ITy) (d : GReg) (a b x : Src) : Nat × Raw :=
  (0, c.raw opc (mkG d) (mkSrc a) (mkSrc b) (lowT (mkSrc x) t.code 0 0) (a.lits ++ b.lits ++ x.lits))
/-- An integer operation of one source (R168). -/
def eT1 (opc : BitVec 8) (c : Ctl) (t : ITy) (d : GReg) (a : Src) : Nat × Raw :=
  (0, c.raw opc (mkG d) (mkSrc a) 0 (lowT 0 t.code 0 0) a.lits)
/-- A vector operation of two sources with a rounding mode (R202). -/
def eV2r (opc : BitVec 8) (c : Ctl) (f : FFmt) (m : Rnd) (d a b : VReg) : Nat × Raw :=
  (1, c.raw opc (mkV d) (mkV a) (mkV b) (lowT 0 f.code m.code 0) [])
/-- A vector operation of two sources (R202). -/
def eV2 (opc : BitVec 8) (c : Ctl) (f : FFmt) (d a b : VReg) : Nat × Raw :=
  (1, c.raw opc (mkV d) (mkV a) (mkV b) (lowT 0 f.code 0 0) [])
/-- A vector operation of one source with a rounding mode (R202). -/
def eV1r (opc : BitVec 8) (c : Ctl) (f : FFmt) (m : Rnd) (d a : VReg) : Nat × Raw :=
  (1, c.raw opc (mkV d) (mkV a) 0 (lowT 0 f.code m.code 0) [])
/-- A vector operation of one source (R202). -/
def eV1 (opc : BitVec 8) (c : Ctl) (f : FFmt) (d a : VReg) : Nat × Raw :=
  (1, c.raw opc (mkV d) (mkV a) 0 (lowT 0 f.code 0 0) [])
/-- An atomic (R226). -/
def eAtom (opc : BitVec 8) (c : Ctl) (t : BitVec 4) (o : Ordr) (sc : Scope) (d : Option GReg) (a : AAddr) (x : GReg) :
    Nat × Raw :=
  let dst := match d with | none => 0 | some r => mkG r
  let low := lowM (0#1 ++ x) t o.code sc.code
  match a with
  | .buf b i => (2, c.raw opc dst (mkB b) (mkG i) low [])
  | .sp a => (2, c.raw opc dst (mkG a.base) a.sb low a.lits)
/-- An optional general register (R263). -/
def mkXY : Option GReg → BitVec 9
  | none => 0
  | some r => mkG r
/-- A class-5 operation with a handle (R263). -/
def eHnd (opc : BitVec 8) (c : Ctl) (n h : Src) (xy : Option GReg) : Nat × Raw :=
  (5, c.raw opc 0 (mkSrc n) (mkSrc h) (lowT (mkXY xy) 0 0 0) (n.lits ++ h.lits))
/-- The specifier of an optional constant (R202). -/
def mkOptK : Option Src → BitVec 9
  | none => 0
  | some k => mkSrc k
/-- The literals of an optional constant (R157). -/
def optKLits : Option Src → List W64
  | none => []
  | some k => k.lits
/-- The codebook operand of a tag (R214). -/
def mkTagCb (f : FFmt) (cb : CReg) : BitVec 9 := if f = .cb4 then mkCb cb else 0
/-- The two literal bits [1:0] with saturation in bit 1. -/
def satBits (s : Bool) : BitVec 2 := BitVec.ofBool s ++ 0#1

/-- The class and the fields of an instruction's word, with its literal words; an event has none. -/
def encodeRaw : Instr → Option (Nat × Raw)
  | .nop c => some (0, c.raw 0x00 0 0 0 0 [])
  | .bra c off => some (0, c.raw 0x01 0 0 0 off [])
  | .brx c a => some (0, c.raw 0x02 0 (mkG a) 0 0 [])
  | .call c l off => some (0, c.raw 0x03 (mkG l) 0 0 off [])
  | .callIndirect c l a => some (0, c.raw 0x03 (mkG l) (mkG a) 0 0 [])
  | .ret c a => some (0, c.raw 0x04 0 (mkG a) 0 0 [])
  | .exit c => some (0, c.raw 0x05 0 0 0 0 [])
  | .reconv c => some (0, c.raw 0x06 0 0 0 0 [])
  | .yield c => some (0, c.raw 0x07 0 0 0 0 [])
  | .phase c g w => some (0, c.raw 0x08 0 0 0 0 [g, w])
  | .idem c => some (0, c.raw 0x09 0 0 0 0 [])
  | .trap c code => some (0, c.raw 0x0A 0 0 0 (lowK code) [])
  | .brk c code => some (0, c.raw 0x0B 0 0 0 (lowK code) [])
  | .add c t d a b => some (eT2 0x10 c t d a b)
  | .sub c t d a b => some (eT2 0x11 c t d a b)
  | .mul c t d a b => some (eT2 0x12 c t d a b)
  | .mulh c t d a b => some (eT2 0x13 c t d a b)
  | .mad c t d a b x => some (eT3 0x14 c t d a b x)
  | .min c t d a b => some (eT2 0x15 c t d a b)
  | .max c t d a b => some (eT2 0x16 c t d a b)
  | .abs c t d a => some (eT1 0x17 c t d a)
  | .neg c t d a => some (eT1 0x18 c t d a)
  | .and c t d a b => some (eT2 0x19 c t d a b)
  | .or c t d a b => some (eT2 0x1A c t d a b)
  | .xor c t d a b => some (eT2 0x1B c t d a b)
  | .andn c t d a b => some (eT2 0x1C c t d a b)
  | .not c t d a => some (eT1 0x1D c t d a)
  | .shl c t d a b => some (eT2 0x1E c t d a b)
  | .shr c t d a b => some (eT2 0x1F c t d a b)
  | .sar c t d a b => some (eT2 0x20 c t d a b)
  | .rol c t d a b => some (eT2 0x21 c t d a b)
  | .popc c t d a => some (eT1 0x22 c t d a)
  | .clz c t d a => some (eT1 0x23 c t d a)
  | .brev c t d a => some (eT1 0x24 c t d a)
  | .bfx c t d a b => some (eT2 0x25 c t d a b)
  | .bfi c t d a b x => some (eT3 0x26 c t d a b x)
  | .sel c t d a b p => some (0, c.raw 0x27 (mkG d) (mkSrc a) (mkSrc b) (lowT (mkP p) t.code 0 0) (a.lits ++ b.lits))
  | .mov c t d a => some (eT1 0x28 c t d a)
  | .movl c d x => some (0, c.raw 0x29 (mkG d) 0 0 0 [x])
  | .cmp c k t d a b => some (0, c.raw 0x2A (mkP d) (mkSrc a) (mkSrc b) (lowT 0 t.code k.code 0) (a.lits ++ b.lits))
  | .plop c op d a b na nb =>
    some (0, c.raw 0x2B (mkP d) (mkP a) (mkP b) (lowT 0 0 op.code (BitVec.ofBool nb ++ BitVec.ofBool na)) [])
  | .rds c d r => some (0, c.raw 0x2C (mkG d) (mkS r) 0 0 [])
  | .wrs c r a => some (0, c.raw 0x2D (mkS r) (mkSrc a) 0 0 a.lits)
  | .shfl c m t d a b => some (0, c.raw 0x30 (mkG d) (mkSrc a) (mkSrc b) (lowT 0 t.code m.code 0) (a.lits ++ b.lits))
  | .bcast c t d a b => some (eT2 0x31 c t d a b)
  | .vote c (.all d a) => some (0, c.raw 0x32 (mkP d) (mkP a) 0 (lowT 0 0 0 0) [])
  | .vote c (.any d a) => some (0, c.raw 0x32 (mkP d) (mkP a) 0 (lowT 0 0 1 0) [])
  | .vote c (.bal d a none) => some (0, c.raw 0x32 (mkG d) (mkP a) 0 (lowT 0 0 2 0) [])
  | .vote c (.bal d a (some (.and, b))) => some (0, c.raw 0x32 (mkG d) (mkP a) (mkP b) (lowT 0 0 2 1) [])
  | .vote c (.bal d a (some (.or, b))) => some (0, c.raw 0x32 (mkG d) (mkP a) (mkP b) (lowT 0 0 2 2) [])
  | .vote c (.bal d a (some (.xor, b))) => some (0, c.raw 0x32 (mkG d) (mkP a) (mkP b) (lowT 0 0 2 3) [])
  | .matchLanes c t d a => some (eT1 0x33 c t d a)
  | .scan c op t e d a => some (0, c.raw 0x34 (mkG d) (mkSrc a) 0 (lowT 0 t.code op.code (0#1 ++ BitVec.ofBool e)) a.lits)
  | .redux c op t d a => some (0, c.raw 0x35 (mkG d) (mkSrc a) 0 (lowT 0 t.code op.code 0) a.lits)
  | .fadd c f m d a b => some (eV2r 0x00 c f m d a b)
  | .fsub c f m d a b => some (eV2r 0x01 c f m d a b)
  | .fmul c f m d a b => some (eV2r 0x02 c f m d a b)
  | .ffma c f m d a b x => some (1, c.raw 0x03 (mkV d) (mkV a) (mkV b) (lowT (mkV x) f.code m.code 0) [])
  | .fmin c f d a b => some (eV2 0x04 c f d a b)
  | .fmax c f d a b => some (eV2 0x05 c f d a b)
  | .fcmp c k f d a b => some (1, c.raw 0x06 (mkG d) (mkV a) (mkV b) (lowT 0 f.code k.code 0) [])
  | .famax c f d a b => some (eV2 0x07 c f d a b)
  | .frcp c f m d a => some (eV1r 0x08 c f m d a)
  | .frsq c f m d a => some (eV1r 0x09 c f m d a)
  | .fsqrt c f m d a => some (eV1r 0x0A c f m d a)
  | .fexp2 c f d a => some (eV1 0x0B c f d a)
  | .flog2 c f d a => some (eV1 0x0C c f d a)
  | .ftanh c f d a => some (eV1 0x0D c f d a)
  | .fred c op f m d a => some (1, c.raw 0x0E (mkV d) (mkV a) 0 (lowT 0 f.code m.code op.code) [])
  | .fcvt c f m s d a k => some (1, c.raw 0x10 (mkV d) (mkV a) 0 (lowT (mkOptK k) f.code m.code (satBits s)) (optKLits k))
  | .icvt c f m tf n d a k =>
    some (1, c.raw 0x11 (mkV d) (mkV a) 0 (lowT (mkOptK k) f.code m.code (BitVec.ofBool n ++ BitVec.ofBool tf)) (optKLits k))
  | .fpack c d a b => some (1, c.raw 0x12 (mkV d) (mkV a) (mkV b) 0 [])
  | .funpk c d a k => some (1, c.raw 0x13 (mkV d) (mkV a) 0 (lowT (mkSrc k) 0 0 0) k.lits)
  | .vmov c d a => some (1, c.raw 0x14 (mkDat d) (mkV a) 0 0 [])
  | .vtag c f cb d a => some (1, c.raw 0x15 (mkV d) (mkSrc a) 0 (lowT (mkTagCb f cb) f.code 0 0) a.lits)
  | .vretag c f cb d a => some (1, c.raw 0x16 (mkV d) (mkV a) 0 (lowT (mkTagCb f cb) f.code 0 0) [])
  | .seed c a => some (1, c.raw 0x17 (mkS 43) (mkSrc a) 0 0 a.lits)
  | .scale c f d a => some (eV1 0x18 c f d a)
  | .qnt c f m s d a none => some (1, c.raw 0x19 (mkM d) (mkM a) 0 (lowT 0 f.code m.code (satBits s)) [])
  | .qnt c f m s d a (some (v, k)) =>
    some (1, c.raw 0x19 (mkM d) (mkM a) (mkV v) (lowT (mkSrc k) f.code m.code (satBits s)) k.lits)
  | .dqnt c f m d a => some (1, c.raw 0x1A (mkM d) (mkM a) 0 (lowT 0 f.code m.code 0) [])
  | .cbld c cb a b => some (1, c.raw 0x1B (mkCb cb) (mkV a) (mkV b) 0 [])
  | .cbenc c d a cb => some (1, c.raw 0x1C (mkV d) (mkV a) (mkCb cb) (lowT 0 10 0 0) [])
  | .ld c t o sc d b i => some (2, c.raw 0x00 (mkDat d) (mkB b) (mkG i) (lowM 0 t.code o.code sc.code) [])
  | .st c t o sc b i x => some (2, c.raw 0x01 0 (mkB b) (mkG i) (lowM x.low t.code o.code sc.code) [])
  | .lds c t o sc d a => some (2, c.raw 0x02 (mkDat d) (mkG a.base) a.sb (lowM 0 t.code o.code sc.code) a.lits)
  | .sts c t o sc a x => some (2, c.raw 0x03 0 (mkG a.base) a.sb (lowM x.low t.code o.code sc.code) a.lits)
  | .ldx c t n b i x => some (2, c.raw 0x04 (mkBar n) (mkB b) (mkG i) (lowM (0#1 ++ x) t.code 0 0) [])
  | .tld c d h g => some (2, c.raw 0x05 (mkM d) (mkSrc h) (mkG g) 0 h.lits)
  | .tst c h g x => some (2, c.raw 0x06 0 (mkSrc h) (mkG g) (lowT (mkM x) 0 0 0) h.lits)
  | .pref c t b i => some (2, c.raw 0x07 0 (mkB b) (mkG i) (lowM 0 t.code 0 0) [])
  | .brld c d a off => some (2, c.raw 0x08 (mkB d) (mkG a) 0 (lowK off) [])
  | .fence c k sc => some (2, c.raw 0x09 0 0 0 (0#12 ++ k.code ++ sc.code) [])
  | .vfence c sc => some (2, c.raw 0x0A 0 0 0 (0#14 ++ sc.code) [])
  | .lfence c => some (2, c.raw 0x0B 0 0 0 0 [])
  | .aadd c t o sc d a x => some (eAtom 0x10 c t.code o sc d a x)
  | .afadd c t o sc d a x => some (eAtom 0x11 c t.code o sc d a x)
  | .amin c t o sc d a x => some (eAtom 0x12 c t.code o sc d a x)
  | .amax c t o sc d a x => some (eAtom 0x13 c t.code o sc d a x)
  | .afmax c o sc d a x => some (eAtom 0x14 c 1 o sc d a x)
  | .aand c t o sc d a x => some (eAtom 0x15 c t.code o sc d a x)
  | .aor c t o sc d a x => some (eAtom 0x16 c t.code o sc d a x)
  | .axor c t o sc d a x => some (eAtom 0x17 c t.code o sc d a x)
  | .axchg c t o sc d a x => some (eAtom 0x18 c t.code o sc d a x)
  | .acas c t o sc d a x => some (eAtom 0x19 c t.code o sc d a x)
  | .amaxrst c t o sc d a x => some (eAtom 0x1A c t.code o sc d a x)
  | .aincw c t o sc d a x => some (eAtom 0x1B c t.code o sc d a x)
  | .cpy c none a => some (3, c.raw 0x00 0 (mkG a) 0 0 [])
  | .cpy c (some n) a => some (3, c.raw 0x00 (mkBar n) (mkG a) 0 0 [])
  | .cpyw c t sc a w x => some (3, c.raw 0x01 0 (mkG a) (mkG w) (lowM (0#1 ++ x) t.code 0 sc.code) [])
  | .qfence c m => some (3, c.raw 0x02 0 0 0 (lowK m) [])
  | .bari c n a => some (3, c.raw 0x03 (mkBar n) (mkSrc a) 0 0 a.lits)
  | .bara c n => some (3, c.raw 0x04 0 (mkBar n) 0 0 [])
  | .barw c n => some (3, c.raw 0x05 0 (mkBar n) 0 0 [])
  | .waita c t sc d a x => some (3, c.raw 0x06 (mkG d) (mkG a.base) a.sb (lowM (0#1 ++ x) t.code 1 sc.code) a.lits)
  | .gfetch c f d h g => some (3, c.raw 0x07 (mkV d) (mkSrc h) (mkG g) (lowT 0 f.code 0 0) h.lits)
  | .ginv c sc => some (3, c.raw 0x08 0 0 0 (0#14 ++ sc.code) [])
  | .mrgopen c f a => some (3, c.raw 0x09 0 (mkG a) 0 (lowT 0 (0#3 ++ BitVec.ofBool f) 0 0) [])
  | .mrgpull c d => some (3, c.raw 0x0A (mkG d) 0 0 0 [])
  | .mrgclose c => some (3, c.raw 0x0B 0 0 0 0 [])
  | .emit c q a => some (3, c.raw 0x0C 0 (mkG q) (mkG a) 0 [])
  | .launch c a => some (3, c.raw 0x0D 0 (mkG a) 0 0 [])
  | .sample c t => some (3, c.raw 0x0E 0 (mkSrc t) 0 0 t.lits)
  | .tsend c n x => some (4, c.raw 0x00 0 (mkSrc n) (mkM x) 0 n.lits)
  | .trecv c d n => some (4, c.raw 0x01 (mkM d) (mkSrc n) 0 0 n.lits)
  | .tzero c f d => some (4, c.raw 0x02 (mkM d) 0 0 (lowT 0 f.code 0 0) [])
  | .tmov c d a => some (4, c.raw 0x03 (mkM d) (mkM a) 0 0 [])
  | .ttrn c d a => some (4, c.raw 0x04 (mkM d) (mkM a) 0 0 [])
  | .tscl c f m s d a e => some (4, c.raw 0x05 (mkM d) (mkM a) (mkSrc e) (lowT 0 f.code m.code (satBits s)) e.lits)
  | .mlda c n h xy => some (eHnd 0x00 c n h xy)
  | .mldb c n h xy s => some (5, c.raw 0x01 0 (mkSrc n) (mkSrc h) (mkXY xy ++ 0#4 ++ s) (n.lits ++ h.lits))
  | .mmul c n f => some (5, c.raw 0x02 0 (mkSrc n) 0 (lowMul f) n.lits)
  | .mmac c n f => some (5, c.raw 0x03 0 (mkSrc n) 0 (lowMul f) n.lits)
  | .mdist c n h f => some (5, c.raw 0x04 0 (mkSrc n) (mkSrc h) (lowMul f) (n.lits ++ h.lits))
  | .mtopk c n k w m => some (5, c.raw 0x05 0 (mkSrc n) 0 (k ++ w ++ BitVec.ofBool m ++ 0#4) n.lits)
  | .macc c n h xy => some (eHnd 0x06 c n h xy)
  | .mstc c n h xy => some (eHnd 0x07 c n h xy)
  | .mwait c m => some (5, c.raw 0x08 0 (mkSrc m) 0 0 m.lits)
  | .mchk c d n => some (5, c.raw 0x09 (mkG d) (mkSrc n) 0 0 n.lits)
  | .deref c d a => some (6, c.raw 0x00 (mkG d) (mkG a) 0 0 [])
  | .unify c d a b => some (6, c.raw 0x01 (mkP d) (mkG a) (mkG b) 0 [])
  | .bind c a b => some (6, c.raw 0x02 0 (mkG a) (mkG b) 0 [])
  | .mkvar c d => some (6, c.raw 0x03 (mkG d) 0 0 0 [])
  | .mkstr c d a => some (6, c.raw 0x04 (mkG d) (mkG a) 0 0 [])
  | .tagof c d a => some (6, c.raw 0x05 (mkG d) (mkG a) 0 0 [])
  | .chpt c n off => some (6, c.raw 0x06 0 (7#3 ++ (0#2 ++ n)) 0 off [])
  | .fail c => some (6, c.raw 0x07 0 0 0 0 [])
  | .cut c a => some (6, c.raw 0x08 0 (mkXY a) 0 0 [])
  | .ovpub c sc d => some (6, c.raw 0x09 (mkG d) 0 0 (0#14 ++ sc.code) [])
  | .bmand c d a b => some (7, c.raw 0x00 (mkG d) (mkSrc a) (mkSrc b) 0 (a.lits ++ b.lits))
  | .popcp c d a b => some (7, c.raw 0x01 (mkG d) (mkSrc a) (mkSrc b) 0 (a.lits ++ b.lits))
  | .isect c h d p a b => some (7, c.raw 0x02 (mkG d) (mkG a) (mkG b) (lowT (mkP p) 0 0 (0#1 ++ BitVec.ofBool h)) [])
  | .rebal c d a b => some (7, c.raw 0x03 (mkG d) (mkSrc a) (mkSrc b) 0 (a.lits ++ b.lits))
  | .cmpk c a x p => some (7, c.raw 0x04 0 (mkG a) (mkG x) (lowT (mkP p) 0 0 0) [])
  | .expnd c d p b a => some (7, c.raw 0x05 (mkG d) (mkB b) (mkG a) (lowT (mkP p) 0 0 0) [])
  | .xwrite c t o sc d a r x => some (8, c.raw 0x00 (mkXY d) (mkG a) (mkG r) (lowM x.low t.code o.code sc.code) [])
  | .xread c t o sc d a r => some (8, c.raw 0x01 (mkDat d) (mkG a) (mkG r) (lowM 0 t.code o.code sc.code) [])
  | .xsend c d r q x n => some (8, c.raw 0x02 (mkG d) (mkG r) (mkG q) (lowT (mkG x) 0 n 0) [])
  | .xfence c k sc => some (8, c.raw 0x03 0 0 0 (0#12 ++ k.code ++ sc.code) [])
  | .rtxy c tc d a k => some (8, c.raw 0x04 (mkG d) (mkSrc a) (mkSrc k) (lowT 0 0 0 tc.code) (a.lits ++ k.lits))
  | .rtchk c d a => some (8, c.raw 0x05 (mkG d) (mkG a) 0 0 [])
  | .ringpoll c d a => some (8, c.raw 0x06 (mkG d) (mkG a.base) a.sb 0 a.lits)
  | .ringadv c a n => some (8, c.raw 0x07 0 (mkG a.base) a.sb (lowT (mkSrc n) 0 0 0) (a.lits ++ n.lits))
  | .ringwait c d a => some (8, c.raw 0x08 (mkG d) (mkG a.base) a.sb 0 a.lits)
  | .sysrd c d n => some (9, c.raw 0x00 (mkG d) 0 0 (0#6 ++ n) [])
  | .syswr c n a => some (9, c.raw 0x01 0 (mkSrc a) 0 (0#6 ++ n) a.lits)
  | .eret c => some (9, c.raw 0x02 0 0 0 0 [])
  | .tlbinv c m a b => some (9, c.raw 0x03 0 (mkSrc a) (mkSrc b) (0#16 ++ m.code) (a.lits ++ b.lits))
  | .halt c code => some (9, c.raw 0x04 0 0 0 (lowK code) [])
  | .phaseArrival _ | .copyAcceptance _ _ | .copyCompletion _ _ | .mldbPerform _ _ | .mldaPerform _ _
  | .mmulPerform _ _ | .mmacPerform _ _ | .mdistPerform _ _ | .mtopkPerform _ _ | .maccPerform _ _ | .mstcPerform _ _
  | .harpCheck _ | .issueOpportunity _ | .resultCompletion _ | .trapDelivery _ | .faultReply _ | .killPort _
  | .clusterAdvance _ | .stragglerTimeout _ | .bindgo _ _ | .groupStart _ _ | .regionStart _ _ | .regionResume _ _ _
  | .preempt _ _ | .save _ | .wtsync _ _ | .wtsyncCompletion | .systemRegisterWrite _ _ _ | .attach _ _ _
  | .debugHalt _ _ _ | .resume _ _ _ | .step _ _ _ | .stepEnd _ | .read _ _ _ | .write _ _ _ | .revoke _ _ _
  | .mread _ _ _ | .mwrite _ _ _ | .retireCourse _ | .retireCore _ | .retirePseudoChannel _ | .retireLink _
  | .retirePort _ | .retireCluster _ | .ukind _ _ _ | .hashReq _ _ _ | .rehashThreshold _ | .rehashUnitMove _
  | .spareGo _ _ _ | .spareRemap _ | .refresh _ _ _ | .scrub _ _ _ _ | .routerGrant _ _ _ | .sluice | .ndonarDrain _
  | .requestAtDestination _ | .replyArrival _ | .exchangeTimeout _ | .ringMessageDelivery _ | .ingressCheck _
  | .ethernetFrameReceive _ _ _ | .fixedLatencyRelease _ | .linkDown _ _ | .graphQueueTimeout _ _ | .deviceReset _ _
  | .attestationQuote _ | .thermalTrip _ | .ldxCompletion _ | .queueHeadAdvance _ _ | .conflictWindow _ => none

/-- The class of an instruction's word (R165). -/
def Instr.cls (i : Instr) : Nat := match encodeRaw i with | some x => x.1 | none => 15

/-- The words of an instruction: its instruction word and its literal words (R150, R157). -/
def encode (i : Instr) : List W64 := match encodeRaw i with | some x => x.2.toWord :: x.2.lits | none => []

/-- A clause of one instruction, header word first (R147, R148). -/
def encodeClause (i : Instr) : List W64 :=
  let ws := encode i
  (Header.toWord ⟨0b1010, BitVec.ofNat 4 i.cls, BitVec.ofNat 4 (ws.length - 1), false, 0, 0, 0,
    BitVec.ofNat 16 (2 ^ ws.length - 2), 0⟩) :: ws

end Sys2Proof
end

