-- ==== Sys2Proof/Machine/State.lean ====
section
/-!
DEFINITION. Everything the spec gives the machine, as plain data, and the state right after device reset.
Keys of the maps: a cluster c is 0–15; a core is 17c + k with k = 0–15 a vector core and k = 16 the bow core; a group is
16 × core + slot; a thread is its `gid` (R44); a workgroup is 2^32 × core + WG; a course is 8c + n; a queue of the copy
engine is 4c + q; a router port is named where its map is declared.
-/
namespace Sys2Proof.Machine

/-! ## Register contents -/

/-- A vector register: its bits and its format tag (R15, R82). -/
structure VVal where
  bits : W128
  tag  : Byte
deriving DecidableEq, Repr

/-- Zero with the EMPTY tag (R43). -/
def VVal.zero : VVal := ⟨0, 0⟩

/-- A matrix register or a tile: tag, 32-byte scale field, and the codes of its elements, element (i, j) under key 32i + j (R84). -/
structure MVal where
  tag   : Byte
  scale : W256
  elems : FMap (BitVec 32)
deriving DecidableEq, Repr

/-- Zero with the EMPTY tag (R43). -/
def MVal.zero : MVal := ⟨0, 0, []⟩

/-- A barrier register: arrivals of the round, expected count, parity (R193, R245). -/
structure Barrier where
  count    : BitVec 16
  expected : BitVec 16
  parity   : Bool
deriving DecidableEq, Repr

/-- A barrier register before its first `BARI` (R245). -/
def Barrier.zero : Barrier := ⟨0, 0, false⟩

/-- The special registers a thread holds of its own and an instruction writes (R192). -/
inductive Sreg where
  | srs | fsr | hp | hb | tr | ovb | ovt | ovl | chb | chp | shb | steps | re | rc
deriving DecidableEq, Repr

/-- A register of a thread. -/
inductive RegId where
  | g (i : GReg)
  | v (i : VReg)
  | p (i : PReg)
  | s (r : Sreg)
deriving DecidableEq, Repr

/-- What a pending write puts into a register: a word, a vector, a predicate, or flags to OR into `fsr` (R194). -/
inductive RVal where
  | w (x : W64)
  | v (x : VVal)
  | p (b : Bool)
  | orF (f : BitVec 5)
deriving DecidableEq, Repr

/-- A write of a register not yet settled: the cycle from which a fixed-latency result may be read, or the outstanding
operation it belongs to (R158, R161, R163). -/
structure Pend where
  reg   : RegId
  val   : RVal
  ready : Option Nat
  op    : Nat
deriving DecidableEq, Repr

/-- A write of a matrix register not yet settled; `rows` are the rows it writes (R445). -/
structure MPend where
  reg   : MReg
  val   : MVal
  rows  : BitVec 32
  ready : Option Nat
  op    : Nat
deriving DecidableEq, Repr

/-! ## Threads -/

/-- A trap on its way to a handler: the record of R381, the value and the resume address. -/
structure TrapInfo where
  record : W64
  value  : W64
  resume : W64
deriving DecidableEq, Repr

/-- The hidden trap state of a thread in its handler (R379). -/
structure Handler where
  info : TrapInfo
  g61  : W64
  g62  : W64
  g63  : W64
deriving DecidableEq, Repr

/-- What a thread is doing (R20). -/
inductive TStat where
  /-- No group is bound here. -/
  | off
  /-- In issue. -/
  | run
  | exited
  /-- A park waits for the outstanding operations of its sub-group (R160). -/
  | parkWait
  /-- Parked on a fault until the verdict for its token (R47, R387). -/
  | parked (tok : Nat)
  /-- In the sleeping wait of that number (R21). -/
  | sleep (id : Nat)
  /-- A trap waits for the thread's outstanding operations (R160, R379). -/
  | trapWait (i : TrapInfo)
  /-- Held at `PHASE` before its arrival takes effect (R182). -/
  | arriving
  /-- Stopped by a double or fatal trap (R380), or with its fault domain (R386). -/
  | stopped
deriving DecidableEq, Repr

/-- The liveness a thread recorded at its last `PHASE`: mask words and ranges (R179–R182). -/
structure Live where
  gmask  : W64
  word2  : W64
  ranges : List W64
deriving DecidableEq, Repr

/-- A debugger halt: its reason and code, and whether its halt record has been posted (R398). -/
structure Halted where
  reason : BitVec 8
  code   : BitVec 16
  posted : Bool
deriving DecidableEq, Repr

/-- A thread (R18). -/
structure Thread where
  stat     : TStat
  /-- The program counter as a resume address: header and word (R147, R169). -/
  hdr      : BitVec 48
  word     : BitVec 4
  /-- The first cycle in which the stall count of its last clause has elapsed (R20). -/
  readyAt  : Nat
  /-- The operation whose completion it waits for before it issues again (R311), or 0. -/
  waitOp   : Nat
  /-- Whether it waits for all its operations before it issues again (R160). -/
  drain    : Bool
  g        : FMap W64
  v        : FMap VVal
  p        : FMap Bool
  d        : FMap Nat
  srs      : BitVec 32
  fsr      : BitVec 5
  hp       : W64
  hb       : W64
  tr       : W64
  ovb      : W64
  ovt      : W64
  ovl      : W64
  chb      : W64
  chp      : W64
  shb      : W64
  steps    : W64
  re       : W64
  rc       : BitVec 32
  pend     : List Pend
  age      : BitVec 6
  yielded  : Nat
  handler  : Option Handler
  /-- A `STRAGGLER` named it and waits for its clause or its handler to end (R39, R380). -/
  strag    : Bool
  live     : Live
  /-- The wait parities of `nb0`–`nb15` (0–15) and `kb0`–`kb15` (16–31) (R245). -/
  parity   : FMap Bool
  halt     : Option Halted
  stepping : Bool
  warn     : Bool
  /-- The tile load or store that parked this thread and that its replay performs (R445). -/
  tileAt   : Option W64
  /-- A debugger halt that waits for the clause of its held word to end: reason and code (R21, R398). -/
  haltReq  : Option (BitVec 8 × BitVec 16)
deriving DecidableEq, Repr

/-- A thread position to which no group is bound. -/
def Thread.blank : Thread where
  stat := .off
  hdr := 0
  word := 0
  readyAt := 0
  waitOp := 0
  drain := false
  g := []
  v := []
  p := []
  d := []
  srs := 0
  fsr := 0
  hp := 0
  hb := 0
  tr := 0
  ovb := 0
  ovt := 0
  ovl := 0
  chb := 0
  chp := 0
  shb := 0
  steps := 0
  re := 0
  rc := 0
  pend := []
  age := 0
  yielded := 0
  handler := Option.none
  strag := false
  live := ⟨0, 0, []⟩
  parity := []
  halt := Option.none
  stepping := false
  warn := false
  tileAt := Option.none
  haltReq := Option.none

/-! ## Sleeping waits, outstanding operations, joins -/

/-- What a sleeping wait waits for (R21). -/
inductive SleepKind where
  | reconv
  | phase
  | waita (addr : Nat) (bytes : Nat) (cmp : W64) (d : GReg) (scope : BitVec 4)
  | barw (n : Bar)
  | ringwait (addr : Nat) (reg : W64) (d : GReg)
  | tsend (course : Nat) (tile : MVal)
  | trecv (course : Nat) (d : MReg)
  | mwait (mask : Nat) (ops : List Nat)
  | mrgopen (float : Bool) (table : W64)
  /-- The records still to append: lane, queue, record. -/
  | emit (recs : List (Nat × BitVec 16 × W512))
deriving DecidableEq, Repr

/-- A sleeping wait: its lanes, the resume addresses of its word and of the next one, its dependency counter, and the first cycle in
which the next word may issue (R20, R21, R158, R159). -/
structure Sleeper where
  id    : Nat
  group : Nat
  lanes : BitVec 32
  word  : W64
  next  : W64
  ctr   : Option (BitVec 3)
  due   : Nat
  kind  : SleepKind
deriving DecidableEq, Repr

/-- Where the bytes of an access lie after translation: linear, or an offset into a view range with its descriptor (R106, R370). -/
inductive Phys where
  | lin (pa : Nat)
  | view (kind : BitVec 2) (desc : W512) (off : Nat)
deriving DecidableEq, Repr

/-- An element that the gather unit reads: its bytes, whether its code is the high half of a byte, and its scale byte; none beyond COLS
(R249). -/
abbrev GatherCell := Option (Phys × Nat × Option Bool × Option Phys)

/-- What a lane of an operation in the gather unit does with the bytes it reads (R249, R295): `GFETCH` decodes them by a format, with
the codebook captured at issue, into a v register of tag F; `EXPND` puts one element into a g register. -/
inductive GatherTo where
  | decode (f : FFmt) (d : VReg) (fmt : Nat) (cb : W256)
  | plain (d : GReg) (p : PReg)
deriving DecidableEq, Repr

/-- One lane of an operation in the gather unit: its elements in order, with their translations. -/
structure GatherLane where
  lane  : Nat
  cells : List GatherCell
  dst   : GatherTo
deriving DecidableEq, Repr

/-- What an outstanding operation still has to do when it completes (R159). -/
inductive OpKind where
  | plain
  /-- An operation in the gather unit's queue that waits behind a join (R248, R249, R295). -/
  | gather (l : List GatherLane)
  /-- `MRGPULL` behind a join: its destination, and its word for a trap (R248, R252). -/
  | pull (d : GReg) (word : W64)
  /-- `MRGCLOSE` behind a join (R248, R252). -/
  | close
  | brld (wg : Nat) (b : BReg) (rec : W256)
  | cbld (wg : Nat) (cb : CReg) (entries : W256)
  | ldx (n : Bar) (bytes : Nat) (moves : List (Nat × Option Phys × Nat)) (parked : BitVec 32) (core : Nat)
  | syswr (n : BitVec 12) (x : W64) (secure : Bool)
  | tlbinv (m : TlbMode) (asid : BitVec 16) (page : W64) (world : Bool)
  | fence (ops : List Nat)
  | xfer
  /-- A command of the copy engine. -/
  | copyIn
  /-- A command in a harp course's queue. -/
  | course
deriving DecidableEq, Repr

/-- An outstanding variable-latency operation of the lanes of a path (R159). -/
structure OutOp where
  id     : Nat
  group  : Nat
  lanes  : BitVec 32
  ctr    : Option (BitVec 3)
  issued : Nat
  /-- Whether everything it does at its home is done, so that it may complete. -/
  done   : Bool
  /-- The queue it entered, as R248 numbers them, when it is an engine operation. -/
  queue  : Option Nat
  /-- The joins entered before it into its queue (R248). -/
  joins  : List Nat
  kind   : OpKind
deriving DecidableEq, Repr

/-- A join of queues: it stands until every operation in `before` has been performed (R248). -/
structure Join where
  id     : Nat
  core   : Nat
  mask   : BitVec 16
  before : List Nat
deriving DecidableEq, Repr

/-! ## Groups, workgroups, cores -/

/-- A group slot's group; the bow core's one thread is a group of lane 0 (R18, R357). -/
structure Group where
  bound  : Bool
  wg     : Nat
  rcb    : BitVec 48
  /-- The bind record it started from, and its index (R357). -/
  bind   : W256
  recIdx : Nat
  pp     : Bool
  sc     : Bool
  /-- The lanes of the current path under `PP` = 0 (R28). -/
  cur    : BitVec 32
  m      : FMap MVal
  mpend  : List MPend
  ecnt   : W64
  words  : FMap (BitVec 32)
  /-- The armed sample tags, each with its path's lanes (R254). -/
  armed  : List (BitVec 16 × BitVec 32)
deriving DecidableEq, Repr

/-- A free group slot. -/
def Group.free : Group := ⟨false, 0, 0, 0, 0, false, false, 0, [], [], 0, [], []⟩

/-- A workgroup: its scratchpad allocation and the registers its groups share (R18, R53). -/
structure Workgroup where
  bound : Bool
  base  : Nat
  zw    : Nat
  b     : FMap W256
  nb    : FMap Barrier
  cb    : FMap W256
deriving DecidableEq, Repr

/-- No workgroup. -/
def Workgroup.free : Workgroup := ⟨false, 0, 0, [], [], []⟩

/-- Why a selected clause stands at its word (R21). -/
inductive Held where
  | no
  /-- It holds at the word and tries again (R21). -/
  | again
  /-- A copy command waits for its acceptance (R242): its participants, its record's address, and the word and value of `CPYW`. -/
  | copy (lanes : BitVec 32) (record word value : W64)
  /-- `PHASE` waits for its threads' arrivals to take effect (R182). -/
  | arrive
  /-- A bow word waits for the verdict on its fault (R269). -/
  | fault (tok : Nat)
  /-- The verdict was `BOUNDS` (R385). -/
  | bounds (line : W64)
deriving DecidableEq, Repr

/-- A clause in issue on a path: its words, the next word and the cycle in which it may issue (R22, R147). -/
structure Sel where
  slot   : Nat
  lanes  : BitVec 32
  hdr    : BitVec 48
  header : W64
  code   : List W64
  word   : Nat
  nextAt : Nat
  held   : Held
deriving DecidableEq, Repr

/-- A core's issue state: the slot it selected last and the clauses in issue (R22, R24). -/
structure CoreSt where
  last : Nat
  sels : List Sel
deriving DecidableEq, Repr

/-- A core before its first selection: slot 15 counts as selected last (R22). -/
def CoreSt.reset : CoreSt := ⟨15, []⟩

/-! ## The harp -/

/-- A resident B panel: format tag, scales and codes, element (k, n) under key 256k + n (R258). -/
structure Panel where
  tag    : Byte
  /-- The scale byte of an element under the element's key, where it is not 127. -/
  scales : FMap Byte
  elems  : FMap (BitVec 32)
  /-- The checksum columns: the sum for row k of the panel in N-column y of the macros, under key 256y + k (R277). -/
  sums   : FMap Int
deriving DecidableEq, Repr

/-- An operation in a course's queue with what it captured at issue (R269, R283): the element under a key, its place, and whether it
is the high half of its byte; a multiplying operation with the A tiles it has consumed; or the result tiles that a committed one has
still to push (R272). -/
inductive HarpOp where
  | mlda (tag : Byte) (cells : List (Nat × Phys × Bool)) (scales : List (Nat × Phys))
  | mldb (tag : Byte) (slot : BitVec 5) (cells : List (Nat × Phys × Bool)) (scales : List (Nat × Phys))
  | mmul (f : MulF) (tiles : List MVal)
  | mmac (f : MulF) (tiles : List MVal)
  | mdist (f : MulF) (na nb : List (Nat × Phys)) (tiles : List MVal)
  | mtopk (km1 : BitVec 5) (wm1 : BitVec 8) (max : Bool)
  | macc (tag : Byte) (cells : List (Nat × Phys × Bool))
  | mstc (tag : Byte) (cells : List (Nat × Phys × Bool))
  | push (tiles : List MVal)
deriving DecidableEq, Repr

/-- An operation of a course's queue: its number, the resume address of its word, and the operation. -/
structure HarpCmd where
  id    : Nat
  word  : W64
  op    : HarpOp
deriving DecidableEq, Repr

/-- One course (R258). -/
structure Course where
  panels   : FMap (Option Panel)
  acc      : FMap (BitVec 32)
  accInt   : Bool
  aQueue   : List MVal
  results  : List MVal
  ops      : List HarpCmd
  /-- The fields of the check status word (R279). -/
  count    : BitVec 8
  slot     : BitVec 5
  badMac   : BitVec 4
  cause    : BitVec 2
  rst      : Bool
  halt     : Bool
  retired  : Bool
deriving DecidableEq, Repr

/-- A course with unloaded slots, an FP32 accumulator of +0, empty queues and a zero status (R258). -/
def Course.zero : Course := ⟨[], [], false, [], [], [], 0, 0, 0, 0, false, false, false⟩

/-! ## Regions and clusters -/

/-- The resolved fields of a region control block (R354, R355). -/
structure Resolved where
  prio     : BitVec 8
  fdom     : BitVec 16
  world    : Bool
  pp       : Bool
  sc       : Bool
  lead     : BitVec 3
  strap    : Bool
  stragt   : BitVec 16
  trapvec  : BitVec 48
  ptroot   : BitVec 48
  asid     : BitVec 16
  rtbase   : BitVec 48
  rtlen    : BitVec 32
  debug    : Bool
  sample   : Bool
  priv     : Bool
  fabctx   : BitVec 16
  resident : Bool
  acct     : BitVec 48
  image    : BitVec 48
  clmask   : BitVec 16
  maxcores : Nat
  slots    : Nat
  zwmax    : Nat
  ebudget  : Nat
  tbudget  : Nat
  zs       : Nat
  gqbase   : BitVec 48
  gqcount  : BitVec 8
  /-- The addresses of the node and its ancestors, each with its SLOTS (R355, R356, R358). -/
  limits   : List (Nat × Nat)
deriving DecidableEq, Repr

/-- Nothing resolved. -/
def Resolved.zero : Resolved where
  prio := 0
  fdom := 0
  world := false
  pp := false
  sc := false
  lead := 0
  strap := false
  stragt := 0
  trapvec := 0
  ptroot := 0
  asid := 0
  rtbase := 0
  rtlen := 0
  debug := false
  sample := false
  priv := false
  fabctx := 0
  resident := false
  acct := 0
  image := 0
  clmask := 0
  maxcores := 0
  slots := 0
  zwmax := 0
  ebudget := 0
  tbudget := 0
  zs := 0
  gqbase := 0
  gqcount := 0
  limits := []

/-- A stream of the merge tree: its length, the next position, where its coordinates and values lie, and the translations of
their 4 KiB pages made when it was opened (R251). -/
structure Stream where
  len   : Nat
  pos   : Nat
  caddr : Nat
  vaddr : Nat
  pages : List (Nat × Phys)
deriving DecidableEq, Repr

/-- A cluster: the region that runs on it, its superstep, and what its threads share (R30, R36, R359). -/
structure Cluster where
  /-- The region control block of the region that started here, or none. -/
  region   : Option (BitVec 48)
  res      : Resolved
  /-- The phase counter P as a natural number; `phase` reads it modulo 2^32 (R192). -/
  phase    : Nat
  /-- Whether every thread here has exited (R359). -/
  ended    : Bool
  /-- The arrival levels announced to this cluster: from which cluster, when they reach it, and the level, `none` unbounded
  (R36). -/
  heard    : List (Nat × Nat × Option Nat)
  /-- The cycle of the first arrival at the boundary, and whether the straggler event was raised (R39). -/
  strag    : Option Nat
  stragged : Bool
  kb       : FMap Barrier
  /-- Per core 0–15, where the cluster share lies in the slice, and its size Zs (R53, R444). -/
  share    : FMap Nat
  zs       : Nat
  /-- The fault domain whose bytes the cluster's scratchpad holds (R359). -/
  fdomLast : Option (BitVec 16)
  /-- The merge tree: holder, value kind, streams (R251). -/
  mHolder  : Option Nat
  mFloat   : Bool
  mStreams : List Stream
  /-- `HARP_CHECK` events not yet delivered to the bow: courses (R280). -/
  harpQ    : List Nat
  /-- Timers of the region's graph-node queues (R361). -/
  qtimers  : FMap Nat
  retired  : Bool
  /-- Whether the clocks of its die are stopped (R440). -/
  stopped  : Bool
deriving DecidableEq, Repr

/-- A cluster on which no region runs. -/
def Cluster.reset : Cluster where
  region := Option.none
  res := Resolved.zero
  phase := 0
  ended := false
  heard := []
  strag := Option.none
  stragged := false
  kb := []
  share := []
  zs := 0
  fdomLast := Option.none
  mHolder := Option.none
  mFloat := false
  mStreams := []
  harpQ := []
  qtimers := []
  retired := false
  stopped := false

/-- A region as a whole: the clusters it started on, a requested pre-emption, its start, the clusters that resume, and a fault-domain end (R359, R365, R386, R390). -/
structure Region where
  rcb      : BitVec 48
  clusters : List Nat
  preempt  : Option Nat
  started  : Nat
  resuming : List Nat
  /-- Its fault domain was ended (R386). -/
  killed   : Bool
  /-- The counter of the image that it resumed from, until that image is marked consumed (R394). -/
  image    : Option Nat
  /-- Its image has been written, and the save waits for room in the accounting area or the event queue (R391). -/
  saving   : Bool
deriving DecidableEq, Repr

/-! ## Translation and caches -/

/-- A translation held by a core's cache (`at` = core) or a slice's cache (`at` = 272 + cluster) (R372). -/
structure TlbEnt where
  place : Nat
  asid  : BitVec 16
  world : Bool
  page  : Nat
  leaf  : W64
  size  : Nat
  desc  : W512
deriving DecidableEq, Repr

/-- An entry of the cache of table entries (R372). -/
structure TabEnt where
  cluster : Nat
  asid    : BitVec 16
  world   : Bool
  addr    : Nat
  entry   : W64
deriving DecidableEq, Repr

/-- A word of a core's code cache (R378). -/
structure CodeEnt where
  core  : Nat
  asid  : BitVec 16
  world : Bool
  va    : Nat
  val   : W64
deriving DecidableEq, Repr

/-- A layout record in a cluster's cache (R70, R121). -/
structure LayEnt where
  cluster : Nat
  asid    : BitVec 16
  world   : Bool
  handle  : Nat
  val     : W512
deriving DecidableEq, Repr

/-- What a write went to: physical memory, a scratchpad slice, a codebook register or a buffer register (byte j of register number n of a
workgroup at 512 × workgroup + 32n + j). -/
inductive Space where
  | mem | sp | cbook | buf
deriving DecidableEq, Repr

/-- Who carries the knowledge that a write happens before what follows (R110–R113, R116–R118, R245): an agent; every agent of the scopes
of the chain; an agent that has read it (R68, R106); a release that was written; an engine command; the arrivals of a barrier register's
present or latest round; the place of a fence in the total order; the operations of an engine queue, or before a join (2^20 + its number),
that have been performed (R117, R248). -/
inductive Holder where
  | agent (a : Nat)
  | all
  | saw (a : Nat)
  | write (seq : Nat)
  | op (id : Nat)
  | round (place : Nat) (complete : Bool)
  | fence (a : Nat) (scope : BitVec 4)
  | queue (k : Nat)
deriving DecidableEq, Repr

/-- One chain of happens-before that leads from a write to its holder: the agents with the scopes of its links (R443); the writer's
`VFENCE` in it, with its scope and its superstep; whether a `VFENCE` of the holder follows it (R119); and the clusters whose gather caches
a `GINV` in it has emptied (R120). -/
structure Known where
  who   : Holder
  links : List (Nat × BitVec 4)
  vf    : Option (BitVec 4 × Nat)
  own   : Bool
  units : List Nat
deriving DecidableEq, Repr

/-- A write that some agent may not yet see: the bytes it replaced, its writer and path kind, the access it belongs to, the region,
cluster and superstep that made it, the agent and scope of the release that it is, the scope of an atomic, and who knows of it (R69, R113–R115, R119,
R120). -/
structure WriteRec where
  seq    : Nat
  access : Nat
  writer : Nat
  kind   : BitVec 2
  space  : Space
  addr   : Nat
  old    : List Byte
  region : Option (BitVec 48)
  cluster : Nat
  step   : Nat
  rel    : Option (Nat × BitVec 4)
  atomic : Option (BitVec 4)
  known  : List Known
deriving DecidableEq, Repr

/-! ## The copy engine and the exchange -/

/-- A place that a copy reads or writes: a scratchpad byte, a translated one, or bytes already read. -/
inductive CopyPlace where
  | sp (k : Nat)
  | mem (p : Phys)
  | data (b : List Byte)
deriving DecidableEq, Repr

/-- A command of the copy engine after acceptance: element moves, and its completion: a barrier register, or a word with its place, bytes,
value and scope (R241–R244). -/
structure CopyCmd where
  id     : Nat
  group  : Nat
  size   : Nat
  moves  : List (CopyPlace × CopyPlace)
  bar    : Option Bar
  word   : Option (Nat × Nat × W64 × BitVec 4)
  dead   : Bool
  record : Nat
deriving DecidableEq, Repr

/-- A lane of a transfer: its address, where it lies (no place outside the module), and the data it writes (R333). -/
structure XLane where
  lane  : Nat
  addr  : W64
  place : Option CopyPlace
  data  : List Byte
deriving DecidableEq, Repr

/-- Where a transfer is (R331, R333). -/
inductive XWhere where
  /-- Not injected: it waits for earlier accesses (R334). -/
  | held
  /-- On the request mesh, or in a port. -/
  | going
  /-- Ejected at its destination. -/
  | arrived
  /-- Its reply is on the reply mesh. -/
  | returning
  /-- Its reply has ejected at the source. -/
  | back
  /-- Outside the module. -/
  | away
  /-- Performed, but its reply was lost: only its time-out ends it. -/
  | lost
deriving DecidableEq, Repr

/-- An exchange transfer: one packet of lanes with equal routes (R333), or a ring message (R336). -/
structure Xfer where
  id      : Nat
  /-- The operation of the word that issued it, and the group; 0 for a packet from outside the module (R427). -/
  op      : Nat
  group   : Nat
  lanes   : List XLane
  /-- The lanes that receive its outcome. -/
  pmask   : BitVec 32
  write   : Bool
  ring    : Bool
  width   : Nat
  ty      : ITy
  dst     : Option Dat
  kind    : BitVec 3
  tc      : TClass
  route   : W128
  /-- Whether nobody awaits its status (R331, R336). -/
  posted  : Bool
  pos     : XWhere
  /-- The cycle of its injection. -/
  since   : Nat
  status  : BitVec 8
  /-- What an `XREAD` has read, by lane. -/
  data    : List (Nat × List Byte)
  /-- The cluster at which its request ejected, and the symbols of the return route (R319). -/
  cluster : Nat
  back    : List (BitVec 4)
  foreign : Bool
  /-- Its time-out has passed, so that a reply is discarded (R331). -/
  late    : Bool
  /-- The region in whose context it acts (R54, R427), and the scopes at which it is a release and an acquire (R334). -/
  rcb     : BitVec 48
  rel     : Option (BitVec 4)
  acq     : Option (BitVec 4)
deriving DecidableEq, Repr

/-- A packet in a router: its transfer, the symbols left, the return route so far, its size, from which cycle it may move and since
when it is the head of its queue, and whether a drain move promoted it (R319, R326–R328). -/
structure Pkt where
  xfer  : Nat
  reply : Bool
  syms  : List (BitVec 4)
  back  : List (BitVec 4)
  vc    : TClass
  flits : Nat
  due   : Nat
  headAt : Nat
  promoted : Bool
deriving DecidableEq, Repr

/-- The arbitration state of a router output: deficits, channel pointer, input pointers, and until when it is taken (R327). -/
structure Arb where
  deficit : FMap Nat
  chan    : Nat
  inputs  : FMap Nat
  busy    : Nat
deriving DecidableEq, Repr

/-- An output before its first grant. -/
def Arb.reset : Arb := ⟨[], 0, [], 0⟩

/-- A frame on its way into a ring: its release cycle, port, ring and message, whether its slots have landed, and whether a `.bulk`
packet may have delayed them (R429). -/
structure FixFrame where
  id     : Nat
  due    : Nat
  port   : Nat
  ring   : Nat
  landed : Bool
  bulk   : Bool
  msg    : List Byte
deriving DecidableEq, Repr

/-! ## Memory slices -/

/-- The registers and the hidden state of a memory slice (R408–R421). -/
structure Slice where
  /-- Kinds of the units, 0 linear (R409). -/
  ukind    : FMap (BitVec 2)
  thresh   : BitVec 16
  auto     : Bool
  busy     : Bool
  next     : BitVec 3
  ver      : BitVec 3
  wm       : Nat
  conflBank  : BitVec 10
  conflCount : BitVec 16
  /-- The activates of the window that closed another row, and the open rows, per bank 16 × pc + bank (R413). -/
  counts   : FMap Nat
  opened   : FMap Nat
  window   : Nat
  spDone   : BitVec 5
  spState  : BitVec 2
  spIdx    : BitVec 4
  spPc     : BitVec 6
  spBank   : BitVec 4
  spRow    : BitVec 16
  /-- The copy that runs: the key of its spare row and the row it copies (R418). -/
  spJob    : Nat × Nat
  /-- Spare rows in use, key 16 × bank key + index: the row each replaces, plus one (R418). -/
  spares   : FMap Nat
  scrubEn  : Bool
  scrubPeriod : BitVec 32
  /-- The scrub period, plus one, in which a burst was last scrubbed and last corrected, key 2 × burst + tier (R419). -/
  scrubbed : FMap Nat
  corrected : FMap Nat
  /-- Refreshes paid per bank 16 × pc + bank since reset; one falls due each 14,040 cycles (R417). -/
  paid     : FMap Nat
  /-- Pseudo-channels out of service (R438). -/
  gone     : FMap Bool
deriving DecidableEq, Repr

/-- A slice at reset (R421). -/
def Slice.reset : Slice where
  ukind := []
  thresh := 4096
  auto := true
  busy := false
  next := 0
  ver := 0
  wm := 0
  conflBank := 0
  conflCount := 0
  counts := []
  opened := []
  window := 0
  spDone := 0
  spState := 0
  spIdx := 0
  spPc := 0
  spBank := 0
  spRow := 0
  spJob := (0, 0)
  spares := []
  scrubEn := true
  scrubPeriod := 82400
  scrubbed := []
  corrected := []
  paid := []
  gone := []

/-! ## System registers, events, debug, boot -/

/-- The system registers (R351) and the fabric registers of R425, R427 and R428. -/
structure SysRegs where
  status   : BitVec 5
  wtbase   : W64
  btbase   : W64
  binderr  : W64
  rcbroot  : W64
  topo     : W64
  arbw     : W64
  eperiod  : W64
  ewgt     : FMap (BitVec 16)
  evqs     : W64
  evqn     : W64
  launchq  : W64
  classTab : W64
  fabTab   : W64
  drainq   : FMap (BitVec 32)
  drainp   : FMap (BitVec 32)
  disc     : FMap (BitVec 32)
deriving DecidableEq, Repr

/-- The system registers at reset (R351); those with a dash in the Reset column are zero (log entry 2). -/
def SysRegs.reset : SysRegs where
  status := 0
  wtbase := 0
  btbase := 0
  binderr := 0
  rcbroot := 0
  topo := 0
  arbw := 0x01001428
  eperiod := 0x00400000
  ewgt := []
  evqs := 0
  evqn := 0
  launchq := 0
  classTab := 0
  fabTab := 0
  drainq := []
  drainp := []
  disc := []

/-- A sampled access whose record is not yet written: the operation of its first issue, the lanes whose replay it waits
for, and what the record will hold (R254, R402). -/
structure Sample where
  group   : Nat
  op      : Nat
  tag     : BitVec 16
  ra      : W64
  opc     : BitVec 8
  cls     : BitVec 4
  active  : BitVec 32
  parked  : BitVec 32
  owed    : BitVec 32
  replays : BitVec 8
  issued  : Nat
  line    : W64
  lines   : BitVec 8
  sectors : BitVec 8
deriving DecidableEq, Repr

/-- What awaits a verdict of the fault reply port (R385). -/
structure Await where
  tok   : Nat
  group : Nat
  lanes : BitVec 32
  line  : W64
  fetch : Bool
  /-- A bow word held at its fault (R269). -/
  bow   : Bool
  /-- The word at which verdict 1 raises `BOUNDS`: resume address, opcode and class. -/
  word  : W64
  opc   : BitVec 8
  cls   : BitVec 4
deriving DecidableEq, Repr

/-- A sub-group whose park has not taken effect: the lanes, the fault's TYPE, line, physical line and ACCESS, `re` and `rc`, the word,
and whether it was a fetch (R160, R387). -/
structure ParkReq where
  group : Nat
  lanes : BitVec 32
  ty    : Nat
  line  : Nat
  pl    : Nat
  acc   : Nat
  re    : W64
  rc    : W64
  word  : W64
  opc   : Nat
  cls   : Nat
  fetch : Bool
deriving DecidableEq, Repr

/-- A latent error in a storage array that its next reader consumes: array code of R388 and place (a physical burst for 7
and 8, a scratchpad 8-byte word for 2, 128 × `gid` + register number for 1, the `gid` whose queued access it is in for 4, 16 × course +
macro for a broadcast of 5, a transfer for 6). -/
structure Latent where
  code  : BitVec 8
  place : Nat
deriving DecidableEq, Repr

/-- The word in issue: what the meaning of an instruction of classes 0 to 9 reads (R149, R164, R167). -/
structure Cur where
  core  : Nat
  sel   : Nat
  slot  : Nat
  lanes : BitVec 32
  hdr   : BitVec 48
  words : Nat
  cls   : Nat
  mapCls : Nat
  word  : Nat
  /-- The index of the word after it and its literals. -/
  after : Nat
  raw   : W64
deriving DecidableEq, Repr

/-- No word is in issue. -/
def Cur.idle : Cur := ⟨0, 0, 0, 0, 0, 0, 0, 0, 0, 0, 0⟩

/-- A turn of a core within a cycle (R22). -/
inductive Turn where
  | select (core : Nat)
  | issue (core : Nat) (slot : Nat) (lanes : BitVec 32)
deriving DecidableEq, Repr

/-- The boot of the device and its attestation (R432–R434). -/
structure Boot where
  boots    : Nat
  /-- Whether management cores 1–3 and the agents are out of reset. -/
  released : Bool
  version  : W64
  imgHash  : W256
  quotes   : List (List Byte)
deriving DecidableEq, Repr

/-! ## The state -/

/-- The machine. -/
structure State where
  /-- Physical memory: stack shares, second tier, host and expander memory (R348). -/
  mem      : FMap Byte
  /-- The scratchpad slices: byte o of core k of cluster c under key (16c + k) × 2^21 + o (R52). -/
  sp       : FMap Byte
  threads  : FMap Thread
  groups   : FMap Group
  wgs      : FMap Workgroup
  cores    : FMap CoreSt
  clusters : FMap Cluster
  courses  : FMap Course
  copyq    : FMap (List CopyCmd)
  regions  : List Region
  sleepers : List Sleeper
  ops      : List OutOp
  joins    : List Join
  /-- Bind records pending in the dispatch hardware: indices, with the records read and the counter of their running region's cluster
  at that moment (R358, R359). -/
  pending  : List (Nat × W256 × Option Nat)
  /-- Translation caches, table-entry caches, code caches, layout caches (R372, R378, R70). -/
  tlb      : List TlbEnt
  tabs     : List TabEnt
  codes    : List CodeEnt
  layouts  : List LayEnt
  /-- The writes that some agent may not yet see, oldest first (R69, R113–R115, R119, R120). -/
  writes   : List WriteRec
  /-- The device's cached copy of the world table, by byte of the table, and a synchronisation in progress (R350). -/
  world    : FMap Byte
  wtSync   : Bool
  /-- Transfers, router input queues (key 32 × (16 × mesh + cluster) + 4 × input + channel), drain slots (key
  8 × (16 × mesh + cluster) + input) and output arbiters (same key with the output) (R326–R328). -/
  xfers    : List Xfer
  routers  : FMap (List Pkt)
  drains   : FMap (Option Pkt)
  arbs     : FMap Arb
  /-- The stop signals of the routers' inputs in the last cycles, the latest in bit 0, key as `routers` (R423). -/
  stops    : FMap Nat
  /-- What waits in the Ndonar ports to leave, and the drained packets that came in through them (R426), key 8 × port + 4 × mesh +
  channel; and the cycle, plus one, of a port's last drain, key port. -/
  portq    : FMap (List Pkt)
  portDrain : FMap (Option Pkt)
  portLast : FMap Nat
  frames   : List FixFrame
  /-- Links marked down, key 8 × cluster + direction; ports marked down, key port (R424, R325). -/
  linksDown : FMap Bool
  portsDown : FMap Bool
  coresGone : FMap Bool
  /-- Core retirements held until no group is bound (R438). -/
  coresHeld : List Nat
  /-- The units that firmware has retired since reset, key 2^19 × kind + 16 × unit + cluster (R434, R437). -/
  retired  : FMap Bool
  slices   : FMap Slice
  sys      : SysRegs
  /-- The device cycle counter `CYCLE` (R351). -/
  cycle    : Nat
  /-- Event records that wait for room in the secure or the non-secure queue, and energy records that wait for room in the
  accounting area at an address, with the group whose slot they hold (R382, R401). -/
  evWait   : List (Bool × W512)
  acctWait : List (Nat × W512 × Option Nat)
  awaits   : List Await
  /-- Parks that wait for outstanding operations, oldest first (R160). -/
  parks    : List ParkReq
  samples  : List Sample
  /-- Indirect launch records in the launch queue, with the node of the region that posted each (R364). -/
  launches : List (BitVec 48 × W512)
  /-- Regions held by the debug right: region control block and management core (R396). -/
  attached : List (BitVec 48 × BitVec 2)
  dbgData  : W64
  /-- The region control blocks in which the device has set DEDIT (R354, R394, R399, R434). -/
  edited   : List (BitVec 48)
  latent   : List Latent
  boot     : Boot
  /-- Model's own: the numbers of operations, waits, tokens and transfers, the draws of free values, the sequence of writes (log
entry 3). -/
  nextId   : Nat
  draw     : Nat
  seq      : Nat
  /-- Model's own: the device reached an untranslated address where nothing exists (R348); the step then faults. -/
  hole     : Bool
  /-- Model's own: the word in issue, the turns left in this cycle, and the events to take next. -/
  cur      : Cur
  turns    : List Turn
  agenda   : List Instr
  /-- What the world outside does to the machine, with the cycle in which it comes: writes of management cores, frames and packets at
  ports, and events of the physical units (R346, R357, R385, R427, R428, R437). -/
  inputs   : List (Nat × Instr)
deriving DecidableEq, Repr

/-- The machine right after device reset: every agent but management core 0 is held in reset (R432), scratchpad, `kb`
registers and harp courses are zero (R359, R444), and every register holds the value of its Reset column, zero where the
column has a dash (log entry 2). -/
def State.reset : State where
  mem := []
  sp := []
  threads := []
  groups := []
  wgs := []
  cores := []
  clusters := []
  courses := []
  copyq := []
  regions := []
  sleepers := []
  ops := []
  joins := []
  pending := []
  tlb := []
  tabs := []
  codes := []
  layouts := []
  writes := []
  world := []
  wtSync := false
  xfers := []
  routers := []
  drains := []
  arbs := []
  stops := []
  portq := []
  portDrain := []
  portLast := []
  frames := []
  linksDown := []
  portsDown := []
  coresGone := []
  coresHeld := []
  retired := []
  slices := []
  sys := SysRegs.reset
  cycle := 0
  evWait := []
  acctWait := []
  awaits := []
  parks := []
  samples := []
  launches := []
  attached := []
  dbgData := 0
  edited := []
  latent := []
  boot := ⟨0, false, 0, 0, []⟩
  nextId := 1
  draw := 0
  seq := 1
  hole := false
  cur := Cur.idle
  turns := []
  agenda := []
  inputs := []

/-- Why the machine stops. -/
inductive Fault where
  /-- Raised when the device reads or writes a physical address that lies in none of the ranges of R348, through a base
  address that no page table checks (`BTBASE`, `RCBROOT`, `PTROOT`, an event queue, an image, an accounting area, a view
  descriptor's storage). Safe: the machine stops where the spec says nothing exists. -/
  | noMemory
deriving DecidableEq, Repr

/-- Why an instruction has no meaning. -/
inductive Refusal where
  /-- Raised by the dispatch for an instruction whose meaning is not written yet. Safe: nothing follows from it. -/
  | notModelled (mnemonic : String)
deriving DecidableEq, Repr

end Sys2Proof.Machine
end

