-- ==== Sys2Proof/Machine/Map.lean ====
section
/-!
DEFINITION. Sparse maps, their canonical form, and the bit-field, sign-extension and byte-order helpers of the machine.
-/
namespace Sys2Proof.Machine

/-! ## Sparse maps -/

/-- What a map holds under a key; an unlisted key holds the default `d`. -/
def mget {α : Type} (d : α) : FMap α → Nat → α
  | [], _ => d
  | (j, v) :: m, k => if k = j then v else mget d m k

/-- The map without an entry under a key. -/
def mdel {α : Type} : FMap α → Nat → FMap α
  | [], _ => []
  | (j, v) :: m, k => if k = j then mdel m k else (j, v) :: mdel m k

/-- The map with an entry put in the place its key has. -/
def mput {α : Type} : FMap α → Nat → α → FMap α
  | [], k, v => [(k, v)]
  | (j, w) :: m, k, v => if k < j then (k, v) :: (j, w) :: m else if k = j then (k, v) :: m else (j, w) :: mput m k v

/-- The map with a value under a key: the default is not listed. -/
def mset {α : Type} [DecidableEq α] (d : α) (m : FMap α) (k : Nat) (v : α) : FMap α :=
  if v = d then mdel m k else mput m k v

/-- Whether keys rise strictly and no entry holds the default. -/
def mwf {α : Type} [DecidableEq α] (d : α) : FMap α → Bool
  | [] => true
  | [(_, v)] => decide (v ≠ d)
  | (j, v) :: (k, w) :: m => decide (j < k) && decide (v ≠ d) && mwf d ((k, w) :: m)

/-- The map of a function on the keys below `n`. -/
def mtab {α : Type} [DecidableEq α] (d : α) (n : Nat) (f : Nat → α) : FMap α :=
  (List.range n).filterMap fun k => if f k = d then none else some (k, f k)

/-- The keys and values of a map in a range of keys. -/
def mrange {α : Type} (m : FMap α) (lo hi : Nat) : FMap α := m.filter fun x => decide (lo ≤ x.1) && decide (x.1 < hi)

/-- The map without the entries of a range of keys. -/
def mclear {α : Type} (m : FMap α) (lo hi : Nat) : FMap α := m.filter fun x => !(decide (lo ≤ x.1) && decide (x.1 < hi))

/-! ## Memory: what an unlisted byte reads as, its canonical form, one byte at a time -/

/-- A memory of bytes. -/
abbrev Memory := FMap Byte

/-- What a byte that nothing has written reads as: zero (log entry 1 for physical memory; R444 for the scratchpad). -/
def Memory.blank : Byte := 0

/-- The canonical form: addresses rise strictly and no entry is blank. -/
def Memory.wf (m : Memory) : Bool := mwf Memory.blank m

/-- The byte at an address. -/
def Memory.byte (m : Memory) (a : Nat) : Byte := mget Memory.blank m a

/-- The memory with a byte at an address. -/
def Memory.setByte (m : Memory) (a : Nat) (b : Byte) : Memory := mset Memory.blank m a b

/-- `n` bytes from an address upward, as one little-endian number (R10). -/
def Memory.read (m : Memory) (a : Nat) : Nat → Nat
  | 0 => 0
  | n + 1 => (Memory.byte m a).toNat + 256 * Memory.read m (a + 1) n

/-- `n` bytes from an address upward, in order. -/
def Memory.bytes (m : Memory) (a : Nat) : Nat → List Byte
  | 0 => []
  | n + 1 => Memory.byte m a :: Memory.bytes m (a + 1) n

/-- The memory with bytes written from an address upward. -/
def Memory.put (m : Memory) (a : Nat) : List Byte → Memory
  | [] => m
  | b :: bs => Memory.put (m.setByte a b) (a + 1) bs

/-- The `n` bytes of a number, little-endian (R10). -/
def leBytes (x : Nat) : Nat → List Byte
  | 0 => []
  | n + 1 => BitVec.ofNat 8 x :: leBytes (x / 256) n

/-- The number of a little-endian list of bytes (R10). -/
def leVal : List Byte → Nat
  | [] => 0
  | b :: bs => b.toNat + 256 * leVal bs

/-- The memory with the low `n` bytes of a number written at an address (R10). -/
def Memory.write (m : Memory) (a n x : Nat) : Memory := Memory.put m a (leBytes x n)

/-! ## Bit fields -/

/-- The bits [h:l] of a number (R10). -/
def bits (x h l : Nat) : Nat := (x >>> l) % 2 ^ (h + 1 - l)

/-- Bit n of a number. -/
def bitAt (x n : Nat) : Bool := x.testBit n

/-- The number with the bits [h:l] replaced. -/
def setBits (x h l v : Nat) : Nat :=
  (x >>> (h + 1)) * 2 ^ (h + 1) + (v % 2 ^ (h + 1 - l)) * 2 ^ l + x % 2 ^ l

/-- The two's complement value of the low w bits of a number. -/
def sval (w x : Nat) : Int :=
  let y := x % 2 ^ w
  if y < 2 ^ (w - 1) then (y : Int) else (y : Int) - 2 ^ w

/-- The natural number of the low w bits of an exact result (R75). -/
def wrapTo (w : Nat) (y : Int) : Nat := (y % (2 ^ w : Int)).toNat

/-- The number of set bits below bit n. -/
def popBelow (x : Nat) : Nat → Nat
  | 0 => 0
  | n + 1 => popBelow x n + (if x.testBit n then 1 else 0)

/-- The bits of a set of lanes in ascending order. -/
def lanesOf (m : BitVec 32) : List Nat := (List.range 32).filter fun i => m.getLsbD i

/-- The set of the lanes of a list. -/
def maskOf (l : List Nat) : BitVec 32 := l.foldl (fun m i => m ||| (1#32 <<< i)) 0#32

/-- The lowest lane of a set. -/
def lowLane (m : BitVec 32) : Nat := (lanesOf m).headD 0

/-- Replace the first element of a list that a test picks. -/
def replFirst {α : Type} (p : α → Bool) (x : α) : List α → List α
  | [] => []
  | y :: l => if p y then x :: l else y :: replFirst p x l

/-- The smallest of a list of numbers, or a default. -/
def minOf (d : Nat) (l : List Nat) : Nat := l.foldl min d

end Sys2Proof.Machine
end

