-- ==== Sys2Proof/Machine/Parts.lean ====
section
/-!
DEFINITION. Names of cores, groups and threads (R2, R44), the mesh (R2, R19), and the parts of the state.
-/
namespace Sys2Proof.Machine

/-! ## Names (R2, R44) -/

/-- The cluster of a core. -/
def coreCluster (core : Nat) : Nat := core / 17
/-- The number of a core within its cluster; 16 is the bow. -/
def coreNum (core : Nat) : Nat := core % 17
/-- Whether a core is a bow core. -/
def isBow (core : Nat) : Bool := core % 17 == 16
/-- The core of a group. -/
def groupCore (g : Nat) : Nat := g / 16
/-- The slot of a group. -/
def groupSlot (g : Nat) : Nat := g % 16
/-- The `gid` of a lane of a group (R44). -/
def tid (g lane : Nat) : Nat :=
  let core := groupCore g
  if isBow core then 131072 + coreCluster core
  else 512 * (16 * coreCluster core + coreNum core) + 32 * groupSlot g + lane
/-- The group of a thread. -/
def threadGroup (t : Nat) : Nat :=
  if t < 131072 then
    let q := t / 512
    16 * (17 * (q / 16) + q % 16) + (t / 32) % 16
  else 16 * (17 * (t - 131072) + 16)
/-- The lane of a thread. -/
def threadLane (t : Nat) : Nat := if t < 131072 then t % 32 else 0
/-- The lanes a group has: 32, or the one of a bow core. -/
def groupLanes (g : Nat) : List Nat := if isBow (groupCore g) then [0] else List.range 32

namespace State

/-! ## Parts of the state -/

/-- A thread. -/
def thr (s : State) (t : Nat) : Thread := mget Thread.blank s.threads t
/-- The state with a thread replaced. -/
def setThr (s : State) (t : Nat) (x : Thread) : State := { s with threads := mset Thread.blank s.threads t x }
/-- The state with a thread changed. -/
def modThr (s : State) (t : Nat) (f : Thread → Thread) : State := s.setThr t (f (s.thr t))
/-- A group. -/
def grp (s : State) (g : Nat) : Group := mget Group.free s.groups g
/-- The state with a group replaced. -/
def setGrp (s : State) (g : Nat) (x : Group) : State := { s with groups := mset Group.free s.groups g x }
/-- A workgroup. -/
def wg (s : State) (k : Nat) : Workgroup := mget Workgroup.free s.wgs k
/-- The state with a workgroup replaced. -/
def setWg (s : State) (k : Nat) (x : Workgroup) : State := { s with wgs := mset Workgroup.free s.wgs k x }
/-- The issue state of a core. -/
def core (s : State) (k : Nat) : CoreSt := mget CoreSt.reset s.cores k
/-- The state with the issue state of a core replaced. -/
def setCore (s : State) (k : Nat) (x : CoreSt) : State := { s with cores := mset CoreSt.reset s.cores k x }
/-- A cluster. -/
def cl (s : State) (c : Nat) : Cluster := mget Cluster.reset s.clusters c
/-- The state with a cluster replaced. -/
def setCl (s : State) (c : Nat) (x : Cluster) : State := { s with clusters := mset Cluster.reset s.clusters c x }
/-- A course: 8 × cluster + number. -/
def course (s : State) (k : Nat) : Course := mget Course.zero s.courses k
/-- The state with a course replaced. -/
def setCourse (s : State) (k : Nat) (x : Course) : State := { s with courses := mset Course.zero s.courses k x }
/-- A copy queue: 4 × cluster + number. -/
def copies (s : State) (k : Nat) : List CopyCmd := mget [] s.copyq k
/-- The state with a copy queue replaced. -/
def setCopies (s : State) (k : Nat) (x : List CopyCmd) : State := { s with copyq := mset [] s.copyq k x }
/-- A memory slice. -/
def slice (s : State) (c : Nat) : Slice := mget Slice.reset s.slices c
/-- The state with a memory slice replaced. -/
def setSlice (s : State) (c : Nat) (x : Slice) : State := { s with slices := mset Slice.reset s.slices c x }
/-- The cluster that a group runs on. -/
def grpCl (s : State) (g : Nat) : Cluster := s.cl (coreCluster (groupCore g))
/-- The resolved fields of the region that a group belongs to (R356). -/
def grpRes (s : State) (g : Nat) : Resolved := (s.grpCl g).res
/-- The workgroup of a group. -/
def grpWg (s : State) (g : Nat) : Workgroup := s.wg (s.grp g).wg

/-- The clusters on which the region of a cluster has started. -/
def regionClusters (s : State) (rcb : BitVec 48) : List Nat :=
  match s.regions.find? fun r => r.rcb == rcb with
  | none => []
  | some r => r.clusters

/-- A new number for an operation, a wait or a token. -/
def fresh (s : State) : State × Nat := ({ s with nextId := s.nextId + 1 }, s.nextId)

/-- A free choice at site `k` of this step (log entry 5). -/
def flip (s : State) (k : Nat) : Bool := Config.freeBit s.draw k

end State

/-! ## The mesh (R2, R19) -/

/-- Whether two clusters are adjacent in the mesh (R2). -/
def meshAdj (a b : Nat) : Bool :=
  (a / 4 == b / 4 && (a % 4 + 1 == b % 4 || b % 4 + 1 == a % 4)) || (a % 4 == b % 4 && (a / 4 + 1 == b / 4 || b / 4 + 1 == a / 4))

/-- The clusters of a set within `n` hops of a cluster inside the set. -/
def meshBall (set : List Nat) : Nat → Nat → List Nat
  | 0, a => [a]
  | n + 1, a =>
    let l := meshBall set n a
    l ++ set.filter fun b => !l.contains b && l.any fun x => meshAdj x b

/-- The region distance of two clusters of a set (R19). -/
def regionDist (set : List Nat) (a b : Nat) : Nat :=
  ((List.range 16).find? fun n => (meshBall set n a).contains b).getD 16

/-- Whether a set of clusters is connected (R19). -/
def meshConnected (set : List Nat) : Bool :=
  match set with
  | [] => true
  | a :: _ => set.all fun b => (meshBall set 15 a).contains b

end Sys2Proof.Machine
end

