-- ==== Sys2Proof/Machine/Order.lean ====
section
/-!
DEFINITION. What happens before what (R102, R103, R109–R124, R235, R245, R441–R443): a write that some agent may not yet see keeps the
bytes it replaced and the chains by which agents know of it; a read finds, for each byte, a value that R114 allows.
-/
namespace Sys2Proof.Machine
namespace State

/-! ## Agents and scopes (R102, R103) -/

/-- The cluster of an agent: a thread by its `gid`, or 200000 + c for the engines and the slice of cluster c. -/
def agentCluster (a : Nat) : Nat := if a < 200000 then coreCluster (groupCore (threadGroup a)) else a - 200000

/-- Whether the scope instance of agent `a` at a scope contains agent `b` (R103). -/
def inScope (s : State) (sc a b : Nat) : Bool :=
  let ga := threadGroup a
  let gb := threadGroup b
  let x := agentCluster a
  let y := agentCluster b
  if sc ≥ 6 then true
  else if sc = 5 then x % 4 / 2 == y % 4 / 2 && x / 8 == y / 8
  else if sc = 4 || decide (200000 ≤ a) then x == y
  else if decide (200000 ≤ b) then false
  else if sc = 3 then groupCore ga == groupCore gb
  else if sc = 2 then groupCore ga == groupCore gb && (s.grp ga).wg == (s.grp gb).wg
  else if sc = 1 then ga == gb
  else a == b

/-- Whether two agents lie in each other's scope instance (R110, R112). -/
def reciprocal (s : State) (a : Nat) (sa : BitVec 4) (b : Nat) (sb : BitVec 4) : Bool :=
  s.inScope sa.toNat a b && s.inScope sb.toNat b a

/-- Whether a chain with such links holds towards an agent (R443). -/
def admits (s : State) (links : List (Nat × BitVec 4)) (b : Nat) : Bool := links.all fun l => s.inScope l.2.toNat l.1 b

/-- Whether the superstep of an agent is one before which a superstep of a cluster of its region lies in the order of R37. -/
def past (s : State) (a : Nat) (region : Option (BitVec 48)) (cluster step : Nat) : Bool :=
  let e := agentCluster a
  match region with
  | none => false
  | some rcb => (s.cl e).region == some rcb &&
      decide (step + 1 + (if cluster = e then 0 else regionDist (s.regionClusters rcb) cluster e * (s.cl e).res.lead.toNat) ≤ (s.cl e).phase)

/-! ## Who knows of a write (R113, R119, R120) -/

/-- The writer's own chain of a write. -/
def ownChain (r : WriteRec) : Option Known := r.known.find? fun k => k.who == .agent r.writer

/-- The chains by which a holder knows of a write; an agent knows too what a superstep boundary orders before it (R37). -/
def chains (s : State) (r : WriteRec) (h : Holder) : List Known :=
  match h with
  | .agent a =>
    (r.known.filter fun k => k.who == .agent a || (k.who == .all && s.admits k.links a)) ++
      if s.past a r.region r.cluster r.step then
        [⟨.agent a, [], ((ownChain r).bind (·.vf)).filter fun v => s.past a r.region r.cluster v.2, false, [agentCluster a]⟩]
      else []
  | h => r.known.filter fun k => k.who == h

/-- Whether a write happens before what an agent does by the same path, or was read by it (R68, R106, R109, R114). An engine sees every
write. -/
def knows (s : State) (a : Nat) (r : WriteRec) : Bool :=
  decide (200000 ≤ a) || !(s.chains r (.agent a)).isEmpty || r.known.any fun k => k.who == .saw a

/-- Whether a write by another path kind is ordered before what an agent does (R69, R119). -/
def crosses (s : State) (a : Nat) (r : WriteRec) : Bool :=
  if 200000 ≤ a then (ownChain r).any fun k => k.vf.any fun v => s.inScope v.1.toNat r.writer a
  else (s.chains r (.agent a)).any fun k => k.own || k.vf.any fun v => s.inScope v.1.toNat r.writer a

/-- Whether a write is ordered before a read through the gather unit of an agent's cluster (R120). -/
def gathered (s : State) (a : Nat) (r : WriteRec) : Bool := (s.chains r (.agent a)).any fun k => k.units.contains (agentCluster a)

/-- Whether a write is ordered before a read by a path kind of an engine command of a cluster (R116, R117, R119). -/
def knowsOp (s : State) (id c kind : Nat) (r : WriteRec) : Bool :=
  (s.chains r (.op id)).any fun k => r.kind.toNat == kind || k.vf.any fun v => s.inScope v.1.toNat r.writer (200000 + c)

/-- The state with the writes changed. -/
def modWrites (s : State) (f : WriteRec → WriteRec) : State :=
  if s.writes.isEmpty then s else { s with writes := s.writes.map f }

end State

/-- The chains of a write with one more. -/
def WriteRec.learn (k : Known) (r : WriteRec) : WriteRec := if r.known.contains k then r else { r with known := r.known ++ [k] }

namespace State

/-- What one holder knows goes on to another through a link; a chain reaches an agent only if all its links admit it (R113, R443). -/
def pass (s : State) (src dst : Holder) (links : List (Nat × BitVec 4)) : State :=
  s.modWrites fun r => (s.chains r src).foldl (fun r k =>
    let l := (k.links ++ links).eraseDups
    if (match dst with | .agent b => s.admits l b | _ => true) then r.learn ⟨dst, l, k.vf, false, k.units⟩ else r) r

/-- Forget what an agent knew: another thread starts in its place. -/
def forget (s : State) (a : Nat) : State :=
  s.modWrites fun r => { r with known := r.known.filter fun k => match k.who with
    | .agent b | .saw b | .fence b _ => b != a
    | _ => true }

/-- Change an agent's chains of the writes that a test picks, each chain kept as an entry of its own. -/
def modChains (s : State) (a : Nat) (p : WriteRec → Bool) (f : Known → Known) : State :=
  s.modWrites fun r => if p r then
      { r with known := ((r.known.filter fun k => k.who != .agent a) ++
          (s.chains r (.agent a)).map fun k => f { k with who := .agent a }).eraseDups }
    else r

/-- A `FENCE.rw` of an agent takes its place in the total order (R111, R112). -/
def fenceBy (s : State) (a : Nat) (sc : BitVec 4) : State :=
  let fs := ((s.writes.flatMap (·.known)).filterMap fun k => match k.who with
    | .fence b sb => if s.reciprocal b sb a sc then some (b, sb) else none
    | _ => none).eraseDups
  (fs.foldl (fun s f => s.pass (.fence f.1 f.2) (.agent a) [(f.1, f.2), (a, sc)]) s).pass (.agent a) (.fence a sc) []

/-- A `VFENCE` of an agent: it acts as a `FENCE.rw`, marks the chains of the agent's own writes with its scope, and orders what its
scope's agents wrote, and the agent knows, before every path of the agent (R119, R235). -/
def vfenceBy (s : State) (a : Nat) (sc : BitVec 4) : State :=
  let wider := fun (v : Option (BitVec 4 × Nat)) => match v with
    | some x => if sc.toNat ≤ x.1.toNat then some x else some (sc, (s.cl (agentCluster a)).phase)
    | none => some (sc, (s.cl (agentCluster a)).phase)
  let s := s.fenceBy a sc
  let s := s.modChains a (fun r => r.writer == a) fun k => { k with own := true, vf := wider k.vf }
  s.modChains a (fun r => r.writer != a && s.inScope sc.toNat a r.writer) fun k => { k with own := true }

/-- A `GINV` of an agent: the gather caches of some clusters hold nothing older than what it knows and its scope's agents wrote (R120). -/
def ginvBy (s : State) (a : Nat) (sc : BitVec 4) (units : List Nat) : State :=
  s.modChains a (fun r => s.inScope sc.toNat a r.writer) fun k => { k with units := (k.units ++ units).eraseDups }

/-! ## Barrier registers (R118, R127, R245) -/

/-- An arrival on a barrier register is a release of an agent at a scope, or of an engine command. -/
def arrivalOf (s : State) (place : Nat) (h : Holder) (links : List (Nat × BitVec 4)) : State := s.pass h (.round place false) links

/-- A round completes: its waiters acquire what its arrivals released. -/
def roundOver (s : State) (place : Nat) : State := s.pass (.round place false) (.round place true) []

/-- A return of `BARW` is an acquire at the register's scope. -/
def waited (s : State) (place a : Nat) (sc : BitVec 4) : State := s.pass (.round place true) (.agent a) [(a, sc)]

/-! ## Recording a write -/

/-- Remember the bytes that one access is about to replace, in the parts in which a reader may find it; a release of a thread publishes
what the thread knows (R72, R110, R114). -/
def record (s : State) (space : Space) (kind : Nat) (writer : Nat) (also : List Known) (rel : Option (Nat × BitVec 4))
    (atomic : Option (BitVec 4))
    (parts : List (Nat × List Byte)) : State :=
  let n := s.seq
  let s := if rel.any fun x => x.1 == writer && decide (writer < 200000) then s.pass (.agent writer) (.write n) [] else s
  let c := agentCluster writer
  let x := s.cl c
  let own := fun (h : Holder) => (⟨h, [], none, false, []⟩ : Known)
  let known := own (.agent writer) :: (if rel.isSome then [own (.write n)] else []) ++ also
  { s with
    seq := n + parts.length
    writes := s.writes ++ parts.zipIdx.map fun (p, i) =>
      ⟨n + i, n, writer, BitVec.ofNat 2 kind, space, p.1, p.2, x.region, c, x.phase, rel, atomic, known⟩ }

/-- The bytes of an access in parts of at most 8: each is single-copy atomic (R72). -/
def halves (a : Nat) (l : List Byte) : List (Nat × List Byte) :=
  (List.range ((l.length + 7) / 8)).map fun i => (a + 8 * i, (l.drop (8 * i)).take 8)

/-! ## What a read finds (R69, R72, R107, R114, R119, R120) -/

/-- Undo writes, newest first, in the bytes of a read: each byte with its value and the access it was read from. A write that is ordered
before the read, or that a free choice keeps, stands with every older one of its bytes; none is torn. -/
def rollBack (keep : WriteRec → Bool) : List WriteRec → List (Nat × Byte × Option Nat) → List (Nat × Byte × Option Nat)
  | [], l => l
  | r :: rs, l =>
    let hit := fun (e : Nat × Byte × Option Nat) => decide (r.addr ≤ e.1) && decide (e.1 < r.addr + r.old.length)
    if !l.any hit then rollBack keep rs l
    else if l.any (fun e => hit e && e.2.2.isSome) || keep r then
      rollBack keep rs (l.map fun e => if hit e && e.2.2.isNone then (e.1, e.2.1, some r.access) else e)
    else rollBack keep rs (l.map fun e => if hit e then (e.1, r.old.getD (e.1 - r.addr) e.2.1, none) else e)

/-- A byte of physical memory, of a scratchpad slice, or of a codebook or buffer register. -/
def byteOf (s : State) : Space → Nat → Byte
  | .mem, a => Memory.byte s.mem a
  | .sp, a => Memory.byte s.sp a
  | .cbook, a => (mget 0 (s.wg (a / 512)).cb (a / 32 % 16)).extractLsb' (8 * (a % 32)) 8
  | .buf, a => (mget 0 (s.wg (a / 512)).b (a / 32 % 16)).extractLsb' (8 * (a % 32)) 8

/-- The bytes at some places of a space as an agent finds them, with the accesses they come from; `ordered` says which writes are ordered
before the read, and `key` which of them are chosen together. -/
def find (s : State) (a : Nat) (space : Space) (ordered : WriteRec → Bool) (key : WriteRec → Nat) (spots : List Nat) :
    List (Nat × Byte × Option Nat) :=
  rollBack (fun r => ordered r || s.flip (2 ^ 140 + 2 ^ 50 * (2 ^ 60 * a + spots.headD 0) + key r))
    (s.writes.filter fun r => r.space == space).reverse (spots.map fun x => (x, s.byteOf space x, none))

/-- A read by a path kind: 0 linear, 1–3 the views (R106). The writes of one access are chosen together by its own path, and element by
element by another (R69, R72). -/
def findBy (s : State) (a : Nat) (space : Space) (kind : Nat) (spots : List Nat) : List (Nat × Byte × Option Nat) :=
  s.find a space (fun r => if r.kind.toNat == kind then s.knows a r else s.crosses a r)
    (fun r => if r.kind.toNat == kind then r.access else 2 ^ 49 + r.seq) spots

/-- A read in parts of at most 8 bytes, each of them single-copy atomic (R72). -/
def inParts (f : List Nat → List (Nat × Byte × Option Nat)) (spots : List Nat) : List (Nat × Byte × Option Nat) :=
  (List.range ((spots.length + 7) / 8)).flatMap fun i => f ((spots.drop (8 * i)).take 8)

/-- A read by a path kind of a thread, in parts. -/
def findParts (s : State) (a : Nat) (space : Space) (kind : Nat) (spots : List Nat) : List (Nat × Byte × Option Nat) :=
  inParts (s.findBy a space kind) spots

/-- The bytes that a read by a path kind of an engine command of a cluster delivers, in parts (R116–R119). -/
def opBytes (s : State) (id c : Nat) (space : Space) (kind : Nat) (spots : List Nat) : List Byte :=
  if s.writes.isEmpty then spots.map (s.byteOf space)
  else (inParts (s.find (300000 + id) space (s.knowsOp id c kind)
    (fun r => if r.kind.toNat == kind then r.access else 2 ^ 49 + r.seq)) spots).map (·.2.1)

/-- What an engine command knows of its own write, beside the engine. -/
def opKnown (id : Nat) : List Known := [⟨.op id, [], none, false, []⟩]

/-- A buffer or codebook register as a thread finds it: whole (R221, R232). -/
def sharedReg (s : State) (t : Nat) (space : Space) (wg n : Nat) : W256 :=
  let spots := (List.range 32).map (512 * wg + 32 * n + ·)
  BitVec.ofNat 256 (leVal ((s.find t space (s.knows t) (·.access) spots).map (·.2.1)))

/-- A thread has read some accesses: it does not read older writes of their bytes by the path any more, and an acquire at a scope
synchronises with the releases among them, or before an atomic among them (R68, R106, R110). -/
def took (s : State) (a : Nat) (acq : Option (BitVec 4)) (got : List (Nat × Byte × Option Nat)) : State :=
  let accs := (got.filterMap (·.2.2)).eraseDups
  let s' := s.modWrites fun r => if accs.contains r.access && !s.knows a r then r.learn ⟨.saw a, [], none, false, []⟩ else r
  match acq with
  | none => s'
  | some sc =>
    let read := s.writes.filter fun r => accs.contains r.access
    let meets := fun (x y : WriteRec) => x.space == y.space && decide (x.addr < y.addr + y.old.length) && decide (y.addr < x.addr + x.old.length)
    let rels := s.writes.filter fun w => w.rel.isSome &&
      read.any fun r => r.access == w.access || (r.atomic.isSome && decide (w.seq < r.seq) && meets w r)
    (rels.map fun w => (w.access, w.rel.getD (w.writer, 0))).eraseDups.foldl (fun s w =>
      if s.reciprocal w.2.1 w.2.2 a sc then s.pass (.write w.1) (.agent a) [(w.2.1, w.2.2), (a, sc)] else s) s'

/-- One read of a thread by a path: the bytes, and what it then knows. -/
def see (s : State) (a : Nat) (acq : Option (BitVec 4)) (space : Space) (kind : Nat) (spots : List Nat) : State × List Byte :=
  if s.writes.isEmpty then (s, spots.map (s.byteOf space))
  else
    let got := s.findParts a space kind spots
    (s.took a acq got, got.map (·.2.1))

/-- The read of an atomic: the latest write, unless some other atomic to the location and this one do not lie in each other's scope (R115). -/
def seeAtomic (s : State) (a : Nat) (sc : BitVec 4) (acq : Bool) (space : Space) (spots : List Nat) : State × List Byte :=
  if s.writes.isEmpty then (s, spots.map (s.byteOf space))
  else
    let foreign := s.writes.any fun r => r.space == space && r.writer != a && (r.atomic.any fun t => !s.reciprocal r.writer t a sc) &&
      spots.any fun x => decide (r.addr ≤ x) && decide (x < r.addr + r.old.length)
    let got := s.find a space (fun r => !foreign || s.knows a r) (·.access) spots
    (s.took a (if acq then some sc else none) got, got.map (·.2.1))

/-- Drop the writes that are ordered before everything that can still read them: every cluster of their region is past them, and no other
path reads them (R37; a write in a stack share may still be unordered with another path kind, R119). -/
def dropPast (s : State) (rcb : BitVec 48) : State :=
  let set := s.regionClusters rcb
  { s with writes := s.writes.filter fun r =>
      !(r.region == some rcb && (r.space != .mem || decide (0xC000000000 ≤ r.addr)) &&
        set.all fun d => s.past (200000 + d) r.region r.cluster r.step) }

/-- Drop the writes of a region that has ended or was saved (R124). -/
def dropRegion (s : State) (rcb : BitVec 48) : State := { s with writes := s.writes.filter fun r => r.region != some rcb }

end State
end Sys2Proof.Machine
end

