-- ==== Sys2Proof/Machine/Ops.lean ====
section
/-!
DEFINITION. The named operations over the state: registers with their pending writes
(R158–R163); counters and outstanding operations; memory and scratchpad; event records; sleeping waits; taking a trap and
returning from one; parking; and the end of a word.
-/
namespace Sys2Proof.Machine

/-! ## Registers of a thread -/

/-- The word of a special register of a thread, zero-extended (R191). -/
def Thread.sreg (x : Thread) : Sreg → W64
  | .srs => x.srs.zeroExtend 64
  | .fsr => x.fsr.zeroExtend 64
  | .hp => x.hp
  | .hb => x.hb
  | .tr => x.tr
  | .ovb => x.ovb
  | .ovt => x.ovt
  | .ovl => x.ovl
  | .chb => x.chb
  | .chp => x.chp
  | .shb => x.shb
  | .steps => x.steps
  | .re => x.re
  | .rc => x.rc.zeroExtend 64

/-- The thread with a special register written as its width (R191). -/
def Thread.setSreg (x : Thread) (r : Sreg) (w : W64) : Thread :=
  match r with
  | .srs => { x with srs := w.truncate 32 }
  | .fsr => { x with fsr := w.truncate 5 }
  | .hp => { x with hp := w }
  | .hb => { x with hb := w }
  | .tr => { x with tr := w }
  | .ovb => { x with ovb := w }
  | .ovt => { x with ovt := w }
  | .ovl => { x with ovl := w }
  | .chb => { x with chb := w }
  | .chp => { x with chp := w }
  | .shb => { x with shb := w }
  | .steps => { x with steps := w }
  | .re => { x with re := w }
  | .rc => { x with rc := w.truncate 32 }

/-- The settled value of a register; `p7` reads true (R151). -/
def Thread.base (x : Thread) : RegId → RVal
  | .g i => .w (mget 0 x.g i.toNat)
  | .v i => .v (mget VVal.zero x.v i.toNat)
  | .p i => .p (if i = 7#3 then true else mget false x.p i.toNat)
  | .s r => .w (x.sreg r)

/-- The thread with a value written to a register. -/
def Thread.put (x : Thread) (r : RegId) (y : RVal) : Thread :=
  match r, y with
  | .g i, .w w => { x with g := mset 0 x.g i.toNat w }
  | .v i, .v w => { x with v := mset VVal.zero x.v i.toNat w }
  | .p i, .p b => if i = 7#3 then x else { x with p := mset false x.p i.toNat b }
  | .s r, .w w => x.setSreg r w
  | .s .fsr, .orF f => { x with fsr := x.fsr ||| f }
  | _, _ => x

/-- What a pending write makes of a register's value. DEDUCED: log entry 73. -/
def Pend.apply (old : RVal) : RVal → RVal
  | .orF f => match old with
    | .w x => .w (x ||| f.zeroExtend 64)
    | y => y
  | y => y

/-- A number for a register, for the sites of free choices and for latent errors. -/
def RegId.num : RegId → Nat
  | .g i => i.toNat
  | .v i => 64 + i.toNat
  | .p i => 96 + i.toNat
  | .s .srs => 107
  | .s .fsr => 108
  | .s .hp => 109
  | .s .hb => 110
  | .s .tr => 111
  | .s .ovb => 112
  | .s .ovt => 113
  | .s .ovl => 114
  | .s .chb => 115
  | .s .chp => 116
  | .s .shb => 117
  | .s .steps => 118
  | .s .re => 119
  | .s .rc => 120

/-- The specifier of R151 that names a register, as `STALL_SHORT` reports it (R381). -/
def RegId.spec : RegId → BitVec 9
  | .g i => mkG i
  | .v i => mkV i
  | .p i => mkP i
  | .s r => mkS (BitVec.ofNat 6 ((RegId.s r).num - 64))

/-- The value a read at `cycle` finds (R161): settled writes in program order, a fixed-latency result not yet due left
out, and for an outstanding variable-latency result the value before it or the result, as `choose` says. -/
def Thread.fold (choose : Nat → Bool) (cycle : Nat) (r : RegId) : List Pend → RVal → RVal
  | [], v => v
  | e :: l, v =>
    if e.reg = r then
      match e.ready with
      | some c => Thread.fold choose cycle r l (if c ≤ cycle then Pend.apply v e.val else v)
      | none =>
        let w := Pend.apply v e.val
        Thread.fold choose cycle r l (if w = v then v else if choose e.op then w else v)
    else Thread.fold choose cycle r l v

/-- A read of a register of thread `t` at issue (R161). -/
def State.readReg (s : State) (t : Nat) (r : RegId) : RVal :=
  let x := s.thr t
  Thread.fold (fun op => s.flip (1000 * (128 * t + r.num) + op % 1000)) s.cycle r x.pend (x.base r)

/-- A general register of thread `t` at issue. -/
def State.g (s : State) (t : Nat) (i : GReg) : W64 := match s.readReg t (.g i) with | .w x => x | _ => 0
/-- A vector register of thread `t` at issue. -/
def State.v (s : State) (t : Nat) (i : VReg) : VVal := match s.readReg t (.v i) with | .v x => x | _ => VVal.zero
/-- A predicate of thread `t` at issue. -/
def State.p (s : State) (t : Nat) (i : PReg) : Bool := match s.readReg t (.p i) with | .p x => x | _ => false
/-- A special register of thread `t` at issue. -/
def State.sr (s : State) (t : Nat) (r : Sreg) : W64 := match s.readReg t (.s r) with | .w x => x | _ => 0
/-- A source of file 1 or 7 in thread `t` (R151). -/
def State.src (s : State) (t : Nat) : Src → W64
  | .g r => s.g t r
  | .k n => n.zeroExtend 64
  | .lit x => x
/-- A register pair of thread `t`, the even register low (R151). -/
def State.pair (s : State) (t : Nat) (i : GReg) : W128 := s.g t (i + 1) ++ s.g t i

/-- The value of a register after every write of the thread's program order so far, whatever its latency. -/
def Thread.arch (x : Thread) (r : RegId) : RVal :=
  (x.pend.filter fun e => e.reg == r).foldl (fun v e => Pend.apply v e.val) (x.base r)

/-- The word of `Thread.arch`. -/
def Thread.archW (x : Thread) (r : RegId) : W64 := match x.arch r with | .w y => y | _ => 0

/-- Settle the writes at the front of the list that are due (R161). -/
def Thread.settleL (cycle : Nat) : List Pend → Thread → Thread
  | [], x => { x with pend := [] }
  | e :: l, x =>
    match e.ready with
    | some c => if c ≤ cycle then Thread.settleL cycle l (x.put e.reg e.val) else { x with pend := e :: l }
    | none => { x with pend := e :: l }

/-- Settle what is due in a thread. -/
def Thread.settle (cycle : Nat) (x : Thread) : Thread := Thread.settleL cycle x.pend x

/-- Whether a pending write is an addition of flags that a later `WRS fsr` does not replace (R194). -/
def Pend.late (cycle : Nat) (e : Pend) : Bool :=
  e.reg == .s .fsr && (match e.val with | .orF _ => true | _ => false) && (match e.ready with | some c => decide (cycle < c) | none => true)

/-- Add a pending write; a plain write of `fsr` goes before the flags still outstanding (R194). -/
def Thread.addPend (cycle : Nat) (e : Pend) (x : Thread) : Thread :=
  let x := x.settle cycle
  match e.reg, e.val with
  | .s .fsr, .w _ =>
    { x with pend := x.pend.filter (fun f => !f.late cycle) ++ e :: x.pend.filter (fun f => f.late cycle) }
  | _, _ => { x with pend := x.pend ++ [e] }

/-- Settle every write of some registers, in order, at a moment at which no operation of the thread is outstanding. -/
def Thread.flush (rs : List RegId) (x : Thread) : Thread :=
  let y := x.pend.foldl (fun y e => if rs.contains e.reg then y.put e.reg e.val else y) x
  { y with pend := x.pend.filter fun e => !rs.contains e.reg }

/-- Whether the scoreboard forbids a read of a register at `cycle`: its last fixed-latency result, or an addition of flags, may not be
read yet (R161, R163). -/
def Thread.early (cycle : Nat) (r : RegId) (x : Thread) : Bool :=
  x.pend.foldl (fun b e =>
    if e.reg = r then
      match e.ready, e.val with
      | some c, .orF _ => b || decide (cycle < c)
      | some c, _ => decide (cycle < c)
      | none, _ => b
    else b) false

/-! ## Matrix registers (R84, R445) -/

/-- The rows of a mask taken from the new value, the others from the old one. -/
def MVal.rows (new old : MVal) (rows : BitVec 32) : MVal :=
  if rows = BitVec.allOnes 32 then new
  else { new with elems := mtab 0 1024 fun k => if rows.getLsbD (k / 32) then mget 0 new.elems k else mget 0 old.elems k }

/-- What a read finds while a result is outstanding: row by row the value before it or the result, as `choose` says (R161, R234); the
tag, and the scale bytes but those of single rows, go together under number 32. -/
def MVal.pick (choose : Nat → Bool) (new old : MVal) (rows : BitVec 32) : MVal :=
  let y := new.rows old (maskOf ((lanesOf rows).filter choose))
  let k := fun (i : Nat) => if bits new.tag.toNat 3 2 = 3 then i else 32
  { y with
    tag := if choose 32 then new.tag else old.tag
    scale := BitVec.ofNat 256 ((List.range 32).foldl (fun n i =>
      n + 2 ^ (8 * i) * ((if choose (k i) then new.scale else old.scale).extractLsb' (8 * i) 8).toNat) 0) }

/-- The value a read of a matrix register finds, as `Thread.fold`. -/
def MPend.fold (choose : Nat → Nat → Bool) (cycle : Nat) (r : MReg) : List MPend → MVal → MVal
  | [], v => v
  | e :: l, v =>
    if e.reg = r then
      match e.ready with
      | some c => MPend.fold choose cycle r l (if c ≤ cycle then e.val.rows v e.rows else v)
      | none => MPend.fold choose cycle r l (e.val.pick (choose e.op) v e.rows)
    else MPend.fold choose cycle r l v

/-- A read of a matrix register of group `g` at issue. -/
def State.readM (s : State) (g : Nat) (r : MReg) : MVal :=
  let x := s.grp g
  MPend.fold (fun op row => s.flip (64 * (1000 * (128 * (200000 + g) + r.toNat) + op % 1000) + row)) s.cycle r x.mpend
    (mget MVal.zero x.m r.toNat)

/-- Settle the matrix writes that are due. -/
def Group.settleL (cycle : Nat) : List MPend → Group → Group
  | [], x => { x with mpend := [] }
  | e :: l, x =>
    match e.ready with
    | some c =>
      if c ≤ cycle then
        Group.settleL cycle l
          { x with m := mset MVal.zero x.m e.reg.toNat (e.val.rows (mget MVal.zero x.m e.reg.toNat) e.rows) }
      else { x with mpend := e :: l }
    | none => { x with mpend := e :: l }

/-- Add a pending write of a matrix register. -/
def Group.addPend (cycle : Nat) (e : MPend) (x : Group) : Group :=
  let x := Group.settleL cycle x.mpend x
  { x with mpend := x.mpend ++ [e] }

/-- Whether the scoreboard forbids a read of a matrix register (R163). -/
def Group.early (cycle : Nat) (r : MReg) (x : Group) : Bool :=
  x.mpend.foldl (fun b e =>
    if e.reg = r then
      match e.ready with
      | some c => decide (cycle < c) || (b && e.rows != BitVec.allOnes 32)
      | none => b
    else b) false

/-! ## Dependency counters and outstanding operations (R159, R160) -/

/-- The thread with a dependency counter one higher. -/
def Thread.incD (x : Thread) (n : BitVec 3) : Thread := { x with d := mset 0 x.d n.toNat (mget 0 x.d n.toNat + 1) }
/-- The thread with a dependency counter one lower. -/
def Thread.decD (x : Thread) (n : BitVec 3) : Thread := { x with d := mset 0 x.d n.toNat (mget 0 x.d n.toNat - 1) }

/-- Whether an operation completes for a dependency counter when it enters its queue (R239, R269). -/
def OpKind.entered : OpKind → Bool
  | .ldx _ _ _ _ _ => true
  | .course => true
  | _ => false

namespace State

/-- Whether a thread has an operation outstanding that its counters know, an exchange transfer among them (R160); an operation
that completes for a counter at its entry into a queue is none (R239, R269). DEDUCED: log entry 41. -/
def hasOps (s : State) (t : Nat) : Bool :=
  s.ops.any fun o => o.group == threadGroup t && o.lanes.getLsbD (threadLane t) && !o.kind.entered

/-- Whether a thread has issued anything that is not performed yet, engine commands among them (R173, R247). DEDUCED: log entry 41. -/
def hasWork (s : State) (t : Nat) : Bool :=
  s.ops.any fun o => o.group == threadGroup t && o.lanes.getLsbD (threadLane t)

/-- Change every lane of a group that a mask names. -/
def modLanes (s : State) (g : Nat) (m : BitVec 32) (f : Thread → Thread) : State :=
  (lanesOf m).foldl (fun s i => s.modThr (tid g i) f) s

/-- Increment the counter of a word in the lanes that take part (R159). -/
def incCtr (s : State) (g : Nat) (m : BitVec 32) : Option (BitVec 3) → State
  | none => s
  | some n => s.modLanes g m (·.incD n)

/-- Decrement the counter of a word in lanes (R159). -/
def decCtr (s : State) (g : Nat) (m : BitVec 32) : Option (BitVec 3) → State
  | none => s
  | some n => s.modLanes g m (·.decD n)

/-- The state with one more outstanding operation. -/
def addOp (s : State) (o : OutOp) : State := { s with ops := s.ops ++ [o] }

/-- Enter an operation: its joins are those whose mask names its queue; into an engine's queue, its issue is a release at `.clus` by its
lanes (R116, R248). -/
def enterOp (s : State) (g : Nat) (m : BitVec 32) (ctr : Option (BitVec 3)) (queue : Option Nat) (k : OpKind) (done : Bool) :
    State × Nat :=
  let (s, id) := s.fresh
  let core := groupCore g
  let js := match queue with
    | none => []
    | some q => (s.joins.filter fun j =>
        coreCluster j.core == coreCluster core && j.mask.getLsbD q && (q != 6 || j.core == core)).map (·.id)
  let o : OutOp := ⟨id, g, m, ctr, s.cycle, done, queue, js, k⟩
  let s := s.incCtr g m ctr
  ((if queue.isSome then (lanesOf m).foldl (fun s i => s.pass (.agent (tid g i)) (.op id) [(tid g i, 4)]) s else s).addOp o, id)

/-- The number of an engine queue: queue 6 is a core's own, the others are their cluster's (R248). -/
def queueNum (core q : Nat) : Nat := if q = 6 then 1000 + core else 32 * coreCluster core + q

/-- An operation begins: it comes after those of its queue that have been performed, and after those before its joins (R117, R248). -/
def beginOp (s : State) (o : OutOp) : State :=
  let s := match o.queue with
    | none => s
    | some q => s.pass (.queue (queueNum (groupCore o.group) q)) (.op o.id) []
  o.joins.foldl (fun s j => s.pass (.queue (2 ^ 20 + j)) (.op o.id) []) s

/-- An operation has been performed: later ones of its queue, and those behind the joins that it is before, come after it (R117, R248). -/
def performed (s : State) (o : OutOp) : State :=
  let s := match o.queue with
    | none => s
    | some q => s.pass (.op o.id) (.queue (queueNum (groupCore o.group) q)) []
  (s.joins.filter fun j => j.before.contains o.id).foldl (fun s j => s.pass (.op o.id) (.queue (2 ^ 20 + j.id)) []) s

/-- The joins that an operation of a number no longer holds back (R248). -/
def clearJoins (s : State) (id : Nat) : State :=
  { s with joins := (s.joins.map fun j => { j with before := j.before.filter (· != id) }).filter fun j => !j.before.isEmpty }

/-- Whether an operation may begin: every join before it has gone (R248). -/
def joinsGone (s : State) (js : List Nat) : Bool := js.all fun j => !s.joins.any fun x => x.id == j

end State

/-- The thread with the writes of an operation made readable (R159). -/
def Thread.mature (id : Nat) (x : Thread) : Thread :=
  { x with pend := x.pend.map fun e => if e.op == id then { e with ready := some 0, op := 0 } else e }

/-- The group with the matrix writes of an operation made readable. -/
def Group.mature (id : Nat) (x : Group) : Group :=
  { x with mpend := x.mpend.map fun e => if e.op == id then { e with ready := some 0, op := 0 } else e }

/-! ## Physical memory (R348) -/

/-- The cluster whose stack share holds a physical address. -/
def stackOwner (pa : Nat) : Option Nat := if pa < 0xC000000000 then some (pa / 0x0C00000000) else none
/-- The cluster whose second-tier share holds a physical address. -/
def tierOwner (pa : Nat) : Option Nat :=
  if 0x10000000000 ≤ pa ∧ pa < 0x28000000000 then some ((pa - 0x10000000000) / 0x1800000000) else none
/-- The cluster that owns a physical address; host and expander memory has none (R33). -/
def owner (pa : Nat) : Option Nat := (stackOwner pa).orElse fun _ => tierOwner pa
/-- Whether a physical address is host or expander memory. -/
def isHost (pa : Nat) : Bool := decide (0x40000000000 ≤ pa) && decide (pa < 0x1000000000000)
/-- Whether a physical address lies in the ranges of R348. -/
def physOk (pa : Nat) : Bool := (owner pa).isSome || isHost pa
/-- Whether `n` bytes from a physical address lie in the ranges of R348. -/
def physOkN (pa n : Nat) : Bool := physOk pa && physOk (pa + (n - 1))

namespace State

/-- `n` bytes of physical memory as a little-endian number. -/
def rd (s : State) (pa n : Nat) : Nat := Memory.read s.mem pa n
/-- Remember that the device reached an address where nothing exists. -/
def reach (s : State) (pa n : Nat) : State := if physOkN pa n then s else { s with hole := true }
/-- Write bytes to physical memory. -/
def wrBytes (s : State) (pa : Nat) (b : List Byte) : State :=
  if physOkN pa b.length then { s with mem := Memory.put s.mem pa b } else { s with hole := true }
/-- Write the low `n` bytes of a number to physical memory. -/
def wr (s : State) (pa n x : Nat) : State := s.wrBytes pa (leBytes x n)

/-- Set DEDIT in a region control block (R354). -/
def markEdited (s : State) (rcb : BitVec 48) : State :=
  let s := { s with edited := if s.edited.contains rcb then s.edited else s.edited ++ [rcb] }
  s.wr (rcb.toNat + 56) 1 (s.rd (rcb.toNat + 56) 1 ||| 128)

/-- End a step: it faults when the device reached an address where nothing exists. -/
def out (s : State) : Host.Outcome State Fault Refusal := if s.hole then .fault .noMemory else .next s

/-! ## Event records (R382–R384) -/

/-- Whether the event queue of a descriptor has room. -/
def evRoom (s : State) (desc : Nat) : Bool :=
  let d := s.rd desc 64
  decide ((bits d 127 96 + 2 ^ 32 - bits d 159 128) % 2 ^ 32 < 2 ^ bits d 68 64)

/-- Append a record to the queue of a descriptor. -/
def evAppend (s : State) (desc : Nat) (r : W512) : State :=
  let d := s.rd desc 64
  let tail := bits d 127 96
  let s := s.reach desc 64
  let s := s.wr (bits d 47 0 + 64 * (tail % 2 ^ bits d 68 64)) 64 r.toNat
  s.wr (desc + 12) 4 (tail + 1)

/-- Post a record to a queue; it waits when the queue is full or an earlier one waits (R382). -/
def post (s : State) (secure : Bool) (r : W512) : State :=
  let desc := (if secure then s.sys.evqs else s.sys.evqn).toNat
  if s.evWait.any (fun x => x.1 == secure) || !s.evRoom desc then { s with evWait := s.evWait ++ [(secure, r)] }
  else s.evAppend desc r

/-- Append the records that wait for a queue, in order, while it has room (R382). -/
def evDrain (s : State) (secure : Bool) : List (Bool × W512) → List (Bool × W512) → State
  | [], kept => { s with evWait := kept }
  | (q, r) :: l, kept =>
    let desc := (if secure then s.sys.evqs else s.sys.evqn).toNat
    if q == secure && !kept.any (fun x => x.1 == secure) && s.evRoom desc then (s.evAppend desc r).evDrain secure l kept
    else s.evDrain secure l (kept ++ [(q, r)])

end State

/-- An event record from its words (R383, R384). -/
def evRecord (cycle ty cluster core slot fdom : Nat) (rcb : Nat) (w3 w4 w5 w6 w7 : Nat) : W512 :=
  BitVec.ofNat 512 (ty % 256 + 256 * (cluster % 16) + 2 ^ 12 * (core % 32) + 2 ^ 17 * (slot % 16) + 2 ^ 32 * (fdom % 2 ^ 16) +
    2 ^ 64 * (rcb % 2 ^ 48) + 2 ^ 128 * (cycle % 2 ^ 64) + 2 ^ 192 * (w3 % 2 ^ 64) + 2 ^ 256 * (w4 % 2 ^ 64) +
    2 ^ 320 * (w5 % 2 ^ 64) + 2 ^ 384 * (w6 % 2 ^ 64) + 2 ^ 448 * (w7 % 2 ^ 64))

/-- Post an event about a group (R384). -/
def State.postGroup (s : State) (secure : Bool) (ty g : Nat) (w3 w4 w5 w6 w7 : Nat) : State :=
  let core := groupCore g
  let x := s.grp g
  s.post secure (evRecord s.cycle ty (coreCluster core) (coreNum core) (groupSlot g) (s.grpRes g).fdom.toNat x.rcb.toNat
    w3 w4 w5 w6 w7)

/-- Post an event about a cluster's region, with no core named. -/
def State.postCl (s : State) (secure : Bool) (ty c : Nat) (w3 w4 w5 w6 w7 : Nat) : State :=
  let x := s.cl c
  s.post secure (evRecord s.cycle ty c 0 0 (match x.region with | none => 0xFFFF | some _ => x.res.fdom.toNat)
    (match x.region with | none => 0 | some r => r.toNat) w3 w4 w5 w6 w7)

/-! ## Resume addresses (R169) -/

/-- A resume address. -/
def resumeAt (hdr : BitVec 48) (word : Nat) : W64 := BitVec.ofNat 64 (hdr.toNat + 2 ^ 48 * (word % 16))
/-- The resume address at which a thread stands. -/
def Thread.pc (x : Thread) : W64 := resumeAt x.hdr x.word.toNat
/-- The thread placed at a resume address. -/
def Thread.goto (x : Thread) (r : W64) : Thread := { x with hdr := r.truncate 48, word := (r >>> 48).truncate 4 }
/-- Whether a value is a well-formed resume address. -/
def resumeOk (r : W64) : Bool := r.extractLsb' 52 12 == 0#12 && r.extractLsb' 0 3 == 0#3

/-! ## Leaving the path -/

namespace State

/-- Take lanes out of the clauses in issue on their core and out of the current path of their group; a clause without
lanes is no longer in issue (R22, R28). -/
def dropLanes (s : State) (g : Nat) (m : BitVec 32) : State :=
  let k := groupCore g
  let x := s.core k
  let s := s.setGrp g { s.grp g with cur := (s.grp g).cur &&& ~~~m }
  s.setCore k { x with sels := (x.sels.map fun y =>
    if y.slot == groupSlot g then { y with lanes := y.lanes &&& ~~~m } else y).filter fun y => y.lanes != 0#32 }

/-- Whether a thread is in a clause in issue. -/
def inSel (s : State) (t : Nat) : Bool :=
  let g := threadGroup t
  (s.core (groupCore g)).sels.any fun y => y.slot == groupSlot g && y.lanes.getLsbD (threadLane t)

/-! ## Taking a trap, and returning from one (R379, R380) -/

/-- A double or fatal trap: the thread stops and a fatal-trap event is posted (R380). -/
def fatal (s : State) (t : Nat) (i : TrapInfo) : State :=
  let s := s.modThr t fun x => { x with stat := .stopped }
  s.postGroup false 17 (threadGroup t) t i.record.toNat i.value.toNat i.resume.toNat 0

/-- Deliver a trap to a thread with no outstanding operation: the hidden trap state takes the record, the value, the
resume address and `g61`–`g63`; those registers take the three values; the handler starts at TRAPVEC (R379). A stepped thread halts
there (R397). -/
def deliver (s : State) (t : Nat) (i : TrapInfo) : State :=
  let x := s.thr t
  let vec := (s.grpRes (threadGroup t)).trapvec
  if x.handler.isSome || vec == 0#48 then s.fatal t i
  else
    let y := x.flush [.g 61, .g 62, .g 63]
    let h : Handler := ⟨i, mget 0 y.g 61, mget 0 y.g 62, mget 0 y.g 63⟩
    s.setThr t { y with
      stat := .run, handler := some h, d := [], hdr := vec, word := 0, readyAt := s.cycle + 1, waitOp := 0, drain := false
      halt := if y.stepping then some ⟨4, 0, false⟩ else y.halt
      g := mset 0 (mset 0 (mset 0 y.g 61 i.record) 62 i.value) 63 i.resume }

/-- TAKING A TRAP. The thread leaves its path; it enters its handler when none of its operations is outstanding, and
otherwise waits for them (R48, R160, R379). DEDUCED: log entry 15. -/
def takeTrap (s : State) (t : Nat) (i : TrapInfo) : State :=
  let s := s.dropLanes (threadGroup t) (1#32 <<< threadLane t)
  if s.hasOps t then s.modThr t fun x => { x with stat := .trapWait i } else s.deliver t i

/-- The trap record of R381. -/
def trapRecord (code opc cls detail cause : Nat) : W64 :=
  BitVec.ofNat 64 (cause % 256 + 256 * (detail % 256) + 2 ^ 20 * (cls % 16) + 2 ^ 24 * (opc % 256) + 2 ^ 32 * (code % 65536))

/-- Leave handler state and continue at a resume address, with `g61`–`g63` restored (R379); a held `STRAGGLER` is then
taken (R380). -/
def leaveHandler (s : State) (t : Nat) (r : W64) : State :=
  let x := s.thr t
  match x.handler with
  | none => s
  | some h =>
    let y := (x.flush [.g 61, .g 62, .g 63]).goto r
    s.setThr t { y with handler := none, g := mset 0 (mset 0 (mset 0 y.g 61 h.g61) 62 h.g62) 63 h.g63 }

/-! ## Sleeping waits (R21) -/

/-- End the sleeping wait of one thread without its effect: it stands at the sleeping word again (R21). -/
def unsleep (s : State) (t : Nat) : State :=
  match (s.thr t).stat with
  | .sleep id =>
    match s.sleepers.find? fun y => y.id == id with
    | none => s
    | some z =>
      let m := 1#32 <<< threadLane t
      let s := s.decCtr z.group m z.ctr
      let s := s.modThr t fun x => { x with stat := .run }
      let rest := z.lanes &&& ~~~m
      { s with sleepers := if rest = 0#32 then s.sleepers.filter (fun y => y.id != id)
          else s.sleepers.map fun y => if y.id == id then { y with lanes := rest } else y }
  | _ => s

/-- Wake lanes of a sleeping wait: they continue at the next word, once the stall count of theirs has elapsed (R20, R21, R158). -/
def wake (s : State) (z : Sleeper) (m : BitVec 32) : State :=
  let s := s.decCtr z.group m z.ctr
  let s := s.modLanes z.group m fun x => { x.goto z.next with
    stat := .run, readyAt := max s.cycle z.due, halt := if x.stepping then some ⟨4, 0, false⟩ else x.halt }
  let rest := z.lanes &&& ~~~m
  { s with sleepers := if rest = 0#32 then s.sleepers.filter (fun y => y.id != z.id)
      else s.sleepers.map fun y => if y.id == z.id then { y with lanes := rest } else y }

/-! ## Reconvergence (R29) -/

/-- Whether a thread is counted by `RECONV`: it has not exited, is not parked and is not in a handler. -/
def counted (s : State) (t : Nat) : Bool :=
  let x := s.thr t
  match x.stat with
  | .off | .exited | .parked _ | .trapWait _ | .stopped => false
  | _ => x.handler.isNone

/-- The address of the `RECONV` at which a thread waits. -/
def reconvAt (s : State) (t : Nat) : Option Nat :=
  match (s.thr t).stat with
  | .sleep id => match s.sleepers.find? fun y => y.id == id with
    | some z => if z.kind = .reconv then some ((s.thr t).hdr.toNat * 16 + (s.thr t).word.toNat) else none
    | none => none
  | _ => none

/-- Release the threads that wait at the lowest `RECONV` of a group when every counted thread waits and none is parked (R29). -/
def reconvRelease (s : State) (g : Nat) : State :=
  let ts := (groupLanes g).map (tid g)
  let parked := ts.any fun t => match (s.thr t).stat with | .parked _ => true | _ => false
  let cs := ts.filter fun t => s.counted t
  if parked || cs.isEmpty || cs.any (fun t => (s.reconvAt t).isNone || ((s.thr t).halt).isSome) then s
  else
    let low := minOf (((cs.headD 0) |> s.reconvAt).getD 0) (cs.filterMap fun t => s.reconvAt t)
    (cs.filter fun t => s.reconvAt t == some low).foldl (fun s t =>
      match (s.thr t).stat with
      | .sleep id => match s.sleepers.find? fun y => y.id == id with
        | some z => s.wake z (1#32 <<< threadLane t)
        | none => s
      | _ => s) s

/-- A result written at once to a register of a thread that no longer sleeps. -/
def putReg (s : State) (t : Nat) (r : RegId) (v : RVal) : State :=
  s.modThr t fun x => { (x.addPend s.cycle ⟨r, v, some 0, 0⟩) with stat := x.stat }

/-- The end of an idempotent region: `re` takes the resume address of the next word and `rc` rises (R45, R184). -/
def endRegion (s : State) (t : Nat) (next : W64) : State :=
  s.modThr t fun x =>
    let rc := x.archW (.s .rc)
    (x.addPend s.cycle ⟨.s .re, .w next, some s.cycle, 0⟩).addPend s.cycle ⟨.s .rc, .w ((rc + 1) &&& 0xFFFFFFFF#64), some s.cycle, 0⟩

/-! ## Parked sub-groups (R47, R59, R385, R387) -/

/-- A TOKEN that no awaited record carries (R385). -/
def freshToken (s : State) : Nat :=
  let n := Config.freeNat s.draw (2 ^ 75 + s.awaits.length) % 65536
  (((List.range (s.awaits.length + 1)).map fun i => (n + i) % 65536).find? fun k => !s.awaits.any fun a => a.tok == k).getD n

/-- Post the fault record of some lanes of a group and await its verdict. -/
def postFault (s : State) (g : Nat) (m : BitVec 32) (ty line pl acc : Nat) (re rc word : W64) (opc cls : Nat) (fetch bow : Bool) :
    State × Nat :=
  let tok := s.freshToken
  let s := s.postGroup (ty == 4) ty g (m.toNat + 2 ^ 32 * acc + 2 ^ 48 * tok) line re.toNat
    (rc.toNat % 2 ^ 32 + 2 ^ 32 * (s.grpRes g).asid.toNat) (if ty = 4 then pl else 0)
  ({ s with awaits := s.awaits ++ [⟨tok, g, m, BitVec.ofNat 64 line, fetch, bow, word, BitVec.ofNat 8 opc, BitVec.ofNat 4 cls⟩] }, tok)

/-- The park of a sub-group takes effect: its record is posted (R160, R387). -/
def parkNow (s : State) (q : ParkReq) : State :=
  let (s, tok) := s.postFault q.group q.lanes q.ty q.line q.pl q.acc q.re q.rc q.word q.opc q.cls q.fetch false
  s.modLanes q.group q.lanes fun x => { x with stat := .parked tok }

/-- A sub-group parks as soon as none of its lanes has an operation outstanding (R160). DEDUCED: log entry 18. -/
def parkOrWait (s : State) (q : ParkReq) : State :=
  if (lanesOf q.lanes).any fun i => s.hasOps (tid q.group i) then
    { s.modLanes q.group q.lanes (fun x => { x with stat := .parkWait }) with parks := s.parks ++ [q] }
  else s.parkNow q

/-- The parks that waited for operations of a group are tried again (R160). -/
def retryParks (s : State) (g : Nat) : State :=
  let mine := s.parks.filter fun q => q.group == g
  if mine.isEmpty then s
  else mine.foldl State.parkOrWait { s with parks := s.parks.filter fun q => q.group != g }

/-- Park lanes on faulting lines: the lanes of one line with equal `re` and `rc` form one sub-group (R387). Each entry is a
lane with its fault TYPE, virtual line, physical line and ACCESS. DEDUCED: log entry 18. -/
def parkLanes (g : Nat) (word : W64) (opc cls : Nat) (fetch : Bool) : Nat → List (Nat × Nat × Nat × Nat × Nat) → State → State
  | 0, _, s => s
  | _ + 1, [], s => s
  | n + 1, (i, ty, line, pl, acc) :: l, s =>
    let re := (s.thr (tid g i)).archW (.s .re)
    let rc := (s.thr (tid g i)).archW (.s .rc)
    let mine := fun (j : Nat × Nat × Nat × Nat × Nat) => j.2.1 == ty && j.2.2.1 == line &&
      (s.thr (tid g j.1)).archW (.s .re) == re && (s.thr (tid g j.1)).archW (.s .rc) == rc
    let m := maskOf (i :: (l.filter mine).map (·.1))
    let s := (s.dropLanes g m).parkOrWait ⟨g, m, ty, line, pl, acc, re, rc, word, opc, cls, fetch⟩
    parkLanes g word opc cls fetch n (l.filter fun j => !mine j) s

/-! ## The scratchpad (R52–R54, R444) -/

/-- `n` bytes of the scratchpad as a little-endian number. -/
def spRd (s : State) (k n : Nat) : Nat := Memory.read s.sp k n

/-- The fill of the ring whose descriptor lies at a scratchpad place, with HEAD, BASE and the number of slots (R335). -/
def ringAt (s : State) (k : Nat) : Nat × Nat × Nat × Nat :=
  let d := s.spRd k 32
  ((bits d 127 96 + 2 ^ 32 - bits d 95 64) % 2 ^ 32, bits d 95 64, bits d 29 0, 2 ^ bits d 132 128)

/-- A thread has read the latest write of `n` scratchpad bytes, as an acquire at a scope (R110, R246, R338). -/
def acquireSp (s : State) (t : Nat) (sc : BitVec 4) (k n : Nat) : State :=
  if s.writes.isEmpty then s
  else s.took t (some sc) (s.find t .sp (fun _ => true) (·.access) ((List.range n).map (k + ·)))

/-- Wake the sleepers whose word or ring a write has just satisfied (R246, R337). -/
def wakeSp (lo n : Nat) (s : State) : List Sleeper → State
  | [] => s
  | z :: l =>
    match z.kind with
    | .waita a w cmp d sc =>
      let x := s.spRd a w
      if a < lo + n && lo < a + w && x == cmp.toNat % 2 ^ (8 * w) then
        let t := tid z.group (lowLane z.lanes)
        wakeSp lo n (((s.wake z z.lanes).acquireSp t sc a w).putReg t (.g d) (.w (BitVec.ofNat 64 x))) l
      else wakeSp lo n s l
    | .ringwait a _ d =>
      let (f, head, base, slots) := s.ringAt a
      if a < lo + n && lo < a + 32 && f != 0 then
        let t := tid z.group (lowLane z.lanes)
        wakeSp lo n (((s.wake z z.lanes).acquireSp t 4 (a + 12) 4).putReg t (.g d)
          (.w (BitVec.ofNat 64 (base + 64 * (head % slots))))) l
      else wakeSp lo n s l
    | _ => wakeSp lo n s l

/-- One access that writes bytes at a scratchpad place. -/
def spPut (s : State) (k : Nat) (b : List Byte) : State :=
  let s := { s with sp := Memory.put s.sp k b }
  wakeSp k b.length s s.sleepers

/-- One access that writes the low `n` bytes of a number at a scratchpad place. -/
def spWr (s : State) (k n x : Nat) : State := s.spPut k (leBytes x n)

/-- One access of an agent that writes bytes at a scratchpad place, remembered for those that may not yet see it: with what else knows
of it, and the scopes at which it is a release and an atomic (R106, R114). -/
def spPutBy (s : State) (a : Nat) (also : List Known) (rel : Option (Nat × BitVec 4)) (atomic : Option (BitVec 4)) (k : Nat)
    (b : List Byte) : State :=
  (s.record .sp 0 a also rel atomic (halves k (Memory.bytes s.sp k b.length))).spPut k b

/-! ## Barrier registers (R193, R245) -/

/-- A barrier register as a group sees it. -/
def bar (s : State) (g : Nat) : Bar → Barrier
  | .nb i => mget Barrier.zero (s.grpWg g).nb i.toNat
  | .kb i => mget Barrier.zero (s.grpCl g).kb i.toNat

/-- The state with a barrier register replaced. -/
def setBar (s : State) (g : Nat) (n : Bar) (x : Barrier) : State :=
  match n with
  | .nb i => s.setWg (s.grp g).wg { s.grpWg g with nb := mset Barrier.zero (s.grpWg g).nb i.toNat x }
  | .kb i =>
    let c := coreCluster (groupCore g)
    s.setCl c { s.cl c with kb := mset Barrier.zero (s.cl c).kb i.toNat x }

end State

/-- The key of a wait parity (R245). -/
def barKey : Bar → Nat
  | .nb i => i.toNat
  | .kb i => 16 + i.toNat

/-- The scope of a barrier register (R245). -/
def barScope : Bar → BitVec 4
  | .nb _ => 2
  | .kb _ => 4

/-- A round completes when the arrivals reach a nonzero expected count: the count is reduced and the parity flips (R245). -/
def Barrier.round (x : Barrier) : Barrier :=
  if x.expected ≠ 0#16 ∧ x.expected ≤ x.count then { x with count := x.count - x.expected, parity := !x.parity } else x

/-- One arrival, saturating (R245). -/
def Barrier.arrive (x : Barrier) : Barrier :=
  Barrier.round { x with count := if x.count = 0xFFFF#16 then x.count else x.count + 1 }

namespace State

/-- The place of a barrier register, for the chains through its rounds. -/
def barPlace (s : State) (g : Nat) : Bar → Nat
  | .nb i => 2 * (16 * (s.grp g).wg + i.toNat) + 1
  | .kb i => 2 * (16 * coreCluster (groupCore g) + i.toNat)

/-- Wake the lanes that sleep on a barrier register whose parity now differs from theirs (R245). -/
def wakeBar (g : Nat) (n : Bar) (s : State) : List Sleeper → State
  | [] => s
  | z :: l =>
    if z.kind = .barw n && (match n with
        | .nb _ => (s.grp z.group).wg == (s.grp g).wg
        | .kb _ => coreCluster (groupCore z.group) == coreCluster (groupCore g)) then
      let par := (s.bar g n).parity
      let m := maskOf ((lanesOf z.lanes).filter fun i => mget false (s.thr (tid z.group i)).parity (barKey n) != par)
      if m = 0#32 then wakeBar g n s l
      else
        let s := (s.wake z m).modLanes z.group m fun x => { x with parity := mset false x.parity (barKey n) par }
        wakeBar g n ((lanesOf m).foldl (fun s i => s.waited (s.barPlace g n) (tid z.group i) (barScope n)) s) l
    else wakeBar g n s l

/-- Replace a barrier register and wake its waiters; what the arrivals of a round that completes released, they acquire. -/
def updBar (s : State) (g : Nat) (n : Bar) (f : Barrier → Barrier) : State :=
  let old := (s.bar g n).parity
  let s := s.setBar g n (f (s.bar g n))
  let s := if (s.bar g n).parity = old then s else s.roundOver (s.barPlace g n)
  wakeBar g n s s.sleepers

/-- One arrival on a barrier register, which releases what some holders know at the register's scope (R118, R245). -/
def arriveBar (s : State) (g : Nat) (n : Bar) (who : List Holder) : State :=
  let links := fun (h : Holder) => match h with
    | .agent a => [(a, barScope n)]
    | _ => []
  (who.foldl (fun s h => s.arrivalOf (s.barPlace g n) h (links h)) s).updBar g n Barrier.arrive

end State

end Sys2Proof.Machine
end

