-- ==== Sys2Proof/Machine/Trans.lean ====
section
/-!
DEFINITION. Address translation, worlds, views and the paths to physical bytes: R33, R63, R69, R119, R347–R350, R366–R378,
R408–R415.
-/
namespace Sys2Proof.Machine

/-! ## The decode of a stack offset (R412, R416) -/

/-- The cell that holds a byte of a stack (R408). -/
structure Cell where
  pc     : Nat
  bank   : Nat
  row    : Nat
  column : Nat
  byte   : Nat
deriving DecidableEq, Repr

/-- A 6-bit value rotated left. -/
def rot6 (x n : Nat) : Nat := (x * 2 ^ (n % 6) + x / 2 ^ (6 - n % 6)) % 64

/-- The cell of a linear stack offset under hash version `v` (R412). -/
def decodeLinear (v o : Nat) : Cell :=
  let row := o >>> 20
  let fold := bits row 5 0 ^^^ bits row 11 6 ^^^ bits row 17 12
  ⟨bits o 15 10 ^^^ rot6 fold (v % 6), bits o 19 16 ^^^ bits row (v + 3) v, row, bits o 9 5, bits o 4 0⟩

/-- The cell of an offset `u` within tensor unit `U` of element size `e` (R416). -/
def decodeTensor (e U u : Nat) : Cell :=
  let t := u / (1024 * e)
  let sub := (u % (1024 * e)) / 32
  let a := sub / (4 * e)
  let b := sub % (4 * e)
  let m := (t / 8) * (4 * e) + b
  ⟨8 * (t % 8) + (a + b) % 8, (m / 32) % 16, 2 * U + m / 512, m % 32, u % 32⟩

/-- The kind of the unit that holds a stack offset (R409). -/
def Slice.kindAt (x : Slice) (o : Nat) : Nat := (mget 0 x.ukind (o / 0x200000)).toNat

/-- Where the commands to a cell go: those of a retired pseudo-channel to the rows beyond its partner's (R438), those of a spared row to
its spare, which lies beyond the 49,152 rows of the bank (R418). -/
def Slice.redirect (x : Slice) (y : Cell) : Cell :=
  let y := if mget false x.gone y.pc then { y with pc := y.pc ^^^ 1, row := y.row + 24576 } else y
  match x.spares.find? fun e => e.1 / 16 == 16 * y.pc + y.bank && e.2 == y.row + 1 with
  | some e => { y with row := 49152 + e.1 % 16 }
  | none => y

/-- The cell that a command to a stack offset reaches, under a slice's kinds, version and watermark (R412–R418, R438). -/
def Slice.decode (x : Slice) (o : Nat) : Cell :=
  let k := x.kindAt o
  x.redirect (if k = 0 then decodeLinear (if x.busy && decide (o / 0x200000 < x.wm) then x.next.toNat else x.ver.toNat) o
    else decodeTensor (2 ^ (k - 1)) (o / 0x200000) (o % 0x200000))

namespace State

/-- A command to the row that holds a stack address: it counts when it closes another open row of its bank (R413).
DEDUCED: log entry 32. -/
def touch (s : State) (pa : Nat) : State :=
  match stackOwner pa with
  | none => s
  | some c =>
    let x := s.slice c
    let y := x.decode (pa % 0x0C00000000)
    let k := 16 * y.pc + y.bank
    let old := mget 0 x.opened k
    if old = y.row + 1 then s
    else s.setSlice c { x with
      opened := mset 0 x.opened k (y.row + 1)
      counts := if old = 0 then x.counts else mset 0 x.counts k (mget 0 x.counts k + 1) }

/-- The commands of one access: each 32-byte sector of it is decoded (R411). -/
def touchAll (s : State) (addrs : List Nat) : State := ((addrs.map (· / 32)).eraseDups).foldl (fun s b => s.touch (32 * b)) s

end State

/-! ## Views (R63, R369, R415) -/

/-- Row and storage column, and the byte within the element, of an offset into a view range of kind 1 row, 2 column, 3
tiled (R63). -/
def viewElem (kind e rt ct off : Nat) : Nat × Nat × Nat :=
  let idx := off / e
  if kind = 1 then (idx / (32 * ct), idx % (32 * ct), off % e)
  else if kind = 2 then (idx % (32 * rt), idx / (32 * rt), off % e)
  else
    let t := idx / 1024
    let w := idx % 1024
    (32 * (t / ct) + w / 32, 32 * (t % ct) + w % 32, off % e)

/-- The offset of element (r, c) in a view range (R63). -/
def viewOff (kind e rt ct r c : Nat) : Nat :=
  if kind = 1 then (r * (32 * ct) + c) * e
  else if kind = 2 then (c * (32 * rt) + r) * e
  else ((r / 32) * ct + c / 32) * (1024 * e) + ((r % 32) * 32 + c % 32) * e

/-- The storage offset of element (r, c), byte `j` (R415). -/
def storageOff (e ct r c j : Nat) : Nat :=
  let T := (r / 32) * ct + c / 32
  let i := r % 32
  let jb := (c % 32) * e + j
  T * (1024 * e) + 32 * (4 * e * (i / 4) + jb / 8) + 8 * (i % 4) + jb % 8

/-- The fields of a view descriptor (R369). -/
def descE (d : W512) : Nat := 2 ^ bits d.toNat 257 256
def descRT (d : W512) : Nat := bits d.toNat 191 160
def descCT (d : W512) : Nat := bits d.toNat 223 192
def descRid (d : W512) : Nat := bits d.toNat 255 224
def descSbase (d : W512) : Nat := bits d.toNat 111 64
def descVbase (d : W512) : Nat := bits d.toNat 47 0
/-- The length in bytes of the view range of a descriptor. -/
def descLen (d : W512) : Nat := 1024 * descRT d * descCT d * descE d

/-- A well-formed view descriptor: reserved fields zero, ESIZE not 3, bases aligned, and the storage in the stack share of one
cluster (R369). -/
def descOk (d : W512) : Bool :=
  bits d.toNat 511 258 == 0 && bits d.toNat 257 256 != 3 && bits d.toNat 159 112 == 0 && bits d.toNat 63 48 == 0 &&
  descSbase d % 4096 == 0 && descVbase d % 4096 == 0 &&
  (match stackOwner (descSbase d) with
   | none => false
   | some c => descLen d == 0 || stackOwner (descSbase d + descLen d - 1) == some c)

/-- The storage address of a byte of an access after translation. -/
def Phys.at (p : Phys) (j : Nat) : Nat :=
  match p with
  | .lin pa => pa + j
  | .view k d off =>
    let e := descE d
    let (r, c, b) := viewElem k.toNat e (descRT d) (descCT d) (off + j)
    descSbase d + storageOff e (descCT d) r c b

/-- A place `n` bytes further. -/
def Phys.add (p : Phys) (n : Nat) : Phys :=
  match p with
  | .lin pa => .lin (pa + n)
  | .view k d off => .view k d (off + n)

/-- The kind of path: 0 linear, 1–3 the views (R106). -/
def Phys.kind : Phys → Nat
  | .lin _ => 0
  | .view k _ _ => k.toNat

/-- Whether a place lies in the shares of a cluster (R33). -/
def Phys.localTo (p : Phys) (c : Nat) : Bool := owner (p.at 0) == some c

/-! ## Worlds (R347–R350) -/

namespace State

/-- A byte of the world table as a check sees it: while the cached copy and the table differ, either (R350). DEDUCED: log entry 34. -/
def wtByte (s : State) (i : Nat) : Nat :=
  let c := (mget 0 s.world i).toNat
  if c = (Memory.byte s.mem (s.sys.wtbase.toNat + i)).toNat then c
  else if s.flip (2 ^ 70 + i) then (Memory.byte s.mem (s.sys.wtbase.toNat + i)).toNat else c

/-- The entry of the granule of a physical address: 0 non-secure, 1 secure, 2 locked (R349). -/
def granule (s : State) (pa : Nat) : Nat :=
  let g := pa / 0x200000
  let e := (s.wtByte (0x1000 + g / 4) >>> (2 * (g % 4))) % 4
  if e = 3 then 2 else e

/-- Whether an access in a world may touch a physical address (R347); host and expander memory lies outside the table. -/
def worldOk (s : State) (secure : Bool) (pa : Nat) : Bool :=
  isHost pa || s.granule pa == 0 || (secure && s.granule pa == 1)

/-- The world of a block (R349): bytes 0–0x60. -/
def blockWorld (s : State) (b : Nat) : Bool := b == 0x5D || (mget 0 s.world b).getLsbD 0

/-- Whether a management core is a secure agent (R346, R349). -/
def coreSecure (s : State) (mc : BitVec 2) : Bool := s.blockWorld (0x5D + mc.toNat)

end State

/-! ## The walk (R366–R371) -/

/-- What an access requires of a leaf (R371), and the block whose world its agent acts in, where that is not a thread (R347, R349). -/
structure Need where
  r : Bool
  w : Bool
  x : Bool
  block : Option Nat
deriving DecidableEq, Repr

/-- A load; a store; an atomic; a clause fetch (R371). -/
def Need.load : Need := ⟨true, false, false, none⟩
def Need.store : Need := ⟨false, true, false, none⟩
def Need.atomic : Need := ⟨true, true, false, none⟩
def Need.fetch : Need := ⟨false, false, true, none⟩
/-- The same access made by a block: the copy engine, the gather unit or the merge tree of a cluster, or a port (R349). -/
def Need.by (n : Need) (b : Nat) : Need := { n with block := some b }
/-- The block entries of a cluster's copy engine, gather unit and merge tree, and of a port (R349). -/
def copyBlock (c : Nat) : Nat := 0x10 + c
def gatherBlock (c : Nat) : Nat := 0x20 + c
def mergeBlock (c : Nat) : Nat := 0x30 + c
def portBlock (p : Nat) : Nat := 0x40 + p

/-- The outcome of a walk: a leaf with its page and view descriptor, or a fault type (1 page, 3 table). -/
inductive Walk where
  | leaf (page size : Nat) (leaf : W64) (desc : W512)
  | fault (ty : Nat)
deriving DecidableEq, Repr

/-- The outcome of a translation: a place, or a fault type of R384 with the physical line of a world fault. -/
inductive Tr where
  | ok (p : Phys)
  | fault (ty : Nat) (pl : Nat)
deriving DecidableEq, Repr

/-- The index of an address at a level (R366). -/
def ptIndex (a : Nat) : Nat → Nat
  | 4 => bits a 47 39
  | 3 => bits a 38 30
  | 2 => bits a 29 21
  | 1 => bits a 20 16
  | _ => bits a 15 12

/-- The size of a page mapped at a level (R366). -/
def pageSize : Nat → Nat
  | 3 => 0x40000000
  | 2 => 0x200000
  | 1 => 0x10000
  | _ => 0x1000

/-- The alignment of the table of a level (R366). -/
def tableAlign : Nat → Nat
  | 1 => 256
  | 0 => 128
  | _ => 4096

namespace State

/-- A table entry as a walk reads it: the memory's, or one that the cluster's cache of table entries still holds (R372, R375). -/
def ptEntry (s : State) (cl : Nat) (asid : BitVec 16) (world : Bool) (pa : Nat) : State × Nat :=
  let m := s.rd pa 8
  let olds := (s.tabs.filter fun t => t.cluster == cl && t.asid == asid && t.world == world && t.addr == pa &&
    t.entry.toNat != m).map (·.entry.toNat)
  let e := if olds.isEmpty then m else (m :: olds).getD (Config.freeNat s.draw (2 ^ 71 + pa) % (olds.length + 1)) m
  let s := s.reach pa 8
  if bitAt e 0 && bitAt e 1 && !s.tabs.any (fun t => t.cluster == cl && t.asid == asid && t.world == world && t.addr == pa &&
      t.entry.toNat == e) then
    ({ s with tabs := ⟨cl, asid, world, pa, BitVec.ofNat 64 e⟩ :: s.tabs }, e)
  else (s, e)

/-- Whether bytes of a stack share lie in units that left service with a pseudo-channel (R438). -/
def unitsGone (s : State) (pa n : Nat) : Bool :=
  match stackOwner pa with
  | none => false
  | some c => (s.slice c).gone.any (·.2) && decide (12288 * 0x200000 < pa % 0x0C00000000 + n)

/-- The walk of R370 from a table of level `lvl`, up to the checks of R371 and R347. -/
def walk (cl : Nat) (asid : BitVec 16) (world : Bool) (a : Nat) : Nat → Nat → State → State × Walk
  | lvl, t, s =>
    let (s, e) := s.ptEntry cl asid world (t + 8 * ptIndex a lvl)
    if !bitAt e 0 then (s, .fault 1)
    else if bitAt e 1 then
      if bits e 63 48 != 0 || bits e 6 2 != 0 then (s, .fault 3)
      else match lvl with
        | 0 => (s, .fault 3)
        | l + 1 =>
          let next := bits e 47 7 * 128
          if next % tableAlign l != 0 then (s, .fault 3) else walk cl asid world a l next s
    else if bits e 63 51 != 0 then (s, .fault 3)
    else if lvl = 4 then (s, .fault 3)
    else
      let size := pageSize lvl
      let page := a / size * size
      let addr := bits e 47 6 * 64
      if bits e 49 48 = 0 then
        if addr % size != 0 || !physOkN addr size || s.unitsGone addr size then (s, .fault 3) else (s, .leaf page size (BitVec.ofNat 64 e) 0)
      else
        let d := BitVec.ofNat 512 (s.rd addr 64)
        let s := s.reach addr 64
        if !descOk d || s.granule addr != s.granule t || decide (a < descVbase d) || decide (descLen d ≤ a - descVbase d) then (s, .fault 3)
        else (s, .leaf page size (BitVec.ofNat 64 e) d)

/-- Whether a leaf permits an access (R371). -/
def leafOk (e : W64) (n : Need) (priv : Bool) : Bool :=
  (!n.r || e.getLsbD 2) && (!n.w || e.getLsbD 3) && (!n.x || (e.getLsbD 4 && e.extractLsb' 48 2 == 0#2)) && (!e.getLsbD 5 || priv)

/-- The place of a virtual line under a leaf. -/
def leafPhys (a page : Nat) (e : W64) (d : W512) : Phys :=
  if e.extractLsb' 48 2 = 0#2 then .lin (bits e.toNat 47 6 * 64 + (a - page))
  else .view (e.extractLsb' 48 2) d (a - descVbase d)

/-- The checks of R371 and R347 on the line at `a` under a leaf: the place, or a permission or world fault. The agent's world is its
block's, or the region's for a thread (R347). -/
def leafTr (s : State) (a page : Nat) (e : W64) (d : W512) (n : Need) (priv region : Bool) : Tr :=
  let p := leafPhys a page e d
  let world := match n.block with | none => region | some b => s.blockWorld b
  if !leafOk e n priv then .fault 2 0
  else
    let ws := e.getLsbD 50
    let spots := match p with | .lin pa => [pa] | .view _ _ _ => (List.range 128).map p.at
    if ws && !world then .fault 4 (p.at 0)
    else match spots.find? fun x => !s.worldOk (ws && world) x with
      | some x => .fault 4 (x / 128 * 128)
      | none => .ok p

/-- A cache with an entry more, one of those of its place making room when it is full: 64 entries in a core's, 4,096 in a slice's (R372). -/
def tlbPut (s : State) (t : TlbEnt) : State :=
  if s.tlb.contains t then s
  else
    let full := decide ((if t.place < 272 then 64 else 4096) ≤ (s.tlb.filter fun u => u.place == t.place).length)
    let mine := s.tlb.filter fun u => u.place == t.place
    let out := if full then mine[Config.freeNat s.draw (2 ^ 141 + t.place) % mine.length]? else none
    { s with tlb := t :: s.tlb.filter fun u => some u != out }

/-- The table entries of a cluster, at most 256 of them (R372). -/
def tabsCap (s : State) (cl : Nat) : State :=
  let mine := s.tabs.filter fun u => u.cluster == cl
  if mine.length ≤ 256 then s
  else
    let out := mine[Config.freeNat s.draw (2 ^ 142 + cl) % mine.length]?
    { s with tabs := s.tabs.filter fun u => some u != out }

/-- Translate the line that holds a virtual address, for an access from a core in a region context (R370–R375): a cached
translation of the core or of its slice, or a fresh walk; a permission fault only after a fresh walk. A faulting walk, and a leaf that
fails a check, leave nothing in the caches (R372). -/
def translateLine (s : State) (core : Nat) (x : Resolved) (n : Need) (va : Nat) : State × Tr :=
  let a := va / 128 * 128
  let cl := coreCluster core
  let hits := s.tlb.filter fun t => (t.place == core || t.place == 272 + cl) && t.asid == x.asid && t.world == x.world &&
    decide (t.page ≤ a) && decide (a < t.page + t.size)
  let (s', w) := walk cl x.asid x.world a 4 x.ptroot.toNat s
  let fresh : State × Tr := match w with
    | .fault ty => ({ s' with tabs := s.tabs }, .fault ty 0)
    | .leaf page size e d =>
      let s' := s'.tabsCap cl
      let r := s'.leafTr a page e d n x.priv x.world
      (match r with
        | .fault _ _ => s'
        | .ok _ => [core, 272 + cl].foldl (fun s k => s.tlbPut ⟨k, x.asid, x.world, page, e, size, d⟩) s', r)
  let same := hits.all fun t => w == .leaf t.page t.size t.leaf t.desc
  if same then fresh
  else
    let k := Config.freeNat s.draw (2 ^ 72 + 2 ^ 50 * core + a) % (hits.length + 1)
    match hits[k]? with
    | none => fresh
    | some t =>
      match s.leafTr a t.page t.leaf t.desc n x.priv x.world with
      | .fault 2 _ =>
        let (s2, r) := fresh
        ({ s2 with tlb := s2.tlb.filter fun u => u != t }, r)
      | r => (s, r)

/-- Translate a virtual address within its line. -/
def translate (s : State) (core : Nat) (x : Resolved) (n : Need) (va : Nat) : State × Tr :=
  match s.translateLine core x n va with
  | (s, .ok p) => (s, .ok (p.add (va % 128)))
  | r => r

/-! ## Reading and writing at a place (R68, R69, R106, R119, R376) -/

/-- The storage addresses of the bytes of an access. -/
def spots (p : Phys) (n : Nat) : List Nat := (List.range n).map p.at

/-- The element size by which a storage byte is written through a path: the view's, or that of its unit's kind; 0 for
ordinary memory. -/
def elemSize (s : State) (p : Phys) (a : Nat) : Nat :=
  match p with
  | .view _ d _ => descE d
  | .lin _ =>
    match stackOwner a with
    | none => 0
    | some c => match (s.slice c).kindAt (a % 0x0C00000000) with | 0 => 0 | k => 2 ^ (k - 1)

/-- The bytes at a place as an agent finds them. -/
def readBytes (s : State) (reader : Nat) (p : Phys) (n : Nat) : List Byte :=
  if s.writes.isEmpty then (spots p n).map (Memory.byte s.mem)
  else (s.findParts reader .mem p.kind (spots p n)).map (·.2.1)

/-- Read `n` bytes at a place as a little-endian number. -/
def readPhys (s : State) (reader : Nat) (p : Phys) (n : Nat) : Nat := leVal (s.readBytes reader p n)

/-- One read of a thread at a place: the bytes, what it then knows, and the commands that the slice has decoded. -/
def seePhys (s : State) (t : Nat) (acq : Option (BitVec 4)) (p : Phys) (n : Nat) : State × List Byte :=
  (s.touchAll (spots p n)).see t acq .mem p.kind (spots p n)

/-- The parts in which a reader may find `n` bytes at a place, with their present contents: the elements of tensor storage, else the
halves of the access (R69, R72). -/
def partsAt (s : State) (p : Phys) (n : Nat) : List (Nat × List Byte) :=
  if s.elemSize p (p.at 0) = 0 then halves (p.at 0) (Memory.bytes s.mem (p.at 0) n)
  else (((spots p n).map fun a =>
    let e := max 1 (s.elemSize p a)
    (a / e * e, e)).eraseDups).map fun (a, e) => (a, Memory.bytes s.mem a e)

/-- Write bytes at a place, for an agent; the write is remembered for those that may not yet see it, with what else knows of it and the
scopes at which it is a release and an atomic (R69, R114, R119, R376). -/
def writeBy (s : State) (a : Nat) (also : List Known) (rel : Option (Nat × BitVec 4)) (atomic : Option (BitVec 4)) (p : Phys)
    (b : List Byte) : State :=
  let n := b.length
  let s := (s.touchAll (spots p n)).record .mem p.kind a also rel atomic (s.partsAt p n)
  { s with mem := ((spots p n).zip b).foldl (fun m x => Memory.setByte m x.1 x.2) s.mem }

/-- A plain write of an agent at a place. -/
def writePhys (s : State) (writer : Nat) (p : Phys) (b : List Byte) : State := s.writeBy writer [] none none p b

/-! ## Latent errors (R388) -/

/-- The array code of a latent error in `n` bytes at a place, if any, with the address of its burst. DEDUCED: log entry 25. -/
def latentAt (s : State) (p : Phys) (n : Nat) : Option (Nat × Nat) :=
  if s.latent.isEmpty then none
  else
    (s.latent.find? fun l => (l.code == 7 || l.code == 8) && (spots p n).any fun a => a / 32 == l.place).map fun l =>
      (l.code.toNat, 32 * l.place)

/-- Whether the next access of a thread meets a parity error in a queue (R388). -/
def spoiled (s : State) (t : Nat) : Bool := s.latent.contains ⟨4, t⟩

/-- Whether a latent error lies in `n` bytes of the scratchpad. -/
def latentSp (s : State) (k n : Nat) : Bool :=
  s.latent.any fun l => l.code == 2 && decide (k / 8 ≤ l.place) && decide (l.place ≤ (k + n - 1) / 8)

/-! ## Clause fetch (R371, R378) -/

/-- The code word at a virtual address for a core: the memory's, or one that the code cache still holds; or a fault type with the physical
line; or 16 more than the array code of a stored error that the fetch consumes, with its place (R388). DEDUCED: log entry 23. -/
def fetchWord (s : State) (core : Nat) (x : Resolved) (va : Nat) : State × (W64 ⊕ (Nat × Nat)) :=
  match s.translate core x Need.fetch va with
  | (s, .fault ty pl) => (s, .inr (ty, pl))
  | (s, .ok p) =>
    match s.latentAt p 8 with
    | some (code, pa) => (s, .inr (16 + code, pa))
    | none =>
    let m := BitVec.ofNat 64 (s.rd (p.at 0) 8)
    let olds := (s.codes.filter fun c => c.core == core && c.asid == x.asid && c.world == x.world && c.va == va &&
      c.val != m).map (·.val)
    let w := if olds.isEmpty then m
      else (m :: olds).getD (Config.freeNat s.draw (2 ^ 74 + 2 ^ 50 * core + va) % (olds.length + 1)) m
    let ent : CodeEnt := ⟨core, x.asid, x.world, va, w⟩
    (if s.codes.contains ent then s else { s with codes := ent :: s.codes }, .inl w)

/-- The words of a clause after its header, or the fault of the first line that faults. -/
def fetchWords (core : Nat) (x : Resolved) : Nat → Nat → State → State × (List W64 ⊕ (Nat × Nat × Nat))
  | 0, _, s => (s, .inl [])
  | n + 1, va, s =>
    match s.fetchWord core x va with
    | (s, .inr (ty, pl)) => (s, .inr (ty, va / 128 * 128, pl))
    | (s, .inl w) =>
      match fetchWords core x n (va + 8) s with
      | (s, .inl l) => (s, .inl (w :: l))
      | r => r

end State

end Sys2Proof.Machine
end

