-- ==== Sys2Proof/Machine/Operands.lean ====
section
/-!
DEFINITION. Operand forms: typed values (R185, R228), scratchpad operands (R52–R54, R228), buffer-record elements (R56–R58),
virtual accesses with their locality (R33, R50), and what one lane's execution of a word comes to.
-/
namespace Sys2Proof.Machine

/-! ## Typed values (R185, R228) -/

end Sys2Proof.Machine
namespace Sys2Proof
open Machine

/-- The value of the low bits of a source under a type: signed for `.s`, natural otherwise (R185). -/
def ITy.val (t : ITy) (x : W64) : Int := if t.signed then sval t.width x.toNat else ((x.toNat % 2 ^ t.width : Nat) : Int)

/-- A result written under a type: wrapped, sign-extended for `.s` and zero-extended otherwise (R185). -/
def ITy.ext (t : ITy) (y : Int) : W64 :=
  let n := wrapTo t.width y
  BitVec.ofInt 64 (if t.signed then sval t.width n else (n : Int))

/-- The width of a type in bytes. -/
def ITy.bytes (t : ITy) : Nat := t.width / 8

end Sys2Proof
namespace Sys2Proof.Machine

/-! ## What one lane's execution of a word comes to (R23, R48, R59) -/

/-- The outcome of a word in one participating lane. -/
inductive LaneRes where
  /-- It completes, or enters its operation, and writes registers; the lane goes on with the next word. -/
  | next (w : List (RegId × RVal))
  /-- It transfers control to a resume address. -/
  | jump (dest : W64) (w : List (RegId × RVal))
  /-- It traps: CAUSE and DETAIL of R381, the value, the code, and the resume address if it is not the word's. -/
  | trap (cause detail : Nat) (value : W64) (code : Nat) (resume : Option W64)
  /-- It consumes a stored error: array code, value and physical address (R388). -/
  | mchk (array : Nat) (value : W64) (pa : Nat)
  /-- Its line faults in translation: TYPE of R384, virtual line, physical line, ACCESS. -/
  | fault (ty line pl acc : Nat)
  /-- The thread ends (R173). -/
  | exits
  /-- The thread has left the path by the word's own effect. -/
  | gone
deriving DecidableEq, Repr

/-- A lane that completes without writing a register. -/
def LaneRes.done : LaneRes := .next []

/-- `ILLEGAL` under check 2 of R167 or by the instruction's own check, with the word. DEDUCED: log entry 26. -/
def LaneRes.illegal (raw : W64) : LaneRes := .trap 1 2 raw 0 none
/-- `BOUNDS` with an address or index. -/
def LaneRes.bounds (v : Nat) : LaneRes := .trap 4 0 (BitVec.ofNat 64 v) 0 none
/-- `ALIGN` with an address. -/
def LaneRes.align (v : Nat) : LaneRes := .trap 5 0 (BitVec.ofNat 64 v) 0 none
/-- `FORMAT` with a tag, or 0 for a record check. -/
def LaneRes.format (tag : Nat) : LaneRes := .trap 3 0 (BitVec.ofNat 64 tag) 0 none
/-- `PHASE_ILLEGAL` for locality (R33). -/
def LaneRes.nonlocal (v : Nat) : LaneRes := .trap 2 1 (BitVec.ofNat 64 v) 0 none

/-- Whether a lane completed or entered its operation. -/
def LaneRes.isNext : LaneRes → Bool
  | .next _ => true
  | .jump _ _ => true
  | _ => false

/-! ## Scratchpad operands -/

end Sys2Proof.Machine
namespace Sys2Proof
open Machine

/-- The address of a scratchpad operand: the constant is read as two's complement (R157, R228). -/
def SpOp.addr (a : SpOp) (base : W64) : W64 :=
  match a.off with
  | none => base
  | some c => base + c.signExtend 64

end Sys2Proof
namespace Sys2Proof.Machine

/-- The place of a scratchpad byte: core k of cluster c, byte o of its slice. -/
def spKey (c k o : Nat) : Nat := (16 * c + k) * 0x200000 + o

/-- The checks of R54 of a `w`-byte access at a scratchpad address by a thread of group `g`: the place, or the trap. -/
def State.spCheck (s : State) (g w : Nat) (a : W64) : Nat ⊕ LaneRes :=
  let c := coreCluster (groupCore g)
  let x := a.toNat
  let off := bits x 20 0
  if bits x 28 25 ≠ c then .inr (.nonlocal x)
  else if bits x 63 30 ≠ 0 then .inr (.bounds x)
  else if bitAt x 29 then
    if off + w ≤ (s.cl c).zs then
      if off % w = 0 then .inl (spKey c (bits x 24 21) (mget 0 (s.cl c).share (bits x 24 21) + off)) else .inr (.align x)
    else .inr (.bounds x)
  else if bits x 24 21 = coreNum (groupCore g) ∧ off + w ≤ (s.grpWg g).zw then
    if off % w = 0 then .inl (spKey c (bits x 24 21) ((s.grpWg g).base + off)) else .inr (.align x)
  else .inr (.bounds x)

/-- The checks of R54 over a record of `n` bytes that must be a multiple of `al`. -/
def State.spRange (s : State) (g n al : Nat) (a : W64) : Nat ⊕ LaneRes :=
  match s.spCheck g 1 a with
  | .inr r => .inr r
  | .inl k =>
    match s.spCheck g 1 (a + BitVec.ofNat 64 (n - 1)) with
    | .inr _ => .inr (.bounds a.toNat)
    | .inl k2 =>
      if k2 ≠ k + (n - 1) then .inr (.bounds a.toNat)
      else if a.toNat % al ≠ 0 then .inr (.align a.toNat)
      else .inl k

/-- A scratchpad read that consumes a stored error traps (R388). -/
def State.spLoad (s : State) (k n : Nat) (a : W64) : Nat ⊕ LaneRes :=
  if s.latentSp k n then .inr (.mchk 2 (a ||| 1#64 <<< 63) k) else .inl (s.spRd k n)

/-! ## Buffer records (R56–R58) -/

/-- Whether a buffer record passes the checks of R57, in the order of their table; the cause of the trap otherwise. -/
def bufRecTrap (r : W256) : Option Nat :=
  let x := r.toNat
  let es := bits x 50 48
  let swz := bitAt x 52
  let size := 2 ^ es
  if bits x 255 128 != 0 || bits x 63 60 != 0 || decide (5 ≤ es) || bits x 54 53 == 3 || (swz && decide (bits x 59 55 < 7)) then
    some 1
  else if bits x 47 0 % size != 0 || bits x 95 64 % size != 0 || (swz && bits x 47 0 % 128 != 0) then some 5
  else if 0 < bits x 127 96 ∧ bits x 47 0 + (bits x 127 96 - 1) * bits x 95 64 + size > 2 ^ 48 then some 4
  else none

/-- Steps 1 and 2 of R58: the lane is dropped, traps, or accesses a virtual address. -/
inductive BufElem where
  | drop
  | addr (va : Nat)
  | bad (r : LaneRes)
deriving DecidableEq, Repr

/-- An access of `w` bytes at element `i` through a buffer record (R58). -/
def bufElem (r : W256) (w : Nat) (i : Nat) : BufElem :=
  let x := r.toNat
  let e := 2 ^ bits x 50 48
  let k := if w ≤ e then 1 else w / e
  if i + k > bits x 127 96 then
    if bitAt x 51 then .drop else .bad (.bounds i)
  else
    let o := i * bits x 95 64
    let o := if bitAt x 52 then o ^^^ (((o >>> bits x 59 55) % 2 ^ (bits x 54 53 + 1)) <<< 4) else o
    let a := bits x 47 0 + o
    if (w > e ∧ bits x 95 64 ≠ e) ∨ a % w ≠ 0 then .bad (.align a) else .addr a

/-! ## Virtual accesses (R33, R50, R59) -/

namespace State

/-- Translate the line of a virtual access by a thread of group `g` and check its locality; the superstep is a compute one. -/
def place (s : State) (g : Nat) (n : Need) (acc va : Nat) : State × (Phys ⊕ LaneRes) :=
  if va ≥ 2 ^ 48 then (s, .inr (.bounds va))
  else
    match s.translate (groupCore g) (s.grpRes g) n va with
    | (s, .fault ty pl) => (s, .inr (.fault ty (va / 128 * 128) pl acc))
    | (s, .ok p) => if p.localTo (coreCluster (groupCore g)) then (s, .inl p) else (s, .inr (.nonlocal va))

/-- Read bytes at a place for a lane, as an acquire at a scope or a plain read; a stored error is consumed (R110, R388). -/
def load (s : State) (t : Nat) (acq : Option (BitVec 4)) (p : Phys) (n va : Nat) : State × (List Byte ⊕ LaneRes) :=
  if s.spoiled t then ({ s with latent := s.latent.filter (· != ⟨4, t⟩) }, .inr (.mchk 4 (BitVec.ofNat 64 va) (p.at 0)))
  else match s.latentAt p n with
  | some (code, pa) => (s, .inr (.mchk code (BitVec.ofNat 64 va) pa))
  | none =>
    let (s, b) := s.seePhys t acq p n
    (s, .inl b)

/-- Fold an action of one lane over lanes in ascending order (R60, R236). -/
def eachLane (s : State) (g : Nat) (ls : List Nat) (f : State → Nat → State × LaneRes) : State × List (Nat × LaneRes) :=
  ls.foldl (fun (s, l) i => let (s, r) := f s (tid g i); (s, l ++ [(i, r)])) (s, [])

end State

end Sys2Proof.Machine
end

