-- ==== Sys2Proof/Machine/Life.lean ====
section
/-!
DEFINITION. The life of groups and regions: accounting records (R365, R401–R403), the merge tree's holder (R251), retirement
(R173, R357), arrival levels and their relay (R35, R36), the end of a region (R359), and the halts of the debugger (R398).
-/
namespace Sys2Proof.Machine

namespace State

/-! ## Accounting areas (R401, R403) -/

/-- Whether the accounting area at an address has room. DEDUCED: log entry 62. -/
def acctRoom (s : State) (base : Nat) : Bool :=
  decide ((s.rd (base + 8) 4 + 2 ^ 32 - s.rd base 4) % 2 ^ 32 < 2 ^ (s.rd (base + 16) 1 % 32))

/-- Append a record to an accounting area. DEDUCED: log entry 62. -/
def acctAppend (s : State) (base : Nat) (r : W512) : State :=
  let tail := s.rd (base + 8) 4
  let n := 2 ^ (s.rd (base + 16) 1 % 32)
  let s := s.reach base 64
  let s := s.wr (base + 64 + 64 * (tail % n)) 64 r.toNat
  s.wr (base + 8) 4 (tail + 1)

/-- The energy record of a group (R403). DEDUCED: log entry 33. -/
def energyRecord (s : State) (g : Nat) (saved : Bool) : W512 :=
  let x := s.grp g
  let k := groupCore g
  BitVec.ofNat 512 (1 + 2 ^ 8 * coreCluster k + 2 ^ 12 * (coreNum k % 16) + 2 ^ 16 * groupSlot g + (if saved then 2 ^ 20 else 0) +
    2 ^ 32 * (bits x.bind.toNat 255 224) + 2 ^ 64 * x.rcb.toNat + 2 ^ 128 * x.ecnt.toNat +
    (List.range 10).foldl (fun n i => n + 2 ^ (192 + 32 * i) * (mget 0 x.words i).toNat) 0)

/-- Account one issued word to its group: its class's weight and count (R365). -/
def charge (s : State) (g cls : Nat) : State :=
  let x := s.grp g
  s.setGrp g { x with
    ecnt := x.ecnt + (mget 0 s.sys.ewgt cls).zeroExtend 64, words := mset 0 x.words cls (mget 0 x.words cls + 1) }

/-! ## Groups of a cluster -/

/-- The groups bound on a cluster, the bow's among them. -/
def groupsOn (s : State) (c : Nat) : List Nat :=
  ((mrange s.groups (272 * c) (272 * (c + 1))).filter fun x => x.2.bound).map (·.1)

/-- The threads of the groups bound on a cluster. -/
def threadsOn (s : State) (c : Nat) : List Nat := (s.groupsOn c).flatMap fun g => (groupLanes g).map (tid g)

/-- Whether a thread has arrived at its boundary; an exited thread counts as arrived (R35). -/
def arrived (s : State) (t : Nat) : Bool :=
  match (s.thr t).stat with
  | .exited => true
  | .sleep id => s.sleepers.any fun z => z.id == id && z.kind == .phase && (s.thr t).handler.isNone && (s.thr t).halt.isNone
  | _ => false

/-- The arrival level V of a cluster; `none` is unbounded (R36). DEDUCED: log entry 10. -/
def level (s : State) (c : Nat) : Option Nat :=
  if (s.cl c).ended then none
  else if (s.threadsOn c).all s.arrived then some ((s.cl c).phase + 1) else some (s.cl c).phase

/-- Send a cluster's arrival level to every cluster of its region, 4 cycles per hop (R36). -/
def announce (s : State) (c : Nat) : State :=
  match (s.cl c).region with
  | none => s
  | some rcb =>
    let set := s.regionClusters rcb
    let v := s.level c
    set.foldl (fun s d =>
      let x := s.cl d
      if ((x.heard.filter fun h => h.1 == c).getLast?.map (·.2.2)) == some v then s
      else s.setCl d { x with heard := x.heard ++ [(c, s.cycle + 4 * regionDist set c d, v)] }) s

/-- The relay value W of a cluster as it stands there; `none` is unbounded (R36). DEDUCED: log entry 10. -/
def relay (s : State) (c : Nat) : Option Nat :=
  match (s.cl c).region with
  | none => some 0
  | some rcb =>
    let set := s.regionClusters rcb
    set.foldl (fun w d =>
      let v := if d = c then s.level c
        else match ((s.cl c).heard.filter fun h => h.1 == d && decide (h.2.1 ≤ s.cycle)).getLast? with
          | none => some 0
          | some h => h.2.2
      match w, v with
      | none, v => v.map (· + regionDist set c d * (s.cl c).res.lead.toNat)
      | some w, none => some w
      | some w, some v => some (min w (v + regionDist set c d * (s.cl c).res.lead.toNat))) none

/-! ## The merge tree's stream table (R251) -/

/-- Translate `n` pages of 4 KiB from a page number on, and check their locality (R242, R373). -/
def transPages (g : Nat) (need : Need) (acc : Nat) : Nat → Nat → State → State × (List (Nat × Phys) ⊕ LaneRes)
  | 0, _, s => (s, .inl [])
  | n + 1, p, s =>
    match s.place g need acc (4096 * p) with
    | (s, .inr r) => (s, .inr r)
    | (s, .inl q) =>
      match transPages g need acc n (p + 1) s with
      | (s, .inl l) => (s, .inl ((p, q) :: l))
      | r => r

/-- Translate every page that `n` bytes from an address touch. -/
def transRange (s : State) (g : Nat) (need : Need) (acc va n : Nat) : State × (List (Nat × Phys) ⊕ LaneRes) :=
  if n = 0 then (s, .inl []) else transPages g need acc ((va + n - 1) / 4096 - va / 4096 + 1) (va / 4096) s

/-- The streams of a table of descriptors, with their pages translated. -/
def openStreams (g : Nat) : List Nat → State → State × (List Stream ⊕ LaneRes)
  | [], s => (s, .inl [])
  | d :: l, s =>
    let len := bits d 159 128
    match s.transRange g (Need.load.by (mergeBlock (coreCluster (groupCore g)))) 4 (bits d 47 0) (4 * len) with
    | (s, .inr r) => (s, .inr r)
    | (s, .inl a) =>
      match s.transRange g (Need.load.by (mergeBlock (coreCluster (groupCore g)))) 4 (bits d 111 64) (4 * len) with
      | (s, .inr r) => (s, .inr r)
      | (s, .inl b) =>
        match openStreams g l s with
        | (s, .inl m) => (s, .inl (⟨len, 0, bits d 47 0, bits d 111 64, a ++ b⟩ :: m))
        | r => r

/-- Read and check the stream table of `MRGOPEN`; a failed check reports the table's address (R242, R251). -/
def readTree (s : State) (g : Nat) (table : W64) : State × (List Stream ⊕ LaneRes) :=
  let bad := fun (cause detail : Nat) => LaneRes.trap cause detail table 0 none
  match s.spRange g 32 1 table with
  | .inr (.trap c d _ _ _) => (s, .inr (bad c d))
  | .inr r => (s, .inr r)
  | .inl k =>
    match s.spLoad k 32 table with
    | .inr r => (s, .inr r)
    | .inl h =>
      let n := bits h 6 0
      if h != n || n == 0 || decide (64 < n) then (s, .inr (bad 1 2))
      else
        match s.spRange g (32 + 32 * n) 1 table with
        | .inr _ => (s, .inr (bad 4 0))
        | .inl k =>
          match s.spLoad k (32 + 32 * n) table with
          | .inr r => (s, .inr r)
          | .inl _ =>
          let ds := (List.range n).map fun i => s.spRd (k + 32 + 32 * i) 32
          if ds.any fun d => bits d 255 160 != 0 || bits d 127 112 != 0 || bits d 63 48 != 0 then (s, .inr (bad 1 2))
          else if ds.any fun d => bits d 47 0 % 4 != 0 || bits d 111 64 % 4 != 0 then (s, .inr (bad 5 0))
          else if ds.any fun d => decide (bits d 47 0 + 4 * bits d 159 128 > 2 ^ 48) || decide (bits d 111 64 + 4 * bits d 159 128 > 2 ^ 48)
          then (s, .inr (bad 4 0))
          else match openStreams g ds s with
            | (s, .inr (.trap c d _ _ _)) => (s, .inr (bad c d))
            | r => r

/-- Post the machine-check event of a consumed error (R384, R389). -/
def mchkEvent (s : State) (g : Nat) (m : BitVec 32) (array pa : Nat) (pc : W64) : State :=
  s.postGroup (decide (s.granule pa ≠ 0)) 5 g (m.toNat + 2 ^ 32 * array + 2 ^ 40) pa pc.toNat
    (Config.freeNat s.draw (2 ^ 77) % 2 ^ 64) 0

/-- Take the lanes of a sleeping wait out of it without its effect; they stand at its word. -/
def abortSleep (s : State) (z : Sleeper) : State := (lanesOf z.lanes).foldl (fun s i => s.unsleep (tid z.group i)) s

/-- The merge tree of a cluster is free: the path that has waited longest opens it (R251). -/
def grantTree (c : Nat) : Nat → State → State
  | 0, s => s
  | n + 1, s =>
    match s.sleepers.find? fun z => coreCluster (groupCore z.group) == c && (match z.kind with | .mrgopen _ _ => true | _ => false) with
    | none => s
    | some z =>
      match z.kind with
      | .mrgopen float table =>
        match s.readTree z.group table with
        | (s, .inl l) =>
          let s := s.setCl c { s.cl c with mHolder := some (s.grp z.group).wg, mFloat := float, mStreams := l }
          let s := s.wake z z.lanes
          (lanesOf z.lanes).foldl (fun s i => s.endRegion (tid z.group i) z.next) s
        | (s, .inr r) =>
          let s := s.abortSleep z
          let s := match r with
            | .fault ty line pl acc =>
              parkLanes z.group z.word 9 3 false 32 ((lanesOf z.lanes).map fun i => (i, ty, line, pl, acc)) s
            | .trap cause detail v _ _ =>
              (lanesOf z.lanes).foldl (fun s i => s.takeTrap (tid z.group i) ⟨trapRecord 0 9 3 detail cause, v, z.word⟩) s
            | .mchk array v pa =>
              (lanesOf z.lanes).foldl (fun s i => s.takeTrap (tid z.group i) ⟨trapRecord 0 9 3 array 18, v, z.word⟩)
                (s.mchkEvent z.group z.lanes array pa z.word)
            | _ => s
          grantTree c n (s.reconvRelease z.group)
      | _ => s

/-- Release the merge tree of a cluster (R252). -/
def releaseTree (s : State) (c : Nat) : State :=
  let s := s.setCl c { s.cl c with mHolder := none, mStreams := [] }
  grantTree c s.sleepers.length s

/-! ## The end of groups and regions (R173, R359) -/

/-- Write the STATE of a bind record (R357). -/
def bindState (s : State) (idx st : Nat) : State :=
  let a := s.sys.btbase.toNat + 32 * idx + 6
  s.wr a 1 (s.rd a 1 / 8 * 8 + st)

/-- Return a cluster to having no region; its scratchpad and barrier registers keep their contents (R359). -/
def clearCluster (s : State) (c : Nat) : State :=
  let x := s.cl c
  s.setCl c { Cluster.reset with
    kb := x.kb, fdomLast := some x.res.fdom, retired := x.retired, stopped := x.stopped, harpQ := x.harpQ }

/-- Whether the non-secure event queue takes a record now (R382). -/
def evOpen (s : State) : Bool := !s.evWait.any (fun e => !e.1) && s.evRoom s.sys.evqn.toNat

/-- When a region has ended on every cluster of its set, the firmware receives its one region-end event and the clusters are
free (R359); the end waits while the event queue is full (R382). -/
def regionEnd (s : State) (rcb : BitVec 48) (c : Nat) : State :=
  let set := s.regionClusters rcb
  if set.isEmpty || !set.all (fun d => (s.cl d).ended) || !s.evOpen then s
  else
    let killed := (s.regions.find? fun r => r.rcb == rcb).any (·.killed)
    let s := s.postCl false 12 c (if killed then 1 else 0) 0 0 0 0
    let s := State.dropRegion { s with regions := s.regions.filter fun r => r.rcb != rcb } rcb
    set.foldl clearCluster s

/-- A change of what threads of a cluster have arrived or exited: the region may have ended here, and the arrival level goes
out (R36, R359). -/
def arrivals (s : State) (c : Nat) : State :=
  match (s.cl c).region with
  | none => s
  | some rcb =>
    let all := (s.threadsOn c).all fun t => (s.thr t).stat == .exited
    let s := if all then s.setCl c { s.cl c with ended := true } else s
    let s := s.announce c
    if all then s.regionEnd rcb c else s

/-- Free a group's slot: its record reads STATE 3, and the last group of a workgroup releases the allocation, the registers and
the merge tree (R173, R252). -/
def freeGroup (s : State) (g : Nat) : State :=
  let x := s.grp g
  let k := groupCore g
  let c := coreCluster k
  let s := s.bindState x.recIdx 3
  let s := (groupLanes g).foldl (fun s i => s.setThr (tid g i) Thread.blank) s
  let s := s.setGrp g Group.free
  let last := !(s.groupsOn c).any fun h => groupCore h == k && (s.grp h).wg == x.wg
  if last && !isBow k then
    let s := s.setWg x.wg Workgroup.free
    if (s.cl c).mHolder == some x.wg then s.releaseTree c else s
  else s

/-- Retire a group all of whose threads have exited: its energy record is written, or waits with its slot (R173, R365, R401). -/
def retireGroup (s : State) (g : Nat) : State :=
  let base := (s.grpRes g).acct.toNat
  let r := s.energyRecord g false
  if s.acctWait.any (fun x => x.1 == base) || !s.acctRoom base then { s with acctWait := s.acctWait ++ [(base, r, some g)] }
  else (s.acctAppend base r).freeGroup g

/-- Write the energy records that wait for an accounting area, while it has room, and free their slots (R401). -/
def acctDrain (base : Nat) : List (Nat × W512 × Option Nat) → List (Nat × W512 × Option Nat) → State → State
  | [], kept, s => { s with acctWait := kept }
  | (b, r, g) :: l, kept, s =>
    if b = base ∧ !kept.any (fun x => x.1 == base) ∧ s.acctRoom base then
      let s := s.acctAppend base r
      acctDrain base l kept (match g with | none => s | some g => s.freeGroup g)
    else acctDrain base l (kept ++ [(b, r, g)]) s

/-- After a thread of a group exits: a group without a thread left retires, and the cluster's arrivals change (R173, R359). -/
def exited (s : State) (g : Nat) : State :=
  let s := if (s.grp g).bound && (groupLanes g).all (fun i => (s.thr (tid g i)).stat == .exited) then s.retireGroup g else s
  s.arrivals (coreCluster (groupCore g))

/-! ## Halts (R398) -/

/-- The name of a thread in a debug record: its lane number and the bow bit (R396). -/
def dbgName (t : Nat) : Nat := if t < 131072 then t else (t - 131072) + 2 ^ 17

/-- The debug record of a response or a halt (R398). -/
def dbgRecord (s : State) (t status reason code : Nat) (value : W64) : W512 :=
  let g := threadGroup t
  let x := s.thr t
  let parked := match x.stat with | .parked _ => 1 | _ => 0
  let k := groupCore g
  evRecord s.cycle 10 (coreCluster k) (coreNum k) (groupSlot g) (s.grpRes g).fdom.toNat (s.grp g).rcb.toNat
    (dbgName t + 2 ^ 56 * reason) (parked + (if x.warn then 2 else 0) + 2 ^ 48 * code) x.pc.toNat value.toNat status

/-- The queue of the management core that holds the debug right over a region (R396, R384). -/
def dbgSecure (s : State) (rcb : BitVec 48) : Bool :=
  match s.attached.find? fun a => a.1 == rcb with
  | some (_, mc) => mc == 0#2
  | none => false

/-- A lane reports halted once its operations are done (R160, R398); the report carries a pending warning once (R399). -/
def haltReport (s : State) (t : Nat) : State :=
  let x := s.thr t
  match x.halt with
  | none => s
  | some h =>
    if h.posted || s.hasOps t || h.reason == 4#8 then s
    else
      let s := s.post (s.dbgSecure (s.grp (threadGroup t)).rcb) (s.dbgRecord t 0 h.reason.toNat h.code.toNat 0)
      s.setThr t { x with halt := some { h with posted := true }, warn := false }

/-- A lane leaves issue for a debugger halt; a sleeping wait ends, and with it an arrival (R21, R182, R398). -/
def haltLane (s : State) (t reason code : Nat) : State :=
  let g := threadGroup t
  let s := s.unsleep t
  let s := s.dropLanes g (1#32 <<< threadLane t)
  let s := s.modThr t fun x => { x with halt := some ⟨BitVec.ofNat 8 reason, BitVec.ofNat 16 code, false⟩ }
  (s.haltReport t).arrivals (coreCluster (groupCore g))

/-! ## Boundaries of clauses, and sleeping waits (R21, R39) -/

/-- A `STRAGGLER` that names a thread at an instruction boundary (R39). -/
def straggle (s : State) (t : Nat) : State :=
  let x := s.thr t
  let c := coreCluster (groupCore (threadGroup t))
  (s.setThr t { x with strag := false }).takeTrap t
    ⟨trapRecord 0 0 0 0 16, BitVec.ofNat 64 ((s.cl c).phase % 2 ^ 32), x.pc⟩

/-- A debugger halt that waited for the clause of a held word reaches its thread (R21, R398). -/
def haltHeld (s : State) (t : Nat) : State :=
  match (s.thr t).haltReq with
  | none => s
  | some (r, k) => match (s.thr t).stat with
    | .run | .sleep _ => (s.modThr t fun x => { x with haltReq := none }).haltLane t r.toNat k.toNat
    | _ => s

/-- The end of a clause or of a handler: a `STRAGGLER` held for it is taken, and so is a debugger halt (R21, R29, R39, R380). -/
def boundary (s : State) (t : Nat) : State :=
  let x := s.thr t
  let s := if x.strag && x.handler.isNone && x.stat == .run then (s.straggle t).reconvRelease (threadGroup t) else s
  s.haltHeld t

/-- Put lanes into a sleeping wait: they leave their path and their program counter stays at the word; `due` is the first cycle in which
the next word may issue. A `STRAGGLER` or a debugger halt held for the end of the clause is taken at once (R21, R39). -/
def sleep (s : State) (g : Nat) (m : BitVec 32) (word next : W64) (ctr : Option (BitVec 3)) (due : Nat) (k : SleepKind) : State :=
  let (s, id) := s.fresh
  let s := s.incCtr g m ctr
  let s := s.dropLanes g m
  let s := s.modLanes g m fun x => { x.goto word with stat := .sleep id }
  let s := { s with sleepers := s.sleepers ++ [⟨id, g, m, word, next, ctr, due, k⟩] }
  let late := (lanesOf m).filter fun i => (s.thr (tid g i)).strag && (s.thr (tid g i)).handler.isNone
  let s := if late.isEmpty then s else (late.foldl (fun s i => (s.unsleep (tid g i)).straggle (tid g i)) s).reconvRelease g
  (lanesOf m).foldl (fun s i => s.haltHeld (tid g i)) s

end State

end Sys2Proof.Machine
end

