-- ==== Sys2Proof/Machine/Pipe.lean ====
section
/-!
DEFINITION. The pipeline of one instruction word: the checks of R167 before it, its participants (R154, R195), the writes of
its results (R158–R163), and the way on of every lane of its path (R21–R23, R27, R28, R47, R48).
-/
namespace Sys2Proof.Machine

/-- The phase classes of R31. -/
inductive PhClass where
  | a | c | x
deriving DecidableEq, Repr

/-- What the pipeline knows of a word before it acts. -/
structure WordSpec where
  ph     : PhClass
  /-- Whether a bow core may execute it (R166). -/
  bow    : Bool
  /-- The registers it reads in each lane whose guard is true, beside the guard. -/
  reads  : List RegId
  /-- The registers it reads in the lowest participant only (R229). -/
  lead   : List RegId
  mreads : List MReg
  /-- Its latency, or none for a variable one (R162). -/
  lat    : Option Nat
  /-- Whether it ends an idempotent region (R45). -/
  ends   : Bool
  /-- Whether a `SAMPLE` before it applies to it (R254). -/
  access : Bool
deriving DecidableEq, Repr

/-- A word of phase class A with a fixed latency. -/
def WordSpec.fixA (lat : Nat) (reads : List RegId) : WordSpec := ⟨.a, true, reads, [], [], some lat, false, false⟩
/-- A word of phase class C with a fixed latency, on vector cores only. -/
def WordSpec.fixC (lat : Nat) (reads : List RegId) : WordSpec := ⟨.c, false, reads, [], [], some lat, false, false⟩
/-- A word of a phase class with a variable latency, on vector cores only. -/
def WordSpec.var (ph : PhClass) (reads : List RegId) : WordSpec := ⟨ph, false, reads, [], [], none, false, false⟩

/-- What a word did: the state after its effects, each participant's outcome, a matrix result with its rows, and the
operation it enters. -/
structure Acted where
  st    : State
  res   : List (Nat × LaneRes)
  m     : Option (MReg × MVal × BitVec 32)
  kind  : OpKind
  done  : Bool
  queue : Option Nat
  /-- The virtual addresses and widths of its accesses, for a sample record. -/
  trace : List (Nat × Nat)

/-- A word with lane results only. -/
def Acted.of (st : State) (res : List (Nat × LaneRes)) : Acted := ⟨st, res, none, .plain, true, none, []⟩

/-- Every participant ends in one outcome. -/
def allLanes (s : State) (p : List Nat) (r : LaneRes) : Acted := Acted.of s (p.map fun i => (i, r))

namespace State

/-- The group of the word in issue. -/
def curG (s : State) : Nat := 16 * s.cur.core + s.cur.slot
/-- The resume address of the word in issue. -/
def curPc (s : State) : W64 := resumeAt s.cur.hdr s.cur.word
/-- Whether the word in issue is the last instruction word of its clause. -/
def curLast (s : State) : Bool := decide (s.cur.words ≤ s.cur.after)
/-- The header that follows the clause in issue (R147). -/
def curEnd (s : State) : BitVec 48 := s.cur.hdr + BitVec.ofNat 48 (8 * (s.cur.words + 1))
/-- The resume address of the word after the word in issue: the next of its clause, or the next header (R147, R169). -/
def curNext (s : State) : W64 := if s.curLast then resumeAt s.curEnd 0 else resumeAt s.cur.hdr s.cur.after
/-- The first cycle in which the word after the word in issue may issue (R20, R158). -/
def dueAt (s : State) (c : Ctl) : Nat := s.cycle + c.stall.toNat + 1
/-- The opcode of the word in issue. -/
def curOpc (s : State) : Nat := bits s.cur.raw.toNat 63 56

/-! ## Sample records (R402) -/

/-- The sample record of an access that has completed for every lane; queue times, latency and the last lane are free.
DEDUCED: log entry 75. -/
def sampleRecord (s : State) (x : Sample) : W512 :=
  let f := fun k n => Config.freeNat s.draw (2 ^ 76 + k) % n
  let k := groupCore x.group
  BitVec.ofNat 512 (2 + 2 ^ 8 * coreCluster k + 2 ^ 12 * coreNum k + 2 ^ 17 * groupSlot x.group + 2 ^ 24 * x.tag.toNat +
    2 ^ 40 * x.cls.toNat + 2 ^ 44 * x.opc.toNat + 2 ^ 64 * x.ra.toNat + 2 ^ 128 * x.active.toNat + 2 ^ 160 * f 0 32 +
    2 ^ 168 * x.lines.toNat + 2 ^ 176 * x.sectors.toNat + 2 ^ 184 * x.replays.toNat + 2 ^ 192 * (x.issued % 2 ^ 64) +
    2 ^ 256 * f 1 65536 + 2 ^ 272 * f 2 65536 + 2 ^ 288 * f 3 65536 + 2 ^ 304 * f 4 65536 + 2 ^ 320 * f 5 65536 +
    2 ^ 336 * min (s.cycle - x.issued) (2 ^ 32 - 1) + 2 ^ 384 * x.line.toNat + 2 ^ 448 * x.parked.toNat)

/-- Write the sample records that are due; a record is dropped, and counted, when the area is full (R401). DEDUCED: log entry 75. -/
def sampleSettle : List Sample → State → State
  | [], s => s
  | x :: l, s =>
    if x.owed = 0#32 ∧ !s.ops.any (fun o => o.id == x.op) then
      let base := (s.grpRes x.group).acct.toNat
      let s := { s with samples := s.samples.erase x }
      sampleSettle l (if s.acctRoom base then s.acctAppend base (s.sampleRecord x)
        else s.wr (base + 12) 4 (s.rd (base + 12) 4 + 1))
    else sampleSettle l s

/-! ## Before the word acts (R154, R159, R163, R167) -/

/-- Whether a phase class is legal in the superstep of a cluster (R31, R32). -/
def phaseOk (s : State) (c : Nat) : PhClass → Bool
  | .a => true
  | .c => (s.cl c).phase % 2 == 0
  | .x => (s.cl c).phase % 2 == 1

/-- Whether the guard of a word is true in a thread (R154). -/
def guard (s : State) (t : Nat) (c : Ctl) : Bool := s.p t c.gpred != c.gneg

/-- The trap of one lane before the word acts: the scoreboard (R163), then a stored error in a register it reads (R388). -/
def readTrap (s : State) (g t : Nat) (c : Ctl) (w : WordSpec) : Option LaneRes :=
  let x := s.thr t
  let gr : RegId := .p c.gpred
  let on := s.guard t c
  let sc := (s.grp g).sc
  if sc && x.early s.cycle gr then some (.trap 6 0 (gr.spec.zeroExtend 64) 0 none)
  else if !on then none
  else
    match (if sc then w.reads.find? fun r => x.early s.cycle r else none) with
    | some r => some (.trap 6 0 (r.spec.zeroExtend 64) 0 none)
    | none =>
      match (if sc then w.mreads.find? fun r => (s.grp g).early s.cycle r else none) with
      | some r => some (.trap 6 0 ((mkM r).zeroExtend 64) 0 none)
      | none =>
        if s.latent.any (fun l => l.code == 1 && (w.reads.any (fun r => l.place == 128 * t + r.num) ||
            w.mreads.any fun r => l.place == 128 * (200000 + g) + r.toNat)) then
          some (.mchk 1 (1#64 <<< 63) 0)
        else none

/-- What the checks before the word say: every lane of the path ends in one trap, the path holds at the word, or the
participants act while some lanes have trapped. -/
inductive Gate where
  | all (r : LaneRes)
  | hold
  | go (p : List Nat) (traps : List (Nat × LaneRes))
deriving DecidableEq, Repr

/-- The checks 1 (as far as the context makes it), 3 and 4 of R167, the guard, and the room of the dependency counter. -/
def gate (s : State) (c : Ctl) (w : WordSpec) : Gate :=
  let u := s.cur
  let g := s.curG
  if isBow u.core && !w.bow then .all (.trap 1 1 u.raw 0 none)
  else if !s.phaseOk (coreCluster u.core) w.ph then .all (.trap 2 0 0 0 none)
  else
    let path := lanesOf u.lanes
    let full := { w with reads := w.lead ++ w.reads }
    let lead := path.find? fun i => (s.readTrap g (tid g i) c full).isNone && s.guard (tid g i) c
    let trap := fun i => s.readTrap g (tid g i) c (match lead with | some l => if l < i then w else full | none => full)
    let traps := path.filterMap fun i => (trap i).map (Prod.mk i)
    let p := path.filter fun i => (trap i).isNone && s.guard (tid g i) c
    match c.ctr with
    | none => .go p traps
    | some n => if p.any fun i => decide (63 ≤ mget 0 (s.thr (tid g i)).d n.toNat) then .hold else .go p traps

/-! ## After the word has acted -/

/-- The path holds at the word and tries again in the next cycle (R21). DEDUCED: log entry 16. -/
def holdWord (s : State) : State :=
  let x := s.core s.cur.core
  s.setCore s.cur.core { x with sels := x.sels.map fun y =>
    if y.slot == s.cur.slot && y.lanes == s.cur.lanes then { y with nextAt := s.cycle + 1, held := .again } else y }

/-- The path's clause stands at its word for a reason of its own; `due` is the cycle in which the word may go on (R21, R242, R269).
DEDUCED: log entry 16. -/
def holdFor (s : State) (h : Held) (due : Nat) : State :=
  let x := s.core s.cur.core
  s.setCore s.cur.core { x with sels := x.sels.map fun y =>
    if y.slot == s.cur.slot && y.lanes == s.cur.lanes then { y with held := h, nextAt := due } else y }

/-- The writes of a lane's results become pending: fixed ones with their cycle, the others with their operation (R158, R161). -/
def pendAll (s : State) (t : Nat) (lat : Option Nat) (op : Nat) (w : List (RegId × RVal)) : State :=
  s.modThr t fun x => w.foldl (fun x e => x.addPend s.cycle ⟨e.1, e.2, lat.map (s.cycle + ·), op⟩) x

/-- The writes of the lanes that completed or entered the operation. -/
def writeBack (g : Nat) (lat : Option Nat) (op : Nat) : List (Nat × LaneRes) → State → State
  | [], s => s
  | (i, .next w) :: l, s => writeBack g lat op l (s.pendAll (tid g i) lat op w)
  | (i, .jump _ w) :: l, s => writeBack g lat op l (s.pendAll (tid g i) lat op w)
  | _ :: l, s => writeBack g lat op l s

/-- Where each lane of the path goes on: a transferred lane to its target, a trapped, faulted, ended or departed lane
nowhere, every other lane to the next word (R23). -/
def wayOn (s : State) (res : List (Nat × LaneRes)) (i : Nat) : Option W64 :=
  match res.find? fun r => r.1 == i with
  | none => some s.curNext
  | some (_, .next _) => some s.curNext
  | some (_, .jump r _) => some r
  | some _ => none

/-- A lane goes on at a resume address; at a clause's end its readiness observes the stall count (R20, R22). -/
def advance (s : State) (g : Nat) (stall : Nat) (i : Nat) (r : W64) : State :=
  s.modThr (tid g i) fun x =>
    let x := x.goto r
    let x := if s.curLast then { x with readyAt := s.cycle + stall + 1 } else x
    if x.stepping then { x with halt := some ⟨4, 0, false⟩ } else x

/-- The clause in issue goes on to its next word, or has ended (R22). -/
def advanceSel (s : State) (stall : Nat) : State :=
  let u := s.cur
  let x := s.core u.core
  let mine := fun (y : Sel) => y.slot == u.slot && y.lanes &&& u.lanes != 0#32
  let sels := if s.curLast then x.sels.filter (fun y => !mine y)
    else x.sels.map (fun y => if mine y then { y with word := u.after, nextAt := s.cycle + stall + 1, held := .no } else y)
  s.setCore u.core { x with sels := sels }

/-- What orders program counters: the header's address, then the word (R24, R147, R169). DEDUCED: log entry 9. -/
def pcRank (pc : Nat) : Nat := 16 * (pc % 2 ^ 48) + pc / 2 ^ 48

/-- Under `PP` = 0, the path that is current after the end of a clause: the most populous successor, the lower program
counter among equals; lanes of a `YIELD` are not in it (R28). DEDUCED: log entry 9. DEDUCED: log entry 40. -/
def repath (s : State) (g : Nat) (left : List Nat) : State :=
  if (s.grp g).pp then s
  else
    let left := left.filter fun i => (s.thr (tid g i)).yielded != 16
    let pcs := (left.map fun i => (s.thr (tid g i)).pc.toNat)
    let key := fun p => (left.filter fun i => (s.thr (tid g i)).pc.toNat == p)
    let best := pcs.foldl (fun b p =>
      if (key b).length < (key p).length ∨ ((key b).length = (key p).length ∧ pcRank p < pcRank b) then p else b) (pcs.headD 0)
    s.setGrp g { s.grp g with cur := maskOf (key best) }

/-- Lanes that stop after one stepped word leave the path (R397). -/
def stepOut (s : State) (g : Nat) (path : List Nat) : State :=
  let m := maskOf (path.filter fun i => (s.thr (tid g i)).stepping && (s.thr (tid g i)).halt.isSome)
  if m = 0#32 then s else s.dropLanes g m

/-- Take the trap of each lane that trapped, post the events of consumed errors, and end the threads that exit. -/
def leave (g : Nat) : List (Nat × LaneRes) → State → State
  | [], s => s
  | (i, .trap cause detail v code resume) :: l, s =>
    leave g l (s.takeTrap (tid g i)
      ⟨trapRecord code (s.curOpc) s.cur.cls detail cause, v, match resume with | none => s.curPc | some r => r⟩)
  | (i, .mchk array v pa) :: l, s =>
    let s := s.mchkEvent g (1#32 <<< i) array pa s.curPc
    leave g l (s.takeTrap (tid g i) ⟨trapRecord 0 s.curOpc s.cur.cls array 18, v, s.curPc⟩)
  | (i, .exits) :: l, s =>
    leave g l ((s.dropLanes g (1#32 <<< i)).modThr (tid g i) fun x => { x with stat := .exited })
  | _ :: l, s => leave g l s

/-- The faults among the results, as `parkLanes` takes them. -/
def faultsOf (res : List (Nat × LaneRes)) : List (Nat × Nat × Nat × Nat × Nat) :=
  res.filterMap fun r => match r.2 with
    | .fault ty line pl acc => some (r.1, ty, line, pl, acc)
    | _ => none

/-- The blocks of a size that `n` bytes from an address touch. -/
def touched (size a n : Nat) : List Nat := (List.range ((a + max 1 n - 1) / size + 1 - a / size)).map (a / size + ·)

/-- Begin or continue the sample record of the access (R254, R402). -/
def sampleWord (s : State) (g : Nat) (w : WordSpec) (op : Nat) (res : List (Nat × LaneRes)) (trace : List (Nat × Nat)) : State :=
  let x := s.grp g
  let bad := maskOf ((faultsOf res).map (·.1))
  let done := maskOf ((res.filter fun r => !(faultsOf res).any fun f => f.1 == r.1).map (·.1))
  let s := { s with samples := s.samples.map fun y =>
    if y.group == g && y.ra == s.curPc && y.owed &&& maskOf (res.map (·.1)) != 0#32 then
      { y with owed := y.owed &&& ~~~done, replays := if y.replays = 255#8 then 255#8 else y.replays + 1 }
    else y }
  if !w.access then s
  else
    match x.armed.find? fun e => e.2 &&& s.cur.lanes != 0#32 with
    | none => s
    | some (tag, lanes) =>
      let lines := (trace.flatMap fun a => touched 128 a.1 a.2).eraseDups
      let sectors := (trace.flatMap fun a => touched 32 a.1 a.2).eraseDups
      let y : Sample := ⟨g, op, tag, s.curPc, BitVec.ofNat 8 s.curOpc, BitVec.ofNat 4 s.cur.cls, maskOf (res.map (·.1)), bad, bad,
        0, s.cycle, BitVec.ofNat 64 (128 * lines.headD 0), BitVec.ofNat 8 lines.length, BitVec.ofNat 8 sectors.length⟩
      { s with groups := (s.setGrp g { x with armed := x.armed.filter fun e => e != (tag, lanes) }).groups, samples := s.samples ++ [y] }

/-- A variable-latency word enters its operation for the lanes that complete; the number of the operation, or 0 (R159).
DEDUCED: log entry 77. -/
def openOp (s : State) (c : Ctl) (w : WordSpec) (a : Acted) (g : Nat) (nexts : List Nat) : State × Nat :=
  if w.lat.isSome || nexts.isEmpty then (s, 0) else s.enterOp g (maskOf nexts) c.ctr a.queue a.kind a.done

/-- The word is accounted, its operation is entered, its results become pending, and regions end; with the number of the operation
(R45, R158, R159, R365). -/
def results (c : Ctl) (w : WordSpec) (a : Acted) (res : List (Nat × LaneRes)) (s0 : State) : State × Nat :=
  let g := s0.curG
  let nexts := (res.filter fun r => r.2.isNext).map (·.1)
  let (s, op) := (a.st.charge g s0.cur.mapCls).openOp c w a g nexts
  let s := writeBack g w.lat op res s
  let s := match a.m with
    | none => s
    | some (r, v, rows) => s.setGrp g ((s.grp g).addPend s.cycle ⟨r, v, rows, w.lat.map (s.cycle + ·), op⟩)
  (if w.ends then nexts.foldl (fun s i => s.endRegion (tid g i) s0.curNext) s else s, op)

/-- Every lane of the path that stays in issue goes on (R22, R23). -/
def goOn (c : Ctl) (res : List (Nat × LaneRes)) (s0 s : State) : State :=
  (lanesOf s0.cur.lanes).foldl (fun s i => match s0.wayOn res i with
    | none => s
    | some r => s.advance s0.curG c.stall.toNat i r) s

/-- Lanes trap, park or end; the clause goes on or ends, with what waits for its end (R22, R28, R29, R39, R47, R48, R173). -/
def closeWord (c : Ctl) (res : List (Nat × LaneRes)) (s0 s : State) : State :=
  let g := s0.curG
  let path := lanesOf s0.cur.lanes
  let s := leave g res s
  let s := parkLanes g s0.curPc s0.curOpc s0.cur.cls false 32 (faultsOf res) s
  let s := s.advanceSel c.stall.toNat
  let left := path.filter fun i => (s0.wayOn res i).isSome
  let s := if s0.curLast then s.repath g left else s
  let s := s.stepOut g path
  let s := if s0.curLast then left.foldl (fun s i => s.boundary (tid g i)) s else s
  let s := if res.any (fun r => r.2 == .exits) then s.exited g else s
  let s := if res.all (fun r => r.2.isNext) then s else s.reconvRelease g
  if s.samples.isEmpty then s else sampleSettle s.samples s

/-- THE END OF A WORD: it is accounted, its operation is entered, its results become pending, and every lane of the path goes
on, traps, parks or ends. DEDUCED: log entry 17. DEDUCED: log entry 77. -/
def retire (c : Ctl) (w : WordSpec) (a : Acted) (traps : List (Nat × LaneRes)) (s0 : State) : State :=
  let res := a.res ++ traps
  let (s, op) := s0.results c w a res
  let s := State.goOn c res s0 s
  let s := s.sampleWord s0.curG w op res a.trace
  State.closeWord c res s0 s

/-- A bow word at a fault is held there, not parked; the record names the word in word 5 (R269). -/
def bowFault (s : State) (f : Nat × Nat × Nat × Nat × Nat) : State :=
  let g := s.curG
  let x := s.thr (tid g 0)
  let (s, tok) := s.postFault g 1#32 f.2.1 f.2.2.1 f.2.2.2.1 f.2.2.2.2 s.curPc (x.archW (.s .rc)) s.curPc s.curOpc s.cur.cls false true
  s.holdFor (.fault tok) s.cycle

/-- THE PIPELINE OF A WORD (R167): the checks that precede its own, its action in its participants, and the way on. -/
def word (s : State) (c : Ctl) (w : WordSpec) (act : State → List Nat → Acted) : Host.Outcome State Fault Refusal :=
  match s.gate c w with
  | .all r => (s.retire c w (Acted.of s ((lanesOf s.cur.lanes).map fun i => (i, r))) [] ).out
  | .hold => s.holdWord.out
  | .go p traps =>
    let a := act s p
    match (if isBow s.cur.core then faultsOf a.res else []) with
    | f :: _ => (a.st.bowFault f).out
    | [] => (s.retire c w a traps).out

/-- A word that acts in each participant alone, without touching memory. -/
def perLane (s : State) (c : Ctl) (w : WordSpec) (f : Nat → LaneRes) : Host.Outcome State Fault Refusal :=
  s.word c w fun s p => Acted.of s (p.map fun i => (i, f (tid s.curG i)))

/-- A word that acts in each participant in ascending lane order, on the state the lanes before it left. -/
def inTurn (s : State) (c : Ctl) (w : WordSpec) (f : State → Nat → State × LaneRes) : Host.Outcome State Fault Refusal :=
  s.word c w fun s p => let (s, l) := s.eachLane s.curG p f; Acted.of s l

/-- A word that acts once for its path, in the lowest lane of its participants; the outcome is every participant's (R229). -/
def once (s : State) (c : Ctl) (w : WordSpec) (f : State → Nat → Acted) : Host.Outcome State Fault Refusal :=
  s.word c w fun s p =>
    match p with
    | [] => Acted.of s []
    | i :: _ =>
      let a := f s (tid s.curG i)
      match a.res with
      | [] => { a with res := p.map fun j => (j, .done) }
      | r :: _ => { a with res := p.map fun j => (j, r.2) }

end State

end Sys2Proof.Machine
namespace Sys2Proof
open Machine

/-- The registers a source reads. DEDUCED: log entry 74. -/
def Src.regs : Src → List RegId
  | .g r => [.g r]
  | _ => []

end Sys2Proof
namespace Sys2Proof.Machine

/-- The registers of a pair. -/
def pairRegs (r : GReg) : List RegId := [.g r, .g (r + 1)]

end Sys2Proof.Machine
namespace Sys2Proof
open Machine

/-- The registers of a data operand under a type. -/
def Dat.regs (t : ITy) : Dat → List RegId
  | .g r => if t = .b128 then pairRegs r else [.g r]
  | .v r => [.v r]

end Sys2Proof
namespace Sys2Proof.Machine

end Sys2Proof.Machine
end

