-- ==== Sys2Proof/Machine/Issue.lean ====
section
/-!
DEFINITION. Readiness, paths, ranking and the selection of clauses (R20–R28, R149, R371), and the next word of a selected clause.
-/
namespace Sys2Proof.Machine

/-- A path of a group: ready threads at one program counter, or one thread in its handler (R20). -/
structure Path where
  lanes : BitVec 32
  pc    : Nat
  age   : Nat
  yields : Bool
deriving DecidableEq, Repr

/-- The number of lanes of a path. -/
def Path.pop (p : Path) : Nat := (lanesOf p.lanes).length

/-- Whether path `a` ranks before path `b` (R24). DEDUCED: log entry 9. -/
def Path.before (aged : Bool) (a b : Path) : Bool :=
  let f := fun (p : Path) => aged && decide (32 ≤ p.age)
  let fage := fun (p : Path) => if f p then p.age else 0
  if f a != f b then f a
  else if fage a ≠ fage b then decide (fage b < fage a)
  else if !f a && a.yields != b.yields then b.yields
  else if !f a && a.pop ≠ b.pop then decide (b.pop < a.pop)
  else decide (State.pcRank a.pc < State.pcRank b.pc)

/-- Insert a path into a ranked list. -/
def Path.insert (aged : Bool) (p : Path) : List Path → List Path
  | [] => [p]
  | q :: l => if q.before aged p || !p.before aged q then q :: Path.insert aged p l else p :: q :: l

/-- The paths in the order of R24; paths equal in every key keep the order in which `pathsOf` lists them. DESIGN CHOICE: log entry 86. -/
def rankPaths (aged : Bool) (l : List Path) : List Path := l.foldl (fun r p => Path.insert aged p r) []

namespace State

/-- Whether the wait mask of a thread's next header lets it go (R20); a header that cannot be read or fails its checks holds
nothing back, so that its selection finds it. -/
def waitOk (s : State) (g i : Nat) : Bool :=
  let x := s.thr (tid g i)
  match (s.fetchWord (groupCore g) (s.grpRes g) x.hdr.toNat).2 with
  | .inr _ => true
  | .inl w =>
    let h := Header.ofWord w
    !h.ok || (List.range 8).all fun k => !h.wait.getLsbD k || mget 0 x.d k == 0

/-- Whether an event that a group raised waits for room in its queue: the group waits with it (R382). -/
def sourceWaits (s : State) (g : Nat) : Bool :=
  s.evWait.any fun e =>
    let r := e.2.toNat
    let k := groupCore g
    [1, 2, 3, 4, 5, 7, 9, 10, 14, 17].contains (bits r 7 0) && bits r 11 8 == coreCluster k && bits r 16 12 == coreNum k &&
      bits r 20 17 == groupSlot g

/-- Whether a lane of a group is ready (R20). -/
def ready (s : State) (g i : Nat) : Bool :=
  let t := tid g i
  let x := s.thr t
  x.stat == .run && x.halt.isNone && decide (x.readyAt ≤ s.cycle) && x.waitOp == 0 && !(x.drain && s.hasOps t) && !s.inSel t &&
    !s.sourceWaits g && s.waitOk g i

/-- The paths that some ready lanes form (R20, R48); in what order they stand decides between paths that the ranking of R24 leaves equal.
DEDUCED: log entry 15. DESIGN CHOICE: log entry 86. -/
def pathsOf (s : State) (g : Nat) (ls : List Nat) : List Path :=
  let own := ls.filter fun i => (s.thr (tid g i)).handler.isSome
  let rest := ls.filter fun i => (s.thr (tid g i)).handler.isNone
  let path := fun (m : List Nat) => (⟨maskOf m, ((m.head?.map fun i => (s.thr (tid g i)).pc.toNat)).getD 0,
    m.foldl (fun a i => max a (s.thr (tid g i)).age.toNat) 0, m.any fun i => decide (0 < (s.thr (tid g i)).yielded)⟩ : Path)
  ((rest.map fun i => (s.thr (tid g i)).pc).eraseDups.map fun pc => path (rest.filter fun i => (s.thr (tid g i)).pc == pc)) ++
    own.map fun i => path [i]

/-- The ready lanes of a group. -/
def readyLanes (s : State) (g : Nat) : List Nat := if (s.grp g).bound then (groupLanes g).filter fun i => s.ready g i else []

/-- Under `PP` = 0, the current path as it stands: the lanes still in it, or, when it has emptied, the first path of the
ranking without forced paths; with the threads at its program counter (R28). DEDUCED: log entry 40. -/
def currentPath (s : State) (g : Nat) : Option Path :=
  let cur := (lanesOf (s.grp g).cur).filter fun i => (s.thr (tid g i)).stat == .run && (s.thr (tid g i)).halt.isNone
  let ready := s.readyLanes g
  match cur with
  | [] => (rankPaths false (s.pathsOf g ready)).head?
  | i :: _ =>
    let pc := (s.thr (tid g i)).pc
    if (s.thr (tid g i)).handler.isSome then (s.pathsOf g (ready.filter (· == i))).head?
    else (s.pathsOf g (ready.filter fun j => (s.thr (tid g j)).pc == pc && (s.thr (tid g j)).handler.isNone)).head?

/-- The class that a path's next header names; 16 when the header cannot be read. -/
def pathClass (s : State) (g : Nat) (p : Path) : Nat :=
  match (s.fetchWord (groupCore g) (s.grpRes g) (p.pc % 2 ^ 48)).2 with
  | .inl w => bits w.toNat 59 56
  | .inr _ => 16

/-- The paths that a group selects at an issue opportunity (R24, R28). -/
def choosePaths (s : State) (g : Nat) : List Path :=
  if (s.grp g).pp then
    match rankPaths true (s.pathsOf g (s.readyLanes g)) with
    | a :: b :: _ => if s.pathClass g a != s.pathClass g b || s.pathClass g a == 0 then [a, b] else [a]
    | l => l
  else match s.currentPath g with
    | none => []
    | some p => [p]

/-- The first slot after the one selected last that holds a ready thread (R22, R28). -/
def nextSlot (s : State) (core : Nat) : Option Nat :=
  (((List.range 16).map fun i => ((s.core core).last + 1 + i) % 16).find? fun k =>
    let g := 16 * core + k
    if (s.grp g).pp then !(s.readyLanes g).isEmpty else (s.grp g).bound && (s.currentPath g).isSome)

/-- Whether a header's class may run in the executing context (R149, R166, R345); a bow in its handler returns from it (R280, R380). DEDUCED: log entry 27. DEDUCED: log entry 30. -/
def classOk (s : State) (g : Nat) (p : Path) (cls : Nat) : Bool :=
  if isBow (groupCore g) then cls == 0 || cls == 3 || cls == 5 || (cls == 9 && (s.thr (tid g 0)).handler.isSome)
  else cls != 5 && (cls != 9 || (s.grpRes g).priv || (lanesOf p.lanes).all fun i => (s.thr (tid g i)).handler.isSome)

/-- Start the clause of a selected path: its header is checked and its words fetched; a failing header traps and a fault
parks every thread of the path (R149, R371). DEDUCED: log entry 30. -/
def startClause (s : State) (g : Nat) (p : Path) : State :=
  let core := groupCore g
  let hdr := BitVec.ofNat 48 p.pc
  let word := p.pc / 2 ^ 48
  let pc := BitVec.ofNat 64 p.pc
  let park := fun (s : State) (ty line pl : Nat) =>
    (if 16 ≤ ty then (lanesOf p.lanes).foldl (fun s i => s.takeTrap (tid g i) ⟨trapRecord 0 0 0 (ty - 16) 18, BitVec.ofNat 64 line, pc⟩)
        (s.mchkEvent g p.lanes (ty - 16) pl pc)
      else parkLanes g pc 0 0 true 32 ((lanesOf p.lanes).map fun i => (i, ty, line, pl, 3)) s).reconvRelease g
  let trap := fun (s : State) (r : TrapInfo) => ((lanesOf p.lanes).foldl (fun s i => s.takeTrap (tid g i) r) s).reconvRelease g
  let fail := fun (s : State) (w : W64) => trap s ⟨trapRecord 0 0 (bits w.toNat 59 56) 0 1, w, resumeAt hdr 0⟩
  match s.fetchWord core (s.grpRes g) hdr.toNat with
  | (s, .inr (ty, pl)) => park s ty (hdr.toNat / 128 * 128) pl
  | (s, .inl w) =>
    let h := Header.ofWord w
    if !h.ok || !s.classOk g p h.cls.toNat || decide (h.words ≤ word) || h.lit.getLsbD word then fail s w
    else
      match fetchWords core (s.grpRes g) h.words (hdr.toNat + 8) s with
      | (s, .inr (ty, line, pl)) => park s ty line pl
      | (s, .inl code) =>
        let x := s.core core
        s.setCore core { x with sels := x.sels ++ [⟨groupSlot g, p.lanes, hdr, w, code, word, s.cycle, .no⟩] }

/-- The opportunity ages the ready lanes that do not issue, clears the age of those that do, and counts yields down (R26, R27).
DEDUCED: log entry 31. -/
def ageLanes (s : State) (g : Nat) (ready : List Nat) (issued : BitVec 32) : State :=
  (groupLanes g).foldl (fun s i => s.modThr (tid g i) fun x =>
    let x := { x with yielded := x.yielded - 1 }
    if !(s.grp g).pp then x
    else if issued.getLsbD i then { x with age := 0 }
    else if ready.contains i then { x with age := if x.age = 63#6 then 63 else x.age + 1 }
    else x) s

/-- One issue opportunity of a free core (R22). DEDUCED: log entry 31. -/
def opportunity (s : State) (core : Nat) : State :=
  match s.nextSlot core with
  | none => s
  | some k =>
    let g := 16 * core + k
    let ps := s.choosePaths g
    let issued := ps.foldl (fun m p => m ||| p.lanes) 0#32
    let ready := s.readyLanes g
    let s := s.setCore core { s.core core with last := k }
    let s := s.ageLanes g ready issued
    let s := if (s.grp g).pp then s else s.setGrp g { s.grp g with cur := (s.grp g).cur ||| issued }
    ps.foldl (fun s p => s.startClause g p) s

/-- The turns of the words that the clauses in issue on a core may issue in this cycle; a lane that waits for an operation holds its
path (R22, R334). -/
def issueTurns (s : State) (core : Nat) : List Turn :=
  ((s.core core).sels.filter fun y => decide (y.nextAt ≤ s.cycle) &&
    (match y.held with | .no | .again | .bounds _ => true | _ => false) &&
    (lanesOf y.lanes).all fun i => (s.thr (tid (16 * core + y.slot) i)).waitOp == 0).map fun y => .issue core y.slot y.lanes

end State

/-- Whether an instruction may stand only as the last instruction word of its clause (R23, R164). -/
def controlWord : Instr → Bool
  | .bra _ _ | .brx _ _ | .call _ _ _ | .callIndirect _ _ _ | .ret _ _ | .exit _ | .reconv _ | .yield _ | .phase _ _ _
  | .trap _ _ | .brk _ _ | .fail _ | .eret _ => true
  | _ => false

/-- Whether an instruction may be a TAIL word (R164). -/
def tailWord : Instr → Bool
  | .phase _ _ _ | .fail _ | .eret _ => false
  | i => controlWord i

/-- The next word of a clause in issue, set up as the word in issue. -/
def Sel.cur (y : Sel) (core : Nat) : Cur :=
  let h := Header.ofWord y.header
  { core := core, sel := 0, slot := y.slot, lanes := y.lanes, hdr := y.hdr, words := h.words, cls := h.cls.toNat,
    mapCls := h.classAt y.word, word := y.word, after := y.word + 1 + (litRun h y.code y.word).length, raw := y.code.getD y.word 0 }

/-- What the decoder makes of the next word of a clause: the instruction, or the check of R167 that fails (1 or 2). -/
def State.nextInstr (s : State) (y : Sel) (core : Nat) : Except Nat Instr :=
  let h := Header.ofWord y.header
  let u := y.cur core
  let g := 16 * core + y.slot
  let opc := bits u.raw.toNat 63 56
  if (isBow core && u.mapCls == 3 && !(decide (3 ≤ opc) && decide (opc ≤ 6))) || (u.mapCls == 9 && (isBow core || !(s.grpRes g).priv) && opc != 2)
  then .error 1
  else match decode u.mapCls u.raw (litRun h y.code y.word) with
    | .error .opcode => .error 1
    | .error .field => .error 2
    | .ok i =>
      if (controlWord i && decide (u.after < u.words)) || (h.tail && decide (y.word + 1 = u.words) && !tailWord i) then .error 2
      else .ok i

/-- A word that is no instruction: `ILLEGAL` in every thread of the path (R167). DEDUCED: log entry 26. -/
def State.badWord (s : State) (check : Nat) : State :=
  s.retire ⟨false, 7, 0, none⟩ (.fixA 1 []) (Acted.of s ((lanesOf s.cur.lanes).map fun i => (i, .trap 1 check s.cur.raw 0 none))) []

/-- A bow word whose fault was answered with verdict 1: `BOUNDS` with the virtual line (R269, R385). -/
def State.boundsWord (s : State) (line : W64) : State :=
  s.retire ⟨false, 7, 0, none⟩ (.fixA 1 []) (Acted.of s ((lanesOf s.cur.lanes).map fun i => (i, .trap 4 0 line 0 none))) []

end Sys2Proof.Machine
end

