-- ==== Sys2Proof/Machine/Flags.lean ====
section
/-!
DEFINITION. Number formats and tags (R76–R85), exact results and their rounding (R86–R91, R208), and every flag an operation
on numbers computes (R92–R94).
-/
namespace Sys2Proof.Machine

/-! ## Flags (R92) -/

/-- Invalid. -/
def flagNV : BitVec 5 := 1
/-- Overflow. -/
def flagOF : BitVec 5 := 2
/-- Underflow. -/
def flagUF : BitVec 5 := 4
/-- Inexact. -/
def flagNX : BitVec 5 := 8
/-- Saturated. -/
def flagSA : BitVec 5 := 16

/-- A flag when a condition holds. -/
def flagIf (b : Bool) (f : BitVec 5) : BitVec 5 := if b then f else 0

/-! ## Formats (R76) -/

/-- A floating format: width, mantissa bits, bias, code of the largest finite magnitude, the codes of infinity and of the
canonical NaN where it has them, and whether it has signalling NaNs (R78). -/
structure FDesc where
  w    : Nat
  m    : Nat
  bias : Nat
  top  : Nat
  inf  : Option Nat
  nan  : Option Nat
  sig  : Bool
deriving DecidableEq, Repr

/-- The floating formats by their FMT number (R76, R82). -/
def fdesc : Nat → FDesc
  | 2 => ⟨16, 7, 127, 0x7F7F, some 0x7F80, some 0x7FC0, true⟩
  | 3 => ⟨16, 10, 15, 0x7BFF, some 0x7C00, some 0x7E00, true⟩
  | 4 => ⟨8, 3, 7, 0x7E, none, some 0x7F, false⟩
  | 5 => ⟨8, 2, 15, 0x7B, some 0x7C, some 0x7E, false⟩
  | 6 => ⟨4, 1, 1, 7, none, none, false⟩
  | _ => ⟨32, 23, 127, 0x7F7FFFFF, some 0x7F800000, some 0x7FC00000, true⟩

/-- FP32. -/
def fp32 : FDesc := fdesc 1

/-- A value that an element denotes: a NaN, an infinity, or (−1)^neg × n × 2^e (R77). -/
inductive FVal where
  | nan (sig : Bool)
  | inf (neg : Bool)
  | num (neg : Bool) (n : Nat) (e : Int)
deriving DecidableEq, Repr

/-- An integer as a value. -/
def FVal.ofInt (x : Int) : FVal := .num (decide (x < 0)) x.natAbs 0

/-- The value of a code (R77, R78). -/
def FDesc.dec (d : FDesc) (c : Nat) : FVal :=
  let neg := bitAt c (d.w - 1)
  let mag := c % 2 ^ (d.w - 1)
  if d.inf = some mag then .inf neg
  else if d.top < mag then .nan (d.sig && !bitAt mag (d.m - 1))
  else
    let E := mag / 2 ^ d.m
    let M := mag % 2 ^ d.m
    if E = 0 then .num neg M (1 - (d.bias : Int) - d.m) else .num neg (2 ^ d.m + M) ((E : Int) - d.bias - d.m)

/-- A value with its sign changed. -/
def FVal.neg : FVal → FVal
  | .nan s => .nan s
  | .inf n => .inf (!n)
  | .num s n e => .num (!s) n e

/-- A value times a power of two. -/
def FVal.scale (k : Int) : FVal → FVal
  | .num s n e => .num s n (e + k)
  | x => x

/-- Whether a value is a signalling NaN. -/
def FVal.isSig : FVal → Bool
  | .nan s => s
  | _ => false

/-- Whether a value is a NaN. -/
def FVal.isNan : FVal → Bool
  | .nan _ => true
  | _ => false

/-- The signed integer that n × 2^e denotes in units of 2^q, for q ≤ e. -/
def fixed (neg : Bool) (n : Nat) (e q : Int) : Int :=
  let x : Int := (n * 2 ^ (e - q).toNat : Nat)
  if neg then -x else x

/-- The order of two values, none when one is a NaN; the two zeros are equal (R207). -/
def FVal.cmp (a b : FVal) : Option Int :=
  match a, b with
  | .nan _, _ => none
  | _, .nan _ => none
  | .inf x, .inf y => some (if x = y then 0 else if x then -1 else 1)
  | .inf x, _ => some (if x then -1 else 1)
  | _, .inf y => some (if y then 1 else -1)
  | .num s n e, .num t k f =>
    let q := min e f
    let d := fixed s n e q - fixed t k f q
    some (if d < 0 then -1 else if d = 0 then 0 else 1)

/-! ## Rounding (R86–R89) -/

/-- An exact result: a NaN (with NV when the operation is invalid or an operand signals), an infinity, or (−1)^neg × x, where
x is n × 2^e, or lies strictly between that and (n + 1) × 2^e when `more` is set. -/
inductive Exact where
  | nan (nv : Bool)
  | inf (neg : Bool)
  | num (neg : Bool) (n : Nat) (e : Int) (more : Bool)
deriving DecidableEq, Repr

/-- A value as an exact result. -/
def FVal.exact : FVal → Exact
  | .nan s => .nan s
  | .inf n => .inf n
  | .num s n e => .num s n e false

/-- A magnitude cut at a quantum: the multiple `lo` of it, and what lies above as a fraction `rem` / 2^`sh`, and more (R87). -/
structure Cut where
  lo   : Nat
  rem  : Nat
  sh   : Nat
  more : Bool
deriving DecidableEq, Repr

/-- Cut n × 2^e at the quantum 2^q. -/
def cutAt (n : Nat) (e : Int) (more : Bool) (q : Int) : Cut :=
  if q ≤ e then ⟨n * 2 ^ (e - q).toNat, 0, 0, more⟩
  else
    let sh := (q - e).toNat
    ⟨n / 2 ^ sh, n % 2 ^ sh, sh, more⟩

/-- Whether the magnitude is no multiple of the quantum. -/
def Cut.inexact (c : Cut) : Bool := c.rem != 0 || c.more

end Sys2Proof.Machine
namespace Sys2Proof
open Machine

/-- Whether a mode chooses the candidate of larger magnitude (R86, R91). -/
def Rnd.up (mode : Rnd) (neg : Bool) (r : Nat) (c : Cut) : Bool :=
  match mode with
  | .rne => decide (2 ^ c.sh < 2 * c.rem) || (2 * c.rem == 2 ^ c.sh && (c.more || c.lo % 2 == 1))
  | .rz => false
  | .rdn => neg && c.inexact
  | .rup => !neg && c.inexact
  | .rs => decide (65536 ≤ c.rem * 65536 / 2 ^ c.sh + r)

/-- Whether a mode carries an overflow of a sign to infinity (R88). -/
def Rnd.toInf (mode : Rnd) (neg : Bool) : Bool :=
  match mode with
  | .rne | .rs => true
  | .rz => false
  | .rup => !neg
  | .rdn => neg

end Sys2Proof
namespace Sys2Proof.Machine

/-- The code of a sign and a magnitude code. -/
def FDesc.signed (d : FDesc) (neg : Bool) (mag : Nat) : Nat := (if neg then 2 ^ (d.w - 1) else 0) + mag

/-- The magnitude chosen at a cut. -/
def Cut.pick (up : Cut → Bool) (c : Cut) : Nat := if up c then c.lo + 1 else c.lo

/-- Whether a nonzero magnitude, rounded with unbounded exponent, lies below the smallest normal (R93). -/
def FDesc.tiny (d : FDesc) (up : Cut → Bool) (n : Nat) (e : Int) (more : Bool) : Bool :=
  let k := e + Nat.log2 n
  let kmin : Int := 1 - d.bias
  decide (k < kmin) && !(k + 1 == kmin && (cutAt n e more (k - d.m)).pick up == 2 ^ (d.m + 1))

/-- The code and the flags that an overflow gives (R88). -/
def FDesc.overflow (d : FDesc) (mode : Rnd) (sat neg : Bool) : Nat × BitVec 5 :=
  if sat || d.nan.isNone then (d.signed neg d.top, flagSA ||| flagNX)
  else if mode.toInf neg then
    (match d.inf with | some i => d.signed neg i | none => d.nan.getD 0, flagOF ||| flagNX)
  else (d.signed neg d.top, flagOF ||| flagNX)

/-- Deliver an exact result in a format: its code and its flags, the candidate chosen by `up` (R87–R89, R93). -/
def FDesc.deliver (d : FDesc) (mode : Rnd) (sat : Bool) (up : Bool → Cut → Bool) : Exact → Nat × BitVec 5
  | .nan nv => match d.nan with
    | none => (0, flagNV)
    | some c => (c, flagIf nv flagNV)
  | .inf neg => match d.inf, d.nan with
    | some i, _ => (d.signed neg i, 0)
    | none, some c => if sat then (d.signed neg d.top, flagSA) else (c, flagNV)
    | none, none => (d.signed neg d.top, flagSA)
  | .num neg n e more =>
    if n = 0 then (d.signed neg 0, 0)
    else
      let k := e + Nat.log2 n
      let q := max k (1 - (d.bias : Int)) - d.m
      let c := cutAt n e more q
      let code := ((q + d.m + d.bias).toNat) * 2 ^ d.m + c.pick (up neg) - 2 ^ d.m
      if d.top < code then d.overflow mode sat neg
      else (d.signed neg code, flagIf c.inexact flagNX ||| flagIf (c.inexact && d.tiny (up neg) n e more) flagUF)

/-- Round in a mode without the generator (R87). -/
def FDesc.round (d : FDesc) (mode : Rnd) (sat : Bool) (x : Exact) : Nat × BitVec 5 :=
  d.deliver mode sat (fun neg => mode.up neg 0) x

/-! ## Stochastic rounding (R90, R91) -/

/-- One step of the generator (R91). -/
def srsStep (x : BitVec 32) : BitVec 32 :=
  let x := x ^^^ (x <<< 13)
  let x := x ^^^ (x >>> 17)
  x ^^^ (x <<< 5)

/-- The generator that `SEED` sets in a thread, and that it holds at launch with seed 0 (R43, R90). -/
def srsSeed (sigma : BitVec 32) (gid : Nat) : BitVec 32 :=
  let x := sigma ^^^ (0x01010101#32 * BitVec.ofNat 32 (gid % 256)) ^^^ (BitVec.ofNat 32 (gid / 256) <<< 20)
  if x = 0 then 0x6D2B79F5#32 else x

/-- The codes of some results, their flags and the generator after them (R91, R94). -/
structure Rounded where
  codes : List Nat
  flags : BitVec 5
  srs   : BitVec 32
deriving DecidableEq, Repr

/-- Round results in order; under `.rs` every one takes a step (R91). -/
def FDesc.roundAll (d : FDesc) (mode : Rnd) (sat : Bool) : BitVec 32 → List Exact → Rounded
  | srs, [] => ⟨[], 0, srs⟩
  | srs, x :: l =>
    let srs := if mode = .rs then srsStep srs else srs
    let (c, f) := d.deliver mode sat (fun neg => mode.up neg (srs.toNat / 65536)) x
    let r := FDesc.roundAll d mode sat srs l
    ⟨c :: r.codes, f ||| r.flags, r.srs⟩

/-! ## Exact arithmetic (R205) -/

/-- The exact sum; a zero sum of opposite signs is −0 only under `.rdn` (R87). -/
def FVal.add (mode : Rnd) (a b : FVal) : Exact :=
  match a, b with
  | .nan s, y => .nan (s || y.isSig)
  | _, .nan s => .nan s
  | .inf x, .inf y => if x = y then .inf x else .nan true
  | .inf x, _ => .inf x
  | _, .inf y => .inf y
  | .num s n e, .num t k f =>
    let q := min e f
    let d := fixed s n e q + fixed t k f q
    if d = 0 then .num (if s = t then s else mode == .rdn) 0 0 false else .num (decide (d < 0)) d.natAbs q false

/-- The exact product. -/
def FVal.mul (a b : FVal) : Exact :=
  match a, b with
  | .nan s, y => .nan (s || y.isSig)
  | _, .nan s => .nan s
  | .inf x, .inf y => .inf (x != y)
  | .inf x, .num t k _ => if k = 0 then .nan true else .inf (x != t)
  | .num s n _, .inf y => if n = 0 then .nan true else .inf (s != y)
  | .num s n e, .num t k f => .num (s != t) (n * k) (e + f) false

/-- The exact a × b + c; 0 × infinity is invalid even with a quiet NaN c. -/
def FVal.fma (mode : Rnd) (a b c : FVal) : Exact :=
  match a.mul b with
  | .nan nv => .nan (nv || c.isSig)
  | .inf s => FVal.add mode (.inf s) c
  | .num s n e _ => FVal.add mode (.num s n e) c

/-! ## Reciprocal and roots (R208, R209) -/

/-- The integer square root, bit by bit from bit `k` − 1. -/
def rootBits (x : Nat) : Nat → Nat → Nat
  | 0, r => r
  | k + 1, r => if (r + 2 ^ k) * (r + 2 ^ k) ≤ x then rootBits x k (r + 2 ^ k) else rootBits x k r

/-- The integer square root. -/
def root (x : Nat) : Nat := rootBits x (Nat.log2 x / 2 + 1) 0

/-- 1/a. -/
def FVal.rcp : FVal → Exact
  | .nan s => .nan s
  | .inf s => .num s 0 0 false
  | .num s n e =>
    if n = 0 then .inf s
    else
      let k := Nat.log2 n + 64
      .num s (2 ^ k / n) (-e - k) (2 ^ k % n != 0)

/-- n × 2^e with an even exponent. -/
def evenExp (n : Nat) (e : Int) : Nat × Int := if e % 2 = 0 then (n, e) else (2 * n, e - 1)

/-- 1/√a. -/
def FVal.rsq : FVal → Exact
  | .nan s => .nan s
  | .inf s => if s then .nan true else .num false 0 0 false
  | .num s n e =>
    if n = 0 then .inf s
    else if s then .nan true
    else
      let (n, e) := evenExp n e
      let k := Nat.log2 n + 64
      let r := root (2 ^ (2 * k) / n)
      .num false r (-(e / 2) - k) (r * r * n != 2 ^ (2 * k))

/-- √a. -/
def FVal.sqrt : FVal → Exact
  | .nan s => .nan s
  | .inf s => if s then .nan true else .inf false
  | .num s n e =>
    if n = 0 then .num s 0 0 false
    else if s then .nan true
    else
      let (n, e) := evenExp n e
      let r := root (n * 2 ^ 128)
      .num false r (e / 2 - 64) (r * r != n * 2 ^ 128)

/-! ## 2^a, log2 a, tanh a (R208, R209): fixed-point series of 192 fraction bits, beyond every rounding case of the formats -/

/-- ln 2 × 2^192, rounded down. -/
def ln2Fix : Nat := 4350955369971217654477563090224794165364344896676135745069

/-- The sum of the terms y^k / k! × 2^192 from a term on. -/
def expSum (y : Nat) : Nat → Nat → Nat → Nat
  | 0, _, _ => 0
  | n + 1, k, t => t + expSum y n (k + 1) (t * y / (2 ^ 192 * k))

/-- 2^f × 2^192 for the fraction f × 2^192 given. -/
def exp2Fix (f : Nat) : Nat := expSum (f * ln2Fix / 2 ^ 192) 64 1 (2 ^ 192)

/-- The sum of the terms z^(2k+1) / (2k+1) × 2^192 from an odd power on. -/
def atanhSum (z : Nat) : Nat → Nat → Nat → Nat
  | 0, _, _ => 0
  | n + 1, k, t => t / k + atanhSum z n (k + 2) (t * z / 2 ^ 192 * z / 2 ^ 192)

/-- 2^a. DEDUCED: log entry 11. -/
def FVal.exp2 : FVal → Exact
  | .nan s => .nan s
  | .inf s => if s then .num false 0 0 false else .inf false
  | .num s n e =>
    if n = 0 then .num false 1 0 false
    else
      let k := e + Nat.log2 n
      if 20 ≤ k then .num false 1 (if s then -1048576 else 1048576) true
      else if k < -100 then .num false (if s then 2 ^ 64 - 1 else 2 ^ 64) (-64) true
      else
        let t : Int := fixed s n e (-192)
        let f := (t % 2 ^ 192).toNat
        if f = 0 then .num false 1 (t / 2 ^ 192) false else .num false (exp2Fix f) (t / 2 ^ 192 - 192) true

/-- log2 a. DEDUCED: log entry 11. -/
def FVal.log2 : FVal → Exact
  | .nan s => .nan s
  | .inf s => if s then .nan true else .inf false
  | .num s n e =>
    if n = 0 then .inf true
    else if s then .nan true
    else
      let l := Nat.log2 n
      let whole : Int := l + e
      if n = 2 ^ l then .num (decide (whole < 0)) whole.natAbs 0 false
      else
        let z := (n - 2 ^ l) * 2 ^ 192 / (n + 2 ^ l)
        let y := whole * 2 ^ 192 + (2 * atanhSum z 64 1 z * 2 ^ 192 / ln2Fix : Nat)
        .num (decide (y < 0)) y.natAbs (-192) true

/-- tanh a. -/
def FVal.tanh : FVal → Exact
  | .nan s => .nan s
  | .inf s => .num s 1 0 false
  | .num s n e =>
    if n = 0 then .num s 0 0 false
    else
      let k := e + Nat.log2 n
      if k < -40 then .num s (n * 2 ^ 64 - 1) (e - 64) true
      else if 5 ≤ k then .num s (2 ^ 64 - 1) (-64) true
      else
        let x := (fixed false n e (-192)).toNat
        let u := 2 * x * 2 ^ 192 / ln2Fix
        let i := u / 2 ^ 192
        let f := u % 2 ^ 192
        let y := if f = 0 then 2 ^ 192 / 2 ^ i else exp2Fix (2 ^ 192 - f) / 2 ^ (i + 1)
        .num s ((2 ^ 192 - y) * 2 ^ 192 / (2 ^ 192 + y)) (-192) true

/-- Deliver a result of `FEXP2`, `FLOG2` or `FTANH`: in FP32 either candidate, fixed for the operand; otherwise rounded with
`.rne` (R208; log entry 6). -/
def FDesc.transcend (d : FDesc) (op : Nat) (operand : Nat) (x : Exact) : Nat × BitVec 5 :=
  if d = fp32 then d.deliver .rne false (fun _ c => c.inexact && Config.fp32Hi op (BitVec.ofNat 32 operand)) x
  else d.round .rne false x

/-! ## Minimum and maximum (R206), comparison (R207) -/

/-- The smaller or larger of two codes, −0 below +0; a single NaN gives the other operand (R206). -/
def FDesc.minMax (d : FDesc) (big : Bool) (a b : Nat) : Nat × BitVec 5 :=
  let x := d.dec a
  let y := d.dec b
  let f := flagIf (x.isSig || y.isSig) flagNV
  if x.isNan && y.isNan then (d.nan.getD 0, f)
  else if x.isNan then (b, f)
  else if y.isNan then (a, f)
  else
    let neg := fun c => bitAt c (d.w - 1)
    let aBelow := match x.cmp y with
      | some 0 => neg a && !neg b
      | some c => decide (c < 0)
      | none => false
    (if aBelow == big then b else a, f)

/-- max(|a|, |b|), the canonical NaN if either is a NaN (R206). -/
def FDesc.absMax (d : FDesc) (a b : Nat) : Nat × BitVec 5 :=
  let x := d.dec a
  let y := d.dec b
  if x.isNan || y.isNan then (d.nan.getD 0, flagIf (x.isSig || y.isSig) flagNV)
  else d.minMax true (a % 2 ^ (d.w - 1)) (b % 2 ^ (d.w - 1))

end Sys2Proof.Machine
namespace Sys2Proof
open Machine

/-- The comparisons of R156 on exact values. -/
def CmpOp.int : CmpOp → Int → Int → Bool
  | .eq, a, b => a == b
  | .ne, a, b => a != b
  | .lt, a, b => decide (a < b)
  | .le, a, b => decide (a ≤ b)
  | .gt, a, b => decide (b < a)
  | .ge, a, b => decide (b ≤ a)
  | .un, _, _ => false

/-- A comparison of two values, with its flags (R207). -/
def CmpOp.float (k : CmpOp) (a b : FVal) : Bool × BitVec 5 :=
  let sig := a.isSig || b.isSig
  match a.cmp b with
  | none => (k == .ne || k == .un, flagIf (sig || k == .lt || k == .le || k == .gt || k == .ge) flagNV)
  | some c => (k.int c 0, 0)

end Sys2Proof
namespace Sys2Proof.Machine

/-! ## Conversions to integers (R75) -/

/-- Clamp an integer to w signed bits. -/
def clampS (w : Nat) (x : Int) : Int := max (-(2 ^ (w - 1))) (min (2 ^ (w - 1) - 1) x)

/-- A value converted to a signed integer of w bits, with its flags (R75). -/
def FVal.toInt (w : Nat) (mode : Rnd) : FVal → Int × BitVec 5
  | .nan _ => (0, flagNV)
  | .inf neg => (if neg then -(2 ^ (w - 1)) else 2 ^ (w - 1) - 1, flagNV)
  | .num neg n e =>
    let c := cutAt n e false 0
    let y : Int := c.pick (mode.up neg 0)
    let y := if neg then -y else y
    if clampS w y = y then (y, flagIf c.inexact flagNX) else (clampS w y, flagNV ||| flagNX)

/-- A saturating sum of signed integers of w bits, with its flag (R75, R97, R100). -/
def satAdd (w : Nat) (x y : Int) : Int × BitVec 5 := (clampS w (x + y), flagIf (clampS w (x + y) != x + y) flagSA)

/-! ## Tags (R82, R83) -/

/-- The element format of a tag. -/
def tagFmt (t : Byte) : Nat := bits t.toNat 7 4
/-- The scale geometry of a tag. -/
def tagGeom (t : Byte) : Nat := bits t.toNat 3 2
/-- The codebook slot of a tag. -/
def tagCbs (t : Byte) : CReg := t.extractLsb' 0 2
/-- A tag of a format, a geometry and a codebook slot. -/
def mkTag (fmt geom cbs : Nat) : Byte := BitVec.ofNat 8 (16 * fmt + 4 * geom + cbs)

/-- A valid tag other than EMPTY (R83); an m register and a layout record accept it. -/
def tagOk (t : Byte) : Bool :=
  let f := tagFmt t
  decide (1 ≤ f) && decide (f ≤ 10) && (tagGeom t == 0 || (decide (4 ≤ f) && decide (f ≤ 8))) && (tagCbs t == 0#2 || f == 10)

/-- A valid tag that a v register accepts (R83). -/
def tagVOk (t : Byte) : Bool := tagOk t && tagGeom t == 0

/-- The width in bits of the elements of a format (R84). -/
def fmtWidth : Nat → Nat
  | 1 => 32
  | 9 => 32
  | 2 => 16
  | 3 => 16
  | 6 => 4
  | 8 => 4
  | 10 => 4
  | _ => 8

/-- The elements of a v register (R84). -/
def vElems (w : Nat) (x : W128) : List Nat := (List.range (128 / w)).map fun j => bits x.toNat ((j + 1) * w - 1) (j * w)

/-- Elements joined to a v register (R84). -/
def vJoin (w : Nat) (l : List Nat) : W128 := BitVec.ofNat 128 (l.foldr (fun c y => c % 2 ^ w + 2 ^ w * y) 0)

/-- Entry k of a codebook (R79). -/
def cbEntry (cb : W256) (k : Nat) : Nat := bits cb.toNat (16 * k + 15) (16 * k)

/-- The value of an element of a format, a CB4 code through its codebook (R74, R77, R79). -/
def elemVal (fmt : Nat) (cb : W256) (c : Nat) : FVal :=
  match fmt with
  | 7 => FVal.ofInt (sval 8 c)
  | 8 => FVal.ofInt (sval 4 c)
  | 9 => FVal.ofInt (sval 32 c)
  | 10 => (fdesc 2).dec (cbEntry cb c)
  | f => (fdesc f).dec c

/-- An element times its block's E8M0 scale; the NaN scale makes it a NaN, with NV (R80, R93). -/
def scaled (s : Nat) (x : FVal) : Exact := if s = 255 then .nan true else (x.scale ((s : Int) - 127)).exact

/-- The index of the scale byte of element (i, j) of an m register (R81, R84). -/
def scaleIx (geom i j : Nat) : Nat :=
  match geom with
  | 1 => 2 * (i / 16) + j / 16
  | 3 => i
  | _ => 0

/-! ## Matrix registers by rows (R84) -/

/-- The bytes of a scale field (R84). -/
def scaleField (l : List Nat) : W256 := BitVec.ofNat 256 (l.foldr (fun b n => b % 256 + 256 * n) 0)
/-- A byte of a scale field. -/
def scaleByte (w : W256) (i : Nat) : Nat := bits w.toNat (8 * i + 7) (8 * i)

/-- The elements of row i of a matrix register. -/
def MVal.row (m : MVal) (i : Nat) : List Nat := (List.range 32).map fun j => (mget 0 m.elems (32 * i + j)).toNat

/-- A matrix register of rows of element codes. -/
def MVal.ofRows (tag : Byte) (scale : W256) (rows : List (List Nat)) : MVal :=
  ⟨tag, scale, mtab 0 1024 fun k => BitVec.ofNat 32 ((rows.getD (k / 32) []).getD (k % 32) 0)⟩

/-- All rows of a matrix register. -/
def allRows : BitVec 32 := BitVec.allOnes 32

end Sys2Proof.Machine
end

