-- ==== Sys2Proof/Machine/Layout.lean ====
section
/-!
DEFINITION. The translations of one word, each line once (R58, R59); b registers as a word finds them (R232); layout records, tile
handles, scale bytes and the addresses of tensor elements (R61–R67, R70, R81).
-/
namespace Sys2Proof.Machine

/-! ## The lines of one word (R58, R59) -/

/-- The state during a word, with the outcome of every line it has translated. -/
structure Seen where
  st    : State
  lines : List (Nat × Need × Tr)

/-- A place within its line. -/
def Tr.within (va : Nat) : Tr → Tr
  | .ok p => .ok (p.add (va % 128))
  | r => r

/-- Translate a virtual address for group `g`; a line already translated keeps its outcome. -/
def Seen.tr (x : Seen) (g : Nat) (n : Need) (va : Nat) : Seen × Tr :=
  let a := va / 128 * 128
  match x.lines.find? fun l => l.1 == a && l.2.1 == n with
  | some (_, _, r) => (x, r.within va)
  | none =>
    let (s, r) := x.st.translateLine (groupCore g) (x.st.grpRes g) n a
    (⟨s, x.lines ++ [(a, n, r)]⟩, r.within va)

/-- Translate a virtual address without a check of locality; `acc` is the ACCESS code of a fault (R384). -/
def Seen.reach (x : Seen) (g : Nat) (n : Need) (acc va : Nat) : Seen × (Phys ⊕ LaneRes) :=
  if va ≥ 2 ^ 48 then (x, .inr (.bounds va))
  else match x.tr g n va with
    | (x, .fault ty pl) => (x, .inr (.fault ty (va / 128 * 128) pl acc))
    | (x, .ok p) => (x, .inl p)

/-- Translate a virtual address and check its locality in a compute superstep (R33). -/
def Seen.place (x : Seen) (g : Nat) (n : Need) (acc va : Nat) : Seen × (Phys ⊕ LaneRes) :=
  match x.reach g n acc va with
  | (x, .inl p) => (x, if p.localTo (coreCluster (groupCore g)) then .inl p else .inr (.nonlocal va))
  | r => r

/-- Fold an action over a list, threading the translations. -/
def Seen.each {α β : Type} (f : Seen → α → Seen × β) : List α → Seen → Seen × List β
  | [], x => (x, [])
  | a :: l, x =>
    let (x, b) := f x a
    let (x, bs) := Seen.each f l x
    (x, b :: bs)

/-! ## Buffer registers (R56, R232) -/

/-- A b register as a thread finds it at issue: its record as far as the thread knows it, or one that an outstanding `BRLD` has yet to put
there (R232). DEDUCED: log entry 39. -/
def State.bufRec (s : State) (t : Nat) (r : BReg) : W256 :=
  let w := (s.grp (threadGroup t)).wg
  s.ops.foldl (fun v o => match o.kind with
    | .brld k b rec => if k == w && b == r && s.flip (2 ^ 79 + o.id) then rec else v
    | _ => v) (if s.writes.isEmpty then mget 0 (s.wg w).b r.toNat else s.sharedReg t .buf w r.toNat)

/-! ## Layout records (R61–R67) -/

/-- The bytes of a storage element of a format (R61). -/
def fmtBytes (f : Nat) : Nat := (fmtWidth f + 7) / 8
/-- Whether a format has two codes in a storage element (R61). -/
def fmtPairs (f : Nat) : Bool := fmtWidth f == 4

/-- A tensor region as its layout record describes it (R61, R65). -/
structure Layout where
  tag   : Byte
  rows  : Nat
  cols  : Nat
  saxis : Bool
  scale : Nat
  /-- The bases of the row, column and tiled view ranges. -/
  row   : Nat
  col   : Nat
  tile  : Nat
deriving DecidableEq, Repr

namespace Layout

/-- The element format. -/
def fmt (l : Layout) : Nat := tagFmt l.tag
/-- The scale geometry. -/
def geom (l : Layout) : Nat := tagGeom l.tag
/-- Whether it is a 4-bit region. -/
def pairs (l : Layout) : Bool := fmtPairs l.fmt
/-- The bytes of a storage element. -/
def e (l : Layout) : Nat := fmtBytes l.fmt
/-- The tiles of storage elements from top to bottom. -/
def rt (l : Layout) : Nat := (l.rows + 31) / 32
/-- The tiles of storage elements from left to right. -/
def ct (l : Layout) : Nat := ((if l.pairs then l.cols / 2 else l.cols) + 31) / 32
/-- Padded rows. -/
def rowsP (l : Layout) : Nat := 32 * l.rt
/-- Padded storage columns. -/
def colsP (l : Layout) : Nat := 32 * l.ct
/-- Padded code columns (R66). -/
def codesP (l : Layout) : Nat := if l.pairs then 2 * l.colsP else l.colsP
/-- The base of a view range: kind 1 row, 2 column, 3 tiled. -/
def base (l : Layout) (kind : Nat) : Nat := if kind = 1 then l.row else if kind = 2 then l.col else l.tile

/-- The virtual address of the storage element at row r and storage column c through a view (R63). -/
def elemVa (l : Layout) (kind r c : Nat) : Nat := l.base kind + viewOff kind l.e l.rt l.ct r c

/-- The virtual address of the scale byte of the element at row r and code column k (R66, R81). -/
def scaleVa (l : Layout) (r k : Nat) : Nat :=
  match l.geom with
  | 1 => l.scale + r / 16 * (l.codesP / 16) + k / 16
  | 2 => l.scale + r / 32 * (l.codesP / 32) + k / 32
  | _ => if l.saxis then l.scale + r / 32 * l.codesP + k else l.scale + r * (l.codesP / 32) + k / 32

end Layout

/-- The layout that a record describes, or none when it fails the checks of R67 on its fields. -/
def parseLayout (r : W512) : Option Layout :=
  let x := r.toNat
  let tag := r.extractLsb' 352 8
  let rows := bits x 319 288
  let cols := bits x 351 320
  let saxis := bitAt x 360
  if bits x 511 361 != 0 || bits x 287 257 != 0 || bits x 255 240 != 0 || bits x 191 176 != 0 || bits x 127 112 != 0 ||
      bits x 63 48 != 0 || rows == 0 || cols == 0 || (fmtPairs (tagFmt tag) && cols % 2 == 1) || (saxis && tagGeom tag != 3) ||
      !tagOk tag then none
  else some ⟨tag, rows, cols, saxis, bits x 239 192, bits x 47 0, bits x 111 64, bits x 175 128⟩

/-- The entry of the layout cache for a handle of a region's context (R70, R121). -/
def State.layHit (s : State) (g h : Nat) : Option W512 :=
  let r := s.grpRes g
  (s.layouts.find? fun e => e.cluster == coreCluster (groupCore g) && e.asid == r.asid && e.world == r.world && e.handle == h).map (·.val)

/-- Put a record into the layout cache. -/
def State.layPut (s : State) (g h : Nat) (v : W512) : State :=
  let r := s.grpRes g
  let c := coreCluster (groupCore g)
  { s with layouts := ⟨c, r.asid, r.world, h, v⟩ :: s.layouts.filter fun e =>
      !(e.cluster == c && e.asid == r.asid && e.world == r.world && e.handle == h) }

/-- The layout record of a handle: fresh from memory, or a cached one where they differ (R64, R70, R121). DEDUCED: log entry 34. -/
def Seen.record (x : Seen) (g : Nat) (n : Need) (acc h : Nat) : Seen × (W512 ⊕ LaneRes) :=
  let va := (x.st.grpRes g).rtbase.toNat + 64 * h
  let (y, fresh) : Seen × (W512 ⊕ LaneRes) := match x.reach g { Need.load with block := n.block } acc va with
    | (y, .inr r) => (y, .inr r)
    | (y, .inl p) => match y.st.latentAt p 64 with
      | some (code, pa) => (y, .inr (.mchk code (BitVec.ofNat 64 va) pa))
      | none => (y, .inl (BitVec.ofNat 512 (y.st.readPhys (200000 + coreCluster (groupCore g)) p 64)))
  let fill : Seen × (W512 ⊕ LaneRes) := match fresh with
    | .inl v => (⟨y.st.layPut g h v, y.lines⟩, fresh)
    | .inr _ => (y, fresh)
  match x.st.layHit g h with
  | none => fill
  | some v => if fresh = .inl v then (y, fresh) else if x.st.flip (2 ^ 81 + h) then (x, .inl v) else fill

/-- The view descriptor behind the base of a view range, or none when the page is no view page of the kind. -/
def viewDesc (kind : Nat) : Phys → Option W512
  | .view k d _ => if k.toNat = kind then some d else none
  | .lin _ => none

/-- The checks of R67 on the three view pages. -/
def viewsAgree (l : Layout) (a b c : Option W512) : Bool :=
  match a, b, c with
  | some a, some b, some c =>
    let same := fun (d : W512) => descRid d == descRid a && descSbase d == descSbase a && descE d == descE a &&
      descRT d == descRT a && descCT d == descCT a
    same b && same c && descE a == l.e && descRT a == l.rt && descCT a == l.ct
  | _, _, _ => false

/-- The layout behind a tile handle, with every check of R64 and R67; the record is read, and the three bases are translated with what the
access requires of its pages (R371). DEDUCED: log entry 82. -/
def Seen.layout (x : Seen) (g : Nat) (n : Need) (acc h : Nat) : Seen × (Layout ⊕ LaneRes) :=
  if (x.st.grpRes g).rtlen.toNat ≤ h then (x, .inr (.bounds h))
  else match x.record g n acc h with
    | (x, .inr r) => (x, .inr r)
    | (x, .inl v) =>
      if !bitAt v.toNat 256 then (x, .inr (.bounds h))
      else match parseLayout v with
        | none => (x, .inr (.format 0))
        | some l =>
          match x.reach g n acc l.row with
          | (x, .inr r) => (x, .inr r)
          | (x, .inl a) => match x.reach g n acc l.col with
            | (x, .inr r) => (x, .inr r)
            | (x, .inl b) => match x.reach g n acc l.tile with
              | (x, .inr r) => (x, .inr r)
              | (x, .inl c) =>
                if viewsAgree l (viewDesc 1 a) (viewDesc 2 b) (viewDesc 3 c) then (x, .inl l) else (x, .inr (.format 0))

end Sys2Proof.Machine
end

