-- ==== Sys2Proof/Machine/Access.lean ====
section
/-!
DEFINITION. Class 2: loads, stores, buffer-record loads, tile loads and stores, fences, atomics and loads into the scratchpad
(R226–R239, R445).
-/
namespace Sys2Proof.Machine

/-! ## Where a lane's access goes -/

/-- The place of one lane's access after its checks and its translation (R54, R58, R59). -/
inductive Spot where
  | sp (k : Nat) (a : W64)
  | mem (p : Phys) (va : Nat)
  /-- Out of bounds under BMODE = 1. -/
  | drop
  | bad (r : LaneRes)
deriving DecidableEq, Repr

/-- A scratchpad access of `w` bytes. -/
def spSpot (s : State) (g w : Nat) (a : W64) : Spot :=
  match s.spCheck g w a with
  | .inl k => .sp k a
  | .inr r => .bad r

/-- An access of `w` bytes at an element of a buffer record. -/
def bufSpot (g : Nat) (n : Need) (acc w : Nat) (rec : W256) (x : Seen) (i : W64) : Seen × Spot :=
  match bufElem rec w i.toNat with
  | .drop => (x, .drop)
  | .bad r => (x, .bad r)
  | .addr va => match x.place g n acc va with
    | (x, .inl p) => (x, .mem p va)
    | (x, .inr r) => (x, .bad r)

end Sys2Proof.Machine
namespace Sys2Proof
open Machine

/-- The registers an address operand reads. -/
def AAddr.regs : AAddr → List RegId
  | .buf _ i => [.g i]
  | .sp a => [.g a.base]

/-- The places of the accesses of some lanes, each line translated once (R54, R58). -/
def AAddr.spots (a : AAddr) (s : State) (g : Nat) (n : Need) (acc w : Nat) (lanes : List Nat) : State × List Spot :=
  match a with
  | .sp o => (s, lanes.map fun i => spSpot s g w (o.addr (s.g (tid g i) o.base)))
  | .buf b i =>
    let (x, l) := Seen.each (fun x j => bufSpot g n acc w (s.bufRec (tid g j) b) x (s.g (tid g j) i)) lanes ⟨s, []⟩
    (x.st, l)

end Sys2Proof
namespace Sys2Proof.Machine

/-- The addresses and widths of some accesses, for a sample record (R402). -/
def Spot.trace (w : Nat) (l : List Spot) : List (Nat × Nat) :=
  l.filterMap fun p => match p with
    | .mem _ va => some (va, w)
    | _ => none

/-- The scope at which a modifier acquires, and the one at which it releases (R108). -/
def acquires (o : Ordr) (sc : Scope) : Option (BitVec 4) := if o = .acq ∨ o = .ar then some sc.code else none
def releases (o : Ordr) (sc : Scope) : Option (BitVec 4) := if o = .rel ∨ o = .ar then some sc.code else none

/-- Read `w` bytes of the scratchpad at an address as a thread finds them, unless a stored error is consumed (R388). -/
def State.spSee (s : State) (t w : Nat) (acq : Option (BitVec 4)) (k : Nat) (a : W64) : State × (Nat ⊕ LaneRes) :=
  match s.spLoad k w a with
  | .inr r => (s, .inr r)
  | .inl _ =>
    let (s, b) := s.see t acq .sp 0 ((List.range w).map (k + ·))
    (s, .inl (leVal b))

/-- Read `w` bytes at a place for a thread, as an acquire at a scope or a plain read: one single-copy access (R72), unless a stored error
is consumed (R388). -/
def State.readSpot (s : State) (t w : Nat) (acq : Option (BitVec 4)) : Spot → State × (Nat ⊕ LaneRes)
  | .sp k a => s.spSee t w acq k a
  | .mem p va => match s.load t acq p w va with
    | (s, .inl b) => (s, .inl (leVal b))
    | (s, .inr r) => (s, .inr r)
  | .drop => (s, .inl 0)
  | .bad r => (s, .inr r)

/-- A write is discarded because of a parity error in its queue: its bytes keep their contents, and a machine check event is posted (R384,
R388). -/
def State.discardWrite (s : State) (t pa : Nat) : State :=
  State.postGroup { s with latent := s.latent.filter (· != ⟨4, t⟩) } (decide (s.granule pa ≠ 0)) 5 (threadGroup t)
    ((1#32 <<< threadLane t).toNat + 2 ^ 32 * 4) pa 0 (Config.freeNat s.draw (2 ^ 77) % 2 ^ 64) 0

/-- Write the low `w` bytes of a number at a place for a thread, with the scopes at which it is a release and an atomic: one single-copy
access (R72). -/
def State.writeSpot (s : State) (t w x : Nat) (rel atomic : Option (BitVec 4)) : Spot → State
  | .sp k _ => s.spPutBy t [] (rel.map (Prod.mk t)) atomic k (leBytes x w)
  | .mem p _ => if s.spoiled t then s.discardWrite t (p.at 0) else s.writeBy t [] (rel.map (Prod.mk t)) atomic p (leBytes x w)
  | _ => s

/-- What a load puts into its destination: a v register takes tag INT32; `.s` sign-extends (R228). -/
def loadWrites (t : ITy) (d : Dat) (x : Nat) : List (RegId × RVal) :=
  match d with
  | .v r => [(.v r, .v ⟨BitVec.ofNat 128 x, mkTag 9 0 0⟩)]
  | .g r =>
    if t = .b128 then [(.g r, .w (BitVec.ofNat 64 x)), (.g (r + 1), .w (BitVec.ofNat 64 (x / 2 ^ 64)))]
    else [(.g r, .w (t.ext (t.val (BitVec.ofNat 64 x))))]

/-- The data that a store takes from a register, or the trap of an EMPTY v register (R228). -/
def State.storeData (s : State) (t : Nat) (ty : ITy) : Dat → Nat ⊕ LaneRes
  | .v r => let x := s.v t r; if tagVOk x.tag then .inl x.bits.toNat else .inr (.format x.tag.toNat)
  | .g r => if ty = .b128 then .inl (s.pair t r).toNat else .inl (s.g t r).toNat

/-- The pipeline's view of a class-2 access. -/
def accessSpec (reads : List RegId) : WordSpec := { WordSpec.var .c reads with access := true }

/-- The loads of some lanes at their places, ascending (R60, R230). -/
def readLanes (g w : Nat) (acq : Option (BitVec 4)) (f : Nat → List (RegId × RVal)) : List (Nat × Spot) → State →
    State × List (Nat × LaneRes)
  | [], s => (s, [])
  | (i, q) :: l, s =>
    let (s, x) := s.readSpot (tid g i) w acq q
    let (s, r) := readLanes g w acq f l s
    (s, (i, match x with | .inl x => .next (f x) | .inr r => r) :: r)

/-- A load of every participant, at a scope if it is an acquire (R108, R230). -/
def loadWord (c : Ctl) (t : ITy) (o : Ordr) (sc : Scope) (d : Dat) (a : AAddr) (s : State) : Host.Outcome State Fault Refusal :=
  s.word c (accessSpec a.regs) fun s p =>
    let g := s.curG
    let (s, l) := a.spots s g Need.load 0 t.bytes p
    let (s, res) := readLanes g t.bytes (acquires o sc) (loadWrites t d) (p.zip l) s
    { Acted.of s res with trace := Spot.trace t.bytes l }

/-- A store of every participant, at a scope if it is a release: the tag of a v source is checked first, and the higher lane's bytes
stand (R60, R108, R228, R230). -/
def storeWord (c : Ctl) (t : ITy) (o : Ordr) (sc : Scope) (a : AAddr) (x : Dat) (s : State) : Host.Outcome State Fault Refusal :=
  s.word c (accessSpec (a.regs ++ x.regs t)) fun s p =>
    let g := s.curG
    let data := fun i => s.storeData (tid g i) t x
    let ok := p.filter fun i => (match data i with | .inl _ => true | .inr _ => false)
    let (s1, l) := a.spots s g Need.store 1 t.bytes ok
    let s2 := (ok.zip l).foldl (fun s e => match data e.1 with
      | .inl v => s.writeSpot (tid g e.1) t.bytes v (releases o sc) none e.2
      | .inr _ => s) s1
    { Acted.of s2 (p.map fun i => (i, match data i with
        | .inr r => r
        | .inl _ => match (ok.zip l).find? fun e => e.1 == i with
          | some (_, .bad r) => r
          | _ => .done)) with trace := Spot.trace t.bytes l }

/-- `LD` (R230). -/
def execLd (c : Ctl) (t : ITy) (o : Ordr) (sc : Scope) (d : Dat) (b : BReg) (i : GReg) (s : State) :
    Host.Outcome State Fault Refusal := loadWord c t o sc d (.buf b i) s
/-- `ST` (R230). -/
def execSt (c : Ctl) (t : ITy) (o : Ordr) (sc : Scope) (b : BReg) (i : GReg) (x : Dat) (s : State) :
    Host.Outcome State Fault Refusal := storeWord c t o sc (.buf b i) x s
/-- `LDS` (R230). -/
def execLds (c : Ctl) (t : ITy) (o : Ordr) (sc : Scope) (d : Dat) (a : SpOp) (s : State) :
    Host.Outcome State Fault Refusal := loadWord c t o sc d (.sp a) s
/-- `STS` (R230). -/
def execSts (c : Ctl) (t : ITy) (o : Ordr) (sc : Scope) (a : SpOp) (x : Dat) (s : State) :
    Host.Outcome State Fault Refusal := storeWord c t o sc (.sp a) x s

/-- `PREF`: a hint; its lines are translated, and nothing else happens (R231). -/
def execPref (c : Ctl) (t : ITy) (b : BReg) (i : GReg) (s : State) : Host.Outcome State Fault Refusal :=
  s.word c { WordSpec.fixC 1 [.g i] with access := true } fun s p =>
    let g := s.curG
    let (s, l) := (AAddr.buf b i).spots s g Need.load 0 t.bytes p
    { Acted.of s (p.map fun j => (j, .done)) with trace := Spot.trace t.bytes l }

/-! ## Buffer-record loads (R232) -/

/-- The record of `BRLD` at an address, or the trap. -/
def State.readRecord (s : State) (g t : Nat) (a : W64) : State × (W256 ⊕ LaneRes) :=
  let x := a.toNat
  if x % 32 ≠ 0 then (s, .inr (.align x))
  else if bits x 63 48 ≠ 0 then (s, .inr (.bounds x))
  else match s.place g Need.load 0 x with
    | (s, .inr r) => (s, .inr r)
    | (s, .inl p) => match s.load t none p 32 x with
      | (s, .inr r) => (s, .inr r)
      | (s, .inl b) =>
        let r := BitVec.ofNat 256 (leVal b)
        match bufRecTrap r with
        | none => (s, .inl r)
        | some 1 => (s, .inr (.illegal s.cur.raw))
        | some cause => (s, .inr (.trap cause 0 a 0 none))

/-- `BRLD` (R232). DEDUCED: log entry 39. -/
def execBrld (c : Ctl) (d : BReg) (a : GReg) (off : BitVec 16) (s : State) : Host.Outcome State Fault Refusal :=
  s.once c { accessSpec [] with lead := [.g a] } fun s t =>
    let g := s.curG
    let va := s.g t a + off.signExtend 64
    match s.readRecord g t va with
    | (s, .inl r) => { Acted.of s [(0, .done)] with kind := .brld (s.grp g).wg d r, trace := [(va.toNat, 32)] }
    | (s, .inr r) => { Acted.of s [(0, r)] with trace := [(va.toNat, 32)] }

/-! ## Fences (R235) -/

/-- `FENCE`: a `.rw` takes its place in the order that all agents share; the pairs that the other kinds order within the thread reach no
other agent by themselves, and every access of the machine is performed when its word acts (R111–R113). DEDUCED: log entry 4. -/
def execFence (c : Ctl) (k : FKind) (sc : Scope) (s : State) : Host.Outcome State Fault Refusal :=
  s.inTurn c (.var .c []) fun s t => (if k = .rw then s.fenceBy t sc.code else s, .done)

/-- `VFENCE` (R119, R235). -/
def execVfence (c : Ctl) (sc : Scope) (s : State) : Host.Outcome State Fault Refusal :=
  s.inTurn c (.var .c []) fun s t => (s.vfenceBy t sc.code, .done)

/-- Discard the entries of a cluster's layout cache that belong to a group's context (R235). -/
def State.dropLayouts (s : State) (g : Nat) : State :=
  let r := s.grpRes g
  { s with layouts := s.layouts.filter fun e =>
      !(e.cluster == coreCluster (groupCore g) && e.asid == r.asid && e.world == r.world) }

/-- `LFENCE` (R121, R235). -/
def execLfence (c : Ctl) (s : State) : Host.Outcome State Fault Refusal :=
  s.inTurn c (.var .c []) fun s _ => (s.dropLayouts s.curG, .done)

/-! ## Atomics (R236–R238) -/

/-- The step of an atomic in one thread at a place: an `.ar` takes its place in the order of fences; the old value is read, combined, and
written back at once; the outcome is given by the old value and the flags (R108, R112, R115, R236). -/
def State.atomicSpot (s : State) (t w : Nat) (o : Ordr) (sc : Scope) (f : Nat → Nat × BitVec 5)
    (out : Nat → Option (BitVec 5) → List (RegId × RVal)) (q : Spot) : State × LaneRes :=
  match (match q with
    | .sp k a => (match s.spLoad k w a with | .inl _ => Except.ok (Space.sp, (List.range w).map (k + ·)) | .inr r => .error r)
    | .mem p va => (match s.latentAt p w with
      | none => .ok (Space.mem, spots p w)
      | some (code, pa) => .error (.mchk code (BitVec.ofNat 64 va) pa))
    | .drop => .error (.next (out 0 none))
    | .bad r => .error r) with
  | .error r => (s, r)
  | .ok (space, at_) =>
    let s := if o = .ar then s.fenceBy t sc.code else s
    let (s, b) := s.seeAtomic t sc.code (acquires o sc).isSome space at_
    let (n, fl) := f (leVal b)
    (s.writeSpot t w n (releases o sc) (some sc.code) q, .next (out (leVal b) (some fl)))

/-- The steps of an atomic in some lanes, ascending. -/
def atomicLanes (g w : Nat) (o : Ordr) (sc : Scope) (f : Nat → Nat → Nat × BitVec 5) (out : Nat → Option (BitVec 5) → List (RegId × RVal)) :
    List (Nat × Spot) → State → State × List (Nat × LaneRes)
  | [], s => (s, [])
  | (i, q) :: l, s =>
    let (s, r) := s.atomicSpot (tid g i) w o sc (f i) out (match q with | .mem (.view _ _ _) va => .bad (.bounds va) | q => q)
    let (s, rs) := atomicLanes g w o sc f out l s
    (s, (i, r) :: rs)

/-- An atomic of width `w` in the participants, ascending: `f` gives the new value and the flags from the old value and the
operand, `ext` what the destination receives (R236). -/
def atomicWord (c : Ctl) (w : Nat) (o : Ordr) (sc : Scope) (ext : Nat → W64) (flags : Bool) (d : Option GReg) (a : AAddr)
    (xs : List GReg) (f : Nat → List Nat → Nat × BitVec 5) (s : State) : Host.Outcome State Fault Refusal :=
  s.word c { accessSpec (a.regs ++ xs.map .g) with ends := true } fun s p =>
    let g := s.curG
    let vals := fun i => xs.map fun r => (s.g (tid g i) r).toNat % 2 ^ (8 * w)
    let (s1, l) := a.spots s g Need.atomic 2 w p
    let put := fun (x : Nat) => match d with | none => [] | some r => [(RegId.g r, RVal.w (ext x))]
    let (s2, out) := atomicLanes g w o sc (fun i old => f old (vals i))
      (fun old fl => put old ++ if flags then fl.toList.map fun f => (.s .fsr, .orF f) else []) (p.zip l) s1
    { Acted.of s2 out with trace := Spot.trace w l }

/-- An integer atomic: old value and operand under the type, the exact new value (R237). -/
def intAtomic (c : Ctl) (t : ITy) (o : Ordr) (sc : Scope) (d : Option GReg) (a : AAddr) (x : GReg) (f : Int → Int → Int) (s : State) :
    Host.Outcome State Fault Refusal :=
  let v := fun (n : Nat) => t.val (BitVec.ofNat 64 n)
  atomicWord c t.bytes o sc (fun o => t.ext (v o)) false d a [x] (fun o l => (wrapTo t.width (f (v o) (v (l.headD 0))), 0)) s

/-- `AADD` (R237). -/
def execAadd (c : Ctl) (t : ITy) (o : Ordr) (sc : Scope) (d : Option GReg) (a : AAddr) (x : GReg) (s : State) :
    Host.Outcome State Fault Refusal := intAtomic c t o sc d a x (· + ·) s
/-- `AMIN` (R237). -/
def execAmin (c : Ctl) (t : ITy) (o : Ordr) (sc : Scope) (d : Option GReg) (a : AAddr) (x : GReg) (s : State) :
    Host.Outcome State Fault Refusal := intAtomic c t o sc d a x min s
/-- `AMAX` (R237). -/
def execAmax (c : Ctl) (t : ITy) (o : Ordr) (sc : Scope) (d : Option GReg) (a : AAddr) (x : GReg) (s : State) :
    Host.Outcome State Fault Refusal := intAtomic c t o sc d a x max s
/-- `AAND` (R237). -/
def execAand (c : Ctl) (t : ITy) (o : Ordr) (sc : Scope) (d : Option GReg) (a : AAddr) (x : GReg) (s : State) :
    Host.Outcome State Fault Refusal := intAtomic c t o sc d a x (fun o v => ((o.toNat &&& v.toNat : Nat) : Int)) s
/-- `AOR` (R237). -/
def execAor (c : Ctl) (t : ITy) (o : Ordr) (sc : Scope) (d : Option GReg) (a : AAddr) (x : GReg) (s : State) :
    Host.Outcome State Fault Refusal := intAtomic c t o sc d a x (fun o v => ((o.toNat ||| v.toNat : Nat) : Int)) s
/-- `AXOR` (R237). -/
def execAxor (c : Ctl) (t : ITy) (o : Ordr) (sc : Scope) (d : Option GReg) (a : AAddr) (x : GReg) (s : State) :
    Host.Outcome State Fault Refusal := intAtomic c t o sc d a x (fun o v => ((o.toNat ^^^ v.toNat : Nat) : Int)) s
/-- `AXCHG` (R237). -/
def execAxchg (c : Ctl) (t : ITy) (o : Ordr) (sc : Scope) (d : Option GReg) (a : AAddr) (x : GReg) (s : State) :
    Host.Outcome State Fault Refusal := intAtomic c t o sc d a x (fun _ v => v) s
/-- `AINCW` (R237). -/
def execAincw (c : Ctl) (t : ITy) (o : Ordr) (sc : Scope) (d : Option GReg) (a : AAddr) (x : GReg) (s : State) :
    Host.Outcome State Fault Refusal := intAtomic c t o sc d a x (fun o v => if v ≤ o then 0 else o + 1) s

/-- `ACAS`: the even register of the pair holds the comparand, the odd one the new value (R237). -/
def execAcas (c : Ctl) (t : ITy) (o : Ordr) (sc : Scope) (d : Option GReg) (a : AAddr) (x : GReg) (s : State) :
    Host.Outcome State Fault Refusal :=
  atomicWord c t.bytes o sc (BitVec.ofNat 64) false d a [x, x + 1]
    (fun o l => (if o = l.headD 0 then l.getD 1 0 else o, 0)) s

/-- `AMAXRST` (R237, R238). -/
def execAmaxrst (c : Ctl) (t : MaxTy) (o : Ordr) (sc : Scope) (d : Option GReg) (a : AAddr) (x : GReg) (s : State) :
    Host.Outcome State Fault Refusal :=
  let ty : ITy := match t with
    | .f32 => .n32
    | .s32 => .s32
    | .s64 => .s64
    | .n32 => .n32
    | .n64 => .n64
  intAtomic c ty o sc d a x (fun _ v => v) s

/-- `AFADD` (R237). -/
def execAfadd (c : Ctl) (t : AFTy) (o : Ordr) (sc : Scope) (d : Option GReg) (a : AAddr) (x : GReg) (s : State) :
    Host.Outcome State Fault Refusal :=
  let k := match t with | .f32 => fdesc 1 | .bf16 => fdesc 2
  atomicWord c (k.w / 8) o sc (BitVec.ofNat 64) true d a [x]
    (fun o l => k.round .rne false (FVal.add .rne (k.dec o) (k.dec (l.headD 0)))) s

/-- The larger of two codes, the canonical NaN when either is a NaN (R237). -/
def FDesc.nanMax (d : FDesc) (a b : Nat) : Nat × BitVec 5 :=
  let x := d.dec a
  let y := d.dec b
  if x.isNan || y.isNan then (d.nan.getD 0, flagIf (x.isSig || y.isSig) flagNV) else d.minMax true a b

/-- `AFMAX` (R237). -/
def execAfmax (c : Ctl) (o : Ordr) (sc : Scope) (d : Option GReg) (a : AAddr) (x : GReg) (s : State) :
    Host.Outcome State Fault Refusal :=
  atomicWord c 4 o sc (BitVec.ofNat 64) true d a [x] (fun o l => fp32.nanMax o (l.headD 0)) s

/-! ## Loads into the scratchpad (R239) -/

/-- One lane of `LDX`: what it moves, from nowhere when it reads zero, its destination checked first (R239). -/
def ldxLane (g w : Nat) (rec : Nat → W256) (s0 : State) (x i : GReg) (y : Seen) (l : Nat) :
    Seen × ((Nat × Option Phys × Nat) ⊕ LaneRes) :=
  match s0.spCheck g w (s0.g (tid g l) x) with
  | .inr r => (y, .inr r)
  | .inl k => match bufSpot g Need.load 0 w (rec l) y (s0.g (tid g l) i) with
    | (y, .mem p va) => match y.st.latentAt p w with
      | some (code, pa) => (y, .inr (.mchk code (BitVec.ofNat 64 va) pa))
      | none => (y, .inl (k, some p, va))
    | (y, .bad r) => (y, .inr r)
    | (y, _) => (y, .inl (k, none, 0))

/-- The outstanding `LDX` in which a lane of a group parked, if it owes its part of one (R239). -/
def State.ldxOwed (s : State) (g i : Nat) : Option Nat :=
  (s.ops.find? fun o => o.group == g && (match o.kind with | .ldx _ _ _ m _ => m.getLsbD i | _ => false)).map (·.id)

/-- Give an outstanding `LDX` the part of one of its parked lanes: its move, or nothing when the lane trapped (R239). -/
def State.ldxReplay (s : State) (id i : Nat) (mv : Option (Nat × Option Phys × Nat)) : State :=
  { s with ops := s.ops.map fun o =>
      if o.id == id then
        match o.kind with
        | .ldx n b l m core => { o with
            lanes := o.lanes ||| (if mv.isSome then 1#32 <<< i else 0)
            kind := .ldx n b (l ++ mv.toList) (m &&& ~~~(1#32 <<< i)) core }
        | _ => o
      else o }

/-- Whether a lane parks. -/
def LaneRes.parks : LaneRes → Bool
  | .fault _ _ _ _ => true
  | _ => false

/-- `LDX` (R239): the parts of lanes that replay join the operation they parked in; the others enter one new operation of the
core's queue, with the arrival owed to it. Its completion for a counter is its entry. DEDUCED: log entry 19. -/
def execLdx (c : Ctl) (t : ITy) (n : Bar) (b : BReg) (i x : GReg) (s : State) : Host.Outcome State Fault Refusal :=
  let w : WordSpec := { accessSpec [.g i, .g x] with ends := true, lat := some 1 }
  match s.gate c w with
  | .hold => s.holdWord.out
  | _ => s.word { c with ctr := none } w fun s p =>
      let g := s.curG
      let owed := fun l => s.ldxOwed g l
      let (y, out) := Seen.each (ldxLane g t.bytes (fun l => s.bufRec (tid g l) b) s x i) p ⟨s, []⟩
      let parts := p.zip out
      let res := parts.map fun e => (e.1, match e.2 with | .inl _ => LaneRes.done | .inr r => r)
      let s1 := parts.foldl (fun s e => match owed e.1, e.2 with
        | some id, .inl mv => (s.pass (.agent (tid g e.1)) (.op id) [(tid g e.1, 4)]).ldxReplay id e.1 (some mv)
        | some id, .inr r => if r.parks then s else s.ldxReplay id e.1 none
        | none, _ => s) y.st
      let mine := parts.filter fun e => (owed e.1).isNone
      let moves := mine.filterMap fun e => match e.2 with | .inl mv => some mv | .inr _ => none
      let goes := maskOf (mine.filterMap fun e => match e.2 with | .inl _ => some e.1 | .inr _ => none)
      let parked := maskOf (mine.filterMap fun e => match e.2 with | .inr r => if r.parks then some e.1 else none | .inl _ => none)
      let s2 := if mine.isEmpty then s1
        else (s1.enterOp g goes none (some 6) (.ldx n t.bytes moves parked (groupCore g)) false).1
      { Acted.of s2 res with trace := moves.map fun m => (m.2.2, t.bytes) }

/-! ## Tile loads and stores (R233, R234, R445) -/

/-- The blocks of an m register's scale field: byte, an element of the block, and the rows it covers (R84). -/
def scaleBlocks (geom : Nat) : List (Nat × Nat × Nat × List Nat) :=
  match geom with
  | 1 => [(0, 0, 0, List.range 16), (1, 0, 16, List.range 16), (2, 16, 0, (List.range 16).map (· + 16)),
      (3, 16, 16, (List.range 16).map (· + 16))]
  | 2 => [(0, 0, 0, List.range 32)]
  | 3 => (List.range 32).map fun i => (i, i, 0, [i])
  | _ => []

/-- What a tile operation works on: the layout, whether it is transposed, and the tile's row and column (R233). -/
structure TileAt where
  lay : Layout
  t   : Bool
  tr  : Nat
  tc  : Nat
deriving DecidableEq, Repr

/-- The row and code column of the region that element (i, k) of the tile is (R234). -/
def TileAt.rc (x : TileAt) (i k : Nat) : Nat × Nat :=
  if x.t then (32 * x.tc + k, 32 * x.tr + i) else (32 * x.tr + i, 32 * x.tc + k)

/-- The virtual address of the bytes of row i of the tile, contiguous in its view (R63, R234). -/
def TileAt.rowVa (x : TileAt) (i : Nat) : Nat :=
  let (r, k) := x.rc i 0
  x.lay.elemVa (if x.t then 2 else 3) r (if x.lay.pairs then k / 2 else k)

/-- The bytes of a row of the tile. -/
def TileAt.rowLen (x : TileAt) : Nat := 32 * fmtWidth x.lay.fmt / 8

/-- Whether the coordinates of a tile fail the checks of R233. DEDUCED: log entry 28. -/
def coordBad (lay : Layout) (x : Nat) : Bool :=
  bits x 62 59 != 0 || bits x 31 27 != 0 || decide (lay.rt ≤ bits x 58 32) || decide (lay.codesP ≤ 32 * bits x 26 0)

/-- The checks of R233 on the coordinates, the geometry and the tag of a tile to be stored. DEDUCED: log entry 28. -/
def tileCheck (lay : Layout) (gc : W64) (src : Option Byte) : TileAt ⊕ LaneRes :=
  let x := gc.toNat
  let t := bitAt x 63
  let tr := bits x 58 32
  let tc := bits x 26 0
  if coordBad lay x || (t && (decide (lay.rt ≤ tc) || decide (lay.codesP ≤ 32 * tr))) then .inr (.bounds x)
  else if (t && (lay.geom == 3 || lay.pairs)) || (lay.geom == 3 && lay.saxis) then .inr (.format lay.tag.toNat)
  else match src with
    | some m => if m = lay.tag then .inl ⟨lay, t, tr, tc⟩ else .inr (.format m.toNat)
    | none => .inl ⟨lay, t, tr, tc⟩

/-- The places of the scale bytes that some rows of a tile need, or the outcome of their lines (R234). DEDUCED: log entry 29. -/
def tileScales (g : Nat) (n : Need) (acc : Nat) (x : TileAt) (rows : List Nat) (y : Seen) :
    Seen × List (Nat × List Nat × (Phys × Nat ⊕ LaneRes)) :=
  Seen.each (fun y (b : Nat × Nat × Nat × List Nat) =>
      let (r, k) := x.rc b.2.1 b.2.2.1
      let va := x.lay.scaleVa r k
      match y.place g n acc va with
      | (y, .inl p) => (y, (b.1, b.2.2.2, .inl (p, va)))
      | (y, .inr r) => (y, (b.1, b.2.2.2, .inr r)))
    ((scaleBlocks x.lay.geom).filter fun b => b.2.2.2.any rows.contains) y

/-- The places of some rows of a tile, or the outcomes of their lines; a bad scale byte stands for the rows it covers (R234). -/
def tileRows (g : Nat) (n : Need) (acc : Nat) (x : TileAt) (sc : List (Nat × List Nat × (Phys × Nat ⊕ LaneRes)))
    (rows : List Nat) (y : Seen) : Seen × List (Nat × (Phys × Nat ⊕ LaneRes)) :=
  Seen.each (fun y i =>
      match sc.findSome? fun b => (match b.2.2 with | .inr r => if b.2.1.contains i then some r else none | .inl _ => none) with
      | some r => (y, (i, .inr r))
      | none => match y.place g n acc (x.rowVa i) with
        | (y, .inl p) => (y, (i, .inl (p, x.rowVa i)))
        | (y, .inr r) => (y, (i, .inr r))) rows y

/-- Remember the tile word in the lanes that park on it, and forget it in the lanes that reach it again (R445). -/
def State.tileOwe (s : State) (g : Nat) (pc : W64) (res : List (Nat × LaneRes)) : State :=
  res.foldl (fun s e => s.modThr (tid g e.1) fun x => { x with
    tileAt := match e.2 with | .fault _ _ _ _ => some pc | _ => if x.tileAt = some pc then none else x.tileAt }) s

/-- The shared frame of `TLD` and `TST`: participation, from which lanes that replay towards the tile word they parked on are exempt,
handle, coordinates (R233, R445); `act` performs the rows. DEDUCED: log entry 29. DESIGN CHOICE: log entry 81. -/
def tileWord (c : Ctl) (h : Src) (xy : GReg) (m : Option MReg) (s : State)
    (act : Seen → TileAt → List Nat → Acted) : Host.Outcome State Fault Refusal :=
  let acc := if m.isSome then 1 else 0
  let need := if m.isSome then Need.store else Need.load
  s.word c { accessSpec [] with lead := h.regs ++ [.g xy], mreads := m.toList } fun s p =>
    let g := s.curG
    let pc := s.curPc
    let owing := p.all fun i => (s.thr (tid g i)).tileAt.isSome
    let all := fun (s : State) (r : LaneRes) => Acted.of (s.tileOwe g pc (p.map fun i => (i, r))) (p.map fun i => (i, r))
    if p.isEmpty then Acted.of s []
    else if p.length ≠ 32 ∧ !owing then all s (.illegal s.cur.raw)
    else match (⟨s, []⟩ : Seen).layout g need acc ((s.src (tid g (p.headD 0)) h).toNat % 2 ^ 32) with
      | (y, .inr r) => all y.st r
      | (y, .inl lay) => match tileCheck lay (s.g (tid g 0) xy) (m.map fun r => (s.readM g r).tag) with
        | .inr r => all y.st r
        | .inl x =>
          let a := act y x p
          { a with st := a.st.tileOwe g pc a.res }

/-- The scale bytes that the places of `tileScales` hold, as a thread reads them (R234). -/
def readScales (t : Nat) : List (Nat × List Nat × (Phys × Nat ⊕ LaneRes)) → State → State × List (Nat × List Nat × (Nat ⊕ LaneRes))
  | [], s => (s, [])
  | (i, rows, .inr r) :: l, s =>
    let (s, out) := readScales t l s
    (s, (i, rows, .inr r) :: out)
  | (i, rows, .inl (q, va)) :: l, s =>
    let (s, v) := s.load t none q 1 va
    let (s, out) := readScales t l s
    (s, (i, rows, match v with | .inl v => .inl (leVal v) | .inr r => .inr r) :: out)

/-- The bytes of some rows at their places, each as its lane reads it (R234). -/
def readRows (g n : Nat) : List (Nat × (Phys × Nat ⊕ LaneRes)) → State → State × List (Nat × (List Byte ⊕ LaneRes))
  | [], s => (s, [])
  | (i, .inr r) :: l, s =>
    let (s, out) := readRows g n l s
    (s, (i, .inr r) :: out)
  | (i, .inl (q, va)) :: l, s =>
    let (s, v) := s.load (tid g i) none q n va
    let (s, out) := readRows g n l s
    (s, (i, v) :: out)

/-- The scale places with the outcome of reading them. -/
def afterRead (sc : List (Nat × List Nat × (Phys × Nat ⊕ LaneRes))) (vals : List (Nat × List Nat × (Nat ⊕ LaneRes))) :
    List (Nat × List Nat × (Phys × Nat ⊕ LaneRes)) :=
  (sc.zip vals).map fun e => (e.1.1, e.1.2.1, match e.2.2.2 with | .inl _ => e.1.2.2 | .inr r => .inr r)

/-- The codes of a row from its bytes (R61, R84). -/
def rowCodes (w : Nat) (b : List Byte) : List Nat := (List.range 32).map fun k => bits (leVal b) (k * w + w - 1) (k * w)

/-- The scale field after a `TLD`: the bytes read, the earlier byte of a block that was not read, and 0 in the bytes that the geometry does
not use (R84, R445). -/
def loadedScale (geom : Nat) (old : W256) (vals : List (Nat × List Nat × (Nat ⊕ LaneRes))) : W256 :=
  scaleField ((List.range 32).map fun i => match vals.find? fun b => b.1 == i with
    | some (_, _, .inl v) => v
    | some (_, _, .inr _) => scaleByte old i
    | none => if (scaleBlocks geom).any fun b => b.1 == i then scaleByte old i else 0)

/-- The bytes of a row, or why it has none. -/
def rowOf (got : List (Nat × (List Byte ⊕ LaneRes))) (w i : Nat) : List Nat :=
  match got.find? fun e => e.1 == i with
  | some (_, .inl b) => rowCodes w b
  | _ => []

/-- `TLD` (R234, R445). -/
def execTld (c : Ctl) (d : MReg) (h : Src) (xy : GReg) (s : State) : Host.Outcome State Fault Refusal :=
  tileWord c h xy none s fun y x p =>
    let g := y.st.curG
    let old := y.st.readM g d
    let (y, sc) := tileScales g Need.load 0 x p y
    let (s, vals) := readScales (tid g (p.headD 0)) sc y.st
    let (y, rows) := tileRows g Need.load 0 x (afterRead sc vals) p ⟨s, y.lines⟩
    let (s, got) := readRows g x.rowLen rows y.st
    let res : List (Nat × LaneRes) := got.map fun e => (e.1, match e.2 with | .inl _ => .done | .inr r => r)
    let done := maskOf ((res.filter fun e => e.2 == .done).map (·.1))
    { Acted.of s res with
      m := if done = 0#32 then none else some (d, MVal.ofRows x.lay.tag (loadedScale x.lay.geom old.scale vals)
        ((List.range 32).map (rowOf got (fmtWidth x.lay.fmt))), done)
      trace := rows.map fun e => (x.rowVa e.1, x.rowLen) }

/-- `TST` (R234, R445). -/
def execTst (c : Ctl) (h : Src) (xy : GReg) (m : MReg) (s : State) : Host.Outcome State Fault Refusal :=
  tileWord c h xy (some m) s fun y x p =>
    let g := y.st.curG
    let v := y.st.readM g m
    let (y, sc) := tileScales g Need.store 1 x p y
    let (y, rows) := tileRows g Need.store 1 x sc p y
    let w := fmtWidth x.lay.fmt
    let s := rows.foldl (fun s e => match e.2 with
      | .inl (q, _) => s.writePhys (tid g e.1) q (leBytes ((v.row e.1).foldr (fun n y => n % 2 ^ w + 2 ^ w * y) 0) x.rowLen)
      | .inr _ => s) y.st
    let performed := rows.filterMap fun e => match e.2 with | .inl _ => some e.1 | .inr _ => none
    let s := sc.foldl (fun s b => match b.2.2 with
      | .inl (q, _) =>
        if b.2.1.any performed.contains then s.writePhys (tid g (p.headD 0)) q [BitVec.ofNat 8 (scaleByte v.scale b.1)] else s
      | .inr _ => s) s
    { Acted.of s (rows.map fun e => (e.1, match e.2 with | .inl _ => .done | .inr r => r)) with
      trace := rows.map fun e => (x.rowVa e.1, x.rowLen) }

end Sys2Proof.Machine
end

