-- ==== Sys2Proof/Machine/Crypto.lean ====
section
/-!
DEFINITION. The two functions that the boot names by their standards: SHAKE256 with a 256-bit output (R434), and the verification of
XMSS-SHAKE256_20_256 (R433). PRESUMED: log entry 85.
-/
namespace Sys2Proof.Machine

/-! ## SHAKE256: the sponge over Keccak-f[1600], rate 136 bytes, suffix 1111 -/

/-- The lane at (x, y) of a state of 25 lanes. -/
def keccakLane (a : List W64) (x y : Nat) : W64 := a.getD (5 * (y % 5) + x % 5) 0

/-- A state from its lanes. -/
def keccakTab (f : (x y : Nat) → W64) : List W64 := (List.range 25).map fun i => f (i % 5) (i / 5)

/-- The rotations of the lanes, lane (x, y) at 5y + x. -/
def keccakRot : List Nat := [0, 1, 62, 28, 27, 36, 44, 6, 55, 20, 3, 10, 43, 25, 39, 41, 45, 15, 21, 8, 18, 2, 61, 56, 14]

/-- The constants of the 24 rounds. -/
def keccakRound : List W64 := [
  0x0000000000000001, 0x0000000000008082, 0x800000000000808A, 0x8000000080008000, 0x000000000000808B, 0x0000000080000001,
  0x8000000080008081, 0x8000000000008009, 0x000000000000008A, 0x0000000000000088, 0x0000000080008009, 0x000000008000000A,
  0x000000008000808B, 0x800000000000008B, 0x8000000000008089, 0x8000000000008003, 0x8000000000008002, 0x8000000000000080,
  0x000000000000800A, 0x800000008000000A, 0x8000000080008081, 0x8000000000008080, 0x0000000080000001, 0x8000000080008008]

/-- One round of the permutation. -/
def keccakStep (a : List W64) (rc : W64) : List W64 :=
  let c := (List.range 5).map fun x => (List.range 5).foldl (fun s y => s ^^^ keccakLane a x y) 0#64
  let d := fun x => c.getD ((x + 4) % 5) 0 ^^^ (c.getD ((x + 1) % 5) 0).rotateLeft 1
  let b := (List.range 25).map fun i => ((a.getD i 0) ^^^ d (i % 5)).rotateLeft (keccakRot.getD i 0)
  -- lane (x, y) of what follows comes from lane (x + 3y, x)
  let p := keccakTab fun x y => keccakLane b (x + 3 * y) x
  let q := keccakTab fun x y => keccakLane p x y ^^^ (~~~(keccakLane p (x + 1) y) &&& keccakLane p (x + 2) y)
  match q with
  | [] => []
  | l :: q => (l ^^^ rc) :: q

/-- The permutation of 24 rounds. -/
def keccakF (a : List W64) : List W64 := keccakRound.foldl keccakStep a

/-- A state with one block of 136 bytes taken in. -/
def keccakAbsorb (a : List W64) (block : List Byte) : List W64 :=
  keccakF (a.zipIdx.map fun l => l.1 ^^^ BitVec.ofNat 64 (leVal ((block.drop (8 * l.2)).take 8)))

/-- A message with its padding: 1FH, zeros, and 80H on the last byte of a block. -/
def shakePad (m : List Byte) : List Byte :=
  let r := 135 - m.length % 136
  if r = 0 then m ++ [0x9F] else m ++ [0x1F] ++ List.replicate (r - 1) 0 ++ [0x80]

/-- The state after the blocks of a padded message. -/
def shakeAbsorb : (blocks : Nat) → List W64 → List Byte → List W64
  | 0, a, _ => a
  | n + 1, a, m => shakeAbsorb n (keccakAbsorb a (m.take 136)) (m.drop 136)

/-- SHAKE256 with 256 bits of output, as its 32 bytes in order. -/
def shake256 (m : List Byte) : List Byte :=
  let p := shakePad m
  ((shakeAbsorb (p.length / 136) (List.replicate 25 0) p).take 4).flatMap fun l => leBytes l.toNat 8

/-! ## XMSS with n = 32, w = 16 (67 chains) and height 20, over SHAKE256 -/

/-- The `n` bytes of a number, most significant first. -/
def beBytes (x n : Nat) : List Byte := (leBytes x n).reverse

/-- The number of bytes given most significant first. -/
def beVal (b : List Byte) : Nat := leVal b.reverse

/-- The keyed hashes: 0 for F, 1 for H, 2 for the message, 3 for the pseudorandom function. -/
def xmssHash (pad : Nat) (key m : List Byte) : List Byte := shake256 (beBytes pad 32 ++ key ++ m)

/-- The exclusive or of two strings of bytes. -/
def xorBytes (a b : List Byte) : List Byte := List.zipWith (· ^^^ ·) a b

/-- A hash address of layer 0 and tree 0: its type, three words of its kind, and which key or mask it makes. -/
def xmssAdrs (type a b c mask : Nat) : List Byte :=
  beBytes 0 12 ++ beBytes type 4 ++ beBytes a 4 ++ beBytes b 4 ++ beBytes c 4 ++ beBytes mask 4

/-- A chain from step `i` through `n` steps. -/
def xmssChain (seed : List Byte) (ots chain : Nat) : (n i : Nat) → List Byte → List Byte
  | 0, _, x => x
  | n + 1, i, x =>
    let prf := fun mask => xmssHash 3 seed (xmssAdrs 0 ots chain i mask)
    xmssChain seed ots chain n (i + 1) (xmssHash 0 (prf 0) (xorBytes x (prf 1)))

/-- The hash of two nodes at an address. -/
def xmssPair (seed : List Byte) (type a b c : Nat) (l r : List Byte) : List Byte :=
  let prf := fun mask => xmssHash 3 seed (xmssAdrs type a b c mask)
  xmssHash 1 (prf 0) (xorBytes l (prf 1) ++ xorBytes r (prf 2))

/-- One level of the tree over the ends of the chains; an odd last node goes up unchanged. -/
def xmssLevel (seed : List Byte) (ots height : Nat) : (i : Nat) → List (List Byte) → List (List Byte)
  | i, l :: r :: rest => xmssPair seed 1 ots height i l r :: xmssLevel seed ots height (i + 1) rest
  | _, rest => rest

/-- The root of the tree over the ends of the chains. -/
def xmssLeaf (seed : List Byte) (ots : Nat) : (fuel height : Nat) → List (List Byte) → List Byte
  | _, _, [x] => x
  | fuel + 1, h, l => xmssLeaf seed ots fuel (h + 1) (xmssLevel seed ots h 0 l)
  | 0, _, l => l.headD []

/-- The 67 digits of a digest: 64 of four bits, and three of their checksum. -/
def xmssDigits (d : List Byte) : List Nat :=
  let m := d.flatMap fun b => [b.toNat / 16, b.toNat % 16]
  let sum := 16 * m.foldl (fun a x => a + (15 - x)) 0
  m ++ [sum / 4096 % 16, sum / 256 % 16, sum / 16 % 16]

/-- The path from a leaf to the root, with the nodes beside it. -/
def xmssPath (seed : List Byte) : (height index : Nat) → List (List Byte) → List Byte → List Byte
  | _, _, [], node => node
  | h, i, a :: auth, node =>
    let up := if i % 2 = 0 then xmssPair seed 2 0 h (i / 2) node a else xmssPair seed 2 0 h (i / 2) a node
    xmssPath seed (h + 1) (i / 2) auth up

/-- The root that a signature gives for a digest. -/
def xmssRoot (seed : List Byte) (idx : Nat) (ots auth : List (List Byte)) (digest : List Byte) : List Byte :=
  let ends := ((xmssDigits digest).zip ots).zipIdx.map fun x => xmssChain seed idx x.2 (15 - x.1.1) x.1.1 x.1.2
  xmssPath seed 0 idx auth (xmssLeaf seed idx 7 0 ends)

/-- Whether a signature of 2,820 bytes verifies a message under a key of 64 bytes, root before seed (R433). -/
def xmssVerify (key message sig : List Byte) : Bool :=
  let root := key.take 32
  let idx := beVal (sig.take 4)
  let node := fun n => (sig.drop (36 + 32 * n)).take 32
  let digest := xmssHash 2 ((sig.drop 4).take 32 ++ root ++ beBytes idx 32) message
  xmssRoot (key.drop 32) idx ((List.range 67).map node) ((List.range 20).map fun k => node (67 + k)) digest == root

end Sys2Proof.Machine
end

