-- ==== Sys2Proof/Machine/Integer.lean ====
section
/-!
DEFINITION. The integer, bit, predicate and special-register instructions of class 0 (R185–R194).
-/
namespace Sys2Proof.Machine

/-- An integer operation of one source (R185). -/
def int1 (c : Ctl) (t : ITy) (d : GReg) (a : Src) (f : Int → Int) (s : State) : Host.Outcome State Fault Refusal :=
  s.perLane c (.fixA 2 a.regs) fun i => .next [(.g d, .w (t.ext (f (t.val (s.src i a)))))]

/-- An integer operation of two sources (R185). -/
def int2 (lat : Nat) (c : Ctl) (t : ITy) (d : GReg) (a b : Src) (f : Int → Int → Int) (s : State) :
    Host.Outcome State Fault Refusal :=
  s.perLane c (.fixA lat (a.regs ++ b.regs)) fun i => .next [(.g d, .w (t.ext (f (t.val (s.src i a)) (t.val (s.src i b)))))]

end Sys2Proof.Machine
namespace Sys2Proof
open Machine

/-- The low w bits of a value as a natural number. -/
def ITy.nat (t : ITy) (y : Int) : Nat := wrapTo t.width y

/-- The number of a shift: b read as natural, modulo w (R186). -/
def ITy.amount (t : ITy) (b : Int) : Nat := t.nat b % t.width

/-- Bitwise operations on the low w bits. -/
def ITy.bitOp (t : ITy) (f : Nat → Nat → Nat) (a b : Int) : Int := ((f (t.nat a) (t.nat b) : Nat) : Int)

end Sys2Proof
namespace Sys2Proof.Machine

/-- The reverse of the low w bits (R186). -/
def revBits (w x : Nat) : Nat := (List.range w).foldl (fun y i => y + (if x.testBit i then 2 ^ (w - 1 - i) else 0)) 0

/-- The number of leading zeros of the low w bits (R186). -/
def leadZeros (w x : Nat) : Nat := (List.range w).foldl (fun n i => if x.testBit i then w - 1 - i else n) w

/-- The m bits of the field of `BFX` and `BFI` (R187). -/
def fieldLen (w f : Nat) : Nat := if bits f 5 0 < w then min (bits f 14 8) (w - bits f 5 0) else 0

/-- `ADD` (R186). -/
def execAdd (c : Ctl) (t : ITy) (d : GReg) (a b : Src) (s : State) : Host.Outcome State Fault Refusal :=
  int2 2 c t d a b (fun x y => x + y) s
/-- `SUB` (R186). -/
def execSub (c : Ctl) (t : ITy) (d : GReg) (a b : Src) (s : State) : Host.Outcome State Fault Refusal :=
  int2 2 c t d a b (fun x y => x - y) s
/-- `MUL` (R186). -/
def execMul (c : Ctl) (t : ITy) (d : GReg) (a b : Src) (s : State) : Host.Outcome State Fault Refusal :=
  int2 4 c t d a b (fun x y => x * y) s
/-- `MULH` (R186). -/
def execMulh (c : Ctl) (t : ITy) (d : GReg) (a b : Src) (s : State) : Host.Outcome State Fault Refusal :=
  int2 4 c t d a b (fun x y => (x * y) / (2 ^ t.width : Int)) s
/-- `MAD` (R186). -/
def execMad (c : Ctl) (t : ITy) (d : GReg) (a b x : Src) (s : State) : Host.Outcome State Fault Refusal :=
  s.perLane c (.fixA 4 (a.regs ++ b.regs ++ x.regs)) fun i =>
    .next [(.g d, .w (t.ext (t.val (s.src i a) * t.val (s.src i b) + t.val (s.src i x))))]
/-- `MIN` (R186). -/
def execMin (c : Ctl) (t : ITy) (d : GReg) (a b : Src) (s : State) : Host.Outcome State Fault Refusal :=
  int2 2 c t d a b (fun x y => if x ≤ y then x else y) s
/-- `MAX` (R186). -/
def execMax (c : Ctl) (t : ITy) (d : GReg) (a b : Src) (s : State) : Host.Outcome State Fault Refusal :=
  int2 2 c t d a b (fun x y => if x ≤ y then y else x) s
/-- `ABS` (R186). -/
def execAbs (c : Ctl) (t : ITy) (d : GReg) (a : Src) (s : State) : Host.Outcome State Fault Refusal :=
  int1 c t d a (fun x => if x < 0 then -x else x) s
/-- `NEG` (R186). -/
def execNeg (c : Ctl) (t : ITy) (d : GReg) (a : Src) (s : State) : Host.Outcome State Fault Refusal :=
  int1 c t d a (fun x => -x) s
/-- `AND` (R186). -/
def execAnd (c : Ctl) (t : ITy) (d : GReg) (a b : Src) (s : State) : Host.Outcome State Fault Refusal :=
  int2 2 c t d a b (t.bitOp (· &&& ·)) s
/-- `OR` (R186). -/
def execOr (c : Ctl) (t : ITy) (d : GReg) (a b : Src) (s : State) : Host.Outcome State Fault Refusal :=
  int2 2 c t d a b (t.bitOp (· ||| ·)) s
/-- `XOR` (R186). -/
def execXor (c : Ctl) (t : ITy) (d : GReg) (a b : Src) (s : State) : Host.Outcome State Fault Refusal :=
  int2 2 c t d a b (t.bitOp (· ^^^ ·)) s
/-- `ANDN`: a and not b (R186). -/
def execAndn (c : Ctl) (t : ITy) (d : GReg) (a b : Src) (s : State) : Host.Outcome State Fault Refusal :=
  int2 2 c t d a b (t.bitOp fun x y => x &&& (2 ^ t.width - 1 - y)) s
/-- `NOT` (R186). -/
def execNot (c : Ctl) (t : ITy) (d : GReg) (a : Src) (s : State) : Host.Outcome State Fault Refusal :=
  int1 c t d a (fun x => -x - 1) s
/-- `SHL` (R186). -/
def execShl (c : Ctl) (t : ITy) (d : GReg) (a b : Src) (s : State) : Host.Outcome State Fault Refusal :=
  int2 2 c t d a b (fun x y => x * 2 ^ t.amount y) s
/-- `SHR` (R186). -/
def execShr (c : Ctl) (t : ITy) (d : GReg) (a b : Src) (s : State) : Host.Outcome State Fault Refusal :=
  int2 2 c t d a b (fun x y => (t.nat x : Int) / 2 ^ t.amount y) s
/-- `SAR`: right, copying bit w − 1 (R186). -/
def execSar (c : Ctl) (t : ITy) (d : GReg) (a b : Src) (s : State) : Host.Outcome State Fault Refusal :=
  int2 2 c t d a b (fun x y => sval t.width (t.nat x) / 2 ^ t.amount y) s
/-- `ROL` (R186). -/
def execRol (c : Ctl) (t : ITy) (d : GReg) (a b : Src) (s : State) : Host.Outcome State Fault Refusal :=
  int2 2 c t d a b (fun x y => ((t.nat x * 2 ^ t.amount y + t.nat x / 2 ^ (t.width - t.amount y) : Nat) : Int)) s
/-- `POPC` (R186). -/
def execPopc (c : Ctl) (t : ITy) (d : GReg) (a : Src) (s : State) : Host.Outcome State Fault Refusal :=
  int1 c t d a (fun x => (popBelow (t.nat x) t.width : Int)) s
/-- `CLZ` (R186). -/
def execClz (c : Ctl) (t : ITy) (d : GReg) (a : Src) (s : State) : Host.Outcome State Fault Refusal :=
  int1 c t d a (fun x => (leadZeros t.width (t.nat x) : Int)) s
/-- `BREV` (R186). -/
def execBrev (c : Ctl) (t : ITy) (d : GReg) (a : Src) (s : State) : Host.Outcome State Fault Refusal :=
  int1 c t d a (fun x => (revBits t.width (t.nat x) : Int)) s

/-- The field of `BFX`, sign-extended for `.s` (R187). -/
def bfxVal (t : ITy) (a f : Nat) : Int :=
  let m := fieldLen t.width f
  let x := (a % 2 ^ t.width / 2 ^ bits f 5 0) % 2 ^ m
  if m = 0 then 0 else if t.signed then sval m x else (x : Int)

/-- The value of `BFI`: b with the field replaced by the low bits of a (R187). -/
def bfiVal (t : ITy) (a b f : Nat) : Nat :=
  let m := fieldLen t.width f
  let pos := bits f 5 0
  let b := b % 2 ^ t.width
  if m = 0 then b else setBits b (pos + m - 1) pos (a % 2 ^ m)

/-- `BFX` (R187). -/
def execBfx (c : Ctl) (t : ITy) (d : GReg) (a b : Src) (s : State) : Host.Outcome State Fault Refusal :=
  s.perLane c (.fixA 2 (a.regs ++ b.regs)) fun i => .next [(.g d, .w (t.ext (bfxVal t (s.src i a).toNat (s.src i b).toNat)))]
/-- `BFI` (R187). -/
def execBfi (c : Ctl) (t : ITy) (d : GReg) (a b x : Src) (s : State) : Host.Outcome State Fault Refusal :=
  s.perLane c (.fixA 2 (a.regs ++ b.regs ++ x.regs)) fun i =>
    .next [(.g d, .w (t.ext (bfiVal t (s.src i a).toNat (s.src i b).toNat (s.src i x).toNat)))]
/-- `SEL` (R190). -/
def execSel (c : Ctl) (t : ITy) (d : GReg) (a b : Src) (p : PReg) (s : State) : Host.Outcome State Fault Refusal :=
  s.perLane c (.fixA 2 (a.regs ++ b.regs ++ [.p p])) fun i =>
    .next [(.g d, .w (t.ext (if s.p i p then t.val (s.src i a) else t.val (s.src i b))))]
/-- `MOV`; under `.b128` of a pair, or of a source zero-extended to 128 bits (R185, R186). -/
def execMov (c : Ctl) (t : ITy) (d : GReg) (a : Src) (s : State) : Host.Outcome State Fault Refusal :=
  if t = .b128 then
    match a with
    | .g r => s.perLane c (.fixA 2 (pairRegs r)) fun i => .next [(.g d, .w (s.g i r)), (.g (d + 1), .w (s.g i (r + 1)))]
    | a => s.perLane c (.fixA 2 []) fun i => .next [(.g d, .w (s.src i a)), (.g (d + 1), .w 0)]
  else int1 c t d a id s
/-- `MOVL` (R190). -/
def execMovl (c : Ctl) (d : GReg) (value : W64) (s : State) : Host.Outcome State Fault Refusal :=
  s.perLane c (.fixA 2 []) fun _ => .next [(.g d, .w value)]


/-- `CMP` (R188). -/
def execCmp (c : Ctl) (k : CmpOp) (t : ITy) (d : PReg) (a b : Src) (s : State) : Host.Outcome State Fault Refusal :=
  s.perLane c (.fixA 2 (a.regs ++ b.regs)) fun i => .next [(.p d, .p (k.int (t.val (s.src i a)) (t.val (s.src i b))))]

end Sys2Proof.Machine
namespace Sys2Proof
open Machine

/-- A predicate operation (R168). -/
def LogOp.app : LogOp → Bool → Bool → Bool
  | .and, a, b => a && b
  | .or, a, b => a || b
  | .xor, a, b => a != b

end Sys2Proof
namespace Sys2Proof.Machine

/-- `PLOP` (R189). -/
def execPlop (c : Ctl) (op : LogOp) (d a b : PReg) (na nb : Bool) (s : State) : Host.Outcome State Fault Refusal :=
  s.perLane c (.fixA 2 [.p a, .p b]) fun i => .next [(.p d, .p (op.app (s.p i a != na) (s.p i b != nb)))]

/-! ## Special registers (R191–R193) -/

/-- The writable special register at an index (R152). -/
def sregAt : Nat → Option Sreg
  | 43 => some .srs
  | 44 => some .fsr
  | 45 => some .hp
  | 46 => some .hb
  | 47 => some .tr
  | 48 => some .ovb
  | 49 => some .ovt
  | 50 => some .ovl
  | 51 => some .chb
  | 52 => some .chp
  | 53 => some .shb
  | 54 => some .steps
  | 55 => some .re
  | 56 => some .rc
  | _ => none

/-- A barrier snapshot (R193). -/
def Barrier.word (x : Barrier) : W64 :=
  BitVec.ofNat 64 (x.count.toNat + 2 ^ 16 * x.expected.toNat + (if x.parity then 2 ^ 32 else 0))

/-- Whether a special register of a bow core reads zero and ignores writes: `srs` and 45–54 (R192). -/
def bowBlind (g : Nat) (r : SReg) : Bool := isBow (groupCore g) && (r == 43#6 || (decide (45 ≤ r.toNat) && decide (r.toNat ≤ 54)))

/-- The value that `RDS` reads in a thread (R192, R193). -/
def State.rdsVal (s : State) (t : Nat) (r : SReg) : W64 :=
  let g := threadGroup t
  let k := groupCore g
  let n := r.toNat
  let nat := BitVec.ofNat 64
  if n < 16 then (if isBow k then 0 else (s.bar g (.nb (BitVec.ofNat 4 n))).word)
  else if n < 32 then (s.bar g (.kb (BitVec.ofNat 4 (n - 16)))).word
  else if bowBlind g r then 0
  else match sregAt n with
    | some x => s.sr t x
    | none =>
      match n with
      | 36 => nat (threadLane t)
      | 37 => nat (groupSlot g)
      | 38 => nat (coreNum k)
      | 39 => nat (coreCluster k)
      | 40 => nat (bits (s.grp g).bind.toNat 255 224)
      | 41 => nat t
      | 42 => nat ((s.grpCl g).phase % 2 ^ 32)
      | 57 => (s.grp g).ecnt
      | 58 => nat ((if (s.grp g).pp then 1 else 0) + (if (s.grp g).sc then 2 else 0))
      | _ => 0

/-- The registers that `RDS` and `WRS` touch and the scoreboard knows. -/
def sregRegs (r : SReg) : List RegId := match sregAt r.toNat with | some x => [.s x] | none => []

/-- `RDS` (R191). -/
def execRds (c : Ctl) (d : GReg) (r : SReg) (s : State) : Host.Outcome State Fault Refusal :=
  s.perLane c (.fixA 2 (sregRegs r)) fun t => .next [(.g d, .w (s.rdsVal t r))]

/-- What `WRS` writes: the register as its width; a register marked RO ignores the write; `fsr` is replaced at issue (R191,
R194). -/
def wrsWrites (g : Nat) (r : SReg) (x : W64) : List (RegId × RVal) :=
  if bowBlind g r then []
  else match sregAt r.toNat with
    | some .re => []
    | some .rc => []
    | some .srs => [(.s .srs, .w (x &&& 0xFFFFFFFF#64))]
    | some .fsr => [(.s .fsr, .w (x &&& 0x1F#64))]
    | some y => [(.s y, .w x)]
    | none => []

/-- `WRS` (R191, R194). -/
def execWrs (c : Ctl) (r : SReg) (a : Src) (s : State) : Host.Outcome State Fault Refusal :=
  s.perLane c (.fixA 2 a.regs) fun t => .next (wrsWrites (threadGroup t) r (s.src t a))

/-! ## Lane operations (R195–R200) -/

/-- A lane operation: each participant's result from the participants and its own lane. -/
def laneOp (c : Ctl) (reads : List RegId) (s : State) (f : List Nat → Nat → List (RegId × RVal)) : Host.Outcome State Fault Refusal :=
  s.word c (.fixA 6 reads) fun s p => Acted.of s (p.map fun i => (i, .next (f p i)))

end Sys2Proof.Machine
namespace Sys2Proof
open Machine

/-- The source lane of `SHFL` (R196). -/
def ShMode.lane : ShMode → Nat → Nat → Option Nat
  | .idx, _, b => some (b % 32)
  | .up, l, b => if b ≤ l then some (l - b) else none
  | .down, l, b => if l + b < 32 then some (l + b) else none
  | .xor, l, b => some (l ^^^ (b % 32))

end Sys2Proof
namespace Sys2Proof.Machine

/-- `SHFL` (R196). -/
def execShfl (c : Ctl) (m : ShMode) (t : ITy) (d : GReg) (a b : Src) (s : State) : Host.Outcome State Fault Refusal :=
  laneOp c (a.regs ++ b.regs) s fun p l =>
    let g := s.curG
    let j := match m.lane l (t.nat (t.val (s.src (tid g l) b))) with
      | some j => if p.contains j then j else l
      | none => l
    [(.g d, .w (t.ext (t.val (s.src (tid g j) a))))]

/-- `BCAST` (R197). -/
def execBcast (c : Ctl) (t : ITy) (d : GReg) (a b : Src) (s : State) : Host.Outcome State Fault Refusal :=
  laneOp c (a.regs ++ b.regs) s fun p _ =>
    let g := s.curG
    let low := p.headD 0
    let j := t.nat (t.val (s.src (tid g low) b)) % 32
    [(.g d, .w (t.ext (t.val (s.src (tid g (if p.contains j then j else low)) a))))]

/-- The mask of lanes as a general register holds it (R198, R199). -/
def maskW (l : List Nat) : W64 := (maskOf l).zeroExtend 64

/-- `VOTE` (R198). -/
def execVote (c : Ctl) (f : VoteForm) (s : State) : Host.Outcome State Fault Refusal :=
  let g := s.curG
  match f with
  | .all d a => laneOp c [.p a] s fun p _ => [(.p d, .p (p.all fun j => s.p (tid g j) a))]
  | .any d a => laneOp c [.p a] s fun p _ => [(.p d, .p (p.any fun j => s.p (tid g j) a))]
  | .bal d a comb => laneOp c ([.p a] ++ (match comb with | none => [] | some (_, b) => [.p b])) s fun p _ =>
      [(.g d, .w (maskW (p.filter fun j => match comb with
        | none => s.p (tid g j) a
        | some (op, b) => op.app (s.p (tid g j) a) (s.p (tid g j) b))))]

/-- `MATCH` (R199). -/
def execMatchLanes (c : Ctl) (t : ITy) (d : GReg) (a : Src) (s : State) : Host.Outcome State Fault Refusal :=
  laneOp c a.regs s fun p l =>
    let g := s.curG
    [(.g d, .w (maskW (p.filter fun j => t.nat (t.val (s.src (tid g j) a)) == t.nat (t.val (s.src (tid g l) a)))))]

end Sys2Proof.Machine
namespace Sys2Proof
open Machine

/-- The identity of a lane operation (R200). -/
def LaneOp.unit (t : ITy) : LaneOp → Int
  | .add | .or | .xor => 0
  | .and => 2 ^ t.width - 1
  | .min => if t.signed then 2 ^ (t.width - 1) - 1 else 2 ^ t.width - 1
  | .max => if t.signed then -(2 ^ (t.width - 1)) else 0

/-- The combination of two values (R200); addition wraps when the result is written. -/
def LaneOp.app (t : ITy) : LaneOp → Int → Int → Int
  | .add, x, y => x + y
  | .min, x, y => if x ≤ y then x else y
  | .max, x, y => if x ≤ y then y else x
  | .and, x, y => t.bitOp (· &&& ·) x y
  | .or, x, y => t.bitOp (· ||| ·) x y
  | .xor, x, y => t.bitOp (· ^^^ ·) x y

/-- The combination over some lanes (R200). -/
def LaneOp.over (op : LaneOp) (t : ITy) (l : List Int) : W64 := t.ext (l.foldl (op.app t) (op.unit t))

end Sys2Proof
namespace Sys2Proof.Machine

/-- `SCAN` (R200). -/
def execScan (c : Ctl) (op : LaneOp) (t : ITy) (exc : Bool) (d : GReg) (a : Src) (s : State) : Host.Outcome State Fault Refusal :=
  laneOp c a.regs s fun p l =>
    [(.g d, .w (op.over t ((p.filter fun j => if exc then decide (j < l) else decide (j ≤ l)).map fun j =>
      t.val (s.src (tid s.curG j) a))))]

/-- `REDUX` (R200). -/
def execRedux (c : Ctl) (op : LaneOp) (t : ITy) (d : GReg) (a : Src) (s : State) : Host.Outcome State Fault Refusal :=
  laneOp c a.regs s fun p _ => [(.g d, .w (op.over t (p.map fun j => t.val (s.src (tid s.curG j) a))))]

end Sys2Proof.Machine
end

