-- ==== Sys2Proof/Machine/Vector.lean ====
section
/-!
DEFINITION. Class 1: vector arithmetic, conversions, tags, quantisation and codebooks (R201–R223).
-/
namespace Sys2Proof.Machine

/-- The registers that a rounding mode reads beside the sources (R194). -/
def rndRegs (r : Rnd) : List RegId := if r = .rs then [.s .srs] else []

/-- The writes of a vector result: the register with its tag, the flags, and under `.rs` the generator (R194, R201). -/
def vWrites (d : VReg) (r : Rnd) (tag : Byte) (w : Nat) (x : Rounded) : List (RegId × RVal) :=
  [(.v d, .v ⟨vJoin w x.codes, tag⟩), (.s .fsr, .orF x.flags)] ++
    if r = .rs then [(.s .srs, .w (x.srs.zeroExtend 64))] else []

/-- The tag of a source that does not carry the tag of a format (R205). -/
def badTag (f : FFmt) (xs : List VVal) : Option Byte := (xs.find? fun x => x.tag != mkTag f.code.toNat 0 0).map (·.tag)

/-- An elementwise operation of one to three sources of one format (R205): `op` gives the exact result of one element. -/
def vecOp (lat : Nat) (c : Ctl) (f : FFmt) (r : Rnd) (d : VReg) (srcs : List VReg) (op : List FVal → Exact) (s : State) :
    Host.Outcome State Fault Refusal :=
  s.perLane c (.fixC lat (srcs.map .v ++ rndRegs r)) fun t =>
    let xs := srcs.map (s.v t)
    match badTag f xs with
    | some t => .format t.toNat
    | none =>
      let k := fdesc f.code.toNat
      let es := xs.map fun x => vElems k.w x.bits
      let exact := (List.range (128 / k.w)).map fun j => op (es.map fun l => k.dec (l.getD j 0))
      .next (vWrites d r (mkTag f.code.toNat 0 0) k.w (k.roundAll r false ((s.sr t .srs).truncate 32) exact))

/-- An elementwise operation that delivers codes of its own format with flags (R206, R208). -/
def vecCode (lat : Nat) (c : Ctl) (f : FFmt) (d : VReg) (srcs : List VReg) (op : FDesc → List Nat → Nat × BitVec 5) (s : State) :
    Host.Outcome State Fault Refusal :=
  s.perLane c (.fixC lat (srcs.map .v)) fun t =>
    let xs := srcs.map (s.v t)
    match badTag f xs with
    | some t => .format t.toNat
    | none =>
      let k := fdesc f.code.toNat
      let es := xs.map fun x => vElems k.w x.bits
      let out := (List.range (128 / k.w)).map fun j => op k (es.map fun l => l.getD j 0)
      .next (vWrites d .rne (mkTag f.code.toNat 0 0) k.w ⟨out.map (·.1), out.foldl (fun y x => y ||| x.2) 0, 0⟩)

/-- The element of a source of an elementwise operation. -/
def el (l : List FVal) (i : Nat) : FVal := l.getD i (.num false 0 0)

/-! ## Arithmetic (R205–R207) -/

/-- `FADD` (R205). -/
def execFadd (c : Ctl) (f : FFmt) (r : Rnd) (d a b : VReg) (s : State) : Host.Outcome State Fault Refusal :=
  vecOp 4 c f r d [a, b] (fun l => FVal.add r (el l 0) (el l 1)) s
/-- `FSUB` (R205). -/
def execFsub (c : Ctl) (f : FFmt) (r : Rnd) (d a b : VReg) (s : State) : Host.Outcome State Fault Refusal :=
  vecOp 4 c f r d [a, b] (fun l => FVal.add r (el l 0) (el l 1).neg) s
/-- `FMUL` (R205). -/
def execFmul (c : Ctl) (f : FFmt) (r : Rnd) (d a b : VReg) (s : State) : Host.Outcome State Fault Refusal :=
  vecOp 4 c f r d [a, b] (fun l => FVal.mul (el l 0) (el l 1)) s
/-- `FFMA`: one rounding (R205). -/
def execFfma (c : Ctl) (f : FFmt) (r : Rnd) (d a b x : VReg) (s : State) : Host.Outcome State Fault Refusal :=
  vecOp 4 c f r d [a, b, x] (fun l => FVal.fma r (el l 0) (el l 1) (el l 2)) s
/-- `FMIN` (R206). -/
def execFmin (c : Ctl) (f : FFmt) (d a b : VReg) (s : State) : Host.Outcome State Fault Refusal :=
  vecCode 4 c f d [a, b] (fun k l => k.minMax false (l.getD 0 0) (l.getD 1 0)) s
/-- `FMAX` (R206). -/
def execFmax (c : Ctl) (f : FFmt) (d a b : VReg) (s : State) : Host.Outcome State Fault Refusal :=
  vecCode 4 c f d [a, b] (fun k l => k.minMax true (l.getD 0 0) (l.getD 1 0)) s
/-- `FAMAX` (R206). -/
def execFamax (c : Ctl) (f : FFmt) (d a b : VReg) (s : State) : Host.Outcome State Fault Refusal :=
  vecCode 4 c f d [a, b] (fun k l => k.absMax (l.getD 0 0) (l.getD 1 0)) s

/-- `FCMP`: bit j of the result holds the comparison of element j (R207). -/
def execFcmp (c : Ctl) (k : CmpOp) (f : FFmt) (d : GReg) (a b : VReg) (s : State) : Host.Outcome State Fault Refusal :=
  s.perLane c (.fixC 4 [.v a, .v b]) fun t =>
    let x := s.v t a
    let y := s.v t b
    match badTag f [x, y] with
    | some t => .format t.toNat
    | none =>
      let n := fdesc f.code.toNat
      let out := ((vElems n.w x.bits).zip (vElems n.w y.bits)).map fun e => k.float (n.dec e.1) (n.dec e.2)
      let w := out.zipIdx.foldl (fun m e => if e.1.1 then m + 2 ^ e.2 else m) 0
      .next [(.g d, .w (BitVec.ofNat 64 w)), (.s .fsr, .orF (out.foldl (fun z e => z ||| e.2) 0))]

/-! ## Reciprocal, roots and transcendental functions (R208, R209) -/

/-- `FRCP` (R208). -/
def execFrcp (c : Ctl) (f : FFmt) (r : Rnd) (d a : VReg) (s : State) : Host.Outcome State Fault Refusal :=
  vecOp 12 c f r d [a] (fun l => (el l 0).rcp) s
/-- `FRSQ` (R208). -/
def execFrsq (c : Ctl) (f : FFmt) (r : Rnd) (d a : VReg) (s : State) : Host.Outcome State Fault Refusal :=
  vecOp 12 c f r d [a] (fun l => (el l 0).rsq) s
/-- `FSQRT` (R208). -/
def execFsqrt (c : Ctl) (f : FFmt) (r : Rnd) (d a : VReg) (s : State) : Host.Outcome State Fault Refusal :=
  vecOp 12 c f r d [a] (fun l => (el l 0).sqrt) s
/-- `FEXP2` (R208). -/
def execFexp2 (c : Ctl) (f : FFmt) (d a : VReg) (s : State) : Host.Outcome State Fault Refusal :=
  vecCode 12 c f d [a] (fun k l => k.transcend 0 (l.getD 0 0) (k.dec (l.getD 0 0)).exp2) s
/-- `FLOG2` (R208). -/
def execFlog2 (c : Ctl) (f : FFmt) (d a : VReg) (s : State) : Host.Outcome State Fault Refusal :=
  vecCode 12 c f d [a] (fun k l => k.transcend 1 (l.getD 0 0) (k.dec (l.getD 0 0)).log2) s
/-- `FTANH` (R208). -/
def execFtanh (c : Ctl) (f : FFmt) (d a : VReg) (s : State) : Host.Outcome State Fault Refusal :=
  vecCode 12 c f d [a] (fun k l => k.transcend 2 (l.getD 0 0) (k.dec (l.getD 0 0)).tanh) s

/-! ## Reduction across lanes (R96, R210) -/

/-- Combine neighbours: one level of the tree. -/
def pairUp {α : Type} (f : α → α → α) : List α → List α
  | a :: b :: l => f a b :: pairUp f l
  | l => l

end Sys2Proof.Machine
namespace Sys2Proof
open Machine

/-- What a lane outside the participants contributes (R96, R210). -/
def RedOp.unit (k : FDesc) : RedOp → Nat
  | .add => k.signed true 0
  | .min => k.inf.getD 0
  | .max => k.signed true (k.inf.getD 0)

/-- One node of the tree: codes with the flags gathered so far (R96, R210). -/
def RedOp.node (op : RedOp) (k : FDesc) (r : Rnd) (a b : Nat × BitVec 5) : Nat × BitVec 5 :=
  let x := match op with
    | .add => k.round r false (FVal.add r (k.dec a.1) (k.dec b.1))
    | .min => k.minMax false a.1 b.1
    | .max => k.minMax true a.1 b.1
  (x.1, a.2 ||| b.2 ||| x.2)

/-- The tree over the 32 lanes (R96). -/
def RedOp.tree (op : RedOp) (k : FDesc) (r : Rnd) (l : List Nat) : Nat × BitVec 5 :=
  let f := pairUp (op.node k r)
  (f (f (f (f (f (l.map fun c => (c, 0#5))))))).headD (0, 0)

end Sys2Proof
namespace Sys2Proof.Machine

/-- `FRED` (R210). -/
def execFred (c : Ctl) (op : RedOp) (f : FFmt) (r : Rnd) (d a : VReg) (s : State) : Host.Outcome State Fault Refusal :=
  s.word c (.fixC 10 [.v a]) fun s p =>
    let g := s.curG
    let k := fdesc f.code.toNat
    let src := fun i => s.v (tid g i) a
    let good := p.filter fun i => (badTag f [src i]).isNone
    let out := (List.range (128 / k.w)).map fun j => op.tree k r ((List.range 32).map fun i =>
      if good.contains i then (vElems k.w (src i).bits).getD j 0 else op.unit k)
    let x : Rounded := ⟨out.map (·.1), out.foldl (fun y e => y ||| e.2) 0, 0⟩
    Acted.of s (p.map fun i => (i, match badTag f [src i] with
      | some t => .format t.toNat
      | none => .next (vWrites d .rne (mkTag f.code.toNat 0 0) k.w x)))

/-! ## Conversions (R211, R212) -/

/-- The value of a constant operand; absent means 0 (R211). -/
def constVal : Option Src → Nat
  | some (.k n) => n.toNat
  | some (.lit x) => x.toNat
  | _ => 0

/-- The source elements that a conversion between element widths takes: part k when it widens, all when it narrows; none when k
is outside the range (R211). -/
def convElems (wa wd k : Nat) (x : W128) : Option (List Nat) :=
  if wa < wd then
    if k < wd / wa then some ((List.range (128 / wd)).map fun j => (vElems wa x).getD (k * (128 / wd) + j) 0) else none
  else if k = 0 then some (vElems wa x) else none

/-- A codebook register as a thread finds it at issue: the table as far as the thread knows it, or one that an outstanding `CBLD` has yet
to put there (R79, R221). DEDUCED: log entry 39. -/
def State.codebook (s : State) (t : Nat) (r : CReg) : W256 :=
  let w := (s.grp (threadGroup t)).wg
  s.ops.foldl (fun v o => match o.kind with
    | .cbld k cb e => if k == w && cb == r && s.flip (2 ^ 79 + o.id) then e else v
    | _ => v) (if s.writes.isEmpty then mget 0 (s.wg w).cb r.toNat else s.sharedReg t .cbook w r.toNat)

/-- `FCVT` (R211, R203). -/
def execFcvt (c : Ctl) (f : FFmt) (r : Rnd) (sat : Bool) (d a : VReg) (k : Option Src) (s : State) :
    Host.Outcome State Fault Refusal :=
  s.perLane c (.fixC 4 ([.v a] ++ rndRegs r)) fun t =>
    let x := s.v t a
    let n := tagFmt x.tag
    let wa := fmtWidth n
    let q := fdesc f.code.toNat
    if !tagVOk x.tag || !(decide (n ≤ 6) || n == 10) || (r == .rs && decide (wa < q.w)) then .format x.tag.toNat
    else match convElems wa q.w (constVal k) x.bits with
      | none => .format x.tag.toNat
      | some es =>
        let cb := s.codebook t (tagCbs x.tag)
        .next (vWrites d r (mkTag f.code.toNat 0 0) q.w
          (q.roundAll r sat ((s.sr t .srs).truncate 32) (es.map fun e => (elemVal n cb e).exact)))

/-- `ICVT` (R212). -/
def execIcvt (c : Ctl) (f : FFmt) (r : Rnd) (toFloat narrow : Bool) (d a : VReg) (k : Option Src) (s : State) :
    Host.Outcome State Fault Refusal :=
  s.perLane c (.fixC 4 [.v a]) fun t =>
    let x := s.v t a
    let q := fdesc f.code.toNat
    let itag := mkTag (if narrow then 7 else 9) 0 0
    let iw := if narrow then 8 else 32
    let ftag := mkTag f.code.toNat 0 0
    if x.tag != (if toFloat then itag else ftag) then .format x.tag.toNat
    else match convElems (if toFloat then iw else q.w) (if toFloat then q.w else iw) (constVal k) x.bits with
      | none => .format x.tag.toNat
      | some es =>
        if toFloat then .next (vWrites d .rne ftag q.w (q.roundAll r false 0 (es.map fun e => (FVal.ofInt (sval iw e)).exact)))
        else
          let out := es.map fun e => (q.dec e).toInt iw r
          .next (vWrites d .rne itag iw ⟨out.map fun y => wrapTo iw y.1, out.foldl (fun z y => z ||| y.2) 0, 0⟩)

/-! ## Moves and tags (R213–R216) -/

/-- `FPACK` (R215). -/
def execFpack (c : Ctl) (d a b : VReg) (s : State) : Host.Outcome State Fault Refusal :=
  s.perLane c (.fixC 4 [.v a, .v b]) fun t =>
    let x := s.v t a
    let y := s.v t b
    if !tagVOk x.tag then .format x.tag.toNat
    else if y.tag != x.tag then .format y.tag.toNat
    else .next [(.v d, .v ⟨y.bits.extractLsb' 0 64 ++ x.bits.extractLsb' 0 64, x.tag⟩)]

/-- `FUNPK` (R215). -/
def execFunpk (c : Ctl) (d a : VReg) (k : Src) (s : State) : Host.Outcome State Fault Refusal :=
  s.perLane c (.fixC 4 [.v a]) fun t =>
    let x := s.v t a
    if !tagVOk x.tag then .format x.tag.toNat
    else .next [(.v d, .v ⟨(x.bits.extractLsb' (64 * constVal (some k)) 64).zeroExtend 128, x.tag⟩)]

/-- `VMOV` (R213). -/
def execVmov (c : Ctl) (d : Dat) (a : VReg) (s : State) : Host.Outcome State Fault Refusal :=
  s.perLane c (.fixC 4 [.v a]) fun t =>
    let x := s.v t a
    if !tagVOk x.tag then .format x.tag.toNat
    else match d with
      | .v r => .next [(.v r, .v x)]
      | .g r => .next [(.g r, .w (x.bits.extractLsb' 0 64)), (.g (r + 1), .w (x.bits.extractLsb' 64 64))]

/-- The tag that `VTAG` and `VRETAG` write (R214). -/
def newTag (f : FFmt) (cb : CReg) : Byte := mkTag f.code.toNat 0 cb.toNat

/-- `VTAG` (R214). -/
def execVtag (c : Ctl) (f : FFmt) (cb : CReg) (d : VReg) (a : Src) (s : State) : Host.Outcome State Fault Refusal :=
  match a with
  | .g r => s.perLane c (.fixC 4 (pairRegs r)) fun t => .next [(.v d, .v ⟨s.pair t r, newTag f cb⟩)]
  | a => s.perLane c (.fixC 4 []) fun t => .next [(.v d, .v ⟨(s.src t a).zeroExtend 128, newTag f cb⟩)]

/-- `VRETAG` (R214). -/
def execVretag (c : Ctl) (f : FFmt) (cb : CReg) (d a : VReg) (s : State) : Host.Outcome State Fault Refusal :=
  s.perLane c (.fixC 4 [.v a]) fun t =>
    let x := s.v t a
    if !tagVOk x.tag then .format x.tag.toNat else .next [(.v d, .v ⟨x.bits, newTag f cb⟩)]

/-- `SEED` (R90, R216). -/
def execSeed (c : Ctl) (a : Src) (s : State) : Host.Outcome State Fault Refusal :=
  s.perLane c (.fixC 2 a.regs) fun t =>
    .next [(.s .srs, .w ((srsSeed ((s.src t a).truncate 32) t).zeroExtend 64))]

/-! ## Quantisation (R217–R219) -/

/-- The scale byte and the flags that `SCALE` derives from the magnitudes of some values for a target (R217). -/
def scaleOf (target : FDesc) (xs : List FVal) : Nat × BitVec 5 :=
  if xs.any fun x => (match x with | .num _ _ _ => false | _ => true) then (255, flagNV)
  else
    let q : Int := -200
    let mag := fun x => match x with | .num _ n e => (fixed false n e q).toNat | _ => 0
    let a := xs.foldl (fun m x => max m (mag x)) 0
    if a = 0 then (127, 0)
    else match target.dec target.top with
      | .num _ n e =>
        let t0 : Int := (Nat.log2 a : Int) + q - (Nat.log2 n + e)
        let fits := (FVal.num false a q).cmp (.num false n (e + t0)) != some 1
        let t := 127 + if fits then t0 else t0 + 1
        if 254 < t then (254, flagSA) else (t.toNat, 0)
      | _ => (127, 0)

/-- `SCALE` (R217). -/
def execScale (c : Ctl) (f : FFmt) (d a : VReg) (s : State) : Host.Outcome State Fault Refusal :=
  s.perLane c (.fixC 6 [.v a]) fun t =>
    let x := s.v t a
    let n := tagFmt x.tag
    if !tagVOk x.tag || decide (3 < n) then .format x.tag.toNat
    else
      let (b, fl) := scaleOf (fdesc f.code.toNat) ((vElems (fmtWidth n) x.bits).map (fdesc n).dec)
      .next [(.v d, .v ⟨vJoin 32 [b, b, b, b], mkTag 9 0 0⟩), (.s .fsr, .orF fl)]

/-- The scale elements that `QNT` uses (R218). -/
def qntScales (s : State) (g geom : Nat) (v : VReg) : List Int :=
  let e := fun i j => sval 32 ((vElems 32 (s.v (tid g i) v).bits).getD j 0)
  match geom with
  | 1 => (List.range 4).map (e 0)
  | 2 => [e 0 0]
  | 3 => (List.range 32).map fun i => e i 0
  | _ => []

/-- `QNT` (R218, R204). When several tags fail, `FORMAT` reports the tag of `ma`, else that of the lowest lane, and 0 for a scale outside
0–255. DESIGN CHOICE: log entry 80. -/
def execQnt (c : Ctl) (f : FFmt) (r : Rnd) (sat : Bool) (d a : MReg) (sc : Option (VReg × Src)) (s : State) :
    Host.Outcome State Fault Refusal :=
  let w : WordSpec := { WordSpec.var .c ((match sc with | some (v, _) => [.v v] | none => []) ++ rndRegs r) with mreads := [a] }
  s.word c w fun s p =>
    let g := s.curG
    let m := s.readM g a
    let geom := constVal (sc.map (·.2))
    let k := fdesc f.code.toNat
    let vbad := match sc with
      | none => none
      | some (v, _) => (p.map fun i => (s.v (tid g i) v).tag).find? fun t => t != mkTag 9 0 0
    if !tagOk m.tag || tagFmt m.tag > 3 then allLanes s p (.format m.tag.toNat)
    else match vbad with
      | some t => allLanes s p (.format t.toNat)
      | none =>
        if p.length ≠ 32 then allLanes s p (.illegal s.cur.raw)
        else
          let scs := match sc with | none => [] | some (v, _) => qntScales s g geom v
          if scs.any fun x => decide (x < 0) || decide (255 < x) then allLanes s p (.format 0)
          else
            let rows := (List.range 32).map fun i =>
              k.roundAll r sat ((s.sr (tid g i) .srs).truncate 32) ((m.row i).zipIdx.map fun (e, j) =>
                let b := (scs.getD (scaleIx geom i j) 127).toNat
                if b = 255 then .nan true else (((fdesc (tagFmt m.tag)).dec e).scale (127 - (b : Int))).exact)
            let out := MVal.ofRows (mkTag f.code.toNat geom 0) (scaleField (scs.map (·.toNat))) (rows.map (·.codes))
            { Acted.of s ((p.zip rows).map fun (i, x) =>
                (i, .next ([(.s .fsr, .orF x.flags)] ++ if r = .rs then [(.s .srs, .w (x.srs.zeroExtend 64))] else []))) with
              m := some (d, out, allRows) }

/-- `DQNT` (R219). -/
def execDqnt (c : Ctl) (f : FFmt) (r : Rnd) (d a : MReg) (s : State) : Host.Outcome State Fault Refusal :=
  s.word c { WordSpec.var .c [] with mreads := [a] } fun s p =>
    let g := s.curG
    let m := s.readM g a
    let n := tagFmt m.tag
    let k := fdesc f.code.toNat
    if !tagOk m.tag || n == 9 then allLanes s p (.format m.tag.toNat)
    else if p.length ≠ 32 then allLanes s p (.illegal s.cur.raw)
    else
      let geom := tagGeom m.tag
      let rows := (List.range 32).map fun i => k.roundAll r false 0 ((m.row i).zipIdx.map fun (e, j) =>
        scaled (if geom = 0 then 127 else scaleByte m.scale (scaleIx geom i j)) (elemVal n (s.codebook (tid g i) (tagCbs m.tag)) e))
      { Acted.of s ((p.zip rows).map fun (i, x) => (i, .next [(.s .fsr, .orF x.flags)])) with
        m := some (d, MVal.ofRows (mkTag f.code.toNat 0 0) 0 (rows.map (·.codes)), allRows) }

/-! ## Codebooks (R220–R222) -/

/-- `CBLD`: the table is read in the lowest lane and put in place at completion (R220, R221). DEDUCED: log entry 39. -/
def execCbld (c : Ctl) (cb : CReg) (a b : VReg) (s : State) : Host.Outcome State Fault Refusal :=
  s.word c { WordSpec.var .c [] with lead := [.v a, .v b] } fun s p =>
    let g := s.curG
    let t := tid g (p.headD 0)
    match badTag .bf16 [s.v t a, s.v t b] with
    | some x => allLanes s p (.format x.toNat)
    | none => { allLanes s p .done with kind := .cbld (s.grp g).wg cb ((s.v t b).bits ++ (s.v t a).bits) }

/-- The distance of a value from an entry; none is infinitely far (R222). -/
def cbDist (a e : FVal) : Option Nat :=
  match a, e with
  | .num s n x, .num t k y => some (fixed s n x (-200) - fixed t k y (-200)).natAbs
  | .inf s, .inf t => if s = t then some 0 else none
  | _, _ => none

/-- Whether a distance is smaller than another. -/
def distLt : Option Nat → Option Nat → Bool
  | some x, some y => decide (x < y)
  | some _, none => true
  | none, _ => false

/-- The code and the flags of one element under a codebook; where every entry is a NaN the code is free (R222). -/
def cbEncode (s : State) (cb : W256) (a : FVal) : Nat × BitVec 5 :=
  let es := (List.range 16).map fun k => (k, (fdesc 2).dec (cbEntry cb k))
  if a.isNan then
    match es.find? fun e => e.2.isNan with
    | some e => (e.1, flagIf a.isSig flagNV)
    | none => (0, flagNV)
  else match es.filter fun e => !e.2.isNan with
    | [] => (Config.freeNat s.draw (2 ^ 80) % 16, flagNX)
    | e :: l =>
      let best := l.foldl (fun b x => if distLt (cbDist a x.2) (cbDist a b.2) then x else b) e
      (best.1, flagIf (a.cmp best.2 != some 0) flagNX)

/-- `CBENC` (R222). -/
def execCbenc (c : Ctl) (d a : VReg) (cb : CReg) (s : State) : Host.Outcome State Fault Refusal :=
  s.perLane c (.fixC 8 [.v a]) fun t =>
    let x := s.v t a
    let n := tagFmt x.tag
    if x.tag != mkTag 1 0 0 && x.tag != mkTag 2 0 0 then .format x.tag.toNat
    else
      let table := s.codebook t cb
      let out := (vElems (fmtWidth n) x.bits).map fun e => cbEncode s table ((fdesc n).dec e)
      .next (vWrites d .rne (mkTag 10 0 cb.toNat) 4 ⟨out.map (·.1), out.foldl (fun z y => z ||| y.2) 0, 0⟩)

end Sys2Proof.Machine
end

