-- ==== Sys2Proof/Machine/Engines.lean ====
section
/-!
DEFINITION. Class 3 but for the copies: barrier registers and waits (R245, R246), queue joins (R248), gathers (R249, R250), the
merge tree (R251, R252), graph records, launches and samples (R253, R254); and how an outstanding operation ends (R159).
-/
namespace Sys2Proof.Machine
namespace State

/-! ## The end of an operation (R159) -/

/-- An operation completes: its counter falls in its lanes, its results may be read, joins no longer wait for it, and lanes that
waited for it go on, park, or report their halt (R159, R160, R248, R311, R398). DEDUCED: log entry 17. -/
def finishOp (s : State) (id : Nat) : State :=
  match s.ops.find? fun o => o.id == id with
  | none => s
  | some o =>
    let s := s.performed o
    let s := { s with ops := s.ops.filter fun o => o.id != id }
    let s := s.decCtr o.group o.lanes o.ctr
    let s := s.modLanes o.group o.lanes fun x => { x.mature id with waitOp := if x.waitOp = id then 0 else x.waitOp }
    let s := s.setGrp o.group ((s.grp o.group).mature id)
    let s := (s.clearJoins id).retryParks o.group
    let s := (lanesOf o.lanes).foldl (fun s i => s.haltReport (tid o.group i)) s
    if s.samples.isEmpty then s else sampleSettle s.samples s

/-- Whether a join of a cluster holds operations of a queue back (R248). DEDUCED: log entry 20. -/
def joined (s : State) (core q : Nat) : Bool :=
  s.joins.any fun j => coreCluster j.core == coreCluster core && j.mask.getLsbD q && (q != 6 || j.core == core)

/-- Whether an operation of a queue of a cluster's engines has not been performed. -/
def unperformed (s : State) (c q : Nat) (before : Nat) : Bool :=
  s.ops.any fun o => o.queue == some q && coreCluster (groupCore o.group) == c && decide (o.id < before) && !o.done

/-- Whether an operation that waited behind a join may begin: the joins have gone, and the earlier ones of its queue have been performed
(R117, R248). -/
def mayBegin (s : State) (o : OutOp) : Bool :=
  s.joinsGone o.joins && !(o.queue.any fun q => s.unperformed (coreCluster (groupCore o.group)) q o.id)

/-- The results of an operation, left open at its issue, in one lane. -/
def fillPend (s : State) (t id : Nat) (w : List (RegId × RVal)) : State :=
  s.modThr t fun x => { x with pend := x.pend.map fun e =>
    if e.op == id then { e with val := ((w.find? fun r => r.1 == e.reg).map (·.2)).getD e.val } else e }

/-- A trap that an engine raises in a thread after its word has issued: it comes before what the thread waits for (R252, R379).
DEDUCED: log entry 20. -/
def lateTrap (s : State) (t : Nat) (i : TrapInfo) : State :=
  match (s.thr t).stat with
  | .trapWait _ => s.modThr t fun x => { x with stat := .trapWait i }
  | .parkWait =>
    let m := 1#32 <<< threadLane t
    let parks := s.parks.map fun q => if q.group == threadGroup t then { q with lanes := q.lanes &&& ~~~m } else q
    State.takeTrap { s with parks := parks.filter fun q => q.lanes != 0#32 } t i
  | .run | .arriving => s.takeTrap t i
  | .sleep _ => (s.unsleep t).takeTrap t i
  | _ => s

end State

/-- A class-3 word that acts once for its path in the lowest participant (R229). -/
def engineSpec (ph : PhClass) (reads : List RegId) (ends : Bool) : WordSpec :=
  { WordSpec.var ph [] with lead := reads, ends := ends }

/-! ## Barrier registers and waits (R245, R246) -/

/-- Whether a barrier register does not exist for a group: an `nb` register on the bow (R245). -/
def noBar (g : Nat) : Bar → Bool
  | .nb _ => isBow (groupCore g)
  | .kb _ => false

/-- `BARI` (R245). -/
def execBari (c : Ctl) (n : Bar) (count : Src) (s : State) : Host.Outcome State Fault Refusal :=
  s.once c { engineSpec .a count.regs false with bow := true } fun s t =>
    let x := s.src t count
    if noBar s.curG n then Acted.of s [(0, .illegal s.cur.raw)]
    else if x = 0 ∨ 65535 < x.toNat then Acted.of s [(0, .bounds x.toNat)]
    else Acted.of (s.updBar s.curG n fun b => Barrier.round { b with expected := x.truncate 16 }) []

/-- `BARA`: one arrival, a release of every participant (R245). -/
def execBara (c : Ctl) (n : Bar) (s : State) : Host.Outcome State Fault Refusal :=
  s.word c { engineSpec .a [] true with bow := true } fun s p =>
    let g := s.curG
    if noBar g n then allLanes s p (.illegal s.cur.raw)
    else allLanes (if p.isEmpty then s else s.arriveBar g n (p.map fun i => .agent (tid g i))) p .done

/-- `BARW`: lanes whose wait parity differs from the register's take its parity, acquire and go on; the others sleep (R245). -/
def execBarw (c : Ctl) (n : Bar) (s : State) : Host.Outcome State Fault Refusal :=
  s.word c { WordSpec.var .a [] with bow := true } fun s p =>
    let g := s.curG
    if noBar g n then allLanes s p (.illegal s.cur.raw)
    else
      let par := (s.bar g n).parity
      let own := fun i => mget false (s.thr (tid g i)).parity (barKey n)
      let go := p.filter fun i => own i != par
      let wait := p.filter fun i => own i == par
      let s := s.modLanes g (maskOf go) fun x => { x with parity := mset false x.parity (barKey n) par }
      let s := go.foldl (fun s i => s.waited (s.barPlace g n) (tid g i) (barScope n)) s
      let s := if wait.isEmpty then s else s.sleep g (maskOf wait) s.curPc s.curNext c.ctr (s.dueAt c) (.barw n)
      Acted.of s (p.map fun i => (i, if own i == par then .gone else .done))

/-- `WAITA`: a lane whose word matches receives it, as an acquire; the others sleep until it does (R246). -/
def execWaita (c : Ctl) (t : ITy) (sc : Scope) (d : GReg) (a : SpOp) (x : GReg) (s : State) :
    Host.Outcome State Fault Refusal :=
  s.inTurn c { WordSpec.var .a [.g a.base, .g x] with bow := true } fun s l =>
    let g := s.curG
    let va := a.addr (s.g l a.base)
    match s.spCheck g t.bytes va with
    | .inr r => (s, r)
    | .inl k => match s.spLoad k t.bytes va with
      | .inr r => (s, r)
      | .inl v =>
        if v = (s.g l x).toNat % 2 ^ t.width then
          (s.acquireSp l sc.code k t.bytes, .next [(.g d, .w (BitVec.ofNat 64 v))])
        else
          (s.sleep g (1#32 <<< threadLane l) s.curPc s.curNext c.ctr (s.dueAt c) (.waita k t.bytes (s.g l x) d sc.code), .gone)

/-! ## Queue joins (R248) -/

/-- The operations in the queues of a mask that a join must see performed. DEDUCED: log entry 20. -/
def State.queued (s : State) (core : Nat) (mask : BitVec 16) : List Nat :=
  (s.ops.filter fun o => match o.queue with
    | none => false
    | some q => coreCluster (groupCore o.group) == coreCluster core && mask.getLsbD q && (q != 6 || groupCore o.group == core)).map (·.id)

/-- `QFENCE` (R248). -/
def execQfence (c : Ctl) (mask : BitVec 16) (s : State) : Host.Outcome State Fault Refusal :=
  s.once c (engineSpec .c [] false) fun s _ =>
    let core := s.cur.core
    let before := s.queued core mask
    let (s, id) := s.fresh
    Acted.of (if before.isEmpty then s else { s with joins := s.joins ++ [⟨id, core, mask, before⟩] }) []

/-! ## Gathers (R249, R250, R405) -/

/-- `n` bytes at a place as the gather unit of a thread's cluster delivers them: they may be older than a write that no `GINV` and no
boundary orders before the read (R71, R120). DEDUCED: log entry 22. -/
def State.gatherBytes (s : State) (t : Nat) (p : Phys) (n : Nat) : List Byte :=
  if s.writes.isEmpty then (State.spots p n).map (Memory.byte s.mem)
  else (s.find t .mem (s.gathered t) (·.access) (State.spots p n)).map (·.2.1)

/-- The exact value of a gathered element (R249). -/
def State.gatherVal (s : State) (t fmt : Nat) (cb : W256) : GatherCell → Exact
  | none => .num false 0 0 false
  | some (p, n, half, sc) =>
    let v := leVal (s.gatherBytes t p n)
    let x := elemVal fmt cb (match half with | none => v | some true => v / 16 | some false => v % 16)
    match sc with
    | none => x.exact
    | some q => scaled (leVal (s.gatherBytes t q 1)) x

/-- What one lane of an operation of the gather unit delivers from its elements (R249, R295). -/
def State.gatherOut (s : State) (t : Nat) (cells : List GatherCell) : GatherTo → List (RegId × RVal)
  | .decode f d fmt cb =>
    let q := fdesc f.code.toNat
    vWrites d .rne (mkTag f.code.toNat 0 0) q.w (q.roundAll .rne false 0 (cells.map (s.gatherVal t fmt cb)))
  | .plain d p =>
    let v := match cells with
      | some (q, n, _, _) :: _ => leVal (s.gatherBytes t q n)
      | _ => 0
    [(.g d, .w (BitVec.ofNat 64 v)), (.p p, .p true)]

/-- The registers that a lane writes, still as they were. -/
def GatherTo.open : GatherTo → List (RegId × RVal)
  | .decode _ d _ _ => [(.v d, .orF 0), (.s .fsr, .orF 0)]
  | .plain d p => [(.g d, .orF 0), (.p p, .orF 0)]

/-- The place of bytes that the gather unit will read for a lane, unless their line faults, is not local or holds a stored error. -/
def gatherPlace (g va n : Nat) (y : Seen) : Seen × (Phys ⊕ LaneRes) :=
  match y.place g (Need.load.by (gatherBlock (coreCluster (groupCore g)))) 8 va with
  | (y, .inr r) => (y, .inr r)
  | (y, .inl p) => match y.st.latentAt p n with
    | some (code, pa) => (y, .inr (.mchk code (BitVec.ofNat 64 va) pa))
    | none => (⟨y.st.touchAll (State.spots p n), y.lines⟩, .inl p)

/-- One element of a row: nothing beyond COLS (R249). -/
def gatherElem (g : Nat) (lay : Layout) (r : Nat) (y : Seen) (k : Nat) : Seen × (GatherCell ⊕ LaneRes) :=
  if lay.cols ≤ k then (y, .inl none)
  else match gatherPlace g (lay.elemVa 1 r (if lay.pairs then k / 2 else k)) lay.e y with
    | (y, .inr x) => (y, .inr x)
    | (y, .inl p) =>
      let half := if lay.pairs then some (decide (k % 2 = 1)) else none
      if lay.geom = 0 then (y, .inl (some (p, lay.e, half, none)))
      else match gatherPlace g (lay.scaleVa r k) 1 y with
        | (y, .inr x) => (y, .inr x)
        | (y, .inl q) => (y, .inl (some (p, lay.e, half, some q)))

/-- The first trap or fault among some outcomes, or all their values. -/
def firstBad {α : Type} : List (α ⊕ LaneRes) → List α ⊕ LaneRes
  | [] => .inl []
  | .inr r :: _ => .inr r
  | .inl a :: l => match firstBad l with
    | .inl m => .inl (a :: m)
    | .inr r => .inr r

/-- One lane of `GFETCH` at issue: what it will read, or its trap or fault (R249). The upper half of a handle's register is ignored.
DESIGN CHOICE: log entry 81. -/
def gatherLane (f : FFmt) (d : VReg) (h : Src) (xy : GReg) (s0 : State) (g : Nat) (y : Seen) (i : Nat) : Seen × (GatherLane ⊕ LaneRes) :=
  let t := tid g i
  match y.layout g (Need.load.by (gatherBlock (coreCluster (groupCore g)))) 8 ((s0.src t h).toNat % 2 ^ 32) with
  | (y, .inr r) => (y, .inr r)
  | (y, .inl lay) =>
    let gc := (s0.g t xy).toNat
    let r := bits gc 63 32
    let k := bits gc 31 0
    if lay.rows ≤ r ∨ lay.cols ≤ k then (y, .inr (.bounds gc))
    else
      let (y, l) := Seen.each (gatherElem g lay r) ((List.range (128 / (fdesc f.code.toNat).w)).map (k + ·)) y
      match firstBad l with
      | .inr r => (y, .inr r)
      | .inl cells => (y, .inl ⟨i, cells, .decode f d lay.fmt (s0.codebook t (tagCbs lay.tag))⟩)

/-- The lanes of a word of the gather unit enter one operation of its queue: it reads at once, or when the joins before it have gone
(R248, R249, R295). -/
def gatherDo (s : State) (p : List Nat) (plan : List (GatherLane ⊕ LaneRes)) (trace : List (Nat × Nat)) : Acted :=
  let g := s.curG
  let late := s.joined s.cur.core 4
  { Acted.of s ((p.zip plan).map fun (i, x) => (i, match x with
      | .inr r => r
      | .inl x => .next (if late then x.dst.open else s.gatherOut (tid g i) x.cells x.dst))) with
    kind := if late then .gather (plan.filterMap fun x => match x with | .inl x => some x | .inr _ => none) else .plain
    done := !late, queue := some 4, trace := trace }

/-- `GFETCH` (R249). -/
def execGfetch (c : Ctl) (f : FFmt) (d : VReg) (h : Src) (xy : GReg) (s : State) : Host.Outcome State Fault Refusal :=
  s.word c (accessSpec (h.regs ++ [.g xy])) fun s p =>
    let (y, l) := Seen.each (gatherLane f d h xy s s.curG) p ⟨s, []⟩
    gatherDo y.st p l (y.lines.map fun l => (l.1, 1))

/-- The clusters whose gather caches a scope of a thread names (R250). -/
def ginvClusters (c sc : Nat) : List Nat :=
  if sc ≤ 4 then [c]
  else if sc = 5 then (List.range 16).filter fun d => d % 4 / 2 == c % 4 / 2 && d / 8 == c / 8
  else List.range 16

/-- `GINV` (R120, R250). DEDUCED: log entry 22. -/
def execGinv (c : Ctl) (sc : Scope) (s : State) : Host.Outcome State Fault Refusal :=
  s.word c (engineSpec .c [] false) fun s p =>
    let cs := ginvClusters (coreCluster s.cur.core) sc.code.toNat
    allLanes (p.foldl (fun s i => s.ginvBy (tid s.curG i) sc.code cs) s) p .done

/-! ## The merge tree (R97, R251, R252) -/

/-- Whether a `MRGCLOSE` of a group's workgroup waits behind a join (R248). -/
def State.closing (s : State) (g : Nat) : Bool := s.ops.any fun o => o.kind == .close && (s.grp o.group).wg == (s.grp g).wg

/-- Whether the workgroup of a group holds its cluster's merge tree, as far as the commands before this one leave it. -/
def State.holdsTree (s : State) (g : Nat) : Bool := (s.grpCl g).mHolder == some (s.grp g).wg && !s.closing g

/-- Whether a command of the merge tree waits: a join stands before it, or an earlier one waits (R117, R248). -/
def State.treeLate (s : State) (core : Nat) : Bool := s.joined core 5 || s.unperformed (coreCluster core) 5 s.nextId

/-- `MRGOPEN`: its table is read and checked at issue, as a command is accepted (R242, R251). DEDUCED: log entry 24. -/
def execMrgopen (c : Ctl) (float : Bool) (a : GReg) (s : State) : Host.Outcome State Fault Refusal :=
  s.word c (engineSpec .c [.g a] true) fun s p =>
    let g := s.curG
    let k := coreCluster (groupCore g)
    let table := s.g (tid g (p.headD 0)) a
    if p.isEmpty then Acted.of s []
    else if s.holdsTree g then allLanes s p (.illegal s.cur.raw)
    else if (s.grpCl g).mHolder.isSome then
      Acted.of (s.sleep g (maskOf p) s.curPc s.curNext c.ctr (s.dueAt c) (.mrgopen float table)) (p.map fun i => (i, .gone))
    else match s.readTree g table with
      | (s, .inr r) => allLanes s p r
      | (s, .inl l) =>
        { allLanes (s.setCl k { s.cl k with mHolder := some (s.grp g).wg, mFloat := float, mStreams := l }) p .done with queue := some 5 }

/-- The place of a virtual address that the tree translated when it was opened. -/
def Stream.phys (x : Stream) (va : Nat) : Phys :=
  match x.pages.find? fun p => p.1 == va / 4096 with
  | some (_, p) => p.add (va % 4096)
  | none => .lin 0

/-- Whether the unread part of a stream holds a stored error: its array code and the address (R388). DEDUCED: log entry 24. -/
def State.streamLatent (s : State) (x : Stream) : Option (Nat × Nat) :=
  if s.latent.isEmpty then none
  else (List.range (x.len - x.pos)).findSome? fun k =>
    (s.latentAt (x.phys (x.caddr + 4 * (x.pos + k))) 4).orElse fun _ => s.latentAt (x.phys (x.vaddr + 4 * (x.pos + k))) 4

/-- Coordinate `j` of a stream. DEDUCED: log entry 24. -/
def State.streamCoord (s : State) (c : Nat) (x : Stream) (j : Nat) : Nat := s.readPhys (200000 + c) (x.phys (x.caddr + 4 * j)) 4
/-- Value `j` of a stream. -/
def State.streamValue (s : State) (c : Nat) (x : Stream) (j : Nat) : Nat := s.readPhys (200000 + c) (x.phys (x.vaddr + 4 * j)) 4

/-- The lowest coordinate at which an unread part of a stream is not strictly increasing, or that is 0xFFFF_FFFF (R252).
DEDUCED: log entry 37. -/
def State.streamBad (s : State) (c : Nat) (x : Stream) : Option Nat :=
  let bad := (List.range (x.len - x.pos)).filterMap fun k =>
    let j := x.pos + k
    let y := s.streamCoord c x j
    if y = 0xFFFFFFFF ∨ (j ≠ 0 ∧ y ≤ s.streamCoord c x (j - 1)) then some y else none
  match bad with
  | [] => none
  | y :: l => some (minOf y l)

/-- The sum of the values of one coordinate, in ascending stream order (R97). -/
def mergeVals (float : Bool) : List Nat → Nat × BitVec 5
  | [] => (0, 0)
  | v :: l => l.foldl (fun a x =>
      if float then
        let r := fp32.round .rne false (FVal.add .rne (fp32.dec a.1) (fp32.dec x))
        (r.1, a.2 ||| r.2)
      else
        let r := satAdd 32 (sval 32 a.1) (sval 32 x)
        (wrapTo 32 r.1, a.2 ||| r.2)) (v, 0)

/-- The next merged entry: coordinate, value and flags, and the streams after it (R97). DEDUCED: log entry 37. -/
def State.mergeNext (s : State) (c : Nat) (float : Bool) (l : List Stream) : Option ((Nat × Nat × BitVec 5) × List Stream) :=
  match (l.filter fun x => decide (x.pos < x.len)).map fun x => s.streamCoord c x x.pos with
  | [] => none
  | y :: ys =>
    let low := minOf y ys
    let takes := fun (x : Stream) => decide (x.pos < x.len) && s.streamCoord c x x.pos == low
    let r := mergeVals float ((l.filter takes).map fun x => s.streamValue c x x.pos)
    some ((low, r.1, r.2), l.map fun x => if takes x then { x with pos := x.pos + 1 } else x)

/-- The next `n` entries, or the offending coordinate that one of them would reach (R252). -/
def State.mergePull (s : State) (c : Nat) (float : Bool) (off : Option Nat) :
    Nat → List Stream → (List (Nat × Nat × BitVec 5) × List Stream) ⊕ Nat
  | 0, l => .inl ([], l)
  | n + 1, l => match s.mergeNext c float l with
    | none => .inl ([], l)
    | some (e, l) =>
      match off with
      | some o => if o ≤ e.1 then .inr o
        else match s.mergePull c float off n l with
          | .inl (es, l) => .inl (e :: es, l)
          | r => r
      | none => match s.mergePull c float off n l with
        | .inl (es, l) => .inl (e :: es, l)
        | r => r

/-- The lowest offending coordinate of all streams. -/
def State.mergeBad (s : State) (c : Nat) (l : List Stream) : Option Nat :=
  match l.filterMap (s.streamBad c) with
  | [] => none
  | y :: ys => some (minOf y ys)

/-- What one lane receives of a pull: its entry, or the end mark (R252). -/
def pullWrites (float : Bool) (d : GReg) : Option (Nat × Nat × BitVec 5) → List (RegId × RVal)
  | none => [(.g d, .w 0xFFFFFFFF), (.g (d + 1), .w 0)]
  | some (y, v, f) => [(.g d, .w (BitVec.ofNat 64 y)),
      (.g (d + 1), .w (if float then BitVec.ofNat 64 v else BitVec.ofInt 64 (sval 32 v))), (.s .fsr, .orF f)]

/-- The next `n` entries of a cluster's tree with the streams after them, or the trap of the lanes that pull them (R252, R388). -/
def State.pull (s : State) (k n : Nat) : (List (Nat × Nat × BitVec 5) × List Stream) ⊕ LaneRes :=
  let x := s.cl k
  match x.mStreams.findSome? s.streamLatent with
  | some (code, pa) => .inr (.mchk code (BitVec.ofNat 64 pa ||| 1#64 <<< 63) pa)
  | none => match s.mergePull k x.mFloat (s.mergeBad k x.mStreams) n x.mStreams with
    | .inr o => .inr (.trap 13 0 (BitVec.ofNat 64 o) 0 none)
    | .inl r => .inl r

/-- `MRGPULL`: it pulls at once, or when the joins before it have gone (R248, R252). DEDUCED: log entry 20. -/
def execMrgpull (c : Ctl) (d : GReg) (s : State) : Host.Outcome State Fault Refusal :=
  s.word c { WordSpec.var .c [] with ends := true } fun s p =>
    let g := s.curG
    let k := coreCluster (groupCore g)
    if !s.holdsTree g then allLanes s p (.illegal s.cur.raw)
    else if s.treeLate s.cur.core then
      { allLanes s p (.next [(.g d, .orF 0), (.g (d + 1), .orF 0), (.s .fsr, .orF 0)]) with
        kind := .pull d s.curPc, done := false, queue := some 5 }
    else match s.pull k p.length with
      | .inr r => allLanes s p r
      | .inl (es, l) =>
        { Acted.of (s.setCl k { s.cl k with mStreams := l }) (p.zipIdx.map fun (i, n) =>
            (i, .next (pullWrites (s.cl k).mFloat d es[n]?))) with queue := some 5 }

/-- `MRGCLOSE` (R252). -/
def execMrgclose (c : Ctl) (s : State) : Host.Outcome State Fault Refusal :=
  s.once c (engineSpec .c [] true) fun s _ =>
    if !s.holdsTree s.curG then Acted.of s [(0, .illegal s.cur.raw)]
    else if s.treeLate s.cur.core then { Acted.of s [] with kind := .close, done := false, queue := some 5 }
    else { Acted.of (s.releaseTree (coreCluster s.cur.core)) [] with queue := some 5 }

/-! ## Graph records, launches and samples (R253, R254, R361, R364) -/

/-- What appending one record comes to. -/
inductive Emitted where
  | done
  | full
  | bad (r : LaneRes)
deriving DecidableEq, Repr

/-- Append a record to a graph-node queue of a group's region: the slot, TAIL with a release at `.dev`, the queue event at THRESH, and the
timer at the first append into an empty queue (R253, R361). The queue lies in the region's first cluster's share, whatever cluster the
group is on: no locality is checked. DESIGN CHOICE: log entry 83. -/
def State.emitOne (s : State) (g : Nat) (q : Nat) (r : W512) : State × Emitted :=
  let x := s.grpRes g
  let va := x.gqbase.toNat + 64 * q
  let reader := 200000 + coreCluster (groupCore g)
  if x.gqcount.toNat ≤ q then (s, .bad (.bounds q))
  else match (⟨s, []⟩ : Seen).reach g Need.atomic 4 va with
    | (y, .inr r) => (y.st, .bad r)
    | (y, .inl p) =>
      let d := y.st.readPhys reader p 64
      let tail := bits d 95 64
      let fill := (tail + 2 ^ 32 - bits d 127 96) % 2 ^ 32
      let n := 2 ^ bits d 52 48
      if n ≤ fill then (y.st, .full)
      else match y.reach g Need.store 4 (bits d 47 0 + 64 * (tail % n)) with
        | (y, .inr r) => (y.st, .bad r)
        | (y, .inl slot) =>
          let s := y.st.writePhys reader slot (leBytes r.toNat 64)
          let s := s.writeBy reader [] (some (reader, 6)) none (p.add 8) (leBytes ((tail + 1) % 2 ^ 32) 4)
          let home := (s.regionClusters (s.grp g).rcb).headD (coreCluster (groupCore g))
          let s := if fill = 0 ∧ bits d 159 144 ≠ 0 then
              s.setCl home { s.cl home with qtimers := mset 0 (s.cl home).qtimers q (s.cycle + 1024 * bits d 159 144) }
            else s
          let s := if fill + 1 = bits d 133 128 then s.postGroup false 14 g q (fill + 1) 0 0 0 else s
          (s, .done)

/-- Append the records of a path in order until one finds its queue full: the records left, and the lanes that failed.
DEDUCED: log entry 38. -/
def State.emitAll (g : Nat) : List (Nat × BitVec 16 × W512) → State → State × List (Nat × BitVec 16 × W512) × List (Nat × LaneRes)
  | [], s => (s, [], [])
  | (i, q, r) :: l, s => match s.emitOne g q.toNat r with
    | (s, .full) => (s, (i, q, r) :: l, [])
    | (s, .done) => State.emitAll g l s
    | (s, .bad e) =>
      let (s, rest, bad) := State.emitAll g l s
      (s, rest, (i, e) :: bad)

/-- The record of one lane of `EMIT`, or its trap: the address is checked before the queue number. DESIGN CHOICE: log entry 80. -/
def State.emitRec (s : State) (g i : Nat) (q a : GReg) : (Nat × BitVec 16 × W512) ⊕ (Nat × LaneRes) :=
  let va := s.g (tid g i) a
  match s.spRange g 64 64 va with
  | .inr r => .inr (i, r)
  | .inl k => match s.spLoad k 64 va with
    | .inr r => .inr (i, r)
    | .inl x =>
      let n := (s.g (tid g i) q).truncate 16
      if (s.grpRes g).gqcount.toNat ≤ n.toNat then .inr (i, .bounds n.toNat) else .inl (i, n, BitVec.ofNat 512 x)

/-- `EMIT`: when a queue is full, the path sleeps with the records that are left (R253). DEDUCED: log entry 38. -/
def execEmit (c : Ctl) (q a : GReg) (s : State) : Host.Outcome State Fault Refusal :=
  s.word c { WordSpec.var .c [.g q, .g a] with ends := true } fun s p =>
    let g := s.curG
    let recs := p.map fun i => s.emitRec g i q a
    let (s, rest, bad) := State.emitAll g (recs.filterMap fun r => match r with | .inl x => some x | .inr _ => none) s
    let bad := bad ++ recs.filterMap fun r => match r with | .inr x => some x | .inl _ => none
    let good := p.filter fun i => !bad.any fun b => b.1 == i
    let s := if rest.isEmpty then s else s.sleep g (maskOf good) s.curPc s.curNext c.ctr (s.dueAt c) (.emit rest)
    Acted.of s (p.map fun i => (i, match bad.find? fun b => b.1 == i with
      | some (_, r) => r
      | none => if rest.isEmpty then .done else .gone))

/-- Continue the sleeping `EMIT` words of a region after room was made: a path whose records are all appended wakes (R253). -/
def State.emitDrain : List Sleeper → State → State
  | [], s => s
  | z :: l, s => match z.kind with
    | .emit recs =>
      let (s, rest, bad) := State.emitAll z.group recs s
      let s := { s with sleepers := s.sleepers.map fun y => if y.id == z.id then { y with kind := .emit rest } else y }
      let s := bad.foldl (fun s b =>
        let s := s.unsleep (tid z.group b.1)
        match b.2 with
        | .fault ty line pl acc => parkLanes z.group z.word 12 3 false 1 [(b.1, ty, line, pl, acc)] s
        | .trap cause detail v _ _ => s.takeTrap (tid z.group b.1) ⟨trapRecord 0 12 3 detail cause, v, z.word⟩
        | .mchk array v pa => (s.mchkEvent z.group (1#32 <<< b.1) array pa z.word).takeTrap (tid z.group b.1)
            ⟨trapRecord 0 12 3 array 18, v, z.word⟩
        | _ => s) s
      let s := if bad.isEmpty then s else s.reconvRelease z.group
      let s := match s.sleepers.find? fun y => y.id == z.id with
        | some y =>
          if rest.isEmpty then (lanesOf y.lanes).foldl (fun s i => s.endRegion (tid y.group i) y.next) (s.wake y y.lanes) else s
        | none => s
      State.emitDrain l s
    | _ => State.emitDrain l s

/-- The records of the launch queue that its memory has room for, written to its slots with TAIL (R364). PRESUMED: log entry 84. -/
def State.launchDrain : Nat → State → State
  | 0, s => s
  | n + 1, s =>
    let desc := s.sys.launchq.toNat
    let d := s.rd desc 64
    let fill := (bits d 127 96 + 2 ^ 32 - bits d 159 128) % 2 ^ 32
    match s.launches[fill]? with
    | some x => if s.evRoom desc then (s.evAppend desc x.2).launchDrain n else s
    | none => s

/-- `LAUNCH`: the record joins the launch queue with the node of the issuing region (R253, R364). PRESUMED: log entry 84. -/
def execLaunch (c : Ctl) (a : GReg) (s : State) : Host.Outcome State Fault Refusal :=
  s.once c (engineSpec .c [.g a] true) fun s t =>
    let va := s.g t a
    match s.spRange s.curG 64 64 va with
    | .inr r => Acted.of s [(0, r)]
    | .inl k => match s.spLoad k 64 va with
      | .inr r => Acted.of s [(0, r)]
      | .inl x => Acted.of ({ s with launches := s.launches ++ [((s.grp s.curG).rcb, BitVec.ofNat 512 x)] }.launchDrain 1) []

/-- `SAMPLE`: the path is armed, with its tag in place of an earlier one, only under a sampling right (R254). -/
def execSample (c : Ctl) (tag : Src) (s : State) : Host.Outcome State Fault Refusal :=
  s.once c (engineSpec .a tag.regs false) fun s t =>
    let g := s.curG
    Acted.of (if (s.grpRes g).sample then
      s.setGrp g { s.grp g with
        armed := (s.grp g).armed.filter (fun e => e.2 &&& s.cur.lanes == 0#32) ++ [((s.src t tag).truncate 16, s.cur.lanes)] } else s) []

end Sys2Proof.Machine
end

