-- ==== Sys2Proof/Machine/Copy.lean ====
section
/-!
DEFINITION. The copy engine (R240–R244): the words that issue a command, its acceptance, its elements and its completion; and the
completion of a load into the scratchpad (R239).
-/
namespace Sys2Proof.Machine

/-! ## The copy record (R241, R242) -/

/-- A copy record after its checks of alignment; dimensions are innermost first: destination stride, source stride, extent. -/
structure CopyRec where
  skind  : Nat
  dkind  : Nat
  e      : Nat
  srcH   : Nat
  dstH   : Nat
  srcA   : Nat
  dstA   : Nat
  gather : Bool
  idxA   : Nat
  idxN   : Nat
  dims   : List (Int × Int × Nat)
deriving DecidableEq, Repr

/-- The queue that the header of a copy record names. -/
def copyQueue (h : Nat) : Nat := bits h 17 16

/-- The record of a header and its descriptors, with the checks `ILLEGAL` and `ALIGN` of R242. -/
def copyRec (raw : W64) (h : Nat) (ds : List Nat) : CopyRec ⊕ LaneRes :=
  let sk := bits h 2 0
  let dk := bits h 6 4
  let e := 2 ^ bits h 10 8
  let gather := bitAt h 24
  let r : CopyRec := ⟨sk, dk, e, bits h 223 192, bits h 255 224, bits h 127 64, bits h 191 128, gather, bits h 319 256,
    bits h 351 320, ds.map fun d => (sval 48 (bits d 127 80), sval 48 (bits d 79 32), bits d 31 0)⟩
  if bits h 511 352 != 0 || bits h 63 25 != 0 || bits h 23 18 != 0 || bitAt h 11 || bitAt h 7 || bitAt h 3 || decide (4 < sk) ||
      decide (4 < dk) || decide (4 < bits h 10 8) || (decide (sk < 2) && r.srcH != 0) || (decide (dk < 2) && r.dstH != 0) ||
      (gather && dk != 1) then .inr (.illegal raw)
  else if r.srcA % e != 0 || r.dstA % e != 0 || r.dims.any (fun d => d.2.1 % (e : Int) != 0) ||
      (!gather && r.dims.any fun d => d.1 % (e : Int) != 0) || (gather && r.idxA % 4 != 0) then .inr (.align r.srcA)
  else .inl r

/-- The index tuples of some extents, innermost first, in ascending element order. -/
def copyTuples : List Nat → List (List Nat)
  | [] => [[]]
  | n :: l => (copyTuples l).flatMap fun t => (List.range n).map (· :: t)

/-- The row-major index of a tuple. -/
def rowMajor : List Nat → List Nat → Nat
  | i :: is, n :: ns => i + n * rowMajor is ns
  | _, _ => 0

/-- The sum of indices times strides. -/
def strideSum : List Nat → List Int → Int
  | i :: is, k :: ks => i * k + strideSum is ks
  | _, _ => 0

namespace CopyRec

/-- The extents that the elements run over: the outermost is the number of gathered rows under GATHER (R243). -/
def extents (r : CopyRec) : List Nat :=
  let l := r.dims.map (·.2.2)
  if r.gather then l.dropLast ++ [r.idxN] else l

/-- The outermost EXTENT. -/
def outer (r : CopyRec) : Nat := (r.dims.map (·.2.2)).getLastD 0

/-- Whether the copy is empty (R243). -/
def empty (r : CopyRec) : Bool := r.dims.any (fun d => d.2.2 == 0) || r.extents.any (· == 0)

/-- The number of elements. -/
def count (r : CopyRec) : Nat := r.extents.foldl (· * ·) 1

/-- The tuple of indices with the outermost one taken from the index list. -/
def through (idx : List Nat) (t : List Nat) : List Nat := t.dropLast ++ [idx.getD (t.getLastD 0) 0]

/-- The source and destination offsets of every element, in ascending element order (R243). -/
def offsets (r : CopyRec) (idx : List Nat) : List (Int × Int) :=
  (copyTuples r.extents).map fun t =>
    (strideSum (if r.gather then through idx t else t) (r.dims.map (·.2.1)),
      if r.gather then ((rowMajor t r.extents * r.e : Nat) : Int) else strideSum t (r.dims.map (·.1)))

end CopyRec

/-- A trap of a command at acceptance reports the address of its record, whatever the cause (R242, R381). -/
def LaneRes.ofRecord (a : W64) : LaneRes → LaneRes
  | .trap cause detail _ code resume => .trap cause detail a code resume
  | .mchk array _ pa => .mchk array a pa
  | r => r

/-! ## Where the elements of a copy lie -/

/-- An element's address after the checks of bounds: a scratchpad address, or a virtual address. -/
inductive CopyAddr where
  | sp (a : W64)
  | va (a : Nat)
deriving DecidableEq, Repr

/-- A scratchpad address moved to the issuing cluster, so that its bounds are checked apart from its locality (R242). -/
def homeAddr (g : Nat) (a : W64) : W64 := BitVec.ofNat 64 (setBits a.toNat 28 25 (coreCluster (groupCore g)))

/-- The address of one element, or none when it is out of bounds (R242). -/
def State.copyAddr (s : State) (g e kind : Nat) (lay : Option Layout) (base : Nat) (off : Int) : Option CopyAddr :=
  let a := wrapTo 64 ((base : Int) + off)
  match kind with
  | 0 => if a < 2 ^ 48 then some (.va a) else none
  | 1 => match s.spCheck g e (homeAddr g (BitVec.ofNat 64 a)) with
    | .inl _ => some (.sp (BitVec.ofNat 64 a))
    | .inr _ => none
  | k => match lay with
    | none => none
    | some l => if 0 ≤ (base : Int) + off ∧ (base : Int) + off + e ≤ l.rowsP * l.colsP * l.e then some (.va (l.base (k - 1) + a))
      else none

/-- The first outcome among some that may be none. -/
def allSome {α : Type} : List (Option α) → Option (List α)
  | [] => some []
  | none :: _ => none
  | some a :: l => (allSome l).map (a :: ·)

/-- Whether an element is not in the issuing cluster's scratchpad though it is a scratchpad element. -/
def CopyAddr.away (g : Nat) : CopyAddr → Bool
  | .sp a => bits a.toNat 28 25 != coreCluster (groupCore g)
  | .va _ => false

/-- The place of an element: virtual addresses are translated, and their locality checked (R242). -/
def copyPlace (g e : Nat) (n : Need) (y : Seen) : CopyAddr → Seen × (CopyPlace ⊕ LaneRes)
  | .sp a => match y.st.spCheck g e a with
    | .inl k => (y, .inl (.sp k))
    | .inr r => (y, .inr r)
  | .va a => match y.place g n 4 a with
    | (y, .inl p) => (y, .inl (.mem p))
    | (y, .inr r) => (y, .inr r)

/-- The layout of a view kind's handle, for an access that needs what `n` says. -/
def copyLayout (g : Nat) (n : Need) (kind h : Nat) (y : Seen) : Seen × (Option Layout ⊕ LaneRes) :=
  if kind < 2 then (y, .inl none)
  else match y.layout g n 4 h with
    | (y, .inl l) => (y, .inl (some l))
    | (y, .inr r) => (y, .inr r)

/-- Whether an outcome is a trap of a cause. -/
def LaneRes.traps (cause : Nat) : LaneRes → Bool
  | .trap k _ _ _ _ => k == cause
  | _ => false

/-- Whether a view's layout fails the check `FORMAT`: the record's own checks, or a storage element that is not the command's (R242). -/
def layoutWrong (e : Nat) : Option Layout ⊕ LaneRes → Bool
  | .inl (some l) => l.e != e
  | .inl none => false
  | .inr t => t.traps 3

/-- Whether a view's handle fails the check `BOUNDS` (R64, R242). -/
def layoutOut : Option Layout ⊕ LaneRes → Bool
  | .inl _ => false
  | .inr t => t.traps 4

/-- The index list of a gather: within its allocation, each index below the outermost EXTENT (R242). The flag says that it lies on another
cluster: it is then not read. -/
def State.copyIndices (s : State) (g : Nat) (r : CopyRec) : (List Nat × Bool) ⊕ LaneRes :=
  if !r.gather || r.idxN == 0 then .inl ([], false)
  else
    let a := BitVec.ofNat 64 r.idxA
    match s.spRange g (4 * r.idxN) 4 (homeAddr g a) with
    | .inr _ => .inr (.bounds r.idxA)
    | .inl k =>
      if CopyAddr.away g (.sp a) then .inl ([], true)
      else match s.spLoad k (4 * r.idxN) a with
        | .inr t => .inr t
        | .inl x =>
          let l := (List.range r.idxN).map fun i => bits x (32 * i + 31) (32 * i)
          if l.any fun j => decide (r.outer ≤ j) then .inr (.bounds r.idxA) else .inl (l, false)

/-- The addresses of one side of a command, or none when an element is out of bounds; a layout that cannot be read, or indices on another
cluster, leave nothing to check (R242). -/
def State.copySide (s : State) (g e kind base : Nat) (lay : Option Layout ⊕ LaneRes) (offs : List Int) : Option (List CopyAddr) :=
  match lay with
  | .inl l => allSome (offs.map fun o => s.copyAddr g e kind l base o)
  | .inr _ => some []

/-- The elements of a command: where each is read and written, with every check of R242 from `FORMAT` on; a page fault of a layout comes
after them, with the translations. `word` is the check of a completion word, made after `BOUNDS` and before locality.
DEDUCED: log entry 21. DESIGN CHOICE: log entry 80. -/
def copyMoves (g : Nat) (r : CopyRec) (word : Option LaneRes) (y : Seen) : Seen × (List (CopyPlace × CopyPlace) ⊕ LaneRes) :=
  let (y, lay) := copyLayout g (Need.load.by (copyBlock (coreCluster (groupCore g)))) r.skind r.srcH y
  let (y, m) := copyLayout g (Need.store.by (copyBlock (coreCluster (groupCore g)))) r.dkind r.dstH y
  if layoutWrong r.e lay || layoutWrong r.e m then (y, .inr (.format 0))
  else if layoutOut lay || layoutOut m || decide (2 ^ 40 < r.count) then (y, .inr (.bounds 0))
  else match y.st.copyIndices g r with
    | .inr t => (y, .inr t)
    | .inl (idx, far) =>
      let offs := if r.empty then [] else r.offsets idx
      match y.st.copySide g r.e r.skind r.srcA lay (if far then [] else offs.map (·.1)),
        y.st.copySide g r.e r.dkind r.dstA m (offs.map (·.2)) with
      | some src, some dst =>
        (match word with
          | some t => (y, .inr t)
          | none =>
            if far || src.any (·.away g) || dst.any (·.away g) then (y, .inr (.nonlocal 0))
            else match lay, m with
              | .inr t, _ => (y, .inr t)
              | _, .inr t => (y, .inr t)
              | .inl _, .inl _ =>
                let (y, a) := Seen.each (copyPlace g r.e (Need.load.by (copyBlock (coreCluster (groupCore g))))) src y
                match firstBad a with
                | .inr t => (y, .inr t)
                | .inl a =>
                  let (y, b) := Seen.each (copyPlace g r.e (Need.store.by (copyBlock (coreCluster (groupCore g))))) dst y
                  match firstBad b with
                  | .inr t => (y, .inr t)
                  | .inl b => (y, .inl (a.zip b)))
      | _, _ => (y, .inr (.bounds 0))

/-! ## Issue and acceptance (R240, R242) -/

/-- The pipeline's view of `CPY` and `CPYW`. -/
def copySpec (reads : List RegId) : WordSpec := engineSpec .c reads true

/-- A copy word at issue: its path holds at the word until its command's acceptance ends (R242). -/
def copyWord (c : Ctl) (reads : List RegId) (vals : Nat → W64 × W64 × W64) (s : State) : Host.Outcome State Fault Refusal :=
  match s.gate c (copySpec reads) with
  | .go p traps => match p with
    | [] => (s.retire c (copySpec reads) (Acted.of s []) traps).out
    | i :: _ =>
      let (a, w, v) := vals (tid s.curG i)
      (State.leave s.curG traps (s.holdFor (.copy (maskOf p) a w v) (s.dueAt c))).out
  | _ => s.word c (copySpec reads) fun s _ => Acted.of s []

/-- `CPY` (R241). -/
def execCpy (c : Ctl) (_n : Option Bar) (a : GReg) (s : State) : Host.Outcome State Fault Refusal :=
  copyWord c [.g a] (fun t => (s.g t a, 0, 0)) s

/-- `CPYW` (R241, R244). -/
def execCpyw (c : Ctl) (_t : ITy) (_sc : Scope) (a w x : GReg) (s : State) : Host.Outcome State Fault Refusal :=
  copyWord c [.g a, .g w, .g x] (fun t => (s.g t a, s.g t w, s.g t x)) s

/-- How a command signals its end: an arrival, or a word of some bytes at a scratchpad address, at a scope (R244). -/
inductive CopyEnd where
  | bar (n : Option Bar)
  | word (w : Nat) (a : W64) (sc : BitVec 4)
deriving DecidableEq, Repr

/-- The check of a completion word (R54, R244). -/
def CopyEnd.check (s : State) (g : Nat) : CopyEnd → Option LaneRes
  | .bar _ => none
  | .word w a _ => match s.spCheck g w a with
    | .inl _ => none
    | .inr r => some r

/-- The record at an address, read once, and the elements of its command, with every check of R242. DEDUCED: log entry 21. -/
def copyAccept (g : Nat) (a : W64) (fin : CopyEnd) (s : State) :
    State × ((Nat × CopyRec × List (CopyPlace × CopyPlace)) ⊕ LaneRes) :=
  match s.spRange g 64 64 a with
  | .inr r => (s, .inr (r.ofRecord a))
  | .inl k => match s.spLoad k 64 a with
    | .inr r => (s, .inr r)
    | .inl h =>
      let n := bits h 15 12 + 1
      match s.spRange g (64 + 16 * n) 64 a with
      | .inr r => (s, .inr (r.ofRecord a))
      | .inl k => match s.spLoad k (64 + 16 * n) a with
        | .inr r => (s, .inr r)
        | .inl _ => match copyRec s.cur.raw h ((List.range n).map fun i => s.spRd (k + 64 + 16 * i) 16) with
          | .inr r => (s, .inr (r.ofRecord a))
          | .inl r => match copyMoves g r (fin.check s g) ⟨s, []⟩ with
            | (y, .inr t) => (y.st, .inr (t.ofRecord a))
            | (y, .inl l) => (y.st, .inl (copyQueue h, r, l))

/-- Signal the end of an empty command (R243, R244). -/
def CopyEnd.signal (g : Nat) (x : W64) (s : State) : CopyEnd → State
  | .bar none => s
  | .bar (some n) => s.arriveBar g n []
  | .word w a sc => match s.spCheck g w a with
    | .inl k => s.spPutBy (200000 + coreCluster (groupCore g)) [] (some (200000 + coreCluster (groupCore g), sc)) none k (leBytes x.toNat w)
    | .inr _ => s

/-- A command's acceptance for the participants `p` of its word: a failed check traps or parks all of them, an empty copy is performed,
any other joins its queue (R240–R243). -/
def copyDo (p : List Nat) (a : W64) (x : W64) (fin : CopyEnd) (s : State) : Acted :=
  let g := s.curG
  let c := coreCluster (groupCore g)
  match fin with
  | .bar (some n) => if noBar g n then allLanes s p (.illegal s.cur.raw) else go g c
  | _ => go g c
where
  go (g c : Nat) : Acted :=
    match copyAccept g a fin s with
    | (s, .inr r) => allLanes s p r
    | (s, .inl (q, r, l)) =>
      if r.empty then allLanes (fin.signal g x s) p .done
      else
        let cmd : CopyCmd := ⟨s.nextId, g, r.e, l, (match fin with | .bar n => n | .word _ _ _ => none),
          (match fin with
            | .bar _ => none
            | .word w b sc => match s.spCheck g w b with | .inl k => some (k, w, x, sc) | .inr _ => none), false, a.toNat⟩
        { allLanes (s.setCopies (4 * c + q) (s.copies (4 * c + q) ++ [cmd])) p .done with
          kind := .copyIn, done := false, queue := some q }

/-- Whether the queue that a record names is full (R240). -/
def State.copyFull (s : State) (g : Nat) (a : W64) : Bool :=
  match s.spRange g 64 64 a with
  | .inr _ => false
  | .inl k => decide (16 ≤ (s.copies (4 * coreCluster (groupCore g) + copyQueue (s.spRd k 64))).length)

/-- `COPY_ACCEPTANCE`: the command of the clause that stands at a copy word as number `sel` of a core (R240–R242). -/
def execCopyAcceptance (core sel : Nat) (s : State) : Host.Outcome State Fault Refusal :=
  match (s.core core).sels[sel]? with
  | none => s.out
  | some y => match y.held with
    | .copy m a w x =>
      let s := { s with cur := y.cur core }
      let p := lanesOf (m &&& y.lanes)
      if s.copyFull s.curG a then s.out
      else match s.nextInstr y core with
        | .ok (.cpy c n _) => (s.retire c (copySpec []) (copyDo p a x (.bar n) s) []).out
        | .ok (.cpyw c t sc _ _ _) => (s.retire c (copySpec []) (copyDo p a x (.word t.bytes w sc.code) s) []).out
        | _ => s.out
    | _ => s.out

/-! ## The command (R243, R244) -/

/-- The bytes that command `id` of a cluster reads at a place, or the physical address of a stored error (R116–R119, R388). -/
def CopyPlace.read (s : State) (id c n : Nat) : CopyPlace → List Byte ⊕ Nat
  | .sp k => if s.latentSp k n then .inr k else .inl (s.opBytes id c .sp 0 ((List.range n).map (k + ·)))
  | .mem p => match s.latentAt p n with
    | some (_, pa) => .inr pa
    | none => .inl (s.opBytes id c .mem p.kind (State.spots p n))
  | .data b => .inl b

/-- Write an element for command `id` of a cluster. -/
def CopyPlace.write (s : State) (id c : Nat) (b : List Byte) : CopyPlace → State
  | .sp k => s.spPutBy (200000 + c) (State.opKnown id) none none k b
  | .mem p => s.writeBy (200000 + c) (State.opKnown id) none none p b
  | .data _ => s

/-- The commands of the slice that reading a place takes (R411). -/
def CopyPlace.touch (s : State) (n : Nat) : CopyPlace → State
  | .mem p => s.touchAll (State.spots p n)
  | _ => s

/-- Move a number of elements of command `id`, each a free one of those left, or only read it; the moves left, or the address of a
stored error that ends the command (R243, R244). -/
def copySome (id c size : Nat) : Nat → List (CopyPlace × CopyPlace) → State → State × (List (CopyPlace × CopyPlace) ⊕ Nat)
  | 0, l, s => (s, .inl l)
  | n + 1, l, s =>
    let k := Config.freeNat s.draw (2 ^ 82 + 2 * n) % l.length
    match l[k]? with
    | none => (s, .inl l)
    | some m => match m.1.read s id c size with
      | .inr pa => (s, .inr pa)
      | .inl b =>
        let s := m.1.touch s size
        if s.flip (2 ^ 82 + 2 * n + 1) then copySome id c size n (l.set k (.data b, m.2)) s
        else copySome id c size n (l.eraseIdx k) (m.2.write s id c b)

/-- The start of an operation that may begin: what it comes after; none while a join before it stands (R117, R248). -/
def State.opStart (s : State) (id : Nat) : Option State :=
  match s.ops.find? fun o => o.id == id with
  | none => some s
  | some o => if s.joinsGone o.joins then some (s.beginOp o) else none

/-- The engine fault event of a command (R244, R384). -/
def State.engineFault (s : State) (g q cause record pa : Nat) : State :=
  s.postGroup false 6 g (q + 256 * cause) record pa 0 0

/-- `COPY_COMPLETION`: the command at the head of a queue moves some of its elements, in any order; when none is left it has
completed, and it signals (R117, R243, R244). -/
def execCopyCompletion (cl : BitVec 4) (q : BitVec 2) (s : State) : Host.Outcome State Fault Refusal :=
  let c := cl.toNat
  let k := 4 * c + q.toNat
  match s.copies k with
  | [] => s.out
  | x :: l =>
    match s.opStart x.id with
    | none => s.out
    | some s => match copySome x.id c x.size (Config.freeNat s.draw (2 ^ 84) % (2 * x.moves.length + 1)) x.moves s with
      | (s, .inr pa) => (((s.engineFault x.group q.toNat 1 x.record pa).setCopies k l).finishOp x.id).out
      | (s, .inl (m :: ms)) => (s.setCopies k ({ x with moves := m :: ms } :: l)).out
      | (s, .inl []) =>
        let s := s.setCopies k l
        let s := if x.dead then s
          else match x.word with
            | some (a, w, v, sc) =>
              (s.pass (.op x.id) (.write s.seq) []).spPutBy (200000 + c) (State.opKnown x.id) (some (200000 + c, sc)) none a (leBytes v.toNat w)
            | none => match x.bar with
              | some n => s.arriveBar x.group n [.op x.id]
              | none => s
        (s.finishOp x.id).out

/-! ## Loads into the scratchpad (R239) -/

/-- Perform the moves of a load into the scratchpad. -/
def ldxMoves (id c n : Nat) : List (Nat × Option Phys × Nat) → State → State
  | [], s => s
  | (k, p, _) :: l, s =>
    let (s, b) := match p with
      | some p => (s.touchAll (State.spots p n), s.opBytes id c .mem p.kind (State.spots p n))
      | none => (s, leBytes 0 n)
    ldxMoves id c n l (s.spPutBy (200000 + c) (State.opKnown id) none none k b)

/-- Whether every earlier load into the scratchpad of a core has been performed (R117, R239). -/
def State.ldxFirst (s : State) (core id : Nat) : Bool :=
  !s.ops.any fun o => match o.kind with
    | .ldx _ _ _ _ k => k == core && decide (o.id < id)
    | _ => false

/-- `LDX_COMPLETION`: the oldest load into the scratchpad of its core moves what it has; with every lane's part done it arrives
(R239). DEDUCED: log entry 19. -/
def execLdxCompletion (op : Nat) (s : State) : Host.Outcome State Fault Refusal :=
  match s.ops.find? fun o => o.id == op with
  | none => s.out
  | some o => match o.kind with
    | .ldx n w moves parked core =>
      if !s.ldxFirst core op || !s.joinsGone o.joins then s.out
      else
        let s := ldxMoves op (coreCluster core) w moves (s.beginOp o)
        if parked = 0#32 then ((s.arriveBar o.group n [.op op]).finishOp op).out
        else ({ s with ops := s.ops.map fun (x : OutOp) => if x.id == op then { x with kind := .ldx n w [] parked core } else x }).out
    | _ => s.out

end Sys2Proof.Machine
end

