-- ==== Sys2Proof/Machine/Terms.lean ====
section
/-!
DEFINITION. Class 6: term words, dereferencing, binding, unification, choice points and the overlay (R299–R314).
-/
namespace Sys2Proof.Machine

/-! ## Term words (R299) -/

/-- The tag of a term word. -/
def termTag (w : W64) : Nat := bits w.toNat 63 60
/-- The payload of a term word. -/
def termPay (w : W64) : Nat := bits w.toNat 59 0
/-- A term word of a tag and a payload. -/
def mkTerm (tag pay : Nat) : W64 := BitVec.ofNat 64 (tag * 2 ^ 60 + pay % 2 ^ 60)

def tagUNB : Nat := 0
def tagREF : Nat := 1
def tagSTR : Nat := 4
def tagFUN : Nat := 5
def tagLST : Nat := 6

/-- The trap `TERM_TAG` with the address of the word concerned. -/
def termBad (a : Nat) : LaneRes := .trap 8 0 (BitVec.ofNat 64 a) 0 none

/-! ## One lane's instruction (R302, R306)

Its writes of term words and of the scratchpad are kept apart until it ends without a trap and without a park, so that either leaves
everything as it was at issue. -/

/-- The state of one lane's instruction: the translations, the term-state registers as the earlier instructions left them, the steps
taken, the writes so far (newest first; a published word with its scope), and how far its walk area has been used. -/
structure TermSt where
  y     : Seen
  g     : Nat
  t     : Nat
  win   : W256
  hp    : W64
  hb    : W64
  tr    : W64
  ovb   : W64
  ovt   : W64
  ovl   : W64
  chb   : W64
  chp   : W64
  shb   : W64
  limit : Nat
  n     : Nat
  mem   : List (Phys × W64 × Option (BitVec 4))
  sp    : List (Nat × W64)
  binds : Nat
  walk  : Nat

/-- One lane's instruction: it may end in a trap or a park. -/
abbrev TM (α : Type) := ExceptT LaneRes (StateM TermSt) α

/-- A term-state register as the earlier class-6 instructions, and the `WRS` words that are due, left it (R161, R302). -/
def State.termReg (s : State) (t : Nat) (r : Sreg) : W64 :=
  let x := s.thr t
  match Thread.fold (fun _ => true) s.cycle (.s r) x.pend (x.base (.s r)) with
  | .w w => w
  | _ => 0

/-- The state at the start of a lane's instruction. -/
def termStart (g t : Nat) (y : Seen) : TermSt :=
  let s := y.st
  let r := s.termReg t
  { y := y, g := g, t := t, win := s.bufRec t 15, hp := r .hp, hb := r .hb, tr := r .tr, ovb := r .ovb, ovt := r .ovt, ovl := r .ovl,
    chb := r .chb, chp := r .chp, shb := r .shb, limit := if r .steps = 0 then 2 ^ 32 else (r .steps).toNat, n := 0, mem := [],
    sp := [], binds := 0, walk := 0 }

/-- A register that must be a multiple of `n` (R301). -/
def termAlign (n : Nat) (w : W64) : TM Unit := if w.toNat % n = 0 then pure () else throw (.align w.toNat)

/-- The place of a term word through the window (R300). -/
def termPlace (n : Need) (a : Nat) : TM Phys := do
  let x ← get
  let r := x.win.toNat
  if bits r 50 48 ≠ 3 ∨ bits r 95 64 ≠ 8 ∨ bitAt r 52 ∨ a < bits r 47 0 ∨ (a - bits r 47 0) % 8 ≠ 0 ∨
      bits r 127 96 ≤ (a - bits r 47 0) / 8 then throw (.bounds a)
  else match x.y.place x.g n 7 a with
    | (y, .inr e) => do set { x with y := y }; throw e
    | (y, .inl p) => do set { x with y := y }; pure p

/-- The instruction's own latest write to the bytes of a place, by the same kind of path (R68, R376). -/
def TermSt.own (x : TermSt) (p : Phys) : Option W64 :=
  (x.mem.find? fun e => e.1.kind == p.kind && State.spots e.1 8 == State.spots p 8).map (·.2.1)

/-- The term word at an address; below `shb` it is an acquire at `.clus` (R300, R314). -/
def termWord (a : Nat) : TM W64 := do
  let p ← termPlace Need.load a
  let x ← get
  match x.own p with
  | some w => pure w
  | none => match x.y.st.load x.t (if a < x.shb.toNat then some 4 else none) p 8 a with
    | (s, .inl b) => do
      set { x with y := ⟨s, x.y.lines⟩ }
      pure (BitVec.ofNat 64 (leVal b))
    | (_, .inr e) => throw e

/-- Write the term word at an address. -/
def termPut (a : Nat) (v : W64) : TM Unit := do
  let p ← termPlace Need.store a
  modify fun x => { x with mem := (p, v, none) :: x.mem }

/-- An 8-byte word of the scratchpad at an address, checked as an access of `w` bytes (R54, R301). -/
def termSp (w : Nat) (a : W64) : TM W64 := do
  let x ← get
  match x.y.st.spCheck x.g w a with
  | .inr e => throw e
  | .inl k => match x.sp.find? fun e => e.1 == k with
    | some e => pure e.2
    | none => match x.y.st.spSee x.t 8 none k a with
      | (s, .inl v) => do
        set { x with y := ⟨s, x.y.lines⟩ }
        pure (BitVec.ofNat 64 v)
      | (_, .inr e) => throw e

/-- Write an 8-byte word of the scratchpad. -/
def termSpPut (w : Nat) (a v : W64) : TM Unit := do
  let x ← get
  match x.y.st.spCheck x.g w a with
  | .inr e => throw e
  | .inl k => set { x with sp := (k, v) :: x.sp }

/-- The address in a word that an instruction follows; `at_` is where the word was read, 0 for a register (R299). -/
def termAddr (w : W64) (at_ : Nat) : TM Nat :=
  if termPay w < 2 ^ 48 ∧ termPay w % 8 = 0 then pure (termPay w) else throw (termBad at_)

/-- One step of the limit (R303). -/
def termStep (a : Nat) : TM Unit := do
  let x ← get
  if x.limit < x.n + 1 then throw (.trap 9 0 (BitVec.ofNat 64 a) 0 none) else set { x with n := x.n + 1 }

/-- The newest of `n` overlay entries down from one that holds an address (R303). -/
def overlayFind (a : Nat) : Nat → W64 → TM (Option W64)
  | 0, _ => pure none
  | n + 1, e => do
    let k ← termSp 16 e
    if k.toNat = a then
      let v ← termSp 8 (e + 8)
      pure (some v)
    else overlayFind a n (e - 16)

/-- The number of entries of an overlay. -/
def overlayLen (ovb ovt : W64) : Nat := (ovt.toNat - ovb.toNat) / 16

/-- What a lane sees at an address (R303). -/
def termLookup (a : Nat) : TM W64 := do
  let x ← get
  termAlign 8 x.shb
  if a < x.shb.toNat then
    termAlign 16 x.ovb
    termAlign 16 x.ovt
    match ← overlayFind a (overlayLen x.ovb x.ovt) (x.ovt - 16) with
    | some v => pure v
    | none => termWord a
  else termWord a

/-- Deref (R303); `at_` is where the word was read. -/
def derefLoop : Nat → W64 → Nat → TM W64
  | 0, _, at_ => throw (.trap 9 0 (BitVec.ofNat 64 at_) 0 none)
  | n + 1, w, at_ => do
    if 8 ≤ termTag w ∨ termTag w = tagFUN then throw (termBad at_)
    else if termTag w ≠ tagUNB ∧ termTag w ≠ tagREF then pure w
    else
      let a ← termAddr w at_
      termStep a
      let m ← termLookup a
      if m = mkTerm tagUNB a then pure m
      else if termTag m = tagUNB then throw (termBad a)
      else derefLoop n m a

/-- Deref with the room that the step limit leaves. -/
def termDeref (w : W64) : TM W64 := do
  let x ← get
  derefLoop (x.limit + 1) w 0

/-- Bind (R304). -/
def termBind (a : Nat) (v : W64) : TM Unit := do
  let v := if termTag v = tagUNB then mkTerm tagREF (termPay v) else v
  let x ← get
  termAlign 8 x.shb
  modify fun x => { x with binds := x.binds + 1 }
  if a < x.shb.toNat then
    termAlign 16 x.ovt
    termAlign 16 x.ovl
    if x.ovl.toNat < x.ovt.toNat + 16 then throw (.trap 10 0 x.ovt 0 none)
    else
      termSpPut 16 x.ovt (BitVec.ofNat 64 a)
      termSpPut 8 (x.ovt + 8) v
      modify fun x => { x with ovt := x.ovt + 16 }
  else
    termAlign 8 x.hb
    if a < x.hb.toNat then
      termSpPut 8 x.tr (BitVec.ofNat 64 a)
      modify fun x => { x with tr := x.tr + 8 }
    termPut a v

/-- The FUN word that an STR addresses (R299). -/
def termFun (a : Nat) : TM W64 := do
  let m ← termWord a
  if termTag m = tagFUN then pure m else throw (termBad a)

/-! ## Unification (R308) -/

/-- The first byte above the newest choice point. -/
def termTop : TM W64 := do
  let x ← get
  if x.chp = 0 then pure x.chb
  else
    let r ← termSp 8 x.chp
    pure (x.chp + BitVec.ofNat 64 (8 * (5 + bits r.toNat 51 48)))

/-- The walk area must hold a pair at a depth of the walk stack. -/
def walkRoom (base : W64) (depth : Nat) : TM Unit := do
  let x ← get
  if depth < x.walk then pure ()
  else
    let a := base + BitVec.ofNat 64 (16 * depth)
    match x.y.st.spCheck x.g 8 a, x.y.st.spCheck x.g 8 (a + 8) with
    | .inr e, _ => throw e
    | _, .inr e => throw e
    | .inl _, .inl _ => set { x with walk := depth + 1 }

/-- Room for each of some pairs on top of a stack of a depth. -/
def walkRooms (base : W64) (depth : Nat) : List (W64 × W64) → TM Unit
  | [] => pure ()
  | _ :: l => do
    walkRoom base depth
    walkRooms base (depth + 1) l

/-- The pairs of the arguments of two structures, in the order in which they are taken. -/
def argPairs (n a b : Nat) : List (W64 × W64) :=
  (List.range n).map fun k => (mkTerm tagREF (a + 8 * (k + 1)), mkTerm tagREF (b + 8 * (k + 1)))

/-- What one pair of dereferenced words comes to: a clash, or pairs to walk (R308). -/
def unifyPair (x y : W64) : TM (Option (List (W64 × W64))) := do
  if x = y then pure (some [])
  else if termTag x = tagUNB ∧ termTag y = tagUNB then
    if termPay y < termPay x then termBind (termPay x) y else termBind (termPay y) x
    pure (some [])
  else if termTag x = tagUNB then
    termBind (termPay x) y
    pure (some [])
  else if termTag y = tagUNB then
    termBind (termPay y) x
    pure (some [])
  else if termTag x ≠ termTag y then pure none
  else if termTag x = tagSTR then
    let a ← termAddr x 0
    let b ← termAddr y 0
    let f ← termFun a
    let h ← termFun b
    if f = h then pure (some (argPairs (bits f.toNat 7 0) a b)) else pure none
  else if termTag x = tagLST then
    let a ← termAddr x 0
    let b ← termAddr y 0
    pure (some [(mkTerm tagREF a, mkTerm tagREF b), (mkTerm tagREF (a + 8), mkTerm tagREF (b + 8))])
  else pure none

/-- The walk over a stack of pairs, the top first (R308). -/
def unifyLoop (base : W64) : Nat → List (W64 × W64) → TM Bool
  | _, [] => pure true
  | 0, _ => throw (.trap 9 0 0 0 none)
  | n + 1, (x, y) :: l => do
    termStep 0
    let x ← termDeref x
    let y ← termDeref y
    match ← unifyPair x y with
    | none => pure false
    | some ps =>
      walkRooms base l.length ps
      unifyLoop base n (ps ++ l)

/-! ## The instructions -/

/-- The free bytes of the walk area that a unification has used: its pairs and its undo list (R308, R312). DEDUCED: log entry 45. -/
def TermSt.walked (x : TermSt) (base : W64) : State :=
  let s := x.y.st
  match s.spCheck x.g 1 base with
  | .inr _ => s
  | .inl k =>
    let room := (s.grpWg x.g).base + (s.grpWg x.g).zw - k % 0x200000
    (List.range (min (16 * (x.walk + x.binds)) room)).foldl (fun s i =>
      s.spPut (k + i) [BitVec.ofNat 8 (Config.freeNat s.draw (2 ^ 86 + k + i))]) s

/-- Put a lane's writes into memory and scratchpad, oldest first. -/
def TermSt.commit (x : TermSt) (s : State) : State :=
  let s := x.mem.foldr (fun e s => s.writeBy x.t [] (e.2.2.map (Prod.mk x.t)) e.2.2 e.1 (leBytes e.2.1.toNat 8)) s
  x.sp.foldr (fun e s => s.spPutBy x.t [] none none e.1 (leBytes e.2.toNat 8)) s

/-- A class-6 instruction in each participant, in ascending order: the registers it writes, or a resume address it goes to (R302, R306).
DEDUCED: log entry 45. -/
def termInstr (c : Ctl) (reads : List RegId) (ends : Bool)
    (f : Nat → TM (List (RegId × RVal) × Option W64 × Option W64)) (s : State) : Host.Outcome State Fault Refusal :=
  s.word c { WordSpec.var .c reads with ends := ends } fun s p =>
    let g := s.curG
    let (y, l) := Seen.each (fun y i =>
      match (f (tid g i)).run (termStart g (tid g i) y) with
      | (.error r, x) => (x.y, r)
      | (.ok (w, to_, walk), x) =>
        let s := x.commit (match walk with | none => x.y.st | some b => x.walked b)
        (⟨s, x.y.lines⟩, match to_ with | none => .next w | some r => .jump r w)) p ⟨s, []⟩
    Acted.of y.st (p.zip l)

/-- The writes of term-state registers. -/
def termRegs (l : List (Sreg × W64)) : List (RegId × RVal) := l.map fun e => (.s e.1, .w e.2)

/-- The registers that dereferencing reads. -/
def derefReads : List RegId := [.s .shb, .s .ovb, .s .ovt, .s .steps]
/-- The registers that binding reads beside them. -/
def bindReads : List RegId := derefReads ++ [.s .hb, .s .tr, .s .ovl]

/-- The registers that bindings have moved. -/
def boundRegs (x y : TermSt) : List (RegId × RVal) :=
  termRegs ((if x.tr = y.tr then [] else [(.tr, y.tr)]) ++ if x.ovt = y.ovt then [] else [(.ovt, y.ovt)])

/-- `TAGOF` (R307). -/
def execTagof (c : Ctl) (d a : GReg) (s : State) : Host.Outcome State Fault Refusal :=
  s.perLane c (.fixC 2 [.g a]) fun t => .next [(.g d, .w (BitVec.ofNat 64 (termTag (s.g t a))))]

/-- `DEREF` (R307). -/
def execDeref (c : Ctl) (d a : GReg) (s : State) : Host.Outcome State Fault Refusal :=
  termInstr c (.g a :: derefReads) false (fun t => do
    let w ← termDeref (s.g t a)
    pure ([(.g d, .w w)], none, none)) s

/-- `UNIFY` (R308). -/
def execUnify (c : Ctl) (d : PReg) (a b : GReg) (s : State) : Host.Outcome State Fault Refusal :=
  termInstr c (.g a :: .g b :: .s .chb :: .s .chp :: bindReads) false (fun t => do
    let x ← get
    let base ← termTop
    walkRoom base 0
    let ok ← unifyLoop base (x.limit + 1) [(s.g t a, s.g t b)]
    let y ← get
    pure ((.p d, .p ok) :: boundRegs x y, none, some base)) s

/-- `BIND` (R309). -/
def execBind (c : Ctl) (a b : GReg) (s : State) : Host.Outcome State Fault Refusal :=
  termInstr c (.g a :: .g b :: bindReads) false (fun t => do
    let o ← get
    let x ← termDeref (s.g t a)
    let v ← termDeref (s.g t b)
    if termTag x ≠ tagUNB then throw (termBad 0)
    if v ≠ x then termBind (termPay x) v
    let y ← get
    pure (boundRegs o y, none, none)) s

/-- Write words from an address upward, a fresh UNB word where none is given (R310). -/
def termAlloc : Nat → List (Option W64) → TM Unit
  | _, [] => pure ()
  | a, w :: l => do
    termPut a (w.getD (mkTerm tagUNB a))
    termAlloc (a + 8) l

/-- An allocation at `hp` (R310). -/
def termMake (d : GReg) (tag : Nat) (l : List (Option W64)) : TM (List (RegId × RVal) × Option W64 × Option W64) := do
  let x ← get
  termAlign 8 x.hp
  if 2 ^ 48 < x.hp.toNat + 8 * l.length then throw (.bounds x.hp.toNat)
  else
    termAlloc x.hp.toNat l
    pure ([(.g d, .w (mkTerm tag x.hp.toNat)), (.s .hp, .w (x.hp + BitVec.ofNat 64 (8 * l.length)))], none, none)

/-- `MKVAR` (R310). -/
def execMkvar (c : Ctl) (d : GReg) (s : State) : Host.Outcome State Fault Refusal :=
  termInstr c [.s .hp] false (fun _ => termMake d tagUNB [none]) s

/-- `MKSTR` (R310). -/
def execMkstr (c : Ctl) (d a : GReg) (s : State) : Host.Outcome State Fault Refusal :=
  termInstr c [.g a, .s .hp] false (fun t =>
    let w := s.g t a
    if termTag w = tagFUN then termMake d tagSTR (some w :: List.replicate (bits w.toNat 7 0) none)
    else if termTag w = tagLST then termMake d tagLST [none, none]
    else throw (termBad 0)) s

/-- Write 8-byte words of the scratchpad from an address upward. -/
def termSpPuts : W64 → List W64 → TM Unit
  | _, [] => pure ()
  | a, w :: l => do
    termSpPut 8 a w
    termSpPuts (a + 8) l

/-- The argument registers of a choice point. -/
def argReg (i : Nat) : GReg := BitVec.ofNat 6 (40 + i)

/-- `CHPT` (R311). -/
def execChpt (c : Ctl) (n : BitVec 4) (off : BitVec 18) (s : State) : Host.Outcome State Fault Refusal :=
  let args := (List.range n.toNat).map argReg
  termInstr c ([.s .chb, .s .chp, .s .hp, .s .tr, .s .ovt] ++ args.map .g) false (fun t => do
    let x ← get
    let top ← termTop
    termAlign 8 x.hp
    termAlign 8 x.tr
    termAlign 16 x.ovt
    let alt := (s.cur.hdr + (off.signExtend 48 <<< 3)).toNat
    termSpPuts top ([BitVec.ofNat 64 (alt + 2 ^ 48 * n.toNat), x.hp, x.tr, x.ovt, x.chp] ++ args.map fun r => s.g t r)
    pure (termRegs [(.chp, top), (.hb, x.hp)], none, none)) s

/-- Reset the `n` trailed words from a trail entry downward (R311). -/
def termUnwind : Nat → W64 → TM Unit
  | 0, _ => pure ()
  | n + 1, e => do
    let a ← termSp 8 e
    termPut a.toNat (mkTerm tagUNB a.toNat)
    termUnwind n (e - 8)

/-- The 8-byte words of the scratchpad from an address upward. -/
def termSpGets : Nat → W64 → TM (List W64)
  | 0, _ => pure []
  | n + 1, a => do
    let w ← termSp 8 a
    let l ← termSpGets n (a + 8)
    pure (w :: l)

/-- The heap mark of a choice point, 0 for none. -/
def termMark (chp : W64) : TM W64 := if chp = 0 then pure 0 else termSp 8 (chp + 8)

/-- What `FAIL` does in one lane (R311). -/
def termFail : TM (List (RegId × RVal) × Option W64 × Option W64) := do
  let x ← get
  if x.chp = 0 then throw (.trap 11 0 0 0 none)
  else
    let r ← termSpGets 5 x.chp
    let w := r.getD 0 0
    let n := bits w.toNat 51 48
    let trail := r.getD 2 0
    let ovt := r.getD 3 0
    let prev := r.getD 4 0
    termAlign 8 x.tr
    termAlign 16 x.ovb
    termAlign 16 x.ovt
    if 8 < n ∨ x.tr.toNat < trail.toNat ∨ ovt.toNat < x.ovb.toNat ∨ x.ovt.toNat < ovt.toNat then throw (.bounds x.chp.toNat)
    else
      termUnwind ((x.tr.toNat - trail.toNat) / 8) (x.tr - 8)
      let args ← termSpGets n (x.chp + 40)
      let hb ← termMark prev
      pure (termRegs [(.tr, trail), (.hp, r.getD 1 0), (.ovt, ovt), (.chp, prev), (.hb, hb)] ++
        args.zipIdx.map (fun e => (.g (argReg e.2), .w e.1)), some (w &&& 0xFFFFFFFFFFFF), none)

/-- `FAIL`: the lanes that take part issue nothing until it completes, and then go on at the alternative (R311).
DEDUCED: log entry 46. -/
def execFail (c : Ctl) (s : State) : Host.Outcome State Fault Refusal :=
  s.word c (.var .c [.s .chp, .s .tr, .s .ovb, .s .ovt]) fun s p =>
    let g := s.curG
    let (y, l) := Seen.each (fun y i =>
      match termFail.run (termStart g (tid g i) y) with
      | (.error r, x) => (x.y, r)
      | (.ok (w, to_, _), x) => (⟨x.commit x.y.st, x.y.lines⟩, .jump (to_.getD 0) w)) p ⟨s, []⟩
    let res := p.zip l
    let goes := maskOf ((res.filter fun e => match e.2 with | .jump _ _ => true | _ => false).map (·.1))
    Acted.of (y.st.modLanes g goes fun x => { x with waitOp := y.st.nextId }) res

/-- `CUT` (R311). -/
def execCut (c : Ctl) (a : Option GReg) (s : State) : Host.Outcome State Fault Refusal :=
  termInstr c ((a.toList.map .g) ++ [.s .chp] ++ if a.isSome then [.s .chb] else []) false (fun t => do
    let x ← get
    match a with
    | some r =>
      let v := s.g t r
      termAlign 8 x.chb
      termAlign 8 x.chp
      if v ≠ 0 ∧ (v.toNat % 8 ≠ 0 ∨ v.toNat < x.chb.toNat ∨ x.chp.toNat < v.toNat) then throw (.bounds v.toNat)
      else
        let hb ← termMark v
        pure (termRegs [(.chp, v), (.hb, hb)], none, none)
    | none =>
      if x.chp = 0 then pure ([], none, none)
      else
        let prev ← termSp 8 (x.chp + 32)
        let hb ← termMark prev
        pure (termRegs [(.chp, prev), (.hb, hb)], none, none)) s

/-! ## Publication (R312) -/

/-- The entries of an overlay with their translated places, oldest first. -/
def ovEntries : Nat → W64 → TM (List (Nat × W64))
  | 0, _ => pure []
  | n + 1, e => do
    let a ← termSp 16 e
    let v ← termSp 8 (e + 8)
    let p ← termPlace Need.atomic a.toNat
    match p with
    | .view _ _ _ => throw (.bounds a.toNat)
    | .lin _ =>
      let l ← ovEntries n (e + 16)
      pure ((a.toNat, v) :: l)

/-- The word at an address as the compare-and-swap of a publication reads it at a scope (R115, R312). -/
def casWord (sc : BitVec 4) (a : Nat) : TM W64 := do
  let p ← termPlace Need.atomic a
  let x ← get
  match x.own p with
  | some w => pure w
  | none => match x.y.st.latentAt p 8 with
    | some (code, pa) => throw (.mchk code (BitVec.ofNat 64 a) pa)
    | none => do
      let (s, b) := x.y.st.seeAtomic x.t sc false .mem (State.spots p 8)
      set { x with y := ⟨s, x.y.lines⟩ }
      pure (BitVec.ofNat 64 (leVal b))

/-- Publish entries in order, each with a release at the scope; those that are not published are kept (R312, R314).
DEDUCED: log entry 46. -/
def ovPublish (sc : BitVec 4) : List (Nat × W64) → W64 → TM W64
  | [], kept => pure kept
  | (a, v) :: l, kept => do
    let old ← casWord sc a
    if old = mkTerm tagUNB a then
      let p ← termPlace Need.atomic a
      modify fun x => { x with mem := (p, v, some sc) :: x.mem }
      ovPublish sc l kept
    else if old = v then ovPublish sc l kept
    else
      termSpPut 16 kept (BitVec.ofNat 64 a)
      termSpPut 8 (kept + 8) v
      ovPublish sc l (kept + 16)

/-- `OVPUB` (R312). -/
def execOvpub (c : Ctl) (sc : Scope) (d : GReg) (s : State) : Host.Outcome State Fault Refusal :=
  termInstr c [.s .chp, .s .ovb, .s .ovt] true (fun _ => do
    let x ← get
    if x.chp ≠ 0 then throw (.trap 10 0 x.ovt 0 none)
    else
      termAlign 16 x.ovb
      termAlign 16 x.ovt
      let l ← ovEntries (overlayLen x.ovb x.ovt) x.ovb
      let kept ← ovPublish sc.code l x.ovb
      pure ([(.g d, .w (BitVec.ofNat 64 ((kept.toNat - x.ovb.toNat) / 16))), (.s .ovt, .w kept)], none, none)) s

end Sys2Proof.Machine
end

