-- ==== Sys2Proof/Machine/Exchange.lean ====
section
/-!
DEFINITION. Class 8: routes and their checks (R317–R321, R340, R341), remote writes and reads (R330, R333, R334), ring messages and the
consumer side of rings (R335–R338), exchange fences (R339), and how a transfer is injected and ends (R331).
-/
namespace Sys2Proof.Machine

/-! ## Routes (R317, R318) -/

/-- Symbol i of a route. -/
def routeSym (r : W128) (i : Nat) : Nat := bits r.toNat (35 + 4 * i) (32 + 4 * i)
/-- The number of symbols that the header names. -/
def routeN (r : W128) : Nat := bits r.toNat 4 0
/-- The symbols of a route. -/
def routeSyms (r : W128) : List Nat := (List.range (routeN r)).map (routeSym r)
/-- The destination kind. -/
def routeKind (r : W128) : Nat := bits r.toNat 10 8
/-- The traffic class. -/
def routeTc (r : W128) : TClass := TClass.ofCode (BitVec.ofNat 2 (bits r.toNat 7 6))

/-- The conditions on a route's header (R320, code 1). -/
def routeHeaderOk (r : W128) : Bool :=
  bits r.toNat 31 11 == 0 && decide (routeKind r ≤ 3) && !bitAt r.toNat 5 && decide (1 ≤ routeN r) && decide (routeN r ≤ 24) &&
    bits r.toNat 127 32 / 2 ^ (4 * routeN r) == 0

/-- A route of a header and symbols (R317). -/
def routeOf (kind tc : Nat) (l : List Nat) : W128 :=
  BitVec.ofNat 128 (l.length + 64 * tc + 256 * kind + 2 ^ 32 * l.foldr (fun x n => x % 16 + 16 * n) 0)

/-- The opposite of a mesh direction: north 1, east 2, south 3, west 4. -/
def dirOpp (d : Nat) : Nat := if d ≤ 2 then d + 2 else d - 2

/-- The cluster one mesh hop away, if the hop stays in the 4×4 mesh (R2). -/
def meshStep (c d : Nat) : Option Nat :=
  match d with
  | 1 => if 4 ≤ c then some (c - 4) else none
  | 2 => if c % 4 < 3 then some (c + 1) else none
  | 3 => if c < 12 then some (c + 4) else none
  | 4 => if 0 < c % 4 then some (c - 1) else none
  | _ => none

/-! ## Checking a route (R320, R321) -/

/-- Where a check of a route stands: the cluster, while it is in the checking module's own segment; the mesh hops of the segment; the
direction of the last one, or 0; and whether an escape-5 group has just ended. -/
structure RouteAt where
  own   : Option Nat
  hops  : Nat
  last  : Nat
  five  : Bool
deriving DecidableEq, Repr

/-- The port number of an escape group. -/
def escNum (a b : Nat) : Nat := a + 16 * b

/-- Whether a next-hop entry of the topology map is valid, and its Ethernet port (R430). -/
def State.nextHop (s : State) (e : Nat) : Option Nat :=
  let w := s.rd (s.sys.topo.toNat + 0x92A0 + 32 * e) 8
  if bitAt w 0 then some (bits w 3 2) else none

/-- Whether a port is marked down. -/
def State.portDown (s : State) (p : Nat) : Bool := mget false s.portsDown p
/-- Whether the link that leaves a cluster in a direction is marked down. -/
def State.linkDown (s : State) (c d : Nat) : Bool := mget false s.linksDown (8 * c + d)

/-- The first failure of the conditions 2 to 9 of R320 over the symbols from number `i` on: the index and the code. -/
def routeFail (s : State) (kind : Nat) : (i : Nat) → RouteAt → List Nat → Option (Nat × Nat)
  | i, _, [] => some (i - 1, 8)
  | i, w, 5 :: a :: b :: l =>
    let p := escNum a b
    if 24 ≤ p then some (i, 2)
    else if w.own.isSome && s.portDown p then some (i, 4)
    else if w.five || w.own.any (fun c => (Config.portCluster p).toNat != c) then some (i, 7)
    else if kind = 1 then some (i, 9)
    else routeFail s kind (i + 3) ⟨none, 0, 0, true⟩ l
  | i, w, 6 :: a :: b :: l =>
    if 192 ≤ escNum a b then some (i, 2)
    else if !w.five then some (i, 7)
    else if kind = 1 then some (i, 9)
    else routeFail s kind (i + 3) ⟨none, 0, 0, false⟩ l
  | i, w, 7 :: a :: b :: l =>
    let port := if w.own.isSome then s.nextHop (escNum a b) else none
    if port.any (fun p => s.portDown (24 + p)) then some (i, 4)
    else if w.five || w.own.any (fun c => !port.any fun p => (Config.portCluster (24 + p)).toNat == c) then some (i, 7)
    else if kind = 1 ∨ ((kind = 0 ∨ kind = 2) ∧ l = [0]) then some (i, 9)
    else if kind = 3 ∧ l = [0] then none
    else routeFail s kind (i + 3) ⟨none, 0, 0, false⟩ l
  | i, w, 0 :: l =>
    if w.own.any (fun c => (s.cl c).retired) then some (i, 4)
    else if w.five then some (i, 7)
    else if l ≠ [] then some (i, 8)
    else if kind = 3 then some (i, 9)
    else none
  | i, w, d :: l =>
    if d = 5 ∨ d = 6 ∨ d = 7 ∨ 8 ≤ d then some (i, 2)
    else if w.own.any (fun c => (meshStep c d).isNone) then some (i, 3)
    else if w.own.any (fun c => s.linkDown c d) then some (i, 4)
    else if w.last = dirOpp d then some (i, 5)
    else if 12 ≤ w.hops then some (i, 6)
    else if w.five then some (i, 7)
    else routeFail s kind (i + 1) ⟨w.own.bind fun c => meshStep c d, w.hops + 1, d, false⟩ l

/-- The check of a route at injection from a cluster: the first failure's index and code (R320, R321). DEDUCED: log entry 47. -/
def State.routeCheck (s : State) (c : Nat) (r : W128) : Option (Nat × Nat) :=
  if !routeHeaderOk r then some (255, 1) else routeFail s (routeKind r) 0 ⟨some c, 0, 0, false⟩ (routeSyms r)

/-- The check of the rest of a route, at an ingress or for a reply (R319, R321). -/
def State.restOk (s : State) (c kind : Nat) (l : List Nat) : Bool := (routeFail s kind 0 ⟨some c, 0, 0, false⟩ l).isNone

/-- The escape symbols of a route, in order. -/
def routeEscs : List Nat → List Nat
  | e :: a :: b :: l => if 5 ≤ e ∧ e ≤ 7 then e :: routeEscs l else routeEscs (a :: b :: l)
  | _ => []

/-- The cluster of this module at which a route without an escape ejects. -/
def routeEnd : Nat → List Nat → Nat
  | c, [] => c
  | c, d :: l => routeEnd ((meshStep c d).getD c) l

/-- The symbols of the dimension-ordered path between two clusters, with its eject (R340). -/
def xyPath (a b : Nat) : List Nat :=
  (if a % 4 ≤ b % 4 then List.replicate (b % 4 - a % 4) 2 else List.replicate (a % 4 - b % 4) 4) ++
    (if a / 4 ≤ b / 4 then List.replicate (b / 4 - a / 4) 3 else List.replicate (a / 4 - b / 4) 1) ++ [0]

/-- `RTXY` (R340). -/
def execRtxy (c : Ctl) (tc : TClass) (d : GReg) (a k : Src) (s : State) : Host.Outcome State Fault Refusal :=
  s.perLane c { WordSpec.fixA 4 (a.regs ++ k.regs) with bow := false } fun t =>
    let r := routeOf (bits (s.src t k).toNat 2 0) tc.code.toNat
      (xyPath (coreCluster s.cur.core) (bits (s.src t a).toNat 3 0))
    .next [(.g d, .w (r.truncate 64)), (.g (d + 1), .w (r.extractLsb' 64 64))]

/-- `RTCHK` (R341). -/
def execRtchk (c : Ctl) (d a : GReg) (s : State) : Host.Outcome State Fault Refusal :=
  s.perLane c { WordSpec.fixA 6 (pairRegs a) with bow := false } fun t =>
    .next [(.g d, .w (match s.routeCheck (coreCluster s.cur.core) (s.pair t a) with
      | none => 0
      | some (i, k) => BitVec.ofNat 64 (256 * i + k)))]

/-! ## Injection (R326, R333, R422) -/

/-- The key of a router's input queue: mesh 1 is the reply mesh (R327). -/
def inKey (reply : Bool) (c input : Nat) (v : TClass) : Nat :=
  32 * (16 * (if reply then 1 else 0) + c) + 4 * input + v.code.toNat

/-- The flits that a channel's buffer of an input holds (R422). -/
def bufFlits (reply : Bool) : Nat := if reply then 16 else 32

namespace State

/-- The packets waiting at an input for a channel. -/
def queueAt (s : State) (k : Nat) : List Pkt := mget [] s.routers k
/-- The state with the packets at an input replaced. -/
def setQueue (s : State) (k : Nat) (l : List Pkt) : State := { s with routers := mset [] s.routers k l }

/-- Put a packet at the end of an input queue; at the front of an empty one it is the head from the cycle in which it arrives. -/
def pushPkt (s : State) (k : Nat) (p : Pkt) : State := s.setQueue k (s.queueAt k ++ [{ p with headAt := max p.due s.cycle }])

/-- The free flits of an input's buffer. -/
def freeFlits (s : State) (reply : Bool) (c i : Nat) (v : TClass) : Nat :=
  bufFlits reply - (s.queueAt (inKey reply c i v)).foldl (fun n p => n + p.flits) 0

/-- The state with a transfer changed. -/
def modXfer (s : State) (id : Nat) (f : Xfer → Xfer) : State :=
  { s with xfers := s.xfers.map fun (x : Xfer) => if x.id == id then f x else x }

/-- A transfer. -/
def xfer (s : State) (id : Nat) : Option Xfer := s.xfers.find? fun x => x.id == id

end State

/-- The data bytes that a request packet carries: its lanes' bytes, by 32-byte sector of its window. -/
def Xfer.reqFlits (x : Xfer) : Nat :=
  if !x.write then 1
  else if x.ring then 1 + 2 * ((x.lanes.headD ⟨0, 0, none, []⟩).data.length / 64)
  else 1 + ((x.lanes.map fun l => l.addr.toNat / 32).eraseDups).length

/-- The flits of its reply packet. -/
def Xfer.repFlits (x : Xfer) : Nat := if x.write then 1 else 1 + ((x.lanes.map fun l => l.addr.toNat / 128).eraseDups).length

namespace State

/-- Inject the request of a transfer at the local input of its cluster's request router (R333, R422). DEDUCED: log entry 49. -/
def inject (s : State) (x : Xfer) : State :=
  let c := coreCluster (groupCore x.group)
  let s := s.modXfer x.id fun y => { y with pos := .going, since := s.cycle }
  s.pushPkt (inKey false c 0 x.tc)
    ⟨x.id, false, (routeSyms x.route).map (BitVec.ofNat 4), [], x.tc, x.reqFlits, s.cycle, s.cycle, false⟩

/-- Whether everything that a releasing transfer waits for is performed: the earlier transfers and scratchpad loads of its lanes
(R334). DEDUCED: log entry 49. -/
def mayInject (s : State) (x : Xfer) : Bool :=
  (!s.xfers.any fun y => y.group == x.group && !y.foreign && decide (y.op < x.op) && y.pmask &&& x.pmask != 0#32 && !y.late &&
    (match y.pos with | .returning | .back | .lost => false | _ => true)) &&
  !s.ops.any fun o => o.group == x.group && decide (o.id < x.op) && o.lanes &&& x.pmask != 0#32 &&
    (match o.kind with | .ldx _ _ _ _ _ => true | _ => false)

/-- Inject the transfers that nothing holds any more: the local input has room, and a release waits for nothing (R334, R422). -/
def injectHeld : List Xfer → State → State
  | [], s => s
  | x :: l, s =>
    injectHeld l (if x.pos = .held ∧ (x.rel = none ∨ s.mayInject x) ∧
        x.reqFlits ≤ s.freeFlits false (coreCluster (groupCore x.group)) 0 x.tc then s.inject x else s)

/-- Who knows of a thread's writing transfers whose status has come, and of those that an `XFENCE` has ordered before its later
transfers (R339). -/
def sentBy (t : Nat) : Holder := .queue (2 ^ 40 + 2 * t)
def fencedBy (t : Nat) : Holder := .queue (2 ^ 40 + 2 * t + 1)

/-! ## The end of a transfer (R331, R333) -/

/-- A pending write of an operation with the value that has come for its register. -/
def lateValue (op : Nat) (w : List (RegId × RVal)) (e : Pend) : Pend :=
  if e.op = op then { e with val := ((w.filter fun y => y.1 == e.reg).map (·.2)).headD e.val } else e

/-- Give a lane the result of an operation: the placeholders of its destination take their values (R161). -/
def lateResult (s : State) (t op : Nat) (w : List (RegId × RVal)) : State :=
  s.modThr t fun x => { x with pend := x.pend.map (lateValue op w) }

/-- The result that a lane of a transfer receives (R331, R333). -/
def xferResult (x : Xfer) (i : Nat) : List (RegId × RVal) :=
  match x.dst with
  | none => []
  | some d =>
    if x.write then (match d with | .g r => [(.g r, .w (x.status.zeroExtend 64))] | .v _ => [])
    else loadWrites x.ty d (if x.status = 0#8 then
      leVal (((x.data.find? fun e => e.1 == i).map (·.2)).getD []) else 0)

/-- The exchange error record of a transfer (R331, R384). -/
def xferError (s : State) (x : Xfer) : State :=
  s.postGroup false 7 x.group (x.pmask.toNat + 2 ^ 32 * x.status.toNat) (x.lanes.headD ⟨0, 0, none, []⟩).addr.toNat
    (x.route.toNat % 2 ^ 64) (x.route.toNat / 2 ^ 64) 0

/-- A transfer ends with a status: its lanes receive their results, an error is reported, and the word's operation completes with its
last packet (R331, R333). A transfer that timed out keeps its place, so that a late reply is known and discarded. -/
def endXfer (s : State) (id : Nat) (status : BitVec 8) (keep : Bool) : State :=
  match s.xfer id with
  | none => s
  | some x =>
    let x := { x with status := status }
    let live := !x.foreign && !x.late && s.ops.any fun o => o.id == x.op
    let s := if keep then s.modXfer id fun y => { y with late := true }
      else { s with xfers := s.xfers.filter fun y => y.id != id }
    if !live then s
    else
      let s := (lanesOf x.pmask).foldl (fun s i => s.lateResult (tid x.group i) x.op (xferResult x i)) s
      let s := if x.write then (lanesOf x.pmask).foldl (fun s i => s.pass (.op x.id) (sentBy (tid x.group i)) []) s else s
      let s := if status = 2#8 ∨ status = 3#8 then s.xferError x else s
      if s.xfers.any fun y => y.op == x.op && !y.late then s
      else { s with ops := s.ops.map fun (o : OutOp) => if o.id == x.op then { o with done := true } else o }

/-- A transfer carries what its lanes' fences have ordered before it, and a release what its lanes know (R334, R338, R339). -/
def carry (s : State) (x : Xfer) : State :=
  (lanesOf x.pmask).foldl (fun s i =>
    let t := tid x.group i
    let s := s.pass (fencedBy t) (.op x.id) []
    match x.rel with
    | some sc => s.pass (.agent t) (.op x.id) [(t, sc)]
    | none => s) s

/-- The packets of a word leave for the mesh, or wait for room or for what a release waits for (R333, R334, R422). -/
def launchXfers (s : State) (l : List Xfer) : State :=
  injectHeld l (l.foldl (fun s x => s.carry x) { s with xfers := s.xfers ++ l })

end State

/-! ## Remote writes and reads (R330, R333, R334) -/

/-- `ROUTE_INVALID` with an index and a code (R330, R381). -/
def LaneRes.route (i k : Nat) : LaneRes := .trap 7 i (BitVec.ofNat 64 k) 0 none

/-- A scratchpad place on another cluster of the region: only its cluster share is reachable (R330). -/
def farPlace (s : State) (w : Nat) (a : W64) : CopyPlace ⊕ LaneRes :=
  let x := a.toNat
  let c := bits x 28 25
  let off := bits x 20 0
  if bits x 63 30 ≠ 0 ∨ !bitAt x 29 ∨ (s.cl c).zs < off + w then .inr (.bounds x)
  else if off % w ≠ 0 then .inr (.align x)
  else .inl (.sp (spKey c (bits x 24 21) (mget 0 (s.cl c).share (bits x 24 21) + off)))

/-- The place of a KIND 0 or KIND 2 access whose route ends in this module (R330). -/
def spPlace (s : State) (g w : Nat) (r : W128) (a : W64) : CopyPlace ⊕ LaneRes :=
  let own := coreCluster (groupCore g)
  let e := routeEnd own (routeSyms r).dropLast
  let region := match (s.cl own).region with
    | none => [own]
    | some rcb => s.regionClusters rcb
  if !region.contains e || e != bits a.toNat 28 25 then .inr (.route (routeN r - 1) 10)
  else if e = own then
    match s.spCheck g w a with
    | .inl k => .inl (.sp k)
    | .inr t => .inr t
  else farPlace s w a

/-- The place of a KIND 1 access: alignment, translation and the owner of its line (R330). -/
def memPlace (g w : Nat) (n : Need) (r : W128) (a : W64) (y : Seen) : Seen × (CopyPlace ⊕ LaneRes) :=
  if a.toNat % w ≠ 0 then (y, if 2 ^ 48 ≤ a.toNat then .inr (.bounds a.toNat) else .inr (.align a.toNat))
  else match y.reach g n 6 a.toNat with
    | (y, .inr t) => (y, .inr t)
    | (y, .inl p) =>
      let home := match owner (p.at 0) with
        | some c => c
        | none => Config.hostCluster.toNat
      (y, if home = routeEnd (coreCluster (groupCore g)) (routeSyms r).dropLast then .inl (.mem p)
        else .inr (.route (routeN r - 1) 10))

/-- The place of one lane's access, with the checks of R330; none when it lies outside the module. -/
def xferPlace (g w : Nat) (n : Need) (r : W128) (a : W64) (y : Seen) : Seen × (Option CopyPlace ⊕ LaneRes) :=
  let some1 := fun (q : CopyPlace ⊕ LaneRes) => (match q with | .inl p => .inl (some p) | .inr t => .inr t : Option CopyPlace ⊕ LaneRes)
  if routeKind r = 1 then
    let (y, q) := memPlace g w n r a y
    (y, some1 q)
  else if (routeEscs (routeSyms r)).isEmpty then (y, some1 (spPlace y.st g w r a))
  else (y, .inl none)

/-- One lane of `XWRITE` or `XREAD`: its route and its access, or its trap or fault (R321, R330, R333). `x` is a write's data.
DEDUCED: log entry 47. -/
def xferLane (g w : Nat) (n : Need) (x : Option (Nat → Nat ⊕ LaneRes)) (s0 : State) (a r : GReg) (y : Seen) (i : Nat) :
    Seen × ((W128 × XLane) ⊕ LaneRes) :=
  let t := tid g i
  let rt := s0.pair t r
  let va := s0.g t a
  match s0.routeCheck (coreCluster (groupCore g)) rt with
  | some (k, code) => (y, .inr (.route k code))
  | none =>
    if 2 ≤ routeKind rt ∨ (x.isNone ∧ (routeEscs (routeSyms rt)).contains 7) then (y, .inr (.route 255 11))
    else match (match x with | none => Sum.inl 0 | some f => f t) with
      | .inr bad => (y, .inr bad)
      | .inl v => match xferPlace g w n rt va y with
        | (y, .inr bad) => (y, .inr bad)
        | (y, .inl p) =>
          match x, p with
          | none, some (.sp k) => if y.st.latentSp k w then (y, .inr (.mchk 2 (va ||| 1#64 <<< 63) k))
              else (y, .inl (rt, ⟨i, va, p, []⟩))
          | none, some (.mem q) => match y.st.latentAt q w with
            | some (code, pa) => (y, .inr (.mchk code va pa))
            | none => (y, .inl (rt, ⟨i, va, p, []⟩))
          | _, _ => (y, .inl (rt, ⟨i, va, p, if x.isSome then leBytes v w else []⟩))

/-- Group lanes by equal routes and by 512-byte window, in the order in which they appear (R333). -/
def packets : Nat → List (W128 × XLane) → List (W128 × List XLane)
  | 0, _ => []
  | _, [] => []
  | n + 1, (r, x) :: l =>
    let same := fun (e : W128 × XLane) => e.1 == r && e.2.addr.toNat / 512 == x.addr.toNat / 512
    (r, x :: (l.filter same).map (·.2)) :: packets n (l.filter fun e => !same e)

/-- The transfers of a word: one for each packet, numbered from `id` on. -/
def makeXfers (id op g w : Nat) (t : ITy) (write : Bool) (d : Option Dat) (rcb : BitVec 48) (rel acq : Option (BitVec 4))
    (l : List (W128 × List XLane)) : List Xfer :=
  l.zipIdx.map fun (e, k) =>
    { id := id + k, op := op, group := g, lanes := e.2, pmask := maskOf (e.2.map (·.lane)), write := write, ring := false, width := w,
      ty := t, dst := d, kind := BitVec.ofNat 3 (routeKind e.1), tc := routeTc e.1, route := e.1, posted := false,
      pos := .held, since := 0, status := 0, data := [], cluster := 0, back := [], foreign := false, late := false, rcb := rcb,
      rel := rel, acq := acq }

/-- The pipeline's view of a transfer. -/
def xferSpec (reads : List RegId) : WordSpec := { WordSpec.var .x reads with ends := true }

/-- The registers that a destination names, each with a value that leaves it as it is until the reply. DEDUCED: log entry 48. -/
def waitFor (t : ITy) : Option Dat → List (RegId × RVal)
  | none => []
  | some d => (d.regs t).map fun r => (r, .orF 0)

/-- `XWRITE` and `XREAD` in their participants (R333). -/
def xferWord (c : Ctl) (t : ITy) (o : Ordr) (sc : Scope) (d : Option Dat) (a r : GReg) (x : Option Dat) (s : State) :
    Host.Outcome State Fault Refusal :=
  let reads := (RegId.g a :: pairRegs r) ++ (match x with | none => [] | some y => y.regs t)
  s.word c (xferSpec reads) fun s p =>
    let g := s.curG
    let n := if x.isSome then Need.store else Need.load
    let (y, l) := Seen.each (xferLane g t.bytes n (x.map fun d t' => s.storeData t' t d) s a r) p ⟨s, []⟩
    let good := l.filterMap fun e => match e with | .inl z => some z | .inr _ => none
    let ps := packets good.length good
    let s := y.st
    let id := s.nextId
    let op := id + ps.length
    let s := { s with nextId := op }
    let s := s.launchXfers (makeXfers id op g t.bytes t x.isSome d (s.grp g).rcb (releases o sc) (acquires o sc) ps)
    let s := if x.isNone ∧ o = .acq then s.modLanes g (maskOf (good.map (·.2.lane))) fun z => { z with waitOp := op } else s
    let w := if x.isSome then waitFor .n64 d else waitFor t d
    { Acted.of s ((p.zip l).map fun (i, e) => (i, match e with | .inl _ => .next w | .inr b => b)) with
      kind := .xfer, done := false }

/-- `XWRITE` (R333, R334). -/
def execXwrite (c : Ctl) (t : ITy) (o : Ordr) (sc : Scope) (d : Option GReg) (a r : GReg) (x : Dat) (s : State) :
    Host.Outcome State Fault Refusal := xferWord c t o sc (d.map .g) a r (some x) s
/-- `XREAD` (R333, R334). DEDUCED: log entry 48. -/
def execXread (c : Ctl) (t : ITy) (o : Ordr) (sc : Scope) (d : Dat) (a r : GReg) (s : State) :
    Host.Outcome State Fault Refusal := xferWord c t o sc (some d) a r none s

/-! ## Ring messages (R330, R336) -/

/-- The route and the descriptor's place of a ring message or an Ethernet frame, or its trap (R330). -/
def sendPlace (s : State) (g : Nat) (rt : W128) (q : W64) : Option CopyPlace ⊕ LaneRes :=
  match s.routeCheck (coreCluster (groupCore g)) rt with
  | some (k, code) => .inr (.route k code)
  | none =>
    if routeKind rt < 2 then .inr (.route 255 11)
    else if routeKind rt = 3 ∨ !(routeEscs (routeSyms rt)).isEmpty then .inl none
    else match spPlace s g 32 rt q with
      | .inl p => .inl (some p)
      | .inr t => .inr t

/-- `XSEND` (R336). -/
def execXsend (c : Ctl) (d : GReg) (r q x : GReg) (nm1 : BitVec 3) (s : State) : Host.Outcome State Fault Refusal :=
  let w : WordSpec := { engineSpec .x (pairRegs r ++ [.g q, .g x]) true with bow := false }
  s.word c w fun s p =>
    match p with
    | [] => Acted.of s []
    | i :: _ =>
      let g := s.curG
      let t := tid g i
      let n := nm1.toNat + 1
      let rt := s.pair t r
      let dst := s.g t q
      match sendPlace s g rt dst with
      | .inr b => allLanes s p b
      | .inl place => match s.spRange g (64 * n) 64 (s.g t x) with
        | .inr b => allLanes s p b
        | .inl k => match s.spLoad k (64 * n) (s.g t x) with
          | .inr b => allLanes s p b
          | .inl v =>
            let id := s.nextId
            let m : Xfer :=
              { id := id, op := id + 1, group := g, lanes := [⟨i, dst, place, leBytes v (64 * n)⟩], pmask := maskOf p, write := true,
                ring := true, width := 32, ty := .n64, dst := some (.g d), kind := BitVec.ofNat 3 (routeKind rt), tc := routeTc rt,
                route := rt, posted := false, pos := .held, since := 0, status := 0, data := [], cluster := 0, back := [],
                foreign := false, late := false, rcb := (s.grp g).rcb, rel := none, acq := none }
            let s := { s with nextId := id + 1 }
            { Acted.of (s.launchXfers [m]) (p.map fun j => (j, .next [(.g d, .orF 0)])) with kind := .xfer, done := false }

/-- What `XFENCE` orders for a thread: its writing transfers that have their status before its later accesses and transfers, and with
`.rw` what a `FENCE.rw` orders (R339). -/
def State.xfenceBy (s : State) (k : FKind) (sc : BitVec 4) (t : Nat) : State :=
  let s := if k = .ld then s
    else (s.pass (State.sentBy t) (State.fencedBy t) [(t, sc)]).pass (State.sentBy t) (.agent t) [(t, sc)]
  if k = .rw then s.fenceBy t sc else s

/-- `XFENCE`: the path holds until the earlier transfers of its participants of the named kind have their status (R339). -/
def execXfence (c : Ctl) (k : FKind) (sc : Scope) (s : State) : Host.Outcome State Fault Refusal :=
  match s.gate c (.var .x []) with
  | .go p _ =>
    let m := maskOf p
    let named := fun (x : Xfer) => match k with
      | .st => x.write
      | .ld => !x.write
      | .rw => true
    if s.xfers.any fun x => x.group == s.curG && !x.foreign && !x.late && named x && x.pmask &&& m != 0#32 then s.holdWord.out
    else s.inTurn c (.var .x []) fun s t => (s.xfenceBy k sc.code t, .done)
  | _ => s.inTurn c (.var .x []) fun s t => (s.xfenceBy k sc.code t, .done)

/-! ## Rings at the consumer (R335, R337) -/

/-- Whether a ring descriptor at a scratchpad place is well formed: reserved fields zero, at most 2^14 slots, and slots that lie on the
descriptor's cluster inside one allocation `room` (R335). -/
def State.ringOk (s : State) (k : Nat) (room : Nat → Nat → Bool) : Bool :=
  let d := s.spRd k 32
  let base := bits d 29 0
  bits d 255 224 == 0 && bits d 191 176 == 0 && bits d 159 133 == 0 && bits d 63 30 == 0 && decide (bits d 132 128 ≤ 14) &&
    base % 64 == 0 && room base (64 * 2 ^ bits d 132 128)

/-- The descriptor of a ring that a consumer names, checked (R337): its place, fill, HEAD, BASE and number of slots. -/
def State.ringOf (s : State) (t : Nat) (a : SpOp) : (Nat × Nat × Nat × Nat × Nat) ⊕ LaneRes :=
  let g := threadGroup t
  let va := a.addr (s.g t a.base)
  match s.spCheck g 32 va with
  | .inr r => .inr r
  | .inl k => match s.spLoad k 32 va with
    | .inr r => .inr r
    | .inl _ =>
      let ok := s.ringOk k fun base n => match s.spRange g n 64 (BitVec.ofNat 64 base) with
        | .inl _ => true
        | .inr _ => false
      let (f, head, base, n) := s.ringAt k
      if !ok || decide (n < f) then .inr (.bounds va.toNat) else .inl (k, f, head, base, n)

/-- The address of the slot at HEAD. -/
def slotAt (head base n : Nat) : W64 := BitVec.ofNat 64 (base + 64 * (head % n))

/-- The pipeline's view of a consumer's word. -/
def ringSpec (a : SpOp) : WordSpec := WordSpec.var .a [.g a.base]

/-- `RINGPOLL`: its view of TAIL is an acquire at `.clus` (R337, R338). -/
def execRingpoll (c : Ctl) (d : GReg) (a : SpOp) (s : State) : Host.Outcome State Fault Refusal :=
  s.inTurn c (ringSpec a) fun s t => match s.ringOf t a with
    | .inr r => (s, r)
    | .inl (k, f, head, base, n) =>
      (s.acquireSp t 4 (k + 12) 4, .next [(.g d, .w (if f = 0 then 0 else slotAt head base n)), (.g (d + 1), .w (BitVec.ofNat 64 f))])

/-- `RINGWAIT` (R337, R338). -/
def execRingwait (c : Ctl) (d : GReg) (a : SpOp) (s : State) : Host.Outcome State Fault Refusal :=
  s.inTurn c (ringSpec a) fun s t => match s.ringOf t a with
    | .inr r => (s, r)
    | .inl (k, f, head, base, n) =>
      if f ≠ 0 then (s.acquireSp t 4 (k + 12) 4, .next [(.g d, .w (slotAt head base n))])
      else (s.sleep (threadGroup t) (1#32 <<< threadLane t) s.curPc s.curNext c.ctr (s.dueAt c) (.ringwait k (s.g t a.base) d), .gone)

/-- `RINGADV`: HEAD is written with a release at `.clus` (R337, R338). -/
def execRingadv (c : Ctl) (a : SpOp) (n : Src) (s : State) : Host.Outcome State Fault Refusal :=
  s.once c { engineSpec .a (RegId.g a.base :: n.regs) true with bow := false } fun s t => match s.ringOf t a with
    | .inr r => Acted.of s [(0, r)]
    | .inl (k, f, head, _, _) =>
      let x := (s.src t n).toNat
      if x = 0 ∨ f < x then Acted.of s [(0, .bounds (a.addr (s.g t a.base)).toNat)]
      else Acted.of (s.spPutBy t [] (some (t, 4)) none (k + 8) (leBytes (head + x) 4)) []

end Sys2Proof.Machine
end

