-- ==== Sys2Proof/Machine/Harp.lean ====
section
/-!
DEFINITION. The harp (R98–R100, R258–R283): its courses, what they accept, their sums, and how a course's queues move.
-/
namespace Sys2Proof.Machine

/-! ## Formats (R259, R261) -/

/-- Slots of a course for panels of a B format (R259); none for a format that is no B format. -/
def harpSlots : Nat → Option Nat
  | 2 | 3 => some 8
  | 4 | 5 | 7 => some 16
  | 6 | 8 => some 32
  | _ => none

/-- Whether operands with two tags form a pair of R261, and whether its accumulator is INT32. -/
def harpPair (a b : Byte) : Option Bool :=
  let f := tagFmt a
  let g := tagFmt b
  if (f == 2 && g == 2) || (f == 3 && g == 3) then some false
  else if decide (4 ≤ f) && decide (f ≤ 6) && decide (4 ≤ g) && decide (g ≤ 6) then some false
  else if (f == 7 || f == 8) && (g == 7 || g == 8) then some (tagGeom a == 0 && tagGeom b == 0)
  else none

/-- Whether two panels' storage overlaps: slot s of c covers s/c to (s+1)/c of every macro (R259). -/
def slotsMeet (s c t d : Nat) : Bool := decide (s * d < (t + 1) * c) && decide (t * c < (s + 1) * d)

/-- A course with a panel loaded into a slot: every panel whose storage overlaps it, and the one of that number, is unloaded (R259). -/
def Course.load (x : Course) (slot : Nat) (p : Panel) : Course :=
  let c := (harpSlots (tagFmt p.tag)).getD 8
  let keep := x.panels.filter fun e => match e.2 with
    | none => false
    | some q => !slotsMeet slot c e.1 ((harpSlots (tagFmt q.tag)).getD 8)
  { x with panels := mset none keep slot (some p) }

/-! ## Sums (R98–R100) -/

/-- One exact product of scaled elements times ±2^k, with a NaN for a NaN scale (R98, R99). -/
def harpProd (w : Bool × Int) (sa sb : Nat) (a b : FVal) : Exact :=
  if sa = 255 ∨ sb = 255 then .nan true
  else match a.mul b with
    | .num s n e m => .num (s != w.1) n (e + w.2 + sa + sb - 254) m
    | .inf s => .inf (s != w.1)
    | x => x

/-- The exponent of the leading bit of a nonzero addend. -/
def Exact.lead : Exact → Option Int
  | .num _ n e _ => if n = 0 then none else some (e + Nat.log2 n)
  | _ => none

/-- An addend in units of 2^q, truncated toward zero, and whether a nonzero bit was lost. -/
def Exact.trunc (q : Int) : Exact → Int × Bool
  | .num s n e _ =>
    let c := cutAt n e false q
    (if s then -(c.lo : Int) else c.lo, c.inexact)
  | _ => (0, false)

/-- One group of the summation of R98: the new accumulator and its flags (R99). -/
def harpGroup (acc : Nat) (prods : List Exact) : Nat × BitVec 5 :=
  let t := prods ++ [(fp32.dec acc).exact]
  let nan := t.any fun x => match x with | .nan _ => true | _ => false
  let nv := t.any fun x => match x with | .nan v => v | _ => false
  let pos := t.any fun x => match x with | .inf s => !s | _ => false
  let neg := t.any fun x => match x with | .inf s => s | _ => false
  if nan || (pos && neg) then (0x7FC00000, flagIf (nv || (pos && neg)) flagNV)
  else if pos then (0x7F800000, 0)
  else if neg then (0xFF800000, 0)
  else match t.filterMap Exact.lead with
    | [] => (0, 0)
    | k :: l =>
      let q := l.foldl max k - 30
      let cut := t.map (Exact.trunc q)
      let sum : Int := cut.foldl (fun a (c : Int × Bool) => a + c.1) 0
      let r := if sum = 0 then (0, 0) else fp32.round .rne false (.num (decide (sum < 0)) sum.natAbs q false)
      (r.1, r.2 ||| flagIf (cut.any (·.2)) flagNX)

/-- One group of an integer sum, added with saturation (R100). -/
def harpIntGroup (acc : Nat) (prods : List Int) : Nat × BitVec 5 :=
  let r := satAdd 32 (sval 32 acc) (prods.foldl (· + ·) 0)
  (wrapTo 32 r.1, r.2)

/-- The scale of element (i, j) of a tile; 127 without geometry (R84, R261). -/
def MVal.scaleAt (m : MVal) (i j : Nat) : Nat :=
  if tagGeom m.tag = 0 then 127 else scaleByte m.scale (scaleIx (tagGeom m.tag) i j)

/-- The code of element (i, j) of a tile. -/
def MVal.at (m : MVal) (i j : Nat) : Nat := (mget 0 m.elems (32 * i + j)).toNat
/-- The code of element (k, n) of a panel. -/
def Panel.at (p : Panel) (k n : Nat) : Nat := (mget 0 p.elems (256 * k + n)).toNat
/-- The scale of element (k, n) of a panel. -/
def Panel.scaleAt (p : Panel) (k n : Nat) : Nat := (mget 127#8 p.scales (256 * k + n)).toNat

/-- The new element (i, j) of the accumulator of an FP32 operation over the products k < `len` (R98, R272). -/
def harpElem (w : Bool × Int) (p : Panel) (tiles : List MVal) (len i j : Nat) (inc : Nat) : Nat × BitVec 5 :=
  (tiles.zipIdx).foldl (fun a t =>
    let prods := (List.range (min 32 (len - 32 * t.2))).map fun k =>
      harpProd w (t.1.scaleAt i k) (p.scaleAt (32 * t.2 + k) j) (elemVal (tagFmt t.1.tag) 0 (t.1.at i k))
        (elemVal (tagFmt p.tag) 0 (p.at (32 * t.2 + k) j))
    let r := harpGroup a.1 prods
    (r.1, a.2 ||| r.2)) (inc, 0)

/-- The integer value of a code of INT8 or INT4. -/
def intCode (tag : Byte) (x : Nat) : Int := sval (fmtWidth (tagFmt tag)) x

/-- The new element (i, j) of the accumulator of an INT32 operation (R100, R272). -/
def harpIntElem (p : Panel) (tiles : List MVal) (len i j : Nat) (inc : Nat) : Nat × BitVec 5 :=
  (tiles.zipIdx).foldl (fun a t =>
    let prods := (List.range (min 32 (len - 32 * t.2))).map fun k =>
      intCode t.1.tag (t.1.at i k) * intCode p.tag (p.at (32 * t.2 + k) j)
    let r := harpIntGroup a.1 prods
    (r.1, a.2 ||| r.2)) (inc, 0)

/-- A whole accumulator from a function of its elements, and the flags of all of them. -/
def formAcc (f : Nat → Nat → Nat × BitVec 5) : FMap (BitVec 32) × BitVec 5 :=
  let l := (List.range 8192).map fun k => f (k / 256) (k % 256)
  (l.zipIdx.filterMap fun e => if e.1.1 % 2 ^ 32 = 0 then none else some (e.2, BitVec.ofNat 32 e.1.1),
    l.foldl (fun z e => z ||| e.2) 0)

/-- The tag of a result tile (R260). -/
def resultTag (int : Bool) : Byte := if int then 0x90 else 0x10

/-- Result tile q of an accumulator: its columns 32q to 32q + 31 (R260). -/
def resultTile (int : Bool) (acc : FMap (BitVec 32)) (q : Nat) : MVal :=
  ⟨resultTag int, 0, mtab 0 1024 fun k => mget 0 acc (256 * (k / 32) + 32 * q + k % 32)⟩

/-! ## Checksum columns (R277) -/

/-- The signed significand of a code: the integer itself, or the mantissa with its hidden bit and its sign. DEDUCED: log entry 42. -/
def harpSig (f x : Nat) : Int :=
  let man := match f with | 2 => 7 | 3 => 10 | 4 => 3 | 5 => 2 | 6 => 1 | _ => 0
  let w := fmtWidth f
  if man = 0 then sval w x
  else
    let n := x % 2 ^ man + if x / 2 ^ man % 2 ^ (w - 1 - man) = 0 then 0 else 2 ^ man
    if bitAt x (w - 1) then -(n : Int) else n

/-- The checksum columns of a panel, taken off some sums: for row k of the panel and N-column y of the macros, under key 256y + k, the sum
over 64 columns of the B significands. -/
def Panel.columns (p : Panel) (start : FMap Int) : FMap Int :=
  p.elems.foldl (fun m e =>
    let key := 256 * (e.1 % 256 / 64) + e.1 / 256
    mset 0 m key (mget 0 m key + harpSig (tagFmt p.tag) e.2.toNat)) start

/-- Where a panel and its checksum columns disagree. -/
def Panel.defects (p : Panel) : FMap Int := p.columns (p.sums.map fun e => (e.1, -e.2))

/-- The share of an A element in the broadcast of one bit-plane: a bit of its significand with the sign, or of its two's complement. -/
def harpPlane (f x plane : Nat) : Int :=
  if f = 7 ∨ f = 8 then (if bitAt x plane then 1 else 0)
  else
    let n := harpSig f x
    if bitAt n.natAbs plane then (if n < 0 then -1 else 1) else 0

/-- The first macro, as 4 × K-row + N-column, in which some A row and bit-plane gives a checksum partial sum that differs from the sum of
the column partial sums. DEDUCED: log entry 42. -/
def Panel.mismatch (p : Panel) (tiles : List MVal) (len : Nat) : Option Nat :=
  let ds := p.defects
  if ds.isEmpty then none
  else (List.range 16).find? fun q =>
    let mine := ds.filter fun e => e.1 / 256 == q % 4 && e.1 % 256 / 64 == q / 4 && decide (e.1 % 256 < len)
    (List.range 32).any fun i => (List.range 16).any fun plane =>
      mine.foldl (fun (n : Int) e =>
        let k := e.1 % 256
        let t := tiles.getD (k / 32) MVal.zero
        n + e.2 * harpPlane (tagFmt t.tag) (t.at i (k % 32)) plane) 0 != 0

/-! ## Ranking (R274) -/

/-- The place of a code in the ascending order: none for a NaN, −0 below +0. -/
def rankKey (int : Bool) (x : Nat) : Option Int :=
  if int then some (sval 32 x)
  else if (fp32.dec x).isNan then none
  else some (if bitAt x 31 then -((x % 2 ^ 31 : Nat) : Int) - 1 else (x % 2 ^ 31 : Nat))

/-- Whether a value ranks strictly before another; NaNs rank last. -/
def ranksBefore (big : Bool) (a b : Option Int) : Bool :=
  match a, b with
  | some x, some y => if big then decide (y < x) else decide (x < y)
  | some _, none => true
  | none, _ => false

/-- Insert a column into a ranked list, after its equals. -/
def rankInsert (big : Bool) (x : Option Int × Nat) : List (Option Int × Nat) → List (Option Int × Nat)
  | [] => [x]
  | y :: l => if ranksBefore big x.1 y.1 then x :: y :: l else y :: rankInsert big x l

/-- The ranked columns of row i of an accumulator (R274). DEDUCED: log entry 43. -/
def rankRow (int big : Bool) (acc : FMap (BitVec 32)) (w i : Nat) : List Nat :=
  ((List.range w).foldl (fun l j => rankInsert big (rankKey int (mget 0 acc (256 * i + j)).toNat, j) l) []).map (·.2)

/-- The check status word (R279). -/
def Course.status (x : Course) : W64 :=
  BitVec.ofNat 64 (x.count.toNat * 2 ^ 16 + x.slot.toNat * 2 ^ 11 + x.badMac.toNat * 2 ^ 7 + x.cause.toNat * 2 ^ 2 +
    (if x.rst then 2 else 0) + (if x.halt then 1 else 0))

/-! ## The queues of a course (R258, R265, R266, R272) -/

namespace State

/-- The cluster of a course. -/
def courseOwner (k : Nat) : Nat := k / 8

/-- A path's sleeping wait ends with its effect, and its idempotent region (R21, R45). -/
def wakeEnd (s : State) (z : Sleeper) : State :=
  (lanesOf z.lanes).foldl (fun s i => s.endRegion (tid z.group i) z.next) (s.wake z z.lanes)

/-- A return of `MWAIT` is an acquire at `.clus` of what the operations of its courses have done (R118, R276, R283). -/
def mwaited (s : State) (g mask : Nat) : State :=
  (List.range 8).foldl (fun s n => if bitAt mask n then s.pass (.queue (queueNum (groupCore g) (8 + n))) (.agent (tid g 0)) [(tid g 0, 4)]
    else s) s

/-- The operations that `MWAIT` sleepers wait for, without one that has ended; a bow that waits for none wakes (R276). -/
def mwaitDone (id : Nat) : List Sleeper → State → State
  | [], s => s
  | z :: l, s => match z.kind with
    | .mwait mask ops =>
      if !ops.contains id then mwaitDone id l s
      else
        let rest := ops.filter (· != id)
        mwaitDone id l (if rest.isEmpty then (s.wake z z.lanes).mwaited z.group mask
          else { s with sleepers := s.sleepers.map fun (y : Sleeper) => if y.id == z.id then { y with kind := .mwait mask rest } else y })
    | _ => mwaitDone id l s

/-- The operation at the head of a course's queue has completed or failed. DEDUCED: log entry 42. -/
def harpEnd (s : State) (k : Nat) : State :=
  let x := s.course k
  match x.ops with
  | [] => s
  | o :: l =>
    let s := (s.setCourse k { x with ops := l }).finishOp o.id
    mwaitDone o.id s.sleepers s

/-- One movement of a course's queues that nothing holds back: a result tile pushed, an operation ended that has pushed all, a tile
handed to a sleeping `TRECV`, a sleeping `TSEND` let in. -/
def courseMove (k : Nat) (s : State) : Option State :=
  let x := s.course k
  match x.ops with
  | ⟨_, _, .push []⟩ :: _ => some (s.harpEnd k)
  | o =>
    let pushed : Option State := match o with
      | ⟨id, w, .push (t :: ts)⟩ :: l => if x.results.length < 8 then
          some (s.setCourse k { x with ops := ⟨id, w, .push ts⟩ :: l, results := x.results ++ [t] }) else none
      | _ => none
    pushed.orElse fun _ =>
      let recv := s.sleepers.find? fun z => match z.kind with | .trecv c _ => c == k | _ => false
      match x.results, recv with
      | t :: ts, some z => match z.kind with
        | .trecv _ d =>
          let s := (s.setCourse k { x with results := ts }).wakeEnd z
          some (s.setGrp z.group ((s.grp z.group).addPend s.cycle ⟨d, t, allRows, some 0, 0⟩))
        | _ => none
      | _, _ =>
        if 4 ≤ x.aQueue.length then none
        else match s.sleepers.find? fun z => match z.kind with | .tsend c _ => c == k | _ => false with
          | some z => match z.kind with
            | .tsend _ t => some ((s.setCourse k { x with aQueue := x.aQueue ++ [t] }).wakeEnd z)
            | _ => none
          | none => none

/-- Move a course's queues until nothing moves. -/
def courseFlow (k : Nat) : Nat → State → State
  | 0, s => s
  | n + 1, s => match s.courseMove k with
    | none => s
    | some s => courseFlow k n s

/-- Move a course's queues. -/
def flow (s : State) (k : Nat) : State := courseFlow k (s.sleepers.length + 40) s

/-! ## Failures (R278–R280) -/

/-- The bow's group of a cluster. -/
def bowOf (c : Nat) : Nat := 16 * (17 * c + 16)

/-- The operation at the head of a course's queue fails: it commits nothing, the course halts, its status records the first failure,
and a `HARP_CHECK` is owed to the bow (R278–R280). -/
def harpFail (s : State) (k : Nat) (slot : BitVec 5) (mac : BitVec 4) (cause : BitVec 2) : State :=
  let c := courseOwner k
  let x := s.course k
  let n := if x.count = 255#8 then 255#8 else x.count + 1
  let y := { x with halt := true, count := n }
  let y := if x.cause = 0#2 then { y with slot := slot, badMac := mac, cause := cause } else y
  let s := s.setCourse k y
  let s := s.setCl c { s.cl c with harpQ := (s.cl c).harpQ ++ [k % 8] }
  let s := if n = 255#8 ∧ x.count ≠ 255#8 then s.postGroup false 9 (bowOf c) (k % 8 + 8 * y.badMac.toNat + 256 * 255) 0 0 0 0 else s
  s.harpEnd k

/-- Flags of a harp operation reach the bow at its commit (R94, R272). DEDUCED: log entry 42. -/
def harpFlags (s : State) (c : Nat) (f : BitVec 5) : State :=
  s.modThr (tid (bowOf c) 0) fun x => x.addPend s.cycle ⟨.s .fsr, .orF f, some s.cycle, 0⟩

/-- The operation at the head of a course's queue, when it may be performed now: the course is not halted, and no join holds it back; it
comes after those of its queue and before its joins (R117, R248). -/
def harpHead (s : State) (k : Nat) : Option (State × HarpCmd) :=
  let x := s.course k
  match x.ops with
  | o :: _ => if x.halt then none else (s.opStart o.id).map fun s => (s, o)
  | [] => none

end State

end Sys2Proof.Machine
end

