-- ==== Sys2Proof/Machine/Nodes.lean ====
section
/-!
DEFINITION. Region control blocks and their resolution (R354–R356), bind records and their checks (R357, R358), and room in the slices
of the scratchpad (R53, R444).
-/
namespace Sys2Proof.Machine

/-! ## Region control blocks (R354–R356) -/

/-- Whether the reserved fields of a node are zero (R354, R355). -/
def nodeClean (n : Nat) : Bool :=
  [(1023, 1008), (959, 912), (895, 888), (831, 816), (767, 736), (703, 688), (575, 560), (511, 483), (463, 463), (459, 457), (383, 350),
    (335, 334), (295, 293), (279, 277), (255, 209), (191, 176), (127, 112), (63, 48)].all fun f => bits n f.1 f.2 == 0

/-- PARENT and LEVEL of a node. -/
def nodeParent (n : Nat) : Nat := bits n 47 0
def nodeLevel (n : Nat) : Nat := bits n 482 480

namespace State

/-- The nodes from an address up to the root, with their addresses; none when the walk passes 7 steps (R356). -/
def nodePath (s : State) : Nat → Nat → Option (List (Nat × Nat))
  | 0, _ => none
  | k + 1, a =>
    let n := s.rd a 256
    if nodeParent n = 0 then some [(a, n)] else (nodePath s k (nodeParent n)).map ((a, n) :: ·)

/-- The node and its ancestors (R356). -/
def ancestry (s : State) (a : Nat) : Option (List (Nat × Nat)) := s.nodePath 8 a

end State

/-- A field of the nearest node whose override bit is set; the root uses its own (R355). -/
def inherited (ovr hi lo : Nat) : List (Nat × Nat) → Nat
  | [] => 0
  | [(_, n)] => bits n hi lo
  | (_, n) :: l => if bitAt n (192 + ovr) then bits n hi lo else inherited ovr hi lo l

/-- The least nonzero value of a budget along the path, or 0 when none limits (R355). -/
def budget (hi lo : Nat) (l : List (Nat × Nat)) : Nat :=
  ((l.map fun n => bits n.2 hi lo).filter (· ≠ 0)).foldl (fun m x => if m = 0 then x else min m x) 0

/-- Whether the LEVELs of a path are right (R356). -/
def levelsOk : List (Nat × Nat) → Bool
  | [] => true
  | [_] => true
  | a :: b :: l => nodeLevel a.2 == nodeLevel b.2 + 1 && levelsOk (b :: l)

/-- The resolved fields of a path (R355). -/
def resolved (l : List (Nat × Nat)) : Resolved :=
  let own := (l.headD (0, 0)).2
  let v := fun o h b => inherited o h b l
  { prio := BitVec.ofNat 8 (v 0 303 296), fdom := BitVec.ofNat 16 (v 1 319 304), world := v 2 450 450 == 1, pp := v 3 448 448 == 1,
    sc := v 4 449 449 == 1, lead := BitVec.ofNat 3 (v 5 462 460), strap := v 6 456 456 == 1, stragt := BitVec.ofNat 16 (v 6 479 464),
    trapvec := BitVec.ofNat 48 (v 7 559 512), ptroot := BitVec.ofNat 48 (v 8 623 576), asid := BitVec.ofNat 16 (v 8 639 624),
    rtbase := BitVec.ofNat 48 (v 9 687 640), rtlen := BitVec.ofNat 32 (v 9 735 704), debug := v 10 452 452 == 1,
    sample := v 11 453 453 == 1, priv := v 12 454 454 == 1, fabctx := BitVec.ofNat 16 (v 13 911 896), resident := v 14 451 451 == 1,
    acct := BitVec.ofNat 48 (v 15 815 768), image := BitVec.ofNat 48 (v 16 1007 960),
    clmask := BitVec.ofNat 16 (l.foldl (fun m n => m &&& bits n.2 271 256) 0xFFFF), maxcores := budget 276 272 l,
    slots := budget 292 280 l, zwmax := budget 333 320 l, ebudget := budget 415 384 l, tbudget := budget 447 416 l,
    zs := bits own 349 336, gqbase := BitVec.ofNat 48 (bits own 879 832), gqcount := BitVec.ofNat 8 (bits own 887 880),
    limits := l.map fun n => (n.1, bits n.2 292 280) }

namespace State

/-- Whether a node of the resolved world may stand at its address: the entry of its granule names that world (R356). -/
def nodeWorld (s : State) (a : Nat) (secure : Bool) : Bool :=
  !isHost a && s.granule a == (if secure then 1 else 0)

/-- The resolution of a node, or none when it fails (R356). -/
def resolve (s : State) (a : Nat) : Option Resolved :=
  match s.ancestry a with
  | none => none
  | some l =>
    let r := resolved l
    if levelsOk l && l.all (fun n => nodeClean n.2) && s.nodeWorld a r.world && r.ptroot.toNat % 4096 == 0 then some r else none

end State

/-! ## Bind records (R357) -/

/-- The group that a record index names: group slots 0–4095, then the bows (R357). -/
def bindGroup (i : Nat) : Nat :=
  if i < 4096 then 16 * (17 * (i / 256) + (i / 16) % 16) + i % 16 else 16 * (17 * (i - 4096) + 16)

/-- The cluster of a record index. -/
def bindCluster (i : Nat) : Nat := if i < 4096 then i / 256 else i - 4096

/-- The fields of a record. -/
def recRcb (r : W256) : Nat := bits r.toNat 47 0
def recState (r : W256) : Nat := bits r.toNat 50 48
def recWorld (r : W256) : Bool := bitAt r.toNat 51
def recWgn (r : W256) : Nat := bits r.toNat 55 52
def recPos (r : W256) : Nat := bits r.toNat 59 56
def recEntry (r : W256) : Nat := bits r.toNat 111 64
def recZw (r : W256) : Nat := bits r.toNat 125 112
def recArgs (r : W256) : Nat := bits r.toNat 175 128
def recNode (r : W256) : Bool := bitAt r.toNat 176
def recGq (r : W256) : Nat := bits r.toNat 184 177
def recLanes (r : W256) : Nat := bits r.toNat 223 192
def recWg (r : W256) : Nat := bits r.toNat 255 224

/-- Whether the reserved fields of a record are zero (R357). -/
def recClean (r : W256) : Bool := bits r.toNat 191 185 == 0 && bits r.toNat 127 126 == 0 && bits r.toNat 63 60 == 0

/-- Whether two records belong to one workgroup: the same RCB, WG and WGN (R358); the core is compared apart. -/
def recSameWg (a b : W256) : Bool := recRcb a == recRcb b && recWg a == recWg b && recWgn a == recWgn b

/-- The key of a workgroup on a core. -/
def wgKey (core wg : Nat) : Nat := 2 ^ 32 * core + wg

namespace State

/-- The bind record of an index. -/
def bindRec (s : State) (i : Nat) : W256 := BitVec.ofNat 256 (s.rd (s.sys.btbase.toNat + 32 * i) 32)

/-- The image that a region resumes from, if the bow record naming it resumes it: MAGIC with STATUS 2 (R394). -/
def imageReady (s : State) (r : Resolved) : Bool :=
  let h := s.rd r.image.toNat 16
  bits h 31 0 == 0x494D4731 && bits h 35 32 == 2

/-- The group slots that are held or spoken for, with the regions they belong to: bound groups and pending records of vector cores. -/
def heldSlots (s : State) : List (Nat × Nat) :=
  ((s.groups.filter fun x => x.2.bound && !isBow (groupCore x.1)).map fun x => (x.1, x.2.rcb.toNat)) ++
    (s.pending.filter fun p => decide (p.1 < 4096)).map fun p => (bindGroup p.1, recRcb p.2.1)

/-- The fields that hold for a region on a cluster: those kept since it started or resumed there, else those of its node now (R356). -/
def resolvedOn (s : State) (c rcb : Nat) : Option Resolved :=
  if (s.cl c).region.any fun x => x.toNat == rcb then some (s.cl c).res else s.resolve rcb

/-- Whether a placement passes the SLOTS of no node on its path: each limits the slots held in its subtree (R358).
DEDUCED: log entry 55. -/
def slotsOk (s : State) (x : Resolved) (g : Nat) : Bool :=
  let held := (s.heldSlots.filter fun h => h.1 != g).map fun h =>
    (h.1, ((s.resolvedOn (coreCluster (groupCore h.1)) h.2).map fun y => y.limits.map (·.1)).getD [])
  x.limits.all fun n =>
    n.2 == 0 || decide (((held.filter fun h => h.2.contains n.1).map (·.1)).eraseDups.length + 1 ≤ n.2)

/-- Whether a placement keeps the region within its MAXCORES on the cluster (R358). -/
def coresOk (s : State) (r : Resolved) (rcb g : Nat) : Bool :=
  let k := groupCore g
  let cores := ((s.heldSlots.filter fun h => h.2 == rcb && coreCluster (groupCore h.1) == coreCluster k).map fun h => groupCore h.1)
  r.maxcores == 0 || decide ((k :: cores).eraseDups.length ≤ r.maxcores)

/-- Whether the bow record of a region that has started on other clusters names a cluster away from all of them (R358, R359). -/
def bowApart (s : State) (rcb c : Nat) : Bool :=
  match s.regions.find? fun x => x.rcb.toNat == rcb with
  | none => false
  | some x =>
    let others := x.clusters.filter (· != c)
    !others.isEmpty && !others.any fun d => meshAdj c d

/-- Whether a core or a cluster has left service for new groups (R438). -/
def outOfService (s : State) (g : Nat) : Bool :=
  let k := groupCore g
  mget false s.coresGone k || s.coresHeld.contains k || (s.cl (coreCluster k)).retired

/-- Whether the core or the cluster of a group has been retired (R438). -/
def gone (s : State) (g : Nat) : Bool :=
  mget false s.coresGone (groupCore g) || (s.cl (coreCluster (groupCore g))).retired

/-- The checks of R358 on a bind record, against the fields that its region keeps where it runs (R356). DEDUCED: log entry 55. -/
def bindOk (s : State) (i : Nat) (r : W256) : Bool :=
  let c := bindCluster i
  let g := bindGroup i
  match s.resolvedOn c (recRcb r) with
  | none => false
  | some x =>
    let bow := decide (4096 ≤ i)
    recClean r && recWorld r == x.world && s.blockWorld c == x.world && x.clmask.getLsbD c &&
      (bow || (s.slotsOk x g && s.coresOk x (recRcb r) g)) && (x.zwmax == 0 || decide (recZw r ≤ x.zwmax)) &&
      decide (256 * (recZw r + x.zs) ≤ 0x200000) && !(bow && (recLanes r != 1 || recWgn r != 0 || recZw r != 0)) &&
      !(recNode r && (recWgn r != 0 || decide (x.gqcount.toNat ≤ recGq r))) &&
      !(bow && !s.imageReady x && s.bowApart (recRcb r) c) && !s.outOfService g

/-- Refuse a bind record: STATE 4, and a bind event (R358). -/
def bindRefuse (s : State) (i : Nat) (r : W256) : State :=
  let s := s.bindState i 4
  let g := bindGroup i
  let k := groupCore g
  let f := match s.resolve (recRcb r) with
    | some x => x.fdom.toNat
    | none => 0xFFFF
  s.post false (evRecord s.cycle 11 (coreCluster k) (coreNum k) (groupSlot g) f (recRcb r) i 0 0 0 0)

/-- A write of `BINDGO`: the record is read and checked; it goes pending or is refused (R357, R358). -/
def bindGo (s : State) (w : W64) : State :=
  let i := bits w.toNat 12 0
  let r := s.bindRec i
  if 4111 < i || recState r != 1 then { s with sys := { s.sys with binderr := s.sys.binderr + 1 } }
  else if s.bindOk i r then
    let c := s.cl (bindCluster i)
    let since := if c.region.any fun x => x.toNat == recRcb r then some c.phase else none
    { s with pending := s.pending.filter (fun p => p.1 != i) ++ [(i, r, since)] }
  else s.bindRefuse i r

/-! ## Room in the scratchpad slices (R53, R444) -/

/-- Whether two ranges of bytes are apart. -/
def apart (a n b m : Nat) : Bool := n == 0 || m == 0 || decide (a + n ≤ b) || decide (b + m ≤ a)

/-- Whether an allocation of `n` bytes at a place in the slice of a core meets neither another workgroup's nor the cluster share. -/
def roomAt (s : State) (core base n : Nat) : Bool :=
  let c := s.cl (coreCluster core)
  decide (base + n ≤ 0x200000) && apart base n (mget 0 c.share (coreNum core)) c.zs &&
    (mrange s.wgs (2 ^ 32 * core) (2 ^ 32 * (core + 1))).all fun w => !w.2.bound || apart base n w.2.base w.2.zw

/-- The places at which an allocation of `n` bytes fits beside what is there: free room begins at 0 or at the end of something. -/
def rooms (s : State) (core n : Nat) : List Nat :=
  let c := s.cl (coreCluster core)
  let ends := 0 :: (mget 0 c.share (coreNum core) + c.zs) ::
    ((mrange s.wgs (2 ^ 32 * core) (2 ^ 32 * (core + 1))).filter fun w => w.2.bound).map fun w => w.2.base + w.2.zw
  ends.filter fun b => s.roomAt core b n

end State

end Sys2Proof.Machine
end

