-- ==== Sys2Proof/Machine/Image.lean ====
section
/-!
DEFINITION. The image of a region: its header and sections (R392, R393), what a save writes, and what a resume finds (R391, R394).
-/
namespace Sys2Proof.Machine

/-! ## Sections (R393) -/

/-- A section of an image: the fields of its header, and where its payload lies. -/
structure Section where
  kind  : Nat
  index : Nat
  clus  : Nat
  place : Nat
  len   : Nat
deriving DecidableEq, Repr

/-- The sections from an address up to the end of an image. -/
def State.sections (s : State) (last : Nat) : Nat → Nat → List Section
  | 0, _ => []
  | n + 1, a =>
    if last < a + 16 then []
    else
      let h := s.rd a 16
      let len := bits h 63 32
      ⟨bits h 7 0, bits h 31 16, bits h 67 64, a + 16, len⟩ :: State.sections s last n (a + 16 + (len + 15) / 16 * 16)

/-- A group of an image: its number, the cluster it left, its bind record, and its thread and m sections. -/
structure GroupImg where
  num   : Nat
  clus  : Nat
  rec_  : W256
  parts : List Section
deriving DecidableEq, Repr

/-- The groups of some sections. DEDUCED: log entry 60. -/
def State.groupImgs (s : State) : List Section → List GroupImg
  | [] => []
  | x :: l =>
    if x.kind = 1 then
      ⟨0, x.clus, BitVec.ofNat 256 (s.rd x.place 32), (l.takeWhile fun y => y.kind != 1).filter fun y => y.kind == 2 || y.kind == 3⟩ ::
        s.groupImgs l
    else s.groupImgs l

/-- The header of an image that a resume reads (R392), and its parts. -/
structure ImageAt where
  base   : Nat
  length : Nat
  phase  : Nat
  dedit  : Bool
  clean  : Bool
  groups : List GroupImg
  ranges : List Section
deriving DecidableEq, Repr

/-- The image at a physical address. -/
def State.imageAt (s : State) (base : Nat) : ImageAt :=
  let h := s.rd base 128
  let len := bits h 239 192
  let l := s.sections (base + len) (len / 16) (base + 128)
  { base := base, length := len, phase := bits h 95 64, dedit := bitAt h 37, clean := bitAt h 36,
    groups := (s.groupImgs l).zipIdx.map fun e => { e.1 with num := e.2 }, ranges := l.filter fun x => x.kind == 4 }

/-- Whether a section is the bow's of the cluster it left: the last group section of that cluster (log entry 60). -/
def ImageAt.isBow (x : ImageAt) (y : GroupImg) : Bool :=
  !x.groups.any fun z => z.clus == y.clus && decide (y.num < z.num)

/-- Whether a record binds the group of a section: equal RCB, WG, WGPOS, WGN, LANEMASK, ZW and ARGS (R394). -/
def recMatches (a b : W256) : Bool :=
  recRcb a == recRcb b && recWg a == recWg b && recPos a == recPos b && recWgn a == recWgn b && recLanes a == recLanes b &&
    recZw a == recZw b && recArgs a == recArgs b

/-- The section among those left that a record of an index may take (R394). -/
def ImageAt.sectionFor (x : ImageAt) (left : List Nat) (i : Nat) (r : W256) : Option GroupImg :=
  x.groups.find? fun y => left.contains y.num && recMatches y.rec_ r && x.isBow y == decide (4096 ≤ i) &&
    (x.clean || y.clus == bindCluster i)

/-! ## What a save writes (R38, R392, R393) -/

/-- A section. -/
def sectionBytes (kind index clus : Nat) (payload : List Byte) : List Byte :=
  let n := payload.length
  leBytes (kind + 2 ^ 16 * index + 2 ^ 32 * n + 2 ^ 64 * clus) 16 ++ payload ++ leBytes 0 ((n + 15) / 16 * 16 - n)

/-- The live masks of a thread: g, v, m and p (R179). -/
def Live.gs (l : Live) : List Nat := (List.range 64).filter fun i => l.gmask.getLsbD i
def Live.vs (l : Live) : List Nat := (List.range 32).filter fun i => l.word2.getLsbD i
def Live.ms (l : Live) : List Nat := (List.range 8).filter fun i => l.word2.getLsbD (32 + i)
def Live.ps (l : Live) : List Nat := (List.range 7).filter fun i => l.word2.getLsbD (40 + i)

/-- Whether a thread names nothing (R41). -/
def Live.clean (l : Live) : Bool := l.gmask == 0#64 && l.word2.extractLsb' 0 48 == 0#48

/-- The payload of a thread section. -/
def threadPayload (x : Thread) : List Byte :=
  let l := x.live
  let vreg := fun (i : Nat) => match x.arch (.v (BitVec.ofNat 5 i)) with
    | .v y => y
    | _ => VVal.zero
  let preg := fun (i : Nat) => match x.arch (.p (BitVec.ofNat 3 i)) with
    | .p b => b
    | _ => false
  leBytes x.pc.toNat 8 ++ leBytes l.gmask.toNat 8 ++ leBytes (l.word2.toNat % 2 ^ 48) 8 ++
    (l.gs.flatMap fun i => leBytes (x.archW (.g (BitVec.ofNat 6 i))).toNat 8) ++
    (l.vs.flatMap fun i => leBytes (vreg i).bits.toNat 16 ++ leBytes (vreg i).tag.toNat 8) ++
    (if l.ps.isEmpty then [] else leBytes (l.ps.foldl (fun n i => n + if preg i then 2 ^ i else 0) 0) 8)

/-- The payload of an m section. -/
def matrixPayload (m : MVal) : List Byte :=
  let w := fmtWidth (tagFmt m.tag)
  leBytes m.tag.toNat 8 ++ leBytes m.scale.toNat 32 ++
    leBytes ((List.range 1024).foldr (fun k n => (mget 0 m.elems k).toNat % 2 ^ w + 2 ^ w * n) 0) (128 * w)

namespace State

/-- The threads of a group that have not exited. -/
def staying (s : State) (g : Nat) : List Nat := (groupLanes g).filter fun i => (s.thr (tid g i)).stat != .exited

/-- A matrix register after every write so far. -/
def archM (s : State) (g i : Nat) : MVal :=
  ((s.grp g).mpend.filter fun e => e.reg.toNat == i).foldl (fun v e => e.val.rows v e.rows) (mget MVal.zero (s.grp g).m i)

/-- The sections of a group (R393). DEDUCED: log entry 59. -/
def groupSections (s : State) (g : Nat) : List Byte :=
  let c := coreCluster (groupCore g)
  let ls := s.staying g
  let ms := (List.range 8).filter fun i => ls.any fun j => (s.thr (tid g j)).live.ms.contains i
  sectionBytes 1 0 c (leBytes (setBits (setBits (s.grp g).bind.toNat 50 48 0) 111 64 0) 32) ++
    (ls.flatMap fun j => sectionBytes 2 j c (threadPayload (s.thr (tid g j)))) ++
    ms.flatMap fun i => sectionBytes 3 i c (matrixPayload (s.archM g i))

/-- The ranges of one allocation that threads of some groups name, each once. -/
def namedRanges (s : State) (gs : List Nat) (share : Bool) : List W64 :=
  ((gs.flatMap fun g => (s.staying g).flatMap fun i => (s.thr (tid g i)).live.ranges).filter fun r => r.getLsbD 29 == share).eraseDups

/-- Range sections of one allocation that begins at a place of the scratchpad (R393). -/
def rangeSections (s : State) (c wg core place : Nat) (l : List W64) : List Byte :=
  l.zipIdx.flatMap fun (r, n) =>
    let off := bits r.toNat 20 0
    let word := (if bitAt r.toNat 29 then 2 ^ 29 else 2 ^ 32 * (wg % 2 ^ 32)) + 2 ^ 21 * core + off
    sectionBytes 4 n c (leBytes word 8 ++ Memory.bytes s.sp (place + off) (bits r.toNat 51 30))

/-- The image of a region whose groups are given, its clusters at the boundary that ends superstep `p`, with STATUS 1 (R391–R393).
DEDUCED: log entry 59. -/
def imageBytes (s : State) (rcb : BitVec 48) (clusters gs : List Nat) (p : Nat) : List Byte :=
  let clean := gs.all fun g => (s.staying g).all fun i => (s.thr (tid g i)).live.clean
  let wgs := (gs.filter fun g => !isBow (groupCore g)).map (fun g => (s.grp g).wg) |>.eraseDups
  let cores := (gs.filter fun g => !isBow (groupCore g)).map groupCore |>.eraseDups
  let body := gs.flatMap s.groupSections ++
    (wgs.flatMap fun w =>
      let k := w / 2 ^ 32
      s.rangeSections (coreCluster k) w (coreNum k) (spKey (coreCluster k) (coreNum k) (s.wg w).base)
        (s.namedRanges (gs.filter fun g => (s.grp g).wg == w && groupCore g == k) false)) ++
    cores.flatMap fun k =>
      s.rangeSections (coreCluster k) 0 (coreNum k)
        (spKey (coreCluster k) (coreNum k) (mget 0 (s.cl (coreCluster k)).share (coreNum k)))
        (s.namedRanges (gs.filter fun g => groupCore g == k) true)
  let dedit := bitAt (s.rd rcb.toNat 64) 455
  leBytes (0x494D4731 + 2 ^ 32 + (if clean then 2 ^ 36 else 0) + (if dedit then 2 ^ 37 else 0) + 2 ^ 64 * (p % 2 ^ 32) +
    clusters.foldl (fun n c => n + 2 ^ (128 + c)) 0 + 2 ^ 160 * gs.length + 2 ^ 192 * (128 + body.length) +
    2 ^ 256 * rcb.toNat + 2 ^ 320 * (s.cycle % 2 ^ 64)) 128 ++ body

/-! ## What a resume restores (R394) -/

/-- A thread of a resumed group: the registers its section holds, its place in the sleeping wait of its `PHASE`, and its liveness. -/
def restoreThread (s : State) (t : Nat) (x : Section) : Thread :=
  let w := fun n => s.rd (x.place + 8 * n) 8
  let ra := BitVec.ofNat 64 (w 0)
  let l : Live := ⟨BitVec.ofNat 64 (w 1), BitVec.ofNat 64 (w 2), []⟩
  let gn := l.gs.length
  let vn := l.vs.length
  let blank := Thread.blank
  { blank.goto ra with
    stat := .run, live := l, re := ra, srs := srsSeed 0 t
    g := l.gs.zipIdx.foldl (fun m e => mset 0 m e.1 (BitVec.ofNat 64 (w (3 + e.2)))) []
    v := l.vs.zipIdx.foldl (fun m e => mset VVal.zero m e.1
      ⟨BitVec.ofNat 128 (s.rd (x.place + 8 * (3 + gn + 3 * e.2)) 16), BitVec.ofNat 8 (w (3 + gn + 3 * e.2 + 2))⟩) []
    p := l.ps.foldl (fun m i => mset false m i (bitAt (w (3 + gn + 3 * vn)) i)) [] }

/-- An m register of a resumed group. -/
def restoreMatrix (s : State) (x : Section) : MVal :=
  let tag := BitVec.ofNat 8 (s.rd x.place 1)
  let w := fmtWidth (tagFmt tag)
  let y := s.rd (x.place + 40) (128 * w)
  ⟨tag, BitVec.ofNat 256 (s.rd (x.place + 8) 32), mtab 0 1024 fun k => BitVec.ofNat 32 (y / 2 ^ (w * k) % 2 ^ w)⟩

/-- The range of a range section as `PHASE` names it (R180). -/
def rangeWord (s : State) (x : Section) : W64 :=
  let w := s.rd x.place 8
  BitVec.ofNat 64 (bits w 20 0 + (if bitAt w 29 then 2 ^ 29 else 0) + 2 ^ 30 * (x.len - 8))

/-- The resume address of the header after the clause of a `PHASE`: its two literal words end the clause (R169, R178). -/
def afterPhase (x : Thread) : W64 := resumeAt (x.hdr + BitVec.ofNat 48 (8 * (x.word.toNat + 4))) 0

end State

end Sys2Proof.Machine
end

