-- ==== Sys2Proof/Machine/Regions.lean ====
section
/-!
DEFINITION. What the dispatch hardware and the firmware's ports do to groups and regions: starts (R43, R357–R359, R394), advances (R35,
R36), stragglers (R39), pre-emption and saves (R390, R391), the kill port (R386), and the fault reply port (R385).
-/
namespace Sys2Proof.Machine

/-! ## Starting groups (R43, R358, R359, R394) -/

namespace State

/-- The slot of a graph-node record that a lane starts with: RING + 64 × ((P0 + L) mod N) of the queue's descriptor, read through the
region's translation (R361, R362). DEDUCED: log entry 57. -/
def nodeSlot (s : State) (g : Nat) (x : Resolved) (r : W256) (lane : Nat) : W64 :=
  match (s.translate (groupCore g) x Need.load (x.gqbase.toNat + 64 * recGq r)).2 with
  | .fault _ _ => BitVec.ofNat 64 (Config.freeNat s.draw (2 ^ 87 + lane))
  | .ok p =>
    let d := s.readPhys (200000 + coreCluster (groupCore g)) p 8
    BitVec.ofNat 64 (bits d 47 0 + 64 * ((recWg r + lane) % 2 ^ bits d 52 48))

/-- A thread of a newly started group (R43). DEDUCED: log entry 57. -/
def freshThread (s : State) (g lane : Nat) (x : Resolved) (r : W256) : Thread :=
  let num := if recNode r then Config.freeNat s.draw (2 ^ 88 + lane) else 32 * (recWg r * (recWgn r + 1) + recPos r) + lane
  let gs := mset 0 (mset 0 [] 0 (BitVec.ofNat 64 (recArgs r))) 1 (BitVec.ofNat 64 num)
  let entry := BitVec.ofNat 48 (recEntry r)
  let b := Thread.blank
  { b with
    stat := .run, hdr := entry, re := resumeAt entry 0, srs := srsSeed 0 (tid g lane), readyAt := s.cycle
    g := if recNode r then mset 0 gs 2 (s.nodeSlot g x r lane) else gs }

/-- Bind a group to its slot (R43, R357). -/
def bindGroupTo (s : State) (i : Nat) (r : W256) (x : Resolved) : State :=
  let g := bindGroup i
  let y := Group.free
  s.setGrp g { y with
    bound := true, wg := wgKey (groupCore g) (recWg r), rcb := BitVec.ofNat 48 (recRcb r), bind := r, recIdx := i, pp := x.pp, sc := x.sc }

/-- The start of a group acquires what its dispatch released: its core keeps no older code of its context, and nothing is known of the
threads that stood in its place (R123, R360, R378). -/
def clearFor (s : State) (g : Nat) (x : Resolved) : State :=
  let s := { s with codes := s.codes.filter fun c => !(c.core == groupCore g && c.asid == x.asid && c.world == x.world) }
  (groupLanes g).foldl (fun s l => s.forget (tid g l)) s

/-- Start one group as a new one: its record reads STATE 2; lanes outside the mask start exited (R43, R358). -/
def startFresh (s : State) (i : Nat) (r : W256) (x : Resolved) : State :=
  let g := bindGroup i
  let s := (s.clearFor g x).bindGroupTo i r x
  let s := (groupLanes g).foldl (fun s l =>
    let t := s.freshThread g l x r
    s.setThr (tid g l) (if bitAt (recLanes r) l then t else { t with stat := .exited })) s
  s.bindState i 2

/-- Put a thread into the sleeping wait of its `PHASE` (R42). -/
def sleepPhase (s : State) (g lane : Nat) (t : Thread) : State :=
  let (s, id) := s.fresh
  let s := s.setThr (tid g lane) { t with stat := .sleep id }
  { s with sleepers := s.sleepers ++ [⟨id, g, 1#32 <<< lane, t.pc, afterPhase t, none, s.cycle, .phase⟩] }

/-- Start one group from its section of an image (R394). -/
def startSaved (s : State) (i : Nat) (r : W256) (x : Resolved) (im : ImageAt) (y : GroupImg) : State :=
  let g := bindGroup i
  let s := (s.clearFor g x).bindGroupTo i r x
  let bow := isBow (groupCore g)
  let ranges := (im.ranges.filter fun z => bow == false && z.clus == y.clus &&
    (bitAt (s.rd z.place 8) 29 || bits (s.rd z.place 8) 63 32 == recWg r)).map s.rangeWord
  let s := (groupLanes g).foldl (fun s l =>
    match y.parts.find? fun z => z.kind == 2 && z.index == l with
    | none =>
      let b := Thread.blank
      s.setThr (tid g l) { b with stat := .exited }
    | some z =>
      let t := s.restoreThread (tid g l) z
      s.sleepPhase g l (if t.live.word2.getLsbD 47 then { t with live := { t.live with ranges := ranges } } else t)) s
  let s := (y.parts.filter fun z => z.kind == 3).foldl (fun s z =>
    s.setGrp g { s.grp g with m := mset MVal.zero (s.grp g).m z.index (s.restoreMatrix z) }) s
  s.bindState i 2

/-- Forget the writes in a range of a space that a new owner takes over. -/
def dropRange (s : State) (space : Space) (k n : Nat) : State :=
  { s with writes := s.writes.filter fun r => !(r.space == space && decide (k ≤ r.addr) && decide (r.addr < k + n)) }

/-- Zero bytes of the scratchpad. -/
def zeroSp (s : State) (k n : Nat) : State := State.dropRange { s with sp := mclear s.sp k (k + n) } .sp k n

/-- A workgroup's allocation and registers, new; on a resume the allocation is zero but for the ranges its sections hold (R38, R394). -/
def openWg (s : State) (core base : Nat) (r : W256) (im : Option ImageAt) : State :=
  let key := wgKey core (recWg r)
  let place := spKey (coreCluster core) (coreNum core) base
  let w : Workgroup := ⟨true, base, 256 * recZw r, [], [], []⟩
  let s := ((s.dropRange .cbook (512 * key) 512).dropRange .buf (512 * key) 512).setWg key w
  match im with
  | none => s.dropRange .sp place (256 * recZw r)
  | some im =>
    (im.ranges.filter fun z => !bitAt (s.rd z.place 8) 29 && bits (s.rd z.place 8) 63 32 == recWg r).foldl (fun s z =>
      s.spPut (place + bits (s.rd z.place 8) 20 0) (Memory.bytes s.mem (z.place + 8) (z.len - 8))) (s.zeroSp place (256 * recZw r))

/-- The image that a running region still restores groups from. -/
def restoring (s : State) (rcb : Nat) : Option (ImageAt × List Nat) :=
  match s.regions.find? fun x => x.rcb.toNat == rcb with
  | none => none
  | some x =>
    if x.resuming.isEmpty then none
    else match x.clusters with
      | [] => none
      | c :: _ => some (s.imageAt (s.cl c).res.image.toNat, x.resuming)

/-- The state with a region changed. -/
def modRegion (s : State) (rcb : Nat) (f : Region → Region) : State :=
  { s with regions := s.regions.map fun (x : Region) => if x.rcb.toNat == rcb then f x else x }

/-- The pending records of the workgroup of a record on its core. -/
def wgRecords (s : State) (i : Nat) (r : W256) : List (Nat × W256 × Option Nat) :=
  s.pending.filter fun p => groupCore (bindGroup p.1) == groupCore (bindGroup i) && decide (p.1 < 4096) && recSameWg p.2.1 r

/-- Whether every record of the workgroup of a record is pending, each WGPOS from 0 to WGN once, and every slot is free (R358).
DESIGN CHOICE: log entry 56. -/
def wgReady (s : State) (i : Nat) (r : W256) : Bool :=
  let l := s.wgRecords i r
  l.length == recWgn r + 1 && (List.range (recWgn r + 1)).all (fun k => l.any fun p => recPos p.2.1 == k) &&
    l.all fun p => !(s.grp (bindGroup p.1)).bound && !s.gone (bindGroup p.1)

/-- Start a workgroup whose records are ready, with its allocation at `base`; a record that matches no section of the image that its
region resumes from is refused (R358, R394). DESIGN CHOICE: log entry 56. -/
def startWg (s : State) (i base : Nat) (r : W256) : State :=
  let l := s.wgRecords i r
  let core := groupCore (bindGroup i)
  let c := coreCluster core
  let x := (s.cl c).res
  let s := { s with pending := s.pending.filter fun p => !l.any fun q => q.1 == p.1 }
  match s.restoring (recRcb r) with
  | none =>
    let s := (s.openWg core base r none).setCl c { s.cl c with ended := false }
    let s := l.foldl (fun s p => s.startFresh p.1 p.2.1 x) s
    l.foldl (fun s p => s.exited (bindGroup p.1)) s
  | some (im, left) =>
    let found := l.map fun p => (p, im.sectionFor left p.1 p.2.1)
    if found.any fun f => f.2.isNone then found.foldl (fun s f => s.bindRefuse f.1.1 f.1.2.1) s
    else
      let s := s.openWg core base r (some im)
      let s := found.foldl (fun s f => match f.2 with
        | some y => s.startSaved f.1.1 f.1.2.1 x im y
        | none => s) s
      let nums := found.filterMap fun f => f.2.map (·.num)
      s.modRegion (recRcb r) fun z => { z with resuming := z.resuming.filter fun n => !nums.contains n }

end State

/-- `GROUP_START`: the workgroup of a pending record of the running region starts, once its cluster has advanced since its records
went pending, with its allocation at the place that the firmware chose (R358, R359, R444). -/
def execGroupStart (rec_ : BitVec 12) (base : Nat) (s : State) : Host.Outcome State Fault Refusal :=
  let i := rec_.toNat
  match s.pending.find? fun p => p.1 == i with
  | none => s.out
  | some (_, r, _) =>
    let core := groupCore (bindGroup i)
    let c := s.cl (coreCluster core)
    let own := c.region.any fun x => x.toNat == recRcb r
    let due := (s.wgRecords i r).all fun p => p.2.2.all fun n => decide (n < c.phase)
    if own && (due || (s.restoring (recRcb r)).isSome) && s.wgReady i r && s.roomAt core base (256 * recZw r) then
      ((s.startWg i base r).announce (coreCluster core)).out
    else s.out

/-! ## Starting regions (R359, R394) -/

namespace State

/-- The counter with which a region starts on a cluster: 0, or the least counter among the region's adjacent clusters (R359). -/
def firstPhase (s : State) (rcb c : Nat) : Nat :=
  match ((s.regions.find? fun x => x.rcb.toNat == rcb).map fun x => x.clusters.filter fun d => meshAdj c d) with
  | some (d :: l) => l.foldl (fun n e => min n (s.cl e).phase) (s.cl d).phase
  | _ => 0

/-- Zero what a cluster that passes to another fault domain holds: scratchpad, `kb` registers, harp courses (R359).
DEDUCED: log entry 58. -/
def zeroCluster (s : State) (c : Nat) : State :=
  let s := s.zeroSp (spKey c 0 0) (16 * 0x200000)
  s.setCl c { s.cl c with kb := [] }

/-- The courses of a cluster as R258 gives them, with RST set after a resume (R282). -/
def resetCourses (s : State) (c : Nat) (rst : Bool) : State :=
  (List.range 8).foldl (fun s n =>
    let y := Course.zero
    s.setCourse (8 * c + n) { y with rst := rst, retired := (s.course (8 * c + n)).retired }) s

/-- Begin a region on a cluster: its resolved fields, its counter, its share, its courses, and its place in the region's set; every barrier
register is zero (R192, R245). DEDUCED: log entry 58. -/
def beginCluster (s : State) (c rcb phase : Nat) (x : Resolved) (bases : List Nat) (rst : Bool) : State :=
  let s := if (s.cl c).fdomLast.any (fun f => f != x.fdom) then s.zeroCluster c else s
  let s := s.resetCourses c rst
  let y := Cluster.reset
  let s := s.setCl c { y with
    region := some (BitVec.ofNat 48 rcb), res := x, phase := phase, fdomLast := some x.fdom,
    retired := (s.cl c).retired, stopped := (s.cl c).stopped, zs := 256 * x.zs,
    share := (List.range 16).foldl (fun m k => mset 0 m k (bases.getD k 0)) [] }
  { s with regions := if s.regions.any fun z => z.rcb.toNat == rcb then
        s.regions.map fun (z : Region) => if z.rcb.toNat == rcb then { z with clusters := z.clusters ++ [c] } else z
      else s.regions ++ [⟨BitVec.ofNat 48 rcb, [c], none, s.cycle, [], false, none, false⟩] }

/-- The pending bow record of a cluster. -/
def bowRecord (s : State) (c : Nat) : Option W256 := (s.pending.find? fun p => p.1 == 4096 + c).map (·.2.1)

/-- Start the workgroups of a region whose records are already pending on a cluster, with allocations at the places given in turn; a
workgroup without a place that fits stays pending. -/
def startPending (c rcb : Nat) : List (Nat × W256 × Option Nat) → List Nat → State → State
  | [], _, s => s
  | (i, r, _) :: l, bases, s =>
    if decide (i < 4096) && bindCluster i == c && recRcb r == rcb && s.pending.any (fun p => p.1 == i) && s.wgReady i r then
      match bases with
      | b :: bs => startPending c rcb l bs (if s.roomAt (groupCore (bindGroup i)) b (256 * recZw r) then s.startWg i b r else s)
      | [] => startPending c rcb l [] s
    else startPending c rcb l bases s

/-- The records of a region still pending on a cluster when it has started there wait for the cluster's next advance (R359). -/
def holdPending (s : State) (c rcb : Nat) : State :=
  { s with pending := s.pending.map fun p =>
      if bindCluster p.1 == c && recRcb p.2.1 == rcb && p.2.2.isNone then (p.1, p.2.1, some (s.cl c).phase) else p }

/-- Whether commands of an ended fault domain still run in a cluster's copy queues, before the cluster passes to another (R386, R435). -/
def engineBusy (s : State) (c : Nat) (f : BitVec 16) : Bool :=
  (s.cl c).fdomLast.any (fun x => x != f) && (List.range 4).any fun q => (s.copies (4 * c + q)).any (·.dead)

/-- Every cluster of a region announces its level again, after its set has grown. -/
def announceAll (s : State) (rcb : BitVec 48) : State := (s.regionClusters rcb).foldl announce s

/-- Whether the shares that the firmware chose lie within the slices. -/
def sharesOk (x : Resolved) (bases : List Nat) : Bool :=
  (List.range 16).all fun k => decide (bases.getD k 0 + 256 * x.zs ≤ 0x200000)

end State

/-- `REGION_START`: the region of the bow record pending on a cluster starts there; the firmware's places are those of the share in
each slice, then those of the workgroups that start with it (R359, R444). -/
def execRegionStart (cl : BitVec 4) (bases : List Nat) (s : State) : Host.Outcome State Fault Refusal :=
  let c := cl.toNat
  match s.bowRecord c with
  | none => s.out
  | some r =>
    if (s.cl c).region.isSome || (s.grp (State.bowOf c)).bound || (s.cl c).retired then s.out
    else
      let i := 4096 + c
      let drop := fun (s : State) => { s with pending := s.pending.filter fun p => p.1 != i }
      match s.resolve (recRcb r) with
      | none => ((drop s).bindRefuse i r).out
      | some x =>
        if s.imageReady x || s.engineBusy c x.fdom then s.out
        else if s.bowApart (recRcb r) c then ((drop s).bindRefuse i r).out
        else if !State.sharesOk x bases then s.out
        else
          let phase := s.firstPhase (recRcb r) c
          let s := (drop s).beginCluster c (recRcb r) phase x bases false
          let s := s.startFresh i r x
          let s := (State.startPending c (recRcb r) s.pending (bases.drop 16) s).holdPending c (recRcb r)
          (s.announceAll (BitVec.ofNat 48 (recRcb r))).out

/-- `REGION_RESUME`: as `REGION_START`, from the image of the region (R394): the bow and the workgroups already pending restore their
sections; `wgBases` gives the place of the allocation of a workgroup by a record of it. -/
def execRegionResume (cl : BitVec 4) (bases : List Nat) (wgBases : List (Nat × Nat)) (s : State) : Host.Outcome State Fault Refusal :=
  let c := cl.toNat
  match s.bowRecord c with
  | none => s.out
  | some r =>
    let rcb := recRcb r
    let i := 4096 + c
    let old := s.regions.find? fun x => x.rcb.toNat == rcb
    match s.resolve rcb with
    | none => s.out
    | some x =>
      if (s.cl c).region.isSome || (s.grp (State.bowOf c)).bound || (s.cl c).retired || !s.imageReady x || s.engineBusy c x.fdom ||
          !State.sharesOk x bases then s.out
      else
        let im := s.imageAt x.image.toNat
        let left := match old with
          | some z => z.resuming
          | none => im.groups.map (·.num)
        match s.latentAt (.lin im.base) im.length with
        | some (code, pa) =>
          (s.post (decide (s.granule pa ≠ 0)) (evRecord s.cycle 5 c 16 0 x.fdom.toNat rcb (2 ^ 32 * code + 2 ^ 40) pa 0
            (Config.freeNat s.draw (2 ^ 77) % 2 ^ 64) 0)).out
        | none => match im.sectionFor left i r with
          | none => (({ s with pending := s.pending.filter fun p => p.1 != i }).bindRefuse i r).out
          | some y =>
            let s := { s with pending := s.pending.filter fun p => p.1 != i }
            let s := s.beginCluster c rcb im.phase x bases true
            let s := (List.range 16).foldl (fun s k => s.zeroSp (spKey c k (mget 0 (s.cl c).share k)) (256 * x.zs)) s
            let s := (im.ranges.filter fun z => bitAt (s.rd z.place 8) 29 && z.clus == y.clus).foldl (fun s z =>
              let w := s.rd z.place 8
              s.spPut (spKey c (bits w 24 21) (mget 0 (s.cl c).share (bits w 24 21) + bits w 20 0))
                (Memory.bytes s.mem (z.place + 8) (z.len - 8))) s
            let s := s.startSaved i r x im y
            let s := s.modRegion rcb fun z => { z with resuming := left.filter (· != y.num), image := some im.phase }
            let s := if im.dedit then s.markEdited (BitVec.ofNat 48 rcb) else s
            let s := wgBases.foldl (fun s b => match s.pending.find? fun p => p.1 == b.1 with
              | some (k, q, _) =>
                if decide (k < 4096) && bindCluster k == c && recRcb q == rcb && s.wgReady k q &&
                    s.roomAt (groupCore (bindGroup k)) b.2 (256 * recZw q) then s.startWg k b.2 q else s
              | none => s) s
            ((s.holdPending c rcb).announceAll (BitVec.ofNat 48 rcb)).out

namespace State

/-! ## Where the firmware puts allocations (R444) -/

/-- Places for the workgroups that start with a region: one after another in each slice, from `low` upward; a record of each with its
place. -/
def packWgs (s : State) (c rcb low : Nat) :
    List (Nat × W256 × Option Nat) → (used : FMap Nat) → (seen : List Nat) → List (Nat × Nat)
  | [], _, _ => []
  | (i, r, _) :: l, used, seen =>
    let core := groupCore (bindGroup i)
    let key := wgKey core (recWg r)
    if decide (i < 4096) && bindCluster i == c && recRcb r == rcb && !seen.contains key && s.wgReady i r then
      let b := low + mget 0 used core
      (i, b) :: packWgs s c rcb low l (mset 0 used core (mget 0 used core + 256 * recZw r)) (key :: seen)
    else packWgs s c rcb low l used seen

/-- The start or the resumption of the region of a pending bow record, with the places that a free choice picks: the share at the
bottom or at the top of the slices. -/
def startEvent (s : State) (i : Nat) (r : W256) : List Instr :=
  let c := i - 4096
  if (s.cl c).region.isSome || (s.grp (bowOf c)).bound || (s.cl c).retired then []
  else match s.resolve (recRcb r) with
    | none => [.regionStart (BitVec.ofNat 4 c) []]
    | some x =>
      let zs := 256 * x.zs
      let top := s.flip (2 ^ 95 + c)
      let shares := List.replicate 16 (if top then 0x200000 - zs else 0)
      let wgs := s.packWgs c (recRcb r) (if top then 0 else zs) s.pending [] []
      if s.imageReady x then [.regionResume (BitVec.ofNat 4 c) shares wgs]
      else [.regionStart (BitVec.ofNat 4 c) (shares ++ wgs.map (·.2))]

/-- The start of a pending workgroup, by its record of WGPOS 0, where there is room. -/
def groupEvent (s : State) (i : Nat) (r : W256) : List Instr :=
  let core := groupCore (bindGroup i)
  let own := (s.cl (coreCluster core)).region.any fun x => x.toNat == recRcb r
  if recPos r ≠ 0 ∨ !own ∨ !s.wgReady i r then []
  else match s.rooms core (256 * recZw r) with
    | [] => []
    | b :: l => [.groupStart (BitVec.ofNat 12 i) ((b :: l).getD (Config.freeNat s.draw (2 ^ 96 + i) % (l.length + 1)) b)]

/-- The starts of the pending workgroups of the region on a cluster (R359). -/
def groupEvents (s : State) (c : Nat) : List Instr :=
  s.pending.flatMap fun p => if p.1 < 4096 ∧ bindCluster p.1 = c then s.groupEvent p.1 p.2.1 else []

end State

/-! ## Advancing (R35, R36, R252) -/

namespace State

/-- Whether a cluster may advance now: its region is not being restored or held for a save, and the relayed level reaches the next
superstep (R36, R390, R394). -/
def mayAdvance (s : State) (c : Nat) : Bool :=
  let x := s.cl c
  match x.region with
  | none => false
  | some rcb =>
    match s.regions.find? fun z => z.rcb == rcb with
    | none => false
    | some z =>
      z.resuming.isEmpty && z.preempt.all (fun p => decide (x.phase < p)) &&
      (x.ended || (s.threadsOn c).all s.arrived) &&
      (match s.relay c with
       | none => true
       | some w => decide (x.phase + 1 ≤ w))

/-- Wake the threads that sleep at `PHASE` on a cluster; `PHASE` ends their idempotent region (R35, R45). -/
def wakePhase (c : Nat) : List Sleeper → State → State
  | [], s => s
  | z :: l, s =>
    if z.kind = .phase ∧ coreCluster (groupCore z.group) = c then
      let s := s.wake z z.lanes
      wakePhase c l ((lanesOf z.lanes).foldl (fun s i => s.endRegion (tid z.group i) z.next) s)
    else wakePhase c l s

/-- Once every cluster of a resumed region has advanced past the counter of its image, the image reads STATUS 3 (R394). -/
def consumeImage (s : State) (rcb : BitVec 48) : State :=
  match s.regions.find? fun z => z.rcb == rcb with
  | some z => match z.image with
    | some p =>
      if z.resuming.isEmpty && z.clusters.all fun d => decide (p < (s.cl d).phase) then
        let a := (s.cl (z.clusters.headD 0)).res.image.toNat + 4
        (s.wr a 1 (s.rd a 1 / 16 * 16 + 3)).modRegion rcb.toNat fun z => { z with image := none }
      else s
    | none => s
  | none => s

end State

/-- `CLUSTER_ADVANCE`: the counter rises, every thread at the boundary goes on, the merge tree is released, the straggler time-out
stops, and pending workgroups of the region start next (R35, R36, R39, R252, R359). DEDUCED: log entry 76. -/
def execClusterAdvance (cl : BitVec 4) (s : State) : Host.Outcome State Fault Refusal :=
  let c := cl.toNat
  if !s.mayAdvance c then s.out
  else
    let s := s.setCl c { s.cl c with phase := (s.cl c).phase + 1, strag := none, stragged := false }
    let rcb := (s.cl c).region.getD 0
    let s := (s.dropPast rcb).consumeImage rcb
    let s := s.releaseTree c
    let s := State.wakePhase c s.sleepers s
    let s := s.announce c
    let s := (s.groupsOn c).foldl reconv s
    State.out { s with agenda := s.groupEvents c ++ s.agenda }
where
  /-- A woken path may release a `RECONV`. -/
  reconv (s : State) (g : Nat) : State := s.reconvRelease g

/-! ## Stragglers (R39) -/

namespace State

/-- The threads of a cluster that have not arrived. -/
def unarrived (s : State) (c : Nat) : List Nat := (s.threadsOn c).filter fun t => !s.arrived t

/-- The directions, north first, of the adjacent clusters through which a limiting level reaches a cluster (R36, R39). -/
def holding (s : State) (c : Nat) : List Nat :=
  match (s.cl c).region with
  | none => []
  | some rcb =>
    let set := s.regionClusters rcb
    let lead := (s.cl c).res.lead.toNat
    let need := (s.cl c).phase + 1
    let limiting := set.filter fun d => d != c && (match ((s.cl c).heard.filter fun h => h.1 == d && decide (h.2.1 ≤ s.cycle)).getLast? with
      | none => decide (regionDist set c d * lead < need)
      | some (_, _, none) => false
      | some (_, _, some v) => decide (v + regionDist set c d * lead < need))
    [1, 2, 3, 4].filter fun dir =>
      let n := match dir with
        | 1 => if 4 ≤ c then some (c - 4) else none
        | 2 => if c % 4 < 3 then some (c + 1) else none
        | 3 => if c < 12 then some (c + 4) else none
        | _ => if 0 < c % 4 then some (c - 1) else none
      match n with
      | none => false
      | some e => set.contains e && limiting.any fun d => regionDist set e d + 1 == regionDist set c d

/-- A `STRAGGLER` that names a thread: at once in a sleeping wait or between clauses, else at the end of its clause, its handler or its
parking (R39, R380). DEDUCED: log entry 63. -/
def nameStraggler (s : State) (t : Nat) : State :=
  let x := s.thr t
  let hold := s.setThr t { x with strag := true }
  match x.stat with
  | .run => if x.handler.isSome || s.inSel t || x.halt.isSome then hold else s.straggle t
  | .sleep _ => if x.handler.isSome then hold else (s.unsleep t).straggle t
  | .stopped | .exited | .off => s
  | _ => hold

end State

/-- `STRAGGLER_TIMEOUT` (R39). DEDUCED: log entry 63. -/
def execStragglerTimeout (cl : BitVec 4) (s : State) : Host.Outcome State Fault Refusal :=
  let c := cl.toNat
  let x := s.cl c
  match x.strag, x.region with
  | some k, some _ =>
    if x.stragged ∨ x.res.stragt = 0#16 ∨ s.cycle < k + 1024 * x.res.stragt.toNat then s.out
    else
      let late := s.unarrived c
      let gs := (late.map threadGroup).eraseDups
      let cores := ((gs.filter fun g => !isBow (groupCore g)).map fun g => coreNum (groupCore g)).eraseDups
      let bow := gs.any fun g => isBow (groupCore g)
      let slots := (gs.filter fun g => !isBow (groupCore g)).foldl (fun n g => n + 2 ^ (16 * coreNum (groupCore g) + groupSlot g)) 0
      let w3 := cores.foldl (fun n k => n + 2 ^ k) 0 + (if bow then 2 ^ 16 else 0) +
        (s.holding c).foldl (fun n d => n + 2 ^ (16 + d)) 0 + 2 ^ 32 * (x.phase % 2 ^ 32)
      let s := s.postCl false 8 c w3 (slots % 2 ^ 64) (slots / 2 ^ 64 % 2 ^ 64) (slots / 2 ^ 128 % 2 ^ 64) (slots / 2 ^ 192)
      let s := s.setCl c { s.cl c with stragged := true }
      (if x.res.strap then gs.foldl State.reconvRelease (late.foldl State.nameStraggler s) else s).out
  | _, _ => s.out

/-! ## Pre-emption and saving (R390, R391) -/

namespace State

/-- The bound groups of a region, in ascending order: on each cluster the bow last. -/
def regionGroups (s : State) (rcb : Nat) : List Nat :=
  (s.groups.filter fun x => x.2.bound && x.2.rcb.toNat == rcb).map (·.1)

/-- A write of `PREEMPT` (R363, R390). -/
def preemptWrite (s : State) (w : W64) : State :=
  let rcb := bits w.toNat 47 0
  match s.regions.find? fun x => x.rcb.toNat == rcb with
  | some x =>
    if x.clusters.any fun c => (s.cl c).res.resident then s.postCl false 13 (x.clusters.headD 0) 0 0 0 0 0
    else if (s.regionGroups rcb).isEmpty || x.preempt.isSome then s
    else s.modRegion rcb fun y => { y with preempt := some (x.clusters.foldl (fun p c => max p (s.cl c).phase) 0) }
  | none => match s.resolve rcb with
    | some r => if r.resident then s.post false (evRecord s.cycle 13 0 0 0 r.fdom.toNat rcb 0 0 0 0 0) else s
    | none => s

/-- Whether energy records of a save of a region still wait for room (R391, R401). -/
def acctOwed (s : State) (rcb : BitVec 48) : Bool :=
  s.acctWait.any fun x => x.2.2.isNone && bits x.2.1.toNat 111 64 == rcb.toNat

/-- Whether a region stands at the boundary at which it is saved (R40, R390), and its save can go on: with an image written, the energy
records and the save-done event have room (R382, R391, R401). -/
def maySave (s : State) (x : Region) : Bool :=
  match x.preempt with
  | none => false
  | some p =>
    (if x.saving then !s.acctOwed x.rcb && s.evOpen else true) && x.clusters.all fun c =>
      (s.cl c).ended || ((s.cl c).phase == p && (s.threadsOn c).all s.arrived && !(s.threadsOn c).any fun t => s.hasWork t)

/-- Write the energy record of a saved group, or let it wait for room (R391, R401). -/
def saveEnergy (s : State) (base g : Nat) : State :=
  let r := s.energyRecord g true
  if s.acctWait.any (fun x => x.1 == base) || !s.acctRoom base then { s with acctWait := s.acctWait ++ [(base, r, none)] }
  else s.acctAppend base r

/-- Free the slot of a group that was saved (R391). -/
def freeSaved (s : State) (g : Nat) : State :=
  State.freeGroup { s with
    sleepers := s.sleepers.filter fun z => z.group != g, samples := s.samples.filter fun z => z.group != g } g

/-- The groups of a region that a save takes: those with a thread that has not exited. -/
def savedGroups (s : State) (rcb : BitVec 48) : List Nat :=
  (s.regionGroups rcb.toNat).filter fun g => (groupLanes g).any fun i => (s.thr (tid g i)).stat != .exited

/-- Write the image of a region and its groups' energy records (R391). -/
def saveImage (s : State) (x : Region) : State :=
  let r := (s.cl (x.clusters.headD 0)).res
  let gs := s.savedGroups x.rcb
  let b := s.imageBytes x.rcb x.clusters gs (x.preempt.getD 0)
  let s := (s.reach r.image.toNat b.length).wrBytes r.image.toNat b
  (gs.foldl (fun s g => s.saveEnergy r.acct.toNat g) s).modRegion x.rcb.toNat fun z => { z with saving := true }

/-- The end of a save: STATUS 2, the freed slots, the save-done event, and the free clusters (R359, R391). -/
def saveDone (s : State) (x : Region) : State :=
  let c := x.clusters.headD 0
  let r := (s.cl c).res
  let a := r.image.toNat
  let s := s.wr (a + 4) 1 (s.rd (a + 4) 1 / 16 * 16 + 2)
  let h := s.rd a 32
  let s := (s.savedGroups x.rcb).foldl State.freeSaved s
  let s := s.post false (evRecord s.cycle 15 c 0 0 r.fdom.toNat x.rcb.toNat (if bitAt h 36 then 1 else 0) a (bits h 239 192) 0 0)
  let s := State.dropRegion { s with regions := s.regions.filter fun z => z.rcb != x.rcb } x.rcb
  x.clusters.foldl State.clearCluster s

end State

/-- `PREEMPT`: a management core's write of a region control block's address (R390). -/
def execPreempt (_mc : BitVec 2) (w : W64) (s : State) : Host.Outcome State Fault Refusal := (s.preemptWrite w).out

/-- `SAVE`: the image and the energy records, and, once those and the event have room, the freed slots (R382, R391, R401). -/
def execSave (rcb : BitVec 48) (s : State) : Host.Outcome State Fault Refusal :=
  match s.regions.find? fun x => x.rcb == rcb with
  | none => s.out
  | some x =>
    if !s.maySave x then s.out
    else
      let s := if x.saving then s else s.saveImage x
      (if s.acctOwed rcb || !s.evOpen then s else s.saveDone x).out

/-! ## The kill port (R386) -/

namespace State

/-- What an operation of a killed group still does: a load into the scratchpad runs to its end; results are discarded.
DEDUCED: log entry 61. -/
def killOp (s : State) (o : OutOp) : State :=
  let s := match o.kind with
    | .ldx _ w moves _ core => ldxMoves o.id (coreCluster core) w moves (s.beginOp o)
    | _ => s
  State.clearJoins { s with ops := s.ops.filter fun y => y.id != o.id } o.id

/-- A group of a killed region: its threads stop, its operations' results are discarded, its transfers not yet injected are dropped, and
its record reads STATE 3 (R386). -/
def killGroup (s : State) (g : Nat) : State :=
  let s := s.dropLanes g (BitVec.allOnes 32)
  let s := (s.ops.filter fun o => o.group == g).foldl killOp s
  let s := { s with
    sleepers := s.sleepers.filter fun z => z.group != g, samples := s.samples.filter fun z => z.group != g
    awaits := s.awaits.filter fun a => a.group != g, parks := s.parks.filter fun q => q.group != g, acctWait := s.acctWait.filter fun a => a.2.2 != some g
    xfers := s.xfers.filter fun x => !(x.group == g && !x.foreign && x.pos == XWhere.held) }
  let x := s.grp g
  let s := s.bindState x.recIdx 3
  let s := (groupLanes g).foldl (fun s i => s.setThr (tid g i) Thread.blank) s
  (s.setWg x.wg Workgroup.free).setGrp g Group.free

/-- The engine fault events of the accepted commands of a killed region (R384). DEDUCED: log entry 61. -/
def killEvents (s : State) (gs : List Nat) (c : Nat) : State :=
  let s := (List.range 4).foldl (fun s q => (s.copies (4 * c + q)).foldl (fun s (x : CopyCmd) =>
    if gs.contains x.group then s.engineFault x.group q 2 x.record 0 else s) s) s
  (List.range 8).foldl (fun s n => (s.course (8 * c + n)).ops.foldl (fun s (o : HarpCmd) =>
    s.engineFault (bowOf c) (8 + n) 2 o.word.toNat 0) s) s

/-- The commands of a cluster's copy queues whose group is gone make no completion (R386). -/
def deadCopies (s : State) (gs : List Nat) (c : Nat) : State :=
  (List.range 4).foldl (fun s q =>
    s.setCopies (4 * c + q) ((s.copies (4 * c + q)).map fun (x : CopyCmd) => if gs.contains x.group then { x with dead := true } else x)) s

/-- End one region with its fault domain (R386). DEDUCED: log entry 61. -/
def killRegion (s : State) (x : Region) : State :=
  let gs := s.regionGroups x.rcb.toNat
  let s := x.clusters.foldl (killEvents · gs ·) s
  let s := gs.foldl killGroup s
  let s := x.clusters.foldl (deadCopies · gs ·) s
  let gone := s.pending.filter fun p => recRcb p.2.1 == x.rcb.toNat
  let s := { s with pending := s.pending.filter fun p => recRcb p.2.1 != x.rcb.toNat }
  let s := gone.foldl (fun s p => s.bindState p.1 3) s
  let s := x.clusters.foldl (fun s c => (s.resetCourses c false).setCl c { s.cl c with ended := true, harpQ := [] }) s
  (s.modRegion x.rcb.toNat fun z => { z with killed := true }).regionEnd x.rcb (x.clusters.headD 0)

/-- End a region of which only bind records are pending (R386). DEDUCED: log entry 61. -/
def killPending (s : State) (f : BitVec 16) (rcb : Nat) : State :=
  let mine := s.pending.filter fun p => recRcb p.2.1 == rcb
  let s := { s with pending := s.pending.filter fun p => recRcb p.2.1 != rcb }
  let s := mine.foldl (fun s p => s.bindState p.1 3) s
  s.post false (evRecord s.cycle 12 (bindCluster ((mine.map (·.1)).headD 0)) 0 0 f.toNat rcb 1 0 0 0 0)

/-- End every region of a fault domain, those with pending records alone among them (R386). -/
def killDomain (s : State) (f : BitVec 16) : State :=
  let s := (s.regions.filter fun x => (s.cl (x.clusters.headD 0)).res.fdom == f).foldl killRegion s
  (((s.pending.map fun p => recRcb p.2.1).eraseDups).filter fun r => (s.resolve r).any fun x => x.fdom == f).foldl
    (fun s r => s.killPending f r) s

end State

/-- `KILL_PORT`: the firmware ends a fault domain (R386). -/
def execKillPort (w : W64) (s : State) : Host.Outcome State Fault Refusal := (s.killDomain (w.truncate 16)).out

/-! ## The fault reply port (R385, R387) -/

namespace State

/-- The reply reaches one parked lane: it replays from `re`, fetches its clause again, or takes `BOUNDS` (R47, R371, R385).
DEDUCED: log entry 64. -/
def reply (a : Await) (bounds : Bool) (s : State) (i : Nat) : State :=
  let t := tid a.group i
  let x := s.thr t
  if x.stat != .parked a.tok then s
  else if bounds then
    let s := match s.ldxOwed a.group i with
      | some id => s.ldxReplay id i none
      | none => s
    let s := s.setThr t { x with stat := .run, tileAt := none }
    let s := { s with samples := s.samples.map fun (y : Sample) =>
      if y.group == a.group then { y with owed := y.owed &&& ~~~(1#32 <<< i) } else y }
    s.takeTrap t ⟨trapRecord 0 a.opc.toNat a.cls.toNat 0 4, a.line, a.word⟩
  else
    let y := if a.fetch then x else x.goto (x.archW (.s .re))
    (s.setThr t { y with stat := .run, drain := true, readyAt := s.cycle }).boundary t

end State

/-- `FAULT_REPLY` (R385): the verdict for a token; a bow that is held at its word issues it again or takes `BOUNDS` there.
DEDUCED: log entry 64. -/
def execFaultReply (w : W64) (s : State) : Host.Outcome State Fault Refusal :=
  let v := bits w.toNat 17 16
  match s.awaits.find? fun a => a.tok == bits w.toNat 15 0 with
  | none => s.out
  | some a =>
    if 2 ≤ v then s.out
    else
      let s := { s with awaits := s.awaits.filter fun b => b.tok != a.tok }
      if a.bow then
        let k := groupCore a.group
        let h := if v = 0 then Held.no else Held.bounds a.line
        let sels := (s.core k).sels.map fun (y : Sel) => if y.held == Held.fault a.tok then { y with held := h, nextAt := s.cycle } else y
        (s.setCore k { s.core k with sels := sels }).out
      else
        let s := (lanesOf a.lanes).foldl (State.reply a (v == 1)) s
        let s := s.reconvRelease a.group
        (if s.samples.isEmpty then s else State.sampleSettle s.samples s).out

end Sys2Proof.Machine
end

