-- ==== Sys2Proof/Machine/Privileged.lean ====
section
/-!
DEFINITION. System registers (R351), the world table's synchronisation (R350), class 9 (R353), the completion of outstanding operations
(R159), the delivery of traps that waited (R379), and the management cores' register writes (R346, R382, R421, R428).
-/
namespace Sys2Proof.Machine

/-! ## The world table (R349, R350) -/

namespace State

/-- The bytes of the world table in memory (R349). -/
def tableBytes (s : State) : FMap Byte :=
  let a := s.sys.wtbase.toNat
  (mrange s.mem a (a + 0x51000)).map fun e => (e.1 - a, e.2)

/-- Whether anything is bound to a block (R350). -/
def blockBusy (s : State) (b : Nat) : Bool :=
  let c := b % 16
  if b < 0x10 then !(s.groupsOn c).isEmpty
  else if b < 0x20 then !(s.groupsOn c).isEmpty || (List.range 4).any fun q => !(s.copies (4 * c + q)).isEmpty
  else if b < 0x30 then !(s.groupsOn c).isEmpty
  else if b < 0x40 then !(s.groupsOn c).isEmpty || (s.cl c).mHolder.isSome
  else false

/-- Whether the device still has accesses to make through translations that it holds, of the groups that a test picks or of groups that
have gone (R373). -/
def heldAccesses (s : State) (mine : Nat → Bool) : Bool :=
  s.copyq.any (fun q => q.2.any fun x => x.dead || mine x.group) ||
  s.courses.any (fun k => !k.2.ops.isEmpty && mine (bowOf (courseOwner k.1))) ||
  s.ops.any (fun o => mine o.group && (match o.kind with | .ldx _ _ _ _ _ => true | .gather _ => true | _ => false)) ||
  s.clusters.any (fun c => c.2.mHolder.isSome && mine (bowOf c.1)) ||
  s.xfers.any fun x => (x.foreign || mine x.group) && x.kind == 1#3 && (match x.pos with | .held | .going | .arrived => true | _ => false)

/-- Whether a write of `WTSYNC` may complete: no changed block is bound to anything, and with a changed granule every access that was
checked before has been made (R350). -/
def wtReady (s : State) : Bool :=
  let t := s.tableBytes
  ((List.range 0x5D).all fun b => (mget 0#8 t b).getLsbD 0 == (mget 0#8 s.world b).getLsbD 0 || !s.blockBusy b) &&
    (mrange t 0x1000 0x51000 == mrange s.world 0x1000 0x51000 ||
      !s.heldAccesses fun _ => true)

/-- The device's copy of the world table takes the table's entries. -/
def syncWorld (s : State) : State := { s with world := s.tableBytes, wtSync := false }

/-! ## System registers (R351) -/

/-- A system register as an agent of a world reads it: write-only registers and RS registers of a non-secure reader read zero. -/
def sysRead (s : State) (secure : Bool) (n : Nat) : W64 :=
  let y := s.sys
  let rs := fun (x : W64) => if secure then x else 0
  match n with
  | 0x000 => 0x12416
  | 0x008 => y.status.zeroExtend 64
  | 0x010 => rs y.wtbase
  | 0x020 => y.btbase
  | 0x022 => y.binderr
  | 0x023 => y.rcbroot
  | 0x030 => y.topo
  | 0x031 => y.arbw
  | 0x040 => BitVec.ofNat 64 s.cycle
  | 0x050 => y.eperiod
  | 0x060 => rs y.evqs
  | 0x061 => y.evqn
  | 0x070 => y.launchq
  | k => if 0x51 ≤ k ∧ k ≤ 0x5A then (mget 0 y.ewgt (k - 0x51)).zeroExtend 64 else 0

/-- A write of `BINDGO`; the region of a bow record that goes pending while the bow is free starts next (R357, R359). -/
def bindWrite (s : State) (w : W64) : State :=
  let t := s.bindGo w
  let i := bits w.toNat 12 0
  if t.pending = s.pending then t
  else match t.pending.find? fun p => p.1 == i with
  | some (_, r, _) => if 4096 ≤ i then { t with agenda := t.startEvent i r ++ t.agenda } else t
  | none => t

/-- `EPERIOD` within its range (R351). -/
def clampPeriod (x : W64) : W64 := if x.toNat < 2 ^ 16 then 0x10000 else if 2 ^ 32 < x.toNat then 0x100000000 else x

/-- A write of a system register by an agent of a world (R351); `WTSYNC` is apart. -/
def sysWrite (s : State) (secure : Bool) (n : Nat) (x : W64) : State :=
  let y := s.sys
  match n with
  | 0x010 => if secure then { s with sys := { y with wtbase := x } } else s
  | 0x020 => { s with sys := { y with btbase := x } }
  | 0x021 => s.bindWrite x
  | 0x023 => { s with sys := { y with rcbroot := x } }
  | 0x030 => { s with sys := { y with topo := x } }
  | 0x031 => if bits x.toNat 25 16 = 0 then s else { s with sys := { y with arbw := x &&& 0x03FFFFFF } }
  | 0x050 => { s with sys := { y with eperiod := clampPeriod x } }
  | 0x060 => if secure then { s with sys := { y with evqs := x } } else s
  | 0x061 => { s with sys := { y with evqn := x } }
  | 0x070 => { s with sys := { y with launchq := x } }
  | 0x080 => s.preemptWrite x
  | k => if 0x51 ≤ k ∧ k ≤ 0x5A then { s with sys := { y with ewgt := mset 0 y.ewgt (k - 0x51) (x.truncate 16) } } else s

end State

/-! ## Class 9 (R353) -/

/-- `SYSRD` (R353). -/
def execSysrd (c : Ctl) (d : GReg) (n : BitVec 12) (s : State) : Host.Outcome State Fault Refusal :=
  s.perLane c { WordSpec.fixA 8 [] with bow := false } fun _ => .next [(.g d, .w (s.sysRead (s.grpRes s.curG).world n.toNat))]

/-- `SYSWR`: the register is written at completion (R353). DEDUCED: log entry 66. -/
def execSyswr (c : Ctl) (n : BitVec 12) (a : Src) (s : State) : Host.Outcome State Fault Refusal :=
  s.once c { engineSpec .a a.regs false with bow := false } fun s t =>
    { Acted.of s [] with kind := .syswr n (s.src t a) (s.grpRes s.curG).world }

/-- `ERET`: each lane leaves its handler and continues at `g63`; one that is in none, or whose `g63` is no resume address, raises
`ILLEGAL` (R353, R379). A bow leaves the handler of `HARP_CHECK` by it (R280, R380). DEDUCED: log entry 27. -/
def execEret (c : Ctl) (s : State) : Host.Outcome State Fault Refusal :=
  s.inTurn c { WordSpec.var .a [.g 63] with bow := true } fun s t =>
    let r := s.g t 63
    if (s.thr t).handler.isSome && resumeOk r then (s.leaveHandler t r, .jump r []) else (s, .illegal s.cur.raw)

/-- `TLBINV` (R353). -/
def execTlbinv (c : Ctl) (m : TlbMode) (a b : Src) (s : State) : Host.Outcome State Fault Refusal :=
  s.once c { engineSpec .a (a.regs ++ b.regs) false with bow := false } fun s t =>
    { Acted.of s [] with kind := .tlbinv m ((s.src t a).truncate 16) (s.src t b) (s.grpRes s.curG).world }

/-- `HALT`: each lane halts; it resumes at the word after it (R353). -/
def execHalt (c : Ctl) (code : BitVec 16) (s : State) : Host.Outcome State Fault Refusal :=
  s.inTurn c { WordSpec.var .a [] with bow := false } fun s t =>
    ((s.modThr t (·.goto s.curNext)).haltLane t 2 code.toNat, .gone)

/-! ## The completion of operations (R159, R232, R353) -/

/-- Whether an operation began at its issue, so that only its completion is left. -/
def OpKind.atOnce : OpKind → Bool
  | .gather _ | .pull _ _ | .close => false
  | _ => true

namespace State

/-- Whether a cached item of a context and a range of pages is named by a `TLBINV` (R353). DEDUCED: log entry 65. -/
def invNames (m : TlbMode) (asid : BitVec 16) (page : W64) (world : Bool) (eAsid : BitVec 16) (eWorld : Bool) (lo n : Nat) : Bool :=
  match m with
  | .all => eWorld == world
  | .asid => eAsid == asid
  | .page => eAsid == asid && decide (lo ≤ page.toNat) && decide (page.toNat < lo + n)

/-- Drop the translations, table entries and code lines that a `TLBINV` names (R353, R378). DEDUCED: log entry 65. -/
def invalidate (s : State) (m : TlbMode) (asid : BitVec 16) (page : W64) (world : Bool) : State :=
  let named := s.tlb.filter fun t => invNames m asid page world t.asid t.world t.page t.size
  let dead := fun (c : CodeEnt) => invNames m asid page world c.asid c.world (c.va / 4096 * 4096) 4096 ||
    named.any fun t => t.asid == c.asid && t.world == c.world && decide (t.page ≤ c.va) && decide (c.va < t.page + t.size)
  { s with
    tlb := s.tlb.filter fun t => !named.contains t
    tabs := s.tabs.filter fun t => match m with
      | .all => t.world != world
      | _ => t.asid != asid
    codes := s.codes.filter fun c => !dead c }

/-- Remember what a buffer or codebook register held before an operation of some lanes replaces it: the threads of the lanes named
find the new one, others when it is ordered before them (R221, R232). -/
def recordReg (s : State) (space : Space) (o : OutOp) (knows : List Nat) (wg n : Nat) (old : W256) : State :=
  s.record space 0 (tid o.group (lowLane o.lanes)) (knows.map fun i => ⟨.agent (tid o.group i), [], none, false, []⟩) none none
    [(512 * wg + 32 * n, leBytes old.toNat 32)]

/-- What an operation of an engine's queue that waited behind a join does when it begins, with the traps that it raises (R248, R249, R252,
R295). DEDUCED: log entry 20. -/
def began (s : State) (o : OutOp) : State × List (Nat × TrapInfo) :=
  let g := o.group
  let k := coreCluster (groupCore g)
  let s := s.beginOp o
  match o.kind with
  | .gather l => (l.foldl (fun s x => s.fillPend (tid g x.lane) o.id (s.gatherOut (tid g x.lane) x.cells x.dst)) s, [])
  | .close => (s.releaseTree k, [])
  | .pull d word =>
    let ts := (lanesOf o.lanes).map (tid g)
    match s.pull k ts.length with
    | .inl (es, l) =>
      let s := s.setCl k { s.cl k with mStreams := l }
      (ts.zipIdx.foldl (fun s e => s.fillPend e.1 o.id (pullWrites (s.cl k).mFloat d es[e.2]?)) s, [])
    | .inr (.trap cause detail v _ _) => (s, ts.map fun t => (t, ⟨trapRecord 0 0x0A 3 detail cause, v, word⟩))
    | .inr (.mchk array v pa) => (s.mchkEvent g o.lanes array pa word, ts.map fun t => (t, ⟨trapRecord 0 0x0A 3 array 18, v, word⟩))
    | .inr _ => (s, [])
  | _ => (s, [])

/-- Whether an access of a group's context goes through a translation that a `TLBINV` names (R353). DEDUCED: log entry 65. -/
def invMeets (s : State) (m : TlbMode) (asid : BitVec 16) (world : Bool) (g : Nat) : Bool :=
  match m with
  | .all => (s.grpRes g).world == world
  | _ => (s.grpRes g).asid == asid

/-- What an operation that is done at its home does at its completion, if it may complete now. DEDUCED: log entry 66. -/
def completed (s : State) (o : OutOp) : Option State :=
  if !o.done then none
  else match o.kind with
    | .plain | .xfer => some s
    | .fence ops => if s.ops.any fun x => ops.contains x.id then none else some s
    | .brld w d r =>
      let s := s.recordReg .buf o (groupLanes o.group) w d.toNat (mget 0 (s.wg w).b d.toNat)
      some (s.setWg w { s.wg w with b := mset 0 (s.wg w).b d.toNat r })
    | .cbld w d e =>
      let s := s.recordReg .cbook o (lanesOf o.lanes) w d.toNat (mget 0 (s.wg w).cb d.toNat)
      some (s.setWg w { s.wg w with cb := mset 0 (s.wg w).cb d.toNat e })
    | .syswr n x secure =>
      if n = 0x011#12 then
        if secure ∧ x = 1#64 then (if s.wtReady then some s.syncWorld else none) else some s
      else some (s.sysWrite secure n.toNat x)
    | .tlbinv m asid page world =>
      if s.heldAccesses (s.invMeets m asid world) then none else some (s.invalidate m asid page world)
    | .ldx _ _ _ _ _ | .copyIn | .course | .gather _ | .pull _ _ | .close => none

end State

/-- `RESULT_COMPLETION`: an outstanding operation that has done all its work completes; one that waited behind a join begins and does it
(R159, R248). -/
def execResultCompletion (op : Nat) (s : State) : Host.Outcome State Fault Refusal :=
  match s.ops.find? fun o => o.id == op with
  | none => s.out
  | some o =>
    if !o.kind.atOnce then
      if s.mayBegin o then
        let (s, traps) := s.began o
        (traps.foldl (fun s e => s.lateTrap e.1 e.2) (s.finishOp op)).out
      else s.out
    else match (if s.joinsGone o.joins then s.completed o else none) with
      | none => s.out
      | some s => (s.finishOp op).out

/-- `TRAP_DELIVERY`: a trapping thread whose operations have all ended enters its handler (R160, R379). -/
def execTrapDelivery (t : Nat) (s : State) : Host.Outcome State Fault Refusal :=
  match (s.thr t).stat with
  | .trapWait i => (if s.hasOps t then s else s.deliver t i).out
  | _ => s.out

/-! ## The management cores (R346, R350, R357) -/

/-- `BINDGO`: a management core's write (R357, R358). -/
def execBindgo (_mc : BitVec 2) (w : W64) (s : State) : Host.Outcome State Fault Refusal := (s.bindWrite w).out

/-- `WTSYNC`: core 0 writes 1; its completion is an event of its own (R350). -/
def execWtsync (mc : BitVec 2) (w : W64) (s : State) : Host.Outcome State Fault Refusal :=
  (if mc = 0#2 ∧ w = 1#64 then { s with wtSync := true } else s).out

/-- The completion of a `WTSYNC` write (R350). -/
def execWtsyncCompletion (s : State) : Host.Outcome State Fault Refusal := (if s.wtSync && s.wtReady then s.syncWorld else s).out

end Sys2Proof.Machine
end

