-- ==== Sys2Proof/Machine/Debug.lean ====
section
/-!
DEFINITION. The debug port (R396–R400): requests that a management core writes, their answers, and the end of a step.
-/
namespace Sys2Proof.Machine

/-! ## Requests (R396, R397) -/

/-- The fields of a command word. -/
def dbgOp (cmd : W64) : Nat := bits cmd.toNat 7 0
def dbgLane (cmd : W64) : Nat := bits cmd.toNat 24 8
def dbgSpec (cmd : W64) : BitVec 9 := cmd.extractLsb' 25 9
def dbgElem (cmd : W64) : Nat := bits cmd.toNat 43 34
def dbgBow (cmd : W64) : Bool := cmd.getLsbD 44

/-- The thread that a command names. -/
def dbgTarget (cmd : W64) : Nat := if dbgBow cmd then 131072 + dbgLane cmd % 16 else dbgLane cmd

/-- Whether a command's reserved fields are zero (R397). -/
def dbgClean (cmd : W64) : Bool := bits cmd.toNat 63 45 == 0 && !(dbgBow cmd && decide (16 ≤ dbgLane cmd))

namespace State

/-- Answer a request about a thread (R398). DEDUCED: log entry 36. -/
def answer (s : State) (mc : BitVec 2) (t status : Nat) (value : W64) : State :=
  s.post (mc == 0#2) (s.dbgRecord t status 5 0 value)

/-- Answer a request about a region. -/
def answerRegion (s : State) (mc : BitVec 2) (cmd : W64) (rcb fdom status : Nat) : State :=
  s.post (mc == 0#2) (evRecord s.cycle 10 0 0 0 fdom rcb (dbgLane cmd + (if dbgBow cmd then 2 ^ 17 else 0) + 2 ^ 56 * 5) 0 0 0 status)

/-- The resolved fields of a region by its control block: those its clusters keep, else those of its node. -/
def regionRes (s : State) (rcb : Nat) : Option Resolved :=
  match s.regions.find? fun x => x.rcb.toNat == rcb with
  | some x => some (s.cl (x.clusters.headD 0)).res
  | none => s.resolve rcb

/-- Whether a request of a management core about a thread is accepted (R396). -/
def dbgAccepts (s : State) (mc : BitVec 2) (t : Nat) : Bool :=
  let g := threadGroup t
  let r := s.grpRes g
  (s.grp g).bound && r.debug && s.attached.contains ((s.grp g).rcb, mc) && (!r.world || mc == 0#2)

/-- Whether a lane is halted and has reported it (R398). -/
def isHalted (s : State) (t : Nat) : Bool := (s.thr t).halt.any (·.posted)

/-- The frame of a request about a lane: reserved fields, the right, and the halt that some requests need. DEDUCED: log entry 36. -/
def dbgRequest (s : State) (mc : BitVec 2) (cmd data : W64) (op : Nat) (halted : Bool) (act : State → Nat → State) :
    Host.Outcome State Fault Refusal :=
  let s := { s with dbgData := data }
  let t := dbgTarget cmd
  (if dbgOp cmd ≠ op || !dbgClean cmd then s.answer mc t 3 0
  else if !s.dbgAccepts mc t then s.answer mc t 1 0
  else if halted && !s.isHalted t then s.answer mc t 2 0
  else act s t).out

/-- Release a halted lane; it rejoins issue at its resume address (R397). -/
def unhalt (s : State) (t : Nat) (stepping : Bool) : State :=
  let s := s.modThr t fun x => { x with halt := none, stepping := stepping, readyAt := s.cycle }
  (s.boundary t).reconvRelease (threadGroup t)

end State

/-- `ATTACH` (R396, R397). -/
def execAttach (mc : BitVec 2) (cmd data : W64) (s : State) : Host.Outcome State Fault Refusal :=
  let s := { s with dbgData := data }
  let rcb := bits data.toNat 47 0
  let x := s.regionRes rcb
  let f := match x with
    | some r => r.fdom.toNat
    | none => 0xFFFF
  (if dbgOp cmd ≠ 0 || !dbgClean cmd || dbgElem cmd != 0 then s.answerRegion mc cmd rcb f 3
  else match x with
    | some r =>
      if r.debug && (!r.world || mc == 0#2) then
        let s := { s with
          attached := s.attached.filter (fun (a : BitVec 48 × BitVec 2) => a.1 != BitVec.ofNat 48 rcb) ++ [(BitVec.ofNat 48 rcb, mc)] }
        s.answerRegion mc cmd rcb f 0
      else s.answerRegion mc cmd rcb f 1
    | none => s.answerRegion mc cmd rcb f 1).out

/-- Whether a thread is held at its word: a halt then waits for the end of its clause (R21). -/
def State.heldIn (s : State) (t : Nat) : Bool :=
  (s.core (groupCore (threadGroup t))).sels.any fun y =>
    y.slot == groupSlot (threadGroup t) && y.lanes.getLsbD (threadLane t) && y.held != .no

/-- HALT request (R397, R398); the halt record is its answer. A thread that is held at its word halts when its clause has ended (R21). -/
def execDebugHalt (mc : BitVec 2) (cmd data : W64) (s : State) : Host.Outcome State Fault Refusal :=
  s.dbgRequest mc cmd data 1 false fun s t =>
    if dbgElem cmd ≠ 0 then s.answer mc t 3 0
    else if (s.thr t).halt.isSome then s.answer mc t 0 0
    else if s.heldIn t then s.modThr t fun x => { x with haltReq := some (3, 0) }
    else s.haltLane t 3 0

/-- `RESUME` (R397). -/
def execResume (mc : BitVec 2) (cmd data : W64) (s : State) : Host.Outcome State Fault Refusal :=
  s.dbgRequest mc cmd data 2 true fun s t =>
    if dbgElem cmd ≠ 0 then s.answer mc t 3 0 else (s.answer mc t 0 0).unhalt t false

/-- `STEP` (R397). -/
def execStep (mc : BitVec 2) (cmd data : W64) (s : State) : Host.Outcome State Fault Refusal :=
  s.dbgRequest mc cmd data 3 true fun s t =>
    if dbgElem cmd ≠ 0 then s.answer mc t 3 0 else (s.answer mc t 0 0).unhalt t true

/-- `STEP_END`: a stepped lane halts again once its word has completed (R397, R398). -/
def execStepEnd (t : Nat) (s : State) : Host.Outcome State Fault Refusal :=
  let x := s.thr t
  match x.halt with
  | some ⟨r, code, false⟩ =>
    if r = 4#8 ∧ !s.hasOps t then
      let s := s.post (s.dbgSecure (s.grp (threadGroup t)).rcb) (s.dbgRecord t 0 4 0 0)
      (s.setThr t { x with halt := some ⟨r, code, true⟩, stepping := false, warn := false }).out
    else s.out
  | _ => s.out

/-! ## Registers (R397, R399) -/

namespace State

/-- What READ returns of a register, or none when the specifier or the element is bad (R397). -/
def dbgRead (s : State) (t : Nat) (spec : BitVec 9) (elem : Nat) : Option W64 :=
  let x := s.thr t
  let i := bits spec.toNat 5 0
  match bits spec.toNat 8 6 with
  | 1 => if elem = 0 then some (x.archW (.g (BitVec.ofNat 6 i))) else none
  | 2 => if 32 ≤ i ∨ 3 ≤ elem then none
    else match x.arch (.v (BitVec.ofNat 5 i)) with
      | .v y => some (if elem = 2 then y.tag.zeroExtend 64 else y.bits.extractLsb' (64 * elem) 64)
      | _ => none
  | 3 => if 8 ≤ i then none else some ((mget 0 (s.archM (threadGroup t) i).elems elem).zeroExtend 64)
  | 4 => if 8 ≤ i ∨ elem ≠ 0 then none
    else match x.arch (.p (BitVec.ofNat 3 i)) with
      | .p b => some (if b then 1 else 0)
      | _ => none
  | 6 => if elem ≠ 0 ∨ !SReg.readable (BitVec.ofNat 6 i) then none
    else match sregAt i with
      | some r => some (x.archW (.s r))
      | none => some (s.rdsVal t (BitVec.ofNat 6 i))
  | _ => none

/-- Write a register at once: earlier writes of it are settled first (R399). -/
def dbgPut (s : State) (t : Nat) (r : RegId) (v : RVal) : State := s.modThr t fun x => (x.flush [r]).put r v

/-- Replace a matrix register at once. -/
def dbgPutM (s : State) (g i : Nat) (m : MVal) : State :=
  let x := s.grp g
  s.setGrp g { x with m := mset MVal.zero x.m i m, mpend := x.mpend.filter fun e => e.reg.toNat != i }

/-- What WRITE does to a register, or none when the specifier or the element is bad (R397). -/
def dbgWrite (s : State) (t : Nat) (spec : BitVec 9) (elem : Nat) (w : W64) : Option State :=
  let g := threadGroup t
  let i := bits spec.toNat 5 0
  match bits spec.toNat 8 6 with
  | 1 => if elem = 0 then some (s.dbgPut t (.g (BitVec.ofNat 6 i)) (.w w)) else none
  | 2 =>
    let r := RegId.v (BitVec.ofNat 5 i)
    match (s.thr t).arch r with
    | .v y =>
      if 32 ≤ i ∨ 3 ≤ elem ∨ (elem = 2 ∧ w.truncate 8 ≠ 0#8 ∧ !tagVOk (w.truncate 8)) then none
      else some (s.dbgPut t r (.v (match elem with
        | 0 => { y with bits := y.bits.extractLsb' 64 64 ++ w }
        | 1 => { y with bits := w ++ y.bits.extractLsb' 0 64 }
        | _ => { y with tag := w.truncate 8 })))
    | _ => none
  | 3 =>
    let m := s.archM g i
    if 8 ≤ i then none
    else some (s.dbgPutM g i { m with
      elems := mset 0 m.elems elem (BitVec.ofNat 32 (w.toNat % 2 ^ fmtWidth (tagFmt m.tag))) })
  | 4 => if 7 ≤ i ∨ elem ≠ 0 then none else some (s.dbgPut t (.p (BitVec.ofNat 3 i)) (.p (w.getLsbD 0)))
  | 6 => if elem ≠ 0 then none
    else match wrsWrites g (BitVec.ofNat 6 i) w with
      | [] => none
      | l => some (l.foldl (fun s e => s.dbgPut t e.1 e.2) s)
  | _ => none

/-- Set DEDIT in the region control block of a thread's region (R354, R399). -/
def setEdited (s : State) (t : Nat) : State :=
  s.markEdited (s.grp (threadGroup t)).rcb

/-- Whether a word writes a register: its DST names it, or the pair of a `.b128` access of which it is the odd one, or it is the
predicate of `EXPND` (R151, R295, R399). -/
def wordWrites (cls : BitVec 4) (w : W64) (spec : BitVec 9) : Bool :=
  let d := w.extractLsb' 36 9
  d == spec || (cls == 2#4 && d.extractLsb' 6 3 == 1#3 && d + 1 == spec && w.extractLsb' 7 4 == ITy.b128.code) ||
    (cls == 7#4 && w.extractLsb' 56 8 == 5#8 && w.extractLsb' 9 9 == spec)

/-- Whether a parked lane's word writes the register that a debugger has just written (R399). -/
def warns (s : State) (t : Nat) (spec : BitVec 9) : Bool :=
  match (s.thr t).stat with
  | .parked tok => match s.awaits.find? fun a => a.tok == tok with
    | some a =>
      let g := threadGroup t
      !a.fetch && (match (s.fetchWord (groupCore g) (s.grpRes g) ((a.word.toNat + 8 * (a.word.toNat / 2 ^ 48 + 1)) % 2 ^ 48)).2 with
        | .inl w => wordWrites a.cls w spec
        | .inr _ => false)
    | none => false
  | _ => false

end State

/-- `READ` (R397). -/
def execRead (mc : BitVec 2) (cmd data : W64) (s : State) : Host.Outcome State Fault Refusal :=
  s.dbgRequest mc cmd data 4 true fun s t => match s.dbgRead t (dbgSpec cmd) (dbgElem cmd) with
    | some v => s.answer mc t 0 v
    | none => s.answer mc t 3 0

/-- `WRITE` (R397, R399). -/
def execWrite (mc : BitVec 2) (cmd data : W64) (s : State) : Host.Outcome State Fault Refusal :=
  s.dbgRequest mc cmd data 5 true fun s t => match s.dbgWrite t (dbgSpec cmd) (dbgElem cmd) data with
    | some s' =>
      let s' := s'.setEdited t
      let s' := if s.warns t (dbgSpec cmd) then s'.modThr t fun x => { x with warn := true } else s'
      s'.answer mc t 0 0
    | none => s.answer mc t 3 0

/-- `REVOKE`: the right ends, and every halted lane of the region resumes (R400). -/
def execRevoke (mc : BitVec 2) (cmd data : W64) (s : State) : Host.Outcome State Fault Refusal :=
  let s := { s with dbgData := data }
  let rcb := bits data.toNat 47 0
  let f := match s.regionRes rcb with
    | some r => r.fdom.toNat
    | none => 0xFFFF
  (if dbgOp cmd ≠ 6 || !dbgClean cmd || dbgElem cmd != 0 then s.answerRegion mc cmd rcb f 3
  else if s.attached.contains (BitVec.ofNat 48 rcb, mc) then
    let s := { s with attached := s.attached.filter fun a => a.1 != BitVec.ofNat 48 rcb }
    let ts := (s.regionGroups rcb).flatMap fun g => (groupLanes g).map (tid g)
    let s := (ts.filter fun t => (s.thr t).halt.isSome).foldl (fun s t => s.unhalt t false) s
    s.answerRegion mc cmd rcb f 0
  else s.answerRegion mc cmd rcb f 1).out

/-- `MREAD`: an 8-byte part of the scale field, or the tag, of an m register (R397). -/
def execMread (mc : BitVec 2) (cmd data : W64) (s : State) : Host.Outcome State Fault Refusal :=
  s.dbgRequest mc cmd data 7 true fun s t =>
    let i := bits (dbgSpec cmd).toNat 5 0
    if bits (dbgSpec cmd).toNat 8 6 ≠ 3 ∨ 8 ≤ i ∨ 4 < dbgElem cmd then s.answer mc t 3 0
    else
      let m := s.archM (threadGroup t) i
      s.answer mc t 0 (if dbgElem cmd = 4 then m.tag.zeroExtend 64 else m.scale.extractLsb' (64 * dbgElem cmd) 64)

/-- `MWRITE`: an invalid tag changes nothing (R397). -/
def execMwrite (mc : BitVec 2) (cmd data : W64) (s : State) : Host.Outcome State Fault Refusal :=
  s.dbgRequest mc cmd data 8 true fun s t =>
    let i := bits (dbgSpec cmd).toNat 5 0
    let e := dbgElem cmd
    if bits (dbgSpec cmd).toNat 8 6 ≠ 3 ∨ 8 ≤ i ∨ 4 < e ∨ (e = 4 ∧ data.truncate 8 ≠ 0#8 ∧ !tagOk (data.truncate 8)) then s.answer mc t 3 0
    else
      let g := threadGroup t
      let m := s.archM g i
      let s' := s.dbgPutM g i (if e = 4 then { m with tag := data.truncate 8 }
        else { m with scale := BitVec.ofNat 256 (setBits m.scale.toNat (64 * e + 63) (64 * e) data.toNat) })
      let s' := s'.setEdited t
      (if s.warns t (dbgSpec cmd) then s'.modThr t fun x => { x with warn := true } else s').answer mc t 0 0

end Sys2Proof.Machine
end

