-- ==== Sys2Proof/Machine/Fabric.lean ====
section
/-!
DEFINITION. The routers and the sluice (R326–R329, R422–R424), Ndonar ports (R426, R427), what destinations do with requests and replies
(R331, R333, R336), and Ethernet frames (R428, R429).
-/
namespace Sys2Proof.Machine

/-! ## Routers (R326, R327, R423) -/

/-- The output that a packet's next symbol names: 0 eject, 1–4 a mesh hop, 5 the external port (R318, R327). -/
def Pkt.out (p : Pkt) : Nat :=
  match p.syms with
  | [] => 0
  | x :: _ => if x.toNat ≤ 4 then x.toNat else 5

/-- The key of a router's drain slot or of its output's arbiter. -/
def slotKey (reply : Bool) (c n : Nat) : Nat := 8 * (16 * (if reply then 1 else 0) + c) + n

/-- The traffic classes in the order of their channels. -/
def channels : List TClass := [0, 1, 2, 3].map fun n => TClass.ofCode (BitVec.ofNat 2 n)

/-- The data flits of the largest packet of a mesh (R326). -/
def maxData (reply : Bool) : Nat := if reply then 4 else 16

namespace State

/-- The age of a head (R327). -/
def ageOf (s : State) (p : Pkt) : Nat := if p.promoted then 1023 else min 1023 (s.cycle - p.headAt)

/-- The heads at a router: input, channel, packet. -/
def headsAt (s : State) (reply : Bool) (c : Nat) : List (Nat × TClass × Pkt) :=
  (List.range 7).flatMap fun i => channels.filterMap fun v =>
    match s.queueAt (inKey reply c i v) with
    | p :: _ => if p.due ≤ s.cycle then some (i, v, p) else none
    | [] => none

/-- The extra cycles of a link (R324, R326). -/
def linkLat (c d : Nat) : Nat := (Config.linkLat c d).toNat

/-- The flits that have arrived at an input for a channel. -/
def arrivedFlits (s : State) (k : Nat) : Nat :=
  (s.queueAt k).foldl (fun n p => n + if p.due ≤ s.cycle then min p.flits (s.cycle - p.due + 1) else 0) 0

/-- Whether an input of a router raises stop on a channel: its free space is below one round trip, in which the packet that is granted
upstream before stop arrives may be the largest one (R423). DEDUCED: log entry 50. -/
def raisesStop (s : State) (k : Nat) : Bool :=
  let b := k / 32 % 16
  let i := k % 32 / 4
  match meshStep b i with
  | none => false
  | some u => decide (bufFlits (decide (512 ≤ k)) - s.arrivedFlits k < 2 * (1 + linkLat u (dirOpp i)) + 2 + maxData (decide (512 ≤ k)))

/-- The stop signals of a new cycle: each input keeps those of the last cycles, the latest in bit 0 (R423). -/
def updateStops (s : State) : State :=
  { s with stops := ((s.routers.map (·.1)) ++ (s.stops.map (·.1))).eraseDups.foldl (fun m k =>
      mset 0 m k ((2 * mget 0 m k + if s.raisesStop k then 1 else 0) % 32)) s.stops }

/-- Whether a channel is stopped at an output: the signal of its downstream input has arrived, 1 + LAT cycles after it was raised
(R423). -/
def stopped (s : State) (reply : Bool) (c out : Nat) (v : TClass) : Bool :=
  match meshStep c out with
  | none => false
  | some b => bitAt (mget 0 s.stops (inKey reply b (dirOpp out) v)) (1 + linkLat c out)

/-- Replace an input queue of which packets were taken; a packet that is head only now is head from now on (R327). -/
def requeue (s : State) (k : Nat) (l : List Pkt) : State :=
  match l with
  | [] => s.setQueue k []
  | q :: l => s.setQueue k ((if (s.queueAt k).head? == some q then q else { q with headAt := max q.due s.cycle }) :: l)

/-- Take the head of an input queue away. -/
def popHead (s : State) (k : Nat) : State := s.requeue k ((s.queueAt k).drop 1)

/-- The weight of a channel (R327, R351). DEDUCED: log entry 50. -/
def arbWeight (s : State) (v : TClass) : Nat := bits s.sys.arbw.toNat (4 * v.code.toNat + 3) (4 * v.code.toNat)
/-- The promotion threshold. DEDUCED: log entry 50. -/
def arbThr (s : State) : Nat := bits s.sys.arbw.toNat 25 16

end State

/-- The first of some channels, from the pointer on, that has deficit and a candidate. -/
def pickChannel (a : Arb) (cand : List (Nat × TClass × Pkt)) : Option TClass :=
  ((List.range 4).map fun n => TClass.ofCode (BitVec.ofNat 2 ((a.chan + n) % 4))).find? fun v =>
    decide (0 < mget 0 a.deficit v.code.toNat) && cand.any fun h => h.2.1 == v

/-- The grant of R327 among candidates: which head, if any, and the arbiter after it. -/
def State.arbitrate (s : State) (a : Arb) (cand : List (Nat × TClass × Pkt)) : Option (Nat × TClass × Pkt) × Arb :=
  let prom := cand.filter fun h => decide (s.arbThr ≤ s.ageOf h.2.2)
  match prom with
  | h :: l => (some (l.foldl (fun b x => if s.ageOf b.2.2 < s.ageOf x.2.2 then x else b) h), a)
  | [] =>
    let full := { a with deficit := channels.foldl (fun m v => mset 0 m v.code.toNat (s.arbWeight v)) [] }
    let (a, v) := match pickChannel a cand with
      | some v => (a, some v)
      | none => (full, pickChannel full cand)
    match v with
    | none => (none, a)
    | some v =>
      let n := v.code.toNat
      let order := (List.range 7).map fun k => (mget 0 a.inputs n + 1 + k) % 7
      match order.findSome? fun i => cand.find? fun h => h.1 == i && h.2.1 == v with
      | none => (none, a)
      | some h => (some h, { a with
          deficit := mset 0 a.deficit n (mget 0 a.deficit n - 1), chan := n, inputs := mset 0 a.inputs n h.1 })

/-! ## Where a packet goes (R318, R319, R331, R424) -/

namespace State

/-- A packet is lost: its transfer ends with status 3; one from outside is forgotten (R331, R424). -/
def losePkt (s : State) (p : Pkt) : State :=
  match s.xfer p.xfer with
  | none => s
  | some x => if x.foreign then { s with xfers := s.xfers.filter fun y => y.id != x.id } else s.endXfer x.id 3 false

/-- A packet is discarded at a router whose link is down (R424, R425). -/
def discard (s : State) (c : Nat) (p : Pkt) : State :=
  (s.losePkt p) |> fun s => { s with sys := { s.sys with disc := mset 0 s.sys.disc c (mget 0 s.sys.disc c + 1) } }

/-- A packet ejects at a cluster: a request has arrived at its destination, a reply is back (R318). -/
def ejectPkt (s : State) (c : Nat) (p : Pkt) : State :=
  s.modXfer p.xfer fun x => if p.reply then { x with pos := .back } else { x with pos := .arrived, cluster := c, back := p.back }

/-- A packet leaves the module: a reply or a packet from elsewhere is gone, a request of this module is away.
DESIGN CHOICE: log entry 52. -/
def leaveModule (s : State) (p : Pkt) : State :=
  match s.xfer p.xfer with
  | none => s
  | some x =>
    if x.foreign || p.reply then { s with xfers := s.xfers.filter fun y => y.id != x.id }
    else s.modXfer x.id fun y => { y with pos := .away }

/-- The key of a port's buffer or drain slot for a channel of a mesh. -/
def portKey (p : Nat) (reply : Bool) (v : TClass) : Nat := 8 * p + 4 * (if reply then 1 else 0) + v.code.toNat

/-- The free flits of a port's buffer for a channel of a mesh: as much as a router's input holds (R426). DESIGN CHOICE: log entry 52. -/
def portRoom (s : State) (p : Nat) (reply : Bool) (v : TClass) : Nat :=
  bufFlits reply - (mget [] s.portq (portKey p reply v)).foldl (fun n q => n + q.flits) 0

/-- A packet enters the port that its escape group names: an Ndonar port holds it until it leaves; across Ethernet it is complete at
egress (R318, R331, R430). -/
def enterPort (s : State) (p : Pkt) : State :=
  match p.syms with
  | e :: a :: b :: l =>
    if e = 5#4 then
      let k := portKey (escNum a.toNat b.toNat) p.reply p.vc
      { s with portq := mset [] s.portq k (mget [] s.portq k ++ [{ p with syms := l, headAt := s.cycle }]) }
    else match s.xfer p.xfer with
      | none => s
      | some x => if x.foreign || p.reply then s.leaveModule p else s.endXfer x.id 4 false
  | _ => s.losePkt p

/-- The port that a packet's escape group names (R318, R430). -/
def portOf (s : State) (p : Pkt) : Option Nat :=
  match p.syms with
  | e :: a :: b :: _ =>
    if e = 5#4 then some (escNum a.toNat b.toNat)
    else if e = 7#4 then (s.nextHop (escNum a.toNat b.toNat)).map (24 + ·)
    else none
  | _ => none

/-- Whether a packet still holds an error after its link's retries (R388). -/
def pktBad (s : State) (p : Pkt) : Bool := s.latent.contains ⟨6, p.xfer⟩

/-- Whether a head may cross its output as far as the next buffer goes (R423, R426). -/
def roomBeyond (s : State) (reply : Bool) (c out : Nat) (h : Nat × TClass × Pkt) : Bool :=
  if out = 5 then match s.portOf h.2.2 with
    | some p => decide (24 ≤ p) || s.portDown p || decide (h.2.2.flits ≤ s.portRoom p reply h.2.1)
    | none => true
  else !s.stopped reply c out h.2.1

/-- A granted packet crosses its output; one whose port is down, or that its link cannot deliver, is discarded (R319, R326, R388, R424). -/
def crossOut (s : State) (reply : Bool) (c out : Nat) (p : Pkt) : State :=
  if decide (0 < out) && s.pktBad p then (State.losePkt { s with latent := s.latent.filter (· != ⟨6, p.xfer⟩) } p)
  else match out with
  | 0 => s.ejectPkt c p
  | 5 => if (s.portOf p).any s.portDown then s.discard c p else s.enterPort p
  | d =>
    match meshStep c d with
    | none => s.losePkt p
    | some b => s.pushPkt (inKey reply b (dirOpp d) p.vc)
        { p with syms := p.syms.drop 1, back := BitVec.ofNat 4 (dirOpp d) :: p.back, due := s.cycle + 2 + linkLat c d, promoted := false }

/-- Whether the sluice's window is open (R328). -/
def inWindow (s : State) : Bool := decide (s.cycle % 65536 < 256)

/-- The Ndonar ports of a cluster. -/
def portsAt (c : Nat) : List Nat := (List.range 24).filter fun p => (Config.portCluster p).toNat == c

/-- The packet at the front of a port's buffer leaves. -/
def portLeave (s : State) (k : Nat) : State :=
  match mget [] s.portq k with
  | [] => s
  | p :: l => ({ s with portq := mset [] s.portq k l }).leaveModule p

end State

/-- `ROUTER_GRANT`: a free output of a router grants one head; heads whose link is down are discarded; an external output also lets go
what its ports hold (R326, R327, R424, R426). -/
def execRouterGrant (reply : Bool) (cl : BitVec 4) (out : BitVec 3) (s : State) : Host.Outcome State Fault Refusal :=
  let c := cl.toNat
  let o := out.toNat
  let s := if o = 5 then
      (State.portsAt c).foldl (fun s p => channels.foldl (fun s v =>
        let k := State.portKey p reply v
        if s.flip (2 ^ 89 + k) then s.portLeave k else s) s) s
    else s
  let heads := (s.headsAt reply c).filter fun h => h.2.2.out == o
  if s.inWindow || decide (6 ≤ o) then s.out
  else if decide (1 ≤ o) && decide (o ≤ 4) && s.linkDown c o then
    (heads.foldl (fun s h => (s.popHead (inKey reply c h.1 h.2.1)).discard c h.2.2) s).out
  else
    let k := slotKey reply c o
    let a := mget Arb.reset s.arbs k
    let cand := heads.filter (s.roomBeyond reply c o)
    if s.cycle < a.busy ∨ cand.isEmpty then s.out
    else match s.arbitrate a cand with
      | (none, a) => State.out { s with arbs := mset Arb.reset s.arbs k a }
      | (some (i, v, p), a) =>
        let s := { s with arbs := mset Arb.reset s.arbs k { a with busy := s.cycle + p.flits } }
        ((s.popHead (inKey reply c i v)).crossOut reply c o p).out

/-! ## The sluice (R328) -/

namespace State

/-- The drain slot of an input. -/
def drainAt (s : State) (k : Nat) : Option Pkt := mget none s.drains k

/-- One link's move, picked from the state `o` at the start of its phase: the oldest head bound for it, a drained packet among them, goes
into the empty drain slot downstream. DEDUCED: log entry 51. -/
def drainLink (o : State) (reply : Bool) (c d : Nat) (s : State) : State :=
  match meshStep c d with
  | none => s
  | some b =>
    if (o.cl c).stopped || (o.cl b).stopped || o.linkDown c d || (o.drainAt (slotKey reply b (dirOpp d))).isSome then s
    else
      let slots := (List.range 7).filterMap fun i => (o.drainAt (slotKey reply c i)).map fun p => (i, true, p)
      let heads := (o.headsAt reply c).map fun h => (h.1, false, h.2.2)
      let cand := ((List.range 7).flatMap fun i => channels.flatMap fun v => (slots ++ heads).filter fun h =>
        h.1 == i && h.2.2.vc == v).filter fun h => h.2.2.out == d
      let age := fun (h : Nat × Bool × Pkt) => if h.2.1 then 1023 else o.ageOf h.2.2
      match cand with
      | [] => s
      | h :: l =>
        let (i, slot, p) := l.foldl (fun b x => if age b < age x then x else b) h
        let s := if slot then { s with drains := mset none s.drains (slotKey reply c i) none } else s.popHead (inKey reply c i p.vc)
        let moved := { p with syms := p.syms.drop 1, back := BitVec.ofNat 4 (dirOpp d) :: p.back, due := s.cycle, promoted := true }
        let s := { s with drains := mset none s.drains (slotKey reply b (dirOpp d)) (some moved) }
        if reply then { s with sys := { s.sys with drainp := mset 0 s.sys.drainp c (mget 0 s.sys.drainp c + 1) } }
        else { s with sys := { s.sys with drainq := mset 0 s.sys.drainq c (mget 0 s.sys.drainq c + 1) } }

/-- A direction's phase on both meshes: all its links pick their moves in one cycle. DEDUCED: log entry 51. -/
def drainPhase (s : State) (d : Nat) : State :=
  (List.range 16).foldl (fun u c => drainLink s true c d (drainLink s false c d u)) s

/-- Drained packets take the heads of their inputs, promoted. -/
def drainHeads (s : State) : State :=
  [false, true].foldl (fun s reply => (List.range 16).foldl (fun s c => (List.range 7).foldl (fun s i =>
    match s.drainAt (slotKey reply c i) with
    | none => s
    | some p =>
      let k := inKey reply c i p.vc
      ({ s with drains := mset none s.drains (slotKey reply c i) none }).setQueue k ({ p with headAt := s.cycle } :: s.queueAt k)) s) s) s

end State

/-- `SLUICE`: what the drain window does in this cycle: its east, south, west and north phases and its end (R328). -/
def execSluice (s : State) : Host.Outcome State Fault Refusal :=
  (match s.cycle % 65536 with
  | 24 => s.drainPhase 2
  | 80 => s.drainPhase 3
  | 136 => s.drainPhase 4
  | 192 => s.drainPhase 1
  | 248 => s.drainHeads
  | _ => s).out

/-- `NDONAR_DRAIN`: a port moves its oldest waiting packet to its peer, and its drained packets take the heads of the routers' external
inputs, once in 65,536 cycles (R426). DESIGN CHOICE: log entry 52. -/
def execNdonarDrain (port : BitVec 5) (s : State) : Host.Outcome State Fault Refusal :=
  let p := port.toNat
  let last := mget 0 s.portLast p
  if 24 ≤ p || (last != 0 && decide (s.cycle + 1 < last + 65536)) then s.out
  else
    let c := (Config.portCluster p).toNat
    let s := { s with portLast := mset 0 s.portLast p (s.cycle + 1) }
    let s := [false, true].foldl (fun s reply => channels.foldl (fun (s : State) v =>
      let k := State.portKey p reply v
      match mget none s.portDrain k with
      | none => s
      | some q =>
        let i := inKey reply c 5 v
        ({ s with portDrain := mset none s.portDrain k none }).setQueue i ({ q with promoted := true, headAt := s.cycle } :: s.queueAt i)) s) s
    let heads := [false, true].flatMap fun reply => channels.filterMap fun v =>
      ((mget [] s.portq (State.portKey p reply v)).head?).map fun q => (State.portKey p reply v, q)
    (match heads with
    | [] => s
    | h :: l => s.portLeave (l.foldl (fun (b : Nat × Pkt) (x : Nat × Pkt) => if x.2.headAt < b.2.headAt then x else b) h).1).out

namespace State

/-- Discard the packets of a cluster's routers that a test picks (R424). -/
def discardAt (s : State) (c : Nat) (bad : Pkt → Bool) : State :=
  let keys := [false, true].flatMap fun reply => (List.range 7).flatMap fun i => channels.map fun v => inKey reply c i v
  keys.foldl (fun s k =>
    let l := s.queueAt k
    let keep := l.filter fun p => !bad p
    (l.filter bad).foldl (fun s p => s.discard c p) (if keep.length = l.length then s else s.requeue k keep)) s

/-- A link is marked down, and the packets at its router that are bound for it are discarded (R424). -/
def markLink (s : State) (c d : Nat) : State :=
  State.discardAt { s with linksDown := mset false s.linksDown (8 * c + d) true } c fun p => p.out == d

/-- A port is marked down, and the packets that are bound for it are discarded (R424, R426). -/
def markPort (s : State) (p : Nat) : State :=
  let c := (Config.portCluster p).toNat
  let s := { s with portsDown := mset false s.portsDown p true }
  let s := s.discardAt c fun q => q.out == 5 && s.portOf q == some p
  [false, true].foldl (fun s reply => channels.foldl (fun s v =>
    let k := portKey p reply v
    (mget [] s.portq k).foldl (fun s q => s.discard c q) { s with portq := mset [] s.portq k [] }) s) s

end State

/-- `LINK_DOWN`: the device marks a mesh link or a port's link down (R424). -/
def execLinkDown (cl : Option (BitVec 4)) (dir : BitVec 5) (s : State) : Host.Outcome State Fault Refusal :=
  match cl with
  | some c => if dir = 0#5 ∨ 5 ≤ dir.toNat then s.out else (s.markLink c.toNat dir.toNat).out
  | none => if 28 ≤ dir.toNat then s.out else (s.markPort dir.toNat).out

/-! ## At the destination (R319, R331, R333, R336) -/

namespace State

/-- Send the reply of a transfer along its recorded route, by the local reply input with more free space; it waits while neither has
room, and a route that fails its check loses it (R319, R321, R422). -/
def sendReply (s : State) (x : Xfer) : Option State :=
  let c := x.cluster
  let route := x.back ++ [0#4]
  if x.posted then some { s with xfers := s.xfers.filter fun y => y.id != x.id }
  else if !s.restOk c 0 (route.map (·.toNat)) then
    some (if x.foreign then { s with xfers := s.xfers.filter fun y => y.id != x.id } else s.modXfer x.id fun y => { y with pos := .lost })
  else
    let f0 := s.freeFlits true c 0 x.tc
    let f6 := s.freeFlits true c 6 x.tc
    let i := if f0 < f6 then 6 else 0
    if max f0 f6 < x.repFlits then none
    else
      let s := s.modXfer x.id fun y => { y with pos := .returning }
      some (s.pushPkt (inKey true c i x.tc) ⟨x.id, true, route, [], x.tc, x.repFlits, s.cycle, s.cycle, false⟩)

/-- Whether a place of a transfer is still its region's: a scratchpad place only while the region runs on the cluster (R54). -/
def placeHeld (s : State) (x : Xfer) : Option CopyPlace → Bool
  | some (.sp _) => (s.cl x.cluster).region == some x.rcb
  | some _ => true
  | none => false

/-- Whether a transfer passes the checks of its destination: it was not refused at an ingress, and its region holds its places (R54,
R427). -/
def accepted (s : State) (x : Xfer) : Bool := x.status == 0#8 && x.lanes.all fun l => s.placeHeld x l.place

/-- Perform one lane of a transfer at its destination slice; a release publishes what the transfer carries, an acquire takes what it reads
(R122, R333, R334). -/
def performLane (x : Xfer) (s : State) (l : XLane) : State :=
  let c := x.cluster
  let t := tid x.group l.lane
  let write := fun (put : State → State) => put (if x.rel.isSome then s.pass (.op x.id) (.write s.seq) [] else s)
  let rel := x.rel.map fun sc => (t, sc)
  let read := fun (space : Space) (kind : Nat) (spots : List Nat) =>
    let got := if s.writes.isEmpty then spots.map fun a => (a, s.byteOf space a, none)
      else inParts (s.find (300000 + x.id) space (s.knowsOp x.id c kind) fun r => if r.kind.toNat == kind then r.access else 2 ^ 49 + r.seq) spots
    let s := if x.acq.isSome then s.took t x.acq got else s
    s.modXfer x.id fun y => { y with data := y.data ++ [(l.lane, got.map (·.2.1))] }
  match l.place with
  | some (.sp k) =>
    if x.write then write fun s => s.spPutBy (200000 + c) (opKnown x.id) rel none k l.data
    else read .sp 0 ((List.range x.width).map (k + ·))
  | some (.mem p) =>
    if x.write then write fun s => s.writeBy (200000 + c) (opKnown x.id) rel none p l.data
    else read .mem p.kind (spots p x.width)
  | _ => s

/-- The reply of a transfer that has arrived leaves; what it did, if it was accepted, or status 2 (R54, R331). -/
def arriveAt (s : State) (y : Xfer) (act : State → State × BitVec 8) : State :=
  match s.sendReply y with
  | none => s
  | some s =>
    let (s, st) := if s.accepted y then act s else (s, if y.status = 0#8 then 2 else y.status)
    s.modXfer y.id fun z => { z with status := st }

end State

/-- `REQUEST_AT_DESTINATION`: the lanes of a remote write or read are performed in ascending order, and the reply leaves; one that its
destination refuses is not performed (R54, R333). -/
def execRequestAtDestination (x : Nat) (s : State) : Host.Outcome State Fault Refusal :=
  match s.xfer x with
  | none => s.out
  | some y =>
    if y.pos ≠ .arrived ∨ y.ring then s.out
    else
      let s := s.arriveAt y fun s => ((y.lanes.mergeSort fun a b => decide (a.lane ≤ b.lane)).foldl (State.performLane y) s, 0)
      (State.injectHeld s.xfers s).out

namespace State

/-- The place of a ring's slots: the share of its cluster, or the allocation in which the descriptor at `k` lies; none when they are not
inside it (R335). -/
def ringSlots (s : State) (c k base n : Nat) : Option Nat :=
  let off := bits base 20 0
  let core := bits base 24 21
  if bits base 28 25 ≠ c then none
  else if bitAt base 29 then (if off + n ≤ (s.cl c).zs then some (spKey c core (mget 0 (s.cl c).share core + off)) else none)
  else
    let slice := k / 0x200000
    if slice ≠ 16 * c + core then none
    else (((mrange s.wgs (2 ^ 32 * (17 * c + core)) (2 ^ 32 * (17 * c + core + 1))).find? fun w => w.2.bound &&
        decide (w.2.base ≤ k % 0x200000) && decide (k % 0x200000 < w.2.base + w.2.zw)).bind fun w =>
      if off + n ≤ w.2.zw then some (spKey c core (w.2.base + off)) else none)

/-- Add one to DROPS of a ring. -/
def ringDrop (s : State) (c k : Nat) : State := s.spPutBy (200000 + c) [] none none (k + 24) (leBytes (s.spRd (k + 24) 4 + 1) 4)

/-- What holds what a ring's network interface has put into it (R338). -/
def ringHolder (k : Nat) : Holder := .queue (2 ^ 30 + k)

/-- Whether a ring whose descriptor lies at a place is well formed, for the network interface of a cluster (R335). -/
def ringGood (s : State) (c k : Nat) : Bool := s.ringOk k fun b m => (s.ringSlots c k b m).isSome

/-- Whether a ring takes no message of `n` slots now (R336). -/
def ringFull (s : State) (k n : Nat) (tc : TClass) : Bool :=
  let wmark := bits (s.spRd k 32) 175 160
  let (f, _, _, slots) := s.ringAt k
  decide (slots < f + n) || (tc != .lat && wmark != 0 && decide (wmark < f + n))

/-- The slots of a message are written from TAIL on (R336). -/
def ringFill (s : State) (c k : Nat) (msg : List Byte) : State :=
  let (_, _, base, slots) := s.ringAt k
  let place := (s.ringSlots c k base (64 * slots)).getD 0
  let tail := s.spRd (k + 12) 4
  (List.range (msg.length / 64)).foldl (fun s j =>
    s.spPutBy (200000 + c) [⟨ringHolder k, [], none, false, []⟩] none none (place + 64 * ((tail + j) % slots)) ((msg.drop (64 * j)).take 64)) s

/-- TAIL counts `n` slots more, with a release at `.clus` after them (R336, R338). -/
def ringCommit (s : State) (c k n : Nat) : State :=
  (s.pass (ringHolder k) (.write s.seq) []).spPutBy (200000 + c) [] (some (200000 + c, 4)) none (k + 12) (leBytes (s.spRd (k + 12) 4 + n) 4)

/-- The step of R336: a message of some slots enters the ring whose descriptor lies at a place. -/
def ringDeliver (s : State) (c k : Nat) (tc : TClass) (posted : Bool) (msg : List Byte) : State × BitVec 8 :=
  if !s.ringGood c k then (s, 2)
  else if s.ringFull k (msg.length / 64) tc then (if posted then s.ringDrop c k else s, 1)
  else ((s.ringFill c k msg).ringCommit c k (msg.length / 64), 0)

/-- The descriptor's place of a rule's ring: in the cluster share that its address names (R428). -/
def ringKey (s : State) (ring : Nat) : Option Nat :=
  match farPlace s 32 (BitVec.ofNat 64 ring) with
  | .inl (.sp k) => some k
  | _ => none

/-- Whether a frame on its way into a ring stands before what arrives there now (R335, R429). -/
def ringPending (s : State) (k : Nat) : Bool := s.frames.any fun f => s.ringKey f.ring == some k

end State

/-- `RING_MESSAGE_DELIVERY`: the network interface performs a message in its turn, and its reply carries the status (R54, R335, R336). -/
def execRingMessageDelivery (x : Nat) (s : State) : Host.Outcome State Fault Refusal :=
  match s.xfer x with
  | none => s.out
  | some y =>
    if y.pos ≠ .arrived ∨ !y.ring then s.out
    else match (y.lanes.head?).bind (·.place) with
      | some (.sp k) =>
        if s.ringPending k then s.out
        else (s.arriveAt y fun s =>
          (s.pass (.op x) (State.ringHolder k) []).ringDeliver y.cluster k y.tc y.posted ((y.lanes.head?.map (·.data)).getD [])).out
      | _ => (s.arriveAt y fun s => (s, 2)).out

namespace State

/-- The port through which a request of this module left, and the symbols with which its reply comes back from there: the opposite hops of
its first segment in reverse order, and eject (R318, R319). -/
def returnFrom (x : Xfer) : Nat × List Nat :=
  let l := routeSyms x.route
  let hops := l.takeWhile fun d => decide (d ≤ 4)
  let esc := l.drop hops.length
  (escNum (esc.getD 1 0) (esc.getD 2 0), hops.reverse.map dirOpp ++ [0])

/-- The reply of a request that left the module comes in through its port, with a status and data that are free: into the port's drain slot
or the external input of the reply router, once there is room; one that fails the ingress check is discarded (R321, R331, R426).
DESIGN CHOICE: log entry 52. -/
def replyIn (s : State) (y : Xfer) : State :=
  let (p, syms) := returnFrom y
  let c := (Config.portCluster p).toNat
  let codes : List (BitVec 8) := (if y.ring then [0, 1, 2, 3] else [0, 2, 3]) ++ if (routeEscs (routeSyms y.route)).contains 7 then [4] else []
  let st := codes.getD (Config.freeNat s.draw (2 ^ 90) % codes.length) 0
  let data := if y.write then [] else y.lanes.map fun l => (l.lane, (List.range y.width).map fun j =>
    BitVec.ofNat 8 (Config.freeNat s.draw (2 ^ 91 + 16 * l.lane + j)))
  let k := portKey p true y.tc
  let back := fun (s : State) => s.modXfer y.id fun z => { z with pos := .returning, status := st, data := data }
  let pkt : Pkt := ⟨y.id, true, syms.map (BitVec.ofNat 4), [], y.tc, y.repFlits, s.cycle, s.cycle, false⟩
  if s.portDown p || !s.restOk c 0 syms then s.modXfer y.id fun z => { z with pos := .lost }
  else if (mget none s.portDrain k).isNone && s.flip (2 ^ 92) then back { s with portDrain := mset none s.portDrain k (some pkt) }
  else if y.repFlits ≤ s.freeFlits true c 5 y.tc then (back s).pushPkt (inKey true c 5 y.tc) pkt
  else s

end State

/-- `REPLY_ARRIVAL`: a reply has ejected at its source, and the transfer ends with its status; or one from outside the module has come to
its port (R331, R333). A reply after its time-out is discarded. -/
def execReplyArrival (x : Nat) (s : State) : Host.Outcome State Fault Refusal :=
  match s.xfer x with
  | none => s.out
  | some y =>
    match y.pos with
    | .back =>
      let s := s.endXfer x y.status false
      (State.injectHeld s.xfers s).out
    | .away => (s.replyIn y).out
    | _ => s.out

/-- `EXCHANGE_TIMEOUT`: no reply within 2^24 cycles; status 3 (R331). -/
def execExchangeTimeout (x : Nat) (s : State) : Host.Outcome State Fault Refusal :=
  match s.xfer x with
  | none => s.out
  | some y =>
    if y.foreign || y.late || decide (s.cycle < y.since + 2 ^ 24) || y.pos == .held then s.out
    else
      let s := s.endXfer x 3 true
      (State.injectHeld s.xfers s).out

/-! ## Ingress (R319, R321, R427) -/

namespace State

/-- The entry of the fabric context table for a packet, and its region control block (R427). -/
def fabEntry (s : State) (p : Arriving) : Nat := s.rd (s.sys.fabTab.toNat + 16 * p.fabctx.toNat) 16
def fabRcb (s : State) (p : Arriving) : Nat := bits (s.fabEntry p) 63 16

/-- The place that an address from outside names in the region of a fabric context, when it passes the checks of R330 and R427; the port
accesses memory in its own block's world (R349). -/
def foreignPlace (s : State) (e : Nat) (p : Arriving) (addr : W64) : State × Option CopyPlace :=
  let d := s.fabEntry p
  let rcb := s.fabRcb p
  let a := addr.toNat
  let permitted := bitAt d 0 && (match p.kind.toNat with | 0 => bitAt d 1 | 1 => bitAt d 2 | 2 => bitAt d 3 | _ => false)
  if !permitted || !([1, 2, 4, 8, 16].contains p.width) then (s, none)
  else if p.kind = 1#3 then
    match s.regionRes rcb with
    | none => (s, none)
    | some r =>
      if a % p.width ≠ 0 ∨ 2 ^ 48 ≤ a then (s, none)
      else match s.translate (17 * e + 16) r
          ((if p.write then Need.store else Need.load).by (portBlock p.port.toNat)) a with
        | (s, .fault _ _) => (s, none)
        | (s, .ok q) =>
          let home := match owner (q.at 0) with
            | some c => c
            | none => Config.hostCluster.toNat
          (s, if home = e then some (.mem q) else none)
  else if !(s.regionClusters (BitVec.ofNat 48 rcb)).contains e || bits a 28 25 != e then (s, none)
  else match farPlace s (if p.kind = 2#3 then 32 else p.width) addr with
    | .inl q => (s, some q)
    | .inr _ => (s, none)

/-- The places of all the lanes of a packet from outside, or none when one fails its check (R333, R427). -/
def foreignPlaces (e : Nat) (p : Arriving) : List (W64 × List Byte) → State → State × Option (List CopyPlace)
  | [], s => (s, some [])
  | l :: ls, s => match s.foreignPlace e p l.1 with
    | (s, none) => (s, none)
    | (s, some q) => match foreignPlaces e p ls s with
      | (s, some qs) => (s, some (q :: qs))
      | (s, none) => (s, none)

/-- Whether the data of a packet from outside is as long as what it writes: an access of its width, a ring message of whole slots. -/
def foreignFits (p : Arriving) : Bool :=
  !p.lanes.isEmpty && p.lanes.all fun l =>
    if p.kind = 2#3 then l.2.length % 64 == 0 && decide (0 < l.2.length) && decide (l.2.length ≤ 512)
    else !p.write || l.2.length == p.width

/-- A transfer that came from outside the module; one that crossed Ethernet on its way has no return route (R319, R331).
DEDUCED: log entry 54. -/
def foreignXfer (s : State) (id : Nat) (p : Arriving) (places : List CopyPlace) (back : List (BitVec 4)) (c : Nat) (status : BitVec 8) :
    Xfer :=
  { id := id, op := 0, group := 0, lanes := p.lanes.zipIdx.map fun l => ⟨l.2, l.1.1, places[l.2]?, l.1.2⟩, pmask := 0
    write := p.write || p.kind == 2#3, ring := p.kind == 2#3, width := p.width, ty := .n64, dst := none, kind := p.kind, tc := p.tc
    route := 0, posted := decide (24 ≤ p.port.toNat) || p.crossed, pos := if status = 0#8 then .going else .arrived, since := 0
    status := status, data := [], cluster := c, back := back, foreign := true, late := false, rcb := BitVec.ofNat 48 (s.fabRcb p)
    rel := none, acq := none }

end State

/-- `INGRESS_CHECK`: a packet enters through a port; its remaining route is checked against live state, and its address against the
region of its fabric context. A bad route gives a reply of status 3, a bad address one of status 2, which leaves when the reply router has
room; across Ethernet there is no reply. A packet for which the external input has no room waits in its port (R319, R321, R422, R427).
DEDUCED: log entry 54. -/
def execIngressCheck (p : Arriving) (s : State) : Host.Outcome State Fault Refusal :=
  let port := p.port.toNat
  if 28 ≤ port || s.portDown port then s.out
  else
    let c := (Config.portCluster port).toNat
    let syms := p.symbols.map (·.toNat)
    let back := if port < 24 then 5#4 :: BitVec.ofNat 4 (port % 16) :: BitVec.ofNat 4 (port / 16) :: p.back else []
    let (s, id) := s.fresh
    let refuse := fun (s : State) (st : BitVec 8) =>
      let x := s.foreignXfer id p [] back c st
      let s := { s with xfers := s.xfers ++ [x] }
      match s.sendReply x with
      | some s => s.out
      | none => s.out
    let enter := fun (s : State) (places : List CopyPlace) (e : Nat) =>
      let x := s.foreignXfer id p places back e 0
      let pkt : Pkt := ⟨id, false, p.symbols, back, p.tc, x.reqFlits, s.cycle, s.cycle, false⟩
      let k := State.portKey port false p.tc
      let t := { s with xfers := s.xfers ++ [x] }
      if port < 24 ∧ (mget none s.portDrain k).isNone ∧ s.flip (2 ^ 92) then
        State.out { t with portDrain := mset none s.portDrain k (some pkt) }
      else if x.reqFlits ≤ s.freeFlits false c 5 p.tc then (t.pushPkt (inKey false c 5 p.tc) pkt).out
      else State.out { s with inputs := s.inputs ++ [(s.cycle + 1, .ingressCheck p)] }
    if 4 ≤ p.kind.toNat || decide (24 < syms.length) || !s.restOk c p.kind.toNat syms then refuse s 3
    else if !(routeEscs syms).isEmpty then enter s [] c
    else
      let e := routeEnd c syms.dropLast
      match State.foreignPlaces e p p.lanes s with
      | (s, some qs) => if State.foreignFits p then enter s qs e else refuse s 2
      | (s, none) => refuse s 2

/-! ## Ethernet (R428, R429) -/

/-- A big-endian 16-bit field of a frame. -/
def be16 (f : List Byte) (i : Nat) : Nat := 256 * (f.getD i 0).toNat + (f.getD (i + 1) 0).toNat

/-- Where the EtherType of a frame stands: after an 802.1Q tag when it has one. -/
def etherAt (f : List Byte) : Nat := if be16 f 12 = 0x8100 then 16 else 12

/-- The UDP destination port of an IPv4 or IPv6 frame. -/
def udpPort (f : List Byte) : Option Nat :=
  let e := etherAt f
  let h := e + 2
  if be16 f e = 0x0800 ∧ f.getD (h + 9) 0 = 17#8 then some (be16 f (h + 4 * ((f.getD h 0).toNat % 16) + 2))
  else if be16 f e = 0x86DD ∧ f.getD (h + 6) 0 = 17#8 then some (be16 f (h + 42))
  else none

/-- The first valid rule of the classifier that matches a frame (R428). DEDUCED: log entry 53. -/
def State.classify (s : State) (port : Nat) (f : List Byte) : Option Nat :=
  ((List.range 256).map fun i => s.rd (s.sys.classTab.toNat + 16 * i) 16).find? fun r =>
    bitAt r 0 && bitAt r (64 + port) && bits r 47 32 == be16 f (etherAt f) &&
      (bits r 63 48 == 0 || udpPort f == some (bits r 63 48))

/-- The message of a frame: its length and port, its bytes, and free bytes up to whole slots (R429). DEDUCED: log entry 53. -/
def frameMsg (draw port : Nat) (f : List Byte) : List Byte :=
  let n := (f.length + 8 + 63) / 64
  leBytes (f.length % 2 ^ 14 + 2 ^ 16 * port) 8 ++ f ++
    (List.range (64 * n - (f.length + 8))).map fun i => BitVec.ofNat 8 (Config.freeNat draw (2 ^ 93 + i))

/-- Write a frame's message into a ring: one too long for the ring, or for its room, is dropped and counted (R429). -/
def State.frameDeliver (s : State) (ring : Nat) (msg : List Byte) : State :=
  match s.ringKey ring with
  | none => s
  | some k =>
    let (_, _, _, slots) := s.ringAt k
    let c := bits ring 28 25
    if s.ringGood c k && decide (slots < msg.length / 64) then s.ringDrop c k
    else (s.ringDeliver c k .lat true msg).1

/-- Whether a packet of the class `.bulk` stands on the links from a cluster along a path, where it may delay a frame (R429).
DEDUCED: log entry 53. -/
def State.bulkOn (s : State) : List Nat → Nat → Bool
  | [], _ => false
  | d :: l, c =>
    ((List.range 7).any fun i => (s.queueAt (inKey false c i .bulk)).any fun p => p.out == d) || State.bulkOn s l ((meshStep c d).getD c)

/-- A frame on the fixed-latency path in a new cycle: once it is the first of its ring, its slots land at a free moment when the ring has
room; on the port's own cluster at once (R335, R429). DEDUCED: log entry 53. -/
def State.landFrame (s : State) (f : FixFrame) : State :=
  let c := bits f.ring 28 25
  let own := (Config.portCluster (24 + f.port)).toNat
  let bulk := f.bulk || s.bulkOn (xyPath own c) own
  let first := (s.frames.find? fun g => g.ring == f.ring).any fun g => g.id == f.id
  let put := fun (s : State) (g : FixFrame) => { s with frames := s.frames.map fun h => if h.id == f.id then g else h }
  match s.ringKey f.ring with
  | none => put s { f with bulk := bulk }
  | some k =>
    if !f.landed && first && s.ringGood c k && !s.ringFull k (f.msg.length / 64) .lat && (own == c || s.flip (2 ^ 94 + f.id)) then
      put (s.ringFill c k f.msg) { f with bulk := bulk, landed := true }
    else put s { f with bulk := bulk }

/-- `ETHERNET_FRAME_RECEIVE`: a good frame goes to the ring of the first rule that matches it, at once or on the fixed-latency path; a
frame of EtherType 0x88B5 carries an exchange packet, which enters as `INGRESS_CHECK` (R428, R429). -/
def execEthernetFrameReceive (port : BitVec 2) (frame : List Byte) (fcsGood : Bool) (s : State) : Host.Outcome State Fault Refusal :=
  let p := port.toNat
  let n := frame.length + 4
  if !fcsGood || decide (n < 64) || decide (9216 < n) || s.portDown (24 + p) || be16 frame (etherAt frame) == 0x88B5 then s.out
  else match s.classify p frame with
    | none => s.out
    | some r =>
      let ring := bits r 97 68
      let c := bits ring 28 25
      let msg := frameMsg s.draw p frame
      if bitAt r 1 ∧ (s.cl c).region.isSome ∧ (s.cl c).res.resident then
        let (s, id) := s.fresh
        State.out { s with frames := s.frames ++ [⟨id, s.cycle + 2160, p, ring, false, false, msg⟩] }
      else if (s.ringKey ring).any s.ringPending then
        State.out { s with inputs := s.inputs ++ [(s.cycle + 1, .ethernetFrameReceive port frame fcsGood)] }
      else (s.frameDeliver ring msg).out

/-- `FIXED_LATENCY_RELEASE`: 2,160 cycles after its last byte a frame's TAIL is released, or the frame is dropped and counted when its
slots have not all landed, which only `.bulk` traffic or a full ring can cause (R429); frames of one ring keep their order. -/
def execFixedLatencyRelease (x : Nat) (s : State) : Host.Outcome State Fault Refusal :=
  match (s.frames.find? fun f => f.id == x).bind fun f => s.frames.find? fun g => g.ring == f.ring with
  | none => s.out
  | some f =>
    if s.cycle < f.due then s.out
    else
      let s := { s with frames := s.frames.filter fun g => g.id != f.id }
      let c := bits f.ring 28 25
      (match s.ringKey f.ring with
        | none => s
        | some k =>
          if f.landed then s.ringCommit c k (f.msg.length / 64)
          else if f.bulk then s.ringDrop c k
          else s.frameDeliver f.ring f.msg).out

end Sys2Proof.Machine
end

