-- ==== Sys2Proof/Machine/Slices.lean ====
section
/-!
DEFINITION. The memory slices' own steps: unit kinds (R409), rehashing (R413, R414), row sparing (R418), refresh (R417), scrubbing (R419),
their registers (R421), and the management cores' register writes (R346, R382, R421, R428).
-/
namespace Sys2Proof.Machine

/-- The physical address of a unit of a share (R408). -/
def unitAddr (c u : Nat) : Nat := c * 0x0C00000000 + u * 0x200000

namespace State

/-- Whether a management core may change a unit: a non-secure core may not when its granules are secure or locked (R421). -/
def unitOpen (s : State) (mc : BitVec 2) (c u : Nat) : Bool := s.coreSecure mc || s.granule (unitAddr c u) == 0

end State

/-- Whether a unit of a share is in service: with a pseudo-channel retired, the upper half of them is not (R438). -/
def Slice.inService (x : Slice) (u : Nat) : Bool := decide (u < if x.gone.any (·.2) then 12288 else 24576)

/-- `UKIND`: the unit takes its kind, and its bytes are zeroed (R409, R421). -/
def execUkind (mc : BitVec 2) (cl : BitVec 4) (w : W64) (s : State) : Host.Outcome State Fault Refusal :=
  let c := cl.toNat
  let u := bits w.toNat 14 0
  if !(s.slice c).inService u || !s.unitOpen mc c u then s.out
  else
    let a := unitAddr c u
    let x := s.slice c
    let s := s.setSlice c { x with ukind := mset 0 x.ukind u (w.extractLsb' 16 2) }
    let mine := fun (r : WriteRec) => r.space == .mem && decide (a ≤ r.addr) && decide (r.addr < a + 0x200000)
    State.out { s with mem := mclear s.mem a (a + 0x200000), writes := s.writes.filter fun r => !mine r }

/-! ## Registers (R421) -/

/-- A write of the fields of a slice register that keep their new value (R421). -/
def Slice.put (x : Slice) (off : Nat) (w : W64) : Slice :=
  match off with
  | 0x08 => { x with thresh := w.extractLsb' 16 16, auto := w.getLsbD 7 }
  | 0x20 => { x with
      spIdx := w.extractLsb' 28 4, spPc := w.extractLsb' 20 6, spBank := w.extractLsb' 16 4, spRow := w.extractLsb' 0 16 }
  | 0x28 => { x with scrubEn := w.getLsbD 32, scrubPeriod := w.truncate 32 }
  | _ => x

/-- A slice register as a management core reads it (R421). -/
def Slice.read (x : Slice) (off : Nat) : W64 :=
  match off with
  | 0x08 => BitVec.ofNat 64 (x.thresh.toNat * 2 ^ 16 + (if x.auto then 2 ^ 7 else 0) + (if x.busy then 2 ^ 6 else 0) + x.next.toNat * 2 ^ 3 +
      x.ver.toNat)
  | 0x10 => BitVec.ofNat 64 (x.wm % 2 ^ 15)
  | 0x18 => BitVec.ofNat 64 (x.conflBank.toNat * 2 ^ 16 + x.conflCount.toNat)
  | 0x20 => BitVec.ofNat 64 (x.spDone.toNat * 2 ^ 35 + x.spState.toNat * 2 ^ 33 + x.spIdx.toNat * 2 ^ 28 + x.spPc.toNat * 2 ^ 20 +
      x.spBank.toNat * 2 ^ 16 + x.spRow.toNat)
  | 0x28 => BitVec.ofNat 64 ((if x.scrubEn then 2 ^ 32 else 0) + x.scrubPeriod.toNat)
  | _ => 0

/-! ## Rehashing (R413, R414) -/

/-- A slice that starts a rehash to a version; one that runs goes on (R413). -/
def Slice.rehash (x : Slice) (v : BitVec 3) : Slice := if x.busy then x else { x with busy := true, next := v, wm := 0 }

/-- `HASH_REQ`: a write of the HASH register; its REQ bit requests a version (R413, R421). -/
def execHashReq (_mc : BitVec 2) (cl : BitVec 4) (w : W64) (s : State) : Host.Outcome State Fault Refusal :=
  let c := cl.toNat
  let x := (s.slice c).put 0x08 w
  (s.setSlice c (if w.getLsbD 11 then x.rehash (w.extractLsb' 8 3) else x)).out

/-- Whether a bank's conflicts of this window have reached the threshold (R413). -/
def Slice.hot (x : Slice) : Bool := x.auto && !x.busy && x.counts.any fun k => decide (x.thresh.toNat ≤ k.2)

/-- `REHASH_THRESHOLD` (R413). -/
def execRehashThreshold (cl : BitVec 4) (s : State) : Host.Outcome State Fault Refusal :=
  let x := s.slice cl.toNat
  (if x.hot then s.setSlice cl.toNat (x.rehash (x.ver + 1)) else s).out

/-- `REHASH_UNIT_MOVE`: the next unit is decoded under the new version; tensor units are passed over (R414). -/
def execRehashUnitMove (cl : BitVec 4) (s : State) : Host.Outcome State Fault Refusal :=
  let x := s.slice cl.toNat
  (if !x.busy then s
  else if x.wm + 1 < 24576 then s.setSlice cl.toNat { x with wm := x.wm + 1 }
  else s.setSlice cl.toNat { x with wm := 24576, ver := x.next, busy := false }).out

/-- `CONFLICT_WINDOW`: a window of 2^20 cycles ends; a count at the threshold has started its rehash, the bank with the highest count is
kept, and the counts start again (R413, R421).
DEDUCED: log entry 32. -/
def execConflictWindow (cl : BitVec 4) (s : State) : Host.Outcome State Fault Refusal :=
  let x := s.slice cl.toNat
  if s.cycle / 2 ^ 20 = x.window then s.out
  else
    let x := if x.hot then x.rehash (x.ver + 1) else x
    let top := x.counts.foldl (fun (m : Nat × Nat) k => if m.2 < k.2 then k else m) (0, 0)
    (s.setSlice cl.toNat { x with
      window := s.cycle / 2 ^ 20, counts := [], conflBank := BitVec.ofNat 10 top.1
      conflCount := BitVec.ofNat 16 (min top.2 65535) }).out

/-! ## Row sparing (R418) -/

/-- The key of a spare row. -/
def Slice.spareKey (x : Slice) : Nat := 16 * (16 * x.spPc.toNat + x.spBank.toNat) + x.spIdx.toNat

/-- `SPARE_GO`: a write of the SPARE register; GO starts the copy it names, unless one runs or a non-secure core names a unit that is not its
own; a spare in use ends it (R418, R421). DEDUCED: log entry 67. -/
def execSpareGo (mc : BitVec 2) (cl : BitVec 4) (w : W64) (s : State) : Host.Outcome State Fault Refusal :=
  let c := cl.toNat
  let x := s.slice c
  let row := bits w.toNat 15 0
  let y := x.put 0x20 w
  if !s.unitOpen mc c (row / 2) then s.out
  else (s.setSlice c (if !w.getLsbD 32 || x.spState = 1#2 || decide (49152 ≤ row) then y
    else if mget 0 y.spares y.spareKey ≠ 0 then { y with spState := 3, spDone := 0 }
    else { y with spState := 1, spDone := 0, spJob := (y.spareKey, row) })).out

/-- Whether a stored error lies in the column that a slice copies next. -/
def State.columnBad (s : State) (c : Nat) (x : Slice) : Bool :=
  s.latent.any fun l => l.code == 7 && stackOwner (32 * l.place) == some c &&
    (let y := x.decode (32 * l.place % 0x0C00000000)
     y.pc == x.spJob.1 / 256 && y.bank == x.spJob.1 / 16 % 16 && y.row == x.spJob.2 && y.column == x.spDone.toNat)

/-- `SPARE_REMAP`: the next column is copied; after the last one the row is remapped, unless a stored error ends the copy (R418).
DEDUCED: log entry 67. -/
def execSpareRemap (cl : BitVec 4) (s : State) : Host.Outcome State Fault Refusal :=
  let c := cl.toNat
  let x := s.slice c
  (if x.spState ≠ 1#2 then s
  else if s.columnBad c x then s.setSlice c { x with spState := 3 }
  else if x.spDone ≠ 31#5 then s.setSlice c { x with spDone := x.spDone + 1 }
  else s.setSlice c { x with spState := 2, spares := mset 0 x.spares x.spJob.1 (x.spJob.2 + 1) }).out

/-! ## Refresh and scrubbing (R417, R419, R420) -/

/-- The refreshes that a bank owes (R417). DEDUCED: log entry 68. -/
def State.refreshOwed (s : State) (x : Slice) (bank : Nat) : Nat := s.cycle / 14040 - mget 0 x.paid bank

/-- `REFRESH`: a bank pays one of the refreshes that it owes; more than 8 are never owed, so arrears beyond are paid at once (R417).
DEDUCED: log entry 68. -/
def execRefresh (cl : BitVec 4) (pc : BitVec 6) (bank : BitVec 4) (s : State) : Host.Outcome State Fault Refusal :=
  let x := s.slice cl.toNat
  let k := 16 * pc.toNat + bank.toNat
  let owed := s.refreshOwed x k
  (if owed = 0 then s
  else s.setSlice cl.toNat { x with paid := mset 0 x.paid k (s.cycle / 14040 - min (owed - 1) 7) }).out

/-- The physical address of a burst of a share. -/
def burstAddr (c : Nat) (tier : Bool) (b : Nat) : Nat := if tier then 0x10000000000 + c * 0x1800000000 + 32 * b else c * 0x0C00000000 + 32 * b

/-- The scrub period that runs, plus one (R419, R421). A period of 0 never begins a new one. -/
def State.scrubNow (s : State) (x : Slice) : Nat := s.cycle / (2 ^ 20 * x.scrubPeriod.toNat) + 1

/-- `SCRUB`: one burst is read, once per period; an uncorrectable burst, or one corrected in two consecutive periods, posts a scrub-error
event (R384, R419). -/
def execScrub (cl : BitVec 4) (secondTier : Bool) (burst : Nat) (found : ScrubFind) (s : State) : Host.Outcome State Fault Refusal :=
  let c := cl.toNat
  let x := s.slice c
  let pa := burstAddr c secondTier burst
  let code := if secondTier then 8 else 7
  let k := 2 * burst + (if secondTier then 1 else 0)
  let event := fun (s : State) => s.post (decide (s.granule pa ≠ 0)) (evRecord s.cycle 18 c 0 0 0xFFFF 0 code pa 0 0 0)
  let lat : Latent := ⟨BitVec.ofNat 8 code, pa / 32⟩
  let n := s.scrubNow x
  let done := fun (s : State) => s.setSlice c { x with scrubbed := mset 0 x.scrubbed k n }
  if !x.scrubEn || mget 0 x.scrubbed k == n || owner pa != some c || (!secondTier && (stackOwner pa).isNone) then s.out
  else match found with
    | .clean => if s.latent.contains lat then s.out else (done s).out
    | .corrected =>
      if s.latent.contains lat then s.out
      else
        let twice := mget 0 x.corrected k + 1 == n
        let s := (done s).setSlice c { (done s).slice c with corrected := mset 0 x.corrected k n }
        (if twice then event s else s).out
    | .uncorrectable => (event { done s with latent := if s.latent.contains lat then s.latent else s.latent ++ [lat] }).out

/-! ## The management cores' register writes (R346, R421, R427, R428) -/

/-- `SYSTEM_REGISTER_WRITE`: a management core writes a system register at 0x4000_0000 + 8 × its number, a slice register with all its
effects (R421), or the base of the classifier or of the fabric context table (R427, R428). -/
def execSystemRegisterWrite (mc : BitVec 2) (a : BitVec 32) (w : W64) (s : State) : Host.Outcome State Fault Refusal :=
  let x := a.toNat
  if 0x40000000 ≤ x ∧ x < 0x40008000 ∧ x % 8 = 0 then
    let n := (x - 0x40000000) / 8
    if n = 0x011 then execWtsync mc w s else (s.sysWrite (s.coreSecure mc) n w).out
  else if 0x50000000 ≤ x ∧ x < 0x50010000 then
    let c := (x - 0x50000000) / 0x1000
    match x % 0x1000 with
    | 0x00 => execUkind mc (BitVec.ofNat 4 c) w s
    | 0x08 => execHashReq mc (BitVec.ofNat 4 c) w s
    | 0x20 => execSpareGo mc (BitVec.ofNat 4 c) w s
    | off => (s.setSlice c ((s.slice c).put off w)).out
  else if x = 0x58002000 then State.out { s with sys := { s.sys with classTab := w } }
  else if x = 0x58002008 then State.out { s with sys := { s.sys with fabTab := w } }
  else s.out

end Sys2Proof.Machine
end

