-- ==== Sys2Proof/Machine/Boot.lean ====
section
/-!
DEFINITION. Issue opportunities (R22), advances of queue heads and the time-outs of graph-node queues (R253, R361, R364, R382, R401), retiring
units (R437, R438), boot and attestation (R432–R434), and the thermal trip (R440).
-/
namespace Sys2Proof.Machine

/-! ## Issue (R22) -/

/-- `ISSUE_OPPORTUNITY`: a core without a clause in issue selects, and the words that its clauses may issue in this cycle take their
turns (R22). -/
def execIssueOpportunity (core : Nat) (s : State) : Host.Outcome State Fault Refusal :=
  if (s.cl (coreCluster core)).stopped then s.out
  else
    let s := if (s.core core).sels.isEmpty then s.opportunity core else s
    State.out { s with turns := s.turns ++ s.issueTurns core }

/-! ## Queues (R253, R361, R364, R382, R401) -/

/-- Whether a launch record's reserved fields are zero (R364). -/
def launchClean (r : Nat) : Bool :=
  bits r 511 384 == 0 && bits r 351 324 == 0 && bits r 255 240 == 0 && bits r 191 176 == 0 && bits r 127 112 == 0 && bits r 63 48 == 0

namespace State

/-- A word of a region as the firmware reads it through the region's translation, on the first cluster where it runs. -/
def nodeWord (s : State) (rcb : BitVec 48) (va n : Nat) : Option Nat :=
  match (List.range 16).find? fun c => (s.cl c).region == some rcb with
  | none => none
  | some c => match s.translate (17 * c + 16) (s.cl c).res Need.load va with
    | (s, .ok p) => some (s.readPhys (200000 + c) p n)
    | _ => none

/-- Whether the firmware launches nothing for a record that it dequeues, because a reserved field is not zero or the workgroup count is above
2^24; it reads the count only after the completion word holds DONEV (R364). PRESUMED: log entry 84. -/
def launchBad (s : State) (rcb : BitVec 48) (r : W512) : Bool :=
  let x := r.toNat
  let done := bits x 239 192
  !launchClean x ||
    ((done == 0 || s.nodeWord rcb done 8 == some (bits x 319 256)) && (s.nodeWord rcb (bits x 175 128) 4).any fun n => decide (2 ^ 24 < n))

/-- The fault domain of a region, also of one that no longer runs. -/
def nodeFdom (s : State) (rcb : BitVec 48) : Nat :=
  match (List.range 16).find? fun c => (s.cl c).region == some rcb with
  | some c => (s.cl c).res.fdom.toNat
  | none => ((s.resolve rcb.toNat).map (·.fdom.toNat)).getD 0

/-- The launch records that a new HEAD dequeues, from the slot of the old one on: each one that fails its checks posts a launch error with its
slot (R364, R384). PRESUMED: log entry 84. -/
def launchTake : (n head : Nat) → List (BitVec 48 × W512) → State → State
  | 0, _, l, s => { s with launches := l }
  | _, _, [], s => { s with launches := [] }
  | n + 1, head, (rcb, r) :: l, s =>
    let d := s.rd s.sys.launchq.toNat 64
    let slot := bits d 47 0 + 64 * (head % 2 ^ bits d 68 64)
    launchTake n (head + 1) l (if s.launchBad rcb r then
      s.post false (evRecord s.cycle 19 0 0 0 (s.nodeFdom rcb) rcb.toNat 0 slot 0 0 0) else s)

/-- The place of a graph-node queue's descriptor of the region on a cluster, through the region's translation (R361). -/
def queuePlace (s : State) (c : Nat) (q : Nat) : State × Option Phys :=
  let x := (s.cl c).res
  if (s.cl c).region.isNone || decide (x.gqcount.toNat ≤ q) then (s, none)
  else match s.translate (17 * c + 16) x Need.load (x.gqbase.toNat + 64 * q) with
    | (s, .ok p) => (s, some p)
    | (s, .fault _ _) => (s, none)

end State

/-- `QUEUE_HEAD_ADVANCE`: HEAD takes its new value, and what waited for room goes on: events (R382), energy records with the slots they
hold (R401), launch records (R364), and paths that sleep in `EMIT` (R253). A graph queue's HEAD lies in the region's memory: where its
translation faults, the write is made again (R372). DEDUCED: log entry 72. -/
def execQueueHeadAdvance (h : HeadOf) (head : BitVec 32) (s : State) : Host.Outcome State Fault Refusal :=
  match h with
  | .eventQueue secure =>
    let desc := (if secure then s.sys.evqs else s.sys.evqn).toNat
    let s := (s.reach desc 64).wr (desc + 16) 4 head.toNat
    (s.evDrain secure s.evWait []).out
  | .accounting base =>
    let base := base.toNat
    let s := (s.reach base 64).wr base 4 head.toNat
    (State.acctDrain base s.acctWait [] s).out
  | .launchQueue =>
    let desc := s.sys.launchq.toNat
    let old := s.rd (desc + 16) 4
    let s := State.launchTake ((head.toNat + 2 ^ 32 - old) % 2 ^ 32) old s.launches s
    (((s.reach desc 64).wr (desc + 16) 4 head.toNat).launchDrain s.launches.length).out
  | .graphQueue cluster q =>
    match s.queuePlace cluster.toNat q.toNat with
    | (s, some p) =>
      let s := s.writePhys (200000 + cluster.toNat) (p.add 12) (leBytes head.toNat 4)
      (State.emitDrain s.sleepers s).out
    | (s, none) =>
      let x := s.cl cluster.toNat
      if x.region.isNone || decide (x.res.gqcount.toNat ≤ q.toNat) then s.out
      else State.out { s with inputs := s.inputs ++ [(s.cycle + 1, .queueHeadAdvance h head)] }

/-- `GRAPH_QUEUE_TIMEOUT`: the timer of a queue expires and posts a queue event with the queue's fill (R361).
DEDUCED: log entry 72. -/
def execGraphQueueTimeout (cl : BitVec 4) (q : BitVec 16) (s : State) : Host.Outcome State Fault Refusal :=
  let c := cl.toNat
  let x := s.cl c
  let at_ := mget 0 x.qtimers q.toNat
  if at_ = 0 ∨ s.cycle < at_ then s.out
  else
    let s := s.setCl c { x with qtimers := mset 0 x.qtimers q.toNat 0 }
    match s.queuePlace c q.toNat with
    | (s, some p) =>
      let d := s.readPhys (200000 + c) p 64
      (s.postCl false 14 c q.toNat ((bits d 95 64 + 2 ^ 32 - bits d 127 96) % 2 ^ 32) 0 0 0).out
    | (s, none) => s.out

/-! ## Retiring units (R437, R438) -/

/-- The unit that a write of the retirement register names, when it retires one of a kind. DEDUCED: log entry 69. -/
def retireUnit (kind : Nat) (w : W64) : Option Nat :=
  if w.getLsbD 31 && bits w.toNat 30 27 == kind then some (bits w.toNat 26 12) else none

/-- The cluster that a write of the retirement register names. -/
def retireClus (w : W64) : Nat := bits w.toNat 3 0

namespace State

/-- A retirement sets bits 0 and 1 of `STATUS` (R437); the unit is one of those that a quote names (R434). -/
def degraded (s : State) (kind unit clus : Nat) : State :=
  { s with
    retired := mset false s.retired (2 ^ 19 * kind + 16 * unit + clus) true
    sys := { s.sys with status := s.sys.status ||| 0b00011#5 } }

/-- Core retirements that waited take effect once no group is bound to the core (R438). -/
def retireHeld (s : State) : State :=
  let free := s.coresHeld.filter fun k => !s.groups.any fun x => groupCore x.1 == k && x.2.bound
  { s with
    coresHeld := s.coresHeld.filter fun k => !free.contains k
    coresGone := free.foldl (fun m k => mset false m k true) s.coresGone }

end State

/-- `RETIRE_COURSE`: operations that are queued fail with the cause "checksum" (R438). -/
def execRetireCourse (w : W64) (s : State) : Host.Outcome State Fault Refusal :=
  match retireUnit 0 w with
  | none => s.out
  | some n =>
    if 8 ≤ n then s.out
    else
      let k := 8 * retireClus w + n
      let s := (s.degraded 0 n (retireClus w)).setCourse k { s.course k with retired := true }
      ((s.course k).ops.foldl (fun s _ => s.harpFail k 0 0 1) s).out

/-- `RETIRE_CORE`: it takes effect once no group is bound to the core (R438). -/
def execRetireCore (w : W64) (s : State) : Host.Outcome State Fault Refusal :=
  match retireUnit 1 w with
  | none => s.out
  | some n =>
    if 16 ≤ n then s.out
    else
      let k := 17 * retireClus w + n
      (State.retireHeld { s.degraded 1 n (retireClus w) with
        coresHeld := if s.coresHeld.contains k || mget false s.coresGone k then s.coresHeld else s.coresHeld ++ [k] }).out

/-- `RETIRE_PSEUDO_CHANNEL`: its rows are copied beyond those of its partner, where every later command goes; the upper half of the share's
units leaves service with what it holds (R438). DEDUCED: log entry 69. -/
def execRetirePseudoChannel (w : W64) (s : State) : Host.Outcome State Fault Refusal :=
  match retireUnit 2 w with
  | none => s.out
  | some n =>
    if 64 ≤ n then s.out
    else
      let c := retireClus w
      let lo := unitAddr c 12288
      let hi := unitAddr c 24576
      let s := (s.degraded 2 n c).setSlice c { s.slice c with gone := mset false (s.slice c).gone n true }
      State.out { s with
        mem := mclear s.mem lo hi
        writes := s.writes.filter fun r => !(r.space == .mem && decide (lo ≤ r.addr) && decide (r.addr < hi)) }

/-- `RETIRE_LINK`: the link is marked down (R424, R438). -/
def execRetireLink (w : W64) (s : State) : Host.Outcome State Fault Refusal :=
  match retireUnit 3 w with
  | none => s.out
  | some d => if d = 0 ∨ 5 ≤ d then s.out else ((s.degraded 3 d (retireClus w)).markLink (retireClus w) d).out

/-- `RETIRE_PORT`: the port is marked down (R424, R438). -/
def execRetirePort (w : W64) (s : State) : Host.Outcome State Fault Refusal :=
  match retireUnit 4 w with
  | none => s.out
  | some p => if 28 ≤ p then s.out else ((s.degraded 4 p 0).markPort p).out

/-- `RETIRE_CLUSTER`: its cores, bow, harp and engines leave service, and every eject at it fails with code 4 (R438). -/
def execRetireCluster (w : W64) (s : State) : Host.Outcome State Fault Refusal :=
  match retireUnit 5 w with
  | none => s.out
  | some _ =>
    let c := retireClus w
    ((s.degraded 5 0 c).setCl c { s.cl c with retired := true }).out

/-! ## Boot (R432, R433) -/

/-- The public key in the ROM (R433). -/
def romKey : List Byte := (List.range 64).map Config.romKey

/-- The body of an image, when its header is well formed and its signature over header and body verifies (R433). -/
def imageBody (f : List Byte) : Option (List Byte) :=
  let n := leVal ((f.drop 8).take 8)
  if leVal (f.take 4) = 0x4F4C4E49 ∧ f.length = 24 + n + 2820 ∧ xmssVerify romKey (f.take (24 + n)) (f.drop (24 + n)) then
    some ((f.drop 24).take n)
  else none

/-- The first image that verifies: those that the ports deliver, in turn, and then the mailbox's (R432). -/
def bootImage (ports : List (List Byte)) (mailbox : List Byte) : Option (List Byte × List Byte) :=
  ((ports.filter fun f => !f.isEmpty) ++ [mailbox]).findSome? fun f => (imageBody f).map fun b => (f, b)

namespace State

/-- The state that device reset leaves: memory and the machine's own bookkeeping remain (R432, R444). DEDUCED: log entry 70. -/
def rebooted (s : State) : State :=
  { State.reset with
    mem := s.mem, edited := s.edited, nextId := s.nextId, draw := s.draw, seq := s.seq, hole := s.hole, agenda := s.agenda
    inputs := s.inputs.map fun x => (x.1 - s.cycle, x.2)
    boot := ⟨s.boot.boots + 1, false, 0, 0, []⟩ }

/-- A slice register that the configuration loads: UKIND, or one that only takes a value (R421, R432). -/
def loadSlice (s : State) (r : Nat × Nat × W64) : State :=
  let c := r.1 % 16
  let x := s.slice c
  if r.2.1 = 0 then s.setSlice c { x with ukind := mset 0 x.ukind (bits r.2.2.toNat 14 0) (r.2.2.extractLsb' 16 2) }
  else s.setSlice c (x.put r.2.1 r.2.2)

/-- Load a verified image: registers, slice registers, the firmware's memory, the world table and `WTBASE`; then release (R432). -/
def loadImage (s : State) (image body : List Byte) : State :=
  let s := { s with mem := (Config.bootMemory body).foldl (fun (m : Memory) (e : Nat × Byte) => if physOk e.1 then Memory.setByte m e.1 e.2 else m) s.mem }
  let s := (Config.bootRegisters body).foldl (fun s r => s.sysWrite true r.1 r.2) s
  let s := (Config.bootSliceRegisters body).foldl loadSlice s
  let a := s.sys.wtbase.toNat
  let s := { s with mem := (Config.bootWorldTable body).foldl (fun (m : Memory) (e : Nat × Byte) =>
    if e.1 < 0x51000 ∧ physOk (a + e.1) then Memory.setByte m (a + e.1) e.2 else m) s.mem }
  { s with
    sys := { s.sys with status := s.sys.status ||| 0b00100#5 }
    boot := { s.boot with
      released := true, version := BitVec.ofNat 64 (leVal ((image.drop 16).take 8))
      imgHash := BitVec.ofNat 256 (leVal (shake256 (image.take (24 + body.length)))) } }

end State

/-- `DEVICE_RESET`: the ROM takes the first image that verifies, or leaves the device in reset with bit 3 of `STATUS` (R432, R433).
DEDUCED: log entry 70. -/
def execDeviceReset (ports : List (List Byte)) (mailbox : List Byte) (s : State) : Host.Outcome State Fault Refusal :=
  let s := s.rebooted
  (match bootImage ports mailbox with
  | some (image, body) => s.loadImage image body
  | none => { s with sys := { s.sys with status := s.sys.status ||| 0b01000#5 } }).out

/-! ## Attestation (R434) -/

namespace State

/-- The configuration in force, as bytes: the readable system registers, the slices' kinds and registers, and the world table.
DEDUCED: log entry 71. -/
def configBytes (s : State) : List Byte :=
  ((List.range 0x81).flatMap fun n => leBytes (if n = 0x40 then 0 else (s.sysRead true n).toNat) 8) ++
    (List.range 16).flatMap (fun c =>
      let x := s.slice c
      (x.ukind.flatMap fun u => leBytes u.1 2 ++ leBytes u.2.toNat 1) ++
        leBytes (x.thresh.toNat + (if x.auto then 2 ^ 16 else 0)) 3 ++
        leBytes (x.scrubPeriod.toNat + (if x.scrubEn then 2 ^ 32 else 0)) 5) ++
    (s.tableBytes.flatMap fun e => leBytes e.1 3 ++ [e.2])

/-- The region control blocks whose DEDIT is set, of those in which the device has set it, and of those that the bind table, the running
regions and the debug rights name (R434). DEDUCED: log entry 71. -/
def editedRcbs (s : State) : List Nat :=
  let all := (List.range 4112).map (fun i => recRcb (s.bindRec i)) ++ s.regions.map (fun r => r.rcb.toNat) ++
    s.attached.map (fun a => a.1.toNat) ++ s.edited.map (·.toNat)
  (all.filter fun a => a != 0 && bitAt (s.rd (a + 56) 1) 7).eraseDups

/-- The degraded state, as bytes: the retired units and the edited region control blocks (R434). DEDUCED: log entry 71. -/
def degradedBytes (s : State) : List Byte := s.retired.flatMap (fun x => leBytes x.1 3) ++ s.editedRcbs.flatMap fun a => leBytes a 6

/-- A quote for a nonce (R434). -/
def quote (s : State) (nonce : W256) : List Byte :=
  let head := leBytes nonce.toNat 32 ++ leBytes s.boot.imgHash.toNat 32 ++ shake256 s.configBytes ++
    shake256 s.degradedBytes ++ leBytes s.sys.status.toNat 8 ++ leBytes s.boot.version.toNat 8
  head ++ Config.quoteKey s.boot.boots ++ Config.quoteSign s.boot.boots head

end State

/-- `ATTESTATION_QUOTE`: core 0 returns a signed quote (R434). -/
def execAttestationQuote (nonce : W256) (s : State) : Host.Outcome State Fault Refusal :=
  State.out { s with boot := { s.boot with quotes := s.boot.quotes ++ [s.quote nonce] } }

/-! ## The thermal trip (R440) -/

/-- The clusters of a die (R2). -/
def dieClusters (d : Nat) : List Nat := (List.range 16).filter fun c => c % 4 / 2 == d % 2 && c / 4 / 2 == d / 2

/-- `THERMAL_TRIP`: the clocks of the die stop, every fault domain with a region there ends, and bit 4 of `STATUS` is set (R440). -/
def execThermalTrip (die : BitVec 2) (s : State) : Host.Outcome State Fault Refusal :=
  let cs := dieClusters die.toNat
  let s := cs.foldl (fun s c => s.setCl c { s.cl c with stopped := true }) s
  let doms := ((s.regions.filter fun x => x.clusters.any cs.contains).map fun x => (s.cl (x.clusters.headD 0)).res.fdom).eraseDups
  let s := doms.foldl State.killDomain s
  State.out { s with sys := { s.sys with status := s.sys.status ||| 0b10000#5 } }

end Sys2Proof.Machine
end

