-- ==== Sys2Proof/Machine/Tiles.lean ====
section
/-!
DEFINITION. Class 4: tiles to and from the harp, and the register-only tile instructions (R262, R264–R268).
-/
namespace Sys2Proof.Machine

/-- The frame of a class-4 word: it acts once, and all 32 lanes must take part (R264). -/
def tilesWord (c : Ctl) (w : WordSpec) (s : State) (act : State → List Nat → Acted) : Host.Outcome State Fault Refusal :=
  s.word c w fun s p =>
    if p.isEmpty then Acted.of s []
    else if p.length ≠ 32 then allLanes s p (.illegal s.cur.raw)
    else act s p

/-- A register-only tile result, the same outcome in every lane. -/
def tileResult (s : State) (p : List Nat) (d : MReg) (v : MVal) : Acted := { allLanes s p .done with m := some (d, v, allRows) }

/-- The pipeline's view of a fixed-latency tile instruction. -/
def tileFixed (lat : Nat) (src : Option MReg) (reads : List RegId) : WordSpec :=
  { WordSpec.fixC lat [] with mreads := src.toList, lead := reads }

/-- The course that a class-4 operand names, numbered in the device, or none above 7 (R264). -/
def courseOf (core : Nat) (n : W64) : Option Nat := if n.toNat < 8 then some (8 * coreCluster core + n.toNat) else none

/-- Whether a tile's tag is an A format with a geometry it permits (R83, R261, R265). -/
def tileSendable (t : Byte) : Bool :=
  tagOk t && (tagFmt t == 10 || (decide (2 ≤ tagFmt t) && decide (tagFmt t ≤ 8)))

/-- The tile as it enters an A queue: CB4 decoded to BF16, each row by its lane's codebook (R234, R265). -/
def sentTile (cb : Nat → W256) (m : MVal) : MVal :=
  if tagFmt m.tag = 10 then MVal.ofRows 0x20 0 ((List.range 32).map fun i => (m.row i).map (cbEntry (cb i))) else m

/-- `TSEND` (R265). -/
def execTsend (c : Ctl) (course : Src) (x : MReg) (s : State) : Host.Outcome State Fault Refusal :=
  tilesWord c { engineSpec .c course.regs true with mreads := [x] } s fun s p =>
    let g := s.curG
    let n := s.src (tid g (p.headD 0)) course
    let m := s.readM g x
    match courseOf s.cur.core n with
    | none => allLanes s p (.bounds n.toNat)
    | some k =>
      let y := s.course k
      if y.retired then allLanes s p (.bounds n.toNat)
      else if !tileSendable m.tag then allLanes s p (.format m.tag.toNat)
      else
        let t := sentTile (fun i => s.codebook (tid g i) (tagCbs m.tag)) m
        if y.aQueue.length < 4 then allLanes (s.setCourse k { y with aQueue := y.aQueue ++ [t] }) p .done
        else Acted.of (s.sleep g (maskOf p) s.curPc s.curNext c.ctr (s.dueAt c) (.tsend k t)) (p.map fun i => (i, .gone))

/-- `TRECV` (R266). -/
def execTrecv (c : Ctl) (d : MReg) (course : Src) (s : State) : Host.Outcome State Fault Refusal :=
  tilesWord c (engineSpec .c course.regs true) s fun s p =>
    let g := s.curG
    let n := s.src (tid g (p.headD 0)) course
    match courseOf s.cur.core n with
    | none => allLanes s p (.bounds n.toNat)
    | some k => match (s.course k).results with
      | t :: ts => tileResult ((s.setCourse k { s.course k with results := ts }).flow k) p d t
      | [] => Acted.of (s.sleep g (maskOf p) s.curPc s.curNext c.ctr (s.dueAt c) (.trecv k d)) (p.map fun i => (i, .gone))

/-- `TZERO` (R267). -/
def execTzero (c : Ctl) (f : FFmt) (d : MReg) (s : State) : Host.Outcome State Fault Refusal :=
  tilesWord c (tileFixed 8 none []) s fun s p => tileResult s p d ⟨mkTag f.code.toNat 0 0, 0, []⟩

/-- `TMOV` (R267). -/
def execTmov (c : Ctl) (d a : MReg) (s : State) : Host.Outcome State Fault Refusal :=
  tilesWord c (tileFixed 8 (some a) []) s fun s p =>
    let m := s.readM s.curG a
    if tagOk m.tag then tileResult s p d m else allLanes s p (.format m.tag.toNat)

/-- The scale field of a transposed tile: bytes 1 and 2 are exchanged under square 16 (R267). -/
def swapScales (geom : Nat) (w : W256) : W256 :=
  if geom = 1 then scaleField ((List.range 32).map fun i => scaleByte w (if i = 1 then 2 else if i = 2 then 1 else i)) else w

/-- `TTRN` (R267). -/
def execTtrn (c : Ctl) (d a : MReg) (s : State) : Host.Outcome State Fault Refusal :=
  tilesWord c (tileFixed 16 (some a) []) s fun s p =>
    let m := s.readM s.curG a
    if !tagOk m.tag || tagGeom m.tag == 3 then allLanes s p (.format m.tag.toNat)
    else tileResult s p d ⟨m.tag, swapScales (tagGeom m.tag) m.scale, mtab 0 1024 fun k => mget 0 m.elems (32 * (k % 32) + k / 32)⟩

/-- `TSCL`: the flags of row i go to lane i (R268). -/
def execTscl (c : Ctl) (f : FFmt) (r : Rnd) (sat : Bool) (d a : MReg) (e : Src) (s : State) : Host.Outcome State Fault Refusal :=
  tilesWord c (tileFixed 16 (some a) e.regs) s fun s p =>
    let g := s.curG
    let m := s.readM g a
    let n := tagFmt m.tag
    if !tagOk m.tag || tagGeom m.tag != 0 || !(decide (n ≤ 3) || n == 9) then allLanes s p (.format m.tag.toNat)
    else
      let k := fdesc f.code.toNat
      let ex := sval 16 (s.src (tid g (p.headD 0)) e).toNat
      let rows := (List.range 32).map fun i => k.roundAll r sat 0 ((m.row i).map fun x => ((elemVal n 0 x).scale ex).exact)
      { Acted.of s ((p.zip rows).map fun (i, x) => (i, .next [(.s .fsr, .orF x.flags)])) with
        m := some (d, MVal.ofRows (mkTag f.code.toNat 0 0) 0 (rows.map (·.codes)), allRows) }

end Sys2Proof.Machine
end

