-- ==== Sys2Proof/Machine/Bow.lean ====
section
/-!
DEFINITION. Class 5 at issue (R263, R269–R276, R279) and the operations of a course when they are performed (R270–R275, R278), with
the event that `HARP_CHECK` raises in the bow (R280).
-/
namespace Sys2Proof.Machine

/-! ## Issue (R269) -/

/-- The pipeline's view of a class-5 word: it completes for its counter when it enters its queue. -/
def bowSpec (reads : List RegId) : WordSpec := { WordSpec.fixC 1 reads with bow := true }

/-- A class-5 word that enters an operation into its course's queue, for which it holds at the word while the queue is full. -/
def bowWord (c : Ctl) (course : Src) (reads : List RegId) (build : Nat → Nat → Seen → Seen × (HarpOp ⊕ LaneRes)) (s : State) :
    Host.Outcome State Fault Refusal :=
  let w := bowSpec (course.regs ++ reads)
  let t := tid s.curG 0
  let n := s.src t course
  let full := match courseOf s.cur.core n with
    | none => false
    | some k => decide (16 ≤ (s.course k).ops.length) && !(s.course k).retired
  match s.gate c w with
  | .hold => s.holdWord.out
  | .go (_ :: _) _ => if full then s.holdWord.out else go w t n
  | _ => go w t n
where
  go (w : WordSpec) (t : Nat) (n : W64) : Host.Outcome State Fault Refusal :=
    s.word { c with ctr := none } w fun s p =>
      let g := s.curG
      match courseOf s.cur.core n with
      | none => allLanes s p (.bounds n.toNat)
      | some k =>
        if (s.course k).retired then allLanes s p (.bounds n.toNat)
        else if p.isEmpty then Acted.of s []
        else match build g t ⟨s, []⟩ with
          | (y, .inr r) => allLanes y.st p r
          | (y, .inl op) =>
            let (s, id) := y.st.enterOp g (maskOf p) none (some (8 + k % 8)) .course true
            let x := s.course k
            allLanes (s.setCourse k { x with ops := x.ops ++ [⟨id, s.curPc, op⟩] }) p .done

/-- A handle and coordinates, with the checks of R64, R67 and R233: the layout, for an access that needs what `n` says, and the coordinate
word; zero where none is named. The upper 32 bits of the handle are ignored. DESIGN CHOICE: log entry 81. -/
def bowLayout (g t : Nat) (n : Need) (h : Src) (xy : Option GReg) (y : Seen) : Seen × ((Layout × Nat) ⊕ LaneRes) :=
  match y.layout g n 5 ((y.st.src t h).toNat % 2 ^ 32) with
  | (z, .inr r) => (z, .inr r)
  | (z, .inl lay) =>
    let x := match xy with
      | none => 0
      | some r => (y.st.g t r).toNat
    if coordBad lay x then (z, .inr (.bounds x)) else (z, .inl (lay, x))

/-- The place of one element through a view, and whether it is the high half of its byte. -/
def cellPlace (g : Nat) (n : Need) (lay : Layout) (view : Nat) (y : Seen) (e : Nat × Nat × Nat) :
    Seen × ((Nat × Phys × Bool) ⊕ LaneRes) :=
  match y.place g n 5 (lay.elemVa view e.2.1 (if lay.pairs then e.2.2 / 2 else e.2.2)) with
  | (y, .inr r) => (y, .inr r)
  | (y, .inl p) => (y, .inl (e.1, p, lay.pairs && e.2.2 % 2 == 1))

/-- The place of the scale byte of one element. -/
def scalePlace (g : Nat) (lay : Layout) (y : Seen) (e : Nat × Nat × Nat) : Seen × ((Nat × Phys) ⊕ LaneRes) :=
  match y.place g Need.load 5 (lay.scaleVa e.2.1 e.2.2) with
  | (y, .inr r) => (y, .inr r)
  | (y, .inl p) => (y, .inl (e.1, p))

/-- The places of some elements, each a key with its row and code column, and of some scale bytes; elements outside the region's padding
are left out (R270, R275). -/
def bowCells (g : Nat) (n : Need) (lay : Layout) (view : Nat) (elems scales : List (Nat × Nat × Nat)) (y : Seen) :
    Seen × ((List (Nat × Phys × Bool) × List (Nat × Phys)) ⊕ LaneRes) :=
  let here := fun (e : Nat × Nat × Nat) => decide (e.2.1 < lay.rowsP) && decide (e.2.2 < lay.codesP)
  let (y, a) := Seen.each (cellPlace g n lay view) (elems.filter here) y
  match firstBad a with
  | .inr r => (y, .inr r)
  | .inl a =>
    let (y, b) := Seen.each (scalePlace g lay) (if lay.geom = 0 then [] else scales.filter here) y
    match firstBad b with
    | .inr r => (y, .inr r)
    | .inl b => (y, .inl (a, b))

/-- `MLDA` (R271). -/
def execMlda (c : Ctl) (course h : Src) (xy : Option GReg) (s : State) : Host.Outcome State Fault Refusal :=
  bowWord c course (h.regs ++ xy.toList.map .g) (fun g t y =>
    match bowLayout g t Need.load h xy y with
    | (y, .inr r) => (y, .inr r)
    | (y, .inl (lay, x)) =>
      if lay.fmt < 2 ∨ 8 < lay.fmt then (y, .inr (.format lay.tag.toNat))
      else match tileCheck lay (BitVec.ofNat 64 x) none with
        | .inr r => (y, .inr r)
        | .inl at_ =>
          let cell := fun k (e : Nat × Nat) => (k, at_.rc e.1 e.2)
          match bowCells g Need.load lay (if at_.t then 2 else 3) ((List.range 1024).map fun k => cell k (k / 32, k % 32))
              ((scaleBlocks lay.geom).map fun b => cell b.1 (b.2.1, b.2.2.1)) y with
          | (y, .inr r) => (y, .inr r)
          | (y, .inl (a, b)) => (y, .inl (.mlda lay.tag a b))) s

/-- `MLDB` (R270). -/
def execMldb (c : Ctl) (course h : Src) (xy : Option GReg) (slot : BitVec 5) (s : State) : Host.Outcome State Fault Refusal :=
  bowWord c course (h.regs ++ xy.toList.map .g) (fun g t y =>
    match bowLayout g t Need.load h xy y with
    | (y, .inr r) => (y, .inr r)
    | (y, .inl (lay, x)) =>
      let tr := bitAt x 63
      let r0 := 32 * bits x 58 32
      let c0 := 32 * bits x 26 0
      match harpSlots lay.fmt with
      | none => (y, .inr (.format lay.tag.toNat))
      | some n =>
        if (lay.geom == 3 && !lay.saxis) || (tr && (lay.geom == 3 || lay.pairs)) then (y, .inr (.format lay.tag.toNat))
        else if n ≤ slot.toNat then (y, .inr (.bounds slot.toNat))
        else
          let cells := (List.range 65536).map fun k =>
            (k, if tr then (c0 + k % 256, r0 + k / 256) else (r0 + k / 256, c0 + k % 256))
          match bowCells g Need.load lay (if tr then 2 else 3) cells cells y with
          | (y, .inr r) => (y, .inr r)
          | (y, .inl (a, b)) => (y, .inl (.mldb lay.tag slot a b))) s

/-- `MMUL` (R272). -/
def execMmul (c : Ctl) (course : Src) (f : MulF) (s : State) : Host.Outcome State Fault Refusal :=
  bowWord c course [] (fun _ _ y => (y, .inl (.mmul f []))) s

/-- `MMAC` (R272). -/
def execMmac (c : Ctl) (course : Src) (f : MulF) (s : State) : Host.Outcome State Fault Refusal :=
  bowWord c course [] (fun _ _ y => (y, .inl (.mmac f []))) s

/-- `MDIST` (R273). -/
def execMdist (c : Ctl) (course h : Src) (f : MulF) (s : State) : Host.Outcome State Fault Refusal :=
  bowWord c course h.regs (fun g t y =>
    match bowLayout g t Need.load h none y with
    | (y, .inr r) => (y, .inr r)
    | (y, .inl (lay, _)) =>
      if lay.tag ≠ 0x10#8 then (y, .inr (.format lay.tag.toNat))
      else if lay.rows < 2 then (y, .inr (.bounds lay.rows))
      else
        let row := fun r n => (List.range (min n lay.cols)).map fun k => (k, r, k)
        match bowCells g Need.load lay 1 (row 0 32) [] y with
        | (y, .inr r) => (y, .inr r)
        | (y, .inl (a, _)) => match bowCells g Need.load lay 1 (row 1 256) [] y with
          | (y, .inr r) => (y, .inr r)
          | (y, .inl (b, _)) => (y, .inl (.mdist f (a.map fun e => (e.1, e.2.1)) (b.map fun e => (e.1, e.2.1)) []))) s

/-- `MTOPK` (R274). -/
def execMtopk (c : Ctl) (course : Src) (km1 : BitVec 5) (wm1 : BitVec 8) (max : Bool) (s : State) :
    Host.Outcome State Fault Refusal :=
  bowWord c course [] (fun _ _ y => (y, .inl (.mtopk km1 wm1 max))) s

/-- The accumulator's cells in a region (R275). -/
def accCells (g t : Nat) (n : Need) (h : Src) (xy : Option GReg) (y : Seen) :
    Seen × ((Byte × List (Nat × Phys × Bool)) ⊕ LaneRes) :=
  match bowLayout g t n h xy y with
  | (y, .inr r) => (y, .inr r)
  | (y, .inl (lay, x)) =>
    if (lay.tag ≠ 0x10#8 ∧ lay.tag ≠ 0x90#8) ∨ bitAt x 63 then (y, .inr (.format lay.tag.toNat))
    else
      match bowCells g n lay 3 ((List.range 8192).map fun k => (k, 32 * bits x 58 32 + k / 256, 32 * bits x 26 0 + k % 256)) [] y with
      | (y, .inr r) => (y, .inr r)
      | (y, .inl (a, _)) => (y, .inl (lay.tag, a))

/-- `MACC` (R275). -/
def execMacc (c : Ctl) (course h : Src) (xy : Option GReg) (s : State) : Host.Outcome State Fault Refusal :=
  bowWord c course (h.regs ++ xy.toList.map .g) (fun g t y =>
    match accCells g t Need.load h xy y with
    | (y, .inr r) => (y, .inr r)
    | (y, .inl (tag, a)) => (y, .inl (.macc tag a))) s

/-- `MSTC` (R275). -/
def execMstc (c : Ctl) (course h : Src) (xy : Option GReg) (s : State) : Host.Outcome State Fault Refusal :=
  bowWord c course (h.regs ++ xy.toList.map .g) (fun g t y =>
    match accCells g t Need.store h xy y with
    | (y, .inr r) => (y, .inr r)
    | (y, .inl (tag, a)) => (y, .inl (.mstc tag a))) s

/-- The operations in the queues of some courses of a cluster. -/
def State.coursesOps (s : State) (c : Nat) (mask : Nat) : List Nat :=
  (List.range 8).flatMap fun n => if bitAt mask n then (s.course (8 * c + n)).ops.map (·.id) else []

/-- `MWAIT` (R276). -/
def execMwait (c : Ctl) (mask : Src) (s : State) : Host.Outcome State Fault Refusal :=
  s.word c { WordSpec.var .c mask.regs with bow := true } fun s p =>
    let m := (s.src (tid s.curG 0) mask).toNat
    if m = 0 ∨ 255 < m then allLanes s p (.illegal s.cur.raw)
    else
      let ops := s.coursesOps (coreCluster s.cur.core) m
      if p.isEmpty then Acted.of s []
      else if ops.isEmpty then allLanes (s.mwaited s.curG m) p .done
      else Acted.of (s.sleep s.curG (maskOf p) s.curPc s.curNext c.ctr (s.dueAt c) (.mwait m ops)) (p.map fun i => (i, .gone))

/-- `MCHK`: the status is read at issue and cleared, and a halted course resumes (R279). -/
def execMchk (c : Ctl) (d : GReg) (course : Src) (s : State) : Host.Outcome State Fault Refusal :=
  s.word c { WordSpec.var .c course.regs with bow := true } fun s p =>
    let n := s.src (tid s.curG 0) course
    match courseOf s.cur.core n with
    | none => allLanes s p (.bounds n.toNat)
    | some k =>
      let x := s.course k
      if x.retired then allLanes s p (.bounds n.toNat)
      else if p.isEmpty then Acted.of s []
      else
        allLanes (s.setCourse k { x with count := 0, slot := 0, badMac := 0, cause := 0, rst := false, halt := false }) p
          (.next [(.g d, .w x.status)])

/-! ## Performing (R270–R275) -/

/-- A course's number in the device. -/
def courseKey (cl : BitVec 4) (n : BitVec 3) : Nat := 8 * cl.toNat + n.toNat

/-- What operation `id` of a cluster reads in `n` bytes (R117, R283). -/
def State.opRead (s : State) (id c n : Nat) (p : Phys) : Nat := leVal (s.opBytes id c .mem p.kind (State.spots p n))

/-- The bytes of an element of a format. -/
def readCell (s : State) (id c n : Nat) (e : Nat × Phys × Bool) : Nat × Nat :=
  let v := s.opRead id c n e.2.1
  (e.1, if e.2.2 then v / 16 else v)

/-- The codes of some cells of a format: of a 4-bit format the low half of what is left. -/
def readCells (s : State) (id c f : Nat) (l : List (Nat × Phys × Bool)) : List (Nat × Nat) :=
  l.map fun e => let r := readCell s id c (fmtBytes f) e; (r.1, r.2 % 2 ^ fmtWidth f)

/-- The commands of the slices that reading some elements and scale bytes takes (R411). -/
def touchCells (s : State) (n : Nat) (cells : List (Nat × Phys × Bool)) (scales : List (Nat × Phys)) : State :=
  s.touchAll ((cells.flatMap fun e => State.spots e.2.1 n) ++ scales.flatMap fun e => State.spots e.2 1)

/-- A map of codes from cells in ascending order of their keys. -/
def cellMap (l : List (Nat × Nat)) : FMap (BitVec 32) :=
  l.filterMap fun e => if BitVec.ofNat 32 e.2 = 0 then none else some (e.1, BitVec.ofNat 32 e.2)

/-- Where a stored error lies in the memory that an operation reads, if anywhere (R388). -/
def cellsBad (s : State) (n : Nat) (l : List Phys) : Option Nat := l.findSome? fun p => (s.latentAt p n).map (·.2)

/-- An operation whose data holds a stored error ends without effect, and the firmware receives an engine fault with the resume address of
its word (R244, R384, R388). DEDUCED: log entry 42. -/
def harpFault (s : State) (k pa : Nat) : State :=
  (s.engineFault (State.bowOf (State.courseOwner k)) (8 + k % 8) 1 (((s.course k).ops.head?.map (·.word.toNat)).getD 0) pa).harpEnd k

/-- `MLDA` performed: the tile joins the A queue, unless the queue is full (R271). -/
def execMldaPerform (cl : BitVec 4) (n : BitVec 3) (s : State) : Host.Outcome State Fault Refusal :=
  let k := courseKey cl n
  let x := s.course k
  match s.harpHead k with
  | some (s, ⟨id, _, .mlda tag cells scales⟩) =>
    if 4 ≤ x.aQueue.length then s.out
    else match cellsBad s (fmtBytes (tagFmt tag)) (cells.map (·.2.1)), cellsBad s 1 (scales.map (·.2)) with
      | some pa, _ => ((harpFault s k pa).flow k).out
      | none, some pa => ((harpFault s k pa).flow k).out
      | none, none =>
        let sc := scales.map fun e => (e.1, s.opRead id cl.toNat 1 e.2)
        let m : MVal := ⟨tag, scaleField ((List.range 32).map fun i => match sc.find? fun e => e.1 == i with
          | some (_, v) => v
          | none => 0), cellMap (readCells s id cl.toNat (tagFmt tag) cells)⟩
        let s := touchCells s (fmtBytes (tagFmt tag)) cells scales
        (((s.setCourse k { x with aQueue := x.aQueue ++ [m] }).harpEnd k).flow k).out
  | _ => s.out

/-- `MLDB` performed: the panel is resident, and what it overlaps is not (R259, R270). -/
def execMldbPerform (cl : BitVec 4) (n : BitVec 3) (s : State) : Host.Outcome State Fault Refusal :=
  let k := courseKey cl n
  match s.harpHead k with
  | some (s, ⟨id, _, .mldb tag slot cells scales⟩) =>
    (match cellsBad s (fmtBytes (tagFmt tag)) (cells.map (·.2.1)), cellsBad s 1 (scales.map (·.2)) with
      | some pa, _ => ((harpFault s k pa).flow k).out
      | none, some pa => ((harpFault s k pa).flow k).out
      | none, none =>
        let sc := scales.filterMap fun e =>
          let v := BitVec.ofNat 8 (s.opRead id cl.toNat 1 e.2)
          if v = 127#8 then none else some (e.1, v)
        let p : Panel := ⟨tag, sc, cellMap (readCells s id cl.toNat (tagFmt tag) cells), []⟩
        let p := { p with sums := p.columns [] }
        let s := touchCells s (fmtBytes (tagFmt tag)) cells scales
        (((s.setCourse k ((s.course k).load slot.toNat p)).harpEnd k).flow k).out)
  | _ => s.out

/-- `MACC` performed (R275). -/
def execMaccPerform (cl : BitVec 4) (n : BitVec 3) (s : State) : Host.Outcome State Fault Refusal :=
  let k := courseKey cl n
  match s.harpHead k with
  | some (s, ⟨id, _, .macc tag cells⟩) =>
    (match cellsBad s 4 (cells.map (·.2.1)) with
      | some pa => ((harpFault s k pa).flow k).out
      | none =>
        let x := s.course k
        let acc := cellMap (readCells s id cl.toNat 1 cells)
        let s := touchCells s 4 cells []
        (((s.setCourse k { x with acc := acc, accInt := tag == 0x90#8 }).harpEnd k).flow k).out)
  | _ => s.out

/-- `MSTC` performed; an accumulator of the other kind fails it, with SLOT 0, for it names no slot (R275, R279). DESIGN CHOICE: log entry
87. -/
def execMstcPerform (cl : BitVec 4) (n : BitVec 3) (s : State) : Host.Outcome State Fault Refusal :=
  let k := courseKey cl n
  let x := s.course k
  match s.harpHead k with
  | some (s, ⟨id, _, .mstc tag cells⟩) =>
    if x.accInt ≠ (tag == 0x90#8) then ((s.harpFail k 0 0 2).flow k).out
    else
      let s := cells.foldl (fun s (e : Nat × Phys × Bool) =>
        s.writeBy (200000 + cl.toNat) (State.opKnown id) none none e.2.1 (leBytes (mget 0 x.acc e.1).toNat 4)) s
      ((s.harpEnd k).flow k).out
  | _ => s.out

/-- The A tiles of a multiplying operation, as far as they have arrived and pass the checks of R272: the tiles left in the queue, the
operation's tiles, and whether a check failed. -/
def gatherTiles (p : Panel) (mac : Option Bool) : Nat → List MVal → List MVal → List MVal × List MVal × Bool
  | 0, q, l => (q, l, false)
  | _ + 1, [], l => ([], l, false)
  | n + 1, t :: q, l =>
    let kind := harpPair t.tag p.tag
    let first := match l with
      | [] => kind
      | a :: _ => harpPair a.tag p.tag
    if kind.isNone || kind != first || (match mac with | some b => kind != some b | none => false) then (q, l ++ [t], true)
    else gatherTiles p mac n q (l ++ [t])

/-- The parts of a multiplying operation. -/
def HarpOp.parts : HarpOp → Option (MulF × List MVal)
  | .mmul f l => some (f, l)
  | .mmac f l => some (f, l)
  | .mdist f _ _ l => some (f, l)
  | _ => none

/-- A multiplying operation with other tiles. -/
def HarpOp.withTiles (l : List MVal) : HarpOp → HarpOp
  | .mmul f _ => .mmul f l
  | .mmac f _ => .mmac f l
  | .mdist f a b _ => .mdist f a b l
  | o => o

/-- A norm from the places of a row, +0 where there is none (R273). -/
def normAt (s : State) (id c : Nat) (l : List (Nat × Phys)) (i : Nat) : Nat :=
  match l.find? fun e => e.1 == i with
  | some (_, p) => s.opRead id c 4 p
  | none => 0

/-- The accumulator that a multiplying operation forms, its kind, and its flags (R272, R281). -/
def HarpOp.form (s : State) (id c : Nat) (x : Course) (p : Panel) (f : MulF) (tiles : List MVal) (int : Bool) :
    HarpOp → Bool × FMap (BitVec 32) × BitVec 5
  | .mdist _ a b _ =>
    let na := (List.range 32).map (normAt s id c a)
    let nb := (List.range 256).map (normAt s id c b)
    (false, formAcc fun i j =>
      let inc := fp32.round .rne false (FVal.add .rne (fp32.dec (na.getD i 0)) (fp32.dec (nb.getD j 0)))
      let r := harpElem (true, 1) p tiles (f.km1.toNat + 1) i j inc.1
      (r.1, inc.2 ||| r.2))
  | .mmac _ _ => (int, formAcc fun i j =>
      let inc := (mget 0 x.acc (256 * i + j)).toNat
      if int then harpIntElem p tiles (f.km1.toNat + 1) i j inc else harpElem (false, 0) p tiles (f.km1.toNat + 1) i j inc)
  | _ => (int, formAcc fun i j =>
      if int then harpIntElem p tiles (f.km1.toNat + 1) i j 0 else harpElem (false, 0) p tiles (f.km1.toNat + 1) i j 0)

/-- The places of memory that a multiplying operation reads. -/
def HarpOp.norms : HarpOp → List Phys
  | .mdist _ a b _ => (a ++ b).map (·.2)
  | _ => []

/-- The macros of the K-rows that a contraction reaches whose broadcast holds a soft error (R277, R388). -/
def State.broadcast (s : State) (k len : Nat) : Option Nat :=
  (List.range 16).find? fun q => decide (64 * (q / 4) < len) && s.latent.any fun e => e.code == 5#8 && e.place == 16 * k + q

/-- A contraction has met the errors of its broadcasts: they do not recur (R278). -/
def State.clearBroadcast (s : State) (k len : Nat) : State :=
  { s with latent := s.latent.filter fun e => !(e.code == 5#8 && e.place / 16 == k && decide (64 * (e.place % 16 / 4) < len)) }

/-- A multiplying operation at the head of a course: it takes the A tiles that have arrived; with all of them it forms the accumulator,
commits it and goes on to push its result tiles, or it fails (R272, R277, R278). A failed check of the slot leaves every tile in the queue,
one of a tile takes the tiles up to that one. DESIGN CHOICE: log entry 87. -/
def State.multiply (s : State) (k : Nat) (o : HarpCmd) (f : MulF) (have_ : List MVal) (mac : Bool) : State :=
  let c := State.courseOwner k
  let x := s.course k
  match mget none x.panels f.slot.toNat with
  | none => s.harpFail k f.slot 0 2
  | some p =>
    let n := f.km1.toNat / 32 + 1
    let (q, tiles, bad) := gatherTiles p (if mac then some x.accInt else none) (n - have_.length) x.aQueue have_
    let y := { x with aQueue := q, ops := ⟨o.id, o.word, o.op.withTiles tiles⟩ :: x.ops.drop 1 }
    let s := s.setCourse k y
    if bad then s.harpFail k f.slot 0 2
    else if tiles.length < n then s
    else match (s.broadcast k (f.km1.toNat + 1)).orElse fun _ => p.mismatch tiles (f.km1.toNat + 1), cellsBad s 4 o.op.norms with
      | some m, _ => (s.clearBroadcast k (f.km1.toNat + 1)).harpFail k f.slot (BitVec.ofNat 4 m) 1
      | none, some pa => harpFault s k pa
      | none, none =>
        let s := s.touchAll (o.op.norms.flatMap fun q => State.spots q 4)
        let (int, acc, fl) := o.op.form s o.id c y p f tiles (((harpPair ((tiles.headD MVal.zero).tag) p.tag)).getD false)
        let push := (List.range (min f.q.toNat 8)).map (resultTile int acc)
        (s.setCourse k { y with acc := acc, accInt := int, ops := ⟨o.id, o.word, .push push⟩ :: y.ops.drop 1 }).harpFlags c fl

/-- `MMUL` performed (R272). -/
def execMmulPerform (cl : BitVec 4) (n : BitVec 3) (s : State) : Host.Outcome State Fault Refusal :=
  let k := courseKey cl n
  match s.harpHead k with
  | some (s, ⟨id, w, .mmul f l⟩) => ((s.multiply k ⟨id, w, .mmul f l⟩ f l false).flow k).out
  | _ => s.out

/-- `MMAC` performed (R272). -/
def execMmacPerform (cl : BitVec 4) (n : BitVec 3) (s : State) : Host.Outcome State Fault Refusal :=
  let k := courseKey cl n
  match s.harpHead k with
  | some (s, ⟨id, w, .mmac f l⟩) => ((s.multiply k ⟨id, w, .mmac f l⟩ f l true).flow k).out
  | _ => s.out

/-- `MDIST` performed (R272, R273). -/
def execMdistPerform (cl : BitVec 4) (n : BitVec 3) (s : State) : Host.Outcome State Fault Refusal :=
  let k := courseKey cl n
  match s.harpHead k with
  | some (s, ⟨id, w, .mdist f a b l⟩) => ((s.multiply k ⟨id, w, .mdist f a b l⟩ f l false).flow k).out
  | _ => s.out

/-- The two tiles of a ranking: values and indices; what stands at a position of the first k that no column fills is free (R274).
DEDUCED: log entry 43. -/
def rankTiles (s : State) (x : Course) (k w : Nat) (big : Bool) : List MVal :=
  let rows := (List.range 32).map fun i => rankRow x.accInt big x.acc w i
  let tile := fun (tag : Byte) (other : BitVec 32) (site : Nat) (f : Nat → Nat → BitVec 32) =>
    (⟨tag, 0, mtab 0 1024 fun e =>
      let i := e / 32
      let t := e % 32
      if k ≤ t then other
      else match (rows.getD i [])[t]? with
        | some j => f i j
        | none => BitVec.ofNat 32 (Config.freeNat s.draw (site + e))⟩ : MVal)
  [tile (resultTag x.accInt) 0 (2 ^ 85) fun i j => mget 0 x.acc (256 * i + j), tile 0x90 (-1) (2 ^ 85 + 1024) fun _ j => BitVec.ofNat 32 j]

/-- `MTOPK` performed, when the result queue has room for two tiles (R274). -/
def execMtopkPerform (cl : BitVec 4) (n : BitVec 3) (s : State) : Host.Outcome State Fault Refusal :=
  let k := courseKey cl n
  let x := s.course k
  match s.harpHead k with
  | some (s, ⟨_, _, .mtopk km1 wm1 big⟩) =>
    if 6 < x.results.length then s.out
    else
      let tiles := rankTiles s x (km1.toNat + 1) (wm1.toNat + 1) big
      (((s.setCourse k { x with results := x.results ++ tiles }).harpEnd k).flow k).out
  | _ => s.out

/-! ## `HARP_CHECK` in the bow (R280) -/

/-- Whether the bow of a cluster stands at an instruction boundary at which `HARP_CHECK` may reach it. -/
def State.bowOpen (s : State) (c : Nat) : Bool :=
  let g := State.bowOf c
  let x := s.thr (tid g 0)
  (s.grp g).bound && x.handler.isNone && x.halt.isNone && (match x.stat with
    | .run => !(s.core (groupCore g)).sels.any fun y => y.held != .no
    | .sleep id => s.sleepers.any fun z => z.id == id && (match z.kind with
      | .mwait _ _ => true
      | .waita _ _ _ _ _ => true
      | _ => false)
    | _ => false)

/-- `HARP_CHECK`: the oldest event not delivered enters the bow's handler, at once out of `MWAIT` or `WAITA` (R280, R381). -/
def execHarpCheck (cl : BitVec 4) (s : State) : Host.Outcome State Fault Refusal :=
  let c := cl.toNat
  match (s.cl c).harpQ with
  | [] => s.out
  | n :: l =>
    if !s.bowOpen c then s.out
    else
      let t := tid (State.bowOf c) 0
      let s := s.setCl c { s.cl c with harpQ := l }
      let s := s.unsleep t
      (s.takeTrap t ⟨State.trapRecord 0 0 0 n 17, (s.course (8 * c + n)).status, (s.thr t).pc⟩).out

end Sys2Proof.Machine
end

