-- ==== Sys2Proof/Machine/Control.lean ====
section
/-!
DEFINITION. The control instructions of class 0 (R168–R184) and the arrival of a thread at its boundary (R35, R182).
-/
namespace Sys2Proof.Machine

/-- `NOP` (R176). -/
def execNop (c : Ctl) (s : State) : Host.Outcome State Fault Refusal := s.perLane c (.fixA 1 []) fun _ => .done

/-- The resume address of a branch target: the header plus eight times the signed offset (R170).; it wraps at 2^48.
DEDUCED: log entry 31. -/
def State.branchTo (s : State) (off : BitVec 18) : W64 := resumeAt (s.cur.hdr + (off.signExtend 48 <<< 3)) 0

/-- The checks of R171 on a target read from a register, and the transfer. -/
def targetRes (x : W64) (w : List (RegId × RVal)) : LaneRes :=
  if x.extractLsb' 48 16 ≠ 0#16 then .bounds x.toNat
  else if x.toNat % 8 ≠ 0 then .align x.toNat
  else .jump x w

/-- `BRA` (R170). -/
def execBra (c : Ctl) (off : BitVec 18) (s : State) : Host.Outcome State Fault Refusal :=
  s.perLane c (.fixA 1 []) fun _ => .jump (s.branchTo off) []

/-- `BRX` (R171). -/
def execBrx (c : Ctl) (a : GReg) (s : State) : Host.Outcome State Fault Refusal :=
  s.perLane c (.fixA 1 [.g a]) fun t => targetRes (s.g t a) []

/-- `RET` (R171). -/
def execRet (c : Ctl) (a : GReg) (s : State) : Host.Outcome State Fault Refusal :=
  s.perLane c (.fixA 1 [.g a]) fun t => targetRes (s.g t a) []

/-- The link that a call writes: the header after its clause (R172). -/
def State.linkVal (s : State) : RVal := .w (s.curEnd.zeroExtend 64)

/-- `CALL` with an offset (R172). -/
def execCall (c : Ctl) (link : GReg) (off : BitVec 18) (s : State) : Host.Outcome State Fault Refusal :=
  s.perLane c (.fixA 2 []) fun _ => .jump (s.branchTo off) [(.g link, s.linkVal)]

/-- `CALL` through a register; the target is read before the link is written (R172). -/
def execCallIndirect (c : Ctl) (link a : GReg) (s : State) : Host.Outcome State Fault Refusal :=
  s.perLane c (.fixA 2 [.g a]) fun t => targetRes (s.g t a) [(.g link, s.linkVal)]

/-- `EXIT`: the path holds until every operation of the threads that end has completed (R173). -/
def execExit (c : Ctl) (s : State) : Host.Outcome State Fault Refusal :=
  match s.gate c (.fixA 1 []) with
  | .go p _ => if p.any fun i => s.hasWork (tid s.curG i) then s.holdWord.out else s.perLane c (.fixA 1 []) fun _ => .exits
  | _ => s.perLane c (.fixA 1 []) fun _ => .exits

/-- The participants enter a sleeping wait at the word (R21). -/
def State.sleepAll (s : State) (c : Ctl) (p : List Nat) (k : SleepKind) : Acted :=
  Acted.of (if p.isEmpty then s else s.sleep s.curG (maskOf p) s.curPc s.curNext none (s.dueAt c) k) (p.map fun i => (i, .gone))

/-- `RECONV` (R29, R174). -/
def execReconv (c : Ctl) (s : State) : Host.Outcome State Fault Refusal :=
  s.word c (.fixA 1 []) fun s p => s.sleepAll c p .reconv

/-- `YIELD` (R27, R175). -/
def execYield (c : Ctl) (s : State) : Host.Outcome State Fault Refusal :=
  s.inTurn c (.fixA 1 []) fun s t => (s.modThr t fun x => { x with yielded := 16 }, .done)

/-- The ranges that the record of `PHASE` at a place of the workgroup allocation names, or none when a check of R181 fails:
COUNT 1–4, reserved bits zero, every range within its allocation and aligned (R180). -/
def State.liveRanges (s : State) (g roff : Nat) : Option (List W64) :=
  let k := groupCore g
  let w := s.grpWg g
  let key := spKey (coreCluster k) (coreNum k) (w.base + roff)
  let h := s.spRd key 8
  let n := bits h 2 0
  if roff + 8 > w.zw ∨ h ≠ n ∨ n = 0 ∨ 4 < n ∨ roff + 8 * (n + 1) > w.zw then none
  else
    let rs := (List.range n).map fun i => s.spRd (key + 8 * (i + 1)) 8
    let zs := (s.grpCl g).zs
    if rs.all fun r =>
        let len := bits r 51 30
        let off := bits r 20 0
        bits r 63 52 == 0 && bits r 28 21 == 0 && decide (16 ≤ len) && decide (len ≤ 2 ^ 21) && len % 16 == 0 && off % 16 == 0 &&
          decide (off + len ≤ if bitAt r 29 then zs else w.zw)
    then some (rs.map (BitVec.ofNat 64)) else none

/-- The checks of R181 in one thread: its liveness, or the trap; `ALIGN` and `BOUNDS` report ROFF, a failing range's too.
DESIGN CHOICE: log entry 80. -/
def State.phaseCheck (s : State) (g : Nat) (gmask word2 : W64) : Live ⊕ LaneRes :=
  let x := word2.toNat
  let rp := bitAt x 47
  let roff := bits x 63 48
  if isBow (groupCore g) && (bits x 31 0 != 0 || bits x 39 32 != 0 || rp) then .inr (.illegal s.cur.raw)
  else if !rp then .inl ⟨gmask, word2, []⟩
  else if roff % 8 ≠ 0 then .inr (.align roff)
  else match s.liveRanges g roff with
    | none => .inr (.bounds roff)
    | some l => .inl ⟨gmask, word2, l⟩

/-- `PHASE` at issue (R178–R182): a thread that passes the checks records its liveness and holds at the word until its arrival
takes effect. -/
def execPhase (c : Ctl) (gmask word2 : W64) (s : State) : Host.Outcome State Fault Refusal :=
  let w : WordSpec := .fixA 1 []
  match s.gate c w with
  | .go p traps =>
    let g := s.curG
    match s.phaseCheck g gmask word2 with
    | .inr r => (s.retire c w (Acted.of s (p.map fun i => (i, r))) traps).out
    | .inl l =>
      let s := s.charge g s.cur.mapCls
      let s := s.holdFor .arrive (s.dueAt c)
      let s := p.foldl (fun s i => s.modThr (tid g i) fun x => { x with stat := .arriving, live := l }) s
      let s := State.leave g traps s
      (if traps.isEmpty then s else s.reconvRelease g).out
  | _ => s.word c w fun s _ => Acted.of s []

/-- Whether the arrival of a thread that holds at `PHASE` may take effect: none of its operations is outstanding, its transfers
and engine commands among them (R35, R160, R182, R247). -/
def State.mayArrive (s : State) (t : Nat) : Bool := (s.thr t).stat == .arriving && !s.hasWork t

/-- `PHASE_ARRIVAL` (R35, R182): the thread arrives and sleeps until its cluster advances; the first arrival on the cluster
starts the straggler time-out (R39). -/
def execPhaseArrival (t : Nat) (s : State) : Host.Outcome State Fault Refusal :=
  if s.mayArrive t then
    let g := threadGroup t
    let c := coreCluster (groupCore g)
    let x := s.thr t
    let (next, due) := match (s.core (groupCore g)).sels.find? fun y => y.slot == groupSlot g && y.lanes.getLsbD (threadLane t) with
      | some y => (resumeAt (y.hdr + BitVec.ofNat 48 (8 * ((Header.ofWord y.header).words + 1))) 0, y.nextAt)
      | none => (x.pc, s.cycle)
    let s := s.sleep g (1#32 <<< threadLane t) x.pc next none due .phase
    let y := s.cl c
    let s := s.setCl c { y with strag := match y.strag with | none => some s.cycle | some k => some k }
    (s.arrivals c).out
  else s.out

/-- `IDEM` (R45, R184). -/
def execIdem (c : Ctl) (s : State) : Host.Outcome State Fault Refusal :=
  s.perLane c (.fixA 2 []) fun t =>
    .next [(.s .re, .w s.curPc), (.s .rc, .w (((s.thr t).archW (.s .rc) + 1) &&& 0xFFFFFFFF#64))]

/-- `TRAP` (R177). -/
def execTrap (c : Ctl) (code : BitVec 16) (s : State) : Host.Outcome State Fault Refusal :=
  s.perLane c (.fixA 1 []) fun _ => .trap 15 0 0 code.toNat (some (resumeAt s.curEnd 0))

/-- `BRK` (R177): a halt while a debugger holds the region's right, else the trap. -/
def execBrk (c : Ctl) (code : BitVec 16) (s : State) : Host.Outcome State Fault Refusal :=
  if s.attached.any fun a => a.1 == (s.grp s.curG).rcb then
    s.inTurn c (.fixA 1 []) fun s t => ((s.modThr t (·.goto (resumeAt s.curEnd 0))).haltLane t 1 code.toNat, .gone)
  else s.perLane c (.fixA 1 []) fun _ => .trap 14 0 0 code.toNat (some (resumeAt s.curEnd 0))

end Sys2Proof.Machine
end

