-- ==== Sys2Proof/Machine/Sparse.lean ====
section
/-!
DEFINITION. Class 7: bitmaps, intersection, rebalancing, compaction and expansion (R285–R296).
-/
namespace Sys2Proof.Machine

/-- The number of set bits of a word. -/
def pop64 (x : W64) : Nat := popBelow x.toNat 64

/-- `BMAND` (R288). -/
def execBmand (c : Ctl) (d : GReg) (a b : Src) (s : State) : Host.Outcome State Fault Refusal :=
  s.perLane c (.fixC 4 (a.regs ++ b.regs)) fun t =>
    let x := s.src t a
    let y := s.src t b
    .next [(.g d, .w (x &&& y)), (.g (d + 1), .w (BitVec.ofNat 64 (pop64 x + 2 ^ 32 * pop64 y)))]

/-- `POPCP` (R288). -/
def execPopcp (c : Ctl) (d : GReg) (a b : Src) (s : State) : Host.Outcome State Fault Refusal :=
  s.perLane c (.fixC 4 (a.regs ++ b.regs)) fun t =>
    .next [(.g d, .w (BitVec.ofNat 64 (popBelow (s.src t a).toNat (min (s.src t b).toNat 64))))]

/-- The positions of the set bits of a word, ascending. -/
def setBitsOf (x : W64) : List Nat := (List.range 64).filter fun i => x.getLsbD i

/-- `ISECT` (R289). -/
def execIsect (c : Ctl) (hi : Bool) (d : GReg) (p : PReg) (a b : GReg) (s : State) : Host.Outcome State Fault Refusal :=
  s.word c { WordSpec.fixC 8 [] with lead := pairRegs a ++ pairRegs b } fun s lanes =>
    let t := tid s.curG (lanes.headD 0)
    let x := s.g t a
    let y := s.g t (a + 1)
    let bA := (s.g t b).toNat % 2 ^ 32
    let bB := (s.g t (b + 1)).toNat % 2 ^ 32
    let ps := setBitsOf (x &&& y)
    let own := fun (i : Nat) => match ps[i + if hi then 32 else 0]? with
      | some k => [(RegId.g d, RVal.w (BitVec.ofNat 64 ((bA + popBelow x.toNat k) % 2 ^ 32))),
          (.g (d + 1), .w (BitVec.ofNat 64 ((bB + popBelow y.toNat k) % 2 ^ 32))), (.p p, .p true)]
      | none => [(.p p, .p false)]
    let lead := fun (i : Nat) => if i = lanes.headD 0 then
        [(RegId.g (b + 2), RVal.w (BitVec.ofNat 64 (2 ^ 32 * ps.length + (bA + pop64 x) % 2 ^ 32))),
          (.g (b + 3), .w (BitVec.ofNat 64 ((bB + pop64 y) % 2 ^ 32)))]
      else []
    Acted.of s (lanes.map fun i => (i, .next (own i ++ lead i)))

/-- The row and the offset of item `k` over the rows' lengths, from a row on (R290). -/
def dealItem : List Nat → Nat → Nat → Option (Nat × Nat)
  | [], _, _ => none
  | n :: l, r, k => if k < n then some (r, k) else dealItem l (r + 1) (k - n)

/-- `REBAL` (R290). -/
def execRebal (c : Ctl) (d : GReg) (a b : Src) (s : State) : Host.Outcome State Fault Refusal :=
  s.word c { WordSpec.fixC 10 a.regs with lead := b.regs } fun s lanes =>
    let g := s.curG
    let first := (s.src (tid g (lanes.headD 0)) b).toNat
    let len := (List.range 32).map fun i => if lanes.contains i then (s.src (tid g i) a).toNat % 2 ^ 32 else 0
    let total := len.foldl (· + ·) 0
    Acted.of s (lanes.map fun i =>
      let own : List (RegId × RVal) := match dealItem len 0 (first + i) with
        | some (r, k) => [(.g d, .w (BitVec.ofNat 64 r)), (.g (d + 1), .w (BitVec.ofNat 64 k))]
        | none => [(.g d, .w (-1)), (.g (d + 1), .w 0)]
      (i, .next (own ++ if i = lanes.headD 0 then [(.g (d + 2), .w (BitVec.ofNat 64 total))] else [])))

/-! ## Compaction (R291–R294) -/

/-- A compaction record (R291). -/
structure CmpRec where
  esize : Nat
  caddr : Nat
  cols  : Nat
  pos   : Nat
  row   : Nat
  next  : Nat
  rsv   : Nat
  vaddr : Nat
  baddr : Nat
  oaddr : Nat
deriving DecidableEq, Repr

/-- The record in a 32-byte number. DEDUCED: log entry 44. -/
def CmpRec.ofNat (x : Nat) : CmpRec :=
  ⟨bits x 255 254, bits x 253 224, bits x 223 192, bits x 191 160, bits x 159 128, bits x 127 96, bits x 95 90, bits x 89 60,
    bits x 59 30, bits x 29 0⟩

/-- The 32-byte number of a record. -/
def CmpRec.toNat (r : CmpRec) : Nat :=
  r.esize * 2 ^ 254 + r.caddr % 2 ^ 30 * 2 ^ 224 + r.cols * 2 ^ 192 + r.pos * 2 ^ 160 + r.row * 2 ^ 128 + r.next * 2 ^ 96 +
    r.vaddr % 2 ^ 30 * 2 ^ 60 + r.baddr % 2 ^ 30 * 2 ^ 30 + r.oaddr % 2 ^ 30

/-- The record after a step that stored `n` entries (R292). -/
def CmpRec.after (r : CmpRec) (n : Nat) : CmpRec :=
  let row := decide (r.pos + 32 = r.cols)
  { r with
    oaddr := if r.pos = 0 then r.oaddr + 4 else r.oaddr
    baddr := r.baddr + 4, vaddr := r.vaddr + 2 ^ r.esize * n, next := r.next + n
    pos := if row then 0 else r.pos + 32, row := if row then r.row + 1 else r.row }

/-- Where a step writes: the row offset, the bitmap half, the values and the counter (R292). -/
structure CmpAt where
  off : Nat
  bit : Nat
  val : Nat
  ctr : Nat
deriving DecidableEq, Repr

/-- The checks of the ranges that a step writes (R293). DEDUCED: log entry 44. -/
def State.cmpRanges (s : State) (g : Nat) (r : CmpRec) (n : Nat) : CmpAt ⊕ LaneRes :=
  let e := 2 ^ r.esize
  let at_ := fun (on : Bool) (len al a : Nat) => if on then s.spRange g len al (BitVec.ofNat 64 a) else .inl 0
  match at_ (r.pos == 0) 4 4 r.oaddr, at_ true 4 4 r.baddr, at_ (n != 0) (e * n) e r.vaddr,
      at_ true 2 2 (r.caddr + 2 * (r.row / 32)) with
  | .inr x, _, _, _ => .inr x
  | _, .inr x, _, _ => .inr x
  | _, _, .inr x, _ => .inr x
  | _, _, _, .inr x => .inr x
  | .inl o, .inl b, .inl v, .inl c => .inl ⟨o, b, v, c⟩

/-- `CMPK` over some participants, as plain stores of thread `t`: `vals` are the stored lanes with their values (R292–R294). -/
def State.compact (s : State) (g t : Nat) (a : W64) (vals : List (Nat × Nat)) : State × LaneRes :=
  let n := vals.length
  match s.spRange g 32 32 a with
  | .inr x => (s, x)
  | .inl k => match s.spLoad k 32 a with
    | .inr x => (s, x)
    | .inl y =>
      let r := CmpRec.ofNat y
      let e := 2 ^ r.esize
      match s.cmpRanges g r n with
      | .inr x => (s, x)
      | .inl q =>
        if r.rsv != 0 || r.esize == 3 || r.cols == 0 || r.cols % 64 != 0 || r.pos % 32 != 0 || decide (r.cols ≤ r.pos) then
          (s, .illegal s.cur.raw)
        else
          let start := r.row % 32 == 0 && r.pos == 0
          match (if start then .inl 0 else s.spLoad q.ctr 2 (BitVec.ofNat 64 (r.caddr + 2 * (r.row / 32)))) with
          | .inr x => (s, x)
          | .inl old =>
            if 65535 < old + n ∨ 2 ^ 32 - 1 < r.next + n ∨ (r.pos + 32 = r.cols ∧ 2 ^ 32 - 1 < r.row + 1) then
              (s, .trap 12 0 a 0 none)
            else
              let put := fun (s : State) (k w x : Nat) => s.spPutBy t [] none none k (leBytes x w)
              let s := if r.pos = 0 then put s q.off 4 r.next else s
              let s := put s q.bit 4 (maskOf (vals.map (·.1))).toNat
              let s := (vals.zipIdx).foldl (fun s v => put s (q.val + e * v.2) e v.1.2) s
              let s := put s q.ctr 2 (old + n)
              (put s k 32 (r.after n).toNat, .done)

/-- `CMPK` (R292–R294). -/
def execCmpk (c : Ctl) (a x : GReg) (p : PReg) (s : State) : Host.Outcome State Fault Refusal :=
  s.word c { WordSpec.var .c [.g x, .p p] with lead := [.g a] } fun s lanes =>
    let g := s.curG
    if lanes.isEmpty then Acted.of s []
    else
      let stored := (lanes.filter fun i => s.p (tid g i) p).map fun i => (i, (s.g (tid g i) x).toNat)
      let (s, r) := s.compact g (tid g (lanes.headD 0)) (s.g (tid g (lanes.headD 0)) a) stored
      allLanes s lanes r

/-! ## Expansion (R295, R296) -/

/-- One lane of `EXPND`: the element behind its position, which it reads through the gather unit; a lane that reads no element writes
zero, and the predicate of a set position out of bounds is true (R58, R295). -/
def expandLane (g : Nat) (rec : W256) (m : BitVec 32) (base : Nat) (d : GReg) (p : PReg) (y : Seen) (i : Nat) :
    Seen × (GatherLane ⊕ LaneRes) :=
  if !m.getLsbD i then (y, .inr (.next [(.g d, .w 0), (.p p, .p false)]))
  else
    let w := 2 ^ bits rec.toNat 50 48
    match bufElem rec w ((base + popBelow m.toNat i) % 2 ^ 64) with
    | .drop => (y, .inr (.next [(.g d, .w 0), (.p p, .p true)]))
    | .bad r => (y, .inr r)
    | .addr va => match gatherPlace g va w y with
      | (y, .inl q) => (y, .inl ⟨i, [some (q, w, none, none)], .plain d p⟩)
      | (y, .inr r) => (y, .inr r)

/-- `EXPND` (R248, R295). -/
def execExpnd (c : Ctl) (d : GReg) (p : PReg) (b : BReg) (a : GReg) (s : State) : Host.Outcome State Fault Refusal :=
  s.word c { WordSpec.var .c [] with lead := pairRegs a } fun s lanes =>
    let g := s.curG
    let t := tid g (lanes.headD 0)
    let rec_ := s.bufRec t b
    if 4 ≤ bits rec_.toNat 50 48 then allLanes s lanes (.illegal s.cur.raw)
    else
      let (y, l) := Seen.each (expandLane g rec_ ((s.g t a).truncate 32) (s.g t (a + 1)).toNat d p) lanes ⟨s, []⟩
      gatherDo y.st lanes l []

end Sys2Proof.Machine
end

