-- ==== Sys2Proof/Machine/Tick.lean ====
section
/-!
DEFINITION. The order of the machine's own acts: the turns of the cores within a cycle, the start of a cycle, the events that are due or that
a free choice lets happen in it (R22, R102, R117), which of them a unit in reset, without a clock, or waiting for an event queue holds back
(R382, R432, R440), and soft errors (R388).
-/
namespace Sys2Proof.Machine
namespace State

/-- The cores that take part in a cycle: those that hold a group. -/
def activeCores (s : State) : List Nat :=
  ((s.groups.filter fun x => x.2.bound && !(s.cl (coreCluster (groupCore x.1))).stopped).map fun x => groupCore x.1).eraseDups

/-- Take one of the turns that are left: a free one when there are several (log entry 4). -/
def popTurn (s : State) : Option (Turn × State) :=
  match s.turns with
  | [] => none
  | [t] => some (t, { s with turns := [] })
  | t :: l =>
    let k := Config.freeNat s.draw (2 ^ 78) % (l.length + 1)
    some ((t :: l).getD k t, { s with turns := (t :: l).eraseIdx k })

/-- The clause in issue that a turn names. -/
def turnSel (s : State) (core slot : Nat) (lanes : BitVec 32) : Option Sel :=
  (s.core core).sels.find? fun y => y.slot == slot && y.lanes == lanes

/-! ## Events (R22, R35, R39, R117, R328) -/

/-- The clusters. -/
def everyCluster : List (BitVec 4) := (List.range 16).map (BitVec.ofNat 4)

/-- The events of threads. -/
def threadEvents (s : State) : List Instr :=
  s.threads.flatMap fun x =>
    (match x.2.stat with
      | .arriving => if s.mayArrive x.1 then [.phaseArrival x.1] else []
      | .trapWait _ => if s.hasOps x.1 then [] else [.trapDelivery x.1]
      | _ => []) ++
    (match x.2.halt with
      | some ⟨r, _, false⟩ => if r = 4#8 && !s.hasOps x.1 then [Instr.stepEnd x.1] else []
      | _ => [])

/-- The grants that the routers' outputs have to make. -/
def grantEvents (s : State) : List Instr :=
  if s.routers.isEmpty && s.portq.isEmpty then []
  else [false, true].flatMap fun reply => (List.range 16).flatMap fun c => (List.range 6).filterMap fun o =>
    if (s.headsAt reply c).any (fun h => h.2.2.out == o) ||
        (o == 5 && (State.portsAt c).any fun p => [false, true].any fun m => channels.any fun v => !(mget [] s.portq (portKey p m v)).isEmpty)
    then some (.routerGrant reply (BitVec.ofNat 4 c) (BitVec.ofNat 3 o)) else none

/-- A bank that owes eight refreshes is refreshed before anything else reaches it (R417). -/
def lateRefreshes (s : State) : List Instr :=
  if s.cycle % 14040 ≠ 0 then []
  else everyCluster.flatMap fun c => (List.range 1024).filterMap fun k =>
    if 8 ≤ s.refreshOwed (s.slice c.toNat) k then some (Instr.refresh c (BitVec.ofNat 6 (k / 16)) (BitVec.ofNat 4 k)) else none

/-- The events that are due in this cycle. -/
def dueEvents (s : State) : List Instr :=
  let window := if [24, 80, 136, 192, 248].contains (s.cycle % 65536) then [Instr.sluice] else []
  let clusters := everyCluster.flatMap fun c =>
    let x := s.cl c.toNat
    let y := s.slice c.toNat
    (if s.mayAdvance c.toNat then [Instr.clusterAdvance c] else []) ++
    (match x.strag with
      | some k => if !x.stragged && x.res.stragt != 0#16 && decide (k + 1024 * x.res.stragt.toNat ≤ s.cycle) then [.stragglerTimeout c]
        else []
      | none => []) ++
    (x.qtimers.filterMap fun q => if q.2 ≤ s.cycle then some (.graphQueueTimeout c (BitVec.ofNat 16 q.1)) else none) ++
    (if x.harpQ.isEmpty || !s.bowOpen c.toNat then [] else [.harpCheck c]) ++
    (if y.hot then [.rehashThreshold c] else []) ++
    (if s.cycle / 2 ^ 20 ≠ y.window then [.conflictWindow c] else [])
  let frames := s.frames.filterMap fun f => if f.due ≤ s.cycle then some (Instr.fixedLatencyRelease f.id) else none
  let xfers := s.xfers.filterMap fun x =>
    if !x.foreign && !x.late && decide (x.since + 2 ^ 24 ≤ s.cycle) && x.pos != .held then some (Instr.exchangeTimeout x.id) else none
  let saves := (s.regions.filter s.maySave).map fun r => Instr.save r.rcb
  window ++ clusters ++ frames ++ xfers ++ saves ++ s.threadEvents ++ s.grantEvents

/-- What the head of a course's queue would perform. -/
def performEvent (k : Nat) (o : HarpOp) : List Instr :=
  let c := BitVec.ofNat 4 (k / 8)
  let n := BitVec.ofNat 3 k
  match o with
  | .mlda _ _ _ => [.mldaPerform c n]
  | .mldb _ _ _ _ => [.mldbPerform c n]
  | .mmul _ _ => [.mmulPerform c n]
  | .mmac _ _ => [.mmacPerform c n]
  | .mdist _ _ _ _ => [.mdistPerform c n]
  | .mtopk _ _ _ => [.mtopkPerform c n]
  | .macc _ _ => [.maccPerform c n]
  | .mstc _ _ => [.mstcPerform c n]
  | .push _ => []

/-- An idle bank of a slice pays a refresh that it owes (R417). DEDUCED: log entry 68. -/
def idleRefresh (s : State) (c : BitVec 4) : List Instr :=
  let k := Config.freeNat s.draw (2 ^ 144 + c.toNat) % 1024
  if 0 < s.refreshOwed (s.slice c.toNat) k then [.refresh c (BitVec.ofNat 6 (k / 16)) (BitVec.ofNat 4 k)] else []

/-- The scrubber of a slice comes to a burst; what it finds there is free, but for a stored error (R419). DEDUCED: log entry 25. -/
def idleScrub (s : State) (c : BitVec 4) : Instr :=
  let n := Config.freeNat s.draw (2 ^ 144 + 16 + c.toNat)
  .scrub c (n % 2 == 1) (n / 6) ([ScrubFind.clean, .corrected, .uncorrectable].getD (n / 2 % 3) .clean)

/-- The events that may happen in any cycle from now on. DEDUCED: log entry 78. -/
def openEvents (s : State) : List Instr :=
  let ops := s.ops.filterMap fun o => match o.kind with
    | .ldx _ _ _ _ _ => some (Instr.ldxCompletion o.id)
    | k => if if k.atOnce then o.done else s.mayBegin o then some (.resultCompletion o.id) else none
  let copies := s.copyq.map fun q => Instr.copyCompletion (BitVec.ofNat 4 (q.1 / 4)) (BitVec.ofNat 2 q.1)
  let accepts := s.cores.flatMap fun k => k.2.sels.zipIdx.filterMap fun y => match y.1.held with
    | .copy _ _ _ _ => some (Instr.copyAcceptance k.1 y.2)
    | _ => none
  let harps := s.courses.flatMap fun k => match s.harpHead k.1 with
    | some (_, o) => performEvent k.1 o.op
    | none => []
  let xfers := s.xfers.filterMap fun x => match x.pos with
    | .arrived => some (if x.ring then Instr.ringMessageDelivery x.id else .requestAtDestination x.id)
    | .back | .away => some (.replyArrival x.id)
    | _ => none
  let drains := if s.portDrain.isEmpty && s.portq.isEmpty then [] else (List.range 24).map fun p => Instr.ndonarDrain (BitVec.ofNat 5 p)
  let slices := everyCluster.flatMap fun c =>
    (if (s.slice c.toNat).busy then [Instr.rehashUnitMove c] else []) ++
    (if (s.slice c.toNat).spState = 1#2 then [.spareRemap c] else []) ++ s.idleRefresh c ++ [s.idleScrub c]
  ops ++ copies ++ accepts ++ harps ++ xfers ++ drains ++ slices ++ (if s.wtSync then [.wtsyncCompletion] else [])

/-- A free order of some events. -/
def shuffled (s : State) : (n : Nat) → List Instr → List Instr
  | _, [] => []
  | n, e :: l =>
    let r := s.shuffled (n + 1) l
    let k := Config.freeNat s.draw (2 ^ 97 + n) % (r.length + 1)
    r.take k ++ e :: r.drop k

/-- The events of a new cycle: those that are due, those of the others that a free choice lets happen, and what comes from outside.
DESIGN CHOICE: log entry 14. -/
def cycleEvents (s : State) : List Instr :=
  let free := (s.openEvents.zipIdx.filter fun e => s.flip (2 ^ 98 + e.2)).map (·.1)
  let starts := s.pending.flatMap fun p => if 4096 ≤ p.1 then s.startEvent p.1 p.2.1 else s.groupEvent p.1 p.2.1
  s.lateRefreshes ++ starts ++ s.shuffled 0 (s.dueEvents ++ free ++ (s.inputs.filter fun x => decide (x.1 ≤ s.cycle)).map (·.2))

/-! ## Soft errors (R277, R388) -/

/-- A stored error that waits for its consumer. -/
def spoil (s : State) (code : BitVec 8) (place : Nat) : State :=
  if s.latent.contains ⟨code, place⟩ then s else { s with latent := s.latent ++ [⟨code, place⟩] }

/-- A bit flips in a panel that a course holds: in an element's code, or in a checksum column (R277). DEDUCED: log entry 42. -/
def spoilPanel (s : State) (n e : Nat) : State :=
  let all := s.courses.flatMap fun x => x.2.panels.filterMap fun p => p.2.map fun q => (x.1, p.1, q)
  match all[n % (all.length + 1)]? with
  | none => s
  | some (k, j, q) =>
    let q := if e % 2 = 0 then
        let key := e / 2 % 65536
        { q with elems := mset 0 q.elems key (mget 0 q.elems key ^^^ (1#32 <<< (e / 2 ^ 17 % fmtWidth (tagFmt q.tag)))) }
      else
        let key := e / 2 % 1024
        { q with sums := mset 0 q.sums key (mget 0 q.sums key + 2 ^ (e / 2 ^ 11 % 32)) }
    let x := s.course k
    s.setCourse k { x with panels := mset none x.panels j (some q) }

/-- In a free cycle a soft error that cannot be corrected arises in a free place of a free array (R388). DEDUCED: log entry 25. -/
def softError (s : State) : State :=
  if !s.flip (2 ^ 143) then s
  else
    let n := Config.freeNat s.draw (2 ^ 143 + 1)
    let e := Config.freeNat s.draw (2 ^ 143 + 2)
    match Config.freeNat s.draw (2 ^ 143) % 9 with
    | 0 => match s.threads[n % (s.threads.length + 1)]? with
      | some t => s.spoil 1 (128 * t.1 + e % 128)
      | none => s
    | 1 => match s.groups[n % (s.groups.length + 1)]? with
      | some g => s.spoil 1 (128 * (200000 + g.1) + e % 32)
      | none => s
    | 2 => s.spoil 2 (e % 2 ^ 26)
    | 3 => match s.threads[n % (s.threads.length + 1)]? with
      | some t => s.spoil 4 t.1
      | none => s
    | 4 => s.spoil 5 (e % 2048)
    | 5 => s.spoilPanel n e
    | 6 => match s.xfers[n % (s.xfers.length + 1)]? with
      | some x => s.spoil 6 x.id
      | none => s
    | 7 => s.spoil 7 (e % (0xC000000000 / 32))
    | _ => s.spoil 8 (0x10000000000 / 32 + e % (0x18000000000 / 32))

/-- The scratchpad's scrubber may come to a word with a stored error, which posts a scrub-error event (R388). DEDUCED: log entry 25. -/
def scrubPad (s : State) : State :=
  match s.latent.find? fun l => l.code == 2#8 with
  | some l =>
    if s.flip (2 ^ 143 + 3) then
      s.post false (evRecord s.cycle 18 (l.place / 2 ^ 22 % 16) 0 0 0xFFFF 0 2 (8 * l.place) 0 0 0)
    else s
  | none => s

/-! ## What an event waits for (R382, R432, R440) -/

/-- The cluster of the unit in which an event happens, if it happens in one. -/
def eventCluster (s : State) : Instr → Option Nat
  | .phaseArrival t | .trapDelivery t | .stepEnd t => some (coreCluster (groupCore (threadGroup t)))
  | .copyAcceptance core _ | .issueOpportunity core => some (coreCluster core)
  | .resultCompletion op | .ldxCompletion op =>
    (s.ops.find? fun o => o.id == op).map fun o => coreCluster (groupCore o.group)
  | .copyCompletion c _ | .mldbPerform c _ | .mldaPerform c _ | .mmulPerform c _ | .mmacPerform c _ | .mdistPerform c _
  | .mtopkPerform c _ | .maccPerform c _ | .mstcPerform c _ | .harpCheck c | .clusterAdvance c | .stragglerTimeout c
  | .regionStart c _ | .regionResume c _ _ | .ukind _ c _ | .hashReq _ c _ | .rehashThreshold c | .rehashUnitMove c | .spareGo _ c _
  | .spareRemap c | .refresh c _ _ | .scrub c _ _ _ | .routerGrant _ c _ | .graphQueueTimeout c _ | .conflictWindow c => some c.toNat
  | .groupStart rec _ => some (bindCluster rec.toNat)
  | .requestAtDestination x | .ringMessageDelivery x => (s.xfer x).map (·.cluster)
  | .replyArrival x => (s.xfer x).map fun y => coreCluster (groupCore y.group)
  | .ndonarDrain p => some (Config.portCluster p.toNat).toNat
  | .ingressCheck p => some (Config.portCluster p.port.toNat).toNat
  | .ethernetFrameReceive p _ _ => some (Config.portCluster (24 + p.toNat)).toNat
  | _ => none

/-- Whether management core 0 alone does an event: before the boot releases the other agents, nothing else happens (R432). -/
def coreZero : Instr → Bool
  | .deviceReset _ _ | .attestationQuote _ | .queueHeadAdvance (.eventQueue true) _ | .wtsyncCompletion | .thermalTrip _ => true
  | .bindgo mc _ | .preempt mc _ | .wtsync mc _ | .systemRegisterWrite mc _ _ | .ukind mc _ _ | .hashReq mc _ _ | .spareGo mc _ _ =>
    mc == 0#2
  | _ => false

/-- Whether a record of one of some types from a cluster's units, or from anywhere, waits for room in an event queue (R382). -/
def owesEvent (s : State) (types : List Nat) (c : Option Nat) : Bool :=
  s.evWait.any fun e => types.contains (bits e.2.toNat 7 0) && (match c with
    | none => true
    | some c => bits e.2.toNat 11 8 == c)

/-- Whether the source of an event still waits for room for an earlier one (R382). DEDUCED: log entry 61. -/
def sourceOwes (s : State) (e : Instr) : Bool :=
  if s.evWait.isEmpty then false
  else match e with
  | .bindgo _ _ | .groupStart _ _ | .regionStart _ _ | .regionResume _ _ _ => s.owesEvent [11] none
  | .preempt _ _ => s.owesEvent [13] none
  | .copyAcceptance k _ => s.owesEvent [6] (some (coreCluster k))
  | .copyCompletion c _ => s.owesEvent [6] (some c.toNat)
  | .mldbPerform c _ | .mldaPerform c _ | .mmulPerform c _ | .mmacPerform c _ | .mdistPerform c _ | .mtopkPerform c _ | .maccPerform c _
  | .mstcPerform c _ => s.owesEvent [6, 9] (some c.toNat)
  | .graphQueueTimeout c _ => s.owesEvent [14] (some c.toNat)
  | .scrub c _ _ _ => s.owesEvent [18] (some c.toNat)
  | .queueHeadAdvance .launchQueue _ => s.owesEvent [19] none
  | _ => false

/-- Whether an event may happen: its unit is out of reset and has its clock (R432, R440). -/
def eventOn (s : State) (e : Instr) : Bool :=
  (s.boot.released || coreZero e) && !(s.eventCluster e).any fun c => (s.cl c).stopped

/-- An event whose source waits comes again in the next cycle, when it came from outside; the machine's own arise again. -/
def deferEvent (s : State) (e : Instr) : State :=
  match e with
  | .bindgo _ _ | .preempt _ _ | .queueHeadAdvance _ _ =>
    { s with inputs := s.inputs ++ [(s.cycle + 1, e)] }
  | _ => s

/-! ## A new cycle -/

/-- Region ends that waited for room in the event queue (R359, R382). -/
def endRegions (s : State) : State := s.regions.foldl (fun s x => s.regionEnd x.rcb (x.clusters.headD 0)) s

/-- A new cycle begins: stop signals travel, frames land, soft errors arise; held transfers, retirements and region ends that nothing holds
any more go on; the events of this cycle come, then the turns of the cores. -/
def tick (s : State) : State :=
  let s := { s with cycle := s.cycle + 1 }
  let s := s.frames.foldl (fun s f => s.landFrame f) s.updateStops
  let s := s.softError.scrubPad
  let s := injectHeld s.xfers s.retireHeld.endRegions
  { s with
    turns := s.activeCores.map .select, agenda := s.cycleEvents, inputs := s.inputs.filter fun x => decide (s.cycle < x.1) }

/-- The state in which a step acts: a new draw of free values. -/
def draws (s : State) : State := { s with draw := s.draw + 1 }

end State
end Sys2Proof.Machine
end

