-- ==== Sys2Proof/Machine/Dispatch.lean ====
section
/-!
DEFINITION. The dispatch: one arm per constructor of `Instr`, each one call of the meaning of that instruction or event.
-/
namespace Sys2Proof.Machine

/-- The meaning of an instruction or event. -/
def exec (i : Instr) (s : State) : Host.Outcome State Fault Refusal :=
  match i with
  | .nop c => Sys2Proof.Machine.execNop c s
  | .bra c off => Sys2Proof.Machine.execBra c off s
  | .brx c a => Sys2Proof.Machine.execBrx c a s
  | .call c link off => Sys2Proof.Machine.execCall c link off s
  | .callIndirect c link a => Sys2Proof.Machine.execCallIndirect c link a s
  | .ret c a => Sys2Proof.Machine.execRet c a s
  | .exit c => Sys2Proof.Machine.execExit c s
  | .reconv c => Sys2Proof.Machine.execReconv c s
  | .yield c => Sys2Proof.Machine.execYield c s
  | .phase c gmask word2 => Sys2Proof.Machine.execPhase c gmask word2 s
  | .idem c => Sys2Proof.Machine.execIdem c s
  | .trap c code => Sys2Proof.Machine.execTrap c code s
  | .brk c code => Sys2Proof.Machine.execBrk c code s
  | .add c t d a b => Sys2Proof.Machine.execAdd c t d a b s
  | .sub c t d a b => Sys2Proof.Machine.execSub c t d a b s
  | .mul c t d a b => Sys2Proof.Machine.execMul c t d a b s
  | .mulh c t d a b => Sys2Proof.Machine.execMulh c t d a b s
  | .mad c t d a b x => Sys2Proof.Machine.execMad c t d a b x s
  | .min c t d a b => Sys2Proof.Machine.execMin c t d a b s
  | .max c t d a b => Sys2Proof.Machine.execMax c t d a b s
  | .abs c t d a => Sys2Proof.Machine.execAbs c t d a s
  | .neg c t d a => Sys2Proof.Machine.execNeg c t d a s
  | .and c t d a b => Sys2Proof.Machine.execAnd c t d a b s
  | .or c t d a b => Sys2Proof.Machine.execOr c t d a b s
  | .xor c t d a b => Sys2Proof.Machine.execXor c t d a b s
  | .andn c t d a b => Sys2Proof.Machine.execAndn c t d a b s
  | .not c t d a => Sys2Proof.Machine.execNot c t d a s
  | .shl c t d a b => Sys2Proof.Machine.execShl c t d a b s
  | .shr c t d a b => Sys2Proof.Machine.execShr c t d a b s
  | .sar c t d a b => Sys2Proof.Machine.execSar c t d a b s
  | .rol c t d a b => Sys2Proof.Machine.execRol c t d a b s
  | .popc c t d a => Sys2Proof.Machine.execPopc c t d a s
  | .clz c t d a => Sys2Proof.Machine.execClz c t d a s
  | .brev c t d a => Sys2Proof.Machine.execBrev c t d a s
  | .bfx c t d a b => Sys2Proof.Machine.execBfx c t d a b s
  | .bfi c t d a b x => Sys2Proof.Machine.execBfi c t d a b x s
  | .sel c t d a b p => Sys2Proof.Machine.execSel c t d a b p s
  | .mov c t d a => Sys2Proof.Machine.execMov c t d a s
  | .movl c d value => Sys2Proof.Machine.execMovl c d value s
  | .cmp c k t d a b => Sys2Proof.Machine.execCmp c k t d a b s
  | .plop c op d a b na nb => Sys2Proof.Machine.execPlop c op d a b na nb s
  | .rds c d r => Sys2Proof.Machine.execRds c d r s
  | .wrs c r a => Sys2Proof.Machine.execWrs c r a s
  | .shfl c m t d a b => Sys2Proof.Machine.execShfl c m t d a b s
  | .bcast c t d a b => Sys2Proof.Machine.execBcast c t d a b s
  | .vote c f => Sys2Proof.Machine.execVote c f s
  | .matchLanes c t d a => Sys2Proof.Machine.execMatchLanes c t d a s
  | .scan c op t exc d a => Sys2Proof.Machine.execScan c op t exc d a s
  | .redux c op t d a => Sys2Proof.Machine.execRedux c op t d a s
  | .fadd c f r d a b => Sys2Proof.Machine.execFadd c f r d a b s
  | .fsub c f r d a b => Sys2Proof.Machine.execFsub c f r d a b s
  | .fmul c f r d a b => Sys2Proof.Machine.execFmul c f r d a b s
  | .ffma c f r d a b x => Sys2Proof.Machine.execFfma c f r d a b x s
  | .fmin c f d a b => Sys2Proof.Machine.execFmin c f d a b s
  | .fmax c f d a b => Sys2Proof.Machine.execFmax c f d a b s
  | .famax c f d a b => Sys2Proof.Machine.execFamax c f d a b s
  | .fcmp c k f d a b => Sys2Proof.Machine.execFcmp c k f d a b s
  | .frcp c f r d a => Sys2Proof.Machine.execFrcp c f r d a s
  | .frsq c f r d a => Sys2Proof.Machine.execFrsq c f r d a s
  | .fsqrt c f r d a => Sys2Proof.Machine.execFsqrt c f r d a s
  | .fexp2 c f d a => Sys2Proof.Machine.execFexp2 c f d a s
  | .flog2 c f d a => Sys2Proof.Machine.execFlog2 c f d a s
  | .ftanh c f d a => Sys2Proof.Machine.execFtanh c f d a s
  | .fred c op f r d a => Sys2Proof.Machine.execFred c op f r d a s
  | .fcvt c f r sat d a k => Sys2Proof.Machine.execFcvt c f r sat d a k s
  | .icvt c f r toFloat narrow d a k => Sys2Proof.Machine.execIcvt c f r toFloat narrow d a k s
  | .fpack c d a b => Sys2Proof.Machine.execFpack c d a b s
  | .funpk c d a k => Sys2Proof.Machine.execFunpk c d a k s
  | .vmov c d a => Sys2Proof.Machine.execVmov c d a s
  | .vtag c f cb d a => Sys2Proof.Machine.execVtag c f cb d a s
  | .vretag c f cb d a => Sys2Proof.Machine.execVretag c f cb d a s
  | .seed c a => Sys2Proof.Machine.execSeed c a s
  | .scale c f d a => Sys2Proof.Machine.execScale c f d a s
  | .qnt c f r sat d a sc => Sys2Proof.Machine.execQnt c f r sat d a sc s
  | .dqnt c f r d a => Sys2Proof.Machine.execDqnt c f r d a s
  | .cbld c cb a b => Sys2Proof.Machine.execCbld c cb a b s
  | .cbenc c d a cb => Sys2Proof.Machine.execCbenc c d a cb s
  | .ld c t o sc d b idx => Sys2Proof.Machine.execLd c t o sc d b idx s
  | .st c t o sc b idx x => Sys2Proof.Machine.execSt c t o sc b idx x s
  | .lds c t o sc d a => Sys2Proof.Machine.execLds c t o sc d a s
  | .sts c t o sc a x => Sys2Proof.Machine.execSts c t o sc a x s
  | .ldx c t n b idx x => Sys2Proof.Machine.execLdx c t n b idx x s
  | .tld c d h xy => Sys2Proof.Machine.execTld c d h xy s
  | .tst c h xy x => Sys2Proof.Machine.execTst c h xy x s
  | .pref c t b idx => Sys2Proof.Machine.execPref c t b idx s
  | .brld c d a off => Sys2Proof.Machine.execBrld c d a off s
  | .fence c k sc => Sys2Proof.Machine.execFence c k sc s
  | .vfence c sc => Sys2Proof.Machine.execVfence c sc s
  | .lfence c => Sys2Proof.Machine.execLfence c s
  | .aadd c t o sc d a x => Sys2Proof.Machine.execAadd c t o sc d a x s
  | .afadd c t o sc d a x => Sys2Proof.Machine.execAfadd c t o sc d a x s
  | .amin c t o sc d a x => Sys2Proof.Machine.execAmin c t o sc d a x s
  | .amax c t o sc d a x => Sys2Proof.Machine.execAmax c t o sc d a x s
  | .afmax c o sc d a x => Sys2Proof.Machine.execAfmax c o sc d a x s
  | .aand c t o sc d a x => Sys2Proof.Machine.execAand c t o sc d a x s
  | .aor c t o sc d a x => Sys2Proof.Machine.execAor c t o sc d a x s
  | .axor c t o sc d a x => Sys2Proof.Machine.execAxor c t o sc d a x s
  | .axchg c t o sc d a x => Sys2Proof.Machine.execAxchg c t o sc d a x s
  | .acas c t o sc d a x => Sys2Proof.Machine.execAcas c t o sc d a x s
  | .amaxrst c t o sc d a x => Sys2Proof.Machine.execAmaxrst c t o sc d a x s
  | .aincw c t o sc d a x => Sys2Proof.Machine.execAincw c t o sc d a x s
  | .cpy c n a => Sys2Proof.Machine.execCpy c n a s
  | .cpyw c t sc a w x => Sys2Proof.Machine.execCpyw c t sc a w x s
  | .qfence c mask => Sys2Proof.Machine.execQfence c mask s
  | .bari c n count => Sys2Proof.Machine.execBari c n count s
  | .bara c n => Sys2Proof.Machine.execBara c n s
  | .barw c n => Sys2Proof.Machine.execBarw c n s
  | .waita c t sc d a x => Sys2Proof.Machine.execWaita c t sc d a x s
  | .gfetch c f d h xy => Sys2Proof.Machine.execGfetch c f d h xy s
  | .ginv c sc => Sys2Proof.Machine.execGinv c sc s
  | .mrgopen c float a => Sys2Proof.Machine.execMrgopen c float a s
  | .mrgpull c d => Sys2Proof.Machine.execMrgpull c d s
  | .mrgclose c => Sys2Proof.Machine.execMrgclose c s
  | .emit c q a => Sys2Proof.Machine.execEmit c q a s
  | .launch c a => Sys2Proof.Machine.execLaunch c a s
  | .sample c tag => Sys2Proof.Machine.execSample c tag s
  | .tsend c course x => Sys2Proof.Machine.execTsend c course x s
  | .trecv c d course => Sys2Proof.Machine.execTrecv c d course s
  | .tzero c f d => Sys2Proof.Machine.execTzero c f d s
  | .tmov c d a => Sys2Proof.Machine.execTmov c d a s
  | .ttrn c d a => Sys2Proof.Machine.execTtrn c d a s
  | .tscl c f r sat d a e => Sys2Proof.Machine.execTscl c f r sat d a e s
  | .mlda c course h xy => Sys2Proof.Machine.execMlda c course h xy s
  | .mldb c course h xy slot => Sys2Proof.Machine.execMldb c course h xy slot s
  | .mmul c course f => Sys2Proof.Machine.execMmul c course f s
  | .mmac c course f => Sys2Proof.Machine.execMmac c course f s
  | .mdist c course h f => Sys2Proof.Machine.execMdist c course h f s
  | .mtopk c course km1 wm1 max => Sys2Proof.Machine.execMtopk c course km1 wm1 max s
  | .macc c course h xy => Sys2Proof.Machine.execMacc c course h xy s
  | .mstc c course h xy => Sys2Proof.Machine.execMstc c course h xy s
  | .mwait c mask => Sys2Proof.Machine.execMwait c mask s
  | .mchk c d course => Sys2Proof.Machine.execMchk c d course s
  | .deref c d a => Sys2Proof.Machine.execDeref c d a s
  | .unify c d a b => Sys2Proof.Machine.execUnify c d a b s
  | .bind c a b => Sys2Proof.Machine.execBind c a b s
  | .mkvar c d => Sys2Proof.Machine.execMkvar c d s
  | .mkstr c d a => Sys2Proof.Machine.execMkstr c d a s
  | .tagof c d a => Sys2Proof.Machine.execTagof c d a s
  | .chpt c n off => Sys2Proof.Machine.execChpt c n off s
  | .fail c => Sys2Proof.Machine.execFail c s
  | .cut c a => Sys2Proof.Machine.execCut c a s
  | .ovpub c sc d => Sys2Proof.Machine.execOvpub c sc d s
  | .bmand c d a b => Sys2Proof.Machine.execBmand c d a b s
  | .popcp c d a b => Sys2Proof.Machine.execPopcp c d a b s
  | .isect c hi d p a b => Sys2Proof.Machine.execIsect c hi d p a b s
  | .rebal c d a b => Sys2Proof.Machine.execRebal c d a b s
  | .cmpk c a x p => Sys2Proof.Machine.execCmpk c a x p s
  | .expnd c d p b a => Sys2Proof.Machine.execExpnd c d p b a s
  | .xwrite c t o sc d a r x => Sys2Proof.Machine.execXwrite c t o sc d a r x s
  | .xread c t o sc d a r => Sys2Proof.Machine.execXread c t o sc d a r s
  | .xsend c d r q x nm1 => Sys2Proof.Machine.execXsend c d r q x nm1 s
  | .xfence c k sc => Sys2Proof.Machine.execXfence c k sc s
  | .rtxy c tc d a k => Sys2Proof.Machine.execRtxy c tc d a k s
  | .rtchk c d a => Sys2Proof.Machine.execRtchk c d a s
  | .ringpoll c d a => Sys2Proof.Machine.execRingpoll c d a s
  | .ringadv c a n => Sys2Proof.Machine.execRingadv c a n s
  | .ringwait c d a => Sys2Proof.Machine.execRingwait c d a s
  | .sysrd c d n => Sys2Proof.Machine.execSysrd c d n s
  | .syswr c n a => Sys2Proof.Machine.execSyswr c n a s
  | .eret c => Sys2Proof.Machine.execEret c s
  | .tlbinv c m a b => Sys2Proof.Machine.execTlbinv c m a b s
  | .halt c code => Sys2Proof.Machine.execHalt c code s
  | .phaseArrival t => Sys2Proof.Machine.execPhaseArrival t s
  | .copyAcceptance core sel => Sys2Proof.Machine.execCopyAcceptance core sel s
  | .copyCompletion cl q => Sys2Proof.Machine.execCopyCompletion cl q s
  | .mldbPerform cl n => Sys2Proof.Machine.execMldbPerform cl n s
  | .mldaPerform cl n => Sys2Proof.Machine.execMldaPerform cl n s
  | .mmulPerform cl n => Sys2Proof.Machine.execMmulPerform cl n s
  | .mmacPerform cl n => Sys2Proof.Machine.execMmacPerform cl n s
  | .mdistPerform cl n => Sys2Proof.Machine.execMdistPerform cl n s
  | .mtopkPerform cl n => Sys2Proof.Machine.execMtopkPerform cl n s
  | .maccPerform cl n => Sys2Proof.Machine.execMaccPerform cl n s
  | .mstcPerform cl n => Sys2Proof.Machine.execMstcPerform cl n s
  | .harpCheck cl => Sys2Proof.Machine.execHarpCheck cl s
  | .issueOpportunity core => Sys2Proof.Machine.execIssueOpportunity core s
  | .resultCompletion op => Sys2Proof.Machine.execResultCompletion op s
  | .trapDelivery t => Sys2Proof.Machine.execTrapDelivery t s
  | .faultReply w => Sys2Proof.Machine.execFaultReply w s
  | .killPort w => Sys2Proof.Machine.execKillPort w s
  | .clusterAdvance cl => Sys2Proof.Machine.execClusterAdvance cl s
  | .stragglerTimeout cl => Sys2Proof.Machine.execStragglerTimeout cl s
  | .bindgo mc w => Sys2Proof.Machine.execBindgo mc w s
  | .groupStart rec base => Sys2Proof.Machine.execGroupStart rec base s
  | .regionStart cl bases => Sys2Proof.Machine.execRegionStart cl bases s
  | .regionResume cl bases wgBases => Sys2Proof.Machine.execRegionResume cl bases wgBases s
  | .preempt mc w => Sys2Proof.Machine.execPreempt mc w s
  | .save rcb => Sys2Proof.Machine.execSave rcb s
  | .wtsync mc w => Sys2Proof.Machine.execWtsync mc w s
  | .wtsyncCompletion => Sys2Proof.Machine.execWtsyncCompletion s
  | .systemRegisterWrite mc a w => Sys2Proof.Machine.execSystemRegisterWrite mc a w s
  | .attach mc cmd data => Sys2Proof.Machine.execAttach mc cmd data s
  | .debugHalt mc cmd data => Sys2Proof.Machine.execDebugHalt mc cmd data s
  | .resume mc cmd data => Sys2Proof.Machine.execResume mc cmd data s
  | .step mc cmd data => Sys2Proof.Machine.execStep mc cmd data s
  | .stepEnd t => Sys2Proof.Machine.execStepEnd t s
  | .read mc cmd data => Sys2Proof.Machine.execRead mc cmd data s
  | .write mc cmd data => Sys2Proof.Machine.execWrite mc cmd data s
  | .revoke mc cmd data => Sys2Proof.Machine.execRevoke mc cmd data s
  | .mread mc cmd data => Sys2Proof.Machine.execMread mc cmd data s
  | .mwrite mc cmd data => Sys2Proof.Machine.execMwrite mc cmd data s
  | .retireCourse w => Sys2Proof.Machine.execRetireCourse w s
  | .retireCore w => Sys2Proof.Machine.execRetireCore w s
  | .retirePseudoChannel w => Sys2Proof.Machine.execRetirePseudoChannel w s
  | .retireLink w => Sys2Proof.Machine.execRetireLink w s
  | .retirePort w => Sys2Proof.Machine.execRetirePort w s
  | .retireCluster w => Sys2Proof.Machine.execRetireCluster w s
  | .ukind mc cl w => Sys2Proof.Machine.execUkind mc cl w s
  | .hashReq mc cl w => Sys2Proof.Machine.execHashReq mc cl w s
  | .rehashThreshold cl => Sys2Proof.Machine.execRehashThreshold cl s
  | .rehashUnitMove cl => Sys2Proof.Machine.execRehashUnitMove cl s
  | .spareGo mc cl w => Sys2Proof.Machine.execSpareGo mc cl w s
  | .spareRemap cl => Sys2Proof.Machine.execSpareRemap cl s
  | .refresh cl pc bank => Sys2Proof.Machine.execRefresh cl pc bank s
  | .scrub cl secondTier burst found => Sys2Proof.Machine.execScrub cl secondTier burst found s
  | .routerGrant reply cl out => Sys2Proof.Machine.execRouterGrant reply cl out s
  | .sluice => Sys2Proof.Machine.execSluice s
  | .ndonarDrain port => Sys2Proof.Machine.execNdonarDrain port s
  | .requestAtDestination x => Sys2Proof.Machine.execRequestAtDestination x s
  | .replyArrival x => Sys2Proof.Machine.execReplyArrival x s
  | .exchangeTimeout x => Sys2Proof.Machine.execExchangeTimeout x s
  | .ringMessageDelivery x => Sys2Proof.Machine.execRingMessageDelivery x s
  | .ingressCheck p => Sys2Proof.Machine.execIngressCheck p s
  | .ethernetFrameReceive port frame fcsGood => Sys2Proof.Machine.execEthernetFrameReceive port frame fcsGood s
  | .fixedLatencyRelease x => Sys2Proof.Machine.execFixedLatencyRelease x s
  | .linkDown cl dir => Sys2Proof.Machine.execLinkDown cl dir s
  | .graphQueueTimeout cl q => Sys2Proof.Machine.execGraphQueueTimeout cl q s
  | .deviceReset ports mailbox => Sys2Proof.Machine.execDeviceReset ports mailbox s
  | .attestationQuote nonce => Sys2Proof.Machine.execAttestationQuote nonce s
  | .thermalTrip die => Sys2Proof.Machine.execThermalTrip die s
  | .ldxCompletion op => Sys2Proof.Machine.execLdxCompletion op s
  | .queueHeadAdvance h head => Sys2Proof.Machine.execQueueHeadAdvance h head s
  | .conflictWindow cl => Sys2Proof.Machine.execConflictWindow cl s

end Sys2Proof.Machine
end

