-- ==== Sys2Proof/Machine/Step.lean ====
section
/-!
DEFINITION. One step of the machine: the next event of the agenda, or else one turn of a core (a selection, or one word), or
else the start of the next cycle.
-/
namespace Sys2Proof.Machine

/-- Run the next word of a clause in issue. -/
def stepWord (s : State) (core : Nat) (y : Sel) : Host.Outcome State Fault Refusal :=
  let s := { s with cur := y.cur core }
  match y.held with
  | .bounds line => (s.boundsWord line).out
  | _ =>
    match s.nextInstr y core with
    | .error k => (s.badWord k).out
    | .ok i => exec i s

/-- Take one turn of a core. -/
def stepTurn (s : State) : Turn → Host.Outcome State Fault Refusal
  | .select core => exec (.issueOpportunity core) s
  | .issue core slot lanes =>
    match s.turnSel core slot lanes with
    | none => .next s
    | some y => stepWord s core y

/-- One step. DESIGN CHOICE: log entry 79. -/
def step (s : State) : Host.Outcome State Fault Refusal :=
  let s := s.draws
  match s.agenda with
  | e :: r =>
    let s := { s with agenda := r }
    if e.wf || !s.eventOn e then .next s else if s.sourceOwes e then .next (s.deferEvent e) else exec e s
  | [] =>
    match s.popTurn with
    | some (t, s) => stepTurn s t
    | none => s.tick.out

/-- The state with the clause of a table word in issue on group slot 0 of core 0 of cluster 0, or on its bow for class 5, in a
superstep that the word's class may run in, so that the next step decodes and runs its first word. It stands for the selection of that
clause (R22); the words are those the fetch of R371 would have delivered. DESIGN CHOICE: log entry 12.
DESIGN CHOICE: log entry 13. -/
def State.withFetchWord (s : State) (nbits w : Nat) : State :=
  let w := w % 2 ^ nbits
  let header := BitVec.ofNat 64 w
  let cls := bits w 59 56
  let core := if cls = 5 then 16 else 0
  let code := (List.range 16).map fun i => BitVec.ofNat 64 (w >>> (64 * (i + 1)))
  let sel : Sel := ⟨0, 1#32, 0, header, code, 0, s.cycle, .no⟩
  let g := 16 * core
  { s with
    boot := { s.boot with released := true }, agenda := [], turns := [.issue core 0 1#32], cores := mset CoreSt.reset s.cores core ⟨15, [sel]⟩
    groups := mset Group.free s.groups g { s.grp g with bound := true }
    threads := mset Thread.blank s.threads (tid g 0) { s.thr (tid g 0) with stat := .run, hdr := 0, word := 0 }
    clusters := mset Cluster.reset s.clusters 0 { s.cl 0 with
      region := some 0, phase := if cls = 8 then 1 else 0
      res := { (s.cl 0).res with priv := true, trapvec := 0x1000 } } }

end Sys2Proof.Machine
end

