-- ==== Sys2Proof/Safety.lean ====
section
/-!
DEFINITION. What counts as a safe run, and the words in which the statements speak of one instruction word: a word that nothing
disturbs, where its lanes go on, and what stays of the state.
-/
namespace Sys2Proof

/-- Every run from a state of at most `n` steps goes on. -/
def Safe (s : Machine.State) : Prop := ∀ n, ∃ t, core.run n s = .next t

namespace Machine

/-- NOTHING DISTURBS THE WORD IN ISSUE: its lanes run; the device has reached no address where nothing exists, no sample record is armed or open
(R254), no lane of the path has a `STRAGGLER` or a debugger halt held or is being stepped (R21, R39, R397), and the group in issue is one of the device's, a bow's path its one lane (R2, R18). -/
structure State.Calm (s : State) : Prop where
  hole    : s.hole = false
  samples : s.samples = []
  armed   : (s.grp s.curG).armed = []
  core    : s.cur.core < 272
  slot    : s.cur.slot < 16
  bow     : isBow s.cur.core = true → s.cur.lanes = 1#32
  bowSlot : isBow s.cur.core = true → s.cur.slot = 0
  runs    : ∀ i ∈ lanesOf s.cur.lanes, (s.thr (tid s.curG i)).stat = .run
  strag   : ∀ i ∈ lanesOf s.cur.lanes, (s.thr (tid s.curG i)).strag = false
  steps   : ∀ i ∈ lanesOf s.cur.lanes, (s.thr (tid s.curG i)).stepping = false
  halts   : ∀ i ∈ lanesOf s.cur.lanes, (s.thr (tid s.curG i)).haltReq = none

/-- A lane of the path goes on at a resume address; after the last word of its clause it is ready again when the stall count has
elapsed (R20, R22, R23). -/
def State.onward (s : State) (c : Ctl) (r : W64) (x : Thread) : Thread :=
  let x := x.goto r
  if s.curLast then { x with readyAt := s.cycle + c.stall.toNat + 1 } else x

/-- The thread with register writes under way, in order: each may be read from a cycle on (`ready`), or belongs to an outstanding
operation (R158, R161). -/
def Thread.write (cycle : Nat) (ready : Option Nat) (op : Nat) (w : List (RegId × RVal)) (x : Thread) : Thread :=
  w.foldl (fun x e => x.addPend cycle ⟨e.1, e.2, ready, op⟩) x

/-- Everything but the threads, the groups and the clauses in issue. -/
def State.rest (s : State) : State := { s with threads := [], groups := [], cores := [] }

/-- A group but for its current path (R28) and its energy account (R365). -/
def Group.still (x : Group) : Group := { x with cur := 0, ecnt := 0, words := [] }

/-- THE FRAME OF A WORD THAT WRITES ONLY REGISTERS OF THREADS: memory, scratchpad, workgroups, clusters and everything else of the
state stay, so do the matrix registers and all else of every group but its path and its account, and so does every thread outside the
path. -/
structure State.Frame (s u : State) : Prop where
  rest   : u.rest = s.rest
  groups : ∀ h, (u.grp h).still = (s.grp h).still
  others : ∀ t, (∀ i ∈ lanesOf s.cur.lanes, t ≠ tid s.curG i) → u.thr t = s.thr t

namespace State

/-- The end of a region in each lane that completed (R45). -/
def endOf (cycle : Nat) (next : W64) (x : Thread) : Thread :=
  (x.addPend cycle ⟨.s .re, .w next, some cycle, 0⟩).addPend cycle ⟨.s .rc, .w ((x.archW (.s .rc) + 1) &&& 0xFFFFFFFF#64), some cycle, 0⟩

/-- The counter of a word in a thread that takes part (R159). -/
def incOf (c : Ctl) (x : Thread) : Thread := match c.ctr with | none => x | some n => x.incD n

/-- The joins that an operation of a core waits for when it enters a queue (R248). -/
def joinsOf (s : State) (core : Nat) : Option Nat → List Nat
  | none => []
  | some q => (s.joins.filter fun j =>
      coreCluster j.core == coreCluster core && j.mask.getLsbD q && (q != 6 || j.core == core)).map (·.id)

/-- The operation that a word enters (R159). -/
def opOf (s : State) (g : Nat) (m : BitVec 32) (ctr : Option (BitVec 3)) (queue : Option Nat) (k : OpKind) (done : Bool) : OutOp :=
  ⟨s.nextId, g, m, ctr, s.cycle, done, queue, s.joinsOf (groupCore g) queue, k⟩

/-- The writes when lanes enter an operation: into an engine's queue, its issue passes on to it what they know (R116). -/
def enteredWrites (s : State) (g : Nat) (m : BitVec 32) (queue : Option Nat) : List WriteRec :=
  if queue.isSome then ((lanesOf m).foldl (fun u i => u.pass (.agent (tid g i)) (.op s.nextId) [(tid g i, 4)]) s).writes else s.writes

/-- What an undisturbed word with complete outcomes leaves in one of its participants: its counter has risen if it entered an
operation, its writes are under way, its region may have ended, and it goes on. -/
def laneAfter (s : State) (c : Ctl) (w : WordSpec) (op : Nat) (dest : W64) (wr : List (RegId × RVal)) (x : Thread) : Thread :=
  let x := if w.lat = none then incOf c x else x
  let x := x.write s.cycle (w.lat.map (s.cycle + ·)) op wr
  let x := if w.ends then endOf s.cycle s.curNext x else x
  s.onward c dest x

/-- What the matrix result of a word leaves in its group (R84, R445). -/
def groupAfter (s : State) (w : WordSpec) (op : Nat) (m : Option (MReg × MVal × BitVec 32)) (x : Group) : Group :=
  match m with
  | none => x
  | some (r, v, rows) => x.addPend s.cycle ⟨r, v, rows, w.lat.map (s.cycle + ·), op⟩

/-- THE WORD IN ISSUE ACTS in the lanes `p` of its path, undisturbed: the checks before it pass in every lane, its phase class is
legal, no dependency counter is full, and `p` are the lanes whose guard is true (R31, R154, R159, R163, R167). -/
def Acts (s : State) (c : Ctl) (w : WordSpec) (p : List Nat) : Prop := s.Calm ∧ s.gate c w = .go p []

/-- WHAT THE END OF A WORD IN ISSUE LEAVES, `u`, when it completes, or enters its operation, in all its participants `p`. What the action
did to the state is `a.st`; a variable-latency word has entered one operation; participant l has its writes `wr l` under way and stands
at `dest l`; the path's other lanes go on without a write; no other thread, no other matrix register and nothing else changes. -/
def Ended (s u : State) (c : Ctl) (w : WordSpec) (a : Acted) (p : List Nat) (dest : Nat → W64) (wr : Nat → List (RegId × RVal)) : Prop :=
  let op := if w.lat = none ∧ p ≠ [] then a.st.nextId else 0
  u.rest = (if w.lat = none ∧ p ≠ [] then
      { a.st.rest with
        ops := a.st.ops ++ [a.st.opOf s.curG (maskOf p) c.ctr a.queue a.kind a.done], nextId := a.st.nextId + 1
        writes := a.st.enteredWrites s.curG (maskOf p) a.queue }
    else a.st.rest) ∧
  (∀ h, (u.grp h).still = if h = s.curG then (s.groupAfter w op a.m (a.st.grp h)).still else (a.st.grp h).still) ∧
  (∀ t, (∀ l ∈ lanesOf s.cur.lanes, t ≠ tid s.curG l) → u.thr t = a.st.thr t) ∧
  (∀ l ∈ lanesOf s.cur.lanes, l ∉ p → u.thr (tid s.curG l) = s.onward c s.curNext (a.st.thr (tid s.curG l))) ∧
  (∀ l ∈ p, u.thr (tid s.curG l) = s.laneAfter c w op (dest l) (wr l) (a.st.thr (tid s.curG l)))

/-- A WORD COMPLETES, OR ENTERS ITS OPERATION, IN ALL ITS PARTICIPANTS `p`: `exec` answers a next state, as `Ended` says it. -/
def Completed (s : State) (i : Instr) (c : Ctl) (w : WordSpec) (a : Acted) (p : List Nat) (dest : Nat → W64)
    (wr : Nat → List (RegId × RVal)) : Prop :=
  ∃ u, exec i s = .next u ∧ s.Ended u c w a p dest wr

/-- A WORD ONLY WRITES REGISTERS, WITH A LATENCY: `exec` answers a next state in which participant l has the writes `wr l` under way,
readable from `lat` cycles on, and stands at `dest l`; the path's other lanes go on; everything else is as it was. -/
def Lands (s : State) (i : Instr) (c : Ctl) (p : List Nat) (lat : Nat) (dest : Nat → W64) (wr : Nat → List (RegId × RVal)) : Prop :=
  ∃ u, exec i s = .next u ∧ s.Frame u ∧
    (∀ l ∈ lanesOf s.cur.lanes, l ∉ p → u.thr (tid s.curG l) = s.onward c s.curNext (s.thr (tid s.curG l))) ∧
    (∀ l ∈ p, u.thr (tid s.curG l) =
      s.onward c (dest l) ((s.thr (tid s.curG l)).write s.cycle (some (s.cycle + lat)) 0 (wr l)))

/-- As `Lands`, every participant going on at the next word. -/
def Writes (s : State) (i : Instr) (c : Ctl) (p : List Nat) (lat : Nat) (wr : Nat → List (RegId × RVal)) : Prop :=
  s.Lands i c p lat (fun _ => s.curNext) wr

/-- A TRANSLATION CHANGES NOTHING BUT ITS CACHES: `u` is `s` but for the cached translations and table entries, and for the mark of an
address where nothing exists (R370–R375). -/
def Looked (s u : State) : Prop := u = { s with tlb := u.tlb, tabs := u.tabs, hole := u.hole }

/-- A thread that takes a trap: while one of its operations is outstanding it waits for them; then it enters its handler at TRAPVEC with
all counters zero, `g61`–`g63` saved in the hidden trap state beside the record, and the three values of the trap in them (R160,
R379). -/
def entering (s : State) (t : Nat) (i : TrapInfo) : Thread :=
  let x := s.thr t
  if s.hasOps t then { x with stat := .trapWait i }
  else
    let y := x.flush [.g 61, .g 62, .g 63]
    { y with
      stat := .run, handler := some ⟨i, mget 0 y.g 61, mget 0 y.g 62, mget 0 y.g 63⟩, d := [], waitOp := 0, drain := false
      hdr := (s.grpRes (threadGroup t)).trapvec, word := 0, readyAt := s.cycle + 1
      halt := if y.stepping then some ⟨4, 0, false⟩ else y.halt
      g := mset 0 (mset 0 (mset 0 y.g 61 i.record) 62 i.value) 63 i.resume }

/-- A trap of the lanes `p` of the path finds a handler: their region names one, and none of them is in it (R379, R380). -/
def Handled (s : State) (p : List Nat) : Prop :=
  (s.grpRes s.curG).trapvec ≠ 0 ∧ ∀ l ∈ p, (s.thr (tid s.curG l)).handler = none

/-- A WORD TRAPS in the lanes `p` of its path: `exec` answers a next state in which lane l has taken the trap `info l`, the path's other
lanes go on, and memory and the scratchpads are as they were. -/
def Traps (s : State) (i : Instr) (c : Ctl) (p : List Nat) (info : Nat → TrapInfo) : Prop :=
  ∃ u, exec i s = .next u ∧ u.mem = s.mem ∧ u.sp = s.sp ∧
    (∀ l ∈ p, u.thr (tid s.curG l) = s.entering (tid s.curG l) (info l)) ∧
    (∀ l ∈ lanesOf s.cur.lanes, l ∉ p → u.thr (tid s.curG l) = s.onward c s.curNext (s.thr (tid s.curG l)))

end State
end Machine
end Sys2Proof
end

