-- ==== Sys2Proof/Certificates/Slice0/Obligations.lean ====
section
/-!
DEFINITION. The statements for the provers. A statement about an instruction word speaks of a state whose word in issue acts undisturbed
in the lanes `p` (`State.Acts`), says that `exec` ANSWERS A NEXT STATE, and says what that state is, register by register, with its
frame (`State.Writes`, `State.Lands`, `State.Completed` of `Sys2Proof/Safety.lean`).
-/
namespace Sys2Proof.Slice0
open Machine

/-- The low w bits of a word (R185). -/
def lo (t : ITy) (x : W64) : BitVec t.width := x.setWidth t.width

/-- A result of w bits in a general register: sign-extended for `.s`, zero-extended otherwise (R185). -/
def fit (t : ITy) (v : BitVec t.width) : W64 := if t.signed then v.signExtend 64 else v.setWidth 64

/-- Whether x is less than y as a type compares (R188). -/
def less (t : ITy) (x y : BitVec t.width) : Bool := if t.signed then x.slt y else x.ult y

/-- The comparisons of a type (R188). -/
def holds (t : ITy) (x y : BitVec t.width) : CmpOp → Bool
  | .eq => x == y
  | .ne => x != y
  | .lt => less t x y
  | .le => !less t y x
  | .gt => less t y x
  | .ge => !less t x y
  | .un => false

/-- The high half of the product of 2w bits (R186). -/
def mulHigh (t : ITy) (x y : BitVec t.width) : BitVec t.width :=
  if t.signed then (x.signExtend (2 * t.width) * y.signExtend (2 * t.width)).extractLsb' t.width t.width
  else (x.setWidth (2 * t.width) * y.setWidth (2 * t.width)).extractLsb' t.width t.width

/-- The number of a shift (R186). -/
def shamt (t : ITy) (y : BitVec t.width) : Nat := y.toNat % t.width

/-- The position and the length m of the field that a descriptor names (R187). -/
def fieldPos (f : W64) : Nat := (f.extractLsb' 0 6).toNat
/-- The length of the field that a descriptor names (R187). -/
def fieldM (t : ITy) (f : W64) : Nat := if fieldPos f < t.width then min (f.extractLsb' 8 7).toNat (t.width - fieldPos f) else 0

/-- The low m bits, all ones, at a position. -/
def fieldMask (t : ITy) (f : W64) : BitVec t.width := ((BitVec.allOnes (fieldM t f)).setWidth t.width) <<< fieldPos f

/-- The field of `BFX` (R187). -/
def fieldOf (t : ITy) (x : BitVec t.width) (f : W64) : BitVec t.width :=
  let v : BitVec (fieldM t f) := x.extractLsb' (fieldPos f) (fieldM t f)
  if t.signed then v.signExtend t.width else v.setWidth t.width

/-- The value of `BFI` (R187). -/
def fieldIn (t : ITy) (x y : BitVec t.width) (f : W64) : BitVec t.width :=
  (y &&& ~~~(fieldMask t f)) ||| ((x <<< fieldPos f) &&& fieldMask t f)

/-- A source of a word in lane l of the path in issue, whole. -/
def src (s : State) (l : Nat) (a : Src) : W64 := s.src (tid s.curG l) a

/-- A source of a word in lane l of the path in issue, at the width of a type. -/
def val (s : State) (t : ITy) (l : Nat) (a : Src) : BitVec t.width := lo t (src s l a)

/-- A predicate in lane l of the path in issue. -/
def pred (s : State) (l : Nat) (a : PReg) : Bool := s.p (tid s.curG l) a

/-- The one write of a word that writes a general register. -/
def toG (d : GReg) (x : W64) : List (RegId × RVal) := [(.g d, .w x)]

/-- The one write of a word that writes a predicate. -/
def toP (d : PReg) (x : Bool) : List (RegId × RVal) := [(.p d, .p x)]

end Sys2Proof.Slice0

open Sys2Proof Sys2Proof.Machine Sys2Proof.Slice0

/-- R185, R186, the additive and logical operations: `ADD`, `SUB`, `NEG`, `AND`, `OR`, `XOR`, `ANDN` and `NOT` write, with latency 2, the
sum, difference or bitwise result of the low w bits of their sources, extended as the type says, and change nothing else. -/
def Sys2Proof.Slice0.AdditiveAndLogicalRule : Prop :=
  ∀ (s : State) (c : Ctl) (t : ITy) (d : GReg) (a b : Src) (p : List Nat), t ≠ .b128 →
    (s.Acts c (.fixA 2 (a.regs ++ b.regs)) p →
      s.Writes (.add c t d a b) c p 2 (fun l => toG d (fit t (val s t l a + val s t l b))) ∧
      s.Writes (.sub c t d a b) c p 2 (fun l => toG d (fit t (val s t l a - val s t l b))) ∧
      s.Writes (.and c t d a b) c p 2 (fun l => toG d (fit t (val s t l a &&& val s t l b))) ∧
      s.Writes (.or c t d a b) c p 2 (fun l => toG d (fit t (val s t l a ||| val s t l b))) ∧
      s.Writes (.xor c t d a b) c p 2 (fun l => toG d (fit t (val s t l a ^^^ val s t l b))) ∧
      s.Writes (.andn c t d a b) c p 2 (fun l => toG d (fit t (val s t l a &&& ~~~(val s t l b))))) ∧
    (s.Acts c (.fixA 2 a.regs) p →
      s.Writes (.neg c t d a) c p 2 (fun l => toG d (fit t (-(val s t l a)))) ∧
      s.Writes (.not c t d a) c p 2 (fun l => toG d (fit t (~~~(val s t l a)))))

/-- R185, R186, products and orderings: `MUL` and `MULH` write the low and the high half of the product of 2w bits and `MAD` the low w
bits of a × b + c, with latency 4; `MIN` and `MAX` write the smaller and the larger source as the type compares, and `ABS` the
magnitude, with latency 2. -/
def Obligations.ProductsAndOrder : Prop :=
  ∀ (s : State) (c : Ctl) (t : ITy) (d : GReg) (a b x : Src) (p : List Nat), t ≠ .b128 →
    (s.Acts c (.fixA 4 (a.regs ++ b.regs)) p →
      s.Writes (.mul c t d a b) c p 4 (fun l => toG d (fit t (val s t l a * val s t l b))) ∧
      s.Writes (.mulh c t d a b) c p 4 (fun l => toG d (fit t (mulHigh t (val s t l a) (val s t l b))))) ∧
    (s.Acts c (.fixA 4 (a.regs ++ b.regs ++ x.regs)) p →
      s.Writes (.mad c t d a b x) c p 4 (fun l => toG d (fit t (val s t l a * val s t l b + val s t l x)))) ∧
    (s.Acts c (.fixA 2 (a.regs ++ b.regs)) p →
      s.Writes (.min c t d a b) c p 2 (fun l => toG d (fit t (if less t (val s t l b) (val s t l a) then val s t l b else val s t l a))) ∧
      s.Writes (.max c t d a b) c p 2 (fun l => toG d (fit t (if less t (val s t l a) (val s t l b) then val s t l b else val s t l a)))) ∧
    (t.signed = true → s.Acts c (.fixA 2 a.regs) p →
      s.Writes (.abs c t d a) c p 2 (fun l => toG d (fit t (if (val s t l a).msb then -(val s t l a) else val s t l a))))

/-- R185, R186, shifts and bit counts: a shift by n := b mod w, left with zeros, right with zeros, right copying bit w − 1, and a
rotation left; the number of set bits, the leading zeros and the reverse of the low w bits; all with latency 2. -/
def Sys2Proof.Slice0.ShiftsAndBitsRule : Prop :=
  ∀ (s : State) (c : Ctl) (t : ITy) (d : GReg) (a b : Src) (p : List Nat), t ≠ .b128 →
    (s.Acts c (.fixA 2 (a.regs ++ b.regs)) p →
      s.Writes (.shl c t d a b) c p 2 (fun l => toG d (fit t (val s t l a <<< shamt t (val s t l b)))) ∧
      s.Writes (.shr c t d a b) c p 2 (fun l => toG d (fit t (val s t l a >>> shamt t (val s t l b)))) ∧
      s.Writes (.sar c t d a b) c p 2 (fun l => toG d (fit t ((val s t l a).sshiftRight (shamt t (val s t l b))))) ∧
      s.Writes (.rol c t d a b) c p 2 (fun l => toG d (fit t ((val s t l a).rotateLeft (shamt t (val s t l b)))))) ∧
    (s.Acts c (.fixA 2 a.regs) p →
      s.Writes (.popc c t d a) c p 2 (fun l => toG d (BitVec.ofNat 64
        ((List.range t.width).filter fun i => (val s t l a).getLsbD i).length |> lo t |> fit t)) ∧
      s.Writes (.clz c t d a) c p 2 (fun l => toG d (fit t (val s t l a).clz)) ∧
      s.Writes (.brev c t d a) c p 2 (fun l => toG d (fit t (val s t l a).reverse)))

/-- Additive, logical, shift and bit operations, as the two parts say. -/
def Obligations.IntegerArithmetic : Prop := Slice0.AdditiveAndLogicalRule ∧ Slice0.ShiftsAndBitsRule

/-- R187: `BFX` writes the field of m bits that the whole descriptor names, sign-extended for `.s`, and 0 for m = 0; `BFI` writes b with
that field replaced by the low bits of a. R190, R185: `SEL` writes one of its sources as its predicate says, `MOV` its source, also of
128 bits, and `MOVL` its whole literal word. All with latency 2. -/
def Sys2Proof.Slice0.FieldsAndMovesRule : Prop :=
  ∀ (s : State) (c : Ctl) (t : ITy) (d r : GReg) (a b x : Src) (q : PReg) (y : W64) (p : List Nat),
    (t ≠ .b128 →
      (s.Acts c (.fixA 2 (a.regs ++ b.regs)) p →
        s.Writes (.bfx c t d a b) c p 2 (fun l => toG d (fit t (fieldOf t (val s t l a) (src s l b))))) ∧
      (s.Acts c (.fixA 2 (a.regs ++ b.regs ++ x.regs)) p →
        s.Writes (.bfi c t d a b x) c p 2 (fun l => toG d (fit t (fieldIn t (val s t l a) (val s t l b) (src s l x))))) ∧
      (s.Acts c (.fixA 2 (a.regs ++ b.regs ++ [.p q])) p →
        s.Writes (.sel c t d a b q) c p 2 (fun l => toG d (fit t (if pred s l q then val s t l a else val s t l b)))) ∧
      (s.Acts c (.fixA 2 a.regs) p → s.Writes (.mov c t d a) c p 2 (fun l => toG d (fit t (val s t l a))))) ∧
    (s.Acts c (.fixA 2 (pairRegs r)) p → s.Writes (.mov c .b128 d (.g r)) c p 2
      (fun l => [(.g d, .w (src s l (.g r))), (.g (d + 1), .w (src s l (.g (r + 1))))])) ∧
    (s.Acts c (.fixA 2 []) p →
      (∀ k : BitVec 6, s.Writes (.mov c .b128 d (.k k)) c p 2 (fun _ => [(.g d, .w (k.setWidth 64)), (.g (d + 1), .w 0)])) ∧
      s.Writes (.mov c .b128 d (.lit y)) c p 2 (fun _ => [(.g d, .w y), (.g (d + 1), .w 0)]) ∧
      s.Writes (.movl c d y) c p 2 (fun _ => toG d y))

/-- R188, R189: `CMP` writes the comparison of its sources as the type compares them, and `PLOP` the operation of its predicates, each
negated as its bit says, with latency 2. -/
def Sys2Proof.Slice0.PredicatesRule : Prop :=
  ∀ (s : State) (c : Ctl) (p : List Nat) (d : PReg),
    (∀ (k : CmpOp) (t : ITy) (a b : Src), s.Acts c (.fixA 2 (a.regs ++ b.regs)) p →
      s.Writes (.cmp c k t d a b) c p 2 (fun l => toP d (holds t (val s t l a) (val s t l b) k))) ∧
    (∀ (a b : PReg) (na nb : Bool), s.Acts c (.fixA 2 [.p a, .p b]) p →
      s.Writes (.plop c .and d a b na nb) c p 2 (fun l => toP d ((pred s l a ^^ na) && (pred s l b ^^ nb))) ∧
      s.Writes (.plop c .or d a b na nb) c p 2 (fun l => toP d ((pred s l a ^^ na) || (pred s l b ^^ nb))) ∧
      s.Writes (.plop c .xor d a b na nb) c p 2 (fun l => toP d ((pred s l a ^^ na) ^^ (pred s l b ^^ nb))))

/-- Bit fields, moves and predicates, as the two parts say. -/
def Obligations.FieldsMovesAndPredicates : Prop := Slice0.FieldsAndMovesRule ∧ Slice0.PredicatesRule

namespace Sys2Proof.Slice0
open Machine

/-- A set of lanes as a word with one bit for each (R198, R199). -/
def laneBits (p : List Nat) : W64 := p.foldl (fun m l => m ||| (1#64 <<< l)) 0

/-- Lane j as a source of lane l: itself where j is no lane of `p` (R196). -/
def fromLane (p : List Nat) (l : Nat) (j : Int) : Nat := if 0 ≤ j ∧ j.toNat ∈ p then j.toNat else l

/-- The source lane of `SHFL` (R196). -/
def shLane (m : ShMode) (l b : Nat) : Int :=
  match m with
  | .idx => (b % 32 : Nat)
  | .up => (l : Int) - b
  | .down => (l : Int) + b
  | .xor => (l ^^^ (b % 32) : Nat)

/-- The identity of a lane operation (R200). -/
def laneUnit (op : LaneOp) (t : ITy) : BitVec t.width :=
  match op with
  | .add | .or | .xor => 0
  | .and => BitVec.allOnes t.width
  | .min => if t.signed then BitVec.intMax t.width else BitVec.allOnes t.width
  | .max => if t.signed then BitVec.intMin t.width else 0

/-- One step of the combination of a lane operation (R200). -/
def laneStep (op : LaneOp) (t : ITy) (x y : BitVec t.width) : BitVec t.width :=
  match op with
  | .add => x + y
  | .and => x &&& y
  | .or => x ||| y
  | .xor => x ^^^ y
  | .min => if less t y x then y else x
  | .max => if less t x y then y else x

/-- The combination of the values of some lanes (R200). -/
def combine (op : LaneOp) (t : ITy) (l : List (BitVec t.width)) : BitVec t.width := l.foldl (laneStep op t) (laneUnit op t)

/-- A barrier snapshot (R193). -/
def snapshot (x : Barrier) : W64 := 0#31 ++ BitVec.ofBool x.parity ++ x.expected ++ x.count

/-- The special registers that a bow core reads as zero and does not write, beside its `nb` registers (R192). -/
def bowAbsent (n : Nat) : Bool := n = 43 || (45 ≤ n && n ≤ 54)

end Sys2Proof.Slice0

/-- R195–R199: `SHFL` gives each participant the source of another, or its own where that lane is no participant; `BCAST` gives every
participant the source of the lane that the lowest one names, or of the lowest; `VOTE` and `MATCH` write the answers and lane masks over
the participants. Latency 6, and nothing else changes. -/
def Obligations.LaneExchanges : Prop :=
  ∀ (s : State) (c : Ctl) (t : ITy) (d : GReg) (a b : Src) (dp pa pb : PReg) (m : ShMode) (p : List Nat), t ≠ .b128 →
    (s.Acts c (.fixA 6 (a.regs ++ b.regs)) p →
      s.Writes (.shfl c m t d a b) c p 6
        (fun l => toG d (fit t (val s t (fromLane p l (shLane m l (val s t l b).toNat)) a))) ∧
      s.Writes (.bcast c t d a b) c p 6
        (fun _ => toG d (fit t (val s t (fromLane p (p.headD 0) ((val s t (p.headD 0) b).toNat % 32 : Nat)) a)))) ∧
    (s.Acts c (.fixA 6 [.p pa]) p →
      s.Writes (.vote c (.all dp pa)) c p 6 (fun _ => toP dp (p.all fun j => pred s j pa)) ∧
      s.Writes (.vote c (.any dp pa)) c p 6 (fun _ => toP dp (p.any fun j => pred s j pa)) ∧
      s.Writes (.vote c (.bal d pa none)) c p 6 (fun _ => toG d (laneBits (p.filter fun j => pred s j pa)))) ∧
    (s.Acts c (.fixA 6 [.p pa, .p pb]) p →
      s.Writes (.vote c (.bal d pa (some (.and, pb)))) c p 6
        (fun _ => toG d (laneBits (p.filter fun j => pred s j pa && pred s j pb))) ∧
      s.Writes (.vote c (.bal d pa (some (.or, pb)))) c p 6
        (fun _ => toG d (laneBits (p.filter fun j => pred s j pa || pred s j pb))) ∧
      s.Writes (.vote c (.bal d pa (some (.xor, pb)))) c p 6
        (fun _ => toG d (laneBits (p.filter fun j => pred s j pa ^^ pred s j pb)))) ∧
    (s.Acts c (.fixA 6 a.regs) p →
      s.Writes (.matchLanes c t d a) c p 6 (fun l => toG d (laneBits (p.filter fun j => val s t j a == val s t l a))))

/-- R200: `SCAN` gives each participant the combination of the participants up to its own lane, or below it under `.exc`, and `REDUX` the
combination of all; an empty combination is the identity of the operation. `.min` and `.max` of raw bits are no instruction. -/
def Obligations.LaneCombinations : Prop :=
  ∀ (s : State) (c : Ctl) (op : LaneOp) (t : ITy) (d : GReg) (a : Src) (p : List Nat), t ≠ .b128 → s.Acts c (.fixA 6 a.regs) p →
    s.Writes (.scan c op t false d a) c p 6
      (fun l => toG d (fit t (combine op t ((p.filter (· ≤ l)).map fun j => val s t j a)))) ∧
    s.Writes (.scan c op t true d a) c p 6
      (fun l => toG d (fit t (combine op t ((p.filter (· < l)).map fun j => val s t j a)))) ∧
    s.Writes (.redux c op t d a) c p 6 (fun _ => toG d (fit t (combine op t (p.map fun j => val s t j a)))) ∧
    (op = .min ∨ op = .max → t.raw = true → ∀ excl, (Instr.scan c op t excl d a).wf = false ∧ (Instr.redux c op t d a).wf = false)

/-- R191–R193, `RDS`, with latency 2: the barrier snapshots (`nb` reads zero on the bow), the numbers of the thread, the superstep, the
energy sum, the mode, and the thread's own special registers, of which `srs` and 45–54 read zero on the bow. -/
def Sys2Proof.Slice0.SpecialRegisterReadsRule : Prop :=
  ∀ (s : State) (c : Ctl) (d : GReg) (r : SReg) (p : List Nat), s.Acts c (.fixA 2 (sregRegs r)) p →
    ∃ f : Nat → W64, s.Writes (.rds c d r) c p 2 (fun l => toG d (f l)) ∧
      ∀ l ∈ p, let t := tid s.curG l; let bow := isBow s.cur.core
        (∀ n : BitVec 4, r = n.setWidth 6 → f l = if bow then 0 else snapshot (s.bar s.curG (.nb n))) ∧
        (∀ n : BitVec 4, r = 16#6 + n.setWidth 6 → f l = snapshot (s.bar s.curG (.kb n))) ∧
        (r = 36#6 → f l = BitVec.ofNat 64 l) ∧
        (r = 37#6 → f l = BitVec.ofNat 64 s.cur.slot) ∧
        (r = 38#6 → f l = BitVec.ofNat 64 (coreNum s.cur.core)) ∧
        (r = 39#6 → f l = BitVec.ofNat 64 (coreCluster s.cur.core)) ∧
        (r = 40#6 → f l = ((s.grp s.curG).bind.extractLsb' 224 32).setWidth 64) ∧
        (r = 41#6 → f l = BitVec.ofNat 64 t) ∧
        (r = 42#6 → f l = (BitVec.ofNat 32 (s.grpCl s.curG).phase).setWidth 64) ∧
        (r = 57#6 → f l = (s.grp s.curG).ecnt) ∧
        (r = 58#6 → f l = 0#62 ++ BitVec.ofBool (s.grp s.curG).sc ++ BitVec.ofBool (s.grp s.curG).pp) ∧
        (∀ x, sregAt r.toNat = some x → f l = if bow && bowAbsent r.toNat then 0 else s.sr t x)

/-- R191, R192, `WRS`, with latency 2: it writes the low bits of its source to a register marked RW as its width; a write to a register
marked RO is ignored, and so is one to `srs` or 45–54 on the bow. -/
def Sys2Proof.Slice0.SpecialRegisterWritesRule : Prop :=
  ∀ (s : State) (c : Ctl) (r : SReg) (a : Src) (p : List Nat), s.Acts c (.fixA 2 a.regs) p →
    (43 ≤ r.toNat ∧ r.toNat ≤ 54 ∧ (isBow s.cur.core && bowAbsent r.toNat) = false →
      ∃ x, sregAt r.toNat = some x ∧ s.Writes (.wrs c r a) c p 2 (fun l => [(.s x, .w (match x with
        | .srs => ((src s l a).setWidth 32).setWidth 64
        | .fsr => ((src s l a).setWidth 5).setWidth 64
        | _ => src s l a))])) ∧
    (¬(43 ≤ r.toNat ∧ r.toNat ≤ 54) ∨ (isBow s.cur.core && bowAbsent r.toNat) = true →
      s.Writes (.wrs c r a) c p 2 (fun _ => []))

/-- Reads and writes of the special registers, as the two parts say. -/
def Obligations.SpecialRegisters : Prop := Slice0.SpecialRegisterReadsRule ∧ Slice0.SpecialRegisterWritesRule

namespace Sys2Proof.Slice0
open Machine

/-- The header that a branch names: eight times its signed offset beyond its own header, with WORD zero (R169, R170). -/
def branchTo (s : State) (off : BitVec 18) : W64 := (s.cur.hdr + 8#48 * off.signExtend 48).setWidth 64

/-- The header after the clause in issue (R147, R172). -/
def afterClause (s : State) : W64 := (s.cur.hdr + 8#48 * BitVec.ofNat 48 (s.cur.words + 1)).setWidth 64

/-- An address that a transfer through a register accepts: bits [63:48] zero and 8-byte aligned (R171). -/
def goodTarget (x : W64) : Prop := x.extractLsb' 48 16 = 0 ∧ x.extractLsb' 0 3 = 0

end Sys2Proof.Slice0

/-- R170–R172, R176: `NOP` goes on; `BRA` goes to its offset, `BRX` and `RET` to the address in a register, `CALL` and the indirect `CALL`
to theirs while the link register takes the header after the clause; every other lane of the path goes on at the next word.
That addresses wrap at 2^48 is the model's choice: log entry 31. -/
def Obligations.Transfers : Prop :=
  ∀ (s : State) (c : Ctl) (off : BitVec 18) (a link : GReg) (p : List Nat),
    (s.Acts c (.fixA 1 []) p →
      s.Writes (.nop c) c p 1 (fun _ => []) ∧ s.Lands (.bra c off) c p 1 (fun _ => branchTo s off) (fun _ => [])) ∧
    (s.Acts c (.fixA 2 []) p →
      s.Lands (.call c link off) c p 2 (fun _ => branchTo s off) (fun _ => toG link (afterClause s))) ∧
    ((∀ l ∈ p, goodTarget (src s l (.g a))) →
      (s.Acts c (.fixA 1 [.g a]) p →
        s.Lands (.brx c a) c p 1 (fun l => src s l (.g a)) (fun _ => []) ∧
        s.Lands (.ret c a) c p 1 (fun l => src s l (.g a)) (fun _ => [])) ∧
      (s.Acts c (.fixA 2 [.g a]) p →
        s.Lands (.callIndirect c link a) c p 2 (fun l => src s l (.g a)) (fun _ => toG link (afterClause s))))

/-- R184, R175: `IDEM` sets `re` to its own resume address and raises `rc` modulo 2^32; `YIELD` goes on, the threads of its participants
with a yield count of 16, and under `PP` = 0 it empties the current path where all its lanes take part. -/
def Obligations.IdemAndYield : Prop :=
  ∀ (s : State) (c : Ctl) (p : List Nat),
    (s.Acts c (.fixA 2 []) p → s.Writes (.idem c) c p 2 (fun l =>
      [(.s .re, .w (resumeAt s.cur.hdr s.cur.word)),
       (.s .rc, .w ((((s.thr (tid s.curG l)).archW (.s .rc)).setWidth 32 + 1).setWidth 64))])) ∧
    (s.Acts c (.fixA 1 []) p → ∃ u, exec (.yield c) s = .next u ∧ s.Frame u ∧
      (∀ l ∈ lanesOf s.cur.lanes, l ∉ p → u.thr (tid s.curG l) = s.onward c s.curNext (s.thr (tid s.curG l))) ∧
      (∀ l ∈ p, u.thr (tid s.curG l) = s.onward c s.curNext { s.thr (tid s.curG l) with yielded := 16 }) ∧
      (s.curLast = true → (s.grp s.curG).pp = false → (∀ l ∈ lanesOf s.cur.lanes, l ∈ p) → (u.grp s.curG).cur = 0))

namespace Sys2Proof.Slice0
open Machine

/-- The trap record of R381 for the word in issue. -/
def recordOf (s : State) (code : BitVec 16) (detail cause : BitVec 8) : W64 :=
  0#16 ++ code ++ s.cur.raw.extractLsb' 56 8 ++ BitVec.ofNat 4 s.cur.cls ++ 0#4 ++ detail ++ cause

/-- The resume address of the word in issue (R169). -/
def wordAt (s : State) : W64 := 0#12 ++ BitVec.ofNat 4 s.cur.word ++ s.cur.hdr

/-- No `RECONV` of the group in issue can be released: none waits, or a thread outside the lanes that sleep goes on in its path (R29). -/
def NoReconv (s : State) (stays : Nat → Bool) (p : List Nat) : Prop :=
  (∀ z ∈ s.sleepers, z.kind ≠ .reconv) ∨
  ∃ l ∈ groupLanes s.curG, ¬(l ∈ p ∧ stays l = true) ∧ (s.thr (tid s.curG l)).stat = .run ∧ (s.thr (tid s.curG l)).handler = none

/-- Some thread of the group in issue outside the lanes `p` holds a `RECONV` of theirs back: it is parked, or it is counted and not in such a
wait (R29). -/
def HeldBack (s : State) (p : List Nat) : Prop :=
  ∃ l ∈ groupLanes s.curG, l ∉ p ∧ let x := s.thr (tid s.curG l)
    (∃ tok, x.stat = .parked tok) ∨ x.handler = none ∧ (x.stat = .run ∨ x.stat = .arriving ∨ x.stat = .parkWait ∨
      ∃ z, x.stat = .sleep z.id ∧ (s.sleepers.find? fun y => y.id == z.id) = some z ∧ z.kind ≠ .reconv)

/-- A thread that `RECONV` does not count, and that is not parked: it has exited, never ran or has stopped, or it is in its handler or on
the way to it (R29). -/
def Uncounted (x : Thread) : Prop :=
  (∀ tok, x.stat ≠ .parked tok) ∧
    (x.handler ≠ none ∨ x.stat = .off ∨ x.stat = .exited ∨ x.stat = .stopped ∨ ∃ i, x.stat = .trapWait i)

/-- A lane of a sleeping wait that has ended: its dependency counter has fallen, and it stands at the next word, where it issues as soon as
the stall count of the word has elapsed (R20, R21, R159). -/
def woken (s : State) (z : Sleeper) (x : Thread) : Thread :=
  let x := match z.ctr with | none => x | some n => x.decD n
  { x.goto z.next with stat := .run, readyAt := max s.cycle z.due, halt := if x.stepping then some ⟨4, 0, false⟩ else x.halt }

/-- The queue of a world exists: wherever it points, the record it takes lands in memory (R348, R382). -/
def CanPost (s : State) (secure : Bool) : Prop := ∀ r, (s.post secure r).hole = false

/-- An event record is posted to a queue: memory and the records that wait are those that `post` leaves (R382). -/
def PostsOne (s u : State) (secure : Bool) (r : W512) : Prop :=
  u.mem = (s.post secure r).mem ∧ u.evWait = (s.post secure r).evWait

/-- A debug record (R398): its type, the lane's name, the reason, the code, the resume address, the value and the status. -/
def DebugRecord (r : W512) (t reason : Nat) (code : BitVec 16) (ra value : W64) (status : Nat) : Prop :=
  r.extractLsb' 0 8 = 10#8 ∧ (t < 131072 → r.extractLsb' 192 18 = BitVec.ofNat 18 t) ∧
  (131072 ≤ t → r.extractLsb' 192 18 = 1#1 ++ BitVec.ofNat 17 (t - 131072)) ∧ r.extractLsb' 248 8 = BitVec.ofNat 8 reason ∧
  r.extractLsb' 304 16 = code ∧ r.extractLsb' 320 64 = ra ∧ r.extractLsb' 384 64 = value ∧ r.extractLsb' 448 8 = BitVec.ofNat 8 status

/-- A trap of the word in issue itself, with no code. -/
def own (s : State) (detail cause : BitVec 8) (value : W64) : TrapInfo := ⟨recordOf s 0 detail cause, value, wordAt s⟩

/-- The value of a general register of a thread after every write of it so far: the last one under way, or the settled value. -/
def lastG (x : Thread) (n : GReg) : W64 :=
  ((x.pend.filterMap fun e => if e.reg = .g n then (match e.val with | .w y => some y | _ => none) else none).getLast?).getD
    (mget 0 x.g n.toNat)

/-- A clause in issue on a core, at a place of its list. -/
def InIssue (s : State) (core sel : Nat) (y : Sel) : Prop := (s.core core).sels[sel]? = some y

/-- A thread that sleeps at the word in issue, in the wait of a number (R21). -/
def asleep (s : State) (id : Nat) (x : Thread) : Thread := { x with stat := .sleep id, hdr := s.cur.hdr, word := BitVec.ofNat 4 s.cur.word }

end Sys2Proof.Slice0

/-- R379, R381: TAKING A TRAP, of a thread without an outstanding operation that is not in a handler, in a region with a handler. The hidden
trap state takes the record, the value, the resume address and the values of `g61`–`g63` after every write of them so far; those
registers take the three values; the thread stands at TRAPVEC; its counters read zero; every other register, with the writes of it under
way, keeps its value, and so does every other thread, memory and the scratchpads. -/
def Sys2Proof.Slice0.TrapEntryRule : Prop :=
  ∀ (s : State) (t : Nat) (i : TrapInfo), s.hasOps t = false → (s.thr t).handler = none →
    (s.grpRes (threadGroup t)).trapvec ≠ 0 → ∀ u, u = s.takeTrap t i →
      (u.thr t).stat = .run ∧ (u.thr t).pc = resumeAt (s.grpRes (threadGroup t)).trapvec 0 ∧
      (u.thr t).handler = some ⟨i, lastG (s.thr t) 61, lastG (s.thr t) 62, lastG (s.thr t) 63⟩ ∧
      (u.thr t).arch (.g 61) = .w i.record ∧ (u.thr t).arch (.g 62) = .w i.value ∧ (u.thr t).arch (.g 63) = .w i.resume ∧
      (∀ n, mget 0 (u.thr t).d n = 0) ∧
      (∀ r, r ≠ .g 61 → r ≠ .g 62 → r ≠ .g 63 → (u.thr t).base r = (s.thr t).base r ∧
        (u.thr t).pend.filter (fun e => e.reg == r) = (s.thr t).pend.filter (fun e => e.reg == r)) ∧
      (∀ t', t' ≠ t → u.thr t' = s.thr t') ∧ u.mem = s.mem ∧ u.sp = s.sp

/-- R379: THE RETURN FROM A TRAP: `g61`–`g63` take the values that the hidden trap state saved, and the thread continues at the resume
address, outside the handler; every other register, every other thread and everything else keep their values. -/
def Sys2Proof.Slice0.TrapReturnRule : Prop :=
  ∀ (s : State) (t : Nat) (r : W64) (h : Handler), (s.thr t).handler = some h → ∀ u, u = s.leaveHandler t r →
    (u.thr t).handler = none ∧ (u.thr t).hdr = r.setWidth 48 ∧ (u.thr t).word = r.extractLsb' 48 4 ∧
    (u.thr t).arch (.g 61) = .w h.g61 ∧ (u.thr t).arch (.g 62) = .w h.g62 ∧ (u.thr t).arch (.g 63) = .w h.g63 ∧
    (∀ q, q ≠ .g 61 → q ≠ .g 62 → q ≠ .g 63 → (u.thr t).base q = (s.thr t).base q ∧
      (u.thr t).pend.filter (fun e => e.reg == q) = (s.thr t).pend.filter (fun e => e.reg == q)) ∧
    (u.thr t).stat = (s.thr t).stat ∧ (u.thr t).d = (s.thr t).d ∧
    (∀ t', t' ≠ t → u.thr t' = s.thr t') ∧ u.rest = s.rest ∧ u.groups = s.groups ∧ u.cores = s.cores

/-- Taking a trap and returning from one, as the two parts say. -/
def Obligations.TrapEntryAndReturn : Prop := Slice0.TrapEntryRule ∧ Slice0.TrapReturnRule

/-- R380: a trap of a thread that is in its handler, or in a region whose TRAPVEC is 0, stops the thread, and the device posts a fatal-trap
event: it is appended to the non-secure event queue, or waits behind the others. -/
def Obligations.FatalTrap : Prop :=
  ∀ (s : State) (t : Nat) (i : TrapInfo), s.hasOps t = false →
    ((s.thr t).handler ≠ none ∨ (s.grpRes (threadGroup t)).trapvec = 0) → ∀ u, u = s.takeTrap t i →
      (u.thr t).stat = .stopped ∧ (u.thr t).handler = (s.thr t).handler ∧ (∀ r, (u.thr t).base r = (s.thr t).base r) ∧
      ∃ (v : State) (e : W512), u = v.post false e ∧ v.thr t = u.thr t ∧ e.extractLsb' 0 8 = 17#8 ∧
        e.extractLsb' 192 64 = BitVec.ofNat 64 t ∧ e.extractLsb' 256 64 = i.record ∧ e.extractLsb' 320 64 = i.value ∧
        e.extractLsb' 384 64 = i.resume

/-- R177, R398: `TRAP` and, while no debugger holds the region's right, `BRK` trap in each participant, with the code in the record and the
header after the clause as the address at which the handler's return goes on; the path's other lanes go on at the next word. While a debugger
holds the right, `BRK` halts each participant there instead, and reports it when no operation of the lane is outstanding. -/
def Obligations.TrapAndBreak : Prop :=
  ∀ (s : State) (c : Ctl) (code : BitVec 16) (p : List Nat), s.Acts c (.fixA 1 []) p → s.Handled p →
    s.Traps (.trap c code) c p (fun _ => ⟨recordOf s code 0 15, 0, afterClause s⟩) ∧
    ((∀ a ∈ s.attached, a.1 ≠ (s.grp s.curG).rcb) →
      s.Traps (.brk c code) c p (fun _ => ⟨recordOf s code 0 14, 0, afterClause s⟩)) ∧
    ((∃ a ∈ s.attached, a.1 = (s.grp s.curG).rcb) → (s.grp s.curG).bound = true → NoReconv s (fun _ => false) p →
      ((∀ l ∈ p, s.hasOps (tid s.curG l) = true) → ∃ u, exec (.brk c code) s = .next u ∧ u.mem = s.mem ∧ u.sp = s.sp ∧ u.evWait = s.evWait ∧
        (∀ l ∈ p, u.thr (tid s.curG l) = { (s.thr (tid s.curG l)).goto (afterClause s) with halt := some ⟨1, code, false⟩ }) ∧
        (∀ l ∈ lanesOf s.cur.lanes, l ∉ p → u.thr (tid s.curG l) = s.onward c s.curNext (s.thr (tid s.curG l)))) ∧
      (∀ l q, p = [l] → q = s.dbgSecure (s.grp s.curG).rcb → s.hasOps (tid s.curG l) = false → CanPost s q →
        ∃ u r, exec (.brk c code) s = .next u ∧ u.sp = s.sp ∧ PostsOne s u q r ∧ DebugRecord r (tid s.curG l) 1 code (afterClause s) 0 0 ∧
        r.extractLsb' 257 1 = BitVec.ofBool (s.thr (tid s.curG l)).warn ∧
        (u.thr (tid s.curG l) = { (s.thr (tid s.curG l)).goto (afterClause s) with halt := some ⟨1, code, true⟩, warn := false }) ∧
        (∀ j ∈ lanesOf s.cur.lanes, j ≠ l → u.thr (tid s.curG j) = s.onward c s.curNext (s.thr (tid s.curG j)))))

/-- R171: a transfer through a register whose value has a bit of [63:48] set raises `BOUNDS`, else one whose value is not 8-byte aligned
raises `ALIGN`, with the value, at the word itself. -/
def Obligations.TransferTraps : Prop :=
  ∀ (s : State) (c : Ctl) (a link : GReg) (p : List Nat) (i : Instr) (w : WordSpec),
    (i = .brx c a ∧ w = .fixA 1 [.g a] ∨ i = .ret c a ∧ w = .fixA 1 [.g a] ∨ i = .callIndirect c link a ∧ w = .fixA 2 [.g a]) →
    s.Acts c w p → s.Handled p → (∀ l ∈ p, ¬goodTarget (src s l (.g a))) →
      s.Traps i c p (fun l =>
        own s 0 (if (src s l (.g a)).extractLsb' 48 16 ≠ 0 then 4 else 5) (src s l (.g a)))

/-- R173: `EXIT` ends each of its participants once none of them has an operation outstanding, and holds the path until then; while
another thread of the group lives, memory and the scratchpads are as they were. -/
def Sys2Proof.Slice0.ExitsRule : Prop :=
  ∀ (s : State) (c : Ctl) (p : List Nat), s.Acts c (.fixA 1 []) p →
    ((∃ l ∈ p, s.hasWork (tid s.curG l) = true) → ∃ u, exec (.exit c) s = .next u ∧ u.threads = s.threads ∧ u.rest = s.rest) ∧
    ((∀ l ∈ p, s.hasWork (tid s.curG l) = false) → (s.grp s.curG).bound = true →
      (∃ l ∈ groupLanes s.curG, l ∉ p ∧ (s.thr (tid s.curG l)).stat ≠ .exited) →
      ∃ u, exec (.exit c) s = .next u ∧ u.mem = s.mem ∧ u.sp = s.sp ∧
        (∀ l ∈ p, u.thr (tid s.curG l) = { s.thr (tid s.curG l) with stat := .exited }) ∧
        (∀ l ∈ lanesOf s.cur.lanes, l ∉ p → u.thr (tid s.curG l) = s.onward c s.curNext (s.thr (tid s.curG l))))

/-- R20, R21, R29, R174: `RECONV` puts its participants to sleep at its word while some other counted thread of the group, one that has not
exited, is not parked and is in no handler, is not in such a wait, or a thread of the group is parked; when every other thread of the
group has exited or is otherwise not counted, none of them parked, they go on at the next word as soon as the stall count has elapsed. -/
def Sys2Proof.Slice0.ReconvergesRule : Prop :=
  ∀ (s : State) (c : Ctl) (p : List Nat), s.Acts c (.fixA 1 []) p → p ≠ [] →
    let z : Sleeper := ⟨s.nextId, s.curG, maskOf p, wordAt s, s.curNext, none, s.cycle + c.stall.toNat + 1, .reconv⟩
    (HeldBack s p → ∃ u, exec (.reconv c) s = .next u ∧ u.mem = s.mem ∧ u.sp = s.sp ∧
      (∀ l ∈ p, u.thr (tid s.curG l) = asleep s s.nextId (s.thr (tid s.curG l))) ∧
      (∀ l ∈ lanesOf s.cur.lanes, l ∉ p → u.thr (tid s.curG l) = s.onward c s.curNext (s.thr (tid s.curG l))) ∧
      u.sleepers = s.sleepers ++ [z]) ∧
    ((∀ l ∈ p, (s.thr (tid s.curG l)).handler = none ∧ (s.thr (tid s.curG l)).halt = none) →
      (∀ l ∈ groupLanes s.curG, l ∉ p → Uncounted (s.thr (tid s.curG l))) →
      (∀ y ∈ s.sleepers, y.id ≠ s.nextId) → ∃ u, exec (.reconv c) s = .next u ∧ u.mem = s.mem ∧ u.sp = s.sp ∧
        (∀ l ∈ p, u.thr (tid s.curG l) = woken s z (s.thr (tid s.curG l))) ∧
        (∀ l ∈ groupLanes s.curG, l ∉ p → l ∉ lanesOf s.cur.lanes → u.thr (tid s.curG l) = s.thr (tid s.curG l)) ∧
        u.sleepers = s.sleepers)

/-- `EXIT` and `RECONV`, as the two parts say. That the number of a new wait is new is a premise of the release.
Where the spec leaves a point open it follows the model's choice: log entries 16 and 41. -/
def Obligations.ExitsAndReconvergence : Prop := Slice0.ExitsRule ∧ Slice0.ReconvergesRule

/-- R178–R182, R21: `PHASE` whose checks pass records the liveness of its threads, which hold at its word in their clause, and changes nothing
else of the state; one whose checks fail traps. The arrival of a thread whose operations are done puts it to sleep there, in a wait that
ends when its cluster advances and that continues at the header following the clause.
Where the spec leaves a point open it follows the model's choice: log entries 16 and 80. -/
def Obligations.PhaseAndArrival : Prop :=
  (∀ (s : State) (c : Ctl) (gmask word2 : W64) (live : Live) (p : List Nat), s.Acts c (.fixA 1 []) p →
    s.phaseCheck s.curG gmask word2 = .inl live → ∃ u, exec (.phase c gmask word2) s = .next u ∧ u.rest = s.rest ∧
      (∀ l ∈ p, u.thr (tid s.curG l) = { s.thr (tid s.curG l) with stat := .arriving, live := live }) ∧
      (∀ t, (∀ l ∈ p, t ≠ tid s.curG l) → u.thr t = s.thr t) ∧ (∀ h, (u.grp h).still = (s.grp h).still) ∧
      (∀ k y, InIssue s s.cur.core k y → InIssue u s.cur.core k (if y.slot = s.cur.slot ∧ y.lanes = s.cur.lanes then
        { y with held := .arrive, nextAt := s.cycle + c.stall.toNat + 1 } else y))) ∧
  (∀ (s : State) (c : Ctl) (gmask word2 : W64) (p : List Nat), s.Acts c (.fixA 1 []) p → p ≠ [] → s.Handled p →
    isBow s.cur.core = false → word2.getLsbD 47 = true → (word2.toNat / 2 ^ 48) % 8 ≠ 0 →
    s.Traps (.phase c gmask word2) c p (fun _ => own s 0 5 (BitVec.ofNat 64 (word2.toNat / 2 ^ 48)))) ∧
  (∀ (s : State) (t : Nat), t < 131088 → s.hole = false → s.mayArrive t = true → (s.grp (threadGroup t)).bound = true →
    (s.thr t).strag = false → (s.thr t).haltReq = none → ∃ u, exec (.phaseArrival t) s = .next u ∧ u.mem = s.mem ∧ u.sp = s.sp ∧
      (u.thr t).stat = .sleep s.nextId ∧ (u.thr t).pc = (s.thr t).pc ∧ (∀ r, (u.thr t).arch r = (s.thr t).arch r) ∧
      (∀ t', t' ≠ t → u.thr t' = s.thr t') ∧
      ∃ (next : W64) (due : Nat), u.sleepers = s.sleepers ++
          [⟨s.nextId, threadGroup t, 1#32 <<< threadLane t, (s.thr t).pc, next, none, due, .phase⟩] ∧
        ∀ y, ((s.core (groupCore (threadGroup t))).sels.find? fun y => y.slot == groupSlot (threadGroup t) && y.lanes.getLsbD (threadLane t))
            = some y →
          next = (y.hdr + 8#48 * BitVec.ofNat 48 ((Header.ofWord y.header).words + 1)).setWidth 64 ∧ due = y.nextAt)

namespace Sys2Proof.Slice0
open Machine

/-- The format of a class-1 instruction (R76, R202). -/
def fm (f : FFmt) : FDesc := fdesc f.code.toNat

/-- The tag of a format without geometry or codebook (R82). -/
def ftag (f : FFmt) : Byte := f.code ++ 0#4

/-- Element j of width w of a vector register (R84). -/
def elemAt (w : Nat) (x : W128) (j : Nat) : Nat := (x.extractLsb' (w * j) w).toNat

/-- The number of elements of a format in a vector register (R84). -/
def count (f : FFmt) : Nat := 128 / (fm f).w

/-- A vector register of lane l of the path in issue. -/
def vreg (s : State) (l : Nat) (a : VReg) : VVal := s.v (tid s.curG l) a

/-- Element j of a vector register of lane l, as a code. -/
def code (s : State) (f : FFmt) (l : Nat) (a : VReg) (j : Nat) : Nat := elemAt (fm f).w (vreg s l a).bits j

/-- Element j of a vector register of lane l, as a value. -/
def num (s : State) (f : FFmt) (l : Nat) (a : VReg) (j : Nat) : FVal := (fm f).dec (code s f l a j)

/-- Every source of every participant carries the tag of the format (R205). -/
def Tagged (s : State) (f : FFmt) (p : List Nat) (srcs : List VReg) : Prop := ∀ l ∈ p, ∀ a ∈ srcs, (vreg s l a).tag = ftag f

/-- The stochastic state of lane l at issue (R90, R194). -/
def srs (s : State) (l : Nat) : BitVec 32 := (s.sr (tid s.curG l) .srs).setWidth 32

/-- Element j of a result rounded once; under `.rs` it takes the step j + 1 of the generator (R87, R91). -/
def rounded (k : FDesc) (r : Rnd) (sat : Bool) (x0 : BitVec 32) (j : Nat) (x : Exact) : Nat × BitVec 5 :=
  k.deliver r sat (fun neg => r.up neg ((srsStep^[j + 1] x0).toNat / 65536)) x

/-- The write of the generator after n steps, under `.rs` only (R194). -/
def stepped (r : Rnd) (n : Nat) (x0 : BitVec 32) : List (RegId × RVal) :=
  if r = .rs then [(.s .srs, .w ((srsStep^[n] x0).setWidth 64))] else []

/-- The OR of the flags of n elements (R94, R201). -/
def flagsOf (n : Nat) (out : Nat → Nat × BitVec 5) : BitVec 5 := (List.range n).foldl (fun f j => f ||| (out j).2) 0

/-- A WORD WRITES A VECTOR REGISTER, element by element, in each participant: its n elements of width w are the codes `out l j`, its tag is
`tag`; the flags of the elements are ORed into `fsr`; `more l` is written beside (R94, R201). -/
def VecWrites (s : State) (i : Instr) (c : Ctl) (p : List Nat) (lat : Nat) (d : VReg) (tag : Nat → Byte) (w n : Nat)
    (out : Nat → Nat → Nat × BitVec 5) (more : Nat → List (RegId × RVal)) : Prop :=
  ∃ y : Nat → VVal, (∀ l ∈ p, (y l).tag = tag l ∧ ∀ j < n, elemAt w (y l).bits j = (out l j).1) ∧
    s.Writes i c p lat (fun l => [(.v d, .v (y l)), (.s .fsr, .orF (flagsOf n (out l)))] ++ more l)

/-- An arithmetic word of one rounding per element (R205, R208). -/
def Arith (s : State) (i : Instr) (c : Ctl) (p : List Nat) (lat : Nat) (f : FFmt) (r : Rnd) (d : VReg) (exact : Nat → Nat → Exact) : Prop :=
  VecWrites s i c p lat d (fun _ => ftag f) (fm f).w (count f) (fun l j => rounded (fm f) r false (srs s l) j (exact l j))
    (fun l => stepped r (count f) (srs s l))

/-- A word that delivers codes of its own format, element by element (R206, R208). -/
def Picks (s : State) (i : Instr) (c : Ctl) (p : List Nat) (lat : Nat) (f : FFmt) (d : VReg) (out : Nat → Nat → Nat × BitVec 5) : Prop :=
  VecWrites s i c p lat d (fun _ => ftag f) (fm f).w (count f) out (fun _ => [])

/-- The sum over lanes by the tree of R96, from 2^h leaves at a lane on. -/
def overTree {α : Type} (node : α → α → α) (leaf : Nat → α) : Nat → Nat → α
  | 0, lo => leaf lo
  | h + 1, lo => node (overTree node leaf h lo) (overTree node leaf h (lo + 2 ^ h))

/-- What a lane outside the participants contributes to `FRED`: −0, +inf or −inf (R210). -/
def absent (k : FDesc) : RedOp → Nat
  | .add => 2 ^ (k.w - 1)
  | .min => k.inf.getD 0
  | .max => 2 ^ (k.w - 1) + k.inf.getD 0

/-- A node of `FRED` with the flags so far (R96, R210). -/
def redNode (op : RedOp) (k : FDesc) (r : Rnd) (a b : Nat × BitVec 5) : Nat × BitVec 5 :=
  let x := match op with
    | .add => k.round r false (FVal.add r (k.dec a.1) (k.dec b.1))
    | .min => k.minMax false a.1 b.1
    | .max => k.minMax true a.1 b.1
  (x.1, a.2 ||| b.2 ||| x.2)

/-- The magnitude of a value as a rational number. -/
def magOf : FVal → ℚ
  | .num _ n e => n * 2 ^ e
  | _ => 0

/-- The scale that `SCALE` gives for some values (R217). -/
def IsScale (target : FDesc) (n : Nat) (x : Nat → FVal) (y : Nat × BitVec 5) : Prop :=
  let top := magOf (target.dec target.top)
  ((∃ j < n, ∀ b m e, x j ≠ .num b m e) → y = (255, flagNV)) ∧
  ((∀ j < n, ∃ b m e, x j = .num b m e) →
    ((∀ j < n, magOf (x j) = 0) → y = (127, 0)) ∧
    ((∃ j < n, magOf (x j) ≠ 0) → ∃ t : Int, (∀ j < n, magOf (x j) ≤ top * 2 ^ t) ∧ (∃ j < n, top * 2 ^ (t - 1) < magOf (x j)) ∧
      y = if 127 + t > 254 then (254, flagSA) else ((127 + t).toNat, 0)))

end Sys2Proof.Slice0

/-- R205, R208: `FADD`, `FSUB`, `FMUL` and `FFMA`, with latency 4, and `FRCP`, `FRSQ` and `FSQRT`, with latency 12, on sources that carry
the instruction's format, write for each element the exact result rounded once under the mode, the format's tag, and the OR of the
elements' flags into `fsr`; under `.rs` each element takes one step of the generator, which is written advanced. -/
def Obligations.VectorArithmetic : Prop :=
  ∀ (s : State) (c : Ctl) (f : FFmt) (r : Rnd) (d a b x : VReg) (p : List Nat),
    (s.Acts c (.fixC 4 ([.v a, .v b] ++ rndRegs r)) p → Tagged s f p [a, b] →
      Arith s (.fadd c f r d a b) c p 4 f r d (fun l j => FVal.add r (num s f l a j) (num s f l b j)) ∧
      Arith s (.fsub c f r d a b) c p 4 f r d (fun l j => FVal.add r (num s f l a j) (num s f l b j).neg) ∧
      Arith s (.fmul c f r d a b) c p 4 f r d (fun l j => FVal.mul (num s f l a j) (num s f l b j))) ∧
    (s.Acts c (.fixC 4 ([.v a, .v b, .v x] ++ rndRegs r)) p → Tagged s f p [a, b, x] →
      Arith s (.ffma c f r d a b x) c p 4 f r d (fun l j => FVal.fma r (num s f l a j) (num s f l b j) (num s f l x j))) ∧
    (s.Acts c (.fixC 12 ([.v a] ++ rndRegs r)) p → Tagged s f p [a] →
      Arith s (.frcp c f r d a) c p 12 f r d (fun l j => (num s f l a j).rcp) ∧
      Arith s (.frsq c f r d a) c p 12 f r d (fun l j => (num s f l a j).rsq) ∧
      Arith s (.fsqrt c f r d a) c p 12 f r d (fun l j => (num s f l a j).sqrt))

/-- R206–R208: `FMIN`, `FMAX` and `FAMAX` deliver an operand of each element, with latency 4; `FEXP2`, `FLOG2` and `FTANH` their result,
in BF16 and FP16 rounded to nearest even, in FP32 a candidate that the model leaves free (log entry 6), with latency 12; `FCMP` sets bit
j of its register where element j satisfies the comparison, and no bit above the elements. -/
def Obligations.VectorSelections : Prop :=
  ∀ (s : State) (c : Ctl) (f : FFmt) (k : CmpOp) (d a b : VReg) (e : GReg) (p : List Nat),
    (s.Acts c (.fixC 4 [.v a, .v b]) p → Tagged s f p [a, b] →
      Picks s (.fmin c f d a b) c p 4 f d (fun l j => (fm f).minMax false (code s f l a j) (code s f l b j)) ∧
      Picks s (.fmax c f d a b) c p 4 f d (fun l j => (fm f).minMax true (code s f l a j) (code s f l b j)) ∧
      Picks s (.famax c f d a b) c p 4 f d (fun l j => (fm f).absMax (code s f l a j) (code s f l b j)) ∧
      ∃ y : Nat → W64, (∀ l ∈ p, ∀ j, (y l).getLsbD j = (decide (j < count f) && (k.float (num s f l a j) (num s f l b j)).1)) ∧
        s.Writes (.fcmp c k f e a b) c p 4 (fun l => [(.g e, .w (y l)),
          (.s .fsr, .orF (flagsOf (count f) fun j => (0, (k.float (num s f l a j) (num s f l b j)).2)))])) ∧
    (s.Acts c (.fixC 12 [.v a]) p → Tagged s f p [a] →
      Picks s (.fexp2 c f d a) c p 12 f d (fun l j => (fm f).transcend 0 (code s f l a j) (num s f l a j).exp2) ∧
      Picks s (.flog2 c f d a) c p 12 f d (fun l j => (fm f).transcend 1 (code s f l a j) (num s f l a j).log2) ∧
      Picks s (.ftanh c f d a) c p 12 f d (fun l j => (fm f).transcend 2 (code s f l a j) (num s f l a j).tanh))

/-- R210, R96: `FRED` gives every participant, for each element position, the combination of the participants' elements along the tree over
the 32 lanes, a lane outside contributing −0, +inf or −inf, and the OR of the flags of every node. R217: `SCALE` writes to every element
the scale whose M × 2^t is the smallest that bounds the magnitudes. R222: `CBENC` writes the code of the nearest entry. -/
def Obligations.ReductionAndScale : Prop :=
  ∀ (s : State) (c : Ctl) (op : RedOp) (f : FFmt) (r : Rnd) (d a : VReg) (cb : CReg) (p : List Nat),
    (s.Acts c (.fixC 10 [.v a]) p → Tagged s f p [a] →
      Picks s (.fred c op f r d a) c p 10 f d (fun _ j => overTree (redNode op (fm f) r)
        (fun i => (if i ∈ p then code s f i a j else absent (fm f) op, 0)) 5 0)) ∧
    (∀ h : FFmt, h = .f32 ∨ h = .bf16 ∨ h = .f16 → f = .e4m3 ∨ f = .e5m2 ∨ f = .e2m1 → s.Acts c (.fixC 6 [.v a]) p →
      Tagged s h p [a] → ∃ y : Nat → Nat × BitVec 5, (∀ l ∈ p, IsScale (fm f) (count h) (num s h l a) (y l)) ∧
        VecWrites s (.scale c f d a) c p 6 d (fun _ => 0x90#8) 32 4 (fun l j => ((y l).1, if j = 0 then (y l).2 else 0)) (fun _ => [])) ∧
    (∀ h : FFmt, h = .f32 ∨ h = .bf16 → s.Acts c (.fixC 8 [.v a]) p → Tagged s h p [a] →
      VecWrites s (.cbenc c d a cb) c p 8 d (fun _ => 0xA#4 ++ 0#2 ++ cb) 4 32
        (fun l j => if j < count h then cbEncode s (s.codebook (tid s.curG l) cb) (num s h l a j) else (0, 0)) (fun _ => []))

namespace Sys2Proof.Slice0
open Machine

/-- The element of a conversion's source that element j of its result comes from: part k when it widens (R211). -/
def part (wa wd k j : Nat) : Nat := if wa < wd then k * (128 / wd) + j else j

/-- The part that a conversion names is one its source has (R211). -/
def partOk (wa wd k : Nat) : Prop := if wa < wd then k < wd / wa else k = 0

/-- A conversion's result, element by element: the codes beyond the source's elements are zero (R211). -/
def converted (wa : Nat) (out : Nat → Nat × BitVec 5) (j : Nat) : Nat × BitVec 5 := if j < 128 / wa then out j else (0, 0)

/-- The constant that a conversion's third source is; absent means 0 (R211). -/
def partOf : Option (BitVec 6) → Nat
  | none => 0
  | some n => n.toNat

end Sys2Proof.Slice0

/-- R211, R212: `FCVT` rounds each element of a source of a format without geometry to its format; `ICVT` rounds integers of the named type
to floating elements, or floating elements to integers, as the source tag must say. A widening takes the part k, a narrowing leaves the
codes above the source's elements zero. Latency 4. -/
def Obligations.Conversions : Prop :=
  ∀ (s : State) (c : Ctl) (f : FFmt) (r : Rnd) (sat : Bool) (d a : VReg) (k : Option (BitVec 6)) (p : List Nat),
    (s.Acts c (.fixC 4 ([.v a] ++ rndRegs r)) p → ∀ (tag : Nat → Byte) (wa : Nat → Nat), (∀ l, tag l = (vreg s l a).tag) →
      (∀ l, wa l = fmtWidth (tagFmt (tag l))) → (∀ l ∈ p, tagVOk (tag l) = true ∧ (tagFmt (tag l) ≤ 6 ∨ tagFmt (tag l) = 10) ∧
        (r = .rs → (fm f).w ≤ wa l) ∧ partOk (wa l) (fm f).w (partOf k)) →
      VecWrites s (.fcvt c f r sat d a (k.map .k)) c p 4 d (fun _ => ftag f) (fm f).w (count f)
        (fun l => converted (wa l) fun j => rounded (fm f) r sat (srs s l) j
          (elemVal (tagFmt (tag l)) (s.codebook (tid s.curG l) (tagCbs (tag l)))
            (elemAt (wa l) (vreg s l a).bits (part (wa l) (fm f).w (partOf k) j))).exact)
        (fun l => stepped r (min (count f) (128 / wa l)) (srs s l))) ∧
    (s.Acts c (.fixC 4 [.v a]) p → ∀ narrow : Bool, let iw := if narrow then 8 else 32; let itag := if narrow then 0x70#8 else 0x90#8
      ((∀ l ∈ p, (vreg s l a).tag = itag) → partOk iw (fm f).w (partOf k) →
        VecWrites s (.icvt c f r true narrow d a (k.map .k)) c p 4 d (fun _ => ftag f) (fm f).w (count f)
          (fun l => converted iw fun j => rounded (fm f) r false 0 j
            (FVal.ofInt ((vreg s l a).bits.extractLsb' (iw * part iw (fm f).w (partOf k) j) iw).toInt).exact) (fun _ => [])) ∧
      (Tagged s f p [a] → partOk (fm f).w iw (partOf k) →
        VecWrites s (.icvt c f r false narrow d a (k.map .k)) c p 4 d (fun _ => itag) iw (128 / iw)
          (fun l => converted (fm f).w fun j =>
            let y := (num s f l a (part (fm f).w iw (partOf k) j)).toInt iw r
            ((BitVec.ofInt iw y.1).toNat, y.2)) (fun _ => [])))

/-- R213–R216: `FPACK` joins the low halves of two registers of one valid tag, `FUNPK` moves one half down, `VMOV` copies a vector register
or writes it to a pair, `VTAG` and `VRETAG` write bits unchanged with a new tag, all with latency 4; `SEED` sets the generator from the
low 32 bits of its source and the thread's number, never to zero, with latency 2. A source whose tag is EMPTY or invalid, or that differs from
the first source's, raises `FORMAT` in every lane concerned. -/
def Obligations.VectorMoves : Prop :=
  ∀ (s : State) (c : Ctl) (f : FFmt) (d a b : VReg) (e g : GReg) (k : BitVec 6) (cb : CReg) (x : Src) (p : List Nat),
    let tag := f.code ++ 0#2 ++ cb
    (s.Acts c (.fixC 4 [.v a, .v b]) p → (∀ l ∈ p, tagVOk (vreg s l a).tag = true ∧ (vreg s l b).tag = (vreg s l a).tag) →
      s.Writes (.fpack c d a b) c p 4
        (fun l => [(.v d, .v ⟨(vreg s l b).bits.setWidth 64 ++ (vreg s l a).bits.setWidth 64, (vreg s l a).tag⟩)])) ∧
    (s.Acts c (.fixC 4 [.v a]) p → (∀ l ∈ p, tagVOk (vreg s l a).tag = true) →
      s.Writes (.funpk c d a (.k k)) c p 4
        (fun l => [(.v d, .v ⟨0#64 ++ (vreg s l a).bits.extractLsb' (64 * k.toNat) 64, (vreg s l a).tag⟩)]) ∧
      s.Writes (.vmov c (.v d) a) c p 4 (fun l => [(.v d, .v (vreg s l a))]) ∧
      s.Writes (.vmov c (.g e) a) c p 4 (fun l =>
        [(.g e, .w ((vreg s l a).bits.setWidth 64)), (.g (e + 1), .w ((vreg s l a).bits.extractLsb' 64 64))]) ∧
      s.Writes (.vretag c f cb d a) c p 4 (fun l => [(.v d, .v ⟨(vreg s l a).bits, tag⟩)])) ∧
    (s.Acts c (.fixC 4 [.v a, .v b]) p → s.Handled p →
      (∀ l ∈ p, tagVOk (vreg s l a).tag = false ∨ (vreg s l b).tag ≠ (vreg s l a).tag) →
      s.Traps (.fpack c d a b) c p (fun l => own s 0 3
        ((if tagVOk (vreg s l a).tag then (vreg s l b).tag else (vreg s l a).tag).setWidth 64))) ∧
    (∀ i, (i = .funpk c d a (.k k) ∨ i = .vmov c (.v d) a ∨ i = .vmov c (.g e) a ∨ i = .vretag c f cb d a) →
      s.Acts c (.fixC 4 [.v a]) p → s.Handled p → (∀ l ∈ p, tagVOk (vreg s l a).tag = false) →
      s.Traps i c p (fun l => own s 0 3 ((vreg s l a).tag.setWidth 64))) ∧
    (s.Acts c (.fixC 4 (pairRegs g)) p →
      s.Writes (.vtag c f cb d (.g g)) c p 4 (fun l => [(.v d, .v ⟨src s l (.g (g + 1)) ++ src s l (.g g), tag⟩)])) ∧
    (s.Acts c (.fixC 4 []) p → ∀ y : W64,
      s.Writes (.vtag c f cb d (.k k)) c p 4 (fun _ => [(.v d, .v ⟨k.setWidth 128, tag⟩)]) ∧
      s.Writes (.vtag c f cb d (.lit y)) c p 4 (fun _ => [(.v d, .v ⟨y.setWidth 128, tag⟩)])) ∧
    (s.Acts c (.fixC 2 x.regs) p → ∃ y : Nat → BitVec 32, s.Writes (.seed c x) c p 2 (fun l => [(.s .srs, .w ((y l).setWidth 64))]) ∧
      ∀ l ∈ p, let t := tid s.curG l
        let z := (src s l x).setWidth 32 ^^^ (0x01010101#32 * BitVec.ofNat 32 (t % 256)) ^^^ (BitVec.ofNat 32 (t / 256) <<< 20)
        y l = if z = 0 then 0x6D2B79F5#32 else z)

/-- R205, R204, R85: an arithmetic word on a source that does not carry its format raises `FORMAT`, with the tag of the first such source,
in every lane concerned, and leaves every destination, `fsr` and `srs` of that lane unchanged. -/
def Obligations.WrongTags : Prop :=
  ∀ (s : State) (c : Ctl) (f : FFmt) (r : Rnd) (d a b x : VReg) (i : Instr) (lat : Nat) (srcs : List VReg) (p : List Nat),
    ((i = .fadd c f r d a b ∨ i = .fsub c f r d a b ∨ i = .fmul c f r d a b) ∧ lat = 4 ∧ srcs = [a, b] ∨
     i = .ffma c f r d a b x ∧ lat = 4 ∧ srcs = [a, b, x] ∨
     (i = .frcp c f r d a ∨ i = .frsq c f r d a ∨ i = .fsqrt c f r d a) ∧ lat = 12 ∧ srcs = [a]) →
    s.Acts c (.fixC lat (srcs.map .v ++ rndRegs r)) p → s.Handled p → (∀ l ∈ p, ∃ y ∈ srcs, (vreg s l y).tag ≠ ftag f) →
      s.Traps i c p (fun l => own s 0 3
        ((((srcs.map (vreg s l)).find? fun v => v.tag ≠ ftag f).getD VVal.zero).tag.setWidth 64))

/-- R87: an exact result that a format represents is delivered as it stands, whatever the mode, with no flag: rounding the value of any
code of a format gives that code back. -/
def Obligations.ExactResultsStand : Prop :=
  ∀ (f : FFmt) (r : Rnd) (sat : Bool) (x0 : BitVec 32) (j n : Nat), f ≠ .s4 → f ≠ .cb4 → n < 2 ^ (fm f).w →
    (∀ b, (fm f).dec n ≠ .nan b) → rounded (fm f) r sat x0 j ((fm f).dec n).exact = (n, 0)

namespace Sys2Proof.Slice0
open Machine

/-- What a word's action is, for a word whose effects are its register results, a matrix result and the operation it enters. -/
def did (s : State) (m : Option (MReg × MVal × BitVec 32)) (k : OpKind) (done : Bool) (queue : Option Nat) : Acted :=
  ⟨s, [], m, k, done, queue, []⟩

/-- A variable-latency word completes or enters its operation in each participant, writes registers and goes on (`State.Completed`). -/
def Enters (s : State) (i : Instr) (c : Ctl) (w : WordSpec) (a : Acted) (p : List Nat) (wr : Nat → List (RegId × RVal)) : Prop :=
  s.Completed i c w a p (fun _ => s.curNext) wr

/-- Element (i, j) of a matrix register, as a code (R84). -/
def at2 (m : MVal) (i j : Nat) : Nat := (mget 0 m.elems (32 * i + j)).toNat

/-- The scale block of element (i, j) under a geometry: square 16, square 32, vector 32 (R81). -/
def blockOf (geom : BitVec 2) (i j : Nat) : Nat :=
  if geom = 1 then 2 * (i / 16) + j / 16 else if geom = 3 then i else 0

/-- The number of scale blocks of a geometry (R81). -/
def blocks (geom : BitVec 2) : Nat := if geom = 1 then 4 else if geom = 2 then 1 else if geom = 3 then 32 else 0

/-- The scale element of block n that `QNT` takes: of lane 0, or under vector 32 of lane n (R218). -/
def scaleElem (s : State) (geom : BitVec 2) (v : VReg) (n : Nat) : Int :=
  if geom = 3 then ((vreg s n v).bits.extractLsb' 0 32).toInt else ((vreg s 0 v).bits.extractLsb' (32 * n) 32).toInt

/-- The third and second sources of `QNT` for a geometry (R218). -/
def qntSrc (geom : BitVec 2) (v : VReg) : Option (VReg × Src) := if geom = 0 then none else some (v, .k (geom.setWidth 6))

/-- A value over its scale, as `QNT` rounds it; the scale 255 is a NaN, with NV (R218). -/
def overScale (b : Int) (x : FVal) : Exact := if b = 255 then .nan true else (x.scale (127 - b)).exact

/-- A value times its scale, as `DQNT` rounds it (R219). -/
def timesScale (b : Nat) (x : FVal) : Exact := if b = 255 then .nan true else (x.scale ((b : Int) - 127)).exact

end Sys2Proof.Slice0

/-- R218, R219: `QNT` on a tile of a floating format, in all 32 lanes, with scale elements of 0 to 255, enters an operation that writes a tile
of the target format and geometry: each element over its block's scale, rounded once, and the scale bytes; lane i takes the flags of row
i, and under `.rs` a step for each element of its row. `DQNT` writes each element times its block's scale, rounded once. -/
def Sys2Proof.Slice0.TileQuantisationRule : Prop :=
  ∀ (s : State) (c : Ctl) (f : FFmt) (r : Rnd) (sat : Bool) (d a : MReg) (geom : BitVec 2) (v : VReg) (p : List Nat),
    let m := s.readM s.curG a
    let h := tagFmt m.tag
    p = List.range 32 →
    (s.Acts c { WordSpec.var .c ((if geom = 0 then [] else [.v v]) ++ rndRegs r) with mreads := [a] } p →
      tagOk m.tag = true → h ≤ 3 → (geom ≠ 0 → ∀ l ∈ p, (vreg s l v).tag = 0x90#8) →
      (∀ n < blocks geom, 0 ≤ scaleElem s geom v n ∧ scaleElem s geom v n ≤ 255) →
      let b := fun i j => if geom = 0 then 127 else scaleElem s geom v (blockOf geom i j)
      let out := fun i j => rounded (fm f) r sat (srs s i) j (overScale (b i j) ((fdesc h).dec (at2 m i j)))
      ∃ y : MVal, y.tag = f.code ++ geom ++ 0#2 ∧ (∀ i < 32, ∀ j < 32, at2 y i j = (out i j).1) ∧
        (∀ n < 32, y.scale.extractLsb' (8 * n) 8 = if n < blocks geom then BitVec.ofInt 8 (scaleElem s geom v n) else 0) ∧
        Enters s (.qnt c f r sat d a (qntSrc geom v)) c
          { WordSpec.var .c ((if geom = 0 then [] else [.v v]) ++ rndRegs r) with mreads := [a] }
          (did s (some (d, y, BitVec.allOnes 32)) .plain true none) p
          (fun l => [(.s .fsr, .orF (flagsOf 32 (out l)))] ++ stepped r 32 (srs s l))) ∧
    (s.Acts c { WordSpec.var .c [] with mreads := [a] } p → tagOk m.tag = true → h ≠ 9 →
      let b := fun i j => if tagGeom m.tag = 0 then 127 else
        (m.scale.extractLsb' (8 * blockOf (BitVec.ofNat 2 (tagGeom m.tag)) i j) 8).toNat
      let out := fun i j => rounded (fm f) r false 0 j (timesScale (b i j) (elemVal h (s.codebook (tid s.curG i) (tagCbs m.tag)) (at2 m i j)))
      ∃ y : MVal, y.tag = ftag f ∧ (∀ i < 32, ∀ j < 32, at2 y i j = (out i j).1) ∧ y.scale = 0 ∧
        Enters s (.dqnt c f r d a) c { WordSpec.var .c [] with mreads := [a] } (did s (some (d, y, BitVec.allOnes 32)) .plain true none)
          p (fun l => [(.s .fsr, .orF (flagsOf 32 (out l)))]))

/-- R220: `CBLD` takes the two registers of the lowest participant, which carry BF16, as the sixteen entries of the codebook that its
completion puts in place. -/
def Sys2Proof.Slice0.CodebookLoadRule : Prop :=
  ∀ (s : State) (c : Ctl) (cb : CReg) (a b : VReg) (l : Nat) (p : List Nat),
    s.Acts c { WordSpec.var .c [] with lead := [.v a, .v b] } (l :: p) → (vreg s l a).tag = 0x20#8 → (vreg s l b).tag = 0x20#8 →
      Enters s (.cbld c cb a b) c { WordSpec.var .c [] with lead := [.v a, .v b] }
        (did s none (.cbld (s.grp s.curG).wg cb ((vreg s l b).bits ++ (vreg s l a).bits)) true none) (l :: p) (fun _ => [])

/-- Tile quantisation and codebook loads, as the two parts say.
Where the spec leaves a point open it follows the model's choice: log entry 39. -/
def Obligations.TilesQuantisedAndCodebooks : Prop := Slice0.TileQuantisationRule ∧ Slice0.CodebookLoadRule

namespace Sys2Proof.Slice0
open Machine

/-- What a load puts into its destination: a v register takes all its bits and tag INT32, a pair the two halves, another g register the
low bits extended as the type says (R228). -/
def loaded (t : ITy) (d : Dat) (x : Nat) : List (RegId × RVal) :=
  match d with
  | .v r => [(.v r, .v ⟨BitVec.ofNat 128 x, 0x90#8⟩)]
  | .g r => if t = .b128 then [(.g r, .w (BitVec.ofNat 64 x)), (.g (r + 1), .w (BitVec.ofNat 64 (x / 2 ^ 64)))]
    else toG r (fit t (BitVec.ofNat t.width x))

/-- The byte j of an access at a place: in the scratchpad, or in physical memory. -/
def spByte : Spot → Nat → Option Nat
  | .sp k _, j => some (k + j)
  | _, _ => none
/-- The byte j of an access at a place of physical memory. -/
def memByte : Spot → Nat → Option Nat
  | .mem p _, j => some (p.at j)
  | _, _ => none

/-- A recorded write covers a byte of a space. -/
def Covers (r : WriteRec) (space : Space) (A : Nat) : Prop := r.space = space ∧ r.addr ≤ A ∧ A < r.addr + r.old.length

/-- WHAT A THREAD FINDS IN A BYTE that it reads by a path kind (R68, R69, R114, R119): the present byte where it knows of every recorded write
of the byte, a write of another path kind by a `VFENCE` between; in any case the present byte, or one that a recorded write replaced. -/
def Finds (s : State) (t : Nat) (space : Space) (kind A b : Nat) : Prop :=
  ((∀ r ∈ s.writes, Covers r space A → (if r.kind.toNat = kind then s.knows t r else s.crosses t r) = true) →
    b = (s.byteOf space A).toNat) ∧
  (b = (s.byteOf space A).toNat ∨ ∃ r ∈ s.writes, Covers r space A ∧ b = (r.old.getD (A - r.addr) 0).toNat)

/-- The number x holds the bytes that a thread finds at a place, the lowest address least significant; a dropped lane reads zero
(R10, R58, R230). -/
def Holds (s : State) (t w : Nat) (q : Spot) (x : Nat) : Prop :=
  x < 256 ^ w ∧ (q = .drop → x = 0) ∧
  (∀ k a, q = .sp k a → ∀ j < w, Finds s t .sp 0 (k + j) (x / 256 ^ j % 256)) ∧
  (∀ p va, q = .mem p va → ∀ j < w, Finds s t .mem p.kind (p.at j) (x / 256 ^ j % 256))

/-- Reads change nothing but the caches of translations, the rows that the slices hold open, and what agents know of the writes. -/
def Read (s u : State) : Prop :=
  u = { s with tlb := u.tlb, tabs := u.tabs, slices := u.slices, writes := u.writes, hole := u.hole }

/-- The reads of some lanes at their places, one lane after the other (R60, R230). -/
def ReadSteps (g w : Nat) (acq : Option (BitVec 4)) (q : Nat → Spot) (x : Nat → Nat) : List Nat → State → State → Prop
  | [], s, u => u = s
  | l :: p, s, u => ∃ m, s.readSpot (tid g l) w acq (q l) = (m, .inl (x l)) ∧ ReadSteps g w acq q x p m u

/-- A load in the lanes `p`, at a scope if it acquires: where every address translates and no stored error is read, it enters an operation
whose results are the bytes found at the places (R108, R230). -/
def LoadWord (s : State) (i : Instr) (c : Ctl) (t : ITy) (acq : Option (BitVec 4)) (d : Dat) (a : AAddr) (p : List Nat) : Prop :=
  ∀ (s1 s2 : State) (q : Nat → Spot) (x : Nat → Nat), a.spots s s.curG Need.load 0 t.bytes p = (s1, p.map q) → s1.hole = false →
    ReadSteps s.curG t.bytes acq q x p s1 s2 →
    Read s s2 ∧ (∀ l ∈ p, Holds s (tid s.curG l) t.bytes (q l) (x l)) ∧
    Enters s i c (accessSpec a.regs) (did s2 none .plain true none) p (fun l => loaded t d (x l))

/-- THE BYTES THAT SOME STORES LEAVE, in ascending order of lanes: every byte outside the places is as it was; every byte of a place that
no later lane and no later byte of the access covers is the byte of its lane's data (R10, R60, R230). -/
def StoredBytes (m0 m1 : Memory) (addr : Spot → Nat → Option Nat) (w : Nat) (p : List Nat) (q : Nat → Spot) (v : Nat → Nat) : Prop :=
  (∀ A, (∀ l ∈ p, ∀ j < w, addr (q l) j ≠ some A) → Memory.byte m1 A = Memory.byte m0 A) ∧
  (∀ l ∈ p, ∀ j < w, ∀ A, addr (q l) j = some A → (∀ k, j < k → k < w → addr (q l) k ≠ some A) →
    (∀ l' ∈ p, l < l' → ∀ k < w, addr (q l') k ≠ some A) → Memory.byte m1 A = BitVec.ofNat 8 (v l / 256 ^ j))

/-- A store in the lanes `p`, at a scope if it releases: where every address translates, and no error in a queue discards it, it enters an
operation, and the data stand at the places (R108, R230). -/
def StoreWord (s : State) (i : Instr) (c : Ctl) (t : ITy) (rel : Option (BitVec 4)) (a : AAddr) (x : Dat) (p : List Nat) : Prop :=
  ∀ (s1 : State) (q : Nat → Spot) (v : Nat → Nat), (∀ l ∈ p, s.storeData (tid s.curG l) t x = .inl (v l)) →
    a.spots s s.curG Need.store 1 t.bytes p = (s1, p.map q) → s1.hole = false → (∀ l ∈ p, ∀ r, q l ≠ .bad r) →
    (∀ l ∈ p, s.spoiled (tid s.curG l) = false) →
    ∃ u, u = p.foldl (fun u l => u.writeSpot (tid s.curG l) t.bytes (v l) rel none (q l)) s1 ∧ s.Looked s1 ∧
      StoredBytes s.sp u.sp spByte t.bytes p q v ∧ StoredBytes s.mem u.mem memByte t.bytes p q v ∧
      Enters s i c (accessSpec (a.regs ++ x.regs t)) (did u none .plain true none) p (fun _ => [])

/-- The read of an atomic at its place; a dropped lane reads zero (R58, R108, R112, R236). -/
def AtomRead (s : State) (t w : Nat) (ord : Ordr) (sc : Scope) (m : State) (x : Nat) : Spot → Prop
  | .sp k _ => s.latentSp k w = false ∧ ∃ b, (if ord = .ar then s.fenceBy t sc.code else s).seeAtomic t sc.code (acquires ord sc).isSome .sp
      ((List.range w).map (k + ·)) = (m, b) ∧ x = leVal b
  | .mem p _ => s.latentAt p w = none ∧ ∃ b, (if ord = .ar then s.fenceBy t sc.code else s).seeAtomic t sc.code (acquires ord sc).isSome .mem
      (State.spots p w) = (m, b) ∧ x = leVal b
  | .drop => m = s ∧ x = 0
  | .bad _ => False

/-- The steps of an atomic, one lane after the other: each reads the old value at its place and writes the new one (R236). -/
def AtomSteps (g w : Nat) (ord : Ordr) (sc : Scope) (f : Nat → Nat → Nat) (q : Nat → Spot) (o : Nat → Nat) : List Nat → State → State → Prop
  | [], s, u => u = s
  | l :: p, s, u => ∃ m, AtomRead s (tid g l) w ord sc m (o l) (q l) ∧
      AtomSteps g w ord sc f q o p (m.writeSpot (tid g l) w (f l (o l)) (releases ord sc) (some sc.code) (q l)) u

/-- The write of an atomic's optional destination. -/
def dest (d : Option GReg) (x : W64) : List (RegId × RVal) := match d with | none => [] | some r => toG r x

/-- An atomic in the lanes `p`: where every address translates, to no view, and no stored error is read, each lane in turn reads its old
value and writes the new one; the destination takes the old value, 0 in a dropped lane; an idempotent region ends (R45, R236). -/
def Atomic (s : State) (i : Instr) (c : Ctl) (w : Nat) (ord : Ordr) (sc : Scope) (a : AAddr) (xs : List GReg) (p : List Nat)
    (f : Nat → Nat → Nat) (wr : Nat → Nat → List (RegId × RVal)) (flags : Nat → Nat → List (RegId × RVal)) : Prop :=
  ∀ (s1 u : State) (q : Nat → Spot) (o : Nat → Nat), a.spots s s.curG Need.atomic 2 w p = (s1, p.map q) → s1.hole = false →
    (∀ l ∈ p, ∀ k d off va, q l ≠ .mem (.view k d off) va) → (∀ l ∈ p, s.spoiled (tid s.curG l) = false) →
    AtomSteps s.curG w ord sc f q o p s1 u →
    s.Looked s1 ∧ Enters s i c { accessSpec (a.regs ++ xs.map .g) with ends := true } (did u none .plain true none) p
      (fun l => wr l (o l) ++ if q l = .drop then [] else flags l (o l))

/-- An integer atomic with an operation on the old value and the operand (R237). -/
def IntAtomic (s : State) (i : Instr) (c : Ctl) (t : ITy) (ord : Ordr) (sc : Scope) (d : Option GReg) (a : AAddr) (x : GReg) (p : List Nat)
    (op : BitVec t.width → BitVec t.width → BitVec t.width) : Prop :=
  Atomic s i c t.bytes ord sc a [x] p (fun l o => (op (BitVec.ofNat t.width o) (val s t l (.g x))).toNat)
    (fun _ o => dest d (fit t (BitVec.ofNat t.width o))) (fun _ _ => [])

/-- The word type of an `AMAXRST` (R237). -/
def resetTy : MaxTy → ITy
  | .f32 => .n32
  | .s32 => .s32
  | .s64 => .s64
  | .n32 => .n32
  | .n64 => .n64

/-- A single-precision or BF16 operand of lane l, as a value. -/
def fnum (s : State) (k : FDesc) (l : Nat) (x : GReg) : Nat := ((src s l (.g x)).toNat) % 2 ^ k.w

end Sys2Proof.Slice0

/-- R228, R230, R58: `LD` through a buffer record and `LDS` from the scratchpad. -/
def Sys2Proof.Slice0.LoadsRule : Prop :=
  ∀ (s : State) (c : Ctl) (t : ITy) (o : Ordr) (sc : Scope) (d : Dat) (b : BReg) (i : GReg) (a : SpOp) (p : List Nat),
    (s.Acts c (accessSpec [.g i]) p → LoadWord s (.ld c t o sc d b i) c t (acquires o sc) d (.buf b i) p) ∧
    (s.Acts c (accessSpec [.g a.base]) p → LoadWord s (.lds c t o sc d a) c t (acquires o sc) d (.sp a) p)

/-- R228, R230, R60: `ST` through a buffer record and `STS` to the scratchpad: in ascending lane order each lane's bytes are written at its
place, and every byte outside the places is as it was. -/
def Sys2Proof.Slice0.StoresRule : Prop :=
  ∀ (s : State) (c : Ctl) (t : ITy) (o : Ordr) (sc : Scope) (x : Dat) (b : BReg) (i : GReg) (a : SpOp) (p : List Nat),
    (s.Acts c (accessSpec ([.g i] ++ x.regs t)) p → StoreWord s (.st c t o sc b i x) c t (releases o sc) (.buf b i) x p) ∧
    (s.Acts c (accessSpec ([.g a.base] ++ x.regs t)) p → StoreWord s (.sts c t o sc a x) c t (releases o sc) (.sp a) x p)

/-- Loads and stores, as the two parts say.
Where the spec leaves a point open it follows the model's choice: log entries 4 and 17. -/
def Obligations.LoadsAndStores : Prop := Slice0.LoadsRule ∧ Slice0.StoresRule

/-- R236, R237: the integer atomics: the sum modulo 2^w, the smaller or larger as the type compares, the bitwise operations, the operand, the
reset value, and 0 or the old value plus 1; `ACAS` writes its odd register where the old value is its even one bit for bit. -/
def Sys2Proof.Slice0.IntegerAtomicsRule : Prop :=
  ∀ (s : State) (c : Ctl) (t : ITy) (m : MaxTy) (o : Ordr) (sc : Scope) (d : Option GReg) (a : AAddr) (x : GReg) (p : List Nat), t ≠ .b128 →
    (s.Acts c { accessSpec (a.regs ++ [.g x]) with ends := true } p →
      IntAtomic s (.aadd c t o sc d a x) c t o sc d a x p (fun o v => o + v) ∧
      IntAtomic s (.amin c t o sc d a x) c t o sc d a x p (fun o v => if less t v o then v else o) ∧
      IntAtomic s (.amax c t o sc d a x) c t o sc d a x p (fun o v => if less t o v then v else o) ∧
      (t.signed = false → IntAtomic s (.aand c t o sc d a x) c t o sc d a x p (fun o v => o &&& v) ∧
        IntAtomic s (.aor c t o sc d a x) c t o sc d a x p (fun o v => o ||| v) ∧
        IntAtomic s (.axor c t o sc d a x) c t o sc d a x p (fun o v => o ^^^ v)) ∧
      IntAtomic s (.axchg c t o sc d a x) c t o sc d a x p (fun _ v => v) ∧
      IntAtomic s (.aincw c t o sc d a x) c t o sc d a x p (fun o v => if less t o v then o + 1 else 0) ∧
      IntAtomic s (.amaxrst c m o sc d a x) c (resetTy m) o sc d a x p (fun _ v => v)) ∧
    (s.Acts c { accessSpec (a.regs ++ [.g x, .g (x + 1)]) with ends := true } p →
      Atomic s (.acas c t o sc d a x) c t.bytes o sc a [x, x + 1] p
        (fun l o => if o = (val s t l (.g x)).toNat then (val s t l (.g (x + 1))).toNat else o)
        (fun _ o => dest d (BitVec.ofNat 64 o)) (fun _ _ => []))

/-- R237: `AFADD` writes the sum rounded once to nearest even, and `AFMAX` the larger, or the canonical NaN; both OR their flags into `fsr`,
and the destination takes the old value. -/
def Sys2Proof.Slice0.FloatAtomicsRule : Prop :=
  ∀ (s : State) (c : Ctl) (t : AFTy) (o : Ordr) (sc : Scope) (d : Option GReg) (a : AAddr) (x : GReg) (p : List Nat),
    let k := match t with | .f32 => fm .f32 | .bf16 => fm .bf16
    let sum := fun l o => k.round .rne false (FVal.add .rne (k.dec o) (k.dec (fnum s k l x)))
    let big := fun l o => let v := fnum s (fm .f32) l x
      if ((fm .f32).dec o).isNan || ((fm .f32).dec v).isNan then
        (0x7FC00000, flagIf (((fm .f32).dec o).isSig || ((fm .f32).dec v).isSig) flagNV)
      else (fm .f32).minMax true o v
    s.Acts c { accessSpec (a.regs ++ [.g x]) with ends := true } p →
      Atomic s (.afadd c t o sc d a x) c (k.w / 8) o sc a [x] p (fun l o => (sum l o).1) (fun _ o => dest d (BitVec.ofNat 64 o))
        (fun l o => [(.s .fsr, .orF (sum l o).2)]) ∧
      Atomic s (.afmax c o sc d a x) c 4 o sc a [x] p (fun l o => (big l o).1) (fun _ o => dest d (BitVec.ofNat 64 o))
        (fun l o => [(.s .fsr, .orF (big l o).2)])

/-- R115: an atomic reads the present bytes, those of the latest write, wherever every recorded atomic of the bytes by another agent and
this one lie in each other's scope instances; in any case each byte is the present one or one that a recorded write replaced. -/
def Sys2Proof.Slice0.AtomicReadsRule : Prop :=
  ∀ (s : State) (t : Nat) (sc : BitVec 4) (acq : Bool) (space : Space) (at_ : List Nat),
    ((∀ r ∈ s.writes, ∀ A ∈ at_, Covers r space A → r.writer ≠ t → ∀ x, r.atomic = some x → s.reciprocal r.writer x t sc = true) →
      (s.seeAtomic t sc acq space at_).2 = at_.map (s.byteOf space)) ∧
    ∀ (j A : Nat) (b : Byte), at_[j]? = some A → (s.seeAtomic t sc acq space at_).2[j]? = some b →
      b = s.byteOf space A ∨ ∃ r ∈ s.writes, Covers r space A ∧ b = r.old.getD (A - r.addr) 0

/-- The atomics on integers and on floating values, and what they read, as the three parts say.
Where the spec leaves a point open it follows the model's choice: log entries 4 and 17. -/
def Obligations.Atomics : Prop := Slice0.IntegerAtomicsRule ∧ Slice0.FloatAtomicsRule ∧ Slice0.AtomicReadsRule

/-- R231, R235, R232, R112, R119: `PREF` translates its lines and completes; a `FENCE.rw` takes the place of each participant in the order of
fences, and a `FENCE` of another kind completes; `VFENCE` orders what each participant wrote and knows before other path kinds; both
change nothing but what agents know of the writes; `LFENCE` discards the cluster's cached layout records of the region's context; `BRLD` enters an operation
that puts the record at its address into its buffer register.
Where the spec leaves a point open it follows the model's choice: log entry 39. -/
def Obligations.FencesAndRecords : Prop :=
  ∀ (s : State) (c : Ctl) (t : ITy) (k : FKind) (sc : Scope) (b : BReg) (i a : GReg) (off : BitVec 16) (p : List Nat),
    (s.Acts c { WordSpec.fixC 1 [.g i] with access := true } p → ∀ s1 q,
      (AAddr.buf b i).spots s s.curG Need.load 0 t.bytes p = (s1, q) → s1.hole = false →
      s.Looked s1 ∧ Enters s (.pref c t b i) c { WordSpec.fixC 1 [.g i] with access := true } (did s1 none .plain true none) p (fun _ => [])) ∧
    (s.Acts c (.var .c []) p →
      (∃ u, u = (if k = .rw then p.foldl (fun u l => u.fenceBy (tid s.curG l) sc.code) s else s) ∧ u = { s with writes := u.writes } ∧
        Enters s (.fence c k sc) c (.var .c []) (did u none .plain true none) p (fun _ => [])) ∧
      (∃ u, u = p.foldl (fun u l => u.vfenceBy (tid s.curG l) sc.code) s ∧ u = { s with writes := u.writes } ∧
        Enters s (.vfence c sc) c (.var .c []) (did u none .plain true none) p (fun _ => [])) ∧
      Enters s (.lfence c) c (.var .c [])
        (did { s with layouts := if p = [] then s.layouts else s.layouts.filter fun e =>
          ¬(e.cluster = coreCluster s.cur.core ∧ e.asid = (s.grpRes s.curG).asid ∧ e.world = (s.grpRes s.curG).world) }
          none .plain true none) p (fun _ => [])) ∧
    (∀ l, s.Acts c { accessSpec [] with lead := [.g a] } (l :: p) → ∀ s1 r,
      s.readRecord s.curG (tid s.curG l) (src s l (.g a) + off.signExtend 64) = (s1, .inl r) → s1.hole = false →
      Read s s1 ∧ bufRecTrap r = none ∧ Enters s (.brld c b a off) c { accessSpec [] with lead := [.g a] }
        (did s1 none (.brld (s.grp s.curG).wg b r) true none) (l :: p) (fun _ => []))

/-- R239: `LDX`, in lanes that owe no part of an earlier one, checks each lane's scratchpad destination and element, and enters one operation
of the core's queue with the moves of all lanes; its barrier takes the arrival at the operation's end; an idempotent region ends.
Where the spec leaves a point open it follows the model's choice: log entry 19. -/
def Obligations.ScratchpadLoads : Prop :=
  ∀ (s : State) (c : Ctl) (t : ITy) (n : Bar) (b : BReg) (i x : GReg) (p : List Nat) (y : Seen) (mv : Nat → Nat × Option Phys × Nat),
    let w : WordSpec := { accessSpec [.g i, .g x] with ends := true, lat := some 1 }
    s.Acts c w p → p ≠ [] → (∀ l ∈ p, s.ldxOwed s.curG l = none) →
    Seen.each (ldxLane s.curG t.bytes (fun l => s.bufRec (tid s.curG l) b) s x i) p ⟨s, []⟩ = (y, p.map fun l => .inl (mv l)) → y.st.hole = false →
    s.Looked y.st ∧ Enters s (.ldx c t n b i x) { c with ctr := none } w
      (did (y.st.enterOp s.curG (maskOf p) none (some 6) (.ldx n t.bytes (p.map mv) 0 s.cur.core) false).1 none .plain true none) p
      (fun _ => [])

namespace Sys2Proof.Slice0
open Machine

/-- Layout records and translations change nothing but their caches, and the mark of an address where nothing exists. -/
def Fetched (s u : State) : Prop := u = { s with tlb := u.tlb, tabs := u.tabs, layouts := u.layouts, hole := u.hole }

/-- The tile that 32 rows of bytes and some scale bytes make (R84, R234). -/
def IsTile (tile : MVal) (lay : Layout) (bytes : Nat → List Byte) (scales : List (Nat × Nat)) : Prop :=
  let w := fmtWidth lay.fmt
  tile.tag = lay.tag ∧ (∀ i < 32, ∀ k < 32, at2 tile i k = leVal (bytes i) / 2 ^ (w * k) % 2 ^ w) ∧
  (∀ n v, (n, v) ∈ scales → tile.scale.extractLsb' (8 * n) 8 = BitVec.ofNat 8 v) ∧
  (∀ n < 32, (∀ e ∈ scales, e.1 ≠ n) → tile.scale.extractLsb' (8 * n) 8 = 0)

/-- A tile load changes nothing but caches, the rows that the slices hold open, and what agents know of the writes. -/
def Loaded (s u : State) : Prop := u = { s with
  tlb := u.tlb, tabs := u.tabs, layouts := u.layouts, slices := u.slices, writes := u.writes, hole := u.hole }

/-- Some writes of bytes at places, in order. -/
def writeAll (s : State) (l : List (Nat × Phys × List Byte)) : State := l.foldl (fun u e => u.writePhys e.1 e.2.1 e.2.2) s

end Sys2Proof.Slice0

/-- R233, R234, R445: `TLD` in all 32 lanes, where its handle, its coordinates and every line pass, writes a tile of the region's tag, its
rows' elements and its scale bytes, and changes nothing but caches. `TST` writes every row's elements and then the scale bytes at their
places, and every byte of memory outside them is as it was.
Where the spec leaves a point open it follows the model's choice: log entries 28 and 29. -/
def Obligations.Tiles : Prop :=
  ∀ (s : State) (c : Ctl) (d : MReg) (h : Src) (xy : GReg) (p : List Nat) (y0 y1 y2 : Seen) (lay : Layout) (x : TileAt) (q : Nat → Phys),
    let g := s.curG
    let w := fmtWidth lay.fmt
    p = List.range 32 → y2.st.hole = false →
    (s.Acts c { accessSpec [] with lead := h.regs ++ [.g xy] } p → ∀ (sc : List (Nat × List Nat × (Phys × Nat ⊕ LaneRes)))
        (vals : List (Nat × List Nat × (Nat ⊕ LaneRes))) (v : Nat → Nat) (bytes : Nat → List Byte) (s1 s2 : State),
      (⟨s, []⟩ : Seen).layout g Need.load 0 ((src s 0 h).toNat % 2 ^ 32) = (y0, .inl lay) → tileCheck lay (src s 0 (.g xy)) none = .inl x →
      tileScales g Need.load 0 x p y0 = (y1, sc) → readScales (tid g 0) sc y1.st = (s1, vals) → (∀ b ∈ vals, b.2.2 = .inl (v b.1)) →
      tileRows g Need.load 0 x (afterRead sc vals) p ⟨s1, y1.lines⟩ = (y2, p.map fun i => (i, .inl (q i, x.rowVa i))) →
      readRows g x.rowLen (p.map fun i => (i, .inl (q i, x.rowVa i))) y2.st = (s2, p.map fun i => (i, .inl (bytes i))) →
      ∃ tile, IsTile tile lay bytes (vals.map fun b => (b.1, v b.1)) ∧ Loaded s s2 ∧
        (∀ i < 32, (bytes i).length = x.rowLen ∧ ∀ j b, (bytes i)[j]? = some b → Finds s (tid g i) .mem (q i).kind ((q i).at j) b.toNat) ∧
        Enters s (.tld c d h xy) c { accessSpec [] with lead := h.regs ++ [.g xy] }
          (did (s2.tileOwe g s.curPc (p.map fun i => (i, .done))) (some (d, tile, BitVec.allOnes 32)) .plain true none) p (fun _ => [])) ∧
    (s.Acts c { accessSpec [] with lead := h.regs ++ [.g xy], mreads := [d] } p → ∀ (sc : List (Nat × List Nat × Phys × Nat)),
      (⟨s, []⟩ : Seen).layout g Need.store 1 ((src s 0 h).toNat % 2 ^ 32) = (y0, .inl lay) →
      tileCheck lay (src s 0 (.g xy)) (some (s.readM g d).tag) = .inl x →
      tileScales g Need.store 1 x p y0 = (y1, sc.map fun b => (b.1, b.2.1, .inl b.2.2)) →
      tileRows g Need.store 1 x (sc.map fun b => (b.1, b.2.1, .inl b.2.2)) p y1 = (y2, p.map fun i => (i, .inl (q i, x.rowVa i))) →
      ∃ (bytes : Nat → List Byte) (writes : List (Nat × Phys × List Byte)),
        writes = (p.map fun i => (tid g i, q i, bytes i)) ++
          (sc.map fun b => (tid g 0, b.2.2.1, [(s.readM g d).scale.extractLsb' (8 * b.1) 8])) ∧
        (∀ i < 32, (bytes i).length = 4 * w ∧ ∀ k < 32, leVal (bytes i) / 2 ^ (w * k) % 2 ^ w = at2 (s.readM g d) i k % 2 ^ w) ∧
        (∀ A, (∀ e ∈ writes, ∀ j < e.2.2.length, e.2.1.at j ≠ A) →
          Memory.byte (writeAll y2.st writes).mem A = Memory.byte s.mem A) ∧ Fetched s y2.st ∧
        Enters s (.tst c h xy d) c { accessSpec [] with lead := h.regs ++ [.g xy], mreads := [d] }
          (did ((writeAll y2.st writes).tileOwe g s.curPc (p.map fun i => (i, .done))) none .plain true none) p (fun _ => []))

namespace Sys2Proof.Slice0
open Machine

/-- A WORD LETS SOME OF ITS PARTICIPANTS GO ON AND PUTS THE OTHERS, `stays`, TO SLEEP at it (R21): `exec` answers a next state with the
sleeping waits `news`, lane l in the wait `id l` with its dependency counter one higher; the others, changed by `pre`, enter an operation
with the register writes `wr`; what agents know of the writes is `ws`; nothing else changes. -/
def Waits (s : State) (i : Instr) (c : Ctl) (w : WordSpec) (p : List Nat) (stays : Nat → Bool) (id : Nat → Nat) (news : List Sleeper)
    (ws : List WriteRec) (pre : Nat → Thread → Thread) (wr : Nat → List (RegId × RVal)) : Prop :=
  let go := p.filter fun l => !stays l
  let op := if go = [] then 0 else s.nextId + news.length
  ∃ u, exec i s = .next u ∧
    u.rest = { s.rest with
      sleepers := s.sleepers ++ news
      writes := ws
      nextId := s.nextId + news.length + (if go = [] then 0 else 1)
      ops := s.ops ++ (if go = [] then [] else [{ s.opOf s.curG (maskOf go) c.ctr none .plain true with id := op }]) } ∧
    (∀ h, (u.grp h).still = (s.grp h).still) ∧
    (∀ t, (∀ l ∈ lanesOf s.cur.lanes, t ≠ tid s.curG l) → u.thr t = s.thr t) ∧
    (∀ l ∈ lanesOf s.cur.lanes, l ∉ p → u.thr (tid s.curG l) = s.onward c s.curNext (s.thr (tid s.curG l))) ∧
    (∀ l ∈ p, u.thr (tid s.curG l) = if stays l then asleep s (id l) (State.incOf c (s.thr (tid s.curG l)))
      else s.laneAfter c w op s.curNext (wr l) (pre l (s.thr (tid s.curG l))))

/-- The one sleeping wait of the lanes of a path. -/
def oneWait (s : State) (c : Ctl) (ls : List Nat) (k : SleepKind) : List Sleeper :=
  if ls = [] then [] else [⟨s.nextId, s.curG, maskOf ls, wordAt s, s.curNext, c.ctr, s.cycle + c.stall.toNat + 1, k⟩]

/-- A barrier register after an arrival or a `BARI` has been looked at: where the count reaches a nonzero expected count, a round
completes (R245). -/
def roundOf (count expected : Nat) (parity : Bool) : Barrier :=
  if 0 < expected ∧ expected ≤ count then ⟨BitVec.ofNat 16 (count - expected), BitVec.ofNat 16 expected, !parity⟩
  else ⟨BitVec.ofNat 16 count, BitVec.ofNat 16 expected, parity⟩

/-- Whether two groups share a barrier register (R245). -/
def SameBar (s : State) (n : Bar) (g h : Nat) : Prop :=
  match n with
  | .nb _ => (s.grp g).wg = (s.grp h).wg
  | .kb _ => coreCluster (groupCore g) = coreCluster (groupCore h)

/-- What some arrivals on a barrier register leave before its waiters wake, when it takes a value: each arrival releases what its holder
knows, and where the parity turns, the round is over (R118, R245). -/
def arrived (s : State) (g : Nat) (n : Bar) (y : Barrier) (who : List Holder) : State :=
  let v := (who.foldl (fun v h => v.arrivalOf (s.barPlace g n) h (match h with | .agent a => [(a, barScope n)] | _ => [])) s).setBar g n y
  if y.parity = (s.bar g n).parity then v else v.roundOver (s.barPlace g n)

/-- A BARRIER REGISTER TAKES A VALUE after the arrivals of some holders: memory, the scratchpads and every other barrier register stay; where
nothing sleeps in `BARW` of it, nothing but the register and what agents know of the writes changes; of the one wait on it, the lanes
whose wait parity differs from the new parity take it and go on, and the others sleep on (R245). -/
structure BarTakes (s u : State) (g : Nat) (n : Bar) (y : Barrier) (who : List Holder) : Prop where
  value : u.bar g n = y
  mem : u.mem = s.mem
  sp : u.sp = s.sp
  others : ∀ h m, (m ≠ n ∨ ¬SameBar s n g h) → u.bar h m = s.bar h m
  quiet : (∀ z ∈ s.sleepers, z.kind ≠ .barw n) → u = arrived s g n y who
  waiter : ∀ z, s.sleepers = [z] → z.kind = .barw n → SameBar s n z.group g → (isBow (groupCore z.group) = true → z.lanes = 1#32) →
    let turned := fun l => mget false (s.thr (tid z.group l)).parity (barKey n) != y.parity
    (∀ l ∈ lanesOf z.lanes, u.thr (tid z.group l) = if turned l
      then { woken s z (s.thr (tid z.group l)) with parity := mset false (s.thr (tid z.group l)).parity (barKey n) y.parity }
      else s.thr (tid z.group l)) ∧
    (∀ t, (∀ l ∈ lanesOf z.lanes, t ≠ tid z.group l) → u.thr t = s.thr t) ∧
    (z.lanes ≠ 0 → (∀ l ∈ lanesOf z.lanes, turned l = true) → u.sleepers = []) ∧
    ((∀ l ∈ lanesOf z.lanes, turned l = false) → u.sleepers = [z])

end Sys2Proof.Slice0

/-- R245: `BARI` with n of 1 to 65,535 sets the expected count, and one round completes when the count already reaches it; `BARA` makes one
arrival for the whole path, saturating, which completes a round when it reaches a nonzero expected count; `BARW` lets the lanes whose
wait parity differs from the register's acquire and go on with the register's parity, and the others sleep. Each of them with an `nb`
register on a bow raises `ILLEGAL`.
That such an `ILLEGAL` has DETAIL 2 is the model's choice: log entry 26. -/
def Sys2Proof.Slice0.BarrierRegistersRule : Prop :=
  ∀ (s : State) (c : Ctl) (n : Bar) (x : Src) (p : List Nat),
    (noBar s.curG n = false →
      (∀ l, s.Acts c { engineSpec .a x.regs false with bow := true } (l :: p) → src s l x ≠ 0 → (src s l x).toNat ≤ 65535 →
        ∃ s', BarTakes s s' s.curG n (roundOf (s.bar s.curG n).count.toNat (src s l x).toNat (s.bar s.curG n).parity) [] ∧
          Enters s (.bari c n x) c { engineSpec .a x.regs false with bow := true } (did s' none .plain true none) (l :: p) (fun _ => [])) ∧
      (p ≠ [] → s.Acts c { engineSpec .a [] true with bow := true } p →
        ∃ s', BarTakes s s' s.curG n (roundOf (min ((s.bar s.curG n).count.toNat + 1) 65535) (s.bar s.curG n).expected.toNat
            (s.bar s.curG n).parity) (p.map fun l => .agent (tid s.curG l)) ∧
          Enters s (.bara c n) c { engineSpec .a [] true with bow := true } (did s' none .plain true none) p (fun _ => [])) ∧
      (s.Acts c { WordSpec.var .a [] with bow := true } p →
        let par := (s.bar s.curG n).parity
        let stays := fun l => mget false (s.thr (tid s.curG l)).parity (barKey n) == par
        NoReconv s stays p → Waits s (.barw c n) c { WordSpec.var .a [] with bow := true } p stays (fun _ => s.nextId)
          (oneWait s c (p.filter stays) (.barw n))
          ((p.filter fun l => !stays l).foldl (fun u l => u.waited (s.barPlace s.curG n) (tid s.curG l) (barScope n)) s).writes
          (fun _ x => { x with parity := mset false x.parity (barKey n) par }) (fun _ => []))) ∧
    (noBar s.curG n = true → s.Handled p → p ≠ [] →
      (s.Acts c { WordSpec.var .a [] with bow := true } p → s.Traps (.barw c n) c p (fun _ => own s 2 1 s.cur.raw)) ∧
      (s.Acts c { engineSpec .a [] true with bow := true } p → s.Traps (.bara c n) c p (fun _ => own s 2 1 s.cur.raw)) ∧
      (s.Acts c { engineSpec .a x.regs false with bow := true } p → s.Traps (.bari c n x) c p (fun _ => own s 2 1 s.cur.raw)))

/-- R246: `WAITA` in lanes whose words lie in their allocations and hold no stored error: a lane whose word equals the low w bits of its
operand takes the word and goes on; every other lane sleeps, in a wait of its own, until its word does. -/
def Sys2Proof.Slice0.WordWaitsRule : Prop :=
  ∀ (s : State) (c : Ctl) (t : ITy) (sc : Scope) (d : GReg) (a : SpOp) (x : GReg) (p : List Nat) (k v : Nat → Nat),
    s.Acts c { WordSpec.var .a [.g a.base, .g x] with bow := true } p →
    (∀ l ∈ p, s.spCheck s.curG t.bytes (a.addr (src s l (.g a.base))) = .inl (k l) ∧
      s.spLoad (k l) t.bytes (a.addr (src s l (.g a.base))) = .inl (v l)) →
    let stays := fun l => v l != (val s t l (.g x)).toNat
    NoReconv s stays p →
      (∀ l ∈ p, ∀ j < t.bytes, v l / 256 ^ j % 256 = (Memory.byte s.sp (k l + j)).toNat) ∧
      Waits s (.waita c t sc d a x) c { WordSpec.var .a [.g a.base, .g x] with bow := true } p stays
        (fun l => s.nextId + ((p.filter stays).findIdx fun j => j == l))
        ((p.filter stays).zipIdx.map fun (l, n) => ⟨s.nextId + n, s.curG, 1#32 <<< l, wordAt s, s.curNext, c.ctr,
          s.cycle + c.stall.toNat + 1, .waita (k l) t.bytes (src s l (.g x)) d sc.code⟩)
        ((p.filter fun l => !stays l).foldl (fun u l => u.acquireSp (tid s.curG l) sc.code (k l) t.bytes) s).writes
        (fun _ x => x) (fun l => toG d (BitVec.ofNat 64 (v l)))

/-- Barrier registers and waits for a word, as the two parts say.
Where the spec leaves a point open it follows the model's choice: log entry 26 (DETAIL 2 of `ILLEGAL`). -/
def Obligations.BarriersAndWordWaits : Prop := Slice0.BarrierRegistersRule ∧ Slice0.WordWaitsRule

namespace Sys2Proof.Slice0
open Machine

/-- Nothing outside the word or event asks for a step of its own: no address where nothing exists has been reached, no access is sampled, no
sub-group waits to park, no stored error is latent and no debugger halts or steps a thread. -/
structure Quiet (s : State) : Prop where
  hole : s.hole = false
  samples : s.samples = []
  parks : s.parks = []
  latent : s.latent = []
  halts : ∀ t, (s.thr t).halt = none ∧ (s.thr t).stepping = false

/-- An index tuple within some extents, innermost first (R243). -/
def Within (t extents : List Nat) : Prop := t.length = extents.length ∧ ∀ (k i n : Nat), t[k]? = some i → extents[k]? = some n → i < n

/-- The sum of the products of some indices and strides. -/
def dot (t : List Nat) (k : List Int) : Int := ((t.zip k).map fun e => (e.1 : Int) * e.2).sum

/-- The row-major index of a tuple within some extents, innermost first (R243). -/
def lin : List Nat → List Nat → Nat
  | i :: t, n :: l => i + n * lin t l
  | _, _ => 0

/-- THE ELEMENTS OF A COPY (R243): without a gather, one for each tuple of indices, at the sums of index times stride; with one, the
outermost index of the source is taken from a list, and the destination is packed row by row. -/
def CopyElements (r : CopyRec) (idx : List Nat) (offs : List (Int × Int)) : Prop :=
  let inner := (r.dims.map (·.2.2)).dropLast
  (r.gather = false → (offs.length = (r.dims.map (·.2.2)).prod) ∧
    ∀ o, o ∈ offs ↔ ∃ t, Within t (r.dims.map (·.2.2)) ∧ o = (dot t (r.dims.map (·.2.1)), dot t (r.dims.map (·.1)))) ∧
  (r.gather = true → (offs.length = inner.prod * r.idxN) ∧
    ∀ o, o ∈ offs ↔ ∃ t i, Within t inner ∧ i < r.idxN ∧
      o = (dot t (r.dims.map (·.2.1)).dropLast + (idx.getD i 0 : Nat) * (r.dims.map (·.2.1)).getLastD 0,
        (((i * inner.prod + lin t inner) * r.e : Nat) : Int)))

/-- The address of an element of one side of a copy, by its kind: a linear virtual address, a scratchpad address, or an offset into a view
range of the handle's region (R241, R243). -/
def ElemAddr (kind : Nat) (lay : Option Layout) (base e : Nat) (o : Int) (a : CopyAddr) : Prop :=
  let v := (((base : Int) + o) % 2 ^ 64).toNat
  (kind = 0 → v < 2 ^ 48 ∧ a = .va v) ∧ (kind = 1 → a = .sp (BitVec.ofNat 64 v)) ∧
  (2 ≤ kind → ∃ y, lay = some y ∧ 0 ≤ (base : Int) + o ∧ (base : Int) + o + e ≤ y.rowsP * y.colsP * y.e ∧ a = .va (y.base (kind - 1) + v))

/-- The addresses of one side of a copy, element by element. -/
def ElemAddrs (kind : Nat) (lay : Option Layout) (base e : Nat) (offs : List Int) (as_ : List CopyAddr) : Prop :=
  as_.length = offs.length ∧ ∀ (j : Nat) o a, offs[j]? = some o → as_[j]? = some a → ElemAddr kind lay base e o a

/-- THE PLACES OF THE ELEMENTS OF A COMMAND (R242, R243): each element's address on either side, translated for the copy engine's block,
the sources first. -/
def ElementPlaces (s0 s1 : State) (r : CopyRec) (offs : List (Int × Int)) (l : List (CopyPlace × CopyPlace)) : Prop :=
  let g := s0.curG
  let load := Need.load.by (copyBlock (coreCluster (groupCore g)))
  let store := Need.store.by (copyBlock (coreCluster (groupCore g)))
  ∃ (ls ld : Option Layout) (src dst : List CopyAddr) (y0 y1 y2 y3 : Seen),
    copyLayout g load r.skind r.srcH ⟨s0, []⟩ = (y0, .inl ls) ∧ copyLayout g store r.dkind r.dstH y0 = (y1, .inl ld) ∧
    ElemAddrs r.skind ls r.srcA r.e (offs.map (·.1)) src ∧ ElemAddrs r.dkind ld r.dstA r.e (offs.map (·.2)) dst ∧
    Seen.each (copyPlace g r.e load) src y1 = (y2, l.map fun e => .inl e.1) ∧
    Seen.each (copyPlace g r.e store) dst y2 = (y3, l.map fun e => .inl e.2) ∧ y3.st = s1

/-- WHAT AN ENGINE COMMAND FINDS IN A BYTE that it reads by a path kind (R114, R116–R119): the present byte where every recorded write of the
byte is ordered before the command; in any case the present byte, or one that a recorded write replaced. -/
def FindsOp (s : State) (id c : Nat) (space : Space) (kind A b : Nat) : Prop :=
  ((∀ r ∈ s.writes, Covers r space A → s.knowsOp id c kind r = true) → b = (s.byteOf space A).toNat) ∧
  (b = (s.byteOf space A).toNat ∨ ∃ r ∈ s.writes, Covers r space A ∧ b = (r.old.getD (A - r.addr) 0).toNat)

/-- The element steps of a command, n of them: each takes some move that is left and reads its source; the bytes found are written at once,
or kept for a later step (R243). -/
def ElementSteps (id c size : Nat) : Nat → List (CopyPlace × CopyPlace) → State → List (CopyPlace × CopyPlace) → State → Prop
  | 0, ms, s, ns, u => ns = ms ∧ u = s
  | n + 1, ms, s, ns, u => (ms = [] ∧ ns = [] ∧ u = s) ∨ ∃ (j : Nat) (a b : CopyPlace) (v : List Byte), ms[j]? = some (a, b) ∧
      a.read s id c size = .inl v ∧
      (ElementSteps id c size n (ms.set j (.data v, b)) (a.touch s size) ns u ∨
        ElementSteps id c size n (ms.eraseIdx j) (b.write (a.touch s size) id c v) ns u)

/-- The fields of a copy record's header, and its queue (R241). -/
def RecordFields (r : CopyRec) (q h : Nat) : Prop :=
  r.skind = h % 8 ∧ r.dkind = h / 2 ^ 4 % 8 ∧ r.e = 2 ^ (h / 2 ^ 8 % 8) ∧ r.dims.length = h / 2 ^ 12 % 16 + 1 ∧ q = h / 2 ^ 16 % 4 ∧
  r.gather = (h / 2 ^ 24 % 2 == 1) ∧ r.srcA = h / 2 ^ 64 % 2 ^ 64 ∧ r.dstA = h / 2 ^ 128 % 2 ^ 64 ∧ r.srcH = h / 2 ^ 192 % 2 ^ 32 ∧
  r.dstH = h / 2 ^ 224 % 2 ^ 32 ∧ r.idxA = h / 2 ^ 256 % 2 ^ 64 ∧ r.idxN = h / 2 ^ 320 % 2 ^ 32

/-- The one thread of a bow is lane 0 (R18). -/
def OneOfBow (g : Nat) (m : BitVec 32) : Prop := isBow (groupCore g) = true → m = 1#32

/-- An operation has ended: it is outstanding no more, its writes may be read and its dependency counter has fallen in its lanes, which wait for
it no longer (R159, R311). -/
structure OpEnds (s u : State) (o : OutOp) : Prop where
  ops : u.ops = s.ops.filter fun x => x.id != o.id
  lanes : ∀ l ∈ lanesOf o.lanes, u.thr (tid o.group l) =
    let x := s.thr (tid o.group l)
    let x := match o.ctr with | none => x | some n => x.decD n
    { x.mature o.id with waitOp := if x.waitOp = o.id then 0 else x.waitOp }
  others : ∀ t, (∀ l ∈ lanesOf o.lanes, t ≠ tid o.group l) → u.thr t = s.thr t
  mem : u.mem = s.mem
  sp : u.sp = s.sp

end Sys2Proof.Slice0

/-- R240, R242: `CPY` and `CPYW` hold their path at the word with a command that waits for its acceptance. -/
def Sys2Proof.Slice0.CopyIssueRule : Prop :=
  ∀ (s : State) (c : Ctl) (n : Option Bar) (t : ITy) (sc : Scope) (a w x : GReg) (l : Nat) (p : List Nat),
    let held := fun (i : Instr) (v : W64 × W64) => ∃ u, exec i s = .next u ∧ u.threads = s.threads ∧ u.groups = s.groups ∧ u.rest = s.rest ∧
      ∀ k y, InIssue s s.cur.core k y → InIssue u s.cur.core k
        (if y.slot = s.cur.slot ∧ y.lanes = s.cur.lanes then
          { y with held := .copy (maskOf (l :: p)) (src s l (.g a)) v.1 v.2, nextAt := s.cycle + c.stall.toNat + 1 } else y)
    (s.Acts c (copySpec [.g a]) (l :: p) → held (.cpy c n a) (0, 0)) ∧
    (s.Acts c (copySpec [.g a, .g w, .g x]) (l :: p) → held (.cpyw c t sc a w x) (src s l (.g w), src s l (.g x)))

/-- R240–R243: THE ACCEPTANCE of a command whose record and elements pass the checks. A full queue holds it; an empty copy is performed and
signals; any other joins the record's queue with a move for each element, from and to the places that the record's kinds, addresses,
strides and index list name, and the path goes on. -/
def Sys2Proof.Slice0.CopyAcceptanceRule : Prop :=
  ∀ (s : State) (core sel : Nat) (y : Sel) (m : BitVec 32) (a w x : W64) (c : Ctl) (i : Instr) (n : Option Bar) (fin : CopyEnd),
    let s0 := { s with cur := y.cur core }
    let p := lanesOf (m &&& y.lanes)
    let engine := 200000 + coreCluster (groupCore s0.curG)
    InIssue s core sel y → y.held = .copy m a w x → s0.Calm → s0.nextInstr y core = .ok i →
    ((∃ r, i = .cpy c n r ∧ fin = .bar n ∧ ∀ b, n = some b → noBar s0.curG b = false) ∨
      (∃ (t : ITy) (sc : Scope) (r ra rx : GReg), i = .cpyw c t sc r ra rx ∧ fin = .word t.bytes w sc.code ∧ n = none)) →
    (s0.copyFull s0.curG a = true → exec (.copyAcceptance core sel) s = .next s0) ∧
    (s0.copyFull s0.curG a = false → ∀ s1 q r l, copyAccept s0.curG a fin s0 = (s1, .inl (q, r, l)) → s1.hole = false → p ≠ [] →
      ∃ u idx, exec (.copyAcceptance core sel) s = .next u ∧ Fetched s0 s1 ∧ CopyElements r idx (r.offsets idx) ∧
        (∀ k, s0.spRange s0.curG 64 64 a = .inl k → RecordFields r q (Memory.read s.sp k 64)) ∧
        (r.gather = false → idx = []) ∧
        (r.gather = true → r.idxN ≠ 0 → ∃ k, s0.spRange s0.curG (4 * r.idxN) 4 (BitVec.ofNat 64 r.idxA) = .inl k ∧
          idx = (List.range r.idxN).map (fun i => Memory.read s.sp (k + 4 * i) 4) ∧ ∀ i ∈ idx, i < r.outer) ∧
        (r.empty = false → ElementPlaces s0 s1 r (r.offsets idx) l ∧
          ∀ (j : Nat) o e, (r.offsets idx)[j]? = some o → l[j]? = some e →
            (r.skind = 1 → ∃ k, e.1 = .sp k ∧ s0.spCheck s0.curG r.e (BitVec.ofInt 64 (r.srcA + o.1)) = .inl k) ∧
            (r.skind ≠ 1 → ∃ q, e.1 = .mem q) ∧
            (r.dkind = 1 → ∃ k, e.2 = .sp k ∧ s0.spCheck s0.curG r.e (BitVec.ofInt 64 (r.dstA + o.2)) = .inl k) ∧
            (r.dkind ≠ 1 → ∃ q, e.2 = .mem q)) ∧
        (r.empty = true → ∃ v, (fin = .bar none → v = s1) ∧
          (∀ b, fin = .bar (some b) → BarTakes s1 v s0.curG b (roundOf (min ((s.bar s0.curG b).count.toNat + 1) 65535)
            (s.bar s0.curG b).expected.toNat (s.bar s0.curG b).parity) []) ∧
          (∀ b sc k, fin = .word b w sc → s0.spCheck s0.curG b w = .inl k →
            v = s1.spPutBy engine [] (some (engine, sc)) none k (leBytes x.toNat b)) ∧
          s0.Ended u c (copySpec []) (did v none .plain true none) p (fun _ => s0.curNext) (fun _ => [])) ∧
        (r.empty = false → ∃ cmd : CopyCmd, cmd.id = s.nextId ∧ cmd.group = s0.curG ∧ cmd.moves = l ∧ cmd.size = r.e ∧ cmd.bar = n ∧
          cmd.dead = false ∧ cmd.record = a.toNat ∧
          (∀ b sc k, fin = .word b w sc → s0.spCheck s0.curG b w = .inl k → cmd.word = some (k, b, x, sc)) ∧
          let k := 4 * coreCluster core + q
          s0.Ended u c (copySpec []) (did (s1.setCopies k (s1.copies k ++ [cmd])) none .copyIn false (some q)) p (fun _ => s0.curNext)
            (fun _ => [])))

/-- R243, R244: THE COMMAND AT THE HEAD OF ITS QUEUE moves some of its elements, each a free one of those left, and stays with the moves that
are left; when none is left it has completed: `CPY` makes an arrival on its barrier register, `CPYW` writes its word as a release, and
the operation ends. Every byte outside the destinations is as it was. -/
def Sys2Proof.Slice0.CopyCompletionRule : Prop :=
  ∀ (s : State) (cl : BitVec 4) (q : BitVec 2) (x : CopyCmd) (l : List CopyCmd) (o : OutOp),
    let c := cl.toNat
    let k := 4 * c + q.toNat
    let s0 := s.beginOp o
    Quiet s → s.copies k = x :: l → (s.ops.find? fun o => o.id == x.id) = some o → s.joinsGone o.joins = true → OneOfBow o.group o.lanes →
    (∀ e ∈ x.moves, ∀ b, e.1 = .data b → b.length = x.size) →
    (∃ u n ns u0, exec (.copyCompletion cl q) s = .next u ∧ ElementSteps x.id c x.size n x.moves s0 ns u0 ∧ u.mem = u0.mem ∧
      (ns ≠ [] → u = u0.setCopies k ({ x with moves := ns } :: l)) ∧ (ns = [] → u.copies k = l ∧ (x.word = none → u.sp = u0.sp)) ∧
      (∀ A, (∀ e ∈ x.moves, ∀ j < x.size, ∀ b, e.2 = .sp b → b + j ≠ A) → (∀ a w y sc, x.word = some (a, w, y, sc) → A < a ∨ a + w ≤ A) →
        Memory.byte u.sp A = Memory.byte s.sp A) ∧
      ∀ A, (∀ e ∈ x.moves, ∀ j < x.size, ∀ b, e.2 = .mem b → b.at j ≠ A) → Memory.byte u.mem A = Memory.byte s.mem A) ∧
    (x.moves = [] → x.dead = false → ∃ u v, exec (.copyCompletion cl q) s = .next u ∧ OpEnds v u o ∧ v.ops = s.ops ∧ u.copies k = l ∧
      (∀ b, x.word = none → x.bar = some b → BarTakes (s0.setCopies k l) v x.group b (roundOf (min ((s.bar x.group b).count.toNat + 1) 65535)
        (s.bar x.group b).expected.toNat (s.bar x.group b).parity) [.op x.id]) ∧
      (x.word = none → x.bar = none → v = s0.setCopies k l) ∧
      (∀ a w y sc, x.word = some (a, w, y, sc) →
        v = ((s0.setCopies k l).pass (.op x.id) (.write s.seq) []).spPutBy (200000 + c) (State.opKnown x.id) (some (200000 + c, sc)) none a
          (leBytes y.toNat w) ∧ Memory.read u.sp a w = y.toNat % 256 ^ w))

/-- R243: Mem[Dst + do, e] := Mem[Src + so, e]. An element read at a place of the scratchpad or of memory is the bytes that the engine finds
there by the place's path; an element written stands there, and no other byte of memory or of the scratchpads changes. -/
def Sys2Proof.Slice0.CopyElementRule : Prop :=
  (∀ (s : State) (id c n : Nat) (a : CopyPlace) (v : List Byte), a.read s id c n = .inl v →
    (∀ b, a = .data b → v = b) ∧
    (∀ k, a = .sp k → v.length = n ∧ ∀ j b, v[j]? = some b → FindsOp s id c .sp 0 (k + j) b.toNat) ∧
    (∀ p, a = .mem p → v.length = n ∧ ∀ j b, v[j]? = some b → FindsOp s id c .mem p.kind (p.at j) b.toNat)) ∧
  (∀ (s : State) (id c : Nat) (v : List Byte),
    (∀ k, ((CopyPlace.sp k).write s id c v).mem = s.mem ∧
      (∀ j b, v[j]? = some b → Memory.byte ((CopyPlace.sp k).write s id c v).sp (k + j) = b) ∧
      ∀ A, (∀ j < v.length, k + j ≠ A) → Memory.byte ((CopyPlace.sp k).write s id c v).sp A = Memory.byte s.sp A) ∧
    ∀ p, ((CopyPlace.mem p).write s id c v).sp = s.sp ∧
      ((∀ i < v.length, ∀ j < v.length, p.at i = p.at j → i = j) →
        ∀ j b, v[j]? = some b → Memory.byte ((CopyPlace.mem p).write s id c v).mem (p.at j) = b) ∧
      ∀ A, (∀ j < v.length, p.at j ≠ A) → Memory.byte ((CopyPlace.mem p).write s id c v).mem A = Memory.byte s.mem A)

/-- The copy engine: its words, the acceptance of a command, its elements and its completion, as the four parts say.
Where the spec leaves a point open it follows the model's choice: log entry 21. -/
def Obligations.Copies : Prop :=
  Slice0.CopyIssueRule ∧ Slice0.CopyAcceptanceRule ∧ Slice0.CopyCompletionRule ∧ Slice0.CopyElementRule

namespace Sys2Proof.Slice0
open Machine

/-- Translations and layout records change nothing but their caches, and reads the rows that the slices hold open. -/
def Gathered (s u : State) : Prop := u = { s with tlb := u.tlb, tabs := u.tabs, layouts := u.layouts, slices := u.slices, hole := u.hole }

/-- The elements that the lanes of a `GFETCH` will gather, one lane after the other, from the row and the first column in their register
(R249). -/
def GatherSteps (s : State) (n : Nat) (h : Src) (xy : GReg) (lay : Nat → Layout) (cells : Nat → Nat → GatherCell) : List Nat → Seen → Seen → Prop
  | [], y, z => z = y
  | l :: p, y, z => ∃ y0 y1,
      let row := (src s l (.g xy)).toNat / 2 ^ 32
      let col := (src s l (.g xy)).toNat % 2 ^ 32
      y.layout s.curG (Need.load.by (gatherBlock (coreCluster (groupCore s.curG)))) 8 ((src s l h).toNat % 2 ^ 32) = (y0, .inl (lay l)) ∧
      row < (lay l).rows ∧ col < (lay l).cols ∧
      Seen.each (gatherElem s.curG (lay l) row) ((List.range n).map (col + ·)) y0 = (y1, (List.range n).map fun j => .inl (cells l j)) ∧
      GatherSteps s n h xy lay cells p y1 z

/-- WHAT THE GATHER UNIT DELIVERS OF A BYTE for a thread (R71, R120): the present byte where every recorded write of the byte is ordered
before the gather by a `GINV` or a boundary; in any case the present byte, or one that a recorded write replaced. -/
def FindsGather (s : State) (t A b : Nat) : Prop :=
  ((∀ r ∈ s.writes, Covers r .mem A → s.gathered t r = true) → b = (Memory.byte s.mem A).toNat) ∧
  (b = (Memory.byte s.mem A).toNat ∨ ∃ r ∈ s.writes, Covers r .mem A ∧ b = (r.old.getD (A - r.addr) 0).toNat)

/-- A number of n bytes at a place as the gather unit delivers it. -/
def GatherNum (s : State) (t n : Nat) (q : Phys) (v : Nat) : Prop := v < 256 ^ n ∧ ∀ j < n, FindsGather s t (q.at j) (v / 256 ^ j % 256)

/-- The exact value of a gathered element: +0 beyond the last column; else the code, of a 4-bit format the half of its byte, times its
block's scale (R249). -/
def GatherValue (s : State) (t fmt : Nat) (cb : W256) (x : Exact) : GatherCell → Prop
  | none => x = .num false 0 0 false
  | some (q, n, half, sc) => ∃ v, GatherNum s t n q v ∧
      let y := elemVal fmt cb (match half with | none => v | some true => v / 16 | some false => v % 16)
      (sc = none → x = y.exact) ∧ ∀ b, sc = some b → ∃ k, GatherNum s t 1 b k ∧ x = timesScale k y

/-- The sum of the values of one coordinate, in ascending stream order, with its flags: FP32 rounded once each, or saturating INT32
(R75, R97). -/
def mergeSum (float : Bool) : List Nat → Nat × BitVec 5
  | [] => (0, 0)
  | v :: l => l.foldl (fun a x =>
      if float then
        let y := (fm .f32).round .rne false (FVal.add .rne ((fm .f32).dec a.1) ((fm .f32).dec x))
        (y.1, a.2 ||| y.2)
      else
        let t := (BitVec.ofNat 32 a.1).toInt + (BitVec.ofNat 32 x).toInt
        let u := max (-(2 ^ 31)) (min (2 ^ 31 - 1) t)
        ((BitVec.ofInt 32 u).toNat, if u = t then a.2 else a.2 ||| 16)) (v, 0)

/-- One merged entry: the lowest coordinate at which a stream stands, the sum of the values of the streams that stand there, and those
streams one entry on (R97, R252). -/
def MergeStep (s : State) (k : Nat) (float : Bool) (l : List Stream) (e : Nat × Nat × BitVec 5) (l' : List Stream) : Prop :=
  let here := fun (x : Stream) => decide (x.pos < x.len) && s.streamCoord k x x.pos == e.1
  (∃ x ∈ l, here x = true) ∧ (∀ x ∈ l, x.pos < x.len → e.1 ≤ s.streamCoord k x x.pos) ∧
  (e.2.1, e.2.2) = mergeSum float ((l.filter here).map fun x => s.streamValue k x x.pos) ∧
  l' = l.map fun x => if here x then { x with pos := x.pos + 1 } else x

/-- Up to n merged entries, fewer only when every stream has ended (R252). -/
def MergeSteps (s : State) (k : Nat) (float : Bool) : Nat → List (Nat × Nat × BitVec 5) → List Stream → List Stream → Prop
  | 0, es, l, l' => es = [] ∧ l' = l
  | _ + 1, [], l, l' => l' = l ∧ ∀ x ∈ l, x.len ≤ x.pos
  | n + 1, e :: es, l, l' => ∃ m, MergeStep s k float l e m ∧ MergeSteps s k float n es m l'

/-- A coordinate at which an unread part of a stream is not strictly increasing, or that is 0xFFFF_FFFF (R252). -/
def Offends (s : State) (k : Nat) (l : List Stream) (y : Nat) : Prop :=
  ∃ x ∈ l, ∃ j, x.pos ≤ j ∧ j < x.len ∧ y = s.streamCoord k x j ∧ (y = 0xFFFFFFFF ∨ (j ≠ 0 ∧ y ≤ s.streamCoord k x (j - 1)))

/-- What a lane of `MRGPULL` receives (R252). -/
def pulled (float : Bool) (d : GReg) : Option (Nat × Nat × BitVec 5) → List (RegId × RVal)
  | none => [(.g d, .w 0xFFFFFFFF), (.g (d + 1), .w 0)]
  | some (y, v, f) => [(.g d, .w (BitVec.ofNat 64 y)),
      (.g (d + 1), .w (if float then BitVec.ofNat 64 v else (BitVec.ofNat 32 v).signExtend 64)), (.s .fsr, .orF f)]

/-- The place of a participant among the participants. -/
def rank (p : List Nat) (l : Nat) : Nat := p.findIdx fun j => j == l

end Sys2Proof.Slice0

/-- R248, R250, R120, R253, R254, R364: `QFENCE` enters a join that waits for every operation now in its named queues and completes; after `GINV`
the gather caches of the cluster, or of the die, the device, hold nothing older than what a participant knows; `LAUNCH` appends its
record with the region's node to the launch queue; `SAMPLE` arms sampling for its path under a sampling right, and otherwise does nothing.
Where the spec leaves a point open it follows the model's choice: log entries 20, 22 and 84. -/
def Obligations.QueueWords : Prop :=
  ∀ (s : State) (c : Ctl) (mask : BitVec 16) (sc : Scope) (a : GReg) (tag : Src) (l : Nat) (p : List Nat),
    (s.Acts c (engineSpec .c [] false) (l :: p) →
      (∃ before : List Nat,
        (∀ id, id ∈ before ↔ ∃ o ∈ s.ops, o.id = id ∧ ∃ q, o.queue = some q ∧ mask.getLsbD q = true ∧
          coreCluster (groupCore o.group) = coreCluster s.cur.core ∧ (q = 6 → groupCore o.group = s.cur.core)) ∧
        Enters s (.qfence c mask) c (engineSpec .c [] false) (did { s with
          nextId := s.nextId + 1
          joins := if before = [] then s.joins else s.joins ++ [⟨s.nextId, s.cur.core, mask, before⟩] } none .plain true none) (l :: p)
          (fun _ => [])) ∧
      (∃ (units : List Nat) (u : State), (∀ d, d ∈ units ↔ (sc.code.toNat ≤ 4 ∧ d = coreCluster s.cur.core ∨
            sc.code.toNat = 5 ∧ d < 16 ∧ d % 4 / 2 = coreCluster s.cur.core % 4 / 2 ∧ d / 8 = coreCluster s.cur.core / 8 ∨
            6 ≤ sc.code.toNat ∧ d < 16)) ∧
        u = (l :: p).foldl (fun u l => u.ginvBy (tid s.curG l) sc.code units) s ∧ u = { s with writes := u.writes } ∧
        Enters s (.ginv c sc) c (engineSpec .c [] false) (did u none .plain true none) (l :: p) (fun _ => []))) ∧
    (∀ (t : Nat) (units : List Nat) (r : WriteRec), r ∈ s.writes → s.inScope sc.code.toNat t r.writer = true → s.chains r (.agent t) ≠ [] →
      State.agentCluster t ∈ units → ∃ r' ∈ (s.ginvBy t sc.code units).writes, r'.seq = r.seq ∧ (s.ginvBy t sc.code units).gathered t r' = true) ∧
    (s.Acts c (engineSpec .c [.g a] true) (l :: p) → ∀ k x u, s.spRange s.curG 64 64 (src s l (.g a)) = .inl k →
      s.spLoad k 64 (src s l (.g a)) = .inl x →
      u = { s with launches := s.launches ++ [((s.grp s.curG).rcb, BitVec.ofNat 512 x)] }.launchDrain 1 → u.hole = false →
      x = Memory.read s.sp k 64 ∧ u.sp = s.sp ∧ u.launches = s.launches ++ [((s.grp s.curG).rcb, BitVec.ofNat 512 x)] ∧
      (u.mem = s.mem ∨ ∃ r, (∃ rcb, (rcb, r) ∈ u.launches) ∧ u.mem = (s.evAppend s.sys.launchq.toNat r).mem) ∧
      Enters s (.launch c a) c (engineSpec .c [.g a] true) (did u none .plain true none) (l :: p) (fun _ => [])) ∧
    (s.Acts c (engineSpec .a tag.regs false) (l :: p) → Enters s (.sample c tag) c (engineSpec .a tag.regs false)
      (did (if (s.grpRes s.curG).sample then
          s.setGrp s.curG { s.grp s.curG with
            armed := (s.grp s.curG).armed.filter (fun e => e.2 &&& s.cur.lanes == 0#32) ++ [((src s l tag).setWidth 16, s.cur.lanes)] } else s) none .plain true none)
      (l :: p) (fun _ => []))

/-- R249, R71, R120, R248: `GFETCH`, where every participant's region, row and column are good and its elements are reached, enters an
operation of the gather unit's queue. Unless a join holds that queue back, it writes in each lane the elements rounded once to nearest
even, +0 beyond the last column, and their flags; behind a join its results stay open, and it keeps what it has to read. Nothing but
caches changes. Its elements lie where the row view and the scale bytes of the region have them.
Where the spec leaves a point open it follows the model's choice: log entries 20 and 23. -/
def Obligations.Gathers : Prop :=
  (∀ (s : State) (c : Ctl) (f : FFmt) (d : VReg) (h : Src) (xy : GReg) (p : List Nat) (lay : Nat → Layout) (cells : Nat → Nat → GatherCell)
      (z : Seen),
    let w := accessSpec (h.regs ++ [.g xy])
    let cb := fun l => s.codebook (tid s.curG l) (tagCbs (lay l).tag)
    s.Acts c w p → GatherSteps s (count f) h xy lay cells p ⟨s, []⟩ z → z.st.hole = false → Gathered s z.st ∧
    (s.joined s.cur.core 4 = false → ∃ (xs : Nat → Nat → Exact) (y : Nat → VVal),
      let out := fun l j => rounded (fm f) .rne false 0 j (xs l j)
      (∀ l ∈ p, ∀ j < count f, GatherValue s (tid s.curG l) (lay l).fmt (cb l) (xs l j) (cells l j)) ∧
      (∀ l ∈ p, (y l).tag = ftag f ∧ ∀ j < count f, elemAt (fm f).w (y l).bits j = (out l j).1) ∧
      Enters s (.gfetch c f d h xy) c w (did z.st none .plain true (some 4)) p
        (fun l => [(.v d, .v (y l)), (.s .fsr, .orF (flagsOf (count f) (out l)))])) ∧
    (s.joined s.cur.core 4 = true → Enters s (.gfetch c f d h xy) c w
      (did z.st none (.gather (p.map fun l => ⟨l, (List.range (count f)).map (cells l), .decode f d (lay l).fmt (cb l)⟩)) false (some 4)) p
      (fun _ => [(.v d, .orF 0), (.s .fsr, .orF 0)]))) ∧
  (∀ (y z : Seen) (g r k : Nat) (lay : Layout) (x : GatherCell), gatherElem g lay r y k = (z, .inl x) →
    (lay.cols ≤ k → x = none ∧ z = y) ∧
    (k < lay.cols → ∃ q y1, gatherPlace g (lay.elemVa 1 r (if lay.pairs then k / 2 else k)) lay.e y = (y1, .inl q) ∧
      let half := if lay.pairs then some (decide (k % 2 = 1)) else none
      (lay.geom = 0 → x = some (q, lay.e, half, none) ∧ z = y1) ∧
      (lay.geom ≠ 0 → ∃ b, gatherPlace g (lay.scaleVa r k) 1 y1 = (z, .inl b) ∧ x = some (q, lay.e, half, some b))))

/-- R251, R252, R97, R248: `MRGOPEN` of a free tree takes it for its workgroup with the streams of its table, and sleeps while the tree is
held, or still to be closed. `MRGPULL` gives its lanes, ascending, the next merged entries, 0xFFFF_FFFF and 0 beyond the last, and raises
`SPARSE_ORDER` in every lane where an offending coordinate comes first. `MRGCLOSE` releases the tree to the path that sleeps for it. Behind a
join, or behind a command that waits, a pull and a close enter their queue and wait there.
Where the spec leaves a point open it follows the model's choice: log entries 20, 24, 26 (DETAIL 2 of `ILLEGAL`) and 37. -/
def Obligations.MergeTree : Prop :=
  ∀ (s : State) (c : Ctl) (float : Bool) (a d : GReg) (l : Nat) (p : List Nat),
    let k := coreCluster s.cur.core
    let g := s.curG
    let x := s.cl k
    let me := some (s.grp g).wg
    let pull : WordSpec := { WordSpec.var .c [] with ends := true }
    let q := l :: p
    (s.Acts c (engineSpec .c [.g a] true) q →
      (x.mHolder = none → ∀ s1 ls, s.readTree g (src s l (.g a)) = (s1, .inl ls) → s1.hole = false → s.Looked s1 ∧
        (∀ o, s.spRange g 32 1 (src s l (.g a)) = .inl o → ls.length = Memory.read s.sp o 32 ∧ ∀ i y, ls[i]? = some y →
          y.pos = 0 ∧ y.len = Memory.read s.sp (o + 32 * i + 48) 4 ∧ y.caddr = Memory.read s.sp (o + 32 * i + 32) 6 ∧
          y.vaddr = Memory.read s.sp (o + 32 * i + 40) 6) ∧
        Enters s (.mrgopen c float a) c (engineSpec .c [.g a] true)
          (did (s1.setCl k { x with mHolder := me, mFloat := float, mStreams := ls }) none .plain true (some 5)) q (fun _ => [])) ∧
      (x.mHolder ≠ none → x.mHolder ≠ me ∨ s.closing g = true → NoReconv s (fun _ => true) q →
        Waits s (.mrgopen c float a) c (engineSpec .c [.g a] true) q (fun _ => true) (fun _ => s.nextId)
          (oneWait s c q (.mrgopen float (src s l (.g a)))) s.writes (fun _ y => y) (fun _ => [])) ∧
      (x.mHolder = me → s.closing g = false → s.Handled q → s.Traps (.mrgopen c float a) c q (fun _ => own s 2 1 s.cur.raw))) ∧
    (s.Acts c pull q → x.mHolder = me → s.closing g = false →
      (s.treeLate s.cur.core = false → (∀ z ∈ x.mStreams, s.streamLatent z = none) →
        (∀ es ls, (∀ y, ¬Offends s k x.mStreams y) → MergeSteps s k x.mFloat q.length es x.mStreams ls →
          Enters s (.mrgpull c d) c pull (did (s.setCl k { x with mStreams := ls }) none .plain true (some 5)) q
            (fun l => pulled x.mFloat d es[rank q l]?)) ∧
        (∀ y, Offends s k x.mStreams y → (∀ y', Offends s k x.mStreams y' → y ≤ y') →
          (∀ z ∈ x.mStreams, z.pos < z.len → y ≤ s.streamCoord k z z.pos) → s.Handled q →
          s.Traps (.mrgpull c d) c q (fun _ => own s 0 13 (BitVec.ofNat 64 y)))) ∧
      (s.treeLate s.cur.core = true → Enters s (.mrgpull c d) c pull (did s none (.pull d (wordAt s)) false (some 5)) q
        (fun _ => [(.g d, .orF 0), (.g (d + 1), .orF 0), (.s .fsr, .orF 0)]))) ∧
    (s.Acts c (engineSpec .c [] true) q → x.mHolder = me → s.closing g = false →
      (s.treeLate s.cur.core = false → (∀ z ∈ s.sleepers, ∀ f t, z.kind ≠ .mrgopen f t) → Enters s (.mrgclose c) c (engineSpec .c [] true)
        (did (s.setCl k { x with mHolder := none, mStreams := [] }) none .plain true (some 5)) q (fun _ => [])) ∧
      (s.treeLate s.cur.core = false → ∀ z f t s1 ls, s.sleepers = [z] → z.kind = .mrgopen f t → coreCluster (groupCore z.group) = k →
        OneOfBow z.group z.lanes →
        (s.setCl k { x with mHolder := none, mStreams := [] }).readTree z.group t = (s1, .inl ls) → s1.hole = false →
        ∃ v, Enters s (.mrgclose c) c (engineSpec .c [] true) (did v none .plain true (some 5)) q (fun _ => []) ∧
          (v.cl k).mHolder = some (s.grp z.group).wg ∧ (v.cl k).mFloat = f ∧ (v.cl k).mStreams = ls ∧ v.mem = s.mem ∧ v.sp = s.sp ∧
          (z.lanes ≠ 0 → v.sleepers = []) ∧
          ∀ i ∈ lanesOf z.lanes, v.thr (tid z.group i) = State.endOf s.cycle z.next (woken s z (s.thr (tid z.group i)))) ∧
      (s.treeLate s.cur.core = true →
        Enters s (.mrgclose c) c (engineSpec .c [] true) (did s none .close false (some 5)) q (fun _ => []))) ∧
    (x.mHolder ≠ me ∨ s.closing g = true → s.Handled q →
      (s.Acts c pull q → s.Traps (.mrgpull c d) c q (fun _ => own s 2 1 s.cur.raw)) ∧
      (s.Acts c (engineSpec .c [] true) q → s.Traps (.mrgclose c) c q (fun _ => own s 2 1 s.cur.raw)))

/-- R253, R361: `EMIT` appends the records of its participants, ascending, to their queues; where one finds its queue full, the path sleeps with
the records that are left. A record stands in slot TAIL mod N of its queue's ring, and TAIL has risen by one.
Where the spec leaves a point open it follows the model's choice: log entries 38 and 83. -/
def Obligations.GraphRecords : Prop :=
  (∀ (s : State) (c : Ctl) (q a : GReg) (p : List Nat) (recs : Nat → W512) (s' : State) (rest : List (Nat × BitVec 16 × W512)),
    let w : WordSpec := { WordSpec.var .c [.g q, .g a] with ends := true }
    let queue := fun l => (src s l (.g q)).setWidth 16
    s.Acts c w p → p ≠ [] →
    (∀ l ∈ p, (queue l).toNat < (s.grpRes s.curG).gqcount.toNat ∧ ∃ k, s.spRange s.curG 64 64 (src s l (.g a)) = .inl k ∧
      s.spLoad k 64 (src s l (.g a)) = .inl (recs l).toNat) →
    State.emitAll s.curG (p.map fun l => (l, queue l, recs l)) s = (s', rest, []) → s'.hole = false →
    (rest = [] → Enters s (.emit c q a) c w (did s' none .plain true none) p (fun _ => [])) ∧
    (rest ≠ [] → NoReconv s (fun _ => true) p → ∃ u, exec (.emit c q a) s = .next u ∧ u.mem = s'.mem ∧ u.sp = s.sp ∧
      u.sleepers = s.sleepers ++ [⟨s.nextId, s.curG, maskOf p, wordAt s, s.curNext, c.ctr, s.cycle + c.stall.toNat + 1, .emit rest⟩] ∧
      (∀ l ∈ p, u.thr (tid s.curG l) = asleep s s.nextId (State.incOf c (s.thr (tid s.curG l)))) ∧
      ∀ l ∈ lanesOf s.cur.lanes, l ∉ p → u.thr (tid s.curG l) = s.onward c s.curNext (s.thr (tid s.curG l)))) ∧
  (∀ (s u : State) (g q : Nat) (r : W512) (y0 y1 : Seen) (d slot : Phys),
    let reader := 200000 + coreCluster (groupCore g)
    let D := y0.st.readPhys reader d 64
    let head := D / 2 ^ 96 % 2 ^ 32
    let tail := D / 2 ^ 64 % 2 ^ 32
    let n := 2 ^ (D / 2 ^ 48 % 2 ^ 5)
    q < (s.grpRes g).gqcount.toNat → (⟨s, []⟩ : Seen).reach g Need.atomic 4 ((s.grpRes g).gqbase.toNat + 64 * q) = (y0, .inl d) →
    (tail + 2 ^ 32 - head) % 2 ^ 32 < n → y0.reach g Need.store 4 (D % 2 ^ 48 + 64 * (tail % n)) = (y1, .inl slot) →
    (∀ i < 64, ∀ j < 64, slot.at i ≠ d.at j) → (∀ i < 64, ∀ j < 64, i ≠ j → slot.at i ≠ slot.at j ∧ d.at i ≠ d.at j) → s.emitOne g q r = (u, .done) →
    ((tail + 2 ^ 32 - head) % 2 ^ 32 + 1 ≠ D / 2 ^ 128 % 2 ^ 6) →
    (∀ j < 64, Memory.byte u.mem (slot.at j) = r.extractLsb' (8 * j) 8) ∧
    (∀ j < 4, Memory.byte u.mem (d.at (8 + j)) = BitVec.ofNat 8 ((tail + 1) / 256 ^ j)) ∧
    (∀ A, (∀ j < 64, A ≠ slot.at j) → (∀ j < 4, A ≠ d.at (8 + j)) → Memory.byte u.mem A = Memory.byte s.mem A))

namespace Sys2Proof.Slice0
open Machine

/-- The course of a number on the cluster of the word in issue. -/
def courseAt (s : State) (n : W64) : Nat := 8 * coreCluster s.cur.core + n.toNat

/-- Nothing waits on the queues of a course: no path sleeps in `TSEND` or `TRECV` on it, and no committed operation at the head of its queue
has result tiles to push. -/
def Alone (s : State) (k : Nat) : Prop :=
  (∀ z ∈ s.sleepers, (∀ t, z.kind ≠ .tsend k t) ∧ ∀ d, z.kind ≠ .trecv k d) ∧
  ∀ o l, (s.course k).ops = o :: l → ∀ t, o.op ≠ .push t

/-- The specification of a tile word with a fixed latency. -/
def tileSpec (lat : Nat) (a : Option MReg) (reads : List RegId) : WordSpec :=
  { WordSpec.fixC lat [] with mreads := a.toList, lead := reads }

/-- A tile word with a fixed latency that writes a matrix register whole (R264, R267). -/
def TileWrites (s : State) (i : Instr) (c : Ctl) (w : WordSpec) (d : MReg) (y : MVal) (wr : Nat → List (RegId × RVal)) : Prop :=
  s.Completed i c w (did s (some (d, y, BitVec.allOnes 32)) .plain true none) (List.range 32) (fun _ => s.curNext) wr

/-- An operation enters the queue of course k of the bow's cluster, from a state with its operands translated (R269). -/
def Queued (s u : State) (k : Nat) (op : HarpOp) : State :=
  { u.setCourse k { u.course k with ops := (u.course k).ops ++ [⟨u.nextId, wordAt s, op⟩] } with
    ops := u.ops ++ [u.opOf s.curG 1#32 none (some (8 + k % 8)) .course true], nextId := u.nextId + 1
    writes := u.enteredWrites s.curG 1#32 (some (8 + k % 8)) }

/-- A bow word that enters the operation `op` into its course's queue: it completes, for its counter, at this entry (R269). -/
def Enqueues (s : State) (i : Instr) (c : Ctl) (reads : List RegId) (n : W64) (u : State) (op : HarpOp) : Prop :=
  s.Completed i { c with ctr := none } (bowSpec reads) (did (Queued s u (courseAt s n) op) none .plain true none) [0]
    (fun _ => s.curNext) (fun _ => [])

/-- A coordinate word: its T bit, row and column (R233). -/
def coordT (x : Nat) : Bool := x.testBit 63
/-- The first row of a coordinate word. -/
def coordRow (x : Nat) : Nat := 32 * (x / 2 ^ 32 % 2 ^ 27)
/-- The first column of a coordinate word. -/
def coordCol (x : Nat) : Nat := 32 * (x % 2 ^ 27)

/-- The elements of an operand of n columns under their keys, from the first row and column of its coordinates, transposed under T (R270,
R271, R275). -/
def cellsFrom (x count n : Nat) : List (Nat × Nat × Nat) :=
  (List.range count).map fun k => (k, if coordT x then (coordCol x + k % n, coordRow x + k / n) else (coordRow x + k / n, coordCol x + k % n))

end Sys2Proof.Slice0

/-- R264–R268, in all 32 lanes: `TSEND` appends a copy of its tile, a CB4 tile decoded to BF16, to its course's A queue, and sleeps while that
holds four; `TRECV` takes the oldest result tile, and sleeps while there is none; `TZERO`, `TMOV`, `TTRN` and `TSCL` write a tile, `TSCL`
rounding each element times 2^e once, with the flags of row i in lane i.
Where the spec leaves a point open it follows the model's choice: log entries 26 (DETAIL 2 of `ILLEGAL`) and 29. -/
def Obligations.TileWords : Prop :=
  ∀ (s : State) (c : Ctl) (course e : Src) (x d a : MReg) (f : FFmt) (r : Rnd) (sat : Bool),
    let p := List.range 32
    let n := src s 0 course
    let k := courseAt s n
    let m := s.readM s.curG a
    let h := tagFmt m.tag
    (let w : WordSpec := { engineSpec .c course.regs true with mreads := [x] }
      let t := s.readM s.curG x
      let cb := fun i => s.codebook (tid s.curG i) (tagCbs t.tag)
      s.Acts c w p → n.toNat < 8 → (s.course k).retired = false → tagOk t.tag = true → (2 ≤ tagFmt t.tag ∧ tagFmt t.tag ≤ 8 ∨ tagFmt t.tag = 10) →
      ∃ y : MVal, (tagFmt t.tag ≠ 10 → y = t) ∧
        (tagFmt t.tag = 10 → y.tag = 0x20#8 ∧ y.scale = 0 ∧
          ∀ i < 32, ∀ j < 32, at2 y i j = ((cb i).extractLsb' (16 * at2 t i j) 16).toNat) ∧
        ((s.course k).aQueue.length < 4 → Enters s (.tsend c course x) c w
          (did (s.setCourse k { s.course k with aQueue := (s.course k).aQueue ++ [y] }) none .plain true none) p (fun _ => [])) ∧
        (4 ≤ (s.course k).aQueue.length → NoReconv s (fun _ => true) p →
          Waits s (.tsend c course x) c w p (fun _ => true) (fun _ => s.nextId) (oneWait s c p (.tsend k y)) s.writes (fun _ z => z) (fun _ => []))) ∧
    (let w := engineSpec .c course.regs true;
      s.Acts c w p → n.toNat < 8 →
      (∀ t ts, (s.course k).results = t :: ts → Alone s k →
        Enters s (.trecv c d course) c w
          (did (s.setCourse k { s.course k with results := ts }) (some (d, t, BitVec.allOnes 32)) .plain true none) p (fun _ => [])) ∧
      ((s.course k).results = [] → NoReconv s (fun _ => true) p →
        Waits s (.trecv c d course) c w p (fun _ => true) (fun _ => s.nextId) (oneWait s c p (.trecv k d)) s.writes (fun _ z => z) (fun _ => []))) ∧
    (s.Acts c (tileSpec 8 none []) p → ∃ y : MVal, y.tag = ftag f ∧ y.scale = 0 ∧ (∀ i < 32, ∀ j < 32, at2 y i j = 0) ∧
      TileWrites s (.tzero c f d) c (tileSpec 8 none []) d y (fun _ => [])) ∧
    (s.Acts c (tileSpec 8 (some a) []) p → tagOk m.tag = true → TileWrites s (.tmov c d a) c (tileSpec 8 (some a) []) d m (fun _ => [])) ∧
    (s.Acts c (tileSpec 16 (some a) []) p → tagOk m.tag = true → tagGeom m.tag ≠ 3 → ∃ y : MVal, y.tag = m.tag ∧
      (∀ i < 32, ∀ j < 32, at2 y i j = at2 m j i) ∧
      (∀ b < 32, y.scale.extractLsb' (8 * b) 8 = m.scale.extractLsb' (8 * (if tagGeom m.tag = 1 ∧ (b = 1 ∨ b = 2) then 3 - b else b)) 8) ∧
      TileWrites s (.ttrn c d a) c (tileSpec 16 (some a) []) d y (fun _ => [])) ∧
    (s.Acts c (tileSpec 16 (some a) e.regs) p → tagOk m.tag = true → tagGeom m.tag = 0 → (h ≤ 3 ∨ h = 9) → r ≠ .rs →
      let out := fun i j => rounded (fm f) r sat 0 j
        ((elemVal h 0 (at2 m i j)).scale ((src s 0 e).setWidth 16).toInt).exact
      ∃ y : MVal, y.tag = ftag f ∧ y.scale = 0 ∧ (∀ i < 32, ∀ j < 32, at2 y i j = (out i j).1) ∧
        TileWrites s (.tscl c f r sat d a e) c (tileSpec 16 (some a) e.regs) d y (fun i => [(.s .fsr, .orF (flagsOf 32 (out i)))])) ∧
    (∀ i w q, (i, w) ∈ [(Instr.tsend c course x, { engineSpec .c course.regs true with mreads := [x] }),
        (.trecv c d course, engineSpec .c course.regs true), (.tzero c f d, tileSpec 8 none []), (.tmov c d a, tileSpec 8 (some a) []),
        (.ttrn c d a, tileSpec 16 (some a) []), (.tscl c f r sat d a e, tileSpec 16 (some a) e.regs)] →
      s.Acts c w q → q ≠ [] → q.length ≠ 32 → s.Handled q → s.Traps i c q (fun _ => own s 2 1 s.cur.raw))

/-- R269–R276, R279: on a bow, an operation of a course that exists and whose queue has room enters it, with the places of the elements and
scales it names, each page translated now; a full queue holds the bow at the word. `MWAIT` goes on, as an acquire,
when its courses hold no operation, and otherwise sleeps for those they hold; `MCHK` reads its course's status and clears it, so that a halted course goes on.
Where the spec leaves a point open it follows the model's choice: log entry 16. -/
def Obligations.BowWords : Prop :=
  ∀ (s : State) (c : Ctl) (course h mask : Src) (xy : Option GReg) (slot : BitVec 5) (f : MulF) (km1 : BitVec 5) (wm1 : BitVec 8) (big : Bool) (d : GReg),
    let n := src s 0 course
    let k := courseAt s n
    let x := match xy with | none => 0 | some r => (src s 0 (.g r)).toNat
    let start := (⟨s, []⟩ : Seen)
    let reads := course.regs ++ (h.regs ++ xy.toList.map .g)
    isBow s.cur.core = true → n.toNat < 8 → (s.course k).retired = false →
    ((s.course k).ops.length < 16 →
      (s.Acts c (bowSpec (course.regs ++ [])) [0] →
        Enqueues s (.mmul c course f) c (course.regs ++ []) n s (.mmul f []) ∧ Enqueues s (.mmac c course f) c (course.regs ++ []) n s (.mmac f []) ∧
        Enqueues s (.mtopk c course km1 wm1 big) c (course.regs ++ []) n s (.mtopk km1 wm1 big)) ∧
      (s.Acts c (bowSpec reads) [0] → ∀ y lay, bowLayout s.curG (tid s.curG 0) Need.load h xy start = (y, .inl (lay, x)) →
        (∀ z a b, 2 ≤ lay.fmt → lay.fmt ≤ 8 → ¬(lay.geom = 3 ∧ lay.saxis = true) → (coordT x = true → lay.geom ≠ 3 ∧ lay.pairs = false ∧
            coordCol x / 32 < lay.rt ∧ coordRow x < lay.codesP) →
          bowCells s.curG Need.load lay (if coordT x then 2 else 3) (cellsFrom x 1024 32)
            ((scaleBlocks lay.geom).map fun e => (e.1, if coordT x then (coordCol x + e.2.2.1, coordRow x + e.2.1)
              else (coordRow x + e.2.1, coordCol x + e.2.2.1))) y = (z, .inl (a, b)) → z.st.hole = false →
          Fetched s z.st ∧ Enqueues s (.mlda c course h xy) c reads n z.st (.mlda lay.tag a b)) ∧
        (∀ z a b m, harpSlots lay.fmt = some m → slot.toNat < m → ¬(lay.geom = 3 ∧ lay.saxis = false) →
          (coordT x = true → lay.geom ≠ 3 ∧ lay.pairs = false) →
          bowCells s.curG Need.load lay (if coordT x then 2 else 3) (cellsFrom x 65536 256) (cellsFrom x 65536 256) y = (z, .inl (a, b)) →
          z.st.hole = false → Fetched s z.st ∧ Enqueues s (.mldb c course h xy slot) c reads n z.st (.mldb lay.tag slot a b)) ∧
        ((lay.tag = 0x10#8 ∨ lay.tag = 0x90#8) → coordT x = false →
          ∀ z a b, bowCells s.curG Need.load lay 3 (cellsFrom x 8192 256) [] y = (z, .inl (a, b)) → z.st.hole = false →
            Fetched s z.st ∧ Enqueues s (.macc c course h xy) c reads n z.st (.macc lay.tag a))) ∧
      (s.Acts c (bowSpec reads) [0] → ∀ y lay z a b, bowLayout s.curG (tid s.curG 0) Need.store h xy start = (y, .inl (lay, x)) →
        (lay.tag = 0x10#8 ∨ lay.tag = 0x90#8) → coordT x = false →
        bowCells s.curG Need.store lay 3 (cellsFrom x 8192 256) [] y = (z, .inl (a, b)) → z.st.hole = false →
        Fetched s z.st ∧ Enqueues s (.mstc c course h xy) c reads n z.st (.mstc lay.tag a)) ∧
      (s.Acts c (bowSpec (course.regs ++ h.regs)) [0] → ∀ y lay z a a' q b b', bowLayout s.curG (tid s.curG 0) Need.load h none start = (y, .inl (lay, 0)) →
        lay.tag = 0x10#8 → 2 ≤ lay.rows →
        bowCells s.curG Need.load lay 1 ((List.range (min 32 lay.cols)).map fun k => (k, 0, k)) [] y = (z, .inl (a, a')) →
        bowCells s.curG Need.load lay 1 ((List.range (min 256 lay.cols)).map fun k => (k, 1, k)) [] z = (q, .inl (b, b')) → q.st.hole = false →
        Fetched s q.st ∧ Enqueues s (.mdist c course h f) c (course.regs ++ h.regs) n q.st
          (.mdist f (a.map fun e => (e.1, e.2.1)) (b.map fun e => (e.1, e.2.1)) []))) ∧
    (16 ≤ (s.course k).ops.length → s.Acts c (bowSpec (course.regs ++ [])) [0] →
      ∃ u, exec (.mmul c course f) s = .next u ∧ u.threads = s.threads ∧ u.groups = s.groups ∧ u.rest = s.rest) ∧
    (let w : WordSpec := { WordSpec.var .c mask.regs with bow := true }
      let m := src s 0 mask
      let ops := (List.range 8).flatMap fun i => if m.getLsbD i then (s.course (8 * coreCluster s.cur.core + i)).ops.map (·.id) else []
      s.Acts c w [0] → m ≠ 0 → m.toNat ≤ 255 →
      (ops = [] → ∃ u, u = s.mwaited s.curG m.toNat ∧ u = { s with writes := u.writes } ∧
        Enters s (.mwait c mask) c w (did u none .plain true none) [0] (fun _ => [])) ∧
      (ops ≠ [] → NoReconv s (fun _ => true) [0] → Waits s (.mwait c mask) c w [0] (fun _ => true) (fun _ => s.nextId)
        (oneWait s c [0] (.mwait m.toNat ops)) s.writes (fun _ z => z) (fun _ => []))) ∧
    (let w : WordSpec := { WordSpec.var .c course.regs with bow := true }
      let y := s.course k
      let bit := fun (b : Bool) => if b then 1#1 else 0#1
      s.Acts c w [0] → Enters s (.mchk c d course) c w
        (did (s.setCourse k { y with count := 0, slot := 0, badMac := 0, cause := 0, rst := false, halt := false }) none .plain true none) [0]
        (fun _ => toG d (0#40 ++ y.count ++ y.slot ++ y.badMac ++ 0#3 ++ y.cause ++ bit y.rst ++ bit y.halt)))

namespace Sys2Proof.Slice0
open Machine

/-- Nothing but the operation at its head moves a course's queues: no path sleeps on it or for its operations, and no operation of its queue
pushes result tiles. -/
def Lone (s : State) (k : Nat) : Prop :=
  (∀ z ∈ s.sleepers, (∀ t, z.kind ≠ .tsend k t) ∧ (∀ d, z.kind ≠ .trecv k d) ∧ ∀ m l, z.kind ≠ .mwait m l) ∧
  ∀ o ∈ (s.course k).ops, ∀ t, o.op ≠ .push t

/-- The course of a cluster. -/
def courseOn (cl : BitVec 4) (n : BitVec 3) : Nat := 8 * cl.toNat + n.toNat

/-- The operation at the head of a course that runs and that nothing holds back, with those behind it. -/
def Head (s : State) (k id : Nat) (op : HarpOp) (l : List HarpCmd) : Prop :=
  Quiet s ∧ Lone s k ∧ (∃ w, (s.course k).ops = ⟨id, w, op⟩ :: l) ∧ (s.course k).halt = false ∧
  ∀ o ∈ s.ops, o.id = id → s.joinsGone o.joins = true ∧ OneOfBow o.group o.lanes

/-- AN OPERATION OF A COURSE ENDS: `exec` answers a next state in which the course is `y`, the operation is outstanding no more, and every
other course and the scratchpads are as they were. -/
def HarpEnds (s : State) (i : Instr) (k id : Nat) (y : Course) (more : State → Prop) : Prop :=
  ∃ u, exec i s = .next u ∧ u.course k = y ∧ (∀ j, j ≠ k → u.course j = s.course j) ∧ u.sp = s.sp ∧
    (∀ o ∈ u.ops, o.id ≠ id) ∧ (∀ o ∈ s.ops, o.id ≠ id → o ∈ u.ops) ∧ more u

/-- An operation that fails: its course halts with the first failure recorded, and a `HARP_CHECK` is owed to the bow; where the count
reaches 255, a harp event is posted (R278–R280, R384). -/
def HarpFails (s : State) (i : Instr) (k id : Nat) (y : Course) (slot : BitVec 5) (mac : BitVec 4) (cause : BitVec 2) : Prop :=
  let z := { y with
      halt := true, count := if y.count = 255#8 then 255#8 else y.count + 1, slot := if y.cause = 0#2 then slot else y.slot
      badMac := if y.cause = 0#2 then mac else y.badMac, cause := if y.cause = 0#2 then cause else y.cause }
  ((s.course k).count ≠ 254#8 →
    HarpEnds s i k id z (fun u => u.mem = s.mem ∧ (u.cl (k / 8)).harpQ = (s.cl (k / 8)).harpQ ++ [k % 8])) ∧
  ((s.course k).count = 254#8 → y.count = 254#8 → CanPost s false →
    HarpEnds s i k id z (fun u => (u.cl (k / 8)).harpQ = (s.cl (k / 8)).harpQ ++ [k % 8] ∧ ∃ r, PostsOne s u false r ∧
      r.extractLsb' 0 8 = 9#8 ∧ r.extractLsb' 192 64 = BitVec.ofNat 64 (k % 8 + 8 * z.badMac.toNat + 256 * 255)))

/-- A number of n bytes at a place of memory that an engine command finds. -/
def FoundNum (s : State) (id c n : Nat) (q : Phys) (v : Nat) : Prop :=
  v < 256 ^ n ∧ ∀ j < n, FindsOp s id c .mem q.kind (q.at j) (v / 256 ^ j % 256)

/-- A map holds the codes of some cells as a command finds them, of a 4-bit format the named halves of their bytes, and 0 elsewhere (R61). -/
def HoldsCells (m : FMap (BitVec 32)) (s : State) (id c f : Nat) (cells : List (Nat × Phys × Bool)) : Prop :=
  (∀ e ∈ cells, ∃ v, FoundNum s id c (fmtBytes f) e.2.1 v ∧
    (mget 0 m e.1).toNat = (if e.2.2 then v / 16 else v) % 2 ^ fmtWidth f % 2 ^ 32) ∧ ∀ k, (∀ e ∈ cells, e.1 ≠ k) → mget 0 m k = 0

/-- The cells have strictly rising keys. -/
def Rising {α : Type} (l : List (Nat × α)) : Prop := l.Pairwise fun a b => a.1 < b.1

/-- The fraction of every macro that slot n of c slots occupies meets that of slot m of d (R259). -/
def Meets (n c m d : Nat) : Prop := (n : ℚ) / c < (m + 1) / d ∧ (m : ℚ) / d < (n + 1) / c

/-- The flags of a thread after every write so far. -/
def flagsNow (x : Thread) : BitVec 5 := (x.archW (.s .fsr)).setWidth 5

/-- The accumulator that a multiplying operation forms, by its kind and what it adds to (R272, R273). -/
def NewAcc (acc : FMap (BitVec 32)) (fl : BitVec 5) (f : Nat → Nat → Nat × BitVec 5) : Prop :=
  (∀ i < 32, ∀ j < 256, mget 0 acc (256 * i + j) = BitVec.ofNat 32 (f i j).1) ∧
  fl = (List.range 8192).foldl (fun z k => z ||| (f (k / 256) (k % 256)).2) 0

/-- A multiplying operation whose panel is loaded, whose A tiles have all arrived and pass, with the kind `int` of its accumulator: the
new accumulator by `f`, and result tiles 0 to q − 1 on the result queue, which has room (R260, R272). -/
def Multiplies (s : State) (i : Instr) (k id : Nat) (op : HarpOp) (l : List HarpCmd) (m : MulF) (have_ : List MVal) (mac : Bool)
    (p : Panel) (int : Bool) (f : List MVal → Nat → Nat → Nat × BitVec 5) (kind : Bool) : Prop :=
  let x := s.course k
  let n := m.km1.toNat / 32 + 1
  let tiles := have_ ++ x.aQueue.take (n - have_.length)
  let bow := tid (16 * (17 * (k / 8) + 16)) 0
  Head s k id op l → mget none x.panels m.slot.toNat = some p → p.mismatch tiles (m.km1.toNat + 1) = none → have_.length ≤ n → tiles.length = n →
  (∀ t ∈ tiles, harpPair t.tag p.tag = some int) → (mac = true → x.accInt = int) → x.results.length + m.q.toNat ≤ 8 →
  (∀ e ∈ (s.thr bow).pend, e.reg = .s .fsr → (∃ y, e.val = .w y) ∨ ∃ y, e.val = .orF y) →
    ∃ acc fl, NewAcc acc fl (f tiles) ∧ ∃ out : List MVal, out.length = m.q.toNat ∧
      (∀ (q : Nat) y, out[q]? = some y → y.tag = (if kind then 0x90#8 else 0x10#8) ∧ y.scale = 0 ∧
        ∀ i < 32, ∀ j < 32, at2 y i j = (mget 0 acc (256 * i + 32 * q + j)).toNat) ∧
      HarpEnds s i k id { x with
          aQueue := x.aQueue.drop (n - have_.length), acc := acc, accInt := kind, results := x.results ++ out, ops := l }
        (fun u => u.mem = s.mem ∧ flagsNow (u.thr bow) = flagsNow (s.thr bow) ||| fl)

/-- A multiplying operation whose panel is loaded fails: at its first tile that does not pair with the panel, or not as the first tile does, or
for `MMAC` not with the kind of the accumulator, having taken the tiles up to that one; or, with all its tiles, where a checksum partial
sum of a macro differs (R272, R277, R278). -/
def MultiplyFails (s : State) (i : Instr) (k id : Nat) (op : HarpOp) (l : List HarpCmd) (m : MulF) (have_ : List MVal) (mac : Bool)
    (p : Panel) : Prop :=
  let x := s.course k
  let n := m.km1.toNat / 32 + 1
  let ts := have_ ++ x.aQueue
  let bad := fun (t : MVal) => harpPair t.tag p.tag = none ∨ harpPair t.tag p.tag ≠ harpPair (ts.headD MVal.zero).tag p.tag ∨
    mac = true ∧ harpPair t.tag p.tag ≠ some x.accInt
  Head s k id op l → mget none x.panels m.slot.toNat = some p → have_.length ≤ n →
  (∀ (j : Nat) t, have_.length ≤ j → j < n → ts[j]? = some t → bad t → (∀ (j' : Nat) t', have_.length ≤ j' → j' < j → ts[j']? = some t' → ¬bad t') →
    HarpFails s i k id { x with aQueue := x.aQueue.drop (j + 1 - have_.length), ops := l } m.slot 0 2) ∧
  (∀ mac_, let tiles := ts.take n
    tiles.length = n → (∀ (j : Nat) t, have_.length ≤ j → tiles[j]? = some t → ¬bad t) → p.mismatch tiles (m.km1.toNat + 1) = some mac_ →
    HarpFails s i k id { x with aQueue := x.aQueue.drop (n - have_.length), ops := l } m.slot (BitVec.ofNat 4 mac_) 1)

/-- A finite exact addend as a rational (R98). -/
def ratOf : Exact → ℚ
  | .num s n e _ => (if s then -1 else 1) * n * (2 : ℚ) ^ e
  | _ => 0

/-- The ranking of R274 of some codes: whether column a comes before column b. -/
def Before (int big : Bool) (v : Nat → Nat) (a b : Nat) : Prop :=
  let key := fun j => rankKey int (v j)
  ranksBefore big (key a) (key b) = true ∨ (ranksBefore big (key b) (key a) = false ∧ a < b)

end Sys2Proof.Slice0

/-- R98: one group of the harp's summation over finite addends, the accumulator among them: each is truncated toward zero at 2^(E − 30), where
E is the greatest exponent; the exact sum is rounded once to nearest even, and a sum of zero is +0. A NaN among them, or infinities of both
signs, give the canonical NaN, else an infinity gives itself, and zeros give +0. -/
def Obligations.HarpSum : Prop :=
  ∀ (acc : Nat) (prods : List Exact),
    let t := prods ++ [((fm .f32).dec acc).exact]
    let out := (harpGroup acc prods).1
    (∀ (E : Int) (S : ℤ), (∀ x ∈ t, ∃ s n e, x = .num s n e false) → (∃ x ∈ t, (2 : ℚ) ^ E ≤ |ratOf x|) →
      (∀ x ∈ t, |ratOf x| < (2 : ℚ) ^ (E + 1)) →
      S = (t.map fun x => (if ratOf x < 0 then -1 else 1) * ⌊|ratOf x| / (2 : ℚ) ^ (E - 30)⌋).sum →
      out = if S = 0 then 0 else ((fm .f32).round .rne false (.num (decide (S < 0)) S.natAbs (E - 30) false)).1) ∧
    ((∃ x ∈ t, ∃ b, x = .nan b) ∨ (.inf false ∈ t ∧ .inf true ∈ t) → out = 0x7FC00000) ∧
    (∀ g, (∀ x ∈ t, ∀ b, x ≠ .nan b) → .inf g ∈ t → .inf (!g) ∉ t → out = if g then 0xFF800000 else 0x7F800000) ∧
    ((∀ x ∈ t, ∃ s e, x = .num s 0 e false) → out = 0)

/-- R258–R260, R270–R275, R277–R280: THE OPERATIONS OF A COURSE when they are performed. `MLDA` appends its tile to the A queue, or waits
while that is full; `MLDB` makes its panel resident, with its checksum columns, and unloads what it overlaps; `MACC` sets the accumulator
and its kind; `MSTC` stores it, or fails for an accumulator of the other kind; `MMUL`, `MMAC` and `MDIST` commit the accumulator of R272
and push their result tiles, or fail: without a panel, at a tile that does not pair, for `MMAC` with an accumulator of the other kind, or
where a checksum partial sum differs; a failure halts the course, and the count that reaches 255 posts a harp event; `MTOPK` pushes the
ranked values and indices; `HARP_CHECK` enters the bow's handler.
Where the spec leaves a point open it follows the model's choice: log entries 42, 43 and 87. -/
def Obligations.HarpOperations : Prop :=
  ∀ (s : State) (cl : BitVec 4) (n : BitVec 3) (id : Nat) (l : List HarpCmd),
    let c := cl.toNat
    let k := courseOn cl n
    let x := s.course k
    (∀ tag cells scales, Head s k id (.mlda tag cells scales) l → Rising cells →
      (4 ≤ x.aQueue.length → exec (.mldaPerform cl n) s = .next s) ∧
      (x.aQueue.length < 4 → ∃ m : MVal, m.tag = tag ∧ HoldsCells m.elems s id c (tagFmt tag) cells ∧
        (∀ b < 32, match scales.find? fun e => e.1 == b with
          | some e => FoundNum s id c 1 e.2 (m.scale.extractLsb' (8 * b) 8).toNat | none => m.scale.extractLsb' (8 * b) 8 = 0) ∧
        HarpEnds s (.mldaPerform cl n) k id { x with aQueue := x.aQueue ++ [m], ops := l } (fun u => u.mem = s.mem))) ∧
    (∀ tag slot cells scales, Head s k id (.mldb tag slot cells scales) l → Rising cells → Rising scales → mwf none x.panels = true →
      ∃ (p : Panel) (y : FMap (Option Panel)), p.tag = tag ∧ p.sums = p.columns [] ∧ HoldsCells p.elems s id c (tagFmt tag) cells ∧
        (∀ key, match scales.find? fun e => e.1 == key with
          | some e => FoundNum s id c 1 e.2 (p.scaleAt (key / 256) (key % 256)) | none => p.scaleAt (key / 256) (key % 256) = 127) ∧
        mget none y slot.toNat = some p ∧
        (∀ m q a b, m ≠ slot.toNat → mget none x.panels m = some q → harpSlots (tagFmt tag) = some a → harpSlots (tagFmt q.tag) = some b →
          (Meets slot.toNat a m b → mget none y m = none) ∧ (¬Meets slot.toNat a m b → mget none y m = some q)) ∧
        HarpEnds s (.mldbPerform cl n) k id { x with panels := y, ops := l } (fun u => u.mem = s.mem)) ∧
    (∀ tag cells, Head s k id (.macc tag cells) l → Rising cells → ∃ y, HoldsCells y s id c 1 cells ∧
      HarpEnds s (.maccPerform cl n) k id { x with acc := y, accInt := tag == 0x90#8, ops := l } (fun u => u.mem = s.mem)) ∧
    (∀ tag cells, Head s k id (.mstc tag cells) l →
      (x.accInt = (tag == 0x90#8) → HarpEnds s (.mstcPerform cl n) k id { x with ops := l } (fun u =>
        (∀ e ∈ cells, (∀ e' ∈ cells, ∀ i < 4, ∀ j < 4, e.2.1.at i = e'.2.1.at j → e' = e ∧ i = j) →
          ∀ j < 4, Memory.byte u.mem (e.2.1.at j) = (mget 0 x.acc e.1).extractLsb' (8 * j) 8) ∧
        ∀ A, (∀ e ∈ cells, ∀ j < 4, e.2.1.at j ≠ A) → Memory.byte u.mem A = Memory.byte s.mem A)) ∧
      (x.accInt ≠ (tag == 0x90#8) → HarpFails s (.mstcPerform cl n) k id { x with ops := l } 0 0 2)) ∧
    (∀ m t p int,
      Multiplies s (.mmulPerform cl n) k id (.mmul m t) l m t false p int (fun tiles i j =>
        if int then harpIntElem p tiles (m.km1.toNat + 1) i j 0 else harpElem (false, 0) p tiles (m.km1.toNat + 1) i j 0) int ∧
      Multiplies s (.mmacPerform cl n) k id (.mmac m t) l m t true p int (fun tiles i j =>
        let inc := (mget 0 x.acc (256 * i + j)).toNat
        if int then harpIntElem p tiles (m.km1.toNat + 1) i j inc else harpElem (false, 0) p tiles (m.km1.toNat + 1) i j inc) int ∧
      ∀ a b, Rising a → Rising b → ∃ norm : List (Nat × Phys) → Nat → Nat,
        (∀ r, r = a ∨ r = b → ∀ i, match r.find? fun e => e.1 == i with
          | some e => FoundNum s id c 4 e.2 (norm r i) | none => norm r i = 0) ∧
        Multiplies s (.mdistPerform cl n) k id (.mdist m a b t) l m t false p int (fun tiles i j =>
          let inc := (fm .f32).round .rne false (FVal.add .rne ((fm .f32).dec (norm a i)) ((fm .f32).dec (norm b j)))
          let y := harpElem (true, 1) p tiles (m.km1.toNat + 1) i j inc.1
          (y.1, inc.2 ||| y.2)) false) ∧
    (∀ m t a b, mget none x.panels m.slot.toNat = none →
      (Head s k id (.mmul m t) l → HarpFails s (.mmulPerform cl n) k id { x with ops := l } m.slot 0 2) ∧
      (Head s k id (.mmac m t) l → HarpFails s (.mmacPerform cl n) k id { x with ops := l } m.slot 0 2) ∧
      (Head s k id (.mdist m a b t) l → HarpFails s (.mdistPerform cl n) k id { x with ops := l } m.slot 0 2)) ∧
    (∀ m t p a b,
      MultiplyFails s (.mmulPerform cl n) k id (.mmul m t) l m t false p ∧
      MultiplyFails s (.mmacPerform cl n) k id (.mmac m t) l m t true p ∧
      MultiplyFails s (.mdistPerform cl n) k id (.mdist m a b t) l m t false p) ∧
    (∀ km1 wm1 big, Head s k id (.mtopk km1 wm1 big) l →
      (6 < x.results.length → exec (.mtopkPerform cl n) s = .next s) ∧
      (x.results.length ≤ 6 → ∃ v j : MVal, v.tag = (if x.accInt then 0x90#8 else 0x10#8) ∧ j.tag = 0x90#8 ∧ v.scale = 0 ∧ j.scale = 0 ∧
        (∀ i < 32, ∀ t < 32, km1.toNat < t → at2 v i t = 0 ∧ at2 j i t = 0xFFFFFFFF) ∧
        (∀ i < 32, ∀ t ≤ km1.toNat, t ≤ wm1.toNat → at2 j i t ≤ wm1.toNat ∧ at2 v i t = (mget 0 x.acc (256 * i + at2 j i t)).toNat ∧
          ∀ t' < t, Before x.accInt big (fun q => (mget 0 x.acc (256 * i + q)).toNat) (at2 j i t') (at2 j i t)) ∧
        HarpEnds s (.mtopkPerform cl n) k id { x with results := x.results ++ [v, j], ops := l } (fun u => u.mem = s.mem))) ∧
    (∀ e q, (s.cl c).harpQ = e :: q → s.hole = false → s.bowOpen c = true → (s.thr (131072 + c)).stat = .run → s.hasOps (131072 + c) = false →
      (s.grpRes (16 * (17 * c + 16))).trapvec ≠ 0 → ∃ u, exec (.harpCheck cl) s = .next u ∧ (u.cl c).harpQ = q ∧ u.mem = s.mem ∧
        u.thr (131072 + c) = s.entering (131072 + c) ⟨BitVec.ofNat 64 (17 + 256 * (e % 256)), (s.course (8 * c + e)).status, (s.thr (131072 + c)).pc⟩)

namespace Sys2Proof.Slice0
open Machine

/-- A part of a term instruction ends without a trap or a park, with a value, and leaves its lane's state. -/
def Runs {α : Type} (m : TM α) (x : TermSt) (a : α) (y : TermSt) : Prop := m.run x = (.ok a, y)

/-- A term word of a tag and a payload (R299). -/
def term (tag : BitVec 4) (pay : Nat) : W64 := tag ++ BitVec.ofNat 60 pay
/-- The tag of a term word (R299). -/
def tagBits (w : W64) : BitVec 4 := w.extractLsb' 60 4
/-- The payload of a term word (R299). -/
def payOf (w : W64) : Nat := (w.extractLsb' 0 60).toNat

/-- A payload that may be followed (R299). -/
def Follows (w : W64) : Prop := payOf w < 2 ^ 48 ∧ payOf w % 8 = 0

/-- THE DEREFERENCING OF R303: a term that is no variable and no reference stands; a variable whose word is itself is unbound; the word at
any other variable or reference is followed, each for one step. -/
inductive Derefs : W64 → TermSt → W64 → TermSt → Prop
  | value (w : W64) (x : TermSt) (h : tagBits w = 2 ∨ tagBits w = 3 ∨ tagBits w = 4 ∨ tagBits w = 6 ∨ tagBits w = 7) : Derefs w x w x
  | unbound (w : W64) (x y : TermSt) (h : tagBits w = 0 ∨ tagBits w = 1) (f : Follows w) (n : x.n + 1 ≤ x.limit)
      (l : Runs (termLookup (payOf w)) { x with n := x.n + 1 } (term 0 (payOf w)) y) : Derefs w x (term 0 (payOf w)) y
  | follow (w m r : W64) (x y z : TermSt) (h : tagBits w = 0 ∨ tagBits w = 1) (f : Follows w) (n : x.n + 1 ≤ x.limit)
      (l : Runs (termLookup (payOf w)) { x with n := x.n + 1 } m y) (t : tagBits m ≠ 0) (d : Derefs m y r z) : Derefs w x r z

/-- THE BINDING OF R304: a shared variable takes an overlay entry; a private one is trailed below the heap mark and written. -/
def Binds (a : Nat) (v : W64) (x z : TermSt) : Prop :=
  let v := if tagBits v = 0 then term 1 (payOf v) else v
  let x := { x with binds := x.binds + 1 }
  x.shb.toNat % 8 = 0 ∧
  (a < x.shb.toNat → x.ovt.toNat % 16 = 0 ∧ x.ovl.toNat % 16 = 0 ∧ x.ovt.toNat + 16 ≤ x.ovl.toNat ∧ ∃ y y',
    Runs (termSpPut 16 x.ovt (BitVec.ofNat 64 a)) x () y ∧ Runs (termSpPut 8 (x.ovt + 8) v) y () y' ∧ z = { y' with ovt := y'.ovt + 16 }) ∧
  (x.shb.toNat ≤ a → x.hb.toNat % 8 = 0 ∧ ∃ y, (a < x.hb.toNat → ∃ y', Runs (termSpPut 8 x.tr (BitVec.ofNat 64 a)) x () y' ∧
      y = { y' with tr := y'.tr + 8 }) ∧ (x.hb.toNat ≤ a → y = x) ∧ Runs (termPut a v) y () z)

/-- The arguments of two structures, as pairs of references in order (R308). -/
def argsOf (n a b : Nat) : List (W64 × W64) := (List.range n).map fun k => (term 1 (a + 8 * (k + 1)), term 1 (b + 8 * (k + 1)))

/-- One pair of dereferenced terms: bindings made and pairs to walk, or a clash (R308). -/
def PairTo (a b : W64) (x : TermSt) : Option (List (W64 × W64)) → TermSt → Prop
  | none, z => a ≠ b ∧ tagBits a ≠ 0 ∧ tagBits b ≠ 0 ∧
      ((tagBits a ≠ tagBits b ∨ tagBits a ≠ 4 ∧ tagBits a ≠ 6) ∧ z = x ∨
        tagBits a = 4 ∧ tagBits b = 4 ∧ Follows a ∧ Follows b ∧ ∃ f h y, f ≠ h ∧ Runs (termFun (payOf a)) x f y ∧ Runs (termFun (payOf b)) y h z)
  | some ps, z =>
      a = b ∧ ps = [] ∧ z = x ∨
      a ≠ b ∧ ps = [] ∧ tagBits a = 0 ∧ tagBits b = 0 ∧ payOf b < payOf a ∧ Binds (payOf a) b x z ∨
      a ≠ b ∧ ps = [] ∧ tagBits a = 0 ∧ tagBits b = 0 ∧ payOf a ≤ payOf b ∧ Binds (payOf b) a x z ∨
      ps = [] ∧ tagBits a = 0 ∧ tagBits b ≠ 0 ∧ Binds (payOf a) b x z ∨
      ps = [] ∧ tagBits a ≠ 0 ∧ tagBits b = 0 ∧ Binds (payOf b) a x z ∨
      a ≠ b ∧ tagBits a = 4 ∧ tagBits b = 4 ∧ Follows a ∧ Follows b ∧ (∃ f y, Runs (termFun (payOf a)) x f y ∧ Runs (termFun (payOf b)) y f z ∧
        ps = argsOf (f.extractLsb' 0 8).toNat (payOf a) (payOf b)) ∨
      a ≠ b ∧ tagBits a = 6 ∧ tagBits b = 6 ∧ Follows a ∧ Follows b ∧ z = x ∧
        ps = [(term 1 (payOf a), term 1 (payOf b)), (term 1 (payOf a + 8), term 1 (payOf b + 8))]

/-- THE WALK OF R308 over a stack of pairs, its top first, with a walk area from an address on. -/
inductive Unifies (base : W64) : List (W64 × W64) → TermSt → Bool → TermSt → Prop
  | done (x : TermSt) : Unifies base [] x true x
  | clash (a b a' b' : W64) (l : List (W64 × W64)) (x y z u : TermSt) (n : x.n + 1 ≤ x.limit) (da : Derefs a { x with n := x.n + 1 } a' y)
      (db : Derefs b y b' z) (h : PairTo a' b' z none u) : Unifies base ((a, b) :: l) x false u
  | walk (a b a' b' : W64) (l ps : List (W64 × W64)) (r : Bool) (x y z u v w : TermSt) (n : x.n + 1 ≤ x.limit)
      (da : Derefs a { x with n := x.n + 1 } a' y) (db : Derefs b y b' z) (h : PairTo a' b' z (some ps) u)
      (room : Runs (walkRooms base l.length ps) u () v) (k : Unifies base (ps ++ l) v r w) : Unifies base ((a, b) :: l) x r w

/-- The participants' parts, one after the other, each on the state that those before it left; `R l` is the part of lane l, and `done` what
stands of its writes (R302, R306, R312). -/
def TermSteps (g : Nat) (R : Nat → TermSt → TermSt → Prop) (done : Nat → TermSt → State) : List Nat → Seen → Seen → Prop
  | [], y, z => z = y
  | l :: p, y, z => ∃ x, R l (termStart g (tid g l) y) x ∧ TermSteps g R done p ⟨done l x, x.y.lines⟩ z

/-- A term instruction without a walk area: every write of a lane stands at its end. -/
def kept (_ : Nat) (x : TermSt) : State := x.commit x.y.st

/-- The writes of `tr` and `ovt` where bindings have moved them. -/
def moved (x y : TermSt) : List (RegId × RVal) :=
  (if x.tr = y.tr then [] else [(.s .tr, .w y.tr)]) ++ if x.ovt = y.ovt then [] else [(.s .ovt, .w y.ovt)]

/-- The first byte above the newest choice point (R308, R311). -/
def TopAt (x : TermSt) (top : W64) (z : TermSt) : Prop :=
  (x.chp = 0 → top = x.chb ∧ z = x) ∧
  (x.chp ≠ 0 → ∃ w, Runs (termSp 8 x.chp) x w z ∧ top = x.chp + BitVec.ofNat 64 (8 * (5 + (w.extractLsb' 48 4).toNat)))

/-- The heap mark of a choice point, 0 for none (R311). -/
def MarkOf (chp : W64) (x : TermSt) (hb : W64) (z : TermSt) : Prop :=
  (chp = 0 → hb = 0 ∧ z = x) ∧ (chp ≠ 0 → Runs (termSp 8 (chp + 8)) x hb z)

/-- Words written to term memory from an address upward, a fresh variable where none is given (R310). -/
def Allocates : Nat → List (Option W64) → TermSt → TermSt → Prop
  | _, [], x, z => z = x
  | a, w :: l, x, z => ∃ y, Runs (termPut a (w.getD (term 0 a))) x () y ∧ Allocates (a + 8) l y z

/-- Words written to the scratchpad from an address upward. -/
def Puts : W64 → List W64 → TermSt → TermSt → Prop
  | _, [], x, z => z = x
  | a, w :: l, x, z => ∃ y, Runs (termSpPut 8 a w) x () y ∧ Puts (a + 8) l y z

/-- Words read from the scratchpad from an address upward. -/
def Gets : W64 → List W64 → TermSt → TermSt → Prop
  | _, [], x, z => z = x
  | a, w :: l, x, z => ∃ y, Runs (termSp 8 a) x w y ∧ Gets (a + 8) l y z

/-- The trail entries from `top` down to `bottom`: each names a word that is a variable again (R311). -/
def Unwinds : Nat → W64 → TermSt → TermSt → Prop
  | 0, _, x, z => z = x
  | n + 1, top, x, z => ∃ a y y', Runs (termSp 8 (top - 8)) x a y ∧ Runs (termPut a.toNat (term 0 a.toNat)) y () y' ∧ Unwinds n (top - 8) y' z

/-- The entries of an overlay, oldest first, published in turn, each by one compare-and-swap with a release at the scope; those whose words
hold another term are kept (R312, R314). -/
def Publishes (sc : BitVec 4) : List (Nat × W64) → W64 → TermSt → W64 → TermSt → Prop
  | [], k, x, k', z => k' = k ∧ z = x
  | (a, v) :: l, k, x, k', z => ∃ old y, Runs (casWord sc a) x old y ∧
      (old = term 0 a → ∃ p y', Runs (termPlace Need.atomic a) y p y' ∧ Publishes sc l k { y' with mem := (p, v, some sc) :: y'.mem } k' z) ∧
      (old ≠ term 0 a → old = v → Publishes sc l k y k' z) ∧
      (old ≠ term 0 a → old ≠ v → ∃ y' y'', Runs (termSpPut 16 k (BitVec.ofNat 64 a)) y () y' ∧ Runs (termSpPut 8 (k + 8) v) y' () y'' ∧
        Publishes sc l (k + 16) y'' k' z)

/-- The sources of dereferencing beside its operands. -/
def looks : List RegId := [.s .shb, .s .ovb, .s .ovt, .s .steps]
/-- The sources of binding beside its operands. -/
def bindsReads : List RegId := looks ++ [.s .hb, .s .tr, .s .ovl]

end Sys2Proof.Slice0

/-- R303, R304, R307–R309: `TAGOF` writes the tag of its register. `DEREF` writes the term that its register dereferences to. `UNIFY` walks its
two terms, making the bindings, and writes 1, or 0 on a clash; `BIND` binds the variable that its first register dereferences to, unless
its second is that variable. The trail and overlay tops take the entries made, and term memory and scratchpad the writes.
Where the spec leaves a point open it follows the model's choice: log entry 45. -/
def Obligations.TermsFollowed : Prop :=
  (∀ (s : State) (c : Ctl) (d a b : GReg) (q : PReg) (p : List Nat) (z : Seen) (r base : Nat → W64) (ok : Nat → Bool) (x y : Nat → TermSt),
    let g := s.curG
    let start := (⟨s, []⟩ : Seen)
    (s.Acts c (.fixC 2 [.g a]) p → s.Writes (.tagof c d a) c p 2 (fun l => toG d ((tagBits (src s l (.g a))).setWidth 64))) ∧
    (s.Acts c (.var .c (.g a :: looks)) p →
      TermSteps g (fun l x y => Derefs (src s l (.g a)) x (r l) y) kept p start z → z.st.hole = false →
      s.Looked z.st ∧ Enters s (.deref c d a) c (.var .c (.g a :: looks)) (did z.st none .plain true none) p (fun l => toG d (r l))) ∧
    (s.Acts c (.var .c (.g a :: .g b :: .s .chb :: .s .chp :: bindsReads)) p →
      TermSteps g (fun l x0 y0 => ∃ x1 x2, TopAt x0 (base l) x1 ∧ Runs (walkRoom (base l) 0) x1 () x2 ∧
          Unifies (base l) [(src s l (.g a), src s l (.g b))] x2 (ok l) y0 ∧ x l = x0 ∧ y l = y0)
        (fun l y0 => y0.commit (y0.walked (base l))) p start z → z.st.hole = false →
      Enters s (.unify c q a b) c (.var .c (.g a :: .g b :: .s .chb :: .s .chp :: bindsReads)) (did z.st none .plain true none) p
        (fun l => toP q (ok l) ++ moved (x l) (y l))) ∧
    (s.Acts c (.var .c (.g a :: .g b :: bindsReads)) p →
      TermSteps g (fun l x0 y0 => ∃ v w x1 x2, Derefs (src s l (.g a)) x0 v x1 ∧ Derefs (src s l (.g b)) x1 w x2 ∧ tagBits v = 0 ∧
          (w = v → y0 = x2) ∧ (w ≠ v → Binds (payOf v) w x2 y0) ∧ x l = x0 ∧ y l = y0) kept p start z → z.st.hole = false →
      Enters s (.bind c a b) c (.var .c (.g a :: .g b :: bindsReads)) (did z.st none .plain true none) p (fun l => moved (x l) (y l)))) ∧
  (∀ (a : Nat) (v : W64) (x z : TermSt), Runs (termLookup a) x v z → x.sp = [] →
    let n := (x.ovt.toNat - x.ovb.toNat) / 16
    let entry := fun i => x.ovt - BitVec.ofNat 64 (16 * (i + 1))
    let holds := fun (w : Nat) (at_ : W64) (y : Nat) => y < 2 ^ 64 ∧ ∀ k, x.y.st.spCheck x.g w at_ = .inl k →
      ∀ j < 8, Finds x.y.st x.t .sp 0 (k + j) (y / 256 ^ j % 256)
    x.shb.toNat % 8 = 0 ∧ (x.shb.toNat ≤ a → Runs (termWord a) x v z) ∧
    (a < x.shb.toNat → x.ovb.toNat % 16 = 0 ∧ x.ovt.toNat % 16 = 0 ∧ ∃ (word value : Nat → Nat) (w : List WriteRec),
      let after : TermSt := { x with y := ⟨{ x.y.st with writes := w }, x.y.lines⟩ }
      (∀ i < n, holds 16 (entry i) (word i) ∧ holds 8 (entry i + 8) (value i)) ∧
      ((∀ i < n, word i ≠ a) ∧ Runs (termWord a) after v z ∨
        ∃ i < n, word i = a ∧ (∀ j < i, word j ≠ a) ∧ v = BitVec.ofNat 64 (value i) ∧ z = after)))

/-- R310–R312: `MKVAR` and `MKSTR` allocate words at `hp`; `CHPT` pushes a choice point above the newest one; `FAIL` resets the trailed words,
takes its marks and argument registers back and goes on at the alternative, its lanes waiting for it; `CUT` drops choice points; `OVPUB`
publishes the overlay's entries, keeps those whose words hold another term, and writes how many it kept.
Where the spec leaves a point open it follows the model's choice: log entries 45 and 46. -/
def Obligations.TermsBuilt : Prop :=
  ∀ (s : State) (c : Ctl) (d a : GReg) (n : BitVec 4) (off : BitVec 18) (sc : Scope) (p : List Nat) (z : Seen)
      (hp top mark : Nat → W64) (rec args : Nat → List W64),
    let g := s.curG
    let start := (⟨s, []⟩ : Seen)
    let arg := fun i => (BitVec.ofNat 6 (40 + i) : GReg)
    z.st.hole = false →
    (s.Acts c (.var .c [.s .hp]) p →
      TermSteps g (fun l x y => hp l = x.hp ∧ x.hp.toNat % 8 = 0 ∧ x.hp.toNat + 8 ≤ 2 ^ 48 ∧ Allocates x.hp.toNat [none] x y) kept p start z →
      Enters s (.mkvar c d) c (.var .c [.s .hp]) (did z.st none .plain true none) p
        (fun l => [(.g d, .w (term 0 (hp l).toNat)), (.s .hp, .w (hp l + 8))])) ∧
    (s.Acts c (.var .c [.g a, .s .hp]) p →
      (∀ l ∈ p, tagBits (src s l (.g a)) = 5 ∨ tagBits (src s l (.g a)) = 6) →
      let words := fun l => if tagBits (src s l (.g a)) = 5
        then some (src s l (.g a)) :: List.replicate ((src s l (.g a)).extractLsb' 0 8).toNat none else [none, none]
      TermSteps g (fun l x y => hp l = x.hp ∧ x.hp.toNat % 8 = 0 ∧ x.hp.toNat + 8 * (words l).length ≤ 2 ^ 48 ∧
        Allocates x.hp.toNat (words l) x y) kept p start z →
      Enters s (.mkstr c d a) c (.var .c [.g a, .s .hp]) (did z.st none .plain true none) p
        (fun l => [(.g d, .w (term (if tagBits (src s l (.g a)) = 5 then 4 else 6) (hp l).toNat)),
          (.s .hp, .w (hp l + BitVec.ofNat 64 (8 * (words l).length)))])) ∧
    (let w : WordSpec := .var .c ([.s .chb, .s .chp, .s .hp, .s .tr, .s .ovt] ++ ((List.range n.toNat).map arg).map .g);
      s.Acts c w p → TermSteps g (fun l x y => hp l = x.hp ∧ x.hp.toNat % 8 = 0 ∧ x.tr.toNat % 8 = 0 ∧ x.ovt.toNat % 16 = 0 ∧
        ∃ x1, TopAt x (top l) x1 ∧
        Puts (top l) ([0#12 ++ n ++ (s.cur.hdr + (off.signExtend 48 <<< 3)), x.hp, x.tr, x.ovt, x.chp] ++
          (List.range n.toNat).map fun i => src s l (.g (arg i))) x1 y) kept p start z →
      Enters s (.chpt c n off) c w (did z.st none .plain true none) p (fun l => [(.s .chp, .w (top l)), (.s .hb, .w (hp l))])) ∧
    (let w : WordSpec := .var .c [.s .chp, .s .tr, .s .ovb, .s .ovt]
      let word := fun l i => (rec l).getD i 0
      let count := fun l => ((word l 0).extractLsb' 48 4).toNat
      s.Acts c w p → p ≠ [] → TermSteps g (fun l x y => x.chp ≠ 0 ∧ (rec l).length = 5 ∧ (args l).length = count l ∧ count l ≤ 8 ∧
        x.tr.toNat % 8 = 0 ∧ x.ovb.toNat % 16 = 0 ∧ x.ovt.toNat % 16 = 0 ∧ (word l 2).toNat ≤ x.tr.toNat ∧ x.ovb.toNat ≤ (word l 3).toNat ∧ (word l 3).toNat ≤ x.ovt.toNat ∧
        ∃ x1 x2 x3, Gets x.chp (rec l) x x1 ∧ Unwinds ((x.tr.toNat - (word l 2).toNat) / 8) x.tr x1 x2 ∧
          Gets (x.chp + 40) (args l) x2 x3 ∧ MarkOf (word l 4) x3 (mark l) y) kept p start z →
      s.Completed (.fail c) c w (did (z.st.modLanes g (maskOf p) fun x => { x with waitOp := s.nextId }) none .plain true none) p
        (fun l => (word l 0) &&& 0xFFFFFFFFFFFF#64)
        (fun l => [(.s .tr, .w (word l 2)), (.s .hp, .w (word l 1)), (.s .ovt, .w (word l 3)), (.s .chp, .w (word l 4)),
          (.s .hb, .w (mark l))] ++ (List.range (count l)).map fun i => (.g (arg i), .w ((args l).getD i 0)))) ∧
    (s.Acts c (.var .c [.s .chp]) p → TermSteps g (fun _ x y => x.chp = 0 ∧ y = x) kept p start z →
      Enters s (.cut c none) c (.var .c [.s .chp]) (did z.st none .plain true none) p (fun _ => [])) ∧
    (s.Acts c (.var .c [.s .chp]) p →
      TermSteps g (fun l x y => x.chp ≠ 0 ∧ ∃ x1, Runs (termSp 8 (x.chp + 32)) x (top l) x1 ∧ MarkOf (top l) x1 (mark l) y) kept p start z →
      Enters s (.cut c none) c (.var .c [.s .chp]) (did z.st none .plain true none) p
        (fun l => [(.s .chp, .w (top l)), (.s .hb, .w (mark l))])) ∧
    (s.Acts c (.var .c [.g a, .s .chp, .s .chb]) p →
      TermSteps g (fun l x y => let v := src s l (.g a)
        x.chb.toNat % 8 = 0 ∧ x.chp.toNat % 8 = 0 ∧ (v = 0 ∨ v.toNat % 8 = 0 ∧ x.chb.toNat ≤ v.toNat ∧ v.toNat ≤ x.chp.toNat) ∧ MarkOf v x (mark l) y) kept p start z →
      Enters s (.cut c (some a)) c (.var .c [.g a, .s .chp, .s .chb]) (did z.st none .plain true none) p
        (fun l => [(.s .chp, .w (src s l (.g a))), (.s .hb, .w (mark l))])) ∧
    (let w : WordSpec := { WordSpec.var .c [.s .chp, .s .ovb, .s .ovt] with ends := true };
      s.Acts c w p → TermSteps g (fun l x y => x.chp = 0 ∧ hp l = x.ovb ∧ x.ovb.toNat % 16 = 0 ∧ x.ovt.toNat % 16 = 0 ∧ ∃ es x1,
        Runs (ovEntries ((x.ovt.toNat - x.ovb.toNat) / 16) x.ovb) x es x1 ∧ Publishes sc.code es x.ovb x1 (top l) y) kept p start z →
      Enters s (.ovpub c sc d) c w (did z.st none .plain true none) p
        (fun l => [(.g d, .w (BitVec.ofNat 64 (((top l).toNat - (hp l).toNat) / 16))), (.s .ovt, .w (top l))]))

namespace Sys2Proof.Slice0
open Machine

/-- The number of set bits of a word below a position. -/
def ones (x : W64) (n : Nat) : Nat := ((List.range (min n 64)).filter fun i => x.getLsbD i).length

/-- The items of the rows before a row (R290). -/
def itemsBefore (len : Nat → Nat) (r : Nat) : Nat := ((List.range r).map len).sum

/-- Some ranges of addresses do not meet. -/
def Apart (l : List (Nat × Nat)) : Prop := l.Pairwise fun a b => a.1 + a.2 ≤ b.1 ∨ b.1 + b.2 ≤ a.1

/-- The places of the elements of `EXPND`, one lane after the other: the lanes of the mask take the elements behind the base in order, and
nothing where an index is dropped (R295). -/
def ExpandSteps (g : Nat) (r : W256) (w : Nat) (m : W64) (base : Nat) (q : Nat → Option Phys) : List Nat → Seen → Seen → Prop
  | [], y, z => z = y
  | l :: p, y, z =>
    let i := (base + ones m l) % 2 ^ 64
    (m.getLsbD l = false → q l = none ∧ ExpandSteps g r w m base q p y z) ∧
    (m.getLsbD l = true → bufElem r w i = .drop ∧ q l = none ∧ ExpandSteps g r w m base q p y z ∨
      ∃ va k y1, q l = some k ∧ bufElem r w i = .addr va ∧ gatherPlace g va w y = (y1, .inl k) ∧ ExpandSteps g r w m base q p y1 z)

end Sys2Proof.Slice0

/-- R287–R295: `BMAND` and `POPCP` of bitmap words; `ISECT` delivers the positions of the intersection, translated into both value arrays, to
its lanes, and the advanced bases and the count to the leader; `REBAL` deals the items of the rows out to the lanes; `CMPK` appends one
chunk to the matrix of its record, writing the offset, the half, the values, the counter and the record, and nothing else; `EXPND`
delivers the elements behind its base to the lanes of its mask through the gather unit's queue, at once or behind a join.
Where the spec leaves a point open it follows the model's choice: log entry 44. -/
def Obligations.SparseWords : Prop :=
  ∀ (s : State) (c : Ctl) (d a b x : GReg) (A B : Src) (q : PReg) (hi : Bool) (rb : BReg) (lead : Nat) (p : List Nat),
    (s.Acts c (.fixC 4 (A.regs ++ B.regs)) p →
      s.Writes (.bmand c d A B) c p 4 (fun l => [(.g d, .w (src s l A &&& src s l B)),
        (.g (d + 1), .w (BitVec.ofNat 32 (ones (src s l B) 64) ++ BitVec.ofNat 32 (ones (src s l A) 64)))]) ∧
      s.Writes (.popcp c d A B) c p 4 (fun l => toG d (BitVec.ofNat 64 (ones (src s l A) (src s l B).toNat)))) ∧
    (s.Acts c { WordSpec.fixC 8 [] with lead := pairRegs a ++ pairRegs b } (lead :: p) → ∀ nth : Nat → Nat,
      let x := src s lead (.g a)
      let y := src s lead (.g (a + 1))
      let bA := (src s lead (.g b)).setWidth 32
      let bB := (src s lead (.g (b + 1))).setWidth 32
      let both := x &&& y
      let cnt := ones both 64
      (∀ k < cnt, nth k < 64 ∧ both.getLsbD (nth k) = true ∧ ones both (nth k) = k) →
      s.Writes (.isect c hi d q a b) c (lead :: p) 8 (fun l =>
        let k := l + if hi then 32 else 0
        (if k < cnt then [(.g d, .w ((bA + BitVec.ofNat 32 (ones x (nth k))).setWidth 64)),
            (.g (d + 1), .w ((bB + BitVec.ofNat 32 (ones y (nth k))).setWidth 64)), (.p q, .p true)]
          else [(.p q, .p false)]) ++
        if l = lead then [(.g (b + 2), .w (BitVec.ofNat 32 cnt ++ (bA + BitVec.ofNat 32 (ones x 64)))),
          (.g (b + 3), .w ((bB + BitVec.ofNat 32 (ones y 64)).setWidth 64))] else [])) ∧
    (s.Acts c { WordSpec.fixC 10 A.regs with lead := B.regs } (lead :: p) → ∀ row : Nat → Nat,
      let len := fun r => if r ∈ lead :: p then (src s r A).toNat % 2 ^ 32 else 0
      let item := fun l => (src s lead B).toNat + l
      let total := itemsBefore len 32
      (∀ l ∈ lead :: p, item l < total → row l < 32 ∧ itemsBefore len (row l) ≤ item l ∧ item l < itemsBefore len (row l + 1)) →
      s.Writes (.rebal c d A B) c (lead :: p) 10 (fun l =>
        (if item l < total then [(.g d, .w (BitVec.ofNat 64 (row l))), (.g (d + 1), .w (BitVec.ofNat 64 (item l - itemsBefore len (row l))))]
          else [(.g d, .w (-1)), (.g (d + 1), .w 0)]) ++
        if l = lead then [(.g (d + 2), .w (BitVec.ofNat 64 total))] else [])) ∧
    (s.Acts c { WordSpec.var .c [.g x, .p q] with lead := [.g a] } (lead :: p) → s.latent = [] → ∀ (k o h v n : Nat),
      let g := s.curG
      let ls := (lead :: p).filter fun l => pred s l q
      let m := ls.length
      let r := CmpRec.ofNat (Memory.read s.sp k 32)
      let e := 2 ^ r.esize
      let old := if r.row % 32 = 0 ∧ r.pos = 0 then 0 else Memory.read s.sp n 2
      s.spRange g 32 32 (src s lead (.g a)) = .inl k → (r.pos = 0 → s.spRange g 4 4 (BitVec.ofNat 64 r.oaddr) = .inl o) →
      s.spRange g 4 4 (BitVec.ofNat 64 r.baddr) = .inl h → (m ≠ 0 → s.spRange g (e * m) e (BitVec.ofNat 64 r.vaddr) = .inl v) →
      s.spRange g 2 2 (BitVec.ofNat 64 (r.caddr + 2 * (r.row / 32))) = .inl n →
      r.rsv = 0 → r.esize ≠ 3 → r.cols ≠ 0 → r.cols % 64 = 0 → r.pos % 32 = 0 → r.pos < r.cols →
      old + m ≤ 65535 → r.next + m < 2 ^ 32 → (r.pos + 32 = r.cols → r.row + 1 < 2 ^ 32) →
      Apart ([(k, 32), (h, 4), (n, 2)] ++ (if r.pos = 0 then [(o, 4)] else []) ++ if m = 0 then [] else [(v, e * m)]) →
      ∃ s', Enters s (.cmpk c a x q) c { WordSpec.var .c [.g x, .p q] with lead := [.g a] } (did s' none .plain true none) (lead :: p)
          (fun _ => []) ∧ s'.mem = s.mem ∧
        (r.pos = 0 → Memory.read s'.sp o 4 = r.next) ∧ Memory.read s'.sp h 4 = (maskOf ls).toNat ∧
        (∀ (t l : Nat), ls[t]? = some l → Memory.read s'.sp (v + e * t) e = (src s l (.g x)).toNat % 256 ^ e) ∧ Memory.read s'.sp n 2 = old + m ∧
        CmpRec.ofNat (Memory.read s'.sp k 32) = { r with
          oaddr := if r.pos = 0 then (r.oaddr + 4) % 2 ^ 30 else r.oaddr, baddr := (r.baddr + 4) % 2 ^ 30
          vaddr := (r.vaddr + e * m) % 2 ^ 30, next := r.next + m
          pos := if r.pos + 32 = r.cols then 0 else r.pos + 32, row := if r.pos + 32 = r.cols then r.row + 1 else r.row } ∧
        ∀ A, (A < k ∨ k + 32 ≤ A) → (A < h ∨ h + 4 ≤ A) → (A < n ∨ n + 2 ≤ A) → (r.pos = 0 → A < o ∨ o + 4 ≤ A) →
          (m ≠ 0 → A < v ∨ v + e * m ≤ A) → Memory.byte s'.sp A = Memory.byte s.sp A) ∧
    (let wd : WordSpec := { WordSpec.var .c [] with lead := pairRegs a };
      s.Acts c wd (lead :: p) → ∀ (qs : Nat → Option Phys) (z : Seen),
      let r := s.bufRec (tid s.curG lead) rb
      let m := src s lead (.g a)
      let e := (r.extractLsb' 48 3).toNat
      let w := 2 ^ e
      e < 4 → ExpandSteps s.curG r w (m &&& 0xFFFFFFFF) (src s lead (.g (a + 1))).toNat qs (lead :: p) ⟨s, []⟩ z →
      z.st.hole = false → Gathered s z.st ∧
      (s.joined s.cur.core 4 = false → ∃ v : Nat → Nat,
        (∀ l ∈ lead :: p, (qs l = none → v l = 0) ∧ ∀ k, qs l = some k → GatherNum s (tid s.curG l) w k (v l)) ∧
        Enters s (.expnd c d q rb a) c wd (did z.st none .plain true (some 4)) (lead :: p)
          (fun l => [(.g d, .w (BitVec.ofNat 64 (v l))), (.p q, .p (m.getLsbD l))])) ∧
      (s.joined s.cur.core 4 = true → Enters s (.expnd c d q rb a) c wd
        (did z.st none (.gather ((lead :: p).filterMap fun l => (qs l).map fun k => ⟨l, [some (k, w, none, none)], .plain d q⟩)) false
          (some 4)) (lead :: p)
        (fun l => if (qs l).isSome then [(.g d, .orF 0), (.p q, .orF 0)] else [(.g d, .w 0), (.p q, .p (m.getLsbD l))])))

namespace Sys2Proof.Slice0
open Machine

/-- One mesh hop between two clusters of the 4×4 mesh: north 1, east 2, south 3, west 4 (R2, R318). -/
def Hop (a d b : Nat) : Prop :=
  a < 16 ∧ b < 16 ∧ (d = 1 ∧ b + 4 = a ∨ d = 2 ∧ a % 4 ≠ 3 ∧ b = a + 1 ∨ d = 3 ∧ b = a + 4 ∨ d = 4 ∧ a % 4 ≠ 0 ∧ b + 1 = a)

/-- Two hops of which the second is opposite to the first. -/
def UTurn (a b : Nat) : Prop := (a, b) ∈ [(1, 3), (3, 1), (2, 4), (4, 2)]

/-- Mesh hops over live links without a U-turn, from a cluster and a last hop to a cluster and a last hop (R320, codes 3, 4 and 5). -/
def Walk (s : State) : Nat → Nat → List Nat → Nat → Nat → Prop
  | c, last, [], e, f => e = c ∧ f = last
  | c, last, d :: l, e, f => ∃ b, Hop c d b ∧ s.linkDown c d = false ∧ ¬UTurn last d ∧ Walk s b d l e f

/-- A route of a kind, a class and symbols (R317). -/
def IsRoute (r : W128) (kind : Nat) (tc : TClass) (syms : List Nat) : Prop :=
  r.extractLsb' 0 5 = BitVec.ofNat 5 syms.length ∧ syms.length ≤ 24 ∧ r.extractLsb' 5 1 = 0 ∧ r.extractLsb' 6 2 = tc.code ∧
  (r.extractLsb' 8 3).toNat = kind ∧ r.extractLsb' 11 21 = 0 ∧ r.toNat < 2 ^ (32 + 4 * syms.length) ∧
  ∀ (i x : Nat), syms[i]? = some x → x < 16 ∧ (r.extractLsb' (32 + 4 * i) 4).toNat = x

/-- The hops of the dimension-ordered path between two clusters: east or west, then south or north, then eject (R340). -/
def byDimension (a b : Nat) : List Nat :=
  let dx : Int := (b % 4 : Nat) - (a % 4 : Nat)
  let dy : Int := (b / 4 : Nat) - (a / 4 : Nat)
  List.replicate dx.natAbs (if 0 < dx then 2 else 4) ++ List.replicate dy.natAbs (if 0 < dy then 3 else 1) ++ [0]

/-- The route in a pair of registers of lane l. -/
def routeIn (s : State) (l : Nat) (r : GReg) : W128 := src s l (.g (r + 1)) ++ src s l (.g r)

/-- The lanes of `XWRITE` or `XREAD`, one after the other: each one's route passes its check and names scratchpad or memory, for a read
without an Ethernet escape, and its address has its place (R321, R330, R333). -/
def Placed (s : State) (w : Nat) (read : Bool) (a r : GReg) (place : Nat → Option CopyPlace) : List Nat → Seen → Seen → Prop
  | [], y, z => z = y
  | l :: p, y, z => ∃ y1, let rt := routeIn s l r
      s.routeCheck (coreCluster s.cur.core) rt = none ∧ (rt.extractLsb' 8 3).toNat ≤ 1 ∧ (read = true → 7 ∉ routeEscs (routeSyms rt)) ∧
      xferPlace s.curG w (if read then Need.load else Need.store) rt (src s l (.g a)) y = (y1, .inl (place l)) ∧
      Placed s w read a r place p y1 z

/-- The packet of a request at the local input of its cluster (R326, R333). -/
def packetOf (s : State) (x : Xfer) : Pkt :=
  ⟨x.id, false, (routeSyms x.route).map (BitVec.ofNat 4), [], x.tc, x.reqFlits, s.cycle, s.cycle, false⟩

/-- The flits of some packets and transfers. -/
def flitSum (l : List Pkt) (X : List Xfer) : Nat := (l.map (·.flits)).sum + (X.map (·.reqFlits)).sum

/-- The transfers `X` have been issued, numbered from the next number on. One goes at once where nothing holds it back, as `may` says, and the
32 flits of its class at the local input have room behind the packets that stand there and those of `X` that went before it (R422); the
packets of these stand in order at the ends of the input's queues, and the others are held. Each carries what its lanes' fences have ordered
before it, and a release what they know (R334, R339). -/
def Issued (s u : State) (X : List Xfer) (may : BitVec 32 → Bool) : Prop :=
  let key := fun (x : Xfer) => inKey false (coreCluster s.cur.core) 0 x.tc
  let gone := fun (l : List Xfer) k => l.filter fun x => decide (x.pos = .going) && k == key x
  u = { s with xfers := s.xfers ++ X, nextId := s.nextId + X.length, routers := u.routers, writes := u.writes } ∧
  u.writes = (X.foldl (fun v x => v.carry x) s).writes ∧
  (∀ (n : Nat) (x : Xfer), X[n]? = some x → x.pos = .going ↔
    may x.pmask = true ∧ x.reqFlits + flitSum (s.queueAt (key x)) (gone (X.take n) (key x)) ≤ 32) ∧
  ∀ k, u.queueAt k = s.queueAt k ++ (gone X k).map (packetOf s)

/-- The transfers of a remote access: one for each pair of a route and an aligned 512-byte window that a lane names, with the lanes that name
it, in the order in which they appear; `data` are a write's bytes, `dst` what its reply writes, `rel` and `acq` the scopes at which it is a
release and an acquire, and `going` says which go at once (R333, R334). -/
def transfersOf (s : State) (w : Nat) (t : ITy) (write : Bool) (dst : Option Dat) (a r : GReg) (place : Nat → Option CopyPlace)
    (data : Nat → List Byte) (p : List Nat) (rel acq : Option (BitVec 4)) (going : Nat → Bool) : List Xfer :=
  let key := fun l => (routeIn s l r, (src s l (.g a)).toNat / 512)
  let keys := (p.map key).eraseDups
  keys.zipIdx.map fun (k, n) =>
    let ls := p.filter fun l => key l == k
    { id := s.nextId + n, op := s.nextId + keys.length, group := s.curG, lanes := ls.map fun l => ⟨l, src s l (.g a), place l, data l⟩
      pmask := maskOf ls, write := write, ring := false, width := w, ty := t, dst := dst, kind := k.1.extractLsb' 8 3
      tc := TClass.ofCode (k.1.extractLsb' 6 2), route := k.1, posted := false, pos := if going n then .going else .held
      since := if going n then s.cycle else 0, status := 0, data := [], cluster := 0, back := [], foreign := false, late := false
      rcb := (s.grp s.curG).rcb, rel := rel, acq := acq }

/-- Whether nothing that a releasing write of some lanes waits for is still to be performed (R334). -/
def mayGo (s : State) (op : Nat) (m : BitVec 32) : Bool :=
  (s.xfers.all fun y => !(y.group == s.curG && !y.foreign && decide (y.op < op) && y.pmask &&& m != 0#32 && !y.late &&
    (y.pos == .held || y.pos == .going || y.pos == .arrived || y.pos == .away))) &&
  s.ops.all fun o => !(o.group == s.curG && decide (o.id < op) && o.lanes &&& m != 0#32 &&
    (match o.kind with | .ldx _ _ _ _ _ => true | _ => false))

/-- The registers that a remote access writes later: its operation holds them until then (R161, R333). -/
def awaited (t : ITy) : Option Dat → List (RegId × RVal)
  | none => []
  | some d => (d.regs t).map fun r => (r, .orF 0)

/-- A ring descriptor at a scratchpad place that a consumer's check accepts (R335, R337), with its fill. -/
def GoodRing (s : State) (k fill : Nat) : Prop :=
  let d := BitVec.ofNat 256 (Memory.read s.sp k 32)
  d.extractLsb' 224 32 = 0 ∧ d.extractLsb' 176 16 = 0 ∧ d.extractLsb' 133 27 = 0 ∧ d.extractLsb' 30 34 = 0 ∧
  (d.extractLsb' 128 5).toNat ≤ 14 ∧ (d.extractLsb' 0 30).toNat % 64 = 0 ∧
  (∃ b, s.spRange s.curG (64 * 2 ^ (d.extractLsb' 128 5).toNat) 64 (d.extractLsb' 0 30 |>.setWidth 64) = .inl b) ∧
  fill = (d.extractLsb' 96 32 - d.extractLsb' 64 32).toNat ∧ fill ≤ 2 ^ (d.extractLsb' 128 5).toNat

/-- The address of the slot at HEAD of a ring (R335). -/
def headSlot (s : State) (k : Nat) : W64 :=
  let d := BitVec.ofNat 256 (Memory.read s.sp k 32)
  BitVec.ofNat 64 ((d.extractLsb' 0 30).toNat + 64 * ((d.extractLsb' 64 32).toNat % 2 ^ (d.extractLsb' 128 5).toNat))

end Sys2Proof.Slice0

/-- R317, R320, R340, R341: `RTXY` writes the route by dimension order, and `RTCHK` 0 where its route passes and otherwise 256 times the symbol's
index plus the code. A route of mesh hops and a final eject passes just where its hops stay in the mesh, over live links, without a
U-turn, and end at a cluster in service; the first hop that does not has its code, and a bad header code 1 with index 255. -/
def Obligations.Routes : Prop :=
  (∀ (s : State) (c : Ctl) (tc : TClass) (d a : GReg) (A K : Src) (p : List Nat),
    (s.Acts c { WordSpec.fixA 4 (A.regs ++ K.regs) with bow := false } p → ∃ r : Nat → W128,
      (∀ l ∈ p, IsRoute (r l) ((src s l K).extractLsb' 0 3).toNat tc (byDimension (coreCluster s.cur.core) ((src s l A).extractLsb' 0 4).toNat)) ∧
      s.Writes (.rtxy c tc d A K) c p 4 (fun l => [(.g d, .w ((r l).extractLsb' 0 64)), (.g (d + 1), .w ((r l).extractLsb' 64 64))])) ∧
    (s.Acts c { WordSpec.fixA 6 (pairRegs a) with bow := false } p →
      s.Writes (.rtchk c d a) c p 6 (fun l => toG d (match s.routeCheck (coreCluster s.cur.core) (routeIn s l a) with
        | none => 0
        | some (i, k) => BitVec.ofNat 64 (256 * i + k))))) ∧
  (∀ (s : State) (c kind : Nat) (tc : TClass) (r : W128) (hops : List Nat), c < 16 → kind ≤ 2 → IsRoute r kind tc (hops ++ [0]) →
    (∀ d ∈ hops, 1 ≤ d ∧ d ≤ 4) → hops.length ≤ 12 →
    (s.routeCheck c r = none ↔ ∃ e f, Walk s c 0 hops e f ∧ (s.cl e).retired = false) ∧
    (∀ e f, Walk s c 0 hops e f → (s.cl e).retired = true → s.routeCheck c r = some (hops.length, 4))) ∧
  (∀ (s : State) (c kind e f d : Nat) (tc : TClass) (r : W128) (hops more : List Nat), c < 16 → kind ≤ 3 → IsRoute r kind tc (hops ++ d :: more) →
    hops.length ≤ 11 → Walk s c 0 hops e f →
    (8 ≤ d → s.routeCheck c r = some (hops.length, 2)) ∧
    (1 ≤ d → d ≤ 4 → (∀ b, ¬Hop e d b) → s.routeCheck c r = some (hops.length, 3)) ∧
    (∀ b, Hop e d b → s.linkDown e d = true → s.routeCheck c r = some (hops.length, 4)) ∧
    (∀ b, Hop e d b → s.linkDown e d = false → UTurn f d → s.routeCheck c r = some (hops.length, 5))) ∧
  (∀ (s : State) (c : Nat) (r : W128), (r.extractLsb' 11 21 ≠ 0 ∨ r.extractLsb' 5 1 ≠ 0 ∨ 4 ≤ (r.extractLsb' 8 3).toNat ∨
      r.extractLsb' 0 5 = 0 ∨ 24 < (r.extractLsb' 0 5).toNat ∨ 2 ^ (32 + 4 * (r.extractLsb' 0 5).toNat) ≤ r.toNat) →
    s.routeCheck c r = some (255, 1))

/-- R333, R334, R336, R339, R422: `XWRITE` and `XREAD`, where every route and address pass, issue one transfer for each route and window, which
goes when the local input has room for it, and a releasing write only when its lanes' earlier transfers are performed; `XSEND` issues one
message with the bytes at issue. Each enters an operation that holds its destination until its replies. `XFENCE` holds its path while an
earlier transfer of its kind has no status.
Where the spec leaves a point open it follows the model's choice: log entries 47 and 48. -/
def Obligations.Transmissions : Prop :=
  ∀ (s : State) (c : Ctl) (t : ITy) (o : Ordr) (sc : Scope) (d : Option GReg) (e : Dat) (a r q x : GReg) (y : Dat) (n : BitVec 3) (k : FKind)
    (p : List Nat) (place : Nat → Option CopyPlace) (v : Nat → Nat) (z : Seen), (∀ f ∈ s.xfers, f.id < s.nextId) →
    let rcb := (s.grp s.curG).rcb
    (let w : WordSpec := { WordSpec.var .x (RegId.g a :: pairRegs r ++ y.regs t) with ends := true };
      s.Acts c w p → (∀ l ∈ p, s.storeData (tid s.curG l) t y = .inl (v l)) → Placed s t.bytes false a r place p ⟨s, []⟩ z → z.st.hole = false →
      let op := s.nextId + ((p.map fun l => (routeIn s l r, (src s l (.g a)).toNat / 512)).eraseDups).length
      s.Looked z.st ∧ ∃ u going, Issued z.st u (transfersOf s t.bytes t true (d.map .g) a r place (fun l => leBytes (v l) t.bytes) p
          (releases o sc) (acquires o sc) going) (fun m => (releases o sc).isNone || mayGo s op m) ∧
        Enters s (.xwrite c t o sc d a r y) c w (did u none .xfer false none) p (fun _ => awaited .n64 (d.map .g))) ∧
    (let w : WordSpec := { WordSpec.var .x (RegId.g a :: pairRegs r) with ends := true };
      s.Acts c w p → s.latent = [] → Placed s t.bytes true a r place p ⟨s, []⟩ z → z.st.hole = false →
      let op := s.nextId + ((p.map fun l => (routeIn s l r, (src s l (.g a)).toNat / 512)).eraseDups).length
      s.Looked z.st ∧ ∃ u going, Issued z.st u (transfersOf s t.bytes t false (some e) a r place (fun _ => []) p
          (releases o sc) (acquires o sc) going) (fun m => (releases o sc).isNone || mayGo s op m) ∧
        Enters s (.xread c t o sc e a r) c w
          (did (if o = .acq then u.modLanes s.curG (maskOf p) (fun x => { x with waitOp := u.nextId }) else u) none .xfer false none) p
          (fun _ => awaited t (some e))) ∧
    (∀ (l : Nat) (f : GReg) (dst : Option CopyPlace) (at_ : Nat), let w : WordSpec := { WordSpec.var .x [] with
          lead := pairRegs r ++ [.g q, .g x], ends := true }
      let rt := routeIn s l r
      let b := 64 * (n.toNat + 1)
      s.Acts c w (l :: p) → s.latent = [] → s.routeCheck (coreCluster s.cur.core) rt = none → s.spRange s.curG b 64 (src s l (.g x)) = .inl at_ →
      ((rt.extractLsb' 8 3).toNat = 2 ∧ routeEscs (routeSyms rt) = [] ∧ (∃ k, dst = some k ∧ spPlace s s.curG 32 rt (src s l (.g q)) = .inl k) ∨
        ((rt.extractLsb' 8 3).toNat = 3 ∨ (rt.extractLsb' 8 3).toNat = 2 ∧ routeEscs (routeSyms rt) ≠ []) ∧ dst = none) →
      ∃ u pos, (pos = .going ∨ pos = .held) ∧
        Issued s u [⟨s.nextId, s.nextId + 1, s.curG, [⟨l, src s l (.g q), dst, leBytes (Memory.read s.sp at_ b) b⟩], maskOf (l :: p), true,
          true, 32, .n64, some (.g f), rt.extractLsb' 8 3, TClass.ofCode (rt.extractLsb' 6 2), rt, false, pos,
          if pos = .going then s.cycle else 0, 0, [], 0, [], false, false, rcb, none, none⟩] (fun _ => true) ∧
        Enters s (.xsend c f r q x n) c w (did u none .xfer false none) (l :: p) (fun _ => [(.g f, .orF 0)])) ∧
    (s.Acts c (.var .x []) p →
      let owes := ∃ f ∈ s.xfers, f.group = s.curG ∧ f.foreign = false ∧ f.late = false ∧ f.pmask &&& maskOf p ≠ 0 ∧
        (k = .rw ∨ (k = .st ↔ f.write = true))
      (owes → ∃ u, exec (.xfence c k sc) s = .next u ∧ u.threads = s.threads ∧ u.groups = s.groups ∧ u.rest = s.rest) ∧
      (¬owes → ∃ u, u = p.foldl (fun u l => u.xfenceBy k sc.code (tid s.curG l)) s ∧ u = { s with writes := u.writes } ∧
        Enters s (.xfence c k sc) c (.var .x []) (did u none .plain true none) p (fun _ => [])))

/-- R335, R337, R338: on a well-formed descriptor on its own cluster, `RINGPOLL` writes the address of the slot at HEAD and the fill, both 0 on an empty
ring; `RINGWAIT` lets each lane whose ring is not empty take the address and puts the others to sleep; both acquire what the view of TAIL
shows; `RINGADV` of 1 to F slots adds them to HEAD, as a release at `.clus`, and writes nothing else, and of another number raises `BOUNDS`
in every lane. -/
def Obligations.Rings : Prop :=
  ∀ (s : State) (c : Ctl) (d : GReg) (a : SpOp) (n : Src) (p : List Nat) (k fill : Nat → Nat), s.latent = [] →
    let va := fun l => a.addr (src s l (.g a.base))
    (∀ l ∈ p, s.spCheck s.curG 32 (va l) = .inl (k l) ∧ GoodRing s (k l) (fill l)) →
    (s.Acts c (.var .a [.g a.base]) p →
      (∃ u, u = p.foldl (fun u l => u.acquireSp (tid s.curG l) 4 (k l + 12) 4) s ∧ u = { s with writes := u.writes } ∧
        Enters s (.ringpoll c d a) c (.var .a [.g a.base]) (did u none .plain true none) p (fun l =>
          [(.g d, .w (if fill l = 0 then 0 else headSlot s (k l))), (.g (d + 1), .w (BitVec.ofNat 64 (fill l)))])) ∧
      (let stays := fun l => decide (fill l = 0);
        NoReconv s stays p → Waits s (.ringwait c d a) c (.var .a [.g a.base]) p stays
          (fun l => s.nextId + ((p.filter stays).findIdx fun j => j == l))
          ((p.filter stays).zipIdx.map fun (l, j) => ⟨s.nextId + j, s.curG, 1#32 <<< l, wordAt s, s.curNext, c.ctr,
            s.cycle + c.stall.toNat + 1, .ringwait (k l) (src s l (.g a.base)) d⟩)
          ((p.filter fun l => !stays l).foldl (fun u l => u.acquireSp (tid s.curG l) 4 (k l + 12) 4) s).writes
          (fun _ x => x) (fun l => toG d (headSlot s (k l))))) ∧
    (∀ l m, p = l :: m → let w : WordSpec := { WordSpec.var .a [] with lead := RegId.g a.base :: n.regs, ends := true }
      let x := (src s l n).toNat
      s.Acts c w p →
      (1 ≤ x → x ≤ fill l → ∃ u, Enters s (.ringadv c a n) c w (did u none .plain true none) p (fun _ => []) ∧ u.mem = s.mem ∧
        Memory.read u.sp (k l + 8) 4 = (Memory.read s.sp (k l + 8) 4 + x) % 2 ^ 32 ∧
        (∀ A, A < k l + 8 ∨ k l + 12 ≤ A → Memory.byte u.sp A = Memory.byte s.sp A) ∧
        (s.sleepers = [] → u = { s with sp := u.sp, writes := u.writes }) ∧
        u = s.spPutBy (tid s.curG l) [] (some (tid s.curG l, 4)) none (k l + 8) (leBytes (Memory.read s.sp (k l + 8) 4 + x) 4)) ∧
      (x = 0 ∨ fill l < x → s.Handled p → s.Traps (.ringadv c a n) c p (fun _ => own s 0 4 (va l))))

namespace Sys2Proof.Slice0
open Machine

end Sys2Proof.Slice0

/-- R351–R353, R379, R398: `SYSRD` reads every system register, write-only ones as zero, RS ones as zero outside the secure world; `SYSWR` and
`TLBINV` enter operations that act at completion; `ERET` takes each lane out of its handler to the address in `g63`, and raises `ILLEGAL`
in lanes that are in none, and, a fatal trap there, in a lane whose `g63` is no resume address; `HALT` halts each lane behind the word, and
reports it when no operation of the lane is outstanding.
Where the spec leaves a point open it follows the model's choice: log entries 26 (DETAIL 2 of `ILLEGAL`), 65 and 66. -/
def Obligations.PrivilegedWords : Prop :=
  ∀ (s : State) (c : Ctl) (d : GReg) (n : BitVec 12) (a b : Src) (m : TlbMode) (code : BitVec 16) (p : List Nat),
    let secure := (s.grpRes s.curG).world
    let y := s.sys
    (s.Acts c { WordSpec.fixA 8 [] with bow := false } p → ∃ x : W64, s.Writes (.sysrd c d n) c p 8 (fun _ => toG d x) ∧
      (n = 0x000#12 → x = 0x12416) ∧ (n = 0x008#12 → x = y.status.setWidth 64) ∧ (n = 0x010#12 → x = if secure then y.wtbase else 0) ∧
      (n = 0x020#12 → x = y.btbase) ∧ (n = 0x022#12 → x = y.binderr) ∧ (n = 0x023#12 → x = y.rcbroot) ∧ (n = 0x030#12 → x = y.topo) ∧
      (n = 0x031#12 → x = y.arbw) ∧ (n = 0x040#12 → x = BitVec.ofNat 64 s.cycle) ∧ (n = 0x050#12 → x = y.eperiod) ∧
      (∀ k < 10, n.toNat = 0x51 + k → x = (mget 0 y.ewgt k).setWidth 64) ∧ (n = 0x060#12 → x = if secure then y.evqs else 0) ∧
      (n = 0x061#12 → x = y.evqn) ∧ (n = 0x070#12 → x = y.launchq) ∧ (n ∈ [0x011#12, 0x021#12, 0x080#12] → x = 0)) ∧
    (∀ l q, p = l :: q →
      (s.Acts c { WordSpec.var .a [] with lead := a.regs } p →
        Enters s (.syswr c n a) c { WordSpec.var .a [] with lead := a.regs } (did s none (.syswr n (src s l a) secure) true none) p
          (fun _ => [])) ∧
      (s.Acts c { WordSpec.var .a [] with lead := a.regs ++ b.regs } p →
        Enters s (.tlbinv c m a b) c { WordSpec.var .a [] with lead := a.regs ++ b.regs }
          (did s none (.tlbinv m ((src s l a).setWidth 16) (src s l b) secure) true none) p (fun _ => []))) ∧
    (s.Acts c (.var .a [.g 63]) p →
      ((∀ l ∈ p, (s.thr (tid s.curG l)).handler ≠ none ∧ (src s l (.g 63)).extractLsb' 52 12 = 0 ∧ (src s l (.g 63)).extractLsb' 0 3 = 0) →
        s.Completed (.eret c) c (.var .a [.g 63])
          (did (p.foldl (fun u l => u.leaveHandler (tid s.curG l) (src s l (.g 63))) s) none .plain true none) p
          (fun l => src s l (.g 63)) (fun _ => [])) ∧
      (s.Handled p → s.Traps (.eret c) c p (fun _ => own s 2 1 s.cur.raw)) ∧
      (∀ l, p = [l] → (s.thr (tid s.curG l)).handler ≠ none →
        ((src s l (.g 63)).extractLsb' 52 12 ≠ 0 ∨ (src s l (.g 63)).extractLsb' 0 3 ≠ 0) →
        s.hasOps (tid s.curG l) = false → NoReconv s (fun _ => false) p → CanPost s false →
        ∃ u r, exec (.eret c) s = .next u ∧ (u.thr (tid s.curG l)).stat = .stopped ∧ PostsOne s u false r ∧
          r.extractLsb' 0 8 = 17#8 ∧ r.extractLsb' 192 64 = BitVec.ofNat 64 (tid s.curG l) ∧
          r.extractLsb' 256 64 = recordOf s 0 2 1 ∧ r.extractLsb' 320 64 = s.cur.raw ∧ r.extractLsb' 384 64 = wordAt s)) ∧
    (s.Acts c (.var .a []) p → (s.grp s.curG).bound = true → NoReconv s (fun _ => false) p →
      ((∀ l ∈ p, s.hasOps (tid s.curG l) = true) → ∃ u, exec (.halt c code) s = .next u ∧ u.mem = s.mem ∧ u.sp = s.sp ∧ u.evWait = s.evWait ∧
        (∀ l ∈ p, u.thr (tid s.curG l) = { (s.thr (tid s.curG l)).goto s.curNext with halt := some ⟨2, code, false⟩ }) ∧
        (∀ l ∈ lanesOf s.cur.lanes, l ∉ p → u.thr (tid s.curG l) = s.onward c s.curNext (s.thr (tid s.curG l)))) ∧
      (∀ l q, p = [l] → q = s.dbgSecure (s.grp s.curG).rcb → s.hasOps (tid s.curG l) = false → CanPost s q →
        ∃ u r, exec (.halt c code) s = .next u ∧ u.sp = s.sp ∧ PostsOne s u q r ∧ DebugRecord r (tid s.curG l) 2 code s.curNext 0 0 ∧
        r.extractLsb' 257 1 = BitVec.ofBool (s.thr (tid s.curG l)).warn ∧
        (u.thr (tid s.curG l) = { (s.thr (tid s.curG l)).goto s.curNext with halt := some ⟨2, code, true⟩, warn := false }) ∧
        (∀ j ∈ lanesOf s.cur.lanes, j ≠ l → u.thr (tid s.curG j) = s.onward c s.curNext (s.thr (tid s.curG j)))))

namespace Sys2Proof.Slice0
open Machine

/-- An operation ends in a state: nothing but the operations, the joins, the threads, the matrix registers and what later operations of its
queue and behind its joins know of the writes changes (R117, R159, R248). -/
def EndsIn (s : State) (i : Instr) (s1 : State) (o : OutOp) : Prop :=
  ∃ u, exec i s = .next u ∧ OpEnds s1 u o ∧
    u = { s1 with ops := u.ops, joins := u.joins, threads := u.threads, groups := u.groups, writes := (s1.performed o).writes } ∧
    ∀ h, (∀ e ∈ (s1.grp h).mpend, e.op ≠ o.id) → u.grp h = s1.grp h

/-- No lane sleeps for a word or a ring of the scratchpad. -/
def NoneAsleepSp (s : State) : Prop := ∀ z ∈ s.sleepers, (∀ a w v d sc, z.kind ≠ .waita a w v d sc) ∧ ∀ a b d, z.kind ≠ .ringwait a b d

end Sys2Proof.Slice0

/-- R159, R160, R239, R350, R351, R353, R379: RESULT_COMPLETION ends an operation that has done its work, when no join holds it back: the buffer
register or codebook of a load takes its value, a `SYSWR` writes its register, within its range, a `TLBINV` drops the translations that it
names; LDX_COMPLETION of the core's oldest load moves its elements and makes its arrival; TRAP_DELIVERY enters the handler of a thread
whose operations have ended.
Where the spec leaves a point open it follows the model's choice: log entries 65 and 66. -/
def Obligations.OperationsEnd : Prop :=
  (∀ (s : State) (o : OutOp), Quiet s → (s.ops.find? fun x => x.id == o.id) = some o → OneOfBow o.group o.lanes →
    (∀ j ∈ o.joins, ∀ x ∈ s.joins, x.id ≠ j) →
    let y := s.sys
    let sys := fun (z : SysRegs) => EndsIn s (.resultCompletion o.id) { s with sys := z } o
    let same := EndsIn s (.resultCompletion o.id) s o
    (o.done = true →
      (o.kind = .plain ∨ o.kind = .xfer → same) ∧
      (∀ l, o.kind = .fence l → (∀ x ∈ s.ops, x.id ∉ l) → same) ∧
      (∀ w d r, o.kind = .brld w d r → EndsIn s (.resultCompletion o.id)
        ((s.recordReg .buf o (groupLanes o.group) w d.toNat (mget 0 (s.wg w).b d.toNat)).setWg w
          { s.wg w with b := mset 0 (s.wg w).b d.toNat r }) o) ∧
      (∀ w d e, o.kind = .cbld w d e → EndsIn s (.resultCompletion o.id)
        ((s.recordReg .cbook o (lanesOf o.lanes) w d.toNat (mget 0 (s.wg w).cb d.toNat)).setWg w
          { s.wg w with cb := mset 0 (s.wg w).cb d.toNat e }) o) ∧
      (∀ n x secure, o.kind = .syswr n x secure →
        (n = 0x010#12 → sys (if secure then { y with wtbase := x } else y)) ∧ (n = 0x020#12 → sys { y with btbase := x }) ∧
        (n = 0x023#12 → sys { y with rcbroot := x }) ∧ (n = 0x030#12 → sys { y with topo := x }) ∧
        (n = 0x031#12 → sys (if x.extractLsb' 16 10 = 0 then y else { y with arbw := (x.extractLsb' 0 26).setWidth 64 })) ∧
        (n = 0x050#12 → sys { y with eperiod := if x < 0x10000#64 then 0x10000 else if x ≤ 0x100000000#64 then x else 0x100000000 }) ∧
        (∀ k < 10, n.toNat = 0x51 + k → sys { y with ewgt := mset 0 y.ewgt k (x.setWidth 16) }) ∧
        (n = 0x060#12 → sys (if secure then { y with evqs := x } else y)) ∧ (n = 0x061#12 → sys { y with evqn := x }) ∧
        (n = 0x070#12 → sys { y with launchq := x }) ∧ (n ∈ [0x000#12, 0x008#12, 0x022#12, 0x040#12] → same) ∧
        (n = 0x011#12 → ¬(secure = true ∧ x = 1) → same)) ∧
      (∀ m asid page world, o.kind = .tlbinv m asid page world → s.heldAccesses (s.invMeets m asid world) = false → ∃ s1, EndsIn s (.resultCompletion o.id) s1 o ∧
        s1 = { s with tlb := s1.tlb, tabs := s1.tabs, codes := s1.codes } ∧
        (∀ e, e ∈ s1.tlb ↔ e ∈ s.tlb ∧ ¬((m = .all ∧ e.world = world) ∨ (m = .asid ∧ e.asid = asid) ∨
          (m = .page ∧ e.asid = asid ∧ e.page ≤ page.toNat ∧ page.toNat < e.page + e.size))) ∧
        (∀ e ∈ s1.tabs, e ∈ s.tabs ∧ ¬((m = .all ∧ e.world = world) ∨ (m ≠ .all ∧ e.asid = asid))) ∧
        (∀ e ∈ s1.codes, e ∈ s.codes ∧ ¬((m = .all ∧ e.world = world) ∨ (m = .asid ∧ e.asid = asid) ∨
          (m = .page ∧ e.asid = asid ∧ e.va / 4096 * 4096 ≤ page.toNat ∧ page.toNat < e.va / 4096 * 4096 + 4096))))) ∧
    (∀ n w moves core, o.kind = .ldx n w moves 0 core → NoneAsleepSp s →
      (∀ x ∈ s.ops, ∀ a b d e k, x.kind = .ldx a b d e k → k = core → o.id ≤ x.id) →
      ∃ s1 s2, s1 = { s with sp := s1.sp, slices := s1.slices, writes := s1.writes } ∧
        (∀ A, (∀ e ∈ moves, A < e.1 ∨ e.1 + w ≤ A) → Memory.byte s1.sp A = Memory.byte s.sp A) ∧
        (Apart (moves.map fun e => (e.1, w)) → ∀ e ∈ moves, ∀ j < w, match e.2.1 with
          | none => Memory.byte s1.sp (e.1 + j) = 0
          | some q => FindsOp (s.beginOp o) o.id (coreCluster core) .mem q.kind (q.at j) (Memory.byte s1.sp (e.1 + j)).toNat) ∧
        BarTakes s1 s2 o.group n (roundOf (min ((s.bar o.group n).count.toNat + 1) 65535) (s.bar o.group n).expected.toNat
          (s.bar o.group n).parity) [.op o.id] ∧
        ∃ u, exec (.ldxCompletion o.id) s = .next u ∧ OpEnds s2 u o)) ∧
  (∀ (s : State) (t : Nat) (i : TrapInfo), s.hole = false → (s.thr t).stat = .trapWait i →
    (s.hasOps t = true → exec (.trapDelivery t) s = .next s) ∧
    (s.hasOps t = false → (s.thr t).handler = none → (s.grpRes (threadGroup t)).trapvec ≠ 0 →
      ∃ u, exec (.trapDelivery t) s = .next u ∧ u = { s with threads := u.threads } ∧ u.thr t = s.entering t i ∧
        ∀ t', t' ≠ t → u.thr t' = s.thr t'))

namespace Sys2Proof.Slice0
open Machine

/-- Path a's program counter is the lower: its header's address, and in one clause the word at which it goes on (R24, R147, R169). -/
def LowerPc (a b : Path) : Prop :=
  a.pc % 2 ^ 48 < b.pc % 2 ^ 48 ∨ a.pc % 2 ^ 48 = b.pc % 2 ^ 48 ∧ a.pc < b.pc

/-- Path a ranks before path b (R24, R26, R27). -/
def RanksBefore (a b : Path) : Prop :=
  let f := fun (x : Path) => 32 ≤ x.age
  let pop := fun (x : Path) => (lanesOf x.lanes).length
  (f a ∧ ¬f b) ∨ (f a ∧ f b ∧ (b.age < a.age ∨ a.age = b.age ∧ LowerPc a b)) ∨
  (¬f a ∧ ¬f b ∧ ((a.yields = false ∧ b.yields = true) ∨ a.yields = b.yields ∧ (pop b < pop a ∨ pop a = pop b ∧ LowerPc a b)))

/-- No two sleeping waits share their number or a thread, and a bow's wait has its one lane (R18, R21). -/
def WaitsApart (s : State) : Prop :=
  (∀ z ∈ s.sleepers, OneOfBow z.group z.lanes) ∧
  s.sleepers.Pairwise fun a b => a.id ≠ b.id ∧ ∀ i ∈ lanesOf a.lanes, ∀ j ∈ lanesOf b.lanes, tid a.group i ≠ tid b.group j

/-- The trap `STRAGGLER` of a thread (R39, R381). -/
def stragglerTrap (s : State) (c t : Nat) : TrapInfo := ⟨16, (BitVec.ofNat 32 (s.cl c).phase).setWidth 64, (s.thr t).pc⟩

end Sys2Proof.Slice0

/-- R22, R24, R26, R149: ISSUE_OPPORTUNITY of a free core whose next slot, in order after the last one, has ready threads that form one path
puts the path's clause in issue and gives its word a turn; without a ready thread it changes nothing; paths are taken in the order of R24.
R35, R36, R45: CLUSTER_ADVANCE raises the counter by one and lets the threads at `PHASE` go on, only when every thread of the cluster has
arrived and no other cluster's level with its distance holds it back. R39: STRAGGLER_TIMEOUT posts its event once, and traps the named
threads where the region says so.
Where the spec leaves a point open it follows the model's choice: log entries 9, 10, 63 and 86. -/
def Obligations.IssueAndAdvance : Prop :=
  (∀ (s : State) (core : Nat), s.hole = false → (s.cl (coreCluster core)).stopped = false → (s.core core).sels = [] →
    ((∀ k < 16, s.readyLanes (16 * core + k) = []) → exec (.issueOpportunity core) s = .next s) ∧
    (∀ (j k : Nat) (L : List Nat) (pc w : W64) (code : List W64) (s0 s1 s2 : State), j < 16 →
      let slot := fun i => ((s.core core).last + 1 + i) % 16
      let g := 16 * core + k
      let h := Header.ofWord w
      k = slot j → (∀ i < j, s.readyLanes (16 * core + slot i) = []) → (s.grp g).pp = true → s.readyLanes g = L → L ≠ [] →
      (∀ i ∈ L, (s.thr (tid g i)).pc = pc ∧ (s.thr (tid g i)).handler = none) → isBow core = false →
      s0 = (s.setCore core { s.core core with last := k }).ageLanes g L (maskOf L) →
      s0.fetchWord core (s0.grpRes g) (pc.extractLsb' 0 48).toNat = (s1, .inl w) → h.ok = true → h.cls ≠ 5 → h.cls ≠ 9 →
      pc.toNat / 2 ^ 48 < h.words → h.lit.getLsbD (pc.toNat / 2 ^ 48) = false →
      State.fetchWords core (s1.grpRes g) h.words ((pc.extractLsb' 0 48).toNat + 8) s1 = (s2, .inl code) → s2.hole = false →
      ∃ u, exec (.issueOpportunity core) s = .next u ∧ u.mem = s.mem ∧ u.sp = s.sp ∧
        u.core core = ⟨k, [⟨k, maskOf L, pc.extractLsb' 0 48, w, code, pc.toNat / 2 ^ 48, s.cycle, .no⟩]⟩ ∧
        u.turns = s.turns ++ [.issue core k (maskOf L)] ∧ (∀ i ∈ L, (u.thr (tid g i)).age = 0) ∧
        ∀ t, u.thr t = { s.thr t with age := (u.thr t).age, yielded := (u.thr t).yielded })) ∧
  (∀ l : List Path, (∀ p ∈ l, p.pc < 2 ^ 52) → (rankPaths true l).Perm l ∧ (rankPaths true l).Pairwise fun a b => ¬RanksBefore b a) ∧
  (∀ (s : State) (cl : BitVec 4) (rcb : BitVec 48), let c := cl.toNat
    s.hole = false → (s.cl c).region = some rcb →
    (s.mayAdvance c = true → ((s.cl c).ended = true ∨ ∀ t ∈ s.threadsOn c, s.arrived t = true) ∧
      ∀ d ∈ s.regionClusters rcb, d ≠ c → ∀ v : Nat,
        ((((s.cl c).heard.filter fun h => h.1 == d && decide (h.2.1 ≤ s.cycle)).getLast?.map (·.2.2)).getD (some 0) = some v) →
        (s.cl c).phase + 1 ≤ v + regionDist (s.regionClusters rcb) c d * (s.cl c).res.lead.toNat) ∧
    (s.mayAdvance c = false → exec (.clusterAdvance cl) s = .next s) ∧
    (s.mayAdvance c = true → WaitsApart s → (∀ z ∈ s.sleepers, z.kind ≠ .reconv ∧ ∀ f t, z.kind ≠ .mrgopen f t) →
      (∀ z ∈ s.regions, z.rcb = rcb → z.image = none) →
      ∃ u, exec (.clusterAdvance cl) s = .next u ∧ u.mem = s.mem ∧ u.sp = s.sp ∧ (u.cl c).phase = (s.cl c).phase + 1 ∧
        (∀ d, d ≠ c → (u.cl d).phase = (s.cl d).phase) ∧
        (∀ z ∈ s.sleepers, z.kind = .phase → coreCluster (groupCore z.group) = c → ∀ i ∈ lanesOf z.lanes,
          u.thr (tid z.group i) = State.endOf s.cycle z.next (woken s z (s.thr (tid z.group i)))) ∧
        (∀ t, (∀ z ∈ s.sleepers, z.kind = .phase → coreCluster (groupCore z.group) = c → ∀ i ∈ lanesOf z.lanes, t ≠ tid z.group i) →
          u.thr t = s.thr t))) ∧
  (∀ (s : State) (cl : BitVec 4) (k : Nat) (rcb : BitVec 48), let c := cl.toNat
    s.hole = false → CanPost s false → (s.cl c).region = some rcb → (s.cl c).strag = some k → (s.cl c).stragged = false →
    (s.cl c).res.stragt ≠ 0 → k + 1024 * (s.cl c).res.stragt.toNat ≤ s.cycle →
    ((s.cl c).res.strap = true → (s.cl c).res.trapvec ≠ 0 ∧ (∀ z ∈ s.sleepers, z.kind ≠ .reconv) ∧ (s.unarrived c).Nodup ∧ ∀ t ∈ s.unarrived c, (s.thr t).stat = .run ∧
      (s.thr t).handler = none ∧ (s.thr t).halt = none ∧ s.inSel t = false ∧ s.hasOps t = false) →
    ∃ u r, exec (.stragglerTimeout cl) s = .next u ∧ PostsOne s u false r ∧ r.extractLsb' 0 8 = 8#8 ∧ r.extractLsb' 8 4 = cl ∧
      r.extractLsb' 64 48 = rcb ∧ r.extractLsb' 224 32 = BitVec.ofNat 32 (s.cl c).phase ∧ (u.cl c).stragged = true ∧ u.sp = s.sp ∧
      (∀ t, ((s.cl c).res.strap = false ∨ t ∉ s.unarrived c) → u.thr t = s.thr t) ∧
      ((s.cl c).res.strap = true → ∀ t ∈ s.unarrived c,
        u.thr t = { s.entering t (stragglerTrap s c t) with strag := false }))

namespace Sys2Proof.Slice0
open Machine

/-- A group of the device: of one of its cores, the one group of a bow (R2, R18). -/
def RealGroup (g : Nat) : Prop := groupCore g < 272 ∧ (isBow (groupCore g) = true → groupSlot g = 0)

/-- The trap `BOUNDS` of a thread whose fault was answered with verdict 1 (R381, R385). -/
def answeredTrap (a : Await) : TrapInfo := ⟨0#32 ++ a.opc ++ a.cls ++ 0#4 ++ 0#8 ++ 4#8, a.line, a.word⟩

end Sys2Proof.Slice0

/-- R385, R387: FAULT_REPLY with verdict 0 lets the sub-group that its token names go on at `re`, or fetch again, and with verdict 1 gives it
`BOUNDS` with the line; a bow's word issues again or traps there; an unknown token or another verdict does nothing. R386: KILL_PORT ends every
region of the fault domain and frees their groups; a region's clusters are free with its event, at once where the queue has room. R390, R391:
PREEMPT sets the boundary at which its region is saved, and is refused with an event for a resident one; SAVE, at that boundary, writes the
image and the energy records, and frees groups and clusters with its event once those records are written and the queue has room.
Where the spec leaves a point open it follows the model's choice: log entries 18, 59, 61 and 64. -/
def Obligations.FaultPortsAndSaves : Prop :=
  (∀ (s : State) (w : W64) (a : Await), s.hole = false →
    ((∀ a ∈ s.awaits, a.tok ≠ (w.extractLsb' 0 16).toNat) ∨ 2 ≤ (w.extractLsb' 16 2).toNat → exec (.faultReply w) s = .next s) ∧
    ((s.awaits.find? fun a => a.tok == (w.extractLsb' 0 16).toNat) = some a → s.samples = [] → (∀ z ∈ s.sleepers, z.kind ≠ .reconv) →
      let kept := s.awaits.filter fun b => b.tok != a.tok
      (a.bow = true → (w.extractLsb' 16 2).toNat < 2 → ∃ u, exec (.faultReply w) s = .next u ∧ u = { s with awaits := kept, cores := u.cores } ∧
        (∀ k, k ≠ groupCore a.group → u.core k = s.core k) ∧
        (u.core (groupCore a.group)).sels = (s.core (groupCore a.group)).sels.map fun y => if y.held = .fault a.tok
          then { y with held := if w.extractLsb' 16 2 = 0 then .no else .bounds a.line, nextAt := s.cycle } else y) ∧
      (a.bow = false → OneOfBow a.group a.lanes → (∀ i ∈ lanesOf a.lanes, (s.thr (tid a.group i)).stat = .parked a.tok ∧
          (s.thr (tid a.group i)).strag = false) →
        (w.extractLsb' 16 2 = 0 → ∃ u, exec (.faultReply w) s = .next u ∧ u = { s with awaits := kept, threads := u.threads } ∧
          (∀ i ∈ lanesOf a.lanes, let x := s.thr (tid a.group i)
            u.thr (tid a.group i) = { (if a.fetch then x else x.goto (x.archW (.s .re))) with stat := .run, drain := true, readyAt := s.cycle }) ∧
          ∀ t, (∀ i ∈ lanesOf a.lanes, t ≠ tid a.group i) → u.thr t = s.thr t) ∧
        (w.extractLsb' 16 2 = 1 → RealGroup a.group → (s.grpRes a.group).trapvec ≠ 0 →
          (∀ i ∈ lanesOf a.lanes, s.ldxOwed a.group i = none ∧ (s.thr (tid a.group i)).handler = none ∧ s.hasOps (tid a.group i) = false) →
          ∃ u, exec (.faultReply w) s = .next u ∧ u.mem = s.mem ∧ u.sp = s.sp ∧ u.awaits = kept ∧
            (∀ i ∈ lanesOf a.lanes, u.thr (tid a.group i) = { s.entering (tid a.group i) (answeredTrap a) with tileAt := none }) ∧
            ∀ t, (∀ i ∈ lanesOf a.lanes, t ≠ tid a.group i) → u.thr t = s.thr t)))) ∧
  (∀ (s : State) (w : W64), (s.killDomain (w.extractLsb' 0 16)).hole = false → NoneAsleepSp s → mwf Group.free s.groups = true →
    s.regions.Pairwise (fun a b => a.rcb ≠ b.rcb) → (∀ x ∈ s.regions, x.clusters ≠ []) →
    let dead := fun (x : Region) => (s.cl (x.clusters.headD 0)).res.fdom = w.extractLsb' 0 16
    let killed := fun (g : Nat) => (s.grp g).bound = true ∧ ∃ x ∈ s.regions, dead x ∧ (s.grp g).rcb = x.rcb
    ∃ u, exec (.killPort w) s = .next u ∧ (∀ x ∈ s.regions, ¬dead x → x ∈ u.regions) ∧
      (∀ y ∈ u.regions, (y ∈ s.regions ∧ ¬dead y) ∨ ∃ x ∈ s.regions, dead x ∧ y = { x with killed := true } ∧
        ∀ c ∈ x.clusters, (u.cl c).ended = true) ∧
      (∀ x, s.regions = [x] → dead x → s.evOpen = true → (∀ g, (s.grp g).bound = false) → s.pending = [] →
        (∀ c ∈ x.clusters, (∀ q < 4, s.copies (4 * c + q) = []) ∧ ∀ n < 8, (s.course (8 * c + n)).ops = []) →
        u.regions = [] ∧ (∀ c ∈ x.clusters, (u.cl c).region = none) ∧ ∃ r, PostsOne s u false r ∧ r.extractLsb' 0 8 = 12#8 ∧
          r.extractLsb' 64 48 = x.rcb ∧ r.extractLsb' 192 64 = 1) ∧
      (∀ g, killed g → (u.grp g).bound = false ∧ ∀ i ∈ groupLanes g, u.thr (tid g i) = Thread.blank) ∧
      (∀ t, (∀ g, killed g → ∀ i ∈ groupLanes g, t ≠ tid g i) → u.thr t = s.thr t)) ∧
  (∀ (s : State) (mc : BitVec 2) (w : W64) (x : Region), s.hole = false → (s.regions.find? fun x => x.rcb == w.extractLsb' 0 48) = some x →
    let resident := ∃ c ∈ x.clusters, (s.cl c).res.resident = true
    (resident → CanPost s false → ∃ u r, exec (.preempt mc w) s = .next u ∧ PostsOne s u false r ∧ r.extractLsb' 0 8 = 13#8 ∧
      u = { s with mem := u.mem, evWait := u.evWait }) ∧
    (¬resident → (∃ g, (s.grp g).bound = true ∧ (s.grp g).rcb = x.rcb) → x.preempt = none → ∃ u p, exec (.preempt mc w) s = .next u ∧
      (∀ c ∈ x.clusters, (s.cl c).phase ≤ p) ∧ (p = 0 ∨ ∃ c ∈ x.clusters, p = (s.cl c).phase) ∧
      u = { s with regions := s.regions.map fun y => if y.rcb = x.rcb then { y with preempt := some p } else y })) ∧
  (∀ (s : State) (x : Region), s.hole = false → (s.regions.find? fun y => y.rcb == x.rcb) = some x →
    (s.maySave x = false → exec (.save x.rcb) s = .next s) ∧
    (s.maySave x = true → (∃ p, x.preempt = some p ∧ ∀ c ∈ x.clusters, (s.cl c).ended = true ∨ (s.cl c).phase = p ∧
      ∀ t ∈ s.threadsOn c, s.arrived t = true ∧ s.hasWork t = false)) ∧
    (∀ (c p : Nat) (l gs : List Nat) (bytes : List Byte) (s1 s2 s3 : State) (r : W512), s.maySave x = true → x.clusters = c :: l →
      x.preempt = some p → gs = (s.regionGroups x.rcb.toNat).filter (fun g => (groupLanes g).any fun i => (s.thr (tid g i)).stat != .exited) →
      (∀ g ∈ gs, RealGroup g) → (∀ d, (s.cl d).mHolder = none) → bytes = s.imageBytes x.rcb x.clusters gs p →
      let R := (s.cl c).res
      let image := R.image.toNat
      (x.saving = true → s1 = s) →
      (x.saving = false → physOkN image bytes.length = true ∧ s1 = (gs.foldl (fun (s : State) g => s.saveEnergy R.acct.toNat g)
        { s with mem := Memory.put s.mem image bytes }).modRegion x.rcb.toNat fun z => { z with saving := true }) →
      s1.hole = false → physOkN (image + 4) 1 = true →
      (s1.acctOwed x.rcb = true ∨ s1.evOpen = false → exec (.save x.rcb) s = .next s1) ∧
      (s1.acctOwed x.rcb = false → s1.evOpen = true →
        s2 = { s1 with mem := Memory.put s1.mem (image + 4) [(Memory.byte s1.mem (image + 4)).extractLsb' 4 4 ++ 2#4] } →
        s3 = gs.foldl State.freeSaved s2 →
        r = evRecord s.cycle 15 c 0 0 R.fdom.toNat x.rcb.toNat (if (Memory.read s2.mem image 32).testBit 36 then 1 else 0) image
          (Memory.read s2.mem image 32 / 2 ^ 192 % 2 ^ 48) 0 0 →
        s3.hole = false → CanPost s3 false →
        ∃ u, exec (.save x.rcb) s = .next u ∧ PostsOne s3 u false r ∧ u.regions = s.regions.filter (fun y => y.rcb != x.rcb) ∧
          (∀ d ∈ x.clusters, (u.cl d).region = none) ∧
          ∀ g ∈ gs, (u.grp g).bound = false ∧ ∀ i ∈ groupLanes g, u.thr (tid g i) = Thread.blank)))

namespace Sys2Proof.Slice0
open Machine

/-- A field of a bind record (R357). -/
def recField (r : W256) (hi lo_ : Nat) : Nat := (r.extractLsb' lo_ (hi + 1 - lo_)).toNat

/-- WHAT A NEWLY STARTED THREAD FINDS (R43): lane l of a group that is no graph node's, with the record r. -/
structure NewThread (x : Thread) (t l : Nat) (r : W256) : Prop where
  stat : x.stat = .run
  pc : x.pc = (r.extractLsb' 64 48).setWidth 64
  g0 : x.arch (.g 0) = .w ((r.extractLsb' 128 48).setWidth 64)
  g1 : x.arch (.g 1) = .w (BitVec.ofNat 64 (32 * (recField r 255 224 * (recField r 55 52 + 1) + recField r 59 56) + l))
  gs : ∀ n : GReg, n ≠ 0 → n ≠ 1 → x.arch (.g n) = .w 0
  vs : ∀ n, x.arch (.v n) = .v VVal.zero
  ps : ∀ n, n ≠ 7 → x.arch (.p n) = .p false
  re : x.arch (.s .re) = .w x.pc
  srs : x.arch (.s .srs) = .w ((srsSeed 0 t).setWidth 64)
  specials : ∀ r, r ≠ .re → r ≠ .srs → x.arch (.s r) = .w 0
  counters : ∀ n, mget 0 x.d n = 0
  handler : x.handler = none

/-- The byte of a bind record that holds STATE. -/
def stateAt (s : State) (i : Nat) : Nat := s.sys.btbase.toNat + 32 * i + 6

/-- Some bind records' STATE has changed, and no other byte of memory (R357). -/
def StateWritten (m0 m1 : Memory) (l : List Nat) (st : BitVec 3) : Prop :=
  (∀ a ∈ l, Memory.byte m1 a = (Memory.byte m0 a).extractLsb' 3 5 ++ st) ∧ ∀ A, A ∉ l → Memory.byte m1 A = Memory.byte m0 A

/-- What R358 refuses in a record of its own fields, of an index, under the resolved node. -/
def Refused (s : State) (i : Nat) (r : W256) (x : Resolved) : Prop :=
  let c := if i < 4096 then i / 256 else i - 4096
  recField r 191 185 ≠ 0 ∨ recField r 127 126 ≠ 0 ∨ recField r 63 60 ≠ 0 ∨ r.getLsbD 51 ≠ x.world ∨ s.blockWorld c ≠ x.world ∨
  x.clmask.getLsbD c = false ∨ (x.zwmax ≠ 0 ∧ x.zwmax < recField r 125 112) ∨ 0x200000 < 256 * (recField r 125 112 + x.zs) ∨
  (4096 ≤ i ∧ (recField r 223 192 ≠ 1 ∨ recField r 55 52 ≠ 0 ∨ recField r 125 112 ≠ 0)) ∨
  (r.getLsbD 176 = true ∧ (recField r 55 52 ≠ 0 ∨ x.gqcount.toNat ≤ recField r 184 177))

end Sys2Proof.Slice0

/-- R43, R357–R359, R394: BINDGO of a record that is not pending counts in `BINDERR`, one that R358 refuses reads STATE 4 and posts its event,
and another goes pending. GROUP_START starts all groups of a ready workgroup with the state of R43; REGION_START begins a region on a
cluster and starts its bow, zeroing what the cluster passes to another fault domain; REGION_RESUME restores the bow's thread into its
`PHASE`. A thread's section holds what it restores.
Where the spec leaves a point open it follows the model's choice: log entries 55, 56, 58 and 59. -/
def Obligations.Starts : Prop :=
  (∀ (s : State) (mc : BitVec 2) (w : W64), s.hole = false →
    let i := (w.extractLsb' 0 13).toNat
    let r := BitVec.ofNat 256 (Memory.read s.mem (s.sys.btbase.toNat + 32 * i) 32)
    let d := if i < 4096 then i / 256 else i - 4096
    let fields := if (s.cl d).region = some (r.extractLsb' 0 48) then some (s.cl d).res else s.resolve (recField r 47 0)
    (4111 < i ∨ r.extractLsb' 48 3 ≠ 1 →
      exec (.bindgo mc w) s = .next { s with sys := { s.sys with binderr := s.sys.binderr + 1 } }) ∧
    (i ≤ 4111 → r.extractLsb' 48 3 = 1 → (fields = none ∨ ∃ x, fields = some x ∧ Refused s i r x) →
      physOkN (stateAt s i) 1 = true → (∀ m, (∀ A, A ≠ stateAt s i → Memory.byte m A = Memory.byte s.mem A) → CanPost { s with mem := m } false) →
      ∃ (u s1 : State) (q : W512), exec (.bindgo mc w) s = .next u ∧ StateWritten s.mem s1.mem [stateAt s i] 4#3 ∧
        s1 = { s with mem := s1.mem } ∧ PostsOne s1 u false q ∧ q.extractLsb' 0 8 = 11#8 ∧ q.extractLsb' 64 48 = r.extractLsb' 0 48 ∧
        q.extractLsb' 192 64 = BitVec.ofNat 64 i ∧ u = { s with mem := u.mem, evWait := u.evWait }) ∧
    (i < 4096 → r.extractLsb' 48 3 = 1 → s.bindOk i r = true → ∃ since, exec (.bindgo mc w) s = .next { s with
      pending := s.pending.filter (fun p => p.1 != i) ++ [(i, r, since)] })) ∧
  (∀ (s : State) (rec : BitVec 12) (base : Nat) (r : W256) (since : Option Nat),
    let i := rec.toNat
    let core := groupCore (bindGroup i)
    let c := s.cl (coreCluster core)
    let l := s.wgRecords i r
    s.hole = false → (s.pending.find? fun p => p.1 == i) = some (i, r, since) → c.region = some (r.extractLsb' 0 48) →
    (∀ p ∈ l, ∀ n, p.2.2 = some n → n < c.phase) → s.wgReady i r = true → s.roomAt core base (256 * recField r 125 112) = true →
    s.restoring (recField r 47 0) = none → l.Pairwise (fun a b => a.1 ≠ b.1) →
    (∀ p ∈ l, p.2.1.getLsbD 176 = false ∧ (∃ k < 32, p.2.1.getLsbD (192 + k) = true) ∧ physOkN (stateAt s p.1) 1 = true) →
    ∃ u, exec (.groupStart rec base) s = .next u ∧ u.sp = s.sp ∧ StateWritten s.mem u.mem (l.map fun p => stateAt s p.1) 2#3 ∧
      u.wg (wgKey core (recField r 255 224)) = ⟨true, base, 256 * recField r 125 112, [], [], []⟩ ∧
      u.pending = s.pending.filter (fun p => !l.any fun q => q.1 == p.1) ∧
      (∀ p ∈ l, (u.grp (bindGroup p.1)).bound = true ∧ (u.grp (bindGroup p.1)).bind = p.2.1 ∧
        (u.grp (bindGroup p.1)).pp = c.res.pp ∧ (u.grp (bindGroup p.1)).sc = c.res.sc ∧ (∀ k, mget MVal.zero (u.grp (bindGroup p.1)).m k = MVal.zero) ∧
        ∀ k < 32, (p.2.1.getLsbD (192 + k) = true → NewThread (u.thr (tid (bindGroup p.1) k)) (tid (bindGroup p.1) k) k p.2.1) ∧
          (p.2.1.getLsbD (192 + k) = false → (u.thr (tid (bindGroup p.1) k)).stat = .exited)) ∧
      ∀ t, (∀ p ∈ l, ∀ k < 32, t ≠ tid (bindGroup p.1) k) → u.thr t = s.thr t) ∧
  (∀ (s : State) (cl : BitVec 4) (r : W256) (x : Resolved) (bases : List Nat),
    let c := cl.toNat
    let bow := 16 * (17 * c + 16)
    let rcb := r.extractLsb' 0 48
    s.hole = false → s.bowRecord c = some r → (s.cl c).region = none → (s.grp bow).bound = false → (s.cl c).retired = false →
    ((s.cl c).fdomLast = none ∨ (s.cl c).fdomLast = some x.fdom ∨ ∀ q < 4, ∀ z ∈ s.copies (4 * c + q), z.dead = false) →
    s.resolve rcb.toNat = some x → (∀ z ∈ s.regions, z.rcb ≠ rcb) → bases.length = 16 → (∀ b ∈ bases, b + 256 * x.zs ≤ 0x200000) →
    r.getLsbD 192 = true → r.getLsbD 176 = false → physOkN (stateAt s (4096 + c)) 1 = true →
    (s.imageReady x = false → ∃ u, exec (.regionStart cl bases) s = .next u ∧ StateWritten s.mem u.mem [stateAt s (4096 + c)] 2#3 ∧
      (u.cl c).region = some rcb ∧ (u.cl c).res = x ∧ (u.cl c).phase = 0 ∧ (u.cl c).zs = 256 * x.zs ∧ (u.cl c).ended = false ∧
      (∀ k < 16, mget 0 (u.cl c).share k = bases.getD k 0) ∧ (∀ n < 8, u.course (8 * c + n) = { Course.zero with retired := (s.course (8 * c + n)).retired }) ∧
      (u.cl c).kb = [] ∧ (((s.cl c).fdomLast = none ∨ (s.cl c).fdomLast = some x.fdom) → u.sp = s.sp) ∧
      (∀ f, (s.cl c).fdomLast = some f → f ≠ x.fdom →
        ∀ A, Memory.byte u.sp A = if spKey c 0 0 ≤ A ∧ A < spKey c 0 0 + 16 * 0x200000 then 0 else Memory.byte s.sp A) ∧
      u.regions = s.regions ++ [⟨rcb, [c], none, s.cycle, [], false, none, false⟩] ∧
      u.pending = ((s.pending.filter fun p => p.1 != 4096 + c).map fun p =>
        if bindCluster p.1 = c ∧ recField p.2.1 47 0 = rcb.toNat ∧ p.2.2 = none then (p.1, p.2.1, some 0) else p) ∧
      (u.grp bow).bound = true ∧ (u.grp bow).bind = r ∧ NewThread (u.thr (tid bow 0)) (tid bow 0) 0 r ∧ ∀ t, t ≠ tid bow 0 → u.thr t = s.thr t) ∧
    (∀ (y : GroupImg) (z : Section), s.imageReady x = true → s.latent = [] → NoneAsleepSp s → physOkN (rcb.toNat + 56) 1 = true →
      let im := s.imageAt x.image.toNat
      im.sectionFor (im.groups.map (·.num)) (4096 + c) r = some y → (y.parts.find? fun z => z.kind == 2 && z.index == 0) = some z →
      ∃ u, exec (.regionResume cl bases []) s = .next u ∧ (u.cl c).region = some rcb ∧ (u.cl c).res = x ∧ (u.cl c).phase = im.phase ∧
        (u.cl c).kb = [] ∧ (∀ n < 8, (u.course (8 * c + n)).rst = true) ∧ (u.grp bow).bound = true ∧
        (u.thr (tid bow 0) = { s.restoreThread (tid bow 0) z with stat := .sleep s.nextId }) ∧
        (∃ e, u.sleepers = s.sleepers ++ [e] ∧ e.id = s.nextId ∧ e.group = bow ∧ e.lanes = 1 ∧ e.kind = .phase ∧
          e.word = (s.restoreThread (tid bow 0) z).pc) ∧
        (∃ e, u.regions = s.regions ++ [e] ∧ e.rcb = rcb ∧ e.clusters = [c] ∧ e.resuming = (im.groups.map (·.num)).filter (· != y.num) ∧
          e.image = some im.phase) ∧
        ∀ t, t ≠ tid bow 0 → u.thr t = s.thr t)) ∧
  (∀ (s : State) (t : Nat) (x : Thread) (z : Section), Memory.bytes s.mem z.place (threadPayload x).length = threadPayload x →
    let y := s.restoreThread t z
    y.pc = x.pc ∧ (∀ n : GReg, y.arch (.g n) = .w (if x.live.gmask.getLsbD n.toNat then x.archW (.g n) else 0)) ∧
    (∀ (n : VReg) (b : VVal), x.arch (.v n) = .v b → y.arch (.v n) = .v (if x.live.word2.getLsbD n.toNat then b else VVal.zero)) ∧
    (∀ (n : PReg) (b : Bool), n ≠ 7 → x.arch (.p n) = .p b → y.arch (.p n) = .p (x.live.word2.getLsbD (40 + n.toNat) && b)))

namespace Sys2Proof.Slice0
open Machine

/-- The LANE of a debug command. -/
def laneOf (cmd : W64) : Nat := (cmd.extractLsb' 8 17).toNat
/-- The ELEM of a debug command. -/
def elemOf (cmd : W64) : Nat := (cmd.extractLsb' 34 10).toNat
/-- The thread that a debug command names: a lane number, or the bow of a cluster (R396, R397). -/
def named (cmd : W64) : Nat := if cmd.getLsbD 44 then 131072 + laneOf cmd % 16 else laneOf cmd
/-- The thread's group, and the region's control block. -/
def rcbOf (s : State) (t : Nat) : BitVec 48 := (s.grp (threadGroup t)).rcb

/-- A command of an operation whose reserved fields are zero (R397). -/
def CleanCmd (cmd : W64) (op : BitVec 8) : Prop :=
  cmd.extractLsb' 0 8 = op ∧ cmd.extractLsb' 45 19 = 0 ∧ (cmd.getLsbD 44 = true → laneOf cmd < 16)

/-- A management core holds the debug right over the region of a thread (R396). -/
def HasRight (s : State) (mc : BitVec 2) (t : Nat) : Prop :=
  (s.grp (threadGroup t)).bound = true ∧ (s.grpRes (threadGroup t)).debug = true ∧ (rcbOf s t, mc) ∈ s.attached ∧
  ((s.grpRes (threadGroup t)).world = true → mc = 0)

/-- A halted lane that has reported it (R398). -/
def Halted (s : State) (t : Nat) : Prop := ∃ r c, (s.thr t).halt = some ⟨r, c, true⟩

/-- The answer to a request about a thread: a record of reason 5 with a status and a value, and no other change (R398). -/
def Answered (s u : State) (mc : BitVec 2) (t status : Nat) (value : W64) : Prop :=
  u = { s with mem := u.mem, evWait := u.evWait } ∧ ∃ r, PostsOne s u (mc == 0) r ∧ DebugRecord r t 5 0 (s.thr t).pc value status ∧
    r.getLsbD 257 = (s.thr t).warn

/-- A lane that a debugger has released (R397). -/
def released (s : State) (stepping : Bool) (x : Thread) : Thread := { x with halt := none, stepping := stepping, readyAt := s.cycle }

/-- DEDIT of a region is set, and nothing else in memory changes (R399). -/
def Edited (m0 m1 : Memory) (rcb : BitVec 48) : Prop :=
  (Memory.byte m1 (rcb.toNat + 56) = Memory.byte m0 (rcb.toNat + 56) ||| 128) ∧ ∀ A, A ≠ rcb.toNat + 56 → Memory.byte m1 A = Memory.byte m0 A

/-- A debugger's write is answered: `act` says what it changes beside DEDIT (R399). -/
def WriteDone (s : State) (i : Instr) (mc : BitVec 2) (t : Nat) (data : W64) (act : State → Prop) : Prop :=
  ∃ u s1, exec i s = .next u ∧ act s1 ∧ Edited s.mem s1.mem (rcbOf s t) ∧ rcbOf s t ∈ s1.edited ∧ s1 = { s with
    dbgData := data, mem := s1.mem, edited := s1.edited, threads := s1.threads, groups := s1.groups } ∧ Answered s1 u mc t 0 0

end Sys2Proof.Slice0

/-- R396–R400: THE DEBUG PORT. A bad request is answered with status 3, one without the right with status 1, one about a lane that is not
halted with 2, and changes nothing. ATTACH takes a region's right; HALT halts and reports the lane, or waits for the end of the clause of one
that is held at its word (R21); RESUME and STEP release it; STEP_END halts it again; READ and MREAD return a register or a part of it, WRITE and MWRITE write it at once and set DEDIT; REVOKE gives the right
back and releases every halted lane of the region.
Where the spec leaves a point open it follows the model's choice: log entry 36. -/
def Obligations.DebugPort : Prop :=
  (∀ (s : State) (mc : BitVec 2) (cmd data : W64) (i : Instr) (op : BitVec 8),
    let t := named cmd
    let s0 := { s with dbgData := data }
    (i, op) ∈ [(Instr.debugHalt mc cmd data, 1#8), (.resume mc cmd data, 2#8), (.step mc cmd data, 3#8), (.read mc cmd data, 4#8),
      (.write mc cmd data, 5#8), (.mread mc cmd data, 7#8), (.mwrite mc cmd data, 8#8)] → s.hole = false → CanPost s (mc == 0) →
    (¬CleanCmd cmd op → ∃ u, exec i s = .next u ∧ Answered s0 u mc t 3 0) ∧
    (CleanCmd cmd op → ¬HasRight s mc t → ∃ u, exec i s = .next u ∧ Answered s0 u mc t 1 0) ∧
    (CleanCmd cmd op → HasRight s mc t → op ≠ 1#8 → ¬Halted s t → ∃ u, exec i s = .next u ∧ Answered s0 u mc t 2 0)) ∧
  (∀ (s : State) (mc : BitVec 2) (cmd data : W64) (op : BitVec 8),
    let t := named cmd
    let s0 := { s with dbgData := data }
    let x := s.thr t
    s.hole = false → CanPost s (mc == 0) → CleanCmd cmd op → HasRight s mc t → (∀ z ∈ s.sleepers, z.kind ≠ .reconv) →
    let held := ∃ y ∈ (s.core (groupCore (threadGroup t))).sels, y.slot = groupSlot (threadGroup t) ∧ y.lanes.getLsbD (threadLane t) = true ∧
      y.held ≠ .no
    (op = 1#8 → elemOf cmd = 0 → x.halt = none → held →
      exec (.debugHalt mc cmd data) s = .next (s0.modThr t fun x => { x with haltReq := some (3, 0) })) ∧
    (op = 1#8 → elemOf cmd = 0 → x.halt = none → ¬held → x.stat = .run → CanPost s (s.dbgSecure (rcbOf s t)) → s.hasOps t = false →
      ∃ u r, exec (.debugHalt mc cmd data) s = .next u ∧ PostsOne s u (s.dbgSecure (rcbOf s t)) r ∧ DebugRecord r t 3 0 x.pc 0 0 ∧ u.sp = s.sp ∧
        u.thr t = { x with halt := some ⟨3, 0, true⟩, warn := false } ∧ ∀ t', t' ≠ t → u.thr t' = s.thr t') ∧
    (elemOf cmd = 0 → Halted s t → x.strag = false → x.haltReq = none →
      (op = 2#8 → ∃ u v, exec (.resume mc cmd data) s = .next u ∧ Answered s0 v mc t 0 0 ∧ u = { v with threads := u.threads } ∧
        u.thr t = released s false x ∧ ∀ t', t' ≠ t → u.thr t' = s.thr t') ∧
      (op = 3#8 → ∃ u v, exec (.step mc cmd data) s = .next u ∧ Answered s0 v mc t 0 0 ∧ u = { v with threads := u.threads } ∧
        u.thr t = released s true x ∧ ∀ t', t' ≠ t → u.thr t' = s.thr t')) ∧
    (op = 4#8 → Halted s t → ∀ n : BitVec 6, let read := fun (v : W64) => ∃ u, exec (.read mc cmd data) s = .next u ∧ Answered s0 u mc t 0 v
      (cmd.extractLsb' 25 9 = 1#3 ++ n → elemOf cmd = 0 → read (x.archW (.g n))) ∧
      (cmd.extractLsb' 25 9 = 2#3 ++ n → n < 32#6 → ∀ y, x.arch (.v (n.setWidth 5)) = .v y →
        (elemOf cmd = 0 → read (y.bits.extractLsb' 0 64)) ∧ (elemOf cmd = 1 → read (y.bits.extractLsb' 64 64)) ∧
        (elemOf cmd = 2 → read (y.tag.setWidth 64))) ∧
      (cmd.extractLsb' 25 9 = 3#3 ++ n → n < 8#6 → read ((mget 0 (s.archM (threadGroup t) n.toNat).elems (elemOf cmd)).setWidth 64)) ∧
      (cmd.extractLsb' 25 9 = 4#3 ++ n → n < 8#6 → elemOf cmd = 0 → ∀ b, x.arch (.p (n.setWidth 3)) = .p b → read (if b then 1 else 0))) ∧
    (op = 7#8 → Halted s t → ∀ n : BitVec 6, cmd.extractLsb' 25 9 = 3#3 ++ n → n < 8#6 →
      let m := s.archM (threadGroup t) n.toNat
      let read := fun (v : W64) => ∃ u, exec (.mread mc cmd data) s = .next u ∧ Answered s0 u mc t 0 v
      (elemOf cmd < 4 → read (m.scale.extractLsb' (64 * elemOf cmd) 64)) ∧ (elemOf cmd = 4 → read (m.tag.setWidth 64)))) ∧
  (∀ (s : State) (mc : BitVec 2) (cmd data : W64) (op : BitVec 8) (n : BitVec 6),
    let t := named cmd
    let g := threadGroup t
    let x := s.thr t
    s.hole = false → CleanCmd cmd op → HasRight s mc t → Halted s t → (∀ k, x.stat ≠ .parked k) → physOkN ((rcbOf s t).toNat + 56) 1 = true →
    (∀ m, Edited s.mem m (rcbOf s t) → CanPost { s with mem := m } (mc == 0)) →
    let only := fun (r : RegId) (v : RVal) (s1 : State) => (s1.thr t).arch r = v ∧ (∀ q, q ≠ r → (s1.thr t).arch q = x.arch q) ∧
      (∀ t', t' ≠ t → s1.thr t' = s.thr t') ∧ s1.groups = s.groups
    (op = 5#8 →
      (cmd.extractLsb' 25 9 = 1#3 ++ n → elemOf cmd = 0 → WriteDone s (.write mc cmd data) mc t data (only (.g n) (.w data))) ∧
      (cmd.extractLsb' 25 9 = 2#3 ++ n → n < 32#6 → ∀ y, x.arch (.v (n.setWidth 5)) = .v y →
        (elemOf cmd = 0 → WriteDone s (.write mc cmd data) mc t data (only (.v (n.setWidth 5)) (.v ⟨y.bits.extractLsb' 64 64 ++ data, y.tag⟩))) ∧
        (elemOf cmd = 1 → WriteDone s (.write mc cmd data) mc t data (only (.v (n.setWidth 5)) (.v ⟨data ++ y.bits.extractLsb' 0 64, y.tag⟩)))) ∧
      (cmd.extractLsb' 25 9 = 4#3 ++ n → n < 7#6 → elemOf cmd = 0 →
        WriteDone s (.write mc cmd data) mc t data (only (.p (n.setWidth 3)) (.p (data.getLsbD 0))))) ∧
    (op = 8#8 → cmd.extractLsb' 25 9 = 3#3 ++ n → n < 8#6 →
      let m := s.archM g n.toNat
      let into := fun (y : MVal) (s1 : State) => s1.archM g n.toNat = y ∧ (∀ k, k ≠ n.toNat → s1.archM g k = s.archM g k) ∧ s1.threads = s.threads
      (∀ k < 4, elemOf cmd = k → ∃ y : MVal, WriteDone s (.mwrite mc cmd data) mc t data (into y) ∧ y.elems = m.elems ∧ y.tag = m.tag ∧
        y.scale.extractLsb' (64 * k) 64 = data ∧ ∀ j < 4, j ≠ k → y.scale.extractLsb' (64 * j) 64 = m.scale.extractLsb' (64 * j) 64) ∧
      (elemOf cmd = 4 → (data.extractLsb' 0 8 = 0 ∨ tagOk (data.extractLsb' 0 8) = true) →
        WriteDone s (.mwrite mc cmd data) mc t data (into { m with tag := data.extractLsb' 0 8 })))) ∧
  (∀ (s : State) (mc : BitVec 2) (cmd data : W64), let rcb := data.extractLsb' 0 48
    let said := fun (s1 u : State) (status : Nat) => u = { s1 with mem := u.mem, evWait := u.evWait } ∧ ∃ r, PostsOne s1 u (mc == 0) r ∧
      r.extractLsb' 0 8 = 10#8 ∧ r.extractLsb' 64 48 = rcb ∧ r.extractLsb' 248 8 = 5#8 ∧ r.extractLsb' 448 8 = BitVec.ofNat 8 status
    let others := s.attached.filter fun a => a.1 != rcb
    s.hole = false → CanPost s (mc == 0) → elemOf cmd = 0 →
    (CleanCmd cmd 0 → ∀ x, s.regionRes rcb.toNat = some x → ∃ u, exec (.attach mc cmd data) s = .next u ∧
      ((x.debug = true ∧ (x.world = true → mc = 0)) → said { s with dbgData := data, attached := others ++ [(rcb, mc)] } u 0) ∧
      (¬(x.debug = true ∧ (x.world = true → mc = 0)) → said { s with dbgData := data } u 1)) ∧
    (CleanCmd cmd 6 → (rcb, mc) ∉ s.attached → ∃ u, exec (.revoke mc cmd data) s = .next u ∧ said { s with dbgData := data } u 1) ∧
    (CleanCmd cmd 6 → (rcb, mc) ∈ s.attached → (∀ z ∈ s.sleepers, z.kind ≠ .reconv) → (∀ t, (s.thr t).strag = false ∧ (s.thr t).haltReq = none) → mwf Group.free s.groups = true →
      ∃ u s1, exec (.revoke mc cmd data) s = .next u ∧ said s1 u 0 ∧ s1 = { s with dbgData := data, attached := others, threads := s1.threads } ∧
        ∀ t, let freed := ∃ g, (s.grp g).bound = true ∧ (s.grp g).rcb = rcb ∧ ∃ i ∈ groupLanes g, t = tid g i
          (freed ∧ (s.thr t).halt ≠ none → u.thr t = released s false (s.thr t)) ∧ (¬(freed ∧ (s.thr t).halt ≠ none) → u.thr t = s.thr t))) ∧
  (∀ (s : State) (t : Nat) (code : BitVec 16), let q := s.dbgSecure (rcbOf s t)
    s.hole = false → t < 131088 → (s.thr t).halt = some ⟨4, code, false⟩ → s.hasOps t = false → CanPost s q →
    ∃ u r, exec (.stepEnd t) s = .next u ∧ PostsOne s u q r ∧ DebugRecord r t 4 0 (s.thr t).pc 0 0 ∧ u.sp = s.sp ∧
      (u.thr t = { s.thr t with halt := some ⟨4, code, true⟩, stepping := false, warn := false }) ∧ ∀ t', t' ≠ t → u.thr t' = s.thr t')

namespace Sys2Proof.Slice0
open Machine

/-- The descriptor of an event queue of a world (R346, R382). -/
def queueOf (s : State) (secure : Bool) : Nat := (if secure then s.sys.evqs else s.sys.evqn).toNat

/-- The bytes of a region of memory are those of another memory. -/
def KeptOutside (m0 m1 : Memory) (l : List (Nat × Nat)) : Prop :=
  ∀ A, (∀ e ∈ l, A < e.1 ∨ e.1 + e.2 ≤ A) → Memory.byte m1 A = Memory.byte m0 A

/-- WHAT POSTING A RECORD DOES (R382): while an earlier record of the queue waits, or the queue is full, the record waits; otherwise it goes
into slot TAIL mod N and TAIL rises by one. -/
def PostingRule (s : State) (secure : Bool) (r : W512) : Prop :=
  let D := queueOf s secure
  let base := Memory.read s.mem D 6
  let n := 2 ^ (Memory.read s.mem (D + 8) 1 % 32)
  let tail := Memory.read s.mem (D + 12) 4
  let head := Memory.read s.mem (D + 16) 4
  let slot := base + 64 * (tail % n)
  let waits := (∃ x ∈ s.evWait, x.1 = secure) ∨ n ≤ (tail + 2 ^ 32 - head) % 2 ^ 32
  (waits → s.post secure r = { s with evWait := s.evWait ++ [(secure, r)] }) ∧
  (¬waits → physOkN D 64 = true → physOkN (D + 12) 4 = true → physOkN slot 64 = true → (slot + 64 ≤ D ∨ D + 64 ≤ slot) →
    let u := s.post secure r
    u = { s with mem := u.mem } ∧ Memory.read u.mem slot 64 = r.toNat ∧ Memory.read u.mem (D + 12) 4 = (tail + 1) % 2 ^ 32 ∧
      KeptOutside s.mem u.mem [(slot, 64), (D + 12, 4)])

/-- The system registers after a write by an agent of a world (R351): RS registers ignore a non-secure writer, RO ones every writer. -/
def regWritten (y : SysRegs) (secure : Bool) (n : Nat) (x : W64) : SysRegs :=
  if n = 0x010 then (if secure then { y with wtbase := x } else y)
  else if n = 0x020 then { y with btbase := x }
  else if n = 0x023 then { y with rcbroot := x }
  else if n = 0x030 then { y with topo := x }
  else if n = 0x031 then (if x.extractLsb' 16 10 = 0 then y else { y with arbw := (x.extractLsb' 0 26).setWidth 64 })
  else if n = 0x050 then { y with eperiod := if x < 0x10000#64 then 0x10000 else if x ≤ 0x100000000#64 then x else 0x100000000 }
  else if 0x051 ≤ n ∧ n ≤ 0x05A then { y with ewgt := mset 0 y.ewgt (n - 0x051) (x.setWidth 16) }
  else if n = 0x060 then (if secure then { y with evqs := x } else y)
  else if n = 0x061 then { y with evqn := x }
  else if n = 0x070 then { y with launchq := x }
  else y

/-- Only one slice changes, to a new state of its registers. -/
def SliceBecomes (s u : State) (c : Nat) (x : Slice) : Prop :=
  u = { s with slices := u.slices } ∧ u.slice c = x ∧ ∀ d, d ≠ c → u.slice d = s.slice d

end Sys2Proof.Slice0

/-- R349–R351, R361, R364, R382, R401, R421, R427, R428: a management core's write of a register takes its value where its world and range
allow, the slice registers of UKIND, HASH and SPARE as the writes of those are; `WTSYNC` completes when nothing is bound to a changed
block: the device then holds the table as memory has it. A record enters its queue or waits. A HEAD that advances lets in the records, the
groups' energy records and the `EMIT` that waited, or, in a graph queue that does not translate, is written again; a launch record with a
reserved field set posts its error as it is dequeued; a queue's expired time-out posts the queue's fill.
Where the spec leaves a point open it follows the model's choice: log entries 64, 65, 70, 72 and 84. -/
def Obligations.ManagementWrites : Prop :=
  (∀ (s : State) (secure : Bool) (r : W512), PostingRule s secure r) ∧
  (∀ (s : State) (mc : BitVec 2) (w : W64), s.hole = false →
    exec (.wtsync mc w) s = .next (if mc = 0 ∧ w = 1 then { s with wtSync := true } else s) ∧
    (s.wtSync = false ∨ s.wtReady = false → exec .wtsyncCompletion s = .next s) ∧
    (s.wtSync = true → s.wtReady = true → ∃ u, exec .wtsyncCompletion s = .next u ∧ u = { s with world := u.world, wtSync := false } ∧
      ∀ k < 0x51000, mget 0 u.world k = Memory.byte s.mem (s.sys.wtbase.toNat + k)) ∧
    (s.wtReady = true → ∀ b < 0x40, (Memory.byte s.mem (s.sys.wtbase.toNat + b)).getLsbD 0 ≠ (mget 0 s.world b).getLsbD 0 →
      ∀ e ∈ s.groups, 272 * (b % 16) ≤ e.1 → e.1 < 272 * (b % 16 + 1) → e.2.bound = false) ∧
    (∀ n < 0x1000, n ≠ 0x011 → n ≠ 0x021 → n ≠ 0x080 → exec (.systemRegisterWrite mc (BitVec.ofNat 32 (0x40000000 + 8 * n)) w) s =
      .next { s with sys := regWritten s.sys (decide (mc = 0) || (mget 0 s.world (0x5D + mc.toNat)).getLsbD 0) n w }) ∧
    exec (.systemRegisterWrite mc 0x40000088 w) s = .next (if mc = 0 ∧ w = 1 then { s with wtSync := true } else s) ∧
    exec (.systemRegisterWrite mc 0x40000108 w) s = exec (.bindgo mc w) s ∧
    exec (.systemRegisterWrite mc 0x40000400 w) s = exec (.preempt mc w) s ∧
    exec (.systemRegisterWrite mc 0x58002000 w) s = .next { s with sys := { s.sys with classTab := w } } ∧
    exec (.systemRegisterWrite mc 0x58002008 w) s = .next { s with sys := { s.sys with fabTab := w } } ∧
    (∀ c < 16, let x := s.slice c
      let at_ := fun (off : Nat) => BitVec.ofNat 32 (0x50000000 + 0x1000 * c + off)
      exec (.systemRegisterWrite mc (at_ 0x00) w) s = exec (.ukind mc (BitVec.ofNat 4 c) w) s ∧
      exec (.systemRegisterWrite mc (at_ 0x08) w) s = exec (.hashReq mc (BitVec.ofNat 4 c) w) s ∧
      exec (.systemRegisterWrite mc (at_ 0x20) w) s = exec (.spareGo mc (BitVec.ofNat 4 c) w) s ∧
      (∃ u, exec (.systemRegisterWrite mc (at_ 0x28) w) s = .next u ∧
        SliceBecomes s u c { x with scrubEn := w.getLsbD 32, scrubPeriod := w.extractLsb' 0 32 }))) ∧
  (∀ (s s1 : State) (secure : Bool) (head : BitVec 32) (r : W512), s.hole = false →
    let D := queueOf s secure
    physOkN D 64 = true → physOkN (D + 16) 4 = true → s1 = { s with mem := Memory.write s.mem (D + 16) 4 head.toNat } →
    ((∀ x ∈ s.evWait, x.1 ≠ secure) → exec (.queueHeadAdvance (.eventQueue secure) head) s = .next s1 ∧
      Memory.read s1.mem (D + 16) 4 = head.toNat ∧ KeptOutside s.mem s1.mem [(D + 16, 4)]) ∧
    (s.evWait.filter (fun x => x.1 == secure) = [(secure, r)] → CanPost { s1 with evWait := [] } secure →
      (Memory.read s1.mem (D + 12) 4 + 2 ^ 32 - head.toNat) % 2 ^ 32 < 2 ^ (Memory.read s1.mem (D + 8) 1 % 32) →
      ∃ u, exec (.queueHeadAdvance (.eventQueue secure) head) s = .next u ∧ u = { s with mem := u.mem, evWait := u.evWait } ∧
        u.mem = ({ s1 with evWait := [] }.post secure r).mem ∧ u.evWait = s.evWait.filter fun x => x.1 != secure)) ∧
  (∀ (s : State) (area : BitVec 48) (head : BitVec 32), s.hole = false →
    let base := area.toNat
    let tail := Memory.read s.mem (base + 8) 4
    let n := 2 ^ (Memory.read s.mem (base + 16) 1 % 32)
    let slot := base + 64 + 64 * (tail % n)
    physOkN base 64 = true → physOkN base 4 = true →
    ((∀ x ∈ s.acctWait, x.1 ≠ base) → ∃ u, exec (.queueHeadAdvance (.accounting area) head) s = .next u ∧ u = { s with mem := u.mem } ∧
      Memory.read u.mem base 4 = head.toNat ∧ KeptOutside s.mem u.mem [(base, 4)]) ∧
    (∀ (r : W512) (g : Nat), s.acctWait = [(base, r, some g)] → (tail + 2 ^ 32 - head.toNat) % 2 ^ 32 < n → physOkN slot 64 = true →
      physOkN (base + 8) 4 = true → physOkN (stateAt s (s.grp g).recIdx) 1 = true → (s.cl (coreCluster (groupCore g))).mHolder = none →
      (stateAt s (s.grp g).recIdx < base ∨ slot + 64 ≤ stateAt s (s.grp g).recIdx) →
      ∃ u, exec (.queueHeadAdvance (.accounting area) head) s = .next u ∧ u.acctWait = [] ∧ (u.grp g).bound = false ∧ u.sp = s.sp ∧
        Memory.read u.mem base 4 = head.toNat ∧ Memory.read u.mem slot 64 = r.toNat ∧ Memory.read u.mem (base + 8) 4 = (tail + 1) % 2 ^ 32 ∧
        KeptOutside s.mem u.mem [(base, 4), (slot, 64), (base + 8, 4), (stateAt s (s.grp g).recIdx, 1)] ∧
        (∀ i ∈ groupLanes g, u.thr (tid g i) = Thread.blank) ∧ ∀ t, (∀ i ∈ groupLanes g, t ≠ tid g i) → u.thr t = s.thr t)) ∧
  (∀ (s : State) (rcb : BitVec 48) (r : W512) (head : BitVec 32), s.hole = false → let D := s.sys.launchq.toNat
    let old := Memory.read s.mem (D + 16) 4
    let slot := Memory.read s.mem D 6 + 64 * (old % 2 ^ (Memory.read s.mem (D + 8) 1 % 32))
    let field := fun (lo n : Nat) => r.extractLsb' lo n = 0
    physOkN D 64 = true → physOkN (D + 16) 4 = true →
    (s.launches = [] → exec (.queueHeadAdvance .launchQueue head) s = .next { s with mem := Memory.write s.mem (D + 16) 4 head.toNat }) ∧
    (s.launches = [(rcb, r)] → head.toNat = (old + 1) % 2 ^ 32 →
      ¬(field 384 128 ∧ field 324 28 ∧ field 240 16 ∧ field 176 16 ∧ field 112 16 ∧ field 48 16) → CanPost s false →
      ∃ u e, exec (.queueHeadAdvance .launchQueue head) s = .next u ∧ u.launches = [] ∧ u.evWait = (s.post false e).evWait ∧
        u.mem = Memory.write (s.post false e).mem (D + 16) 4 head.toNat ∧ e.extractLsb' 0 8 = 19#8 ∧ e.extractLsb' 64 48 = rcb ∧
        e.extractLsb' 256 64 = BitVec.ofNat 64 slot)) ∧
  (∀ (s s1 : State) (cl : BitVec 4) (q : BitVec 16) (p : Phys) (head : BitVec 32), s.hole = false → let c := cl.toNat
    let x := (s.cl c).res
    ((s.cl c).region ≠ none → q.toNat < x.gqcount.toNat → ∀ ty pl,
      s.translate (17 * c + 16) x Need.load (x.gqbase.toNat + 64 * q.toNat) = (s1, .fault ty pl) → s1.hole = false →
      exec (.queueHeadAdvance (.graphQueue cl q) head) s = .next { s1 with
        inputs := s1.inputs ++ [(s1.cycle + 1, .queueHeadAdvance (.graphQueue cl q) head)] }) ∧
    ((s.cl c).region ≠ none → q.toNat < x.gqcount.toNat → s.translate (17 * c + 16) x Need.load (x.gqbase.toNat + 64 * q.toNat) = (s1, .ok p) →
    s1.hole = false → (∀ i < 4, ∀ j < 4, i ≠ j → (p.add 12).at i ≠ (p.add 12).at j) → (∀ z ∈ s.sleepers, z.kind ≠ .reconv) →
    ((∀ z ∈ s.sleepers, ∀ l, z.kind ≠ .emit l) → ∃ u, exec (.queueHeadAdvance (.graphQueue cl q) head) s = .next u ∧
      u = { s with tlb := u.tlb, tabs := u.tabs, mem := u.mem, writes := u.writes, seq := u.seq, slices := u.slices } ∧
      (∀ j < 4, Memory.byte u.mem ((p.add 12).at j) = head.extractLsb' (8 * j) 8) ∧
      ∀ A, (∀ j < 4, A ≠ (p.add 12).at j) → Memory.byte u.mem A = Memory.byte s.mem A) ∧
    (∀ (z : Sleeper) (l : List (Nat × BitVec 16 × W512)) (s3 : State), z ∈ s.sleepers → z.kind = .emit l →
      (∀ y ∈ s.sleepers, ∀ k, y.kind = .emit k → y = z) → State.emitAll z.group l (s1.writePhys (200000 + c) (p.add 12)
        (leBytes head.toNat 4)) = (s3, [], []) → s3.hole = false → WaitsApart s3 →
      ∃ u, exec (.queueHeadAdvance (.graphQueue cl q) head) s = .next u ∧ u.mem = s3.mem ∧ u.sp = s3.sp ∧
        (∀ y ∈ u.sleepers, y.id ≠ z.id) ∧
        (∀ i ∈ lanesOf z.lanes, u.thr (tid z.group i) = State.endOf s3.cycle z.next (woken s3 z (s3.thr (tid z.group i)))) ∧
        ∀ t, (∀ i ∈ lanesOf z.lanes, t ≠ tid z.group i) → u.thr t = s3.thr t))) ∧
  (∀ (s s1 : State) (cl : BitVec 4) (q : BitVec 16) (p : Phys), let c := cl.toNat
    let x := (s.cl c).res
    let due := mget 0 (s.cl c).qtimers q.toNat
    s.hole = false →
    (due = 0 ∨ s.cycle < due → exec (.graphQueueTimeout cl q) s = .next s) ∧
    (due ≠ 0 → due ≤ s.cycle → (s.cl c).region ≠ none → q.toNat < x.gqcount.toNat →
      (∀ y, s.setCl c { s.cl c with qtimers := mset 0 (s.cl c).qtimers q.toNat 0 } = y →
        y.translate (17 * c + 16) x Need.load (x.gqbase.toNat + 64 * q.toNat) = (s1, .ok p)) →
      s1.hole = false → CanPost s1 false →
      ∃ u r, exec (.graphQueueTimeout cl q) s = .next u ∧ PostsOne s1 u false r ∧ r.extractLsb' 0 8 = 14#8 ∧ r.extractLsb' 8 4 = cl ∧
        r.extractLsb' 192 64 = q.setWidth 64 ∧ (s1.writes = [] → r.extractLsb' 256 64 = BitVec.ofNat 64 (
          (leVal ((List.range 4).map fun j => Memory.byte s1.mem (p.at (8 + j))) + 2 ^ 32 -
            leVal ((List.range 4).map fun j => Memory.byte s1.mem (p.at (12 + j)))) % 2 ^ 32)) ∧
        mget 0 (u.cl c).qtimers q.toNat = 0 ∧ u.sp = s.sp ∧ ∀ t, u.thr t = s.thr t))

namespace Sys2Proof.Slice0
open Machine

/-- A write of the retirement register that retires unit n of a kind (R437). -/
def RetireWrite (w : W64) (kind : BitVec 4) (n : Nat) : Prop :=
  w.getLsbD 31 = true ∧ w.extractLsb' 27 4 = kind ∧ (w.extractLsb' 12 15).toNat = n

/-- The cluster that a write of the retirement register names (R437). -/
def retireAt (w : W64) : Nat := (w.extractLsb' 0 4).toNat

/-- The state with bits 0 and 1 of `STATUS` set, and unit n of a kind of a cluster among the retired ones (R434, R437). -/
def retiring (s : State) (kind n c : Nat) : State :=
  { s with retired := mset false s.retired (2 ^ 19 * kind + 16 * n + c) true, sys := { s.sys with status := s.sys.status ||| 3#5 } }

/-- Only the value under one key of a map of flags changes, to true. -/
def Raised (m0 m1 : FMap Bool) (k : Nat) : Prop := mget false m1 k = true ∧ ∀ j, j ≠ k → mget false m1 j = mget false m0 j

/-- The packets of a cluster's routers that a test picks, with the queue of each. -/
def heldBy (s : State) (c : Nat) (bad : Pkt → Bool) : List (Nat × Pkt) :=
  [false, true].flatMap fun reply => (List.range 7).flatMap fun i => channels.flatMap fun v =>
    ((s.queueAt (inKey reply c i v)).filter bad).map fun p => (inKey reply c i v, p)

/-- What is left of an input's queue: a packet that is head only now is head from this cycle on, or from the one in which it arrives
(R327). -/
def leftIn (s : State) (k : Nat) : List Pkt → List Pkt
  | [] => []
  | q :: l => (if (s.queueAt k).head? = some q then q else { q with headAt := max q.due s.cycle }) :: l

/-- A packet has been discarded at a router: it left its queue, its transfer is over, and DISC counts it (R424, R425). -/
def Discarded (s u : State) (c k : Nat) (p : Pkt) (keep : List Pkt) : Prop :=
  u.queueAt k = leftIn s k keep ∧ (∀ j, j ≠ k → u.queueAt j = s.queueAt j) ∧ u.xfer p.xfer = none ∧
  mget 0 u.sys.disc c = mget 0 s.sys.disc c + 1 ∧ u.sp = s.sp

/-- A LINK IS MARKED DOWN and the packets bound for it are discarded (R424, R438): stated for none and for one. -/
def LinkFalls (s s0 : State) (i : Instr) (c d : Nat) : Prop :=
  (heldBy s c (fun p => p.out == d) = [] → ∃ u, exec i s = .next u ∧ u = { s0 with linksDown := u.linksDown } ∧
    Raised s.linksDown u.linksDown (8 * c + d)) ∧
  (∀ k p, heldBy s c (fun p => p.out == d) = [(k, p)] → CanPost s false → ∃ u, exec i s = .next u ∧
    Raised s.linksDown u.linksDown (8 * c + d) ∧ u.sys.status = s0.sys.status ∧
    Discarded s u c k p ((s.queueAt k).filter fun q => q.out != d))

/-- A PORT IS MARKED DOWN and the packets bound for it are discarded, its own buffers being empty (R424, R438): stated for none and for
one. -/
def PortFalls (s s0 : State) (i : Instr) (p : Nat) : Prop :=
  let b := (Config.portCluster p).toNat
  let held := heldBy s b fun q => q.out == 5 && s.portOf q == some p
  (∀ v < 8, mget [] s.portq (8 * p + v) = []) → (held = [] → ∃ u, exec i s = .next u ∧
      u = { s0 with portsDown := u.portsDown, portq := u.portq } ∧ Raised s.portsDown u.portsDown p ∧
      ∀ k, mget [] u.portq k = mget [] s.portq k) ∧
    ∀ k q, held = [(k, q)] → CanPost s false → ∃ u, exec i s = .next u ∧ Raised s.portsDown u.portsDown p ∧
      Discarded s u b k q ((s.queueAt k).filter fun q => !(q.out == 5 && s.portOf q == some p)) ∧ u.sys.status = s0.sys.status

/-- The body of a well-formed image whose signature verifies (R433). -/
def GoodImage (f body : List Byte) : Prop :=
  let n := leVal ((f.drop 8).take 8)
  f.take 4 = [0x49#8, 0x4E#8, 0x4C#8, 0x4F#8] ∧ f.length = 24 + n + 2820 ∧
  xmssVerify ((List.range 64).map Config.romKey) (f.take (24 + n)) (f.drop (24 + n)) = true ∧ body = (f.drop 24).take n

end Sys2Proof.Slice0

/-- R424, R432–R434, R437, R438, R440: a write of the retirement register sets bits 0 and 1 of `STATUS` and takes the unit it names out of
service: a course, whose queued operation fails with "checksum", a core when no group is bound to it, a pseudo-channel with the upper half
of its share, a link or port, whose packets are discarded, a cluster. A device reset boots the first image that verifies, or sets bit 3. A quote carries the nonce, the
hashes and `STATUS`. A thermal trip stops the die, ends its fault domain and sets bit 4.
Where the spec leaves a point open it follows the model's choice: log entries 8, 69, 70, 71 and 85. -/
def Obligations.ServiceAndReset : Prop :=
  (∀ (s : State) (w : W64), s.hole = false →
    let c := retireAt w
    (∀ e ∈ [(Instr.retireCourse w, 0#4), (.retireCore w, 1#4), (.retirePseudoChannel w, 2#4), (.retireLink w, 3#4), (.retirePort w, 4#4),
      (.retireCluster w, 5#4)], (w.getLsbD 31 = false ∨ w.extractLsb' 27 4 ≠ e.2) → exec e.1 s = .next s) ∧
    (∀ n < 8, RetireWrite w 0 n → let k := 8 * c + n
      let x := { s.course k with retired := true }
      (x.ops = [] → ∃ u, exec (.retireCourse w) s = .next u ∧ u = { retiring s 0 n c with courses := u.courses } ∧ u.course k = x ∧
        ∀ j, j ≠ k → u.course j = s.course j) ∧
      (∀ o, x.ops = [o] → Quiet s → Lone s k → (∀ y ∈ s.ops, y.id = o.id → OneOfBow y.group y.lanes) →
        HarpFails s (.retireCourse w) k o.id { x with ops := [] } 0 0 1)) ∧
    (∀ n < 16, RetireWrite w 1 n → let k := 17 * c + n
      ∃ u, exec (.retireCore w) s = .next u ∧ u = { retiring s 1 n c with coresHeld := u.coresHeld, coresGone := u.coresGone } ∧
        ((∀ e ∈ s.groups, e.1 / 16 = k → e.2.bound = false) → mget false u.coresGone k = true ∧ k ∉ u.coresHeld) ∧
        ((∃ e ∈ s.groups, e.1 / 16 = k ∧ e.2.bound = true) → mget false s.coresGone k = false →
          mget false u.coresGone k = false ∧ k ∈ u.coresHeld)) ∧
    (∀ n < 64, RetireWrite w 2 n → ∃ u, exec (.retirePseudoChannel w) s = .next u ∧
      u = { retiring s 2 n c with slices := u.slices, mem := u.mem, writes := u.writes } ∧
      u.slice c = { s.slice c with gone := (u.slice c).gone } ∧ Raised (s.slice c).gone (u.slice c).gone n ∧
      (∀ d, d ≠ c → u.slice d = s.slice d) ∧ let lo := c * 0x0C00000000 + 12288 * 0x200000
      ∀ A, Memory.byte u.mem A = if lo ≤ A ∧ A < (c + 1) * 0x0C00000000 then 0 else Memory.byte s.mem A) ∧
    (∀ d, 1 ≤ d → d ≤ 4 → RetireWrite w 3 d → LinkFalls s (retiring s 3 d c) (.retireLink w) c d) ∧
    (∀ p < 28, RetireWrite w 4 p → PortFalls s (retiring s 4 p 0) (.retirePort w) p) ∧
    ((w.getLsbD 31 = true ∧ w.extractLsb' 27 4 = 5#4) → ∃ u, exec (.retireCluster w) s = .next u ∧
      u = { retiring s 5 0 c with clusters := u.clusters } ∧ u.cl c = { s.cl c with retired := true } ∧ ∀ d, d ≠ c → u.cl d = s.cl d)) ∧
  (∀ (s : State) (cl : BitVec 4) (d : BitVec 5), s.hole = false →
    (d = 0 ∨ 5 ≤ d.toNat → exec (.linkDown (some cl) d) s = .next s) ∧
    (1 ≤ d.toNat → d.toNat ≤ 4 → LinkFalls s s (.linkDown (some cl) d) cl.toNat d.toNat) ∧
    (28 ≤ d.toNat → exec (.linkDown none d) s = .next s) ∧ (d.toNat < 28 → PortFalls s s (.linkDown none d) d.toNat)) ∧
  (∀ (s : State) (ports : List (List Byte)) (mailbox : List Byte), s.hole = false →
    let all := ports.filter (fun f => f.length ≠ 0) ++ [mailbox]
    ((∀ f ∈ all, ∀ b, ¬GoodImage f b) → ∃ u, exec (.deviceReset ports mailbox) s = .next u ∧ u.boot.released = false ∧
      u = { State.reset with
        mem := s.mem, edited := s.edited, nextId := u.nextId, draw := u.draw, seq := u.seq, agenda := u.agenda, inputs := u.inputs
        boot := u.boot
        sys := { SysRegs.reset with status := 8#5 } }) ∧
    (∀ pre f post body, all = pre ++ f :: post → (∀ g ∈ pre, ∀ b, ¬GoodImage g b) → GoodImage f body →
      (∀ r ∈ Config.bootRegisters body, r.1 ≠ 0x021 ∧ r.1 ≠ 0x080) → ∃ u, exec (.deviceReset ports mailbox) s = .next u ∧
      u.boot.released = true ∧ u.boot.version.toNat = leVal ((f.drop 16).take 8) ∧
      u.boot.imgHash = BitVec.ofNat 256 (leVal (shake256 (f.take (24 + leVal ((f.drop 8).take 8))))) ∧ u.threads = [] ∧ u.groups = [] ∧ u.regions = [] ∧
      u.sp = [] ∧ u.world = [] ∧ u.cycle = 0 ∧
      u.sys = { ((Config.bootRegisters body).foldl (fun y r => regWritten y true r.1 r.2) SysRegs.reset) with status := 4#5 } ∧
      ∀ A, (∀ e ∈ Config.bootMemory body, e.1 ≠ A) → (∀ e ∈ Config.bootWorldTable body, u.sys.wtbase.toNat + e.1 ≠ A) →
        Memory.byte u.mem A = Memory.byte s.mem A)) ∧
  (∀ (s : State) (nonce : W256), s.hole = false → ∃ q, exec (.attestationQuote nonce) s =
      .next { s with boot := { s.boot with quotes := s.boot.quotes ++ [q] } } ∧
    leVal (q.take 32) = nonce.toNat ∧ leVal ((q.drop 32).take 32) = s.boot.imgHash.toNat ∧
    (q.drop 64).take 32 = shake256 s.configBytes ∧ (q.drop 96).take 32 = shake256 s.degradedBytes ∧
    leVal ((q.drop 128).take 8) = s.sys.status.toNat ∧ leVal ((q.drop 136).take 8) = s.boot.version.toNat ∧
    q.drop 144 = Config.quoteKey s.boot.boots ++ Config.quoteSign s.boot.boots (q.take 144)) ∧
  (∀ (s : State) (die : BitVec 2), s.hole = false →
    let on := fun (c : Nat) => c < 16 ∧ c / 8 = die.toNat / 2 ∧ c % 4 / 2 = die.toNat % 2
    ∃ s1, s1 = { s with clusters := s1.clusters } ∧ (∀ c, on c → s1.cl c = { s.cl c with stopped := true }) ∧
      (∀ c, ¬on c → s1.cl c = s.cl c) ∧
      ((∀ x ∈ s.regions, ∀ c ∈ x.clusters, ¬on c) →
        exec (.thermalTrip die) s = .next { s1 with sys := { s1.sys with status := s1.sys.status ||| 0x10#5 } }) ∧
      ∀ (f : BitVec 16) (v : State), (∃ x ∈ s.regions, ∃ c ∈ x.clusters, on c) →
        (∀ x ∈ s.regions, (∃ c ∈ x.clusters, on c) → (s.cl (x.clusters.headD 0)).res.fdom = f) →
        exec (.killPort (f.setWidth 64)) s1 = .next v →
        exec (.thermalTrip die) s = .next { v with sys := { v.sys with status := v.sys.status ||| 0x10#5 } })

/-- R409, R413, R414, R417–R419, R421: a slice's own steps. `UKIND` gives a unit its kind and zeroes its bytes; a rehash starts by request or at
the threshold, moves its watermark unit by unit and ends with the new version; a window keeps its highest count; a spare copy starts, goes on
column by column and ends in a remapped row or in failure; a refresh pays one; the scrubber reads a burst once in its period, records an
uncorrectable burst and posts it, and posts a burst corrected in two consecutive periods. A non-secure core changes no unit of secure or
locked granules.
Where the spec leaves a point open it follows the model's choice: log entries 25, 67 and 68. -/
def Obligations.Slices : Prop :=
  ∀ (s : State) (mc : BitVec 2) (cl : BitVec 4) (w : W64), s.hole = false →
    let c := cl.toNat
    let x := s.slice c
    let becomes := fun (i : Instr) (y : Slice) => ∃ u, exec i s = .next u ∧ SliceBecomes s u c y
    let share := c * 0x0C00000000
    let secure := mc = 0 ∨ (mget 0 s.world (0x5D + mc.toNat)).getLsbD 0 = true
    (let n := (w.extractLsb' 0 15).toNat
      let a := share + n * 0x200000
      let units := if x.gone.any (·.2) then 12288 else 24576
      (units ≤ n ∨ (¬secure ∧ s.granule a ≠ 0) → exec (.ukind mc cl w) s = .next s) ∧
      (n < units → (secure ∨ s.granule a = 0) → ∃ u, exec (.ukind mc cl w) s = .next u ∧
        u = { s with mem := u.mem, slices := u.slices, writes := u.writes } ∧
        u.slice c = { x with ukind := (u.slice c).ukind } ∧ mget 0 (u.slice c).ukind n = w.extractLsb' 16 2 ∧
        (∀ k, k ≠ n → mget 0 (u.slice c).ukind k = mget 0 x.ukind k) ∧ (∀ d, d ≠ c → u.slice d = s.slice d) ∧
        ∀ A, Memory.byte u.mem A = if a ≤ A ∧ A < a + 0x200000 then 0 else Memory.byte s.mem A)) ∧
    (let y := { x with thresh := w.extractLsb' 16 16, auto := w.getLsbD 7 };
      becomes (.hashReq mc cl w)
        (if w.getLsbD 11 ∧ x.busy = false then { y with busy := true, next := w.extractLsb' 8 3, wm := 0 } else y)) ∧
    (let starts := x.auto = true ∧ x.busy = false ∧ ∃ k ∈ x.counts, x.thresh.toNat ≤ k.2;
      (starts → becomes (.rehashThreshold cl) { x with busy := true, next := x.ver + 1, wm := 0 }) ∧
      (¬starts → exec (.rehashThreshold cl) s = .next s)) ∧
    ((x.busy = false → exec (.rehashUnitMove cl) s = .next s) ∧
      (x.busy = true → x.wm + 1 < 24576 → becomes (.rehashUnitMove cl) { x with wm := x.wm + 1 }) ∧
      (x.busy = true → 24575 ≤ x.wm → becomes (.rehashUnitMove cl) { x with wm := 24576, ver := x.next, busy := false })) ∧
    ((s.cycle / 2 ^ 20 = x.window → exec (.conflictWindow cl) s = .next s) ∧
      (s.cycle / 2 ^ 20 ≠ x.window → ∃ b n y, becomes (.conflictWindow cl)
          { y with window := s.cycle / 2 ^ 20, counts := [], conflBank := BitVec.ofNat 10 b, conflCount := BitVec.ofNat 16 (min n 65535) } ∧
        (let starts := x.auto = true ∧ x.busy = false ∧ ∃ k ∈ x.counts, x.thresh.toNat ≤ k.2;
          (starts → y = { x with busy := true, next := x.ver + 1, wm := 0 }) ∧ (¬starts → y = x)) ∧
        (∀ k ∈ x.counts, k.2 ≤ n) ∧ (n = 0 ∨ (b, n) ∈ x.counts))) ∧
    (let row := (w.extractLsb' 0 16).toNat
      let open_ := secure ∨ s.granule (share + row / 2 * 0x200000) = 0
      let y := { x with spIdx := w.extractLsb' 28 4, spPc := w.extractLsb' 20 6, spBank := w.extractLsb' 16 4, spRow := w.extractLsb' 0 16 }
      let key := 16 * (16 * y.spPc.toNat + y.spBank.toNat) + y.spIdx.toNat
      (¬open_ → exec (.spareGo mc cl w) s = .next s) ∧
      (open_ → (w.getLsbD 32 = false ∨ x.spState = 1 ∨ 49152 ≤ row → becomes (.spareGo mc cl w) y) ∧
        (w.getLsbD 32 = true → x.spState ≠ 1 → row < 49152 → becomes (.spareGo mc cl w)
          (if mget 0 x.spares key = 0 then { y with spDone := 0, spState := 1, spJob := (key, row) } else { y with spDone := 0, spState := 3 })))) ∧
    (let key := x.spJob.1
      let bad := ∃ l ∈ s.latent, l.code = 7 ∧ share ≤ 32 * l.place ∧ 32 * l.place < share + 0x0C00000000 ∧
        let y := x.decode (32 * l.place - share)
        y.pc = key / 256 ∧ y.bank = key / 16 % 16 ∧ y.row = x.spJob.2 ∧ y.column = x.spDone.toNat
      (x.spState ≠ 1 → exec (.spareRemap cl) s = .next s) ∧
      (x.spState = 1 → bad → becomes (.spareRemap cl) { x with spState := 3 }) ∧
      (x.spState = 1 → ¬bad → (x.spDone ≠ 31 → becomes (.spareRemap cl) { x with spDone := x.spDone + 1 }) ∧
        (x.spDone = 31 → ∃ y, becomes (.spareRemap cl) { x with spState := 2, spares := y } ∧ mget 0 y key = x.spJob.2 + 1 ∧
          ∀ k, k ≠ key → mget 0 y k = mget 0 x.spares k))) ∧
    (∀ (pc : BitVec 6) (bank : BitVec 4), let k := 16 * pc.toNat + bank.toNat
      let owed := fun (y : Slice) (j : Nat) => s.cycle / 14040 - mget 0 y.paid j;
      (owed x k = 0 → exec (.refresh cl pc bank) s = .next s) ∧
      (owed x k ≠ 0 → ∃ y, becomes (.refresh cl pc bank) { x with paid := y.paid } ∧ owed y k = min (owed x k - 1) 7 ∧
        ∀ j, j ≠ k → mget 0 y.paid j = mget 0 x.paid j)) ∧
    (∀ (tier : Bool) (b : Nat), b < (if tier then 0xC0000000 else 0x60000000) →
      let pa := if tier then 0x10000000000 + c * 0x1800000000 + 32 * b else share + 32 * b
      let code := if tier then 8#8 else 7#8
      let key := 2 * b + (if tier then 1 else 0)
      let bad : Latent := ⟨code, pa / 32⟩
      let q := decide (s.granule pa ≠ 0)
      let n := s.cycle / (2 ^ 20 * x.scrubPeriod.toNat) + 1
      let only := fun (m0 m1 : FMap Nat) => mget 0 m1 key = n ∧ ∀ k, k ≠ key → mget 0 m1 k = mget 0 m0 k
      let posted := fun (u : State) => ∃ r, PostsOne s u q r ∧ r.extractLsb' 0 8 = 18#8 ∧ r.extractLsb' 8 4 = cl ∧
        r.extractLsb' 192 8 = code ∧ r.extractLsb' 256 64 = BitVec.ofNat 64 pa
      let read := fun (y : Slice) => y = { x with scrubbed := y.scrubbed } ∧ only x.scrubbed y.scrubbed
      let mended := fun (y : Slice) => y = { x with scrubbed := y.scrubbed, corrected := y.corrected } ∧ only x.scrubbed y.scrubbed ∧
        only x.corrected y.corrected
      (x.scrubEn = false ∨ mget 0 x.scrubbed key = n → ∀ f, exec (.scrub cl tier b f) s = .next s) ∧
      (x.scrubEn = true → mget 0 x.scrubbed key ≠ n →
        (bad ∈ s.latent → exec (.scrub cl tier b .clean) s = .next s ∧ exec (.scrub cl tier b .corrected) s = .next s) ∧
        (bad ∉ s.latent →
          (∃ y, becomes (.scrub cl tier b .clean) y ∧ read y) ∧
          (mget 0 x.corrected key + 1 ≠ n → ∃ y, becomes (.scrub cl tier b .corrected) y ∧ mended y) ∧
          (mget 0 x.corrected key + 1 = n → CanPost s q → ∃ u, exec (.scrub cl tier b .corrected) s = .next u ∧ posted u ∧
            mended (u.slice c) ∧ (∀ d, d ≠ c → u.slice d = s.slice d) ∧ u.latent = s.latent)) ∧
        (CanPost s q → ∃ u, exec (.scrub cl tier b .uncorrectable) s = .next u ∧ posted u ∧ read (u.slice c) ∧
          (∀ d, d ≠ c → u.slice d = s.slice d) ∧ (∀ l, l ∈ u.latent ↔ l ∈ s.latent ∨ l = bad) ∧
          u = { s with mem := u.mem, evWait := u.evWait, latent := u.latent, slices := u.slices })))

namespace Sys2Proof.Slice0
open Machine

/-- The deficits by which a channel is chosen: the counters, or all weights when no channel with a candidate has any left (R327). -/
def deficitOf (s : State) (a : Arb) (cand : List (Nat × TClass × Pkt)) (v : TClass) : Nat :=
  if ∃ h ∈ cand, 0 < mget 0 a.deficit h.2.1.code.toNat then mget 0 a.deficit v.code.toNat
  else (s.sys.arbw.toNat >>> (4 * v.code.toNat)) % 16

/-- Whether a head has reached the threshold of promotion (R327). -/
def Promoted (s : State) (p : Pkt) : Prop := (s.sys.arbw.extractLsb' 16 10).toNat ≤ s.ageOf p

/-- THE GRANT of a free output among its candidates, and the arbiter after it (R327). -/
def Grants (s : State) (a : Arb) (cand : List (Nat × TClass × Pkt)) (h : Nat × TClass × Pkt) (b : Arb) : Prop :=
  let D := deficitOf s a cand
  let v := h.2.1.code.toNat
  h ∈ cand ∧
  ((∃ x ∈ cand, Promoted s x.2.2) → Promoted s h.2.2 ∧ b = a ∧ ∀ x ∈ cand, Promoted s x.2.2 → s.ageOf x.2.2 < s.ageOf h.2.2 ∨
    (s.ageOf x.2.2 = s.ageOf h.2.2 ∧ (h.1 < x.1 ∨ h.1 = x.1 ∧ v ≤ x.2.1.code.toNat))) ∧
  ((∀ x ∈ cand, ¬Promoted s x.2.2) → ∃ j < 4, ∃ m < 7, v = (a.chan + j) % 4 ∧ 0 < D h.2.1 ∧
    (∀ i < j, ∀ x ∈ cand, x.2.1.code.toNat = (a.chan + i) % 4 → D x.2.1 = 0) ∧ h.1 = (mget 0 a.inputs v + 1 + m) % 7 ∧
    (∀ i < m, ∀ x ∈ cand, x.2.1 = h.2.1 → x.1 ≠ (mget 0 a.inputs v + 1 + i) % 7) ∧
    b.chan = v ∧ mget 0 b.inputs v = h.1 ∧ mget 0 b.deficit v = D h.2.1 - 1)

/-- WHERE A GRANTED PACKET GOES: it ejects at the cluster, joins the queue of the next router two cycles and the link's latency later with the
return hop recorded, or enters the port that its escape names (R318, R319, R326). -/
def Crossed (s u : State) (reply : Bool) (c o i : Nat) (p : Pkt) : Prop :=
  let k := inKey reply c i p.vc
  u.queueAt k = leftIn s k (s.queueAt k).tail ∧
  (o = 0 → (∀ j, j ≠ k → u.queueAt j = s.queueAt j) ∧ u = { s with
    routers := u.routers, arbs := u.arbs
    xfers := s.xfers.map fun x => if x.id ≠ p.xfer then x
      else if p.reply then { x with pos := .back } else { x with pos := .arrived, cluster := c, back := p.back } }) ∧
  (∀ b, meshStep c o = some b → let due := s.cycle + 2 + (Config.linkLat c o).toNat
    let n := inKey reply b (dirOpp o) p.vc
    u = { s with routers := u.routers, arbs := u.arbs } ∧ u.queueAt n = s.queueAt n ++ [{ p with
      syms := p.syms.tail, back := BitVec.ofNat 4 (dirOpp o) :: p.back, due := due, headAt := due, promoted := false }] ∧
    ∀ j, j ≠ k → j ≠ n → u.queueAt j = s.queueAt j) ∧
  (o = 5 → (∀ j, j ≠ k → u.queueAt j = s.queueAt j) ∧
    (∀ a b l, p.syms = 5#4 :: a :: b :: l → let n := escNum a.toNat b.toNat
      (s.portDown n = true → u.xfer p.xfer = none ∧ mget 0 u.sys.disc c = mget 0 s.sys.disc c + 1) ∧
      (s.portDown n = false → u = { s with routers := u.routers, arbs := u.arbs, portq := u.portq } ∧
        let b := 8 * n + (if p.reply then 4 else 0) + p.vc.code.toNat
        mget [] u.portq b = mget [] s.portq b ++ [{ p with syms := l, headAt := s.cycle }])) ∧
    (∀ a b l, p.syms = 7#4 :: a :: b :: l → u.xfer p.xfer = none))

/-- The direction of the sluice's phase in a cycle (R328). -/
def Phase (cycle d : Nat) : Prop :=
  (cycle % 65536 = 24 ∧ d = 2) ∨ (cycle % 65536 = 80 ∧ d = 3) ∨ (cycle % 65536 = 136 ∧ d = 4) ∨ (cycle % 65536 = 192 ∧ d = 1)

/-- The packet leaves the module: of a request of this module the transfer is away, any other transfer is over (R331). -/
def Leaves (s u : State) (p : Pkt) : Prop :=
  ∀ x, s.xfer p.xfer = some x →
    (x.foreign = true ∨ p.reply = true → u.xfers = s.xfers.filter fun y => y.id != p.xfer) ∧
    (x.foreign = false → p.reply = false → u.xfers = s.xfers.map fun y => if y.id = p.xfer then { y with pos := .away } else y)

end Sys2Proof.Slice0

/-- R319, R326–R328, R422–R424, R426: ROUTER_GRANT of a free output outside the drain window grants one head by age, deficits and the pointers,
and the packet crosses; where only channels of weight 0 wait, the deficits are refilled and nothing is granted; nothing is granted in the window, or without a candidate, and a head whose link is down is discarded. SLUICE moves a
head of each link of the phase into the drain slot downstream, picked at the start of the phase, and at the end drained packets head their
inputs. NDONAR_DRAIN, once in 65,536 cycles, sends a port's waiting packet on and lets in the drained ones.
Where the spec leaves a point open it follows the model's choice: log entries 49, 50, 51 and 52. -/
def Obligations.Routers : Prop :=
  (∀ (s : State) (reply : Bool) (cl : BitVec 4) (out : BitVec 3), s.hole = false →
    let c := cl.toNat
    let o := out.toNat
    let heads := (s.headsAt reply c).filter fun h => h.2.2.out == o
    let cand := heads.filter fun h => if o = 5 then
        (match s.portOf h.2.2 with
          | some p => decide (24 ≤ p) || s.portDown p || decide (h.2.2.flits + flitSum (mget [] s.portq (8 * p + (if reply then 4 else 0) +
              h.2.1.code.toNat)) [] ≤ if reply then 16 else 32)
          | none => true)
      else !s.stopped reply c o h.2.1
    let a := mget Arb.reset s.arbs (slotKey reply c o)
    let open_ := ¬s.cycle % 65536 < 256 ∧ o < 6
    (o = 5 → ∀ p < 24, (Config.portCluster p).toNat = c → ∀ v < 8, mget [] s.portq (8 * p + v) = []) →
    (¬open_ → exec (.routerGrant reply cl out) s = .next s) ∧
    (open_ → 1 ≤ o → o ≤ 4 → s.linkDown c o = true → (heads = [] → exec (.routerGrant reply cl out) s = .next s) ∧
      ∀ i v p, heads = [(i, v, p)] → CanPost s false → ∃ u, exec (.routerGrant reply cl out) s = .next u ∧
        Discarded s u c (inKey reply c i v) p (s.queueAt (inKey reply c i v)).tail) ∧
    (open_ → (1 ≤ o → o ≤ 4 → s.linkDown c o = false) → (s.cycle < a.busy ∨ cand = [] → exec (.routerGrant reply cl out) s = .next s) ∧
      (a.busy ≤ s.cycle → cand ≠ [] → (∀ h ∈ cand, ¬Promoted s h.2.2 ∧ deficitOf s a cand h.2.1 = 0) →
        ∃ u, exec (.routerGrant reply cl out) s = .next u ∧ u = { s with arbs := u.arbs } ∧
          let b := mget Arb.reset u.arbs (slotKey reply c o)
          b = { a with deficit := b.deficit } ∧ ∀ v < 4, mget 0 b.deficit v = (s.sys.arbw.toNat >>> (4 * v)) % 16) ∧
      (a.busy ≤ s.cycle → CanPost s false → (∀ h ∈ cand, h.2.1 = h.2.2.vc ∧ (1 ≤ o → o ≤ 4 → ∃ b, meshStep c o = some b) ∧
          ∀ e ∈ s.latent, e.code = 6 → e.place ≠ h.2.2.xfer) →
        ((∃ h ∈ cand, Promoted s h.2.2) ∨ ∃ h ∈ cand, 0 < deficitOf s a cand h.2.1) →
        ∃ u h b, exec (.routerGrant reply cl out) s = .next u ∧ Grants s a cand h b ∧
          mget Arb.reset u.arbs (slotKey reply c o) = { b with busy := s.cycle + h.2.2.flits } ∧ Crossed s u reply c o h.1 h.2.2))) ∧
  (∀ (s : State), s.hole = false →
    ((∀ d, ¬Phase s.cycle d) → s.cycle % 65536 ≠ 248 → exec .sluice s = .next s) ∧
    (∀ (d c i b : Nat) (reply : Bool) (v : TClass) (p : Pkt) (l : List Pkt), Phase s.cycle d → c < 16 → i < 7 → meshStep c d = some b →
      s.linkDown c d = false → (s.cl c).stopped = false → (s.cl b).stopped = false → (∀ k, s.drainAt k = none) → let key := inKey reply c i v
      s.queueAt key = p :: l → p.vc = v → p.out = d → p.due ≤ s.cycle → (∀ k, k ≠ key → s.queueAt k = []) →
      ∃ u, exec .sluice s = .next u ∧ u.queueAt key = leftIn s key l ∧ (∀ k, k ≠ key → u.queueAt k = []) ∧
        u.drainAt (slotKey reply b (dirOpp d)) = some { p with
          syms := p.syms.tail, back := BitVec.ofNat 4 (dirOpp d) :: p.back, due := s.cycle, promoted := true } ∧
        (∀ k, k ≠ slotKey reply b (dirOpp d) → u.drainAt k = none) ∧
        (reply = false → mget 0 u.sys.drainq c = mget 0 s.sys.drainq c + 1) ∧ (reply = true → mget 0 u.sys.drainp c = mget 0 s.sys.drainp c + 1)) ∧
    (∀ (c i : Nat) (reply : Bool) (p : Pkt), s.cycle % 65536 = 248 → c < 16 → i < 7 → s.drainAt (slotKey reply c i) = some p →
      (∀ k, k ≠ slotKey reply c i → s.drainAt k = none) → let key := inKey reply c i p.vc
      ∃ u, exec .sluice s = .next u ∧ u = { s with drains := u.drains, routers := u.routers } ∧ (∀ k, u.drainAt k = none) ∧
        u.queueAt key = { p with headAt := s.cycle } :: s.queueAt key ∧ ∀ k, k ≠ key → u.queueAt k = s.queueAt k)) ∧
  (∀ (s : State) (port : BitVec 5), s.hole = false →
    let n := port.toNat
    let c := (Config.portCluster n).toNat
    let last := mget 0 s.portLast n
    let done := fun (u : State) => mget 0 u.portLast n = s.cycle + 1 ∧ ∀ j, j ≠ n → mget 0 u.portLast j = mget 0 s.portLast j
    (24 ≤ n ∨ (last ≠ 0 ∧ s.cycle + 1 < last + 65536) → exec (.ndonarDrain port) s = .next s) ∧
    (∀ (reply : Bool) (v : TClass) (p : Pkt) (l : List Pkt), n < 24 → last = 0 ∨ last + 65536 ≤ s.cycle + 1 →
      let k := 8 * n + (if reply then 4 else 0) + v.code.toNat
      (∀ w < 8, mget none s.portDrain (8 * n + w) = none) → mget [] s.portq k = p :: l →
      (∀ w < 8, 8 * n + w ≠ k → mget [] s.portq (8 * n + w) = []) →
      ∃ u, exec (.ndonarDrain port) s = .next u ∧ u = { s with portq := u.portq, xfers := u.xfers, portLast := u.portLast } ∧ done u ∧
        mget [] u.portq k = l ∧ (∀ j, j ≠ k → mget [] u.portq j = mget [] s.portq j) ∧ Leaves s u p) ∧
    (∀ (reply : Bool) (v : TClass) (p : Pkt), n < 24 → last = 0 ∨ last + 65536 ≤ s.cycle + 1 →
      let k := 8 * n + (if reply then 4 else 0) + v.code.toNat
      (∀ w < 8, mget [] s.portq (8 * n + w) = []) → mget none s.portDrain k = some p →
      (∀ w < 8, 8 * n + w ≠ k → mget none s.portDrain (8 * n + w) = none) → let key := inKey reply c 5 v
      ∃ u, exec (.ndonarDrain port) s = .next u ∧ u = { s with portDrain := u.portDrain, routers := u.routers, portLast := u.portLast } ∧
        done u ∧ mget none u.portDrain k = none ∧ u.queueAt key = { p with promoted := true, headAt := s.cycle } :: s.queueAt key ∧
        ∀ j, j ≠ key → u.queueAt j = s.queueAt j))

namespace Sys2Proof.Slice0
open Machine

/-- What a lane of a transfer receives when it ends with a status: a write's status register the status, a read's destination the data that
the lane was given, or zero when the status is not 0 (R331, R333). -/
def received (x : Xfer) (st : BitVec 8) (i : Nat) : List (RegId × RVal) :=
  match x.dst, x.write with
  | none, _ => []
  | some (.g r), true => [(.g r, .w (st.setWidth 64))]
  | some (.v _), true => []
  | some d, false => loadWrites x.ty d (if st = 0 then leVal (((x.data.find? fun e => e.1 == i).map (·.2)).getD []) else 0)

/-- A thread in which the writes of an operation have taken their values (R161). -/
def filled (op : Nat) (w : List (RegId × RVal)) (x : Thread) : Thread :=
  { x with pend := x.pend.map fun e => if e.op = op then { e with val := ((w.filter fun y => y.1 == e.reg).map (·.2)).headD e.val } else e }

/-- No transfer waits for what a release waits for (R334). -/
def NoneHeld (s : State) : Prop := ∀ x ∈ s.xfers, x.pos ≠ .held

/-- A TRANSFER ENDS WITH A STATUS (R331): its lanes receive it, the word's operation is done with its last packet, and status 2 or 3 is
reported. What it wrote is known to a later XFENCE of the lanes (R339). `keep` is its time-out: its place is kept, so that a late reply is
known. -/
def XferEnds (s u : State) (x : Xfer) (st : BitVec 8) (keep : Bool) : Prop :=
  let live := x.foreign = false ∧ x.late = false ∧ ∃ o ∈ s.ops, o.id = x.op
  u = { s with xfers := u.xfers, threads := u.threads, ops := u.ops, mem := u.mem, evWait := u.evWait, writes := u.writes } ∧
  (¬(live ∧ x.write = true) → u.writes = s.writes) ∧
  (live → x.write = true → u.writes = ((lanesOf x.pmask).foldl (fun v i => v.pass (.op x.id) (State.sentBy (tid x.group i)) []) s).writes) ∧
  u.xfers = (if keep then s.xfers.map (fun y => if y.id = x.id then { y with late := true } else y) else s.xfers.filter fun y => y.id != x.id) ∧
  (¬live → u.threads = s.threads ∧ u.ops = s.ops ∧ u.mem = s.mem ∧ u.evWait = s.evWait) ∧
  (live → (∀ i ∈ lanesOf x.pmask, u.thr (tid x.group i) = filled x.op (received x st i) (s.thr (tid x.group i))) ∧
    (∀ t, (∀ i ∈ lanesOf x.pmask, t ≠ tid x.group i) → u.thr t = s.thr t) ∧
    ((∃ y ∈ u.xfers, y.op = x.op ∧ y.late = false) → u.ops = s.ops) ∧
    ((∀ y ∈ u.xfers, y.op = x.op → y.late = true) → u.ops = s.ops.map fun o => if o.id = x.op then { o with done := true } else o) ∧
    (st ≠ 2 → st ≠ 3 → u.mem = s.mem ∧ u.evWait = s.evWait) ∧
    (st = 2 ∨ st = 3 → ∃ r, PostsOne s u false r ∧ r.extractLsb' 0 8 = 7#8 ∧ r.extractLsb' 192 32 = x.pmask ∧ r.extractLsb' 224 8 = st ∧
      r.extractLsb' 320 128 = x.route))

/-- The route of a reply (R319). -/
def replyRoute (x : Xfer) : List (BitVec 4) := x.back ++ [0#4]

/-- The route of a reply passes its check at live state (R321). -/
def ReplyRouteGood (s : State) (x : Xfer) : Prop := s.restOk x.cluster 0 ((replyRoute x).map (·.toNat)) = true

/-- A reply need not wait: nobody awaits it, or its route fails its check, or a reply input has room (R319, R321, R422). -/
def CanReply (s : State) (x : Xfer) : Prop :=
  x.posted = true ∨ ¬ReplyRouteGood s x ∨ x.repFlits ≤ s.freeFlits true x.cluster 0 x.tc ∨ x.repFlits ≤ s.freeFlits true x.cluster 6 x.tc

/-- A destination accepts a transfer: it was not refused at an ingress, and its region holds the places of its lanes (R54, R427). -/
def Accepted (s : State) (x : Xfer) : Prop :=
  x.status = 0 ∧ ∀ l ∈ x.lanes, match l.place with
    | some (.sp _) => (s.cl x.cluster).region = some x.rcb
    | some _ => True
    | none => False

/-- A reply has been sent by the reply input with more free space, ties to input 0, and its transfer is on its way back, changed by f; a
transfer that nobody awaits is over; a reply whose route fails its check is discarded, and the source's transfer waits for its time-out
(R319, R321, R422). -/
def Replied (s u : State) (x : Xfer) (f : Xfer → Xfer) : Prop :=
  (x.posted = true ∨ (x.foreign = true ∧ ¬ReplyRouteGood s x) → u.xfers = s.xfers.filter (fun y => y.id != x.id) ∧ u.routers = s.routers) ∧
  (x.posted = false → x.foreign = false → ¬ReplyRouteGood s x →
    u.xfers = s.xfers.map (fun y => if y.id = x.id then f { y with pos := .lost } else y) ∧ u.routers = s.routers) ∧
  (x.posted = false → ReplyRouteGood s x → u.xfers = s.xfers.map (fun y => if y.id = x.id then f { y with pos := .returning } else y) ∧
    let i := if s.freeFlits true x.cluster 0 x.tc < s.freeFlits true x.cluster 6 x.tc then 6 else 0
    let k := inKey true x.cluster i x.tc
    u.queueAt k = s.queueAt k ++ [⟨x.id, true, replyRoute x, [], x.tc, x.repFlits, s.cycle, s.cycle, false⟩] ∧
    ∀ j, j ≠ k → u.queueAt j = s.queueAt j)

/-- THE STEP OF A RING (R335, R336): what a message does to the scratchpad, and its status. -/
def RingStep (s : State) (m : Memory) (c k : Nat) (tc : TClass) (posted : Bool) (msg : List Byte) (st : BitVec 8) : Prop :=
  let word := fun (o n : Nat) => Memory.read s.sp (k + o) n
  let n := msg.length / 64
  let N := 2 ^ (word 16 1 % 32)
  let head := word 8 4
  let tail := word 12 4
  let wmark := word 20 2
  let fill := (tail + 2 ^ 32 - head) % 2 ^ 32
  let good := s.ringOk k (fun b z => (s.ringSlots c k b z).isSome) = true
  let full := N < fill + n ∨ (tc ≠ .lat ∧ wmark ≠ 0 ∧ wmark < fill + n)
  (¬good → st = 2 ∧ m = s.sp) ∧
  (good → full → st = 1 ∧ (posted = false → m = s.sp) ∧
    (posted = true → Memory.read m (k + 24) 4 = (word 24 4 + 1) % 2 ^ 32 ∧ KeptOutside s.sp m [(k + 24, 4)])) ∧
  (good → ¬full → ∀ place, s.ringSlots c k (word 0 4 % 2 ^ 30) (64 * N) = some place → (place + 64 * N ≤ k ∨ k + 32 ≤ place) →
    st = 0 ∧ Memory.read m (k + 12) 4 = (tail + n) % 2 ^ 32 ∧
    (∀ j < n, ∀ b < 64, Memory.byte m (place + 64 * ((tail + j) % N) + b) = msg.getD (64 * j + b) 0) ∧
    KeptOutside s.sp m [(place, 64 * N), (k + 12, 4)])

/-- The first valid rule of the classifier that matches a frame on an Ethernet port is the one at index i (R428). -/
def RuleTakes (s : State) (port : Nat) (f : List Byte) (i : Nat) : Prop :=
  let rule := fun (j : Nat) => BitVec.ofNat 128 (Memory.read s.mem (s.sys.classTab.toNat + 16 * j) 16)
  let fits := fun (j : Nat) => (rule j).getLsbD 0 = true ∧ (rule j).getLsbD (64 + port) = true ∧
    ((rule j).extractLsb' 32 16).toNat = be16 f (etherAt f) ∧
    ((rule j).extractLsb' 48 16 = 0 ∨ udpPort f = some ((rule j).extractLsb' 48 16).toNat)
  i < 256 ∧ fits i ∧ ∀ j < i, ¬fits j

/-- The message of a frame (R429): its length, its port, its bytes, in as many whole slots as it needs. -/
def MessageOf (port : Nat) (f msg : List Byte) : Prop :=
  msg.length = 64 * ((f.length + 8 + 63) / 64) ∧ leVal (msg.take 8) = f.length + 2 ^ 16 * port ∧ (msg.drop 8).take f.length = f

/-- A frame that a rule's ring address leads into a cluster share (R428): the share's place. -/
def RingAtShare (s : State) (ring k : Nat) : Prop :=
  ring.testBit 29 = true ∧ ring < 2 ^ 30 ∧ ring % 2 ^ 21 % 32 = 0 ∧
  let c := ring / 2 ^ 25 % 16
  let core := ring / 2 ^ 21 % 16
  ring % 2 ^ 21 + 32 ≤ (s.cl c).zs ∧ k = spKey c core (mget 0 (s.cl c).share core + ring % 2 ^ 21)

end Sys2Proof.Slice0

/-- R54, R331, R333, R336: REQUEST_AT_DESTINATION performs a transfer's lanes in ascending order and replies, with status 2 and no effect when
the region does not hold its places; REPLY_ARRIVAL ends it with its status, or brings the reply of a request that left the module in through
its port; EXCHANGE_TIMEOUT ends it, 2^24 cycles after its injection, with status 3; RING_MESSAGE_DELIVERY performs the step of the ring. R428,
R429: ETHERNET_FRAME_RECEIVE takes a good frame to the ring of the first rule that matches it, at once, or 2,160 cycles later by
FIXED_LATENCY_RELEASE, in the order of the ring's frames.
Where the spec leaves a point open it follows the model's choice: log entries 52 and 53. -/
def Obligations.ExchangeEnds : Prop :=
  (∀ (s : State) (id : Nat), s.hole = false → s.xfer id = none → exec (.requestAtDestination id) s = .next s ∧
    exec (.ringMessageDelivery id) s = .next s ∧ exec (.replyArrival id) s = .next s ∧ exec (.exchangeTimeout id) s = .next s) ∧
  (∀ (s : State) (y : Xfer), s.hole = false → s.xfer y.id = some y → NoneHeld s →
    let refusedBy := if y.status = 0 then 2 else y.status
    (y.pos ≠ .arrived ∨ y.ring = true → exec (.requestAtDestination y.id) s = .next s) ∧
    (y.pos = .arrived → y.ring = false → CanReply s y →
      (¬Accepted s y → ∃ u, exec (.requestAtDestination y.id) s = .next u ∧ Replied s u y (fun x => { x with status := refusedBy }) ∧
        u.mem = s.mem ∧ u.sp = s.sp) ∧
      (∀ L : List XLane, Accepted s y → L.Perm y.lanes → L.Pairwise (fun a b => a.lane < b.lane) → (∀ l ∈ L, ∀ b, l.place ≠ some (.data b)) →
        (y.write = true → let done := L.foldl (fun (u : State) l => match l.place with
            | some (.sp k) => u.spPut k l.data | some (.mem p) => u.writePhys (200000 + y.cluster) p l.data | _ => u) s
          ∃ u, exec (.requestAtDestination y.id) s = .next u ∧ Replied s u y (fun x => { x with status := 0 }) ∧ u.mem = done.mem ∧
            u.sp = done.sp) ∧
        (y.write = false → ∃ u reads, exec (.requestAtDestination y.id) s = .next u ∧
          Replied s u y (fun x => { x with status := 0, data := x.data ++ reads }) ∧ u.mem = s.mem ∧ u.sp = s.sp ∧
          reads.length = L.length ∧ ∀ (i : Nat) l (e : Nat × List Byte), L[i]? = some l → reads[i]? = some e →
            e.1 = l.lane ∧ e.2.length = y.width ∧ ∀ j b, e.2[j]? = some b →
              (∀ k, l.place = some (.sp k) → FindsOp s y.id y.cluster .sp 0 (k + j) b.toNat) ∧
              (∀ p, l.place = some (.mem p) → FindsOp s y.id y.cluster .mem p.kind (p.at j) b.toNat)))) ∧
    (y.pos ≠ .arrived ∨ y.ring = false → exec (.ringMessageDelivery y.id) s = .next s) ∧
    (y.pos = .arrived → y.ring = true →
      (∀ l k, y.lanes = [l] → l.place = some (.sp k) → ((∃ g ∈ s.frames, RingAtShare s g.ring k) → exec (.ringMessageDelivery y.id) s = .next s) ∧
        (CanReply s y → (∀ g ∈ s.frames, s.ringKey g.ring ≠ some k) →
          (Accepted s y → ∃ u st, exec (.ringMessageDelivery y.id) s = .next u ∧ RingStep s u.sp y.cluster k y.tc y.posted l.data st ∧
            Replied s u y (fun x => { x with status := st }) ∧ u.mem = s.mem) ∧
          (¬Accepted s y → ∃ u, exec (.ringMessageDelivery y.id) s = .next u ∧ Replied s u y (fun x => { x with status := refusedBy }) ∧
            u.mem = s.mem ∧ u.sp = s.sp))) ∧
      (CanReply s y → (∀ l k, y.lanes.head? = some l → l.place ≠ some (.sp k)) → ∃ u, exec (.ringMessageDelivery y.id) s = .next u ∧
        Replied s u y (fun x => { x with status := refusedBy }) ∧ u.mem = s.mem ∧ u.sp = s.sp)) ∧
    (y.pos = .arrived → ¬CanReply s y → exec (.requestAtDestination y.id) s = .next s ∧ exec (.ringMessageDelivery y.id) s = .next s) ∧
    (y.pos ≠ .back → y.pos ≠ .away → exec (.replyArrival y.id) s = .next s) ∧
    (CanPost s false → OneOfBow y.group y.pmask → y.pos = .back → ∃ u, exec (.replyArrival y.id) s = .next u ∧
      XferEnds s u y y.status false) ∧
    (∀ (hops l : List Nat) (a b : Nat), y.pos = .away → routeSyms y.route = hops ++ 5 :: a :: b :: l → (∀ d ∈ hops, d ≤ 4) →
      let port := escNum a b
      let c := (Config.portCluster port).toNat
      let home := hops.reverse.map dirOpp ++ [0]
      let k := 8 * port + 4 + y.tc.code.toNat
      let key := inKey true c 5 y.tc
      let good := s.portDown port = false ∧ s.restOk c 0 home = true
      let room := y.repFlits ≤ s.freeFlits true c 5 y.tc
      (¬good → exec (.replyArrival y.id) s = .next { s with
        xfers := s.xfers.map fun x => if x.id = y.id then { x with pos := .lost } else x }) ∧
      (good → ¬room → mget none s.portDrain k ≠ none → exec (.replyArrival y.id) s = .next s) ∧
      (good → ∃ u, exec (.replyArrival y.id) s = .next u ∧ ((u = s ∧ ¬room) ∨ ∃ st data q,
        u = { s with xfers := u.xfers, routers := u.routers, portDrain := u.portDrain } ∧
        (st = 0 ∨ (st = 1 ∧ y.ring = true) ∨ st = 2 ∨ st = 3 ∨ (st = 4 ∧ 7 ∈ routeEscs (routeSyms y.route))) ∧
        (y.write = true → data = []) ∧ (y.write = false → data.map (·.1) = y.lanes.map (·.lane) ∧ ∀ e ∈ data, e.2.length = y.width) ∧
        u.xfers = s.xfers.map (fun x => if x.id = y.id then { x with pos := .returning, status := st, data := data } else x) ∧
        q.xfer = y.id ∧ q.reply = true ∧ q.syms = home.map (BitVec.ofNat 4) ∧ q.vc = y.tc ∧ q.flits = y.repFlits ∧
        ((mget none s.portDrain k = none ∧ mget none u.portDrain k = some q ∧ (∀ j, j ≠ k → mget none u.portDrain j = mget none s.portDrain j) ∧
            u.routers = s.routers) ∨
          (room ∧ u.queueAt key = s.queueAt key ++ [q] ∧ (∀ j, j ≠ key → u.queueAt j = s.queueAt j) ∧ u.portDrain = s.portDrain))))) ∧
    (let due := y.foreign = false ∧ y.late = false ∧ y.since + 2 ^ 24 ≤ s.cycle;
      (¬due → exec (.exchangeTimeout y.id) s = .next s) ∧
      (due → CanPost s false → OneOfBow y.group y.pmask → ∃ u, exec (.exchangeTimeout y.id) s = .next u ∧ XferEnds s u y 3 true))) ∧
  (∀ (s : State) (port : BitVec 2) (f : List Byte) (good : Bool), s.hole = false →
    let p := port.toNat
    let ok := good = true ∧ 60 ≤ f.length ∧ f.length ≤ 9212 ∧ s.portDown (24 + p) = false ∧ be16 f (etherAt f) ≠ 0x88B5
    (¬ok ∨ (∀ i, ¬RuleTakes s p f i) → exec (.ethernetFrameReceive port f good) s = .next s) ∧
    (∀ i, ok → RuleTakes s p f i → let r := BitVec.ofNat 128 (Memory.read s.mem (s.sys.classTab.toNat + 16 * i) 16)
      let ring := (r.extractLsb' 68 30).toNat
      let fixed := r.getLsbD 1 = true ∧ (s.cl (ring / 2 ^ 25 % 16)).region ≠ none ∧ (s.cl (ring / 2 ^ 25 % 16)).res.resident = true
      (∀ k, ¬fixed → RingAtShare s ring k →
        ((∃ g ∈ s.frames, RingAtShare s g.ring k) → exec (.ethernetFrameReceive port f good) s = .next { s with
          inputs := s.inputs ++ [(s.cycle + 1, .ethernetFrameReceive port f good)] }) ∧
        ((∀ g ∈ s.frames, s.ringKey g.ring ≠ some k) → ∃ u msg st, exec (.ethernetFrameReceive port f good) s = .next u ∧ MessageOf p f msg ∧
          RingStep s u.sp (ring / 2 ^ 25 % 16) k .lat true msg st ∧ u.mem = s.mem)) ∧
      (fixed → ∃ e, exec (.ethernetFrameReceive port f good) s = .next { s with nextId := s.nextId + 1, frames := s.frames ++ [e] } ∧
        MessageOf p f e.msg ∧ e.id = s.nextId ∧ e.due = s.cycle + 2160 ∧ e.ring = ring ∧ e.port = p ∧ e.landed = false ∧ e.bulk = false))) ∧
  (∀ (s : State) (x : Nat), s.hole = false →
    (s.frames.find? (fun f => f.id == x) = none → exec (.fixedLatencyRelease x) s = .next s) ∧
    (∀ f e, s.frames.find? (fun f => f.id == x) = some f → s.frames.find? (fun g => g.ring == f.ring) = some e →
      (s.cycle < e.due → exec (.fixedLatencyRelease x) s = .next s) ∧
      (∀ k, e.due ≤ s.cycle → RingAtShare s e.ring k → ∃ u, exec (.fixedLatencyRelease x) s = .next u ∧
        u.frames = s.frames.filter (fun g => g.id != e.id) ∧ u.mem = s.mem ∧
        (e.landed = true → Memory.read u.sp (k + 12) 4 = (Memory.read s.sp (k + 12) 4 + e.msg.length / 64) % 2 ^ 32 ∧
          KeptOutside s.sp u.sp [(k + 12, 4)]) ∧
        (e.landed = false → e.bulk = true → Memory.read u.sp (k + 24) 4 = (Memory.read s.sp (k + 24) 4 + 1) % 2 ^ 32 ∧
          KeptOutside s.sp u.sp [(k + 24, 4)]) ∧
        (e.landed = false → e.bulk = false → ∃ st, RingStep s u.sp (e.ring / 2 ^ 25 % 16) k .lat true e.msg st))))

namespace Sys2Proof.Slice0
open Machine

/-- The entry of the fabric context table that a packet names (R427). -/
def contextOf (s : State) (p : Arriving) : W128 := BitVec.ofNat 128 (Memory.read s.mem (s.sys.fabTab.toNat + 16 * p.fabctx.toNat) 16)

/-- A packet's KIND is permitted by its fabric context (R427). -/
def Permitted (s : State) (p : Arriving) : Prop :=
  (contextOf s p).getLsbD 0 = true ∧ ((p.kind = 0 ∧ (contextOf s p).getLsbD 1 = true) ∨ (p.kind = 1 ∧ (contextOf s p).getLsbD 2 = true) ∨
    (p.kind = 2 ∧ (contextOf s p).getLsbD 3 = true))

/-- A packet enters the request router of its port's cluster, or is held in the port's drain slot (R318, R426). -/
def EntersPort (s u : State) (p : Arriving) (id : Nat) : Prop :=
  let c := (Config.portCluster p.port.toNat).toNat
  let k := inKey false c 5 p.tc
  let slot := 8 * p.port.toNat + p.tc.code.toNat
  ∃ q : Pkt, q.xfer = id ∧ q.reply = false ∧ q.syms = p.symbols ∧ q.vc = p.tc ∧
    ((u.queueAt k = s.queueAt k ++ [q] ∧ (∀ j, j ≠ k → u.queueAt j = s.queueAt j) ∧ u.portDrain = s.portDrain ∧
        q.flits ≤ s.freeFlits false c 5 p.tc) ∨
     (p.port.toNat < 24 ∧ mget none s.portDrain slot = none ∧ mget none u.portDrain slot = some q ∧
        (∀ j, j ≠ slot → mget none u.portDrain j = mget none s.portDrain j) ∧ u.routers = s.routers))

/-- The transfer of a packet from outside: its request lane by lane, the region of its fabric context, and no reply when it has crossed
Ethernet (R319, R331, R333, R427). -/
def TransferOf (s : State) (p : Arriving) (x : Xfer) : Prop :=
  x.id = s.nextId ∧ x.foreign = true ∧ x.kind = p.kind ∧ x.ring = (p.kind == 2) ∧ x.write = (p.write || p.kind == 2) ∧ x.width = p.width ∧
  x.tc = p.tc ∧ (x.posted = true ↔ 24 ≤ p.port.toNat ∨ p.crossed = true) ∧ x.rcb = (contextOf s p).extractLsb' 16 48 ∧
  x.lanes.map (fun l => (l.lane, l.addr, l.data)) = p.lanes.zipIdx.map fun l => (l.2, l.1.1, l.1.2)

/-- The translations of a packet's lanes for its port's block, one after the other (R333, R349, R427). -/
def LanesTranslate (c : Nat) (r : Resolved) (need : Need) : List (W64 × List Byte) → State → List Phys → State → Prop
  | [], s, qs, u => qs = [] ∧ u = s
  | l :: ls, s, qs, u => ∃ v q qs', s.translate (17 * c + 16) r need l.1.toNat = (v, .ok q) ∧ qs = q :: qs' ∧
      LanesTranslate c r need ls v qs' u

end Sys2Proof.Slice0

/-- R319, R321, R331, R333, R427: INGRESS_CHECK of a packet at a port. A route that fails its check at live state gives a reply of status 3; a
packet whose context is invalid or does not permit its KIND, or one of whose addresses fails its checks, is not translated or lies elsewhere
than its route ends, does nothing and takes status 2. The reply of either leaves when a reply input has room; after a crossing of Ethernet
there is none. Another packet enters the request mesh, once the external input has room.
Where the spec leaves a point open it follows the model's choice: log entry 54. -/
def Obligations.Ingress : Prop :=
  ∀ (s : State) (p : Arriving), s.hole = false → (∀ x ∈ s.xfers, x.id ≠ s.nextId) →
    let port := p.port.toNat
    let c := (Config.portCluster port).toNat
    let syms := p.symbols.map (·.toNat)
    let e := routeEnd c syms.dropLast
    let back := 5#4 :: BitVec.ofNat 4 (port % 16) :: BitVec.ofNat 4 (port / 16) :: p.back
    let routeGood := p.kind.toNat < 4 ∧ syms.length ≤ 24 ∧ s.restOk c p.kind.toNat syms = true
    let fresh : State := { s with nextId := s.nextId + 1 }
    let refused := fun (s1 : State) (st : BitVec 8) =>
      (24 ≤ port ∨ p.crossed = true → exec (.ingressCheck p) s = .next s1) ∧
      (port < 24 → p.crossed = false → ∀ x : Xfer, TransferOf s p x → x.back = back → x.cluster = c →
        (¬ReplyRouteGood s1 x → exec (.ingressCheck p) s = .next s1) ∧
        (ReplyRouteGood s1 x → ∃ u y, exec (.ingressCheck p) s = .next u ∧ u.xfers = s1.xfers ++ [y] ∧ TransferOf s p y ∧ y.status = st ∧
          y.back = back ∧ y.cluster = c ∧ u.mem = s1.mem ∧ u.sp = s1.sp ∧
          (¬CanReply s1 x → y.pos = .arrived ∧ u.routers = s1.routers) ∧
          (CanReply s1 x → y.pos = .returning ∧ ∃ i q, (i = 0 ∨ i = 6) ∧
            u.queueAt (inKey true c i p.tc) = s1.queueAt (inKey true c i p.tc) ++ [q] ∧
            (∀ j, j ≠ inKey true c i p.tc → u.queueAt j = s1.queueAt j) ∧ q.xfer = s.nextId ∧ q.reply = true ∧ q.syms = back ++ [0#4])))
    let enters := fun (s1 : State) (places : List CopyPlace) =>
      (∃ u, exec (.ingressCheck p) s = .next u ∧ u.mem = s1.mem ∧ u.sp = s1.sp ∧
        ((u = { s1 with inputs := s1.inputs ++ [(s1.cycle + 1, .ingressCheck p)] } ∧
            ∃ x, TransferOf s p x ∧ s1.freeFlits false c 5 p.tc < x.reqFlits) ∨
          ∃ x, u.xfers = s1.xfers ++ [x] ∧ TransferOf s p x ∧ x.status = 0 ∧ x.pos = .going ∧ (port < 24 → x.back = back) ∧
            x.lanes.map (·.place) = (List.range p.lanes.length).map (places[·]?) ∧ EntersPort s1 u p s.nextId))
    let wide := ∀ l ∈ p.lanes, if p.kind = 2 then l.2.length % 64 = 0 ∧ 0 < l.2.length ∧ l.2.length ≤ 512
      else p.write = true → l.2.length = p.width
    let w := if p.kind = 2 then 32 else p.width
    let inShare := ∀ l ∈ p.lanes, let a := l.1.toNat
      a / 2 ^ 29 = 1 ∧ a / 2 ^ 25 % 16 = e ∧ a % 2 ^ 21 + w ≤ (s.cl e).zs ∧ a % 2 ^ 21 % w = 0
    let shares := p.lanes.map fun l => CopyPlace.sp (spKey e (l.1.toNat / 2 ^ 21 % 16)
      (mget 0 (s.cl e).share (l.1.toNat / 2 ^ 21 % 16) + l.1.toNat % 2 ^ 21))
    (28 ≤ port ∨ s.portDown port = true → exec (.ingressCheck p) s = .next s) ∧
    (port < 28 → s.portDown port = false →
      (¬routeGood → refused fresh 3) ∧
      (routeGood → routeEscs syms ≠ [] → enters fresh []) ∧
      (routeGood → routeEscs syms = [] → p.lanes = [] → refused fresh 2) ∧
      (routeGood → routeEscs syms = [] → p.lanes ≠ [] →
        (¬Permitted s p ∨ p.width ∉ [1, 2, 4, 8, 16] → refused fresh 2) ∧
        (Permitted s p → p.width ∈ [1, 2, 4, 8, 16] → p.kind ≠ 1 →
          (¬inShare ∨ ¬wide ∨ e ∉ s.regionClusters ((contextOf s p).extractLsb' 16 48) → refused fresh 2) ∧
          (inShare → wide → e ∈ s.regionClusters ((contextOf s p).extractLsb' 16 48) → enters fresh shares)) ∧
        (Permitted s p → p.width ∈ [1, 2, 4, 8, 16] → p.kind = 1 →
          let need := (if p.write then Need.store else Need.load).by (portBlock port)
          let rcb := ((contextOf s p).extractLsb' 16 48).toNat
          (s.regionRes rcb = none → refused fresh 2) ∧
          (∀ r, s.regionRes rcb = some r →
            ((∃ l, p.lanes.head? = some l ∧ (l.1.toNat % p.width ≠ 0 ∨ 2 ^ 48 ≤ l.1.toNat)) → refused fresh 2) ∧
            (∀ s1 ty pl l, p.lanes.head? = some l → l.1.toNat % p.width = 0 → l.1.toNat < 2 ^ 48 →
              State.translate fresh (17 * e + 16) r need l.1.toNat = (s1, .fault ty pl) → s1.hole = false → refused s1 2) ∧
            (∀ s1 q l, p.lanes.head? = some l → l.1.toNat % p.width = 0 → l.1.toNat < 2 ^ 48 →
              State.translate fresh (17 * e + 16) r need l.1.toNat = (s1, .ok q) → (owner (q.at 0)).getD Config.hostCluster.toNat ≠ e →
              s1.hole = false → refused s1 2) ∧
            (∀ s1 qs, (∀ l ∈ p.lanes, l.1.toNat % p.width = 0 ∧ l.1.toNat < 2 ^ 48) → LanesTranslate e r need p.lanes fresh qs s1 →
              s1.hole = false → (∀ q ∈ qs, (owner (q.at 0)).getD Config.hostCluster.toNat = e) →
              (wide → enters s1 (qs.map .mem)) ∧ (¬wide → refused s1 2))))))

namespace Sys2Proof.Slice0
open Machine

/-- Control fields of a word without a guard, a stall count or a dependency counter. -/
def bare : Ctl := ⟨false, 7, 0, none⟩

/-- The memory and the scratchpads are in canonical form: one list for one content. -/
def Canonical (s : State) : Prop := Memory.wf s.mem = true ∧ Memory.wf s.sp = true

end Sys2Proof.Slice0

/-- R150–R157: THE SPEC'S OWN ENCODINGS: words that it writes out, at least one of every class, decode to the instructions that they encode.
How the opcode table's bits number the words of an instruction is the model's choice: log entry 12. -/
def Obligations.DecodedWords : Prop :=
  decode 0 0x1072_04C2_6704_00E0 [] = .ok (.add { bare with stall := 1 } .n64 12 (.g 12) (.k 1)) ∧
  decode 0 0x2A72_1022_6110_00F4 [] = .ok (.cmp { bare with stall := 1 } .ge .n64 2 (.g 12) (.g 4)) ∧
  decode 0 0x0190_0000_0003_FFF8 [] = .ok (.bra { bare with gneg := true, gpred := 1 } 0x3FFF8) ∧
  decode 0 0x2972_0440_0000_0000 [8] = .ok (.movl { bare with stall := 1 } 4 8) ∧
  decode 0 0x3470_0442_1800_0041 [] = .ok (.scan bare .add .s32 true 4 (.g 3)) ∧
  decode 3 0x0771_C882_3160_0020 [] = .ok (.gfetch { bare with ctr := some 6 } .f32 8 (.g 6) 24) ∧
  decode 9 0x0070_0450_0000_0040 [] = .ok (.sysrd bare 5 0x40) ∧
  decode 0 0x0870_0000_0000_0000 [0x23, 0x0000_8802_0000_0004] = .ok (.phase bare 0x23 0x0000_8802_0000_0004) ∧
  decode 1 0x0376_0834_0A09_0620 [] = .ok (.ffma { bare with stall := 3 } .f32 .rne 3 1 2 3) ∧
  decode 1 0x1070_0874_3000_0090 [] = .ok (.fcvt bare .e4m3 .rs false 7 6 none) ∧
  decode 2 0x0871_3412_0000_0020 [] = .ok (.brld { bare with ctr := some 1 } 1 0 32) ∧
  decode 2 0x0071_445A_0110_0580 [] = .ok (.ld { bare with ctr := some 2 } .b64 .rlx .lane (.g 5) 0 4) ∧
  decode 2 0x0370_0002_47FC_4DC8 [16] = .ok (.sts bare .b64 .rel .clus ⟨8, some 16⟩ (.g 9)) ∧
  decode 4 0x0171_0C4E_1800_0000 [] = .ok (.trecv { bare with ctr := some 0 } 4 (.k 3)) ∧
  decode 5 0x0170_000E_191C_0000 [] = .ok (.mldb bare (.k 3) (.g 7) none 0) ∧
  decode 5 0x0370_000E_1800_1FF0 [] = .ok (.mmac bare (.k 3) ⟨0, 255, 8⟩) ∧
  decode 6 0x0171_1023_41A8_0000 [] = .ok (.unify { bare with ctr := some 0 } 2 40 42) ∧
  decode 6 0x0671_200E_1000_000C [] = .ok (.chpt { bare with ctr := some 1 } 2 12) ∧
  decode 7 0x027E_05E2_C16A_0200 [] = .ok (.isect { bare with stall := 7 } false 30 1 24 26) ∧
  decode 8 0x0470_0542_2F00_0001 [] = .ok (.rtxy bare .bulk 20 (.g 5) (.k 0)) ∧
  decodeTableWord 192 0x0000_0000_0000_0008_2972_0440_0000_0000_A010_0000_0002_0000 = some (.movl { bare with stall := 1 } 4 8)

/-- R150–R157, R167: DECODE AND ENCODE AGREE. For every well-formed instruction that stands in a word, with every operand at every value that the
encoding admits, decoding its word and its literal words in the map of its class gives it back; and a word decodes only to the
instruction that it encodes. -/
def Obligations.EncodeDecode : Prop :=
  (∀ i : Instr, i.wf = true → ∃ w lits, encode i = w :: lits ∧ decode i.cls w lits = .ok i) ∧
  (∀ cls w lits i, decode cls w lits = .ok i → encode i = w :: lits ∧ i.cls = cls ∧ i.wf = true)

/-- R22, R149, R157, R164–R167, R371: A STEP RUNS THE DECODED INSTRUCTION. With a word's turn next, the step is `exec` of the instruction that
its word and literals decode to, with that word in issue; a word that is none raises `ILLEGAL` in every lane of its path. With an event next
it is `exec` of the event, unless its unit is in reset or without its clock, or its source waits for room in an event queue; with a selection next
it is ISSUE_OPPORTUNITY; with nothing left the next cycle begins. A clause's words are those of memory at the translated address.
Where the spec leaves a point open it follows the model's choice: log entries 4, 14, 25, 61 and 79. -/
def Obligations.StepRunsDecoded : Prop :=
  (∀ (s : State) (core slot : Nat) (lanes : BitVec 32) (y : Sel), s.agenda = [] → s.turns = [.issue core slot lanes] →
    State.turnSel { s with draw := s.draw + 1, turns := [] } core slot lanes = some y → y.held = .no →
    let s1 := { s with draw := s.draw + 1, turns := [], cur := y.cur core }
    let h := Header.ofWord y.header
    let cls := h.classAt y.word
    let raw := y.code.getD y.word 0
    let lits := litRun h y.code y.word
    (∀ i : Instr, (isBow core = true → cls = 3 → 3 ≤ (raw.extractLsb' 56 8).toNat ∧ (raw.extractLsb' 56 8).toNat ≤ 6) →
      (cls = 9 → (s.grpRes (16 * core + y.slot)).priv = true ∨ raw.extractLsb' 56 8 = 2) → decode cls raw lits = .ok i →
      (controlWord i = true → h.words ≤ y.word + 1 + lits.length) → (h.tail = true → y.word + 1 = h.words → tailWord i = true) →
      step s = exec i s1) ∧
    ((∀ i, decode cls raw lits ≠ .ok i) → s1.Calm → s1.Handled (lanesOf s1.cur.lanes) → ∃ u d, step s = .next u ∧ (d = 1 ∨ d = 2) ∧
      u.mem = s.mem ∧ u.sp = s.sp ∧ ∀ l ∈ lanesOf s1.cur.lanes, u.thr (tid s1.curG l) = s1.entering (tid s1.curG l) (own s1 d 1 raw))) ∧
  (∀ (s : State) (e : Instr) (l : List Instr), s.agenda = e :: l → e.wf = false →
    let s1 : State := { s with draw := s.draw + 1, agenda := l }
    let on := (s.boot.released = true ∨ State.coreZero e = true) ∧ ∀ c, s1.eventCluster e = some c → (s.cl c).stopped = false
    (on → s1.sourceOwes e = false → step s = exec e s1) ∧ (¬on → step s = .next s1) ∧
    (on → s1.sourceOwes e = true → step s = .next s1 ∨ step s = .next { s1 with inputs := s.inputs ++ [(s.cycle + 1, e)] })) ∧
  (∀ (s : State) (core : Nat), s.agenda = [] → s.turns = [.select core] →
    step s = exec (.issueOpportunity core) { s with draw := s.draw + 1, turns := [] }) ∧
  (∀ s : State, CanPost { s with cycle := s.cycle + 1 } false → s.hole = false → s.agenda = [] → s.turns = [] → s.frames = [] →
    (∀ x ∈ s.regions, ∃ c ∈ s.regionClusters x.rcb, (s.cl c).ended = false) →
    ∃ u, step s = .next u ∧ u.cycle = s.cycle + 1 ∧ u.sp = s.sp ∧ u.threads = s.threads ∧ u.groups = s.groups ∧
      (∀ x, (s.cycle + 1, x) ∈ s.inputs → x ∈ u.agenda) ∧
      (u.mem = s.mem ∧ u.evWait = s.evWait ∨ ∃ r, PostsOne s u false r ∧ r.extractLsb' 0 8 = 18#8)) ∧
  (∀ (s s1 : State) (core va : Nat) (x : Resolved) (p : Phys), s.translate core x Need.fetch va = (s1, .ok p) → s1.latent = [] →
    (∀ e ∈ s1.codes, e.core = core → e.va = va → e.val = BitVec.ofNat 64 (Memory.read s1.mem (p.at 0) 8)) →
    ∃ s2, s.fetchWord core x va = (s2, .inl (BitVec.ofNat 64 (Memory.read s.mem (p.at 0) 8))))

/-- EVERY STEP KEEPS THE CANONICAL FORM of memory and scratchpads: addresses rise strictly and no listed byte is what an unlisted one reads as, so
that equal contents are equal data (the model's own form of R10 and R348).
Where the spec leaves a point open it follows the model's choice: log entry 1. -/
def Obligations.CanonicalMemory : Prop := ∀ s t : State, Canonical s → step s = .next t → Canonical t

/-- R351, R421, R425, R432, R439: WHAT RESET LEAVES: the system registers and the slice registers that have a reset value at it, nothing bound,
no region, every cluster and link in service, memory in canonical form. (Registers without a reset value and unwritten memory are zero by
the model's choice, log entries 1 and 2.) -/
def Obligations.ResetState : Prop :=
  let s := State.reset
  Canonical s ∧ s.hole = false ∧ s.cycle = 0 ∧ s.sys.status = 0 ∧ s.sys.binderr = 0 ∧ s.sys.arbw = 0x0100_1428 ∧ s.sys.eperiod = 0x0040_0000 ∧
  s.wtSync = false ∧ (∀ c, mget 0 s.sys.drainq c = 0 ∧ mget 0 s.sys.drainp c = 0 ∧ mget 0 s.sys.disc c = 0) ∧
  (∀ c, let x := s.slice c
    (∀ u, mget 0 x.ukind u = 0) ∧ x.thresh = 4096 ∧ x.auto = true ∧ x.busy = false ∧ x.ver = 0 ∧ x.next = 0 ∧ x.wm = 0 ∧ x.conflBank = 0 ∧
    x.conflCount = 0 ∧ x.spDone = 0 ∧ x.spState = 0 ∧ x.spIdx = 0 ∧ x.spPc = 0 ∧ x.spBank = 0 ∧ x.spRow = 0 ∧ x.scrubEn = true ∧
    x.scrubPeriod = 82400) ∧
  (∀ g, (s.grp g).bound = false) ∧ s.regions = [] ∧ s.pending = [] ∧ (∀ c, (s.cl c).region = none ∧ (s.cl c).retired = false) ∧
  (∀ c d, s.linkDown c d = false) ∧ (∀ p, s.portDown p = false) ∧ ∀ n, s.sysRead true n = match n with
    | 0x000 => 0x0000_0000_0001_2416 | 0x031 => 0x0100_1428 | 0x050 => 0x0040_0000 | _ => 0
end

