-- ==== Sys2Proof/Laws/Dispatch.lean ====
section
/-!
SUPPORT. What `exec` answers for each constructor: its meaning. These equations are cited where a proof must not unfold `exec` itself.
-/
namespace Sys2Proof.Machine

theorem exec_nop {s : State} {c} : exec (.nop c) s = execNop c s := rfl
theorem exec_bra {s : State} {c} {off} : exec (.bra c off) s = execBra c off s := rfl
theorem exec_brx {s : State} {c} {a} : exec (.brx c a) s = execBrx c a s := rfl
theorem exec_call {s : State} {c} {link} {off} : exec (.call c link off) s = execCall c link off s := rfl
theorem exec_callIndirect {s : State} {c} {link} {a} : exec (.callIndirect c link a) s = execCallIndirect c link a s := rfl
theorem exec_ret {s : State} {c} {a} : exec (.ret c a) s = execRet c a s := rfl
theorem exec_exit {s : State} {c} : exec (.exit c) s = execExit c s := rfl
theorem exec_reconv {s : State} {c} : exec (.reconv c) s = execReconv c s := rfl
theorem exec_yield {s : State} {c} : exec (.yield c) s = execYield c s := rfl
theorem exec_phase {s : State} {c} {gmask} {word2} : exec (.phase c gmask word2) s = execPhase c gmask word2 s := rfl
theorem exec_idem {s : State} {c} : exec (.idem c) s = execIdem c s := rfl
theorem exec_trap {s : State} {c} {code} : exec (.trap c code) s = execTrap c code s := rfl
theorem exec_brk {s : State} {c} {code} : exec (.brk c code) s = execBrk c code s := rfl
theorem exec_add {s : State} {c} {t} {d} {a} {b} : exec (.add c t d a b) s = execAdd c t d a b s := rfl
theorem exec_sub {s : State} {c} {t} {d} {a} {b} : exec (.sub c t d a b) s = execSub c t d a b s := rfl
theorem exec_mul {s : State} {c} {t} {d} {a} {b} : exec (.mul c t d a b) s = execMul c t d a b s := rfl
theorem exec_mulh {s : State} {c} {t} {d} {a} {b} : exec (.mulh c t d a b) s = execMulh c t d a b s := rfl
theorem exec_mad {s : State} {c} {t} {d} {a} {b} {x} : exec (.mad c t d a b x) s = execMad c t d a b x s := rfl
theorem exec_min {s : State} {c} {t} {d} {a} {b} : exec (.min c t d a b) s = execMin c t d a b s := rfl
theorem exec_max {s : State} {c} {t} {d} {a} {b} : exec (.max c t d a b) s = execMax c t d a b s := rfl
theorem exec_abs {s : State} {c} {t} {d} {a} : exec (.abs c t d a) s = execAbs c t d a s := rfl
theorem exec_neg {s : State} {c} {t} {d} {a} : exec (.neg c t d a) s = execNeg c t d a s := rfl
theorem exec_and {s : State} {c} {t} {d} {a} {b} : exec (.and c t d a b) s = execAnd c t d a b s := rfl
theorem exec_or {s : State} {c} {t} {d} {a} {b} : exec (.or c t d a b) s = execOr c t d a b s := rfl
theorem exec_xor {s : State} {c} {t} {d} {a} {b} : exec (.xor c t d a b) s = execXor c t d a b s := rfl
theorem exec_andn {s : State} {c} {t} {d} {a} {b} : exec (.andn c t d a b) s = execAndn c t d a b s := rfl
theorem exec_not {s : State} {c} {t} {d} {a} : exec (.not c t d a) s = execNot c t d a s := rfl
theorem exec_shl {s : State} {c} {t} {d} {a} {b} : exec (.shl c t d a b) s = execShl c t d a b s := rfl
theorem exec_shr {s : State} {c} {t} {d} {a} {b} : exec (.shr c t d a b) s = execShr c t d a b s := rfl
theorem exec_sar {s : State} {c} {t} {d} {a} {b} : exec (.sar c t d a b) s = execSar c t d a b s := rfl
theorem exec_rol {s : State} {c} {t} {d} {a} {b} : exec (.rol c t d a b) s = execRol c t d a b s := rfl
theorem exec_popc {s : State} {c} {t} {d} {a} : exec (.popc c t d a) s = execPopc c t d a s := rfl
theorem exec_clz {s : State} {c} {t} {d} {a} : exec (.clz c t d a) s = execClz c t d a s := rfl
theorem exec_brev {s : State} {c} {t} {d} {a} : exec (.brev c t d a) s = execBrev c t d a s := rfl
theorem exec_bfx {s : State} {c} {t} {d} {a} {b} : exec (.bfx c t d a b) s = execBfx c t d a b s := rfl
theorem exec_bfi {s : State} {c} {t} {d} {a} {b} {x} : exec (.bfi c t d a b x) s = execBfi c t d a b x s := rfl
theorem exec_sel {s : State} {c} {t} {d} {a} {b} {p} : exec (.sel c t d a b p) s = execSel c t d a b p s := rfl
theorem exec_mov {s : State} {c} {t} {d} {a} : exec (.mov c t d a) s = execMov c t d a s := rfl
theorem exec_movl {s : State} {c} {d} {value} : exec (.movl c d value) s = execMovl c d value s := rfl
theorem exec_cmp {s : State} {c} {k} {t} {d} {a} {b} : exec (.cmp c k t d a b) s = execCmp c k t d a b s := rfl
theorem exec_plop {s : State} {c} {op} {d} {a} {b} {na} {nb} : exec (.plop c op d a b na nb) s = execPlop c op d a b na nb s := rfl
theorem exec_rds {s : State} {c} {d} {r} : exec (.rds c d r) s = execRds c d r s := rfl
theorem exec_wrs {s : State} {c} {r} {a} : exec (.wrs c r a) s = execWrs c r a s := rfl
theorem exec_shfl {s : State} {c} {m} {t} {d} {a} {b} : exec (.shfl c m t d a b) s = execShfl c m t d a b s := rfl
theorem exec_bcast {s : State} {c} {t} {d} {a} {b} : exec (.bcast c t d a b) s = execBcast c t d a b s := rfl
theorem exec_vote {s : State} {c} {f} : exec (.vote c f) s = execVote c f s := rfl
theorem exec_matchLanes {s : State} {c} {t} {d} {a} : exec (.matchLanes c t d a) s = execMatchLanes c t d a s := rfl
theorem exec_scan {s : State} {c} {op} {t} {exc} {d} {a} : exec (.scan c op t exc d a) s = execScan c op t exc d a s := rfl
theorem exec_redux {s : State} {c} {op} {t} {d} {a} : exec (.redux c op t d a) s = execRedux c op t d a s := rfl
theorem exec_fadd {s : State} {c} {f} {r} {d} {a} {b} : exec (.fadd c f r d a b) s = execFadd c f r d a b s := rfl
theorem exec_fsub {s : State} {c} {f} {r} {d} {a} {b} : exec (.fsub c f r d a b) s = execFsub c f r d a b s := rfl
theorem exec_fmul {s : State} {c} {f} {r} {d} {a} {b} : exec (.fmul c f r d a b) s = execFmul c f r d a b s := rfl
theorem exec_ffma {s : State} {c} {f} {r} {d} {a} {b} {x} : exec (.ffma c f r d a b x) s = execFfma c f r d a b x s := rfl
theorem exec_fmin {s : State} {c} {f} {d} {a} {b} : exec (.fmin c f d a b) s = execFmin c f d a b s := rfl
theorem exec_fmax {s : State} {c} {f} {d} {a} {b} : exec (.fmax c f d a b) s = execFmax c f d a b s := rfl
theorem exec_famax {s : State} {c} {f} {d} {a} {b} : exec (.famax c f d a b) s = execFamax c f d a b s := rfl
theorem exec_fcmp {s : State} {c} {k} {f} {d} {a} {b} : exec (.fcmp c k f d a b) s = execFcmp c k f d a b s := rfl
theorem exec_frcp {s : State} {c} {f} {r} {d} {a} : exec (.frcp c f r d a) s = execFrcp c f r d a s := rfl
theorem exec_frsq {s : State} {c} {f} {r} {d} {a} : exec (.frsq c f r d a) s = execFrsq c f r d a s := rfl
theorem exec_fsqrt {s : State} {c} {f} {r} {d} {a} : exec (.fsqrt c f r d a) s = execFsqrt c f r d a s := rfl
theorem exec_fexp2 {s : State} {c} {f} {d} {a} : exec (.fexp2 c f d a) s = execFexp2 c f d a s := rfl
theorem exec_flog2 {s : State} {c} {f} {d} {a} : exec (.flog2 c f d a) s = execFlog2 c f d a s := rfl
theorem exec_ftanh {s : State} {c} {f} {d} {a} : exec (.ftanh c f d a) s = execFtanh c f d a s := rfl
theorem exec_fred {s : State} {c} {op} {f} {r} {d} {a} : exec (.fred c op f r d a) s = execFred c op f r d a s := rfl
theorem exec_fcvt {s : State} {c} {f} {r} {sat} {d} {a} {k} : exec (.fcvt c f r sat d a k) s = execFcvt c f r sat d a k s := rfl
theorem exec_icvt {s : State} {c} {f} {r} {toFloat} {narrow} {d} {a} {k} : exec (.icvt c f r toFloat narrow d a k) s = execIcvt c f r toFloat narrow d a k s := rfl
theorem exec_fpack {s : State} {c} {d} {a} {b} : exec (.fpack c d a b) s = execFpack c d a b s := rfl
theorem exec_funpk {s : State} {c} {d} {a} {k} : exec (.funpk c d a k) s = execFunpk c d a k s := rfl
theorem exec_vmov {s : State} {c} {d} {a} : exec (.vmov c d a) s = execVmov c d a s := rfl
theorem exec_vtag {s : State} {c} {f} {cb} {d} {a} : exec (.vtag c f cb d a) s = execVtag c f cb d a s := rfl
theorem exec_vretag {s : State} {c} {f} {cb} {d} {a} : exec (.vretag c f cb d a) s = execVretag c f cb d a s := rfl
theorem exec_seed {s : State} {c} {a} : exec (.seed c a) s = execSeed c a s := rfl
theorem exec_scale {s : State} {c} {f} {d} {a} : exec (.scale c f d a) s = execScale c f d a s := rfl
theorem exec_qnt {s : State} {c} {f} {r} {sat} {d} {a} {sc} : exec (.qnt c f r sat d a sc) s = execQnt c f r sat d a sc s := rfl
theorem exec_dqnt {s : State} {c} {f} {r} {d} {a} : exec (.dqnt c f r d a) s = execDqnt c f r d a s := rfl
theorem exec_cbld {s : State} {c} {cb} {a} {b} : exec (.cbld c cb a b) s = execCbld c cb a b s := rfl
theorem exec_cbenc {s : State} {c} {d} {a} {cb} : exec (.cbenc c d a cb) s = execCbenc c d a cb s := rfl
theorem exec_ld {s : State} {c} {t} {o} {sc} {d} {b} {idx} : exec (.ld c t o sc d b idx) s = execLd c t o sc d b idx s := rfl
theorem exec_st {s : State} {c} {t} {o} {sc} {b} {idx} {x} : exec (.st c t o sc b idx x) s = execSt c t o sc b idx x s := rfl
theorem exec_lds {s : State} {c} {t} {o} {sc} {d} {a} : exec (.lds c t o sc d a) s = execLds c t o sc d a s := rfl
theorem exec_sts {s : State} {c} {t} {o} {sc} {a} {x} : exec (.sts c t o sc a x) s = execSts c t o sc a x s := rfl
theorem exec_ldx {s : State} {c} {t} {n} {b} {idx} {x} : exec (.ldx c t n b idx x) s = execLdx c t n b idx x s := rfl
theorem exec_tld {s : State} {c} {d} {h} {xy} : exec (.tld c d h xy) s = execTld c d h xy s := rfl
theorem exec_tst {s : State} {c} {h} {xy} {x} : exec (.tst c h xy x) s = execTst c h xy x s := rfl
theorem exec_pref {s : State} {c} {t} {b} {idx} : exec (.pref c t b idx) s = execPref c t b idx s := rfl
theorem exec_brld {s : State} {c} {d} {a} {off} : exec (.brld c d a off) s = execBrld c d a off s := rfl
theorem exec_fence {s : State} {c} {k} {sc} : exec (.fence c k sc) s = execFence c k sc s := rfl
theorem exec_vfence {s : State} {c} {sc} : exec (.vfence c sc) s = execVfence c sc s := rfl
theorem exec_lfence {s : State} {c} : exec (.lfence c) s = execLfence c s := rfl
theorem exec_aadd {s : State} {c} {t} {o} {sc} {d} {a} {x} : exec (.aadd c t o sc d a x) s = execAadd c t o sc d a x s := rfl
theorem exec_afadd {s : State} {c} {t} {o} {sc} {d} {a} {x} : exec (.afadd c t o sc d a x) s = execAfadd c t o sc d a x s := rfl
theorem exec_amin {s : State} {c} {t} {o} {sc} {d} {a} {x} : exec (.amin c t o sc d a x) s = execAmin c t o sc d a x s := rfl
theorem exec_amax {s : State} {c} {t} {o} {sc} {d} {a} {x} : exec (.amax c t o sc d a x) s = execAmax c t o sc d a x s := rfl
theorem exec_afmax {s : State} {c} {o} {sc} {d} {a} {x} : exec (.afmax c o sc d a x) s = execAfmax c o sc d a x s := rfl
theorem exec_aand {s : State} {c} {t} {o} {sc} {d} {a} {x} : exec (.aand c t o sc d a x) s = execAand c t o sc d a x s := rfl
theorem exec_aor {s : State} {c} {t} {o} {sc} {d} {a} {x} : exec (.aor c t o sc d a x) s = execAor c t o sc d a x s := rfl
theorem exec_axor {s : State} {c} {t} {o} {sc} {d} {a} {x} : exec (.axor c t o sc d a x) s = execAxor c t o sc d a x s := rfl
theorem exec_axchg {s : State} {c} {t} {o} {sc} {d} {a} {x} : exec (.axchg c t o sc d a x) s = execAxchg c t o sc d a x s := rfl
theorem exec_acas {s : State} {c} {t} {o} {sc} {d} {a} {x} : exec (.acas c t o sc d a x) s = execAcas c t o sc d a x s := rfl
theorem exec_amaxrst {s : State} {c} {t} {o} {sc} {d} {a} {x} : exec (.amaxrst c t o sc d a x) s = execAmaxrst c t o sc d a x s := rfl
theorem exec_aincw {s : State} {c} {t} {o} {sc} {d} {a} {x} : exec (.aincw c t o sc d a x) s = execAincw c t o sc d a x s := rfl
theorem exec_cpy {s : State} {c} {n} {a} : exec (.cpy c n a) s = execCpy c n a s := rfl
theorem exec_cpyw {s : State} {c} {t} {sc} {a} {w} {x} : exec (.cpyw c t sc a w x) s = execCpyw c t sc a w x s := rfl
theorem exec_qfence {s : State} {c} {mask} : exec (.qfence c mask) s = execQfence c mask s := rfl
theorem exec_bari {s : State} {c} {n} {count} : exec (.bari c n count) s = execBari c n count s := rfl
theorem exec_bara {s : State} {c} {n} : exec (.bara c n) s = execBara c n s := rfl
theorem exec_barw {s : State} {c} {n} : exec (.barw c n) s = execBarw c n s := rfl
theorem exec_waita {s : State} {c} {t} {sc} {d} {a} {x} : exec (.waita c t sc d a x) s = execWaita c t sc d a x s := rfl
theorem exec_gfetch {s : State} {c} {f} {d} {h} {xy} : exec (.gfetch c f d h xy) s = execGfetch c f d h xy s := rfl
theorem exec_ginv {s : State} {c} {sc} : exec (.ginv c sc) s = execGinv c sc s := rfl
theorem exec_mrgopen {s : State} {c} {float} {a} : exec (.mrgopen c float a) s = execMrgopen c float a s := rfl
theorem exec_mrgpull {s : State} {c} {d} : exec (.mrgpull c d) s = execMrgpull c d s := rfl
theorem exec_mrgclose {s : State} {c} : exec (.mrgclose c) s = execMrgclose c s := rfl
theorem exec_emit {s : State} {c} {q} {a} : exec (.emit c q a) s = execEmit c q a s := rfl
theorem exec_launch {s : State} {c} {a} : exec (.launch c a) s = execLaunch c a s := rfl
theorem exec_sample {s : State} {c} {tag} : exec (.sample c tag) s = execSample c tag s := rfl
theorem exec_tsend {s : State} {c} {course} {x} : exec (.tsend c course x) s = execTsend c course x s := rfl
theorem exec_trecv {s : State} {c} {d} {course} : exec (.trecv c d course) s = execTrecv c d course s := rfl
theorem exec_tzero {s : State} {c} {f} {d} : exec (.tzero c f d) s = execTzero c f d s := rfl
theorem exec_tmov {s : State} {c} {d} {a} : exec (.tmov c d a) s = execTmov c d a s := rfl
theorem exec_ttrn {s : State} {c} {d} {a} : exec (.ttrn c d a) s = execTtrn c d a s := rfl
theorem exec_tscl {s : State} {c} {f} {r} {sat} {d} {a} {e} : exec (.tscl c f r sat d a e) s = execTscl c f r sat d a e s := rfl
theorem exec_mlda {s : State} {c} {course} {h} {xy} : exec (.mlda c course h xy) s = execMlda c course h xy s := rfl
theorem exec_mldb {s : State} {c} {course} {h} {xy} {slot} : exec (.mldb c course h xy slot) s = execMldb c course h xy slot s := rfl
theorem exec_mmul {s : State} {c} {course} {f} : exec (.mmul c course f) s = execMmul c course f s := rfl
theorem exec_mmac {s : State} {c} {course} {f} : exec (.mmac c course f) s = execMmac c course f s := rfl
theorem exec_mdist {s : State} {c} {course} {h} {f} : exec (.mdist c course h f) s = execMdist c course h f s := rfl
theorem exec_mtopk {s : State} {c} {course} {km1} {wm1} {max} : exec (.mtopk c course km1 wm1 max) s = execMtopk c course km1 wm1 max s := rfl
theorem exec_macc {s : State} {c} {course} {h} {xy} : exec (.macc c course h xy) s = execMacc c course h xy s := rfl
theorem exec_mstc {s : State} {c} {course} {h} {xy} : exec (.mstc c course h xy) s = execMstc c course h xy s := rfl
theorem exec_mwait {s : State} {c} {mask} : exec (.mwait c mask) s = execMwait c mask s := rfl
theorem exec_mchk {s : State} {c} {d} {course} : exec (.mchk c d course) s = execMchk c d course s := rfl
theorem exec_deref {s : State} {c} {d} {a} : exec (.deref c d a) s = execDeref c d a s := rfl
theorem exec_unify {s : State} {c} {d} {a} {b} : exec (.unify c d a b) s = execUnify c d a b s := rfl
theorem exec_bind {s : State} {c} {a} {b} : exec (.bind c a b) s = execBind c a b s := rfl
theorem exec_mkvar {s : State} {c} {d} : exec (.mkvar c d) s = execMkvar c d s := rfl
theorem exec_mkstr {s : State} {c} {d} {a} : exec (.mkstr c d a) s = execMkstr c d a s := rfl
theorem exec_tagof {s : State} {c} {d} {a} : exec (.tagof c d a) s = execTagof c d a s := rfl
theorem exec_chpt {s : State} {c} {n} {off} : exec (.chpt c n off) s = execChpt c n off s := rfl
theorem exec_fail {s : State} {c} : exec (.fail c) s = execFail c s := rfl
theorem exec_cut {s : State} {c} {a} : exec (.cut c a) s = execCut c a s := rfl
theorem exec_ovpub {s : State} {c} {sc} {d} : exec (.ovpub c sc d) s = execOvpub c sc d s := rfl
theorem exec_bmand {s : State} {c} {d} {a} {b} : exec (.bmand c d a b) s = execBmand c d a b s := rfl
theorem exec_popcp {s : State} {c} {d} {a} {b} : exec (.popcp c d a b) s = execPopcp c d a b s := rfl
theorem exec_isect {s : State} {c} {hi} {d} {p} {a} {b} : exec (.isect c hi d p a b) s = execIsect c hi d p a b s := rfl
theorem exec_rebal {s : State} {c} {d} {a} {b} : exec (.rebal c d a b) s = execRebal c d a b s := rfl
theorem exec_cmpk {s : State} {c} {a} {x} {p} : exec (.cmpk c a x p) s = execCmpk c a x p s := rfl
theorem exec_expnd {s : State} {c} {d} {p} {b} {a} : exec (.expnd c d p b a) s = execExpnd c d p b a s := rfl
theorem exec_xwrite {s : State} {c} {t} {o} {sc} {d} {a} {r} {x} : exec (.xwrite c t o sc d a r x) s = execXwrite c t o sc d a r x s := rfl
theorem exec_xread {s : State} {c} {t} {o} {sc} {d} {a} {r} : exec (.xread c t o sc d a r) s = execXread c t o sc d a r s := rfl
theorem exec_xsend {s : State} {c} {d} {r} {q} {x} {nm1} : exec (.xsend c d r q x nm1) s = execXsend c d r q x nm1 s := rfl
theorem exec_xfence {s : State} {c} {k} {sc} : exec (.xfence c k sc) s = execXfence c k sc s := rfl
theorem exec_rtxy {s : State} {c} {tc} {d} {a} {k} : exec (.rtxy c tc d a k) s = execRtxy c tc d a k s := rfl
theorem exec_rtchk {s : State} {c} {d} {a} : exec (.rtchk c d a) s = execRtchk c d a s := rfl
theorem exec_ringpoll {s : State} {c} {d} {a} : exec (.ringpoll c d a) s = execRingpoll c d a s := rfl
theorem exec_ringadv {s : State} {c} {a} {n} : exec (.ringadv c a n) s = execRingadv c a n s := rfl
theorem exec_ringwait {s : State} {c} {d} {a} : exec (.ringwait c d a) s = execRingwait c d a s := rfl
theorem exec_sysrd {s : State} {c} {d} {n} : exec (.sysrd c d n) s = execSysrd c d n s := rfl
theorem exec_syswr {s : State} {c} {n} {a} : exec (.syswr c n a) s = execSyswr c n a s := rfl
theorem exec_eret {s : State} {c} : exec (.eret c) s = execEret c s := rfl
theorem exec_tlbinv {s : State} {c} {m} {a} {b} : exec (.tlbinv c m a b) s = execTlbinv c m a b s := rfl
theorem exec_halt {s : State} {c} {code} : exec (.halt c code) s = execHalt c code s := rfl
theorem exec_phaseArrival {s : State} {t} : exec (.phaseArrival t) s = execPhaseArrival t s := rfl
theorem exec_copyAcceptance {s : State} {core} {sel} : exec (.copyAcceptance core sel) s = execCopyAcceptance core sel s := rfl
theorem exec_copyCompletion {s : State} {cl} {q} : exec (.copyCompletion cl q) s = execCopyCompletion cl q s := rfl
theorem exec_mldbPerform {s : State} {cl} {n} : exec (.mldbPerform cl n) s = execMldbPerform cl n s := rfl
theorem exec_mldaPerform {s : State} {cl} {n} : exec (.mldaPerform cl n) s = execMldaPerform cl n s := rfl
theorem exec_mmulPerform {s : State} {cl} {n} : exec (.mmulPerform cl n) s = execMmulPerform cl n s := rfl
theorem exec_mmacPerform {s : State} {cl} {n} : exec (.mmacPerform cl n) s = execMmacPerform cl n s := rfl
theorem exec_mdistPerform {s : State} {cl} {n} : exec (.mdistPerform cl n) s = execMdistPerform cl n s := rfl
theorem exec_mtopkPerform {s : State} {cl} {n} : exec (.mtopkPerform cl n) s = execMtopkPerform cl n s := rfl
theorem exec_maccPerform {s : State} {cl} {n} : exec (.maccPerform cl n) s = execMaccPerform cl n s := rfl
theorem exec_mstcPerform {s : State} {cl} {n} : exec (.mstcPerform cl n) s = execMstcPerform cl n s := rfl
theorem exec_harpCheck {s : State} {cl} : exec (.harpCheck cl) s = execHarpCheck cl s := rfl
theorem exec_issueOpportunity {s : State} {core} : exec (.issueOpportunity core) s = execIssueOpportunity core s := rfl
theorem exec_resultCompletion {s : State} {op} : exec (.resultCompletion op) s = execResultCompletion op s := rfl
theorem exec_trapDelivery {s : State} {t} : exec (.trapDelivery t) s = execTrapDelivery t s := rfl
theorem exec_faultReply {s : State} {w} : exec (.faultReply w) s = execFaultReply w s := rfl
theorem exec_killPort {s : State} {w} : exec (.killPort w) s = execKillPort w s := rfl
theorem exec_clusterAdvance {s : State} {cl} : exec (.clusterAdvance cl) s = execClusterAdvance cl s := rfl
theorem exec_stragglerTimeout {s : State} {cl} : exec (.stragglerTimeout cl) s = execStragglerTimeout cl s := rfl
theorem exec_bindgo {s : State} {mc} {w} : exec (.bindgo mc w) s = execBindgo mc w s := rfl
theorem exec_groupStart {s : State} {rec} {base} : exec (.groupStart rec base) s = execGroupStart rec base s := rfl
theorem exec_regionStart {s : State} {cl} {bases} : exec (.regionStart cl bases) s = execRegionStart cl bases s := rfl
theorem exec_regionResume {s : State} {cl} {bases} {wgBases} : exec (.regionResume cl bases wgBases) s = execRegionResume cl bases wgBases s := rfl
theorem exec_preempt {s : State} {mc} {w} : exec (.preempt mc w) s = execPreempt mc w s := rfl
theorem exec_save {s : State} {rcb} : exec (.save rcb) s = execSave rcb s := rfl
theorem exec_wtsync {s : State} {mc} {w} : exec (.wtsync mc w) s = execWtsync mc w s := rfl
theorem exec_wtsyncCompletion {s : State} : exec (.wtsyncCompletion) s = execWtsyncCompletion s := rfl
theorem exec_systemRegisterWrite {s : State} {mc} {a} {w} : exec (.systemRegisterWrite mc a w) s = execSystemRegisterWrite mc a w s := rfl
theorem exec_attach {s : State} {mc} {cmd} {data} : exec (.attach mc cmd data) s = execAttach mc cmd data s := rfl
theorem exec_debugHalt {s : State} {mc} {cmd} {data} : exec (.debugHalt mc cmd data) s = execDebugHalt mc cmd data s := rfl
theorem exec_resume {s : State} {mc} {cmd} {data} : exec (.resume mc cmd data) s = execResume mc cmd data s := rfl
theorem exec_step {s : State} {mc} {cmd} {data} : exec (.step mc cmd data) s = execStep mc cmd data s := rfl
theorem exec_stepEnd {s : State} {t} : exec (.stepEnd t) s = execStepEnd t s := rfl
theorem exec_read {s : State} {mc} {cmd} {data} : exec (.read mc cmd data) s = execRead mc cmd data s := rfl
theorem exec_write {s : State} {mc} {cmd} {data} : exec (.write mc cmd data) s = execWrite mc cmd data s := rfl
theorem exec_revoke {s : State} {mc} {cmd} {data} : exec (.revoke mc cmd data) s = execRevoke mc cmd data s := rfl
theorem exec_mread {s : State} {mc} {cmd} {data} : exec (.mread mc cmd data) s = execMread mc cmd data s := rfl
theorem exec_mwrite {s : State} {mc} {cmd} {data} : exec (.mwrite mc cmd data) s = execMwrite mc cmd data s := rfl
theorem exec_retireCourse {s : State} {w} : exec (.retireCourse w) s = execRetireCourse w s := rfl
theorem exec_retireCore {s : State} {w} : exec (.retireCore w) s = execRetireCore w s := rfl
theorem exec_retirePseudoChannel {s : State} {w} : exec (.retirePseudoChannel w) s = execRetirePseudoChannel w s := rfl
theorem exec_retireLink {s : State} {w} : exec (.retireLink w) s = execRetireLink w s := rfl
theorem exec_retirePort {s : State} {w} : exec (.retirePort w) s = execRetirePort w s := rfl
theorem exec_retireCluster {s : State} {w} : exec (.retireCluster w) s = execRetireCluster w s := rfl
theorem exec_ukind {s : State} {mc} {cl} {w} : exec (.ukind mc cl w) s = execUkind mc cl w s := rfl
theorem exec_hashReq {s : State} {mc} {cl} {w} : exec (.hashReq mc cl w) s = execHashReq mc cl w s := rfl
theorem exec_rehashThreshold {s : State} {cl} : exec (.rehashThreshold cl) s = execRehashThreshold cl s := rfl
theorem exec_rehashUnitMove {s : State} {cl} : exec (.rehashUnitMove cl) s = execRehashUnitMove cl s := rfl
theorem exec_spareGo {s : State} {mc} {cl} {w} : exec (.spareGo mc cl w) s = execSpareGo mc cl w s := rfl
theorem exec_spareRemap {s : State} {cl} : exec (.spareRemap cl) s = execSpareRemap cl s := rfl
theorem exec_refresh {s : State} {cl} {pc} {bank} : exec (.refresh cl pc bank) s = execRefresh cl pc bank s := rfl
theorem exec_scrub {s : State} {cl} {secondTier} {burst} {found} : exec (.scrub cl secondTier burst found) s = execScrub cl secondTier burst found s := rfl
theorem exec_routerGrant {s : State} {reply} {cl} {out} : exec (.routerGrant reply cl out) s = execRouterGrant reply cl out s := rfl
theorem exec_sluice {s : State} : exec (.sluice) s = execSluice s := rfl
theorem exec_ndonarDrain {s : State} {port} : exec (.ndonarDrain port) s = execNdonarDrain port s := rfl
theorem exec_requestAtDestination {s : State} {x} : exec (.requestAtDestination x) s = execRequestAtDestination x s := rfl
theorem exec_replyArrival {s : State} {x} : exec (.replyArrival x) s = execReplyArrival x s := rfl
theorem exec_exchangeTimeout {s : State} {x} : exec (.exchangeTimeout x) s = execExchangeTimeout x s := rfl
theorem exec_ringMessageDelivery {s : State} {x} : exec (.ringMessageDelivery x) s = execRingMessageDelivery x s := rfl
theorem exec_ingressCheck {s : State} {p} : exec (.ingressCheck p) s = execIngressCheck p s := rfl
theorem exec_ethernetFrameReceive {s : State} {port} {frame} {fcsGood} : exec (.ethernetFrameReceive port frame fcsGood) s = execEthernetFrameReceive port frame fcsGood s := rfl
theorem exec_fixedLatencyRelease {s : State} {x} : exec (.fixedLatencyRelease x) s = execFixedLatencyRelease x s := rfl
theorem exec_linkDown {s : State} {cl} {dir} : exec (.linkDown cl dir) s = execLinkDown cl dir s := rfl
theorem exec_graphQueueTimeout {s : State} {cl} {q} : exec (.graphQueueTimeout cl q) s = execGraphQueueTimeout cl q s := rfl
theorem exec_deviceReset {s : State} {ports} {mailbox} : exec (.deviceReset ports mailbox) s = execDeviceReset ports mailbox s := rfl
theorem exec_attestationQuote {s : State} {nonce} : exec (.attestationQuote nonce) s = execAttestationQuote nonce s := rfl
theorem exec_thermalTrip {s : State} {die} : exec (.thermalTrip die) s = execThermalTrip die s := rfl
theorem exec_ldxCompletion {s : State} {op} : exec (.ldxCompletion op) s = execLdxCompletion op s := rfl
theorem exec_queueHeadAdvance {s : State} {h} {head} : exec (.queueHeadAdvance h head) s = execQueueHeadAdvance h head s := rfl
theorem exec_conflictWindow {s : State} {cl} : exec (.conflictWindow cl) s = execConflictWindow cl s := rfl

end Sys2Proof.Machine
end

