-- ==== Sys2Proof/Laws/Order.lean ====
section
/-!
SUPPORT. What the operations on the recorded writes change: the writes and their numbers, and nothing else of the state.
-/
namespace Sys2Proof.Machine.State

/-- A change of the writes changes nothing else. -/
theorem modWrites_eq (s : State) (f : WriteRec → WriteRec) : s.modWrites f = { s with writes := (s.modWrites f).writes } := by
  unfold modWrites; split <;> rfl

theorem modWrites_writes (s : State) (f : WriteRec → WriteRec) : (s.modWrites f).writes = s.writes.map f := by
  unfold modWrites
  cases h : s.writes with
  | nil => simp [h]
  | cons r l => simp

theorem pass_eq (s : State) (a b : Holder) (l : List (Nat × BitVec 4)) : s.pass a b l = { s with writes := (s.pass a b l).writes } :=
  s.modWrites_eq _

/-- Two states agree on what scopes and supersteps depend on: the clusters, the regions, and the workgroup of each group. -/
structure SameScopes (s u : State) : Prop where
  clusters : u.clusters = s.clusters
  regions  : u.regions = s.regions
  wg       : ∀ h, (u.grp h).wg = (s.grp h).wg

theorem SameScopes.chains {s u : State} (h : SameScopes s u) (r : WriteRec) (a : Holder) : u.chains r a = s.chains r a := by
  have i : ∀ sc a b, u.inScope sc a b = s.inScope sc a b := fun sc a b => by simp only [inScope, h.wg]
  have c : ∀ k, u.cl k = s.cl k := fun k => by simp only [cl, h.clusters]
  have rc : ∀ q, u.regionClusters q = s.regionClusters q := fun q => by unfold regionClusters; rw [h.regions]
  have p : ∀ a q k n, u.past a q k n = s.past a q k n := fun a q k n => by
    cases q <;> simp only [past, rc, c]
  have d : ∀ l b, u.admits l b = s.admits l b := fun l b => by simp only [admits, i]
  cases a <;> simp only [State.chains, d, p]

/-- What is passed on depends on the writes, the clusters, the regions and the groups' workgroups alone. -/
theorem pass_congr {s u : State} (a b : Holder) (l : List (Nat × BitVec 4)) (hw : u.writes = s.writes) (h : SameScopes s u) :
    (u.pass a b l).writes = (s.pass a b l).writes := by
  have i : ∀ sc a b, u.inScope sc a b = s.inScope sc a b := fun sc a b => by simp only [inScope, h.wg]
  have d : ∀ l b, u.admits l b = s.admits l b := fun l b => by simp only [admits, i]
  unfold pass
  simp only [modWrites_writes, hw, h.chains, d]

/-- Passing on from the lanes of a group to one holder. -/
theorem passLanes_eq (g : Nat) (h : Holder) (ls : List Nat) (s : State) :
    ls.foldl (fun s i => s.pass (.agent (tid g i)) h [(tid g i, 4)]) s =
      { s with writes := (ls.foldl (fun s i => s.pass (.agent (tid g i)) h [(tid g i, 4)]) s).writes } := by
  induction ls generalizing s with
  | nil => rfl
  | cons i ls ih =>
    simp only [List.foldl_cons]
    rw [ih, pass_eq]

theorem passLanes_congr (g : Nat) (h : Holder) (ls : List Nat) {s u : State} (hw : u.writes = s.writes) (k : SameScopes s u) :
    (ls.foldl (fun s i => s.pass (.agent (tid g i)) h [(tid g i, 4)]) u).writes =
      (ls.foldl (fun s i => s.pass (.agent (tid g i)) h [(tid g i, 4)]) s).writes := by
  induction ls generalizing s u with
  | nil => exact hw
  | cons i ls ih =>
    simp only [List.foldl_cons]
    refine ih (pass_congr _ _ _ hw k) ?_
    rw [pass_eq u, pass_eq s]
    exact ⟨k.clusters, k.regions, k.wg⟩

/-- A fold of changes of the writes changes nothing else. -/
theorem foldl_writes_eq {α : Type} (f : State → α → State) (hf : ∀ s a, f s a = { s with writes := (f s a).writes }) (l : List α) (s : State) :
    l.foldl f s = { s with writes := (l.foldl f s).writes } := by
  induction l generalizing s with
  | nil => rfl
  | cons a l ih => simp only [List.foldl_cons]; rw [ih, hf]

theorem modChains_eq (s : State) (a : Nat) (p : WriteRec → Bool) (f : Known → Known) :
    s.modChains a p f = { s with writes := (s.modChains a p f).writes } := s.modWrites_eq _

theorem fenceBy_eq (s : State) (a : Nat) (sc : BitVec 4) : s.fenceBy a sc = { s with writes := (s.fenceBy a sc).writes } := by
  unfold fenceBy
  rw [pass_eq, foldl_writes_eq _ fun s f => pass_eq s _ _ _]

theorem vfenceBy_eq (s : State) (a : Nat) (sc : BitVec 4) : s.vfenceBy a sc = { s with writes := (s.vfenceBy a sc).writes } := by
  unfold vfenceBy
  simp only
  rw [modChains_eq, modChains_eq _ a (fun r => r.writer == a), fenceBy_eq]

theorem ginvBy_eq (s : State) (a : Nat) (sc : BitVec 4) (units : List Nat) :
    s.ginvBy a sc units = { s with writes := (s.ginvBy a sc units).writes } := s.modChains_eq _ _ _

theorem forget_eq (s : State) (a : Nat) : s.forget a = { s with writes := (s.forget a).writes } := s.modWrites_eq _

theorem took_eq (s : State) (a : Nat) (acq : Option (BitVec 4)) (got : List (Nat × Byte × Option Nat)) :
    s.took a acq got = { s with writes := (s.took a acq got).writes } := by
  unfold took
  cases acq with
  | none => exact s.modWrites_eq _
  | some sc =>
    simp only
    rw [foldl_writes_eq _ (fun s w => by split <;> first | exact pass_eq _ _ _ _ | rfl), modWrites_eq]

/-- A read changes only what is known of the writes. -/
theorem see_eq (s : State) (a : Nat) (acq : Option (BitVec 4)) (space : Space) (kind : Nat) (spots : List Nat) :
    (s.see a acq space kind spots).1 = { s with writes := (s.see a acq space kind spots).1.writes } := by
  unfold see; split
  · rfl
  · exact took_eq _ _ _ _

theorem seeAtomic_eq (s : State) (a : Nat) (sc : BitVec 4) (acq : Bool) (space : Space) (spots : List Nat) :
    (s.seeAtomic a sc acq space spots).1 = { s with writes := (s.seeAtomic a sc acq space spots).1.writes } := by
  unfold seeAtomic; split
  · rfl
  · exact took_eq _ _ _ _

theorem acquireSp_eq (s : State) (t : Nat) (sc : BitVec 4) (k n : Nat) :
    s.acquireSp t sc k n = { s with writes := (s.acquireSp t sc k n).writes } := by
  unfold acquireSp; split
  · rfl
  · exact took_eq _ _ _ _

/-- A recorded write changes the writes and the number of the next one. -/
theorem record_eq (s : State) (space : Space) (kind writer : Nat) (also : List Known) (rel : Option (Nat × BitVec 4))
    (atomic : Option (BitVec 4)) (parts : List (Nat × List Byte)) :
    s.record space kind writer also rel atomic parts = { s with
      writes := (s.record space kind writer also rel atomic parts).writes, seq := s.seq + parts.length } := by
  unfold record
  simp only
  split
  · rw [pass_eq]
  · rfl

end Sys2Proof.Machine.State
end

