-- ==== Sys2Proof/Laws/Map.lean ====
section
/-!
SUPPORT. Laws of sparse maps and of memory: what a read finds after a write, and that every operation keeps the canonical form.
-/
namespace Sys2Proof.Machine

variable {α : Type}

/-! ## What a key holds -/

theorem mget_mdel_same (d : α) (m : FMap α) (k : Nat) : mget d (mdel m k) k = d := by
  induction m with
  | nil => rfl
  | cons e m ih =>
    obtain ⟨j, w⟩ := e
    by_cases h : k = j
    · simp [mdel, h] at *; simpa [h] using ih
    · simp [mdel, mget, h, ih]

theorem mget_mdel_other (d : α) (m : FMap α) {k j : Nat} (h : j ≠ k) : mget d (mdel m k) j = mget d m j := by
  induction m with
  | nil => rfl
  | cons e m ih =>
    obtain ⟨i, w⟩ := e
    by_cases hi : k = i
    · subst hi; simp [mdel, mget, h, ih]
    · by_cases hj : j = i <;> simp [mdel, mget, hi, hj, ih]

theorem mget_mput_same (d : α) (m : FMap α) (k : Nat) (v : α) : mget d (mput m k v) k = v := by
  induction m with
  | nil => simp [mput, mget]
  | cons e m ih =>
    obtain ⟨j, w⟩ := e
    simp only [mput]
    split
    · simp [mget]
    · split
      · simp [mget]
      · simp [mget, *]

theorem mget_mput_other (d : α) (m : FMap α) {k j : Nat} (v : α) (h : j ≠ k) : mget d (mput m k v) j = mget d m j := by
  induction m with
  | nil => simp [mput, mget, h]
  | cons e m ih =>
    obtain ⟨i, w⟩ := e
    simp only [mput]
    split
    · simp [mget, h]
    · split
      · subst_vars; simp [mget, h]
      · simp [mget, ih]

/-- A read of the key written finds the value written. -/
@[simp] theorem mget_mset_same [DecidableEq α] (d : α) (m : FMap α) (k : Nat) (v : α) : mget d (mset d m k v) k = v := by
  unfold mset
  split
  · simp [mget_mdel_same, *]
  · exact mget_mput_same d m k v

/-- A read of another key finds what it found before. -/
theorem mget_mset_other [DecidableEq α] (d : α) (m : FMap α) {k j : Nat} (v : α) (h : j ≠ k) :
    mget d (mset d m k v) j = mget d m j := by
  unfold mset
  split
  · exact mget_mdel_other d m h
  · exact mget_mput_other d m v h

theorem mget_mset [DecidableEq α] (d : α) (m : FMap α) (k j : Nat) (v : α) :
    mget d (mset d m k v) j = if j = k then v else mget d m j := by
  by_cases h : j = k
  · subst h; simp
  · simp [mget_mset_other d m v h, h]

/-! ## The canonical form -/

/-- The canonical form, said as a chain: every key is above the one before it, and no value is the default. -/
theorem mwf_cons [DecidableEq α] (d : α) (j : Nat) (v : α) (m : FMap α) :
    mwf d ((j, v) :: m) = true ↔ v ≠ d ∧ (∀ e ∈ m, j < e.1) ∧ mwf d m = true := by
  induction m generalizing j v with
  | nil => simp [mwf]
  | cons e m ih =>
    obtain ⟨k, w⟩ := e
    simp only [mwf, Bool.and_eq_true, decide_eq_true_eq]
    constructor
    · rintro ⟨⟨h1, h2⟩, h3⟩
      refine ⟨h2, ?_, h3⟩
      intro e he
      rcases List.mem_cons.1 he with rfl | he
      · exact h1
      · exact Nat.lt_trans h1 (((ih k w).1 h3).2.1 e he)
    · rintro ⟨h1, h2, h3⟩
      exact ⟨⟨h2 (k, w) (by simp), h1⟩, h3⟩

theorem mwf_filter [DecidableEq α] (d : α) (p : Nat × α → Bool) (m : FMap α) (h : mwf d m = true) :
    mwf d (m.filter p) = true := by
  induction m with
  | nil => exact h
  | cons e m ih =>
    obtain ⟨j, v⟩ := e
    obtain ⟨h1, h2, h3⟩ := (mwf_cons d j v m).1 h
    by_cases hp : p (j, v) = true
    · rw [List.filter_cons_of_pos hp, mwf_cons]
      exact ⟨h1, fun e he => h2 e (List.mem_of_mem_filter he), ih h3⟩
    · rw [List.filter_cons_of_neg hp]; exact ih h3

theorem mem_mput {m : FMap α} {k : Nat} {v : α} {e : Nat × α} (h : e ∈ mput m k v) : e = (k, v) ∨ e ∈ m := by
  induction m with
  | nil => simpa [mput] using h
  | cons x m ih =>
    obtain ⟨j, w⟩ := x
    simp only [mput] at h
    split at h
    · simpa using h
    · split at h
      · rcases List.mem_cons.1 h with h | h
        · exact .inl h
        · exact .inr (List.mem_cons_of_mem _ h)
      · rcases List.mem_cons.1 h with h | h
        · exact .inr (by simp [h])
        · rcases ih h with h | h
          · exact .inl h
          · exact .inr (List.mem_cons_of_mem _ h)

theorem mem_mdel {m : FMap α} {k : Nat} {e : Nat × α} (h : e ∈ mdel m k) : e ∈ m := by
  induction m with
  | nil => exact h
  | cons x m ih =>
    obtain ⟨j, w⟩ := x
    simp only [mdel] at h
    split at h
    · exact List.mem_cons_of_mem _ (ih h)
    · rcases List.mem_cons.1 h with h | h
      · simp [h]
      · exact List.mem_cons_of_mem _ (ih h)

theorem mwf_mdel [DecidableEq α] (d : α) (m : FMap α) (k : Nat) (h : mwf d m = true) : mwf d (mdel m k) = true := by
  induction m with
  | nil => exact h
  | cons e m ih =>
    obtain ⟨j, v⟩ := e
    obtain ⟨h1, h2, h3⟩ := (mwf_cons d j v m).1 h
    simp only [mdel]
    split
    · exact ih h3
    · rw [mwf_cons]; exact ⟨h1, fun e he => h2 e (mem_mdel he), ih h3⟩

theorem mwf_mput [DecidableEq α] (d : α) (m : FMap α) (k : Nat) (v : α) (hv : v ≠ d) (h : mwf d m = true) :
    mwf d (mput m k v) = true := by
  induction m with
  | nil => simp [mput, mwf, hv]
  | cons e m ih =>
    obtain ⟨j, w⟩ := e
    obtain ⟨h1, h2, h3⟩ := (mwf_cons d j w m).1 h
    simp only [mput]
    split
    · rename_i hk
      rw [mwf_cons]
      refine ⟨hv, ?_, h⟩
      intro e he
      rcases List.mem_cons.1 he with rfl | he
      · exact hk
      · exact Nat.lt_trans hk (h2 e he)
    · split
      · rename_i hk hj; subst hj; rw [mwf_cons]; exact ⟨hv, h2, h3⟩
      · rename_i hk hj
        rw [mwf_cons]
        refine ⟨h1, ?_, ih h3⟩
        intro e he
        rcases mem_mput he with rfl | he
        · simp; omega
        · exact h2 e he

/-- A write keeps the canonical form. -/
theorem mwf_mset [DecidableEq α] (d : α) (m : FMap α) (k : Nat) (v : α) (h : mwf d m = true) :
    mwf d (mset d m k v) = true := by
  unfold mset
  split
  · exact mwf_mdel d m k h
  · rename_i hv; exact mwf_mput d m k v hv h

/-- Clearing a range of keys keeps the canonical form. -/
theorem mwf_mclear [DecidableEq α] (d : α) (m : FMap α) (lo hi : Nat) (h : mwf d m = true) :
    mwf d (mclear m lo hi) = true := mwf_filter d _ m h

/-! ## Memory -/

/-- A byte read where it was written. -/
@[simp] theorem Memory.byte_setByte_same (m : Memory) (a : Nat) (b : Byte) : (m.setByte a b).byte a = b :=
  mget_mset_same _ m a b

/-- A byte read elsewhere. -/
theorem Memory.byte_setByte_other (m : Memory) {a x : Nat} (b : Byte) (h : x ≠ a) :
    (m.setByte a b).byte x = m.byte x := mget_mset_other _ m b h

/-- A byte outside the bytes written reads as before. -/
theorem Memory.byte_put_outside (m : Memory) (a : Nat) (l : List Byte) (x : Nat) (h : x < a ∨ a + l.length ≤ x) :
    (m.put a l).byte x = m.byte x := by
  induction l generalizing m a with
  | nil => rfl
  | cons b l ih =>
    simp only [List.length_cons] at h
    simp only [Memory.put]
    rw [ih _ (a + 1) (by omega), Memory.byte_setByte_other _ _ (by omega)]

/-- A byte among the bytes written reads as the one written there. -/
theorem Memory.byte_put_inside (m : Memory) (a : Nat) (l : List Byte) (n : Nat) (h : n < l.length) :
    (m.put a l).byte (a + n) = l[n] := by
  induction l generalizing m a n with
  | nil => simp at h
  | cons b l ih =>
    simp only [Memory.put]
    cases n with
    | zero => rw [Memory.byte_put_outside _ _ _ _ (by omega)]; simp
    | succ n =>
      have := ih (m.setByte a b) (a + 1) n (by simpa using h)
      rw [show a + (n + 1) = a + 1 + n by omega, this]; simp

/-- Writing one byte keeps the canonical form. -/
theorem Memory.wf_setByte (m : Memory) (a : Nat) (b : Byte) (h : m.wf = true) : (m.setByte a b).wf = true :=
  mwf_mset _ m a b h

/-- Writing bytes keeps the canonical form. -/
theorem Memory.wf_put (m : Memory) (a : Nat) (l : List Byte) (h : m.wf = true) : (m.put a l).wf = true := by
  induction l generalizing m a with
  | nil => exact h
  | cons b l ih => exact ih _ _ (Memory.wf_setByte m a b h)

/-- Writing a number keeps the canonical form. -/
theorem Memory.wf_write (m : Memory) (a n x : Nat) (h : m.wf = true) : (m.write a n x).wf = true := Memory.wf_put m a _ h

/-- Clearing a range of addresses keeps the canonical form. -/
theorem Memory.wf_mclear (m : Memory) (lo hi : Nat) (h : m.wf = true) : Memory.wf (mclear m lo hi) = true :=
  mwf_mclear _ m lo hi h

theorem leBytes_length (x n : Nat) : (leBytes x n).length = n := by
  induction n generalizing x with
  | zero => rfl
  | succ n ih => simp [leBytes, ih]

/-- A number read from bytes that hold it (R10). -/
theorem Memory.read_put_leBytes (m : Memory) (a n x : Nat) : (m.put a (leBytes x n)).read a n = x % 256 ^ n := by
  induction n generalizing m a x with
  | zero => simp [Memory.read, Nat.mod_one]
  | succ n ih =>
    simp only [leBytes, Memory.put, Memory.read]
    rw [ih, Memory.byte_put_outside _ _ _ _ (by omega), Memory.byte_setByte_same, Nat.pow_succ, Nat.mul_comm (256 ^ n) 256,
      Nat.mod_mul]
    simp [BitVec.toNat_ofNat]

/-- Reading back a number written whole (R10). -/
theorem Memory.read_write_same (m : Memory) (a n x : Nat) : (m.write a n x).read a n = x % 256 ^ n :=
  Memory.read_put_leBytes m a n x

/-- A number read from bytes that a write does not reach. -/
theorem Memory.read_put_outside (m : Memory) (a : Nat) (l : List Byte) (x n : Nat) (h : x + n ≤ a ∨ a + l.length ≤ x) :
    (m.put a l).read x n = m.read x n := by
  induction n generalizing x with
  | zero => rfl
  | succ n ih => simp only [Memory.read]; rw [Memory.byte_put_outside _ _ _ _ (by omega), ih (x + 1) (by omega)]

/-! ## Sets of lanes -/

theorem mem_lanesOf {m : BitVec 32} {i : Nat} : i ∈ lanesOf m ↔ i < 32 ∧ m.getLsbD i = true := by
  simp [lanesOf]

theorem lanesOf_nodup (m : BitVec 32) : (lanesOf m).Nodup := List.Nodup.filter _ List.nodup_range

end Sys2Proof.Machine
end

