-- ==== Sys2Proof/Laws/State.lean ====
section
/-!
SUPPORT. What each update of the state leaves unchanged, field by field, and what each accessor finds after each update.
-/
namespace Sys2Proof.Machine.State

/-! ## `setThr` -/

@[simp] theorem setThr_mem (s : State) (t : Nat) (x : Thread) : (s.setThr t x).mem = s.mem := rfl
@[simp] theorem setThr_sp (s : State) (t : Nat) (x : Thread) : (s.setThr t x).sp = s.sp := rfl
@[simp] theorem setThr_groups (s : State) (t : Nat) (x : Thread) : (s.setThr t x).groups = s.groups := rfl
@[simp] theorem setThr_wgs (s : State) (t : Nat) (x : Thread) : (s.setThr t x).wgs = s.wgs := rfl
@[simp] theorem setThr_cores (s : State) (t : Nat) (x : Thread) : (s.setThr t x).cores = s.cores := rfl
@[simp] theorem setThr_clusters (s : State) (t : Nat) (x : Thread) : (s.setThr t x).clusters = s.clusters := rfl
@[simp] theorem setThr_courses (s : State) (t : Nat) (x : Thread) : (s.setThr t x).courses = s.courses := rfl
@[simp] theorem setThr_copyq (s : State) (t : Nat) (x : Thread) : (s.setThr t x).copyq = s.copyq := rfl
@[simp] theorem setThr_regions (s : State) (t : Nat) (x : Thread) : (s.setThr t x).regions = s.regions := rfl
@[simp] theorem setThr_sleepers (s : State) (t : Nat) (x : Thread) : (s.setThr t x).sleepers = s.sleepers := rfl
@[simp] theorem setThr_ops (s : State) (t : Nat) (x : Thread) : (s.setThr t x).ops = s.ops := rfl
@[simp] theorem setThr_joins (s : State) (t : Nat) (x : Thread) : (s.setThr t x).joins = s.joins := rfl
@[simp] theorem setThr_pending (s : State) (t : Nat) (x : Thread) : (s.setThr t x).pending = s.pending := rfl
@[simp] theorem setThr_tlb (s : State) (t : Nat) (x : Thread) : (s.setThr t x).tlb = s.tlb := rfl
@[simp] theorem setThr_tabs (s : State) (t : Nat) (x : Thread) : (s.setThr t x).tabs = s.tabs := rfl
@[simp] theorem setThr_codes (s : State) (t : Nat) (x : Thread) : (s.setThr t x).codes = s.codes := rfl
@[simp] theorem setThr_layouts (s : State) (t : Nat) (x : Thread) : (s.setThr t x).layouts = s.layouts := rfl
@[simp] theorem setThr_writes (s : State) (t : Nat) (x : Thread) : (s.setThr t x).writes = s.writes := rfl
@[simp] theorem setThr_world (s : State) (t : Nat) (x : Thread) : (s.setThr t x).world = s.world := rfl
@[simp] theorem setThr_wtSync (s : State) (t : Nat) (x : Thread) : (s.setThr t x).wtSync = s.wtSync := rfl
@[simp] theorem setThr_xfers (s : State) (t : Nat) (x : Thread) : (s.setThr t x).xfers = s.xfers := rfl
@[simp] theorem setThr_routers (s : State) (t : Nat) (x : Thread) : (s.setThr t x).routers = s.routers := rfl
@[simp] theorem setThr_drains (s : State) (t : Nat) (x : Thread) : (s.setThr t x).drains = s.drains := rfl
@[simp] theorem setThr_arbs (s : State) (t : Nat) (x : Thread) : (s.setThr t x).arbs = s.arbs := rfl
@[simp] theorem setThr_stops (s : State) (t : Nat) (x : Thread) : (s.setThr t x).stops = s.stops := rfl
@[simp] theorem setThr_portq (s : State) (t : Nat) (x : Thread) : (s.setThr t x).portq = s.portq := rfl
@[simp] theorem setThr_portDrain (s : State) (t : Nat) (x : Thread) : (s.setThr t x).portDrain = s.portDrain := rfl
@[simp] theorem setThr_portLast (s : State) (t : Nat) (x : Thread) : (s.setThr t x).portLast = s.portLast := rfl
@[simp] theorem setThr_frames (s : State) (t : Nat) (x : Thread) : (s.setThr t x).frames = s.frames := rfl
@[simp] theorem setThr_linksDown (s : State) (t : Nat) (x : Thread) : (s.setThr t x).linksDown = s.linksDown := rfl
@[simp] theorem setThr_portsDown (s : State) (t : Nat) (x : Thread) : (s.setThr t x).portsDown = s.portsDown := rfl
@[simp] theorem setThr_coresGone (s : State) (t : Nat) (x : Thread) : (s.setThr t x).coresGone = s.coresGone := rfl
@[simp] theorem setThr_coresHeld (s : State) (t : Nat) (x : Thread) : (s.setThr t x).coresHeld = s.coresHeld := rfl
@[simp] theorem setThr_retired (s : State) (t : Nat) (x : Thread) : (s.setThr t x).retired = s.retired := rfl
@[simp] theorem setThr_slices (s : State) (t : Nat) (x : Thread) : (s.setThr t x).slices = s.slices := rfl
@[simp] theorem setThr_sys (s : State) (t : Nat) (x : Thread) : (s.setThr t x).sys = s.sys := rfl
@[simp] theorem setThr_cycle (s : State) (t : Nat) (x : Thread) : (s.setThr t x).cycle = s.cycle := rfl
@[simp] theorem setThr_evWait (s : State) (t : Nat) (x : Thread) : (s.setThr t x).evWait = s.evWait := rfl
@[simp] theorem setThr_acctWait (s : State) (t : Nat) (x : Thread) : (s.setThr t x).acctWait = s.acctWait := rfl
@[simp] theorem setThr_awaits (s : State) (t : Nat) (x : Thread) : (s.setThr t x).awaits = s.awaits := rfl
@[simp] theorem setThr_parks (s : State) (t : Nat) (x : Thread) : (s.setThr t x).parks = s.parks := rfl
@[simp] theorem setThr_samples (s : State) (t : Nat) (x : Thread) : (s.setThr t x).samples = s.samples := rfl
@[simp] theorem setThr_launches (s : State) (t : Nat) (x : Thread) : (s.setThr t x).launches = s.launches := rfl
@[simp] theorem setThr_attached (s : State) (t : Nat) (x : Thread) : (s.setThr t x).attached = s.attached := rfl
@[simp] theorem setThr_dbgData (s : State) (t : Nat) (x : Thread) : (s.setThr t x).dbgData = s.dbgData := rfl
@[simp] theorem setThr_edited (s : State) (t : Nat) (x : Thread) : (s.setThr t x).edited = s.edited := rfl
@[simp] theorem setThr_latent (s : State) (t : Nat) (x : Thread) : (s.setThr t x).latent = s.latent := rfl
@[simp] theorem setThr_boot (s : State) (t : Nat) (x : Thread) : (s.setThr t x).boot = s.boot := rfl
@[simp] theorem setThr_nextId (s : State) (t : Nat) (x : Thread) : (s.setThr t x).nextId = s.nextId := rfl
@[simp] theorem setThr_draw (s : State) (t : Nat) (x : Thread) : (s.setThr t x).draw = s.draw := rfl
@[simp] theorem setThr_seq (s : State) (t : Nat) (x : Thread) : (s.setThr t x).seq = s.seq := rfl
@[simp] theorem setThr_hole (s : State) (t : Nat) (x : Thread) : (s.setThr t x).hole = s.hole := rfl
@[simp] theorem setThr_cur (s : State) (t : Nat) (x : Thread) : (s.setThr t x).cur = s.cur := rfl
@[simp] theorem setThr_turns (s : State) (t : Nat) (x : Thread) : (s.setThr t x).turns = s.turns := rfl
@[simp] theorem setThr_agenda (s : State) (t : Nat) (x : Thread) : (s.setThr t x).agenda = s.agenda := rfl
@[simp] theorem setThr_inputs (s : State) (t : Nat) (x : Thread) : (s.setThr t x).inputs = s.inputs := rfl

/-! ## `setGrp` -/

@[simp] theorem setGrp_mem (s : State) (g : Nat) (x : Group) : (s.setGrp g x).mem = s.mem := rfl
@[simp] theorem setGrp_sp (s : State) (g : Nat) (x : Group) : (s.setGrp g x).sp = s.sp := rfl
@[simp] theorem setGrp_threads (s : State) (g : Nat) (x : Group) : (s.setGrp g x).threads = s.threads := rfl
@[simp] theorem setGrp_wgs (s : State) (g : Nat) (x : Group) : (s.setGrp g x).wgs = s.wgs := rfl
@[simp] theorem setGrp_cores (s : State) (g : Nat) (x : Group) : (s.setGrp g x).cores = s.cores := rfl
@[simp] theorem setGrp_clusters (s : State) (g : Nat) (x : Group) : (s.setGrp g x).clusters = s.clusters := rfl
@[simp] theorem setGrp_courses (s : State) (g : Nat) (x : Group) : (s.setGrp g x).courses = s.courses := rfl
@[simp] theorem setGrp_copyq (s : State) (g : Nat) (x : Group) : (s.setGrp g x).copyq = s.copyq := rfl
@[simp] theorem setGrp_regions (s : State) (g : Nat) (x : Group) : (s.setGrp g x).regions = s.regions := rfl
@[simp] theorem setGrp_sleepers (s : State) (g : Nat) (x : Group) : (s.setGrp g x).sleepers = s.sleepers := rfl
@[simp] theorem setGrp_ops (s : State) (g : Nat) (x : Group) : (s.setGrp g x).ops = s.ops := rfl
@[simp] theorem setGrp_joins (s : State) (g : Nat) (x : Group) : (s.setGrp g x).joins = s.joins := rfl
@[simp] theorem setGrp_pending (s : State) (g : Nat) (x : Group) : (s.setGrp g x).pending = s.pending := rfl
@[simp] theorem setGrp_tlb (s : State) (g : Nat) (x : Group) : (s.setGrp g x).tlb = s.tlb := rfl
@[simp] theorem setGrp_tabs (s : State) (g : Nat) (x : Group) : (s.setGrp g x).tabs = s.tabs := rfl
@[simp] theorem setGrp_codes (s : State) (g : Nat) (x : Group) : (s.setGrp g x).codes = s.codes := rfl
@[simp] theorem setGrp_layouts (s : State) (g : Nat) (x : Group) : (s.setGrp g x).layouts = s.layouts := rfl
@[simp] theorem setGrp_writes (s : State) (g : Nat) (x : Group) : (s.setGrp g x).writes = s.writes := rfl
@[simp] theorem setGrp_world (s : State) (g : Nat) (x : Group) : (s.setGrp g x).world = s.world := rfl
@[simp] theorem setGrp_wtSync (s : State) (g : Nat) (x : Group) : (s.setGrp g x).wtSync = s.wtSync := rfl
@[simp] theorem setGrp_xfers (s : State) (g : Nat) (x : Group) : (s.setGrp g x).xfers = s.xfers := rfl
@[simp] theorem setGrp_routers (s : State) (g : Nat) (x : Group) : (s.setGrp g x).routers = s.routers := rfl
@[simp] theorem setGrp_drains (s : State) (g : Nat) (x : Group) : (s.setGrp g x).drains = s.drains := rfl
@[simp] theorem setGrp_arbs (s : State) (g : Nat) (x : Group) : (s.setGrp g x).arbs = s.arbs := rfl
@[simp] theorem setGrp_stops (s : State) (g : Nat) (x : Group) : (s.setGrp g x).stops = s.stops := rfl
@[simp] theorem setGrp_portq (s : State) (g : Nat) (x : Group) : (s.setGrp g x).portq = s.portq := rfl
@[simp] theorem setGrp_portDrain (s : State) (g : Nat) (x : Group) : (s.setGrp g x).portDrain = s.portDrain := rfl
@[simp] theorem setGrp_portLast (s : State) (g : Nat) (x : Group) : (s.setGrp g x).portLast = s.portLast := rfl
@[simp] theorem setGrp_frames (s : State) (g : Nat) (x : Group) : (s.setGrp g x).frames = s.frames := rfl
@[simp] theorem setGrp_linksDown (s : State) (g : Nat) (x : Group) : (s.setGrp g x).linksDown = s.linksDown := rfl
@[simp] theorem setGrp_portsDown (s : State) (g : Nat) (x : Group) : (s.setGrp g x).portsDown = s.portsDown := rfl
@[simp] theorem setGrp_coresGone (s : State) (g : Nat) (x : Group) : (s.setGrp g x).coresGone = s.coresGone := rfl
@[simp] theorem setGrp_coresHeld (s : State) (g : Nat) (x : Group) : (s.setGrp g x).coresHeld = s.coresHeld := rfl
@[simp] theorem setGrp_retired (s : State) (g : Nat) (x : Group) : (s.setGrp g x).retired = s.retired := rfl
@[simp] theorem setGrp_slices (s : State) (g : Nat) (x : Group) : (s.setGrp g x).slices = s.slices := rfl
@[simp] theorem setGrp_sys (s : State) (g : Nat) (x : Group) : (s.setGrp g x).sys = s.sys := rfl
@[simp] theorem setGrp_cycle (s : State) (g : Nat) (x : Group) : (s.setGrp g x).cycle = s.cycle := rfl
@[simp] theorem setGrp_evWait (s : State) (g : Nat) (x : Group) : (s.setGrp g x).evWait = s.evWait := rfl
@[simp] theorem setGrp_acctWait (s : State) (g : Nat) (x : Group) : (s.setGrp g x).acctWait = s.acctWait := rfl
@[simp] theorem setGrp_awaits (s : State) (g : Nat) (x : Group) : (s.setGrp g x).awaits = s.awaits := rfl
@[simp] theorem setGrp_parks (s : State) (g : Nat) (x : Group) : (s.setGrp g x).parks = s.parks := rfl
@[simp] theorem setGrp_samples (s : State) (g : Nat) (x : Group) : (s.setGrp g x).samples = s.samples := rfl
@[simp] theorem setGrp_launches (s : State) (g : Nat) (x : Group) : (s.setGrp g x).launches = s.launches := rfl
@[simp] theorem setGrp_attached (s : State) (g : Nat) (x : Group) : (s.setGrp g x).attached = s.attached := rfl
@[simp] theorem setGrp_dbgData (s : State) (g : Nat) (x : Group) : (s.setGrp g x).dbgData = s.dbgData := rfl
@[simp] theorem setGrp_edited (s : State) (g : Nat) (x : Group) : (s.setGrp g x).edited = s.edited := rfl
@[simp] theorem setGrp_latent (s : State) (g : Nat) (x : Group) : (s.setGrp g x).latent = s.latent := rfl
@[simp] theorem setGrp_boot (s : State) (g : Nat) (x : Group) : (s.setGrp g x).boot = s.boot := rfl
@[simp] theorem setGrp_nextId (s : State) (g : Nat) (x : Group) : (s.setGrp g x).nextId = s.nextId := rfl
@[simp] theorem setGrp_draw (s : State) (g : Nat) (x : Group) : (s.setGrp g x).draw = s.draw := rfl
@[simp] theorem setGrp_seq (s : State) (g : Nat) (x : Group) : (s.setGrp g x).seq = s.seq := rfl
@[simp] theorem setGrp_hole (s : State) (g : Nat) (x : Group) : (s.setGrp g x).hole = s.hole := rfl
@[simp] theorem setGrp_cur (s : State) (g : Nat) (x : Group) : (s.setGrp g x).cur = s.cur := rfl
@[simp] theorem setGrp_turns (s : State) (g : Nat) (x : Group) : (s.setGrp g x).turns = s.turns := rfl
@[simp] theorem setGrp_agenda (s : State) (g : Nat) (x : Group) : (s.setGrp g x).agenda = s.agenda := rfl
@[simp] theorem setGrp_inputs (s : State) (g : Nat) (x : Group) : (s.setGrp g x).inputs = s.inputs := rfl

/-! ## `setWg` -/

@[simp] theorem setWg_mem (s : State) (k : Nat) (x : Workgroup) : (s.setWg k x).mem = s.mem := rfl
@[simp] theorem setWg_sp (s : State) (k : Nat) (x : Workgroup) : (s.setWg k x).sp = s.sp := rfl
@[simp] theorem setWg_threads (s : State) (k : Nat) (x : Workgroup) : (s.setWg k x).threads = s.threads := rfl
@[simp] theorem setWg_groups (s : State) (k : Nat) (x : Workgroup) : (s.setWg k x).groups = s.groups := rfl
@[simp] theorem setWg_cores (s : State) (k : Nat) (x : Workgroup) : (s.setWg k x).cores = s.cores := rfl
@[simp] theorem setWg_clusters (s : State) (k : Nat) (x : Workgroup) : (s.setWg k x).clusters = s.clusters := rfl
@[simp] theorem setWg_courses (s : State) (k : Nat) (x : Workgroup) : (s.setWg k x).courses = s.courses := rfl
@[simp] theorem setWg_copyq (s : State) (k : Nat) (x : Workgroup) : (s.setWg k x).copyq = s.copyq := rfl
@[simp] theorem setWg_regions (s : State) (k : Nat) (x : Workgroup) : (s.setWg k x).regions = s.regions := rfl
@[simp] theorem setWg_sleepers (s : State) (k : Nat) (x : Workgroup) : (s.setWg k x).sleepers = s.sleepers := rfl
@[simp] theorem setWg_ops (s : State) (k : Nat) (x : Workgroup) : (s.setWg k x).ops = s.ops := rfl
@[simp] theorem setWg_joins (s : State) (k : Nat) (x : Workgroup) : (s.setWg k x).joins = s.joins := rfl
@[simp] theorem setWg_pending (s : State) (k : Nat) (x : Workgroup) : (s.setWg k x).pending = s.pending := rfl
@[simp] theorem setWg_tlb (s : State) (k : Nat) (x : Workgroup) : (s.setWg k x).tlb = s.tlb := rfl
@[simp] theorem setWg_tabs (s : State) (k : Nat) (x : Workgroup) : (s.setWg k x).tabs = s.tabs := rfl
@[simp] theorem setWg_codes (s : State) (k : Nat) (x : Workgroup) : (s.setWg k x).codes = s.codes := rfl
@[simp] theorem setWg_layouts (s : State) (k : Nat) (x : Workgroup) : (s.setWg k x).layouts = s.layouts := rfl
@[simp] theorem setWg_writes (s : State) (k : Nat) (x : Workgroup) : (s.setWg k x).writes = s.writes := rfl
@[simp] theorem setWg_world (s : State) (k : Nat) (x : Workgroup) : (s.setWg k x).world = s.world := rfl
@[simp] theorem setWg_wtSync (s : State) (k : Nat) (x : Workgroup) : (s.setWg k x).wtSync = s.wtSync := rfl
@[simp] theorem setWg_xfers (s : State) (k : Nat) (x : Workgroup) : (s.setWg k x).xfers = s.xfers := rfl
@[simp] theorem setWg_routers (s : State) (k : Nat) (x : Workgroup) : (s.setWg k x).routers = s.routers := rfl
@[simp] theorem setWg_drains (s : State) (k : Nat) (x : Workgroup) : (s.setWg k x).drains = s.drains := rfl
@[simp] theorem setWg_arbs (s : State) (k : Nat) (x : Workgroup) : (s.setWg k x).arbs = s.arbs := rfl
@[simp] theorem setWg_stops (s : State) (k : Nat) (x : Workgroup) : (s.setWg k x).stops = s.stops := rfl
@[simp] theorem setWg_portq (s : State) (k : Nat) (x : Workgroup) : (s.setWg k x).portq = s.portq := rfl
@[simp] theorem setWg_portDrain (s : State) (k : Nat) (x : Workgroup) : (s.setWg k x).portDrain = s.portDrain := rfl
@[simp] theorem setWg_portLast (s : State) (k : Nat) (x : Workgroup) : (s.setWg k x).portLast = s.portLast := rfl
@[simp] theorem setWg_frames (s : State) (k : Nat) (x : Workgroup) : (s.setWg k x).frames = s.frames := rfl
@[simp] theorem setWg_linksDown (s : State) (k : Nat) (x : Workgroup) : (s.setWg k x).linksDown = s.linksDown := rfl
@[simp] theorem setWg_portsDown (s : State) (k : Nat) (x : Workgroup) : (s.setWg k x).portsDown = s.portsDown := rfl
@[simp] theorem setWg_coresGone (s : State) (k : Nat) (x : Workgroup) : (s.setWg k x).coresGone = s.coresGone := rfl
@[simp] theorem setWg_coresHeld (s : State) (k : Nat) (x : Workgroup) : (s.setWg k x).coresHeld = s.coresHeld := rfl
@[simp] theorem setWg_retired (s : State) (k : Nat) (x : Workgroup) : (s.setWg k x).retired = s.retired := rfl
@[simp] theorem setWg_slices (s : State) (k : Nat) (x : Workgroup) : (s.setWg k x).slices = s.slices := rfl
@[simp] theorem setWg_sys (s : State) (k : Nat) (x : Workgroup) : (s.setWg k x).sys = s.sys := rfl
@[simp] theorem setWg_cycle (s : State) (k : Nat) (x : Workgroup) : (s.setWg k x).cycle = s.cycle := rfl
@[simp] theorem setWg_evWait (s : State) (k : Nat) (x : Workgroup) : (s.setWg k x).evWait = s.evWait := rfl
@[simp] theorem setWg_acctWait (s : State) (k : Nat) (x : Workgroup) : (s.setWg k x).acctWait = s.acctWait := rfl
@[simp] theorem setWg_awaits (s : State) (k : Nat) (x : Workgroup) : (s.setWg k x).awaits = s.awaits := rfl
@[simp] theorem setWg_parks (s : State) (k : Nat) (x : Workgroup) : (s.setWg k x).parks = s.parks := rfl
@[simp] theorem setWg_samples (s : State) (k : Nat) (x : Workgroup) : (s.setWg k x).samples = s.samples := rfl
@[simp] theorem setWg_launches (s : State) (k : Nat) (x : Workgroup) : (s.setWg k x).launches = s.launches := rfl
@[simp] theorem setWg_attached (s : State) (k : Nat) (x : Workgroup) : (s.setWg k x).attached = s.attached := rfl
@[simp] theorem setWg_dbgData (s : State) (k : Nat) (x : Workgroup) : (s.setWg k x).dbgData = s.dbgData := rfl
@[simp] theorem setWg_edited (s : State) (k : Nat) (x : Workgroup) : (s.setWg k x).edited = s.edited := rfl
@[simp] theorem setWg_latent (s : State) (k : Nat) (x : Workgroup) : (s.setWg k x).latent = s.latent := rfl
@[simp] theorem setWg_boot (s : State) (k : Nat) (x : Workgroup) : (s.setWg k x).boot = s.boot := rfl
@[simp] theorem setWg_nextId (s : State) (k : Nat) (x : Workgroup) : (s.setWg k x).nextId = s.nextId := rfl
@[simp] theorem setWg_draw (s : State) (k : Nat) (x : Workgroup) : (s.setWg k x).draw = s.draw := rfl
@[simp] theorem setWg_seq (s : State) (k : Nat) (x : Workgroup) : (s.setWg k x).seq = s.seq := rfl
@[simp] theorem setWg_hole (s : State) (k : Nat) (x : Workgroup) : (s.setWg k x).hole = s.hole := rfl
@[simp] theorem setWg_cur (s : State) (k : Nat) (x : Workgroup) : (s.setWg k x).cur = s.cur := rfl
@[simp] theorem setWg_turns (s : State) (k : Nat) (x : Workgroup) : (s.setWg k x).turns = s.turns := rfl
@[simp] theorem setWg_agenda (s : State) (k : Nat) (x : Workgroup) : (s.setWg k x).agenda = s.agenda := rfl
@[simp] theorem setWg_inputs (s : State) (k : Nat) (x : Workgroup) : (s.setWg k x).inputs = s.inputs := rfl

/-! ## `setCore` -/

@[simp] theorem setCore_mem (s : State) (k : Nat) (x : CoreSt) : (s.setCore k x).mem = s.mem := rfl
@[simp] theorem setCore_sp (s : State) (k : Nat) (x : CoreSt) : (s.setCore k x).sp = s.sp := rfl
@[simp] theorem setCore_threads (s : State) (k : Nat) (x : CoreSt) : (s.setCore k x).threads = s.threads := rfl
@[simp] theorem setCore_groups (s : State) (k : Nat) (x : CoreSt) : (s.setCore k x).groups = s.groups := rfl
@[simp] theorem setCore_wgs (s : State) (k : Nat) (x : CoreSt) : (s.setCore k x).wgs = s.wgs := rfl
@[simp] theorem setCore_clusters (s : State) (k : Nat) (x : CoreSt) : (s.setCore k x).clusters = s.clusters := rfl
@[simp] theorem setCore_courses (s : State) (k : Nat) (x : CoreSt) : (s.setCore k x).courses = s.courses := rfl
@[simp] theorem setCore_copyq (s : State) (k : Nat) (x : CoreSt) : (s.setCore k x).copyq = s.copyq := rfl
@[simp] theorem setCore_regions (s : State) (k : Nat) (x : CoreSt) : (s.setCore k x).regions = s.regions := rfl
@[simp] theorem setCore_sleepers (s : State) (k : Nat) (x : CoreSt) : (s.setCore k x).sleepers = s.sleepers := rfl
@[simp] theorem setCore_ops (s : State) (k : Nat) (x : CoreSt) : (s.setCore k x).ops = s.ops := rfl
@[simp] theorem setCore_joins (s : State) (k : Nat) (x : CoreSt) : (s.setCore k x).joins = s.joins := rfl
@[simp] theorem setCore_pending (s : State) (k : Nat) (x : CoreSt) : (s.setCore k x).pending = s.pending := rfl
@[simp] theorem setCore_tlb (s : State) (k : Nat) (x : CoreSt) : (s.setCore k x).tlb = s.tlb := rfl
@[simp] theorem setCore_tabs (s : State) (k : Nat) (x : CoreSt) : (s.setCore k x).tabs = s.tabs := rfl
@[simp] theorem setCore_codes (s : State) (k : Nat) (x : CoreSt) : (s.setCore k x).codes = s.codes := rfl
@[simp] theorem setCore_layouts (s : State) (k : Nat) (x : CoreSt) : (s.setCore k x).layouts = s.layouts := rfl
@[simp] theorem setCore_writes (s : State) (k : Nat) (x : CoreSt) : (s.setCore k x).writes = s.writes := rfl
@[simp] theorem setCore_world (s : State) (k : Nat) (x : CoreSt) : (s.setCore k x).world = s.world := rfl
@[simp] theorem setCore_wtSync (s : State) (k : Nat) (x : CoreSt) : (s.setCore k x).wtSync = s.wtSync := rfl
@[simp] theorem setCore_xfers (s : State) (k : Nat) (x : CoreSt) : (s.setCore k x).xfers = s.xfers := rfl
@[simp] theorem setCore_routers (s : State) (k : Nat) (x : CoreSt) : (s.setCore k x).routers = s.routers := rfl
@[simp] theorem setCore_drains (s : State) (k : Nat) (x : CoreSt) : (s.setCore k x).drains = s.drains := rfl
@[simp] theorem setCore_arbs (s : State) (k : Nat) (x : CoreSt) : (s.setCore k x).arbs = s.arbs := rfl
@[simp] theorem setCore_stops (s : State) (k : Nat) (x : CoreSt) : (s.setCore k x).stops = s.stops := rfl
@[simp] theorem setCore_portq (s : State) (k : Nat) (x : CoreSt) : (s.setCore k x).portq = s.portq := rfl
@[simp] theorem setCore_portDrain (s : State) (k : Nat) (x : CoreSt) : (s.setCore k x).portDrain = s.portDrain := rfl
@[simp] theorem setCore_portLast (s : State) (k : Nat) (x : CoreSt) : (s.setCore k x).portLast = s.portLast := rfl
@[simp] theorem setCore_frames (s : State) (k : Nat) (x : CoreSt) : (s.setCore k x).frames = s.frames := rfl
@[simp] theorem setCore_linksDown (s : State) (k : Nat) (x : CoreSt) : (s.setCore k x).linksDown = s.linksDown := rfl
@[simp] theorem setCore_portsDown (s : State) (k : Nat) (x : CoreSt) : (s.setCore k x).portsDown = s.portsDown := rfl
@[simp] theorem setCore_coresGone (s : State) (k : Nat) (x : CoreSt) : (s.setCore k x).coresGone = s.coresGone := rfl
@[simp] theorem setCore_coresHeld (s : State) (k : Nat) (x : CoreSt) : (s.setCore k x).coresHeld = s.coresHeld := rfl
@[simp] theorem setCore_retired (s : State) (k : Nat) (x : CoreSt) : (s.setCore k x).retired = s.retired := rfl
@[simp] theorem setCore_slices (s : State) (k : Nat) (x : CoreSt) : (s.setCore k x).slices = s.slices := rfl
@[simp] theorem setCore_sys (s : State) (k : Nat) (x : CoreSt) : (s.setCore k x).sys = s.sys := rfl
@[simp] theorem setCore_cycle (s : State) (k : Nat) (x : CoreSt) : (s.setCore k x).cycle = s.cycle := rfl
@[simp] theorem setCore_evWait (s : State) (k : Nat) (x : CoreSt) : (s.setCore k x).evWait = s.evWait := rfl
@[simp] theorem setCore_acctWait (s : State) (k : Nat) (x : CoreSt) : (s.setCore k x).acctWait = s.acctWait := rfl
@[simp] theorem setCore_awaits (s : State) (k : Nat) (x : CoreSt) : (s.setCore k x).awaits = s.awaits := rfl
@[simp] theorem setCore_parks (s : State) (k : Nat) (x : CoreSt) : (s.setCore k x).parks = s.parks := rfl
@[simp] theorem setCore_samples (s : State) (k : Nat) (x : CoreSt) : (s.setCore k x).samples = s.samples := rfl
@[simp] theorem setCore_launches (s : State) (k : Nat) (x : CoreSt) : (s.setCore k x).launches = s.launches := rfl
@[simp] theorem setCore_attached (s : State) (k : Nat) (x : CoreSt) : (s.setCore k x).attached = s.attached := rfl
@[simp] theorem setCore_dbgData (s : State) (k : Nat) (x : CoreSt) : (s.setCore k x).dbgData = s.dbgData := rfl
@[simp] theorem setCore_edited (s : State) (k : Nat) (x : CoreSt) : (s.setCore k x).edited = s.edited := rfl
@[simp] theorem setCore_latent (s : State) (k : Nat) (x : CoreSt) : (s.setCore k x).latent = s.latent := rfl
@[simp] theorem setCore_boot (s : State) (k : Nat) (x : CoreSt) : (s.setCore k x).boot = s.boot := rfl
@[simp] theorem setCore_nextId (s : State) (k : Nat) (x : CoreSt) : (s.setCore k x).nextId = s.nextId := rfl
@[simp] theorem setCore_draw (s : State) (k : Nat) (x : CoreSt) : (s.setCore k x).draw = s.draw := rfl
@[simp] theorem setCore_seq (s : State) (k : Nat) (x : CoreSt) : (s.setCore k x).seq = s.seq := rfl
@[simp] theorem setCore_hole (s : State) (k : Nat) (x : CoreSt) : (s.setCore k x).hole = s.hole := rfl
@[simp] theorem setCore_cur (s : State) (k : Nat) (x : CoreSt) : (s.setCore k x).cur = s.cur := rfl
@[simp] theorem setCore_turns (s : State) (k : Nat) (x : CoreSt) : (s.setCore k x).turns = s.turns := rfl
@[simp] theorem setCore_agenda (s : State) (k : Nat) (x : CoreSt) : (s.setCore k x).agenda = s.agenda := rfl
@[simp] theorem setCore_inputs (s : State) (k : Nat) (x : CoreSt) : (s.setCore k x).inputs = s.inputs := rfl

/-! ## `setCl` -/

@[simp] theorem setCl_mem (s : State) (c : Nat) (x : Cluster) : (s.setCl c x).mem = s.mem := rfl
@[simp] theorem setCl_sp (s : State) (c : Nat) (x : Cluster) : (s.setCl c x).sp = s.sp := rfl
@[simp] theorem setCl_threads (s : State) (c : Nat) (x : Cluster) : (s.setCl c x).threads = s.threads := rfl
@[simp] theorem setCl_groups (s : State) (c : Nat) (x : Cluster) : (s.setCl c x).groups = s.groups := rfl
@[simp] theorem setCl_wgs (s : State) (c : Nat) (x : Cluster) : (s.setCl c x).wgs = s.wgs := rfl
@[simp] theorem setCl_cores (s : State) (c : Nat) (x : Cluster) : (s.setCl c x).cores = s.cores := rfl
@[simp] theorem setCl_courses (s : State) (c : Nat) (x : Cluster) : (s.setCl c x).courses = s.courses := rfl
@[simp] theorem setCl_copyq (s : State) (c : Nat) (x : Cluster) : (s.setCl c x).copyq = s.copyq := rfl
@[simp] theorem setCl_regions (s : State) (c : Nat) (x : Cluster) : (s.setCl c x).regions = s.regions := rfl
@[simp] theorem setCl_sleepers (s : State) (c : Nat) (x : Cluster) : (s.setCl c x).sleepers = s.sleepers := rfl
@[simp] theorem setCl_ops (s : State) (c : Nat) (x : Cluster) : (s.setCl c x).ops = s.ops := rfl
@[simp] theorem setCl_joins (s : State) (c : Nat) (x : Cluster) : (s.setCl c x).joins = s.joins := rfl
@[simp] theorem setCl_pending (s : State) (c : Nat) (x : Cluster) : (s.setCl c x).pending = s.pending := rfl
@[simp] theorem setCl_tlb (s : State) (c : Nat) (x : Cluster) : (s.setCl c x).tlb = s.tlb := rfl
@[simp] theorem setCl_tabs (s : State) (c : Nat) (x : Cluster) : (s.setCl c x).tabs = s.tabs := rfl
@[simp] theorem setCl_codes (s : State) (c : Nat) (x : Cluster) : (s.setCl c x).codes = s.codes := rfl
@[simp] theorem setCl_layouts (s : State) (c : Nat) (x : Cluster) : (s.setCl c x).layouts = s.layouts := rfl
@[simp] theorem setCl_writes (s : State) (c : Nat) (x : Cluster) : (s.setCl c x).writes = s.writes := rfl
@[simp] theorem setCl_world (s : State) (c : Nat) (x : Cluster) : (s.setCl c x).world = s.world := rfl
@[simp] theorem setCl_wtSync (s : State) (c : Nat) (x : Cluster) : (s.setCl c x).wtSync = s.wtSync := rfl
@[simp] theorem setCl_xfers (s : State) (c : Nat) (x : Cluster) : (s.setCl c x).xfers = s.xfers := rfl
@[simp] theorem setCl_routers (s : State) (c : Nat) (x : Cluster) : (s.setCl c x).routers = s.routers := rfl
@[simp] theorem setCl_drains (s : State) (c : Nat) (x : Cluster) : (s.setCl c x).drains = s.drains := rfl
@[simp] theorem setCl_arbs (s : State) (c : Nat) (x : Cluster) : (s.setCl c x).arbs = s.arbs := rfl
@[simp] theorem setCl_stops (s : State) (c : Nat) (x : Cluster) : (s.setCl c x).stops = s.stops := rfl
@[simp] theorem setCl_portq (s : State) (c : Nat) (x : Cluster) : (s.setCl c x).portq = s.portq := rfl
@[simp] theorem setCl_portDrain (s : State) (c : Nat) (x : Cluster) : (s.setCl c x).portDrain = s.portDrain := rfl
@[simp] theorem setCl_portLast (s : State) (c : Nat) (x : Cluster) : (s.setCl c x).portLast = s.portLast := rfl
@[simp] theorem setCl_frames (s : State) (c : Nat) (x : Cluster) : (s.setCl c x).frames = s.frames := rfl
@[simp] theorem setCl_linksDown (s : State) (c : Nat) (x : Cluster) : (s.setCl c x).linksDown = s.linksDown := rfl
@[simp] theorem setCl_portsDown (s : State) (c : Nat) (x : Cluster) : (s.setCl c x).portsDown = s.portsDown := rfl
@[simp] theorem setCl_coresGone (s : State) (c : Nat) (x : Cluster) : (s.setCl c x).coresGone = s.coresGone := rfl
@[simp] theorem setCl_coresHeld (s : State) (c : Nat) (x : Cluster) : (s.setCl c x).coresHeld = s.coresHeld := rfl
@[simp] theorem setCl_retired (s : State) (c : Nat) (x : Cluster) : (s.setCl c x).retired = s.retired := rfl
@[simp] theorem setCl_slices (s : State) (c : Nat) (x : Cluster) : (s.setCl c x).slices = s.slices := rfl
@[simp] theorem setCl_sys (s : State) (c : Nat) (x : Cluster) : (s.setCl c x).sys = s.sys := rfl
@[simp] theorem setCl_cycle (s : State) (c : Nat) (x : Cluster) : (s.setCl c x).cycle = s.cycle := rfl
@[simp] theorem setCl_evWait (s : State) (c : Nat) (x : Cluster) : (s.setCl c x).evWait = s.evWait := rfl
@[simp] theorem setCl_acctWait (s : State) (c : Nat) (x : Cluster) : (s.setCl c x).acctWait = s.acctWait := rfl
@[simp] theorem setCl_awaits (s : State) (c : Nat) (x : Cluster) : (s.setCl c x).awaits = s.awaits := rfl
@[simp] theorem setCl_parks (s : State) (c : Nat) (x : Cluster) : (s.setCl c x).parks = s.parks := rfl
@[simp] theorem setCl_samples (s : State) (c : Nat) (x : Cluster) : (s.setCl c x).samples = s.samples := rfl
@[simp] theorem setCl_launches (s : State) (c : Nat) (x : Cluster) : (s.setCl c x).launches = s.launches := rfl
@[simp] theorem setCl_attached (s : State) (c : Nat) (x : Cluster) : (s.setCl c x).attached = s.attached := rfl
@[simp] theorem setCl_dbgData (s : State) (c : Nat) (x : Cluster) : (s.setCl c x).dbgData = s.dbgData := rfl
@[simp] theorem setCl_edited (s : State) (c : Nat) (x : Cluster) : (s.setCl c x).edited = s.edited := rfl
@[simp] theorem setCl_latent (s : State) (c : Nat) (x : Cluster) : (s.setCl c x).latent = s.latent := rfl
@[simp] theorem setCl_boot (s : State) (c : Nat) (x : Cluster) : (s.setCl c x).boot = s.boot := rfl
@[simp] theorem setCl_nextId (s : State) (c : Nat) (x : Cluster) : (s.setCl c x).nextId = s.nextId := rfl
@[simp] theorem setCl_draw (s : State) (c : Nat) (x : Cluster) : (s.setCl c x).draw = s.draw := rfl
@[simp] theorem setCl_seq (s : State) (c : Nat) (x : Cluster) : (s.setCl c x).seq = s.seq := rfl
@[simp] theorem setCl_hole (s : State) (c : Nat) (x : Cluster) : (s.setCl c x).hole = s.hole := rfl
@[simp] theorem setCl_cur (s : State) (c : Nat) (x : Cluster) : (s.setCl c x).cur = s.cur := rfl
@[simp] theorem setCl_turns (s : State) (c : Nat) (x : Cluster) : (s.setCl c x).turns = s.turns := rfl
@[simp] theorem setCl_agenda (s : State) (c : Nat) (x : Cluster) : (s.setCl c x).agenda = s.agenda := rfl
@[simp] theorem setCl_inputs (s : State) (c : Nat) (x : Cluster) : (s.setCl c x).inputs = s.inputs := rfl

/-! ## `setCourse` -/

@[simp] theorem setCourse_mem (s : State) (k : Nat) (x : Course) : (s.setCourse k x).mem = s.mem := rfl
@[simp] theorem setCourse_sp (s : State) (k : Nat) (x : Course) : (s.setCourse k x).sp = s.sp := rfl
@[simp] theorem setCourse_threads (s : State) (k : Nat) (x : Course) : (s.setCourse k x).threads = s.threads := rfl
@[simp] theorem setCourse_groups (s : State) (k : Nat) (x : Course) : (s.setCourse k x).groups = s.groups := rfl
@[simp] theorem setCourse_wgs (s : State) (k : Nat) (x : Course) : (s.setCourse k x).wgs = s.wgs := rfl
@[simp] theorem setCourse_cores (s : State) (k : Nat) (x : Course) : (s.setCourse k x).cores = s.cores := rfl
@[simp] theorem setCourse_clusters (s : State) (k : Nat) (x : Course) : (s.setCourse k x).clusters = s.clusters := rfl
@[simp] theorem setCourse_copyq (s : State) (k : Nat) (x : Course) : (s.setCourse k x).copyq = s.copyq := rfl
@[simp] theorem setCourse_regions (s : State) (k : Nat) (x : Course) : (s.setCourse k x).regions = s.regions := rfl
@[simp] theorem setCourse_sleepers (s : State) (k : Nat) (x : Course) : (s.setCourse k x).sleepers = s.sleepers := rfl
@[simp] theorem setCourse_ops (s : State) (k : Nat) (x : Course) : (s.setCourse k x).ops = s.ops := rfl
@[simp] theorem setCourse_joins (s : State) (k : Nat) (x : Course) : (s.setCourse k x).joins = s.joins := rfl
@[simp] theorem setCourse_pending (s : State) (k : Nat) (x : Course) : (s.setCourse k x).pending = s.pending := rfl
@[simp] theorem setCourse_tlb (s : State) (k : Nat) (x : Course) : (s.setCourse k x).tlb = s.tlb := rfl
@[simp] theorem setCourse_tabs (s : State) (k : Nat) (x : Course) : (s.setCourse k x).tabs = s.tabs := rfl
@[simp] theorem setCourse_codes (s : State) (k : Nat) (x : Course) : (s.setCourse k x).codes = s.codes := rfl
@[simp] theorem setCourse_layouts (s : State) (k : Nat) (x : Course) : (s.setCourse k x).layouts = s.layouts := rfl
@[simp] theorem setCourse_writes (s : State) (k : Nat) (x : Course) : (s.setCourse k x).writes = s.writes := rfl
@[simp] theorem setCourse_world (s : State) (k : Nat) (x : Course) : (s.setCourse k x).world = s.world := rfl
@[simp] theorem setCourse_wtSync (s : State) (k : Nat) (x : Course) : (s.setCourse k x).wtSync = s.wtSync := rfl
@[simp] theorem setCourse_xfers (s : State) (k : Nat) (x : Course) : (s.setCourse k x).xfers = s.xfers := rfl
@[simp] theorem setCourse_routers (s : State) (k : Nat) (x : Course) : (s.setCourse k x).routers = s.routers := rfl
@[simp] theorem setCourse_drains (s : State) (k : Nat) (x : Course) : (s.setCourse k x).drains = s.drains := rfl
@[simp] theorem setCourse_arbs (s : State) (k : Nat) (x : Course) : (s.setCourse k x).arbs = s.arbs := rfl
@[simp] theorem setCourse_stops (s : State) (k : Nat) (x : Course) : (s.setCourse k x).stops = s.stops := rfl
@[simp] theorem setCourse_portq (s : State) (k : Nat) (x : Course) : (s.setCourse k x).portq = s.portq := rfl
@[simp] theorem setCourse_portDrain (s : State) (k : Nat) (x : Course) : (s.setCourse k x).portDrain = s.portDrain := rfl
@[simp] theorem setCourse_portLast (s : State) (k : Nat) (x : Course) : (s.setCourse k x).portLast = s.portLast := rfl
@[simp] theorem setCourse_frames (s : State) (k : Nat) (x : Course) : (s.setCourse k x).frames = s.frames := rfl
@[simp] theorem setCourse_linksDown (s : State) (k : Nat) (x : Course) : (s.setCourse k x).linksDown = s.linksDown := rfl
@[simp] theorem setCourse_portsDown (s : State) (k : Nat) (x : Course) : (s.setCourse k x).portsDown = s.portsDown := rfl
@[simp] theorem setCourse_coresGone (s : State) (k : Nat) (x : Course) : (s.setCourse k x).coresGone = s.coresGone := rfl
@[simp] theorem setCourse_coresHeld (s : State) (k : Nat) (x : Course) : (s.setCourse k x).coresHeld = s.coresHeld := rfl
@[simp] theorem setCourse_retired (s : State) (k : Nat) (x : Course) : (s.setCourse k x).retired = s.retired := rfl
@[simp] theorem setCourse_slices (s : State) (k : Nat) (x : Course) : (s.setCourse k x).slices = s.slices := rfl
@[simp] theorem setCourse_sys (s : State) (k : Nat) (x : Course) : (s.setCourse k x).sys = s.sys := rfl
@[simp] theorem setCourse_cycle (s : State) (k : Nat) (x : Course) : (s.setCourse k x).cycle = s.cycle := rfl
@[simp] theorem setCourse_evWait (s : State) (k : Nat) (x : Course) : (s.setCourse k x).evWait = s.evWait := rfl
@[simp] theorem setCourse_acctWait (s : State) (k : Nat) (x : Course) : (s.setCourse k x).acctWait = s.acctWait := rfl
@[simp] theorem setCourse_awaits (s : State) (k : Nat) (x : Course) : (s.setCourse k x).awaits = s.awaits := rfl
@[simp] theorem setCourse_parks (s : State) (k : Nat) (x : Course) : (s.setCourse k x).parks = s.parks := rfl
@[simp] theorem setCourse_samples (s : State) (k : Nat) (x : Course) : (s.setCourse k x).samples = s.samples := rfl
@[simp] theorem setCourse_launches (s : State) (k : Nat) (x : Course) : (s.setCourse k x).launches = s.launches := rfl
@[simp] theorem setCourse_attached (s : State) (k : Nat) (x : Course) : (s.setCourse k x).attached = s.attached := rfl
@[simp] theorem setCourse_dbgData (s : State) (k : Nat) (x : Course) : (s.setCourse k x).dbgData = s.dbgData := rfl
@[simp] theorem setCourse_edited (s : State) (k : Nat) (x : Course) : (s.setCourse k x).edited = s.edited := rfl
@[simp] theorem setCourse_latent (s : State) (k : Nat) (x : Course) : (s.setCourse k x).latent = s.latent := rfl
@[simp] theorem setCourse_boot (s : State) (k : Nat) (x : Course) : (s.setCourse k x).boot = s.boot := rfl
@[simp] theorem setCourse_nextId (s : State) (k : Nat) (x : Course) : (s.setCourse k x).nextId = s.nextId := rfl
@[simp] theorem setCourse_draw (s : State) (k : Nat) (x : Course) : (s.setCourse k x).draw = s.draw := rfl
@[simp] theorem setCourse_seq (s : State) (k : Nat) (x : Course) : (s.setCourse k x).seq = s.seq := rfl
@[simp] theorem setCourse_hole (s : State) (k : Nat) (x : Course) : (s.setCourse k x).hole = s.hole := rfl
@[simp] theorem setCourse_cur (s : State) (k : Nat) (x : Course) : (s.setCourse k x).cur = s.cur := rfl
@[simp] theorem setCourse_turns (s : State) (k : Nat) (x : Course) : (s.setCourse k x).turns = s.turns := rfl
@[simp] theorem setCourse_agenda (s : State) (k : Nat) (x : Course) : (s.setCourse k x).agenda = s.agenda := rfl
@[simp] theorem setCourse_inputs (s : State) (k : Nat) (x : Course) : (s.setCourse k x).inputs = s.inputs := rfl

/-! ## `setCopies` -/

@[simp] theorem setCopies_mem (s : State) (k : Nat) (x : List CopyCmd) : (s.setCopies k x).mem = s.mem := rfl
@[simp] theorem setCopies_sp (s : State) (k : Nat) (x : List CopyCmd) : (s.setCopies k x).sp = s.sp := rfl
@[simp] theorem setCopies_threads (s : State) (k : Nat) (x : List CopyCmd) : (s.setCopies k x).threads = s.threads := rfl
@[simp] theorem setCopies_groups (s : State) (k : Nat) (x : List CopyCmd) : (s.setCopies k x).groups = s.groups := rfl
@[simp] theorem setCopies_wgs (s : State) (k : Nat) (x : List CopyCmd) : (s.setCopies k x).wgs = s.wgs := rfl
@[simp] theorem setCopies_cores (s : State) (k : Nat) (x : List CopyCmd) : (s.setCopies k x).cores = s.cores := rfl
@[simp] theorem setCopies_clusters (s : State) (k : Nat) (x : List CopyCmd) : (s.setCopies k x).clusters = s.clusters := rfl
@[simp] theorem setCopies_courses (s : State) (k : Nat) (x : List CopyCmd) : (s.setCopies k x).courses = s.courses := rfl
@[simp] theorem setCopies_regions (s : State) (k : Nat) (x : List CopyCmd) : (s.setCopies k x).regions = s.regions := rfl
@[simp] theorem setCopies_sleepers (s : State) (k : Nat) (x : List CopyCmd) : (s.setCopies k x).sleepers = s.sleepers := rfl
@[simp] theorem setCopies_ops (s : State) (k : Nat) (x : List CopyCmd) : (s.setCopies k x).ops = s.ops := rfl
@[simp] theorem setCopies_joins (s : State) (k : Nat) (x : List CopyCmd) : (s.setCopies k x).joins = s.joins := rfl
@[simp] theorem setCopies_pending (s : State) (k : Nat) (x : List CopyCmd) : (s.setCopies k x).pending = s.pending := rfl
@[simp] theorem setCopies_tlb (s : State) (k : Nat) (x : List CopyCmd) : (s.setCopies k x).tlb = s.tlb := rfl
@[simp] theorem setCopies_tabs (s : State) (k : Nat) (x : List CopyCmd) : (s.setCopies k x).tabs = s.tabs := rfl
@[simp] theorem setCopies_codes (s : State) (k : Nat) (x : List CopyCmd) : (s.setCopies k x).codes = s.codes := rfl
@[simp] theorem setCopies_layouts (s : State) (k : Nat) (x : List CopyCmd) : (s.setCopies k x).layouts = s.layouts := rfl
@[simp] theorem setCopies_writes (s : State) (k : Nat) (x : List CopyCmd) : (s.setCopies k x).writes = s.writes := rfl
@[simp] theorem setCopies_world (s : State) (k : Nat) (x : List CopyCmd) : (s.setCopies k x).world = s.world := rfl
@[simp] theorem setCopies_wtSync (s : State) (k : Nat) (x : List CopyCmd) : (s.setCopies k x).wtSync = s.wtSync := rfl
@[simp] theorem setCopies_xfers (s : State) (k : Nat) (x : List CopyCmd) : (s.setCopies k x).xfers = s.xfers := rfl
@[simp] theorem setCopies_routers (s : State) (k : Nat) (x : List CopyCmd) : (s.setCopies k x).routers = s.routers := rfl
@[simp] theorem setCopies_drains (s : State) (k : Nat) (x : List CopyCmd) : (s.setCopies k x).drains = s.drains := rfl
@[simp] theorem setCopies_arbs (s : State) (k : Nat) (x : List CopyCmd) : (s.setCopies k x).arbs = s.arbs := rfl
@[simp] theorem setCopies_stops (s : State) (k : Nat) (x : List CopyCmd) : (s.setCopies k x).stops = s.stops := rfl
@[simp] theorem setCopies_portq (s : State) (k : Nat) (x : List CopyCmd) : (s.setCopies k x).portq = s.portq := rfl
@[simp] theorem setCopies_portDrain (s : State) (k : Nat) (x : List CopyCmd) : (s.setCopies k x).portDrain = s.portDrain := rfl
@[simp] theorem setCopies_portLast (s : State) (k : Nat) (x : List CopyCmd) : (s.setCopies k x).portLast = s.portLast := rfl
@[simp] theorem setCopies_frames (s : State) (k : Nat) (x : List CopyCmd) : (s.setCopies k x).frames = s.frames := rfl
@[simp] theorem setCopies_linksDown (s : State) (k : Nat) (x : List CopyCmd) : (s.setCopies k x).linksDown = s.linksDown := rfl
@[simp] theorem setCopies_portsDown (s : State) (k : Nat) (x : List CopyCmd) : (s.setCopies k x).portsDown = s.portsDown := rfl
@[simp] theorem setCopies_coresGone (s : State) (k : Nat) (x : List CopyCmd) : (s.setCopies k x).coresGone = s.coresGone := rfl
@[simp] theorem setCopies_coresHeld (s : State) (k : Nat) (x : List CopyCmd) : (s.setCopies k x).coresHeld = s.coresHeld := rfl
@[simp] theorem setCopies_retired (s : State) (k : Nat) (x : List CopyCmd) : (s.setCopies k x).retired = s.retired := rfl
@[simp] theorem setCopies_slices (s : State) (k : Nat) (x : List CopyCmd) : (s.setCopies k x).slices = s.slices := rfl
@[simp] theorem setCopies_sys (s : State) (k : Nat) (x : List CopyCmd) : (s.setCopies k x).sys = s.sys := rfl
@[simp] theorem setCopies_cycle (s : State) (k : Nat) (x : List CopyCmd) : (s.setCopies k x).cycle = s.cycle := rfl
@[simp] theorem setCopies_evWait (s : State) (k : Nat) (x : List CopyCmd) : (s.setCopies k x).evWait = s.evWait := rfl
@[simp] theorem setCopies_acctWait (s : State) (k : Nat) (x : List CopyCmd) : (s.setCopies k x).acctWait = s.acctWait := rfl
@[simp] theorem setCopies_awaits (s : State) (k : Nat) (x : List CopyCmd) : (s.setCopies k x).awaits = s.awaits := rfl
@[simp] theorem setCopies_parks (s : State) (k : Nat) (x : List CopyCmd) : (s.setCopies k x).parks = s.parks := rfl
@[simp] theorem setCopies_samples (s : State) (k : Nat) (x : List CopyCmd) : (s.setCopies k x).samples = s.samples := rfl
@[simp] theorem setCopies_launches (s : State) (k : Nat) (x : List CopyCmd) : (s.setCopies k x).launches = s.launches := rfl
@[simp] theorem setCopies_attached (s : State) (k : Nat) (x : List CopyCmd) : (s.setCopies k x).attached = s.attached := rfl
@[simp] theorem setCopies_dbgData (s : State) (k : Nat) (x : List CopyCmd) : (s.setCopies k x).dbgData = s.dbgData := rfl
@[simp] theorem setCopies_edited (s : State) (k : Nat) (x : List CopyCmd) : (s.setCopies k x).edited = s.edited := rfl
@[simp] theorem setCopies_latent (s : State) (k : Nat) (x : List CopyCmd) : (s.setCopies k x).latent = s.latent := rfl
@[simp] theorem setCopies_boot (s : State) (k : Nat) (x : List CopyCmd) : (s.setCopies k x).boot = s.boot := rfl
@[simp] theorem setCopies_nextId (s : State) (k : Nat) (x : List CopyCmd) : (s.setCopies k x).nextId = s.nextId := rfl
@[simp] theorem setCopies_draw (s : State) (k : Nat) (x : List CopyCmd) : (s.setCopies k x).draw = s.draw := rfl
@[simp] theorem setCopies_seq (s : State) (k : Nat) (x : List CopyCmd) : (s.setCopies k x).seq = s.seq := rfl
@[simp] theorem setCopies_hole (s : State) (k : Nat) (x : List CopyCmd) : (s.setCopies k x).hole = s.hole := rfl
@[simp] theorem setCopies_cur (s : State) (k : Nat) (x : List CopyCmd) : (s.setCopies k x).cur = s.cur := rfl
@[simp] theorem setCopies_turns (s : State) (k : Nat) (x : List CopyCmd) : (s.setCopies k x).turns = s.turns := rfl
@[simp] theorem setCopies_agenda (s : State) (k : Nat) (x : List CopyCmd) : (s.setCopies k x).agenda = s.agenda := rfl
@[simp] theorem setCopies_inputs (s : State) (k : Nat) (x : List CopyCmd) : (s.setCopies k x).inputs = s.inputs := rfl

/-! ## `setSlice` -/

@[simp] theorem setSlice_mem (s : State) (c : Nat) (x : Slice) : (s.setSlice c x).mem = s.mem := rfl
@[simp] theorem setSlice_sp (s : State) (c : Nat) (x : Slice) : (s.setSlice c x).sp = s.sp := rfl
@[simp] theorem setSlice_threads (s : State) (c : Nat) (x : Slice) : (s.setSlice c x).threads = s.threads := rfl
@[simp] theorem setSlice_groups (s : State) (c : Nat) (x : Slice) : (s.setSlice c x).groups = s.groups := rfl
@[simp] theorem setSlice_wgs (s : State) (c : Nat) (x : Slice) : (s.setSlice c x).wgs = s.wgs := rfl
@[simp] theorem setSlice_cores (s : State) (c : Nat) (x : Slice) : (s.setSlice c x).cores = s.cores := rfl
@[simp] theorem setSlice_clusters (s : State) (c : Nat) (x : Slice) : (s.setSlice c x).clusters = s.clusters := rfl
@[simp] theorem setSlice_courses (s : State) (c : Nat) (x : Slice) : (s.setSlice c x).courses = s.courses := rfl
@[simp] theorem setSlice_copyq (s : State) (c : Nat) (x : Slice) : (s.setSlice c x).copyq = s.copyq := rfl
@[simp] theorem setSlice_regions (s : State) (c : Nat) (x : Slice) : (s.setSlice c x).regions = s.regions := rfl
@[simp] theorem setSlice_sleepers (s : State) (c : Nat) (x : Slice) : (s.setSlice c x).sleepers = s.sleepers := rfl
@[simp] theorem setSlice_ops (s : State) (c : Nat) (x : Slice) : (s.setSlice c x).ops = s.ops := rfl
@[simp] theorem setSlice_joins (s : State) (c : Nat) (x : Slice) : (s.setSlice c x).joins = s.joins := rfl
@[simp] theorem setSlice_pending (s : State) (c : Nat) (x : Slice) : (s.setSlice c x).pending = s.pending := rfl
@[simp] theorem setSlice_tlb (s : State) (c : Nat) (x : Slice) : (s.setSlice c x).tlb = s.tlb := rfl
@[simp] theorem setSlice_tabs (s : State) (c : Nat) (x : Slice) : (s.setSlice c x).tabs = s.tabs := rfl
@[simp] theorem setSlice_codes (s : State) (c : Nat) (x : Slice) : (s.setSlice c x).codes = s.codes := rfl
@[simp] theorem setSlice_layouts (s : State) (c : Nat) (x : Slice) : (s.setSlice c x).layouts = s.layouts := rfl
@[simp] theorem setSlice_writes (s : State) (c : Nat) (x : Slice) : (s.setSlice c x).writes = s.writes := rfl
@[simp] theorem setSlice_world (s : State) (c : Nat) (x : Slice) : (s.setSlice c x).world = s.world := rfl
@[simp] theorem setSlice_wtSync (s : State) (c : Nat) (x : Slice) : (s.setSlice c x).wtSync = s.wtSync := rfl
@[simp] theorem setSlice_xfers (s : State) (c : Nat) (x : Slice) : (s.setSlice c x).xfers = s.xfers := rfl
@[simp] theorem setSlice_routers (s : State) (c : Nat) (x : Slice) : (s.setSlice c x).routers = s.routers := rfl
@[simp] theorem setSlice_drains (s : State) (c : Nat) (x : Slice) : (s.setSlice c x).drains = s.drains := rfl
@[simp] theorem setSlice_arbs (s : State) (c : Nat) (x : Slice) : (s.setSlice c x).arbs = s.arbs := rfl
@[simp] theorem setSlice_stops (s : State) (c : Nat) (x : Slice) : (s.setSlice c x).stops = s.stops := rfl
@[simp] theorem setSlice_portq (s : State) (c : Nat) (x : Slice) : (s.setSlice c x).portq = s.portq := rfl
@[simp] theorem setSlice_portDrain (s : State) (c : Nat) (x : Slice) : (s.setSlice c x).portDrain = s.portDrain := rfl
@[simp] theorem setSlice_portLast (s : State) (c : Nat) (x : Slice) : (s.setSlice c x).portLast = s.portLast := rfl
@[simp] theorem setSlice_frames (s : State) (c : Nat) (x : Slice) : (s.setSlice c x).frames = s.frames := rfl
@[simp] theorem setSlice_linksDown (s : State) (c : Nat) (x : Slice) : (s.setSlice c x).linksDown = s.linksDown := rfl
@[simp] theorem setSlice_portsDown (s : State) (c : Nat) (x : Slice) : (s.setSlice c x).portsDown = s.portsDown := rfl
@[simp] theorem setSlice_coresGone (s : State) (c : Nat) (x : Slice) : (s.setSlice c x).coresGone = s.coresGone := rfl
@[simp] theorem setSlice_coresHeld (s : State) (c : Nat) (x : Slice) : (s.setSlice c x).coresHeld = s.coresHeld := rfl
@[simp] theorem setSlice_retired (s : State) (c : Nat) (x : Slice) : (s.setSlice c x).retired = s.retired := rfl
@[simp] theorem setSlice_sys (s : State) (c : Nat) (x : Slice) : (s.setSlice c x).sys = s.sys := rfl
@[simp] theorem setSlice_cycle (s : State) (c : Nat) (x : Slice) : (s.setSlice c x).cycle = s.cycle := rfl
@[simp] theorem setSlice_evWait (s : State) (c : Nat) (x : Slice) : (s.setSlice c x).evWait = s.evWait := rfl
@[simp] theorem setSlice_acctWait (s : State) (c : Nat) (x : Slice) : (s.setSlice c x).acctWait = s.acctWait := rfl
@[simp] theorem setSlice_awaits (s : State) (c : Nat) (x : Slice) : (s.setSlice c x).awaits = s.awaits := rfl
@[simp] theorem setSlice_parks (s : State) (c : Nat) (x : Slice) : (s.setSlice c x).parks = s.parks := rfl
@[simp] theorem setSlice_samples (s : State) (c : Nat) (x : Slice) : (s.setSlice c x).samples = s.samples := rfl
@[simp] theorem setSlice_launches (s : State) (c : Nat) (x : Slice) : (s.setSlice c x).launches = s.launches := rfl
@[simp] theorem setSlice_attached (s : State) (c : Nat) (x : Slice) : (s.setSlice c x).attached = s.attached := rfl
@[simp] theorem setSlice_dbgData (s : State) (c : Nat) (x : Slice) : (s.setSlice c x).dbgData = s.dbgData := rfl
@[simp] theorem setSlice_edited (s : State) (c : Nat) (x : Slice) : (s.setSlice c x).edited = s.edited := rfl
@[simp] theorem setSlice_latent (s : State) (c : Nat) (x : Slice) : (s.setSlice c x).latent = s.latent := rfl
@[simp] theorem setSlice_boot (s : State) (c : Nat) (x : Slice) : (s.setSlice c x).boot = s.boot := rfl
@[simp] theorem setSlice_nextId (s : State) (c : Nat) (x : Slice) : (s.setSlice c x).nextId = s.nextId := rfl
@[simp] theorem setSlice_draw (s : State) (c : Nat) (x : Slice) : (s.setSlice c x).draw = s.draw := rfl
@[simp] theorem setSlice_seq (s : State) (c : Nat) (x : Slice) : (s.setSlice c x).seq = s.seq := rfl
@[simp] theorem setSlice_hole (s : State) (c : Nat) (x : Slice) : (s.setSlice c x).hole = s.hole := rfl
@[simp] theorem setSlice_cur (s : State) (c : Nat) (x : Slice) : (s.setSlice c x).cur = s.cur := rfl
@[simp] theorem setSlice_turns (s : State) (c : Nat) (x : Slice) : (s.setSlice c x).turns = s.turns := rfl
@[simp] theorem setSlice_agenda (s : State) (c : Nat) (x : Slice) : (s.setSlice c x).agenda = s.agenda := rfl
@[simp] theorem setSlice_inputs (s : State) (c : Nat) (x : Slice) : (s.setSlice c x).inputs = s.inputs := rfl

/-! ## `modThr` -/

@[simp] theorem modThr_mem (s : State) (t : Nat) (f : Thread → Thread) : (s.modThr t f).mem = s.mem := rfl
@[simp] theorem modThr_sp (s : State) (t : Nat) (f : Thread → Thread) : (s.modThr t f).sp = s.sp := rfl
@[simp] theorem modThr_groups (s : State) (t : Nat) (f : Thread → Thread) : (s.modThr t f).groups = s.groups := rfl
@[simp] theorem modThr_wgs (s : State) (t : Nat) (f : Thread → Thread) : (s.modThr t f).wgs = s.wgs := rfl
@[simp] theorem modThr_cores (s : State) (t : Nat) (f : Thread → Thread) : (s.modThr t f).cores = s.cores := rfl
@[simp] theorem modThr_clusters (s : State) (t : Nat) (f : Thread → Thread) : (s.modThr t f).clusters = s.clusters := rfl
@[simp] theorem modThr_courses (s : State) (t : Nat) (f : Thread → Thread) : (s.modThr t f).courses = s.courses := rfl
@[simp] theorem modThr_copyq (s : State) (t : Nat) (f : Thread → Thread) : (s.modThr t f).copyq = s.copyq := rfl
@[simp] theorem modThr_regions (s : State) (t : Nat) (f : Thread → Thread) : (s.modThr t f).regions = s.regions := rfl
@[simp] theorem modThr_sleepers (s : State) (t : Nat) (f : Thread → Thread) : (s.modThr t f).sleepers = s.sleepers := rfl
@[simp] theorem modThr_ops (s : State) (t : Nat) (f : Thread → Thread) : (s.modThr t f).ops = s.ops := rfl
@[simp] theorem modThr_joins (s : State) (t : Nat) (f : Thread → Thread) : (s.modThr t f).joins = s.joins := rfl
@[simp] theorem modThr_pending (s : State) (t : Nat) (f : Thread → Thread) : (s.modThr t f).pending = s.pending := rfl
@[simp] theorem modThr_tlb (s : State) (t : Nat) (f : Thread → Thread) : (s.modThr t f).tlb = s.tlb := rfl
@[simp] theorem modThr_tabs (s : State) (t : Nat) (f : Thread → Thread) : (s.modThr t f).tabs = s.tabs := rfl
@[simp] theorem modThr_codes (s : State) (t : Nat) (f : Thread → Thread) : (s.modThr t f).codes = s.codes := rfl
@[simp] theorem modThr_layouts (s : State) (t : Nat) (f : Thread → Thread) : (s.modThr t f).layouts = s.layouts := rfl
@[simp] theorem modThr_writes (s : State) (t : Nat) (f : Thread → Thread) : (s.modThr t f).writes = s.writes := rfl
@[simp] theorem modThr_world (s : State) (t : Nat) (f : Thread → Thread) : (s.modThr t f).world = s.world := rfl
@[simp] theorem modThr_wtSync (s : State) (t : Nat) (f : Thread → Thread) : (s.modThr t f).wtSync = s.wtSync := rfl
@[simp] theorem modThr_xfers (s : State) (t : Nat) (f : Thread → Thread) : (s.modThr t f).xfers = s.xfers := rfl
@[simp] theorem modThr_routers (s : State) (t : Nat) (f : Thread → Thread) : (s.modThr t f).routers = s.routers := rfl
@[simp] theorem modThr_drains (s : State) (t : Nat) (f : Thread → Thread) : (s.modThr t f).drains = s.drains := rfl
@[simp] theorem modThr_arbs (s : State) (t : Nat) (f : Thread → Thread) : (s.modThr t f).arbs = s.arbs := rfl
@[simp] theorem modThr_stops (s : State) (t : Nat) (f : Thread → Thread) : (s.modThr t f).stops = s.stops := rfl
@[simp] theorem modThr_portq (s : State) (t : Nat) (f : Thread → Thread) : (s.modThr t f).portq = s.portq := rfl
@[simp] theorem modThr_portDrain (s : State) (t : Nat) (f : Thread → Thread) : (s.modThr t f).portDrain = s.portDrain := rfl
@[simp] theorem modThr_portLast (s : State) (t : Nat) (f : Thread → Thread) : (s.modThr t f).portLast = s.portLast := rfl
@[simp] theorem modThr_frames (s : State) (t : Nat) (f : Thread → Thread) : (s.modThr t f).frames = s.frames := rfl
@[simp] theorem modThr_linksDown (s : State) (t : Nat) (f : Thread → Thread) : (s.modThr t f).linksDown = s.linksDown := rfl
@[simp] theorem modThr_portsDown (s : State) (t : Nat) (f : Thread → Thread) : (s.modThr t f).portsDown = s.portsDown := rfl
@[simp] theorem modThr_coresGone (s : State) (t : Nat) (f : Thread → Thread) : (s.modThr t f).coresGone = s.coresGone := rfl
@[simp] theorem modThr_coresHeld (s : State) (t : Nat) (f : Thread → Thread) : (s.modThr t f).coresHeld = s.coresHeld := rfl
@[simp] theorem modThr_retired (s : State) (t : Nat) (f : Thread → Thread) : (s.modThr t f).retired = s.retired := rfl
@[simp] theorem modThr_slices (s : State) (t : Nat) (f : Thread → Thread) : (s.modThr t f).slices = s.slices := rfl
@[simp] theorem modThr_sys (s : State) (t : Nat) (f : Thread → Thread) : (s.modThr t f).sys = s.sys := rfl
@[simp] theorem modThr_cycle (s : State) (t : Nat) (f : Thread → Thread) : (s.modThr t f).cycle = s.cycle := rfl
@[simp] theorem modThr_evWait (s : State) (t : Nat) (f : Thread → Thread) : (s.modThr t f).evWait = s.evWait := rfl
@[simp] theorem modThr_acctWait (s : State) (t : Nat) (f : Thread → Thread) : (s.modThr t f).acctWait = s.acctWait := rfl
@[simp] theorem modThr_awaits (s : State) (t : Nat) (f : Thread → Thread) : (s.modThr t f).awaits = s.awaits := rfl
@[simp] theorem modThr_parks (s : State) (t : Nat) (f : Thread → Thread) : (s.modThr t f).parks = s.parks := rfl
@[simp] theorem modThr_samples (s : State) (t : Nat) (f : Thread → Thread) : (s.modThr t f).samples = s.samples := rfl
@[simp] theorem modThr_launches (s : State) (t : Nat) (f : Thread → Thread) : (s.modThr t f).launches = s.launches := rfl
@[simp] theorem modThr_attached (s : State) (t : Nat) (f : Thread → Thread) : (s.modThr t f).attached = s.attached := rfl
@[simp] theorem modThr_dbgData (s : State) (t : Nat) (f : Thread → Thread) : (s.modThr t f).dbgData = s.dbgData := rfl
@[simp] theorem modThr_edited (s : State) (t : Nat) (f : Thread → Thread) : (s.modThr t f).edited = s.edited := rfl
@[simp] theorem modThr_latent (s : State) (t : Nat) (f : Thread → Thread) : (s.modThr t f).latent = s.latent := rfl
@[simp] theorem modThr_boot (s : State) (t : Nat) (f : Thread → Thread) : (s.modThr t f).boot = s.boot := rfl
@[simp] theorem modThr_nextId (s : State) (t : Nat) (f : Thread → Thread) : (s.modThr t f).nextId = s.nextId := rfl
@[simp] theorem modThr_draw (s : State) (t : Nat) (f : Thread → Thread) : (s.modThr t f).draw = s.draw := rfl
@[simp] theorem modThr_seq (s : State) (t : Nat) (f : Thread → Thread) : (s.modThr t f).seq = s.seq := rfl
@[simp] theorem modThr_hole (s : State) (t : Nat) (f : Thread → Thread) : (s.modThr t f).hole = s.hole := rfl
@[simp] theorem modThr_cur (s : State) (t : Nat) (f : Thread → Thread) : (s.modThr t f).cur = s.cur := rfl
@[simp] theorem modThr_turns (s : State) (t : Nat) (f : Thread → Thread) : (s.modThr t f).turns = s.turns := rfl
@[simp] theorem modThr_agenda (s : State) (t : Nat) (f : Thread → Thread) : (s.modThr t f).agenda = s.agenda := rfl
@[simp] theorem modThr_inputs (s : State) (t : Nat) (f : Thread → Thread) : (s.modThr t f).inputs = s.inputs := rfl

/-! ## What accessors find after updates -/

@[simp] theorem thr_setThr_same (s : State) (t : Nat) (x : Thread) : (s.setThr t x).thr t = x := mget_mset_same _ _ t x
theorem thr_setThr (s : State) (t j : Nat) (x : Thread) : (s.setThr t x).thr j = if j = t then x else s.thr j := mget_mset _ _ t j x
theorem thr_setThr_other (s : State) {t j : Nat} (x : Thread) (h : j ≠ t) : (s.setThr t x).thr j = s.thr j := mget_mset_other _ _ x h
@[simp] theorem grp_setThr (s : State) (t j : Nat) (x : Thread) : (s.setThr t x).grp j = s.grp j := rfl
@[simp] theorem wg_setThr (s : State) (t j : Nat) (x : Thread) : (s.setThr t x).wg j = s.wg j := rfl
@[simp] theorem core_setThr (s : State) (t j : Nat) (x : Thread) : (s.setThr t x).core j = s.core j := rfl
@[simp] theorem cl_setThr (s : State) (t j : Nat) (x : Thread) : (s.setThr t x).cl j = s.cl j := rfl
@[simp] theorem course_setThr (s : State) (t j : Nat) (x : Thread) : (s.setThr t x).course j = s.course j := rfl
@[simp] theorem copies_setThr (s : State) (t j : Nat) (x : Thread) : (s.setThr t x).copies j = s.copies j := rfl
@[simp] theorem slice_setThr (s : State) (t j : Nat) (x : Thread) : (s.setThr t x).slice j = s.slice j := rfl

@[simp] theorem grp_setGrp_same (s : State) (g : Nat) (x : Group) : (s.setGrp g x).grp g = x := mget_mset_same _ _ g x
theorem grp_setGrp (s : State) (g j : Nat) (x : Group) : (s.setGrp g x).grp j = if j = g then x else s.grp j := mget_mset _ _ g j x
theorem grp_setGrp_other (s : State) {g j : Nat} (x : Group) (h : j ≠ g) : (s.setGrp g x).grp j = s.grp j := mget_mset_other _ _ x h
@[simp] theorem thr_setGrp (s : State) (g j : Nat) (x : Group) : (s.setGrp g x).thr j = s.thr j := rfl
@[simp] theorem wg_setGrp (s : State) (g j : Nat) (x : Group) : (s.setGrp g x).wg j = s.wg j := rfl
@[simp] theorem core_setGrp (s : State) (g j : Nat) (x : Group) : (s.setGrp g x).core j = s.core j := rfl
@[simp] theorem cl_setGrp (s : State) (g j : Nat) (x : Group) : (s.setGrp g x).cl j = s.cl j := rfl
@[simp] theorem course_setGrp (s : State) (g j : Nat) (x : Group) : (s.setGrp g x).course j = s.course j := rfl
@[simp] theorem copies_setGrp (s : State) (g j : Nat) (x : Group) : (s.setGrp g x).copies j = s.copies j := rfl
@[simp] theorem slice_setGrp (s : State) (g j : Nat) (x : Group) : (s.setGrp g x).slice j = s.slice j := rfl

@[simp] theorem wg_setWg_same (s : State) (k : Nat) (x : Workgroup) : (s.setWg k x).wg k = x := mget_mset_same _ _ k x
theorem wg_setWg (s : State) (k j : Nat) (x : Workgroup) : (s.setWg k x).wg j = if j = k then x else s.wg j := mget_mset _ _ k j x
theorem wg_setWg_other (s : State) {k j : Nat} (x : Workgroup) (h : j ≠ k) : (s.setWg k x).wg j = s.wg j := mget_mset_other _ _ x h
@[simp] theorem thr_setWg (s : State) (k j : Nat) (x : Workgroup) : (s.setWg k x).thr j = s.thr j := rfl
@[simp] theorem grp_setWg (s : State) (k j : Nat) (x : Workgroup) : (s.setWg k x).grp j = s.grp j := rfl
@[simp] theorem core_setWg (s : State) (k j : Nat) (x : Workgroup) : (s.setWg k x).core j = s.core j := rfl
@[simp] theorem cl_setWg (s : State) (k j : Nat) (x : Workgroup) : (s.setWg k x).cl j = s.cl j := rfl
@[simp] theorem course_setWg (s : State) (k j : Nat) (x : Workgroup) : (s.setWg k x).course j = s.course j := rfl
@[simp] theorem copies_setWg (s : State) (k j : Nat) (x : Workgroup) : (s.setWg k x).copies j = s.copies j := rfl
@[simp] theorem slice_setWg (s : State) (k j : Nat) (x : Workgroup) : (s.setWg k x).slice j = s.slice j := rfl

@[simp] theorem core_setCore_same (s : State) (k : Nat) (x : CoreSt) : (s.setCore k x).core k = x := mget_mset_same _ _ k x
theorem core_setCore (s : State) (k j : Nat) (x : CoreSt) : (s.setCore k x).core j = if j = k then x else s.core j := mget_mset _ _ k j x
theorem core_setCore_other (s : State) {k j : Nat} (x : CoreSt) (h : j ≠ k) : (s.setCore k x).core j = s.core j := mget_mset_other _ _ x h
@[simp] theorem thr_setCore (s : State) (k j : Nat) (x : CoreSt) : (s.setCore k x).thr j = s.thr j := rfl
@[simp] theorem grp_setCore (s : State) (k j : Nat) (x : CoreSt) : (s.setCore k x).grp j = s.grp j := rfl
@[simp] theorem wg_setCore (s : State) (k j : Nat) (x : CoreSt) : (s.setCore k x).wg j = s.wg j := rfl
@[simp] theorem cl_setCore (s : State) (k j : Nat) (x : CoreSt) : (s.setCore k x).cl j = s.cl j := rfl
@[simp] theorem course_setCore (s : State) (k j : Nat) (x : CoreSt) : (s.setCore k x).course j = s.course j := rfl
@[simp] theorem copies_setCore (s : State) (k j : Nat) (x : CoreSt) : (s.setCore k x).copies j = s.copies j := rfl
@[simp] theorem slice_setCore (s : State) (k j : Nat) (x : CoreSt) : (s.setCore k x).slice j = s.slice j := rfl

@[simp] theorem cl_setCl_same (s : State) (c : Nat) (x : Cluster) : (s.setCl c x).cl c = x := mget_mset_same _ _ c x
theorem cl_setCl (s : State) (c j : Nat) (x : Cluster) : (s.setCl c x).cl j = if j = c then x else s.cl j := mget_mset _ _ c j x
theorem cl_setCl_other (s : State) {c j : Nat} (x : Cluster) (h : j ≠ c) : (s.setCl c x).cl j = s.cl j := mget_mset_other _ _ x h
@[simp] theorem thr_setCl (s : State) (c j : Nat) (x : Cluster) : (s.setCl c x).thr j = s.thr j := rfl
@[simp] theorem grp_setCl (s : State) (c j : Nat) (x : Cluster) : (s.setCl c x).grp j = s.grp j := rfl
@[simp] theorem wg_setCl (s : State) (c j : Nat) (x : Cluster) : (s.setCl c x).wg j = s.wg j := rfl
@[simp] theorem core_setCl (s : State) (c j : Nat) (x : Cluster) : (s.setCl c x).core j = s.core j := rfl
@[simp] theorem course_setCl (s : State) (c j : Nat) (x : Cluster) : (s.setCl c x).course j = s.course j := rfl
@[simp] theorem copies_setCl (s : State) (c j : Nat) (x : Cluster) : (s.setCl c x).copies j = s.copies j := rfl
@[simp] theorem slice_setCl (s : State) (c j : Nat) (x : Cluster) : (s.setCl c x).slice j = s.slice j := rfl

@[simp] theorem course_setCourse_same (s : State) (k : Nat) (x : Course) : (s.setCourse k x).course k = x := mget_mset_same _ _ k x
theorem course_setCourse (s : State) (k j : Nat) (x : Course) : (s.setCourse k x).course j = if j = k then x else s.course j := mget_mset _ _ k j x
theorem course_setCourse_other (s : State) {k j : Nat} (x : Course) (h : j ≠ k) : (s.setCourse k x).course j = s.course j := mget_mset_other _ _ x h
@[simp] theorem thr_setCourse (s : State) (k j : Nat) (x : Course) : (s.setCourse k x).thr j = s.thr j := rfl
@[simp] theorem grp_setCourse (s : State) (k j : Nat) (x : Course) : (s.setCourse k x).grp j = s.grp j := rfl
@[simp] theorem wg_setCourse (s : State) (k j : Nat) (x : Course) : (s.setCourse k x).wg j = s.wg j := rfl
@[simp] theorem core_setCourse (s : State) (k j : Nat) (x : Course) : (s.setCourse k x).core j = s.core j := rfl
@[simp] theorem cl_setCourse (s : State) (k j : Nat) (x : Course) : (s.setCourse k x).cl j = s.cl j := rfl
@[simp] theorem copies_setCourse (s : State) (k j : Nat) (x : Course) : (s.setCourse k x).copies j = s.copies j := rfl
@[simp] theorem slice_setCourse (s : State) (k j : Nat) (x : Course) : (s.setCourse k x).slice j = s.slice j := rfl

@[simp] theorem copies_setCopies_same (s : State) (k : Nat) (x : List CopyCmd) : (s.setCopies k x).copies k = x := mget_mset_same _ _ k x
theorem copies_setCopies (s : State) (k j : Nat) (x : List CopyCmd) : (s.setCopies k x).copies j = if j = k then x else s.copies j := mget_mset _ _ k j x
theorem copies_setCopies_other (s : State) {k j : Nat} (x : List CopyCmd) (h : j ≠ k) : (s.setCopies k x).copies j = s.copies j := mget_mset_other _ _ x h
@[simp] theorem thr_setCopies (s : State) (k j : Nat) (x : List CopyCmd) : (s.setCopies k x).thr j = s.thr j := rfl
@[simp] theorem grp_setCopies (s : State) (k j : Nat) (x : List CopyCmd) : (s.setCopies k x).grp j = s.grp j := rfl
@[simp] theorem wg_setCopies (s : State) (k j : Nat) (x : List CopyCmd) : (s.setCopies k x).wg j = s.wg j := rfl
@[simp] theorem core_setCopies (s : State) (k j : Nat) (x : List CopyCmd) : (s.setCopies k x).core j = s.core j := rfl
@[simp] theorem cl_setCopies (s : State) (k j : Nat) (x : List CopyCmd) : (s.setCopies k x).cl j = s.cl j := rfl
@[simp] theorem course_setCopies (s : State) (k j : Nat) (x : List CopyCmd) : (s.setCopies k x).course j = s.course j := rfl
@[simp] theorem slice_setCopies (s : State) (k j : Nat) (x : List CopyCmd) : (s.setCopies k x).slice j = s.slice j := rfl

@[simp] theorem slice_setSlice_same (s : State) (c : Nat) (x : Slice) : (s.setSlice c x).slice c = x := mget_mset_same _ _ c x
theorem slice_setSlice (s : State) (c j : Nat) (x : Slice) : (s.setSlice c x).slice j = if j = c then x else s.slice j := mget_mset _ _ c j x
theorem slice_setSlice_other (s : State) {c j : Nat} (x : Slice) (h : j ≠ c) : (s.setSlice c x).slice j = s.slice j := mget_mset_other _ _ x h
@[simp] theorem thr_setSlice (s : State) (c j : Nat) (x : Slice) : (s.setSlice c x).thr j = s.thr j := rfl
@[simp] theorem grp_setSlice (s : State) (c j : Nat) (x : Slice) : (s.setSlice c x).grp j = s.grp j := rfl
@[simp] theorem wg_setSlice (s : State) (c j : Nat) (x : Slice) : (s.setSlice c x).wg j = s.wg j := rfl
@[simp] theorem core_setSlice (s : State) (c j : Nat) (x : Slice) : (s.setSlice c x).core j = s.core j := rfl
@[simp] theorem cl_setSlice (s : State) (c j : Nat) (x : Slice) : (s.setSlice c x).cl j = s.cl j := rfl
@[simp] theorem course_setSlice (s : State) (c j : Nat) (x : Slice) : (s.setSlice c x).course j = s.course j := rfl
@[simp] theorem copies_setSlice (s : State) (c j : Nat) (x : Slice) : (s.setSlice c x).copies j = s.copies j := rfl

@[simp] theorem grp_modThr (s : State) (t j : Nat) (f : Thread → Thread) : (s.modThr t f).grp j = s.grp j := rfl
@[simp] theorem wg_modThr (s : State) (t j : Nat) (f : Thread → Thread) : (s.modThr t f).wg j = s.wg j := rfl
@[simp] theorem core_modThr (s : State) (t j : Nat) (f : Thread → Thread) : (s.modThr t f).core j = s.core j := rfl
@[simp] theorem cl_modThr (s : State) (t j : Nat) (f : Thread → Thread) : (s.modThr t f).cl j = s.cl j := rfl
@[simp] theorem course_modThr (s : State) (t j : Nat) (f : Thread → Thread) : (s.modThr t f).course j = s.course j := rfl
@[simp] theorem copies_modThr (s : State) (t j : Nat) (f : Thread → Thread) : (s.modThr t f).copies j = s.copies j := rfl
@[simp] theorem slice_modThr (s : State) (t j : Nat) (f : Thread → Thread) : (s.modThr t f).slice j = s.slice j := rfl

@[simp] theorem thr_modThr_same (s : State) (t : Nat) (f : Thread → Thread) : (s.modThr t f).thr t = f (s.thr t) :=
  thr_setThr_same s t _
theorem thr_modThr (s : State) (t j : Nat) (f : Thread → Thread) :
    (s.modThr t f).thr j = if j = t then f (s.thr t) else s.thr j := thr_setThr s t j _
theorem thr_modThr_other (s : State) {t j : Nat} (f : Thread → Thread) (h : j ≠ t) : (s.modThr t f).thr j = s.thr j :=
  thr_setThr_other s _ h

end Sys2Proof.Machine.State
end

