-- ==== Sys2Proof/Laws/Word.lean ====
section
/-!
SUPPORT. What the end of an undisturbed word does: where every lane of its path stands, which writes are under way, and that nothing
else changes.
-/
namespace Sys2Proof.Machine

/-- No `STRAGGLER` and no debugger halt is held for the end of the thread's clause. -/
def Thread.quiet (x : Thread) : Bool := !x.strag && x.haltReq.isNone

/-! ## Names of threads -/

theorem tid_inj {g i j : Nat} (hb : isBow (groupCore g) = false) (h : tid g i = tid g j) : i = j := by
  simp [tid, hb] at h; exact h

theorem groupCore_curG (s : State) (h : s.cur.slot < 16) : groupCore s.curG = s.cur.core := by
  unfold groupCore State.curG; omega

theorem lanesOf_one : lanesOf 1#32 = [0] := by decide

namespace State

theorem Calm.inj {s : State} (h : s.Calm) {i j : Nat} (hi : i ∈ lanesOf s.cur.lanes) (hj : j ∈ lanesOf s.cur.lanes)
    (e : tid s.curG i = tid s.curG j) : i = j := by
  by_cases hb : isBow s.cur.core = true
  · rw [h.bow hb, lanesOf_one, List.mem_singleton] at hi hj; omega
  · exact tid_inj (by rw [groupCore_curG s h.slot]; simpa using hb) e

/-! ## The rest of the state -/

@[simp] theorem rest_setThr (s : State) (t : Nat) (x : Thread) : (s.setThr t x).rest = s.rest := rfl
@[simp] theorem rest_modThr (s : State) (t : Nat) (f : Thread → Thread) : (s.modThr t f).rest = s.rest := rfl
@[simp] theorem rest_setGrp (s : State) (g : Nat) (x : Group) : (s.setGrp g x).rest = s.rest := rfl
@[simp] theorem rest_setCore (s : State) (k : Nat) (x : CoreSt) : (s.setCore k x).rest = s.rest := rfl

/-! ## A change of the lanes of a list -/

/-- A fold that changes one thread for each lane of a list of distinct lanes. -/
theorem foldl_modThr_rest (g : Nat) (f : Nat → Thread → Thread) (l : List Nat) (s : State) :
    (l.foldl (fun s i => s.modThr (tid g i) (f i)) s) = { s with threads := (l.foldl (fun s i => s.modThr (tid g i) (f i)) s).threads } := by
  induction l generalizing s with
  | nil => rfl
  | cons i l ih => simp only [List.foldl_cons]; rw [ih]; rfl

theorem foldl_modThr_other (g : Nat) (f : Nat → Thread → Thread) (l : List Nat) (s : State) (t : Nat) (h : ∀ i ∈ l, t ≠ tid g i) :
    (l.foldl (fun s i => s.modThr (tid g i) (f i)) s).thr t = s.thr t := by
  induction l generalizing s with
  | nil => rfl
  | cons i l ih =>
    simp only [List.foldl_cons]
    rw [ih _ fun j hj => h j (List.mem_cons_of_mem _ hj), thr_modThr_other _ _ (h i List.mem_cons_self)]

theorem foldl_modThr_same (g : Nat) (f : Nat → Thread → Thread) (l : List Nat) (s : State) (i : Nat) (hi : i ∈ l) (hn : l.Nodup)
    (inj : ∀ j ∈ l, tid g i = tid g j → i = j) :
    (l.foldl (fun s i => s.modThr (tid g i) (f i)) s).thr (tid g i) = f i (s.thr (tid g i)) := by
  induction l generalizing s with
  | nil => simp at hi
  | cons j l ih =>
    simp only [List.foldl_cons]
    rw [List.nodup_cons] at hn
    by_cases e : i = j
    · subst e
      rw [foldl_modThr_other _ _ _ _ _ fun k hk e => hn.1 (inj k (List.mem_cons_of_mem _ hk) e ▸ hk), thr_modThr_same]
    · rcases List.mem_cons.1 hi with rfl | hi
      · exact absurd rfl e
      · rw [ih _ hi hn.2 fun k hk => inj k (List.mem_cons_of_mem _ hk),
          thr_modThr_other _ _ fun h => e (inj j List.mem_cons_self h)]

/-! ## Stages of `retire` on undisturbed words -/

theorem charge_rest (s : State) (g cls : Nat) : (s.charge g cls).rest = s.rest := rfl
theorem charge_thr (s : State) (g cls t : Nat) : (s.charge g cls).thr t = s.thr t := rfl

theorem still_charge (s : State) (g cls h : Nat) : ((s.charge g cls).grp h).still = (s.grp h).still := by
  unfold charge
  rw [grp_setGrp]
  split
  · subst_vars; rfl
  · rfl

theorem repath_rest (s : State) (g : Nat) (l : List Nat) : (s.repath g l).rest = s.rest := by
  unfold repath; split <;> rfl

theorem repath_thr (s : State) (g : Nat) (l : List Nat) (t : Nat) : (s.repath g l).thr t = s.thr t := by
  unfold repath; split <;> rfl

theorem repath_still (s : State) (g : Nat) (l : List Nat) (h : Nat) : ((s.repath g l).grp h).still = (s.grp h).still := by
  unfold repath
  split
  · rfl
  · rw [grp_setGrp]
    split
    · subst_vars; rfl
    · rfl

theorem advanceSel_rest (s : State) (n : Nat) : (s.advanceSel n).rest = s.rest := rfl
theorem advanceSel_thr (s : State) (n t : Nat) : (s.advanceSel n).thr t = s.thr t := rfl
theorem advanceSel_grp (s : State) (n h : Nat) : (s.advanceSel n).grp h = s.grp h := rfl

theorem modLanes_nil (s : State) (g : Nat) (f : Thread → Thread) : s.modLanes g 0#32 f = s := by
  simp [modLanes, lanesOf]

theorem pendAll_eq (s : State) (t : Nat) (lat : Option Nat) (op : Nat) (w : List (RegId × RVal)) :
    s.pendAll t lat op w = s.modThr t (Thread.write s.cycle (lat.map (s.cycle + ·)) op w) := rfl

/-- The writes of a list of lane results, as a fold over lanes. -/
theorem writeBack_map (g : Nat) (lat : Option Nat) (op : Nat) (p : List Nat) (f : Nat → LaneRes) (w : Nat → List (RegId × RVal)) (s : State)
    (h : ∀ i ∈ p, f i = .next (w i) ∨ ∃ r, f i = .jump r (w i)) :
    writeBack g lat op (p.map fun i => (i, f i)) s =
      p.foldl (fun s' i => s'.modThr (tid g i) (Thread.write s.cycle (lat.map (s.cycle + ·)) op (w i))) s := by
  have key : ∀ (k : Nat) (s : State), s.cycle = k → (∀ i ∈ p, f i = .next (w i) ∨ ∃ r, f i = .jump r (w i)) →
      writeBack g lat op (p.map fun i => (i, f i)) s =
        p.foldl (fun s' i => s'.modThr (tid g i) (Thread.write k (lat.map (k + ·)) op (w i))) s := by
    clear h
    intro k
    induction p with
    | nil => intro s _ _; rfl
    | cons i p ih =>
      intro s hk h
      have hp : ∀ i ∈ p, f i = .next (w i) ∨ ∃ r, f i = .jump r (w i) := fun j hj => h j (List.mem_cons_of_mem _ hj)
      simp only [List.map_cons, List.foldl_cons]
      rcases h i List.mem_cons_self with e | ⟨r, e⟩ <;> simp only [e, writeBack] <;> rw [pendAll_eq, hk] <;> exact ih _ (by simpa using hk) hp
  exact key s.cycle s rfl h

/-- A fold of one change over lanes. -/
def lanesMod (g : Nat) (f : Nat → Thread → Thread) (l : List Nat) (s : State) : State := l.foldl (fun s i => s.modThr (tid g i) (f i)) s

theorem lanesMod_eq (g : Nat) (f : Nat → Thread → Thread) (l : List Nat) (s : State) :
    lanesMod g f l s = { s with threads := (lanesMod g f l s).threads } := foldl_modThr_rest g f l s

@[simp] theorem lanesMod_rest (g : Nat) (f : Nat → Thread → Thread) (l : List Nat) (s : State) : (lanesMod g f l s).rest = s.rest := by
  rw [lanesMod_eq]; rfl
@[simp] theorem lanesMod_grp (g : Nat) (f : Nat → Thread → Thread) (l : List Nat) (s : State) (h : Nat) : (lanesMod g f l s).grp h = s.grp h := by
  rw [lanesMod_eq]; rfl
@[simp] theorem lanesMod_cycle (g : Nat) (f : Nat → Thread → Thread) (l : List Nat) (s : State) : (lanesMod g f l s).cycle = s.cycle := by
  rw [lanesMod_eq]
@[simp] theorem lanesMod_cur (g : Nat) (f : Nat → Thread → Thread) (l : List Nat) (s : State) : (lanesMod g f l s).cur = s.cur := by
  rw [lanesMod_eq]
@[simp] theorem lanesMod_samples (g : Nat) (f : Nat → Thread → Thread) (l : List Nat) (s : State) : (lanesMod g f l s).samples = s.samples := by
  rw [lanesMod_eq]
@[simp] theorem lanesMod_hole (g : Nat) (f : Nat → Thread → Thread) (l : List Nat) (s : State) : (lanesMod g f l s).hole = s.hole := by
  rw [lanesMod_eq]
@[simp] theorem lanesMod_ops (g : Nat) (f : Nat → Thread → Thread) (l : List Nat) (s : State) : (lanesMod g f l s).ops = s.ops := by
  rw [lanesMod_eq]

theorem endRegion_fold (g : Nat) (next : W64) (l : List Nat) (s : State) :
    l.foldl (fun s i => s.endRegion (tid g i) next) s = lanesMod g (fun _ => endOf s.cycle next) l s := by
  have key : ∀ (k : Nat) (s : State), s.cycle = k →
      l.foldl (fun s i => s.endRegion (tid g i) next) s = lanesMod g (fun _ => endOf k next) l s := by
    intro k
    induction l with
    | nil => intro s _; rfl
    | cons i l ih =>
      intro s hk
      simp only [List.foldl_cons, lanesMod]
      rw [ih _ (by simpa [endRegion] using hk)]
      subst hk; rfl
  exact key s.cycle s rfl

/-- Going on, in each lane of the path. -/
theorem advance_fold (g : Nat) (c : Ctl) (way : Nat → Option W64) (dest : Nat → W64) (l : List Nat) (s s0 : State)
    (hway : ∀ i ∈ l, way i = some (dest i)) (hcur : s.cur = s0.cur) (hcyc : s.cycle = s0.cycle)
    (hst : ∀ i ∈ l, (s.thr (tid g i)).stepping = false) (hn : l.Nodup) (inj : ∀ i ∈ l, ∀ j ∈ l, tid g i = tid g j → i = j) :
    l.foldl (fun s i => match way i with | none => s | some r => s.advance g c.stall.toNat i r) s =
      lanesMod g (fun i => s0.onward c (dest i)) l s := by
  induction l generalizing s with
  | nil => rfl
  | cons i l ih =>
    rw [List.nodup_cons] at hn
    have hi : i ∈ i :: l := List.mem_cons_self
    have inj' : ∀ a ∈ l, ∀ b ∈ l, tid g a = tid g b → a = b :=
      fun a ha b hb => inj a (List.mem_cons_of_mem _ ha) b (List.mem_cons_of_mem _ hb)
    simp only [List.foldl_cons, lanesMod]
    have e : s.advance g c.stall.toNat i (dest i) = s.modThr (tid g i) (s0.onward c (dest i)) := by
      unfold advance modThr onward curLast
      rw [hcur, hcyc]
      have := hst i hi
      simp only []
      split <;> simp_all [Thread.goto]
    simp only [hway i hi, e]
    exact ih _ (fun j hj => hway j (List.mem_cons_of_mem _ hj)) hcur hcyc (fun j hj => by
      rw [thr_modThr_other _ _ fun h => hn.1 (inj j (List.mem_cons_of_mem _ hj) i hi h ▸ hj)]
      exact hst j (List.mem_cons_of_mem _ hj)) hn.2 inj'

theorem sampleWord_calm (s : State) (g : Nat) (w : WordSpec) (op : Nat) (res : List (Nat × LaneRes)) (trace : List (Nat × Nat))
    (hs : s.samples = []) (ha : w.access = true → (s.grp g).armed = []) : s.sampleWord g w op res trace = s := by
  have e : ({ s with samples := ([] : List Sample) } : State) = s := by rw [← hs]
  unfold sampleWord
  rw [hs]
  simp only [List.map_nil, e]
  cases hw : w.access
  · rfl
  · rw [ha hw]; rfl

theorem leave_next (g : Nat) (res : List (Nat × LaneRes)) (s : State) (h : ∀ e ∈ res, e.2.isNext = true) : leave g res s = s := by
  induction res generalizing s with
  | nil => rfl
  | cons e res ih =>
    obtain ⟨i, r⟩ := e
    have hr := h (i, r) List.mem_cons_self
    have := ih s fun e he => h e (List.mem_cons_of_mem _ he)
    cases r <;> simp_all [leave, LaneRes.isNext]

theorem faultsOf_next (res : List (Nat × LaneRes)) (h : ∀ e ∈ res, e.2.isNext = true) : faultsOf res = [] := by
  induction res with
  | nil => rfl
  | cons e res ih =>
    obtain ⟨i, r⟩ := e
    have hr := h (i, r) List.mem_cons_self
    have := ih fun e he => h e (List.mem_cons_of_mem _ he)
    cases r <;> simp_all [faultsOf, LaneRes.isNext]

theorem parkLanes_nil (g : Nat) (word : W64) (opc cls : Nat) (fetch : Bool) (n : Nat) (s : State) :
    parkLanes g word opc cls fetch n [] s = s := by cases n <;> rfl

theorem maskOf_nil : maskOf [] = 0#32 := rfl

theorem stepOut_calm (s : State) (g : Nat) (path : List Nat) (h : ∀ i ∈ path, (s.thr (tid g i)).stepping = false) :
    s.stepOut g path = s := by
  have : (path.filter fun i => (s.thr (tid g i)).stepping && (s.thr (tid g i)).halt.isSome) = [] := by
    rw [List.filter_eq_nil_iff]; intro i hi; simp [h i hi]
  unfold stepOut
  simp only [this, maskOf_nil, if_true]

theorem boundary_calm (s : State) (t : Nat) (h : (s.thr t).quiet = true) : s.boundary t = s := by
  obtain ⟨h, k⟩ : (s.thr t).strag = false ∧ (s.thr t).haltReq = none := by simpa [Thread.quiet] using h
  unfold boundary haltHeld; simp [h, k]

theorem boundary_fold_calm (s : State) (g : Nat) (l : List Nat) (h : ∀ i ∈ l, (s.thr (tid g i)).quiet = true) :
    l.foldl (fun s i => s.boundary (tid g i)) s = s := by
  induction l with
  | nil => rfl
  | cons i l ih =>
    simp only [List.foldl_cons]
    rw [boundary_calm s _ (h i List.mem_cons_self)]
    exact ih fun j hj => h j (List.mem_cons_of_mem _ hj)

end State

/-! ## What register writes leave alone -/

/-- The thread but for its registers and the writes under way. -/
def Thread.bare (x : Thread) : Thread :=
  { x with g := [], v := [], p := [], srs := 0, fsr := 0, hp := 0, hb := 0, tr := 0, ovb := 0, ovt := 0, ovl := 0, chb := 0, chp := 0
           shb := 0, steps := 0, re := 0, rc := 0, pend := [] }

theorem Thread.bare_put (x : Thread) (r : RegId) (y : RVal) : (x.put r y).bare = x.bare := by
  unfold Thread.put
  split <;> try rfl
  · split <;> rfl
  · rename_i r w; cases r <;> rfl

theorem Thread.bare_settleL (cycle : Nat) (l : List Pend) (x : Thread) : (Thread.settleL cycle l x).bare = x.bare := by
  induction l generalizing x with
  | nil => rfl
  | cons e l ih =>
    unfold Thread.settleL
    split
    · split
      · rw [ih, Thread.bare_put]
      · rfl
    · rfl

theorem Thread.bare_addPend (cycle : Nat) (e : Pend) (x : Thread) : (x.addPend cycle e).bare = x.bare := by
  have h : (x.settle cycle).bare = x.bare := Thread.bare_settleL cycle x.pend x
  unfold Thread.addPend
  simp only []
  split <;> exact h

theorem Thread.bare_write (cycle : Nat) (ready : Option Nat) (op : Nat) (w : List (RegId × RVal)) (x : Thread) :
    (x.write cycle ready op w).bare = x.bare := by
  unfold Thread.write
  induction w generalizing x with
  | nil => rfl
  | cons e w ih => rw [List.foldl_cons, ih, Thread.bare_addPend]

theorem Thread.bare_endOf (cycle : Nat) (next : W64) (x : Thread) : (State.endOf cycle next x).bare = x.bare := by
  unfold State.endOf; rw [Thread.bare_addPend, Thread.bare_addPend]

theorem Thread.quiet_of_bare {x y : Thread} (h : x.bare = y.bare) : x.quiet = y.quiet := (congrArg Thread.quiet h : _)
theorem Thread.stepping_of_bare {x y : Thread} (h : x.bare = y.bare) : x.stepping = y.stepping := congrArg (·.stepping) h

end Sys2Proof.Machine
end

