-- ==== Sys2Proof/Laws/Retire.lean ====
section
/-!
SUPPORT. The end of an undisturbed word whose participants all complete or enter their operation (`retire`), and the pipeline around it.
-/
namespace Sys2Proof.Machine

theorem getLsbD_maskFold (p : List Nat) (m : BitVec 32) (i : Nat) (hi : i < 32) :
    (p.foldl (fun m i => m ||| (1#32 <<< i)) m).getLsbD i = (m.getLsbD i || decide (i ∈ p)) := by
  induction p generalizing m with
  | nil => simp
  | cons j p ih =>
    simp only [List.foldl_cons]
    rw [ih]
    by_cases h : i = j
    · subst h; simp [hi]
    · have : (1#32 <<< j).getLsbD i = false := by
        rw [BitVec.getLsbD_shiftLeft]
        by_cases hj : i < j
        · simp [hj]
        · have : i - j ≠ 0 := by omega
          simp [BitVec.getLsbD_one, this]
      simp [BitVec.getLsbD_or, this, h]

theorem mem_lanesOf_maskOf {p : List Nat} {i : Nat} (h : ∀ j ∈ p, j < 32) : i ∈ lanesOf (maskOf p) ↔ i ∈ p := by
  rw [mem_lanesOf]
  constructor
  · rintro ⟨hi, h⟩
    rw [maskOf, getLsbD_maskFold p _ i hi] at h
    simpa using h
  · intro hi
    exact ⟨h i hi, by rw [maskOf, getLsbD_maskFold p _ i (h i hi)]; simp [hi]⟩

namespace State

theorem lanesMod_same (g : Nat) (f : Nat → Thread → Thread) (l : List Nat) (s : State) (i : Nat) (hi : i ∈ l) (hn : l.Nodup)
    (inj : ∀ j ∈ l, tid g i = tid g j → i = j) : (lanesMod g f l s).thr (tid g i) = f i (s.thr (tid g i)) :=
  foldl_modThr_same g f l s i hi hn inj

theorem lanesMod_other (g : Nat) (f : Nat → Thread → Thread) (l : List Nat) (s : State) (t : Nat) (h : ∀ i ∈ l, t ≠ tid g i) :
    (lanesMod g f l s).thr t = s.thr t := foldl_modThr_other g f l s t h

theorem lanesMod_out (g : Nat) (f : Nat → Thread → Thread) (l : List Nat) (s : State) (i : Nat) (hi : i ∉ l)
    (inj : ∀ j ∈ l, tid g i = tid g j → i = j) : (lanesMod g f l s).thr (tid g i) = s.thr (tid g i) :=
  lanesMod_other g f l s _ fun j hj e => hi (inj j hj e ▸ hj)

theorem incCtr_eq (s : State) (g : Nat) (m : BitVec 32) (c : Ctl) :
    s.incCtr g m c.ctr = lanesMod g (fun _ => incOf c) (match c.ctr with | none => [] | some _ => lanesOf m) s := by
  unfold incOf
  cases c.ctr <;> rfl

theorem lanesMod_threads_congr (g : Nat) (f : Nat → Thread → Thread) (l : List Nat) {s u : State} (h : u.threads = s.threads) :
    (lanesMod g f l u).threads = (lanesMod g f l s).threads := by
  induction l generalizing s u with
  | nil => exact h
  | cons i l ih => exact ih (by simp [modThr, setThr, thr, h])

/-- Entering an operation: the counter rises in the lanes that take part, the operation is listed under a new number, and an engine's queue
learns what the lanes know. -/
theorem enterOp_eq (s : State) (g : Nat) (m : BitVec 32) (c : Ctl) (queue : Option Nat) (k : OpKind) (done : Bool) :
    (s.enterOp g m c.ctr queue k done).1 = { s with
      threads := (s.incCtr g m c.ctr).threads, ops := s.ops ++ [s.opOf g m c.ctr queue k done], nextId := s.nextId + 1
      writes := s.enteredWrites g m queue } := by
  have ht := lanesMod_threads_congr g (fun _ => incOf c) (match c.ctr with | none => [] | some _ => lanesOf m)
    (s := s) (u := { s with nextId := s.nextId + 1 }) rfl
  unfold enterOp fresh
  simp only [incCtr_eq]
  rw [lanesMod_eq, ht]
  cases queue with
  | none => rfl
  | some q =>
    simp only [Option.isSome_some, if_true]
    rw [passLanes_eq]
    unfold enteredWrites addOp
    simp only [Option.isSome_some, if_true]
    rw [passLanes_congr g (.op s.nextId) (lanesOf m) (s := s) (u := { s with
      threads := (lanesMod g (fun _ => incOf c) (match c.ctr with | none => [] | some _ => lanesOf m) s).threads, nextId := s.nextId + 1 })
      rfl ⟨rfl, rfl, fun _ => rfl⟩]
    rfl

/-- The account of a word's energy does not change what its operation learns. -/
theorem charge_entered (s : State) (g k h : Nat) (m : BitVec 32) (queue : Option Nat) :
    (s.charge g k).enteredWrites h m queue = s.enteredWrites h m queue := by
  unfold enteredWrites
  split
  · exact passLanes_congr h _ _ rfl ⟨rfl, rfl, fun j => (congrArg (fun x : Group => x.wg) (still_charge s g k j) : _)⟩
  · rfl

theorem enterOp_rest (s : State) (g : Nat) (m : BitVec 32) (c : Ctl) (queue : Option Nat) (k : OpKind) (done : Bool) :
    (s.enterOp g m c.ctr queue k done).1.rest =
      { s.rest with
        ops := s.ops ++ [s.opOf g m c.ctr queue k done], nextId := s.nextId + 1, writes := s.enteredWrites g m queue } := by
  rw [enterOp_eq]; rfl

theorem enterOp_thr (s : State) (g : Nat) (m : BitVec 32) (c : Ctl) (queue : Option Nat) (k : OpKind) (done : Bool) (t : Nat) :
    (s.enterOp g m c.ctr queue k done).1.thr t = (s.incCtr g m c.ctr).thr t := by
  rw [enterOp_eq]; rfl

theorem enterOp_grp (s : State) (g : Nat) (m : BitVec 32) (c : Ctl) (queue : Option Nat) (k : OpKind) (done : Bool) (h : Nat) :
    (s.enterOp g m c.ctr queue k done).1.grp h = s.grp h := by
  rw [enterOp_eq]; rfl

theorem enterOp_cycle (s : State) (g : Nat) (m : BitVec 32) (c : Ctl) (queue : Option Nat) (k : OpKind) (done : Bool) :
    (s.enterOp g m c.ctr queue k done).1.cycle = s.cycle := congrArg (·.cycle) (enterOp_rest s g m c queue k done)
theorem enterOp_cur (s : State) (g : Nat) (m : BitVec 32) (c : Ctl) (queue : Option Nat) (k : OpKind) (done : Bool) :
    (s.enterOp g m c.ctr queue k done).1.cur = s.cur := congrArg (·.cur) (enterOp_rest s g m c queue k done)
theorem enterOp_samples (s : State) (g : Nat) (m : BitVec 32) (c : Ctl) (queue : Option Nat) (k : OpKind) (done : Bool) :
    (s.enterOp g m c.ctr queue k done).1.samples = s.samples := congrArg (·.samples) (enterOp_rest s g m c queue k done)

/-! ## The outcomes of the participants -/

/-- The outcomes of participants that complete: lane i writes `w i` and goes on at `dest i`. -/
def Completes (s : State) (p : List Nat) (f : Nat → LaneRes) (w : Nat → List (RegId × RVal)) (dest : Nat → W64) : Prop :=
  ∀ i ∈ p, (f i = .next (w i) ∧ dest i = s.curNext) ∨ f i = .jump (dest i) (w i)

theorem Completes.isNext {s : State} {p : List Nat} {f : Nat → LaneRes} {w : Nat → List (RegId × RVal)} {dest : Nat → W64}
    (h : s.Completes p f w dest) {i : Nat} (hi : i ∈ p) : (f i).isNext = true := by
  rcases h i hi with ⟨e, _⟩ | e <;> rw [e] <;> rfl

theorem Completes.res {s : State} {p : List Nat} {f : Nat → LaneRes} {w : Nat → List (RegId × RVal)} {dest : Nat → W64}
    (h : s.Completes p f w dest) : ∀ e ∈ p.map (fun i => (i, f i)), e.2.isNext = true := by
  intro e he
  obtain ⟨i, hi, rfl⟩ := List.mem_map.1 he
  exact h.isNext hi

theorem find_map (p : List Nat) (f : Nat → LaneRes) (i : Nat) :
    (p.map fun j => (j, f j)).find? (fun r => r.1 == i) = if i ∈ p then some (i, f i) else none := by
  induction p with
  | nil => rfl
  | cons j p ih =>
    simp only [List.map_cons, List.find?_cons]
    by_cases h : j = i
    · subst h; simp
    · have hb : (j == i) = false := by simpa using h
      have : ¬ i = j := fun e => h e.symm
      simp [hb, this, ih]

theorem wayOn_map {s : State} {p : List Nat} {f : Nat → LaneRes} {w : Nat → List (RegId × RVal)} {dest : Nat → W64}
    (h : s.Completes p f w dest) (i : Nat) :
    s.wayOn (p.map fun j => (j, f j)) i = some (if i ∈ p then dest i else s.curNext) := by
  unfold wayOn
  rw [find_map]
  by_cases hi : i ∈ p
  · rcases h i hi with ⟨e, hd⟩ | e <;> simp [hi, e]
    exact hd.symm
  · simp [hi]

theorem nexts_map {s : State} {p : List Nat} {f : Nat → LaneRes} {w : Nat → List (RegId × RVal)} {dest : Nat → W64}
    (h : s.Completes p f w dest) : ((p.map fun i => (i, f i)).filter fun r => r.2.isNext).map (·.1) = p := by
  rw [List.filter_eq_self.2 h.res, List.map_map]
  exact List.map_id p

/-- The end of an undisturbed word without traps. -/
theorem closeWord_calm (s0 s : State) (c : Ctl) (res : List (Nat × LaneRes)) (hres : ∀ e ∈ res, e.2.isNext = true)
    (hstr : ∀ i ∈ lanesOf s0.cur.lanes, (s.thr (tid s0.curG i)).quiet = true)
    (hstp : ∀ i ∈ lanesOf s0.cur.lanes, (s.thr (tid s0.curG i)).stepping = false) (hm : s.samples = []) :
    State.closeWord c res s0 s = if s0.curLast then
        (s.advanceSel c.stall.toNat).repath s0.curG ((lanesOf s0.cur.lanes).filter fun i => (s0.wayOn res i).isSome)
      else s.advanceSel c.stall.toNat := by
  have any_ex : res.any (fun r => r.2 == .exits) = false := by
    rw [List.any_eq_false]
    intro e he
    have := hres e he
    cases h : e.2 <;> simp_all [LaneRes.isNext]
  have all_n : res.all (fun r => r.2.isNext) = true := List.all_eq_true.2 hres
  unfold closeWord
  simp only [leave_next _ _ _ hres, faultsOf_next _ hres, parkLanes_nil, any_ex, all_n, if_true, Bool.false_eq_true, if_false]
  generalize hs11 : (if s0.curLast then
        (s.advanceSel c.stall.toNat).repath s0.curG ((lanesOf s0.cur.lanes).filter fun i => (s0.wayOn res i).isSome)
      else s.advanceSel c.stall.toNat) = u
  have t11 : ∀ t, u.thr t = s.thr t := by
    intro t; rw [← hs11]; split
    · rw [repath_thr]; rfl
    · rfl
  have m11 : u.samples = [] := by
    rw [← hs11]; split
    · exact (congrArg (·.samples) (repath_rest (s.advanceSel c.stall.toNat) s0.curG _)).trans hm
    · exact hm
  rw [stepOut_calm _ _ _ fun i hi => by rw [t11]; exact hstp i hi]
  split
  · rw [boundary_fold_calm _ _ _ fun i hi => by rw [t11]; exact hstr i (List.mem_of_mem_filter hi)]
    simp [m11]
  · simp [m11]

theorem still_settleL (cycle : Nat) (l : List MPend) {x y : Group} (h : x.still = y.still) :
    (Group.settleL cycle l x).still = (Group.settleL cycle l y).still := by
  have hm : ∀ {x y : Group}, x.still = y.still → x.m = y.m := fun h => (congrArg (·.m) h : _)
  induction l generalizing x y with
  | nil =>
    have := congrArg (fun z : Group => ({ z with mpend := [] } : Group)) h
    exact this
  | cons e l ih =>
    unfold Group.settleL
    split
    · split
      · apply ih
        rw [hm h]
        have := congrArg (fun z : Group => ({ z with m := mset MVal.zero y.m e.reg.toNat (e.val.rows (mget MVal.zero y.m e.reg.toNat) e.rows) } : Group)) h
        exact this
      · exact congrArg (fun z : Group => ({ z with mpend := e :: l } : Group)) h
    · exact congrArg (fun z : Group => ({ z with mpend := e :: l } : Group)) h

theorem still_addPend (cycle : Nat) (e : MPend) {x y : Group} (h : x.still = y.still) :
    (x.addPend cycle e).still = (y.addPend cycle e).still := by
  have hp : x.mpend = y.mpend := (congrArg (·.mpend) h : _)
  unfold Group.addPend
  simp only []
  rw [hp]
  have k := still_settleL cycle y.mpend h
  have hq : (Group.settleL cycle y.mpend x).mpend = (Group.settleL cycle y.mpend y).mpend := (congrArg (·.mpend) k : _)
  rw [hq]
  exact congrArg (fun z : Group => ({ z with mpend := (Group.settleL cycle y.mpend y).mpend ++ [e] } : Group)) k

theorem still_groupAfter (s : State) (w : WordSpec) (op : Nat) (m : Option (MReg × MVal × BitVec 32)) {x y : Group}
    (h : x.still = y.still) : (s.groupAfter w op m x).still = (s.groupAfter w op m y).still := by
  cases m with
  | none => exact h
  | some e => exact still_addPend _ _ h

/-- THE END OF AN UNDISTURBED WORD all of whose participants complete or enter their operation. -/
theorem retire_calm (s : State) (c : Ctl) (w : WordSpec) (a : Acted) (p : List Nat) (f : Nat → LaneRes) (wr : Nat → List (RegId × RVal))
    (dest : Nat → W64) (hres : a.res = p.map fun i => (i, f i)) (hf : s.Completes p f wr dest)
    (hp : ∀ i ∈ p, i ∈ lanesOf s.cur.lanes) (hn : p.Nodup) (inj : ∀ i ∈ lanesOf s.cur.lanes, ∀ j ∈ lanesOf s.cur.lanes, tid s.curG i = tid s.curG j → i = j)
    (hcur : a.st.cur = s.cur) (hcyc : a.st.cycle = s.cycle) (hsam : a.st.samples = []) (harm : w.access = true → (a.st.grp s.curG).armed = [])
    (hstr : ∀ i ∈ lanesOf s.cur.lanes, (a.st.thr (tid s.curG i)).quiet = true)
    (hstp : ∀ i ∈ lanesOf s.cur.lanes, (a.st.thr (tid s.curG i)).stepping = false) :
    let u := s.retire c w a []
    let op := if w.lat = none ∧ p ≠ [] then a.st.nextId else 0
    u.rest = (if w.lat = none ∧ p ≠ [] then
        { a.st.rest with
          ops := a.st.ops ++ [a.st.opOf s.curG (maskOf p) c.ctr a.queue a.kind a.done], nextId := a.st.nextId + 1
          writes := a.st.enteredWrites s.curG (maskOf p) a.queue }
      else a.st.rest) ∧
    (∀ h, (u.grp h).still = if h = s.curG then (s.groupAfter w op a.m (a.st.grp h)).still else (a.st.grp h).still) ∧
    (∀ t, (∀ i ∈ lanesOf s.cur.lanes, t ≠ tid s.curG i) → u.thr t = a.st.thr t) ∧
    (∀ i ∈ lanesOf s.cur.lanes, i ∉ p → u.thr (tid s.curG i) = s.onward c s.curNext (a.st.thr (tid s.curG i))) ∧
    (∀ i ∈ p, u.thr (tid s.curG i) = s.laneAfter c w op (dest i) (wr i) (a.st.thr (tid s.curG i))) := by
  have hlt : ∀ j ∈ p, j < 32 := fun j hj => (mem_lanesOf.1 (hp j hj)).1
  have injp : ∀ i ∈ p, ∀ j ∈ p, tid s.curG i = tid s.curG j → i = j := fun i hi j hj => inj i (hp i hi) j (hp j hj)
  have hpath := lanesOf_nodup s.cur.lanes
  -- the operation
  let s1 := a.st.charge s.curG s.cur.mapCls
  let var := w.lat = none ∧ p ≠ []
  let s2 : State := if var then (s1.enterOp s.curG (maskOf p) c.ctr a.queue a.kind a.done).1 else s1
  let op : Nat := if var then a.st.nextId else 0
  have h2 : (a.st.charge s.curG s.cur.mapCls).openOp c w a s.curG p = (s2, op) := by
    simp only [s2, op, var, openOp]
    cases hl : w.lat with
    | some n => simp; rfl
    | none =>
      by_cases he : p = []
      · simp [he]; rfl
      · simp [he]; rfl
  have c2 : s2.cycle = s.cycle := by
    simp only [s2]; split
    · rw [enterOp_cycle]; exact hcyc
    · exact hcyc
  have u2 : s2.cur = s.cur := by
    simp only [s2]; split
    · rw [enterOp_cur]; exact hcur
    · exact hcur
  have m2 : s2.samples = [] := by
    simp only [s2]; split
    · rw [enterOp_samples]; exact hsam
    · exact hsam
  have g2 : ∀ h, s2.grp h = s1.grp h := by
    intro h; simp only [s2]; split
    · rw [enterOp_grp]
    · rfl
  have t2o : ∀ t, (∀ i ∈ lanesOf s.cur.lanes, t ≠ tid s.curG i) → s2.thr t = a.st.thr t := by
    intro t ht; simp only [s2]; split
    · rw [enterOp_thr, incCtr_eq]
      cases c.ctr with
      | none => rfl
      | some n => exact lanesMod_other _ _ _ _ _ fun i hi => ht i (hp i ((mem_lanesOf_maskOf hlt).1 hi))
    · rfl
  have t2n : ∀ i ∈ lanesOf s.cur.lanes, i ∉ p → s2.thr (tid s.curG i) = a.st.thr (tid s.curG i) := by
    intro i hi hip; simp only [s2]; split
    · rw [enterOp_thr, incCtr_eq]
      cases c.ctr with
      | none => rfl
      | some n =>
        refine lanesMod_out _ _ _ _ _ (fun h => hip ((mem_lanesOf_maskOf hlt).1 h)) ?_
        exact fun j hj => inj i hi j (hp j ((mem_lanesOf_maskOf hlt).1 hj))
    · rfl
  have t2p : ∀ i ∈ p, s2.thr (tid s.curG i) = if w.lat = none then incOf c (a.st.thr (tid s.curG i)) else a.st.thr (tid s.curG i) := by
    intro i hi
    have hne : p ≠ [] := List.ne_nil_of_mem hi
    simp only [s2, var]
    by_cases hl : w.lat = none
    · simp only [hl, hne, ne_eq, not_false_eq_true, and_self, if_true]
      rw [enterOp_thr, incCtr_eq]
      unfold incOf
      cases c.ctr with
      | none => rfl
      | some n =>
        rw [lanesMod_same _ _ _ _ _ ((mem_lanesOf_maskOf hlt).2 hi) (lanesOf_nodup _)
          fun j hj => injp i hi j ((mem_lanesOf_maskOf hlt).1 hj)]
        rfl
    · simp [hl]; rfl
  have bare2 : ∀ i ∈ lanesOf s.cur.lanes, (s2.thr (tid s.curG i)).quiet = true ∧ (s2.thr (tid s.curG i)).stepping = false := by
    intro i hi
    by_cases hip : i ∈ p
    · rw [t2p i hip]
      split
      · unfold incOf
        cases c.ctr <;> exact ⟨hstr i hi, hstp i hi⟩
      · exact ⟨hstr i hi, hstp i hi⟩
    · rw [t2n i hi hip]; exact ⟨hstr i hi, hstp i hi⟩
  -- the writes
  let F : Nat → Thread → Thread := fun i => Thread.write s.cycle (w.lat.map (s.cycle + ·)) op (wr i)
  let s3 := lanesMod s.curG F p s2
  have h3 : writeBack s.curG w.lat op (p.map fun i => (i, f i)) s2 = s3 := by
    rw [writeBack_map _ _ _ _ f wr]
    · simp only [c2]; rfl
    · intro i hi
      rcases hf i hi with ⟨e, _⟩ | e
      · exact .inl e
      · exact .inr ⟨_, e⟩
  -- the matrix result
  let s4 := match a.m with
    | none => s3
    | some (r, v, rows) => s3.setGrp s.curG ((s3.grp s.curG).addPend s3.cycle ⟨r, v, rows, w.lat.map (s3.cycle + ·), op⟩)
  have c3 : s3.cycle = s.cycle := by simp only [s3, lanesMod_cycle, c2]
  have g4 : ∀ h, (s4.grp h).still = if h = s.curG then (s.groupAfter w op a.m (a.st.grp h)).still else (a.st.grp h).still := by
    intro h
    have g3 : ∀ h, (s3.grp h).still = (a.st.grp h).still := fun h => by
      simp only [s3, lanesMod_grp, g2, s1]; exact still_charge _ _ _ _
    simp only [s4]
    cases hm : a.m with
    | none => simp only [groupAfter, ite_self]; exact g3 h
    | some e =>
      simp only [groupAfter, c3]
      rw [grp_setGrp]
      by_cases hh : h = s.curG
      · subst hh
        simp only [if_true]
        exact still_addPend _ _ (g3 _)
      · simp only [hh, if_false]; exact g3 h
  have arm4 : w.access = true → (s4.grp s.curG).armed = [] := by
    intro hacc
    have harm := harm hacc
    have := congrArg (·.armed) (g4 s.curG)
    simp only [if_true] at this
    have e : ∀ x : Group, x.still.armed = x.armed := fun _ => rfl
    rw [e, e] at this
    rw [this]
    unfold groupAfter
    have hset : ∀ (l : List MPend) (x : Group), (Group.settleL s.cycle l x).armed = x.armed := by
      intro l
      induction l with
      | nil => intro x; rfl
      | cons e l ih =>
        intro x
        unfold Group.settleL
        split
        · split
          · rw [ih]
          · rfl
        · rfl
    cases a.m with
    | none => exact harm
    | some e => simp only [Group.addPend, hset]; exact harm
  have s4thr : ∀ t, s4.thr t = s3.thr t := by intro t; simp only [s4]; split <;> rfl
  have s4cyc : s4.cycle = s.cycle := by simp only [s4]; split <;> exact c3
  have s4cur : s4.cur = s.cur := by simp only [s4]; split <;> simp [s3, u2]
  have s4sam : s4.samples = [] := by simp only [s4]; split <;> simp [s3, m2]
  have s4rest : s4.rest = s2.rest := by simp only [s4]; split <;> simp [s3]
  -- the end of the region
  let E : Nat → Thread → Thread := fun _ => endOf s.cycle s.curNext
  let s5 := if w.ends then lanesMod s.curG E p s4 else s4
  have h5 : (if w.ends then p.foldl (fun s' i => s'.endRegion (tid s.curG i) s.curNext) s4 else s4) = s5 := by
    simp only [s5]
    split
    · rw [endRegion_fold, s4cyc]
    · rfl
  have t5 : ∀ t, (∀ i ∈ p, t ≠ tid s.curG i) → s5.thr t = s2.thr t := by
    intro t ht
    have e3 : s3.thr t = s2.thr t := lanesMod_other _ _ _ _ _ ht
    simp only [s5]
    split
    · rw [lanesMod_other _ _ _ _ _ ht, s4thr, e3]
    · rw [s4thr, e3]
  have t5p : ∀ i ∈ p, s5.thr (tid s.curG i) = if w.ends then endOf s.cycle s.curNext (F i (s2.thr (tid s.curG i))) else F i (s2.thr (tid s.curG i)) := by
    intro i hi
    have e3 : s3.thr (tid s.curG i) = F i (s2.thr (tid s.curG i)) := lanesMod_same _ _ _ _ _ hi hn fun j hj => injp i hi j hj
    simp only [s5]
    split
    · rw [lanesMod_same _ _ _ _ _ hi hn fun j hj => injp i hi j hj, s4thr, e3]
    · rw [s4thr, e3]
  have t5n : ∀ i ∈ lanesOf s.cur.lanes, i ∉ p → s5.thr (tid s.curG i) = s2.thr (tid s.curG i) := fun i hi hip =>
    t5 _ fun j hj e => hip (inj i hi j (hp j hj) e ▸ hj)
  have r5 : s5.rest = s2.rest := by simp only [s5]; split <;> simp [s4rest]
  have u5 : s5.cur = s.cur := by simp only [s5]; split <;> simp [s4cur]
  have c5 : s5.cycle = s.cycle := by simp only [s5]; split <;> simp [s4cyc]
  have m5 : s5.samples = [] := by simp only [s5]; split <;> simp [s4sam]
  have g5 : ∀ h, s5.grp h = s4.grp h := by intro h; simp only [s5]; split <;> simp
  have bare5 : ∀ i ∈ lanesOf s.cur.lanes, (s5.thr (tid s.curG i)).quiet = true ∧ (s5.thr (tid s.curG i)).stepping = false := by
    intro i hi
    by_cases hip : i ∈ p
    · have e : (s5.thr (tid s.curG i)).bare = (s2.thr (tid s.curG i)).bare := by
        rw [t5p i hip]
        split
        · rw [Thread.bare_endOf]; exact Thread.bare_write _ _ _ _ _
        · exact Thread.bare_write _ _ _ _ _
      exact ⟨(Thread.quiet_of_bare e).trans (bare2 i hi).1, (Thread.stepping_of_bare e).trans (bare2 i hi).2⟩
    · rw [t5n i hi hip]; exact bare2 i hi
  -- going on
  let way : Nat → W64 := fun i => if i ∈ p then dest i else s.curNext
  let s6 := lanesMod s.curG (fun i => s.onward c (way i)) (lanesOf s.cur.lanes) s5
  have h6 : (lanesOf s.cur.lanes).foldl (fun s' i => match s.wayOn (p.map fun i => (i, f i)) i with
      | none => s' | some r => s'.advance s.curG c.stall.toNat i r) s5 = s6 :=
    advance_fold s.curG c _ way _ s5 s (fun i _ => wayOn_map hf i) u5 c5 (fun i hi => (bare5 i hi).2) hpath inj
  have t6 : ∀ i ∈ lanesOf s.cur.lanes, s6.thr (tid s.curG i) = s.onward c (way i) (s5.thr (tid s.curG i)) := fun i hi =>
    lanesMod_same _ _ _ _ _ hi hpath fun j hj => inj i hi j hj
  have on : ∀ r x, (s.onward c r x).quiet = x.quiet ∧ (s.onward c r x).stepping = x.stepping := by
    intro r x; unfold onward; simp only []; split <;> exact ⟨rfl, rfl⟩
  have bare6 : ∀ i ∈ lanesOf s.cur.lanes, (s6.thr (tid s.curG i)).quiet = true ∧ (s6.thr (tid s.curG i)).stepping = false := by
    intro i hi
    rw [t6 i hi]
    exact ⟨(on _ _).1.trans (bare5 i hi).1, (on _ _).2.trans (bare5 i hi).2⟩
  have m6 : s6.samples = [] := by simp [s6, m5]
  have a6 : w.access = true → (s6.grp s.curG).armed = [] := by simp only [s6, lanesMod_grp, g5]; exact arm4
  have hres' : ∀ e ∈ (p.map fun i => (i, f i)), e.2.isNext = true := hf.res
  -- after going on
  let s10 := s6.advanceSel c.stall.toNat
  let left := (lanesOf s.cur.lanes).filter fun i => (s.wayOn (p.map fun i => (i, f i)) i).isSome
  let s11 := if s.curLast then s10.repath s.curG left else s10
  have t11 : ∀ t, s11.thr t = s6.thr t := by
    intro t; simp only [s11]; split
    · rw [repath_thr]; rfl
    · rfl
  have hclose : State.closeWord c (p.map fun i => (i, f i)) s s6 = s11 :=
    closeWord_calm s s6 c _ hres' (fun i hi => (bare6 i hi).1) (fun i hi => (bare6 i hi).2) m6
  have hresu : s.results c w a (p.map fun i => (i, f i)) = (s5, op) := by
    unfold results
    simp only [nexts_map hf, h2, h3]
    exact Prod.ext h5 rfl
  have final : s.retire c w a [] = s11 := by
    unfold retire
    simp only [hres, List.append_nil, hresu]
    have : State.goOn c (p.map fun i => (i, f i)) s s5 = s6 := h6
    rw [this, sampleWord_calm _ _ _ _ _ _ m6 a6, hclose]
  intro u op'
  have hu : u = s11 := final
  rw [hu]
  have hop : op' = op := rfl
  refine ⟨?_, ?_, ?_, ?_, ?_⟩
  · have : s11.rest = s2.rest := by
      have e : s11.rest = s10.rest := by
        simp only [s11]; split
        · rw [repath_rest]
        · rfl
      rw [e, advanceSel_rest]
      simp only [s6, lanesMod_rest, r5]
    rw [this]
    simp only [s2, var]
    split
    · rw [enterOp_rest, charge_entered]; rfl
    · rfl
  · intro h
    have e : (s11.grp h).still = (s10.grp h).still := by
      simp only [s11]; split
      · rw [repath_still]
      · rfl
    rw [e]
    simp only [s10, advanceSel_grp, s6, lanesMod_grp, g5]
    exact g4 h
  · intro t ht
    rw [t11]
    simp only [s6]
    rw [lanesMod_other _ _ _ _ _ ht, t5 t fun i hi => ht i (hp i hi)]
    exact t2o t ht
  · intro i hi hip
    rw [t11, t6 i hi, t5n i hi hip, t2n i hi hip]
    simp [way, hip]
  · intro i hi
    rw [t11, t6 i (hp i hi), t5p i hi, t2p i hi]
    simp only [way, hi, if_true, laneAfter, F, hop]

end State
end Sys2Proof.Machine
end

