-- ==== Sys2Proof/Laws/Pipe.lean ====
section
/-!
SUPPORT. The pipeline of an undisturbed word whose checks let its participants act: it answers a next state, and every lane of the path
stands where the outcome of its own action puts it.
-/
namespace Sys2Proof.Machine.State

/-- The participants are lanes of the path. -/
theorem gate_go {s : State} {c : Ctl} {w : WordSpec} {p : List Nat} {tr : List (Nat × LaneRes)} (h : s.gate c w = .go p tr) :
    (∀ i ∈ p, i ∈ lanesOf s.cur.lanes) ∧ p.Nodup := by
  unfold gate at h
  simp only [] at h
  split at h
  · cases h
  · split at h
    · cases h
    · generalize hp : List.filter _ (lanesOf s.cur.lanes) = q at h
      have hq : (∀ i ∈ q, i ∈ lanesOf s.cur.lanes) ∧ q.Nodup := by
        subst hp
        exact ⟨fun i hi => List.mem_of_mem_filter hi, (lanesOf_nodup _).filter _⟩
      cases hn : c.ctr with
      | none => rw [hn] at h; injection h with h1 _; exact h1 ▸ hq
      | some n =>
        rw [hn] at h
        simp only [] at h
        split at h
        · cases h
        · injection h with h1 _; exact h1 ▸ hq

/-- What an action leaves of the state so far that the end of the word relies on. -/
structure Undisturbed (s st : State) : Prop where
  hole    : st.hole = false
  cur     : st.cur = s.cur
  cycle   : st.cycle = s.cycle
  samples : st.samples = []
  armed   : (st.grp s.curG).armed = []
  quiet   : ∀ i ∈ lanesOf s.cur.lanes, (st.thr (tid s.curG i)).quiet = true
  steps   : ∀ i ∈ lanesOf s.cur.lanes, (st.thr (tid s.curG i)).stepping = false

theorem Calm.undisturbed {s : State} (h : s.Calm) : s.Undisturbed s :=
  ⟨h.hole, rfl, rfl, h.samples, h.armed, fun i hi => by simp [Thread.quiet, h.strag i hi, h.halts i hi], h.steps⟩

/-- An undisturbed word whose action `a` lets every participant complete or enter its operation. -/
theorem word_completes (s : State) (c : Ctl) (w : WordSpec) (act : State → List Nat → Acted) (p : List Nat) (a : Acted)
    (f : Nat → LaneRes) (wr : Nat → List (RegId × RVal)) (dest : Nat → W64) (hg : s.gate c w = .go p []) (ha : act s p = a)
    (hc : s.Calm) (hu : s.Undisturbed a.st) (hres : a.res = p.map fun i => (i, f i))
    (hf : s.Completes p f wr dest) :
    ∃ u, s.word c w act = .next u ∧
      u.rest = (if w.lat = none ∧ p ≠ [] then
          { a.st.rest with
            ops := a.st.ops ++ [a.st.opOf s.curG (maskOf p) c.ctr a.queue a.kind a.done], nextId := a.st.nextId + 1
            writes := a.st.enteredWrites s.curG (maskOf p) a.queue }
        else a.st.rest) ∧
      (∀ h, (u.grp h).still = if h = s.curG then
        (s.groupAfter w (if w.lat = none ∧ p ≠ [] then a.st.nextId else 0) a.m (a.st.grp h)).still else (a.st.grp h).still) ∧
      (∀ t, (∀ i ∈ lanesOf s.cur.lanes, t ≠ tid s.curG i) → u.thr t = a.st.thr t) ∧
      (∀ i ∈ lanesOf s.cur.lanes, i ∉ p → u.thr (tid s.curG i) = s.onward c s.curNext (a.st.thr (tid s.curG i))) ∧
      (∀ i ∈ p, u.thr (tid s.curG i) =
        s.laneAfter c w (if w.lat = none ∧ p ≠ [] then a.st.nextId else 0) (dest i) (wr i) (a.st.thr (tid s.curG i))) := by
  obtain ⟨hp, hn⟩ := gate_go hg
  have key := retire_calm s c w a p f wr dest hres hf hp hn (fun i hi j hj => hc.inj hi hj) hu.cur hu.cycle hu.samples
    (fun _ => hu.armed) hu.quiet hu.steps
  refine ⟨s.retire c w a [], ?_, key⟩
  have hh : (s.retire c w a []).hole = false := by
    have := congrArg (·.hole) key.1
    simp only [rest] at this
    rw [this]
    split <;> exact hu.hole
  unfold word
  simp only [hg, ha]
  have hfa : faultsOf a.res = [] := by rw [hres]; exact faultsOf_next _ hf.res
  simp only [hfa, ite_self]
  simp only [out, hh, Bool.false_eq_true, if_false]

/-- A word that only writes registers, with a fixed latency: the next state, lane by lane, and the frame. -/
theorem perLane_completes (s : State) (c : Ctl) (w : WordSpec) (f : Nat → LaneRes) (p : List Nat) (wr : Nat → List (RegId × RVal))
    (dest : Nat → W64) (n : Nat) (hl : w.lat = some n) (hg : s.gate c w = .go p []) (hc : s.Calm)
    (hf : s.Completes p (fun i => f (tid s.curG i)) wr dest) :
    ∃ u, s.perLane c w f = .next u ∧ s.Frame u ∧
      (∀ i ∈ lanesOf s.cur.lanes, i ∉ p → u.thr (tid s.curG i) = s.onward c s.curNext (s.thr (tid s.curG i))) ∧
      (∀ i ∈ p, u.thr (tid s.curG i) = s.laneAfter c w 0 (dest i) (wr i) (s.thr (tid s.curG i))) := by
  obtain ⟨u, h1, h2, h3, h4, h5, h6⟩ := word_completes s c w (fun s p => Acted.of s (p.map fun i => (i, f (tid s.curG i)))) p
    (Acted.of s (p.map fun i => (i, f (tid s.curG i)))) (fun i => f (tid s.curG i)) wr dest hg rfl hc hc.undisturbed rfl hf
  refine ⟨u, h1, ⟨?_, fun h => (h3 h).trans (ite_self _), h4⟩, h5, ?_⟩
  · rw [h2, hl]; rfl
  · intro i hi; rw [h6 i hi, hl]; rfl

/-- The law of an undisturbed word, as `Completed` says it. -/
theorem completed_of_word {s : State} {i : Instr} {c : Ctl} {w : WordSpec} {p : List Nat} (act : State → List Nat → Acted)
    (f : Nat → LaneRes) {a : Acted} {wr : Nat → List (RegId × RVal)} {dest : Nat → W64} (hi : exec i s = s.word c w act)
    (h : s.Acts c w p) (ha : act s p = a) (hu : s.Undisturbed a.st) (hres : a.res = p.map fun l => (l, f l))
    (hf : s.Completes p f wr dest) : s.Completed i c w a p dest wr := by
  obtain ⟨u, k⟩ := word_completes s c w act p a f wr dest h.2 ha h.1 hu hres hf
  exact ⟨u, hi.trans k.1, k.2⟩

/-- A word that only writes registers, as `Lands` says it. -/
theorem lands_of_perLane {s : State} {i : Instr} {c : Ctl} {w : WordSpec} {p : List Nat} {lat : Nat} (f : Nat → LaneRes)
    {wr : Nat → List (RegId × RVal)} {dest : Nat → W64} (hi : exec i s = s.perLane c w f) (h : s.Acts c w p) (hl : w.lat = some lat)
    (he : w.ends = false) (hf : s.Completes p (fun l => f (tid s.curG l)) wr dest) : s.Lands i c p lat dest wr := by
  obtain ⟨u, h1, h2, h3, h4⟩ := perLane_completes s c w f p wr dest lat hl h.2 h.1 hf
  refine ⟨u, hi.trans h1, h2, h3, fun l hp => ?_⟩
  rw [h4 l hp]
  simp [laneAfter, hl, he]

/-- A word that only writes registers and goes on, as `Writes` says it. -/
theorem writes_of_perLane {s : State} {i : Instr} {c : Ctl} {w : WordSpec} {p : List Nat} {lat : Nat} (f : Nat → LaneRes)
    {wr : Nat → List (RegId × RVal)} (hi : exec i s = s.perLane c w f) (h : s.Acts c w p) (hl : w.lat = some lat)
    (he : w.ends = false) (hf : ∀ l ∈ p, f (tid s.curG l) = .next (wr l)) : s.Writes i c p lat wr :=
  lands_of_perLane f hi h hl he fun l hp => .inl ⟨hf l hp, rfl⟩

/-- A word whose lanes act together and only write registers. -/
theorem writes_of_word {s : State} {i : Instr} {c : Ctl} {w : WordSpec} {p : List Nat} {lat : Nat} (act : State → List Nat → Acted)
    {wr : Nat → List (RegId × RVal)} (hi : exec i s = s.word c w act) (h : s.Acts c w p) (hl : w.lat = some lat)
    (he : w.ends = false) (ha : act s p = Acted.of s (p.map fun l => (l, .next (wr l)))) : s.Writes i c p lat wr := by
  obtain ⟨u, h1, h2, h3, h4, h5, h6⟩ := word_completes s c w act p _ (fun l => .next (wr l)) wr (fun _ => s.curNext) h.2 ha h.1
    h.1.undisturbed rfl fun l _ => .inl ⟨rfl, rfl⟩
  refine ⟨u, hi.trans h1, ⟨?_, fun h => (h3 h).trans (ite_self _), h4⟩, h5, fun l hp => ?_⟩
  · rw [h2, hl]; rfl
  · rw [h6 l hp]; simp [laneAfter, hl, he, Acted.of]

end Sys2Proof.Machine.State
end

