-- ==== Sys2Proof/Laws/Types.lean ====
section
/-!
SUPPORT. Typed values and bit vectors: what `ITy.val` and `ITy.ext` are in terms of truncation and extension (R185).
-/
namespace Sys2Proof.Machine

theorem wrapTo_eq (w : Nat) (y : Int) : wrapTo w y = (BitVec.ofInt w y).toNat := by
  rw [BitVec.toNat_ofInt]; unfold wrapTo; norm_cast

theorem sval_toNat (w : Nat) (hw : 0 < w) (x : BitVec w) : sval w x.toNat = x.toInt := by
  unfold sval
  have hx := x.isLt
  simp only [Nat.mod_eq_of_lt hx]
  rw [BitVec.toInt_eq_toNat_cond]
  have h2 : 2 ^ w = 2 * 2 ^ (w - 1) := by
    obtain ⟨k, rfl⟩ : ∃ k, w = k + 1 := ⟨w - 1, by omega⟩
    simp [Nat.pow_succ, Nat.mul_comm]
  split <;> split <;> first | omega | (push_cast; rfl)

theorem sval_mod (w x : Nat) : sval w (x % 2 ^ w) = sval w x := by unfold sval; simp

theorem setWidth_ofInt {w n : Nat} (h : w ≤ n) (y : Int) : (BitVec.ofInt n y).setWidth w = BitVec.ofInt w y := by
  apply BitVec.eq_of_toNat_eq
  rw [BitVec.toNat_setWidth, BitVec.toNat_ofInt, BitVec.toNat_ofInt]
  have hd : ((2 : Int) ^ w) ∣ (2 : Int) ^ n := pow_dvd_pow 2 h
  have hp : (0 : Int) < (2 : Int) ^ n := by positivity
  have hpw : (0 : Int) < (2 : Int) ^ w := by positivity
  have e := Int.emod_emod_of_dvd y hd
  have h0 := Int.emod_nonneg y hp.ne'
  have h1 := Int.emod_nonneg y hpw.ne'
  push_cast
  zify
  rw [Int.toNat_of_nonneg h0, Int.toNat_of_nonneg h1]
  exact e

end Sys2Proof.Machine
namespace Sys2Proof
open Machine

theorem ITy.width_pos (t : ITy) : 0 < t.width := by cases t <;> decide
theorem ITy.width_le (t : ITy) (h : t ≠ .b128) : t.width ≤ 64 := by
  cases t <;> first | decide | exact absurd rfl h

/-- The value of a source: its low bits, as two's complement or as a natural number (R185). -/
theorem ITy.val_eq (t : ITy) (x : W64) :
    t.val x = if t.signed then (x.setWidth t.width).toInt else ((x.setWidth t.width).toNat : Int) := by
  unfold ITy.val
  split
  · rw [← sval_toNat _ t.width_pos, BitVec.toNat_setWidth, sval_mod]
  · rw [BitVec.toNat_setWidth]

/-- A result: the low bits of the exact number, extended as the type says (R185). -/
theorem ITy.ext_eq (t : ITy) (y : Int) :
    t.ext y = if t.signed then (BitVec.ofInt t.width y).signExtend 64 else (BitVec.ofInt t.width y).setWidth 64 := by
  unfold ITy.ext
  rw [wrapTo_eq]
  simp only []
  split
  · rw [sval_toNat _ t.width_pos]; rfl
  · exact (BitVec.ofInt_natCast _ _).trans (BitVec.ofNat_toNat _ _)

/-- The low bits of a typed value are those of the word. -/
theorem ITy.ofInt_val (t : ITy) (x : W64) : BitVec.ofInt t.width (t.val x) = x.setWidth t.width := by
  rw [ITy.val_eq]
  split
  · exact BitVec.ofInt_toInt
  · rw [BitVec.ofInt_natCast]; apply BitVec.eq_of_toNat_eq; simp

end Sys2Proof
end

