-- ==== Sys2Proof/Laws/Integer.lean ====
section
/-!
SUPPORT. The integer operations and the lane operations: what a word of one or two sources writes, in terms of bit vectors.
-/
namespace Sys2Proof.Machine

open State

/-- An integer operation of one source writes its result. -/
theorem writes_int1 {s : State} {i : Instr} {c : Ctl} {t : ITy} {d : GReg} {a : Src} {f : Int → Int} {p : List Nat}
    (hi : exec i s = int1 c t d a f s) (h : s.Acts c (.fixA 2 a.regs) p) :
    s.Writes i c p 2 (fun l => [(.g d, .w (t.ext (f (t.val (s.src (tid s.curG l) a)))))]) :=
  writes_of_perLane (fun i => .next [(.g d, .w (t.ext (f (t.val (s.src i a)))))]) hi h rfl rfl fun _ _ => rfl

/-- An integer operation of two sources writes its result. -/
theorem writes_int2 {s : State} {i : Instr} {lat : Nat} {c : Ctl} {t : ITy} {d : GReg} {a b : Src} {f : Int → Int → Int} {p : List Nat}
    (hi : exec i s = int2 lat c t d a b f s) (h : s.Acts c (.fixA lat (a.regs ++ b.regs)) p) :
    s.Writes i c p lat (fun l => [(.g d, .w (t.ext (f (t.val (s.src (tid s.curG l) a)) (t.val (s.src (tid s.curG l) b)))))]) :=
  writes_of_perLane (fun i => .next [(.g d, .w (t.ext (f (t.val (s.src i a)) (t.val (s.src i b)))))]) hi h rfl rfl fun _ _ => rfl

/-- A lane operation writes each participant's own result. -/
theorem writes_laneOp {s : State} {i : Instr} {c : Ctl} {reads : List RegId} {f : List Nat → Nat → List (RegId × RVal)} {p : List Nat}
    (hi : exec i s = laneOp c reads s f) (h : s.Acts c (.fixA 6 reads) p) : s.Writes i c p 6 (f p) :=
  writes_of_word (fun s p => Acted.of s (p.map fun i => (i, .next (f p i)))) hi h rfl rfl rfl

/-- Two words that write the same registers write the same. -/
theorem State.Writes.congr {s : State} {i : Instr} {c : Ctl} {p : List Nat} {lat : Nat} {wr wr' : Nat → List (RegId × RVal)}
    (h : s.Writes i c p lat wr) (e : ∀ l ∈ p, wr l = wr' l) : s.Writes i c p lat wr' := by
  obtain ⟨u, h1, h2, h3, h4⟩ := h
  exact ⟨u, h1, h2, h3, fun l hl => by rw [h4 l hl, e l hl]⟩

end Sys2Proof.Machine
namespace Sys2Proof
open Machine

/-- The low bits of a typed value as a natural number. -/
theorem ITy.nat_val (t : ITy) (x : W64) : t.nat (t.val x) = (x.setWidth t.width).toNat := by
  unfold ITy.nat; rw [wrapTo_eq, ITy.ofInt_val]

/-- The low bits of a bitwise operation. -/
theorem ITy.ofInt_bitOp (t : ITy) (f : Nat → Nat → Nat) (x y : W64) :
    BitVec.ofInt t.width (t.bitOp f (t.val x) (t.val y)) =
      BitVec.ofNat t.width (f (x.setWidth t.width).toNat (y.setWidth t.width).toNat) := by
  unfold ITy.bitOp; rw [ITy.nat_val, ITy.nat_val, BitVec.ofInt_natCast]

end Sys2Proof
end

