-- ==== Sys2Proof/Laws/Trap.lean ====
section
/-!
SUPPORT. Taking a trap: what it leaves in the thread, and that it changes nothing else; and the end of an undisturbed word that traps.
-/
namespace Sys2Proof.Machine.State

/-! ## Taking a trap (R379) -/

/-- The group of a lane's thread. -/
theorem threadGroup_tid {g l : Nat} (hg : g < 4352) (hl : l < 32) (hb : isBow (groupCore g) = true → g % 16 = 0) :
    threadGroup (tid g l) = g := by
  unfold threadGroup tid
  by_cases h : isBow (groupCore g) = true
  · have h0 := hb h
    simp only [h, if_true]
    unfold isBow groupCore at h
    unfold coreCluster groupCore
    simp only [beq_iff_eq] at h
    rw [if_neg (by omega)]
    omega
  · simp only [h, Bool.false_eq_true, if_false]
    unfold isBow groupCore at h
    unfold coreCluster coreNum groupCore groupSlot
    simp only [beq_iff_eq] at h
    rw [if_pos (by omega)]
    omega

theorem threadLane_tid {g l : Nat} (hg : g < 4352) (hl : l < 32) (hb : isBow (groupCore g) = true → l = 0) :
    threadLane (tid g l) = l := by
  unfold threadLane tid
  by_cases h : isBow (groupCore g) = true
  · simp only [h, if_true]
    rw [if_neg (by omega), hb h]
  · simp only [h, Bool.false_eq_true, if_false]
    unfold isBow groupCore at h
    unfold coreCluster coreNum groupCore groupSlot
    simp only [beq_iff_eq] at h
    rw [if_pos (by omega)]
    omega

theorem Calm.curG_lt {s : State} (h : s.Calm) : s.curG < 4352 := by
  have h1 := h.core
  have h2 := h.slot
  unfold curG; omega

theorem Calm.threadGroup {s : State} (h : s.Calm) {l : Nat} (hl : l ∈ lanesOf s.cur.lanes) : Machine.threadGroup (tid s.curG l) = s.curG :=
  threadGroup_tid h.curG_lt (mem_lanesOf.1 hl).1 fun hb => by
    rw [groupCore_curG s h.slot] at hb
    have := h.bowSlot hb
    unfold curG; omega

theorem Calm.threadLane {s : State} (h : s.Calm) {l : Nat} (hl : l ∈ lanesOf s.cur.lanes) : Machine.threadLane (tid s.curG l) = l :=
  threadLane_tid h.curG_lt (mem_lanesOf.1 hl).1 fun hb => by
    rw [groupCore_curG s h.slot] at hb
    rw [h.bow hb, lanesOf_one, List.mem_singleton] at hl
    exact hl

theorem dropLanes_thr (s : State) (g : Nat) (m : BitVec 32) (t : Nat) : (s.dropLanes g m).thr t = s.thr t := rfl
theorem dropLanes_rest (s : State) (g : Nat) (m : BitVec 32) : (s.dropLanes g m).rest = s.rest := rfl

/-- Everything a trap reads of the state beside its thread. -/
theorem entering_congr {s u : State} {t : Nat} {i : TrapInfo} (hr : u.rest = s.rest) (ht : u.thr t = s.thr t) :
    u.entering t i = s.entering t i := by
  have ho : u.ops = s.ops := (congrArg (·.ops) hr : _)
  have hc : u.cycle = s.cycle := (congrArg (·.cycle) hr : _)
  have hcl : u.clusters = s.clusters := (congrArg (·.clusters) hr : _)
  unfold entering hasOps grpRes grpCl cl
  rw [ht, ho, hc, hcl]

/-- A trap that finds a handler changes its thread, and takes it out of its path. -/
theorem takeTrap_eq (s : State) (t : Nat) (i : TrapInfo) (hh : (s.thr t).handler = none)
    (hv : (s.grpRes (Machine.threadGroup t)).trapvec ≠ 0) :
    s.takeTrap t i = (s.dropLanes (Machine.threadGroup t) (1#32 <<< Machine.threadLane t)).setThr t (s.entering t i) := by
  unfold takeTrap
  have ho : (s.dropLanes (Machine.threadGroup t) (1#32 <<< Machine.threadLane t)).hasOps t = s.hasOps t := rfl
  simp only [ho]
  by_cases h : s.hasOps t = true
  · simp only [h, if_true, entering]; rfl
  · simp only [h, Bool.false_eq_true, if_false, entering, deliver]
    have hv' : (s.dropLanes (Machine.threadGroup t) (1#32 <<< Machine.threadLane t)).grpRes (Machine.threadGroup t) =
      s.grpRes (Machine.threadGroup t) := rfl
    rw [dropLanes_thr, hv', hh]
    have : ((s.grpRes (Machine.threadGroup t)).trapvec == 0#48) = false := by simpa using hv
    simp only [Option.isSome_none, Bool.false_or, this, Bool.false_eq_true, if_false]
    rfl

/-- Taking a trap in each lane of a list. -/
def takeAll (g : Nat) (info : Nat → TrapInfo) (p : List Nat) (s : State) : State :=
  p.foldl (fun s l => s.takeTrap (tid g l) (info l)) s

theorem takeAll_keeps (g : Nat) (info : Nat → TrapInfo) (p : List Nat) (s : State) (hn : p.Nodup)
    (inj : ∀ i ∈ p, ∀ j ∈ p, tid g i = tid g j → i = j) (hg : ∀ l ∈ p, Machine.threadGroup (tid g l) = g)
    (hh : ∀ l ∈ p, (s.thr (tid g l)).handler = none) (hv : (s.grpRes g).trapvec ≠ 0) :
    (takeAll g info p s).rest = s.rest ∧ (∀ t, (∀ l ∈ p, t ≠ tid g l) → (takeAll g info p s).thr t = s.thr t) ∧
    (∀ l ∈ p, (takeAll g info p s).thr (tid g l) = s.entering (tid g l) (info l)) := by
  induction p generalizing s with
  | nil => exact ⟨rfl, fun _ _ => rfl, fun _ h => by simp at h⟩
  | cons l p ih =>
    rw [List.nodup_cons] at hn
    have hl : l ∈ l :: p := List.mem_cons_self
    have he := takeTrap_eq s (tid g l) (info l) (hh l hl) (by rw [hg l hl]; exact hv)
    have hr : (s.takeTrap (tid g l) (info l)).rest = s.rest := by rw [he]; rfl
    have ho : ∀ t, t ≠ tid g l → (s.takeTrap (tid g l) (info l)).thr t = s.thr t := by
      intro t ht; rw [he, thr_setThr_other _ _ ht]; rfl
    have ne : ∀ k ∈ p, tid g k ≠ tid g l := fun k hk e => hn.1 (inj k (List.mem_cons_of_mem _ hk) l hl e ▸ hk)
    have hres : (s.takeTrap (tid g l) (info l)).grpRes g = s.grpRes g := by rw [he]; rfl
    obtain ⟨i1, i2, i3⟩ := ih (s.takeTrap (tid g l) (info l)) hn.2
      (fun a ha b hb => inj a (List.mem_cons_of_mem _ ha) b (List.mem_cons_of_mem _ hb))
      (fun k hk => hg k (List.mem_cons_of_mem _ hk))
      (fun k hk => by rw [ho _ (ne k hk)]; exact hh k (List.mem_cons_of_mem _ hk)) (by rw [hres]; exact hv)
    have hstep : takeAll g info (l :: p) s = takeAll g info p (s.takeTrap (tid g l) (info l)) := rfl
    rw [hstep]
    refine ⟨i1.trans hr, fun t ht => ?_, fun k hk => ?_⟩
    · rw [i2 t fun j hj => ht j (List.mem_cons_of_mem _ hj), ho t (ht l hl)]
    · rcases List.mem_cons.1 hk with rfl | hk
      · rw [i2 _ fun j hj => (ne j hj).symm, he, thr_setThr_same]
      · rw [i3 k hk]
        exact entering_congr hr (ho _ (ne k hk))

/-! ## Reconvergence leaves running lanes alone (R29) -/

/-- A fold keeps what each of its steps keeps. -/
theorem foldl_keeps {α β : Type} (P : β → Prop) (f : β → α → β) (l : List α) (b : β) (h0 : P b) (h : ∀ b, P b → ∀ a ∈ l, P (f b a)) :
    P (l.foldl f b) := by
  induction l generalizing b with
  | nil => exact h0
  | cons a l ih => exact ih _ (h b h0 a List.mem_cons_self) fun b hb x hx => h b hb x (List.mem_cons_of_mem _ hx)

theorem lanesOf_shift {n i : Nat} (h : i ∈ lanesOf (1#32 <<< n)) : i = n := by
  obtain ⟨hi, hb⟩ := mem_lanesOf.1 h
  simp only [BitVec.getLsbD_shiftLeft, BitVec.getLsbD_one] at hb
  simp at hb
  omega

theorem modLanes_keeps (s : State) (g : Nat) (m : BitVec 32) (f : Thread → Thread) :
    s.modLanes g m f = { s with threads := (s.modLanes g m f).threads } := foldl_modThr_rest g (fun _ => f) (lanesOf m) s

theorem modLanes_thr_other (s : State) (g : Nat) (m : BitVec 32) (f : Thread → Thread) (t : Nat) (h : ∀ i ∈ lanesOf m, t ≠ tid g i) :
    (s.modLanes g m f).thr t = s.thr t := foldl_modThr_other g (fun _ => f) (lanesOf m) s t h

theorem decCtr_keeps (s : State) (g : Nat) (m : BitVec 32) (c : Option (BitVec 3)) :
    s.decCtr g m c = { s with threads := (s.decCtr g m c).threads } := by
  cases c with
  | none => rfl
  | some n => exact modLanes_keeps _ _ _ _

theorem decCtr_thr_other (s : State) (g : Nat) (m : BitVec 32) (c : Option (BitVec 3)) (t : Nat) (h : ∀ i ∈ lanesOf m, t ≠ tid g i) :
    (s.decCtr g m c).thr t = s.thr t := by
  cases c with
  | none => rfl
  | some n => exact modLanes_thr_other _ _ _ _ _ h

/-- Waking lanes of a sleeping wait changes their threads and the list of waits only. -/
theorem wake_keeps (s : State) (z : Sleeper) (m : BitVec 32) :
    s.wake z m = { s with threads := (s.wake z m).threads, sleepers := (s.wake z m).sleepers } := by
  have h1 := decCtr_keeps s z.group m z.ctr
  unfold wake
  simp only []
  rw [modLanes_keeps, h1]

theorem wake_thr_other (s : State) (z : Sleeper) (m : BitVec 32) (t : Nat) (h : ∀ i ∈ lanesOf m, t ≠ tid z.group i) :
    (s.wake z m).thr t = s.thr t := by
  have : (s.wake z m).thr t = ((s.decCtr z.group m z.ctr).modLanes z.group m fun x => { x.goto z.next with
      stat := .run, readyAt := max (s.decCtr z.group m z.ctr).cycle z.due
      halt := if x.stepping then some ⟨4, 0, false⟩ else x.halt }).thr t := rfl
  rw [this, modLanes_thr_other _ _ _ _ _ h, decCtr_thr_other _ _ _ _ _ h]

/-- A release of `RECONV` changes threads and the list of waits only. -/
theorem reconvRelease_keeps (s : State) (g : Nat) :
    s.reconvRelease g = { s with threads := (s.reconvRelease g).threads, sleepers := (s.reconvRelease g).sleepers } := by
  unfold reconvRelease
  simp only []
  split
  · rfl
  · refine foldl_keeps (fun u : State => u = { s with threads := u.threads, sleepers := u.sleepers }) _ _ _ rfl ?_
    intro u hu t _
    split
    · split
      · rw [wake_keeps, hu]
      · exact hu
    · exact hu

/-- A release of `RECONV` leaves a lane alone that is not asleep. -/
theorem reconvRelease_thr (s : State) (g l : Nat) (hg : g < 4352) (hb : isBow (groupCore g) = true → g % 16 = 0 ∧ l = 0) (hl : l < 32)
    (hs : ∀ id, (s.thr (tid g l)).stat ≠ .sleep id) : (s.reconvRelease g).thr (tid g l) = s.thr (tid g l) := by
  unfold reconvRelease
  simp only []
  split
  · rfl
  · refine foldl_keeps (fun u : State => u.thr (tid g l) = s.thr (tid g l)) _ _ _ rfl ?_
    intro u hu t ht
    have ht' : ∃ j, j < 32 ∧ (isBow (groupCore g) = true → j = 0) ∧ t = tid g j := by
      have := List.mem_of_mem_filter (List.mem_of_mem_filter ht)
      obtain ⟨j, hj, rfl⟩ := List.mem_map.1 this
      unfold groupLanes at hj
      by_cases h : isBow (groupCore g) = true
      · simp only [h, if_true, List.mem_singleton] at hj
        exact ⟨j, by omega, fun _ => hj, rfl⟩
      · simp only [h, Bool.false_eq_true, if_false, List.mem_range] at hj
        exact ⟨j, hj, fun e => absurd e h, rfl⟩
    obtain ⟨j, hj, hj0, rfl⟩ := ht'
    split
    · rename_i id hid
      have hne : tid g j ≠ tid g l := fun e => hs id (by rw [← hu, ← e]; exact hid)
      split
      · rw [wake_thr_other]
        · exact hu
        · intro i hi e
          have hi' := lanesOf_shift hi
          rw [threadLane_tid hg hj hj0] at hi'
          subst hi'
          rename_i z _
          apply hne
          by_cases h : isBow (groupCore g) = true
          · rw [hj0 h, (hb h).2]
          · unfold tid at e
            simp only [h, Bool.false_eq_true, if_false] at e
            unfold isBow groupCore at h
            simp only [beq_iff_eq] at h
            unfold coreCluster coreNum groupCore groupSlot at e
            by_cases hz : isBow (groupCore z.group) = true
            · simp only [groupCore] at hz
              simp only [hz, if_true] at e
              omega
            · simp only [groupCore] at hz
              simp only [hz, Bool.false_eq_true, if_false] at e
              have : i = l := by omega
              rw [this]
      · exact hu
    · exact hu

/-! ## A word that traps -/

/-- The trap that a lane's outcome is, as its handler finds it. -/
def trapOf (s : State) (r : LaneRes) : Option TrapInfo :=
  match r with
  | .trap cause detail v code resume =>
    some ⟨trapRecord code s.curOpc s.cur.cls detail cause, v, match resume with | none => s.curPc | some r => r⟩
  | _ => none

theorem trapOf_some {s : State} {r : LaneRes} {i : TrapInfo} (h : s.trapOf r = some i) :
    ∃ cause detail v code resume, r = .trap cause detail v code resume ∧
      i = ⟨trapRecord code s.curOpc s.cur.cls detail cause, v, match resume with | none => s.curPc | some r => r⟩ := by
  cases r <;> simp only [trapOf, reduceCtorEq, Option.some.injEq] at h
  exact ⟨_, _, _, _, _, rfl, h.symm⟩

/-- The lanes of a word that trap leave its path one after the other. -/
theorem leave_traps (g : Nat) (f : Nat → LaneRes) (info : Nat → TrapInfo) (p : List Nat) (s0 s : State) (hn : p.Nodup)
    (inj : ∀ i ∈ p, ∀ j ∈ p, tid g i = tid g j → i = j) (hg : ∀ l ∈ p, Machine.threadGroup (tid g l) = g)
    (hh : ∀ l ∈ p, (s.thr (tid g l)).handler = none) (hv : (s.grpRes g).trapvec ≠ 0) (hcur : s.cur = s0.cur)
    (hf : ∀ l ∈ p, s0.trapOf (f l) = some (info l)) : leave g (p.map fun i => (i, f i)) s = takeAll g info p s := by
  induction p generalizing s with
  | nil => rfl
  | cons l p ih =>
    rw [List.nodup_cons] at hn
    have hl : l ∈ l :: p := List.mem_cons_self
    obtain ⟨cause, detail, v, code, resume, e, ei⟩ := trapOf_some (hf l hl)
    have he := takeTrap_eq s (tid g l) (info l) (hh l hl) (by rw [hg l hl]; exact hv)
    have ne : ∀ k ∈ p, tid g k ≠ tid g l := fun k hk e => hn.1 (inj k (List.mem_cons_of_mem _ hk) l hl e ▸ hk)
    have hstep : leave g ((l :: p).map fun i => (i, f i)) s =
        leave g (p.map fun i => (i, f i)) (s.takeTrap (tid g l) (info l)) := by
      simp only [List.map_cons, e, leave, ei, curOpc, curPc, hcur]
      all_goals (cases resume <;> rfl)
    rw [hstep]
    refine ih _ hn.2 (fun a ha b hb => inj a (List.mem_cons_of_mem _ ha) b (List.mem_cons_of_mem _ hb))
      (fun k hk => hg k (List.mem_cons_of_mem _ hk)) (fun k hk => ?_) ?_ ?_ fun k hk => hf k (List.mem_cons_of_mem _ hk)
    · rw [he, thr_setThr_other _ _ (ne k hk)]; exact hh k (List.mem_cons_of_mem _ hk)
    · rw [he]; exact hv
    · rw [he]; exact hcur

theorem faultsOf_traps {s : State} (f : Nat → LaneRes) (info : Nat → TrapInfo) (p : List Nat)
    (hf : ∀ l ∈ p, s.trapOf (f l) = some (info l)) : faultsOf (p.map fun i => (i, f i)) = [] := by
  unfold faultsOf
  rw [List.filterMap_map, List.filterMap_eq_nil_iff]
  intro l hl
  obtain ⟨_, _, _, _, _, e, _⟩ := trapOf_some (hf l hl)
  simp [e]

theorem nexts_traps {s : State} (f : Nat → LaneRes) (info : Nat → TrapInfo) (p : List Nat)
    (hf : ∀ l ∈ p, s.trapOf (f l) = some (info l)) : ((p.map fun i => (i, f i)).filter fun r => r.2.isNext) = [] := by
  rw [List.filter_eq_nil_iff]
  intro r hr
  obtain ⟨l, hl, rfl⟩ := List.mem_map.1 hr
  obtain ⟨_, _, _, _, _, e, _⟩ := trapOf_some (hf l hl)
  simp [e, LaneRes.isNext]

theorem writeBack_traps {s0 : State} (g : Nat) (lat : Option Nat) (op : Nat) (f : Nat → LaneRes) (info : Nat → TrapInfo) (p : List Nat)
    (s : State) (hf : ∀ l ∈ p, s0.trapOf (f l) = some (info l)) : writeBack g lat op (p.map fun i => (i, f i)) s = s := by
  induction p with
  | nil => rfl
  | cons l p ih =>
    obtain ⟨_, _, _, _, _, e, _⟩ := trapOf_some (hf l List.mem_cons_self)
    simp only [List.map_cons, e, writeBack]
    exact ih fun k hk => hf k (List.mem_cons_of_mem _ hk)

theorem wayOn_traps {s : State} (f : Nat → LaneRes) (info : Nat → TrapInfo) (p : List Nat)
    (hf : ∀ l ∈ p, s.trapOf (f l) = some (info l)) (l : Nat) :
    s.wayOn (p.map fun i => (i, f i)) l = if l ∈ p then none else some s.curNext := by
  unfold wayOn
  rw [find_map]
  by_cases h : l ∈ p
  · obtain ⟨_, _, _, _, _, e, _⟩ := trapOf_some (hf l h)
    simp [h, e]
  · simp [h]

/-- Lanes without a way on are passed over. -/
theorem foldl_way {β : Type} (way : Nat → Option W64) (f : β → Nat → W64 → β) (l : List Nat) (b : β) :
    l.foldl (fun b i => match way i with | none => b | some r => f b i r) b =
      (l.filter fun i => (way i).isSome).foldl (fun b i => match way i with | none => b | some r => f b i r) b := by
  induction l generalizing b with
  | nil => rfl
  | cons i l ih =>
    cases h : way i with
    | none => simp only [List.foldl_cons, h, List.filter_cons, Option.isSome_none, Bool.false_eq_true, if_false]; exact ih b
    | some r => simp only [List.foldl_cons, h, List.filter_cons, Option.isSome_some, if_true]; exact ih _

/-- The lanes of a path that go on, where the others trapped. -/
theorem goOn_traps (s0 s : State) (c : Ctl) (f : Nat → LaneRes) (info : Nat → TrapInfo) (p : List Nat)
    (hf : ∀ l ∈ p, s0.trapOf (f l) = some (info l)) (hcur : s.cur = s0.cur) (hcyc : s.cycle = s0.cycle)
    (hst : ∀ i ∈ lanesOf s0.cur.lanes, (s.thr (tid s0.curG i)).stepping = false)
    (inj : ∀ i ∈ lanesOf s0.cur.lanes, ∀ j ∈ lanesOf s0.cur.lanes, tid s0.curG i = tid s0.curG j → i = j) :
    State.goOn c (p.map fun i => (i, f i)) s0 s =
      lanesMod s0.curG (fun _ => s0.onward c s0.curNext)
        ((lanesOf s0.cur.lanes).filter fun i => (s0.wayOn (p.map fun i => (i, f i)) i).isSome) s := by
  refine (foldl_way (s0.wayOn (p.map fun i => (i, f i))) (fun s i r => s.advance s0.curG c.stall.toNat i r) _ s).trans ?_
  have sub : ∀ i ∈ (lanesOf s0.cur.lanes).filter fun i => (s0.wayOn (p.map fun i => (i, f i)) i).isSome, i ∈ lanesOf s0.cur.lanes :=
    fun i hi => List.mem_of_mem_filter hi
  exact advance_fold s0.curG c _ (fun _ => s0.curNext) _ s s0 (fun i hi => by
    have := List.of_mem_filter hi
    rw [wayOn_traps f info p hf] at this ⊢
    split <;> simp_all) hcur hcyc (fun i hi => hst i (sub i hi)) ((lanesOf_nodup _).filter _)
    (fun i hi j hj => inj i (sub i hi) j (sub j hj))

theorem entering_strag (s : State) (t : Nat) (i : TrapInfo) : (s.entering t i).stepping = (s.thr t).stepping := by
  unfold entering
  simp only []
  split
  · rfl
  · simp only [Thread.flush]
    have : ∀ (l : List Pend) (y : Thread), (l.foldl (fun y e => if [RegId.g 61, .g 62, .g 63].contains e.reg then y.put e.reg e.val
        else y) y).stepping = y.stepping := by
      intro l
      induction l with
      | nil => intro y; rfl
      | cons e l ih =>
        intro y
        rw [List.foldl_cons, ih]
        split
        · exact Thread.stepping_of_bare (Thread.bare_put _ _ _)
        · rfl
    exact this _ _

theorem entering_awake (s : State) (t : Nat) (i : TrapInfo) (id : Nat) : (s.entering t i).stat ≠ .sleep id := by
  unfold entering
  simp only []
  split <;> simp

/-- THE END OF AN UNDISTURBED WORD all of whose participants trap, into a handler. -/
theorem retire_traps (s : State) (c : Ctl) (w : WordSpec) (f : Nat → LaneRes) (info : Nat → TrapInfo) (p : List Nat) (hc : s.Calm)
    (hp : ∀ i ∈ p, i ∈ lanesOf s.cur.lanes) (hn : p.Nodup) (hh : s.Handled p) (hf : ∀ l ∈ p, s.trapOf (f l) = some (info l)) :
    let u := s.retire c w (Acted.of s (p.map fun i => (i, f i))) []
    u.hole = false ∧ u.mem = s.mem ∧ u.sp = s.sp ∧ (∀ l ∈ p, u.thr (tid s.curG l) = s.entering (tid s.curG l) (info l)) ∧
    (∀ l ∈ lanesOf s.cur.lanes, l ∉ p → u.thr (tid s.curG l) = s.onward c s.curNext (s.thr (tid s.curG l))) := by
  have inj : ∀ i ∈ lanesOf s.cur.lanes, ∀ j ∈ lanesOf s.cur.lanes, tid s.curG i = tid s.curG j → i = j :=
    fun i hi j hj => hc.inj hi hj
  have injp : ∀ i ∈ p, ∀ j ∈ p, tid s.curG i = tid s.curG j → i = j := fun i hi j hj => inj i (hp i hi) j (hp j hj)
  let res := p.map fun i => (i, f i)
  let stay := (lanesOf s.cur.lanes).filter fun i => (s.wayOn res i).isSome
  have mstay : ∀ l, l ∈ stay ↔ l ∈ lanesOf s.cur.lanes ∧ l ∉ p := by
    intro l
    simp only [stay, List.mem_filter, res, wayOn_traps f info p hf]
    by_cases h : l ∈ p <;> simp [h]
  let s1 := s.charge s.curG s.cur.mapCls
  have hr1 : State.results c w (Acted.of s res) res s = (s1, 0) := by
    unfold results
    simp only [res, nexts_traps f info p hf, openOp, Acted.of, List.map_nil, List.isEmpty_nil, Bool.or_true, if_true,
      writeBack_traps _ _ _ f info p _ hf, List.foldl_nil, ite_self]
    rfl
  let s2 := lanesMod s.curG (fun _ => s.onward c s.curNext) stay s1
  have hr2 : State.goOn c res s s1 = s2 :=
    goOn_traps s s1 c f info p hf rfl rfl (fun i hi => hc.steps i hi) inj
  have hsub : ∀ i ∈ stay, i ∈ lanesOf s.cur.lanes := fun i hi => ((mstay i).1 hi).1
  have hr3 : s2.sampleWord s.curG w 0 res [] = s2 := by
    refine sampleWord_calm _ _ _ _ _ _ ?_ fun _ => ?_
    · simp only [s2, lanesMod_samples]; exact hc.samples
    · simp only [s2, lanesMod_grp, s1]
      have := congrArg (·.armed) (still_charge s s.curG s.cur.mapCls s.curG)
      exact (this : _).trans hc.armed
  have t2p : ∀ l ∈ p, s2.thr (tid s.curG l) = s.thr (tid s.curG l) := fun l hl =>
    lanesMod_other _ _ _ _ _ fun i hi e => ((mstay i).1 hi).2 (inj l (hp l hl) i (hsub i hi) e ▸ hl)
  have t2n : ∀ l ∈ lanesOf s.cur.lanes, l ∉ p → s2.thr (tid s.curG l) = s.onward c s.curNext (s.thr (tid s.curG l)) := fun l hl hlp =>
    lanesMod_same _ _ _ _ _ ((mstay l).2 ⟨hl, hlp⟩) ((lanesOf_nodup _).filter _) fun j hj => inj l hl j (hsub j hj)
  -- the traps
  let s3 := takeAll s.curG info p s2
  have hr2' : s2.rest = s.rest := by simp only [s2, lanesMod_rest, s1]; rfl
  have hcl : ∀ u : State, u.rest = s.rest → u.grpRes s.curG = s.grpRes s.curG := by
    intro u hu
    have : u.clusters = s.clusters := (congrArg (·.clusters) hu : _)
    unfold grpRes grpCl cl; rw [this]
  have h3 : leave s.curG res s2 = s3 :=
    leave_traps s.curG f info p s s2 hn injp (fun l hl => hc.threadGroup (hp l hl)) (fun l hl => by rw [t2p l hl]; exact hh.2 l hl)
      (by rw [hcl _ hr2']; exact hh.1) (congrArg (·.cur) hr2' : _) hf
  obtain ⟨k1, k2, k3⟩ := takeAll_keeps s.curG info p s2 hn injp (fun l hl => hc.threadGroup (hp l hl))
    (fun l hl => by rw [t2p l hl]; exact hh.2 l hl) (by rw [hcl _ hr2']; exact hh.1)
  have t3p : ∀ l ∈ p, s3.thr (tid s.curG l) = s.entering (tid s.curG l) (info l) := fun l hl =>
    (k3 l hl).trans (entering_congr hr2' (t2p l hl))
  have t3n : ∀ l ∈ lanesOf s.cur.lanes, l ∉ p → s3.thr (tid s.curG l) = s.onward c s.curNext (s.thr (tid s.curG l)) := fun l hl hlp =>
    (k2 _ fun j hj e => hlp (inj l hl j (hp j hj) e ▸ hj)).trans (t2n l hl hlp)
  have calm3 : ∀ l ∈ lanesOf s.cur.lanes, (s3.thr (tid s.curG l)).stepping = false ∧ (∀ id, (s3.thr (tid s.curG l)).stat ≠ .sleep id) ∧
      (l ∉ p → (s3.thr (tid s.curG l)).quiet = true) := by
    intro l hl
    by_cases hlp : l ∈ p
    · rw [t3p l hlp]
      exact ⟨(entering_strag _ _ _).trans (hc.steps l hl), entering_awake _ _ _, fun h => absurd hlp h⟩
    · rw [t3n l hl hlp]
      have : ∀ x : Thread, (s.onward c s.curNext x).stepping = x.stepping ∧ (s.onward c s.curNext x).stat = x.stat ∧
          (s.onward c s.curNext x).quiet = x.quiet := by
        intro x; unfold onward; simp only []; split <;> exact ⟨rfl, rfl, rfl⟩
      obtain ⟨a1, a2, a3⟩ := this (s.thr (tid s.curG l))
      rw [a1, a2, a3]
      exact ⟨hc.steps l hl, fun id => by rw [hc.runs l hl]; simp, fun _ => by simp [Thread.quiet, hc.strag l hl, hc.halts l hl]⟩
  -- the clause goes on
  let s4 := if s.curLast then (s3.advanceSel c.stall.toNat).repath s.curG stay else s3.advanceSel c.stall.toNat
  have r4 : s4.rest = s.rest := by
    simp only [s4]; split
    · rw [repath_rest]; exact k1.trans hr2'
    · exact k1.trans hr2'
  have t4 : ∀ t, s4.thr t = s3.thr t := by
    intro t; simp only [s4]; split
    · rw [repath_thr]; rfl
    · rfl
  have m4 : s4.samples = [] := (congrArg (·.samples) r4 : _).trans hc.samples
  have hclose : State.closeWord c res s s2 =
      (if res.all (fun r => r.2.isNext) then s4 else s4.reconvRelease s.curG) := by
    have any_ex : res.any (fun r => r.2 == .exits) = false := by
      rw [List.any_eq_false]
      intro e he
      obtain ⟨l, hl, rfl⟩ := List.mem_map.1 he
      obtain ⟨_, _, _, _, _, e, _⟩ := trapOf_some (hf l hl)
      simp [e]
    have hstep : s4.stepOut s.curG (lanesOf s.cur.lanes) = s4 := stepOut_calm _ _ _ fun i hi => by rw [t4]; exact (calm3 i hi).1
    have hbound : stay.foldl (fun s' i => s'.boundary (tid s.curG i)) s4 = s4 :=
      boundary_fold_calm _ _ _ fun i hi => by rw [t4]; exact (calm3 i (hsub i hi)).2.2 ((mstay i).1 hi).2
    have hs : ∀ u : State, (u = s4 ∨ u = s4.reconvRelease s.curG) → u.samples = [] := by
      rintro u (rfl | rfl)
      · exact m4
      · rw [reconvRelease_keeps]; exact m4
    have hfa : faultsOf res = [] := faultsOf_traps f info p hf
    unfold closeWord
    simp only [h3, hfa, parkLanes_nil, any_ex, Bool.false_eq_true, if_false]
    have e4 : (if s.curLast = true then (s3.advanceSel c.stall.toNat).repath s.curG
        ((lanesOf s.cur.lanes).filter fun i => (s.wayOn res i).isSome) else s3.advanceSel c.stall.toNat) = s4 := rfl
    rw [e4, hstep]
    have e5 : (if s.curLast = true then ((lanesOf s.cur.lanes).filter fun i => (s.wayOn res i).isSome).foldl
        (fun s' i => s'.boundary (tid s.curG i)) s4 else s4) = s4 := by
      split
      · exact hbound
      · rfl
    rw [e5]
    have e6 : ((if (res.all fun r => r.2.isNext) = true then s4 else s4.reconvRelease s.curG).samples).isEmpty = true := by
      split
      · rw [m4]; rfl
      · rw [hs _ (.inr rfl)]; rfl
    rw [if_pos e6]
  have hu : s.retire c w (Acted.of s res) [] = (if res.all (fun r => r.2.isNext) then s4 else s4.reconvRelease s.curG) := by
    rw [← hclose, ← hr3, ← hr2]
    unfold retire
    have happ : (Acted.of s res).res ++ [] = res := List.append_nil _
    simp only [happ, hr1]
    rfl
  have hg := hc.curG_lt
  have hbow : ∀ l ∈ lanesOf s.cur.lanes, isBow (groupCore s.curG) = true → s.curG % 16 = 0 ∧ l = 0 := by
    intro l hl hb
    rw [groupCore_curG s hc.slot] at hb
    refine ⟨?_, ?_⟩
    · have := hc.bowSlot hb
      unfold curG; omega
    · rw [hc.bow hb, lanesOf_one, List.mem_singleton] at hl; exact hl
  have hthr : ∀ l ∈ lanesOf s.cur.lanes, (s.retire c w (Acted.of s res) []).thr (tid s.curG l) = s3.thr (tid s.curG l) := by
    intro l hl
    rw [hu]
    split
    · exact t4 _
    · rw [reconvRelease_thr _ _ _ hg (hbow l hl) (mem_lanesOf.1 hl).1 fun id => by rw [t4]; exact (calm3 l hl).2.1 id]
      exact t4 _
  have hkeep : (s.retire c w (Acted.of s res) []).hole = s.hole ∧ (s.retire c w (Acted.of s res) []).mem = s.mem ∧
      (s.retire c w (Acted.of s res) []).sp = s.sp := by
    rw [hu]
    split
    · exact ⟨(congrArg (·.hole) r4 : _), (congrArg (·.mem) r4 : _), (congrArg (·.sp) r4 : _)⟩
    · rw [reconvRelease_keeps]
      exact ⟨(congrArg (·.hole) r4 : _), (congrArg (·.mem) r4 : _), (congrArg (·.sp) r4 : _)⟩
  exact ⟨hkeep.1.trans hc.hole, hkeep.2.1, hkeep.2.2, fun l hl => (hthr l (hp l hl)).trans (t3p l hl),
    fun l hl hlp => (hthr l hl).trans (t3n l hl hlp)⟩

/-- The law of an undisturbed word all of whose participants trap in its own action, as `Traps` says it. -/
theorem traps_of_word {s : State} {i : Instr} {c : Ctl} {w : WordSpec} {p : List Nat} (act : State → List Nat → Acted)
    (f : Nat → LaneRes) {info : Nat → TrapInfo} (hi : exec i s = s.word c w act) (h : s.Acts c w p) (hh : s.Handled p)
    (ha : act s p = Acted.of s (p.map fun l => (l, f l))) (hf : ∀ l ∈ p, s.trapOf (f l) = some (info l)) :
    s.Traps i c p info := by
  obtain ⟨hp, hn⟩ := gate_go h.2
  obtain ⟨k1, k2⟩ := retire_traps s c w f info p h.1 hp hn hh hf
  refine ⟨s.retire c w (Acted.of s (p.map fun l => (l, f l))) [], hi.trans ?_, k2⟩
  unfold word
  simp only [h.2, ha]
  have hfa : faultsOf (Acted.of s (p.map fun l => (l, f l))).res = [] := faultsOf_traps f info p hf
  simp only [hfa, ite_self]
  simp only [out, k1, Bool.false_eq_true, if_false]

/-- The law of a word whose whole path traps before it acts. -/
theorem traps_of_all {s : State} {i : Instr} {c : Ctl} {w : WordSpec} (act : State → List Nat → Acted) {r : LaneRes} {info : TrapInfo}
    (hi : exec i s = s.word c w act) (hc : s.Calm) (hg : s.gate c w = .all r) (hh : s.Handled (lanesOf s.cur.lanes))
    (hf : s.trapOf r = some info) : s.Traps i c (lanesOf s.cur.lanes) (fun _ => info) := by
  obtain ⟨k1, k2⟩ := retire_traps s c w (fun _ => r) (fun _ => info) (lanesOf s.cur.lanes) hc (fun _ h => h) (lanesOf_nodup _) hh
    fun _ _ => hf
  refine ⟨s.retire c w (Acted.of s ((lanesOf s.cur.lanes).map fun l => (l, r))) [], hi.trans ?_, k2⟩
  unfold word
  simp only [hg, out, k1, Bool.false_eq_true, if_false]

end Sys2Proof.Machine.State
end

