-- ==== Sys2Proof/Laws/Memory.lean ====
section
/-!
SUPPORT. Laws of the operations that write physical memory and the scratchpads: each keeps the canonical form, and a write of bytes leaves every other byte.
-/
namespace Sys2Proof.Machine

/-- The memory after reset lists nothing, so it has the canonical form. -/
theorem reset_mem_wf : Memory.wf State.reset.mem = true := rfl

/-- The scratchpads after reset list nothing, so they have the canonical form. -/
theorem reset_sp_wf : Memory.wf State.reset.sp = true := rfl

namespace State

@[simp] theorem reach_mem (s : State) (pa n : Nat) : (s.reach pa n).mem = s.mem := by
  unfold reach; split <;> rfl

@[simp] theorem reach_sp (s : State) (pa n : Nat) : (s.reach pa n).sp = s.sp := by
  unfold reach; split <;> rfl

/-- A write of bytes puts them in memory, or marks the hole that it reached. -/
theorem wrBytes_cases (s : State) (pa : Nat) (b : List Byte) :
    s.wrBytes pa b = { s with mem := Memory.put s.mem pa b } ∨ s.wrBytes pa b = { s with hole := true } := by
  unfold wrBytes; split
  · exact .inl rfl
  · exact .inr rfl

theorem wrBytes_mem_wf (s : State) (pa : Nat) (b : List Byte) (h : Memory.wf s.mem = true) : Memory.wf (s.wrBytes pa b).mem = true := by
  rcases s.wrBytes_cases pa b with e | e <;> rw [e]
  · exact Memory.wf_put _ _ _ h
  · exact h

@[simp] theorem wrBytes_sp (s : State) (pa : Nat) (b : List Byte) : (s.wrBytes pa b).sp = s.sp := by
  rcases s.wrBytes_cases pa b with e | e <;> rw [e]

/-- A write of bytes leaves every byte outside them. -/
theorem wrBytes_outside (s : State) (pa : Nat) (b : List Byte) (a : Nat) (h : a < pa ∨ pa + b.length ≤ a) :
    Memory.byte (s.wrBytes pa b).mem a = Memory.byte s.mem a := by
  rcases s.wrBytes_cases pa b with e | e <;> rw [e]
  exact Memory.byte_put_outside _ _ _ _ h

theorem wr_mem_wf (s : State) (pa n x : Nat) (h : Memory.wf s.mem = true) : Memory.wf (s.wr pa n x).mem = true :=
  s.wrBytes_mem_wf pa _ h

@[simp] theorem wr_sp (s : State) (pa n x : Nat) : (s.wr pa n x).sp = s.sp := s.wrBytes_sp pa _

/-- A write of a number leaves every byte outside it. -/
theorem wr_outside (s : State) (pa n x a : Nat) (h : a < pa ∨ pa + n ≤ a) : Memory.byte (s.wr pa n x).mem a = Memory.byte s.mem a :=
  s.wrBytes_outside pa _ a (by rwa [leBytes_length])

/-- What a write of a number in the ranges of R348 stores is read back. -/
theorem rd_wr_same (s : State) (pa n x : Nat) (h : physOkN pa n = true) : (s.wr pa n x).rd pa n = x % 256 ^ n := by
  simp only [rd, wr, wrBytes, leBytes_length, h, if_true]
  exact Memory.read_put_leBytes _ _ _ _

theorem evAppend_mem_wf (s : State) (desc : Nat) (r : W512) (h : Memory.wf s.mem = true) : Memory.wf (s.evAppend desc r).mem = true :=
  wr_mem_wf _ _ _ _ (wr_mem_wf _ _ _ _ (by simpa using h))

@[simp] theorem evAppend_sp (s : State) (desc : Nat) (r : W512) : (s.evAppend desc r).sp = s.sp := by
  simp [evAppend]

@[simp] theorem touch_mem (s : State) (pa : Nat) : (s.touch pa).mem = s.mem := by
  unfold touch; split
  · rfl
  · dsimp only; split <;> rfl

@[simp] theorem touch_sp (s : State) (pa : Nat) : (s.touch pa).sp = s.sp := by
  unfold touch; split
  · rfl
  · dsimp only; split <;> rfl

@[simp] theorem touchAll_mem (s : State) (l : List Nat) : (s.touchAll l).mem = s.mem := by
  unfold touchAll
  exact foldl_keeps (fun u : State => u.mem = s.mem) _ _ _ rfl fun u hu b _ => (touch_mem _ _).trans hu

@[simp] theorem touchAll_sp (s : State) (l : List Nat) : (s.touchAll l).sp = s.sp := by
  unfold touchAll
  exact foldl_keeps (fun u : State => u.sp = s.sp) _ _ _ rfl fun u hu b _ => (touch_sp _ _).trans hu

@[simp] theorem record_mem (s : State) (space : Space) (kind writer : Nat) (also : List Known) (rel : Option (Nat × BitVec 4))
    (atomic : Option (BitVec 4)) (parts : List (Nat × List Byte)) : (s.record space kind writer also rel atomic parts).mem = s.mem := by
  rw [record_eq]

@[simp] theorem record_sp (s : State) (space : Space) (kind writer : Nat) (also : List Known) (rel : Option (Nat × BitVec 4))
    (atomic : Option (BitVec 4)) (parts : List (Nat × List Byte)) : (s.record space kind writer also rel atomic parts).sp = s.sp := by
  rw [record_eq]

/-- A write at a place puts its bytes at the place's storage addresses. -/
theorem writeBy_mem (s : State) (a : Nat) (also : List Known) (rel : Option (Nat × BitVec 4)) (atomic : Option (BitVec 4)) (p : Phys)
    (b : List Byte) :
    (s.writeBy a also rel atomic p b).mem = ((spots p b.length).zip b).foldl (fun m x => Memory.setByte m x.1 x.2) s.mem := by
  unfold writeBy; simp

@[simp] theorem writeBy_sp (s : State) (a : Nat) (also : List Known) (rel : Option (Nat × BitVec 4)) (atomic : Option (BitVec 4))
    (p : Phys) (b : List Byte) : (s.writeBy a also rel atomic p b).sp = s.sp := by
  unfold writeBy; simp

theorem writeBy_mem_wf (s : State) (a : Nat) (also : List Known) (rel : Option (Nat × BitVec 4)) (atomic : Option (BitVec 4)) (p : Phys)
    (b : List Byte) (h : Memory.wf s.mem = true) : Memory.wf (s.writeBy a also rel atomic p b).mem = true := by
  have fold : ∀ (l : List (Nat × Byte)) (m : Memory), Memory.wf m = true →
      Memory.wf (l.foldl (fun m x => Memory.setByte m x.1 x.2) m) = true := by
    intro l
    induction l with
    | nil => exact fun _ h => h
    | cons e l ih => exact fun m h => ih _ (Memory.wf_setByte m e.1 e.2 h)
  rw [writeBy_mem]
  exact fold _ _ h

theorem writePhys_mem_wf (s : State) (writer : Nat) (p : Phys) (b : List Byte) (h : Memory.wf s.mem = true) :
    Memory.wf (s.writePhys writer p b).mem = true := s.writeBy_mem_wf _ _ _ _ _ _ h

@[simp] theorem writePhys_sp (s : State) (writer : Nat) (p : Phys) (b : List Byte) : (s.writePhys writer p b).sp = s.sp :=
  s.writeBy_sp _ _ _ _ _ _

/-- Waking sleepers writes no memory and no scratchpad. -/
theorem wakeSp_keeps (lo n : Nat) (l : List Sleeper) (s : State) : (wakeSp lo n s l).mem = s.mem ∧ (wakeSp lo n s l).sp = s.sp := by
  induction l generalizing s with
  | nil => exact ⟨rfl, rfl⟩
  | cons z l ih =>
    have woken : ∀ m t sc a k u r v, ((((s.wake z m).acquireSp t sc a k).putReg u r v).mem = s.mem) ∧
        ((((s.wake z m).acquireSp t sc a k).putReg u r v).sp = s.sp) := by
      intro m t sc a k u r v; rw [acquireSp_eq, s.wake_keeps z m]; exact ⟨rfl, rfl⟩
    unfold wakeSp
    split <;> try dsimp only
    · split
      · exact ⟨(ih _).1.trans (woken ..).1, (ih _).2.trans (woken ..).2⟩
      · exact ih s
    · split
      · exact ⟨(ih _).1.trans (woken ..).1, (ih _).2.trans (woken ..).2⟩
      · exact ih s
    · exact ih s

@[simp] theorem spPut_mem (s : State) (k : Nat) (b : List Byte) : (s.spPut k b).mem = s.mem := (wakeSp_keeps ..).1

/-- A scratchpad write puts its bytes and nothing else in the scratchpads. -/
@[simp] theorem spPut_sp (s : State) (k : Nat) (b : List Byte) : (s.spPut k b).sp = Memory.put s.sp k b := (wakeSp_keeps ..).2

@[simp] theorem spPutBy_mem (s : State) (a : Nat) (also : List Known) (rel : Option (Nat × BitVec 4)) (atomic : Option (BitVec 4)) (k : Nat)
    (b : List Byte) : (s.spPutBy a also rel atomic k b).mem = s.mem := by unfold spPutBy; simp

@[simp] theorem spPutBy_sp (s : State) (a : Nat) (also : List Known) (rel : Option (Nat × BitVec 4)) (atomic : Option (BitVec 4)) (k : Nat)
    (b : List Byte) : (s.spPutBy a also rel atomic k b).sp = Memory.put s.sp k b := by unfold spPutBy; simp

theorem spPutBy_sp_wf (s : State) (a : Nat) (also : List Known) (rel : Option (Nat × BitVec 4)) (atomic : Option (BitVec 4)) (k : Nat)
    (b : List Byte) (h : Memory.wf s.sp = true) : Memory.wf (s.spPutBy a also rel atomic k b).sp = true := by
  rw [spPutBy_sp]; exact Memory.wf_put _ _ _ h

theorem spPut_sp_wf (s : State) (k : Nat) (b : List Byte) (h : Memory.wf s.sp = true) : Memory.wf (s.spPut k b).sp = true := by
  rw [spPut_sp]; exact Memory.wf_put _ _ _ h

theorem zeroSp_sp_wf (s : State) (k n : Nat) (h : Memory.wf s.sp = true) : Memory.wf (s.zeroSp k n).sp = true :=
  Memory.wf_mclear _ _ _ h

end State

end Sys2Proof.Machine
end

