-- ==== Sys2Proof/Laws/PerInstr.lean ====
section
/-!
SUPPORT. Statements made per instruction: the family `Encode`, that an encoding exists for every instruction that is well formed.
-/
namespace Sys2Proof.Laws

/-- R147–R157: a well-formed instruction has a word, in one of the ten classes, with at most three literals after it. -/
def Encode.Statement (i : Instr) : Prop := i.wf = true → ∃ x, encodeRaw i = some x ∧ x.1 ≤ 9 ∧ x.2.lits.length ≤ 3

/-- A source brings at most one literal. -/
theorem src_lits (a : Src) : a.lits.length ≤ 1 := by
  cases a <;> simp [Src.lits]

/-- A scratchpad address brings at most one literal. -/
theorem sp_lits (a : SpOp) : a.lits.length ≤ 1 := by
  obtain ⟨_, _ | _⟩ := a <;> simp [SpOp.lits]

/-- An optional constant brings at most one literal. -/
theorem opt_lits (k : Option Src) : (optKLits k).length ≤ 1 := by
  cases k
  · exact Nat.zero_le _
  · exact src_lits _

/-- Two lists of at most one literal hold at most three. -/
theorem two_lits {a b : List W64} (ha : a.length ≤ 1) (hb : b.length ≤ 1) : (a ++ b).length ≤ 3 := by
  rw [List.length_append]; omega

/-- Three lists of at most one literal hold at most three. -/
theorem three_lits {a b x : List W64} (ha : a.length ≤ 1) (hb : b.length ≤ 1) (hx : x.length ≤ 1) : (a ++ b ++ x).length ≤ 3 := by
  rw [List.length_append, List.length_append]; omega

theorem Encode.nop {c} : Encode.Statement (.nop c) := fun _ => ⟨_, rfl, Nat.le_of_ble_eq_true rfl, Nat.zero_le _⟩
theorem Encode.bra {c off} : Encode.Statement (.bra c off) := fun _ => ⟨_, rfl, Nat.le_of_ble_eq_true rfl, Nat.zero_le _⟩
theorem Encode.brx {c a} : Encode.Statement (.brx c a) := fun _ => ⟨_, rfl, Nat.le_of_ble_eq_true rfl, Nat.zero_le _⟩
theorem Encode.call {c link off} : Encode.Statement (.call c link off) := fun _ => ⟨_, rfl, Nat.le_of_ble_eq_true rfl, Nat.zero_le _⟩
theorem Encode.callIndirect {c link a} : Encode.Statement (.callIndirect c link a) := fun _ => ⟨_, rfl, Nat.le_of_ble_eq_true rfl, Nat.zero_le _⟩
theorem Encode.ret {c a} : Encode.Statement (.ret c a) := fun _ => ⟨_, rfl, Nat.le_of_ble_eq_true rfl, Nat.zero_le _⟩
theorem Encode.exit {c} : Encode.Statement (.exit c) := fun _ => ⟨_, rfl, Nat.le_of_ble_eq_true rfl, Nat.zero_le _⟩
theorem Encode.reconv {c} : Encode.Statement (.reconv c) := fun _ => ⟨_, rfl, Nat.le_of_ble_eq_true rfl, Nat.zero_le _⟩
theorem Encode.yield {c} : Encode.Statement (.yield c) := fun _ => ⟨_, rfl, Nat.le_of_ble_eq_true rfl, Nat.zero_le _⟩
theorem Encode.phase {c gmask word2} : Encode.Statement (.phase c gmask word2) := fun _ => ⟨_, rfl, Nat.le_of_ble_eq_true rfl, Nat.le_succ 2⟩
theorem Encode.idem {c} : Encode.Statement (.idem c) := fun _ => ⟨_, rfl, Nat.le_of_ble_eq_true rfl, Nat.zero_le _⟩
theorem Encode.trap {c code} : Encode.Statement (.trap c code) := fun _ => ⟨_, rfl, Nat.le_of_ble_eq_true rfl, Nat.zero_le _⟩
theorem Encode.brk {c code} : Encode.Statement (.brk c code) := fun _ => ⟨_, rfl, Nat.le_of_ble_eq_true rfl, Nat.zero_le _⟩
theorem Encode.add {c t d a b} : Encode.Statement (.add c t d a b) := fun _ => ⟨_, rfl, Nat.le_of_ble_eq_true rfl, two_lits (src_lits a) (src_lits b)⟩
theorem Encode.sub {c t d a b} : Encode.Statement (.sub c t d a b) := fun _ => ⟨_, rfl, Nat.le_of_ble_eq_true rfl, two_lits (src_lits a) (src_lits b)⟩
theorem Encode.mul {c t d a b} : Encode.Statement (.mul c t d a b) := fun _ => ⟨_, rfl, Nat.le_of_ble_eq_true rfl, two_lits (src_lits a) (src_lits b)⟩
theorem Encode.mulh {c t d a b} : Encode.Statement (.mulh c t d a b) := fun _ => ⟨_, rfl, Nat.le_of_ble_eq_true rfl, two_lits (src_lits a) (src_lits b)⟩
theorem Encode.mad {c t d a b x} : Encode.Statement (.mad c t d a b x) := fun _ => ⟨_, rfl, Nat.le_of_ble_eq_true rfl, three_lits (src_lits a) (src_lits b) (src_lits x)⟩
theorem Encode.min {c t d a b} : Encode.Statement (.min c t d a b) := fun _ => ⟨_, rfl, Nat.le_of_ble_eq_true rfl, two_lits (src_lits a) (src_lits b)⟩
theorem Encode.max {c t d a b} : Encode.Statement (.max c t d a b) := fun _ => ⟨_, rfl, Nat.le_of_ble_eq_true rfl, two_lits (src_lits a) (src_lits b)⟩
theorem Encode.abs {c t d a} : Encode.Statement (.abs c t d a) := fun _ => ⟨_, rfl, Nat.le_of_ble_eq_true rfl, (src_lits a).trans (by decide)⟩
theorem Encode.neg {c t d a} : Encode.Statement (.neg c t d a) := fun _ => ⟨_, rfl, Nat.le_of_ble_eq_true rfl, (src_lits a).trans (by decide)⟩
theorem Encode.and {c t d a b} : Encode.Statement (.and c t d a b) := fun _ => ⟨_, rfl, Nat.le_of_ble_eq_true rfl, two_lits (src_lits a) (src_lits b)⟩
theorem Encode.or {c t d a b} : Encode.Statement (.or c t d a b) := fun _ => ⟨_, rfl, Nat.le_of_ble_eq_true rfl, two_lits (src_lits a) (src_lits b)⟩
theorem Encode.xor {c t d a b} : Encode.Statement (.xor c t d a b) := fun _ => ⟨_, rfl, Nat.le_of_ble_eq_true rfl, two_lits (src_lits a) (src_lits b)⟩
theorem Encode.andn {c t d a b} : Encode.Statement (.andn c t d a b) := fun _ => ⟨_, rfl, Nat.le_of_ble_eq_true rfl, two_lits (src_lits a) (src_lits b)⟩
theorem Encode.not {c t d a} : Encode.Statement (.not c t d a) := fun _ => ⟨_, rfl, Nat.le_of_ble_eq_true rfl, (src_lits a).trans (by decide)⟩
theorem Encode.shl {c t d a b} : Encode.Statement (.shl c t d a b) := fun _ => ⟨_, rfl, Nat.le_of_ble_eq_true rfl, two_lits (src_lits a) (src_lits b)⟩
theorem Encode.shr {c t d a b} : Encode.Statement (.shr c t d a b) := fun _ => ⟨_, rfl, Nat.le_of_ble_eq_true rfl, two_lits (src_lits a) (src_lits b)⟩
theorem Encode.sar {c t d a b} : Encode.Statement (.sar c t d a b) := fun _ => ⟨_, rfl, Nat.le_of_ble_eq_true rfl, two_lits (src_lits a) (src_lits b)⟩
theorem Encode.rol {c t d a b} : Encode.Statement (.rol c t d a b) := fun _ => ⟨_, rfl, Nat.le_of_ble_eq_true rfl, two_lits (src_lits a) (src_lits b)⟩
theorem Encode.popc {c t d a} : Encode.Statement (.popc c t d a) := fun _ => ⟨_, rfl, Nat.le_of_ble_eq_true rfl, (src_lits a).trans (by decide)⟩
theorem Encode.clz {c t d a} : Encode.Statement (.clz c t d a) := fun _ => ⟨_, rfl, Nat.le_of_ble_eq_true rfl, (src_lits a).trans (by decide)⟩
theorem Encode.brev {c t d a} : Encode.Statement (.brev c t d a) := fun _ => ⟨_, rfl, Nat.le_of_ble_eq_true rfl, (src_lits a).trans (by decide)⟩
theorem Encode.bfx {c t d a b} : Encode.Statement (.bfx c t d a b) := fun _ => ⟨_, rfl, Nat.le_of_ble_eq_true rfl, two_lits (src_lits a) (src_lits b)⟩
theorem Encode.bfi {c t d a b x} : Encode.Statement (.bfi c t d a b x) := fun _ => ⟨_, rfl, Nat.le_of_ble_eq_true rfl, three_lits (src_lits a) (src_lits b) (src_lits x)⟩
theorem Encode.sel {c t d a b p} : Encode.Statement (.sel c t d a b p) := fun _ => ⟨_, rfl, Nat.le_of_ble_eq_true rfl, two_lits (src_lits a) (src_lits b)⟩
theorem Encode.mov {c t d a} : Encode.Statement (.mov c t d a) := fun _ => ⟨_, rfl, Nat.le_of_ble_eq_true rfl, (src_lits a).trans (by decide)⟩
theorem Encode.movl {c d value} : Encode.Statement (.movl c d value) := fun _ => ⟨_, rfl, Nat.le_of_ble_eq_true rfl, (by decide : 1 ≤ 3)⟩
theorem Encode.cmp {c k t d a b} : Encode.Statement (.cmp c k t d a b) := fun _ => ⟨_, rfl, Nat.le_of_ble_eq_true rfl, two_lits (src_lits a) (src_lits b)⟩
theorem Encode.plop {c op d a b na nb} : Encode.Statement (.plop c op d a b na nb) := fun _ => ⟨_, rfl, Nat.le_of_ble_eq_true rfl, Nat.zero_le _⟩
theorem Encode.rds {c d r} : Encode.Statement (.rds c d r) := fun _ => ⟨_, rfl, Nat.le_of_ble_eq_true rfl, Nat.zero_le _⟩
theorem Encode.wrs {c r a} : Encode.Statement (.wrs c r a) := fun _ => ⟨_, rfl, Nat.le_of_ble_eq_true rfl, (src_lits a).trans (by decide)⟩
theorem Encode.shfl {c m t d a b} : Encode.Statement (.shfl c m t d a b) := fun _ => ⟨_, rfl, Nat.le_of_ble_eq_true rfl, two_lits (src_lits a) (src_lits b)⟩
theorem Encode.bcast {c t d a b} : Encode.Statement (.bcast c t d a b) := fun _ => ⟨_, rfl, Nat.le_of_ble_eq_true rfl, two_lits (src_lits a) (src_lits b)⟩
theorem Encode.vote {c f} : Encode.Statement (.vote c f) := by
  rcases f with ⟨d, x⟩ | ⟨d, x⟩ | ⟨d, x, _ | ⟨_ | _ | _, y⟩⟩ <;> exact fun _ => ⟨_, rfl, Nat.le_of_ble_eq_true rfl, Nat.zero_le _⟩
theorem Encode.matchLanes {c t d a} : Encode.Statement (.matchLanes c t d a) := fun _ => ⟨_, rfl, Nat.le_of_ble_eq_true rfl, (src_lits a).trans (by decide)⟩
theorem Encode.scan {c op t exc d a} : Encode.Statement (.scan c op t exc d a) := fun _ => ⟨_, rfl, Nat.le_of_ble_eq_true rfl, (src_lits a).trans (by decide)⟩
theorem Encode.redux {c op t d a} : Encode.Statement (.redux c op t d a) := fun _ => ⟨_, rfl, Nat.le_of_ble_eq_true rfl, (src_lits a).trans (by decide)⟩
theorem Encode.fadd {c f r d a b} : Encode.Statement (.fadd c f r d a b) := fun _ => ⟨_, rfl, Nat.le_of_ble_eq_true rfl, Nat.zero_le _⟩
theorem Encode.fsub {c f r d a b} : Encode.Statement (.fsub c f r d a b) := fun _ => ⟨_, rfl, Nat.le_of_ble_eq_true rfl, Nat.zero_le _⟩
theorem Encode.fmul {c f r d a b} : Encode.Statement (.fmul c f r d a b) := fun _ => ⟨_, rfl, Nat.le_of_ble_eq_true rfl, Nat.zero_le _⟩
theorem Encode.ffma {c f r d a b x} : Encode.Statement (.ffma c f r d a b x) := fun _ => ⟨_, rfl, Nat.le_of_ble_eq_true rfl, Nat.zero_le _⟩
theorem Encode.fmin {c f d a b} : Encode.Statement (.fmin c f d a b) := fun _ => ⟨_, rfl, Nat.le_of_ble_eq_true rfl, Nat.zero_le _⟩
theorem Encode.fmax {c f d a b} : Encode.Statement (.fmax c f d a b) := fun _ => ⟨_, rfl, Nat.le_of_ble_eq_true rfl, Nat.zero_le _⟩
theorem Encode.famax {c f d a b} : Encode.Statement (.famax c f d a b) := fun _ => ⟨_, rfl, Nat.le_of_ble_eq_true rfl, Nat.zero_le _⟩
theorem Encode.fcmp {c k f d a b} : Encode.Statement (.fcmp c k f d a b) := fun _ => ⟨_, rfl, Nat.le_of_ble_eq_true rfl, Nat.zero_le _⟩
theorem Encode.frcp {c f r d a} : Encode.Statement (.frcp c f r d a) := fun _ => ⟨_, rfl, Nat.le_of_ble_eq_true rfl, Nat.zero_le _⟩
theorem Encode.frsq {c f r d a} : Encode.Statement (.frsq c f r d a) := fun _ => ⟨_, rfl, Nat.le_of_ble_eq_true rfl, Nat.zero_le _⟩
theorem Encode.fsqrt {c f r d a} : Encode.Statement (.fsqrt c f r d a) := fun _ => ⟨_, rfl, Nat.le_of_ble_eq_true rfl, Nat.zero_le _⟩
theorem Encode.fexp2 {c f d a} : Encode.Statement (.fexp2 c f d a) := fun _ => ⟨_, rfl, Nat.le_of_ble_eq_true rfl, Nat.zero_le _⟩
theorem Encode.flog2 {c f d a} : Encode.Statement (.flog2 c f d a) := fun _ => ⟨_, rfl, Nat.le_of_ble_eq_true rfl, Nat.zero_le _⟩
theorem Encode.ftanh {c f d a} : Encode.Statement (.ftanh c f d a) := fun _ => ⟨_, rfl, Nat.le_of_ble_eq_true rfl, Nat.zero_le _⟩
theorem Encode.fred {c op f r d a} : Encode.Statement (.fred c op f r d a) := fun _ => ⟨_, rfl, Nat.le_of_ble_eq_true rfl, Nat.zero_le _⟩
theorem Encode.fcvt {c f r sat d a k} : Encode.Statement (.fcvt c f r sat d a k) := fun _ => ⟨_, rfl, Nat.le_of_ble_eq_true rfl, (opt_lits k).trans (by decide)⟩
theorem Encode.icvt {c f r toFloat narrow d a k} : Encode.Statement (.icvt c f r toFloat narrow d a k) := fun _ => ⟨_, rfl, Nat.le_of_ble_eq_true rfl, (opt_lits k).trans (by decide)⟩
theorem Encode.fpack {c d a b} : Encode.Statement (.fpack c d a b) := fun _ => ⟨_, rfl, Nat.le_of_ble_eq_true rfl, Nat.zero_le _⟩
theorem Encode.funpk {c d a k} : Encode.Statement (.funpk c d a k) := fun _ => ⟨_, rfl, Nat.le_of_ble_eq_true rfl, (src_lits k).trans (by decide)⟩
theorem Encode.vmov {c d a} : Encode.Statement (.vmov c d a) := fun _ => ⟨_, rfl, Nat.le_of_ble_eq_true rfl, Nat.zero_le _⟩
theorem Encode.vtag {c f cb d a} : Encode.Statement (.vtag c f cb d a) := fun _ => ⟨_, rfl, Nat.le_of_ble_eq_true rfl, (src_lits a).trans (by decide)⟩
theorem Encode.vretag {c f cb d a} : Encode.Statement (.vretag c f cb d a) := fun _ => ⟨_, rfl, Nat.le_of_ble_eq_true rfl, Nat.zero_le _⟩
theorem Encode.seed {c a} : Encode.Statement (.seed c a) := fun _ => ⟨_, rfl, Nat.le_of_ble_eq_true rfl, (src_lits a).trans (by decide)⟩
theorem Encode.scale {c f d a} : Encode.Statement (.scale c f d a) := fun _ => ⟨_, rfl, Nat.le_of_ble_eq_true rfl, Nat.zero_le _⟩
theorem Encode.qnt {c f r sat d a sc} : Encode.Statement (.qnt c f r sat d a sc) := by
  rcases sc with _ | ⟨v, k⟩
  · exact fun _ => ⟨_, rfl, Nat.le_of_ble_eq_true rfl, Nat.zero_le _⟩
  · exact fun _ => ⟨_, rfl, Nat.le_of_ble_eq_true rfl, (src_lits k).trans (by decide)⟩
theorem Encode.dqnt {c f r d a} : Encode.Statement (.dqnt c f r d a) := fun _ => ⟨_, rfl, Nat.le_of_ble_eq_true rfl, Nat.zero_le _⟩
theorem Encode.cbld {c cb a b} : Encode.Statement (.cbld c cb a b) := fun _ => ⟨_, rfl, Nat.le_of_ble_eq_true rfl, Nat.zero_le _⟩
theorem Encode.cbenc {c d a cb} : Encode.Statement (.cbenc c d a cb) := fun _ => ⟨_, rfl, Nat.le_of_ble_eq_true rfl, Nat.zero_le _⟩
theorem Encode.ld {c t o sc d b idx} : Encode.Statement (.ld c t o sc d b idx) := fun _ => ⟨_, rfl, Nat.le_of_ble_eq_true rfl, Nat.zero_le _⟩
theorem Encode.st {c t o sc b idx x} : Encode.Statement (.st c t o sc b idx x) := fun _ => ⟨_, rfl, Nat.le_of_ble_eq_true rfl, Nat.zero_le _⟩
theorem Encode.lds {c t o sc d a} : Encode.Statement (.lds c t o sc d a) := fun _ => ⟨_, rfl, Nat.le_of_ble_eq_true rfl, (sp_lits a).trans (by decide)⟩
theorem Encode.sts {c t o sc a x} : Encode.Statement (.sts c t o sc a x) := fun _ => ⟨_, rfl, Nat.le_of_ble_eq_true rfl, (sp_lits a).trans (by decide)⟩
theorem Encode.ldx {c t n b idx x} : Encode.Statement (.ldx c t n b idx x) := fun _ => ⟨_, rfl, Nat.le_of_ble_eq_true rfl, Nat.zero_le _⟩
theorem Encode.tld {c d h xy} : Encode.Statement (.tld c d h xy) := fun _ => ⟨_, rfl, Nat.le_of_ble_eq_true rfl, (src_lits h).trans (by decide)⟩
theorem Encode.tst {c h xy x} : Encode.Statement (.tst c h xy x) := fun _ => ⟨_, rfl, Nat.le_of_ble_eq_true rfl, (src_lits h).trans (by decide)⟩
theorem Encode.pref {c t b idx} : Encode.Statement (.pref c t b idx) := fun _ => ⟨_, rfl, Nat.le_of_ble_eq_true rfl, Nat.zero_le _⟩
theorem Encode.brld {c d a off} : Encode.Statement (.brld c d a off) := fun _ => ⟨_, rfl, Nat.le_of_ble_eq_true rfl, Nat.zero_le _⟩
theorem Encode.fence {c k sc} : Encode.Statement (.fence c k sc) := fun _ => ⟨_, rfl, Nat.le_of_ble_eq_true rfl, Nat.zero_le _⟩
theorem Encode.vfence {c sc} : Encode.Statement (.vfence c sc) := fun _ => ⟨_, rfl, Nat.le_of_ble_eq_true rfl, Nat.zero_le _⟩
theorem Encode.lfence {c} : Encode.Statement (.lfence c) := fun _ => ⟨_, rfl, Nat.le_of_ble_eq_true rfl, Nat.zero_le _⟩
theorem Encode.aadd {c t o sc d a x} : Encode.Statement (.aadd c t o sc d a x) := by
  rcases a with ⟨b, j⟩ | p
  · exact fun _ => ⟨_, rfl, Nat.le_of_ble_eq_true rfl, Nat.zero_le _⟩
  · exact fun _ => ⟨_, rfl, Nat.le_of_ble_eq_true rfl, (sp_lits p).trans (by decide)⟩
theorem Encode.afadd {c t o sc d a x} : Encode.Statement (.afadd c t o sc d a x) := by
  rcases a with ⟨b, j⟩ | p
  · exact fun _ => ⟨_, rfl, Nat.le_of_ble_eq_true rfl, Nat.zero_le _⟩
  · exact fun _ => ⟨_, rfl, Nat.le_of_ble_eq_true rfl, (sp_lits p).trans (by decide)⟩
theorem Encode.amin {c t o sc d a x} : Encode.Statement (.amin c t o sc d a x) := by
  rcases a with ⟨b, j⟩ | p
  · exact fun _ => ⟨_, rfl, Nat.le_of_ble_eq_true rfl, Nat.zero_le _⟩
  · exact fun _ => ⟨_, rfl, Nat.le_of_ble_eq_true rfl, (sp_lits p).trans (by decide)⟩
theorem Encode.amax {c t o sc d a x} : Encode.Statement (.amax c t o sc d a x) := by
  rcases a with ⟨b, j⟩ | p
  · exact fun _ => ⟨_, rfl, Nat.le_of_ble_eq_true rfl, Nat.zero_le _⟩
  · exact fun _ => ⟨_, rfl, Nat.le_of_ble_eq_true rfl, (sp_lits p).trans (by decide)⟩
theorem Encode.afmax {c o sc d a x} : Encode.Statement (.afmax c o sc d a x) := by
  rcases a with ⟨b, j⟩ | p
  · exact fun _ => ⟨_, rfl, Nat.le_of_ble_eq_true rfl, Nat.zero_le _⟩
  · exact fun _ => ⟨_, rfl, Nat.le_of_ble_eq_true rfl, (sp_lits p).trans (by decide)⟩
theorem Encode.aand {c t o sc d a x} : Encode.Statement (.aand c t o sc d a x) := by
  rcases a with ⟨b, j⟩ | p
  · exact fun _ => ⟨_, rfl, Nat.le_of_ble_eq_true rfl, Nat.zero_le _⟩
  · exact fun _ => ⟨_, rfl, Nat.le_of_ble_eq_true rfl, (sp_lits p).trans (by decide)⟩
theorem Encode.aor {c t o sc d a x} : Encode.Statement (.aor c t o sc d a x) := by
  rcases a with ⟨b, j⟩ | p
  · exact fun _ => ⟨_, rfl, Nat.le_of_ble_eq_true rfl, Nat.zero_le _⟩
  · exact fun _ => ⟨_, rfl, Nat.le_of_ble_eq_true rfl, (sp_lits p).trans (by decide)⟩
theorem Encode.axor {c t o sc d a x} : Encode.Statement (.axor c t o sc d a x) := by
  rcases a with ⟨b, j⟩ | p
  · exact fun _ => ⟨_, rfl, Nat.le_of_ble_eq_true rfl, Nat.zero_le _⟩
  · exact fun _ => ⟨_, rfl, Nat.le_of_ble_eq_true rfl, (sp_lits p).trans (by decide)⟩
theorem Encode.axchg {c t o sc d a x} : Encode.Statement (.axchg c t o sc d a x) := by
  rcases a with ⟨b, j⟩ | p
  · exact fun _ => ⟨_, rfl, Nat.le_of_ble_eq_true rfl, Nat.zero_le _⟩
  · exact fun _ => ⟨_, rfl, Nat.le_of_ble_eq_true rfl, (sp_lits p).trans (by decide)⟩
theorem Encode.acas {c t o sc d a x} : Encode.Statement (.acas c t o sc d a x) := by
  rcases a with ⟨b, j⟩ | p
  · exact fun _ => ⟨_, rfl, Nat.le_of_ble_eq_true rfl, Nat.zero_le _⟩
  · exact fun _ => ⟨_, rfl, Nat.le_of_ble_eq_true rfl, (sp_lits p).trans (by decide)⟩
theorem Encode.amaxrst {c t o sc d a x} : Encode.Statement (.amaxrst c t o sc d a x) := by
  rcases a with ⟨b, j⟩ | p
  · exact fun _ => ⟨_, rfl, Nat.le_of_ble_eq_true rfl, Nat.zero_le _⟩
  · exact fun _ => ⟨_, rfl, Nat.le_of_ble_eq_true rfl, (sp_lits p).trans (by decide)⟩
theorem Encode.aincw {c t o sc d a x} : Encode.Statement (.aincw c t o sc d a x) := by
  rcases a with ⟨b, j⟩ | p
  · exact fun _ => ⟨_, rfl, Nat.le_of_ble_eq_true rfl, Nat.zero_le _⟩
  · exact fun _ => ⟨_, rfl, Nat.le_of_ble_eq_true rfl, (sp_lits p).trans (by decide)⟩
theorem Encode.cpy {c n a} : Encode.Statement (.cpy c n a) := by
  cases n <;> exact fun _ => ⟨_, rfl, Nat.le_of_ble_eq_true rfl, Nat.zero_le _⟩
theorem Encode.cpyw {c t sc a w x} : Encode.Statement (.cpyw c t sc a w x) := fun _ => ⟨_, rfl, Nat.le_of_ble_eq_true rfl, Nat.zero_le _⟩
theorem Encode.qfence {c mask} : Encode.Statement (.qfence c mask) := fun _ => ⟨_, rfl, Nat.le_of_ble_eq_true rfl, Nat.zero_le _⟩
theorem Encode.bari {c n count} : Encode.Statement (.bari c n count) := fun _ => ⟨_, rfl, Nat.le_of_ble_eq_true rfl, (src_lits count).trans (by decide)⟩
theorem Encode.bara {c n} : Encode.Statement (.bara c n) := fun _ => ⟨_, rfl, Nat.le_of_ble_eq_true rfl, Nat.zero_le _⟩
theorem Encode.barw {c n} : Encode.Statement (.barw c n) := fun _ => ⟨_, rfl, Nat.le_of_ble_eq_true rfl, Nat.zero_le _⟩
theorem Encode.waita {c t sc d a x} : Encode.Statement (.waita c t sc d a x) := fun _ => ⟨_, rfl, Nat.le_of_ble_eq_true rfl, (sp_lits a).trans (by decide)⟩
theorem Encode.gfetch {c f d h xy} : Encode.Statement (.gfetch c f d h xy) := fun _ => ⟨_, rfl, Nat.le_of_ble_eq_true rfl, (src_lits h).trans (by decide)⟩
theorem Encode.ginv {c sc} : Encode.Statement (.ginv c sc) := fun _ => ⟨_, rfl, Nat.le_of_ble_eq_true rfl, Nat.zero_le _⟩
theorem Encode.mrgopen {c float a} : Encode.Statement (.mrgopen c float a) := fun _ => ⟨_, rfl, Nat.le_of_ble_eq_true rfl, Nat.zero_le _⟩
theorem Encode.mrgpull {c d} : Encode.Statement (.mrgpull c d) := fun _ => ⟨_, rfl, Nat.le_of_ble_eq_true rfl, Nat.zero_le _⟩
theorem Encode.mrgclose {c} : Encode.Statement (.mrgclose c) := fun _ => ⟨_, rfl, Nat.le_of_ble_eq_true rfl, Nat.zero_le _⟩
theorem Encode.emit {c q a} : Encode.Statement (.emit c q a) := fun _ => ⟨_, rfl, Nat.le_of_ble_eq_true rfl, Nat.zero_le _⟩
theorem Encode.launch {c a} : Encode.Statement (.launch c a) := fun _ => ⟨_, rfl, Nat.le_of_ble_eq_true rfl, Nat.zero_le _⟩
theorem Encode.sample {c tag} : Encode.Statement (.sample c tag) := fun _ => ⟨_, rfl, Nat.le_of_ble_eq_true rfl, (src_lits tag).trans (by decide)⟩
theorem Encode.tsend {c course x} : Encode.Statement (.tsend c course x) := fun _ => ⟨_, rfl, Nat.le_of_ble_eq_true rfl, (src_lits course).trans (by decide)⟩
theorem Encode.trecv {c d course} : Encode.Statement (.trecv c d course) := fun _ => ⟨_, rfl, Nat.le_of_ble_eq_true rfl, (src_lits course).trans (by decide)⟩
theorem Encode.tzero {c f d} : Encode.Statement (.tzero c f d) := fun _ => ⟨_, rfl, Nat.le_of_ble_eq_true rfl, Nat.zero_le _⟩
theorem Encode.tmov {c d a} : Encode.Statement (.tmov c d a) := fun _ => ⟨_, rfl, Nat.le_of_ble_eq_true rfl, Nat.zero_le _⟩
theorem Encode.ttrn {c d a} : Encode.Statement (.ttrn c d a) := fun _ => ⟨_, rfl, Nat.le_of_ble_eq_true rfl, Nat.zero_le _⟩
theorem Encode.tscl {c f r sat d a e} : Encode.Statement (.tscl c f r sat d a e) := fun _ => ⟨_, rfl, Nat.le_of_ble_eq_true rfl, (src_lits e).trans (by decide)⟩
theorem Encode.mlda {c course h xy} : Encode.Statement (.mlda c course h xy) := fun _ => ⟨_, rfl, Nat.le_of_ble_eq_true rfl, two_lits (src_lits course) (src_lits h)⟩
theorem Encode.mldb {c course h xy slot} : Encode.Statement (.mldb c course h xy slot) := fun _ => ⟨_, rfl, Nat.le_of_ble_eq_true rfl, two_lits (src_lits course) (src_lits h)⟩
theorem Encode.mmul {c course f} : Encode.Statement (.mmul c course f) := fun _ => ⟨_, rfl, Nat.le_of_ble_eq_true rfl, (src_lits course).trans (by decide)⟩
theorem Encode.mmac {c course f} : Encode.Statement (.mmac c course f) := fun _ => ⟨_, rfl, Nat.le_of_ble_eq_true rfl, (src_lits course).trans (by decide)⟩
theorem Encode.mdist {c course h f} : Encode.Statement (.mdist c course h f) := fun _ => ⟨_, rfl, Nat.le_of_ble_eq_true rfl, two_lits (src_lits course) (src_lits h)⟩
theorem Encode.mtopk {c course km1 wm1 max} : Encode.Statement (.mtopk c course km1 wm1 max) := fun _ => ⟨_, rfl, Nat.le_of_ble_eq_true rfl, (src_lits course).trans (by decide)⟩
theorem Encode.macc {c course h xy} : Encode.Statement (.macc c course h xy) := fun _ => ⟨_, rfl, Nat.le_of_ble_eq_true rfl, two_lits (src_lits course) (src_lits h)⟩
theorem Encode.mstc {c course h xy} : Encode.Statement (.mstc c course h xy) := fun _ => ⟨_, rfl, Nat.le_of_ble_eq_true rfl, two_lits (src_lits course) (src_lits h)⟩
theorem Encode.mwait {c mask} : Encode.Statement (.mwait c mask) := fun _ => ⟨_, rfl, Nat.le_of_ble_eq_true rfl, (src_lits mask).trans (by decide)⟩
theorem Encode.mchk {c d course} : Encode.Statement (.mchk c d course) := fun _ => ⟨_, rfl, Nat.le_of_ble_eq_true rfl, (src_lits course).trans (by decide)⟩
theorem Encode.deref {c d a} : Encode.Statement (.deref c d a) := fun _ => ⟨_, rfl, Nat.le_of_ble_eq_true rfl, Nat.zero_le _⟩
theorem Encode.unify {c d a b} : Encode.Statement (.unify c d a b) := fun _ => ⟨_, rfl, Nat.le_of_ble_eq_true rfl, Nat.zero_le _⟩
theorem Encode.bind {c a b} : Encode.Statement (.bind c a b) := fun _ => ⟨_, rfl, Nat.le_of_ble_eq_true rfl, Nat.zero_le _⟩
theorem Encode.mkvar {c d} : Encode.Statement (.mkvar c d) := fun _ => ⟨_, rfl, Nat.le_of_ble_eq_true rfl, Nat.zero_le _⟩
theorem Encode.mkstr {c d a} : Encode.Statement (.mkstr c d a) := fun _ => ⟨_, rfl, Nat.le_of_ble_eq_true rfl, Nat.zero_le _⟩
theorem Encode.tagof {c d a} : Encode.Statement (.tagof c d a) := fun _ => ⟨_, rfl, Nat.le_of_ble_eq_true rfl, Nat.zero_le _⟩
theorem Encode.chpt {c n off} : Encode.Statement (.chpt c n off) := fun _ => ⟨_, rfl, Nat.le_of_ble_eq_true rfl, Nat.zero_le _⟩
theorem Encode.fail {c} : Encode.Statement (.fail c) := fun _ => ⟨_, rfl, Nat.le_of_ble_eq_true rfl, Nat.zero_le _⟩
theorem Encode.cut {c a} : Encode.Statement (.cut c a) := fun _ => ⟨_, rfl, Nat.le_of_ble_eq_true rfl, Nat.zero_le _⟩
theorem Encode.ovpub {c sc d} : Encode.Statement (.ovpub c sc d) := fun _ => ⟨_, rfl, Nat.le_of_ble_eq_true rfl, Nat.zero_le _⟩
theorem Encode.bmand {c d a b} : Encode.Statement (.bmand c d a b) := fun _ => ⟨_, rfl, Nat.le_of_ble_eq_true rfl, two_lits (src_lits a) (src_lits b)⟩
theorem Encode.popcp {c d a b} : Encode.Statement (.popcp c d a b) := fun _ => ⟨_, rfl, Nat.le_of_ble_eq_true rfl, two_lits (src_lits a) (src_lits b)⟩
theorem Encode.isect {c hi d p a b} : Encode.Statement (.isect c hi d p a b) := fun _ => ⟨_, rfl, Nat.le_of_ble_eq_true rfl, Nat.zero_le _⟩
theorem Encode.rebal {c d a b} : Encode.Statement (.rebal c d a b) := fun _ => ⟨_, rfl, Nat.le_of_ble_eq_true rfl, two_lits (src_lits a) (src_lits b)⟩
theorem Encode.cmpk {c a x p} : Encode.Statement (.cmpk c a x p) := fun _ => ⟨_, rfl, Nat.le_of_ble_eq_true rfl, Nat.zero_le _⟩
theorem Encode.expnd {c d p b a} : Encode.Statement (.expnd c d p b a) := fun _ => ⟨_, rfl, Nat.le_of_ble_eq_true rfl, Nat.zero_le _⟩
theorem Encode.xwrite {c t o sc d a r x} : Encode.Statement (.xwrite c t o sc d a r x) := fun _ => ⟨_, rfl, Nat.le_of_ble_eq_true rfl, Nat.zero_le _⟩
theorem Encode.xread {c t o sc d a r} : Encode.Statement (.xread c t o sc d a r) := fun _ => ⟨_, rfl, Nat.le_of_ble_eq_true rfl, Nat.zero_le _⟩
theorem Encode.xsend {c d r q x nm1} : Encode.Statement (.xsend c d r q x nm1) := fun _ => ⟨_, rfl, Nat.le_of_ble_eq_true rfl, Nat.zero_le _⟩
theorem Encode.xfence {c k sc} : Encode.Statement (.xfence c k sc) := fun _ => ⟨_, rfl, Nat.le_of_ble_eq_true rfl, Nat.zero_le _⟩
theorem Encode.rtxy {c tc d a k} : Encode.Statement (.rtxy c tc d a k) := fun _ => ⟨_, rfl, Nat.le_of_ble_eq_true rfl, two_lits (src_lits a) (src_lits k)⟩
theorem Encode.rtchk {c d a} : Encode.Statement (.rtchk c d a) := fun _ => ⟨_, rfl, Nat.le_of_ble_eq_true rfl, Nat.zero_le _⟩
theorem Encode.ringpoll {c d a} : Encode.Statement (.ringpoll c d a) := fun _ => ⟨_, rfl, Nat.le_of_ble_eq_true rfl, (sp_lits a).trans (by decide)⟩
theorem Encode.ringadv {c a n} : Encode.Statement (.ringadv c a n) := fun _ => ⟨_, rfl, Nat.le_of_ble_eq_true rfl, two_lits (sp_lits a) (src_lits n)⟩
theorem Encode.ringwait {c d a} : Encode.Statement (.ringwait c d a) := fun _ => ⟨_, rfl, Nat.le_of_ble_eq_true rfl, (sp_lits a).trans (by decide)⟩
theorem Encode.sysrd {c d n} : Encode.Statement (.sysrd c d n) := fun _ => ⟨_, rfl, Nat.le_of_ble_eq_true rfl, Nat.zero_le _⟩
theorem Encode.syswr {c n a} : Encode.Statement (.syswr c n a) := fun _ => ⟨_, rfl, Nat.le_of_ble_eq_true rfl, (src_lits a).trans (by decide)⟩
theorem Encode.eret {c} : Encode.Statement (.eret c) := fun _ => ⟨_, rfl, Nat.le_of_ble_eq_true rfl, Nat.zero_le _⟩
theorem Encode.tlbinv {c m a b} : Encode.Statement (.tlbinv c m a b) := fun _ => ⟨_, rfl, Nat.le_of_ble_eq_true rfl, two_lits (src_lits a) (src_lits b)⟩
theorem Encode.halt {c code} : Encode.Statement (.halt c code) := fun _ => ⟨_, rfl, Nat.le_of_ble_eq_true rfl, Nat.zero_le _⟩
theorem Encode.phaseArrival {t} : Encode.Statement (.phaseArrival t) := fun h => absurd h Bool.false_ne_true
theorem Encode.copyAcceptance {core sel} : Encode.Statement (.copyAcceptance core sel) := fun h => absurd h Bool.false_ne_true
theorem Encode.copyCompletion {cl q} : Encode.Statement (.copyCompletion cl q) := fun h => absurd h Bool.false_ne_true
theorem Encode.mldbPerform {cl n} : Encode.Statement (.mldbPerform cl n) := fun h => absurd h Bool.false_ne_true
theorem Encode.mldaPerform {cl n} : Encode.Statement (.mldaPerform cl n) := fun h => absurd h Bool.false_ne_true
theorem Encode.mmulPerform {cl n} : Encode.Statement (.mmulPerform cl n) := fun h => absurd h Bool.false_ne_true
theorem Encode.mmacPerform {cl n} : Encode.Statement (.mmacPerform cl n) := fun h => absurd h Bool.false_ne_true
theorem Encode.mdistPerform {cl n} : Encode.Statement (.mdistPerform cl n) := fun h => absurd h Bool.false_ne_true
theorem Encode.mtopkPerform {cl n} : Encode.Statement (.mtopkPerform cl n) := fun h => absurd h Bool.false_ne_true
theorem Encode.maccPerform {cl n} : Encode.Statement (.maccPerform cl n) := fun h => absurd h Bool.false_ne_true
theorem Encode.mstcPerform {cl n} : Encode.Statement (.mstcPerform cl n) := fun h => absurd h Bool.false_ne_true
theorem Encode.harpCheck {cl} : Encode.Statement (.harpCheck cl) := fun h => absurd h Bool.false_ne_true
theorem Encode.issueOpportunity {core} : Encode.Statement (.issueOpportunity core) := fun h => absurd h Bool.false_ne_true
theorem Encode.resultCompletion {op} : Encode.Statement (.resultCompletion op) := fun h => absurd h Bool.false_ne_true
theorem Encode.trapDelivery {t} : Encode.Statement (.trapDelivery t) := fun h => absurd h Bool.false_ne_true
theorem Encode.faultReply {w} : Encode.Statement (.faultReply w) := fun h => absurd h Bool.false_ne_true
theorem Encode.killPort {w} : Encode.Statement (.killPort w) := fun h => absurd h Bool.false_ne_true
theorem Encode.clusterAdvance {cl} : Encode.Statement (.clusterAdvance cl) := fun h => absurd h Bool.false_ne_true
theorem Encode.stragglerTimeout {cl} : Encode.Statement (.stragglerTimeout cl) := fun h => absurd h Bool.false_ne_true
theorem Encode.bindgo {mc w} : Encode.Statement (.bindgo mc w) := fun h => absurd h Bool.false_ne_true
theorem Encode.groupStart {rec base} : Encode.Statement (.groupStart rec base) := fun h => absurd h Bool.false_ne_true
theorem Encode.regionStart {cl bases} : Encode.Statement (.regionStart cl bases) := fun h => absurd h Bool.false_ne_true
theorem Encode.regionResume {cl bases wgBases} : Encode.Statement (.regionResume cl bases wgBases) := fun h => absurd h Bool.false_ne_true
theorem Encode.preempt {mc w} : Encode.Statement (.preempt mc w) := fun h => absurd h Bool.false_ne_true
theorem Encode.save {rcb} : Encode.Statement (.save rcb) := fun h => absurd h Bool.false_ne_true
theorem Encode.wtsync {mc w} : Encode.Statement (.wtsync mc w) := fun h => absurd h Bool.false_ne_true
theorem Encode.wtsyncCompletion : Encode.Statement (.wtsyncCompletion) := fun h => absurd h Bool.false_ne_true
theorem Encode.systemRegisterWrite {mc a w} : Encode.Statement (.systemRegisterWrite mc a w) := fun h => absurd h Bool.false_ne_true
theorem Encode.attach {mc cmd data} : Encode.Statement (.attach mc cmd data) := fun h => absurd h Bool.false_ne_true
theorem Encode.debugHalt {mc cmd data} : Encode.Statement (.debugHalt mc cmd data) := fun h => absurd h Bool.false_ne_true
theorem Encode.resume {mc cmd data} : Encode.Statement (.resume mc cmd data) := fun h => absurd h Bool.false_ne_true
theorem Encode.step {mc cmd data} : Encode.Statement (.step mc cmd data) := fun h => absurd h Bool.false_ne_true
theorem Encode.stepEnd {t} : Encode.Statement (.stepEnd t) := fun h => absurd h Bool.false_ne_true
theorem Encode.read {mc cmd data} : Encode.Statement (.read mc cmd data) := fun h => absurd h Bool.false_ne_true
theorem Encode.write {mc cmd data} : Encode.Statement (.write mc cmd data) := fun h => absurd h Bool.false_ne_true
theorem Encode.revoke {mc cmd data} : Encode.Statement (.revoke mc cmd data) := fun h => absurd h Bool.false_ne_true
theorem Encode.mread {mc cmd data} : Encode.Statement (.mread mc cmd data) := fun h => absurd h Bool.false_ne_true
theorem Encode.mwrite {mc cmd data} : Encode.Statement (.mwrite mc cmd data) := fun h => absurd h Bool.false_ne_true
theorem Encode.retireCourse {w} : Encode.Statement (.retireCourse w) := fun h => absurd h Bool.false_ne_true
theorem Encode.retireCore {w} : Encode.Statement (.retireCore w) := fun h => absurd h Bool.false_ne_true
theorem Encode.retirePseudoChannel {w} : Encode.Statement (.retirePseudoChannel w) := fun h => absurd h Bool.false_ne_true
theorem Encode.retireLink {w} : Encode.Statement (.retireLink w) := fun h => absurd h Bool.false_ne_true
theorem Encode.retirePort {w} : Encode.Statement (.retirePort w) := fun h => absurd h Bool.false_ne_true
theorem Encode.retireCluster {w} : Encode.Statement (.retireCluster w) := fun h => absurd h Bool.false_ne_true
theorem Encode.ukind {mc cl w} : Encode.Statement (.ukind mc cl w) := fun h => absurd h Bool.false_ne_true
theorem Encode.hashReq {mc cl w} : Encode.Statement (.hashReq mc cl w) := fun h => absurd h Bool.false_ne_true
theorem Encode.rehashThreshold {cl} : Encode.Statement (.rehashThreshold cl) := fun h => absurd h Bool.false_ne_true
theorem Encode.rehashUnitMove {cl} : Encode.Statement (.rehashUnitMove cl) := fun h => absurd h Bool.false_ne_true
theorem Encode.spareGo {mc cl w} : Encode.Statement (.spareGo mc cl w) := fun h => absurd h Bool.false_ne_true
theorem Encode.spareRemap {cl} : Encode.Statement (.spareRemap cl) := fun h => absurd h Bool.false_ne_true
theorem Encode.refresh {cl pc bank} : Encode.Statement (.refresh cl pc bank) := fun h => absurd h Bool.false_ne_true
theorem Encode.scrub {cl secondTier burst found} : Encode.Statement (.scrub cl secondTier burst found) := fun h => absurd h Bool.false_ne_true
theorem Encode.routerGrant {reply cl out} : Encode.Statement (.routerGrant reply cl out) := fun h => absurd h Bool.false_ne_true
theorem Encode.sluice : Encode.Statement (.sluice) := fun h => absurd h Bool.false_ne_true
theorem Encode.ndonarDrain {port} : Encode.Statement (.ndonarDrain port) := fun h => absurd h Bool.false_ne_true
theorem Encode.requestAtDestination {x} : Encode.Statement (.requestAtDestination x) := fun h => absurd h Bool.false_ne_true
theorem Encode.replyArrival {x} : Encode.Statement (.replyArrival x) := fun h => absurd h Bool.false_ne_true
theorem Encode.exchangeTimeout {x} : Encode.Statement (.exchangeTimeout x) := fun h => absurd h Bool.false_ne_true
theorem Encode.ringMessageDelivery {x} : Encode.Statement (.ringMessageDelivery x) := fun h => absurd h Bool.false_ne_true
theorem Encode.ingressCheck {p} : Encode.Statement (.ingressCheck p) := fun h => absurd h Bool.false_ne_true
theorem Encode.ethernetFrameReceive {port frame fcsGood} : Encode.Statement (.ethernetFrameReceive port frame fcsGood) := fun h => absurd h Bool.false_ne_true
theorem Encode.fixedLatencyRelease {x} : Encode.Statement (.fixedLatencyRelease x) := fun h => absurd h Bool.false_ne_true
theorem Encode.linkDown {cl dir} : Encode.Statement (.linkDown cl dir) := fun h => absurd h Bool.false_ne_true
theorem Encode.graphQueueTimeout {cl q} : Encode.Statement (.graphQueueTimeout cl q) := fun h => absurd h Bool.false_ne_true
theorem Encode.deviceReset {ports mailbox} : Encode.Statement (.deviceReset ports mailbox) := fun h => absurd h Bool.false_ne_true
theorem Encode.attestationQuote {nonce} : Encode.Statement (.attestationQuote nonce) := fun h => absurd h Bool.false_ne_true
theorem Encode.thermalTrip {die} : Encode.Statement (.thermalTrip die) := fun h => absurd h Bool.false_ne_true
theorem Encode.ldxCompletion {op} : Encode.Statement (.ldxCompletion op) := fun h => absurd h Bool.false_ne_true
theorem Encode.queueHeadAdvance {h head} : Encode.Statement (.queueHeadAdvance h head) := fun h => absurd h Bool.false_ne_true
theorem Encode.conflictWindow {cl} : Encode.Statement (.conflictWindow cl) := fun h => absurd h Bool.false_ne_true

end Sys2Proof.Laws
end

