-- ==== Sys2Proof/Laws/Trans.lean ====
section
/-!
SUPPORT. Translations change nothing but the caches of translations and of table entries.
-/
namespace Sys2Proof.Machine.State

theorem Looked.refl (s : State) : s.Looked s := rfl

theorem Looked.trans {s u v : State} (h : s.Looked u) (k : u.Looked v) : s.Looked v := by
  unfold Looked at *; rw [k, h]

theorem looked_of (s : State) (a : List TlbEnt) (b : List TabEnt) (c : Bool) : s.Looked { s with tlb := a, tabs := b, hole := c } := rfl

theorem reach_looked (s : State) (pa n : Nat) : s.Looked (s.reach pa n) := by
  unfold reach; split <;> rfl

theorem ptEntry_looked (s : State) (cl : Nat) (asid : BitVec 16) (world : Bool) (pa : Nat) : s.Looked (s.ptEntry cl asid world pa).1 := by
  unfold ptEntry
  simp only []
  repeat' split
  all_goals exact (reach_looked s pa 8).trans rfl

theorem walk_looked (cl : Nat) (asid : BitVec 16) (world : Bool) (a : Nat) (lvl t : Nat) (s : State) :
    s.Looked (walk cl asid world a lvl t s).1 := by
  induction lvl generalizing t s with
  | zero =>
    unfold walk
    have h := ptEntry_looked s cl asid world (t + 8 * ptIndex a 0)
    generalize s.ptEntry cl asid world (t + 8 * ptIndex a 0) = q at h
    obtain ⟨u, e⟩ := q
    have hr := reach_looked u (bits e 47 6 * 64) 64
    simp only []
    repeat' split
    all_goals first | exact h | exact h.trans hr
  | succ lvl ih =>
    unfold walk
    have h := ptEntry_looked s cl asid world (t + 8 * ptIndex a (lvl + 1))
    generalize s.ptEntry cl asid world (t + 8 * ptIndex a (lvl + 1)) = q at h
    obtain ⟨u, e⟩ := q
    have hr := reach_looked u (bits e 47 6 * 64) 64
    simp only []
    repeat' split
    all_goals first | exact h | exact h.trans hr | exact h.trans (ih _ _)

theorem tlbPut_looked (s : State) (t : TlbEnt) : s.Looked (s.tlbPut t) := by
  unfold tlbPut; split <;> rfl

theorem tabsCap_looked (s : State) (cl : Nat) : s.Looked (s.tabsCap cl) := by
  unfold tabsCap; dsimp only; split <;> rfl

theorem translateLine_looked (s : State) (core : Nat) (x : Resolved) (n : Need) (va : Nat) : s.Looked (s.translateLine core x n va).1 := by
  unfold translateLine
  have h := walk_looked (coreCluster core) x.asid x.world (va / 128 * 128) 4 x.ptroot.toNat s
  simp only []
  generalize walk (coreCluster core) x.asid x.world (va / 128 * 128) 4 x.ptroot.toNat s = q at h ⊢
  obtain ⟨u, w⟩ := q
  cases w with
  | fault ty =>
    simp only []
    repeat' split
    all_goals first | exact h | exact Looked.refl s | exact h.trans rfl
  | leaf page size e d =>
    have h1 : s.Looked (u.tabsCap (coreCluster core)) := h.trans (tabsCap_looked _ _)
    have h2 : ∀ a b, s.Looked (((u.tabsCap (coreCluster core)).tlbPut a).tlbPut b) := fun a b =>
      (h1.trans (tlbPut_looked _ _)).trans (tlbPut_looked _ _)
    simp only [List.foldl_cons, List.foldl_nil]
    repeat' split
    all_goals first | exact h1 | exact h2 _ _ | exact Looked.refl s | exact h1.trans rfl | exact (h2 _ _).trans rfl

end Sys2Proof.Machine.State
namespace Sys2Proof.Machine
open State

theorem Seen.tr_looked (x : Seen) (g : Nat) (n : Need) (va : Nat) : x.st.Looked (x.tr g n va).1.st := by
  unfold Seen.tr
  simp only []
  split
  · exact Looked.refl _
  · exact translateLine_looked _ _ _ _ _

theorem Seen.reach_looked (x : Seen) (g : Nat) (n : Need) (acc va : Nat) : x.st.Looked (x.reach g n acc va).1.st := by
  unfold Seen.reach
  have h := Seen.tr_looked x g n va
  generalize x.tr g n va = q at h
  obtain ⟨y, r⟩ := q
  split
  · exact Looked.refl _
  · cases r <;> exact h

theorem Seen.place_looked (x : Seen) (g : Nat) (n : Need) (acc va : Nat) : x.st.Looked (x.place g n acc va).1.st := by
  unfold Seen.place
  have h := Seen.reach_looked x g n acc va
  generalize x.reach g n acc va = q at h
  obtain ⟨y, r⟩ := q
  cases r <;> exact h

theorem Seen.each_looked {α β : Type} (f : Seen → α → Seen × β) (h : ∀ (x : Seen) (a : α), x.st.Looked (f x a).1.st) (l : List α) (x : Seen) :
    x.st.Looked (Seen.each f l x).1.st := by
  induction l generalizing x with
  | nil => exact Looked.refl _
  | cons a l ih => exact (h x a).trans (ih _)

theorem Seen.each_length {α β : Type} (f : Seen → α → Seen × β) (l : List α) (x : Seen) : (Seen.each f l x).2.length = l.length := by
  induction l generalizing x with
  | nil => rfl
  | cons a l ih => simp [Seen.each, ih]

theorem bufSpot_looked (g : Nat) (n : Need) (acc w : Nat) (r : W256) (x : Seen) (i : W64) :
    x.st.Looked (bufSpot g n acc w r x i).1.st := by
  unfold bufSpot
  split
  · exact Looked.refl _
  · exact Looked.refl _
  · rename_i va _
    have h := Seen.place_looked x g n acc va
    generalize x.place g n acc va = q at h
    obtain ⟨y, r⟩ := q
    cases r <;> exact h

/-- The translations of a word's accesses change nothing but their caches. -/
theorem spots_looked (a : AAddr) (s : State) (g : Nat) (n : Need) (acc w : Nat) (lanes : List Nat) :
    s.Looked (a.spots s g n acc w lanes).1 := by
  cases a with
  | sp o => exact Looked.refl _
  | buf b i => exact Seen.each_looked _ (fun x j => bufSpot_looked _ _ _ _ _ _ _) lanes ⟨s, []⟩

theorem spots_length (a : AAddr) (s : State) (g : Nat) (n : Need) (acc w : Nat) (lanes : List Nat) :
    (a.spots s g n acc w lanes).2.length = lanes.length := by
  cases a with
  | sp o => simp [AAddr.spots]
  | buf b i => exact Seen.each_length _ _ _

namespace State

/-- What a translation leaves suits the end of the word. -/
theorem Looked.undisturbed {s u v : State} (h : s.Undisturbed u) (k : u.Looked v) (hh : v.hole = false) : s.Undisturbed v := by
  unfold Looked at k
  rw [k]
  exact ⟨hh, h.cur, h.cycle, h.samples, h.armed, h.quiet, h.steps⟩

end State
end Sys2Proof.Machine
end

