-- ==== Sys2Proof/Tests/Slice0.lean ====
section
/-!
SUPPORT. Tests: ill-formed terms that well-formedness refuses, words written out from the tables of the spec and what they decode to, single
steps on small states, and for each statement a state and operands that meet its hypotheses (`witness_…`).
-/
namespace Sys2Proof.Tests
open Machine Slice0

/- One theorem after the other: checking many at once takes a stack for each. -/
set_option Elab.async false

/-! ## Well-formedness -/

/-- Class 0: a counter on a fixed word, 128-bit arithmetic, a literal or a constant that does not fit, a type that the operation has not,
an odd pair, `.un`, an ordered comparison of raw bits, a write of `p7`, a special register that is no operand, a guarded `PHASE`. -/
theorem test_wf_refuses_class0 : ∀ i ∈ [
    Instr.add { bare with ctr := some 0 } .s32 1 (.g 1) (.g 2), .add bare .b128 2 (.g 2) (.g 4), .add bare .s8 1 (.lit 0x80) (.g 1),
    .add bare .n8 1 (.lit 0x100) (.g 1), .add bare .s8 1 (.k 63) (.g 1), .mulh bare .b32 1 (.g 1) (.g 2), .abs bare .n32 1 (.g 1),
    .neg bare .n32 1 (.g 1), .mov bare .b128 1 (.g 2), .mov bare .b128 2 (.g 3), .cmp bare .un .s32 1 (.g 1) (.g 2),
    .cmp bare .lt .b32 1 (.g 1) (.g 2), .cmp bare .eq .b32 7 (.g 1) (.g 2), .plop bare .and 7 1 2 false false, .vote bare (.any 7 1),
    .rds bare 1 32, .rds bare 1 59, .wrs bare 35 (.g 1), .scan bare .min .b32 false 1 (.g 1),
    .phase { bare with gpred := 1 } 0 0, .phase { bare with gneg := true } 0 0], i.wf = false := by decide

/-- Class 1: a format or a mode that the operation has not, a constant beyond its range, an odd pair, a codebook without its format, a
missing counter. -/
theorem test_wf_refuses_class1 : ∀ i ∈ [
    Instr.fadd bare .e4m3 .rne 1 2 3, .frcp bare .f32 .rs 1 2, .fred bare .add .f32 .rs 1 2, .fred bare .min .f32 .rz 1 2,
    .fcvt bare .s4 .rne false 1 2 none, .fcvt bare .f32 .rne false 1 2 (some (.k 8)), .icvt bare .f32 .rs true false 1 2 none,
    .funpk bare 1 2 (.k 2), .funpk bare 1 2 (.g 1), .vmov bare (.g 1) 2, .vtag bare .s4 0 1 (.g 2), .vtag bare .f32 1 1 (.g 2),
    .vtag bare .f32 0 1 (.g 3), .vretag bare .bf16 3 1 2, .scale bare .f32 1 2, .qnt bare .e4m3 .rne false 1 2 none,
    .qnt { bare with ctr := some 0 } .e4m3 .rne false 1 2 (some (3, .k 0)), .dqnt { bare with ctr := some 0 } .bf16 .rs 1 2,
    .cbld bare 0 1 2], i.wf = false := by decide

/-- Classes 2 and 3: a missing counter, an ordering, a type or a register that the access has not, a handle of more than 32 bits, an empty
queue mask. -/
theorem test_wf_refuses_memory : ∀ i ∈ [
    Instr.ld bare .b32 .rlx .lane (.g 1) 0 2, .ld { bare with ctr := some 0 } .b32 .rel .lane (.g 1) 0 2,
    .ld { bare with ctr := some 0 } .b128 .rlx .lane (.g 1) 0 2, .ld { bare with ctr := some 0 } .b32 .rlx .lane (.v 1) 0 2,
    .st bare .b32 .acq .lane 0 2 (.g 1), .sts bare .b128 .rlx .lane ⟨1, none⟩ (.g 3), .ldx bare .b16 (.nb 0) 0 1 2,
    .tld { bare with ctr := some 0 } 1 (.lit 0x1_0000_0000) 2, .pref { bare with ctr := some 0 } .b32 0 1, .brld bare 0 1 0,
    .aadd bare .n8 .rlx .lane none (.buf 0 1) 2, .aadd bare .n32 .rlx .lane (some 1) (.buf 0 1) 2, .aand bare .s32 .rlx .lane none (.buf 0 1) 2,
    .acas bare .b32 .rlx .lane none (.buf 0 1) 3, .aincw bare .s32 .rlx .lane none (.buf 0 1) 3, .cpyw bare .b8 .lane 1 2 3, .qfence bare 0,
    .qfence bare 0x80, .waita bare .b32 .lane 1 ⟨2, none⟩ 3, .waita { bare with ctr := some 0 } .n32 .lane 1 ⟨2, none⟩ 3,
    .gfetch { bare with ctr := some 0 } .f16 1 (.g 2) 3, .mrgpull { bare with ctr := some 0 } 3], i.wf = false := by decide

/-- Classes 4 to 9, and an event, which is no encoding. -/
theorem test_wf_refuses_engines : ∀ i ∈ [
    Instr.trecv bare 1 (.k 0), .tzero bare .cb4 1, .tscl bare .f32 .rs false 1 2 (.g 3), .mmul bare (.k 0) ⟨0, 31, 9⟩,
    .mlda bare (.k 0) (.lit 0x1_0000_0000) none, .mchk bare 1 (.k 0), .chpt { bare with ctr := some 0 } 9 0,
    .unify { bare with ctr := some 0 } 7 1 2, .tagof { bare with ctr := some 0 } 1 2, .fail bare, .bmand bare 1 (.g 1) (.g 2),
    .isect bare false 2 1 4 62, .isect bare false 6 1 2 4, .rebal bare 62 (.g 1) (.g 2), .expnd { bare with ctr := some 0 } 1 7 0 2,
    .xwrite bare .b32 .rlx .lane none 1 3 (.g 2), .xwrite bare .b32 .acq .lane none 1 2 (.g 2),
    .xread { bare with ctr := some 0 } .b32 .rel .lane (.g 1) 1 2, .rtxy bare .lat 1 (.g 1) (.k 0), .ringpoll { bare with ctr := some 0 } 1 ⟨2, none⟩,
    .sysrd bare 1 0x12, .syswr bare 0x5B (.g 1), .sluice], i.wf = false := by decide

/-! ## Words of the spec -/

/-- Words of class 0 packed from the table of the control and integer words (R168) and R150–R157. -/
theorem test_decode_class0_a :
    decode 0 0x007E000000000000 [] = .ok (.nop { bare with stall := 7 }) ∧
    decode 0 0x017000000003FFFF [] = .ok (.bra bare 0x3FFFF) ∧
    decode 0 0x02A00003F8000000 [] = .ok (.brx { bare with gneg := true, gpred := 2 } 63) ∧
    decode 0 0x037007E000000005 [] = .ok (.call bare 62 5) ∧
    decode 0 0x037007E248000000 [] = .ok (.callIndirect bare 62 9) ∧
    decode 0 0x04700003F8000000 [] = .ok (.ret bare 63) ∧
    decode 0 0x0570000000000000 [] = .ok (.exit bare) ∧
    decode 0 0x0670000000000000 [] = .ok (.reconv bare) ∧
    decode 0 0x0770000000000000 [] = .ok (.yield bare) ∧
    decode 0 0x0870000000000000 [0x23, 0x1ff] = .ok (.phase bare 0x23 0x1FF) ∧
    decode 0 0x0970000000000000 [] = .ok (.idem bare) ∧
    decode 0 0x0A7000000000BEEF [] = .ok (.trap bare 0xBEEF) ∧
    decode 0 0x0B70000000000001 [] = .ok (.brk bare 1) ∧
    decode 0 0x10700412A7A00000 [] = .ok (.add bare .s8 1 (.g 20) (.k 40)) ∧
    decode 0 0x11700422AFA40040 [] = .ok (.sub bare .s32 2 (.g 21) (.k 41)) ∧
    decode 0 0x12700432B7A800E0 [] = .ok (.mul bare .n64 3 (.g 22) (.k 42)) ∧
    decode 0 0x13700442BFAC0060 [] = .ok (.mulh bare .s64 4 (.g 23) (.k 43)) ∧
    decode 0 0x15700452C7B000A0 [] = .ok (.min bare .n16 5 (.g 24) (.k 44)) ∧
    decode 0 0x16700462CFB40000 [] = .ok (.max bare .s8 6 (.g 25) (.k 45)) ∧
    decode 0 0x1E700472D7B80040 [] = .ok (.shl bare .s32 7 (.g 26) (.k 46)) ∧
    decode 0 0x1F700482DFBC00E0 [] = .ok (.shr bare .n64 8 (.g 27) (.k 47)) ∧
    decode 0 0x20700492E7C00060 [] = .ok (.sar bare .s64 9 (.g 28) (.k 48)) ∧
    decode 0 0x217004A2EFC400A0 [] = .ok (.rol bare .n16 10 (.g 29) (.k 49)) ∧
    decode 0 0x197004B2F7C80000 [] = .ok (.and bare .s8 11 (.g 30) (.k 50)) := by
  refine ⟨rfl, rfl, rfl, rfl, rfl, rfl, rfl, rfl, rfl, rfl, rfl, rfl, rfl, rfl, rfl, rfl, rfl, rfl, rfl, rfl, rfl, rfl, rfl, rfl⟩

/-- Words of class 0 packed from the table of the control and integer words (R168) and R150–R157. -/
theorem test_decode_class0_b :
    decode 0 0x1A7004C2FFCC0040 [] = .ok (.or bare .s32 12 (.g 31) (.k 51)) ∧
    decode 0 0x1B7004D307D000E0 [] = .ok (.xor bare .n64 13 (.g 32) (.k 52)) ∧
    decode 0 0x1C7004E30FD40060 [] = .ok (.andn bare .s64 14 (.g 33) (.k 53)) ∧
    decode 0 0x257004F317D800A0 [] = .ok (.bfx bare .n16 15 (.g 34) (.k 54)) ∧
    decode 0 0x1470041FF90BFEC0 [7, 9] = .ok (.mad bare .n32 1 (.lit 7) (.g 2) (.lit 9)) ∧
    decode 0 0x26700412190BFD20 [] = .ok (.bfi bare .b16 1 (.g 3) (.g 2) (.k 62)) ∧
    decode 0 0x1770061360000020 [] = .ok (.abs bare .s16 33 (.g 44)) ∧
    decode 0 0x1870061360000100 [] = .ok (.neg bare .b8 33 (.g 44)) ∧
    decode 0 0x1D70061360000080 [] = .ok (.not bare .n8 33 (.g 44)) ∧
    decode 0 0x2270061360000160 [] = .ok (.popc bare .b64 33 (.g 44)) ∧
    decode 0 0x2370061360000040 [] = .ok (.clz bare .s32 33 (.g 44)) ∧
    decode 0 0x2470061360000140 [] = .ok (.brev bare .b32 33 (.g 44)) ∧
    decode 0 0x2870061360000060 [] = .ok (.mov bare .s64 33 (.g 44)) ∧
    decode 0 0x2870060360000180 [] = .ok (.mov bare .b128 32 (.g 44)) ∧
    decode 0 0x27700412110E0D60 [] = .ok (.sel bare .b64 1 (.g 2) (.g 3) 6) ∧
    decode 0 0x297007F000000000 [0xffffffffffffffff] = .ok (.movl bare 63 0xFFFFFFFFFFFFFFFF) ∧
    decode 0 0x2A70105217FC006C [0xffffffffffffffff] = .ok (.cmp bare .le .s64 5 (.g 2) (.lit 0xFFFFFFFFFFFFFFFF)) ∧
    decode 0 0x2B701018141C000A [] = .ok (.plop bare .xor 1 2 7 false true) ∧
    decode 0 0x2C70049DD0000000 [] = .ok (.rds bare 9 58) ∧
    decode 0 0x2D701AB248000000 [] = .ok (.wrs bare 43 (.g 9)) ∧
    decode 0 0x30700412177C0148 [] = .ok (.shfl bare .down .b32 1 (.g 2) (.k 31)) ∧
    decode 0 0x31700412110C0100 [] = .ok (.bcast bare .b8 1 (.g 2) (.g 3)) ∧
    decode 0 0x3270101810000000 [] = .ok (.vote bare (.all 1 2)) ∧
    decode 0 0x3270101810000004 [] = .ok (.vote bare (.any 1 2)) := by
  refine ⟨rfl, rfl, rfl, rfl, rfl, rfl, rfl, rfl, rfl, rfl, rfl, rfl, rfl, rfl, rfl, rfl, rfl, rfl, rfl, rfl, rfl, rfl, rfl, rfl⟩

/-- Words of class 0 packed from the table of the control and integer words (R168) and R150–R157. -/
theorem test_decode_class0_c :
    decode 0 0x3270041810000008 [] = .ok (.vote bare (.bal 1 2 none)) ∧
    decode 0 0x32700418140C000B [] = .ok (.vote bare (.bal 1 2 (some (.xor, 3)))) ∧
    decode 0 0x33700412100000E0 [] = .ok (.matchLanes bare .n64 1 (.g 2)) ∧
    decode 0 0x3470041210000049 [] = .ok (.scan bare .max .s32 true 1 (.g 2)) ∧
    decode 0 0x3570041210000174 [] = .ok (.redux bare .xor .b64 1 (.g 2)) := by
  refine ⟨rfl, rfl, rfl, rfl, rfl⟩

/-- Words of class 1 packed from the table of the float words (R202) and R150–R157. -/
theorem test_decode_class1_a :
    decode 1 0x00700814120C004C [] = .ok (.fadd bare .bf16 .rup 1 2 3) ∧
    decode 1 0x01700814120C004C [] = .ok (.fsub bare .bf16 .rup 1 2 3) ∧
    decode 1 0x02700814120C004C [] = .ok (.fmul bare .bf16 .rup 1 2 3) ∧
    decode 1 0x037009F4F2753870 [] = .ok (.ffma bare .f16 .rs 31 30 29 28) ∧
    decode 1 0x04700814120C0020 [] = .ok (.fmin bare .f32 1 2 3) ∧
    decode 1 0x05700814120C0020 [] = .ok (.fmax bare .f32 1 2 3) ∧
    decode 1 0x07700814120C0020 [] = .ok (.famax bare .f32 1 2 3) ∧
    decode 1 0x067007C4120C0038 [] = .ok (.fcmp bare .un .f32 60 2 3) ∧
    decode 1 0x0870081410000024 [] = .ok (.frcp bare .f32 .rz 1 2) ∧
    decode 1 0x0970081410000024 [] = .ok (.frsq bare .f32 .rz 1 2) ∧
    decode 1 0x0A70081410000024 [] = .ok (.fsqrt bare .f32 .rz 1 2) ∧
    decode 1 0x0B70081410000040 [] = .ok (.fexp2 bare .bf16 1 2) ∧
    decode 1 0x0C70081410000040 [] = .ok (.flog2 bare .bf16 1 2) ∧
    decode 1 0x0D70081410000040 [] = .ok (.ftanh bare .bf16 1 2) ∧
    decode 1 0x0E70081410000022 [] = .ok (.fred bare .max .f32 .rne 1 2) ∧
    decode 1 0x10700814100382CA [] = .ok (.fcvt bare .e2m1 .rdn true 1 2 (some (.k 1))) ∧
    decode 1 0x1170081410000021 [] = .ok (.icvt bare .f32 .rne true false 1 2 none) ∧
    decode 1 0x1170081410000022 [] = .ok (.icvt bare .f32 .rne false true 1 2 none) ∧
    decode 1 0x12700814120C0000 [] = .ok (.fpack bare 1 2 3) ∧
    decode 1 0x1370081410038200 [] = .ok (.funpk bare 1 2 (.k 1)) ∧
    decode 1 0x1470042418000000 [] = .ok (.vmov bare (.g 2) 3) ∧
    decode 1 0x1470082418000000 [] = .ok (.vmov bare (.v 2) 3) ∧
    decode 1 0x1570081210034540 [] = .ok (.vtag bare .cb4 2 1 (.g 2)) ∧
    decode 1 0x1670081410000060 [] = .ok (.vretag bare .f16 0 1 2) := by
  refine ⟨rfl, rfl, rfl, rfl, rfl, rfl, rfl, rfl, rfl, rfl, rfl, rfl, rfl, rfl, rfl, rfl, rfl, rfl, rfl, rfl, rfl, rfl, rfl, rfl⟩

/-- Words of class 1 packed from the table of the float words (R202) and R150–R157. -/
theorem test_decode_class1_b :
    decode 1 0x17701AB238000000 [] = .ok (.seed bare (.g 7)) ∧
    decode 1 0x18700814100000A0 [] = .ok (.scale bare .e5m2 1 2) ∧
    decode 1 0x1971AC16120F8682 [] = .ok (.qnt { bare with ctr := some 5 } .e4m3 .rne true 1 2 (some (3, .k 3))) ∧
    decode 1 0x1A71AC1610000044 [] = .ok (.dqnt { bare with ctr := some 5 } .bf16 .rz 1 2) ∧
    decode 1 0x1B71BA3422140000 [] = .ok (.cbld { bare with ctr := some 5 } 3 4 5) ∧
    decode 1 0x1C700814168C0140 [] = .ok (.cbenc bare 1 2 3) := by
  refine ⟨rfl, rfl, rfl, rfl, rfl, rfl⟩

/-- Words of class 2 packed from the table of the memory words (R226) and R150–R157. -/
theorem test_decode_class2 :
    decode 2 0x0071A41A790C00AA [] = .ok (.ld { bare with ctr := some 5 } .s16 .acq .die (.g 1) 15 3) ∧
    decode 2 0x0170000A790E4E50 [] = .ok (.st bare .b128 .rel .fab 15 3 (.v 9)) ∧
    decode 2 0x0271A81218000600 [] = .ok (.lds { bare with ctr := some 5 } .b128 .rlx .lane (.v 1) ⟨3, none⟩) ∧
    decode 2 0x037000021FFC4A12 [0xfff0] = .ok (.sts bare .n8 .rlx .sys ⟨3, some 0xFFF0⟩ (.g 9)) ∧
    decode 2 0x0470192A790C4D80 [] = .ok (.ldx bare .b64 (.kb 2) 15 3 9) ∧
    decode 2 0x0571AC7FF90C0000 [0x12345678] = .ok (.tld { bare with ctr := some 5 } 7 (.lit 0x12345678) 3) ∧
    decode 2 0x0670000E210D8E00 [] = .ok (.tst bare (.k 4) 3 7) ∧
    decode 2 0x0770000A790C0500 [] = .ok (.pref bare .b32 15 3) ∧
    decode 2 0x0871B4F218008000 [] = .ok (.brld { bare with ctr := some 5 } 15 3 0x8000) ∧
    decode 2 0x0970000000000036 [] = .ok (.fence bare .rw .dev) ∧
    decode 2 0x0A70000000000001 [] = .ok (.vfence bare .grp) ∧
    decode 2 0x0B70000000000000 [] = .ok (.lfence bare) ∧
    decode 2 0x1071041A790C4BE4 [] = .ok (.aadd { bare with ctr := some 0 } .n64 .ar .wg (some 1) (.buf 15 3) 9) ∧
    decode 2 0x1271041A790C4964 [] = .ok (.amin { bare with ctr := some 0 } .s32 .ar .wg (some 1) (.buf 15 3) 9) ∧
    decode 2 0x1371041A790C49E4 [] = .ok (.amax { bare with ctr := some 0 } .s64 .ar .wg (some 1) (.buf 15 3) 9) ∧
    decode 2 0x1571041A790C4D64 [] = .ok (.aand { bare with ctr := some 0 } .b32 .ar .wg (some 1) (.buf 15 3) 9) ∧
    decode 2 0x1671041A790C4DE4 [] = .ok (.aor { bare with ctr := some 0 } .b64 .ar .wg (some 1) (.buf 15 3) 9) ∧
    decode 2 0x1771041A790C4D64 [] = .ok (.axor { bare with ctr := some 0 } .b32 .ar .wg (some 1) (.buf 15 3) 9) ∧
    decode 2 0x1871041A790C4DE4 [] = .ok (.axchg { bare with ctr := some 0 } .b64 .ar .wg (some 1) (.buf 15 3) 9) ∧
    decode 2 0x1B71041A790C4B64 [] = .ok (.aincw { bare with ctr := some 0 } .n32 .ar .wg (some 1) (.buf 15 3) 9) ∧
    decode 2 0x117000021FFC4946 [8] = .ok (.afadd bare .bf16 .rel .core none (.sp ⟨3, some 8⟩) 9) ∧
    decode 2 0x1470000218004880 [] = .ok (.afmax bare .rlx .lane none (.sp ⟨3, none⟩) 9) ∧
    decode 2 0x1971041A110C45A8 [] = .ok (.acas { bare with ctr := some 0 } .b64 .acq .clus (some 1) (.buf 2 3) 8) ∧
    decode 2 0x1A70000A110C4B80 [] = .ok (.amaxrst bare .n64 .rlx .lane none (.buf 2 3) 9) := by
  refine ⟨rfl, rfl, rfl, rfl, rfl, rfl, rfl, rfl, rfl, rfl, rfl, rfl, rfl, rfl, rfl, rfl, rfl, rfl, rfl, rfl, rfl, rfl, rfl, rfl⟩

/-- Words of class 3 packed from the table of the engine words (R227) and R150–R157. -/
theorem test_decode_class3 :
    decode 3 0x007018F218000000 [] = .ok (.cpy bare (some (.nb 15)) 3) ∧
    decode 3 0x0170000219102D0E [] = .ok (.cpyw bare .b32 .node 3 4 5) ∧
    decode 3 0x027000000000007F [] = .ok (.qfence bare 0x007F) ∧
    decode 3 0x0370190FF8000000 [0xffff] = .ok (.bari bare (.kb 0) (.lit 65535)) ∧
    decode 3 0x0470000C08000000 [] = .ok (.bara bare (.nb 1)) ∧
    decode 3 0x0570000CF8000000 [] = .ok (.barw bare (.kb 15)) ∧
    decode 3 0x0671A4121FFC4DA8 [4] = .ok (.waita { bare with ctr := some 5 } .b64 .clus 1 ⟨3, some 4⟩ 9) ∧
    decode 3 0x0771A812110C0040 [] = .ok (.gfetch { bare with ctr := some 5 } .bf16 1 (.g 2) 3) ∧
    decode 3 0x0870000000000005 [] = .ok (.ginv bare .die) ∧
    decode 3 0x0970000218000020 [] = .ok (.mrgopen bare true 3) ∧
    decode 3 0x0A71A42000000000 [] = .ok (.mrgpull { bare with ctr := some 5 } 2) ∧
    decode 3 0x0B70000000000000 [] = .ok (.mrgclose bare) ∧
    decode 3 0x0C700002110C0000 [] = .ok (.emit bare 2 3) ∧
    decode 3 0x0D70000218000000 [] = .ok (.launch bare 3) ∧
    decode 3 0x0E70000FF0000000 [] = .ok (.sample bare (.k 62)) := by
  refine ⟨rfl, rfl, rfl, rfl, rfl, rfl, rfl, rfl, rfl, rfl, rfl, rfl, rfl, rfl, rfl⟩

/-- Words of class 4 packed from the table of the tile words (R262) and R150–R157. -/
theorem test_decode_class4 :
    decode 4 0x0070000E3B180000 [] = .ok (.tsend bare (.k 7) 6) ∧
    decode 4 0x0171AC6238000000 [] = .ok (.trecv { bare with ctr := some 5 } 6 (.g 7)) ∧
    decode 4 0x02700C6000000100 [] = .ok (.tzero bare .s4 6) ∧
    decode 4 0x03700C6628000000 [] = .ok (.tmov bare 6 5) ∧
    decode 4 0x04700C6628000000 [] = .ok (.ttrn bare 6 5) ∧
    decode 4 0x05700C662910006E [] = .ok (.tscl bare .f16 .rup true 6 5 (.g 4)) := by
  refine ⟨rfl, rfl, rfl, rfl, rfl, rfl⟩

/-- Words of class 5 packed from the table of the harp words (R263) and R150–R157. -/
theorem test_decode_class5 :
    decode 5 0x0070000E191C9200 [] = .ok (.mlda bare (.k 3) (.g 7) (some 9)) ∧
    decode 5 0x0170000E191C921F [] = .ok (.mldb bare (.k 3) (.g 7) (some 9) 31) ∧
    decode 5 0x027000021803FFF0 [] = .ok (.mmul bare (.g 3) ⟨31, 255, 8⟩) ∧
    decode 5 0x03700002180023E0 [] = .ok (.mmac bare (.g 3) ⟨1, 31, 0⟩) ∧
    decode 5 0x0470000E191C47E8 [] = .ok (.mdist bare (.k 3) (.g 7) ⟨2, 63, 4⟩) ∧
    decode 5 0x0570000E1803FFD0 [] = .ok (.mtopk bare (.k 3) 31 254 true) ∧
    decode 5 0x0670000E191C0000 [] = .ok (.macc bare (.k 3) (.g 7) none) ∧
    decode 5 0x0770000E1FFC8200 [0xffffffff] = .ok (.mstc bare (.k 3) (.lit 0xFFFFFFFF) (some 1)) ∧
    decode 5 0x0870000FF8000000 [0xff] = .ok (.mwait bare (.lit 255)) ∧
    decode 5 0x0971A41E00000000 [] = .ok (.mchk { bare with ctr := some 5 } 1 (.k 0)) := by
  refine ⟨rfl, rfl, rfl, rfl, rfl, rfl, rfl, rfl, rfl, rfl⟩

/-- Words of class 6 packed from the table of the term words (R305) and R150–R157. -/
theorem test_decode_class6 :
    decode 6 0x0071A41210000000 [] = .ok (.deref { bare with ctr := some 5 } 1 2) ∧
    decode 6 0x0171B012110C0000 [] = .ok (.unify { bare with ctr := some 5 } 1 2 3) ∧
    decode 6 0x0271A002110C0000 [] = .ok (.bind { bare with ctr := some 5 } 2 3) ∧
    decode 6 0x0371A41000000000 [] = .ok (.mkvar { bare with ctr := some 5 } 1) ∧
    decode 6 0x0471A41210000000 [] = .ok (.mkstr { bare with ctr := some 5 } 1 2) ∧
    decode 6 0x0570041210000000 [] = .ok (.tagof bare 1 2) ∧
    decode 6 0x0671A00E40020000 [] = .ok (.chpt { bare with ctr := some 5 } 8 0x20000) ∧
    decode 6 0x0771A00000000000 [] = .ok (.fail { bare with ctr := some 5 }) ∧
    decode 6 0x0871A00000000000 [] = .ok (.cut { bare with ctr := some 5 } none) ∧
    decode 6 0x0871A00210000000 [] = .ok (.cut { bare with ctr := some 5 } (some 2)) ∧
    decode 6 0x0971A41000000004 [] = .ok (.ovpub { bare with ctr := some 5 } .clus 1) := by
  refine ⟨rfl, rfl, rfl, rfl, rfl, rfl, rfl, rfl, rfl, rfl, rfl⟩

/-- Words of class 7 packed from the table of the sparse words (R286) and R150–R157. -/
theorem test_decode_class7 :
    decode 7 0x007004221F100000 [] = .ok (.bmand bare 2 (.g 3) (.k 4)) ∧
    decode 7 0x017004121FF80000 [] = .ok (.popcp bare 1 (.g 3) (.k 62)) ∧
    decode 7 0x0270042221F20C01 [] = .ok (.isect bare true 2 6 4 60) ∧
    decode 7 0x037007D209080000 [] = .ok (.rebal bare 61 (.g 1) (.g 2)) ∧
    decode 7 0x04700002090A0E00 [] = .ok (.cmpk bare 1 2 7) ∧
    decode 7 0x0571A41A790A0C00 [] = .ok (.expnd { bare with ctr := some 5 } 1 6 15 2) := by
  refine ⟨rfl, rfl, rfl, rfl, rfl, rfl⟩

/-- Words of class 8 packed from the table of the exchange words (R332) and R150–R157. -/
theorem test_decode_class8 :
    decode 8 0x0071A41211104D50 [] = .ok (.xwrite { bare with ctr := some 5 } .b32 .rel .fab (some 1) 2 4 (.g 9)) ∧
    decode 8 0x0171A81211100632 [] = .ok (.xread { bare with ctr := some 5 } .b128 .acq .sys (.v 1) 2 4) ∧
    decode 8 0x0271A4122108921C [] = .ok (.xsend { bare with ctr := some 5 } 1 4 2 9 7) ∧
    decode 8 0x0370000000000026 [] = .ok (.xfence bare .st .dev) ∧
    decode 8 0x047004220F0C0003 [] = .ok (.rtxy bare .mg 2 (.g 1) (.k 3)) ∧
    decode 8 0x0570041220000000 [] = .ok (.rtchk bare 1 4) ∧
    decode 8 0x0671A42218000000 [] = .ok (.ringpoll { bare with ctr := some 5 } 2 ⟨3, none⟩) ∧
    decode 8 0x077000021FFFFE00 [0x20, 2] = .ok (.ringadv bare ⟨3, some 32⟩ (.lit 2)) ∧
    decode 8 0x0871A41218000000 [] = .ok (.ringwait { bare with ctr := some 5 } 1 ⟨3, none⟩) := by
  refine ⟨rfl, rfl, rfl, rfl, rfl, rfl, rfl, rfl, rfl⟩

/-- Words of class 9 packed from the table of the privileged words (R352) and R150–R157. -/
theorem test_decode_class9 :
    decode 9 0x007004100000005A [] = .ok (.sysrd bare 1 0x5A) ∧
    decode 9 0x0170000210000021 [] = .ok (.syswr bare 0x21 (.g 2)) ∧
    decode 9 0x0270000000000000 [] = .ok (.eret bare) ∧
    decode 9 0x037000020F080002 [] = .ok (.tlbinv bare .page (.g 1) (.k 2)) ∧
    decode 9 0x047000000000FFFF [] = .ok (.halt bare 0xFFFF) := by
  refine ⟨rfl, rfl, rfl, rfl, rfl⟩
/-! ## States for the witnesses of the statements -/

/-- A thread that runs. -/
def running : Thread := { Thread.blank with stat := .run }

/-- Page tables that map the first GiB to itself, for loads, stores and fetches (R366–R368). -/
def pages : Memory := [(0x10000, 0x03), (0x10001, 0x10), (0x10002, 0x01), (0x11000, 0x1D)]

/-- A region with a handler, page tables, system rights, four graph queues and a region table. -/
def region : Resolved := { Resolved.zero with trapvec := 0x1000, priv := true, gqcount := 4, rtlen := 4, ptroot := 0x10000, clmask := 0xFFFF }

/-- A core whose group 0 has n running lanes, of which `lanes` have a word in issue, in the superstep `ph`. -/
def issue (core ph n : Nat) (lanes : BitVec 32) (x : Thread) : State :=
  { State.reset with
    mem := pages
    groups := [(16 * core, { Group.free with bound := true, rcb := 0x40 })]
    threads := (List.range n).map fun i => (tid (16 * core) i, x)
    clusters := [(0, { Cluster.reset with region := some 0x40, phase := ph, res := region, zs := 0x10000 })]
    cores := [(core, ⟨15, [⟨0, lanes, 0x2000, 0, [], 0, 0, .no⟩]⟩)]
    cur := ⟨core, 0, 0, lanes, 0x2000, 1, 0, 0, 0, 1, 0⟩ }

/-- Two lanes of a spoke core with a word in issue. -/
def two (x : Thread) : State := issue 0 0 2 3 x
/-- All 32 lanes of a spoke core with a word in issue. -/
def full (x : Thread) : State := issue 0 0 32 0xFFFFFFFF x
/-- The same two lanes in an exchange superstep. -/
def odd (x : Thread) : State := issue 0 1 2 3 x
/-- The bow of cluster 0 with a word in issue. -/
def bow (x : Thread) : State := issue 16 0 1 1 x

/-- `State.Calm`, evaluated. -/
def calmB (s : State) : Bool :=
  !s.hole && s.samples.isEmpty && (s.grp s.curG).armed.isEmpty && decide (s.cur.core < 272) && decide (s.cur.slot < 16) &&
  (!isBow s.cur.core || (s.cur.lanes == 1#32 && s.cur.slot == 0)) &&
  (lanesOf s.cur.lanes).all fun i => let x := s.thr (tid s.curG i); x.stat == .run && !x.strag && !x.stepping && x.haltReq == none

theorem calm {s : State} (h : calmB s = true) : s.Calm := by
  simp only [calmB, Bool.and_eq_true, Bool.or_eq_true, Bool.not_eq_true', decide_eq_true_eq, List.isEmpty_iff,
    List.all_eq_true, beq_iff_eq] at h
  obtain ⟨⟨⟨⟨⟨⟨h1, h2⟩, h3⟩, h4⟩, h5⟩, h6⟩, h7⟩ := h
  exact ⟨h1, h2, h3, h4, h5, fun b => (h6.resolve_left (by simp [b])).1, fun b => (h6.resolve_left (by simp [b])).2,
    fun i hi => (h7 i hi).1.1.1, fun i hi => (h7 i hi).1.1.2,
    fun i hi => (h7 i hi).1.2, fun i hi => (h7 i hi).2⟩

theorem acts {s : State} {w : WordSpec} {p : List Nat} (h : calmB s = true) (g : s.gate bare w = .go p []) : s.Acts bare w p := ⟨calm h, g⟩

/-- Any word of phase class A or C acts in the two lanes. -/
theorem acts_two (w : WordSpec) (h : (w.ph == .x) = false) : (two running).Acts bare w [0, 1] := by
  obtain ⟨ph, _, _, _, _, _, _, _⟩ := w
  cases ph
  · exact acts (by decide) rfl
  · exact acts (by decide) rfl
  · exact Bool.noConfusion (h : true = false)

/-! ## Witnesses: class 0, traps and control -/

theorem witness_ProductsAndOrder : ITy.s8 ≠ .b128 ∧ ITy.s8.signed = true ∧ ∀ lat regs, (two running).Acts bare (.fixA lat regs) [0, 1] :=
  ⟨by decide, rfl, fun _ _ => acts_two _ rfl⟩

theorem witness_IntegerArithmetic : ITy.n64 ≠ .b128 ∧ ∀ regs, (two running).Acts bare (.fixA 2 regs) [0, 1] :=
  ⟨by decide, fun _ => acts_two _ rfl⟩

theorem witness_FieldsMovesAndPredicates : ITy.b8 ≠ .b128 ∧ ∀ regs, (two running).Acts bare (.fixA 2 regs) [0, 1] :=
  ⟨by decide, fun _ => acts_two _ rfl⟩

theorem witness_LaneExchanges : ITy.s32 ≠ .b128 ∧ ∀ regs, (two running).Acts bare (.fixA 6 regs) [0, 1] :=
  ⟨by decide, fun _ => acts_two _ rfl⟩

theorem witness_LaneCombinations : ITy.n16 ≠ .b128 ∧ ∀ a : Src, (two running).Acts bare (.fixA 6 a.regs) [0, 1] ∧ ITy.b32.raw = true :=
  ⟨by decide, fun _ => ⟨acts_two _ rfl, rfl⟩⟩

/-- Registers 43 and 54 are written, 42 and 55 are not, and on the bow 43 is absent; every number of a read has its register. -/
theorem witness_SpecialRegisters :
    (∀ regs, (two running).Acts bare (.fixA 2 regs) [0, 1]) ∧ (∀ r : SReg, (bow running).Acts bare (.fixA 2 (sregRegs r)) [0]) ∧
    (∀ r ∈ [43#6, 54#6], 43 ≤ r.toNat ∧ r.toNat ≤ 54 ∧ (isBow (two running).cur.core && bowAbsent r.toNat) = false) ∧
    (∀ r ∈ [42#6, 55#6], ¬(43 ≤ r.toNat ∧ r.toNat ≤ 54)) ∧ (isBow (bow running).cur.core && bowAbsent (43#6).toNat) = true ∧
    (15#6 = (15#4).setWidth 6 ∧ 31#6 = 16#6 + (15#4).setWidth 6) ∧ (∃ x, sregAt (43#6).toNat = some x) :=
  ⟨fun _ => acts_two _ rfl, fun _ => acts (by decide) rfl, by decide, by decide, rfl, by decide, ⟨_, rfl⟩⟩

theorem witness_Transfers : let s := two { running with g := [(5, 0x3000)] }
    (∀ lat regs, s.Acts bare (.fixA lat regs) [0, 1]) ∧ ∀ l ∈ [0, 1], goodTarget (src s l (.g 5)) :=
  ⟨fun _ _ => acts (by decide) rfl, by unfold goodTarget; decide⟩

/-- The word is the last of its clause; under `PP` = 0 too. -/
theorem witness_IdemAndYield : (∀ lat, (two running).Acts bare (.fixA lat []) [0, 1]) ∧
    (let s := (two running).setGrp 0 { (two running).grp 0 with pp := false };
      s.Acts bare (.fixA 1 []) [0, 1] ∧ s.curLast = true ∧ (s.grp s.curG).pp = false ∧ ∀ l ∈ lanesOf s.cur.lanes, l ∈ [0, 1]) :=
  ⟨fun _ => acts_two _ rfl, acts (by decide) rfl, by decide, by decide, by decide⟩

/-- A thread of a region with a handler enters it, and a thread in it returns. -/
theorem witness_TrapEntryAndReturn :
    ((two running).hasOps 0 = false ∧ ((two running).thr 0).handler = none ∧ ((two running).grpRes (threadGroup 0)).trapvec ≠ 0) ∧
    ∃ h, ((two { running with handler := some ⟨⟨0, 0, 0⟩, 1, 2, 3⟩ }).thr 0).handler = some h :=
  ⟨⟨rfl, rfl, by decide⟩, _, rfl⟩

/-- A thread in its handler, and one of a region without a handler. -/
theorem witness_FatalTrap :
    ((two { running with handler := some ⟨⟨0, 0, 0⟩, 1, 2, 3⟩ }).hasOps 0 = false ∧
      ((two { running with handler := some ⟨⟨0, 0, 0⟩, 1, 2, 3⟩ }).thr 0).handler ≠ none) ∧
    (State.reset.hasOps 0 = false ∧ (State.reset.grpRes (threadGroup 0)).trapvec = 0) :=
  ⟨⟨rfl, by decide⟩, rfl, rfl⟩

theorem witness_TrapAndBreak : (two running).Acts bare (.fixA 1 []) [0, 1] ∧ (two running).Handled [0, 1] ∧
    ∀ a ∈ (two running).attached, a.1 ≠ ((two running).grp (two running).curG).rcb :=
  ⟨acts_two _ rfl, ⟨by decide, by decide⟩, fun _ h => absurd h List.not_mem_nil⟩

/-- Targets with bit 48 set, and with bit 2 set. -/
theorem witness_TransferTraps : ∀ v ∈ [0x0001_0000_0000_0000#64, 0x0000_0000_0000_1004#64], let s := two { running with g := [(5, v)] }
    (∀ lat, s.Acts bare (.fixA lat [.g 5]) [0, 1]) ∧ s.Handled [0, 1] ∧ ∀ l ∈ [0, 1], ¬goodTarget (src s l (.g 5)) := by
  intro v hv
  simp only [List.mem_cons, List.not_mem_nil, or_false] at hv
  rcases hv with rfl | rfl
  · exact ⟨fun _ => acts (by decide) rfl, ⟨by decide, by decide⟩, by unfold goodTarget; decide⟩
  · exact ⟨fun _ => acts (by decide) rfl, ⟨by decide, by decide⟩, by unfold goodTarget; decide⟩

/-- One path of a group of two threads, with and without an operation under way, and the one path of a group of 32 in `RECONV`. -/
theorem witness_ExitsAndReconvergence :
    (let s := { issue 0 0 2 1 running with ops := [⟨7, 0, 1, none, 0, false, none, [], .plain⟩] };
      s.Acts bare (.fixA 1 []) [0] ∧ ∃ l ∈ [0], s.hasWork (tid s.curG l) = true) ∧
    (let s := issue 0 0 2 1 running; s.Acts bare (.fixA 1 []) [0] ∧ (∀ l ∈ [0], s.hasWork (tid s.curG l) = false) ∧
      (s.grp s.curG).bound = true ∧ ∃ l ∈ groupLanes s.curG, l ∉ [0] ∧ (s.thr (tid s.curG l)).stat ≠ .exited) ∧
    (let s := issue 0 0 32 1 running; s.Acts bare (.fixA 1 []) [0] ∧ HeldBack s [0]) ∧
    (let s := issue 0 0 1 1 running; s.Acts bare (.fixA 1 []) [0] ∧
      (∀ l ∈ [0], (s.thr (tid s.curG l)).handler = none ∧ (s.thr (tid s.curG l)).halt = none) ∧
      (∀ l ∈ groupLanes s.curG, l ∉ [0] → Uncounted (s.thr (tid s.curG l))) ∧ ∀ y ∈ s.sleepers, y.id ≠ s.nextId) :=
  ⟨⟨acts (by decide) rfl, 0, by decide, by decide⟩, ⟨acts (by decide) rfl, by decide, rfl, 1, by decide, by decide⟩,
    ⟨acts (by decide) rfl, 1, by decide, by decide, .inr ⟨rfl, .inl rfl⟩⟩,
    acts (by decide) rfl, by decide, fun l h n => (by decide : ∀ l ∈ groupLanes (issue 0 0 1 1 running).curG, l ∉ [0] →
      (issue 0 0 1 1 running).thr (tid (issue 0 0 1 1 running).curG l) = Thread.blank) l h n ▸ ⟨fun _ h => TStat.noConfusion h, .inr (.inl rfl)⟩,
    fun _ h => absurd h List.not_mem_nil⟩

/-- A `PHASE` of every thread of its group whose checks pass, one whose ROFF is not a multiple of 8, and a thread that may arrive. -/
theorem witness_PhaseAndArrival :
    ((two running).Acts bare (.fixA 1 []) [0, 1] ∧ ∃ live, (two running).phaseCheck (two running).curG 0x23 0 = .inl live) ∧
    ((two running).Handled [0, 1] ∧ isBow (two running).cur.core = false ∧ (0x0001_8000_0000_0000#64).getLsbD 47 = true ∧
      (0x0001_8000_0000_0000#64).toNat / 2 ^ 48 % 8 ≠ 0) ∧
    (let s := two { running with stat := .arriving };
      s.hole = false ∧ s.mayArrive 0 = true ∧ (s.grp (threadGroup 0)).bound = true ∧ (s.thr 0).strag = false ∧ (s.thr 0).haltReq = none) :=
  ⟨⟨acts_two _ rfl, _, rfl⟩, ⟨⟨by decide, by decide⟩, rfl, rfl, by decide⟩, rfl, by decide, rfl, rfl, rfl⟩

/-! ## Witnesses: class 1 -/

/-- A thread whose `v1`–`v3` carry a tag. -/
def vecs (tag : Byte) : Thread := { running with v := [(1, ⟨0x3F800000, tag⟩), (2, ⟨0x40000000, tag⟩), (3, ⟨0x3F800000, tag⟩)] }

/-- A word of phase class C acts in the two lanes, whatever tag their vector registers carry. -/
theorem acts_vecs (tag : Byte) (h : tag ∈ [0x00#8, 0x10#8, 0x20#8, 0x30#8, 0x40#8, 0x70#8, 0x90#8, 0xA3#8]) (lat : Nat) (regs : List RegId) :
    (two (vecs tag)).Acts bare (.fixC lat regs) [0, 1] := by
  simp only [List.mem_cons, List.not_mem_nil, or_false] at h
  rcases h with rfl | rfl | rfl | rfl | rfl | rfl | rfl | rfl <;> exact acts (by decide) rfl

theorem witness_VectorArithmetic : (∀ lat regs, (two (vecs 0x10)).Acts bare (.fixC lat regs) [0, 1]) ∧
    Tagged (two (vecs 0x10)) .f32 [0, 1] [1, 2, 3] := ⟨acts_vecs _ (by decide), by unfold Tagged; decide⟩

theorem witness_VectorSelections : (∀ lat regs, (two (vecs 0x20)).Acts bare (.fixC lat regs) [0, 1]) ∧
    Tagged (two (vecs 0x20)) .bf16 [0, 1] [1, 2] := ⟨acts_vecs _ (by decide), by unfold Tagged; decide⟩

/-- The three parts, `SCALE` on FP16 and `CBENC` on BF16. -/
theorem witness_ReductionAndScale : (∀ tag ∈ [0x00#8, 0x10#8, 0x20#8, 0x30#8, 0x40#8, 0x70#8, 0x90#8, 0xA3#8], ∀ lat regs, (two (vecs tag)).Acts bare (.fixC lat regs) [0, 1]) ∧
    Tagged (two (vecs 0x10)) .f32 [0, 1] [1] ∧ Tagged (two (vecs 0x30)) .f16 [0, 1] [1] ∧ Tagged (two (vecs 0x20)) .bf16 [0, 1] [1] :=
  ⟨acts_vecs, by unfold Tagged; decide, by unfold Tagged; decide, by unfold Tagged; decide⟩

/-- A narrowing of FP32 under `.rs`, a widening of part 3 of E4M3, integers to floats and floats to integers. -/
theorem witness_Conversions : (∀ tag ∈ [0x00#8, 0x10#8, 0x20#8, 0x30#8, 0x40#8, 0x70#8, 0x90#8, 0xA3#8], ∀ lat regs, (two (vecs tag)).Acts bare (.fixC lat regs) [0, 1]) ∧
    (∀ l ∈ [0, 1], let t := (vreg (two (vecs 0x10)) l 1).tag
      tagVOk t = true ∧ tagFmt t ≤ 6 ∧ (fm .bf16).w ≤ fmtWidth (tagFmt t) ∧ partOk (fmtWidth (tagFmt t)) (fm .bf16).w (partOf none)) ∧
    (∀ l ∈ [0, 1], let t := (vreg (two (vecs 0x40)) l 1).tag
      tagVOk t = true ∧ tagFmt t ≤ 6 ∧ partOk (fmtWidth (tagFmt t)) (fm .f32).w (partOf (some 3))) ∧
    ((∀ l ∈ [0, 1], (vreg (two (vecs 0x70)) l 1).tag = 0x70) ∧ partOk 8 (fm .f32).w (partOf (some 3))) ∧
    ((∀ l ∈ [0, 1], (vreg (two (vecs 0x90)) l 1).tag = 0x90) ∧ partOk 32 (fm .bf16).w (partOf none)) ∧
    (Tagged (two (vecs 0x20)) .bf16 [0, 1] [1] ∧ partOk (fm .bf16).w 32 (partOf (some 1)) ∧ partOk (fm .bf16).w 8 (partOf none)) :=
  ⟨acts_vecs, by unfold partOk; decide, by unfold partOk; decide, by unfold partOk; decide, by unfold partOk; decide,
    by unfold Tagged; decide, by unfold partOk; decide⟩

theorem witness_VectorMoves : (∀ tag ∈ [0x00#8, 0x10#8, 0x20#8, 0x30#8, 0x40#8, 0x70#8, 0x90#8, 0xA3#8], ∀ lat regs, (two (vecs tag)).Acts bare (.fixC lat regs) [0, 1]) ∧
    ∀ l ∈ [0, 1], tagVOk (vreg (two (vecs 0xA3)) l 1).tag = true ∧ (vreg (two (vecs 0xA3)) l 2).tag = (vreg (two (vecs 0xA3)) l 1).tag :=
  ⟨acts_vecs, by decide⟩

/-- An empty source, and a pair of unlike tags: `v4` is empty beside a BF16 `v1`. -/
theorem witness_VectorMoves_traps : (two (vecs 0)).Handled [0, 1] ∧ (∀ l ∈ [0, 1], tagVOk (vreg (two (vecs 0)) l 1).tag = false) ∧
    (two (vecs 0x20)).Handled [0, 1] ∧ ∀ l ∈ [0, 1], (vreg (two (vecs 0x20)) l 4).tag ≠ (vreg (two (vecs 0x20)) l 1).tag :=
  ⟨⟨by decide, by decide⟩, by decide, ⟨by decide, by decide⟩, by decide⟩

/-- Registers that carry BF16, or nothing, under `.f32`. -/
theorem witness_WrongTags : ∀ tag ∈ [0x20#8, 0x00#8], (∀ lat regs, (two (vecs tag)).Acts bare (.fixC lat regs) [0, 1]) ∧
    (two (vecs tag)).Handled [0, 1] ∧ ∀ l ∈ [0, 1], ∃ y ∈ [(1 : VReg)], (vreg (two (vecs tag)) l y).tag ≠ ftag .f32 := by
  intro tag ht
  refine ⟨acts_vecs tag (by revert tag; decide), ?_⟩
  simp only [List.mem_cons, List.not_mem_nil, or_false] at ht
  rcases ht with rfl | rfl
  · exact ⟨⟨by decide, by decide⟩, by decide⟩
  · exact ⟨⟨by decide, by decide⟩, by decide⟩

/-- The largest finite code and the infinity of FP16, and the largest code of E4M3. -/
theorem witness_ExactResultsStand : (∀ n ∈ [0x7BFF, 0x7C00, 0x8000], n < 2 ^ (fm .f16).w ∧ ∀ b, (fm .f16).dec n ≠ .nan b) ∧
    (0x7E < 2 ^ (fm .e4m3).w ∧ ∀ b, (fm .e4m3).dec 0x7E ≠ .nan b) ∧ FFmt.f16 ≠ .s4 ∧ FFmt.f16 ≠ .cb4 := by decide

/-- A full path with a tile in `m1` and INT32 elements in `v1`. -/
def tiled (tag : Byte) (v : VVal) : State :=
  { full { running with v := [(1, v), (2, v)] } with
    groups := [(0, { Group.free with bound := true, rcb := 0x40, m := [(1, ⟨tag, 0, [(0, 0x3F80)]⟩)] })] }

/-- `QNT` without a scale and under square 16, of an FP32 and a BF16 tile, `DQNT` of a scaled E4M3 tile, and `CBLD` of BF16 entries. -/
theorem witness_TilesQuantisedAndCodebooks :
    (let s := tiled 0x10 ⟨0, 0x90⟩; s.Acts bare { WordSpec.var .c [] with mreads := [1] } (List.range 32) ∧
      tagOk (s.readM s.curG 1).tag = true ∧ tagFmt (s.readM s.curG 1).tag ≤ 3) ∧
    (let s := tiled 0x20 ⟨0x000000FF_00000080_00000000_0000007F, 0x90⟩;
      s.Acts bare { WordSpec.var .c [.v 1] with mreads := [1] } (List.range 32) ∧ tagOk (s.readM s.curG 1).tag = true ∧
      tagFmt (s.readM s.curG 1).tag ≤ 3 ∧ (∀ l ∈ List.range 32, (vreg s l 1).tag = 0x90#8) ∧
      ∀ n < blocks 1, 0 ≤ scaleElem s 1 1 n ∧ scaleElem s 1 1 n ≤ 255) ∧
    (let s := tiled 0x44 ⟨0, 0x90⟩; s.Acts bare { WordSpec.var .c [] with mreads := [1] } (List.range 32) ∧
      tagOk (s.readM s.curG 1).tag = true ∧ tagFmt (s.readM s.curG 1).tag ≠ 9) ∧
    (let s := tiled 0x20 ⟨0x3F80, 0x20⟩; s.Acts bare { WordSpec.var .c [] with lead := [.v 1, .v 2] } (0 :: (List.range 32).tail) ∧
      (vreg s 0 1).tag = 0x20#8 ∧ (vreg s 0 2).tag = 0x20#8) :=
  ⟨⟨acts (by decide) rfl, by decide, by decide⟩, ⟨acts (by decide) rfl, by decide, by decide, by decide, by decide⟩,
    ⟨acts (by decide) rfl, by decide, by decide⟩, acts (by decide) rfl, by decide, by decide⟩

/-! ## Witnesses: class 2 -/

/-- A thread with addresses and values: `g5` an index, `g6` a scratchpad address, `g8`–`g9` a pair of values, `g10` a virtual address. -/
def user : Thread := { running with g := [(5, 1), (6, 0x20000040), (8, 5), (9, 7), (10, 0x3000)] }

/-- Two lanes whose workgroup has, in `b1`, a record of sixteen 4-byte elements at 0x3000, and a record in memory there (R57). -/
def armed (x : Thread) : State :=
  { two x with
    wgs := [(0, { Workgroup.free with bound := true, zw := 0x10000, b := [(1, 0x00000010_00000004_00020000_00003000)] })]
    mem := pages.write 0x3000 16 0x00000010_00000004_00020000_00003000 }

/-- Some results, by lane. -/
def byLane {α : Type} (d : α) (l : List α) (i : Nat) : α := l.getD i d

/-- `LD` and `LDS` in two lanes that read the same element and the same word. -/
theorem witness_Loads :
    ((armed user).Acts bare (accessSpec [.g 5]) [0, 1] ∧ ∃ (s1 s2 : State) (q : Nat → Spot) (x : Nat → Nat),
      (AAddr.buf 1 5).spots (armed user) (armed user).curG Need.load 0 ITy.b32.bytes [0, 1] = (s1, [0, 1].map q) ∧ s1.hole = false ∧
      ReadSteps (armed user).curG ITy.b32.bytes none q x [0, 1] s1 s2) ∧
    ((armed user).Acts bare (accessSpec [.g 6]) [0, 1] ∧ ∃ (s1 s2 : State) (q : Nat → Spot) (x : Nat → Nat),
      (AAddr.sp ⟨6, some 8⟩).spots (armed user) (armed user).curG Need.load 0 ITy.b64.bytes [0, 1] = (s1, [0, 1].map q) ∧ s1.hole = false ∧
      ReadSteps (armed user).curG ITy.b64.bytes (some 4) q x [0, 1] s1 s2) := by
  refine ⟨⟨acts (by decide) rfl, _, _, byLane .drop [.mem (.lin 0x3004) 0x3004, .mem (.lin 0x3004) 0x3004], fun _ => 0x20000, rfl, rfl,
    _, rfl, _, rfl, rfl⟩,
    acts (by decide) rfl, _, _, byLane .drop [.sp 0x48 0x20000048, .sp 0x48 0x20000048], fun _ => 0, rfl, rfl, _, rfl, _, rfl, rfl⟩

/-- `ST` and `STS` in two lanes that store to one place: the later lane's bytes stand. -/
theorem witness_LoadsAndStores :
    ((armed user).Acts bare (accessSpec ([.g 5] ++ (Dat.g 9).regs .b32)) [0, 1] ∧
      (∀ l ∈ [0, 1], (armed user).storeData (tid (armed user).curG l) .b32 (.g 9) = .inl 7) ∧ ∃ (s1 : State) (q : Nat → Spot),
      (AAddr.buf 1 5).spots (armed user) (armed user).curG Need.store 1 ITy.b32.bytes [0, 1] = (s1, [0, 1].map q) ∧ s1.hole = false ∧
      (∀ l ∈ [0, 1], ∀ r, q l ≠ .bad r) ∧ ∀ l ∈ [0, 1], (armed user).spoiled (tid (armed user).curG l) = false) ∧
    ((armed user).Acts bare (accessSpec ([.g 6] ++ (Dat.g 9).regs .b32)) [0, 1] ∧ ∃ (s1 : State) (q : Nat → Spot),
      (AAddr.sp ⟨6, none⟩).spots (armed user) (armed user).curG Need.store 1 ITy.b32.bytes [0, 1] = (s1, [0, 1].map q) ∧ s1.hole = false ∧
      ∀ l ∈ [0, 1], ∀ r, q l ≠ .bad r) := by
  refine ⟨⟨acts (by decide) rfl, by decide, _, byLane .drop [.mem (.lin 0x3004) 0x3004, .mem (.lin 0x3004) 0x3004], rfl, rfl, ?_, by decide⟩,
    acts (by decide) rfl, _, byLane .drop [.sp 0x40 0x20000040, .sp 0x40 0x20000040], rfl, rfl, ?_⟩ <;>
  · intro l hl r
    simp only [List.mem_cons, List.not_mem_nil, or_false] at hl
    rcases hl with rfl | rfl <;> simp [byLane]

/-- An atomic of two lanes on one element of memory, and one on a word of the scratchpad. -/
theorem witness_Atomics : ITy.n32 ≠ .b128 ∧ ITy.b32.signed = false ∧
    ((armed user).Acts bare { accessSpec ([.g 5] ++ [.g 9]) with ends := true } [0, 1] ∧ ∃ (s1 u : State) (q : Nat → Spot) (o : Nat → Nat),
      (AAddr.buf 1 5).spots (armed user) (armed user).curG Need.atomic 2 4 [0, 1] = (s1, [0, 1].map q) ∧ s1.hole = false ∧
      (∀ l ∈ [0, 1], ∀ k d off va, q l ≠ .mem (.view k d off) va) ∧ (∀ l ∈ [0, 1], (armed user).spoiled (tid (armed user).curG l) = false) ∧
      AtomSteps (armed user).curG 4 .rlx .clus (fun _ o => o + 7) q o [0, 1] s1 u) ∧
    ((armed user).Acts bare { accessSpec ([.g 6] ++ [.g 8, .g 9]) with ends := true } [0, 1] ∧ ∃ (s1 u : State) (q : Nat → Spot) (o : Nat → Nat),
      (AAddr.sp ⟨6, none⟩).spots (armed user) (armed user).curG Need.atomic 2 4 [0, 1] = (s1, [0, 1].map q) ∧ s1.hole = false ∧
      (∀ l ∈ [0, 1], ∀ k d off va, q l ≠ .mem (.view k d off) va) ∧
      AtomSteps (armed user).curG 4 .ar .clus (fun _ o => if o = 5 then 7 else o) q o [0, 1] s1 u) := by
  refine ⟨by decide, rfl, ⟨acts (by decide) rfl, _, _, byLane .drop [.mem (.lin 0x3004) 0x3004, .mem (.lin 0x3004) 0x3004],
    byLane 0 [0x20000, 0x20007], rfl, rfl, ?_, by decide,
      _, ⟨rfl, _, rfl, rfl⟩, _, ⟨rfl, _, rfl, rfl⟩, rfl⟩,
    acts (by decide) rfl, _, _, byLane .drop [.sp 0x40 0x20000040, .sp 0x40 0x20000040], byLane 0 [0, 0], rfl, rfl, ?_,
      _, ⟨rfl, _, rfl, rfl⟩, _, ⟨rfl, _, rfl, rfl⟩, rfl⟩ <;>
  · intro l hl k d off va
    simp only [List.mem_cons, List.not_mem_nil, or_false] at hl
    rcases hl with rfl | rfl <;> simp [byLane]

/-- `PREF` of an element, the fences, and `BRLD` of the record in memory. -/
theorem witness_FencesAndRecords :
    ((armed user).Acts bare { WordSpec.fixC 1 [.g 5] with access := true } [0, 1] ∧ ∃ (s1 : State) (q : List Spot),
      (AAddr.buf 1 5).spots (armed user) (armed user).curG Need.load 0 ITy.b8.bytes [0, 1] = (s1, q) ∧ s1.hole = false) ∧
    (armed user).Acts bare (.var .c []) [0, 1] ∧
    ((armed user).Acts bare { accessSpec [] with lead := [.g 10] } [0, 1] ∧ ∃ (s1 : State) (r : W256),
      (armed user).readRecord (armed user).curG (tid (armed user).curG 0) (src (armed user) 0 (.g 10) + (0#16).signExtend 64) = (s1, .inl r) ∧
      s1.hole = false) :=
  ⟨⟨acts (by decide) rfl, _, _, rfl, rfl⟩, acts (by decide) rfl, acts (by decide) rfl, _, _, rfl, rfl⟩

/-- `LDX` of one element by two lanes into one scratchpad word. -/
theorem witness_ScratchpadLoads : (armed user).Acts bare { accessSpec [.g 5, .g 6] with ends := true, lat := some 1 } [0, 1] ∧
    (∀ l ∈ [0, 1], (armed user).ldxOwed (armed user).curG l = none) ∧ ∃ (y : Seen) (mv : Nat → Nat × Option Phys × Nat),
    Seen.each (ldxLane (armed user).curG 4 (fun l => (armed user).bufRec (tid (armed user).curG l) 1) (armed user) 6 5) [0, 1] ⟨armed user, []⟩ =
      (y, [0, 1].map fun l => .inl (mv l)) ∧ y.st.hole = false :=
  ⟨acts (by decide) rfl, by decide, _, fun _ => (0x40, some (.lin 0x3004), 0x3004), rfl, rfl⟩

/-- Page tables with a view page of each kind, their descriptors, the layout record of handle 0 (E2M1 under square 32, 32 × 32 elements), its scale
byte and two elements (R61–R67, R368, R369). -/
def tensors : Memory := [
    (0x103, 0x40), (0x10A, 0x10), (0x114, 0x01), (0x118, 0x01), (0x142, 0x20), (0x143, 0x40), (0x14A, 0x10), (0x154, 0x01), (0x158, 0x01),
    (0x182, 0x40), (0x183, 0x40), (0x18A, 0x10), (0x194, 0x01), (0x198, 0x01), (0x203, 0x40), (0x20A, 0x20), (0x20B, 0x40), (0x212, 0x40),
    (0x213, 0x40), (0x219, 0x03), (0x220, 0x01), (0x224, 0x20), (0x228, 0x20), (0x22C, 0x68), (0x300, 0x7F), (0x10000, 0x03), (0x10001, 0x10),
    (0x10002, 0x01), (0x11000, 0x1D), (0x11008, 0x03), (0x11009, 0x20), (0x1100A, 0x01), (0x12000, 0x0D), (0x12001, 0x01), (0x12006, 0x01),
    (0x12008, 0x4D), (0x12009, 0x01), (0x1200E, 0x02), (0x12010, 0x8D), (0x12011, 0x01), (0x12016, 0x03), (0x100000, 0x31)]

/-- A state over those tensors. -/
def overTensors (s : State) : State := { s with
  mem := tensors
  clusters := [(0, { Cluster.reset with region := some 0x40, phase := 0, res := { region with rtbase := 0x200 }, zs := 0x10000 })] }

/-- A pair whose second part is known. -/
theorem pairIs {α β : Type} {x : α × β} {b : β} (h : x.2 = b) : x = (x.1, b) := by rw [← h]

/-- The full path before a tile word, its layout, and what its lookups leave. -/
def tile0 : State := overTensors (tiled 0x68 ⟨0, 0x90⟩)
def tile1 : Seen × (Layout ⊕ LaneRes) := (⟨tile0, []⟩ : Seen).layout tile0.curG Need.load 0 0
def tileLay : Layout := ⟨0x68, 32, 32, false, 0x300, 0x40000000, 0x40200000, 0x40400000⟩
def tileSpot : TileAt := ⟨tileLay, false, 0, 0⟩
def tile2 : Seen × List (Nat × List Nat × (Phys × Nat ⊕ LaneRes)) := tileScales tile0.curG Need.load 0 tileSpot (List.range 32) tile1.1
def tileVals : State × List (Nat × List Nat × (Nat ⊕ LaneRes)) := readScales (tid tile0.curG 0) tile2.2 tile2.1.st
def tile3 : Seen × List (Nat × (Phys × Nat ⊕ LaneRes)) :=
  tileRows tile0.curG Need.load 0 tileSpot (afterRead tile2.2 tileVals.2) (List.range 32) ⟨tileVals.1, tile2.1.lines⟩
def tilePlace (i : Nat) : Phys := .view 3 (0x1000000010000000000000000001000000000000040400000#512) (32 * i)
def tileRow (i : Nat) : List Byte := if i = 0 then 0x31#8 :: List.replicate 15 0 else List.replicate 16 0

/-- `TLD` and `TST` of tile 0 of handle 0, the register's tile carrying the region's tag: the path, its layout, its coordinates. -/
theorem witness_Tiles_layout :
    (tile0.Acts bare { accessSpec [] with lead := [.g 5] } (List.range 32) ∧
      tile0.Acts bare { accessSpec [] with lead := [.g 5], mreads := [1] } (List.range 32)) ∧
    (⟨tile0, []⟩ : Seen).layout tile0.curG Need.load 0 0 = (tile1.1, .inl tileLay) ∧
    tileCheck tileLay (src tile0 0 (.g 5)) none = .inl tileSpot ∧
    tileCheck tileLay (src tile0 0 (.g 5)) (some (tile0.readM tile0.curG 1).tag) = .inl tileSpot :=
  ⟨⟨acts (by decide) rfl, acts (by decide) rfl⟩, pairIs (b := Sum.inl tileLay) (by decide +kernel), by decide +kernel, by decide +kernel⟩

/-- Its scale byte is read. -/
theorem witness_Tiles_scales : ∀ b ∈ tileVals.2, b.2.2 = .inl (0x7F) := by decide +kernel

/-- Its 32 rows have places in tensor storage. -/
theorem witness_Tiles_rows : tile3.2 = (List.range 32).map (fun i => (i, .inl (tilePlace i, tileSpot.rowVa i))) ∧ tile3.1.st.hole = false := by
  decide +kernel

/-- The bytes of its rows are read. -/
theorem witness_Tiles_bytes : (readRows tile0.curG tileSpot.rowLen ((List.range 32).map fun i => (i, .inl (tilePlace i, tileSpot.rowVa i)))
    tile3.1.st).2 = (List.range 32).map fun i => (i, .inl (tileRow i)) := by decide +kernel

/-- What the lookups of a store find: the layout again, the place of the scale byte and those of the rows. -/
def tile4 : Seen × (Layout ⊕ LaneRes) := (⟨tile0, []⟩ : Seen).layout tile0.curG Need.store 1 0
def tile5 : Seen × List (Nat × List Nat × (Phys × Nat ⊕ LaneRes)) := tileScales tile0.curG Need.store 1 tileSpot (List.range 32) tile4.1
def tile6 : Seen × List (Nat × (Phys × Nat ⊕ LaneRes)) := tileRows tile0.curG Need.store 1 tileSpot tile5.2 (List.range 32) tile5.1

theorem witness_Tiles_store : tile4.2 = .inl tileLay ∧ (∀ b ∈ tile5.2, b.2.2.isLeft = true) ∧
    tile6.2 = (List.range 32).map (fun i => (i, .inl (tilePlace i, tileSpot.rowVa i))) ∧ tile6.1.st.hole = false := by
  decide +kernel

/-! ## Witnesses: waits, copies -/

/-- Three threads of a spoke core, the first two with a word in issue: no `RECONV` of theirs can be released. -/
def third (x : Thread) : State := { armed x with threads := (List.range 3).map fun i => (tid 0 i, x) }

/-- An operand of 1 to 65,535, a barrier register of a spoke core, and an `nb` register of the bow. -/
theorem witness_BarriersAndWordWaits :
    noBar (armed user).curG (.nb 15) = false ∧ (armed user).Acts bare { engineSpec .a [.g 8] false with bow := true } [0, 1] ∧
    src (armed user) 0 (.g 8) ≠ 0 ∧ (src (armed user) 0 (.g 8)).toNat ≤ 65535 ∧
    (armed user).Acts bare { engineSpec .a [] true with bow := true } [0, 1] ∧
    ((armed user).Acts bare { WordSpec.var .a [] with bow := true } [0, 1] ∧ NoReconv (armed user) (fun _ => true) [0, 1]) ∧
    (noBar (bow running).curG (.nb 15) = true ∧ (bow running).Handled [0] ∧
      (bow running).Acts bare { WordSpec.var .a [] with bow := true } [0] ∧
      (bow running).Acts bare { engineSpec .a [] true with bow := true } [0] ∧
      (bow running).Acts bare { engineSpec .a [.g 8] false with bow := true } [0]) ∧
    ((armed user).Acts bare { WordSpec.var .a [.g 6, .g 9] with bow := true } [0, 1] ∧
      ∀ l ∈ [0, 1], (armed user).spCheck (armed user).curG 4 ((⟨6, none⟩ : SpOp).addr (src (armed user) l (.g 6))) = .inl 0x40 ∧
        (armed user).spLoad 0x40 4 ((⟨6, none⟩ : SpOp).addr (src (armed user) l (.g 6))) = .inl 0) := by
  exact ⟨by decide, acts (by decide) rfl, by decide, by decide, acts (by decide) rfl, ⟨acts (by decide) rfl, .inl (by decide)⟩,
    ⟨by decide, ⟨by decide, by decide⟩, acts (by decide) rfl, acts (by decide) rfl, acts (by decide) rfl⟩,
    acts (by decide) rfl, by decide⟩

/-- A copy record at 0x40 of the scratchpad: elements of one byte from 0x80 to 0x90, `n` of them (R241). -/
def copyRecord (n : Nat) : Memory := (Memory.write [] 0x40 2 0x11).write 0x48 24 (0x20000080 + 0x20000090 * 2 ^ 64) |>.write 0x80 16 (n + 2 ^ 32 + 2 ^ 80)

/-- A clause of one `CPY` or `CPYW` that waits for its acceptance. -/
def waiting (i : Instr) (n : Nat) : State :=
  let y : Sel := ⟨0, 3, 0x2000, (encodeClause i).headD 0, (encodeClause i).drop 1, 0, 0, .copy 3 0x20000040 0x20000100 1⟩
  { armed user with sp := copyRecord n, cores := [(0, ⟨15, [y]⟩)] }

/-- Before acceptance, at acceptance of an empty copy and of one element, with a full queue, and at completion. -/
theorem witness_Copies_words : (armed user).Acts bare (copySpec [.g 6]) [0, 1] ∧ (armed user).Acts bare (copySpec [.g 6, .g 6, .g 8]) [0, 1] :=
  ⟨acts (by decide) rfl, acts (by decide) rfl⟩

/-- The state at the copy word. -/
def atCopy (i : Instr) (n : Nat) : State := let s := waiting i n; { s with cur := (((s.core 0).sels.headD ⟨0, 0, 0, 0, [], 0, 0, .no⟩).cur 0) }

/-- What an acceptance answers. -/
def accepted (i : Instr) (fin : CopyEnd) (n : Nat) : State × ((Nat × CopyRec × List (CopyPlace × CopyPlace)) ⊕ LaneRes) :=
  copyAccept (atCopy i n).curG 0x20000040 fin (atCopy i n)

/-- A full queue. -/
def stuffed (n : Nat) : State :=
  { waiting (.cpy bare (some (.nb 15)) 6) n with copyq := [(0, List.replicate 16 ⟨1, 0, 1, [], none, none, false, 0⟩)] }

theorem witness_Copies_full : (stuffed 1).copyFull 0 0x20000040 = true := by decide +kernel

theorem witness_Copies_accepted :
    (let s := waiting (.cpy bare (some (.nb 15)) 6) 1; let s0 := atCopy (.cpy bare (some (.nb 15)) 6) 1;
      ∃ y, InIssue s 0 0 y ∧ y.held = .copy 3 0x20000040 0x20000100 1 ∧ s0.Calm ∧ s0.nextInstr y 0 = .ok (.cpy bare (some (.nb 15)) 6) ∧
        noBar s0.curG (.nb 15) = false ∧ s0.copyFull s0.curG 0x20000040 = false ∧ (accepted (.cpy bare (some (.nb 15)) 6) (.bar (some (.nb 15))) 1).1.hole = false ∧
        ∃ r, (accepted (.cpy bare (some (.nb 15)) 6) (.bar (some (.nb 15))) 1).2 = .inl (0, r, [(.sp 0x80, .sp 0x90)]) ∧ r.empty = false) ∧
    (let s0 := atCopy (.cpyw bare .b32 .lane 6 6 8) 0;
      s0.Calm ∧ (∃ y, s0.nextInstr y 0 = .ok (.cpyw bare .b32 .lane 6 6 8)) ∧ s0.copyFull s0.curG 0x20000040 = false ∧
        (accepted (.cpyw bare .b32 .lane 6 6 8) (.word 4 0x20000100 Scope.lane.code) 0).1.hole = false ∧
        ∃ r, (accepted (.cpyw bare .b32 .lane 6 6 8) (.word 4 0x20000100 Scope.lane.code) 0).2 = .inl (0, r, []) ∧ r.empty = true) := by
  refine ⟨⟨_, rfl, rfl, calm (by decide +kernel), rfl, by decide, by decide +kernel, by decide +kernel,
    ⟨1, 1, 1, 0, 0, 0x20000080, 0x20000090, false, 0, 0, [(1, 1, 1)]⟩, by decide +kernel, by decide⟩, calm (by decide +kernel),
    ⟨((waiting (.cpyw bare .b32 .lane 6 6 8) 0).core 0).sels.headD ⟨0, 0, 0, 0, [], 0, 0, .no⟩, rfl⟩, by decide +kernel, by decide +kernel,
    ⟨1, 1, 1, 0, 0, 0x20000080, 0x20000090, false, 0, 0, [(1, 1, 0)]⟩, by decide +kernel, by decide⟩

/-- A command at the head of queue 0, one element left of it, or none, and its operation. -/
def copying (l : List (CopyPlace × CopyPlace)) (w : Option (Nat × Nat × W64 × BitVec 4)) : State :=
  { State.reset with copyq := [(0, [⟨7, 0, 1, l, none, w, false, 0⟩])], ops := [⟨7, 0, 1, none, 0, false, some 0, [], .copyIn⟩] }

theorem quiet (s : State) (h : s.hole = false ∧ s.samples = [] ∧ s.parks = [] ∧ s.latent = [] ∧ s.threads = []) : Quiet s := by
  obtain ⟨a, b, c, d, e⟩ := h
  exact ⟨a, b, c, d, fun t => by simp [State.thr, e, mget, Thread.blank]⟩

theorem witness_Copies_ends : (∀ l w, Quiet (copying l w) ∧ (copying l w).copies 0 = [⟨7, 0, 1, l, none, w, false, 0⟩] ∧
      ((copying l w).ops.find? fun o => o.id == 7) = some ⟨7, 0, 1, none, 0, false, some 0, [], .copyIn⟩ ∧
      (copying l w).joinsGone [] = true ∧ OneOfBow 0 1) ∧
    (∀ e ∈ [((.sp 0x80 : CopyPlace), (.sp 0x90 : CopyPlace))], ∀ b, e.1 = .data b → b.length = 1) :=
  ⟨fun _ _ => ⟨quiet _ ⟨rfl, rfl, rfl, rfl, rfl⟩, rfl, rfl, rfl, fun h => by revert h; decide⟩,
    fun e he b hb => by simp only [List.mem_singleton] at he; subst he; exact CopyPlace.noConfusion hb⟩
/-! ## Witnesses: queues, the merge tree, graph queues -/

theorem witness_QueueWords :
    (∀ b, (armed user).Acts bare (engineSpec .c [] b) [0, 1]) ∧
    ((armed user).Acts bare (engineSpec .c [.g 6] true) [0, 1] ∧ (armed user).spRange (armed user).curG 64 64 (src (armed user) 0 (.g 6)) = .inl 0x40 ∧
      (armed user).spLoad 0x40 64 (src (armed user) 0 (.g 6)) = .inl 0) ∧
    (armed user).Acts bare (engineSpec .a [.g 8] false) [0, 1] :=
  ⟨fun b => by cases b <;> exact acts (by decide) rfl, ⟨acts (by decide) rfl, by decide, by decide⟩, acts (by decide) rfl⟩

/-- The tensors, their layout FP32 without scales, under one lane. -/
def plainTensor : State :=
  let s := overTensors (issue 0 0 2 1 running)
  { s with mem := (tensors.write 0x22C 1 0x10).write 0x120 1 2 |>.write 0x160 1 2 |>.write 0x1A0 1 2 }
/-- The merge tree of cluster 0 with no stream left, free, held by the workgroup of the path, or by another. -/
def tree (h : Option Nat) (l : List Stream) : State :=
  { armed user with
    sp := [(0x40, 1), (0x61, 0x30), (0x69, 0x31), (0x70, 1)]
    clusters := [(0, { Cluster.reset with region := some 0x40, res := region, zs := 0x10000, mHolder := h, mStreams := l })] }

/-- A merge tree behind a join. -/
def late : State :=
  { tree (some 0) [] with joins := [⟨9, 0, 32, [3]⟩] }

theorem witness_MergeTree_late : late.Acts bare { WordSpec.var .c [] with ends := true } [0, 1] ∧ late.Acts bare (engineSpec .c [] true) [0, 1] ∧
    (late.cl 0).mHolder = some (late.grp late.curG).wg ∧ late.closing late.curG = false ∧ late.treeLate late.cur.core = true :=
  ⟨acts (by decide) rfl, acts (by decide) rfl, rfl, rfl, by decide⟩

/-- A stream of two entries, its coordinates 5 and 3, or 5 and 7. -/
def stream (y : Nat) : Memory := (pages.write 0x3000 4 5).write 0x3004 4 y
def offending : State := { tree (some 0) [⟨2, 0, 0x3000, 0x3100, [(0x3000 / 4096, .lin 0x3000)]⟩] with mem := stream 3 }

/-- Opened by one word, in a table of one stream. -/
def opening : State := { tree none [] with mem := stream 7 }
def opened : State × (List Stream ⊕ LaneRes) := opening.readTree opening.curG (src opening 0 (.g 6))

theorem witness_MergeTree_open :
    (opening.joined opening.cur.core 5 = false ∧ opening.Acts bare (engineSpec .c [.g 6] true) [0, 1] ∧ (opening.cl 0).mHolder = none ∧
      opened.1.hole = false ∧ opened.2 = .inl [⟨1, 0, 0x3000, 0x3100, [(3, .lin 0x3000), (3, .lin 0x3000)]⟩]) ∧
    (let s := tree (some 1) []; s.Acts bare (engineSpec .c [.g 6] true) [0, 1] ∧ (s.cl 0).mHolder ≠ none ∧
      (s.cl 0).mHolder ≠ some (s.grp s.curG).wg ∧ NoReconv s (fun _ => true) [0, 1]) ∧
    (let s := tree (some 0) []; s.Acts bare (engineSpec .c [.g 6] true) [0, 1] ∧ (s.cl 0).mHolder = some (s.grp s.curG).wg ∧ s.closing s.curG = false ∧ s.Handled [0, 1]) :=
  ⟨⟨rfl, acts (by decide) rfl, rfl, by decide +kernel, by decide +kernel⟩, ⟨acts (by decide) rfl, by decide, by decide, .inl (by decide)⟩,
    acts (by decide) rfl, rfl, rfl, by decide, by decide⟩

def pulling (y : Nat) : State :=
  { tree (some 0) [⟨2, 0, 0x3000, 0x3100, [(3, .lin 0x3000)]⟩] with mem := stream y }

theorem witness_MergeTree_pull :
    (∀ y ∈ [7, 3], (pulling y).Acts bare { WordSpec.var .c [] with ends := true } [0, 1] ∧ (pulling y).closing 0 = false ∧ (pulling y).treeLate 0 = false ∧
      ∀ z ∈ ((pulling y).cl 0).mStreams, (pulling y).streamLatent z = none) ∧
    ((∀ y, ¬Offends (pulling 7) 0 ((pulling 7).cl 0).mStreams y) ∧
      MergeSteps (pulling 7) 0 false 2 [(5, 0, 0), (7, 0, 0)] ((pulling 7).cl 0).mStreams [⟨2, 2, 0x3000, 0x3100, [(3, .lin 0x3000)]⟩]) ∧
    (Offends (pulling 3) 0 ((pulling 3).cl 0).mStreams 3 ∧ (∀ y, Offends (pulling 3) 0 ((pulling 3).cl 0).mStreams y → 3 ≤ y) ∧
      (∀ z ∈ ((pulling 3).cl 0).mStreams, z.pos < z.len → 3 ≤ (pulling 3).streamCoord 0 z z.pos) ∧ (pulling 3).Handled [0, 1]) := by
  refine ⟨?_, ⟨?_, ⟨_, ⟨⟨_, List.mem_singleton.2 rfl, by decide +kernel⟩, by decide +kernel, by decide +kernel, rfl⟩, _,
    ⟨⟨_, List.mem_singleton.2 rfl, by decide +kernel⟩, by decide +kernel, by decide +kernel, rfl⟩, rfl, by decide +kernel⟩⟩,
    ⟨_, List.mem_singleton.2 rfl, 1, by decide, by decide, by decide +kernel, .inr ⟨by decide, by decide +kernel⟩⟩, ?_, by decide +kernel, by decide, by decide⟩
  · intro y hy
    simp only [List.mem_cons, List.not_mem_nil, or_false] at hy
    rcases hy with rfl | rfl <;> exact ⟨acts (by decide) rfl, rfl, rfl, by decide⟩
  · rintro y ⟨x, hx, j, h1, h2, h3, h4⟩
    have hx : x = ⟨2, 0, 0x3000, 0x3100, [(3, .lin 0x3000)]⟩ := List.mem_singleton.1 hx
    subst hx h3
    have hj : j = 0 ∨ j = 1 := by simp at h2; omega
    rcases hj with rfl | rfl
    · exact absurd h4 (by decide +kernel)
    · exact absurd h4 (by decide +kernel)
  · rintro y ⟨x, hx, j, h1, h2, h3, h4⟩
    have hx : x = ⟨2, 0, 0x3000, 0x3100, [(3, .lin 0x3000)]⟩ := List.mem_singleton.1 hx
    subst hx h3
    have hj : j = 0 ∨ j = 1 := by simp at h2; omega
    rcases hj with rfl | rfl <;> decide +kernel

/-- `MRGCLOSE` with no path that sleeps for the tree, and with one; and words of a workgroup that does not hold it. -/
def closing : State := { opening with
  clusters := [(0, { Cluster.reset with region := some 0x40, res := region, zs := 0x10000, mHolder := some 0 })]
  sleepers := [⟨9, 1, 1, 0x2000, 0x2008, none, 0, .mrgopen true 0x20000040⟩]
  groups := [(0, { Group.free with bound := true, rcb := 0x40 }), (1, { Group.free with bound := true, rcb := 0x40, wg := 1 })]
  wgs := [(0, { Workgroup.free with bound := true, zw := 0x10000 }), (1, { Workgroup.free with bound := true, zw := 0x10000 })] }

def handed : State × (List Stream ⊕ LaneRes) :=
  (closing.setCl 0 { closing.cl 0 with mHolder := none, mStreams := [] }).readTree 1 0x20000040

theorem witness_MergeTree_close :
    (let s := tree (some 0) []; s.Acts bare (engineSpec .c [] true) [0, 1] ∧ (s.cl 0).mHolder = some (s.grp s.curG).wg ∧ s.closing s.curG = false ∧
      s.treeLate s.cur.core = false ∧ s.sleepers = []) ∧
    (closing.Acts bare (engineSpec .c [] true) [0, 1] ∧ (closing.cl 0).mHolder = some (closing.grp closing.curG).wg ∧
      ∃ z, closing.sleepers = [z] ∧ z.kind = .mrgopen true 0x20000040 ∧ coreCluster (groupCore z.group) = 0 ∧ OneOfBow z.group z.lanes ∧
        handed.1.hole = false ∧ handed.2 = .inl [⟨1, 0, 0x3000, 0x3100, [(3, .lin 0x3000), (3, .lin 0x3000)]⟩]) ∧
    (let s := tree (some 1) []; (s.cl 0).mHolder ≠ some (s.grp s.curG).wg ∧ s.Handled [0, 1] ∧
      s.Acts bare { WordSpec.var .c [] with ends := true } [0, 1] ∧ s.Acts bare (engineSpec .c [] true) [0, 1]) :=
  ⟨⟨acts (by decide) rfl, rfl, rfl, rfl, rfl⟩, ⟨acts (by decide) rfl, rfl, _, rfl, rfl, rfl, fun h => absurd h (by decide), by decide +kernel, by decide +kernel⟩,
    by decide, ⟨by decide, by decide⟩, acts (by decide) rfl, acts (by decide) rfl⟩

/-- Four graph queues with descriptors at 0x3000: queue 0 of one slot at 0x4000, its HEAD 0 and its TAIL as given. -/
def queues (tail : Nat) : State :=
  { armed user with
    mem := (pages.write 0x3000 8 0x4000).write 0x3008 4 tail
    clusters := [(0, { Cluster.reset with region := some 0x40, res := { region with gqbase := 0x3000 }, zs := 0x10000 })] }

/-- The first `EMIT` of a path of two lanes goes in and the second finds the queue full. -/
def emitted (n : Nat) : State × List (Nat × BitVec 16 × W512) × List (Nat × LaneRes) :=
  State.emitAll 0 ((List.range n).map fun l => (l, 0, 0)) (queues 0)

theorem witness_GraphRecords :
    ((queues 0).Acts bare { WordSpec.var .c [.g 7, .g 6] with ends := true } [0, 1] ∧
      (∀ l ∈ [0, 1], ((src (queues 0) l (.g 7)).setWidth 16 : BitVec 16).toNat < ((queues 0).grpRes (queues 0).curG).gqcount.toNat ∧
        (queues 0).spRange (queues 0).curG 64 64 (src (queues 0) l (.g 6)) = .inl 0x40 ∧ (queues 0).spLoad 0x40 64 (src (queues 0) l (.g 6)) = .inl 0) ∧
      (emitted 1).1.hole = false ∧ (emitted 1).2 = ([], []) ∧ (emitted 2).1.hole = false ∧ (emitted 2).2 = ([(1, 0, 0)], []) ∧
      NoReconv (queues 0) (fun _ => true) [0, 1]) ∧
    (let r := (⟨queues 0, []⟩ : Seen).reach 0 Need.atomic 4 0x3000; let w := r.1.reach 0 Need.store 4 0x4000;
      r.2 = .inl (.lin 0x3000) ∧ w.2 = .inl (.lin 0x4000) ∧ ((queues 0).emitOne 0 0 0).2 = .done ∧ r.1.st.readPhys 200000 (.lin 0x3000) 64 = 0x4000) :=
  ⟨⟨acts (by decide) rfl, by decide, by decide +kernel, by decide +kernel, by decide +kernel, by decide +kernel, .inl (by decide)⟩,
    by decide +kernel, by decide +kernel, by decide +kernel, by decide +kernel⟩
/-! ## Witnesses: gathers, tile words, bow words -/

def plainLay : Layout := ⟨0x10, 32, 32, false, 0x300, 0x40000000, 0x40200000, 0x40400000⟩
def gather0 : Seen × (Layout ⊕ LaneRes) := (⟨plainTensor, []⟩ : Seen).layout 0 (Need.load.by (gatherBlock 0)) 8 0
def gather1 : Seen × List (GatherCell ⊕ LaneRes) := Seen.each (gatherElem 0 plainLay 0) ((List.range 4).map (0 + ·)) gather0.1

/-- Outcomes that are all values. -/
theorem lefts {α β : Type} (l : List (α ⊕ β)) (d : α) (n : Nat) (hn : l.length = n) (h : l.all Sum.isLeft = true) :
    l = (List.range n).map fun j => .inl ((l[j]?.bind Sum.getLeft?).getD d) := by
  subst hn
  refine List.ext_getElem (by simp) fun i h1 h2 => ?_
  have := List.all_eq_true.1 h l[i] (List.getElem_mem h1)
  simp only [List.getElem_map, List.getElem_range, List.getElem?_eq_getElem h1, Option.bind_some]
  cases e : l[i] with
  | inl a => rfl
  | inr b => rw [e] at this; exact Bool.noConfusion this

/-- The place of element j of the row. -/
def rowCell (j : Nat) : GatherCell := (gather1.2[j]?.bind Sum.getLeft?).getD none

/-- One lane that gathers four FP32 elements, an element read and one beyond the last column, and a queue held back by a join. -/
theorem witness_Gathers :
    (plainTensor.joined plainTensor.cur.core 4 = false ∧ plainTensor.Acts bare (accessSpec ([] ++ [.g 7])) [0] ∧
      GatherSteps plainTensor 4 (.k 0) 7 (fun _ => plainLay) (fun _ => rowCell) [0] ⟨plainTensor, []⟩ gather1.1 ∧ gather1.1.st.hole = false) ∧
    (gatherElem 0 plainLay 0 ⟨plainTensor, []⟩ 32).2 = .inl none ∧
    (let s := { plainTensor with joins := [⟨9, 0, 16, [7]⟩] }; s.joined s.cur.core 4 = true ∧ s.hole = false) := by
  refine ⟨⟨rfl, acts (by decide) rfl, ⟨gather0.1, gather1.1, ?_, ?_, ?_, ?_, rfl⟩, ?_⟩, rfl, by decide, rfl⟩
  · exact pairIs (b := Sum.inl plainLay) (by decide +kernel)
  · decide
  · decide
  · exact pairIs (lefts gather1.2 none 4 (by decide +kernel) (by decide +kernel))
  · decide +kernel

/-- A full path with a tile in `m1` and course 1 of its cluster as given. -/
def course1 (tag : Byte) (y : Course) : State := { tiled tag ⟨0, 0x90⟩ with courses := [(1, y)] }

/-- Course 1 with a free A queue, and with four tiles in it. -/
theorem witness_TileWords :
    (∀ e ∈ [(0x40#8, 0), (0x40#8, 4), (0xA0#8, 3)], let s := course1 e.1 { Course.zero with aQueue := List.replicate e.2 MVal.zero }
      s.Acts bare { engineSpec .c [] true with mreads := [1] } (List.range 32) ∧ (src s 0 (.k 1)).toNat < 8 ∧
        (s.course (courseAt s (src s 0 (.k 1)))).retired = false ∧ tagOk (s.readM s.curG 1).tag = true ∧
        (2 ≤ tagFmt (s.readM s.curG 1).tag ∧ tagFmt (s.readM s.curG 1).tag ≤ 8 ∨ tagFmt (s.readM s.curG 1).tag = 10) ∧
        NoReconv s (fun _ => true) (List.range 32)) ∧
    (∀ n ∈ [0, 1], let s := course1 0x40 { Course.zero with results := List.replicate n MVal.zero }
      s.Acts bare (engineSpec .c [] true) (List.range 32) ∧ (s.course (courseAt s 1)).results = List.replicate n MVal.zero ∧
        Alone s (courseAt s 1) ∧ NoReconv s (fun _ => true) (List.range 32)) ∧
    (let s := tiled 0x10 ⟨0, 0x90⟩; s.Acts bare (tileSpec 8 none []) (List.range 32) ∧ s.Acts bare (tileSpec 8 (some 1) []) (List.range 32) ∧
      s.Acts bare (tileSpec 16 (some 1) []) (List.range 32) ∧ tagOk (s.readM s.curG 1).tag = true ∧ tagGeom (s.readM s.curG 1).tag = 0 ∧
      tagFmt (s.readM s.curG 1).tag ≤ 3) ∧
    ((∀ w ∈ [{ engineSpec .c [] true with mreads := [1] }, engineSpec .c [] true, tileSpec 8 none [], tileSpec 8 (some 1) [],
      tileSpec 16 (some 1) []], (two running).Acts bare w [0, 1]) ∧ (two running).Handled [0, 1]) := by
  refine ⟨?_, ?_, ⟨acts (by decide) rfl, acts (by decide) rfl, acts (by decide) rfl, by decide, by decide, by decide⟩, ?_, by decide, by decide⟩
  · intro e he
    simp only [List.mem_cons, List.not_mem_nil, or_false] at he
    rcases he with rfl | rfl | rfl <;> exact ⟨acts (by decide) rfl, by decide, by decide, by decide, by decide, .inl (by decide)⟩
  · intro n hn
    simp only [List.mem_cons, List.not_mem_nil, or_false] at hn
    rcases hn with rfl | rfl <;> exact ⟨acts (by decide) rfl, rfl, ⟨fun z h => absurd h List.not_mem_nil, fun o l h => absurd (show ([] : List HarpCmd) = o :: l from h) (List.cons_ne_nil _ _).symm⟩, .inl (by decide)⟩
  · intro w hw
    simp only [List.mem_cons, List.not_mem_nil, or_false] at hw
    rcases hw with rfl | rfl | rfl | rfl | rfl <;> exact acts (by decide) rfl

/-- The bow over a tensor of a layout tag, with `n` operations in the queue of course 1. -/
def bowTensor (lay n : Nat) : State :=
  let s := overTensors (bow running)
  { s with
    mem := tensors.write 0x22C 1 lay
    courses := [(1, { Course.zero with ops := List.replicate n ⟨9, 0, .mmul ⟨0, 0, 0⟩ []⟩ })] }

theorem witness_BowWords_plain :
    (∀ n ∈ [0, 15, 16], let s := bowTensor 0x10 n
      isBow s.cur.core = true ∧ (src s 0 (.k 1)).toNat < 8 ∧ (s.course (courseAt s (src s 0 (.k 1)))).retired = false ∧
      (s.course (courseAt s (src s 0 (.k 1)))).ops.length = n ∧ s.Acts bare (bowSpec []) [0] ∧ s.Acts bare { WordSpec.var .c [] with bow := true } [0] ∧
      NoReconv s (fun _ => true) [0]) := by
  intro n hn
  simp only [List.mem_cons, List.not_mem_nil, or_false] at hn
  rcases hn with rfl | rfl | rfl <;> exact ⟨rfl, by decide, by decide, by decide, acts (by decide) rfl, acts (by decide) rfl, .inl (by decide)⟩

/-! ### The places of a tile's elements (`MLDA`, `MLDB`, `MACC`, `MSTC`) -/

/-- An outcome that is a line whose every byte lies in the cluster of a group. -/
def homeView (g : Nat) : Tr → Bool
  | .ok p => (List.range 128).all fun k => (p.add k).localTo (coreCluster (groupCore g))
  | _ => false

/-- The translations of a word stand at a state, and every line of a list that was looked up is such a line. -/
def Warm (g : Nat) (n : Need) (s : State) (A : List Nat) (x : Seen) : Prop :=
  x.st = s ∧ ∀ l ∈ x.lines, l.2.1 = n → l.1 ∈ A → homeView g l.2.2 = true

theorem homeView_within {g : Nat} {r : Tr} (va : Nat) (h : homeView g r = true) :
    ∃ p, r.within va = .ok p ∧ p.localTo (coreCluster (groupCore g)) = true := by
  match r, h with
  | .ok p, h => exact ⟨_, rfl, List.all_eq_true.1 h _ (List.mem_range.2 (Nat.mod_lt _ (by decide)))⟩

theorem warm_place {g : Nat} {n : Need} {s : State} {A : List Nat} {x : Seen} (acc va : Nat) (hx : Warm g n s A x)
    (hA : ∀ a ∈ A, (s.translateLine (groupCore g) (s.grpRes g) n a).1 = s ∧ homeView g (s.translateLine (groupCore g) (s.grpRes g) n a).2 = true)
    (hv : va < 2 ^ 48) (ha : va / 128 * 128 ∈ A) : ∃ x' p, x.place g n acc va = (x', .inl p) ∧ Warm g n s A x' := by
  obtain ⟨rfl, hl⟩ := hx
  obtain ⟨h1, h2⟩ := hA _ ha
  have hv : ¬va ≥ 2 ^ 48 := by omega
  unfold Seen.place Seen.reach
  rw [if_neg hv]
  unfold Seen.tr
  cases hf : x.lines.find? fun l => l.1 == va / 128 * 128 && l.2.1 == n with
  | some l =>
    have hm := List.mem_of_find?_eq_some hf
    have hq := List.find?_some hf
    simp only [Bool.and_eq_true, beq_iff_eq] at hq
    obtain ⟨p, e, k⟩ := homeView_within va (hl l hm hq.2 (hq.1 ▸ ha))
    exact ⟨x, p, by simp [hf, e, k], rfl, hl⟩
  | none =>
    obtain ⟨p, e, k⟩ := homeView_within va h2
    refine ⟨⟨x.st, x.lines ++ [(va / 128 * 128, n, (x.st.translateLine (groupCore g) (x.st.grpRes g) n (va / 128 * 128)).2)]⟩, p, ?_, rfl, ?_⟩
    · simp [hf, h1, e, k]
    · intro l hm hn hA'
      rcases List.mem_append.1 hm with hm | hm
      · exact hl l hm hn hA'
      · rw [List.mem_singleton.1 hm]; exact h2

theorem firstBad_inl {α : Type} (l : List α) : firstBad (l.map (Sum.inl (β := LaneRes))) = .inl l := by
  induction l with
  | nil => rfl
  | cons a l ih => simp [firstBad, ih]

/-- All places of some elements are found where every element's line is one of the list. -/
theorem warm_cells {g : Nat} {n : Need} {s : State} {A : List Nat} (lay : Layout) (view : Nat) (l : List (Nat × Nat × Nat))
    (hA : ∀ a ∈ A, (s.translateLine (groupCore g) (s.grpRes g) n a).1 = s ∧ homeView g (s.translateLine (groupCore g) (s.grpRes g) n a).2 = true)
    (hl : ∀ e ∈ l, let va := lay.elemVa view e.2.1 (if lay.pairs then e.2.2 / 2 else e.2.2); va < 2 ^ 48 ∧ va / 128 * 128 ∈ A) :
    ∀ x, Warm g n s A x → ∃ (x' : Seen) (bs : List (Nat × Phys × Bool)), Seen.each (cellPlace g n lay view) l x = (x', bs.map .inl) ∧ Warm g n s A x' := by
  induction l with
  | nil => exact fun x h => ⟨x, [], rfl, h⟩
  | cons e l ih =>
    intro x hx
    obtain ⟨hv, ha⟩ := hl e (List.mem_cons_self ..)
    obtain ⟨x1, p, e1, h1⟩ := warm_place 5 _ hx hA hv ha
    obtain ⟨x2, bs, e2, h2⟩ := ih (fun e' h => hl e' (List.mem_cons_of_mem _ h)) x1 h1
    exact ⟨x2, (e.1, p, lay.pairs && e.2.2 % 2 == 1) :: bs, by simp [Seen.each, cellPlace, e1, e2], h2⟩

/-- Memory with a tensor of E4M3 elements without scales, and of FP32 elements. -/
def narrowMem : Memory := [
    (0x103, 0x40), (0x10A, 0x10), (0x114, 0x01), (0x118, 0x01), (0x142, 0x20), (0x143, 0x40), (0x14A, 0x10), (0x154, 0x01), (0x158, 0x01),
    (0x182, 0x40), (0x183, 0x40), (0x18A, 0x10), (0x194, 0x01), (0x198, 0x01), (0x203, 0x40), (0x20A, 0x20), (0x20B, 0x40), (0x212, 0x40),
    (0x213, 0x40), (0x219, 0x03), (0x220, 0x01), (0x224, 0x20), (0x228, 0x20), (0x22C, 0x40), (0x300, 0x7F), (0x10000, 0x03),
    (0x10001, 0x10), (0x10002, 0x01), (0x11000, 0x1D), (0x11008, 0x03), (0x11009, 0x20), (0x1100A, 0x01), (0x12000, 0x0D), (0x12001, 0x01),
    (0x12006, 0x01), (0x12008, 0x4D), (0x12009, 0x01), (0x1200E, 0x02), (0x12010, 0x8D), (0x12011, 0x01), (0x12016, 0x03), (0x100000, 0x31)]
def wideMem : Memory := [
    (0x103, 0x40), (0x10A, 0x10), (0x114, 0x01), (0x118, 0x01), (0x120, 0x02), (0x142, 0x20), (0x143, 0x40), (0x14A, 0x10), (0x154, 0x01),
    (0x158, 0x01), (0x160, 0x02), (0x182, 0x40), (0x183, 0x40), (0x18A, 0x10), (0x194, 0x01), (0x198, 0x01), (0x1A0, 0x02), (0x203, 0x40),
    (0x20A, 0x20), (0x20B, 0x40), (0x212, 0x40), (0x213, 0x40), (0x219, 0x03), (0x220, 0x01), (0x224, 0x20), (0x228, 0x20), (0x22C, 0x10),
    (0x300, 0x7F), (0x10000, 0x03), (0x10001, 0x10), (0x10002, 0x01), (0x11000, 0x1D), (0x11008, 0x03), (0x11009, 0x20), (0x1100A, 0x01),
    (0x12000, 0x0D), (0x12001, 0x01), (0x12006, 0x01), (0x12008, 0x4D), (0x12009, 0x01), (0x1200E, 0x02), (0x12010, 0x8D), (0x12011, 0x01),
    (0x12016, 0x03), (0x100000, 0x31)]
/-- The bow over such a memory. -/
def bowOver (mem : Memory) : State := { overTensors (bow running) with mem := mem, courses := [(1, Course.zero)] }
def bowNarrow : State := bowOver narrowMem
def bowWide : State := bowOver wideMem
/-- The translations that the lookups of a layout and of its tile leave, for elements of size code `e`, and the layout record. -/
def bowDesc (e page : Nat) : W512 := BitVec.ofNat 512 (e * 2 ^ 256 + 0x1000000010000000000000000001000000000000000000000 + page)
def bowTlb (page leaf size : Nat) (d : W512) : List TlbEnt := [272, 16].map fun k => ⟨k, 0, false, page, BitVec.ofNat 64 leaf, size, d⟩
def bowStill (s : State) (e tag : Nat) : State :=
  { s with
    tlb := bowTlb 0x40400000 0x300000000018D 0x200000 (bowDesc e 0x40400000) ++ bowTlb 0x40200000 0x200000000014D 0x200000 (bowDesc e 0x40200000) ++
      bowTlb 0x40000000 0x100000000010D 0x200000 (bowDesc e 0x40000000) ++ bowTlb 0 0x1D 0x40000000 0
    tabs := [⟨0, 0, false, 0x11008, 0x12003⟩, ⟨0, 0, false, 0x10000, 0x11003⟩]
    layouts := [⟨0, 0, false, 0, BitVec.ofNat 512 (tag * 2 ^ 352 + 0x2000000020000000010000000000000300 * 2 ^ 192 + 0x404000000000000040200000 * 2 ^ 64 + 0x40000000)⟩] }
/-- The layout of those tensors. -/
def bowLay (tag : Byte) : Layout := ⟨tag, 32, 32, false, 0x300, 0x40000000, 0x40200000, 0x40400000⟩
/-- What the layout's lookup leaves, and the place of the first element. -/
def bowSeen (s : State) (n : Need) : Seen := (bowLayout s.curG (tid s.curG 0) n (.k 0) none ⟨s, []⟩).1
def bowFirst (s : State) (n : Need) : Seen × (Phys ⊕ LaneRes) := (bowSeen s n).place s.curG n 5 0x40400000
/-- The lines of a tile of `m` lines. -/
def tileLines (m : Nat) : List Nat := (List.range m).map fun i => 0x40400000 + 128 * i

/-- The layout, the first place, and what they leave. -/
def captured (s t : State) (n : Need) (m : Nat) (tag : Byte) : Bool :=
  (match bowLayout s.curG (tid s.curG 0) n (.k 0) none ⟨s, []⟩ with
    | (_, .inl (lay, x)) => decide (lay = bowLay tag) && x == 0
    | _ => false) &&
  (match bowFirst s n with
    | (f, p) => p.isLeft && decide (f.st = t) && f.lines.all fun l => decide (l.2.1 ≠ n) || !(tileLines m).contains l.1 || homeView s.curG l.2.2)
/-- A line is found in the caches; four lines together; every line of the tile. -/
def stillLine (t : State) (g : Nat) (n : Need) (a : Nat) : Bool :=
  match t.translateLine (groupCore g) (t.grpRes g) n a with
  | (u, r) => decide (u = t) && homeView g r
def stillFour (t : State) (g : Nat) (n : Need) (i : Nat) : Bool := [0, 128, 256, 384].all fun k => stillLine t g n (0x40400000 + 512 * i + k)
def still (t : State) (g : Nat) (n : Need) (m : Nat) : Bool := (tileLines m).all (stillLine t g n)

theorem still_of {t : State} {g : Nat} {n : Need} {q : Nat} (h : ∀ i < q, stillFour t g n i = true) : still t g n (4 * q) = true := by
  refine List.all_eq_true.2 fun a ha => ?_
  obtain ⟨i, hi, rfl⟩ := List.mem_map.1 ha
  have hi := List.mem_range.1 hi
  have e : 0x40400000 + 128 * i = 0x40400000 + 512 * (i / 4) + 128 * (i % 4) := by omega
  have m : 128 * (i % 4) ∈ [0, 128, 256, 384] := by
    have : i % 4 < 4 := Nat.mod_lt _ (by decide)
    interval_cases i % 4 <;> decide
  rw [e]
  exact List.all_eq_true.1 (h (i / 4) (by omega)) _ m

/-- A list of elements that begins with the first one, all in the first 32 rows and columns, has all its places. -/
theorem captured_cells {s t : State} {n : Need} {m : Nat} {tag : Byte} (h : captured s t n m tag = true) (ht : t.hole = false)
    (hs : still t s.curG n m = true) (k c : Nat)
    (hg : (bowLay tag).geom = 0) (hp : (bowLay tag).pairs = false) (he : (bowLay tag).e = m / 8) (hm : m = 8 ∨ m = 32) (sc : List (Nat × Nat × Nat)) :
    bowLayout s.curG (tid s.curG 0) n (.k 0) none ⟨s, []⟩ = (bowSeen s n, .inl (bowLay tag, 0)) ∧
    ∃ z a, bowCells s.curG n (bowLay tag) 3 (cellsFrom 0 (k + 1) c) sc (bowSeen s n) = (z, .inl (a, [])) ∧ z.st.hole = false := by
  unfold captured at h
  simp only [Bool.and_eq_true] at h
  obtain ⟨h0, ⟨⟨h1, h2⟩, h3⟩⟩ := h
  have h2 : (bowFirst s n).1.st = t := of_decide_eq_true h2
  constructor
  · unfold bowSeen
    split at h0
    · next y lay x e => rw [e]; simp only [Bool.and_eq_true, decide_eq_true_eq, beq_iff_eq] at h0; rw [h0.1, h0.2]
    · exact absurd h0 (by decide)
  have hr : (bowLay tag).rowsP = 32 := by simp [Layout.rowsP, Layout.rt, bowLay]
  have hct : (bowLay tag).ct = 1 := by rw [Layout.ct, hp]; simp [bowLay]
  have hk : (bowLay tag).codesP = 32 := by
    rw [Layout.codesP, hp, if_neg (by decide), Layout.colsP, hct]
  have hv : ∀ r c, r < 32 → c < 32 → (bowLay tag).elemVa 3 r c = 0x40400000 + (32 * r + c) * (m / 8) := by
    intro r c hr hc
    have h1 : r / 32 = 0 := by omega
    have h2 : c / 32 = 0 := by omega
    rw [Layout.elemVa, viewOff, if_neg (by decide), if_neg (by decide), he, hct, h1, h2, Nat.mod_eq_of_lt hr, Nat.mod_eq_of_lt hc, Nat.mul_comm r 32]
    simp [Layout.base, bowLay]
  have hw : Warm s.curG n t (tileLines m) (bowFirst s n).1 := by
    refine ⟨h2, fun l hl hn ha => ?_⟩
    have := List.all_eq_true.1 h3 l hl
    simpa [hn, ha] using this
  have hA : ∀ a ∈ tileLines m, (t.translateLine (groupCore s.curG) (t.grpRes s.curG) n a).1 = t ∧
      homeView s.curG (t.translateLine (groupCore s.curG) (t.grpRes s.curG) n a).2 = true := by
    intro a ha
    have := List.all_eq_true.1 hs a ha
    simpa [stillLine] using this
  obtain ⟨p, hp1⟩ : ∃ p, (bowFirst s n).2 = .inl p := by
    cases h : (bowFirst s n).2 with
    | inl p => exact ⟨p, rfl⟩
    | inr r => rw [h] at h1; exact Bool.noConfusion h1
  have h00 : coordRow 0 = 0 ∧ coordCol 0 = 0 ∧ coordT 0 = false := ⟨rfl, rfl, by decide⟩
  let l := ((cellsFrom 0 (k + 1) c).filter fun e => decide (e.2.1 < (bowLay tag).rowsP) && decide (e.2.2 < (bowLay tag).codesP))
  obtain ⟨q, hq⟩ : ∃ q, cellsFrom 0 (k + 1) c = (0, 0, 0) :: q := by
    rw [cellsFrom, List.range_succ_eq_map, List.map_cons]
    refine ⟨_, congrArg₂ List.cons ?_ rfl⟩
    simp [h00]
  obtain ⟨l', hl'⟩ : ∃ l', l = (0, 0, 0) :: l' :=
    ⟨q.filter fun e => decide (e.2.1 < (bowLay tag).rowsP) && decide (e.2.2 < (bowLay tag).codesP), by
      show (cellsFrom 0 (k + 1) c).filter _ = _
      rw [hq]
      exact List.filter_cons_of_pos (by simp [hr, hk])⟩
  have hlt : ∀ e ∈ l, e.2.1 < 32 ∧ e.2.2 < 32 := by
    intro e he
    have := (List.mem_filter.1 he).2
    simpa [hr, hk] using this
  obtain ⟨x', bs, e1, e2⟩ := warm_cells (bowLay tag) 3 l' hA (fun e he => by
    obtain ⟨h1, h2⟩ := hlt e (hl' ▸ List.mem_cons_of_mem _ he)
    show (bowLay tag).elemVa 3 e.2.1 (if (bowLay tag).pairs then e.2.2 / 2 else e.2.2) < 2 ^ 48 ∧
      (bowLay tag).elemVa 3 e.2.1 (if (bowLay tag).pairs then e.2.2 / 2 else e.2.2) / 128 * 128 ∈ tileLines m
    rw [hp, if_neg (by decide), hv _ _ h1 h2]
    refine ⟨by rcases hm with rfl | rfl <;> omega, List.mem_map.2 ⟨(32 * e.2.1 + e.2.2) * (m / 8) / 128, List.mem_range.2 ?_, ?_⟩⟩
    · rcases hm with rfl | rfl <;> omega
    · rcases hm with rfl | rfl <;> omega) _ hw
  have hf : bowFirst s n = ((bowFirst s n).1, .inl p) := by rw [← hp1]
  have e0 : (bowLay tag).elemVa 3 0 0 = 0x40400000 := by rw [hv 0 0 (by decide) (by decide)]; simp
  refine ⟨x', (0, p, false) :: bs, ?_, by rw [e2.1]; exact ht⟩
  have hc' : Seen.each (cellPlace s.curG n (bowLay tag) 3) l (bowSeen s n) = (x', (((0, p, false) :: bs).map .inl)) := by
    rw [hl']
    have : (bowSeen s n).place s.curG n 5 ((bowLay tag).elemVa 3 0 0) = ((bowFirst s n).1, .inl p) := by rw [e0]; exact hf
    simp [Seen.each, cellPlace, hp, this, e1]
  have hc'' : Seen.each (cellPlace s.curG n (bowLay tag) 3)
      ((cellsFrom 0 (k + 1) c).filter fun e => decide (e.2.1 < (bowLay tag).rowsP) && decide (e.2.2 < (bowLay tag).codesP)) (bowSeen s n) =
      (x', (((0, p, false) :: bs).map .inl)) := hc'
  unfold bowCells
  simp only [hc'', firstBad_inl, hg, if_true, Seen.each, firstBad]

theorem first_a : captured bowNarrow (bowStill bowNarrow 0 0x40) Need.load 8 0x40 = true := by decide +kernel
theorem first_b : captured bowWide (bowStill bowWide 2 0x10) Need.load 32 0x10 = true := by decide +kernel
theorem first_c : captured bowWide (bowStill bowWide 2 0x10) Need.store 32 0x10 = true := by decide +kernel
theorem four_a0 : stillFour (bowStill bowNarrow 0 0x40) 256 Need.load 0 = true := by decide +kernel
theorem four_a1 : stillFour (bowStill bowNarrow 0 0x40) 256 Need.load 1 = true := by decide +kernel
theorem lines_a : still (bowStill bowNarrow 0 0x40) 256 Need.load 8 = true := still_of (q := 2) fun i h => by
  interval_cases i
  · exact four_a0
  · exact four_a1
theorem four_b0 : stillFour (bowStill bowWide 2 0x10) 256 Need.load 0 = true := by decide +kernel
theorem four_b1 : stillFour (bowStill bowWide 2 0x10) 256 Need.load 1 = true := by decide +kernel
theorem four_b2 : stillFour (bowStill bowWide 2 0x10) 256 Need.load 2 = true := by decide +kernel
theorem four_b3 : stillFour (bowStill bowWide 2 0x10) 256 Need.load 3 = true := by decide +kernel
theorem four_b4 : stillFour (bowStill bowWide 2 0x10) 256 Need.load 4 = true := by decide +kernel
theorem four_b5 : stillFour (bowStill bowWide 2 0x10) 256 Need.load 5 = true := by decide +kernel
theorem four_b6 : stillFour (bowStill bowWide 2 0x10) 256 Need.load 6 = true := by decide +kernel
theorem four_b7 : stillFour (bowStill bowWide 2 0x10) 256 Need.load 7 = true := by decide +kernel
theorem lines_b : still (bowStill bowWide 2 0x10) 256 Need.load 32 = true := still_of (q := 8) fun i h => by
  interval_cases i
  · exact four_b0
  · exact four_b1
  · exact four_b2
  · exact four_b3
  · exact four_b4
  · exact four_b5
  · exact four_b6
  · exact four_b7
theorem four_c0 : stillFour (bowStill bowWide 2 0x10) 256 Need.store 0 = true := by decide +kernel
theorem four_c1 : stillFour (bowStill bowWide 2 0x10) 256 Need.store 1 = true := by decide +kernel
theorem four_c2 : stillFour (bowStill bowWide 2 0x10) 256 Need.store 2 = true := by decide +kernel
theorem four_c3 : stillFour (bowStill bowWide 2 0x10) 256 Need.store 3 = true := by decide +kernel
theorem four_c4 : stillFour (bowStill bowWide 2 0x10) 256 Need.store 4 = true := by decide +kernel
theorem four_c5 : stillFour (bowStill bowWide 2 0x10) 256 Need.store 5 = true := by decide +kernel
theorem four_c6 : stillFour (bowStill bowWide 2 0x10) 256 Need.store 6 = true := by decide +kernel
theorem four_c7 : stillFour (bowStill bowWide 2 0x10) 256 Need.store 7 = true := by decide +kernel
theorem lines_c : still (bowStill bowWide 2 0x10) 256 Need.store 32 = true := still_of (q := 8) fun i h => by
  interval_cases i
  · exact four_c0
  · exact four_c1
  · exact four_c2
  · exact four_c3
  · exact four_c4
  · exact four_c5
  · exact four_c6
  · exact four_c7

/-- `MLDA`, `MLDB`, `MACC` and `MSTC` find their layout, without coordinates, and all the places of their elements. -/
theorem witness_BowWords_elements :
    (let s := bowNarrow; let n := Need.load; let lay := bowLay 0x40; s.Acts bare (bowSpec []) [0] ∧ (s.course (courseAt s (src s 0 (.k 1)))).ops.length < 16 ∧
      bowLayout s.curG (tid s.curG 0) n (.k 0) none ⟨s, []⟩ = (bowSeen s n, .inl (lay, 0)) ∧ 2 ≤ lay.fmt ∧ lay.fmt ≤ 8 ∧ lay.geom ≠ 3 ∧
      coordT 0 = false ∧ harpSlots lay.fmt = some 16 ∧ (0#5).toNat < 16 ∧
      (∀ sc, ∃ z a, bowCells s.curG Need.load lay 3 (cellsFrom 0 1024 32) sc (bowSeen s n) = (z, .inl (a, [])) ∧ z.st.hole = false) ∧
      ∀ sc, ∃ z a, bowCells s.curG Need.load lay 3 (cellsFrom 0 65536 256) sc (bowSeen s n) = (z, .inl (a, [])) ∧ z.st.hole = false) ∧
    (let s := bowWide; let lay := bowLay 0x10; s.Acts bare (bowSpec []) [0] ∧ (s.course (courseAt s (src s 0 (.k 1)))).ops.length < 16 ∧
      lay.tag = 0x10#8 ∧ ∀ n ∈ [Need.load, Need.store], bowLayout s.curG (tid s.curG 0) n (.k 0) none ⟨s, []⟩ = (bowSeen s n, .inl (lay, 0)) ∧
        ∃ z a, bowCells s.curG n lay 3 (cellsFrom 0 8192 256) [] (bowSeen s n) = (z, .inl (a, [])) ∧ z.st.hole = false) := by
  refine ⟨⟨acts (by decide) rfl, by decide, (captured_cells first_a rfl lines_a 0 1 rfl rfl rfl (.inl rfl) []).1, by decide, by decide, by decide,
      by decide, by decide, by decide, fun sc => (captured_cells first_a rfl lines_a 1023 32 rfl rfl rfl (.inl rfl) sc).2,
      fun sc => (captured_cells first_a rfl lines_a 65535 256 rfl rfl rfl (.inl rfl) sc).2⟩,
    acts (by decide) rfl, by decide, rfl, fun n hn => ?_⟩
  simp only [List.mem_cons, List.not_mem_nil, or_false] at hn
  rcases hn with rfl | rfl
  · exact captured_cells first_b rfl lines_b 8191 256 rfl rfl rfl (.inr rfl) []
  · exact captured_cells first_c rfl lines_c 8191 256 rfl rfl rfl (.inr rfl) []

theorem leftIs {α β γ : Type} {x : α × (β ⊕ γ)} (h : x.2.isLeft = true) : ∃ z p, x = (z, .inl p) := by
  obtain ⟨z, p | q⟩ := x
  · exact ⟨z, p, rfl⟩
  · exact Bool.noConfusion h

/-- The two rows of `MDIST`. -/
def norms0 : Seen × ((List (Nat × Phys × Bool) × List (Nat × Phys)) ⊕ LaneRes) :=
  bowCells bowWide.curG Need.load (bowLay 0x10) 1 ((List.range (min 32 32)).map fun k => (k, 0, k)) [] (bowSeen bowWide Need.load)
def norms1 : Seen × ((List (Nat × Phys × Bool) × List (Nat × Phys)) ⊕ LaneRes) :=
  bowCells bowWide.curG Need.load (bowLay 0x10) 1 ((List.range (min 256 32)).map fun k => (k, 1, k)) [] norms0.1

theorem witness_BowWords_mdist : 2 ≤ (bowLay 0x10).rows ∧ (bowLay 0x10).cols = 32 ∧
    ∃ z p q r, norms0 = (z, .inl p) ∧ norms1 = (q, .inl r) ∧ norms1.1 = q ∧ q.st.hole = false := by
  have h : norms0.2.isLeft = true ∧ norms1.2.isLeft = true ∧ norms1.1.st.hole = false := by decide +kernel
  obtain ⟨z, p, e⟩ := leftIs h.1
  obtain ⟨q, r, f⟩ := leftIs h.2.1
  exact ⟨by decide, rfl, z, p, q, r, e, f, by rw [f], by rw [f] at h; exact h.2.2⟩
/-! ## Witnesses: the harp -/

/-- A queue whose descriptor is all zero takes one record at address 0 (R382). -/
theorem canPost (s : State) (secure : Bool) (h : s.hole = false) (m : s.rd 0 64 = 0) (q : s.sys.evqs = 0 ∧ s.sys.evqn = 0) (w : s.evWait = []) :
    CanPost s secure := by
  intro r
  have l : ∀ x, (leBytes x 64).length = 64 := fun x => by simp [leBytes]
  have l4 : ∀ x, (leBytes x 4).length = 4 := fun x => by simp [leBytes]
  have a : physOkN 0 64 = true := by decide
  have b : physOkN (0 + 12) 4 = true := by decide
  have d : ((if secure = true then s.sys.evqs else s.sys.evqn).toNat) = 0 := by cases secure <;> simp [q]
  have e : s.evRoom 0 = true := by simp only [State.evRoom, m]; decide
  have f : bits 0 47 0 + 64 * (bits 0 127 96 % 2 ^ bits 0 68 64) = 0 := by decide
  simp only [State.post, d, w, e, List.any_nil, Bool.not_true, Bool.or_self, Bool.false_eq_true, if_false, State.evAppend, State.reach, a, m, if_true,
    State.wr, f, State.wrBytes, l, l4, b, h]

/-- Two addends of exponents 0 and −1 beside an accumulator of 1. -/
theorem witness_HarpSum : let t : List Exact := [.num false 1 0 false, .num true 1 (-1) false] ++ [((fm .f32).dec 0x3F800000).exact]
    (∀ x ∈ t, ∃ s n e, x = .num s n e false) ∧ (∃ x ∈ t, (2 : ℚ) ^ (0 : Int) ≤ |ratOf x|) ∧ ∀ x ∈ t, |ratOf x| < (2 : ℚ) ^ ((0 : Int) + 1) := by
  have h : ((fm .f32).dec 0x3F800000).exact = .num false 0x800000 (-23) false := by decide +kernel
  rw [h]
  refine ⟨?_, ⟨.num false 1 0 false, by simp, by simp [ratOf]⟩, ?_⟩
  · intro x hx
    simp only [List.mem_append, List.mem_cons, List.not_mem_nil, or_false] at hx
    rcases hx with (rfl | rfl) | rfl <;> exact ⟨_, _, _, rfl⟩
  · intro x hx
    simp only [List.mem_append, List.mem_cons, List.not_mem_nil, or_false] at hx
    rcases hx with (rfl | rfl) | rfl <;> norm_num [ratOf, abs_of_pos, abs_of_neg]

/-- A NaN; infinities of both signs; one infinity; zeros. -/
theorem witness_HarpSum_special : let a := ((fm .f32).dec 0).exact
    (∃ x ∈ [Exact.nan true] ++ [a], ∃ b, x = .nan b) ∧ (.inf false ∈ [Exact.inf true, .inf false] ++ [a] ∧ .inf true ∈ [Exact.inf true, .inf false] ++ [a]) ∧
    ((∀ x ∈ [Exact.inf true] ++ [a], ∀ b, x ≠ .nan b) ∧ .inf true ∈ [Exact.inf true] ++ [a] ∧ .inf (!true) ∉ [Exact.inf true] ++ [a]) ∧
    ∀ x ∈ [Exact.num true 0 5 false] ++ [a], ∃ s e, x = .num s 0 e false := by
  obtain ⟨e, h⟩ : ∃ e, ((fm .f32).dec 0).exact = .num false 0 e false := ⟨_, rfl⟩
  rw [h]
  exact ⟨by simp, by simp, by simp, by simp⟩

/-- Course 1 of cluster 0 with one operation, an A queue, a panel in slot 0 and an accumulator kind. -/
def harp (op : HarpOp) (a : List MVal) (p : Option Panel) (int : Bool) (res : List MVal) : State :=
  { State.reset with courses := [(1, { Course.zero with ops := [⟨9, 0, op⟩], aQueue := a, panels := [(0, p)], accInt := int, results := res })] }

theorem head_harp (op : HarpOp) (a : List MVal) (p : Option Panel) (int : Bool) (res : List MVal) (h : ∀ t, op ≠ .push t) :
    Head (harp op a p int res) 1 9 op [] :=
  ⟨quiet _ ⟨rfl, rfl, rfl, rfl, rfl⟩, ⟨fun z hz => absurd hz List.not_mem_nil, fun o ho => by
    have : o = ⟨9, 0, op⟩ := List.mem_singleton.1 ho
    subst this; exact h⟩, ⟨0, rfl⟩, rfl, fun o ho => absurd ho List.not_mem_nil⟩

/-- A B panel, an A tile and an accumulator of INT8 and INT32, and of BF16 and FP32. -/
def panelOf (tag : Byte) : Panel := ⟨tag, [], [], []⟩

/-- Loads and stores of cells, with room and without it, and operations that multiply, or have no panel, or no room for their result. -/
theorem witness_HarpOperations :
    (∀ r ∈ [0, 6, 7], ∀ op, (∀ t, op ≠ .push t) → Head (harp op (List.replicate r MVal.zero) none true (List.replicate r MVal.zero)) (courseOn 0 1) 9 op []) ∧
    Rising [(0, Phys.lin 0x100000, false), (1, Phys.lin 0x100004, true)] ∧ mwf none ((harp (.push []) [] (some (panelOf 0x20)) true []).course 1).panels = true ∧
    (∀ e ∈ [(0x20#8, false), (0x70#8, true)], ∀ op, (∀ t, op ≠ .push t) → let s := harp op [⟨e.1, 0, []⟩] (some (panelOf e.1)) e.2 (List.replicate 7 MVal.zero)
      Head s 1 9 op [] ∧ mget none (s.course 1).panels 0 = some (panelOf e.1) ∧
        (panelOf e.1).mismatch ((s.course 1).aQueue.take 1) 1 = none ∧
        (∀ t ∈ (s.course 1).aQueue.take 1, harpPair t.tag (panelOf e.1).tag = some e.2) ∧ (s.course 1).accInt = e.2 ∧
        (s.course 1).results.length + 1 ≤ 8 ∧ ∀ x ∈ (s.thr (tid 256 0)).pend, x.reg = .s .fsr → (∃ y, x.val = .w y) ∨ ∃ y, x.val = .orF y) := by
  refine ⟨fun r _ op h => head_harp op _ _ _ _ h, by unfold Rising; decide, by decide, fun e he op h => ⟨head_harp op _ _ _ _ h, rfl, rfl, ?_, rfl, (by decide : (List.replicate 7 MVal.zero).length + 1 ≤ 8), fun x hx => absurd hx List.not_mem_nil⟩⟩
  simp only [List.mem_cons, List.not_mem_nil, or_false] at he
  rcases he with rfl | rfl
  · exact (by decide : ∀ t ∈ [(⟨0x20#8, 0, []⟩ : MVal)], harpPair t.tag 0x20#8 = some false)
  · exact (by decide : ∀ t ∈ [(⟨0x70#8, 0, []⟩ : MVal)], harpPair t.tag 0x70#8 = some true)

/-- An INT8 panel of zeros, one of whose checksum columns holds 1. -/
def offColumn : Panel := ⟨0x70, [], [], [(0, 1)]⟩

/-- Operations that fail: a store of the accumulator's other kind, no panel, a tile that does not pair with the panel, a checksum column
that is one too high beneath an element of the tile, and the failure that is the 255th. -/
theorem witness_HarpOperations_fail :
    (∀ op, (∀ t, op ≠ .push t) → let s := harp op [] none true []
      Head s 1 9 op [] ∧ (s.course 1).accInt ≠ (0x10#8 == 0x90#8) ∧ mget none (s.course 1).panels 0 = none ∧ (s.course 1).count ≠ 254#8) ∧
    (∀ op, (∀ t, op ≠ .push t) → let s := harp op [⟨0x70, 0, []⟩] (some (panelOf 0x20)) true []
      Head s 1 9 op [] ∧ mget none (s.course 1).panels 0 = some (panelOf 0x20) ∧ (s.course 1).aQueue[0]? = some ⟨0x70, 0, []⟩ ∧
        harpPair (⟨0x70, 0, []⟩ : MVal).tag (panelOf 0x20).tag = none) ∧
    (∀ op, (∀ t, op ≠ .push t) → let s := harp op [⟨0x70, 0, [(0, 1)]⟩] (some offColumn) true []
      Head s 1 9 op [] ∧ mget none (s.course 1).panels 0 = some offColumn ∧ offColumn.mismatch ((s.course 1).aQueue.take 1) 1 = some 0 ∧
        ∀ t ∈ (s.course 1).aQueue, harpPair t.tag offColumn.tag = some true) ∧
    (let s := { State.reset with courses := [(1, { Course.zero with count := 254 })] };
      (s.course 1).count = 254#8 ∧ CanPost s false) := by
  refine ⟨fun op h => ⟨head_harp op _ _ _ _ h, (by decide : true ≠ (0x10#8 == 0x90#8)), rfl, (by decide : (0#8) ≠ 254#8)⟩,
    fun op h => ⟨head_harp op _ _ _ _ h, rfl, rfl, by decide⟩, fun op h => ⟨head_harp op _ _ _ _ h, rfl, ?_, ?_⟩,
    rfl, canPost _ _ rfl (by decide) ⟨rfl, rfl⟩ rfl⟩
  · exact (by decide +kernel : offColumn.mismatch [⟨0x70, 0, [(0, 1)]⟩] 1 = some 0)
  · exact (by decide : ∀ t ∈ [(⟨0x70, 0, [(0, 1)]⟩ : MVal)], harpPair t.tag 0x70#8 = some true)

/-- A `HARP_CHECK` owed to a bow that runs. -/
theorem witness_HarpOperations_check : let s := { issue 16 0 1 1 running with
      clusters := [(0, { Cluster.reset with region := some 0x40, res := region, zs := 0x10000, harpQ := [1] })] }
    (s.cl 0).harpQ = [1] ∧ s.hole = false ∧ s.bowOpen 0 = true ∧ (s.thr 131072).stat = .run ∧ s.hasOps 131072 = false ∧
      (s.grpRes (16 * 16)).trapvec ≠ 0 := by
  refine ⟨rfl, rfl, by decide, by decide, by decide, by decide⟩
/-! ## Witnesses: term words -/

/-- A thread of the logic runtime: an unbound variable at 0x3000 in `g20`, an atom in `g21`, a FUN word of one argument in `g22`, its heap
at 0x3010, its trail, overlay and choice points in the scratchpad. -/
def solver (chp : W64) : Thread :=
  { running with
    g := [(7, 0), (20, 0x3000), (21, 0x2000000000000005), (22, 0x5000000000000001), (23, 0x20000100), (40, 9)]
    hp := 0x3010, hb := 0x4000, tr := 0x20000208, ovb := 0x20000300, ovt := 0x20000310, ovl := 0x20000380, chb := 0x20000100, chp := chp }

/-- Its path of one lane, with the window of term memory in `b15`, a trail entry, an overlay entry, and a choice point that returns to
0x5000 with one argument register (R300, R301, R311). -/
def terms (chp : W64) : State :=
  let s := issue 0 0 2 1 (solver chp)
  { s with
    mem := (pages.write 0x3000 8 0x3000).write 0x3008 8 0x3008
    sp := (Memory.write [] 0x100 8 (0x5000 + 2 ^ 48)).write 0x108 8 0x3010 |>.write 0x110 8 0x20000200 |>.write 0x118 8 0x20000300
      |>.write 0x128 8 0x77 |>.write 0x200 8 0x3008 |>.write 0x300 8 0x3000 |>.write 0x308 8 0x2000000000000005
    wgs := [(0, { Workgroup.free with bound := true, zw := 0x10000, b := [(15, 0x00000010_00000008_00030000_00003000)] })] }

/-- The start of the lane's instruction. -/
def termAt (chp : W64) : TermSt := termStart 0 0 ⟨terms chp, []⟩

/-- Whether a part ends with a value. -/
def gives {α : Type} [DecidableEq α] (m : TM α) (x : TermSt) (a : α) : Bool := match (m.run x).1 with | .ok b => decide (b = a) | .error _ => false

theorem runs_of {α : Type} [DecidableEq α] {m : TM α} {x : TermSt} {a : α} (h : gives m x a = true) : Runs m x a (m.run x).2 := by
  unfold gives at h
  unfold Runs
  split at h
  · next b e => rw [← of_decide_eq_true h, ← e]; rfl
  · exact Bool.noConfusion h

theorem acts_terms (chp : W64) (h : chp ∈ [0#64, 0x20000100#64]) (regs : List RegId) (e : Bool) :
    (terms chp).Acts bare { WordSpec.var .c regs with ends := e } [0] := by
  simp only [List.mem_cons, List.not_mem_nil, or_false] at h
  rcases h with rfl | rfl <;> exact acts (by decide) rfl

/-- The variable at 0x3000, read in one step. -/
def looked : TermSt := ((termLookup 0x3000).run { termAt 0 with n := 1 }).2

theorem derefs_variable : Derefs 0x3000 (termAt 0) 0x3000 looked :=
  .unbound 0x3000 _ _ (.inl (by decide)) ⟨by decide, by decide⟩ (by decide) (runs_of (by decide +kernel))

theorem derefs_atom (x : TermSt) : Derefs 0x2000000000000005 x 0x2000000000000005 x := .value _ _ (.inl (by decide))

/-- The variable bound to the atom: trailed, and written. -/
def trailed : TermSt := let r := (termSpPut 8 0x20000208 0x3000).run { looked with binds := 1 }; { r.2 with tr := 0x20000210 }
def bound : TermSt := ((termPut 0x3000 0x2000000000000005).run trailed).2

theorem binds_variable : Binds 0x3000 0x2000000000000005 looked bound :=
  ⟨by decide +kernel, fun h => absurd h (by decide +kernel), fun _ => ⟨by decide +kernel, trailed,
    fun _ => ⟨((termSpPut 8 0x20000208 0x3000).run { looked with binds := 1 }).2, runs_of (by decide +kernel), rfl⟩,
    fun h => absurd h (by decide +kernel), runs_of (by decide +kernel)⟩⟩

theorem witness_TermsFollowed_binds :
    (∀ regs, (terms 0).Acts bare (.var .c regs) [0]) ∧
    TermSteps 0 (fun l x y => Derefs (src (terms 0) l (.g 20)) x 0x3000 y) kept [0] ⟨terms 0, []⟩ ⟨kept 0 looked, looked.y.lines⟩ ∧
    TermSteps 0 (fun l x0 y0 => ∃ v w x1 x2, Derefs (src (terms 0) l (.g 20)) x0 v x1 ∧ Derefs (src (terms 0) l (.g 21)) x1 w x2 ∧ tagBits v = 0 ∧
      (w = v → y0 = x2) ∧ (w ≠ v → Binds (payOf v) w x2 y0)) kept [0] ⟨terms 0, []⟩ ⟨kept 0 bound, bound.y.lines⟩ ∧
    (kept 0 looked).hole = false ∧ (kept 0 bound).hole = false :=
  ⟨fun r => acts_terms 0 (by decide) r false, ⟨looked, derefs_variable, rfl⟩,
    ⟨bound, ⟨_, _, _, _, derefs_variable, derefs_atom _, by decide, fun h => absurd h (by decide), fun _ => binds_variable⟩, rfl⟩,
    by decide +kernel, by decide +kernel⟩

/-- `UNIFY` of the atom with itself, walked in one step above the choice-point base. -/
def walked0 : TermSt := ((walkRoom 0x20000100 0).run (termAt 0)).2
def walked1 : TermSt := { walked0 with n := walked0.n + 1 }

theorem witness_TermsFollowed_walks :
    TopAt (termAt 0) 0x20000100 (termAt 0) ∧ Runs (walkRoom 0x20000100 0) (termAt 0) () walked0 ∧
    Unifies 0x20000100 [(src (terms 0) 0 (.g 21), src (terms 0) 0 (.g 21))] walked0 true walked1 ∧ (walked1.walked 0x20000100).hole = false :=
  ⟨⟨fun _ => ⟨by decide, rfl⟩, fun h => absurd (by decide) h⟩, runs_of (by decide +kernel),
    .walk _ _ _ _ _ [] _ _ _ _ _ _ _ (by decide +kernel) (derefs_atom _) (derefs_atom _) (.inl ⟨rfl, rfl, rfl⟩) rfl (.done _), by decide +kernel⟩

/-- What a lane sees below `shb` with an overlay entry, and above it. -/
theorem witness_TermsFollowed_looks : (∀ shb ∈ [0x3000#64, 0x3008#64], ∃ v z, Runs (termLookup 0x3000) { termAt 0 with shb := shb } v z) ∧
    (termAt 0).sp = [] := by
  refine ⟨fun shb h => ?_, rfl⟩
  simp only [List.mem_cons, List.not_mem_nil, or_false] at h
  rcases h with rfl | rfl
  · exact ⟨0x3000, _, runs_of (by decide +kernel)⟩
  · exact ⟨0x2000000000000005, _, runs_of (by decide +kernel)⟩

/-- Words at the heap mark. -/
def heap1 : TermSt := ((termPut 0x3010 0x3010).run (termAt 0)).2
def heap2 : TermSt := ((termPut 0x3010 0x5000000000000001).run (termAt 0)).2
def heap3 : TermSt := ((termPut 0x3018 0x3018).run heap2).2

theorem witness_TermsBuilt_heap : (∀ regs e, (terms 0).Acts bare { WordSpec.var .c regs with ends := e } [0]) ∧
    (termAt 0).hp.toNat % 8 = 0 ∧ (termAt 0).hp.toNat + 16 ≤ 2 ^ 48 ∧ tagBits (src (terms 0) 0 (.g 22)) = 5 ∧
    Allocates 0x3010 [none] (termAt 0) heap1 ∧ Allocates 0x3010 [some 0x5000000000000001, none] (termAt 0) heap3 ∧
    (kept 0 heap1).hole = false ∧ (kept 0 heap3).hole = false :=
  ⟨acts_terms 0 (by decide), by decide, by decide, by decide, ⟨heap1, runs_of (by decide +kernel), rfl⟩,
    ⟨heap2, runs_of (by decide +kernel), heap3, runs_of (by decide +kernel), rfl⟩, by decide +kernel, by decide +kernel⟩

/-- The state after some steps that all end with a value. -/
def after {α : Type} (m : TM α) (x : TermSt) : TermSt := (m.run x).2

/-- `CHPT` of one argument register above the base, over no choice point and over one. -/
theorem witness_TermsBuilt_choice : ((termAt 0).hp.toNat % 8 = 0 ∧ (termAt 0).tr.toNat % 8 = 0 ∧ (termAt 0).ovt.toNat % 16 = 0) ∧ TopAt (termAt 0) 0x20000100 (termAt 0) ∧
    TopAt (termAt 0x20000100) 0x20000130 (after (termSp 8 0x20000100) (termAt 0x20000100)) ∧
    (∃ z, Puts 0x20000100 [1, 2] (termAt 0) z) ∧ (kept 0 (termAt 0)).hole = false :=
  ⟨by decide, ⟨fun _ => ⟨by decide, rfl⟩, fun h => absurd (by decide) h⟩,
    ⟨fun h => absurd h (by decide), fun _ => ⟨0x0001000000005000, runs_of (by decide +kernel), by decide⟩⟩,
    ⟨_, _, runs_of (m := termSpPut 8 0x20000100 1) (by decide +kernel), _, runs_of (m := termSpPut 8 0x20000108 2) (by decide +kernel), rfl⟩,
    by decide +kernel⟩

/-- `FAIL` to a choice point with one trailed word and one argument register, and `CUT` of it. -/
theorem witness_TermsBuilt_fail :
    let x := termAt 0x20000100
    (∀ regs, (terms 0x20000100).Acts bare (.var .c regs) [0]) ∧ x.chp ≠ 0 ∧ x.tr.toNat % 8 = 0 ∧ (x.ovb.toNat % 16 = 0 ∧ x.ovt.toNat % 16 = 0) ∧ (0x20000200#64).toNat ≤ x.tr.toNat ∧
    x.ovb.toNat ≤ (0x20000300#64).toNat ∧ (0x20000300#64).toNat ≤ x.ovt.toNat ∧
    (∃ x1 x2 x3, Gets x.chp [0x0001000000005000, 0x3010, 0x20000200, 0x20000300, 0] x x1 ∧
      Unwinds ((x.tr.toNat - (0x20000200#64).toNat) / 8) x.tr x1 x2 ∧ Gets (x.chp + 40) [0x77] x2 x3 ∧ MarkOf 0 x3 0 x3) ∧
    (∃ x1, Runs (termSp 8 (x.chp + 32)) x 0 x1 ∧ MarkOf 0 x1 0 x1) ∧
    ((0x20000100#64).toNat % 8 = 0 ∧ x.chb.toNat % 8 = 0 ∧ x.chp.toNat % 8 = 0 ∧ x.chb.toNat ≤ (0x20000100#64).toNat ∧ (0x20000100#64).toNat ≤ x.chp.toNat ∧ ∃ y, MarkOf 0x20000100 x 0x3010 y) := by
  refine ⟨fun r => acts_terms _ (by decide) r false, by decide, by decide, by decide, by decide, by decide, by decide, ⟨_, _, _,
    ⟨_, runs_of (by decide +kernel), _, runs_of (by decide +kernel), _, runs_of (by decide +kernel), _, runs_of (by decide +kernel), _,
      runs_of (by decide +kernel), rfl⟩, ⟨0x3008, _, _, runs_of (by decide +kernel), runs_of (by decide +kernel), rfl⟩,
    ⟨_, runs_of (by decide +kernel), rfl⟩, fun _ => ⟨rfl, rfl⟩, fun h => absurd rfl h⟩, ⟨_, runs_of (by decide +kernel), fun _ => ⟨rfl, rfl⟩,
    fun h => absurd rfl h⟩, by decide, by decide, by decide, by decide, by decide, _, fun h => absurd h (by decide), fun _ => runs_of (by decide +kernel)⟩

/-- `OVPUB` of one entry whose word is unbound. -/
def entries0 : TermSt := after (ovEntries 1 0x20000300) (termAt 0)
def entries1 : TermSt := after (casWord 4 0x3000) entries0
def entryPlace : Phys := match ((termPlace Need.atomic 0x3000).run entries1).1 with | .ok p => p | .error _ => .lin 0
def entries2 : TermSt := let y := after (termPlace Need.atomic 0x3000) entries1
  { y with mem := (entryPlace, 0x2000000000000005, some 4) :: y.mem }

theorem witness_TermsBuilt_publish : (termAt 0).chp = 0 ∧ (termAt 0).ovb.toNat % 16 = 0 ∧ (termAt 0).ovt.toNat % 16 = 0 ∧
    Runs (ovEntries (((termAt 0).ovt.toNat - (termAt 0).ovb.toNat) / 16) (termAt 0).ovb) (termAt 0) [(0x3000, 0x2000000000000005)] entries0 ∧
    Publishes 4 [(0x3000, 0x2000000000000005)] 0x20000300 entries0 0x20000300 entries2 ∧ (kept 0 entries2).hole = false :=
  ⟨by decide, by decide, by decide, runs_of (m := ovEntries 1 0x20000300) (by decide +kernel),
    ⟨0x3000, entries1, runs_of (by decide +kernel), fun _ => ⟨entryPlace, after (termPlace Need.atomic 0x3000) entries1,
      runs_of (by decide +kernel), rfl, rfl⟩, fun h => absurd (by decide) h,
      fun h => absurd (by decide) h⟩, by decide +kernel⟩
/-! ## Witnesses: sparse words, the exchange -/

/-- A compaction record at 0x40: row offset, half and values in the scratchpad, 64 columns, at the start of row 0 (R292). -/
def packing (pos : Nat) : State :=
  let x := { user with g := [(6, 0x20000040), (7, 5), (8, 0x0F), (9, 3)], p := [(1, true)] }
  { armed x with sp := Memory.write [] 0x40 32 (CmpRec.toNat ⟨1, 0x20000100, 64, pos, 0, 2, 0, 0x20000200, 0x20000300, 0x20000400⟩) }

/-- `EXPND` of two lanes over the buffer in `b1`. -/
def expanding : State := { packing 0 with
  wgs := [(0, { Workgroup.free with bound := true, zw := 0x10000, b := [(1, 0x00000010_00000004_00020000_00003000)] })] }
theorem witness_SparseWords :
    ((∀ regs, (packing 0).Acts bare (.fixC 4 regs) [0, 1]) ∧ (∀ a b : GReg, (a = 8 ∧ b = 8) → (packing 0).Acts bare { WordSpec.fixC 8 [] with lead := pairRegs a ++ pairRegs b } [0, 1]) ∧
      (packing 0).Acts bare { WordSpec.fixC 10 [.g 7] with lead := [.g 9] } [0, 1]) ∧
    (let both := src (packing 0) 0 (.g 8) &&& src (packing 0) 0 (.g 9); ones both 64 = 2 ∧
      ∀ k < 2, id k < 64 ∧ both.getLsbD (id k) = true ∧ ones both (id k) = k) ∧
    (∀ l ∈ [0, 1], let len := fun r => if r ∈ [0, 1] then (src (packing 0) r (.g 7)).toNat % 2 ^ 32 else 0
      3 + l < itemsBefore len 32 → l / 2 < 32 ∧ itemsBefore len 0 ≤ 3 + l ∧ 3 + l < itemsBefore len 1) ∧
    (∀ pos ∈ [0, 32], let s := packing pos
      s.Acts bare { WordSpec.var .c [.g 9, .p 1] with lead := [.g 6] } [0, 1] ∧ s.latent = [] ∧
      s.spRange s.curG 32 32 (src s 0 (.g 6)) = .inl 0x40 ∧
      CmpRec.ofNat (Memory.read s.sp 0x40 32) = ⟨1, 0x20000100, 64, pos, 0, 2, 0, 0x20000200, 0x20000300, 0x20000400⟩ ∧
      s.spRange s.curG 4 4 (BitVec.ofNat 64 0x20000400) = .inl 0x400 ∧ s.spRange s.curG 4 4 (BitVec.ofNat 64 0x20000300) = .inl 0x300 ∧
      s.spRange s.curG 4 2 (BitVec.ofNat 64 0x20000200) = .inl 0x200 ∧ s.spRange s.curG 2 2 (BitVec.ofNat 64 0x20000100) = .inl 0x100) ∧
    Apart [(0x40, 32), (0x300, 4), (0x100, 2), (0x400, 4), (0x200, 4)] ∧
    (expanding.joined expanding.cur.core 4 = false ∧ expanding.Acts bare { WordSpec.var .c [] with lead := pairRegs 8 } [0, 1] ∧
      ((expanding.bufRec expanding.curG 1).extractLsb' 48 3).toNat < 4) := by
  refine ⟨⟨fun _ => acts (by decide) rfl, fun a b h => by obtain ⟨rfl, rfl⟩ := h; exact acts (by decide) rfl, acts (by decide) rfl⟩,
    by decide, by decide, ?_, by unfold Apart; decide, rfl, acts (by decide) rfl, by decide⟩
  intro pos h
  simp only [List.mem_cons, List.not_mem_nil, or_false] at h
  rcases h with rfl | rfl <;> exact ⟨acts (by decide) rfl, rfl, by decide +kernel, by decide +kernel, by decide, by decide, by decide, by decide⟩

/-- `EXPND` of two lanes that take elements 3 and 4. -/
def expand1 : Seen × (Phys ⊕ LaneRes) := gatherPlace 0 0x300C 4 ⟨expanding, []⟩
def expand2 : Seen × (Phys ⊕ LaneRes) := gatherPlace 0 0x3010 4 expand1.1
def expandPlaces (l : Nat) : Option Phys := if l = 0 then expand1.2.getLeft? else expand2.2.getLeft?

theorem witness_SparseWords_expand :
    ExpandSteps 0 (expanding.bufRec 0 1) 4 3 3 expandPlaces [0, 1] ⟨expanding, []⟩ expand2.1 ∧ expand2.1.st.hole = false := by
  obtain ⟨k, hk⟩ : ∃ k, expand1.2 = .inl k := Sum.isLeft_iff.1 (by decide +kernel)
  obtain ⟨n, hn⟩ : ∃ n, expand2.2 = .inl n := Sum.isLeft_iff.1 (by decide +kernel)
  exact ⟨⟨fun h => absurd h (by decide), fun _ => .inr ⟨0x300C, k, expand1.1, by simp [expandPlaces, hk], by decide, pairIs hk,
    fun h => absurd h (by decide), fun _ => .inr ⟨0x3010, n, expand2.1, by simp [expandPlaces, hn], by decide, pairIs hn, rfl⟩⟩⟩, by decide +kernel⟩

/-- Routes by number of symbols, kind and symbols, class RT. -/
def route (kind : Nat) (syms : List Nat) : W128 :=
  BitVec.ofNat 128 (syms.length + 2 ^ 8 * kind + 2 ^ 32 * (syms.zipIdx.map fun e => e.1 * 16 ^ e.2).sum)

/-- A walk of three hops, one whose link is down, one out of the mesh, a U-turn, a reserved symbol, and a bad header. -/
theorem witness_Routes :
    (∀ regs, (two running).Acts bare { WordSpec.fixA 4 regs with bow := false } [0, 1]) ∧
    (∀ regs, (two running).Acts bare { WordSpec.fixA 6 regs with bow := false } [0, 1]) ∧
    (∀ kind ∈ [0, 2], IsRoute (route kind ([2, 3, 3] ++ [0])) kind (TClass.ofCode 0) ([2, 3, 3] ++ [0])) ∧
    Walk State.reset 0 0 [2, 3, 3] 9 3 ∧ (State.reset.cl 9).retired = false ∧
    ({ State.reset with clusters := [(9, { Cluster.reset with retired := true })] }.cl 9).retired = true ∧
    (let s := { State.reset with linksDown := [(8 * 9 + 4, true)] }; IsRoute (route 3 ([2, 3, 3] ++ 4 :: [0])) 3 (TClass.ofCode 0) ([2, 3, 3] ++ 4 :: [0]) ∧
      Hop 9 4 8 ∧ s.linkDown 9 4 = true ∧ State.reset.linkDown 9 4 = false) ∧
    (Hop 9 1 5 ∧ UTurn 3 1 ∧ State.reset.linkDown 9 1 = false) ∧ (∀ b, ¬Hop 0 1 b) ∧ (route 0 []).extractLsb' 0 5 = 0 ∧
    24 < ((route 0 (List.replicate 25 0)).extractLsb' 0 5).toNat := by
  refine ⟨fun _ => acts (by decide) rfl, fun _ => acts (by decide) rfl, ?_, ?_, rfl, by decide, ⟨?_, ?_, by decide, by decide⟩, ⟨?_, by unfold UTurn; decide, by decide⟩,
    fun b h => ?_, by decide, by decide⟩
  all_goals try unfold Hop at *
  · intro kind h
    simp only [List.mem_cons, List.not_mem_nil, or_false] at h
    rcases h with rfl | rfl <;>
    · refine ⟨by decide, by decide, by decide, by decide, by decide, by decide, by decide, fun i x h => ?_⟩
      match i, h with
      | 0, h => cases h; decide
      | 1, h => cases h; decide
      | 2, h => cases h; decide
      | 3, h => cases h; decide
      | _ + 4, h => simp at h
  · refine ⟨1, ?_, rfl, by unfold UTurn; decide, 5, ?_, rfl, by unfold UTurn; decide, 9, ?_, rfl, by unfold UTurn; decide, rfl, rfl⟩ <;> (unfold Hop; decide)
  · refine ⟨by decide, by decide, by decide, by decide, by decide, by decide, by decide, fun i x h => ?_⟩
    match i, h with
    | 0, h => cases h; decide
    | 1, h => cases h; decide
    | 2, h => cases h; decide
    | 3, h => cases h; decide
    | 4, h => cases h; decide
    | _ + 5, h => simp at h
  · decide
  · decide
  · omega

/-- A thread with routes that eject at once: KIND 0 in `g30`, KIND 1 in `g32`, KIND 2 in `g34`; ring 1 at 0x40, a message
at 0x80. -/
def talker : Thread :=
  { running with g := [(6, 0x20000040), (7, 1), (8, 0x20000080), (9, 7), (10, 0x3000), (30, 0x000000001), (32, 0x000000101), (34, 0x000000201)] }

/-- A ring of two slots at 0x80, with one message in it (R335). -/
def talking : State :=
  let s := { armed talker with
    mem := pages
    sp := (Memory.write [] 0x40 8 0x20000080).write 0x48 8 (2 ^ 32) |>.write 0x50 8 1
    regions := [⟨0x40, [0], none, 0, [], false, none, false⟩]
    clusters := [(0, { Cluster.reset with region := some 0x40, phase := 1, res := region, zs := 0x10000 })] }
  { s with wgs := [(0, { Workgroup.free with bound := true, zw := 0x10000 })] }

def placed0 : Seen := ⟨talking, []⟩
def placed1 : Seen × (Option CopyPlace ⊕ LaneRes) := xferPlace 0 4 Need.load (routeIn talking 0 32) 0x3000 placed0
def placed2 : Seen × (Option CopyPlace ⊕ LaneRes) := xferPlace 0 4 Need.load (routeIn talking 1 32) 0x3000 placed1.1

/-- `XWRITE` to the scratchpad, `XREAD` of memory, `XSEND` to a ring of the own cluster, `XFENCE`. -/
theorem witness_Transmissions :
    ((∀ f ∈ talking.xfers, f.id < talking.nextId) ∧ talking.latent = []) ∧
    (talking.Acts bare { WordSpec.var .x (RegId.g 8 :: pairRegs 30 ++ (Dat.g 9).regs .b32) with ends := true } [0, 1] ∧
      (∀ l ∈ [0, 1], talking.storeData (tid talking.curG l) .b32 (.g 9) = .inl 7) ∧
      Placed talking 4 false 8 30 (fun _ => some (.sp 0x80)) [0, 1] ⟨talking, []⟩ ⟨talking, []⟩ ∧ talking.hole = false) ∧
    (talking.Acts bare { WordSpec.var .x (RegId.g 10 :: pairRegs 32) with ends := true } [0, 1] ∧
      Placed talking 4 true 10 32 (fun _ => some (.mem (.lin 0x3000))) [0, 1] ⟨talking, []⟩ placed2.1 ∧ placed2.1.st.hole = false) ∧
    (talking.Acts bare { WordSpec.var .x [] with lead := pairRegs 34 ++ [.g 6, .g 8], ends := true } [0, 1] ∧
      talking.routeCheck (coreCluster talking.cur.core) (routeIn talking 0 34) = none ∧ talking.spRange talking.curG 64 64 (src talking 0 (.g 8)) = .inl 0x80) ∧
    (((routeIn talking 0 34).extractLsb' 8 3).toNat = 2 ∧ routeEscs (routeSyms (routeIn talking 0 34)) = [] ∧
      spPlace talking talking.curG 32 (routeIn talking 0 34) (src talking 0 (.g 6)) = .inl (.sp 0x40)) ∧
    talking.Acts bare (.var .x []) [0, 1] := by
  refine ⟨⟨fun f h => absurd h List.not_mem_nil, rfl⟩, ⟨acts (by decide) rfl, by decide +kernel, ?_, rfl⟩, ⟨acts (by decide) rfl, ?_, by decide +kernel⟩,
    ⟨acts (by decide) rfl, by decide +kernel, by decide +kernel⟩, ⟨by decide, by decide, by decide +kernel⟩, acts (by decide) rfl⟩
  · exact ⟨⟨talking, []⟩, by decide +kernel, by decide, fun h => Bool.noConfusion h, rfl, ⟨talking, []⟩, by decide +kernel, by decide,
      fun h => Bool.noConfusion h, rfl, rfl⟩
  · exact ⟨placed1.1, by decide +kernel, by decide, fun _ => by decide, pairIs (by decide +kernel), placed2.1, by decide +kernel, by decide,
      fun _ => by decide, pairIs (by decide +kernel), rfl⟩

/-- A ring of two slots with one message, polled, waited for, and advanced by one slot and by two. -/
theorem witness_Rings : talking.latent = [] ∧
    (∀ l ∈ [0, 1], talking.spCheck talking.curG 32 ((⟨6, none⟩ : SpOp).addr (src talking l (.g 6))) = .inl 0x40) ∧ GoodRing talking 0x40 1 ∧
    talking.Acts bare (.var .a [.g 6]) [0, 1] ∧ NoReconv talking (fun _ => false) [0, 1] ∧
    (∀ n ∈ [Src.g 7, .k 2], talking.Acts bare { WordSpec.var .a [] with lead := RegId.g 6 :: n.regs, ends := true } [0, 1]) ∧
    (1 ≤ (src talking 0 (.g 7)).toNat ∧ (src talking 0 (.g 7)).toNat ≤ 1 ∧ 1 < (src talking 0 (.k 2)).toNat ∧ talking.Handled [0, 1]) := by
  refine ⟨rfl, by decide, ⟨by decide +kernel, by decide +kernel, by decide +kernel, by decide +kernel, by decide +kernel, by decide +kernel,
    ⟨0x80, by decide +kernel⟩, by decide +kernel, by decide +kernel⟩, acts (by decide) rfl, .inl (fun z h => absurd h List.not_mem_nil), ?_, by decide, by decide, by decide, by decide, by decide⟩
  intro n h
  simp only [List.mem_cons, List.not_mem_nil, or_false] at h
  rcases h with rfl | rfl <;> exact acts (by decide) rfl
/-! ## Witnesses: privileged words, the ends of operations, issue, the ports -/

/-- A thread in its handler. -/
def handling : Thread := { running with g := [(8, 0x40), (9, 0x3000), (63, 0x0001000000001000)], handler := some ⟨⟨0, 0, 0⟩, 1, 2, 3⟩ }

theorem witness_PrivilegedWords :
    (two running).Acts bare { WordSpec.fixA 8 [] with bow := false } [0, 1] ∧
    ((two handling).Acts bare { WordSpec.var .a [] with lead := [.g 8] } [0, 1] ∧ (two handling).Acts bare { WordSpec.var .a [] with lead := [.g 8, .g 9] } [0, 1]) ∧
    ((two handling).Acts bare (.var .a [.g 63]) [0, 1] ∧ ∀ l ∈ [0, 1], ((two handling).thr (tid (two handling).curG l)).handler ≠ none ∧
      (src (two handling) l (.g 63)).extractLsb' 52 12 = 0 ∧ (src (two handling) l (.g 63)).extractLsb' 0 3 = 0) ∧
    ((two running).Acts bare (.var .a [.g 63]) [0, 1] ∧ (two running).Handled [0, 1]) ∧
    (let s := issue 0 0 3 3 running; s.Acts bare (.var .a []) [0, 1] ∧ (s.grp s.curG).bound = true ∧ NoReconv s (fun _ => false) [0, 1]) ∧
    (let s := { two running with ops := [⟨7, 0, 3, none, 0, false, none, [], .plain⟩] }; s.Acts bare (.var .a []) [0, 1] ∧
      ∀ l ∈ [0, 1], s.hasOps (tid s.curG l) = true) ∧
    (let s := issue 0 0 2 1 running; s.Acts bare (.var .a []) [0] ∧ s.hasOps (tid s.curG 0) = false ∧ CanPost s (s.dbgSecure (s.grp s.curG).rcb)) :=
  ⟨acts (by decide) rfl, ⟨acts (by decide) rfl, acts (by decide) rfl⟩, ⟨acts (by decide) rfl, by decide⟩,
    ⟨acts (by decide) rfl, by decide, by decide⟩, ⟨acts (by decide) rfl, rfl, .inl (fun z h => absurd h List.not_mem_nil)⟩,
    ⟨acts (by decide) rfl, by decide⟩, acts (by decide) rfl, by decide, canPost _ _ rfl (by decide +kernel) ⟨rfl, rfl⟩ rfl⟩

/-- One outstanding operation of a kind. -/
def pendingOp (k : OpKind) : State := { State.reset with ops := [⟨7, 0, 1, none, 0, true, none, [], k⟩] }

/-- Operations of every kind that ends by `RESULT_COMPLETION`, a scratchpad load of one element, and a trap that waits. -/
theorem witness_OperationsEnd :
    (∀ k, Quiet (pendingOp k) ∧ ((pendingOp k).ops.find? fun x => x.id == 7) = some ⟨7, 0, 1, none, 0, true, none, [], k⟩ ∧ OneOfBow 0 1) ∧
    (∀ x ∈ (pendingOp (.fence [])).ops, x.id ∉ ([] : List Nat)) ∧ (∀ m asid page w, let s := pendingOp (.tlbinv m asid page w)
      s.heldAccesses (s.invMeets m asid w) = false) ∧
    (NoneAsleepSp (pendingOp (.ldx (.nb 0) 4 [(0x40, none, 0), (0x48, some (.lin 0x3000), 0x3000)] 0 0)) ∧
      (∀ x ∈ (pendingOp (.ldx (.nb 0) 4 [(0x40, none, 0), (0x48, some (.lin 0x3000), 0x3000)] 0 0)).ops, 7 ≤ x.id) ∧ Apart [(0x40, 4), (0x48, 4)]) ∧
    (∀ n ∈ [0, 1], let s := { two { running with stat := .trapWait ⟨0, 0, 0⟩ } with ops := List.replicate n ⟨7, 0, 1, none, 0, false, none, [], .plain⟩ }
      s.hole = false ∧ (s.thr 0).stat = .trapWait ⟨0, 0, 0⟩ ∧ s.hasOps 0 = decide (n = 1) ∧ (s.thr 0).handler = none ∧ (s.grpRes (threadGroup 0)).trapvec ≠ 0) := by
  refine ⟨fun k => ⟨quiet _ ⟨rfl, rfl, rfl, rfl, rfl⟩, rfl, fun h => by revert h; decide⟩, by decide,
    fun _ _ _ _ => by simp [State.heldAccesses, pendingOp, State.reset],
    ⟨fun z h => absurd h List.not_mem_nil, by decide, by unfold Apart; decide⟩, by decide⟩

/-- Two threads ready at a clause at 0x2000 (R22). -/
def ready : State :=
  let c := encodeClause (.cpy bare (some (.nb 15)) 6)
  { State.reset with
    mem := (pages.write 0x2000 8 (c.headD 0).toNat).write 0x2008 8 (c.getD 1 0).toNat
    groups := [(0, { Group.free with bound := true, rcb := 0x40, pp := true })]
    threads := [(0, { running with hdr := 0x2000 }), (1, { running with hdr := 0x2000 })]
    clusters := [(0, { Cluster.reset with region := some 0x40, res := region, zs := 0x10000 })] }

def aged : State := (ready.setCore 0 { ready.core 0 with last := 0 }).ageLanes 0 [0, 1] 3
def fetched0 : State × (W64 ⊕ (Nat × Nat)) := aged.fetchWord 0 (aged.grpRes 0) 0x2000
def header : W64 := (encodeClause (.cpy bare (some (.nb 15)) 6)).headD 0
def fetched1 : State × (List W64 ⊕ (Nat × Nat × Nat)) := State.fetchWords 0 (fetched0.1.grpRes 0) (Header.ofWord header).words 0x2008 fetched0.1

theorem witness_IssueAndAdvance_issue :
    (State.reset.hole = false ∧ (State.reset.core 0).sels = [] ∧ ∀ k < 16, State.reset.readyLanes k = []) ∧
    ((ready.core 0).last = 15 ∧ (ready.grp 0).pp = true ∧ ready.readyLanes 0 = [0, 1] ∧ maskOf [0, 1] = 3 ∧
      (∀ i ∈ [0, 1], (ready.thr (tid 0 i)).pc = 0x2000 ∧ (ready.thr (tid 0 i)).handler = none) ∧ (ready.cl 0).stopped = false) ∧
    (fetched0.2 = .inl header ∧ (Header.ofWord header).ok = true ∧ (Header.ofWord header).cls ≠ 5 ∧ (Header.ofWord header).cls ≠ 9 ∧
      0 < (Header.ofWord header).words ∧ (Header.ofWord header).lit.getLsbD 0 = false) ∧
    fetched1.2 = .inl ((encodeClause (.cpy bare (some (.nb 15)) 6)).drop 1) ∧ fetched1.1.hole = false :=
  ⟨⟨rfl, rfl, by decide⟩, ⟨rfl, rfl, by decide, by decide, by decide, rfl⟩, ⟨by decide +kernel, by decide, by decide, by decide, by decide, by decide⟩,
    by decide +kernel, by decide +kernel⟩

/-- A cluster on which two threads wait at `PHASE`, and one that has not arrived. -/
def boundary (x : Thread) : State :=
  { State.reset with
    regions := [⟨0x40, [0], none, 0, [], false, none, false⟩]
    groups := [(0, { Group.free with bound := true, rcb := 0x40 })]
    threads := [(0, { x with live := ⟨0, 0, []⟩ })] ++ (List.range 31).map fun i => (i + 1, { running with stat := .exited })
    sleepers := [⟨9, 0, 1, 0x2000, 0x2008, none, 0, .phase⟩]
    clusters := [(0, { Cluster.reset with region := some 0x40, res := { region with stragt := 1, strap := true }, zs := 0x10000, strag := some 0 })] }

theorem witness_IssueAndAdvance_advance :
    (let s := boundary { running with stat := .sleep 9 };
      s.hole = false ∧ (s.cl 0).region = some 0x40 ∧ s.mayAdvance 0 = true ∧ WaitsApart s ∧ ∀ z ∈ s.sleepers, z.kind ≠ .reconv ∧ ∀ f t, z.kind ≠ .mrgopen f t) ∧
    (∀ z ∈ (boundary { running with stat := .sleep 9 }).regions, z.image = none) ∧
    (boundary running).mayAdvance 0 = false := by
  refine ⟨⟨rfl, rfl, by decide +kernel, ⟨?_, List.pairwise_singleton _ _⟩, ?_⟩, by decide, by decide +kernel⟩
  · intro z h e
    have : z = ⟨9, 0, 1, 0x2000, 0x2008, none, 0, .phase⟩ := List.mem_singleton.1 h
    subst this; rfl
  · intro z h
    have : z = ⟨9, 0, 1, 0x2000, 0x2008, none, 0, .phase⟩ := List.mem_singleton.1 h
    subst this; exact ⟨by decide, fun _ _ h => by cases h⟩

/-- A straggler 1,024 cycles after the first arrival. -/
theorem witness_IssueAndAdvance_straggler : let s := { boundary running with cycle := 1024, sleepers := [] }
    s.hole = false ∧ CanPost s false ∧ (s.cl 0).region = some 0x40 ∧ (s.cl 0).strag = some 0 ∧ (s.cl 0).stragged = false ∧ (s.cl 0).res.stragt ≠ 0 ∧
    0 + 1024 * (s.cl 0).res.stragt.toNat ≤ s.cycle ∧ (s.cl 0).res.trapvec ≠ 0 ∧ s.unarrived 0 = [0] ∧ (∀ z ∈ s.sleepers, z.kind ≠ .reconv) ∧ (s.thr 0).stat = .run ∧
    (s.thr 0).handler = none ∧ (s.thr 0).halt = none ∧ s.inSel 0 = false ∧ s.hasOps 0 = false :=
  ⟨rfl, canPost _ _ rfl (by decide +kernel) ⟨rfl, rfl⟩ rfl, rfl, rfl, rfl, by decide, by decide, by decide, by decide +kernel, fun _ h => absurd h List.not_mem_nil, by decide, rfl, rfl, by decide, by decide⟩

/-- Two threads parked on token 5, a bow's word held at token 6. -/
def parkedOn : State := { two { running with stat := .parked 5 } with awaits := [⟨5, 0, 3, 0x3000, false, false, 0x2000, 0, 0⟩] }
def heldAt : State := { bow running with awaits := [⟨6, 256, 1, 0x3000, false, true, 0x2000, 0, 0⟩] }

theorem witness_FaultPorts_replies :
    (parkedOn.hole = false ∧ (∀ a ∈ parkedOn.awaits, a.tok ≠ 9)) ∧
    ((0x00005#64).extractLsb' 0 16).toNat = 5 ∧ ((0x10005#64).extractLsb' 0 16).toNat = 5 ∧ (parkedOn.awaits.find? fun a => a.tok == 5) = some ⟨5, 0, 3, 0x3000, false, false, 0x2000, 0, 0⟩ ∧
    OneOfBow 0 3 ∧ RealGroup 0 ∧ (parkedOn.grpRes 0).trapvec ≠ 0 ∧
    (∀ i ∈ lanesOf 3, (parkedOn.thr (tid 0 i)).stat = .parked 5 ∧ (parkedOn.thr (tid 0 i)).strag = false ∧
      parkedOn.ldxOwed 0 i = none ∧ (parkedOn.thr (tid 0 i)).handler = none ∧ parkedOn.hasOps (tid 0 i) = false) ∧
    (heldAt.awaits.find? fun a => a.tok == 6) = some ⟨6, 256, 1, 0x3000, false, true, 0x2000, 0, 0⟩ ∧ heldAt.samples = [] ∧ heldAt.sleepers = [] :=
  ⟨⟨rfl, by decide⟩, by decide, by decide, rfl, fun h => absurd h (by decide), ⟨by decide, fun h => absurd h (by decide)⟩, by decide, by decide, rfl, rfl, rfl⟩

/-- A region at the boundary at which it is saved, its image and its accounting area apart from the event queue (R390, R391), with some
events that wait for room. -/
def saving (wait : List (Bool × W512)) : State :=
  let s := boundary { running with stat := .sleep 9 }
  { s with
    mem := [], evWait := wait, sys := { s.sys with btbase := 0x8000 }
    regions := [⟨0x40, [0], some 0, 0, [], false, none, false⟩]
    clusters := [(0, { Cluster.reset with region := some 0x40, res := { region with image := 0x20000, acct := 0x30000 }, zs := 0x10000 })] }
def savedGroup : List Nat := ((saving []).regionGroups 0x40).filter fun g => (groupLanes g).any fun i => ((saving []).thr (tid g i)).stat != .exited
def saved (wait : List (Bool × W512)) : State :=
  (savedGroup.foldl (fun (s : State) g => s.saveEnergy 0x30000 g)
    { saving wait with mem := Memory.put (saving wait).mem 0x20000 ((saving wait).imageBytes 0x40 [0] savedGroup 0) }).modRegion 0x40
      fun z => { z with saving := true }
def freed : State := savedGroup.foldl State.freeSaved { saved [] with
  mem := Memory.put (saved []).mem 0x20004 [(Memory.byte (saved []).mem 0x20004).extractLsb' 4 4 ++ 2#4] }

theorem witness_FaultPorts_saves :
    (∀ w ∈ [[], [(false, 0#512)]], ((saving w).regions.find? fun x => x.rcb == 0x40) = some ⟨0x40, [0], some 0, 0, [], false, none, false⟩ ∧
      (saving w).maySave ⟨0x40, [0], some 0, 0, [], false, none, false⟩ = true ∧ (saved w).hole = false ∧
      (saved w).acctOwed 0x40 = false ∧ (saved w).evOpen = w.isEmpty) ∧
    ((boundary running).maySave ⟨0x40, [0], none, 0, [], false, none, false⟩ = false ∧ savedGroup = [0] ∧ RealGroup 0 ∧
      (∀ w d, ((saving w).cl d).mHolder = none) ∧ physOkN 0x20000 ((saving []).imageBytes 0x40 [0] savedGroup 0).length = true ∧
      physOkN 0x20004 1 = true ∧ freed.hole = false ∧ CanPost freed false) ∧
    (((saving []).cl 0).res.resident = false ∧ ((saving []).grp 0).bound = true ∧
      (boundary running).regions = [⟨0x40, [0], none, 0, [], false, none, false⟩] ∧ CanPost (boundary running) false) ∧
    (((saving []).killDomain 0).hole = false ∧ mwf Group.free (saving []).groups = true ∧ ((saving []).cl 0).res.fdom = 0 ∧
      NoneAsleepSp (saving []) ∧ (saving []).regions.Pairwise (fun a b => a.rcb ≠ b.rcb) ∧ ∀ x ∈ (saving []).regions, x.clusters ≠ []) := by
  refine ⟨fun w h => ?_, ⟨by decide +kernel, by decide +kernel, ⟨by decide, fun h => absurd h (by decide)⟩, fun w d => ?_, by decide +kernel,
    by decide, by decide +kernel, canPost _ _ (by decide +kernel) (by decide +kernel) (by decide +kernel) (by decide +kernel)⟩,
    ⟨rfl, rfl, rfl, canPost _ _ rfl (by decide +kernel) ⟨rfl, rfl⟩ rfl⟩, by decide +kernel, by decide, rfl, ?_, List.pairwise_singleton _ _, by decide⟩
  · simp only [List.mem_cons, List.not_mem_nil, or_false] at h
    rcases h with rfl | rfl <;> exact ⟨rfl, by decide +kernel, by decide +kernel, by decide +kernel, by decide +kernel⟩
  · by_cases h : d = 0
    · subst h; rfl
    · simp [saving, boundary, State.cl, mget, h, Cluster.reset]
  · intro z h
    have : z = ⟨9, 0, 1, 0x2000, 0x2008, none, 0, .phase⟩ := List.mem_singleton.1 h
    subst this; exact ⟨fun _ _ _ _ _ h => (by cases h), fun _ _ _ h => (by cases h)⟩

/-- A killed region of no group, copy, operation or pending record ends at once. -/
theorem witness_FaultPorts_kill : let s := { boundary running with groups := [], sleepers := [] }
    s.regions = [⟨0x40, [0], none, 0, [], false, none, false⟩] ∧ (s.cl 0).res.fdom = 0 ∧ s.evOpen = true ∧ (∀ g, (s.grp g).bound = false) ∧
    s.pending = [] ∧ (∀ q < 4, s.copies q = []) ∧ (∀ n < 8, (s.course n).ops = []) ∧ (s.killDomain 0).hole = false :=
  ⟨rfl, rfl, by decide +kernel, fun _ => rfl, rfl, by decide, by decide, by decide +kernel⟩

/-- A debugger holds the region's right: lanes with an operation under way, and one without. -/
theorem witness_TrapAndBreak_halts :
    (let s := { two running with attached := [(0x40, 1)], ops := [⟨7, 0, 3, none, 0, false, none, [], .plain⟩] };
      s.Acts bare (.fixA 1 []) [0, 1] ∧ s.Handled [0, 1] ∧ (∃ a ∈ s.attached, a.1 = (s.grp s.curG).rcb) ∧ (s.grp s.curG).bound = true ∧
      NoReconv s (fun _ => false) [0, 1] ∧ ∀ l ∈ [0, 1], s.hasOps (tid s.curG l) = true) ∧
    (let s := { issue 0 0 2 1 running with attached := [(0x40, 1)] }; s.Acts bare (.fixA 1 []) [0] ∧ s.Handled [0] ∧
      (∃ a ∈ s.attached, a.1 = (s.grp s.curG).rcb) ∧ NoReconv s (fun _ => false) [0] ∧ s.hasOps (tid s.curG 0) = false ∧
      CanPost s (s.dbgSecure (s.grp s.curG).rcb)) :=
  ⟨⟨acts (by decide) rfl, ⟨by decide, by decide⟩, ⟨_, List.mem_singleton_self _, rfl⟩, rfl, .inl (fun z h => absurd h List.not_mem_nil), by decide⟩,
    acts (by decide) rfl, ⟨by decide, by decide⟩, ⟨_, List.mem_singleton_self _, rfl⟩, .inl (fun z h => absurd h List.not_mem_nil), by decide,
    canPost _ _ rfl (by decide +kernel) ⟨rfl, rfl⟩ rfl⟩
/-! ## Witnesses: starts, the debug port -/

/-- Numbers read from bytes that agree. -/
theorem read_congr (m m' : Memory) (n : Nat) : ∀ a, (∀ i < n, Memory.byte m (a + i) = Memory.byte m' (a + i)) → Memory.read m a n = Memory.read m' a n := by
  induction n with
  | zero => exact fun _ _ => rfl
  | succ n ih =>
    intro a h
    rw [Memory.read, Memory.read, ih (a + 1) fun i hi => by have := h (i + 1) (by omega); rwa [Nat.add_comm i 1, ← Nat.add_assoc] at this,
      show Memory.byte m a = Memory.byte m' a from h 0 (by omega)]

/-- Posting does not look at a byte beyond the descriptor. -/
theorem canPost_with (s : State) (secure : Bool) (a : Nat) (m : Memory) (h : s.hole = false) (z : s.rd 0 64 = 0)
    (q : s.sys.evqs = 0 ∧ s.sys.evqn = 0) (w : s.evWait = []) (far : 64 ≤ a) (k : ∀ A, A ≠ a → Memory.byte m A = Memory.byte s.mem A) :
    CanPost { s with mem := m } secure :=
  canPost _ _ h ((read_congr m s.mem 64 0 fun i hi => k _ (by omega)).trans z) q w

/-- A root node at 0x4000, bind records 0 and 1 and the bow's of cluster 0 at 0x8000, the second with a reserved bit set, and an image (R354, R357, R392). -/
def bowRec : W256 := BitVec.ofNat 256 (0x4000 + 2 ^ 48 + 2 ^ 192)
def groupRec : W256 := BitVec.ofNat 256 (0x4000 + 2 ^ 48 + 2 ^ 112 + 3 * 2 ^ 192)
def binding (image : Nat) : State :=
  { State.reset with
    mem := (Memory.write [] 0x4020 2 0xFFFF).write 0x4078 6 image |>.write 0x8000 32 groupRec.toNat |>.write 0x8020 8 (0x4000 + 2 ^ 48 + 2 ^ 60)
      |>.write 0x28000 32 bowRec.toNat |>.write 0x20000 8 (0x494D4731 + 2 ^ 33) |>.write 0x20018 8 208 |>.write 0x20080 8 (1 + 2 ^ 37)
      |>.write 0x20090 32 bowRec.toNat |>.write 0x200B0 8 (2 + 2 ^ 36)
    sys := { SysRegs.reset with btbase := 0x8000 }
    pending := [(0, groupRec, none), (4096, bowRec, none)] }

def node (image : Nat) : Resolved := { Resolved.zero with clmask := 0xFFFF, image := BitVec.ofNat 48 image, limits := [(0x4000, 0)] }

/-- `BINDGO` of a record out of range, of one with a reserved bit set, and of a good one. -/
theorem witness_Starts_bind : let s := binding 0
    s.hole = false ∧ 4111 < ((4112#64).extractLsb' 0 13).toNat ∧
    (let r := BitVec.ofNat 256 (Memory.read s.mem (s.sys.btbase.toNat + 32 * 1) 32);
      r.extractLsb' 48 3 = 1 ∧ s.resolve (recField r 47 0) = some (node 0) ∧ Refused s 1 r (node 0)) ∧
    (physOkN (stateAt s 1) 1 = true ∧ ∀ m, (∀ A, A ≠ stateAt s 1 → Memory.byte m A = Memory.byte s.mem A) → CanPost { s with mem := m } false) ∧
    (let r := BitVec.ofNat 256 (Memory.read s.mem (s.sys.btbase.toNat + 32 * 0) 32); r.extractLsb' 48 3 = 1 ∧ s.bindOk 0 r = true) :=
  ⟨rfl, by decide, ⟨by decide +kernel, by decide +kernel, .inr (.inr (.inl (by decide +kernel)))⟩,
    ⟨by decide, fun m k => canPost_with _ _ _ m rfl (by decide +kernel) ⟨rfl, rfl⟩ rfl (by decide) k⟩, by decide +kernel, by decide +kernel⟩

/-- A workgroup of one group on a cluster of its region. -/
theorem witness_Starts_group : let s := { binding 0 with clusters := [(0, { Cluster.reset with region := some 0x4000, res := node 0 })] }
    s.hole = false ∧ (s.pending.find? fun p => p.1 == 0) = some (0, groupRec, none) ∧ (s.cl 0).region = some (groupRec.extractLsb' 0 48) ∧
    (s.wgRecords 0 groupRec = [(0, groupRec, none)] ∧ (∀ p ∈ s.wgRecords 0 groupRec, p.2.2 = none)) ∧ s.wgReady 0 groupRec = true ∧ s.roomAt 0 0 (256 * recField groupRec 125 112) = true ∧
    s.roomAt 0 (0x200000 - 256) (256 * recField groupRec 125 112) = true ∧ s.restoring (recField groupRec 47 0) = none ∧ groupRec.getLsbD 176 = false ∧
    (∃ k < 32, groupRec.getLsbD (192 + k) = true) ∧ physOkN (stateAt s 0) 1 = true :=
  ⟨rfl, by decide, by decide, ⟨by decide +kernel, by decide +kernel⟩, by decide +kernel, by decide +kernel, by decide +kernel, by decide +kernel, by decide, ⟨0, by decide, by decide⟩, by decide⟩

/-- A region that starts on cluster 0, and one that resumes there from its image. -/
theorem witness_Starts_region : (∀ im ∈ [0, 0x20000], let s := binding im
      s.hole = false ∧ s.bowRecord 0 = some bowRec ∧ (s.cl 0).region = none ∧ (s.grp 256).bound = false ∧ (s.cl 0).retired = false ∧ s.regions = [] ∧
      s.resolve (bowRec.extractLsb' 0 48).toNat = some (node im) ∧ (∀ b ∈ List.replicate 16 0, b + 256 * (node im).zs ≤ 0x200000) ∧
      bowRec.getLsbD 192 = true ∧ bowRec.getLsbD 176 = false ∧ physOkN (stateAt s 4096) 1 = true ∧ s.imageReady (node im) = decide (im ≠ 0)) ∧
    (let s := binding 0x20000; let y : GroupImg := ⟨0, 0, bowRec, [⟨2, 0, 0, 0x200C0, 16⟩]⟩;
      s.latent = [] ∧ NoneAsleepSp s ∧ (s.imageAt 0x20000).sectionFor [0] 4096 bowRec = some y ∧ (s.imageAt 0x20000).groups = [y] ∧
      (y.parts.find? fun z => z.kind == 2 && z.index == 0) = some ⟨2, 0, 0, 0x200C0, 16⟩) ∧
    Memory.bytes (Memory.put [] 0x200C0 (threadPayload running)) 0x200C0 (threadPayload running).length = threadPayload running :=
  ⟨by decide +kernel, ⟨rfl, fun z h => absurd h List.not_mem_nil, by decide +kernel, by decide +kernel, by decide⟩, by decide +kernel⟩

/-- What holds of a map's default and of all its values holds of what it gives. -/
theorem mget_all {α : Type} {P : α → Prop} (d : α) (m : FMap α) (hd : P d) (h : ∀ e ∈ m, P e.2) (k : Nat) : P (mget d m k) := by
  induction m with
  | nil => exact hd
  | cons e l ih =>
    obtain ⟨j, v⟩ := e
    rw [mget]
    split
    · exact h (j, v) (List.mem_cons_self ..)
    · exact ih fun e he => h e (List.mem_cons_of_mem _ he)

/-- A region with the debug right, held by management core 1, its lane 0 running or halted. -/
def debugged (x : Thread) (held : List (BitVec 48 × BitVec 2)) : State :=
  { two x with
    attached := held
    mem := []
    regions := [⟨0x40, [0], none, 0, [], false, none, false⟩]
    clusters := [(0, { Cluster.reset with region := some 0x40, res := { region with debug := true }, zs := 0x10000 })] }

def halted : Thread := { running with halt := some ⟨3, 0, true⟩, g := [(5, 9)], v := [(5, ⟨1, 0x10⟩)] }

/-- A command of an operation on lane 0 with a register class, a register number and an element. -/
def command (op kind n elem : Nat) : W64 := BitVec.ofNat 64 (op + (64 * kind + n) * 2 ^ 25 + elem * 2 ^ 34)

/-- A reserved bit, no right, no halt; then lanes that run, are halted, and end a step. -/
theorem witness_DebugPort :
    (let s := debugged running [(0x40, 1)]; s.hole = false ∧ CanPost s (1#2 == 0) ∧ ¬CleanCmd (command 4 1 5 0 ||| 0x8000000000000000) 4 ∧
      CleanCmd (command 4 1 5 0) 4 ∧ HasRight s 1 (named (command 4 1 5 0)) ∧ ¬Halted s 0 ∧ (s.thr 0).halt = none ∧ (s.thr 0).stat = .run ∧
      s.hasOps 0 = false ∧ CanPost s (s.dbgSecure (rcbOf s 0)) ∧ CleanCmd (command 1 0 0 0) 1 ∧ s.sleepers = [] ∧ mwf Group.free s.groups = true) ∧
    ¬HasRight (debugged running []) 1 (named (command 4 1 5 0)) ∧
    (let s := debugged halted [(0x40, 1)]; CanPost s (1#2 == 0) ∧ HasRight s 1 0 ∧ Halted s 0 ∧ (s.thr 0).strag = false ∧ (∀ k, (s.thr 0).stat ≠ .parked k) ∧
      physOkN ((rcbOf s 0).toNat + 56) 1 = true ∧ (∀ m, Edited s.mem m (rcbOf s 0) → CanPost { s with mem := m } (1#2 == 0)) ∧
      (∃ y, (s.thr 0).arch (.v 5) = .v y) ∧ ∃ b, (s.thr 0).arch (.p 5) = .p b) ∧
    (∀ op ∈ [2, 3], elemOf (command op 0 0 0) = 0 ∧ CleanCmd (command op 0 0 0) (BitVec.ofNat 8 op)) ∧
    (∀ op ∈ [4, 5], (∀ kind ∈ [1, 4], (command op kind 5 0).extractLsb' 25 9 = BitVec.ofNat 3 kind ++ 5#6 ∧ elemOf (command op kind 5 0) = 0 ∧
      CleanCmd (command op kind 5 0) (BitVec.ofNat 8 op)) ∧ ∀ e ∈ [0, 1, 2], (command op 2 5 e).extractLsb' 25 9 = 2#3 ++ 5#6 ∧ elemOf (command op 2 5 e) = e ∧
      CleanCmd (command op 2 5 e) (BitVec.ofNat 8 op)) ∧
    (CleanCmd (command 4 3 7 1023) 4 ∧ elemOf (command 4 3 7 1023) = 1023 ∧ ∀ op ∈ [7, 8], ∀ e ∈ [0, 3, 4], (command op 3 7 e).extractLsb' 25 9 = 3#3 ++ 7#6 ∧
      elemOf (command op 3 7 e) = e ∧ CleanCmd (command op 3 7 e) (BitVec.ofNat 8 op)) := by
  refine ⟨⟨rfl, canPost _ _ rfl (by decide) ⟨rfl, rfl⟩ rfl, by unfold CleanCmd; decide, by unfold CleanCmd; decide, by unfold HasRight; decide,
    fun ⟨r, c, h⟩ => absurd (show none = some (⟨r, c, true⟩ : Machine.Halted) from h) (by simp), rfl, rfl, by decide, canPost _ _ rfl (by decide) ⟨rfl, rfl⟩ rfl,
    by unfold CleanCmd; decide, rfl, by decide⟩, by unfold HasRight; decide, ⟨canPost _ _ rfl (by decide) ⟨rfl, rfl⟩ rfl, by unfold HasRight; decide, ⟨_, _, rfl⟩, rfl,
    fun k h => TStat.noConfusion (show TStat.run = .parked k from h), by decide, fun m e => canPost_with _ _ _ m rfl (by decide) ⟨rfl, rfl⟩ rfl (by decide) e.2,
    ⟨_, rfl⟩, _, rfl⟩, by unfold CleanCmd; decide, by unfold CleanCmd; decide, by unfold CleanCmd; decide⟩

/-- A lane that is held at its word, and halted lanes without a halt to come. -/
theorem witness_DebugPort_held :
    (let s := { debugged running [(0x40, 1)] with cores := [(0, { CoreSt.reset with sels := [⟨0, 3, 0x1000, 0, [], 0, 0, .bounds 0⟩] })] };
      (∀ z ∈ s.sleepers, z.kind ≠ .reconv) ∧ (s.thr 0).halt = none ∧ ∃ y ∈ (s.core 0).sels, y.slot = 0 ∧ y.lanes.getLsbD 0 = true ∧ y.held ≠ .no) ∧
    (((debugged halted [(0x40, 1)]).thr 0).haltReq = none ∧ (0x40#48).toNat + 56 < 2 ^ 48) :=
  ⟨⟨by decide, rfl, _, List.mem_singleton_self _, rfl, by decide, by decide⟩, rfl, by decide⟩

/-- A halt of reason 4 to report, and requests for the right and about it. -/
theorem witness_DebugPort_region :
    (let s := debugged { running with halt := some ⟨4, 0, false⟩, stepping := true } [(0x40, 1)];
      s.hole = false ∧ (s.thr 0).halt = some ⟨4, 0, false⟩ ∧ s.hasOps 0 = false ∧ CanPost s (s.dbgSecure (rcbOf s 0))) ∧
    (let s := debugged halted []; s.hole = false ∧ CanPost s (1#2 == 0) ∧ elemOf (command 0 0 0 0) = 0 ∧ CleanCmd (command 0 0 0 0) 0 ∧
      (∃ x, s.regionRes 0x40 = some x) ∧ CleanCmd (command 6 0 0 0) 6 ∧ ((0x40#48, 1#2) ∉ s.attached)) ∧
    (let s := debugged halted [(0x40, 1)]; (0x40#48, 1#2) ∈ s.attached ∧ s.sleepers = [] ∧ (∀ t, (s.thr t).strag = false ∧ (s.thr t).haltReq = none) ∧ mwf Group.free s.groups = true) := by
  refine ⟨⟨rfl, rfl, by decide, canPost _ _ rfl (by decide) ⟨rfl, rfl⟩ rfl⟩, ⟨rfl, canPost _ _ rfl (by decide) ⟨rfl, rfl⟩ rfl, by decide, by unfold CleanCmd; decide,
    ⟨_, rfl⟩, by unfold CleanCmd; decide, by decide⟩, by decide, rfl, fun t => ?_, by decide⟩
  exact mget_all (P := fun (x : Thread) => x.strag = false ∧ x.haltReq = none) _ _ ⟨rfl, rfl⟩ (by decide) t
/-! ## Witnesses: management, service, slices -/

/-- A non-secure queue of two slots at 0x1000 with a tail and a waiting record (R382), and a cluster with an accounting area, group queues at 0x3000 and a time-out. -/
def managed (tail : Nat) : State :=
  let s := issue 16 0 1 1 running
  { s with
    mem := (pages.write 0x800 8 0x1000).write 0x808 1 1 |>.write 0x80C 4 tail |>.write 0x3000 8 0x4000 |>.write 0x3008 4 1 |>.write 0x30008 4 1
    sys := { SysRegs.reset with evqn := 0x800, btbase := 0x8000 }
    clusters := [(0, { Cluster.reset with region := some 0x40, res := { region with gqbase := 0x3000, acct := 0x30000 }, zs := 0x10000, qtimers := [(3, 5)] })]
    cycle := 5 }

/-- A queue whose descriptor and next slot lie in memory takes a record. -/
theorem canPost_at (s : State) (secure : Bool) (h : s.hole = false)
    (k : let D := queueOf s secure; let d := s.rd D 64;
      physOkN D 64 = true ∧ physOkN (bits d 47 0 + 64 * (bits d 127 96 % 2 ^ bits d 68 64)) 64 = true ∧ physOkN (D + 12) 4 = true) : CanPost s secure := by
  intro r
  have l : ∀ x, (leBytes x 64).length = 64 := fun x => by simp [leBytes]
  have l4 : ∀ x, (leBytes x 4).length = 4 := fun x => by simp [leBytes]
  obtain ⟨k1, k2, k3⟩ := k
  show (if (s.evWait.any fun x => x.1 == secure) || !s.evRoom (queueOf s secure) then { s with evWait := s.evWait ++ [(secure, r)] }
    else s.evAppend (queueOf s secure) r).hole = false
  split
  · exact h
  · simp only [State.evAppend, State.reach, k1, if_true, State.wr, State.wrBytes, l, l4, k2, k3, h]

theorem witness_ManagementWrites_posts :
    (let s := managed 2; 2 ^ (Memory.read s.mem (queueOf s false + 8) 1 % 32) ≤ (Memory.read s.mem (queueOf s false + 12) 4 + 2 ^ 32 - Memory.read s.mem (queueOf s false + 16) 4) % 2 ^ 32) ∧
    (let s := managed 1; (Memory.read s.mem (queueOf s false + 12) 4 + 2 ^ 32 - Memory.read s.mem (queueOf s false + 16) 4) % 2 ^ 32 <
        2 ^ (Memory.read s.mem (queueOf s false + 8) 1 % 32) ∧ s.evWait = [] ∧
      physOkN (queueOf s false) 64 = true ∧ physOkN (queueOf s false + 12) 4 = true ∧ Memory.read s.mem (queueOf s false) 6 = 0x1000 ∧
      physOkN (0x1000 + 64) 64 = true ∧ queueOf s false + 64 ≤ 0x1000 + 64) := by decide +kernel

/-- `WTSYNC` asked for, with a changed block on which nothing is bound, and on which something is. -/
theorem witness_ManagementWrites_sync :
    (State.reset.wtSync = false ∧ { State.reset with wtSync := true }.wtReady = true) ∧
    (let s := { State.reset with world := [(1, 1)] }; s.wtReady = true ∧ (Memory.byte s.mem (s.sys.wtbase.toNat + 1)).getLsbD 0 ≠ (mget 0 s.world 1).getLsbD 0) := by
  decide +kernel

/-- A full queue whose reader frees both slots, without a waiting record and with one. -/
theorem witness_ManagementWrites_heads : let s := { managed 2 with evWait := [(false, 0)] }
    let s1 := { s with mem := Memory.write s.mem (queueOf s false + 16) 4 2, evWait := [] }
    s.hole = false ∧ physOkN (queueOf s false) 64 = true ∧ physOkN (queueOf s false + 16) 4 = true ∧ (managed 2).evWait = [] ∧
    s.evWait.filter (fun x => x.1 == false) = [(false, 0)] ∧
    (Memory.read s1.mem (queueOf s false + 12) 4 + 2 ^ 32 - (2#32).toNat) % 2 ^ 32 < 2 ^ (Memory.read s1.mem (queueOf s false + 8) 1 % 32) ∧
    CanPost s1 false :=
  ⟨rfl, by decide, by decide, rfl, rfl, by decide +kernel, canPost_at _ _ rfl (by decide +kernel)⟩

/-- A full accounting area of one slot, without a group that waits for it and with one. -/
theorem witness_ManagementWrites_accounting : let s := { managed 0 with acctWait := [(0x30000, 0, some 256)] }
    s.hole = false ∧ (s.cl (0#4).toNat).res.acct.toNat = 0x30000 ∧ physOkN 0x30000 64 = true ∧ physOkN 0x30000 4 = true ∧ (managed 0).acctWait = [] ∧
    Memory.read s.mem (0x30000 + 8) 4 = 1 ∧ (1 + 2 ^ 32 - (1#32).toNat) % 2 ^ 32 < 2 ^ (Memory.read s.mem (0x30000 + 16) 1 % 32) ∧
    physOkN (0x30000 + 64) 64 = true ∧ physOkN (0x30000 + 8) 4 = true ∧ physOkN (stateAt s (s.grp 256).recIdx) 1 = true ∧
    (s.cl (coreCluster (groupCore 256))).mHolder = none ∧ stateAt s (s.grp 256).recIdx < 0x30000 := by decide +kernel

/-- Queue 0 of cluster 0 and its descriptor, with an `EMIT` that waits for it; and queue 3, whose time-out expires in this cycle. -/
def waitsEmit : Sleeper := ⟨9, 0, 1, 0x2000, 0x2008, none, 0, .emit [(0, 0, 0)]⟩
def emitWaits : State := { managed 0 with sleepers := [waitsEmit] }
def descriptor : State × Tr := (managed 0).translate 16 ((managed 0).cl 0).res Need.load 0x3000
def descriptorW : State × Tr := emitWaits.translate 16 (emitWaits.cl 0).res Need.load 0x3000
def lettingIn : State × List (Nat × BitVec 16 × W512) × List (Nat × LaneRes) :=
  State.emitAll 0 [(0, 0, 0)] (descriptorW.1.writePhys 200000 ((Phys.lin 0x3000).add 12) (leBytes 1 4))

theorem witness_ManagementWrites_queue :
    ((managed 0).hole = false ∧ ((managed 0).cl 0).region ≠ none ∧ 0 < ((managed 0).cl 0).res.gqcount.toNat ∧ descriptor.2 = .ok (.lin 0x3000) ∧
      descriptor.1.hole = false ∧ (managed 0).sleepers = []) ∧
    (waitsEmit ∈ emitWaits.sleepers ∧ waitsEmit.kind = .emit [(0, 0, 0)] ∧ descriptorW.2 = .ok (.lin 0x3000) ∧ descriptorW.1.hole = false ∧
      lettingIn.2 = ([], []) ∧ lettingIn.1.hole = false ∧ lettingIn.1.sleepers = [waitsEmit]) := by
  refine ⟨⟨rfl, by decide, by decide, by decide +kernel, by decide +kernel, rfl⟩, List.mem_singleton.2 rfl, rfl, by decide +kernel, by decide +kernel,
    by decide +kernel, by decide +kernel, by decide +kernel⟩

/-- A graph queue whose descriptor's page is not mapped, and a launch record with a reserved field set. -/
def unmapped : State := (managed 0).setCl 0 { (managed 0).cl 0 with res := { region with gqbase := 0x70003000 } }
def lost : State × Tr := unmapped.translate 16 (unmapped.cl 0).res Need.load 0x70003000

theorem witness_ManagementWrites_fault : (unmapped.cl 0).region ≠ none ∧ 0 < (unmapped.cl 0).res.gqcount.toNat ∧ (∃ ty pl, lost.2 = .fault ty pl) ∧
    lost.1.hole = false ∧ unmapped.hole = false := by
  have h : (match lost.2 with | .fault _ _ => true | _ => false) = true := by decide +kernel
  refine ⟨by decide, by decide, ?_, by decide +kernel, rfl⟩
  split at h
  · next a b e => exact ⟨a, b, e⟩
  · exact Bool.noConfusion h

theorem witness_ManagementWrites_launch : let s := { State.reset with launches := [(0x40, (1 : W512) <<< 48)] }
    s.hole = false ∧ physOkN 0 64 = true ∧ physOkN 16 4 = true ∧ State.reset.launches = [] ∧ (1#32).toNat = (Memory.read s.mem 16 4 + 1) % 2 ^ 32 ∧
    ((1 : W512) <<< 48).extractLsb' 48 16 ≠ 0 ∧ CanPost s false :=
  ⟨rfl, by decide, by decide, rfl, by decide, by decide +kernel, canPost _ _ rfl (by decide) ⟨rfl, rfl⟩ rfl⟩

def expired : State := (managed 0).setCl 0 { (managed 0).cl 0 with qtimers := mset 0 ((managed 0).cl 0).qtimers 3 0 }
def timeOut : State × Tr := expired.translate 16 (expired.cl 0).res Need.load (0x3000 + 64 * 3)

theorem witness_ManagementWrites_timeout : mget 0 ((managed 0).cl 0).qtimers 3 = 5 ∧ (managed 0).cycle = 5 ∧ 3 < ((managed 0).cl 0).res.gqcount.toNat ∧
    timeOut.2 = .ok (.lin 0x30C0) ∧ timeOut.1.hole = false ∧ CanPost timeOut.1 false ∧ timeOut.1.writes = [] ∧ mget 0 ((managed 0).cl 0).qtimers 2 = 0 :=
  ⟨by decide, rfl, by decide, by decide +kernel, by decide +kernel, canPost_at _ _ (by decide +kernel) (by decide +kernel), by decide +kernel, by decide⟩

/-- A write of the retirement register. -/
def retires (kind n c : Nat) : W64 := BitVec.ofNat 64 (2 ^ 31 + kind * 2 ^ 27 + n * 2 ^ 12 + c)

theorem witness_ServiceAndReset_retires :
    (∀ e ∈ [(0, 7), (1, 15), (2, 63), (3, 4), (4, 27), (5, 0)], RetireWrite (retires e.1 e.2 15) (BitVec.ofNat 4 e.1) e.2 ∧ retireAt (retires e.1 e.2 15) = 15) ∧
    (0#64).getLsbD 31 = false ∧ ((State.reset.course 127).ops = []) ∧
    (let s := harp (.mtopk 0 0 false) [] none false []; (s.course 1).ops = [⟨9, 0, .mtopk 0 0 false⟩] ∧ Quiet s ∧ Lone s 1 ∧ (s.course 1).count ≠ 254#8) ∧
    (let s := two running; (∃ e ∈ s.groups, e.1 / 16 = 0 ∧ e.2.bound = true) ∧ mget false s.coresGone 0 = false ∧ ∀ e ∈ s.groups, e.1 / 16 = 1 → e.2.bound = false) :=
  ⟨by unfold RetireWrite; decide, by decide, rfl, ⟨rfl, (head_harp _ _ _ _ _ (fun t h => HarpOp.noConfusion h)).1, (head_harp _ _ _ _ _ (fun t h => HarpOp.noConfusion h)).2.1, by decide⟩,
    by decide⟩

/-- One packet bound east from cluster 5. -/
def eastward : State := { State.reset with routers := [(inKey false 5 0 (TClass.ofCode 0), [⟨7, false, [2, 0], [], TClass.ofCode 0, 1, 0, 0, false⟩])] }

/-- One packet bound for port 1 at a cluster. -/
def outward (b : Nat) : State :=
  { State.reset with routers := [(inKey false b 0 (TClass.ofCode 0), [⟨7, false, [5, 1, 0, 0], [], TClass.ofCode 0, 1, 0, 0, false⟩])] }

theorem witness_ServiceAndReset_links : heldBy State.reset 5 (fun p => p.out == 2) = [] ∧
    heldBy eastward 5 (fun p => p.out == 2) = [(inKey false 5 0 (TClass.ofCode 0), ⟨7, false, [2, 0], [], TClass.ofCode 0, 1, 0, 0, false⟩)] ∧
    CanPost eastward false ∧ (∀ b, (heldBy State.reset b fun q => q.out == 5) = []) ∧ (∀ p < 28, ∀ v < 8, mget [] State.reset.portq (8 * p + v) = []) ∧
    (let b := (Config.portCluster 1).toNat; heldBy (outward b) b (fun q => q.out == 5 && (outward b).portOf q == some 1) =
        [(inKey false b 0 (TClass.ofCode 0), ⟨7, false, [5, 1, 0, 0], [], TClass.ofCode 0, 1, 0, 0, false⟩)] ∧ CanPost (outward b) false) := by
  refine ⟨by decide, by decide, canPost _ _ rfl (by decide) ⟨rfl, rfl⟩ rfl, fun b => ?_, fun _ _ _ _ => rfl, ?_, canPost _ _ rfl (by decide) ⟨rfl, rfl⟩ rfl⟩
  · simp [heldBy, State.queueAt, State.reset, mget]
  · exact (by decide +kernel : ∀ b : BitVec 4, heldBy (outward b.toNat) b.toNat (fun q => q.out == 5 && (outward b.toNat).portOf q == some 1) =
      [(inKey false b.toNat 0 (TClass.ofCode 0), ⟨7, false, [5, 1, 0, 0], [], TClass.ofCode 0, 1, 0, 0, false⟩)]) _

/-- No image (whether a signature verifies is the implementation's, log entry 8); a trip of a die on which nothing runs, and of one with a region. -/
theorem witness_ServiceAndReset_boot : (∀ f ∈ [([] : List Byte)], ∀ b, ¬GoodImage f b) ∧ State.reset.regions = [] ∧
    (let s := saving []; (∃ x ∈ s.regions, ∃ c ∈ x.clusters, c < 16 ∧ c / 8 = 0 ∧ c % 4 / 2 = 0) ∧ ∀ x ∈ s.regions, (s.cl (x.clusters.headD 0)).res.fdom = 0) := by
  refine ⟨fun f hf b h => ?_, rfl, by decide⟩
  have : f = [] := List.mem_singleton.1 hf
  subst this
  exact absurd h.1 (by decide)

/-- A slice at a cycle past its first window, with a copy of a row under way, a rehash at its last unit but one and its last, a count at the threshold. -/
def sliced (x : Slice) : State := { State.reset with slices := [(0, x)], cycle := 2 ^ 20 }

theorem witness_Slices :
    (State.reset.hole = false ∧ 24576 ≤ ((0x7FFF#64).extractLsb' 0 15).toNat ∧ ((0x5FFF#64).extractLsb' 0 15).toNat < 24576 ∧
      State.reset.granule (0x5FFF * 0x200000) = 0 ∧ { State.reset with world := [(0x1000, 1)] , mem := [(0x1000, 1)] }.granule 0 ≠ 0 ∧
      ¬((1#2) = 0 ∨ (mget 0 State.reset.world (0x5D + 1)).getLsbD 0 = true)) ∧
    (let s := sliced { Slice.reset with counts := [(3, 4096)] }; (s.slice 0).auto = true ∧ (s.slice 0).busy = false ∧ (∃ k ∈ (s.slice 0).counts, (s.slice 0).thresh.toNat ≤ k.2) ∧
      s.cycle / 2 ^ 20 ≠ (s.slice 0).window) ∧
    (∀ wm ∈ [24574, 24575], let s := sliced { Slice.reset with busy := true, wm := wm }; (s.slice 0).busy = true ∧ ((s.slice 0).wm + 1 < 24576 ∨ 24575 ≤ (s.slice 0).wm)) ∧
    ((State.reset.slice 0).spState ≠ 1 ∧ ((0x0000BFFF#64).extractLsb' 0 16).toNat < 49152 ∧ 49152 ≤ ((0x0000C000#64).extractLsb' 0 16).toNat) ∧
    (∀ n ∈ [(30#5), 31#5].map BitVec.toNat, let s := sliced { Slice.reset with spState := 1, spDone := BitVec.ofNat 5 n }; (s.slice 0).spState = 1 ∧ s.latent = []) ∧
    (let y := Slice.reset.decode 0
      let s := { sliced { Slice.reset with spState := 1, spDone := BitVec.ofNat 5 y.column, spJob := (256 * y.pc + 16 * y.bank, y.row) } with latent := [⟨7, 0⟩] }
      ∃ l ∈ s.latent, l.code = 7 ∧ 0 ≤ 32 * l.place ∧ 32 * l.place < 0x0C00000000 ∧ let z := (s.slice 0).decode (32 * l.place)
      z.pc = (s.slice 0).spJob.1 / 256 ∧ z.bank = (s.slice 0).spJob.1 / 16 % 16 ∧ z.row = (s.slice 0).spJob.2 ∧ z.column = (s.slice 0).spDone.toNat) ∧
    (State.reset.cycle / 14040 - mget 0 (State.reset.slice 0).paid 0 = 0 ∧ (sliced Slice.reset).cycle / 14040 - mget 0 ((sliced Slice.reset).slice 0).paid 1023 ≠ 0) ∧
    (0xBFFFFFFF < (if true then 0xC0000000 else 0x60000000) ∧ (State.reset.slice 0).scrubEn = true ∧ (sliced { Slice.reset with scrubEn := false }).slice 0 ≠ Slice.reset ∧
      (⟨7, 0⟩ : Latent) ∉ State.reset.latent ∧ (let x := State.reset.slice 0; mget 0 x.scrubbed 0 ≠ State.reset.cycle / (2 ^ 20 * x.scrubPeriod.toNat) + 1 ∧
        mget 0 x.corrected 0 + 1 = State.reset.cycle / (2 ^ 20 * x.scrubPeriod.toNat) + 1) ∧
      (let s := sliced { Slice.reset with corrected := [(0, 7)] }; mget 0 (s.slice 0).corrected 0 + 1 ≠ s.cycle / (2 ^ 20 * (s.slice 0).scrubPeriod.toNat) + 1)) :=
  ⟨by decide +kernel, by decide +kernel, by decide +kernel, by decide +kernel, by decide +kernel, by decide +kernel, by decide +kernel, by decide +kernel⟩

theorem witness_Slices_posts : (∀ b, CanPost (sliced { Slice.reset with corrected := [(0, 1)] }) b) ∧ ∀ b, CanPost State.reset b :=
  ⟨fun _ => canPost _ _ rfl (by decide) ⟨rfl, rfl⟩ rfl, fun _ => canPost _ _ rfl (by decide) ⟨rfl, rfl⟩ rfl⟩
/-! ## Witnesses: routers, the ends of the exchange, ingress, steps -/

/-- One packet at cluster 5 with some symbols left, at a cycle. -/
def pkt (syms : List (BitVec 4)) : Pkt := ⟨7, false, syms, [], TClass.ofCode 0, 1, 0, 0, false⟩
def atRouter (syms : List (BitVec 4)) (cycle : Nat) : State := { State.reset with routers := [(inKey false 5 0 (TClass.ofCode 0), [pkt syms])], cycle := cycle }

/-- A packet to eject outside the drain window, one at a link that is down, one whose channel has weight 0 and no age, the window's last cycle,
and an input that is empty. -/
theorem witness_Routers_grant :
    (let s := atRouter [0] 256;
      ¬s.cycle % 65536 < 256 ∧ (s.headsAt false 5).filter (fun h => h.2.2.out == 0) = [(0, TClass.ofCode 0, pkt [0])] ∧
      ((s.headsAt false 5).filter fun h => h.2.2.out == 0).filter (fun h => !s.stopped false 5 0 h.2.1) = [(0, TClass.ofCode 0, pkt [0])] ∧
      (mget Arb.reset s.arbs (slotKey false 5 0)).busy ≤ s.cycle ∧ CanPost s false ∧ (pkt [0]).vc = TClass.ofCode 0 ∧
      0 < deficitOf s (mget Arb.reset s.arbs (slotKey false 5 0)) [(0, TClass.ofCode 0, pkt [0])] (TClass.ofCode 0)) ∧
    (let s := { atRouter [2, 0] 256 with linksDown := [(8 * 5 + 2, true)] }; s.linkDown 5 2 = true ∧
      (s.headsAt false 5).filter (fun h => h.2.2.out == 2) = [(0, TClass.ofCode 0, pkt [2, 0])] ∧ CanPost s false) ∧
    (let s := { atRouter [0] 256 with sys := { SysRegs.reset with arbw := 0x3000000 } };
      ((s.headsAt false 5).filter fun h => h.2.2.out == 0).filter (fun h => !s.stopped false 5 0 h.2.1) = [(0, TClass.ofCode 0, pkt [0])] ∧
      ¬Promoted s (pkt [0]) ∧ deficitOf s (mget Arb.reset s.arbs (slotKey false 5 0)) [(0, TClass.ofCode 0, pkt [0])] (TClass.ofCode 0) = 0) ∧
    (atRouter [0] 255).cycle % 65536 < 256 ∧ (atRouter [0] 256).headsAt false 6 = [] := by
  refine ⟨⟨by decide, by decide, by decide, by decide, canPost _ _ rfl (by decide) ⟨rfl, rfl⟩ rfl, rfl, ?_⟩,
    ⟨by decide, by decide, canPost _ _ rfl (by decide) ⟨rfl, rfl⟩ rfl⟩, ⟨by decide, by unfold Promoted; decide, ?_⟩, by decide, by decide⟩
  all_goals unfold deficitOf; decide

/-- The eastward phase, the end of the drains, and a port with a packet to send and one to let in. -/
theorem witness_Routers_sluice :
    (Phase (atRouter [2, 0] 24).cycle 2 ∧ meshStep 5 2 = some 6 ∧ (atRouter [2, 0] 24).linkDown 5 2 = false ∧ (∀ k, (atRouter [2, 0] 24).drainAt k = none) ∧
      (atRouter [2, 0] 24).queueAt (inKey false 5 0 (TClass.ofCode 0)) = [pkt [2, 0]] ∧ (pkt [2, 0]).out = 2 ∧
      ∀ k, k ≠ inKey false 5 0 (TClass.ofCode 0) → (atRouter [2, 0] 24).queueAt k = []) ∧
    (∀ d, ¬Phase 25 d) ∧
    (let s := { State.reset with cycle := 248, drains := [(slotKey false 6 4, some (pkt [0]))] }; s.drainAt (slotKey false 6 4) = some (pkt [0]) ∧
      ∀ k, k ≠ slotKey false 6 4 → s.drainAt k = none) ∧
    (let s := { State.reset with portq := [(8 * 23, [pkt [0]])] }; mget 0 s.portLast 23 = 0 ∧ (∀ w < 8, mget none s.portDrain (8 * 23 + w) = none) ∧ mget [] s.portq (8 * 23 + 0) = [pkt [0]] ∧
      ∀ w < 8, 8 * 23 + w ≠ 184 → mget [] s.portq (8 * 23 + w) = []) ∧
    (let s := { State.reset with portLast := [(23, 1)] }; mget 0 s.portLast 23 ≠ 0 ∧ s.cycle + 1 < mget 0 s.portLast 23 + 65536) ∧
    (let s := { State.reset with portDrain := [(8 * 23, some (pkt [0]))] }; (∀ w < 8, mget [] s.portq (8 * 23 + w) = []) ∧ mget none s.portDrain (8 * 23 + 0) = some (pkt [0]) ∧
      ∀ w < 8, 8 * 23 + w ≠ 184 → mget none s.portDrain (8 * 23 + w) = none) := by
  refine ⟨⟨.inl ⟨by decide, rfl⟩, by decide, by decide, fun _ => rfl, by decide, by decide, fun k h => ?_⟩, fun d h => ?_, ⟨by decide, fun k h => ?_⟩, by decide, by decide, by decide⟩
  · exact if_neg h
  · simp [Phase] at h
  · exact if_neg h

/-- A transfer of this module's group 0 at a place in its life. -/
def xfer (pos : XWhere) (ring : Bool) (l : List XLane) (since : Nat) : Xfer :=
  { id := 7, op := 8, group := 0, lanes := l, pmask := 3, write := true, ring := ring, width := 4, ty := .n64, dst := some (.g 9), kind := 0
    tc := TClass.ofCode 0, route := 1, posted := false, pos := pos, since := since, status := 0, data := [], cluster := 0, back := [], foreign := false
    late := false, rcb := 0x40, rel := none, acq := none }
def underWay (x : Xfer) : State :=
  { two running with
    mem := []
    xfers := [x], ops := [⟨8, 0, 3, none, 0, false, none, [], .xfer⟩]
    sp := (Memory.write [] 0x40 8 0x20000080).write 0x50 8 1
    cycle := 2 ^ 24 }

/-- Its writes to the scratchpad and memory, and its message to the ring at 0x40. -/
def writes2 : Xfer := xfer .arrived false [⟨1, 0, some (.sp 0x104), [1, 2, 3, 4]⟩, ⟨0, 0, some (.mem (.lin 0x3000)), [5, 6, 7, 8]⟩] 1
def message : Xfer := xfer .arrived true [⟨0, 0, some (.sp 0x40), List.replicate 64 5⟩] 1

theorem witness_ExchangeEnds :
    (∀ l r, NoneHeld (underWay (xfer .arrived r l 1)) ∧ (underWay (xfer .arrived r l 1)).xfer 7 = some (xfer .arrived r l 1) ∧ (underWay (xfer .arrived r l 1)).hole = false) ∧
    (CanReply (underWay writes2) writes2 ∧ Accepted (underWay writes2) writes2 ∧ ¬Accepted State.reset writes2 ∧
      ([⟨0, 0, some (.mem (.lin 0x3000)), [5, 6, 7, 8]⟩, ⟨1, 0, some (.sp 0x104), [1, 2, 3, 4]⟩] : List XLane).Perm writes2.lanes) ∧
    (CanReply (underWay message) message ∧ Accepted (underWay message) message ∧ (underWay message).frames = []) ∧
    (∀ pos ∈ [XWhere.back, .away], NoneHeld (underWay (xfer pos false [] 1)) ∧ CanPost (underWay (xfer pos false [] 1)) false ∧ OneOfBow 0 3) ∧
    (let y := xfer .going false [] 0; y.foreign = false ∧ y.late = false ∧ y.since + 2 ^ 24 ≤ (underWay y).cycle ∧ ¬(xfer .going false [] 1).since + 2 ^ 24 ≤ (underWay y).cycle) ∧
    State.reset.xfer 7 = none ∧
    (let y := { xfer .arrived false [] 1 with cluster := 5 }; let s := { underWay y with
        routers := [(inKey true 5 0 (TClass.ofCode 0), [{ pkt [0] with reply := true, flits := 100000 }]), (inKey true 5 6 (TClass.ofCode 0), [{ pkt [0] with reply := true, flits := 100000 }])] };
      y.posted = false ∧ ReplyRouteGood s y ∧ ¬CanReply s y) := by
  refine ⟨fun l r => ⟨fun x h => ?_, rfl, rfl⟩, ⟨.inr (.inr (.inl (by decide))), ⟨rfl, ?_⟩, fun h => ?_, ?_⟩,
    ⟨.inr (.inr (.inl (by decide))), ⟨rfl, ?_⟩, rfl⟩,
    fun pos h => ⟨fun x hx => ?_, canPost _ _ rfl (show Memory.read [] 0 64 = 0 from by decide) ⟨rfl, rfl⟩ rfl, fun h => absurd h (by decide)⟩,
    ⟨rfl, rfl, by decide, by decide⟩, rfl, rfl, by unfold ReplyRouteGood; decide, ?_⟩
  · have : x = xfer .arrived r l 1 := List.mem_singleton.1 h
    subst this; exact fun h => XWhere.noConfusion h
  · intro l h
    simp only [writes2, xfer, List.mem_cons, List.not_mem_nil, or_false] at h
    rcases h with rfl | rfl
    · rfl
    · exact trivial
  · exact absurd (h.2 ⟨1, 0, some (.sp 0x104), [1, 2, 3, 4]⟩ (List.mem_cons_self ..)) (by decide : ¬none = some (0x40#48))
  · exact List.Perm.swap ..
  · intro l h
    obtain rfl : l = ⟨0, 0, some (.sp 0x40), List.replicate 64 5⟩ := List.mem_singleton.1 h
    rfl
  · have : x = xfer pos false [] 1 := List.mem_singleton.1 hx
    subst this
    simp only [List.mem_cons, List.not_mem_nil, or_false] at h
    rcases h with rfl | rfl <;> exact fun h => XWhere.noConfusion h
  · rintro (h | h | h | h)
    · exact Bool.noConfusion h
    · exact h (by unfold ReplyRouteGood; decide)
    · exact absurd h (by decide)
    · exact absurd h (by decide)

/-- A request that left by port 0 of its first hop: its reply comes back there, with room at that cluster's external input and without. -/
theorem witness_ExchangeEnds_away : let y := { xfer .away false [] 1 with route := route 0 [5, 0, 0, 0] }
    let s := underWay y
    routeSyms y.route = [] ++ 5 :: 0 :: 0 :: [0] ∧ s.portDown (escNum 0 0) = false ∧
    (∀ c : BitVec 4, s.restOk c.toNat 0 ([].reverse.map dirOpp ++ [0]) = true ∧ y.repFlits ≤ s.freeFlits true c.toNat 5 y.tc) ∧
    mget none s.portDrain (8 * escNum 0 0 + 4 + y.tc.code.toNat) = none :=
  ⟨by decide, rfl, by decide, rfl⟩

/-- A frame of 60 bytes of EtherType 0x0800 on port 3, and a classifier whose rule 1 takes it to the ring at 0x40 of the share of core 0. -/
def frame : List Byte := List.replicate 12 1 ++ [0x08, 0x00] ++ List.replicate 46 2
def receiving (fixed : Nat) : State :=
  { underWay (xfer .going false [] 0) with
    mem := Memory.write [] 0x2010 16 (1 + 2 * fixed + 0x0800 * 2 ^ 32 + 2 ^ 67 + 0x20000040 * 2 ^ 68)
    sys := { SysRegs.reset with classTab := 0x2000 }
    clusters := [(0, { Cluster.reset with region := some 0x40, res := { region with resident := true }, zs := 0x10000 })]
    frames := [⟨9, 2 ^ 24, 3, 0x20000040, true, false, List.replicate 64 5⟩, ⟨10, 2 ^ 24, 3, 0x20200040, false, true, List.replicate 64 5⟩,
      ⟨11, 2 ^ 24, 3, 0x20400040, false, false, List.replicate 64 5⟩, ⟨12, 2 ^ 24 + 1, 3, 0x20600040, false, false, List.replicate 64 5⟩] }

theorem witness_ExchangeEnds_frames :
    60 ≤ frame.length ∧ frame.length ≤ 9212 ∧ (receiving 0).portDown (24 + 3) = false ∧ be16 frame (etherAt frame) ≠ 0x88B5 ∧
    RuleTakes (receiving 0) 3 frame 1 ∧ RuleTakes (receiving 1) 3 frame 1 ∧ RingAtShare (receiving 0) 0x20000040 0x40 ∧
    (∀ i, ¬RuleTakes State.reset 3 frame i) ∧
    ((receiving 1).cl 0).region ≠ none ∧ ((receiving 1).cl 0).res.resident = true ∧ (receiving 0).frames.find? (fun f => f.id == 13) = none ∧
    (∀ x ∈ [(9, true, false), (10, false, true), (11, false, false)], ∃ e, (receiving 0).frames.find? (fun f => f.id == x.1) = some e ∧
      (receiving 0).frames.find? (fun g => g.ring == e.ring) = some e ∧ e.due ≤ (receiving 0).cycle ∧ e.landed = x.2.1 ∧ e.bulk = x.2.2 ∧
      ∃ k, RingAtShare (receiving 0) e.ring k) ∧
    (∃ e, (receiving 0).frames.find? (fun f => f.id == 12) = some e ∧ (receiving 0).frames.find? (fun g => g.ring == e.ring) = some e ∧
      (receiving 0).cycle < e.due) := by
  refine ⟨by decide, by decide, by decide, by decide, ⟨by decide, ⟨by decide +kernel, by decide +kernel, by decide +kernel, .inl (by decide +kernel)⟩, ?_⟩,
    ⟨by decide, ⟨by decide +kernel, by decide +kernel, by decide +kernel, .inl (by decide +kernel)⟩, ?_⟩, ?_, ?_, by decide, by decide, by decide,
    fun x h => ?_, _, rfl, rfl, by decide⟩
  · intro j h f
    obtain rfl : j = 0 := by omega
    exact absurd f.1 (by decide +kernel)
  · intro j h f
    obtain rfl : j = 0 := by omega
    exact absurd f.1 (by decide +kernel)
  · exact ⟨by decide, by decide, by decide, by decide, by decide⟩
  · intro i ⟨_, f, _⟩
    have z : ∀ n a, Memory.read State.reset.mem a n = 0 := fun n => by
      induction n with
      | zero => exact fun _ => rfl
      | succ n ih => intro a; rw [Memory.read, ih]; rfl
    have e := f.1
    beta_reduce at e
    rw [z] at e
    exact absurd e (by decide)
  · simp only [List.mem_cons, List.not_mem_nil, or_false] at h
    rcases h with rfl | rfl | rfl <;> exact ⟨_, rfl, rfl, by decide, rfl, rfl, _, by decide, by decide, by decide, by decide, rfl⟩

/-- Page tables that map the first GiB to the share of a cluster. -/
def pagesAt (c : Nat) : Memory := Memory.write pages 0x11000 8 (0x1D + c * 0x0C00000000)

/-- The cluster of port 0, a region with a fabric context on it, whose pages lie at a cluster, and packets of each kind that eject there; the
context after it is of a region that has not started (R427). -/
def there : Nat := (Config.portCluster 0).toNat
def acceptAt (pagesOf there : Nat) : State :=
  { State.reset with
    mem := ((pagesAt pagesOf).write 0x2010 16 (15 + 0x40 * 2 ^ 16)).write 0x2020 16 (15 + 0x2010 * 2 ^ 16)
    sys := { SysRegs.reset with fabTab := 0x2000, wtbase := 0x100000 }
    regions := [⟨0x40, [there], none, 0, [], false, none, false⟩]
    clusters := [(there, { Cluster.reset with region := some 0x40, res := region, zs := 0x10000 })] }
def accepting : State := acceptAt there there
def arrive (kind : BitVec 3) (addr : Nat) (ctx : BitVec 16) : Arriving :=
  ⟨0, [0], [6, 0, 0, 2, 3], false, kind, TClass.ofCode 0, ctx, true, 4, [(BitVec.ofNat 64 addr, List.replicate (if kind = 2 then 64 else 4) 1)]⟩

theorem there_lt : there < 16 := (Config.portCluster 0).isLt

theorem there_retired : (accepting.cl there).retired = false := by simp [accepting, acceptAt, State.cl, mget, Cluster.reset]

theorem restOk_there (kind : Nat) (h : kind ≠ 3) : accepting.restOk there kind [0] = true := by
  simp [State.restOk, routeFail, there_retired, h]

/-- The context of a packet does not depend on where the pages lie. -/
theorem context_at (c : Nat) (h : c < 16) (d : Nat) : ∀ p : Arriving, (p = arrive 0 d 1 ∨ p = arrive 1 d 1 ∨ p = arrive 2 d 1) →
    contextOf (acceptAt c c) p = BitVec.ofNat 128 (15 + 0x40 * 2 ^ 16) := by
  have k : ∀ c < 16, Memory.read (acceptAt c c).mem (0x2000 + 16 * 1) 16 = 15 + 0x40 * 2 ^ 16 := by decide +kernel
  rintro p (rfl | rfl | rfl) <;>
  · show BitVec.ofNat 128 (Memory.read (acceptAt c c).mem (0x2000 + 16 * 1) 16) = _
    rw [k c h]

theorem witness_Ingress :
    (accepting.hole = false ∧ (∀ x ∈ accepting.xfers, x.id ≠ accepting.nextId) ∧ accepting.portDown 0 = false) ∧
    (∀ k ∈ [0, 1, 2], ∀ a, (arrive k a 1).kind.toNat < 4 ∧ accepting.restOk there k.toNat [0] = true ∧ Permitted accepting (arrive k a 1)) ∧
    (let a := (BitVec.ofNat 64 (2 ^ 29 + there * 2 ^ 25 + 0x40)).toNat;
      a / 2 ^ 29 = 1 ∧ a / 2 ^ 25 % 16 = there ∧ a % 2 ^ 21 + 32 ≤ (accepting.cl there).zs ∧ a % 2 ^ 21 % 32 = 0 ∧
      there ∈ accepting.regionClusters ((contextOf accepting (arrive 0 0 1)).extractLsb' 16 48)) ∧
    (¬Permitted State.reset (arrive 0 0 0) ∧ accepting.regionRes 0x40 = some region ∧ accepting.regionRes 0x2010 = none) ∧
    ((arrive 4 0 0).kind.toNat = 4 ∧ (28 ≤ (31#5).toNat) ∧ ({ arrive 0 0 1 with lanes := [] } : Arriving).lanes = []) := by
  have hl := there_lt
  have context : ∀ k ∈ [0#3, 1, 2], ∀ a, contextOf accepting (arrive k a 1) = BitVec.ofNat 128 (15 + 0x40 * 2 ^ 16) := fun k hk a =>
    context_at there hl a _ (by simp only [List.mem_cons, List.not_mem_nil, or_false] at hk; rcases hk with rfl | rfl | rfl <;> simp)
  refine ⟨⟨rfl, fun x h => absurd h List.not_mem_nil, rfl⟩, ?_, ?_, ⟨?_, ?_, ?_⟩, rfl, by decide, rfl⟩
  · intro k h a
    have e := context k h a
    simp only [List.mem_cons, List.not_mem_nil, or_false] at h
    rcases h with rfl | rfl | rfl
    · exact ⟨by show 0 < 4; decide, restOk_there _ (by decide), by rw [e]; decide, .inl ⟨rfl, by rw [e]; decide⟩⟩
    · exact ⟨by show 1 < 4; decide, restOk_there _ (by decide), by rw [e]; decide, .inr (.inl ⟨rfl, by rw [e]; decide⟩)⟩
    · exact ⟨by show 2 < 4; decide, restOk_there _ (by decide), by rw [e]; decide, .inr (.inr ⟨rfl, by rw [e]; decide⟩)⟩
  · have e : (BitVec.ofNat 64 (2 ^ 29 + there * 2 ^ 25 + 0x40)).toNat = 2 ^ 29 + there * 2 ^ 25 + 0x40 := by
      simp only [BitVec.toNat_ofNat]; omega
    have z : (accepting.cl there).zs = 0x10000 := by simp [accepting, acceptAt, State.cl, mget]
    have c : (contextOf accepting (arrive 0 0 1)).extractLsb' 16 48 = 0x40 := by rw [context 0 (by decide)]; decide
    rw [e, z, c]
    have k : ∀ n < 16, (2 ^ 29 + n * 2 ^ 25 + 0x40) / 2 ^ 29 = 1 ∧ (2 ^ 29 + n * 2 ^ 25 + 0x40) / 2 ^ 25 % 16 = n ∧
        (2 ^ 29 + n * 2 ^ 25 + 0x40) % 2 ^ 21 + 32 ≤ 0x10000 ∧ (2 ^ 29 + n * 2 ^ 25 + 0x40) % 2 ^ 21 % 32 = 0 := by decide +kernel
    have k := k _ hl
    exact ⟨k.1, k.2.1, k.2.2.1, k.2.2.2, by simp [State.regionClusters, accepting, acceptAt]⟩
  · exact fun h => absurd h.1 (by decide +kernel)
  · simp [State.regionRes, accepting, acceptAt, State.cl, mget]
  · exact (by decide +kernel : ∀ c < 16, (acceptAt c c).regionRes 0x2010 = none) _ hl

/-- The transfer of a packet, a route back that passes, and a route that leaves by the port again. -/
theorem witness_Ingress_routes :
    (∃ x : Xfer, TransferOf accepting (arrive 0 0 1) x ∧ x.back = 5#4 :: 0 :: 0 :: [6, 0, 0, 2, 3] ∧ x.cluster = there ∧ ReplyRouteGood accepting x) ∧
    accepting.restOk there 0 [5, 0, 0, 6, 0, 0, 2, 0] = true ∧ routeEscs [5, 0, 0, 6, 0, 0, 2, 0] ≠ [] := by
  have h : (contextOf accepting (arrive 0 0 1)).extractLsb' 16 48 = 0x40 := by
    rw [show contextOf accepting (arrive 0 0 1) = _ from context_at there there_lt 0 _ (.inl rfl)]; decide
  refine ⟨⟨{ xfer .going false [⟨0, 0, none, List.replicate 4 1⟩] 0 with id := accepting.nextId, foreign := true, back := 5#4 :: 0 :: 0 :: [6, 0, 0, 2, 3]
                                                                         cluster := there }, ?_, rfl, rfl, ?_⟩, ?_, by decide⟩
  · exact ⟨rfl, rfl, rfl, rfl, rfl, rfl, rfl, by decide, h.symm, rfl⟩
  · simp [ReplyRouteGood, replyRoute, State.restOk, routeFail, escNum, there, State.portDown, accepting, acceptAt, State.reset, mget, dirOpp]
  · simp [State.restOk, routeFail, escNum, there, State.portDown, accepting, acceptAt, State.reset, mget, dirOpp]

/-- Translations for a KIND 1 packet from port 0 to a page of its cluster, to one of another cluster, and to one that is not mapped. -/
theorem witness_Ingress_memory :
    (∀ c ∈ List.range 16, let r := State.translate { acceptAt c c with nextId := 2 } (17 * c + 16) region (Need.store.by (portBlock 0)) 0x3000;
      r.2 = .ok (.lin (c * 0x0C00000000 + 0x3000)) ∧ r.1.hole = false ∧ (owner (c * 0x0C00000000 + 0x3000)).getD Config.hostCluster.toNat = c ∧
      ∀ d ∈ [(c + 1) % 16], (State.translate { acceptAt d c with nextId := 2 } (17 * c + 16) region (Need.store.by (portBlock 0)) 0x3000).2 =
        .ok (.lin (d * 0x0C00000000 + 0x3000)) ∧ (owner (d * 0x0C00000000 + 0x3000)).getD Config.hostCluster.toNat ≠ c) ∧
    (∀ c ∈ List.range 16, let r := State.translate { acceptAt c c with nextId := 2 } (17 * c + 16) region (Need.store.by (portBlock 0)) 0x70000000;
      (match r.2 with | .fault _ _ => true | _ => false) = true ∧ r.1.hole = false) ∧
    (4 ∈ [1, 2, 4, 8, 16]) ∧ 0x3000 % 4 = 0 ∧ 0x3001 % 4 ≠ 0 := by decide +kernel

/-- A word's turn, and a word that decodes to no instruction; an event; a selection; nothing left. -/
def turn (i : Instr) (raw : Option W64) : State :=
  let s := two running
  { s with
    turns := [.issue 0 0 3]
    cores := [(0, ⟨15, [⟨0, 3, 0x2000, (encodeClause i).headD 0, (raw.map fun w => [w]).getD ((encodeClause i).drop 1), 0, 0, .no⟩]⟩)] }

theorem witness_StepRunsDecoded :
    (let s := turn (.nop bare) none; s.agenda = [] ∧ s.turns = [.issue 0 0 3] ∧ ∃ y, State.turnSel { s with draw := s.draw + 1, turns := [] } 0 0 3 = some y ∧ y.held = .no ∧
      decode ((Header.ofWord y.header).classAt y.word) (y.code.getD y.word 0) (litRun (Header.ofWord y.header) y.code y.word) = .ok (.nop bare)) ∧
    (let s := turn (.nop bare) (some 0xFF70000000000000); ∃ y, State.turnSel { s with draw := s.draw + 1, turns := [] } 0 0 3 = some y ∧
      (∀ i, decode ((Header.ofWord y.header).classAt y.word) (y.code.getD y.word 0) (litRun (Header.ofWord y.header) y.code y.word) ≠ .ok i) ∧
      State.Calm { s with draw := s.draw + 1, turns := [], cur := y.cur 0 } ∧ State.Handled { s with draw := s.draw + 1, turns := [], cur := y.cur 0 } [0, 1]) ∧
    (fetched0.2 = .inl header ∧ (aged.translate 0 (aged.grpRes 0) Need.fetch 0x2000).2 = .ok (.lin 0x2000) ∧
      (aged.translate 0 (aged.grpRes 0) Need.fetch 0x2000).1.latent = [] ∧ (aged.translate 0 (aged.grpRes 0) Need.fetch 0x2000).1.codes = []) := by
  refine ⟨⟨rfl, rfl, _, rfl, rfl, rfl⟩, ⟨_, rfl, fun i h => ?_, calm (by decide +kernel), by decide, by decide⟩, by decide +kernel, by decide +kernel,
    by decide +kernel, by decide +kernel⟩
  exact nomatch (show Except.error DecErr.opcode = Except.ok i from h)

/-- Events that happen, that a reset holds back, and whose source waits for room; a cycle that begins. -/
theorem witness_StepRunsDecoded_events :
    (let s := { State.reset with boot := { State.reset.boot with released := true } };
      Instr.wf .sluice = false ∧ s.boot.released = true ∧ s.eventCluster .sluice = none ∧ s.sourceOwes .sluice = false) ∧
    (State.reset.boot.released = false ∧ State.coreZero .sluice = false) ∧
    (let s := { State.reset with boot := { State.reset.boot with released := true }, evWait := [(false, 11)] }; s.sourceOwes (.bindgo 0 0) = true) ∧
    CanPost { State.reset with cycle := 1 } false ∧ State.reset.hole = false ∧ State.reset.agenda = [] ∧ State.reset.turns = [] ∧ State.reset.frames = [] ∧
    State.reset.regions = [] :=
  ⟨⟨by decide, rfl, rfl, rfl⟩, ⟨rfl, rfl⟩, by decide +kernel, canPost _ _ rfl (by decide) ⟨rfl, rfl⟩ rfl, rfl, rfl, rfl, rfl, rfl⟩

/-- Both directions hold of every constructor that stands in a word: the words above show it; an event has none. -/
theorem witness_EncodeDecode : Instr.wf (.nop bare) = true ∧ ∃ w lits, encode (.nop bare) = w :: lits ∧ decode 0 w lits = .ok (.nop bare) :=
  ⟨by decide, _, _, rfl, rfl⟩

/-- A state in canonical form with a turn of no clause, which steps. -/
theorem witness_CanonicalMemory : Canonical State.reset ∧ let s := { State.reset with turns := [.issue 0 0 1] }
    Canonical s ∧ ∃ t, step s = .next t :=
  ⟨⟨rfl, rfl⟩, ⟨rfl, rfl⟩, _, rfl⟩

end Sys2Proof.Tests
end

section
namespace Sys2Proof.Slice0
open Machine

variable {s u : State} {α β : Type} {x y : Seen}

/-! # Every step keeps memory and scratchpads in canonical form (O59)

`Canonical.f` says that the state operation `f` leaves a canonical state canonical, in the order in which the model defines its
operations. Each proof follows its operation's definition: the branches by `split` or `ite`, the loops by `foldl` or an induction. Only
`wrBytes`, `writeBy`, `spPut`, `zeroSp`, `rebooted`, `loadImage`, `execUkind` and `execRetirePseudoChannel` write `mem` or `sp` by
themselves; every other operation is a composition of these and of updates of fields that `Canonical` does not read. `NextCanonical.f`
says the same of an operation that answers an outcome, up to `exec`, `stepTurn` and `step`. -/

/-! ## The shapes of a definition: branches, loops, pairs, options and outcomes -/

theorem Canonical.ite {p : Prop} {_ : Decidable p} {a b : State} (ha : Canonical a) (hb : Canonical b) :
    Canonical (if p then a else b) := by
  split
  · exact ha
  · exact hb

/-- A change made on a condition: the other branch is the state before it. -/
theorem Canonical.when {p : Prop} {_ : Decidable p} {a b : State} (ha : Canonical b → Canonical a) (h : Canonical b) :
    Canonical (if p then a else b) :=
  .ite (ha h) h

/-- A change made unless a condition holds. -/
theorem Canonical.unless {p : Prop} {_ : Decidable p} {a b : State} (hb : Canonical a → Canonical b) (h : Canonical a) :
    Canonical (if p then a else b) :=
  .ite h (hb h)

theorem Canonical.ite_fst {p : Prop} {_ : Decidable p} {a b : State × α} (ha : Canonical a.1) (hb : Canonical b.1) :
    Canonical (if p then a else b).1 := by
  split
  · exact ha
  · exact hb

theorem Canonical.ite_st {p : Prop} {_ : Decidable p} {a b : Acted} (ha : Canonical a.st) (hb : Canonical b.st) :
    Canonical (if p then a else b).st := by
  split
  · exact ha
  · exact hb

theorem Canonical.ite_fstSt {p : Prop} {_ : Decidable p} {a b : Seen × α} (ha : Canonical a.1.st) (hb : Canonical b.1.st) :
    Canonical (if p then a else b).1.st := by
  split
  · exact ha
  · exact hb

theorem Canonical.foldl {f : State → α → State} {l : List α} (hf : ∀ s a, Canonical s → Canonical (f s a)) (h : Canonical s) :
    Canonical (l.foldl f s) :=
  State.foldl_keeps Canonical f l s h fun b hb a _ => hf b a hb

theorem Canonical.foldl_fst {f : State × β → α → State × β} {l : List α} {p : State × β}
    (hf : ∀ p a, Canonical p.1 → Canonical (f p a).1) (h : Canonical p.1) : Canonical (l.foldl f p).1 :=
  State.foldl_keeps (fun p => Canonical p.1) f l p h fun b hb a _ => hf b a hb

theorem Canonical.foldr {f : α → State → State} {l : List α} (hf : ∀ a s, Canonical s → Canonical (f a s)) (h : Canonical s) :
    Canonical (l.foldr f s) :=
  List.foldrRecOn l f h fun b hb a _ => hf a b hb

/-- The state of a pair that a `match` takes apart. -/
theorem Canonical.of_eq {p : State × α} {a : α} (h : Canonical p.1) (e : p = (u, a)) : Canonical u := by
  rw [e] at h
  exact h

theorem Canonical.of_eq_st {p : Seen × α} {a : α} (h : Canonical p.1.st) (e : p = (y, a)) : Canonical y.st := by
  rw [e] at h
  exact h

/-- The next state of an outcome, if it has one, is in canonical form. -/
def NextCanonical (o : Host.Outcome State Fault Refusal) : Prop := ∀ t, o = .next t → Canonical t

theorem NextCanonical.next (h : Canonical s) : NextCanonical (.next s) := fun _ e => Host.Outcome.next.inj e ▸ h
theorem NextCanonical.fault {r} : NextCanonical (.fault r) := nofun

theorem NextCanonical.ite {p : Prop} {_ : Decidable p} {a b} (ha : NextCanonical a) (hb : NextCanonical b) :
    NextCanonical (if p then a else b) := by
  split
  · exact ha
  · exact hb

/-- The state of an option, if it holds one, is in canonical form. -/
def SomeCanonical (o : Option State) : Prop := ∀ t, o = some t → Canonical t

theorem SomeCanonical.some (h : Canonical s) : SomeCanonical (some s) := fun _ e => Option.some.inj e ▸ h
theorem SomeCanonical.none : SomeCanonical none := nofun

theorem SomeCanonical.ite {p : Prop} {_ : Decidable p} {a b} (ha : SomeCanonical a) (hb : SomeCanonical b) :
    SomeCanonical (if p then a else b) := by
  split
  · exact ha
  · exact hb

theorem SomeCanonical.orElse {a : Option State} {b : Unit → Option State} (ha : SomeCanonical a) (hb : SomeCanonical (b ())) :
    SomeCanonical (a.orElse b) := by
  cases a with
  | none => exact hb
  | some t => exact .some (ha t rfl)

/-! ## The parts of the state -/

theorem Canonical.setThr {t x} (h : Canonical s) : Canonical (s.setThr t x) := h
theorem Canonical.modThr {t f} (h : Canonical s) : Canonical (s.modThr t f) := .setThr h
theorem Canonical.setGrp {g x} (h : Canonical s) : Canonical (s.setGrp g x) := h
theorem Canonical.setWg {k x} (h : Canonical s) : Canonical (s.setWg k x) := h
theorem Canonical.setCore {k x} (h : Canonical s) : Canonical (s.setCore k x) := h
theorem Canonical.setCl {c x} (h : Canonical s) : Canonical (s.setCl c x) := h
theorem Canonical.setCourse {k x} (h : Canonical s) : Canonical (s.setCourse k x) := h
theorem Canonical.setCopies {k x} (h : Canonical s) : Canonical (s.setCopies k x) := h
theorem Canonical.setSlice {c x} (h : Canonical s) : Canonical (s.setSlice c x) := h
theorem Canonical.fresh (h : Canonical s) : Canonical s.fresh.1 := h

/-! ## The order of memory accesses (R112 to R121) -/

theorem Canonical.modWrites {f} (h : Canonical s) : Canonical (s.modWrites f) := .ite h h
theorem Canonical.pass {src dst links} (h : Canonical s) : Canonical (s.pass src dst links) := .modWrites h
theorem Canonical.forget {a} (h : Canonical s) : Canonical (s.forget a) := .modWrites h
theorem Canonical.modChains {a p f} (h : Canonical s) : Canonical (s.modChains a p f) := .modWrites h
theorem Canonical.fenceBy {a sc} (h : Canonical s) : Canonical (s.fenceBy a sc) := .pass (.foldl (fun _ _ => .pass) h)
theorem Canonical.vfenceBy {a sc} (h : Canonical s) : Canonical (s.vfenceBy a sc) := .modChains (.modChains (.fenceBy h))
theorem Canonical.ginvBy {a sc units} (h : Canonical s) : Canonical (s.ginvBy a sc units) := .modChains h
theorem Canonical.arrivalOf {place x links} (h : Canonical s) : Canonical (s.arrivalOf place x links) := .pass h
theorem Canonical.roundOver {place} (h : Canonical s) : Canonical (s.roundOver place) := .pass h
theorem Canonical.waited {place a sc} (h : Canonical s) : Canonical (s.waited place a sc) := .pass h

theorem Canonical.record {space kind writer also rel atomic parts} (h : Canonical s) :
    Canonical (s.record space kind writer also rel atomic parts) :=
  .ite (.pass h) h

theorem Canonical.took {a acq got} (h : Canonical s) : Canonical (s.took a acq got) := by
  unfold State.took
  dsimp only
  split
  · exact .modWrites h
  · exact .foldl (fun _ _ h => .ite (.pass h) h) (.modWrites h)

theorem Canonical.see {a acq space kind spots} (h : Canonical s) : Canonical (s.see a acq space kind spots).1 := .ite_fst h (.took h)

theorem Canonical.seeAtomic {a sc acq space spots} (h : Canonical s) : Canonical (s.seeAtomic a sc acq space spots).1 :=
  .ite_fst h (.took h)

theorem Canonical.dropPast {rcb} (h : Canonical s) : Canonical (s.dropPast rcb) := h
theorem Canonical.dropRegion {rcb} (h : Canonical s) : Canonical (s.dropRegion rcb) := h

/-! ## Operations outstanding, events, traps, sleepers, scratchpad writes and barriers -/

theorem Canonical.modLanes {g m f} (h : Canonical s) : Canonical (s.modLanes g m f) := .foldl (fun _ _ => .modThr) h

theorem Canonical.incCtr {g m o} (h : Canonical s) : Canonical (s.incCtr g m o) := by
  unfold State.incCtr
  split
  · exact h
  · exact .modLanes h

theorem Canonical.decCtr {g m o} (h : Canonical s) : Canonical (s.decCtr g m o) := by
  unfold State.decCtr
  split
  · exact h
  · exact .modLanes h

theorem Canonical.addOp {o} (h : Canonical s) : Canonical (s.addOp o) := h

theorem Canonical.enterOp {g m ctr queue k done} (h : Canonical s) : Canonical (s.enterOp g m ctr queue k done).1 :=
  .addOp (.when (.foldl fun _ _ => .pass) (.incCtr (.fresh h)))

theorem Canonical.beginOp {o} (h : Canonical s) : Canonical (s.beginOp o) := by
  unfold State.beginOp
  dsimp only
  split
  · exact .foldl (fun _ _ => .pass) h
  · exact .foldl (fun _ _ => .pass) (.pass h)

theorem Canonical.performed {o} (h : Canonical s) : Canonical (s.performed o) := by
  unfold State.performed
  dsimp only
  split
  · exact .foldl (fun _ _ => .pass) h
  · exact .foldl (fun _ _ => .pass) (.pass h)

theorem Canonical.clearJoins {id} (h : Canonical s) : Canonical (s.clearJoins id) := h
theorem Canonical.reach {pa n} (h : Canonical s) : Canonical (s.reach pa n) := .ite h h

theorem Canonical.wrBytes {pa b} (h : Canonical s) : Canonical (s.wrBytes pa b) :=
  ⟨State.wrBytes_mem_wf _ _ _ h.1, by rw [State.wrBytes_sp]; exact h.2⟩

theorem Canonical.wr {pa n x} (h : Canonical s) : Canonical (s.wr pa n x) := .wrBytes h
theorem Canonical.markEdited {rcb} (h : Canonical s) : Canonical (s.markEdited rcb) := .wr h
theorem NextCanonical.out (h : Canonical s) : NextCanonical (s.out) := .ite .fault (.next h)
theorem Canonical.evAppend {desc r} (h : Canonical s) : Canonical (s.evAppend desc r) := .wr (.wr (.reach h))
theorem Canonical.post {secure r} (h : Canonical s) : Canonical (s.post secure r) := .ite h (.evAppend h)

theorem Canonical.evDrain {secure l kept} (h : Canonical s) : Canonical (s.evDrain secure l kept) := by
  induction l generalizing s kept with
  | nil => exact h
  | cons _ l ih => exact .ite (ih (.evAppend h)) (ih h)

theorem Canonical.postGroup {secure ty g w3 w4 w5 w6 w7} (h : Canonical s) : Canonical (s.postGroup secure ty g w3 w4 w5 w6 w7) := .post h
theorem Canonical.postCl {secure ty c w3 w4 w5 w6 w7} (h : Canonical s) : Canonical (s.postCl secure ty c w3 w4 w5 w6 w7) := .post h
theorem Canonical.dropLanes {g m} (h : Canonical s) : Canonical (s.dropLanes g m) := .setCore (.setGrp h)
theorem Canonical.fatal {t i} (h : Canonical s) : Canonical (s.fatal t i) := .postGroup (.modThr h)
theorem Canonical.deliver {t i} (h : Canonical s) : Canonical (s.deliver t i) := .ite (.fatal h) (.setThr h)
theorem Canonical.takeTrap {t i} (h : Canonical s) : Canonical (s.takeTrap t i) := .ite (.modThr (.dropLanes h)) (.deliver (.dropLanes h))

theorem Canonical.leaveHandler {t r} (h : Canonical s) : Canonical (s.leaveHandler t r) := by
  unfold State.leaveHandler
  dsimp only
  split
  · exact h
  · exact .setThr h

theorem Canonical.unsleep {t} (h : Canonical s) : Canonical (s.unsleep t) := by
  unfold State.unsleep
  split
  · split
    · exact h
    · exact .decCtr h
  · exact h

theorem Canonical.wake {z m} (h : Canonical s) : Canonical (s.wake z m) := .modLanes (.decCtr h)

theorem Canonical.reconvRelease {g} (h : Canonical s) : Canonical (s.reconvRelease g) := by
  refine .unless (.foldl fun _ _ h => ?_) h
  split
  · split
    · exact .wake h
    · exact h
  · exact h

theorem Canonical.endRegion {t next} (h : Canonical s) : Canonical (s.endRegion t next) := .modThr h

theorem Canonical.postFault {g m ty line pl acc re rc word opc cls fetch bow} (h : Canonical s) :
    Canonical (s.postFault g m ty line pl acc re rc word opc cls fetch bow).1 :=
  .postGroup h

theorem Canonical.parkNow {q} (h : Canonical s) : Canonical (s.parkNow q) := .modLanes (.postFault h)
theorem Canonical.parkOrWait {q} (h : Canonical s) : Canonical (s.parkOrWait q) := .ite (.modLanes h) (.parkNow h)
theorem Canonical.retryParks {g} (h : Canonical s) : Canonical (s.retryParks g) := .ite h (.foldl (fun _ _ => .parkOrWait) h)

theorem Canonical.parkLanes {g word opc cls fetch n l} (h : Canonical s) : Canonical (State.parkLanes g word opc cls fetch n l s) := by
  induction n generalizing s l with
  | zero => exact h
  | succ n ih => cases l with
    | nil => exact h
    | cons _ l => exact ih (.parkOrWait (.dropLanes h))

theorem Canonical.acquireSp {t sc k n} (h : Canonical s) : Canonical (s.acquireSp t sc k n) := .ite h (.took h)

theorem Canonical.spPut {k b} (h : Canonical s) : Canonical (s.spPut k b) :=
  ⟨by rw [State.spPut_mem]; exact h.1, State.spPut_sp_wf _ _ _ h.2⟩

theorem Canonical.spPutBy {a also rel atomic k b} (h : Canonical s) : Canonical (s.spPutBy a also rel atomic k b) := .spPut (.record h)

theorem Canonical.setBar {g n x} (h : Canonical s) : Canonical (s.setBar g n x) := by
  unfold State.setBar
  split
  · exact .setWg h
  · exact .setCl h

theorem Canonical.wakeBar {g n l} (h : Canonical s) : Canonical (State.wakeBar g n s l) := by
  induction l generalizing s with
  | nil => exact h
  | cons _ l ih => exact .ite (.ite (ih h) (ih (.foldl (fun _ _ => .waited) (.modLanes (.wake h))))) (ih h)

theorem Canonical.updBar {g n f} (h : Canonical s) : Canonical (s.updBar g n f) := .wakeBar (.unless .roundOver (.setBar h))
theorem Canonical.arriveBar {g n who} (h : Canonical s) : Canonical (s.arriveBar g n who) := .updBar (.foldl (fun _ _ => .arrivalOf) h)

/-! ## Address translation, and memory reached through it -/

theorem Canonical.touch {pa} (h : Canonical s) : Canonical (s.touch pa) := by
  unfold State.touch
  split
  · exact h
  · exact .ite h (.setSlice h)

theorem Canonical.touchAll {addrs} (h : Canonical s) : Canonical (s.touchAll addrs) := .foldl (fun _ _ => .touch) h
theorem Canonical.ptEntry {cl asid world pa} (h : Canonical s) : Canonical (s.ptEntry cl asid world pa).1 := .ite_fst (.reach h) (.reach h)

theorem Canonical.walk {cl asid world a lvl t} (h : Canonical s) : Canonical (State.walk cl asid world a lvl t s).1 := by
  induction lvl generalizing s t with
  | zero =>
    refine .ite_fst (.ptEntry h) (.ite_fst (.ite_fst (.ptEntry h) (.ptEntry h)) (.ite_fst (.ptEntry h) (.ite_fst (.ptEntry h) ?_)))
    exact .ite_fst (.ite_fst (.ptEntry h) (.ptEntry h)) (.ite_fst (.reach (.ptEntry h)) (.reach (.ptEntry h)))
  | succ l ih =>
    refine .ite_fst (.ptEntry h) (.ite_fst (.ite_fst (.ptEntry h) (.ite_fst (.ptEntry h) (ih (.ptEntry h))))
      (.ite_fst (.ptEntry h) (.ite_fst (.ptEntry h) ?_)))
    exact .ite_fst (.ite_fst (.ptEntry h) (.ptEntry h)) (.ite_fst (.reach (.ptEntry h)) (.reach (.ptEntry h)))

theorem Canonical.tlbPut {t} (h : Canonical s) : Canonical (s.tlbPut t) := .ite h h
theorem Canonical.tabsCap {cl} (h : Canonical s) : Canonical (s.tabsCap cl) := .ite h h

theorem Canonical.translateLine {core x n va} (h : Canonical s) : Canonical (s.translateLine core x n va).1 := by
  unfold State.translateLine
  extract_lets a cl hits
  split
  next s' w e =>
    have hw : Canonical s' := h.walk.of_eq e
    extract_lets kept fresh same
    have hf : Canonical fresh.1 := by
      unfold fresh
      split
      · exact hw
      · dsimp only
        split
        · exact .tabsCap hw
        · exact .foldl (fun _ _ => .tlbPut) (.tabsCap hw)
    refine .ite_fst hf ?_
    split
    · exact hf
    · split
      · exact hf
      · exact h

theorem Canonical.translate {core x n va} (h : Canonical s) : Canonical (s.translate core x n va).1 := by
  unfold State.translate
  split
  · next e => exact h.translateLine.of_eq e
  · exact .translateLine h

theorem Canonical.seePhys {t acq p n} (h : Canonical s) : Canonical (s.seePhys t acq p n).1 := .see (.touchAll h)

theorem Canonical.writeBy {a also rel atomic p b} (h : Canonical s) : Canonical (s.writeBy a also rel atomic p b) :=
  ⟨State.writeBy_mem_wf _ _ _ _ _ _ _ h.1, by rw [State.writeBy_sp]; exact h.2⟩

theorem Canonical.writePhys {writer p b} (h : Canonical s) : Canonical (s.writePhys writer p b) := .writeBy h

theorem Canonical.fetchWord {core x va} (h : Canonical s) : Canonical (s.fetchWord core x va).1 := by
  unfold State.fetchWord
  split
  · next e => exact h.translate.of_eq e
  · next e =>
    have ht := h.translate.of_eq e
    split
    · exact ht
    · exact .ite ht ht

theorem Canonical.fetchWords {core x n va} (h : Canonical s) : Canonical (State.fetchWords core x n va s).1 := by
  induction n generalizing s va with
  | zero => exact h
  | succ n ih =>
    unfold State.fetchWords
    split
    · next e => exact h.fetchWord.of_eq e
    · next e =>
      have hl := ih (va := va + 8) (h.fetchWord.of_eq e)
      split
      · next e => exact hl.of_eq e
      · exact hl

/-! ## Places of operands -/

theorem Canonical.place {g n acc va} (h : Canonical s) : Canonical (s.place g n acc va).1 := by
  refine .ite_fst h ?_
  split
  · next e => exact h.translate.of_eq e
  · next e => exact .ite_fst (h.translate.of_eq e) (h.translate.of_eq e)

theorem Canonical.load {t acq p n va} (h : Canonical s) : Canonical (s.load t acq p n va).1 := by
  refine .ite_fst h ?_
  split
  · exact h
  · exact .seePhys h

theorem Canonical.eachLane {g ls f} (h : Canonical s) (hf : ∀ s x, Canonical s → Canonical (f s x).1) : Canonical (s.eachLane g ls f).1 :=
  .foldl_fst (fun _ _ h => hf _ _ h) h

/-! ## Groups, regions, merge trees and the ends of sleeps -/

theorem Canonical.acctAppend {base r} (h : Canonical s) : Canonical (s.acctAppend base r) := .wr (.wr (.reach h))
theorem Canonical.charge {g cls} (h : Canonical s) : Canonical (s.charge g cls) := .setGrp h

theorem Canonical.announce {c} (h : Canonical s) : Canonical (s.announce c) := by
  unfold State.announce
  split
  · exact h
  · exact .foldl (fun _ _ h => .ite h (.setCl h)) h

theorem Canonical.transPages {g need acc n p} (h : Canonical s) : Canonical (State.transPages g need acc n p s).1 := by
  induction n generalizing s p with
  | zero => exact h
  | succ n ih =>
    unfold State.transPages
    split
    · next e => exact h.place.of_eq e
    · next e =>
      have hl := ih (p := p + 1) (h.place.of_eq e)
      split
      · next e => exact hl.of_eq e
      · exact hl

theorem Canonical.transRange {g need acc va n} (h : Canonical s) : Canonical (s.transRange g need acc va n).1 := .ite_fst h (.transPages h)

theorem Canonical.openStreams {g l} (h : Canonical s) : Canonical (State.openStreams g l s).1 := by
  induction l generalizing s with
  | nil => exact h
  | cons d l ih =>
    unfold State.openStreams
    dsimp only
    split
    · next e => exact h.transRange.of_eq e
    · next e =>
      have ha := h.transRange.of_eq e
      split
      · next e => exact ha.transRange.of_eq e
      · next e =>
        have hl := ih (ha.transRange.of_eq e)
        split
        · next e => exact hl.of_eq e
        · exact hl

theorem Canonical.readTree {g table} (h : Canonical s) : Canonical (s.readTree g table).1 := by
  unfold State.readTree
  dsimp only
  split
  · exact h
  · exact h
  · split
    · exact h
    · refine .ite_fst h ?_
      split
      · exact h
      · split
        · exact h
        · refine .ite_fst h (.ite_fst h (.ite_fst h ?_))
          split
          · next e => exact h.openStreams.of_eq e
          · exact .openStreams h

theorem Canonical.mchkEvent {g m array pa pc} (h : Canonical s) : Canonical (s.mchkEvent g m array pa pc) := .postGroup h
theorem Canonical.abortSleep {z} (h : Canonical s) : Canonical (s.abortSleep z) := .foldl (fun _ _ => .unsleep) h

theorem Canonical.grantTree {c n} (h : Canonical s) : Canonical (State.grantTree c n s) := by
  induction n generalizing s with
  | zero => exact h
  | succ n ih =>
    unfold State.grantTree
    split
    · exact h
    · split
      · split
        · next e => exact .foldl (fun _ _ => .endRegion) (.wake (.setCl (h.readTree.of_eq e)))
        · next e =>
          have ht := h.readTree.of_eq e
          refine ih (.reconvRelease ?_)
          split
          · exact .parkLanes (.abortSleep ht)
          · exact .foldl (fun _ _ => .takeTrap) (.abortSleep ht)
          · exact .foldl (fun _ _ => .takeTrap) (.mchkEvent (.abortSleep ht))
          · exact .abortSleep ht
      · exact h

theorem Canonical.releaseTree {c} (h : Canonical s) : Canonical (s.releaseTree c) := .grantTree (.setCl h)
theorem Canonical.bindState {idx st} (h : Canonical s) : Canonical (s.bindState idx st) := .wr h
theorem Canonical.clearCluster {c} (h : Canonical s) : Canonical (s.clearCluster c) := .setCl h

theorem Canonical.regionEnd {rcb c} (h : Canonical s) : Canonical (s.regionEnd rcb c) :=
  .ite h (.foldl (fun _ _ => .clearCluster) (.dropRegion (.postCl h)))

theorem Canonical.arrivals {c} (h : Canonical s) : Canonical (s.arrivals c) := by
  unfold State.arrivals
  split
  · exact h
  · exact .when .regionEnd (.announce (.ite (.setCl h) h))

theorem Canonical.freeGroup {g} (h : Canonical s) : Canonical (s.freeGroup g) :=
  .when (fun h => .when .releaseTree (.setWg h)) (.setGrp (.foldl (fun _ _ => .setThr) (.bindState h)))

theorem Canonical.retireGroup {g} (h : Canonical s) : Canonical (s.retireGroup g) := .ite h (.freeGroup (.acctAppend h))

theorem Canonical.acctDrain {base l kept} (h : Canonical s) : Canonical (State.acctDrain base l kept s) := by
  induction l generalizing s kept with
  | nil => exact h
  | cons x l ih =>
    obtain ⟨b, r, g⟩ := x
    refine .ite (ih ?_) (ih h)
    cases g with
    | none => exact .acctAppend h
    | some g => exact .freeGroup (.acctAppend h)

theorem Canonical.exited {g} (h : Canonical s) : Canonical (s.exited g) := .arrivals (.ite (.retireGroup h) h)

theorem Canonical.haltReport {t} (h : Canonical s) : Canonical (s.haltReport t) := by
  unfold State.haltReport
  dsimp only
  split
  · exact h
  · exact .ite h (.setThr (.post h))

theorem Canonical.haltLane {t reason code} (h : Canonical s) : Canonical (s.haltLane t reason code) :=
  .arrivals (.haltReport (.modThr (.dropLanes (.unsleep h))))

theorem Canonical.straggle {t} (h : Canonical s) : Canonical (s.straggle t) := .takeTrap (.setThr h)

theorem Canonical.haltHeld {t} (h : Canonical s) : Canonical (s.haltHeld t) := by
  unfold State.haltHeld
  split
  · exact h
  · split
    · exact .haltLane (.modThr h)
    · exact .haltLane (.modThr h)
    · exact h

theorem Canonical.boundary {t} (h : Canonical s) : Canonical (s.boundary t) := .haltHeld (.ite (.reconvRelease (.straggle h)) h)

theorem Canonical.sleep {g m word next ctr due k} (h : Canonical s) : Canonical (s.sleep g m word next ctr due k) :=
  .foldl (fun _ _ => .haltHeld) (.unless (fun h => .reconvRelease (.foldl (fun _ _ h => .straggle (.unsleep h)) h)) (.modLanes
    (.dropLanes (.incCtr (.fresh h)))))

/-! ## One instruction word through the lanes -/

theorem Canonical.acted {l} (h : Canonical s) : Canonical (Acted.of s l).st := h
theorem Canonical.allLanes {p r} (h : Canonical s) : Canonical (allLanes s p r).st := h

theorem Canonical.sampleSettle {l} (h : Canonical s) : Canonical (State.sampleSettle l s) := by
  induction l generalizing s with
  | nil => exact h
  | cons _ l ih => exact .ite (ih (.ite (.acctAppend h) (.wr h))) (ih h)

theorem Canonical.holdWord (h : Canonical s) : Canonical s.holdWord := .setCore h
theorem Canonical.holdFor {x due} (h : Canonical s) : Canonical (s.holdFor x due) := .setCore h
theorem Canonical.pendAll {t lat op w} (h : Canonical s) : Canonical (s.pendAll t lat op w) := .modThr h

theorem Canonical.writeBack {g lat op l} (h : Canonical s) : Canonical (State.writeBack g lat op l s) := by
  induction l generalizing s with
  | nil => exact h
  | cons x l ih =>
    obtain ⟨i, r⟩ := x
    cases r with
    | next | jump => exact ih (.pendAll h)
    | _ => exact ih h

theorem Canonical.advance {g stall i r} (h : Canonical s) : Canonical (s.advance g stall i r) := .modThr h
theorem Canonical.advanceSel {stall} (h : Canonical s) : Canonical (s.advanceSel stall) := .setCore h
theorem Canonical.repath {g left} (h : Canonical s) : Canonical (s.repath g left) := .ite h (.setGrp h)
theorem Canonical.stepOut {g path} (h : Canonical s) : Canonical (s.stepOut g path) := .ite h (.dropLanes h)

theorem Canonical.leave {g l} (h : Canonical s) : Canonical (State.leave g l s) := by
  induction l generalizing s with
  | nil => exact h
  | cons x l ih =>
    obtain ⟨i, r⟩ := x
    cases r with
    | trap => exact ih (.takeTrap h)
    | mchk => exact ih (.takeTrap (.mchkEvent h))
    | exits => exact ih (.modThr (.dropLanes h))
    | _ => exact ih h

theorem Canonical.sampleWord {g w op res trace} (h : Canonical s) : Canonical (s.sampleWord g w op res trace) := by
  refine .ite h ?_
  split
  · exact h
  · exact h

theorem Canonical.openOp {c w a g nexts} (h : Canonical s) : Canonical (s.openOp c w a g nexts).1 := .ite_fst h (.enterOp h)

theorem Canonical.results {c w a res s0} (h : Canonical a.st) : Canonical (State.results c w a res s0).1 := by
  refine .when (.foldl fun _ _ => .endRegion) ?_
  split
  · exact .writeBack (.openOp (.charge h))
  · exact .setGrp (.writeBack (.openOp (.charge h)))

theorem Canonical.goOn {c res s0} (h : Canonical s) : Canonical (State.goOn c res s0 s) := by
  refine .foldl (fun _ _ h => ?_) h
  split
  · exact h
  · exact .advance h

theorem Canonical.closeWord {c res s0} (h : Canonical s) : Canonical (State.closeWord c res s0 s) :=
  .unless .sampleSettle <| .unless .reconvRelease <| .when .exited <| .when (.foldl fun _ _ => .boundary) <|
    .stepOut <| .when .repath <| .advanceSel <| .parkLanes <| .leave h

theorem Canonical.retire {c w a traps s0} (h : Canonical a.st) : Canonical (State.retire c w a traps s0) :=
  .closeWord (.sampleWord (.goOn (.results h)))

theorem Canonical.bowFault {f} (h : Canonical s) : Canonical (s.bowFault f) := .holdFor (.postFault h)

theorem NextCanonical.word {c w act} (h : Canonical s) (hf : ∀ s p, Canonical s → Canonical (act s p).st) :
    NextCanonical (s.word c w act) := by
  unfold State.word
  split
  · exact .out (.retire h)
  · exact .out (.holdWord h)
  · dsimp only
    split
    · exact .out (.bowFault (hf _ _ h))
    · exact .out (.retire (hf _ _ h))

theorem NextCanonical.perLane {c w f} (h : Canonical s) : NextCanonical (s.perLane c w f) := .word h (fun _ _ h => h)

theorem NextCanonical.inTurn {c w f} (h : Canonical s) (hf : ∀ s x, Canonical s → Canonical (f s x).1) : NextCanonical (s.inTurn c w f) :=
  .word h (fun _ _ h => .eachLane h (fun _ _ h => hf _ _ h))

theorem NextCanonical.once {c w f} (h : Canonical s) (hf : ∀ s x, Canonical s → Canonical (f s x).st) : NextCanonical (s.once c w f) := by
  refine .word h fun _ _ h => ?_
  dsimp only
  split
  · exact h
  · split
    · exact hf _ _ h
    · exact hf _ _ h

/-! ## Issue opportunities and clauses -/

theorem Canonical.startClause {g p} (h : Canonical s) : Canonical (s.startClause g p) := by
  unfold State.startClause
  extract_lets core hdr word pc park trap fail
  have hpark : ∀ s ty line pl, Canonical s → Canonical (park s ty line pl) := fun _ _ _ _ h =>
    .reconvRelease (.ite (.foldl (fun _ _ => .takeTrap) (.mchkEvent h)) (.parkLanes h))
  split
  · next e => exact hpark _ _ _ _ (h.fetchWord.of_eq e)
  · next e =>
    have hw := h.fetchWord.of_eq e
    refine .ite (.reconvRelease (.foldl (fun _ _ => .takeTrap) hw)) ?_
    split
    · next e => exact hpark _ _ _ _ (hw.fetchWords.of_eq e)
    · next e => exact .setCore (hw.fetchWords.of_eq e)

theorem Canonical.ageLanes {g ready issued} (h : Canonical s) : Canonical (s.ageLanes g ready issued) := .foldl (fun _ _ => .modThr) h

theorem Canonical.opportunity {core} (h : Canonical s) : Canonical (s.opportunity core) := by
  unfold State.opportunity
  split
  · exact h
  · exact .foldl (fun _ _ => .startClause) (.unless .setGrp (.ageLanes (.setCore h)))

theorem Canonical.badWord {check} (h : Canonical s) : Canonical (s.badWord check) := .retire h
theorem Canonical.boundsWord {line} (h : Canonical s) : Canonical (s.boundsWord line) := .retire h

/-! ## Layouts and places that a word sees -/

theorem Canonical.tr {g n va} (h : Canonical x.st) : Canonical (x.tr g n va).1.st := by
  unfold Seen.tr
  dsimp only
  split
  · exact h
  · exact .translateLine h

theorem Canonical.seenReach {g n acc va} (h : Canonical x.st) : Canonical (x.reach g n acc va).1.st := by
  refine .ite_fstSt h ?_
  split <;> next e => exact h.tr.of_eq_st e

theorem Canonical.seenPlace {g n acc va} (h : Canonical x.st) : Canonical (x.place g n acc va).1.st := by
  unfold Seen.place
  split
  · next e => exact h.seenReach.of_eq_st e
  · exact .seenReach h

theorem Canonical.each {f : Seen → α → Seen × β} {l} (h : Canonical x.st) (hf : ∀ x a, Canonical x.st → Canonical (f x a).1.st) :
    Canonical (Seen.each f l x).1.st := by
  induction l generalizing x with
  | nil => exact h
  | cons a l ih => exact ih (hf x a h)

theorem Canonical.layPut {g n v} (h : Canonical s) : Canonical (s.layPut g n v) := h

theorem Canonical.seenRecord {g n acc k} (h : Canonical x.st) : Canonical (x.record g n acc k).1.st := by
  unfold Seen.record
  extract_lets va
  split
  next y fresh e =>
    have hy : Canonical y.st := by
      refine Canonical.of_eq_st ?_ e
      split
      · next e => exact h.seenReach.of_eq_st e
      · next e => split <;> exact h.seenReach.of_eq_st e
    extract_lets fill
    have hfill : Canonical fill.1.st := by
      unfold fill
      split
      · exact .layPut hy
      · exact hy
    split
    · exact hfill
    · exact .ite_fstSt hy (.ite_fstSt h hfill)

theorem Canonical.layout {g n acc k} (h : Canonical x.st) : Canonical (x.layout g n acc k).1.st := by
  refine .ite_fstSt h ?_
  split
  · next e => exact h.seenRecord.of_eq_st e
  · next e =>
    have hr := h.seenRecord.of_eq_st e
    refine .ite_fstSt hr ?_
    split
    · exact hr
    · split
      · next e => exact hr.seenReach.of_eq_st e
      · next e =>
        have ha := hr.seenReach.of_eq_st e
        split
        · next e => exact ha.seenReach.of_eq_st e
        · next e =>
          have hb := ha.seenReach.of_eq_st e
          split
          · next e => exact hb.seenReach.of_eq_st e
          · next e => exact .ite_fstSt (hb.seenReach.of_eq_st e) (hb.seenReach.of_eq_st e)

/-! ## Loads, stores, atomics and tiles (R228 to R239) -/

theorem Canonical.bufSpot {g n acc w rec i} (h : Canonical x.st) : Canonical (bufSpot g n acc w rec x i).1.st := by
  unfold Machine.bufSpot
  split
  · exact h
  · exact h
  · split <;> next e => exact h.seenPlace.of_eq_st e

theorem Canonical.spots {a : AAddr} {g n acc w lanes} (h : Canonical s) : Canonical (a.spots s g n acc w lanes).1 := by
  unfold AAddr.spots
  split
  · exact h
  · exact .each (x := ⟨s, []⟩) h fun _ _ => .bufSpot

theorem Canonical.spSee {t w acq k a} (h : Canonical s) : Canonical (s.spSee t w acq k a).1 := by
  unfold State.spSee
  split
  · exact h
  · exact .see h

theorem Canonical.readSpot {t w acq x} (h : Canonical s) : Canonical (s.readSpot t w acq x).1 := by
  unfold State.readSpot
  split
  · exact .spSee h
  · split
    · next e => exact ((Canonical.load h).of_eq e)
    · next e => exact ((Canonical.load h).of_eq e)
  · exact h
  · exact h

theorem Canonical.discardWrite {t pa} (h : Canonical s) : Canonical (s.discardWrite t pa) := .postGroup h

theorem Canonical.writeSpot {t w a rel atomic b} (h : Canonical s) : Canonical (s.writeSpot t w a rel atomic b) := by
  unfold State.writeSpot
  split
  · exact .spPutBy h
  · exact .ite (.discardWrite h) (.writeBy h)
  · exact h

theorem Canonical.readLanes {g w acq f l} (h : Canonical s) : Canonical (readLanes g w acq f l s).1 := by
  induction l generalizing s with
  | nil => exact h
  | cons _ l ih => exact ih (.readSpot h)

theorem NextCanonical.loadWord {c t o sc d a} (h : Canonical s) : NextCanonical (loadWord c t o sc d a s) :=
  .word h (fun _ _ h => .readLanes (.spots h))

theorem NextCanonical.storeWord {c t o sc a x} (h : Canonical s) : NextCanonical (storeWord c t o sc a x s) := by
  refine .word h fun _ _ h => .foldl (fun _ _ h => ?_) (.spots h)
  split
  · exact .writeSpot h
  · exact h

theorem NextCanonical.execPref {c t b i} (h : Canonical s) : NextCanonical (execPref c t b i s) := .word h (fun _ _ h => .spots h)

theorem Canonical.readRecord {g t a} (h : Canonical s) : Canonical (s.readRecord g t a).1 := by
  refine .ite_fst h (.ite_fst h ?_)
  split
  · next e => exact h.place.of_eq e
  · next e =>
    have hp := h.place.of_eq e
    split
    · next e => exact hp.load.of_eq e
    · next e => dsimp only; split <;> exact hp.load.of_eq e

theorem NextCanonical.execBrld {c d a off} (h : Canonical s) : NextCanonical (execBrld c d a off s) := by
  refine .once h fun _ _ h => ?_
  dsimp only
  split <;> next e => exact h.readRecord.of_eq e

theorem NextCanonical.execFence {c k sc} (h : Canonical s) : NextCanonical (execFence c k sc s) :=
  .inTurn h (fun _ _ h => .ite (.fenceBy h) h)

theorem NextCanonical.execVfence {c sc} (h : Canonical s) : NextCanonical (execVfence c sc s) := .inTurn h (fun _ _ h => .vfenceBy h)
theorem Canonical.dropLayouts {g} (h : Canonical s) : Canonical (s.dropLayouts g) := h
theorem NextCanonical.execLfence {c} (h : Canonical s) : NextCanonical (execLfence c s) := .inTurn h (fun _ _ h => .dropLayouts h)

theorem Canonical.atomicSpot {t w o sc f out q} (h : Canonical s) : Canonical (s.atomicSpot t w o sc f out q).1 := by
  unfold State.atomicSpot
  split
  · exact h
  · exact .writeSpot (.seeAtomic (.ite (.fenceBy h) h))

theorem Canonical.atomicLanes {g w o sc f out l} (h : Canonical s) : Canonical (atomicLanes g w o sc f out l s).1 := by
  induction l generalizing s with
  | nil => exact h
  | cons _ l ih => exact ih (.atomicSpot h)

theorem NextCanonical.atomicWord {c w o sc ext flags d a xs f} (h : Canonical s) :
    NextCanonical (atomicWord c w o sc ext flags d a xs f s) :=
  .word h (fun _ _ h => .atomicLanes (.spots h))

theorem NextCanonical.intAtomic {c t o sc d a x f} (h : Canonical s) : NextCanonical (intAtomic c t o sc d a x f s) := by
  unfold Machine.intAtomic
  exact .atomicWord h

theorem NextCanonical.execAmaxrst {c t o sc d a x} (h : Canonical s) : NextCanonical (execAmaxrst c t o sc d a x s) := by
  unfold Machine.execAmaxrst
  exact .intAtomic h

theorem NextCanonical.execAfadd {c t o sc d a x} (h : Canonical s) : NextCanonical (execAfadd c t o sc d a x s) := by
  unfold Machine.execAfadd
  exact .atomicWord h

theorem Canonical.ldxLane {g w rec s0 a i l} (h : Canonical y.st) : Canonical (ldxLane g w rec s0 a i y l).1.st := by
  unfold Machine.ldxLane
  split
  · exact h
  · split
    · next e => split <;> exact h.bufSpot.of_eq_st e
    · next e => exact h.bufSpot.of_eq_st e
    · next e => exact h.bufSpot.of_eq_st e

theorem Canonical.ldxReplay {id i mv} (h : Canonical s) : Canonical (s.ldxReplay id i mv) := h

theorem NextCanonical.execLdx {c t n b i x} (h : Canonical s) : NextCanonical (execLdx c t n b i x s) := by
  unfold Machine.execLdx
  dsimp only
  split
  · exact .out (.holdWord h)
  · refine .word h fun s p h => .ite ?_ (.enterOp ?_)
    all_goals
      refine .foldl (fun _ _ h => ?_) (.each (x := ⟨s, []⟩) h fun _ _ => .ldxLane)
      split
      · exact .ldxReplay (.pass h)
      · exact .ite h (.ldxReplay h)
      · exact h

theorem Canonical.tileScales {g n acc t rows} (h : Canonical y.st) : Canonical (tileScales g n acc t rows y).1.st := by
  refine .each h fun _ _ h => ?_
  dsimp only
  split <;> next e => exact h.seenPlace.of_eq_st e

theorem Canonical.tileRows {g n acc t sc rows} (h : Canonical y.st) : Canonical (tileRows g n acc t sc rows y).1.st := by
  refine .each h fun _ _ h => ?_
  split
  · exact h
  · split <;> next e => exact h.seenPlace.of_eq_st e

theorem Canonical.tileOwe {g pc res} (h : Canonical s) : Canonical (s.tileOwe g pc res) := .foldl (fun _ _ => .modThr) h

theorem NextCanonical.tileWord {c a xy m act} (h : Canonical s) (hf : ∀ y x p, Canonical y.st → Canonical (act y x p).st) :
    NextCanonical (tileWord c a xy m s act) := by
  unfold Machine.tileWord
  refine .word h fun s p h => .ite_st h (.ite_st (.tileOwe h) ?_)
  have hl : ∀ {g n acc k}, Canonical (Seen.layout ⟨s, []⟩ g n acc k).1.st := .layout (x := ⟨s, []⟩) h
  split
  · next e => exact .tileOwe (hl.of_eq_st e)
  · next e =>
    split
    · exact .tileOwe (hl.of_eq_st e)
    · exact .tileOwe (hf _ _ _ (hl.of_eq_st e))

theorem Canonical.readScales {t l} (h : Canonical s) : Canonical (readScales t l s).1 := by
  induction l generalizing s with
  | nil => exact h
  | cons b l ih =>
    obtain ⟨i, rows, q | r⟩ := b
    · exact ih (.load h)
    · exact ih h

theorem Canonical.readRows {g n l} (h : Canonical s) : Canonical (readRows g n l s).1 := by
  induction l generalizing s with
  | nil => exact h
  | cons b l ih =>
    obtain ⟨i, q | r⟩ := b
    · exact ih (.load h)
    · exact ih h

theorem NextCanonical.execTld {c d a xy} (h : Canonical s) : NextCanonical (execTld c d a xy s) :=
  .tileWord h fun _ _ _ h => .readRows (.tileRows (y := ⟨_, _⟩) (.readScales (.tileScales h)))

theorem NextCanonical.execTst {c a xy m} (h : Canonical s) : NextCanonical (execTst c a xy m s) := by
  refine .tileWord h fun _ _ _ h => .foldl (fun _ _ h => ?_) (.foldl (fun _ _ h => ?_) (.tileRows (.tileScales h)))
  · split
    · exact .when .writePhys h
    · exact h
  · split
    · exact .writePhys h
    · exact h

/-! ## Integer and lane instructions -/

theorem NextCanonical.int1 {c t d a f} (h : Canonical s) : NextCanonical (int1 c t d a f s) := .perLane h
theorem NextCanonical.int2 {lat c t d a b f} (h : Canonical s) : NextCanonical (int2 lat c t d a b f s) := .perLane h

theorem NextCanonical.execMov {c t d a} (h : Canonical s) : NextCanonical (execMov c t d a s) := by
  refine .ite ?_ (.int1 h)
  split <;> exact .perLane h

theorem NextCanonical.laneOp {c reads f} (h : Canonical s) : NextCanonical (laneOp c reads s f) := .word h (fun _ _ h => h)

theorem NextCanonical.execVote {c f} (h : Canonical s) : NextCanonical (execVote c f s) := by
  unfold Machine.execVote
  dsimp only
  split
  · exact .laneOp h
  · exact .laneOp h
  · exact .laneOp h

/-! ## Vector instructions -/

theorem NextCanonical.vecOp {lat c f r d srcs op} (h : Canonical s) : NextCanonical (vecOp lat c f r d srcs op s) := .perLane h
theorem NextCanonical.vecCode {lat c f d srcs op} (h : Canonical s) : NextCanonical (vecCode lat c f d srcs op s) := .perLane h
theorem NextCanonical.execFred {c op f r d a} (h : Canonical s) : NextCanonical (execFred c op f r d a s) := .word h (fun _ _ h => h)

theorem NextCanonical.execVtag {c f cb d a} (h : Canonical s) : NextCanonical (execVtag c f cb d a s) := by
  unfold Machine.execVtag
  split
  · exact .perLane h
  · exact .perLane h

theorem NextCanonical.execQnt {c f r sat d a sc} (h : Canonical s) : NextCanonical (execQnt c f r sat d a sc s) := by
  unfold Machine.execQnt
  refine .word h fun _ _ h => .ite_st h ?_
  split
  · exact h
  · exact .ite_st h (.ite_st h h)

theorem NextCanonical.execDqnt {c f r d a} (h : Canonical s) : NextCanonical (execDqnt c f r d a s) :=
  .word h fun _ _ h => .ite_st h (.ite_st h h)

theorem NextCanonical.execCbld {c cb a b} (h : Canonical s) : NextCanonical (execCbld c cb a b s) := by
  refine .word h fun _ _ h => ?_
  dsimp only
  split <;> exact h

/-! ## Barriers, gathers, merges, queues and launches -/

theorem Canonical.finishOp {id} (h : Canonical s) : Canonical (s.finishOp id) := by
  unfold State.finishOp
  split
  · exact h
  · exact .unless .sampleSettle (.foldl (fun _ _ => .haltReport) (.retryParks (.clearJoins (.setGrp (.modLanes (.decCtr (.performed h)))))))

theorem Canonical.fillPend {t id w} (h : Canonical s) : Canonical (s.fillPend t id w) := .modThr h

theorem Canonical.lateTrap {t i} (h : Canonical s) : Canonical (s.lateTrap t i) := by
  unfold State.lateTrap
  split
  · exact .modThr h
  · refine .takeTrap ?_
    exact h
  · exact .takeTrap h
  · exact .takeTrap h
  · exact .takeTrap (.unsleep h)
  · exact h

theorem NextCanonical.execBari {c n count} (h : Canonical s) : NextCanonical (execBari c n count s) :=
  .once h fun _ _ h => .ite_st (.acted h) (.ite_st (.acted h) (.acted (.updBar h)))

theorem NextCanonical.execBara {c n} (h : Canonical s) : NextCanonical (execBara c n s) :=
  .word h fun _ _ h => .ite_st h (.ite h (.arriveBar h))

theorem NextCanonical.execBarw {c n} (h : Canonical s) : NextCanonical (execBarw c n s) :=
  .word h (fun _ _ h => .ite_st h (.unless .sleep (.foldl (fun _ _ => .waited) (.modLanes h))))

theorem NextCanonical.execWaita {c t sc d a x} (h : Canonical s) : NextCanonical (execWaita c t sc d a x s) := by
  refine .inTurn h fun _ _ h => ?_
  dsimp only
  split
  · exact h
  · split
    · exact h
    · exact .ite_fst (.acquireSp h) (.sleep h)

theorem NextCanonical.execQfence {c mask} (h : Canonical s) : NextCanonical (execQfence c mask s) :=
  .once h (fun _ _ h => .ite (.fresh h) (.fresh h))

theorem Canonical.gatherPlace {g va n} (h : Canonical y.st) : Canonical (gatherPlace g va n y).1.st := by
  unfold Machine.gatherPlace
  split
  · next e => exact h.seenPlace.of_eq_st e
  · next e =>
    have hp := h.seenPlace.of_eq_st e
    split
    · exact hp
    · exact .touchAll hp

theorem Canonical.gatherElem {g lay r k} (h : Canonical y.st) : Canonical (gatherElem g lay r y k).1.st := by
  refine .ite_fstSt h ?_
  split
  · next e => exact h.gatherPlace.of_eq_st e
  · next e =>
    have hp := h.gatherPlace.of_eq_st e
    refine .ite_fstSt hp ?_
    split <;> next e => exact hp.gatherPlace.of_eq_st e

theorem Canonical.gatherLane {f d a xy s0 g i} (h : Canonical y.st) : Canonical (gatherLane f d a xy s0 g y i).1.st := by
  unfold Machine.gatherLane
  dsimp only
  split
  · next e => exact h.layout.of_eq_st e
  · next e =>
    have hl := h.layout.of_eq_st e
    refine .ite_fstSt hl ?_
    split <;> exact .each hl fun _ _ => .gatherElem

theorem Canonical.gatherDo {p plan trace} (h : Canonical s) : Canonical (gatherDo s p plan trace).st := h

theorem NextCanonical.execGfetch {c f d a xy} (h : Canonical s) : NextCanonical (execGfetch c f d a xy s) :=
  .word h fun s _ h => .gatherDo (.each (x := ⟨s, []⟩) h fun _ _ => .gatherLane)

theorem NextCanonical.execGinv {c sc} (h : Canonical s) : NextCanonical (execGinv c sc s) := .word h fun _ _ => .foldl fun _ _ => .ginvBy

theorem NextCanonical.execMrgopen {c float a} (h : Canonical s) : NextCanonical (execMrgopen c float a s) := by
  refine .word h fun _ _ h => .ite_st h (.ite_st h (.ite_st (.sleep h) ?_))
  split
  · next e => exact h.readTree.of_eq e
  · next e => exact .setCl (h.readTree.of_eq e)

theorem NextCanonical.execMrgpull {c d} (h : Canonical s) : NextCanonical (execMrgpull c d s) := by
  refine .word h fun _ _ h => .ite_st h (.ite_st h ?_)
  split
  · exact h
  · exact .setCl h

theorem NextCanonical.execMrgclose {c} (h : Canonical s) : NextCanonical (execMrgclose c s) :=
  .once h (fun _ _ h => .ite_st h (.ite_st h (.releaseTree h)))

theorem Canonical.emitOne {g q r} (h : Canonical s) : Canonical (s.emitOne g q r).1 := by
  refine .ite_fst h ?_
  have hd : ∀ {g n acc va}, Canonical (Seen.reach ⟨s, []⟩ g n acc va).1.st := .seenReach (x := ⟨s, []⟩) h
  split
  · next e => exact hd.of_eq_st e
  · next e =>
    have hy := hd.of_eq_st e
    refine .ite_fst hy ?_
    split
    · next e => exact hy.seenReach.of_eq_st e
    · next e => exact .when .postGroup (.when .setCl (.writeBy (.writePhys (hy.seenReach.of_eq_st e))))

theorem Canonical.emitAll {g l} (h : Canonical s) : Canonical (State.emitAll g l s).1 := by
  induction l generalizing s with
  | nil => exact h
  | cons x l ih =>
    obtain ⟨i, q, r⟩ := x
    unfold State.emitAll
    split
    · next e => exact h.emitOne.of_eq e
    · next e => exact ih (h.emitOne.of_eq e)
    · next e => exact ih (h.emitOne.of_eq e)

theorem NextCanonical.execEmit {c q a} (h : Canonical s) : NextCanonical (execEmit c q a s) :=
  .word h (fun _ _ h => .unless .sleep (.emitAll h))

theorem Canonical.emitDrain {l} (h : Canonical s) : Canonical (State.emitDrain l s) := by
  induction l generalizing s with
  | nil => exact h
  | cons z l ih =>
    unfold State.emitDrain
    split
    · split
      next e =>
        have hs := h.emitAll.of_eq e
        extract_lets s1 s2 s3 s4
        have h2 : Canonical s2 := by
          refine .foldl (fun _ _ h => ?_) hs
          dsimp only
          split
          · exact .parkLanes (.unsleep h)
          · exact .takeTrap (.unsleep h)
          · exact .takeTrap (.mchkEvent (.unsleep h))
          · exact .unsleep h
        have h3 : Canonical s3 := .unless .reconvRelease h2
        refine ih ?_
        unfold s4
        split
        · exact .ite (.foldl (fun _ _ => .endRegion) (.wake h3)) h3
        · exact h3
    · exact ih h

theorem Canonical.launchDrain {n} (h : Canonical s) : Canonical (State.launchDrain n s) := by
  induction n generalizing s with
  | zero => exact h
  | succ n ih =>
    unfold State.launchDrain
    dsimp only
    split
    · exact .ite (ih (.evAppend h)) h
    · exact h

theorem NextCanonical.execLaunch {c a} (h : Canonical s) : NextCanonical (execLaunch c a s) := by
  refine .once h fun _ _ h => ?_
  dsimp only
  split
  · exact h
  · split
    · exact h
    · exact .launchDrain h

theorem NextCanonical.execSample {c tag} (h : Canonical s) : NextCanonical (execSample c tag s) := .once h (fun _ _ h => .ite (.setGrp h) h)

/-! ## Copies -/

theorem Canonical.copyPlace {g e n a} (h : Canonical y.st) : Canonical (copyPlace g e n y a).1.st := by
  unfold Machine.copyPlace
  split
  · split <;> exact h
  · split <;> next e => exact h.seenPlace.of_eq_st e

theorem Canonical.copyLayout {g n kind k} (h : Canonical y.st) : Canonical (copyLayout g n kind k y).1.st := by
  refine .ite_fstSt h ?_
  split <;> next e => exact h.layout.of_eq_st e

theorem Canonical.copyMoves {g r word} (h : Canonical y.st) : Canonical (copyMoves g r word y).1.st := by
  unfold Machine.copyMoves
  split
  next e =>
    have hsrc := h.copyLayout.of_eq_st e
    split
    next e =>
      have hy := hsrc.copyLayout.of_eq_st e
      refine .ite_fstSt hy (.ite_fstSt hy ?_)
      split
      · exact hy
      · dsimp only
        split
        · split
          · exact hy
          · refine .ite_fstSt hy ?_
            split
            · exact hy
            · exact hy
            · split
              · exact .each hy fun _ _ => .copyPlace
              · split <;> exact .each (.each hy fun _ _ => .copyPlace) fun _ _ => .copyPlace
        · exact hy

theorem NextCanonical.copyWord {c reads vals} (h : Canonical s) : NextCanonical (copyWord c reads vals s) := by
  unfold Machine.copyWord
  split
  · split
    · refine .out (.retire ?_)
      exact h
    · exact .out (.leave (.holdFor h))
  · exact .word h fun _ _ h => h

theorem Canonical.copyAccept {g a fin} (h : Canonical s) : Canonical (copyAccept g a fin s).1 := by
  unfold Machine.copyAccept
  split
  · exact h
  · split
    · exact h
    · dsimp only
      split
      · exact h
      · split
        · exact h
        · split
          · exact h
          · have hm : ∀ {r word}, Canonical (Machine.copyMoves g r word ⟨s, []⟩).1.st := .copyMoves (y := ⟨s, []⟩) h
            split <;> next e => exact hm.of_eq_st e

theorem Canonical.copySignal {g c e} (h : Canonical s) : Canonical (CopyEnd.signal g c s e) := by
  unfold CopyEnd.signal
  split
  · exact h
  · exact .arriveBar h
  · split
    · exact .spPutBy h
    · exact h

theorem Canonical.copyDo_go {p a x fin g c} (h : Canonical s) : Canonical (copyDo.go p a x fin s g c).st := by
  unfold copyDo.go
  split
  · next e => exact h.copyAccept.of_eq e
  · next e => exact .ite_st (.copySignal (h.copyAccept.of_eq e)) (.setCopies (h.copyAccept.of_eq e))

theorem Canonical.copyDo {p a x fin} (h : Canonical s) : Canonical (copyDo p a x fin s).st := by
  unfold Machine.copyDo
  dsimp only
  split
  · exact .ite_st h (.copyDo_go h)
  · exact .copyDo_go h

theorem NextCanonical.execCopyAcceptance {core sel} (h : Canonical s) : NextCanonical (execCopyAcceptance core sel s) := by
  unfold Machine.execCopyAcceptance
  split
  · exact .out h
  · split
    · refine .ite (.out h) ?_
      split
      · exact .out (.retire (.copyDo h))
      · exact .out (.retire (.copyDo h))
      · exact .out h
    · exact .out h

theorem Canonical.copyPlaceWrite {id c b x} (h : Canonical s) : Canonical (CopyPlace.write s id c b x) := by
  unfold CopyPlace.write
  split
  · exact .spPutBy h
  · exact .writeBy h
  · exact h

theorem Canonical.copyPlaceTouch {n x} (h : Canonical s) : Canonical (CopyPlace.touch s n x) := by
  unfold CopyPlace.touch
  split
  · exact .touchAll h
  · exact h

theorem Canonical.copySome {id c size n l} (h : Canonical s) : Canonical (copySome id c size n l s).1 := by
  induction n generalizing s l with
  | zero => exact h
  | succ n ih =>
    unfold Machine.copySome
    dsimp only
    split
    · exact h
    · split
      · exact h
      · exact .ite_fst (ih (.copyPlaceTouch h)) (ih (.copyPlaceWrite (.copyPlaceTouch h)))

theorem SomeCanonical.opStart {id} (h : Canonical s) : SomeCanonical (s.opStart id) := by
  unfold State.opStart
  split
  · exact .some h
  · split
    · exact .some (.beginOp h)
    · exact .none

theorem Canonical.engineFault {g q cause record pa} (h : Canonical s) : Canonical (s.engineFault g q cause record pa) := .postGroup h

theorem NextCanonical.execCopyCompletion {cl q} (h : Canonical s) : NextCanonical (execCopyCompletion cl q s) := by
  unfold Machine.execCopyCompletion
  dsimp only
  split
  · exact .out h
  · split
    · exact .out h
    · next e =>
      have hs := SomeCanonical.opStart h _ e
      split
      · next e => exact .out (.finishOp (.setCopies (.engineFault (hs.copySome.of_eq e))))
      · next e => exact .out (.setCopies (hs.copySome.of_eq e))
      · next e =>
        have hc : Canonical _ := hs.copySome.of_eq e
        refine .out (.finishOp (.ite (.setCopies hc) ?_))
        split
        · exact .spPutBy (.pass (.setCopies hc))
        · split
          · exact .arriveBar (.setCopies hc)
          · exact .setCopies hc

theorem Canonical.ldxMoves {id c n l} (h : Canonical s) : Canonical (ldxMoves id c n l s) := by
  induction l generalizing s with
  | nil => exact h
  | cons x l ih =>
    obtain ⟨k, p, va⟩ := x
    cases p with
    | none => exact ih (.spPutBy h)
    | some p => exact ih (.spPutBy (.touchAll h))

theorem NextCanonical.execLdxCompletion {op} (h : Canonical s) : NextCanonical (execLdxCompletion op s) := by
  unfold Machine.execLdxCompletion
  split
  · exact .out h
  · split
    · refine .ite (.out h) (.ite (.out (.finishOp (.arriveBar (.ldxMoves (.beginOp h))))) (.out ?_))
      exact .ldxMoves (.beginOp h)
    · exact .out h

/-! ## Term instructions -/

/-- One lane's term instruction leaves the state that it reads through in canonical form. -/
def TermCanonical (m : TM α) : Prop := ∀ x : TermSt, Canonical x.y.st → Canonical (m.run x).2.y.st

theorem TermCanonical.pure {a : α} : TermCanonical (pure a) := fun _ h => h
theorem TermCanonical.throw {e : LaneRes} : TermCanonical (throw e : TM α) := fun _ h => h
theorem TermCanonical.set {x : TermSt} (h : Canonical x.y.st) : TermCanonical (set x) := fun _ _ => h
theorem TermCanonical.modify {f : TermSt → TermSt} (hf : ∀ x, Canonical x.y.st → Canonical (f x).y.st) : TermCanonical (modify f) := hf

theorem TermCanonical.bind {m : TM α} {f : α → TM β} (hm : TermCanonical m) (hf : ∀ a, TermCanonical (f a)) : TermCanonical (m >>= f) := by
  intro x hx
  have hy := hm x hx
  change Canonical (ExceptT.bindCont f (m.run x).1 (m.run x).2).2.y.st
  cases (m.run x).1 with
  | ok a => exact hf a _ hy
  | error e => exact hy

theorem TermCanonical.get_bind {f : TermSt → TM β} (hf : ∀ x, Canonical x.y.st → TermCanonical (f x)) : TermCanonical (get >>= f) :=
  fun x h => hf x h x h

theorem TermCanonical.ite {p : Prop} {_ : Decidable p} {a b : TM α} (ha : TermCanonical a) (hb : TermCanonical b) :
    TermCanonical (if p then a else b) := by
  split
  · exact ha
  · exact hb

theorem TermCanonical.termAlign {n w} : TermCanonical (termAlign n w) := .ite .pure .throw

theorem TermCanonical.termPlace {n a} : TermCanonical (termPlace n a) := by
  refine .get_bind fun x h => .ite .throw ?_
  split
  · next e => exact .bind (.set (h.seenPlace.of_eq_st e)) fun _ => .throw
  · next e => exact .bind (.set (h.seenPlace.of_eq_st e)) fun _ => .pure

theorem TermCanonical.termWord {a} : TermCanonical (termWord a) := by
  refine .bind .termPlace fun p => .get_bind fun x h => ?_
  split
  · exact .pure
  · split
    · next e => exact .bind (.set (h.load.of_eq e)) fun _ => .pure
    · exact .throw

theorem TermCanonical.termPut {a v} : TermCanonical (termPut a v) := .bind .termPlace fun _ => .modify fun _ h => h

theorem TermCanonical.termSp {w a} : TermCanonical (termSp w a) := by
  refine .get_bind fun x h => ?_
  split
  · exact .throw
  · split
    · exact .pure
    · split
      · next e => exact .bind (.set (h.spSee.of_eq e)) fun _ => .pure
      · exact .throw

theorem TermCanonical.termSpPut {w a v} : TermCanonical (termSpPut w a v) := by
  refine .get_bind fun x h => ?_
  split
  · exact .throw
  · exact .set h

theorem TermCanonical.termAddr {w n} : TermCanonical (termAddr w n) := .ite .pure .throw
theorem TermCanonical.termStep {a} : TermCanonical (termStep a) := .get_bind fun _ h => .ite .throw (.set h)

theorem TermCanonical.overlayFind {a n e} : TermCanonical (overlayFind a n e) := by
  induction n generalizing e with
  | zero => exact .pure
  | succ n ih => exact .bind .termSp fun _ => .ite (.bind .termSp fun _ => .pure) ih

theorem TermCanonical.termLookup {a} : TermCanonical (termLookup a) := by
  refine .get_bind fun x h => .bind .termAlign fun _ => .ite ?_ .termWord
  refine .bind .termAlign fun _ => .bind .termAlign fun _ => .bind .overlayFind fun v => ?_
  split
  · exact .pure
  · exact .termWord

theorem TermCanonical.derefLoop {n w at_} : TermCanonical (derefLoop n w at_) := by
  induction n generalizing w at_ with
  | zero => exact .throw
  | succ n ih =>
    refine .ite .throw (.ite .pure (.bind .termAddr fun _ => .bind .termStep fun _ => .bind .termLookup fun _ => ?_))
    exact .ite .pure (.ite .throw ih)

theorem TermCanonical.termDeref {w} : TermCanonical (termDeref w) := .get_bind fun _ _ => .derefLoop

theorem TermCanonical.termBind {a v} : TermCanonical (termBind a v) := by
  refine .get_bind fun x h => .bind .termAlign fun _ => .bind (.modify fun _ h => h) fun _ => .ite ?_ ?_
  · refine .bind .termAlign fun _ => .bind .termAlign fun _ => .ite .throw ?_
    exact .bind .termSpPut fun _ => .bind .termSpPut fun _ => .modify fun _ h => h
  · refine .bind .termAlign fun _ => .ite ?_ .termPut
    exact .bind .termSpPut fun _ => .bind (.modify fun _ h => h) fun _ => .termPut

theorem TermCanonical.termFun {a} : TermCanonical (termFun a) := .bind .termWord fun _ => .ite .pure .throw
theorem TermCanonical.termTop : TermCanonical termTop := .get_bind fun _ _ => .ite .pure (.bind .termSp fun _ => .pure)

theorem TermCanonical.walkRoom {base depth} : TermCanonical (walkRoom base depth) := by
  refine .get_bind fun x h => .ite .pure ?_
  dsimp only
  split
  · exact .throw
  · exact .throw
  · exact .set h

theorem TermCanonical.walkRooms {base depth l} : TermCanonical (walkRooms base depth l) := by
  induction l generalizing depth with
  | nil => exact .pure
  | cons _ l ih => exact .bind .walkRoom fun _ => ih

theorem TermCanonical.unifyPair {v w} : TermCanonical (unifyPair v w) := by
  refine .ite .pure (.ite ?_ (.ite (.bind .termBind fun _ => .pure) (.ite (.bind .termBind fun _ => .pure) (.ite .pure (.ite ?_
    (.ite ?_ .pure))))))
  · exact .ite (.bind .termBind fun _ => .pure) (.bind .termBind fun _ => .pure)
  · refine .bind .termAddr fun _ => .bind .termAddr fun _ => .bind .termFun fun _ => .bind .termFun fun _ => ?_
    exact .ite .pure .pure
  · exact .bind .termAddr fun _ => .bind .termAddr fun _ => .pure

theorem TermCanonical.unifyLoop {base n l} : TermCanonical (unifyLoop base n l) := by
  induction n generalizing l with
  | zero => cases l with
    | nil => exact .pure
    | cons _ _ => exact .throw
  | succ n ih => cases l with
    | nil => exact .pure
    | cons x l =>
      refine .bind .termStep fun _ => .bind .termDeref fun _ => .bind .termDeref fun _ => .bind .unifyPair fun r => ?_
      cases r with
      | none => exact .pure
      | some ps => exact .bind .walkRooms fun _ => ih

theorem TermCanonical.termAlloc {a l} : TermCanonical (termAlloc a l) := by
  induction l generalizing a with
  | nil => exact .pure
  | cons _ l ih => exact .bind .termPut fun _ => ih

theorem TermCanonical.termMake {d tag l} : TermCanonical (termMake d tag l) :=
  .get_bind fun _ _ => .bind .termAlign fun _ => .ite .throw (.bind .termAlloc fun _ => .pure)

theorem TermCanonical.termSpPuts {a l} : TermCanonical (termSpPuts a l) := by
  induction l generalizing a with
  | nil => exact .pure
  | cons _ l ih => exact .bind .termSpPut fun _ => ih

theorem TermCanonical.termUnwind {n e} : TermCanonical (termUnwind n e) := by
  induction n generalizing e with
  | zero => exact .pure
  | succ n ih => exact .bind .termSp fun _ => .bind .termPut fun _ => ih

theorem TermCanonical.termSpGets {n a} : TermCanonical (termSpGets n a) := by
  induction n generalizing a with
  | zero => exact .pure
  | succ n ih => exact .bind .termSp fun _ => .bind ih fun _ => .pure

theorem TermCanonical.termMark {chp} : TermCanonical (termMark chp) := .ite .pure .termSp

theorem TermCanonical.termFail : TermCanonical termFail := by
  refine .get_bind fun _ _ => .ite .throw (.bind .termSpGets fun _ => ?_)
  refine .bind .termAlign fun _ => .bind .termAlign fun _ => .bind .termAlign fun _ => .ite .throw ?_
  exact .bind .termUnwind fun _ => .bind .termSpGets fun _ => .bind .termMark fun _ => .pure

theorem TermCanonical.ovEntries {n e} : TermCanonical (ovEntries n e) := by
  induction n generalizing e with
  | zero => exact .pure
  | succ n ih =>
    refine .bind .termSp fun _ => .bind .termSp fun _ => .bind .termPlace fun p => ?_
    cases p with
    | view => exact .throw
    | lin => exact .bind ih fun _ => .pure

theorem TermCanonical.casWord {sc a} : TermCanonical (casWord sc a) := by
  refine .bind .termPlace fun _ => .get_bind fun x h => ?_
  split
  · exact .pure
  · split
    · exact .throw
    · exact .bind (.set (.seeAtomic h)) fun _ => .pure

theorem TermCanonical.ovPublish {sc l kept} : TermCanonical (ovPublish sc l kept) := by
  induction l generalizing kept with
  | nil => exact .pure
  | cons e l ih =>
    refine .bind .casWord fun _ => .ite ?_ (.ite ih (.bind .termSpPut fun _ => .bind .termSpPut fun _ => ih))
    exact .bind .termPlace fun _ => .bind (.modify fun _ h => h) fun _ => ih

theorem Canonical.walked {t : TermSt} {base} (h : Canonical t.y.st) : Canonical (t.walked base) := by
  unfold TermSt.walked
  dsimp only
  split
  · exact h
  · exact .foldl (fun _ _ => .spPut) h

theorem Canonical.commit {t : TermSt} (h : Canonical s) : Canonical (t.commit s) :=
  .foldr (fun _ _ => .spPutBy) (.foldr (fun _ _ => .writeBy) h)

theorem NextCanonical.termInstr {c reads ends f} (h : Canonical s) (hf : ∀ t, TermCanonical (f t)) :
    NextCanonical (termInstr c reads ends f s) := by
  refine .word h fun s p h => .each (x := ⟨s, []⟩) h fun y i h => ?_
  have hr := hf (tid s.curG i) (Machine.termStart s.curG (tid s.curG i) y) h
  split
  · next e => rw [e] at hr; exact hr
  · next e =>
    rw [e] at hr
    refine .commit ?_
    split
    · exact hr
    · exact .walked hr

theorem NextCanonical.execDeref {c d a} (h : Canonical s) : NextCanonical (execDeref c d a s) :=
  .termInstr h fun _ => .bind .termDeref fun _ => .pure

theorem NextCanonical.execUnify {c d a b} (h : Canonical s) : NextCanonical (execUnify c d a b s) :=
  .termInstr h fun _ => .get_bind fun _ _ => .bind .termTop fun _ => .bind .walkRoom fun _ => .bind .unifyLoop fun _ => .get_bind
    fun _ _ => .pure

theorem NextCanonical.execBind {c a b} (h : Canonical s) : NextCanonical (execBind c a b s) := by
  refine .termInstr h fun _ => .get_bind fun _ _ => .bind .termDeref fun _ => .bind .termDeref fun _ => ?_
  refine .ite (.bind .throw fun _ => ?_) ?_
  all_goals exact .ite (.bind .termBind fun _ => .get_bind fun _ _ => .pure) (.get_bind fun _ _ => .pure)

theorem NextCanonical.execMkvar {c d} (h : Canonical s) : NextCanonical (execMkvar c d s) := .termInstr h fun _ => .termMake

theorem NextCanonical.execMkstr {c d a} (h : Canonical s) : NextCanonical (execMkstr c d a s) :=
  .termInstr h fun _ => .ite .termMake (.ite .termMake .throw)

theorem NextCanonical.execChpt {c n off} (h : Canonical s) : NextCanonical (execChpt c n off s) := by
  unfold Machine.execChpt
  refine .termInstr h fun _ => .get_bind fun _ _ => .bind .termTop fun _ => .bind .termAlign fun _ => ?_
  refine .bind .termAlign fun _ => .bind .termAlign fun _ => ?_
  exact .bind .termSpPuts fun _ => .pure

theorem NextCanonical.execFail {c} (h : Canonical s) : NextCanonical (execFail c s) := by
  unfold Machine.execFail
  refine .word h fun s p h => .acted (.modLanes (.each (x := ⟨s, []⟩) h fun y i h => ?_))
  have hr := TermCanonical.termFail (Machine.termStart s.curG (tid s.curG i) y) h
  split
  · next e => rw [e] at hr; exact hr
  · next e => rw [e] at hr; exact .commit hr

theorem NextCanonical.execCut {c a} (h : Canonical s) : NextCanonical (execCut c a s) := by
  refine .termInstr h fun _ => .get_bind fun _ _ => ?_
  cases a with
  | some r =>
    refine .bind .termAlign fun _ => .bind .termAlign fun _ => .ite .throw ?_
    exact .bind .termMark fun _ => .pure
  | none => exact .ite .pure (.bind .termSp fun _ => .bind .termMark fun _ => .pure)

theorem NextCanonical.execOvpub {c sc d} (h : Canonical s) : NextCanonical (execOvpub c sc d s) := by
  refine .termInstr h fun _ => .get_bind fun _ _ => .ite .throw ?_
  exact .bind .termAlign fun _ => .bind .termAlign fun _ => .bind .ovEntries fun _ => .bind .ovPublish fun _ => .pure

/-! ## Exchanges and rings -/

theorem Canonical.setQueue {k l} (h : Canonical s) : Canonical (s.setQueue k l) := h
theorem Canonical.pushPkt {k p} (h : Canonical s) : Canonical (s.pushPkt k p) := .setQueue h
theorem Canonical.modXfer {id f} (h : Canonical s) : Canonical (s.modXfer id f) := h
theorem Canonical.inject {x} (h : Canonical s) : Canonical (s.inject x) := .pushPkt (.modXfer h)

theorem Canonical.injectHeld {l} (h : Canonical s) : Canonical (State.injectHeld l s) := by
  induction l generalizing s with
  | nil => exact h
  | cons _ l ih => exact ih (.when .inject h)

theorem Canonical.lateResult {t op w} (h : Canonical s) : Canonical (s.lateResult t op w) := .modThr h
theorem Canonical.xferError {x} (h : Canonical s) : Canonical (s.xferError x) := .postGroup h

theorem Canonical.endXfer {id status keep} (h : Canonical s) : Canonical (s.endXfer id status keep) := by
  unfold State.endXfer
  split
  · exact h
  · next x _ =>
    extract_lets x live s1 s2 s3 s4
    have h1 : Canonical s1 := .ite (.modXfer h) h
    have h4 : Canonical s4 := .when .xferError (.when (.foldl fun _ _ => .pass) (.foldl (fun _ _ => .lateResult) h1))
    exact .ite h1 (.ite h4 h4)

theorem Canonical.carry {x} (h : Canonical s) : Canonical (s.carry x) := by
  refine .foldl (fun _ _ h => ?_) h
  dsimp only
  split
  · exact .pass (.pass h)
  · exact .pass h

theorem Canonical.launchXfers {l} (h : Canonical s) : Canonical (s.launchXfers l) := .injectHeld (.foldl (fun _ _ => .carry) h)

theorem Canonical.memPlace {g w n r a} (h : Canonical y.st) : Canonical (memPlace g w n r a y).1.st := by
  refine .ite_fstSt h ?_
  split <;> next e => exact h.seenReach.of_eq_st e

theorem Canonical.xferPlace {g w n r a} (h : Canonical y.st) : Canonical (xferPlace g w n r a y).1.st :=
  .ite_fstSt h.memPlace (.ite_fstSt h h)

theorem Canonical.xferLane {g w n x s0 a r i} (h : Canonical y.st) : Canonical (xferLane g w n x s0 a r y i).1.st := by
  unfold Machine.xferLane
  dsimp only
  split
  · exact h
  · refine .ite_fstSt h ?_
    split
    · exact h
    · split
      · next e => exact h.xferPlace.of_eq_st e
      · next e =>
        have hp := h.xferPlace.of_eq_st e
        split
        · exact .ite_fstSt hp hp
        · split <;> exact hp
        · exact hp

theorem NextCanonical.xferWord {c t o sc d a r x} (h : Canonical s) : NextCanonical (xferWord c t o sc d a r x s) := by
  unfold Machine.xferWord
  refine .word h fun s p h => ?_
  have hy {n v} : Canonical (Seen.each (Machine.xferLane s.curG t.bytes n v s a r) p ⟨s, []⟩).1.st :=
    .each (x := ⟨s, []⟩) h fun _ _ => .xferLane
  refine .when .modLanes (.launchXfers ?_)
  exact hy

theorem NextCanonical.execXsend {c d r q x nm1} (h : Canonical s) : NextCanonical (execXsend c d r q x nm1 s) := by
  unfold Machine.execXsend
  refine .word h fun _ _ h => ?_
  split
  · exact h
  · dsimp only
    split
    · exact h
    · split
      · exact h
      · split
        · exact h
        · exact .launchXfers h

theorem Canonical.xfenceBy {k sc t} (h : Canonical s) : Canonical (s.xfenceBy k sc t) := .when .fenceBy (.ite h (.pass (.pass h)))

theorem NextCanonical.execXfence {c k sc} (h : Canonical s) : NextCanonical (execXfence c k sc s) := by
  unfold Machine.execXfence
  split
  · exact .ite (.out (.holdWord h)) (.inTurn h (fun _ _ h => .xfenceBy h))
  · exact .inTurn h (fun _ _ h => .xfenceBy h)

theorem NextCanonical.execRingpoll {c d a} (h : Canonical s) : NextCanonical (execRingpoll c d a s) := by
  refine .inTurn h fun _ _ h => ?_
  split
  · exact h
  · exact .acquireSp h

theorem NextCanonical.execRingwait {c d a} (h : Canonical s) : NextCanonical (execRingwait c d a s) := by
  refine .inTurn h fun _ _ h => ?_
  split
  · exact h
  · exact .ite_fst (.acquireSp h) (.sleep h)

theorem NextCanonical.execRingadv {c a n} (h : Canonical s) : NextCanonical (execRingadv c a n s) := by
  refine .once h fun _ _ h => ?_
  split
  · exact h
  · exact .ite_st h (.acted (.spPutBy h))

/-! ## Courses -/

theorem Canonical.wakeEnd {z} (h : Canonical s) : Canonical (s.wakeEnd z) := .foldl (fun _ _ => .endRegion) (.wake h)
theorem Canonical.mwaited {g mask} (h : Canonical s) : Canonical (s.mwaited g mask) := .foldl (fun _ _ h => .ite (.pass h) h) h

theorem Canonical.mwaitDone {id l} (h : Canonical s) : Canonical (State.mwaitDone id l s) := by
  induction l generalizing s with
  | nil => exact h
  | cons z l ih =>
    unfold State.mwaitDone
    split
    · exact .ite (ih h) (ih (.ite (.mwaited (.wake h)) h))
    · exact ih h

theorem Canonical.harpEnd {k} (h : Canonical s) : Canonical (s.harpEnd k) := by
  unfold State.harpEnd
  dsimp only
  split
  · exact h
  · exact .mwaitDone (.finishOp (.setCourse h))

theorem SomeCanonical.courseMove {k} (h : Canonical s) : SomeCanonical (s.courseMove k) := by
  unfold State.courseMove
  dsimp only
  split
  · exact .some (.harpEnd h)
  · refine .orElse ?_ ?_
    · split
      · exact .ite (.some (.setCourse h)) .none
      · exact .none
    · split
      · split
        · exact .some (.setGrp (.wakeEnd (.setCourse h)))
        · exact .none
      · refine .ite .none ?_
        split
        · split
          · exact .some (.wakeEnd (.setCourse h))
          · exact .none
        · exact .none

theorem Canonical.courseFlow {k n} (h : Canonical s) : Canonical (State.courseFlow k n s) := by
  induction n generalizing s with
  | zero => exact h
  | succ n ih =>
    unfold State.courseFlow
    split
    · exact h
    · next e => exact ih (SomeCanonical.courseMove h _ e)

theorem Canonical.flow {k} (h : Canonical s) : Canonical (s.flow k) := .courseFlow h

theorem Canonical.harpFail {k slot mac cause} (h : Canonical s) : Canonical (s.harpFail k slot mac cause) :=
  .harpEnd (.when .postGroup (.setCl (.setCourse h)))

theorem Canonical.harpFlags {c f} (h : Canonical s) : Canonical (s.harpFlags c f) := .modThr h

theorem Canonical.harpHead {k} {o : HarpCmd} (h : Canonical s) (e : s.harpHead k = some (u, o)) : Canonical u := by
  unfold State.harpHead at e
  dsimp only at e
  split at e
  · split at e
    · cases e
    · obtain ⟨v, hv, hp⟩ := Option.map_eq_some_iff.mp e
      exact (Prod.mk.inj hp).1 ▸ SomeCanonical.opStart h v hv
  · cases e

/-! ## Bindings -/

theorem Canonical.bindRefuse {i r} (h : Canonical s) : Canonical (s.bindRefuse i r) := .post (.bindState h)
theorem Canonical.bindGo {w} (h : Canonical s) : Canonical (s.bindGo w) := .ite h (.ite h (.bindRefuse h))

/-! ## Starts, phases, saves, kills and fault replies -/

theorem Canonical.bindGroupTo {i r x} (h : Canonical s) : Canonical (s.bindGroupTo i r x) := .setGrp h
theorem Canonical.clearFor {g x} (h : Canonical s) : Canonical (s.clearFor g x) := .foldl (fun _ _ => .forget) h

theorem Canonical.startFresh {i r x} (h : Canonical s) : Canonical (s.startFresh i r x) :=
  .bindState (.foldl (fun _ _ => .setThr) (.bindGroupTo (.clearFor h)))

theorem Canonical.sleepPhase {g lane t} (h : Canonical s) : Canonical (s.sleepPhase g lane t) := h

theorem Canonical.startSaved {i r x im y} (h : Canonical s) : Canonical (s.startSaved i r x im y) := by
  refine .bindState (.foldl (fun _ _ => .setGrp) (.foldl (fun _ _ h => ?_) (.bindGroupTo (.clearFor h))))
  split
  · exact .setThr h
  · exact .sleepPhase h

theorem Canonical.dropRange {space k n} (h : Canonical s) : Canonical (s.dropRange space k n) := h
theorem Canonical.zeroSp {k n} (h : Canonical s) : Canonical (s.zeroSp k n) := ⟨h.1, State.zeroSp_sp_wf s k n h.2⟩

theorem Canonical.openWg {core base r im} (h : Canonical s) : Canonical (s.openWg core base r im) := by
  unfold State.openWg
  dsimp only
  split
  · exact .dropRange (.setWg (.dropRange (.dropRange h)))
  · exact .foldl (fun _ _ => .spPut) (.zeroSp (.setWg (.dropRange (.dropRange h))))

theorem Canonical.modRegion {rcb f} (h : Canonical s) : Canonical (s.modRegion rcb f) := h

theorem Canonical.startWg {i base r} (h : Canonical s) : Canonical (s.startWg i base r) := by
  unfold State.startWg
  dsimp only
  split
  · exact .foldl (fun _ _ => .exited) (.foldl (fun _ _ => .startFresh) (.setCl (.openWg h)))
  · refine .ite (.foldl (fun _ _ => .bindRefuse) h) (.modRegion (.foldl (fun _ _ h => ?_) (.openWg h)))
    split
    · exact .startSaved h
    · exact h

theorem NextCanonical.execGroupStart {rec_ base} (h : Canonical s) : NextCanonical (execGroupStart rec_ base s) := by
  unfold Machine.execGroupStart
  dsimp only
  split
  · exact .out h
  · exact .ite (.out (.announce (.startWg h))) (.out h)

theorem Canonical.zeroCluster {c} (h : Canonical s) : Canonical (s.zeroCluster c) := .setCl (.zeroSp h)
theorem Canonical.resetCourses {c rst} (h : Canonical s) : Canonical (s.resetCourses c rst) := .foldl (fun _ _ => .setCourse) h

theorem Canonical.beginCluster {c rcb phase x bases rst} (h : Canonical s) : Canonical (s.beginCluster c rcb phase x bases rst) := by
  unfold State.beginCluster
  extract_lets s1 s2 y s3
  have h2 : Canonical s2 := .resetCourses (.when .zeroCluster h)
  clear_value s2
  exact h2

theorem Canonical.startPending {c rcb l bases} (h : Canonical s) : Canonical (State.startPending c rcb l bases s) := by
  induction l generalizing s bases with
  | nil => exact h
  | cons _ l ih =>
    unfold State.startPending
    refine .ite ?_ (ih h)
    split
    · exact ih (.when .startWg h)
    · exact ih h

theorem Canonical.holdPending {c rcb} (h : Canonical s) : Canonical (s.holdPending c rcb) := h
theorem Canonical.announceAll {rcb} (h : Canonical s) : Canonical (s.announceAll rcb) := .foldl (fun _ _ => .announce) h

theorem NextCanonical.execRegionStart {cl bases} (h : Canonical s) : NextCanonical (execRegionStart cl bases s) := by
  unfold Machine.execRegionStart
  dsimp only
  split
  · exact .out h
  · refine .ite (.out h) ?_
    split
    · exact .out (.bindRefuse h)
    · refine .ite (.out h) (.ite (.out (.bindRefuse h)) (.ite (.out h) (.out (.announceAll (.holdPending (.startPending ?_))))))
      exact .startFresh (.beginCluster h)

theorem NextCanonical.execRegionResume {cl bases wgBases} (h : Canonical s) : NextCanonical (execRegionResume cl bases wgBases s) := by
  unfold Machine.execRegionResume
  dsimp only
  split
  · exact .out h
  · split
    · exact .out h
    · refine .ite (.out h) ?_
      split
      · exact .out (.post h)
      · split
        · exact .out (.bindRefuse h)
        · refine .out (.announceAll (.holdPending (.foldl (fun _ _ h => ?_) (.when .markEdited (.modRegion (.startSaved ?_))))))
          · split
            · exact .when .startWg h
            · exact h
          · exact .foldl (fun _ _ => .spPut) (.foldl (fun _ _ => .zeroSp) (.beginCluster h))

theorem Canonical.wakePhase {c l} (h : Canonical s) : Canonical (State.wakePhase c l s) := by
  induction l generalizing s with
  | nil => exact h
  | cons _ l ih => exact .ite (ih (.foldl (fun _ _ => .endRegion) (.wake h))) (ih h)

theorem Canonical.consumeImage {rcb} (h : Canonical s) : Canonical (s.consumeImage rcb) := by
  unfold State.consumeImage
  split
  · split
    · exact .ite (.modRegion (.wr h)) h
    · exact h
  · exact h

theorem NextCanonical.execClusterAdvance {cl} (h : Canonical s) : NextCanonical (execClusterAdvance cl s) := by
  unfold Machine.execClusterAdvance
  extract_lets c x s1 rcb s2 s3 s4 s5 s6
  have h5 : Canonical s5 := .announce (.wakePhase (.releaseTree (.consumeImage (.dropPast (.setCl h)))))
  have h6 : Canonical s6 := .foldl (fun _ _ => .reconvRelease) h5
  clear_value s6
  exact .ite (.out h) (.out h6)

theorem Canonical.nameStraggler {t} (h : Canonical s) : Canonical (s.nameStraggler t) := by
  unfold State.nameStraggler
  dsimp only
  split
  · exact .ite (.setThr h) (.straggle h)
  · exact .ite (.setThr h) (.straggle (.unsleep h))
  · exact h
  · exact h
  · exact h
  · exact .setThr h

theorem NextCanonical.execStragglerTimeout {cl} (h : Canonical s) : NextCanonical (execStragglerTimeout cl s) := by
  unfold Machine.execStragglerTimeout
  dsimp only
  split
  · exact .ite (.out h) (.out (.when (fun h => .foldl (fun _ _ => .reconvRelease) (.foldl (fun _ _ => .nameStraggler) h)) (.setCl
    (.postCl h))))
  · exact .out h

theorem Canonical.preemptWrite {w} (h : Canonical s) : Canonical (s.preemptWrite w) := by
  unfold State.preemptWrite
  dsimp only
  split
  · exact .ite (.postCl h) (.ite h (.modRegion h))
  · split
    · exact .ite (.post h) h
    · exact h

theorem Canonical.saveEnergy {base g} (h : Canonical s) : Canonical (s.saveEnergy base g) := .ite h (.acctAppend h)
theorem Canonical.freeSaved {g} (h : Canonical s) : Canonical (s.freeSaved g) := .freeGroup h

theorem Canonical.saveImage {x} (h : Canonical s) : Canonical (s.saveImage x) :=
  .modRegion (.foldl (fun _ _ => .saveEnergy) (.wrBytes (.reach h)))

theorem Canonical.saveDone {x} (h : Canonical s) : Canonical (s.saveDone x) := by
  unfold State.saveDone
  extract_lets c r a s1 b s2 s3 s4
  have h3 : Canonical s3 := .post (.foldl (fun _ _ => .freeSaved) (.wr h))
  clear_value s3
  exact .foldl (fun _ _ => .clearCluster) h3

theorem NextCanonical.execPreempt {mc w} (h : Canonical s) : NextCanonical (execPreempt mc w s) := .out (.preemptWrite h)

theorem NextCanonical.execSave {rcb} (h : Canonical s) : NextCanonical (execSave rcb s) := by
  unfold Machine.execSave
  split
  · exact .out h
  · exact .ite (.out h) (.out (.unless .saveDone (.ite h (.saveImage h))))

theorem Canonical.killOp {o} (h : Canonical s) : Canonical (s.killOp o) := by
  unfold State.killOp
  dsimp only
  split
  · exact .clearJoins (.ldxMoves (.beginOp h))
  · exact .clearJoins h

theorem Canonical.killGroup {g} (h : Canonical s) : Canonical (s.killGroup g) :=
  .setGrp (.setWg (.foldl (fun _ _ => .setThr) (.bindState (.foldl (fun _ _ => .killOp) (.dropLanes h)))))

theorem Canonical.killEvents {gs c} (h : Canonical s) : Canonical (s.killEvents gs c) :=
  .foldl (fun _ _ => .foldl fun _ _ => .engineFault) (.foldl (fun _ _ => .foldl fun _ _ => .when .engineFault) h)

theorem Canonical.deadCopies {gs c} (h : Canonical s) : Canonical (s.deadCopies gs c) := .foldl (fun _ _ => .setCopies) h

theorem Canonical.killRegion {x} (h : Canonical s) : Canonical (s.killRegion x) :=
  .regionEnd (.modRegion (.foldl (fun _ _ h => .setCl (.resetCourses h)) (.foldl (fun _ _ => .bindState) (.foldl (fun _ _ => .deadCopies)
    (.foldl (fun _ _ => .killGroup) (.foldl (fun _ _ => .killEvents) h))))))

theorem Canonical.killPending {f rcb} (h : Canonical s) : Canonical (s.killPending f rcb) := .post (.foldl (fun _ _ => .bindState) h)

theorem Canonical.killDomain {f} (h : Canonical s) : Canonical (s.killDomain f) :=
  .foldl (fun _ _ => .killPending) (.foldl (fun _ _ => .killRegion) h)

theorem NextCanonical.execKillPort {w} (h : Canonical s) : NextCanonical (execKillPort w s) := .out (.killDomain h)

theorem Canonical.reply {a bounds i} (h : Canonical s) : Canonical (State.reply a bounds s i) := by
  unfold State.reply
  extract_lets t x s1 s2 s3 y
  have h1 : Canonical s1 := by
    unfold s1
    split
    · exact h
    · exact h
  exact .ite h (.ite (.takeTrap h1) (.boundary (.setThr h)))

theorem NextCanonical.execFaultReply {w} (h : Canonical s) : NextCanonical (execFaultReply w s) := by
  unfold Machine.execFaultReply
  dsimp only
  split
  · exact .out h
  · exact .ite (.out h) (.ite (.out (.setCore h)) (.out (.unless .sampleSettle (.reconvRelease (.foldl (fun _ _ => .reply) h)))))

/-! ## Privileged words and completions -/

theorem Canonical.syncWorld (h : Canonical s) : Canonical s.syncWorld := h

theorem Canonical.bindWrite {w} (h : Canonical s) : Canonical (s.bindWrite w) := by
  have hb : Canonical (s.bindGo w) := .bindGo h
  refine .ite hb ?_
  split
  · exact .ite hb hb
  · exact hb

theorem Canonical.sysWrite {secure n x} (h : Canonical s) : Canonical (s.sysWrite secure n x) := by
  unfold State.sysWrite
  dsimp only
  split
  · exact .ite h h
  · exact h
  · exact .bindWrite h
  · exact h
  · exact h
  · exact .ite h h
  · exact h
  · exact .ite h h
  · exact h
  · exact h
  · exact .preemptWrite h
  · exact .ite h h

theorem NextCanonical.execSyswr {c n a} (h : Canonical s) : NextCanonical (execSyswr c n a s) := .once h (fun _ _ h => h)
theorem NextCanonical.execEret {c} (h : Canonical s) : NextCanonical (execEret c s) := .inTurn h (fun _ _ h => .ite_fst (.leaveHandler h) h)
theorem NextCanonical.execTlbinv {c m a b} (h : Canonical s) : NextCanonical (execTlbinv c m a b s) := .once h (fun _ _ h => h)

theorem NextCanonical.execHalt {c code} (h : Canonical s) : NextCanonical (execHalt c code s) :=
  .inTurn h (fun _ _ h => .haltLane (.modThr h))

theorem Canonical.invalidate {m asid page world} (h : Canonical s) : Canonical (s.invalidate m asid page world) := h
theorem Canonical.recordReg {space o knows wg n old} (h : Canonical s) : Canonical (s.recordReg space o knows wg n old) := .record h

theorem Canonical.began {o} (h : Canonical s) : Canonical (s.began o).1 := by
  unfold State.began
  dsimp only
  split
  · exact .foldl (fun _ _ => .fillPend) (.beginOp h)
  · exact .releaseTree (.beginOp h)
  · split
    · exact .foldl (fun _ _ => .fillPend) (.setCl (.beginOp h))
    · exact .beginOp h
    · exact .mchkEvent (.beginOp h)
    · exact .beginOp h
  · exact .beginOp h

theorem SomeCanonical.completed {o} (h : Canonical s) : SomeCanonical (s.completed o) := by
  refine .ite .none ?_
  split
  · exact .some h
  · exact .some h
  · exact .ite .none (.some h)
  · exact .some (.setWg (.recordReg h))
  · exact .some (.setWg (.recordReg h))
  · exact .ite (.ite (.ite (.some (.syncWorld h)) .none) (.some h)) (.some (.sysWrite h))
  · exact .ite .none (.some (.invalidate h))
  all_goals exact .none

theorem NextCanonical.execResultCompletion {op} (h : Canonical s) : NextCanonical (execResultCompletion op s) := by
  unfold Machine.execResultCompletion
  split
  · exact .out h
  · next o _ =>
    refine .ite (.ite (.out (.foldl (fun _ _ => .lateTrap) (.finishOp (.began h)))) (.out h)) ?_
    have hc : SomeCanonical (if s.joinsGone o.joins then s.completed o else none) := .ite (.completed h) .none
    split
    · exact .out h
    · next e => exact .out (.finishOp (hc _ e))

theorem NextCanonical.execTrapDelivery {t} (h : Canonical s) : NextCanonical (execTrapDelivery t s) := by
  unfold Machine.execTrapDelivery
  split
  · exact .out (.ite h (.deliver h))
  · exact .out h

theorem NextCanonical.execBindgo {mc w} (h : Canonical s) : NextCanonical (execBindgo mc w s) := .out (.bindWrite h)
theorem NextCanonical.execWtsync {mc w} (h : Canonical s) : NextCanonical (execWtsync mc w s) := .out (.ite h h)
theorem NextCanonical.execWtsyncCompletion (h : Canonical s) : NextCanonical (execWtsyncCompletion s) := .out (.ite (.syncWorld h) h)

/-! ## The debug port -/

theorem Canonical.answer {mc t status value} (h : Canonical s) : Canonical (s.answer mc t status value) := .post h
theorem Canonical.answerRegion {mc cmd rcb fdom status} (h : Canonical s) : Canonical (s.answerRegion mc cmd rcb fdom status) := .post h

theorem NextCanonical.dbgRequest {mc cmd data op halted act} (h : Canonical s) (hf : ∀ s t, Canonical s → Canonical (act s t)) :
    NextCanonical (s.dbgRequest mc cmd data op halted act) := by
  refine .out (.ite (.answer h) (.ite (.answer h) (.ite (.answer h) (hf _ _ ?_))))
  exact h

theorem Canonical.unhalt {t stepping} (h : Canonical s) : Canonical (s.unhalt t stepping) := .reconvRelease (.boundary (.modThr h))

theorem NextCanonical.execAttach {mc cmd data} (h : Canonical s) : NextCanonical (execAttach mc cmd data s) := by
  refine .out (.ite (.answerRegion h) ?_)
  split
  · exact .ite (.answerRegion h) (.answerRegion h)
  · exact .answerRegion h

theorem NextCanonical.execDebugHalt {mc cmd data} (h : Canonical s) : NextCanonical (execDebugHalt mc cmd data s) :=
  .dbgRequest h fun _ _ h => .ite (.answer h) (.ite (.answer h) (.ite (.modThr h) (.haltLane h)))

theorem NextCanonical.execResume {mc cmd data} (h : Canonical s) : NextCanonical (execResume mc cmd data s) :=
  .dbgRequest h fun _ _ h => .ite (.answer h) (.unhalt (.answer h))

theorem NextCanonical.execStep {mc cmd data} (h : Canonical s) : NextCanonical (execStep mc cmd data s) :=
  .dbgRequest h fun _ _ h => .ite (.answer h) (.unhalt (.answer h))

theorem NextCanonical.execStepEnd {t} (h : Canonical s) : NextCanonical (execStepEnd t s) := by
  unfold Machine.execStepEnd
  dsimp only
  split
  · exact .ite (.out (.setThr (.post h))) (.out h)
  · exact .out h

theorem Canonical.dbgPut {t r v} (h : Canonical s) : Canonical (s.dbgPut t r v) := .modThr h
theorem Canonical.dbgPutM {g i m} (h : Canonical s) : Canonical (s.dbgPutM g i m) := .setGrp h

theorem SomeCanonical.dbgWrite {t spec elem w} (h : Canonical s) : SomeCanonical (s.dbgWrite t spec elem w) := by
  unfold State.dbgWrite
  dsimp only
  split
  · exact .ite (.some (.dbgPut h)) .none
  · split
    · exact .ite .none (.some (.dbgPut h))
    · exact .none
  · exact .ite .none (.some (.dbgPutM h))
  · exact .ite .none (.some (.dbgPut h))
  · refine .ite .none ?_
    split
    · exact .none
    · exact .some (.foldl (fun _ _ => .dbgPut) h)
  · exact .none

theorem Canonical.setEdited {t} (h : Canonical s) : Canonical (s.setEdited t) := .markEdited h

theorem NextCanonical.execRead {mc cmd data} (h : Canonical s) : NextCanonical (execRead mc cmd data s) := by
  refine .dbgRequest h fun _ _ h => ?_
  split <;> exact .answer h

theorem NextCanonical.execWrite {mc cmd data} (h : Canonical s) : NextCanonical (execWrite mc cmd data s) := by
  refine .dbgRequest h fun _ _ h => ?_
  split
  · next e => exact .answer (.when .modThr (.setEdited (SomeCanonical.dbgWrite h _ e)))
  · exact .answer h

theorem NextCanonical.execRevoke {mc cmd data} (h : Canonical s) : NextCanonical (execRevoke mc cmd data s) := by
  refine .out (.ite (.answerRegion h) (.ite (.answerRegion (.foldl (fun _ _ => .unhalt) ?_)) (.answerRegion h)))
  exact h

theorem NextCanonical.execMread {mc cmd data} (h : Canonical s) : NextCanonical (execMread mc cmd data s) :=
  .dbgRequest h fun _ _ h => .ite (.answer h) (.answer h)

theorem NextCanonical.execMwrite {mc cmd data} (h : Canonical s) : NextCanonical (execMwrite mc cmd data s) :=
  .dbgRequest h fun _ _ h => .ite (.answer h) (.answer (.when .modThr (.setEdited (.dbgPutM h))))

/-! ## Routers, ports and arrivals -/

theorem Canonical.updateStops (h : Canonical s) : Canonical s.updateStops := h

theorem Canonical.requeue {k l} (h : Canonical s) : Canonical (s.requeue k l) := by
  unfold State.requeue
  split <;> exact .setQueue h

theorem Canonical.popHead {k} (h : Canonical s) : Canonical (s.popHead k) := .requeue h

theorem Canonical.losePkt {p} (h : Canonical s) : Canonical (s.losePkt p) := by
  unfold State.losePkt
  split
  · exact h
  · exact .ite h (.endXfer h)

theorem Canonical.discard {c p} (h : Canonical s) : Canonical (s.discard c p) := .losePkt h
theorem Canonical.ejectPkt {c p} (h : Canonical s) : Canonical (s.ejectPkt c p) := .modXfer h

theorem Canonical.leaveModule {p} (h : Canonical s) : Canonical (s.leaveModule p) := by
  unfold State.leaveModule
  split
  · exact h
  · exact .ite h (.modXfer h)

theorem Canonical.enterPort {p} (h : Canonical s) : Canonical (s.enterPort p) := by
  unfold State.enterPort
  split
  · refine .ite h ?_
    split
    · exact h
    · exact .ite (.leaveModule h) (.endXfer h)
  · exact .losePkt h

theorem Canonical.crossOut {reply c out p} (h : Canonical s) : Canonical (s.crossOut reply c out p) := by
  refine .ite (.losePkt h) ?_
  split
  · exact .ejectPkt h
  · exact .ite (.discard h) (.enterPort h)
  · split
    · exact .losePkt h
    · exact .pushPkt h

theorem Canonical.portLeave {k} (h : Canonical s) : Canonical (s.portLeave k) := by
  unfold State.portLeave
  split
  · exact h
  · exact .leaveModule h

theorem NextCanonical.execRouterGrant {reply cl out} (h : Canonical s) : NextCanonical (execRouterGrant reply cl out s) := by
  unfold Machine.execRouterGrant
  extract_lets c o s1 heads k a cand
  have h1 : Canonical s1 := .ite (.foldl (fun _ _ => .foldl fun _ _ => .when .portLeave) h) h
  clear_value s1
  refine .ite (.out h1) (.ite (.out (.foldl (fun _ _ h => .discard (.popHead h)) h1)) (.ite (.out h1) ?_))
  split
  · exact .out h1
  · exact .out (.crossOut (.popHead h1))

theorem Canonical.drainLink {o : State} {reply c d} (h : Canonical s) : Canonical (o.drainLink reply c d s) := by
  unfold State.drainLink
  split
  · exact h
  · refine .ite h ?_
    dsimp only
    split
    · exact h
    · have hp : ∀ {k}, Canonical (s.popHead k) := .popHead h
      exact .ite (.ite h hp) (.ite h hp)

theorem Canonical.drainPhase {d} (h : Canonical s) : Canonical (s.drainPhase d) := .foldl (fun _ _ h => .drainLink (.drainLink h)) h

theorem Canonical.drainHeads (h : Canonical s) : Canonical s.drainHeads := by
  refine .foldl (fun _ _ => .foldl fun _ _ => .foldl fun _ _ h => ?_) h
  split
  · exact h
  · exact .setQueue h

theorem NextCanonical.execSluice (h : Canonical s) : NextCanonical (execSluice s) := by
  unfold Machine.execSluice
  split
  · exact .out (.drainPhase h)
  · exact .out (.drainPhase h)
  · exact .out (.drainPhase h)
  · exact .out (.drainPhase h)
  · exact .out (.drainHeads h)
  · exact .out h

theorem NextCanonical.execNdonarDrain {port} (h : Canonical s) : NextCanonical (execNdonarDrain port s) := by
  unfold Machine.execNdonarDrain
  extract_lets p last c s1 s2 heads
  have h2 : Canonical s2 := by
    refine .foldl (fun _ _ => .foldl fun _ _ h => ?_) h
    dsimp only
    split
    · exact h
    · exact .setQueue h
  refine .ite (.out h) ?_
  clear_value heads s2
  cases heads with
  | nil => exact .out h2
  | cons => exact .out (.portLeave h2)

theorem Canonical.discardAt {c bad} (h : Canonical s) : Canonical (s.discardAt c bad) :=
  .foldl (fun _ _ h => .foldl (fun _ _ => .discard) (.ite h (.requeue h))) h

theorem Canonical.markLink {c d} (h : Canonical s) : Canonical (s.markLink c d) := .discardAt h

theorem Canonical.markPort {p} (h : Canonical s) : Canonical (s.markPort p) :=
  .foldl (fun _ _ h => .foldl (fun _ _ h => .foldl (fun _ _ => .discard) h) h) (.discardAt h)

theorem NextCanonical.execLinkDown {cl dir} (h : Canonical s) : NextCanonical (execLinkDown cl dir s) := by
  unfold Machine.execLinkDown
  split
  · exact .ite (.out h) (.out (.markLink h))
  · exact .ite (.out h) (.out (.markPort h))

theorem SomeCanonical.sendReply {x} (h : Canonical s) : SomeCanonical (s.sendReply x) :=
  .ite (.some h) (.ite (.some (.ite h (.modXfer h))) (.ite .none (.some (.pushPkt (.modXfer h)))))

theorem Canonical.performLane {x l} (h : Canonical s) : Canonical (State.performLane x s l) := by
  unfold State.performLane
  extract_lets c t write rel read
  have hw : Canonical (if x.rel.isSome then s.pass (.op x.id) (.write s.seq) [] else s) := .when .pass h
  have hr : ∀ space kind spots, Canonical (read space kind spots) := fun _ _ _ => .modXfer (.when .took h)
  split
  · exact .ite (.spPutBy hw) (hr _ _ _)
  · exact .ite (.writeBy hw) (hr _ _ _)
  · exact h

theorem Canonical.arriveAt {x : Xfer} {act} (h : Canonical s) (hf : ∀ s, Canonical s → Canonical (act s).1) :
    Canonical (s.arriveAt x act) := by
  unfold State.arriveAt
  split
  · exact h
  · next e =>
    have hs := SomeCanonical.sendReply h _ e
    exact .modXfer (.ite_fst (hf _ hs) hs)

theorem NextCanonical.execRequestAtDestination {x} (h : Canonical s) : NextCanonical (execRequestAtDestination x s) := by
  unfold Machine.execRequestAtDestination
  split
  · exact .out h
  · exact .ite (.out h) (.out (.injectHeld (.arriveAt h fun _ => .foldl fun _ _ => .performLane)))

theorem Canonical.ringDrop {c k} (h : Canonical s) : Canonical (s.ringDrop c k) := .spPutBy h
theorem Canonical.ringFill {c k msg} (h : Canonical s) : Canonical (s.ringFill c k msg) := .foldl (fun _ _ => .spPutBy) h
theorem Canonical.ringCommit {c k n} (h : Canonical s) : Canonical (s.ringCommit c k n) := .spPutBy (.pass h)

theorem Canonical.ringDeliver {c k tc posted msg} (h : Canonical s) : Canonical (s.ringDeliver c k tc posted msg).1 :=
  .ite_fst h (.ite_fst (.ite (.ringDrop h) h) (.ringCommit (.ringFill h)))

theorem NextCanonical.execRingMessageDelivery {x} (h : Canonical s) : NextCanonical (execRingMessageDelivery x s) := by
  unfold Machine.execRingMessageDelivery
  split
  · exact .out h
  · refine .ite (.out h) ?_
    split
    · exact .ite (.out h) (.out (.arriveAt h fun _ h => .ringDeliver (.pass h)))
    · exact .out (.arriveAt h fun _ h => h)

theorem Canonical.replyIn {x : Xfer} (h : Canonical s) : Canonical (s.replyIn x) :=
  .ite (.modXfer h) (.ite (.modXfer h) (.ite (.pushPkt (.modXfer h)) h))

theorem NextCanonical.execReplyArrival {x} (h : Canonical s) : NextCanonical (execReplyArrival x s) := by
  unfold Machine.execReplyArrival
  split
  · exact .out h
  · split
    · exact .out (.injectHeld (.endXfer h))
    · exact .out (.replyIn h)
    · exact .out h

theorem NextCanonical.execExchangeTimeout {x} (h : Canonical s) : NextCanonical (execExchangeTimeout x s) := by
  unfold Machine.execExchangeTimeout
  split
  · exact .out h
  · exact .ite (.out h) (.out (.injectHeld (.endXfer h)))

theorem Canonical.foreignPlace {e p addr} (h : Canonical s) : Canonical (s.foreignPlace e p addr).1 := by
  refine .ite_fst h (.ite_fst ?_ (.ite_fst h ?_))
  · split
    · exact h
    · refine .ite_fst h ?_
      split <;> next e => exact h.translate.of_eq e
  · split <;> exact h

theorem Canonical.foreignPlaces {e p l} (h : Canonical s) : Canonical (State.foreignPlaces e p l s).1 := by
  induction l generalizing s with
  | nil => exact h
  | cons _ l ih =>
    unfold State.foreignPlaces
    split
    · next e => exact h.foreignPlace.of_eq e
    · next e =>
      have hl := ih (h.foreignPlace.of_eq e)
      split <;> next e => exact hl.of_eq e

theorem NextCanonical.execIngressCheck {p} (h : Canonical s) : NextCanonical (execIngressCheck p s) := by
  unfold Machine.execIngressCheck
  extract_lets port c syms back k e
  refine .ite (.out h) ?_
  split
  next u id hu =>
    have hs : Canonical u := h.fresh.of_eq hu
    extract_lets refuse enter
    have hr : ∀ t st, Canonical t → NextCanonical (refuse t st) := fun t st h => by
      have hx : ∀ x, Canonical { t with xfers := t.xfers ++ [x] } := fun _ => h
      unfold refuse
      dsimp only
      split
      · next e => exact .out (SomeCanonical.sendReply (hx _) _ e)
      · exact .out h
    have he : ∀ t places e, Canonical t → NextCanonical (enter t places e) := fun t places e h =>
      .ite (.out h) (.ite (.out (.pushPkt h)) (.out h))
    refine .ite (hr _ _ hs) (.ite (he _ _ _ hs) ?_)
    split
    · next e => exact .ite (he _ _ _ (hs.foreignPlaces.of_eq e)) (hr _ _ (hs.foreignPlaces.of_eq e))
    · next e => exact hr _ _ (hs.foreignPlaces.of_eq e)

theorem Canonical.frameDeliver {ring msg} (h : Canonical s) : Canonical (s.frameDeliver ring msg) := by
  unfold State.frameDeliver
  split
  · exact h
  · exact .ite (.ringDrop h) (.ringDeliver h)

theorem Canonical.landFrame {f} (h : Canonical s) : Canonical (s.landFrame f) := by
  unfold State.landFrame
  dsimp only
  split
  · exact h
  · split
    · exact .ringFill h
    · exact h

theorem NextCanonical.execEthernetFrameReceive {port frame fcsGood} (h : Canonical s) :
    NextCanonical (execEthernetFrameReceive port frame fcsGood s) := by
  refine .ite (.out h) ?_
  split
  · exact .out h
  · exact .ite (.out h) (.ite (.out h) (.out (.frameDeliver h)))

theorem NextCanonical.execFixedLatencyRelease {x} (h : Canonical s) : NextCanonical (execFixedLatencyRelease x s) := by
  unfold Machine.execFixedLatencyRelease
  split
  · exact .out h
  · refine .ite (.out h) (.out ?_)
    split
    · exact h
    · exact .ite (.ringCommit h) (.ite (.ringDrop h) (.frameDeliver h))

/-! ## Slices and system registers -/

theorem NextCanonical.execUkind {mc cl w} (h : Canonical s) : NextCanonical (execUkind mc cl w s) := by
  refine .ite (.out h) (.out ?_)
  exact ⟨Memory.wf_mclear _ _ _ h.1, h.2⟩

theorem NextCanonical.execHashReq {mc cl w} (h : Canonical s) : NextCanonical (execHashReq mc cl w s) := .out (.setSlice h)
theorem NextCanonical.execRehashThreshold {cl} (h : Canonical s) : NextCanonical (execRehashThreshold cl s) := .out (.ite (.setSlice h) h)

theorem NextCanonical.execRehashUnitMove {cl} (h : Canonical s) : NextCanonical (execRehashUnitMove cl s) :=
  .out (.ite h (.ite (.setSlice h) (.setSlice h)))

theorem NextCanonical.execConflictWindow {cl} (h : Canonical s) : NextCanonical (execConflictWindow cl s) :=
  .ite (.out h) (.out (.setSlice h))

theorem NextCanonical.execSpareGo {mc cl w} (h : Canonical s) : NextCanonical (execSpareGo mc cl w s) := .ite (.out h) (.out (.setSlice h))

theorem NextCanonical.execSpareRemap {cl} (h : Canonical s) : NextCanonical (execSpareRemap cl s) :=
  .out (.ite h (.ite (.setSlice h) (.ite (.setSlice h) (.setSlice h))))

theorem NextCanonical.execRefresh {cl pc bank} (h : Canonical s) : NextCanonical (execRefresh cl pc bank s) := .out (.ite h (.setSlice h))

theorem NextCanonical.execScrub {cl secondTier burst found} (h : Canonical s) : NextCanonical (execScrub cl secondTier burst found s) := by
  refine .ite (.out h) ?_
  split
  · exact .ite (.out h) (.out (.setSlice h))
  · exact .ite (.out h) (.out (.when .post (.setSlice (.setSlice h))))
  · exact .out (.post h)

theorem NextCanonical.execSystemRegisterWrite {mc a w} (h : Canonical s) : NextCanonical (execSystemRegisterWrite mc a w s) := by
  refine .ite (.ite (.execWtsync h) (.out (.sysWrite h))) (.ite ?_ (.ite (.out h) (.ite (.out h) (.out h))))
  dsimp only
  split
  · exact .execUkind h
  · exact .execHashReq h
  · exact .execSpareGo h
  · exact .out (.setSlice h)

/-! ## Queues, retirement, reset and boot -/

theorem NextCanonical.execIssueOpportunity {core} (h : Canonical s) : NextCanonical (execIssueOpportunity core s) :=
  .ite (.out h) (.out (.ite (.opportunity h) h))

theorem Canonical.launchTake {n head l} (h : Canonical s) : Canonical (State.launchTake n head l s) := by
  induction n generalizing s head l with
  | zero => exact h
  | succ n ih => cases l with
    | nil => exact h
    | cons _ l => exact ih (.when .post h)

theorem Canonical.queuePlace {c q} (h : Canonical s) : Canonical (s.queuePlace c q).1 := by
  refine .ite_fst h ?_
  split <;> next e => exact h.translate.of_eq e

theorem NextCanonical.execQueueHeadAdvance {x head} (h : Canonical s) : NextCanonical (execQueueHeadAdvance x head s) := by
  unfold Machine.execQueueHeadAdvance
  split
  · exact .out (.evDrain (.wr (.reach h)))
  · exact .out (.acctDrain (.wr (.reach h)))
  · exact .out (.launchDrain (.wr (.reach (.launchTake h))))
  · split
    · next e => exact .out (.emitDrain (.writePhys (h.queuePlace.of_eq e)))
    · next u e =>
      have hq : Canonical u := h.queuePlace.of_eq e
      exact .ite (.out hq) (.out hq)

theorem NextCanonical.execGraphQueueTimeout {cl q} (h : Canonical s) : NextCanonical (execGraphQueueTimeout cl q s) := by
  refine .ite (.out h) ?_
  split
  · next e => exact .out (.postCl (Canonical.queuePlace (.setCl h) |>.of_eq e))
  · next e => exact .out (Canonical.queuePlace (.setCl h) |>.of_eq e)

theorem Canonical.retireHeld (h : Canonical s) : Canonical s.retireHeld := h

theorem NextCanonical.execRetireCourse {w} (h : Canonical s) : NextCanonical (execRetireCourse w s) := by
  unfold Machine.execRetireCourse
  split
  · exact .out h
  · refine .ite (.out h) (.out (.foldl (fun _ _ => .harpFail) (.setCourse ?_)))
    exact h

theorem NextCanonical.execRetireCore {w} (h : Canonical s) : NextCanonical (execRetireCore w s) := by
  unfold Machine.execRetireCore
  split
  · exact .out h
  · refine .ite (.out h) (.out (.retireHeld ?_))
    exact h

theorem NextCanonical.execRetirePseudoChannel {w} (h : Canonical s) : NextCanonical (execRetirePseudoChannel w s) := by
  unfold Machine.execRetirePseudoChannel
  split
  · exact .out h
  · refine .ite (.out h) (.out ?_)
    exact ⟨Memory.wf_mclear _ _ _ h.1, h.2⟩

theorem NextCanonical.execRetireLink {w} (h : Canonical s) : NextCanonical (execRetireLink w s) := by
  unfold Machine.execRetireLink
  split
  · exact .out h
  · refine .ite (.out h) (.out (.markLink ?_))
    exact h

theorem NextCanonical.execRetirePort {w} (h : Canonical s) : NextCanonical (execRetirePort w s) := by
  unfold Machine.execRetirePort
  split
  · exact .out h
  · refine .ite (.out h) (.out (.markPort ?_))
    exact h

theorem NextCanonical.execRetireCluster {w} (h : Canonical s) : NextCanonical (execRetireCluster w s) := by
  unfold Machine.execRetireCluster
  split
  · exact .out h
  · refine .out (.setCl ?_)
    exact h

theorem Canonical.rebooted (h : Canonical s) : Canonical s.rebooted := ⟨h.1, reset_sp_wf⟩
theorem Canonical.loadSlice {r} (h : Canonical s) : Canonical (s.loadSlice r) := .ite (.setSlice h) (.setSlice h)

/-- A fold that sets the bytes of a list, each one or none, keeps the form of a memory. -/
theorem Memory.wf_foldl_setByte {m : Memory} {p : α → Prop} {_ : DecidablePred p} {f : α → Nat × Byte} {l : List α} (h : m.wf = true) :
    Memory.wf (l.foldl (fun m e => if p e then Memory.setByte m (f e).1 (f e).2 else m) m) = true := by
  induction l generalizing m with
  | nil => exact h
  | cons e l ih =>
    refine ih ?_
    dsimp only
    split
    · exact Memory.wf_setByte _ _ _ h
    · exact h

theorem Canonical.loadImage {image body} (h : Canonical s) : Canonical (s.loadImage image body) := by
  unfold State.loadImage
  extract_lets s1 s2 s3 a s4
  have h1 : Canonical s1 := ⟨Memory.wf_foldl_setByte (f := id) h.1, h.2⟩
  have h3 : Canonical s3 := .foldl (fun _ _ => .loadSlice) (.foldl (fun _ _ => .sysWrite) h1)
  clear_value s3
  exact ⟨Memory.wf_foldl_setByte (f := fun e : Nat × Byte => (a + e.1, e.2)) h3.1, h3.2⟩

theorem NextCanonical.execDeviceReset {ports mailbox} (h : Canonical s) : NextCanonical (execDeviceReset ports mailbox s) := by
  have hr : Canonical s.rebooted := .rebooted h
  refine .out ?_
  split
  · exact .loadImage hr
  · exact hr

theorem NextCanonical.execThermalTrip {die} (h : Canonical s) : NextCanonical (execThermalTrip die s) :=
  .out (.foldl (fun _ _ => .killDomain) (.foldl (fun _ _ => .setCl) h))

/-! ## Tile instructions -/

theorem NextCanonical.tilesWord {c w act} (h : Canonical s) (hf : ∀ s p, Canonical s → Canonical (act s p).st) :
    NextCanonical (tilesWord c w s act) :=
  .word h fun _ _ h => .ite_st h (.ite_st h (hf _ _ h))

theorem Canonical.tileResult {p d v} (h : Canonical s) : Canonical (tileResult s p d v).st := h

theorem NextCanonical.execTsend {c course x} (h : Canonical s) : NextCanonical (execTsend c course x s) := by
  refine .tilesWord h fun _ _ h => ?_
  dsimp only
  split
  · exact h
  · refine .ite_st h (.ite_st h (.ite_st ?_ (.acted (.sleep h))))
    exact h

theorem NextCanonical.execTrecv {c d course} (h : Canonical s) : NextCanonical (execTrecv c d course s) := by
  refine .tilesWord h fun _ _ h => ?_
  dsimp only
  split
  · exact h
  · split
    · exact .tileResult (.flow (.setCourse h))
    · exact .acted (.sleep h)

theorem NextCanonical.execTzero {c f d} (h : Canonical s) : NextCanonical (execTzero c f d s) := .tilesWord h (fun _ _ h => .tileResult h)

theorem NextCanonical.execTmov {c d a} (h : Canonical s) : NextCanonical (execTmov c d a s) :=
  .tilesWord h (fun _ _ h => .ite_st (.tileResult h) h)

theorem NextCanonical.execTtrn {c d a} (h : Canonical s) : NextCanonical (execTtrn c d a s) :=
  .tilesWord h (fun _ _ h => .ite_st h (.tileResult h))

theorem NextCanonical.execTscl {c f r sat d a e} (h : Canonical s) : NextCanonical (execTscl c f r sat d a e s) :=
  .tilesWord h (fun _ _ h => .ite_st h h)

/-! ## Bow words and what the courses perform -/

theorem NextCanonical.bowWord_go {c build w t n} (h : Canonical s) (hf : ∀ g t x, Canonical x.st → Canonical (build g t x).1.st) :
    NextCanonical (bowWord.go c build s w t n) := by
  refine .word h fun s p h => ?_
  split
  · exact h
  · refine .ite_st h (.ite_st h ?_)
    have hb : ∀ g t, Canonical (build g t ⟨s, []⟩).1.st := fun _ _ => hf _ _ ⟨s, []⟩ h
    split
    · next e => exact .allLanes ((hb _ _).of_eq_st e)
    · next e => exact .allLanes (.setCourse (.enterOp ((hb _ _).of_eq_st e)))

theorem NextCanonical.bowWord {c course reads build} (h : Canonical s) (hf : ∀ g t x, Canonical x.st → Canonical (build g t x).1.st) :
    NextCanonical (bowWord c course reads build s) := by
  unfold Machine.bowWord
  dsimp only
  split
  · exact .out (.holdWord h)
  · exact .ite (.out (.holdWord h)) (.bowWord_go h hf)
  · exact .bowWord_go h hf

theorem Canonical.bowLayout {g t n a xy} (h : Canonical y.st) : Canonical (bowLayout g t n a xy y).1.st := by
  unfold Machine.bowLayout
  split
  · next e => exact h.layout.of_eq_st e
  · next e => exact .ite_fstSt (h.layout.of_eq_st e) (h.layout.of_eq_st e)

theorem Canonical.cellPlace {g n lay view e} (h : Canonical y.st) : Canonical (cellPlace g n lay view y e).1.st := by
  unfold Machine.cellPlace
  split <;> next e => exact h.seenPlace.of_eq_st e

theorem Canonical.scalePlace {g lay e} (h : Canonical y.st) : Canonical (scalePlace g lay y e).1.st := by
  unfold Machine.scalePlace
  split <;> next e => exact h.seenPlace.of_eq_st e

theorem Canonical.bowCells {g n lay view elems scales} (h : Canonical y.st) : Canonical (bowCells g n lay view elems scales y).1.st := by
  unfold Machine.bowCells
  dsimp only
  split
  · exact .each h fun _ _ => .cellPlace
  · split <;> exact .each (.each h fun _ _ => .cellPlace) fun _ _ => .scalePlace

theorem NextCanonical.execMlda {c course a xy} (h : Canonical s) : NextCanonical (execMlda c course a xy s) := by
  refine .bowWord h fun g t y h => ?_
  split
  · next e => exact h.bowLayout.of_eq_st e
  · next e =>
    have hl := h.bowLayout.of_eq_st e
    refine .ite_fstSt hl ?_
    split
    · exact hl
    · dsimp only
      split <;> next e => exact hl.bowCells.of_eq_st e

theorem NextCanonical.execMldb {c course a xy slot} (h : Canonical s) : NextCanonical (execMldb c course a xy slot s) := by
  refine .bowWord h fun g t y h => ?_
  split
  · next e => exact h.bowLayout.of_eq_st e
  · next e =>
    have hl := h.bowLayout.of_eq_st e
    dsimp only
    split
    · exact hl
    · refine .ite_fstSt hl (.ite_fstSt hl ?_)
      split <;> next e => exact hl.bowCells.of_eq_st e

theorem NextCanonical.execMmul {c course f} (h : Canonical s) : NextCanonical (execMmul c course f s) := .bowWord h fun _ _ _ h => h
theorem NextCanonical.execMmac {c course f} (h : Canonical s) : NextCanonical (execMmac c course f s) := .bowWord h fun _ _ _ h => h

theorem NextCanonical.execMdist {c course a f} (h : Canonical s) : NextCanonical (execMdist c course a f s) := by
  refine .bowWord h fun g t y h => ?_
  split
  · next e => exact h.bowLayout.of_eq_st e
  · next e =>
    have hl := h.bowLayout.of_eq_st e
    refine .ite_fstSt hl (.ite_fstSt hl ?_)
    dsimp only
    split
    · next e => exact hl.bowCells.of_eq_st e
    · next e => split <;> next e' => exact (hl.bowCells.of_eq_st e).bowCells.of_eq_st e'

theorem NextCanonical.execMtopk {c course km1 wm1 max} (h : Canonical s) : NextCanonical (execMtopk c course km1 wm1 max s) :=
  .bowWord h fun _ _ _ h => h

theorem Canonical.accCells {g t n a xy} (h : Canonical y.st) : Canonical (accCells g t n a xy y).1.st := by
  unfold Machine.accCells
  split
  · next e => exact h.bowLayout.of_eq_st e
  · next e =>
    have hl := h.bowLayout.of_eq_st e
    refine .ite_fstSt hl ?_
    split <;> next e => exact hl.bowCells.of_eq_st e

theorem NextCanonical.execMacc {c course a xy} (h : Canonical s) : NextCanonical (execMacc c course a xy s) := by
  refine .bowWord h fun g t y h => ?_
  split <;> next e => exact h.accCells.of_eq_st e

theorem NextCanonical.execMstc {c course a xy} (h : Canonical s) : NextCanonical (execMstc c course a xy s) := by
  refine .bowWord h fun g t y h => ?_
  split <;> next e => exact h.accCells.of_eq_st e

theorem NextCanonical.execMwait {c mask} (h : Canonical s) : NextCanonical (execMwait c mask s) :=
  .word h fun _ _ h => .ite_st h (.ite_st h (.ite_st (.acted (.mwaited h)) (.acted (.sleep h))))

theorem NextCanonical.execMchk {c d course} (h : Canonical s) : NextCanonical (execMchk c d course s) := by
  refine .word h fun _ _ h => ?_
  dsimp only
  split
  · exact h
  · exact .ite_st h (.ite_st h (.allLanes (.setCourse h)))

theorem Canonical.touchCells {n cells scales} (h : Canonical s) : Canonical (touchCells s n cells scales) := .touchAll h
theorem Canonical.harpFault {k pa} (h : Canonical s) : Canonical (harpFault s k pa) := .harpEnd (.engineFault h)

theorem NextCanonical.execMldaPerform {cl n} (h : Canonical s) : NextCanonical (execMldaPerform cl n s) := by
  unfold Machine.execMldaPerform
  dsimp only
  split
  · next e =>
    have ho := h.harpHead e
    refine .ite (.out ho) ?_
    split
    · exact .out (.flow (.harpFault ho))
    · exact .out (.flow (.harpFault ho))
    · exact .out (.flow (.harpEnd (.setCourse (.touchCells ho))))
  · exact .out h

theorem NextCanonical.execMldbPerform {cl n} (h : Canonical s) : NextCanonical (execMldbPerform cl n s) := by
  unfold Machine.execMldbPerform
  dsimp only
  split
  · next e =>
    have ho := h.harpHead e
    split
    · exact .out (.flow (.harpFault ho))
    · exact .out (.flow (.harpFault ho))
    · exact .out (.flow (.harpEnd (.setCourse (.touchCells ho))))
  · exact .out h

theorem NextCanonical.execMaccPerform {cl n} (h : Canonical s) : NextCanonical (execMaccPerform cl n s) := by
  unfold Machine.execMaccPerform
  dsimp only
  split
  · next e =>
    have ho := h.harpHead e
    split
    · exact .out (.flow (.harpFault ho))
    · exact .out (.flow (.harpEnd (.setCourse (.touchCells ho))))
  · exact .out h

theorem NextCanonical.execMstcPerform {cl n} (h : Canonical s) : NextCanonical (execMstcPerform cl n s) := by
  unfold Machine.execMstcPerform
  dsimp only
  split
  · next e =>
    have ho := h.harpHead e
    exact .ite (.out (.flow (.harpFail ho))) (.out (.flow (.harpEnd (.foldl (fun _ _ => .writeBy) ho))))
  · exact .out h

theorem Canonical.clearBroadcast {k len} (h : Canonical s) : Canonical (s.clearBroadcast k len) := h

theorem Canonical.multiply {k o f tiles mac} (h : Canonical s) : Canonical (s.multiply k o f tiles mac) := by
  unfold State.multiply
  dsimp only
  split
  · exact .harpFail h
  · refine .ite (.harpFail (.setCourse h)) (.ite (.setCourse h) ?_)
    split
    · exact .harpFail (.clearBroadcast (.setCourse h))
    · exact .harpFault (.setCourse h)
    · exact .harpFlags (.setCourse (.touchAll (.setCourse h)))

theorem NextCanonical.execMmulPerform {cl n} (h : Canonical s) : NextCanonical (execMmulPerform cl n s) := by
  unfold Machine.execMmulPerform
  dsimp only
  split
  · next e => exact .out (.flow (.multiply (h.harpHead e)))
  · exact .out h

theorem NextCanonical.execMmacPerform {cl n} (h : Canonical s) : NextCanonical (execMmacPerform cl n s) := by
  unfold Machine.execMmacPerform
  dsimp only
  split
  · next e => exact .out (.flow (.multiply (h.harpHead e)))
  · exact .out h

theorem NextCanonical.execMdistPerform {cl n} (h : Canonical s) : NextCanonical (execMdistPerform cl n s) := by
  unfold Machine.execMdistPerform
  dsimp only
  split
  · next e => exact .out (.flow (.multiply (h.harpHead e)))
  · exact .out h

theorem NextCanonical.execMtopkPerform {cl n} (h : Canonical s) : NextCanonical (execMtopkPerform cl n s) := by
  unfold Machine.execMtopkPerform
  dsimp only
  split
  · next e => exact .ite (.out (h.harpHead e)) (.out (.flow (.harpEnd (.setCourse (h.harpHead e)))))
  · exact .out h

theorem NextCanonical.execHarpCheck {cl} (h : Canonical s) : NextCanonical (execHarpCheck cl s) := by
  unfold Machine.execHarpCheck
  dsimp only
  split
  · exact .out h
  · exact .ite (.out h) (.out (.takeTrap (.unsleep (.setCl h))))

/-! ## Control words -/

theorem NextCanonical.execExit {c} (h : Canonical s) : NextCanonical (execExit c s) := by
  unfold Machine.execExit
  split
  · exact .ite (.out (.holdWord h)) (.perLane h)
  · exact .perLane h

theorem Canonical.sleepAll {c p k} (h : Canonical s) : Canonical (s.sleepAll c p k).st := .acted (.ite h (.sleep h))
theorem NextCanonical.execReconv {c} (h : Canonical s) : NextCanonical (execReconv c s) := .word h (fun _ _ h => .sleepAll h)
theorem NextCanonical.execYield {c} (h : Canonical s) : NextCanonical (execYield c s) := .inTurn h (fun _ _ h => .modThr h)

theorem NextCanonical.execPhase {c gmask word2} (h : Canonical s) : NextCanonical (execPhase c gmask word2 s) := by
  unfold Machine.execPhase
  dsimp only
  split
  · split
    · exact .out (.retire (.acted h))
    · exact .out (.unless .reconvRelease (.leave (.foldl (fun _ _ => .modThr) (.holdFor (.charge h)))))
  · exact .word h fun _ _ h => h

theorem NextCanonical.execPhaseArrival {t} (h : Canonical s) : NextCanonical (execPhaseArrival t s) :=
  .ite (.out (.arrivals (.setCl (.sleep h)))) (.out h)

theorem NextCanonical.execBrk {c code} (h : Canonical s) : NextCanonical (execBrk c code s) :=
  .ite (.inTurn h (fun _ _ h => .haltLane (.modThr h))) (.perLane h)

/-! ## Sparse words -/

theorem NextCanonical.execIsect {c hi d p a b} (h : Canonical s) : NextCanonical (execIsect c hi d p a b s) := .word h (fun _ _ h => h)
theorem NextCanonical.execRebal {c d a b} (h : Canonical s) : NextCanonical (execRebal c d a b s) := .word h (fun _ _ h => h)

theorem Canonical.compact {g t a vals} (h : Canonical s) : Canonical (s.compact g t a vals).1 := by
  unfold State.compact
  dsimp only
  split
  · exact h
  · split
    · exact h
    · split
      · exact h
      · refine .ite_fst h ?_
        split
        · exact h
        · refine .ite_fst h (.spPutBy (.spPutBy (.foldl (fun _ _ => .spPutBy) (.spPutBy ?_))))
          exact .when .spPutBy h

theorem NextCanonical.execCmpk {c a x p} (h : Canonical s) : NextCanonical (execCmpk c a x p s) :=
  .word h (fun _ _ h => .ite_st h (.compact h))

theorem Canonical.expandLane {g r m base d p i} (h : Canonical y.st) : Canonical (expandLane g r m base d p y i).1.st := by
  refine .ite_fstSt h ?_
  dsimp only
  split
  · exact h
  · exact h
  · split <;> next e => exact h.gatherPlace.of_eq_st e

theorem NextCanonical.execExpnd {c d p b a} (h : Canonical s) : NextCanonical (execExpnd c d p b a s) :=
  .word h fun s _ h => .ite_st h (.gatherDo (.each (x := ⟨s, []⟩) h fun _ _ => .expandLane))

/-! ## One cycle -/

theorem Canonical.popTurn {t} (h : Canonical s) (e : s.popTurn = some (t, u)) : Canonical u := by
  unfold State.popTurn at e
  split at e
  · cases e
  · exact (Prod.mk.inj (Option.some.inj e)).2 ▸ h
  · exact (Prod.mk.inj (Option.some.inj e)).2 ▸ h

theorem Canonical.spoil {code place} (h : Canonical s) : Canonical (s.spoil code place) := .ite h h

theorem Canonical.spoilPanel {n e} (h : Canonical s) : Canonical (s.spoilPanel n e) := by
  unfold State.spoilPanel
  dsimp only
  split
  · exact h
  · exact .setCourse h

theorem Canonical.softError (h : Canonical s) : Canonical s.softError := by
  refine .ite h ?_
  dsimp only
  split
  · split
    · exact .spoil h
    · exact h
  · split
    · exact .spoil h
    · exact h
  · exact .spoil h
  · split
    · exact .spoil h
    · exact h
  · exact .spoil h
  · exact .spoilPanel h
  · split
    · exact .spoil h
    · exact h
  · exact .spoil h
  · exact .spoil h

theorem Canonical.scrubPad (h : Canonical s) : Canonical s.scrubPad := by
  unfold State.scrubPad
  split
  · exact .when .post h
  · exact h

theorem Canonical.deferEvent {e} (h : Canonical s) : Canonical (s.deferEvent e) := by
  unfold State.deferEvent
  split <;> exact h

theorem Canonical.endRegions (h : Canonical s) : Canonical s.endRegions := .foldl (fun _ _ => .regionEnd) h

theorem Canonical.tick (h : Canonical s) : Canonical s.tick :=
  .injectHeld (.endRegions (.retireHeld (.scrubPad (.softError (.foldl (fun _ _ => .landFrame) (.updateStops h))))))

theorem Canonical.draws (h : Canonical s) : Canonical s.draws := h

/-! ## Every instruction -/

theorem NextCanonical.exec {i} (h : Canonical s) : NextCanonical (exec i s) := by
  cases i <;> unfold Machine.exec
  case nop | bra | brx | call | callIndirect | ret | idem | trap | mad | bfx | bfi | sel | movl | cmp | plop | rds | wrs | fcmp
    | fcvt | icvt | fpack | funpk | vmov | vretag | seed | scale | cbenc | tagof | bmand | popcp | rtxy | rtchk
    | sysrd => exact .perLane h
  case exit => exact .execExit h
  case reconv => exact .execReconv h
  case yield => exact .execYield h
  case phase => exact .execPhase h
  case brk => exact .execBrk h
  case add | sub | mul | mulh | min | max | and | or | xor | andn | shl | shr | sar | rol => exact .int2 h
  case abs | neg | not | popc | clz | brev => exact .int1 h
  case mov => exact .execMov h
  case shfl | bcast | matchLanes | scan | redux => exact .laneOp h
  case vote => exact .execVote h
  case fadd | fsub | fmul | ffma | frcp | frsq | fsqrt => exact .vecOp h
  case fmin | fmax | famax | fexp2 | flog2 | ftanh => exact .vecCode h
  case fred => exact .execFred h
  case vtag => exact .execVtag h
  case qnt => exact .execQnt h
  case dqnt => exact .execDqnt h
  case cbld => exact .execCbld h
  case ld | lds => exact .loadWord h
  case st | sts => exact .storeWord h
  case ldx => exact .execLdx h
  case tld => exact .execTld h
  case tst => exact .execTst h
  case pref => exact .execPref h
  case brld => exact .execBrld h
  case fence => exact .execFence h
  case vfence => exact .execVfence h
  case lfence => exact .execLfence h
  case aadd | amin | amax | aand | aor | axor | axchg | aincw => exact .intAtomic h
  case afadd => exact .execAfadd h
  case afmax | acas => exact .atomicWord h
  case amaxrst => exact .execAmaxrst h
  case cpy | cpyw => exact .copyWord h
  case qfence => exact .execQfence h
  case bari => exact .execBari h
  case bara => exact .execBara h
  case barw => exact .execBarw h
  case waita => exact .execWaita h
  case gfetch => exact .execGfetch h
  case ginv => exact .execGinv h
  case mrgopen => exact .execMrgopen h
  case mrgpull => exact .execMrgpull h
  case mrgclose => exact .execMrgclose h
  case emit => exact .execEmit h
  case launch => exact .execLaunch h
  case sample => exact .execSample h
  case tsend => exact .execTsend h
  case trecv => exact .execTrecv h
  case tzero => exact .execTzero h
  case tmov => exact .execTmov h
  case ttrn => exact .execTtrn h
  case tscl => exact .execTscl h
  case mlda => exact .execMlda h
  case mldb => exact .execMldb h
  case mmul => exact .execMmul h
  case mmac => exact .execMmac h
  case mdist => exact .execMdist h
  case mtopk => exact .execMtopk h
  case macc => exact .execMacc h
  case mstc => exact .execMstc h
  case mwait => exact .execMwait h
  case mchk => exact .execMchk h
  case deref => exact .execDeref h
  case unify => exact .execUnify h
  case bind => exact .execBind h
  case mkvar => exact .execMkvar h
  case mkstr => exact .execMkstr h
  case chpt => exact .execChpt h
  case fail => exact .execFail h
  case cut => exact .execCut h
  case ovpub => exact .execOvpub h
  case isect => exact .execIsect h
  case rebal => exact .execRebal h
  case cmpk => exact .execCmpk h
  case expnd => exact .execExpnd h
  case xwrite | xread => exact .xferWord h
  case xsend => exact .execXsend h
  case xfence => exact .execXfence h
  case ringpoll => exact .execRingpoll h
  case ringadv => exact .execRingadv h
  case ringwait => exact .execRingwait h
  case syswr => exact .execSyswr h
  case eret => exact .execEret h
  case tlbinv => exact .execTlbinv h
  case halt => exact .execHalt h
  case phaseArrival => exact .execPhaseArrival h
  case copyAcceptance => exact .execCopyAcceptance h
  case copyCompletion => exact .execCopyCompletion h
  case mldbPerform => exact .execMldbPerform h
  case mldaPerform => exact .execMldaPerform h
  case mmulPerform => exact .execMmulPerform h
  case mmacPerform => exact .execMmacPerform h
  case mdistPerform => exact .execMdistPerform h
  case mtopkPerform => exact .execMtopkPerform h
  case maccPerform => exact .execMaccPerform h
  case mstcPerform => exact .execMstcPerform h
  case harpCheck => exact .execHarpCheck h
  case issueOpportunity => exact .execIssueOpportunity h
  case resultCompletion => exact .execResultCompletion h
  case trapDelivery => exact .execTrapDelivery h
  case faultReply => exact .execFaultReply h
  case killPort => exact .execKillPort h
  case clusterAdvance => exact .execClusterAdvance h
  case stragglerTimeout => exact .execStragglerTimeout h
  case bindgo => exact .execBindgo h
  case groupStart => exact .execGroupStart h
  case regionStart => exact .execRegionStart h
  case regionResume => exact .execRegionResume h
  case preempt => exact .execPreempt h
  case save => exact .execSave h
  case wtsync => exact .execWtsync h
  case wtsyncCompletion => exact .execWtsyncCompletion h
  case systemRegisterWrite => exact .execSystemRegisterWrite h
  case attach => exact .execAttach h
  case debugHalt => exact .execDebugHalt h
  case resume => exact .execResume h
  case step => exact .execStep h
  case stepEnd => exact .execStepEnd h
  case read => exact .execRead h
  case write => exact .execWrite h
  case revoke => exact .execRevoke h
  case mread => exact .execMread h
  case mwrite => exact .execMwrite h
  case retireCourse => exact .execRetireCourse h
  case retireCore => exact .execRetireCore h
  case retirePseudoChannel => exact .execRetirePseudoChannel h
  case retireLink => exact .execRetireLink h
  case retirePort => exact .execRetirePort h
  case retireCluster => exact .execRetireCluster h
  case ukind => exact .execUkind h
  case hashReq => exact .execHashReq h
  case rehashThreshold => exact .execRehashThreshold h
  case rehashUnitMove => exact .execRehashUnitMove h
  case spareGo => exact .execSpareGo h
  case spareRemap => exact .execSpareRemap h
  case refresh => exact .execRefresh h
  case scrub => exact .execScrub h
  case routerGrant => exact .execRouterGrant h
  case sluice => exact .execSluice h
  case ndonarDrain => exact .execNdonarDrain h
  case requestAtDestination => exact .execRequestAtDestination h
  case replyArrival => exact .execReplyArrival h
  case exchangeTimeout => exact .execExchangeTimeout h
  case ringMessageDelivery => exact .execRingMessageDelivery h
  case ingressCheck => exact .execIngressCheck h
  case ethernetFrameReceive => exact .execEthernetFrameReceive h
  case fixedLatencyRelease => exact .execFixedLatencyRelease h
  case linkDown => exact .execLinkDown h
  case graphQueueTimeout => exact .execGraphQueueTimeout h
  case deviceReset => exact .execDeviceReset h
  case attestationQuote => exact .out h
  case thermalTrip => exact .execThermalTrip h
  case ldxCompletion => exact .execLdxCompletion h
  case queueHeadAdvance => exact .execQueueHeadAdvance h
  case conflictWindow => exact .execConflictWindow h

/-! ## Every step -/

theorem NextCanonical.stepWord {core y} (h : Canonical s) : NextCanonical (stepWord s core y) := by
  unfold Machine.stepWord
  dsimp only
  split
  · exact .out (.boundsWord h)
  · split
    · exact .out (.badWord h)
    · exact .exec h

theorem NextCanonical.stepTurn {x} (h : Canonical s) : NextCanonical (stepTurn s x) := by
  unfold Machine.stepTurn
  split
  · exact .exec h
  · split
    · exact .next h
    · exact .stepWord h

theorem NextCanonical.step (h : Canonical s) : NextCanonical (step s) := by
  unfold Machine.step
  dsimp only
  split
  · exact .ite (.next h) (.ite (.next (.deferEvent h)) (.exec h))
  · split
    · next e => exact .stepTurn (Canonical.popTurn (.draws h) e)
    · exact .out (.tick (.draws h))

/-- Settles O59: `NextCanonical.step`, one preservation lemma per operation of the model. -/
theorem canonicalMemory : Obligations.CanonicalMemory := by
  unfold Obligations.CanonicalMemory
  exact fun s t h e => NextCanonical.step h t e

end Sys2Proof.Slice0
end

section
namespace Sys2Proof.Slice0
open Machine

/-! # Taking a trap and returning from it (O9)

Both flush the writes of `g61`–`g63` and put three values into these registers; `trapRegs_settled` says once what that leaves of every
register. -/

/-- A write of a special register leaves every other one. -/
theorem sreg_setSreg_other {x : Thread} {q r : Sreg} (w : W64) (h : q ≠ r) : (x.setSreg r w).sreg q = x.sreg q := by
  cases r <;> cases q <;> simp [Thread.setSreg, Thread.sreg] at h ⊢

/-- A write leaves the settled value of every other register. -/
theorem base_put_other {x : Thread} {q r : RegId} (v : RVal) (h : q ≠ r) : (x.put r v).base q = x.base q := by
  cases r with
  | g i =>
    cases v with
    | w w => cases q with
      | g j =>
        have : j.toNat ≠ i.toNat := fun e => h (congrArg RegId.g (BitVec.eq_of_toNat_eq e))
        simp [Thread.put, Thread.base, mget_mset_other _ _ _ this]
      | _ => rfl
    | _ => rfl
  | v i =>
    cases v with
    | v y => cases q with
      | v j =>
        have : j.toNat ≠ i.toNat := fun e => h (congrArg RegId.v (BitVec.eq_of_toNat_eq e))
        simp [Thread.put, Thread.base, mget_mset_other _ _ _ this]
      | _ => rfl
    | _ => rfl
  | p i =>
    cases v with
    | p b =>
      unfold Thread.put
      dsimp only
      split
      · rfl
      · cases q with
        | p j =>
          have : j.toNat ≠ i.toNat := fun e => h (congrArg RegId.p (BitVec.eq_of_toNat_eq e))
          simp [Thread.base, mget_mset_other _ _ _ this]
        | _ => rfl
    | _ => rfl
  | s r =>
    cases v with
    | w w => cases q with
      | s q => exact congrArg RVal.w (sreg_setSreg_other w fun e => h (congrArg RegId.s e))
      | _ => cases r <;> rfl
    | orF f => cases r with
      | fsr => cases q with
        | s q => cases q with
          | fsr => exact absurd rfl h
          | _ => rfl
        | _ => rfl
      | _ => rfl
    | _ => cases r <;> rfl

/-- What a write leaves in a general register. -/
theorem put_g (x : Thread) (r : RegId) (v : RVal) (n : GReg) : mget 0 (x.put r v).g n.toNat =
    (if r = .g n then (match v with | .w y => some y | _ => none) else none).getD (mget 0 x.g n.toNat) := by
  by_cases h : r = .g n
  · subst h
    cases v <;> simp [Thread.put]
  · have e := base_put_other (x := x) v (Ne.symm h)
    rw [if_neg h]
    exact RVal.w.inj e

/-! ## A flush -/

theorem flush_bare (rs : List RegId) (x : Thread) : (x.flush rs).bare = x.bare := by
  have key : ∀ (l : List Pend) (y : Thread),
      (l.foldl (fun y e => if rs.contains e.reg then y.put e.reg e.val else y) y).bare = y.bare := by
    intro l
    induction l with
    | nil => exact fun _ => rfl
    | cons e l ih =>
      intro y
      rw [List.foldl_cons, ih]
      split
      · exact Thread.bare_put _ _ _
      · rfl
  exact key x.pend x

theorem flush_base_other {rs : List RegId} {q : RegId} (h : q ∉ rs) (x : Thread) : (x.flush rs).base q = x.base q := by
  have key : ∀ (l : List Pend) (y : Thread),
      (l.foldl (fun y e => if rs.contains e.reg then y.put e.reg e.val else y) y).base q = y.base q := by
    intro l
    induction l with
    | nil => exact fun _ => rfl
    | cons e l ih =>
      intro y
      rw [List.foldl_cons, ih]
      split
      · next hc => exact base_put_other _ fun e' => h (e' ▸ List.contains_iff_mem.1 hc)
      · rfl
  have e : ∀ y : Thread, ∀ p, ({ y with pend := p } : Thread).base q = y.base q := by
    intro y p; cases q with
    | s r => cases r <;> rfl
    | _ => rfl
  exact (e _ _).trans (key x.pend x)

/-- A flush settles the last write of a general register. -/
theorem flush_g {rs : List RegId} {n : GReg} (h : .g n ∈ rs) (x : Thread) : mget 0 (x.flush rs).g n.toNat = lastG x n := by
  have key : ∀ (l : List Pend) (y : Thread),
      mget 0 (l.foldl (fun y e => if rs.contains e.reg then y.put e.reg e.val else y) y).g n.toNat =
        ((l.filterMap fun e => if e.reg = .g n then (match e.val with | .w y => some y | _ => none) else none).getLast?).getD
          (mget 0 y.g n.toNat) := by
    intro l
    induction l with
    | nil => exact fun _ => rfl
    | cons e l ih =>
      intro y
      rw [List.foldl_cons, ih, List.filterMap_cons]
      by_cases he : e.reg = .g n
      · rw [if_pos (by rw [he]; exact List.contains_iff_mem.2 h), put_g, if_pos he]
        cases (match e.val with | .w y => some y | _ => none : Option W64) with
        | none => rfl
        | some w => simp [List.getLast?_cons]
      · have hy : mget 0 (if rs.contains e.reg = true then y.put e.reg e.val else y).g n.toNat = mget 0 y.g n.toNat := by
          split
          · rw [put_g, if_neg he]; rfl
          · rfl
        rw [hy]
        simp [he]
  exact key x.pend x

/-! ## The three registers of a trap -/

/-- The general registers of a thread with three values in `g61`–`g63`. -/
def withTrapRegs (m : FMap W64) (a b c : W64) : FMap W64 := mset 0 (mset 0 (mset 0 m 61 a) 62 b) 63 c

theorem withTrapRegs_other (m : FMap W64) (a b c : W64) {n : Nat} (h1 : n ≠ 61) (h2 : n ≠ 62) (h3 : n ≠ 63) :
    mget 0 (withTrapRegs m a b c) n = mget 0 m n := by
  unfold withTrapRegs
  rw [mget_mset_other _ _ _ h3, mget_mset_other _ _ _ h2, mget_mset_other _ _ _ h1]

/-- A thread that has flushed `g61`–`g63` and taken three values into them: their values, and every other register with its writes under
way (R379). -/
theorem trapRegs_settled {x z : Thread} {a b c : W64} (hp : z.pend = (x.flush [.g 61, .g 62, .g 63]).pend)
    (hg : z.g = withTrapRegs (x.flush [.g 61, .g 62, .g 63]).g a b c)
    (hb : ∀ q, (∀ n, q ≠ .g n) → z.base q = (x.flush [.g 61, .g 62, .g 63]).base q) :
    z.arch (.g 61) = .w a ∧ z.arch (.g 62) = .w b ∧ z.arch (.g 63) = .w c ∧
    (∀ q, q ≠ .g 61 → q ≠ .g 62 → q ≠ .g 63 → z.base q = x.base q ∧
      z.pend.filter (fun e => e.reg == q) = x.pend.filter (fun e => e.reg == q)) := by
  have none_left : ∀ q ∈ [RegId.g 61, .g 62, .g 63], z.arch q = z.base q := by
    intro q hq
    have : z.pend.filter (fun e => e.reg == q) = [] := by
      rw [hp, List.filter_eq_nil_iff]
      intro e he hc
      have := List.of_mem_filter he
      rw [beq_iff_eq] at hc
      simp_all
    unfold Thread.arch
    rw [this]; rfl
  refine ⟨?_, ?_, ?_, fun q h1 h2 h3 => ⟨?_, ?_⟩⟩
  · rw [none_left _ (by simp)]
    simp [Thread.base, hg, withTrapRegs, mget_mset]
  · rw [none_left _ (by simp)]
    simp [Thread.base, hg, withTrapRegs, mget_mset]
  · rw [none_left _ (by simp)]
    simp [Thread.base, hg, withTrapRegs]
  · have e : z.base q = (x.flush [.g 61, .g 62, .g 63]).base q := by
      cases q with
      | g n =>
        have ne : ∀ k : GReg, RegId.g n ≠ .g k → n.toNat ≠ k.toNat := fun k h e => h (congrArg RegId.g (BitVec.eq_of_toNat_eq e))
        simp only [Thread.base, hg]
        rw [withTrapRegs_other _ _ _ _ (ne 61 h1) (ne 62 h2) (ne 63 h3)]
      | _ => exact hb _ (fun n => by simp)
    rw [e]
    exact flush_base_other (by simp only [List.mem_cons, List.not_mem_nil, or_false, not_or]; exact ⟨h1, h2, h3⟩) x
  · rw [hp]
    refine (List.filter_filter ..).trans ?_
    refine List.filter_congr fun e _ => ?_
    by_cases he : e.reg = q
    · subst he
      simpa using ⟨h1, h2, h3⟩
    · simp [he]

/-! ## The two rules -/

/-- What a thread finds in its handler (R379). -/
theorem trapEntryRule : TrapEntryRule := by
  unfold TrapEntryRule
  rintro s t i ho hh hv u rfl
  have ht : (s.takeTrap t i).thr t = s.entering t i := by rw [State.takeTrap_eq s t i hh hv, State.thr_setThr_same]
  have other : ∀ t', t' ≠ t → (s.takeTrap t i).thr t' = s.thr t' := fun t' h => by
    rw [State.takeTrap_eq s t i hh hv, State.thr_setThr_other _ _ h]; rfl
  have hmem : (s.takeTrap t i).mem = s.mem ∧ (s.takeTrap t i).sp = s.sp := by
    rw [State.takeTrap_eq s t i hh hv]; exact ⟨rfl, rfl⟩
  rw [ht]
  obtain ⟨r1, r2, r3, rest⟩ := trapRegs_settled (x := s.thr t) (z := s.entering t i) (a := i.record) (b := i.value) (c := i.resume)
    (by simp [State.entering, ho]) (by simp [State.entering, ho, withTrapRegs])
    (fun q hq => by
      cases q with
      | g n => exact absurd rfl (hq n)
      | s r => cases r <;> simp [State.entering, ho, Thread.base, Thread.sreg]
      | _ => simp [State.entering, ho, Thread.base])
  have hnd : (s.entering t i).handler = some ⟨i, lastG (s.thr t) 61, lastG (s.thr t) 62, lastG (s.thr t) 63⟩ := by
    rw [← flush_g (rs := [.g 61, .g 62, .g 63]) (by simp), ← flush_g (rs := [.g 61, .g 62, .g 63]) (by simp),
      ← flush_g (rs := [.g 61, .g 62, .g 63]) (by simp)]
    simp only [State.entering, ho]
    rfl
  refine ⟨by simp [State.entering, ho], by simp [State.entering, ho, Thread.pc], hnd, r1, r2, r3, fun n => by simp [State.entering, ho, mget],
    rest, other, hmem⟩

/-- A thread that has left its handler for a resume address (R379). -/
def returned (x : Thread) (r : W64) (h : Handler) : Thread :=
  { (x.flush [.g 61, .g 62, .g 63]).goto r with
    handler := none, g := withTrapRegs (x.flush [.g 61, .g 62, .g 63]).g h.g61 h.g62 h.g63 }

theorem leaveHandler_eq {s : State} {t : Nat} {h : Handler} (hh : (s.thr t).handler = some h) (r : W64) :
    s.leaveHandler t r = s.setThr t (returned (s.thr t) r h) := by
  unfold State.leaveHandler
  dsimp only
  rw [hh]
  rfl

/-- What a thread finds outside its handler (R379). -/
theorem trapReturnRule : TrapReturnRule := by
  unfold TrapReturnRule
  rintro s t r h hh u rfl
  have hbare := flush_bare [.g 61, .g 62, .g 63] (s.thr t)
  obtain ⟨r1, r2, r3, rest⟩ := trapRegs_settled (x := s.thr t) (z := returned (s.thr t) r h) rfl rfl
    (fun q hq => by
      cases q with
      | g n => exact absurd rfl (hq n)
      | s r => cases r <;> rfl
      | _ => rfl)
  have word : (returned (s.thr t) r h).word = r.extractLsb' 48 4 := by
    show (r >>> 48).truncate 4 = _
    ext i hi
    simp [BitVec.getElem_extractLsb']
  rw [leaveHandler_eq hh, State.thr_setThr_same]
  exact ⟨rfl, rfl, word, r1, r2, r3, rest, (congrArg Thread.stat hbare : _), (congrArg Thread.d hbare : _),
    fun t' h => State.thr_setThr_other _ _ h, rfl, rfl, rfl⟩

/-- Settles O9: the three registers are flushed and set (`trapRegs_settled`), on entry and on return. -/
theorem trapEntryAndReturn : Obligations.TrapEntryAndReturn := by
  unfold Obligations.TrapEntryAndReturn
  exact ⟨trapEntryRule, trapReturnRule⟩

end Sys2Proof.Slice0
end

section
namespace Sys2Proof.Slice0
open Machine

/-! # A step runs the decoded instruction, but for a bow's words of class 9 (O58)

The statement lets a word of class 9 run wherever the region has PRIV. The model's `nextInstr` refuses every such word but `ERET` on a bow
core, PRIV or not (R166), and `badWord` then ends the clause with a stall count of 0. The pipeline of `SYSRD` raises the same `ILLEGAL`, but
with the stall count of its word; the two differ where the clause stays in issue after the trap, as it does here with a path of lane 1, which
a bow does not have (R2). -/

/-- A clause of class 9 of two words, the first `SYSRD` with a stall count of 5, on a bow core, its path the lane 1. -/
def bowClause : Sel := ⟨0, 2, 0, 0xA910000000000000, [0x007A045000000040, 0], 0, 0, .no⟩

/-- The turn of that clause on the bow of cluster 0, in a region with PRIV and a handler. -/
def bowTurn : State :=
  { State.reset with
    turns := [.issue 16 0 2], cores := [(16, ⟨15, [bowClause]⟩)]
    clusters := [(0, { Cluster.reset with res := { Resolved.zero with priv := true, trapvec := 0x1000 } })] }

/-- The first word of that clause. -/
def bowSysrd : Instr := .sysrd { bare with stall := 5 } 5 0x40

/-- The state in which the statement has that word run. -/
def bowWord : State := { bowTurn with draw := 1, turns := [], cur := bowClause.cur 16 }

theorem bowSysrd_decoded : decode 9 0x007A045000000040 [] = .ok bowSysrd := rfl

/-- The cycles in which the clauses in issue on the bow of cluster 0 may go on. -/
def bowIssues (o : Host.Outcome State Fault Refusal) : List Nat :=
  match o with
  | .next u => (u.core 16).sels.map (·.nextAt)
  | _ => []

/-- The step refuses the word: the clause may go on in the next cycle. -/
theorem bowIssues_step : bowIssues (step bowTurn) = [1] := rfl

/-- `exec` of the word: the clause may go on when its stall count has elapsed. -/
theorem bowIssues_exec : bowIssues (exec bowSysrd bowWord) = [6] := rfl

/-- Refutes O58: on a bow, a word of class 9 in a region with PRIV is refused by the decoder (`bowTurn`), where the statement asks for
`exec` of it. -/
theorem not_stepRunsDecoded : ¬ Obligations.StepRunsDecoded := by
  unfold Obligations.StepRunsDecoded
  rintro ⟨words, -⟩
  obtain ⟨runs, -⟩ := words bowTurn 16 0 2 bowClause rfl rfl rfl rfl
  have same : step bowTurn = exec bowSysrd bowWord :=
    runs bowSysrd (fun _ h => absurd h (by decide)) (fun _ => .inl rfl) bowSysrd_decoded (fun h => absurd h (by decide))
      (fun h => absurd h (by decide))
  have := congrArg bowIssues same
  rw [bowIssues_step, bowIssues_exec] at this
  exact absurd this (by decide)

end Sys2Proof.Slice0
end

section
namespace Sys2Proof.Slice0
open Machine

/-! # Selection, ranking, advance and stragglers (O46)

## The selection of a slot and its path (R20, R22) -/

theorem pathsOf_nil (s : State) (g : Nat) : s.pathsOf g [] = [] := rfl

/-- Without a ready lane a group has no current path (R28). -/
theorem currentPath_none {s : State} {g : Nat} (h : s.readyLanes g = []) : s.currentPath g = none := by
  unfold State.currentPath
  simp only [h, List.filter_nil, pathsOf_nil]
  split
  · rfl
  · split <;> rfl

/-- A core without a ready thread selects nothing. -/
theorem nextSlot_none {s : State} {core : Nat} (h : ∀ k < 16, s.readyLanes (16 * core + k) = []) : s.nextSlot core = none := by
  unfold State.nextSlot
  rw [List.find?_eq_none]
  intro k hk
  obtain ⟨i, -, rfl⟩ := List.mem_map.1 hk
  have hr := h (((s.core core).last + 1 + i) % 16) (Nat.mod_lt _ (by decide))
  simp only [hr, currentPath_none hr, List.isEmpty_nil, Option.isSome_none]
  split <;> simp

/-- The slot selected is the first with a ready thread, in order after the last one (R22). -/
theorem nextSlot_first {s : State} {core j : Nat} (hj : j < 16)
    (hb : ∀ i < j, s.readyLanes (16 * core + ((s.core core).last + 1 + i) % 16) = [])
    (hp : (s.grp (16 * core + ((s.core core).last + 1 + j) % 16)).pp = true)
    (hr : s.readyLanes (16 * core + ((s.core core).last + 1 + j) % 16) ≠ []) :
    s.nextSlot core = some (((s.core core).last + 1 + j) % 16) := by
  unfold State.nextSlot
  rw [List.find?_map, List.find?_range_eq_some.2 ⟨?_, by simpa using hj, ?_⟩]
  · rfl
  · simp [hp, hr]
  · intro i hi
    simp only [Function.comp, hb i hi, currentPath_none (hb i hi)]
    split <;> simp

/-- Ready lanes at one program counter, outside handlers, form one path (R20). -/
theorem pathsOf_one {s : State} {g : Nat} {L : List Nat} {pc : W64} (hn : L ≠ [])
    (h : ∀ i ∈ L, (s.thr (tid g i)).pc = pc ∧ (s.thr (tid g i)).handler = none) :
    ∃ a y, s.pathsOf g L = [⟨maskOf L, pc.toNat, a, y⟩] := by
  have own : (L.filter fun i => (s.thr (tid g i)).handler.isSome) = [] := by
    rw [List.filter_eq_nil_iff]; intro i hi; simp [(h i hi).2]
  have rest : (L.filter fun i => (s.thr (tid g i)).handler.isNone) = L := by
    rw [List.filter_eq_self]; intro i hi; simp [(h i hi).2]
  have same : (L.filter fun i => (s.thr (tid g i)).pc == pc) = L := by
    rw [List.filter_eq_self]; intro i hi; simp [(h i hi).1]
  have pcs : (L.map fun i => (s.thr (tid g i)).pc).eraseDups = [pc] := by
    obtain ⟨a, l, rfl⟩ := List.exists_cons_of_ne_nil hn
    rw [List.map_cons, List.eraseDups_cons, (h a List.mem_cons_self).1]
    have : (l.map fun i => (s.thr (tid g i)).pc).filter (fun b => !b == pc) = [] := by
      rw [List.filter_eq_nil_iff]
      intro b hb
      obtain ⟨i, hi, rfl⟩ := List.mem_map.1 hb
      simp [(h i (List.mem_cons_of_mem _ hi)).1]
    rw [this]; rfl
  have head : ((L.head?.map fun i => (s.thr (tid g i)).pc.toNat)).getD 0 = pc.toNat := by
    obtain ⟨a, l, rfl⟩ := List.exists_cons_of_ne_nil hn
    simp [(h a List.mem_cons_self).1]
  unfold State.pathsOf
  simp only [own, rest, pcs, List.map_cons, List.map_nil, same, List.append_nil, head]
  exact ⟨_, _, rfl⟩

theorem choosePaths_one {s : State} {g : Nat} {L : List Nat} {p : Path} (hp : (s.grp g).pp = true) (hr : s.readyLanes g = L)
    (h : s.pathsOf g L = [p]) : s.choosePaths g = [p] := by
  unfold State.choosePaths
  rw [if_pos hp, hr, h]
  rfl

/-! ## Ages (R26) -/

/-- A lane of a group that has had an issue opportunity. -/
def agedLane (pp : Bool) (ready : List Nat) (issued : BitVec 32) (i : Nat) (x : Thread) : Thread :=
  let x := { x with yielded := x.yielded - 1 }
  if !pp then x
  else if issued.getLsbD i then { x with age := 0 }
  else if ready.contains i then { x with age := if x.age = 63#6 then 63 else x.age + 1 }
  else x

theorem ageLanes_eq (s : State) (g : Nat) (ready : List Nat) (issued : BitVec 32) :
    s.ageLanes g ready issued = State.lanesMod g (agedLane (s.grp g).pp ready issued) (groupLanes g) s := by
  have key : ∀ (pp : Bool) (l : List Nat) (u : State), (u.grp g).pp = pp →
      l.foldl (fun s i => s.modThr (tid g i) fun x =>
        let x := { x with yielded := x.yielded - 1 }
        if !(s.grp g).pp then x
        else if issued.getLsbD i then { x with age := 0 }
        else if ready.contains i then { x with age := if x.age = 63#6 then 63 else x.age + 1 }
        else x) u = State.lanesMod g (agedLane pp ready issued) l u := by
    intro pp l
    induction l with
    | nil => exact fun _ _ => rfl
    | cons i l ih =>
      rintro u rfl
      rw [List.foldl_cons, ih _ (by rw [State.grp_modThr])]
      rfl
  exact key _ _ s rfl

/-- An issue opportunity changes no thread but its age and its yields. -/
theorem agedLane_eq (pp : Bool) (ready : List Nat) (issued : BitVec 32) (i : Nat) (x : Thread) :
    agedLane pp ready issued i x =
      { x with age := (agedLane pp ready issued i x).age, yielded := (agedLane pp ready issued i x).yielded } := by
  unfold agedLane
  dsimp only
  split
  · rfl
  · split
    · rfl
    · split <;> rfl

/-- The lanes of a group are distinct threads. -/
theorem groupLanes_inj {g i j : Nat} (hi : i ∈ groupLanes g) (hj : j ∈ groupLanes g) (h : tid g i = tid g j) : i = j := by
  unfold groupLanes at hi hj
  by_cases hb : isBow (groupCore g) = true
  · simp only [hb, if_true, List.mem_singleton] at hi hj
    rw [hi, hj]
  · exact tid_inj (by simpa using hb) h

theorem groupLanes_nodup (g : Nat) : (groupLanes g).Nodup := by
  unfold groupLanes
  split
  · exact List.nodup_singleton 0
  · exact List.nodup_range

theorem lanesMod_group (g : Nat) (f : Nat → Thread → Thread) (s : State) {i : Nat} (hi : i ∈ groupLanes g) :
    (State.lanesMod g f (groupLanes g) s).thr (tid g i) = f i (s.thr (tid g i)) :=
  State.lanesMod_same g f _ s i hi (groupLanes_nodup g) fun _ hj => groupLanes_inj hi hj

/-- What an opportunity leaves of each thread. -/
theorem ageLanes_thr (s : State) (g : Nat) (ready : List Nat) (issued : BitVec 32) (t : Nat) :
    (s.ageLanes g ready issued).thr t =
      { s.thr t with age := ((s.ageLanes g ready issued).thr t).age, yielded := ((s.ageLanes g ready issued).thr t).yielded } := by
  rw [ageLanes_eq]
  by_cases h : ∃ i ∈ groupLanes g, t = tid g i
  · obtain ⟨i, hi, rfl⟩ := h
    rw [lanesMod_group _ _ _ hi]
    exact agedLane_eq ..
  · rw [State.lanesMod_other _ _ _ _ _ fun i hi e => h ⟨i, hi, e⟩]

/-- A lane that issues has age 0 (R26). -/
theorem ageLanes_issued {s : State} {g : Nat} {ready : List Nat} {issued : BitVec 32} {i : Nat} (hp : (s.grp g).pp = true)
    (hi : i ∈ groupLanes g) (h : issued.getLsbD i = true) : ((s.ageLanes g ready issued).thr (tid g i)).age = 0 := by
  rw [ageLanes_eq, lanesMod_group _ _ _ hi]
  simp [agedLane, hp, h]

/-! ## The fetch of a clause (R371) -/

/-- A FETCH CHANGES NOTHING BUT THE CACHES, and the mark of an address where nothing exists. -/
def CodeFetched (s u : State) : Prop := u = { s with tlb := u.tlb, tabs := u.tabs, codes := u.codes, hole := u.hole }

theorem CodeFetched.refl (s : State) : CodeFetched s s := rfl
theorem CodeFetched.trans {s u v : State} (h : CodeFetched s u) (k : CodeFetched u v) : CodeFetched s v := by
  unfold CodeFetched at *; rw [k, h]
theorem CodeFetched.of_looked {s u : State} (h : s.Looked u) : CodeFetched s u := by
  unfold State.Looked at h; unfold CodeFetched; rw [h]

theorem CodeFetched.cached {p : Prop} {_ : Decidable p} (s : State) (l : List CodeEnt) :
    CodeFetched s (if p then s else { s with codes := l }) := by
  split <;> rfl

theorem translate_looked (s : State) (core : Nat) (x : Resolved) (n : Need) (va : Nat) : s.Looked (s.translate core x n va).1 := by
  have h := State.translateLine_looked s core x n va
  unfold State.translate
  generalize s.translateLine core x n va = q at h ⊢
  obtain ⟨u, r⟩ := q
  cases r <;> exact h

theorem fetchWord_codeFetched (s : State) (core : Nat) (x : Resolved) (va : Nat) : CodeFetched s (s.fetchWord core x va).1 := by
  have h := CodeFetched.of_looked (translate_looked s core x Need.fetch va)
  unfold State.fetchWord
  generalize s.translate core x Need.fetch va = q at h ⊢
  obtain ⟨u, r⟩ := q
  cases r with
  | fault ty pl => exact h
  | ok p =>
    dsimp only at h ⊢
    cases u.latentAt p 8 with
    | some e => exact h
    | none =>
      exact h.trans (.cached u _)

theorem fetchWords_codeFetched (core : Nat) (x : Resolved) (n va : Nat) (s : State) : CodeFetched s (State.fetchWords core x n va s).1 := by
  induction n generalizing va s with
  | zero => exact CodeFetched.refl s
  | succ n ih =>
    have h := fetchWord_codeFetched s core x va
    unfold State.fetchWords
    generalize s.fetchWord core x va = q at h ⊢
    obtain ⟨u, r⟩ := q
    cases r with
    | inr f => exact h
    | inl w =>
      have k := h.trans (ih (va + 8) u)
      dsimp only
      generalize State.fetchWords core x n (va + 8) u = q at k ⊢
      obtain ⟨v, r⟩ := q
      cases r <;> exact k

/-- A path whose header passes its checks and whose words can be fetched has its clause in issue (R149, R371). -/
theorem startClause_next {s s1 s2 : State} {g core : Nat} {p : Path} {hdr : BitVec 48} {w : W64} {code : List W64} (hg : groupCore g = core)
    (hh : BitVec.ofNat 48 p.pc = hdr) (h1 : s.fetchWord core (s.grpRes g) hdr.toNat = (s1, .inl w)) (hok : (Header.ofWord w).ok = true)
    (hc : s1.classOk g p (Header.ofWord w).cls.toNat = true) (hw : p.pc / 2 ^ 48 < (Header.ofWord w).words)
    (hl : (Header.ofWord w).lit.getLsbD (p.pc / 2 ^ 48) = false)
    (h2 : State.fetchWords core (s1.grpRes g) (Header.ofWord w).words (hdr.toNat + 8) s1 = (s2, .inl code)) :
    s.startClause g p = s2.setCore core { s2.core core with
      sels := (s2.core core).sels ++ [⟨groupSlot g, p.lanes, hdr, w, code, p.pc / 2 ^ 48, s2.cycle, .no⟩] } := by
  unfold State.startClause
  dsimp only
  rw [hg, hh, h1]
  dsimp only
  rw [if_neg (by simp only [hok, hc, hl, decide_eq_false (Nat.not_le.2 hw)]; decide), h2]

/-- A vector core runs the classes but 5 and 9 in every context (R166). -/
theorem classOk_vector (s : State) {g : Nat} (p : Path) {c : BitVec 4} (hb : isBow (groupCore g) = false) (h5 : c ≠ 5) (h9 : c ≠ 9) :
    s.classOk g p c.toNat = true := by
  have e5 : c.toNat ≠ 5 := fun e => h5 (BitVec.eq_of_toNat_eq e)
  have e9 : c.toNat ≠ 9 := fun e => h9 (BitVec.eq_of_toNat_eq e)
  unfold State.classOk
  simp [hb, e5, e9]

theorem ready_waitOp {s : State} {g i : Nat} (h : s.ready g i = true) : (s.thr (tid g i)).waitOp = 0 := by
  unfold State.ready at h
  simp only [Bool.and_eq_true] at h
  obtain ⟨⟨⟨⟨⟨-, h⟩, -⟩, -⟩, -⟩, -⟩ := h
  simpa using h

/-- An opportunity whose slot has one path of all its ready lanes starts the clause of that path. -/
theorem opportunity_one {s : State} {core k : Nat} {L : List Nat} {p : Path} (hk : s.nextSlot core = some k)
    (hp : (s.grp (16 * core + k)).pp = true) (hr : s.readyLanes (16 * core + k) = L) (h : s.pathsOf (16 * core + k) L = [p]) :
    s.opportunity core =
      ((s.setCore core { s.core core with last := k }).ageLanes (16 * core + k) L p.lanes).startClause (16 * core + k) p := by
  have hpp : (((s.setCore core { s.core core with last := k }).ageLanes (16 * core + k) L p.lanes).grp (16 * core + k)).pp = true := by
    rw [ageLanes_eq, State.lanesMod_grp, State.grp_setCore, hp]
  unfold State.opportunity
  rw [hk]
  simp only [choosePaths_one hp hr h, List.foldl_cons, List.foldl_nil, BitVec.zero_or, hr, hpp, if_true]

/-- A clause that has just been put in issue on an idle core is the one turn of the core. -/
theorem issueTurns_one {s : State} {core k : Nat} {y : Sel} (hy : y.slot = k) (hc : (s.core core).sels = [y]) (hn : y.nextAt ≤ s.cycle)
    (hh : y.held = .no) (hw : ∀ i ∈ lanesOf y.lanes, (s.thr (tid (16 * core + k) i)).waitOp = 0) :
    s.issueTurns core = [.issue core k y.lanes] := by
  subst hy
  unfold State.issueTurns
  have all : ((lanesOf y.lanes).all fun i => (s.thr (tid (16 * core + y.slot) i)).waitOp == 0) = true := by
    rw [List.all_eq_true]; intro i hi; simpa using hw i hi
  rw [hc]
  simp [hn, hh, all]

theorem out_next {s : State} (h : s.hole = false) : s.out = .next s := if_neg (by simp [h])

theorem issueOpportunity_idle {s : State} {core : Nat} (hh : s.hole = false) (hs : (s.cl (coreCluster core)).stopped = false)
    (hc : (s.core core).sels = []) (h : ∀ k < 16, s.readyLanes (16 * core + k) = []) : exec (.issueOpportunity core) s = .next s := by
  have ho : s.opportunity core = s := by unfold State.opportunity; rw [nextSlot_none h]
  have ht : s.issueTurns core = [] := by unfold State.issueTurns; rw [hc]; rfl
  rw [exec_issueOpportunity]
  unfold execIssueOpportunity
  simp only [hs, hc, List.isEmpty_nil, if_true, Bool.false_eq_true, if_false, ho, ht, List.append_nil]
  exact out_next hh

/-- R22, R24, R26, R149: the clause of the one path of the next slot goes in issue. -/
theorem issueOpportunity_path {s s1 s2 : State} {core k : Nat} {L : List Nat} {pc w : W64} {code : List W64}
    (hs : (s.cl (coreCluster core)).stopped = false) (hc : (s.core core).sels = []) (hk : k < 16) (hslot : s.nextSlot core = some k)
    (hp : (s.grp (16 * core + k)).pp = true) (hr : s.readyLanes (16 * core + k) = L) (hL : L ≠ [])
    (hpc : ∀ i ∈ L, (s.thr (tid (16 * core + k) i)).pc = pc ∧ (s.thr (tid (16 * core + k) i)).handler = none) (hb : isBow core = false)
    (h1 : ((s.setCore core { s.core core with last := k }).ageLanes (16 * core + k) L (maskOf L)).fetchWord core
      (((s.setCore core { s.core core with last := k }).ageLanes (16 * core + k) L (maskOf L)).grpRes (16 * core + k))
      (pc.extractLsb' 0 48).toNat = (s1, .inl w))
    (hok : (Header.ofWord w).ok = true) (h5 : (Header.ofWord w).cls ≠ 5) (h9 : (Header.ofWord w).cls ≠ 9)
    (hw : pc.toNat / 2 ^ 48 < (Header.ofWord w).words) (hl : (Header.ofWord w).lit.getLsbD (pc.toNat / 2 ^ 48) = false)
    (h2 : State.fetchWords core (s1.grpRes (16 * core + k)) (Header.ofWord w).words ((pc.extractLsb' 0 48).toNat + 8) s1 = (s2, .inl code))
    (hh : s2.hole = false) :
    ∃ u, exec (.issueOpportunity core) s = .next u ∧ u.mem = s.mem ∧ u.sp = s.sp ∧
      u.core core = ⟨k, [⟨k, maskOf L, pc.extractLsb' 0 48, w, code, pc.toNat / 2 ^ 48, s.cycle, .no⟩]⟩ ∧
      u.turns = s.turns ++ [.issue core k (maskOf L)] ∧ (∀ i ∈ L, (u.thr (tid (16 * core + k) i)).age = 0) ∧
      ∀ t, u.thr t = { s.thr t with age := (u.thr t).age, yielded := (u.thr t).yielded } := by
  have hg : groupCore (16 * core + k) = core := by unfold groupCore; omega
  have hgs : groupSlot (16 * core + k) = k := by unfold groupSlot; omega
  let s0 := (s.setCore core { s.core core with last := k }).ageLanes (16 * core + k) L (maskOf L)
  obtain ⟨a, y, hpath⟩ := pathsOf_one hL hpc
  have hdr : BitVec.ofNat 48 pc.toNat = pc.extractLsb' 0 48 := by
    apply BitVec.eq_of_toNat_eq; simp
  have hstart := startClause_next (p := ⟨maskOf L, pc.toNat, a, y⟩) hg hdr h1 hok
    (classOk_vector s1 _ (by rw [hg]; exact hb) h5 h9) hw hl h2
  have hopp := (opportunity_one hslot hp hr hpath).trans hstart
  -- what the fetches and the ages leave alone
  have hf : CodeFetched s0 s2 := by
    have k1 := fetchWord_codeFetched s0 core (s0.grpRes (16 * core + k)) (pc.extractLsb' 0 48).toNat
    have k2 := fetchWords_codeFetched core (s1.grpRes (16 * core + k)) (Header.ofWord w).words ((pc.extractLsb' 0 48).toNat + 8) s1
    rw [h1] at k1; rw [h2] at k2
    exact k1.trans k2
  have h0 : s0 = { s.setCore core { s.core core with last := k } with threads := s0.threads } := by
    simp only [s0, ageLanes_eq]
    exact State.lanesMod_eq ..
  have hmem : s2.mem = s.mem ∧ s2.sp = s.sp ∧ s2.turns = s.turns ∧ s2.cycle = s.cycle := by
    rw [hf, h0]; exact ⟨rfl, rfl, rfl, rfl⟩
  have hcore : s2.core core = ⟨k, []⟩ := by
    have e : s2.core core = (s.setCore core { s.core core with last := k }).core core := by rw [hf, h0]; rfl
    rw [e, State.core_setCore_same]
    exact congrArg (CoreSt.mk k) hc
  have hthr : ∀ t, s2.thr t = s0.thr t := fun t => by rw [hf]; rfl
  have hall : ∀ t, s2.thr t = { s.thr t with age := (s2.thr t).age, yielded := (s2.thr t).yielded } := fun t => by
    rw [hthr]; exact ageLanes_thr ..
  obtain ⟨hm, hsp, htu, hcy⟩ := hmem
  rw [hcore, hgs, hcy] at hopp
  let u := s2.setCore core ⟨k, [⟨k, maskOf L, pc.extractLsb' 0 48, w, code, pc.toNat / 2 ^ 48, s.cycle, .no⟩]⟩
  have hready : ∀ i ∈ L, i ∈ groupLanes (16 * core + k) ∧ s.ready (16 * core + k) i = true := by
    intro i hi
    rw [← hr] at hi
    unfold State.readyLanes at hi
    split at hi
    · exact List.mem_filter.1 hi
    · simp at hi
  have h32 : ∀ i ∈ L, i < 32 := fun i hi => by
    have := (hready i hi).1
    simp only [groupLanes, hg, hb, Bool.false_eq_true, if_false, List.mem_range] at this
    exact this
  have hturn : u.issueTurns core = [.issue core k (maskOf L)] := by
    refine issueTurns_one (y := ⟨k, maskOf L, pc.extractLsb' 0 48, w, code, pc.toNat / 2 ^ 48, s.cycle, .no⟩) rfl ?_ hcy.ge rfl fun i hi => ?_
    · rw [State.core_setCore_same]
    · have := ready_waitOp (hready i ((mem_lanesOf_maskOf h32).1 hi)).2
      rw [State.thr_setCore, hall]
      exact this
  refine ⟨{ u with turns := u.turns ++ u.issueTurns core }, ?_, hm, hsp, ?_, ?_, fun i hi => ?_, hall⟩
  · rw [exec_issueOpportunity]
    unfold execIssueOpportunity
    simp only [hs, hc, List.isEmpty_nil, if_true, Bool.false_eq_true, if_false, hopp, List.nil_append]
    exact out_next hh
  · exact State.core_setCore_same ..
  · show u.turns ++ u.issueTurns core = _
    rw [hturn]
    exact congrArg (· ++ _) htu
  · show (s2.thr _).age = 0
    rw [hthr]
    refine ageLanes_issued (by rw [State.grp_setCore]; exact hp) (hready i hi).1 ?_
    exact ((mem_lanesOf.1 ((mem_lanesOf_maskOf h32).2 hi))).2

/-! ## The ranking of paths (R24, R26)

The order of R24 is the lexicographic order of `rankKey`: first the forced paths, by age; then the others, those without a yield first, by
population; then the program counter. -/

/-- What R24 compares, the least first. -/
def rankKey (p : Path) : ℤ ×ₗ ℤ ×ₗ ℤ ×ₗ ℤ :=
  if 32 ≤ p.age then toLex (0, toLex (-(p.age : ℤ), toLex (0, (State.pcRank p.pc : ℤ))))
  else toLex (1, toLex (if p.yields then 1 else 0, toLex (-(p.pop : ℤ), (State.pcRank p.pc : ℤ))))

theorem before_iff_rankKey (a b : Path) : a.before true b = true ↔ rankKey a < rankKey b := by
  unfold Path.before rankKey
  by_cases ha : 32 ≤ a.age <;> by_cases hb : 32 ≤ b.age
  · by_cases h : a.age = b.age <;> simp [ha, hb, h, Prod.Lex.toLex_lt_toLex]
  · simp [ha, hb, Prod.Lex.toLex_lt_toLex]
  · simp [ha, hb, Prod.Lex.toLex_lt_toLex]
  · cases a.yields <;> cases b.yields <;> by_cases h : a.pop = b.pop <;> simp [ha, hb, h, Prod.Lex.toLex_lt_toLex]

/-- Program counters in the order of R24 are those in the order of their ranks. -/
theorem lowerPc_iff {a b : Path} (ha : a.pc < 2 ^ 52) (hb : b.pc < 2 ^ 52) : LowerPc a b ↔ State.pcRank a.pc < State.pcRank b.pc := by
  unfold LowerPc State.pcRank
  omega

theorem ranksBefore_iff {a b : Path} (ha : a.pc < 2 ^ 52) (hb : b.pc < 2 ^ 52) : RanksBefore a b ↔ rankKey a < rankKey b := by
  unfold RanksBefore rankKey
  rw [lowerPc_iff ha hb]
  by_cases ha : 32 ≤ a.age <;> by_cases hb : 32 ≤ b.age
  · simp [ha, hb, Prod.Lex.toLex_lt_toLex]
  · simp [ha, hb, Prod.Lex.toLex_lt_toLex]
  · simp [ha, hb, Prod.Lex.toLex_lt_toLex]
  · cases a.yields <;> cases b.yields <;> simp [ha, hb, Prod.Lex.toLex_lt_toLex, Path.pop]

theorem insert_perm (p : Path) (l : List Path) : (Path.insert true p l).Perm (p :: l) := by
  induction l with
  | nil => exact .rfl
  | cons q l ih =>
    unfold Path.insert
    split
    · exact (ih.cons q).trans (.swap ..)
    · exact .rfl

/-- A path goes before the first one that it precedes, so that a ranked list stays ranked. -/
theorem insert_ranked {p : Path} {l : List Path} (h : l.Pairwise fun a b => rankKey a ≤ rankKey b) :
    (Path.insert true p l).Pairwise fun a b => rankKey a ≤ rankKey b := by
  induction l with
  | nil => exact List.pairwise_singleton ..
  | cons q l ih =>
    obtain ⟨hq, hl⟩ := List.pairwise_cons.1 h
    unfold Path.insert
    split
    · next c =>
      have hqp : rankKey q ≤ rankKey p := by
        rw [Bool.or_eq_true, Bool.not_eq_true', ← Bool.not_eq_true, before_iff_rankKey, before_iff_rankKey, not_lt] at c
        exact c.elim le_of_lt id
      refine List.pairwise_cons.2 ⟨fun x hx => ?_, ih hl⟩
      rcases List.mem_cons.1 ((insert_perm p l).mem_iff.1 hx) with rfl | hx
      · exact hqp
      · exact hq x hx
    · next c =>
      have hpq : rankKey p < rankKey q := by
        rw [Bool.or_eq_true, not_or, Bool.not_eq_true', Bool.not_eq_false, before_iff_rankKey p] at c
        exact c.2
      refine List.pairwise_cons.2 ⟨fun x hx => ?_, h⟩
      rcases List.mem_cons.1 hx with rfl | hx
      · exact hpq.le
      · exact hpq.le.trans (hq x hx)

theorem rankPaths_perm_ranked (l : List Path) :
    (rankPaths true l).Perm l ∧ (rankPaths true l).Pairwise fun a b => rankKey a ≤ rankKey b := by
  have key : ∀ l r : List Path, (r.Pairwise fun a b => rankKey a ≤ rankKey b) →
      (l.foldl (fun r p => Path.insert true p r) r).Perm (r ++ l) ∧
        (l.foldl (fun r p => Path.insert true p r) r).Pairwise fun a b => rankKey a ≤ rankKey b := by
    intro l
    induction l with
    | nil => exact fun r h => ⟨by simp, h⟩
    | cons p l ih =>
      intro r h
      obtain ⟨k1, k2⟩ := ih _ (insert_ranked (p := p) h)
      exact ⟨k1.trans (((insert_perm p r).append_right l).trans List.perm_middle.symm), k2⟩
  exact key l [] .nil

/-- R24: the paths in the order of R24. -/
theorem rankPaths_ranked {l : List Path} (h : ∀ p ∈ l, p.pc < 2 ^ 52) :
    (rankPaths true l).Perm l ∧ (rankPaths true l).Pairwise fun a b => ¬RanksBefore b a := by
  obtain ⟨k1, k2⟩ := rankPaths_perm_ranked l
  refine ⟨k1, k2.imp_of_mem fun ha hb hab => ?_⟩
  rw [ranksBefore_iff (h _ (k1.mem_iff.1 hb)) (h _ (k1.mem_iff.1 ha)), not_lt]
  exact hab

/-! ## What an advance waits for (R35, R36) -/

/-- A fold that each element lowers, and that one element brings to a bound, ends at most at the bound. -/
theorem foldl_lower {f : Option Nat → Nat → Option Nat} (mono : ∀ x d, ∃ y, f (some x) d = some y ∧ y ≤ x) {l : List Nat} {d n : Nat}
    (hd : d ∈ l) (hb : ∀ w, ∃ y, f w d = some y ∧ y ≤ n) (w : Option Nat) : ∃ y, l.foldl f w = some y ∧ y ≤ n := by
  have stays : ∀ (l : List Nat) (x : Nat), ∃ y, l.foldl f (some x) = some y ∧ y ≤ x := by
    intro l
    induction l with
    | nil => exact fun x => ⟨x, rfl, le_rfl⟩
    | cons a l ih =>
      intro x
      obtain ⟨y, e, hy⟩ := mono x a
      obtain ⟨z, e', hz⟩ := ih y
      exact ⟨z, by rw [List.foldl_cons, e, e'], hz.trans hy⟩
  induction l generalizing w with
  | nil => simp at hd
  | cons a l ih =>
    rcases List.mem_cons.1 hd with rfl | hd
    · obtain ⟨x, e, hx⟩ := hb w
      obtain ⟨y, e', hy⟩ := stays l x
      exact ⟨y, by rw [List.foldl_cons, e, e'], hy.trans hx⟩
    · exact ih hd _

/-- The relay value is at most the level heard from each other cluster of the region, plus its distance (R36). -/
theorem relay_le {s : State} {c d v : Nat} {rcb : BitVec 48} (hr : (s.cl c).region = some rcb) (hd : d ∈ s.regionClusters rcb) (hdc : d ≠ c)
    (hv : ((((s.cl c).heard.filter fun h => h.1 == d && decide (h.2.1 ≤ s.cycle)).getLast?.map (·.2.2)).getD (some 0)) = some v) :
    ∃ w, s.relay c = some w ∧ w ≤ v + regionDist (s.regionClusters rcb) c d * (s.cl c).res.lead.toNat := by
  unfold State.relay
  simp only [hr]
  refine foldl_lower (fun x e => ?_) hd (fun w => ?_) none
  · generalize (if e = c then s.level c else _) = r
    cases r with
    | none => exact ⟨x, rfl, le_rfl⟩
    | some r => exact ⟨_, rfl, Nat.min_le_left ..⟩
  · rw [if_neg hdc]
    cases hl : ((s.cl c).heard.filter fun h => h.1 == d && decide (h.2.1 ≤ s.cycle)).getLast? with
    | none =>
      obtain rfl : 0 = v := by simpa [hl] using hv
      cases w with
      | none => exact ⟨_, rfl, le_rfl⟩
      | some w => exact ⟨_, rfl, Nat.min_le_right ..⟩
    | some h =>
      obtain hr' : h.2.2 = some v := by simpa [hl] using hv
      dsimp only
      rw [hr']
      cases w with
      | none => exact ⟨_, rfl, le_rfl⟩
      | some w => exact ⟨_, rfl, Nat.min_le_right ..⟩

theorem mayAdvance_iff {s : State} {c : Nat} {rcb : BitVec 48} (hr : (s.cl c).region = some rcb) (h : s.mayAdvance c = true) :
    ((s.cl c).ended = true ∨ ∀ t ∈ s.threadsOn c, s.arrived t = true) ∧ ∀ w, s.relay c = some w → (s.cl c).phase + 1 ≤ w := by
  unfold State.mayAdvance at h
  simp only [hr] at h
  split at h
  · exact absurd h (by decide)
  · rw [Bool.and_eq_true, Bool.and_eq_true, Bool.or_eq_true, List.all_eq_true] at h
    obtain ⟨⟨-, ha⟩, hw⟩ := h
    refine ⟨ha, fun w e => ?_⟩
    rw [e] at hw
    exact of_decide_eq_true hw

/-- R35, R36: the threads of a cluster that may advance have arrived, and no level heard holds it back. -/
theorem mayAdvance_levels {s : State} {c : Nat} {rcb : BitVec 48} (hr : (s.cl c).region = some rcb) (h : s.mayAdvance c = true) :
    ((s.cl c).ended = true ∨ ∀ t ∈ s.threadsOn c, s.arrived t = true) ∧
      ∀ d ∈ s.regionClusters rcb, d ≠ c → ∀ v : Nat,
        ((((s.cl c).heard.filter fun h => h.1 == d && decide (h.2.1 ≤ s.cycle)).getLast?.map (·.2.2)).getD (some 0) = some v) →
        (s.cl c).phase + 1 ≤ v + regionDist (s.regionClusters rcb) c d * (s.cl c).res.lead.toNat := by
  obtain ⟨ha, hw⟩ := mayAdvance_iff hr h
  refine ⟨ha, fun d hd hdc v hv => ?_⟩
  obtain ⟨w, e, hle⟩ := relay_le hr hd hdc hv
  exact (hw w e).trans hle

/-! ## The parts of an advance -/

/-- A region that did not resume from an image has none to mark. -/
theorem consumeImage_none {s : State} {rcb : BitVec 48} (h : ∀ z ∈ s.regions, z.rcb = rcb → z.image = none) : s.consumeImage rcb = s := by
  unfold State.consumeImage
  split
  · next z e =>
    have hi := h z (List.mem_of_find?_eq_some e) (by simpa using List.find?_some e)
    rw [hi]
  · rfl

/-- The merge tree of a cluster is free, and nobody waits for it (R252). -/
def freeTree (s : State) (c : Nat) : State := s.setCl c { s.cl c with mHolder := none, mStreams := [] }

theorem releaseTree_free {s : State} (c : Nat) (h : ∀ z ∈ s.sleepers, ∀ f t, z.kind ≠ .mrgopen f t) : s.releaseTree c = freeTree s c := by
  have hf : ∀ n, State.grantTree c n (freeTree s c) = freeTree s c := by
    intro n
    cases n with
    | zero => rfl
    | succ n =>
      unfold State.grantTree
      split
      · rfl
      · next z e =>
        have hz := h z (List.mem_of_find?_eq_some e)
        have := List.find?_some e
        cases hk : z.kind <;> simp_all
  exact hf _

/-- Where no thread sleeps at a `RECONV`, none is released (R29). -/
theorem reconvRelease_none {s : State} (g : Nat) (h : ∀ z ∈ s.sleepers, z.kind ≠ .reconv) : s.reconvRelease g = s := by
  have hn : ∀ t, s.reconvAt t = none := by
    intro t
    unfold State.reconvAt
    split
    · split
      · next z e => rw [if_neg (h z (List.mem_of_find?_eq_some e))]
      · rfl
    · rfl
  unfold State.reconvRelease
  dsimp only
  refine if_pos ?_
  cases hc : (((groupLanes g).map (tid g)).filter fun t => s.counted t) with
  | nil => simp
  | cons t l => simp [hn]

/-- Everything but the clusters. -/
def butClusters (s : State) : State := { s with clusters := [] }

/-- An announcement changes what clusters have heard, and nothing else (R36). -/
theorem announce_hears (s : State) (c : Nat) :
    butClusters (s.announce c) = butClusters s ∧ ∀ d, ∃ h, (s.announce c).cl d = { s.cl d with heard := h } := by
  unfold State.announce
  split
  · exact ⟨rfl, fun d => ⟨_, rfl⟩⟩
  · refine State.foldl_keeps (fun u : State => butClusters u = butClusters s ∧ ∀ d, ∃ h, u.cl d = { s.cl d with heard := h }) _ _ _
      ⟨rfl, fun d => ⟨_, rfl⟩⟩ ?_
    rintro u ⟨hu, hc⟩ e -
    dsimp only
    split
    · exact ⟨hu, hc⟩
    · refine ⟨hu, fun d => ?_⟩
      rw [State.cl_setCl]
      by_cases hd : d = e
      · subst hd
        obtain ⟨h, e'⟩ := hc d
        exact ⟨_, by rw [if_pos rfl, e']⟩
      · rw [if_neg hd]
        exact hc d

/-! ## Waking the threads at `PHASE` (R35, R45) -/

/-- The lanes of a wait are distinct threads (R18). -/
theorem wait_inj {g : Nat} {m : BitVec 32} (h : OneOfBow g m) {i j : Nat} (hi : i ∈ lanesOf m) (hj : j ∈ lanesOf m) (e : tid g i = tid g j) :
    i = j := by
  by_cases hb : isBow (groupCore g) = true
  · rw [h hb, lanesOf_one, List.mem_singleton] at hi hj
    rw [hi, hj]
  · exact tid_inj (by simpa using hb) e

/-- A lane of a change by lanes. -/
theorem lanesMod_lane {g : Nat} {m : BitVec 32} (h : OneOfBow g m) (f : Nat → Thread → Thread) (s : State) {i : Nat} (hi : i ∈ lanesOf m) :
    (State.lanesMod g f (lanesOf m) s).thr (tid g i) = f i (s.thr (tid g i)) :=
  State.lanesMod_same g f _ s i hi (lanesOf_nodup m) fun _ hj => wait_inj h hi hj

/-- A wait that ends for all its lanes leaves each of them woken. -/
theorem wake_all {s : State} {z : Sleeper} (h : OneOfBow z.group z.lanes) {i : Nat} (hi : i ∈ lanesOf z.lanes) :
    (s.wake z z.lanes).thr (tid z.group i) = woken s z (s.thr (tid z.group i)) := by
  have e : (s.decCtr z.group z.lanes z.ctr).thr (tid z.group i) =
      (match z.ctr with | none => s.thr (tid z.group i) | some n => (s.thr (tid z.group i)).decD n) := by
    unfold State.decCtr
    cases z.ctr with
    | none => rfl
    | some n => exact lanesMod_lane h _ s hi
  have hcyc : (s.decCtr z.group z.lanes z.ctr).cycle = s.cycle := by rw [State.decCtr_keeps]
  refine (lanesMod_lane h (fun _ x => { x.goto z.next with
    stat := .run, readyAt := max (s.decCtr z.group z.lanes z.ctr).cycle z.due
    halt := if x.stepping then some ⟨4, 0, false⟩ else x.halt }) _ hi).trans ?_
  rw [e, hcyc]
  rfl

/-- The waits left after some lanes woke are of the kinds of those before. -/
theorem wake_kinds (s : State) (z : Sleeper) (m : BitVec 32) : ∀ y ∈ (s.wake z m).sleepers, ∃ x ∈ s.sleepers, y.kind = x.kind := by
  have hs : (s.decCtr z.group m z.ctr).sleepers = s.sleepers := by rw [State.decCtr_keeps]
  have e : (s.wake z m).sleepers = if z.lanes &&& ~~~m = 0#32 then s.sleepers.filter (fun y => y.id != z.id)
      else s.sleepers.map fun y => if y.id == z.id then { y with lanes := z.lanes &&& ~~~m } else y := by
    unfold State.wake
    dsimp only
    rw [State.modLanes_keeps]
    dsimp only
    rw [hs]
  intro y hy
  rw [e] at hy
  split at hy
  · exact ⟨y, List.mem_of_mem_filter hy, rfl⟩
  · obtain ⟨x, hx, rfl⟩ := List.mem_map.1 hy
    exact ⟨x, hx, by split <;> rfl⟩

/-- One wait at `PHASE` ends: its lanes go on, and their regions end. -/
def wakeOne (s : State) (z : Sleeper) : State := (lanesOf z.lanes).foldl (fun s i => s.endRegion (tid z.group i) z.next) (s.wake z z.lanes)

theorem wakeOne_eq (s : State) (z : Sleeper) :
    wakeOne s z = State.lanesMod z.group (fun _ => State.endOf s.cycle z.next) (lanesOf z.lanes) (s.wake z z.lanes) := by
  have hc : (s.wake z z.lanes).cycle = s.cycle := by rw [State.wake_keeps]
  rw [← hc]
  exact State.endRegion_fold ..

theorem wakeOne_keeps (s : State) (z : Sleeper) :
    wakeOne s z = { s with threads := (wakeOne s z).threads, sleepers := (wakeOne s z).sleepers } := by
  rw [wakeOne_eq, State.lanesMod_eq, State.wake_keeps]

theorem wakeOne_kinds (s : State) (z : Sleeper) : ∀ y ∈ (wakeOne s z).sleepers, ∃ x ∈ s.sleepers, y.kind = x.kind := by
  rw [wakeOne_eq, State.lanesMod_eq]
  exact wake_kinds s z z.lanes

theorem wakeOne_same {s : State} {z : Sleeper} (h : OneOfBow z.group z.lanes) {i : Nat} (hi : i ∈ lanesOf z.lanes) :
    (wakeOne s z).thr (tid z.group i) = State.endOf s.cycle z.next (woken s z (s.thr (tid z.group i))) := by
  rw [wakeOne_eq, lanesMod_lane h _ _ hi, wake_all h hi]

theorem wakeOne_other {s : State} {z : Sleeper} {t : Nat} (h : ∀ i ∈ lanesOf z.lanes, t ≠ tid z.group i) : (wakeOne s z).thr t = s.thr t := by
  rw [wakeOne_eq, State.lanesMod_other _ _ _ _ _ h, State.wake_thr_other _ _ _ _ h]

/-- A wait at `PHASE` on a cluster. -/
def atPhase (c : Nat) (z : Sleeper) : Prop := z.kind = .phase ∧ coreCluster (groupCore z.group) = c

/-- Everything but the threads and the waits. -/
def butSleep (s : State) : State := { s with threads := [], sleepers := [] }

theorem wakePhase_keeps (c : Nat) (l : List Sleeper) (s : State) :
    butSleep (State.wakePhase c l s) = butSleep s ∧ ∀ y ∈ (State.wakePhase c l s).sleepers, ∃ x ∈ s.sleepers, y.kind = x.kind := by
  induction l generalizing s with
  | nil => exact ⟨rfl, fun y hy => ⟨y, hy, rfl⟩⟩
  | cons z l ih =>
    unfold State.wakePhase
    split
    · obtain ⟨h1, h2⟩ := ih (wakeOne s z)
      refine ⟨h1.trans ?_, fun y hy => ?_⟩
      · rw [wakeOne_keeps]; rfl
      · obtain ⟨x, hx, e⟩ := h2 y hy
        obtain ⟨x', hx', e'⟩ := wakeOne_kinds s z x hx
        exact ⟨x', hx', e.trans e'⟩
    · exact ih s

/-- A thread that sleeps at no `PHASE` of the cluster stays as it is. -/
theorem wakePhase_other {c t : Nat} {l : List Sleeper} {s : State}
    (h : ∀ z ∈ l, atPhase c z → ∀ i ∈ lanesOf z.lanes, t ≠ tid z.group i) :
    (State.wakePhase c l s).thr t = s.thr t := by
  induction l generalizing s with
  | nil => rfl
  | cons z l ih =>
    unfold State.wakePhase
    split
    · next hz => exact (ih fun y hy => h y (List.mem_cons_of_mem _ hy)).trans (wakeOne_other (h z List.mem_cons_self hz))
    · exact ih fun y hy => h y (List.mem_cons_of_mem _ hy)

/-- A thread that sleeps at a `PHASE` of the cluster goes on. -/
theorem wakePhase_same {c : Nat} {l : List Sleeper} {s : State} (h1 : ∀ z ∈ l, OneOfBow z.group z.lanes)
    (h2 : l.Pairwise fun a b => ∀ i ∈ lanesOf a.lanes, ∀ j ∈ lanesOf b.lanes, tid a.group i ≠ tid b.group j) {z : Sleeper} (hz : z ∈ l)
    (hp : atPhase c z) {i : Nat} (hi : i ∈ lanesOf z.lanes) :
    (State.wakePhase c l s).thr (tid z.group i) = State.endOf s.cycle z.next (woken s z (s.thr (tid z.group i))) := by
  induction l generalizing s with
  | nil => simp at hz
  | cons y l ih =>
    obtain ⟨hy, hl⟩ := List.pairwise_cons.1 h2
    have hc : (wakeOne s y).cycle = s.cycle := by rw [wakeOne_keeps]
    rcases List.mem_cons.1 hz with rfl | hz
    · unfold State.wakePhase
      rw [if_pos (show z.kind = .phase ∧ coreCluster (groupCore z.group) = c from hp)]
      exact (wakePhase_other fun b hb _ j hj => hy b hb i hi j hj).trans (wakeOne_same (h1 z List.mem_cons_self) hi)
    · have ht : ∀ j ∈ lanesOf y.lanes, tid z.group i ≠ tid y.group j := fun j hj => (hy z hz j hj i hi).symm
      unfold State.wakePhase
      split
      · refine (ih (s := wakeOne s y) (fun b hb => h1 b (List.mem_cons_of_mem _ hb)) hl hz).trans ?_
        rw [wakeOne_other ht, hc]
        unfold woken
        rw [hc]
      · exact ih (fun b hb => h1 b (List.mem_cons_of_mem _ hb)) hl hz

/-! ## CLUSTER_ADVANCE (R35, R36, R45) -/

/-- The counter of a cluster has risen, and its straggler timer stands (R35, R39). -/
def risen (s : State) (c : Nat) : State := s.setCl c { s.cl c with phase := (s.cl c).phase + 1, strag := none, stragged := false }

/-- The counter has risen, the merge tree is free, and the threads at `PHASE` are awake. -/
def advanced (s : State) (c : Nat) : State :=
  State.wakePhase c s.sleepers (freeTree ((risen s c).dropPast ((s.cl c).region.getD 0)) c)

/-- A cluster that may not advance stays as it is (R35). -/
theorem clusterAdvance_held {s : State} {cl : BitVec 4} (hh : s.hole = false) (h : s.mayAdvance cl.toNat = false) :
    exec (.clusterAdvance cl) s = .next s := by
  rw [exec_clusterAdvance]
  unfold execClusterAdvance
  simp only [h, Bool.not_false, if_true]
  exact out_next hh

/-- Where no thread sleeps at a `RECONV`, none of a list of groups is released (R29). -/
theorem reconvReleases_none {s : State} (h : ∀ z ∈ s.sleepers, z.kind ≠ .reconv) (l : List Nat) : l.foldl State.reconvRelease s = s :=
  State.foldl_keeps (fun u => u = s) _ l s rfl fun u hu g _ => by rw [hu]; exact reconvRelease_none g h

/-- A cluster that may advance, of a region that consumes no image, where nobody waits for its merge tree or at `RECONV`. -/
theorem clusterAdvance_advanced {s : State} {cl : BitVec 4} {rcb : BitVec 48} (hh : s.hole = false) (hr : (s.cl cl.toNat).region = some rcb)
    (h : s.mayAdvance cl.toNat = true) (hk : ∀ z ∈ s.sleepers, z.kind ≠ .reconv ∧ ∀ f t, z.kind ≠ .mrgopen f t)
    (hi : ∀ z ∈ s.regions, z.rcb = rcb → z.image = none) :
    ∃ events, exec (.clusterAdvance cl) s = .next { (advanced s cl.toNat).announce cl.toNat with agenda := events } := by
  let c := cl.toNat
  have hrr : ((risen s c).cl c).region.getD 0 = (s.cl c).region.getD 0 := by unfold risen; rw [State.cl_setCl_same]
  have e1 : ((risen s c).dropPast ((s.cl c).region.getD 0)).consumeImage ((s.cl c).region.getD 0) =
      (risen s c).dropPast ((s.cl c).region.getD 0) := consumeImage_none fun z hz e => hi z hz (by rw [e, hr]; rfl)
  have e2 := releaseTree_free (s := (risen s c).dropPast ((s.cl c).region.getD 0)) c fun z hz => (hk z hz).2
  obtain ⟨hb, hw⟩ := wakePhase_keeps c s.sleepers (freeTree ((risen s c).dropPast ((s.cl c).region.getD 0)) c)
  obtain ⟨ha, -⟩ := announce_hears (advanced s c) c
  have e3 : ∀ l : List Nat, l.foldl execClusterAdvance.reconv ((advanced s c).announce c) = (advanced s c).announce c :=
    reconvReleases_none fun z hz e => by
      have hs : ((advanced s c).announce c).sleepers = (advanced s c).sleepers := (congrArg State.sleepers ha : _)
      rw [hs] at hz
      obtain ⟨y, hy, e'⟩ := hw z hz
      exact (hk y hy).1 (e' ▸ e)
  have hole : ((advanced s c).announce c).hole = false :=
    ((congrArg State.hole ha : _).trans (congrArg State.hole hb : _)).trans hh
  have parts : exec (.clusterAdvance cl) s =
      (let r := (s.cl c).region.getD 0
       let f := (((risen s c).dropPast r).consumeImage r).releaseTree c
       let a := (State.wakePhase c f.sleepers f).announce c
       let b := (a.groupsOn c).foldl execClusterAdvance.reconv a
       State.out { b with agenda := b.groupEvents c ++ b.agenda }) := by
    rw [exec_clusterAdvance]
    unfold execClusterAdvance
    simp only [h, Bool.not_true, Bool.false_eq_true, if_false]
    rw [← hrr]
    rfl
  dsimp only at parts
  rw [e1, e2] at parts
  change _ = State.out { List.foldl execClusterAdvance.reconv ((advanced s c).announce c) (State.groupsOn _ c) with agenda := _ } at parts
  rw [e3] at parts
  exact ⟨_, parts.trans (out_next hole)⟩

/-- An advance changes the counter of its cluster, what clusters have heard, and the threads that it wakes (R35, R36). -/
theorem advanced_frame (s : State) (c : Nat) : ((advanced s c).announce c).mem = s.mem ∧ ((advanced s c).announce c).sp = s.sp ∧
    (((advanced s c).announce c).cl c).phase = (s.cl c).phase + 1 ∧
    (∀ d, d ≠ c → (((advanced s c).announce c).cl d).phase = (s.cl d).phase) ∧
    ∀ t, ((advanced s c).announce c).thr t = (advanced s c).thr t := by
  obtain ⟨hb, -⟩ := wakePhase_keeps c s.sleepers (freeTree ((risen s c).dropPast ((s.cl c).region.getD 0)) c)
  obtain ⟨ha, hc⟩ := announce_hears (advanced s c) c
  have cls : ∀ d, (((advanced s c).announce c).cl d).phase = ((freeTree ((risen s c).dropPast ((s.cl c).region.getD 0)) c).cl d).phase := by
    intro d
    obtain ⟨h, e⟩ := hc d
    rw [e]
    exact (congrArg (fun u : State => (u.cl d).phase) hb : _)
  refine ⟨(congrArg State.mem ha : _).trans (congrArg State.mem hb : _), (congrArg State.sp ha : _).trans (congrArg State.sp hb : _), ?_,
    fun d hd => ?_, fun t => (congrArg (fun u : State => u.thr t) ha : _)⟩
  · rw [cls]
    unfold freeTree
    rw [State.cl_setCl_same]
    show ((risen s c).cl c).phase = _
    unfold risen
    rw [State.cl_setCl_same]
  · rw [cls]
    unfold freeTree
    rw [State.cl_setCl, if_neg hd]
    show ((risen s c).cl d).phase = _
    unfold risen
    rw [State.cl_setCl, if_neg hd]

/-- CLUSTER_ADVANCE of a cluster that may advance (R35, R45). -/
theorem clusterAdvance_next {s : State} {cl : BitVec 4} {rcb : BitVec 48} (hh : s.hole = false) (hr : (s.cl cl.toNat).region = some rcb)
    (h : s.mayAdvance cl.toNat = true) (hw : WaitsApart s) (hk : ∀ z ∈ s.sleepers, z.kind ≠ .reconv ∧ ∀ f t, z.kind ≠ .mrgopen f t)
    (hi : ∀ z ∈ s.regions, z.rcb = rcb → z.image = none) :
    ∃ u, exec (.clusterAdvance cl) s = .next u ∧ u.mem = s.mem ∧ u.sp = s.sp ∧ (u.cl cl.toNat).phase = (s.cl cl.toNat).phase + 1 ∧
      (∀ d, d ≠ cl.toNat → (u.cl d).phase = (s.cl d).phase) ∧
      (∀ z ∈ s.sleepers, z.kind = .phase → coreCluster (groupCore z.group) = cl.toNat → ∀ i ∈ lanesOf z.lanes,
        u.thr (tid z.group i) = State.endOf s.cycle z.next (woken s z (s.thr (tid z.group i)))) ∧
      ∀ t, (∀ z ∈ s.sleepers, z.kind = .phase → coreCluster (groupCore z.group) = cl.toNat →
        ∀ i ∈ lanesOf z.lanes, t ≠ tid z.group i) → u.thr t = s.thr t := by
  obtain ⟨events, e⟩ := clusterAdvance_advanced hh hr h hk hi
  obtain ⟨hm, hsp, hp, hd, ht⟩ := advanced_frame s cl.toNat
  obtain ⟨one, apart⟩ := hw
  exact ⟨_, e, hm, hsp, hp, hd,
    fun z hz hzk hzc i hm => (ht _).trans (wakePhase_same one (apart.imp fun h => h.2) hz ⟨hzk, hzc⟩ hm),
    fun t h => (ht t).trans (wakePhase_other fun z hz hp => h z hz hp.1 hp.2)⟩

/-! ## Event records (R382–R384) -/

/-- Everything but memory, the records that wait and the mark of an address where nothing exists. -/
def butPosts (s : State) : State := { s with mem := [], evWait := [], hole := false }

theorem wr_butPosts (s : State) (pa n x : Nat) : butPosts (s.wr pa n x) = butPosts s := by
  unfold State.wr
  rcases s.wrBytes_cases pa (leBytes x n) with e | e <;> rw [e] <;> rfl

theorem evAppend_butPosts (s : State) (desc : Nat) (r : W512) : butPosts (s.evAppend desc r) = butPosts s := by
  unfold State.evAppend
  dsimp only
  rw [wr_butPosts, wr_butPosts]
  unfold State.reach
  split <;> rfl

/-- A posted record changes memory, the records that wait and nothing else (R382). -/
theorem post_butPosts (s : State) (q : Bool) (r : W512) : butPosts (s.post q r) = butPosts s := by
  unfold State.post
  dsimp only
  generalize (if q then s.sys.evqs else s.sys.evqn) = desc
  split
  · rfl
  · exact evAppend_butPosts ..

theorem evRecord_type (cycle ty c core slot fdom rcb w3 w4 w5 w6 w7 : Nat) :
    (evRecord cycle ty c core slot fdom rcb w3 w4 w5 w6 w7).extractLsb' 0 8 = BitVec.ofNat 8 ty := by
  apply BitVec.eq_of_toNat_eq
  simp only [evRecord, BitVec.extractLsb'_toNat, BitVec.toNat_ofNat, Nat.shiftRight_eq_div_pow]
  omega

theorem evRecord_cluster (cycle ty c core slot fdom rcb w3 w4 w5 w6 w7 : Nat) :
    (evRecord cycle ty c core slot fdom rcb w3 w4 w5 w6 w7).extractLsb' 8 4 = BitVec.ofNat 4 c := by
  apply BitVec.eq_of_toNat_eq
  simp only [evRecord, BitVec.extractLsb'_toNat, BitVec.toNat_ofNat, Nat.shiftRight_eq_div_pow]
  omega

theorem evRecord_rcb (cycle ty c core slot fdom rcb w3 w4 w5 w6 w7 : Nat) :
    (evRecord cycle ty c core slot fdom rcb w3 w4 w5 w6 w7).extractLsb' 64 48 = BitVec.ofNat 48 rcb := by
  apply BitVec.eq_of_toNat_eq
  simp only [evRecord, BitVec.extractLsb'_toNat, BitVec.toNat_ofNat, Nat.shiftRight_eq_div_pow]
  omega

/-- The upper half of the fourth word of a record. -/
theorem evRecord_upper (cycle ty c core slot fdom rcb w3 w4 w5 w6 w7 : Nat) :
    (evRecord cycle ty c core slot fdom rcb w3 w4 w5 w6 w7).extractLsb' 224 32 = BitVec.ofNat 32 (w3 / 2 ^ 32) := by
  apply BitVec.eq_of_toNat_eq
  simp only [evRecord, BitVec.extractLsb'_toNat, BitVec.toNat_ofNat, Nat.shiftRight_eq_div_pow]
  omega

/-! ## The record of a straggler event (R39) -/

/-- The bits of a list of places. -/
theorem foldl_pow (f : Nat → Nat) (l : List Nat) (n : Nat) : l.foldl (fun n k => n + 2 ^ f k) n = n + (l.map fun k => 2 ^ f k).sum := by
  induction l generalizing n with
  | nil => rfl
  | cons k l ih => rw [List.foldl_cons, ih, List.map_cons, List.sum_cons, Nat.add_assoc]

/-- The bits of distinct places below `n` are a number below `2 ^ n`. -/
theorem sum_pow_lt {l : List Nat} {n : Nat} (hn : l.Nodup) (h : ∀ k ∈ l, k < n) : (l.map fun k => 2 ^ k).sum < 2 ^ n := by
  rw [← List.sum_toFinset _ hn]
  exact Nat.geomSum_lt le_rfl fun k hk => h k (List.mem_toFinset.1 hk)

theorem nodup_eraseDups : ∀ (n : Nat) (l : List Nat), l.length ≤ n → l.eraseDups.Nodup
  | _, [], _ => List.nodup_nil
  | n + 1, a :: l, h => by
    rw [List.eraseDups_cons, List.nodup_cons]
    refine ⟨fun hm => ?_, nodup_eraseDups n _ ((List.length_filter_le ..).trans (Nat.le_of_succ_le_succ h))⟩
    have := List.of_mem_filter (List.mem_eraseDups.1 hm)
    simp at this

theorem holding_lt (s : State) (c : Nat) : (s.holding c).foldl (fun n d => n + 2 ^ (16 + d)) 0 < 2 ^ 21 := by
  have hd : (s.holding c).Nodup ∧ ∀ d ∈ s.holding c, d < 5 := by
    unfold State.holding
    split
    · exact ⟨List.nodup_nil, fun d h => by simp at h⟩
    · exact ⟨(by decide : [1, 2, 3, 4].Nodup).filter _,
        fun d h => (by decide : ∀ d ∈ [1, 2, 3, 4], d < 5) d (List.mem_of_mem_filter h)⟩
  obtain ⟨hn, hl⟩ := hd
  have e := foldl_pow (16 + ·) (s.holding c) 0
  rw [e, Nat.zero_add]
  have hs : ((s.holding c).map fun d => 2 ^ (16 + d)).sum = (((s.holding c).map (16 + ·)).map fun d => 2 ^ d).sum := by
    rw [List.map_map]; rfl
  rw [hs]
  refine sum_pow_lt (hn.map fun a b h => by simpa using h) fun k hk => ?_
  obtain ⟨d, hd, rfl⟩ := List.mem_map.1 hk
  have := hl d hd
  omega

/-- The cores, the bow and the directions of the event lie below the superstep. -/
theorem straggler_word {s : State} {c : Nat} {cores : List Nat} {bow : Bool} (hc : ∀ k ∈ cores, k < 16) (n : Nat) :
    (cores.eraseDups.foldl (fun n k => n + 2 ^ k) 0 + (if bow then 2 ^ 16 else 0) + (s.holding c).foldl (fun n d => n + 2 ^ (16 + d)) 0 +
      2 ^ 32 * (n % 2 ^ 32)) / 2 ^ 32 = n % 2 ^ 32 := by
  have h1 : cores.eraseDups.foldl (fun n k => n + 2 ^ k) 0 < 2 ^ 16 := by
    rw [foldl_pow fun k => k, Nat.zero_add]
    exact sum_pow_lt (nodup_eraseDups _ _ le_rfl) fun k hk => hc k (List.mem_eraseDups.1 hk)
  have h2 : (if bow then 2 ^ 16 else 0) ≤ 2 ^ 16 := by split <;> omega
  have h3 := holding_lt s c
  omega

/-! ## The trap of a straggler (R39) -/

/-- A thread that runs, between clauses and outside its handler, without an operation under way. -/
def Between (s : State) (t : Nat) : Prop :=
  (s.thr t).stat = .run ∧ (s.thr t).handler = none ∧ (s.thr t).halt = none ∧ s.inSel t = false ∧ s.hasOps t = false

/-- A thread in the handler of its `STRAGGLER`. -/
def straggled (s : State) (c t : Nat) : Thread := { s.entering t (stragglerTrap s c t) with strag := false }

/-- A thread that is taken out of the clauses in issue puts no other into one. -/
theorem inSel_dropLanes {s : State} {g t : Nat} {m : BitVec 32} (h : s.inSel t = false) : (s.dropLanes g m).inSel t = false := by
  unfold State.inSel State.dropLanes at *
  dsimp only at *
  rw [List.any_eq_false] at *
  intro y hy
  by_cases hc : groupCore (threadGroup t) = groupCore g
  · rw [hc, State.core_setCore_same] at hy
    dsimp only at hy
    obtain ⟨x, hx, rfl⟩ := List.mem_map.1 (List.mem_of_mem_filter hy)
    have := h x (hc ▸ hx)
    split <;> simp_all
  · rw [State.core_setCore_other _ _ hc] at hy
    exact h y hy

theorem put_strag (x : Thread) (r : RegId) (v : RVal) : ({ x with strag := false } : Thread).put r v = { x.put r v with strag := false } := by
  cases r with
  | g i => cases v <;> rfl
  | v i => cases v <;> rfl
  | p i =>
    cases v with
    | p b => unfold Thread.put; dsimp only; split <;> rfl
    | _ => rfl
  | s r => cases r <;> cases v <;> rfl

theorem flush_strag (x : Thread) (rs : List RegId) : ({ x with strag := false } : Thread).flush rs = { x.flush rs with strag := false } := by
  have key : ∀ (l : List Pend) (y : Thread),
      l.foldl (fun y e => if rs.contains e.reg then y.put e.reg e.val else y) { y with strag := false } =
        { l.foldl (fun y e => if rs.contains e.reg then y.put e.reg e.val else y) y with strag := false } := by
    intro l
    induction l with
    | nil => exact fun _ => rfl
    | cons e l ih =>
      intro y
      rw [List.foldl_cons, List.foldl_cons, ← ih, put_strag]
      split <;> rfl
  unfold Thread.flush
  exact congrArg (fun y : Thread => { y with pend := x.pend.filter fun e => !rs.contains e.reg }) (key x.pend x)

theorem trapRecord_straggler (n : Nat) (pc : W64) :
    (⟨State.trapRecord 0 0 0 0 16, BitVec.ofNat 64 (n % 2 ^ 32), pc⟩ : TrapInfo) = ⟨16, (BitVec.ofNat 32 n).setWidth 64, pc⟩ := by
  have e : BitVec.ofNat 64 (n % 2 ^ 32) = (BitVec.ofNat 32 n).setWidth 64 := by
    apply BitVec.eq_of_toNat_eq
    simp only [BitVec.toNat_ofNat, BitVec.toNat_setWidth]
  rw [e]
  rfl

/-- The trap of a straggler that runs between clauses changes its thread, and takes it out of its path. -/
theorem nameStraggler_between {s : State} {c t : Nat} (ht : coreCluster (groupCore (threadGroup t)) = c) (hv : (s.cl c).res.trapvec ≠ 0)
    (h : Between s t) : s.nameStraggler t =
      ((s.setThr t { s.thr t with strag := false }).dropLanes (threadGroup t) (1#32 <<< threadLane t)).setThr t (straggled s c t) := by
  obtain ⟨hr, hh, hd, hi, ho⟩ := h
  subst ht
  let s1 := s.setThr t { s.thr t with strag := false }
  have hx : s1.thr t = { s.thr t with strag := false } := State.thr_setThr_same ..
  have e1 : s.nameStraggler t = s1.takeTrap t (stragglerTrap s (coreCluster (groupCore (threadGroup t))) t) := by
    unfold State.nameStraggler
    simp only [hr, hh, hi, hd, Option.isSome_none, Bool.or_self, Bool.false_eq_true, if_false]
    unfold State.straggle stragglerTrap
    dsimp only
    rw [trapRecord_straggler]
  have e2 : s1.entering t (stragglerTrap s (coreCluster (groupCore (threadGroup t))) t) =
      straggled s (coreCluster (groupCore (threadGroup t))) t := by
    have ho1 : s1.hasOps t = false := ho
    unfold straggled State.entering
    simp only [ho, ho1, hx, flush_strag, Bool.false_eq_true, if_false]
    rfl
  rw [e1, State.takeTrap_eq s1 t _ (by rw [hx]; exact hh) hv, e2]

/-- What the trap of a straggler reads of the state. -/
theorem straggled_congr {s u : State} {c t : Nat} (ho : u.ops = s.ops) (hy : u.cycle = s.cycle)
    (hc : ∀ d, (u.cl d).res = (s.cl d).res ∧ (u.cl d).phase = (s.cl d).phase) (ht : u.thr t = s.thr t) : straggled u c t = straggled s c t := by
  unfold straggled stragglerTrap State.entering State.hasOps State.grpRes State.grpCl
  rw [ho, hy, ht, (hc _).1, (hc c).2]

/-- R39, R381: stragglers between clauses enter their handlers, and nothing else changes. -/
theorem nameStragglers_between {c : Nat} {l : List Nat} {s : State} (hn : l.Nodup) (ht : ∀ t ∈ l, coreCluster (groupCore (threadGroup t)) = c)
    (hv : (s.cl c).res.trapvec ≠ 0) (h : ∀ t ∈ l, Between s t) :
    (l.foldl State.nameStraggler s).rest = s.rest ∧ (∀ t ∉ l, (l.foldl State.nameStraggler s).thr t = s.thr t) ∧
      ∀ t ∈ l, (l.foldl State.nameStraggler s).thr t = straggled s c t := by
  induction l generalizing s with
  | nil => exact ⟨rfl, fun _ _ => rfl, fun t ht => by simp at ht⟩
  | cons a l ih =>
    rw [List.nodup_cons] at hn
    have e := nameStraggler_between (ht a List.mem_cons_self) hv (h a List.mem_cons_self)
    have hr : (s.nameStraggler a).rest = s.rest := by rw [e, State.rest_setThr, State.dropLanes_rest, State.rest_setThr]
    have hsame : (s.nameStraggler a).thr a = straggled s c a := by rw [e, State.thr_setThr_same]
    have ho : ∀ t, t ≠ a → (s.nameStraggler a).thr t = s.thr t := fun t hne => by
      rw [e, State.thr_setThr_other _ _ hne, State.dropLanes_thr, State.thr_setThr_other _ _ hne]
    have hsel : ∀ t, s.inSel t = false → (s.nameStraggler a).inSel t = false := fun t hi => by
      rw [e]
      exact inSel_dropLanes (s := s.setThr a { s.thr a with strag := false }) hi
    have hops : ∀ t, (s.nameStraggler a).hasOps t = s.hasOps t := fun t => (congrArg (fun u : State => u.hasOps t) hr : _)
    have ne : ∀ t ∈ l, t ≠ a := fun t hm e => hn.1 (e ▸ hm)
    have hcl : (s.nameStraggler a).cl c = s.cl c := (congrArg (fun u : State => u.cl c) hr : _)
    obtain ⟨i1, i2, i3⟩ := ih hn.2 (fun t hm => ht t (List.mem_cons_of_mem _ hm)) (by rw [hcl]; exact hv) fun t hm => by
      obtain ⟨b1, b2, b3, b4, b5⟩ := h t (List.mem_cons_of_mem _ hm)
      unfold Between
      rw [ho t (ne t hm), hops]
      exact ⟨b1, b2, b3, hsel t b4, b5⟩
    refine ⟨i1.trans hr, fun t hm => ?_, fun t hm => ?_⟩
    · rw [List.mem_cons, not_or] at hm
      exact (i2 t hm.2).trans (ho t hm.1)
    · rcases List.mem_cons.1 hm with rfl | hm
      · exact (i2 t hn.1).trans hsame
      · exact (i3 t hm).trans (straggled_congr (congrArg State.ops hr : _) (congrArg State.cycle hr : _)
          (fun d => ⟨(congrArg (fun u : State => (u.cl d).res) hr : _), (congrArg (fun u : State => (u.cl d).phase) hr : _)⟩) (ho t (ne t hm)))

/-- The thread of a group of a cluster is one of that cluster (R18). -/
theorem threadGroup_cluster {s : State} {c t : Nat} (hc : c < 16) (ht : t ∈ s.threadsOn c) : coreCluster (groupCore (threadGroup t)) = c := by
  unfold State.threadsOn State.groupsOn at ht
  obtain ⟨g, hg, ht⟩ := List.mem_flatMap.1 ht
  obtain ⟨x, hx, rfl⟩ := List.mem_map.1 hg
  have hr := List.of_mem_filter (List.mem_of_mem_filter hx)
  rw [Bool.and_eq_true, decide_eq_true_eq, decide_eq_true_eq] at hr
  obtain ⟨i, hi, rfl⟩ := List.mem_map.1 ht
  unfold groupLanes at hi
  unfold tid threadGroup
  by_cases hb : isBow (groupCore x.1) = true
  · simp only [hb, if_true]
    unfold coreCluster groupCore
    rw [if_neg (by omega)]
    omega
  · simp only [hb, Bool.false_eq_true, if_false, List.mem_range] at hi ⊢
    unfold isBow at hb
    rw [beq_iff_eq] at hb
    unfold coreCluster coreNum groupSlot groupCore at *
    rw [if_pos (by omega)]
    omega

/-! ## STRAGGLER_TIMEOUT (R39) -/

/-- The groups of the threads that are late. -/
def lateGroups (s : State) (c : Nat) : List Nat := ((s.unarrived c).map threadGroup).eraseDups

/-- The slots of the groups that are late, a bit for each slot of the cluster. -/
def lateSlots (s : State) (c : Nat) : Nat :=
  ((lateGroups s c).filter fun g => !isBow (groupCore g)).foldl (fun n g => n + 2 ^ (16 * coreNum (groupCore g) + groupSlot g)) 0

/-- The fourth word of a straggler event. -/
def stragglerWord (s : State) (c : Nat) : Nat :=
  (((lateGroups s c).filter fun g => !isBow (groupCore g)).map fun g => coreNum (groupCore g)).eraseDups.foldl (fun n k => n + 2 ^ k) 0 +
    (if (lateGroups s c).any fun g => isBow (groupCore g) then 2 ^ 16 else 0) +
    (s.holding c).foldl (fun n d => n + 2 ^ (16 + d)) 0 + 2 ^ 32 * ((s.cl c).phase % 2 ^ 32)

theorem stragglerWord_upper (s : State) (c : Nat) : stragglerWord s c / 2 ^ 32 = (s.cl c).phase % 2 ^ 32 := by
  refine straggler_word (fun k hk => ?_) _
  obtain ⟨g, hg, rfl⟩ := List.mem_map.1 hk
  have hb := List.of_mem_filter hg
  unfold isBow at hb
  unfold coreNum
  simp only [Bool.not_eq_true', beq_eq_false_iff_ne] at hb
  omega

/-- The step of a straggler: its record is posted, the event counts as raised, and the late threads trap where the region says so. -/
theorem stragglerTimeout_eq {s : State} {cl : BitVec 4} {k : Nat} {rcb : BitVec 48} (hr : (s.cl cl.toNat).region = some rcb)
    (hs : (s.cl cl.toNat).strag = some k) (hd : (s.cl cl.toNat).stragged = false) (ht : (s.cl cl.toNat).res.stragt ≠ 0)
    (hk : k + 1024 * (s.cl cl.toNat).res.stragt.toNat ≤ s.cycle) :
    exec (.stragglerTimeout cl) s =
      (let n := lateSlots s cl.toNat
       let p := s.postCl false 8 cl.toNat (stragglerWord s cl.toNat) (n % 2 ^ 64) (n / 2 ^ 64 % 2 ^ 64) (n / 2 ^ 128 % 2 ^ 64) (n / 2 ^ 192)
       let q := p.setCl cl.toNat { p.cl cl.toNat with stragged := true }
       (if (s.cl cl.toNat).res.strap then
          (lateGroups s cl.toNat).foldl State.reconvRelease ((s.unarrived cl.toNat).foldl State.nameStraggler q)
        else q).out) := by
  have hg : ¬((s.cl cl.toNat).stragged = true ∨ (s.cl cl.toNat).res.stragt = 0#16 ∨
      s.cycle < k + 1024 * (s.cl cl.toNat).res.stragt.toNat) := by
    rw [hd]
    rintro (h | h | h)
    · exact absurd h (by decide)
    · exact ht h
    · omega
  rw [exec_stragglerTimeout]
  unfold execStragglerTimeout
  simp only [hs, hr, if_neg hg]
  rfl

/-- STRAGGLER_TIMEOUT raises the event once, and traps the late threads where the region says so (R39). -/
theorem stragglerTimeout_next {s : State} {cl : BitVec 4} {k : Nat} {rcb : BitVec 48} (hp : CanPost s false)
    (hr : (s.cl cl.toNat).region = some rcb) (hs : (s.cl cl.toNat).strag = some k) (hd : (s.cl cl.toNat).stragged = false)
    (ht : (s.cl cl.toNat).res.stragt ≠ 0) (hk : k + 1024 * (s.cl cl.toNat).res.stragt.toNat ≤ s.cycle)
    (htrap : (s.cl cl.toNat).res.strap = true → (s.cl cl.toNat).res.trapvec ≠ 0 ∧ (∀ z ∈ s.sleepers, z.kind ≠ .reconv) ∧
      (s.unarrived cl.toNat).Nodup ∧ ∀ t ∈ s.unarrived cl.toNat, Between s t) :
    ∃ u r, exec (.stragglerTimeout cl) s = .next u ∧ PostsOne s u false r ∧ r.extractLsb' 0 8 = 8#8 ∧ r.extractLsb' 8 4 = cl ∧
      r.extractLsb' 64 48 = rcb ∧ r.extractLsb' 224 32 = BitVec.ofNat 32 (s.cl cl.toNat).phase ∧ (u.cl cl.toNat).stragged = true ∧
      u.sp = s.sp ∧ (∀ t, ((s.cl cl.toNat).res.strap = false ∨ t ∉ s.unarrived cl.toNat) → u.thr t = s.thr t) ∧
      ((s.cl cl.toNat).res.strap = true → ∀ t ∈ s.unarrived cl.toNat, u.thr t = straggled s cl.toNat t) := by
  have e := stragglerTimeout_eq hr hs hd ht hk
  dsimp only at e
  generalize lateSlots s cl.toNat % 2 ^ 64 = w4, lateSlots s cl.toNat / 2 ^ 64 % 2 ^ 64 = w5, lateSlots s cl.toNat / 2 ^ 128 % 2 ^ 64 = w6,
    lateSlots s cl.toNat / 2 ^ 192 = w7 at e
  let c := cl.toNat
  let r := evRecord s.cycle 8 c 0 0 (s.cl c).res.fdom.toNat rcb.toNat (stragglerWord s c) w4 w5 w6 w7
  have hpost : s.postCl false 8 c (stragglerWord s c) w4 w5 w6 w7 = s.post false r := by
    unfold State.postCl
    simp only [c, hr]
    rfl
  rw [hpost] at e
  have hb := post_butPosts s false r
  have hcl : ∀ d, (s.post false r).cl d = s.cl d := fun d => (congrArg (fun u : State => u.cl d) hb : _)
  let q := (s.post false r).setCl c { (s.post false r).cl c with stragged := true }
  have hq : (q.cl c) = { s.cl c with stragged := true } := by
    show (State.setCl _ _ _).cl c = _
    rw [State.cl_setCl_same, hcl]
  have fields : r.extractLsb' 0 8 = 8#8 ∧ r.extractLsb' 8 4 = cl ∧ r.extractLsb' 64 48 = rcb ∧
      r.extractLsb' 224 32 = BitVec.ofNat 32 (s.cl c).phase := by
    refine ⟨evRecord_type .., (evRecord_cluster ..).trans (BitVec.ofNat_toNat ..), (evRecord_rcb ..).trans (BitVec.ofNat_toNat ..),
      (evRecord_upper ..).trans ?_⟩
    rw [stragglerWord_upper]
    apply BitVec.eq_of_toNat_eq
    simp
  obtain ⟨f1, f2, f3, f4⟩ := fields
  have hsp : q.sp = s.sp := (congrArg State.sp hb : _)
  have hthr : ∀ t, q.thr t = s.thr t := fun t => (congrArg (fun u : State => u.thr t) hb : _)
  have hhole : q.hole = false := hp r
  cases hst : (s.cl c).res.strap with
  | false =>
    simp only [c] at hst
    rw [hst, if_neg Bool.false_ne_true] at e
    exact ⟨q, r, e.trans (out_next hhole), ⟨rfl, rfl⟩, f1, f2, f3, f4, by rw [hq], hsp, fun t _ => hthr t, fun h => absurd h (by decide)⟩
  | true =>
    simp only [c] at hst
    obtain ⟨hv, hk, hn, hl⟩ := htrap hst
    have hbt : ∀ t ∈ s.unarrived c, Between q t := fun t hm => by
      have := hl t hm
      unfold Between at this ⊢
      rw [hthr]
      exact ⟨this.1, this.2.1, this.2.2.1, (congrArg (fun u : State => u.inSel t) hb : _).trans this.2.2.2.1,
        (congrArg (fun u : State => u.hasOps t) hb : _).trans this.2.2.2.2⟩
    obtain ⟨hrest, ho, hin⟩ := nameStragglers_between (s := q) (c := c) hn
      (fun t hm => threadGroup_cluster cl.isLt (List.mem_of_mem_filter hm)) (by rw [hq]; exact hv) hbt
    have hsl : ((s.unarrived c).foldl State.nameStraggler q).sleepers = s.sleepers :=
      (congrArg State.sleepers hrest : _).trans (congrArg State.sleepers hb : _)
    rw [hst, if_pos rfl, reconvReleases_none (by rw [hsl]; exact hk)] at e
    have hstr : ∀ t, straggled q c t = straggled s c t := fun t => by
      refine straggled_congr (congrArg State.ops hb : _) (congrArg State.cycle hb : _) (fun d => ?_) (hthr t)
      by_cases hdc : d = c
      · rw [hdc, hq]; exact ⟨rfl, rfl⟩
      · have : q.cl d = s.cl d := by
          show (State.setCl _ _ _).cl d = _
          rw [State.cl_setCl, if_neg hdc, hcl]
        rw [this]; exact ⟨rfl, rfl⟩
    refine ⟨_, r, e.trans (out_next ((congrArg State.hole hrest : _).trans hhole)), ⟨?_, ?_⟩, f1, f2, f3, f4, ?_, ?_, ?_, ?_⟩
    · exact (congrArg State.mem hrest : _)
    · exact (congrArg State.evWait hrest : _)
    · exact (congrArg (fun u : State => (u.cl c).stragged) hrest : _).trans (congrArg Cluster.stragged hq : _)
    · exact (congrArg State.sp hrest : _).trans hsp
    · intro t h
      exact (ho t (h.resolve_left (by decide))).trans (hthr t)
    · exact fun _ t hm => (hin t hm).trans (hstr t)

/-! ## The obligation -/

/-- Settles O46: `issueOpportunity_path`, `rankPaths_ranked`, `clusterAdvance_next` and `stragglerTimeout_next`. -/
theorem issueAndAdvance : Obligations.IssueAndAdvance := by
  unfold Obligations.IssueAndAdvance
  refine ⟨fun s core hh hs hc => ⟨issueOpportunity_idle hh hs hc, ?_⟩, fun _ hl => rankPaths_ranked hl, ?_, ?_⟩
  · rintro j k L pc w code s0 s1 s2 hj slot g h hk hb hp hr hL hpc hbow rfl h1 hok h5 h9 hw hl h2 hh2
    have hslot : s.nextSlot core = some k := by
      subst hk
      exact nextSlot_first hj hb hp (hr ▸ hL)
    exact issueOpportunity_path hs hc (hk ▸ Nat.mod_lt _ (by decide)) hslot hp hr hL hpc hbow h1 hok h5 h9 hw hl h2 hh2
  · intro s cl rcb c hh hr
    exact ⟨mayAdvance_levels hr, clusterAdvance_held hh, fun h hw hk hi => clusterAdvance_next hh hr h hw hk hi⟩
  · intro s cl k rcb c hh hp hr hs hd ht hk htrap
    exact stragglerTimeout_next hp hr hs hd ht hk htrap

end Sys2Proof.Slice0
end

section
namespace Sys2Proof.Slice0
open Machine

/-! # Binding and starting (O48)

## The fields of a bind record (R357) -/

theorem bits_eq {n : Nat} (x : BitVec n) (h l : Nat) : bits x.toNat h l = (x.extractLsb' l (h + 1 - l)).toNat := by
  rw [BitVec.extractLsb'_toNat]; rfl

theorem recField_eq (r : W256) (h l : Nat) : bits r.toNat h l = recField r h l := bits_eq r h l

theorem bitAt_eq {n : Nat} (x : BitVec n) (k : Nat) : bitAt x.toNat k = x.getLsbD k := rfl

theorem recRcb_eq (r : W256) : recRcb r = (r.extractLsb' 0 48).toNat := bits_eq r 47 0

theorem recRcb_ofNat (r : W256) : BitVec.ofNat 48 (recRcb r) = r.extractLsb' 0 48 := by
  rw [recRcb_eq, BitVec.ofNat_toNat, BitVec.setWidth_eq]

/-- A region of a cluster is that of a record. -/
theorem region_any (x : Option (BitVec 48)) (r : W256) : (x.any fun y => y.toNat == recRcb r) = decide (x = some (r.extractLsb' 0 48)) := by
  cases x with
  | none => rfl
  | some y =>
    rw [recRcb_eq, Option.any_some, Bool.eq_iff_iff, beq_iff_eq, decide_eq_true_eq, Option.some.injEq]
    exact ⟨BitVec.eq_of_toNat_eq, fun h => h ▸ rfl⟩

/-! ## STATE of a bind record (R357) -/

/-- The byte of a record with another STATE. -/
theorem state_byte (b : Byte) (st : BitVec 3) : BitVec.ofNat 8 (b.toNat / 8 * 8 + st.toNat) = b.extractLsb' 3 5 ++ st := by
  apply BitVec.eq_of_toNat_eq
  have := b.isLt
  have := st.isLt
  simp only [BitVec.toNat_ofNat, BitVec.toNat_append, BitVec.extractLsb'_toNat, Nat.shiftRight_eq_div_pow]
  rw [← Nat.shiftLeft_add_eq_or_of_lt st.isLt, Nat.shiftLeft_eq]
  omega

/-- The memory with another STATE in a record. -/
def stateMem (s : State) (i : Nat) (st : BitVec 3) : Memory :=
  Memory.setByte s.mem (stateAt s i) ((Memory.byte s.mem (stateAt s i)).extractLsb' 3 5 ++ st)

theorem wr_eq {s : State} {a n : Nat} (h : physOkN a n = true) (v : Nat) : s.wr a n v = { s with mem := Memory.put s.mem a (leBytes v n) } := by
  unfold State.wr State.wrBytes
  rw [leBytes_length, if_pos h]

/-- A record reads another STATE, and nothing else changes. -/
theorem bindState_eq {s : State} {i : Nat} (st : BitVec 3) (h : physOkN (stateAt s i) 1 = true) :
    s.bindState i st.toNat = { s with mem := stateMem s i st } := by
  have hr : s.rd (stateAt s i) 1 = (Memory.byte s.mem (stateAt s i)).toNat := by
    simp [State.rd, Memory.read]
  refine (wr_eq h (s.rd (stateAt s i) 1 / 8 * 8 + st.toNat)).trans ?_
  rw [hr]
  show { s with mem := Memory.setByte s.mem (stateAt s i) (BitVec.ofNat 8 _) } = _
  rw [state_byte]
  rfl

theorem stateMem_written (s : State) (i : Nat) (st : BitVec 3) : StateWritten s.mem (stateMem s i st) [stateAt s i] st := by
  refine ⟨fun a ha => ?_, fun A hA => ?_⟩
  · rw [List.mem_singleton] at ha
    rw [ha]
    exact Memory.byte_setByte_same ..
  · exact Memory.byte_setByte_other _ _ (by simpa using hA)

/-! ## BINDGO (R357, R358) -/

/-- The fields against which a record is checked (R356). -/
theorem resolvedOn_eq (s : State) (c : Nat) (r : W256) :
    s.resolvedOn c (recRcb r) = if (s.cl c).region = some (r.extractLsb' 0 48) then some (s.cl c).res else s.resolve (recField r 47 0) := by
  unfold State.resolvedOn
  rw [region_any]
  simp only [decide_eq_true_eq]
  rfl

theorem bindOk_unresolved {s : State} {i : Nat} {r : W256} (h : s.resolvedOn (bindCluster i) (recRcb r) = none) : s.bindOk i r = false := by
  unfold State.bindOk
  simp only [h]

/-- What R358 refuses fails the checks. -/
theorem bindOk_refused {s : State} {i : Nat} {r : W256} {x : Resolved} (hx : s.resolvedOn (bindCluster i) (recRcb r) = some x)
    (h : Refused s i r x) : s.bindOk i r = false := by
  rw [Bool.eq_false_iff]
  intro ok
  unfold State.bindOk at ok
  simp only [hx, Bool.and_eq_true, Bool.or_eq_true, Bool.not_eq_true', Bool.and_eq_false_iff, Bool.or_eq_false_iff, decide_eq_true_eq,
    decide_eq_false_iff_not, beq_iff_eq, bne_eq_false_iff_eq, recClean, recWorld, recZw, recLanes, recWgn, recNode, recGq, recField_eq,
    bitAt_eq] at ok
  obtain ⟨⟨⟨⟨⟨⟨⟨⟨⟨⟨⟨⟨c1, c2⟩, c3⟩, world⟩, block⟩, mask⟩, -⟩, zw⟩, top⟩, bow⟩, node⟩, -⟩, -⟩ := ok
  rcases h with h | h | h | h | h | h | ⟨hz, h⟩ | h | ⟨hb, h⟩ | ⟨hn, h⟩
  · exact h c1
  · exact h c2
  · exact h c3
  · exact h world
  · exact h block
  · exact absurd (h.symm.trans mask) Bool.false_ne_true
  · exact absurd (zw.resolve_left hz) (Nat.not_le.2 h)
  · exact absurd top (Nat.not_le.2 h)
  · obtain ⟨⟨b1, b2⟩, b3⟩ := bow.resolve_left (not_not.2 hb)
    exact h.elim (absurd b1) (Or.elim · (absurd b2) (absurd b3))
  · obtain ⟨n1, n2⟩ := node.resolve_left (by rw [hn]; decide)
    exact h.elim (absurd n1) n2

/-- The word after the number of a record. -/
theorem evRecord_word (cycle ty c core slot fdom rcb w3 w4 w5 w6 w7 : Nat) :
    (evRecord cycle ty c core slot fdom rcb w3 w4 w5 w6 w7).extractLsb' 192 64 = BitVec.ofNat 64 w3 := by
  apply BitVec.eq_of_toNat_eq
  simp only [evRecord, BitVec.extractLsb'_toNat, BitVec.toNat_ofNat, Nat.shiftRight_eq_div_pow]
  omega

theorem of_butPosts {s u : State} (h : butPosts u = butPosts s) : u = { s with mem := u.mem, evWait := u.evWait, hole := u.hole } :=
  congrArg (fun z : State => { z with mem := u.mem, evWait := u.evWait, hole := u.hole }) h

/-- A refused record reads STATE 4, and its event is posted (R358). -/
theorem bindRefuse_next {s : State} {i : Nat} {r : W256} (hp : physOkN (stateAt s i) 1 = true)
    (hc : CanPost { s with mem := stateMem s i 4 } false) :
    ∃ q : W512, s.bindRefuse i r = ({ s with mem := stateMem s i 4 } : State).post false q ∧ (s.bindRefuse i r).hole = false ∧
      q.extractLsb' 0 8 = 11#8 ∧ q.extractLsb' 64 48 = r.extractLsb' 0 48 ∧ q.extractLsb' 192 64 = BitVec.ofNat 64 i := by
  have e : s.bindState i 4 = { s with mem := stateMem s i 4 } := bindState_eq 4#3 hp
  unfold State.bindRefuse
  rw [e]
  exact ⟨_, rfl, hc _, evRecord_type .., (evRecord_rcb ..).trans (recRcb_ofNat r), evRecord_word ..⟩

/-- The record that a write of `BINDGO` names. -/
def namedRec (s : State) (w : W64) : W256 :=
  BitVec.ofNat 256 (Memory.read s.mem (s.sys.btbase.toNat + 32 * (w.extractLsb' 0 13).toNat) 32)

/-- What a write of `BINDGO` does with the record that it names. -/
theorem bindGo_eq (s : State) (w : W64) : s.bindGo w =
    (let i := (w.extractLsb' 0 13).toNat
     let r := namedRec s w
     if 4111 < i ∨ r.extractLsb' 48 3 ≠ 1 then { s with sys := { s.sys with binderr := s.sys.binderr + 1 } }
     else if s.bindOk i r then
       { s with pending := s.pending.filter (fun p => p.1 != i) ++
           [(i, r, if (s.cl (bindCluster i)).region.any fun x => x.toNat == recRcb r then some (s.cl (bindCluster i)).phase else none)] }
     else s.bindRefuse i r) := by
  have hi : bits w.toNat 12 0 = (w.extractLsb' 0 13).toNat := bits_eq w 12 0
  have hst : recState (namedRec s w) != 1 ↔ (namedRec s w).extractLsb' 48 3 ≠ 1 := by
    have : recState (namedRec s w) = ((namedRec s w).extractLsb' 48 3).toNat := bits_eq _ 50 48
    rw [this, bne_iff_ne, not_iff_not]
    exact ⟨fun h => BitVec.eq_of_toNat_eq h, fun h => by rw [h]; rfl⟩
  unfold State.bindGo
  rw [hi]
  show (if (decide (4111 < (w.extractLsb' 0 13).toNat) || recState (namedRec s w) != 1) = true then _ else _) = _
  simp only [Bool.or_eq_true, decide_eq_true_eq, hst]
  rfl

/-- A write of `BINDGO` that names no bow going pending does no more. -/
theorem exec_bindgo_out {s : State} {mc : BitVec 2} {w : W64} (h : (s.bindGo w).pending = s.pending ∨ (w.extractLsb' 0 13).toNat < 4096) :
    exec (.bindgo mc w) s = (s.bindGo w).out := by
  rw [exec_bindgo]
  unfold execBindgo State.bindWrite
  dsimp only
  split
  · rfl
  · next hp =>
    split
    · have hi : bits w.toNat 12 0 = (w.extractLsb' 0 13).toNat := bits_eq w 12 0
      rw [if_neg (by rw [hi]; exact Nat.not_le.2 (h.resolve_left hp))]
    · rfl

theorem bindgo_error {s : State} {mc : BitVec 2} {w : W64} (hh : s.hole = false)
    (h : 4111 < (w.extractLsb' 0 13).toNat ∨ (namedRec s w).extractLsb' 48 3 ≠ 1) :
    exec (.bindgo mc w) s = .next { s with sys := { s.sys with binderr := s.sys.binderr + 1 } } := by
  have e : s.bindGo w = { s with sys := { s.sys with binderr := s.sys.binderr + 1 } } := (bindGo_eq s w).trans (if_pos h)
  rw [exec_bindgo_out (.inl (by rw [e])), e]
  exact out_next hh

theorem bindgo_refused {s : State} {mc : BitVec 2} {w : W64} (hh : s.hole = false) (hi : (w.extractLsb' 0 13).toNat ≤ 4111)
    (hr : (namedRec s w).extractLsb' 48 3 = 1) (ok : s.bindOk (w.extractLsb' 0 13).toNat (namedRec s w) = false)
    (hp : physOkN (stateAt s (w.extractLsb' 0 13).toNat) 1 = true)
    (hc : ∀ m, (∀ A, A ≠ stateAt s (w.extractLsb' 0 13).toNat → Memory.byte m A = Memory.byte s.mem A) →
      CanPost { s with mem := m } false) :
    ∃ (u s1 : State) (q : W512), exec (.bindgo mc w) s = .next u ∧
      StateWritten s.mem s1.mem [stateAt s (w.extractLsb' 0 13).toNat] 4#3 ∧ s1 = { s with mem := s1.mem } ∧ PostsOne s1 u false q ∧
      q.extractLsb' 0 8 = 11#8 ∧ q.extractLsb' 64 48 = (namedRec s w).extractLsb' 0 48 ∧
      q.extractLsb' 192 64 = BitVec.ofNat 64 (w.extractLsb' 0 13).toNat ∧ u = { s with mem := u.mem, evWait := u.evWait } := by
  have hw := stateMem_written s (w.extractLsb' 0 13).toNat 4
  obtain ⟨q, eq, hole, q1, q2, q3⟩ := bindRefuse_next (r := namedRec s w) hp
    (hc _ fun A hA => hw.2 A (by simpa using hA))
  have e : s.bindGo w = s.bindRefuse (w.extractLsb' 0 13).toNat (namedRec s w) := by
    rw [bindGo_eq]
    refine (if_neg ?_).trans (if_neg (by rw [ok]; decide))
    rw [not_or, not_not]
    exact ⟨Nat.not_lt.2 hi, hr⟩
  have hb : s.bindRefuse (w.extractLsb' 0 13).toNat (namedRec s w) = { s with
      mem := (s.bindRefuse (w.extractLsb' 0 13).toNat (namedRec s w)).mem
      evWait := (s.bindRefuse (w.extractLsb' 0 13).toNat (namedRec s w)).evWait, hole := false } := by
    rw [← hole, eq]
    exact of_butPosts (post_butPosts _ false q)
  refine ⟨s.bindRefuse (w.extractLsb' 0 13).toNat (namedRec s w), { s with mem := stateMem s (w.extractLsb' 0 13).toNat 4 }, q,
    ?_, hw, rfl, ?_, q1, q2, q3, ?_⟩
  · rw [exec_bindgo_out (.inl (by rw [e, hb])), e]
    exact out_next hole
  · rw [eq]; exact ⟨rfl, rfl⟩
  · rw [← hh] at hb
    exact hb

theorem bindgo_pending {s : State} {mc : BitVec 2} {w : W64} (hh : s.hole = false) (hi : (w.extractLsb' 0 13).toNat < 4096)
    (hr : (namedRec s w).extractLsb' 48 3 = 1) (ok : s.bindOk (w.extractLsb' 0 13).toNat (namedRec s w) = true) :
    ∃ since, exec (.bindgo mc w) s = .next { s with
      pending := s.pending.filter (fun p => p.1 != (w.extractLsb' 0 13).toNat) ++ [((w.extractLsb' 0 13).toNat, namedRec s w, since)] } := by
  refine ⟨if (s.cl (bindCluster (w.extractLsb' 0 13).toNat)).region.any fun x => x.toNat == recRcb (namedRec s w) then
    some (s.cl (bindCluster (w.extractLsb' 0 13).toNat)).phase else none, ?_⟩
  rw [exec_bindgo_out (.inr hi), bindGo_eq]
  dsimp only
  rw [if_neg (by rw [not_or, not_not]; exact ⟨by omega, hr⟩), if_pos ok]
  exact out_next hh

/-! ## A newly started thread (R43) -/

/-- A thread of a group that is no graph node's, as it starts. -/
def newThread (cycle t l : Nat) (r : W256) : Thread :=
  { Thread.blank with
    stat := .run, hdr := r.extractLsb' 64 48, re := resumeAt (r.extractLsb' 64 48) 0, srs := srsSeed 0 t, readyAt := cycle
    g := mset 0 (mset 0 [] 0 ((r.extractLsb' 128 48).setWidth 64)) 1
      (BitVec.ofNat 64 (32 * (recField r 255 224 * (recField r 55 52 + 1) + recField r 59 56) + l)) }

/-- A lane of a started group: one outside the mask has exited (R43). -/
def startedThread (cycle t l : Nat) (r : W256) : Thread :=
  if r.getLsbD (192 + l) then newThread cycle t l r else { newThread cycle t l r with stat := .exited }

theorem freshThread_new {s : State} {r : W256} (hn : recNode r = false) (g l : Nat) (x : Resolved) :
    s.freshThread g l x r = newThread s.cycle (tid g l) l r := by
  have he : BitVec.ofNat 48 (recEntry r) = r.extractLsb' 64 48 := by
    have : recEntry r = (r.extractLsb' 64 48).toNat := bits_eq r 111 64
    rw [this, BitVec.ofNat_toNat, BitVec.setWidth_eq]
  have ha : BitVec.ofNat 64 (recArgs r) = (r.extractLsb' 128 48).setWidth 64 := by
    have : recArgs r = (r.extractLsb' 128 48).toNat := bits_eq r 175 128
    rw [this, BitVec.ofNat_toNat]
  unfold State.freshThread
  simp only [hn, he, ha, Bool.false_eq_true, if_false]
  rfl

theorem newThread_new (cycle t l : Nat) (r : W256) : NewThread (newThread cycle t l r) t l r := by
  have pc : resumeAt (r.extractLsb' 64 48) 0 = (r.extractLsb' 64 48).setWidth 64 := by
    unfold resumeAt
    simp only [Nat.zero_mod, Nat.mul_zero, Nat.add_zero]
    exact BitVec.ofNat_toNat ..
  have gs : ∀ n : GReg, (newThread cycle t l r).arch (.g n) = .w (mget 0 (newThread cycle t l r).g n.toNat) := fun n => rfl
  refine ⟨rfl, pc, ?_, ?_, fun n h0 h1 => ?_, fun n => rfl, fun n hn => ?_, rfl, rfl, fun r h1 h2 => ?_, fun n => rfl, rfl⟩
  · rw [gs]
    simp [newThread, mget_mset]
  · rw [gs]
    simp [newThread]
  · have d0 : n.toNat ≠ 0 := fun e => h0 (BitVec.eq_of_toNat_eq e)
    have d1 : n.toNat ≠ 1 := fun e => h1 (BitVec.eq_of_toNat_eq e)
    rw [gs]
    unfold newThread
    dsimp only
    rw [mget_mset_other _ _ _ d1, mget_mset_other _ _ _ d0]
    rfl
  · show RVal.p (if n = 7#3 then true else false) = _
    exact congrArg RVal.p (if_neg hn)
  · cases r with
    | re => exact absurd rfl h1
    | srs => exact absurd rfl h2
    | _ => rfl

theorem startedThread_new {cycle t l : Nat} {r : W256} (h : r.getLsbD (192 + l) = true) : NewThread (startedThread cycle t l r) t l r := by
  unfold startedThread
  rw [if_pos h]
  exact newThread_new ..

theorem startedThread_exited {cycle t l : Nat} {r : W256} (h : r.getLsbD (192 + l) = false) : (startedThread cycle t l r).stat = .exited := by
  unfold startedThread
  rw [h]
  rfl

theorem recLanes_bit {r : W256} {l : Nat} (hl : l < 32) : bitAt (recLanes r) l = r.getLsbD (192 + l) := by
  have : recLanes r = (r.extractLsb' 192 32).toNat := bits_eq r 223 192
  rw [this, bitAt_eq, BitVec.getLsbD_extractLsb']
  simp [hl]

/-! ## A newly started group (R43, R357) -/

/-- A group as it starts. -/
def boundGroup (i : Nat) (r : W256) (x : Resolved) : Group :=
  { Group.free with
    bound := true, wg := wgKey (groupCore (bindGroup i)) (recWg r), rcb := r.extractLsb' 0 48, bind := r, recIdx := i, pp := x.pp, sc := x.sc }

theorem bindGroupTo_eq (s : State) (i : Nat) (r : W256) (x : Resolved) : s.bindGroupTo i r x = s.setGrp (bindGroup i) (boundGroup i r x) := by
  unfold State.bindGroupTo boundGroup
  dsimp only
  rw [recRcb_ofNat]

/-- Everything but the code that cores keep, and what is known of writes. -/
def butKnown (s : State) : State := { s with codes := [], writes := [] }

theorem forget_known (s : State) (t : Nat) : butKnown (s.forget t) = butKnown s := by
  unfold State.forget State.modWrites
  split <;> rfl

theorem clearFor_known (s : State) (g : Nat) (x : Resolved) : butKnown (s.clearFor g x) = butKnown s :=
  State.foldl_keeps (fun u : State => butKnown u = butKnown s) _ _ _ rfl fun _ hu _ _ => (forget_known ..).trans hu

/-- Everything but what the start of a group changes. -/
def butStart (s : State) : State := { s with mem := [], threads := [], groups := [], codes := [], writes := [] }

theorem startFresh_lanes {r : W256} (hn : recNode r = false) (g : Nat) (x : Resolved) (ls : List Nat) (h : ∀ l ∈ ls, l < 32) (s : State) :
    ls.foldl (fun s l =>
      let t := s.freshThread g l x r
      s.setThr (tid g l) (if bitAt (recLanes r) l then t else { t with stat := .exited })) s =
    State.lanesMod g (fun l _ => startedThread s.cycle (tid g l) l r) ls s := by
  induction ls generalizing s with
  | nil => rfl
  | cons l ls ih =>
    have e : s.setThr (tid g l) (if bitAt (recLanes r) l then s.freshThread g l x r else { s.freshThread g l x r with stat := .exited }) =
        s.modThr (tid g l) fun _ => startedThread s.cycle (tid g l) l r := by
      rw [freshThread_new hn, recLanes_bit (h l List.mem_cons_self)]
      rfl
    rw [List.foldl_cons]
    dsimp only
    rw [e, ih fun k hk => h k (List.mem_cons_of_mem _ hk)]
    rfl

/-- The lanes of a group are distinct threads (R18). -/
theorem groupLanes_lt {g l : Nat} (h : l ∈ groupLanes g) : l < 32 := by
  unfold groupLanes at h
  split at h
  · rw [List.mem_singleton] at h; omega
  · exact List.mem_range.1 h

/-- WHAT THE START OF ONE GROUP CHANGES (R43, R357). -/
structure Started (s u : State) (i : Nat) (r : W256) (x : Resolved) : Prop where
  rest : butStart u = butStart s
  mem : u.mem = stateMem s i 2
  grp : ∀ g, u.grp g = if g = bindGroup i then boundGroup i r x else s.grp g
  lane : ∀ l ∈ groupLanes (bindGroup i), u.thr (tid (bindGroup i) l) = startedThread s.cycle (tid (bindGroup i) l) l r
  other : ∀ t, (∀ l ∈ groupLanes (bindGroup i), t ≠ tid (bindGroup i) l) → u.thr t = s.thr t

theorem startFresh_started {s : State} {i : Nat} {r : W256} {x : Resolved} (hn : recNode r = false)
    (hp : physOkN (stateAt s i) 1 = true) : Started s (s.startFresh i r x) i r x := by
  let g := bindGroup i
  let s1 := (s.clearFor g x).setGrp g (boundGroup i r x)
  let s2 := State.lanesMod g (fun l _ => startedThread s1.cycle (tid g l) l r) (groupLanes g) s1
  have hk := clearFor_known s g x
  have hcy : s1.cycle = s.cycle := (congrArg State.cycle hk : _)
  have hmem : s2.mem = s.mem := by
    show (State.lanesMod _ _ _ s1).mem = _
    rw [State.lanesMod_eq]
    exact (congrArg State.mem hk : _)
  have hrest : butStart s2 = butStart s := by
    show butStart (State.lanesMod _ _ _ s1) = _
    rw [State.lanesMod_eq]
    exact (congrArg butStart hk : _)
  have hst : stateAt s2 i = stateAt s i := (congrArg (fun u : State => stateAt u i) hrest : _)
  have e : s.startFresh i r x = { s2 with mem := stateMem s2 i 2 } := by
    unfold State.startFresh
    dsimp only
    rw [startFresh_lanes hn _ _ _ fun l hl => groupLanes_lt hl, bindGroupTo_eq]
    exact bindState_eq 2#3 (by rw [hst]; exact hp)
  have hgrp : ∀ h, s2.grp h = if h = g then boundGroup i r x else s.grp h := fun h => by
    show (State.lanesMod _ _ _ s1).grp h = _
    rw [State.lanesMod_grp]
    have : (s.clearFor g x).grp h = s.grp h := (congrArg (fun u : State => u.grp h) hk : _)
    rw [← this]
    exact State.grp_setGrp ..
  have hthr : ∀ t, s1.thr t = s.thr t := fun t => (congrArg (fun u : State => u.thr t) hk : _)
  rw [e]
  refine ⟨hrest, ?_, hgrp, fun l hl => ?_, fun t ht => ?_⟩
  · show stateMem s2 i 2 = stateMem s i 2
    unfold stateMem
    rw [hst, hmem]
  · refine (State.lanesMod_same g _ _ s1 l hl (groupLanes_nodup g) fun j hj => groupLanes_inj hl hj).trans ?_
    rw [hcy]
  · exact (State.lanesMod_other _ _ _ _ _ ht).trans (hthr t)

/-! ## The groups that records name (R357) -/

theorem bindGroup_slot {i : Nat} (h : i < 4096) : isBow (groupCore (bindGroup i)) = false := by
  unfold bindGroup isBow groupCore
  rw [if_pos h, beq_eq_false_iff_ne]
  omega

theorem bindGroup_lanes {i : Nat} (h : i < 4096) : groupLanes (bindGroup i) = List.range 32 := by
  unfold groupLanes
  rw [bindGroup_slot h]
  rfl

/-- The threads of a slot are numbered through (R18, R357). -/
theorem tid_bindGroup {i k : Nat} (h : i < 4096) : tid (bindGroup i) k = 32 * i + k := by
  unfold tid
  simp only [bindGroup_slot h, Bool.false_eq_true, if_false]
  unfold bindGroup coreCluster coreNum groupSlot groupCore
  rw [if_pos h]
  omega

theorem bindGroup_inj {i j : Nat} (hi : i < 4096) (hj : j < 4096) (h : bindGroup i = bindGroup j) : i = j := by
  have a := tid_bindGroup (k := 0) hi
  have b := tid_bindGroup (k := 0) hj
  rw [h] at a
  omega

theorem tid_bindGroup_ne {i j k n : Nat} (hi : i < 4096) (hj : j < 4096) (h : i ≠ j) (hk : k < 32) (hn : n < 32) :
    tid (bindGroup i) k ≠ tid (bindGroup j) n := by
  rw [tid_bindGroup hi, tid_bindGroup hj]
  omega

/-! ## The groups of a workgroup (R358) -/

/-- Another record's STATE beside those written before. -/
theorem StateWritten.cons {m0 m1 m2 : Memory} {a : Nat} {l : List Nat} {st : BitVec 3} (h1 : StateWritten m0 m1 [a] st)
    (h2 : StateWritten m1 m2 l st) (ha : a ∉ l) : StateWritten m0 m2 (a :: l) st := by
  obtain ⟨w1, o1⟩ := h1
  obtain ⟨w2, o2⟩ := h2
  refine ⟨fun b hb => ?_, fun A hA => ?_⟩
  · rcases List.mem_cons.1 hb with rfl | hb
    · rw [o2 _ ha]
      exact w1 _ List.mem_cons_self
    · have : b ≠ a := fun e => ha (e ▸ hb)
      rw [w2 _ hb, o1 b (by simpa using this)]
  · rw [List.mem_cons, not_or] at hA
    rw [o2 _ hA.2, o1 A (by simpa using hA.1)]

/-- WHAT THE STARTS OF THE GROUPS OF A WORKGROUP CHANGE (R43, R357). -/
structure StartedAll (s u : State) (l : List (Nat × W256 × Option Nat)) (x : Resolved) : Prop where
  rest : butStart u = butStart s
  mem : StateWritten s.mem u.mem (l.map fun p => stateAt s p.1) 2
  grp : ∀ p ∈ l, u.grp (bindGroup p.1) = boundGroup p.1 p.2.1 x
  lane : ∀ p ∈ l, ∀ k < 32, u.thr (tid (bindGroup p.1) k) = startedThread s.cycle (tid (bindGroup p.1) k) k p.2.1
  other : ∀ t, (∀ p ∈ l, ∀ k < 32, t ≠ tid (bindGroup p.1) k) → u.thr t = s.thr t
  spare : ∀ g, (∀ p ∈ l, g ≠ bindGroup p.1) → u.grp g = s.grp g

theorem startFresh_all {x : Resolved} {l : List (Nat × W256 × Option Nat)} {s : State} (hn : l.Pairwise fun a b => a.1 ≠ b.1)
    (h : ∀ p ∈ l, p.1 < 4096 ∧ recNode p.2.1 = false ∧ physOkN (stateAt s p.1) 1 = true) :
    StartedAll s (l.foldl (fun s p => s.startFresh p.1 p.2.1 x) s) l x := by
  induction l generalizing s with
  | nil =>
    exact ⟨rfl, ⟨fun _ h => by simp at h, fun _ _ => rfl⟩, fun _ h => by simp at h, fun _ h => by simp at h, fun _ _ => rfl, fun _ _ => rfl⟩
  | cons p l ih =>
    rw [List.pairwise_cons] at hn
    obtain ⟨hi, hnode, hp⟩ := h p List.mem_cons_self
    have a := startFresh_started (x := x) hnode hp
    have hst : ∀ i, stateAt (s.startFresh p.1 p.2.1 x) i = stateAt s i := fun i => (congrArg (fun u : State => stateAt u i) a.rest : _)
    have hcy : (s.startFresh p.1 p.2.1 x).cycle = s.cycle := (congrArg State.cycle a.rest : _)
    have b := ih (s := s.startFresh p.1 p.2.1 x) hn.2 fun q hq => by
      rw [hst]
      exact h q (List.mem_cons_of_mem _ hq)
    have hlt : ∀ q ∈ l, q.1 < 4096 := fun q hq => (h q (List.mem_cons_of_mem _ hq)).1
    have lanes : ∀ k, k < 32 → k ∈ groupLanes (bindGroup p.1) := fun k hk => by rw [bindGroup_lanes hi]; exact List.mem_range.2 hk
    rw [List.foldl_cons]
    refine ⟨b.rest.trans a.rest, ?_, fun q hq => ?_, fun q hq k hk => ?_, fun t ht => ?_, fun g hg => ?_⟩
    · have hm := b.mem
      rw [List.map_congr_left fun q _ => hst q.1] at hm
      refine StateWritten.cons (by rw [a.mem]; exact stateMem_written ..) hm fun hm => ?_
      obtain ⟨q, hq, e⟩ := List.mem_map.1 hm
      have := hn.1 q hq
      simp only [stateAt] at e
      omega
    · rcases List.mem_cons.1 hq with rfl | hq
      · rw [b.spare _ fun y hy e => hn.1 y hy (bindGroup_inj hi (hlt y hy) e), a.grp, if_pos rfl]
      · exact b.grp q hq
    · rcases List.mem_cons.1 hq with rfl | hq
      · rw [b.other _ fun y hy n hn' => tid_bindGroup_ne hi (hlt y hy) (hn.1 y hy) hk hn', a.lane k (lanes k hk)]
      · rw [b.lane q hq k hk, hcy]
    · rw [b.other t fun q hq => ht q (List.mem_cons_of_mem _ hq)]
      exact a.other t fun k hk => ht p List.mem_cons_self k (groupLanes_lt hk)
    · rw [b.spare g fun q hq => hg q (List.mem_cons_of_mem _ hq), a.grp, if_neg (hg p List.mem_cons_self)]

/-! ## Announcements and arrivals of groups that run (R35, R36) -/

/-- One state is another but for what its clusters have heard. -/
def Hears (s u : State) : Prop := butClusters u = butClusters s ∧ ∀ d, ∃ h, u.cl d = { s.cl d with heard := h }

theorem Hears.refl (s : State) : Hears s s := ⟨rfl, fun _ => ⟨_, rfl⟩⟩

theorem Hears.trans {s u v : State} (h1 : Hears s u) (h2 : Hears u v) : Hears s v := by
  refine ⟨h2.1.trans h1.1, fun d => ?_⟩
  obtain ⟨a, e1⟩ := h1.2 d
  obtain ⟨b, e2⟩ := h2.2 d
  exact ⟨b, by rw [e2, e1]⟩

theorem Hears.announce (s : State) (c : Nat) : Hears s (s.announce c) := announce_hears s c

theorem mget_mem {α : Type} {d : α} {m : FMap α} {k : Nat} (h : mget d m k ≠ d) : (k, mget d m k) ∈ m := by
  induction m with
  | nil => exact absurd rfl h
  | cons e m ih =>
    obtain ⟨j, v⟩ := e
    by_cases hk : k = j
    · simp [mget, hk]
    · simp only [mget, if_neg hk] at h ⊢
      exact List.mem_cons_of_mem _ (ih h)

/-- A bound group stands on its cluster. -/
theorem bound_groupsOn {s : State} {g : Nat} (h : (s.grp g).bound = true) : g ∈ s.groupsOn (coreCluster (groupCore g)) := by
  have hm : (g, s.grp g) ∈ s.groups := mget_mem fun e => by rw [State.grp, e] at h; exact absurd h (by decide)
  unfold State.groupsOn mrange
  refine List.mem_map.2 ⟨(g, s.grp g), List.mem_filter.2 ⟨List.mem_filter.2 ⟨hm, ?_⟩, h⟩, rfl⟩
  unfold coreCluster groupCore
  rw [Bool.and_eq_true, decide_eq_true_eq, decide_eq_true_eq]
  omega

/-- Nothing ends where a thread of the group runs: its cluster announces its level (R35, R36). -/
theorem exited_hears {s : State} {g l : Nat} (hb : (s.grp g).bound = true) (hl : l ∈ groupLanes g) (hr : (s.thr (tid g l)).stat ≠ .exited) :
    Hears s (s.exited g) := by
  have hg : ((groupLanes g).all fun i => (s.thr (tid g i)).stat == .exited) = false := by
    rw [List.all_eq_false]
    exact ⟨l, hl, by simpa using hr⟩
  have ht : ((s.threadsOn (coreCluster (groupCore g))).all fun t => (s.thr t).stat == .exited) = false := by
    rw [List.all_eq_false]
    exact ⟨tid g l, List.mem_flatMap.2 ⟨g, bound_groupsOn hb, List.mem_map.2 ⟨l, hl, rfl⟩⟩, by simpa using hr⟩
  unfold State.exited
  rw [hg, Bool.and_false, if_neg Bool.false_ne_true]
  unfold State.arrivals
  dsimp only
  split
  · exact Hears.refl s
  · simp only [ht, Bool.false_eq_true, if_false]
    exact Hears.announce ..

/-! ## GROUP_START (R358, R359) -/

theorem restoring_none {s u : State} {rcb : Nat} (hr : u.regions = s.regions) (h : s.restoring rcb = none) : u.restoring rcb = none := by
  unfold State.restoring at h ⊢
  rw [hr]
  cases hf : s.regions.find? fun x => x.rcb.toNat == rcb with
  | none => rfl
  | some z =>
    simp only [hf] at h ⊢
    split
    · rfl
    · next he =>
      rw [if_neg he] at h
      cases hc : z.clusters with
      | nil => rfl
      | cons c l => rw [hc] at h; exact absurd h (by simp)

/-- The state in which the groups of a workgroup start. -/
def openedFor (s : State) (i base : Nat) (r : W256) : State :=
  let core := groupCore (bindGroup i)
  let c := coreCluster core
  let s := { s with pending := s.pending.filter fun p => !(s.wgRecords i r).any fun q => q.1 == p.1 }
  (s.openWg core base r none).setCl c { s.cl c with ended := false }

theorem openedFor_parts (s : State) (i base : Nat) (r : W256) :
    (openedFor s i base r).mem = s.mem ∧ (openedFor s i base r).sp = s.sp ∧ (openedFor s i base r).threads = s.threads ∧
    (openedFor s i base r).sys = s.sys ∧ (openedFor s i base r).hole = s.hole ∧
    (openedFor s i base r).pending = s.pending.filter (fun p => !(s.wgRecords i r).any fun q => q.1 == p.1) ∧
    (openedFor s i base r).wg (wgKey (groupCore (bindGroup i)) (recWg r)) = ⟨true, base, 256 * recZw r, [], [], []⟩ := by
  refine ⟨?_, ?_, ?_, ?_, ?_, ?_,
    (State.wg_setWg_same s (wgKey (groupCore (bindGroup i)) (recWg r)) ⟨true, base, 256 * recZw r, [], [], []⟩ : _)⟩
  all_goals
    unfold openedFor State.openWg State.dropRange
    rfl

theorem openedFor_stateAt (s : State) (i base j : Nat) (r : W256) : stateAt (openedFor s i base r) j = stateAt s j := by
  obtain ⟨-, -, -, h, -⟩ := openedFor_parts s i base r
  unfold stateAt
  rw [h]

/-- The groups of a workgroup have started, each by itself. -/
def startedGroups (s : State) (i base : Nat) (r : W256) : State :=
  (s.wgRecords i r).foldl (fun u p => u.startFresh p.1 p.2.1 (s.cl (coreCluster (groupCore (bindGroup i)))).res) (openedFor s i base r)

theorem startWg_fresh {s : State} {i base : Nat} {r : W256} (h : s.restoring (recRcb r) = none) :
    s.startWg i base r = (s.wgRecords i r).foldl (fun u p => u.exited (bindGroup p.1)) (startedGroups s i base r) := by
  unfold State.startWg
  dsimp only
  rw [restoring_none (s := s) (u := { s with pending := s.pending.filter fun p => !(s.wgRecords i r).any fun q => q.1 == p.1 }) rfl h]
  rfl

/-- The records of a workgroup name slots of its core. -/
theorem wgRecords_slot {s : State} {i : Nat} {r : W256} {p : Nat × W256 × Option Nat} (h : p ∈ s.wgRecords i r) :
    p.1 < 4096 ∧ groupCore (bindGroup p.1) = groupCore (bindGroup i) := by
  have := List.of_mem_filter h
  simp only [Bool.and_eq_true, beq_iff_eq, decide_eq_true_eq] at this
  exact ⟨this.1.2, this.1.1⟩

/-- A workgroup starts once its records are due. -/
theorem groupStart_due {s : State} {rec : BitVec 12} {base : Nat} {r : W256} {since : Option Nat}
    (hf : (s.pending.find? fun p => p.1 == rec.toNat) = some (rec.toNat, r, since))
    (ho : (s.cl (coreCluster (groupCore (bindGroup rec.toNat)))).region = some (r.extractLsb' 0 48))
    (hd : ∀ p ∈ s.wgRecords rec.toNat r, ∀ n, p.2.2 = some n → n < (s.cl (coreCluster (groupCore (bindGroup rec.toNat)))).phase)
    (hw : s.wgReady rec.toNat r = true) (hb : s.roomAt (groupCore (bindGroup rec.toNat)) base (256 * recZw r) = true) :
    exec (.groupStart rec base) s = ((s.startWg rec.toNat base r).announce (coreCluster (groupCore (bindGroup rec.toNat)))).out := by
  have own : ((s.cl (coreCluster (groupCore (bindGroup rec.toNat)))).region.any fun x => x.toNat == recRcb r) = true := by
    rw [region_any, ho]; simp
  have due : ((s.wgRecords rec.toNat r).all fun p =>
      p.2.2.all fun n => decide (n < (s.cl (coreCluster (groupCore (bindGroup rec.toNat)))).phase)) = true := by
    rw [List.all_eq_true]
    intro p hp
    have := hd p hp
    cases hn : p.2.2 with
    | none => rfl
    | some n => exact decide_eq_true (this n hn)
  rw [exec_groupStart]
  unfold execGroupStart
  simp only [hf, own, due, hw, hb, Bool.true_or, Bool.and_self, if_true]

/-- What GROUP_START leaves, but for announcements. -/
theorem groupStart_started {s : State} {rec : BitVec 12} {base : Nat} {r : W256} {since : Option Nat} (hh : s.hole = false)
    (hf : (s.pending.find? fun p => p.1 == rec.toNat) = some (rec.toNat, r, since))
    (ho : (s.cl (coreCluster (groupCore (bindGroup rec.toNat)))).region = some (r.extractLsb' 0 48))
    (hd : ∀ p ∈ s.wgRecords rec.toNat r, ∀ n, p.2.2 = some n → n < (s.cl (coreCluster (groupCore (bindGroup rec.toNat)))).phase)
    (hw : s.wgReady rec.toNat r = true) (hb : s.roomAt (groupCore (bindGroup rec.toNat)) base (256 * recZw r) = true)
    (hre : s.restoring (recRcb r) = none) (hn : (s.wgRecords rec.toNat r).Pairwise fun a b => a.1 ≠ b.1)
    (hl : ∀ p ∈ s.wgRecords rec.toNat r, recNode p.2.1 = false ∧ (∃ k < 32, p.2.1.getLsbD (192 + k) = true) ∧
      physOkN (stateAt s p.1) 1 = true) :
    StartedAll (openedFor s rec.toNat base r) (startedGroups s rec.toNat base r) (s.wgRecords rec.toNat r)
      (s.cl (coreCluster (groupCore (bindGroup rec.toNat)))).res ∧
    ∃ u, exec (.groupStart rec base) s = .next u ∧ Hears (startedGroups s rec.toNat base r) u := by
  have a : StartedAll (openedFor s rec.toNat base r) (startedGroups s rec.toNat base r) (s.wgRecords rec.toNat r)
      (s.cl (coreCluster (groupCore (bindGroup rec.toNat)))).res :=
    startFresh_all hn fun p hp => ⟨(wgRecords_slot hp).1, (hl p hp).1, by rw [openedFor_stateAt]; exact (hl p hp).2.2⟩
  have b : Hears (startedGroups s rec.toNat base r)
      ((s.startWg rec.toNat base r).announce (coreCluster (groupCore (bindGroup rec.toNat)))) := by
    refine Hears.trans ?_ (Hears.announce ..)
    rw [startWg_fresh hre]
    generalize startedGroups s rec.toNat base r = v at a ⊢
    refine State.foldl_keeps (fun u => Hears v u) _ _ _ (Hears.refl _) fun u hu p hp => hu.trans ?_
    obtain ⟨-, ⟨k, hk, hkr⟩, -⟩ := hl p hp
    have hlt := (wgRecords_slot hp).1
    have hg : u.grp (bindGroup p.1) = _ := (congrArg (fun v : State => v.grp (bindGroup p.1)) hu.1 : _).trans (a.grp p hp)
    have ht : u.thr (tid (bindGroup p.1) k) = _ :=
      (congrArg (fun v : State => v.thr (tid (bindGroup p.1) k)) hu.1 : _).trans (a.lane p hp k hk)
    refine exited_hears (l := k) (by rw [hg]; rfl) (by rw [bindGroup_lanes hlt]; exact List.mem_range.2 hk) ?_
    rw [ht, (startedThread_new hkr).stat]
    decide
  refine ⟨a, _, ?_, b⟩
  rw [groupStart_due hf ho hd hw hb]
  obtain ⟨-, -, -, -, ho, -⟩ := openedFor_parts s rec.toNat base r
  generalize startedGroups s rec.toNat base r = v at a b
  generalize openedFor s rec.toNat base r = o at a ho
  generalize (s.startWg rec.toNat base r).announce (coreCluster (groupCore (bindGroup rec.toNat))) = u at b ⊢
  have hr := a.rest
  obtain ⟨hb, -⟩ := b
  exact out_next (((congrArg State.hole hb : _).trans (congrArg State.hole hr : _)).trans (ho.trans hh))

/-- GROUP_START starts every group of a ready workgroup (R43, R358, R359). -/
theorem groupStart_next {s : State} {rec : BitVec 12} {base : Nat} {r : W256} {since : Option Nat} (hh : s.hole = false)
    (hf : (s.pending.find? fun p => p.1 == rec.toNat) = some (rec.toNat, r, since))
    (ho : (s.cl (coreCluster (groupCore (bindGroup rec.toNat)))).region = some (r.extractLsb' 0 48))
    (hd : ∀ p ∈ s.wgRecords rec.toNat r, ∀ n, p.2.2 = some n → n < (s.cl (coreCluster (groupCore (bindGroup rec.toNat)))).phase)
    (hw : s.wgReady rec.toNat r = true) (hb : s.roomAt (groupCore (bindGroup rec.toNat)) base (256 * recField r 125 112) = true)
    (hre : s.restoring (recField r 47 0) = none) (hn : (s.wgRecords rec.toNat r).Pairwise fun a b => a.1 ≠ b.1)
    (hl : ∀ p ∈ s.wgRecords rec.toNat r, p.2.1.getLsbD 176 = false ∧ (∃ k < 32, p.2.1.getLsbD (192 + k) = true) ∧
      physOkN (stateAt s p.1) 1 = true) :
    ∃ u, exec (.groupStart rec base) s = .next u ∧ u.sp = s.sp ∧
      StateWritten s.mem u.mem ((s.wgRecords rec.toNat r).map fun p => stateAt s p.1) 2#3 ∧
      u.wg (wgKey (groupCore (bindGroup rec.toNat)) (recField r 255 224)) = ⟨true, base, 256 * recField r 125 112, [], [], []⟩ ∧
      u.pending = s.pending.filter (fun p => !(s.wgRecords rec.toNat r).any fun q => q.1 == p.1) ∧
      (∀ p ∈ s.wgRecords rec.toNat r, (u.grp (bindGroup p.1)).bound = true ∧ (u.grp (bindGroup p.1)).bind = p.2.1 ∧
        (u.grp (bindGroup p.1)).pp = (s.cl (coreCluster (groupCore (bindGroup rec.toNat)))).res.pp ∧
        (u.grp (bindGroup p.1)).sc = (s.cl (coreCluster (groupCore (bindGroup rec.toNat)))).res.sc ∧
        (∀ k, mget MVal.zero (u.grp (bindGroup p.1)).m k = MVal.zero) ∧
        ∀ k < 32,
          (p.2.1.getLsbD (192 + k) = true → NewThread (u.thr (tid (bindGroup p.1) k)) (tid (bindGroup p.1) k) k p.2.1) ∧
          (p.2.1.getLsbD (192 + k) = false → (u.thr (tid (bindGroup p.1) k)).stat = .exited)) ∧
      ∀ t, (∀ p ∈ s.wgRecords rec.toNat r, ∀ k < 32, t ≠ tid (bindGroup p.1) k) → u.thr t = s.thr t := by
  have hz : recZw r = recField r 125 112 := recField_eq r 125 112
  have hwg : recWg r = recField r 255 224 := recField_eq r 255 224
  obtain ⟨a, u, e, hu, -⟩ := groupStart_started (base := base) hh hf ho hd hw (by rw [hz]; exact hb) hre hn hl
  obtain ⟨om, osp, oth, -, -, op, ow⟩ := openedFor_parts s rec.toNat base r
  have ost := openedFor_stateAt s rec.toNat base (r := r)
  generalize startedGroups s rec.toNat base r = v at a hu
  generalize openedFor s rec.toNat base r = o at a om osp oth op ow ost
  have hr := a.rest
  have othr : ∀ t, o.thr t = s.thr t := fun t => by unfold State.thr; rw [oth]
  have hthr : ∀ t, u.thr t = v.thr t := fun t => (congrArg (fun v : State => v.thr t) hu : _)
  have hgrp : ∀ g, u.grp g = v.grp g := fun g => (congrArg (fun v : State => v.grp g) hu : _)
  refine ⟨u, e, (congrArg State.sp hu : _).trans ((congrArg State.sp hr : _).trans osp), ?_, ?_,
    (congrArg State.pending hu : _).trans ((congrArg State.pending hr : _).trans op), fun p hp => ?_,
    fun t ht => (hthr t).trans ((a.other t ht).trans (othr t))⟩
  · have hm : u.mem = v.mem := (congrArg State.mem hu : _)
    have := a.mem
    rw [om, List.map_congr_left fun p _ => ost p.1] at this
    rw [hm]
    exact this
  · rw [← hwg, ← hz]
    exact (congrArg (fun v : State => v.wg _) hu : _).trans ((congrArg (fun v : State => v.wg _) hr : _).trans ow)
  · rw [hgrp, a.grp p hp]
    refine ⟨rfl, rfl, rfl, rfl, fun k => rfl, fun k hk => ?_⟩
    rw [hthr, a.lane p hp k hk]
    exact ⟨startedThread_new, startedThread_exited⟩

/-! ## Beginning a region on a cluster (R192, R245, R359) -/

theorem mget_mclear {α : Type} (d : α) (m : FMap α) (lo hi k : Nat) :
    mget d (mclear m lo hi) k = if lo ≤ k ∧ k < hi then d else mget d m k := by
  induction m with
  | nil => simp [mclear, mget]
  | cons e m ih =>
    obtain ⟨j, v⟩ := e
    have hc : mclear ((j, v) :: m) lo hi = if lo ≤ j ∧ j < hi then mclear m lo hi else (j, v) :: mclear m lo hi := by
      by_cases h : lo ≤ j ∧ j < hi
      · simp [mclear, h]
      · rw [if_neg h]
        simp only [mclear]
        rw [List.filter_cons_of_pos]
        simp only [Bool.not_eq_true', Bool.and_eq_false_iff, decide_eq_false_iff_not]
        omega
    rw [hc]
    by_cases h : lo ≤ j ∧ j < hi
    · rw [if_pos h, ih]
      by_cases hk : k = j
      · rw [hk, if_pos h, if_pos h]
      · simp [mget, hk]
    · rw [if_neg h]
      by_cases hk : k = j
      · rw [hk, if_neg h]; simp [mget]
      · simp only [mget, if_neg hk, ih]

/-- The places of the cluster share in the slices. -/
def sharePlaces (bases : List Nat) : FMap Nat := (List.range 16).foldl (fun m k => mset 0 m k (bases.getD k 0)) []

theorem mget_foldl_mset {α β : Type} [DecidableEq β] (d : β) (key : α → Nat) (f : α → β) (l : List α) (m : FMap β)
    {a : α} (ha : a ∈ l)
    (inj : ∀ b ∈ l, key b = key a → f b = f a) : mget d (l.foldl (fun m a => mset d m (key a) (f a)) m) (key a) = f a := by
  have stays : ∀ (l : List α) (m : FMap β), (∀ b ∈ l, key b = key a → f b = f a) → mget d m (key a) = f a →
      mget d (l.foldl (fun m a => mset d m (key a) (f a)) m) (key a) = f a := fun l m hl h0 =>
    State.foldl_keeps (fun m : FMap β => mget d m (key a) = f a) _ l m h0 fun m hm b hb => by
      rw [mget_mset]
      split
      · next e => exact hl b hb e.symm
      · exact hm
  induction l generalizing m with
  | nil => simp at ha
  | cons b l ih =>
    rw [List.foldl_cons]
    rcases List.mem_cons.1 ha with rfl | ha
    · exact stays l _ (fun c hc => inj c (List.mem_cons_of_mem _ hc)) (mget_mset_same ..)
    · exact ih _ ha fun c hc => inj c (List.mem_cons_of_mem _ hc)

theorem mget_foldl_mset_other {α β : Type} [DecidableEq β] (d : β) (key : α → Nat) (f : α → β) (l : List α) (m : FMap β) {k : Nat}
    (h : ∀ a ∈ l, key a ≠ k) : mget d (l.foldl (fun m a => mset d m (key a) (f a)) m) k = mget d m k :=
  State.foldl_keeps (fun u : FMap β => mget d u k = mget d m k) _ l m rfl fun u hu a ha => by
    rw [mget_mset_other d _ _ (h a ha).symm, hu]

theorem sharePlaces_get (bases : List Nat) {k : Nat} (hk : k < 16) : mget 0 (sharePlaces bases) k = bases.getD k 0 :=
  mget_foldl_mset 0 id (fun k => bases.getD k 0) (List.range 16) [] (List.mem_range.2 hk) fun b _ e => by rw [show b = k from e]

/-- Everything but the courses. -/
def butCourses (s : State) : State := { s with courses := [] }

theorem resetCourses_eq (s : State) (c : Nat) (rst : Bool) : butCourses (s.resetCourses c rst) = butCourses s ∧
    ∀ n < 8, (s.resetCourses c rst).course (8 * c + n) = { Course.zero with rst := rst, retired := (s.course (8 * c + n)).retired } := by
  refine ⟨State.foldl_keeps (fun u : State => butCourses u = butCourses s) _ _ _ rfl fun u hu n _ => hu, ?_⟩
  have key : ∀ (l : List Nat) (u : State), l.Nodup → ∀ n, n ∈ l →
      (l.foldl (fun s n => s.setCourse (8 * c + n) { Course.zero with rst := rst, retired := (s.course (8 * c + n)).retired }) u).course
        (8 * c + n) = { Course.zero with rst := rst, retired := (u.course (8 * c + n)).retired } := by
    intro l
    induction l with
    | nil => exact fun _ _ n h => by simp at h
    | cons m l ih =>
      intro u hn n hm
      rw [List.nodup_cons] at hn
      rw [List.foldl_cons]
      rcases List.mem_cons.1 hm with rfl | hm
      · refine (State.foldl_keeps (fun v : State => v.course (8 * c + n) =
          { Course.zero with rst := rst, retired := (u.course (8 * c + n)).retired }) _ _ _ (State.course_setCourse_same ..) ?_)
        intro v hv k hk
        have : n ≠ k := fun e => hn.1 (e ▸ hk)
        rw [State.course_setCourse_other _ _ (by omega), hv]
      · have : n ≠ m := fun e => hn.1 (e ▸ hm)
        rw [ih _ hn.2 n hm, State.course_setCourse_other _ _ (by omega)]
  exact fun n hn => key _ s List.nodup_range n (List.mem_range.2 hn)

/-- Whether a cluster passes to another fault domain (R359). -/
def passes (s : State) (c : Nat) (x : Resolved) : Bool := (s.cl c).fdomLast.any fun f => f != x.fdom

/-- Everything but what the beginning of a region on a cluster changes. -/
def butBegin (s : State) : State := { s with sp := [], clusters := [], courses := [], regions := [], writes := [] }

theorem butBegin_setCl (s : State) (c : Nat) (x : Cluster) : butBegin (s.setCl c x) = butBegin s := by
  unfold butBegin State.setCl
  rfl

theorem butBegin_regions (s : State) (l : List Region) : butBegin { s with regions := l } = butBegin s := by
  unfold butBegin
  rfl

theorem butBegin_of_butCourses {s u : State} (h : butCourses u = butCourses s) : butBegin u = butBegin s := (congrArg butBegin h : _)

/-- A cluster on which a region begins. -/
def begunCl (y : Cluster) (rcb : BitVec 48) (phase : Nat) (x : Resolved) (bases : List Nat) : Cluster :=
  { Cluster.reset with
    region := some rcb, res := x, phase := phase, fdomLast := some x.fdom, retired := y.retired, stopped := y.stopped
    zs := 256 * x.zs, share := sharePlaces bases }

/-- WHAT THE BEGINNING OF A REGION ON ITS FIRST CLUSTER CHANGES (R258, R359). -/
structure Begun (s u : State) (c : Nat) (rcb : BitVec 48) (phase : Nat) (x : Resolved) (bases : List Nat) (rst : Bool) : Prop where
  rest : butBegin u = butBegin s
  cl : u.cl c = begunCl (s.cl c) rcb phase x bases
  course : ∀ n < 8, u.course (8 * c + n) = { Course.zero with rst := rst, retired := (s.course (8 * c + n)).retired }
  regions : u.regions = s.regions ++ [⟨rcb, [c], none, s.cycle, [], false, none, false⟩]
  kept : passes s c x = false → u.sp = s.sp
  zeroed : passes s c x = true → ∀ A, Memory.byte u.sp A =
    if spKey c 0 0 ≤ A ∧ A < spKey c 0 0 + 16 * 0x200000 then 0 else Memory.byte s.sp A

/-- A cluster with what it zeroes as it passes to another fault domain. -/
def passed (s : State) (c : Nat) (x : Resolved) : State := if passes s c x then s.zeroCluster c else s

/-- What the passing of a cluster zeroes (R359). -/
theorem passed_zero (s : State) (c : Nat) (x : Resolved) : butBegin (passed s c x) = butBegin s ∧
    ((passed s c x).cl c).retired = (s.cl c).retired ∧ ((passed s c x).cl c).stopped = (s.cl c).stopped ∧
    (passed s c x).courses = s.courses ∧ (passed s c x).regions = s.regions ∧ (passes s c x = false → (passed s c x).sp = s.sp) ∧
    (passes s c x = true → ∀ A, Memory.byte (passed s c x).sp A =
      if spKey c 0 0 ≤ A ∧ A < spKey c 0 0 + 16 * 0x200000 then 0 else Memory.byte s.sp A) := by
  unfold passed
  split
  · next h =>
    have hc : (s.zeroCluster c).cl c = { s.cl c with kb := [] } := by
      unfold State.zeroCluster
      exact State.cl_setCl_same ..
    exact ⟨rfl, by rw [hc], by rw [hc], rfl, rfl, fun h' => absurd (h.symm.trans h') (by decide), fun _ A => mget_mclear ..⟩
  · next h => exact ⟨rfl, rfl, rfl, rfl, rfl, fun _ => rfl, fun h' => absurd h' h⟩

theorem no_region {s : State} {r : W256} (h : ∀ z ∈ s.regions, z.rcb ≠ r.extractLsb' 0 48) :
    ∀ z ∈ s.regions, (z.rcb.toNat == recRcb r) = false := fun z hz => by
  rw [recRcb_eq, beq_eq_false_iff_ne]
  exact fun e => h z hz (BitVec.eq_of_toNat_eq e)

/-- A cluster joins the set of its region (R359). -/
def joinRegion (s : State) (c rcb : Nat) : State :=
  { s with regions := if s.regions.any fun z => z.rcb.toNat == rcb then
        s.regions.map fun (z : Region) => if z.rcb.toNat == rcb then { z with clusters := z.clusters ++ [c] } else z
      else s.regions ++ [⟨BitVec.ofNat 48 rcb, [c], none, s.cycle, [], false, none, false⟩] }

theorem joinRegion_new {s : State} {c : Nat} {r : W256} (h : ∀ z ∈ s.regions, z.rcb ≠ r.extractLsb' 0 48) :
    joinRegion s c (recRcb r) =
      { s with regions := s.regions ++ [⟨r.extractLsb' 0 48, [c], none, s.cycle, [], false, none, false⟩] } := by
  have hany : (s.regions.any fun z => z.rcb.toNat == recRcb r) = false :=
    List.any_eq_false.2 fun y hy => by rw [no_region h y hy]; decide
  unfold joinRegion
  rw [hany, recRcb_ofNat]
  rfl

theorem beginCluster_parts (s : State) (c rcb phase : Nat) (x : Resolved) (bases : List Nat) (rst : Bool) :
    s.beginCluster c rcb phase x bases rst = joinRegion (((passed s c x).resetCourses c rst).setCl c
      (begunCl (((passed s c x).resetCourses c rst).cl c) (BitVec.ofNat 48 rcb) phase x bases)) c rcb := rfl

theorem beginCluster_begun {s : State} {c phase : Nat} {r : W256} {x : Resolved} {bases : List Nat} {rst : Bool}
    (h : ∀ z ∈ s.regions, z.rcb ≠ r.extractLsb' 0 48) :
    Begun s (s.beginCluster c (recRcb r) phase x bases rst) c (r.extractLsb' 0 48) phase x bases rst := by
  obtain ⟨k, hcs⟩ := resetCourses_eq (passed s c x) c rst
  obtain ⟨hr, h1, h2, h3, h4, h5, h6⟩ := passed_zero s c x
  rw [beginCluster_parts, recRcb_ofNat]
  generalize (passed s c x).resetCourses c rst = z at k hcs ⊢
  generalize passed s c x = q at k hcs hr h1 h2 h3 h4 h5 h6
  have hreg : z.regions = s.regions := (congrArg State.regions k : _).trans h4
  have hcy : z.cycle = s.cycle := (congrArg State.cycle k : _).trans (congrArg State.cycle hr : _)
  have hsp : z.sp = q.sp := (congrArg State.sp k : _)
  have hcl : z.cl c = q.cl c := (congrArg (fun u : State => u.cl c) k : _)
  rw [joinRegion_new (by rw [State.setCl_regions, hreg]; exact h)]
  refine ⟨by rw [butBegin_regions, butBegin_setCl, butBegin_of_butCourses k, hr], ?_, fun n hn => ?_, ?_, fun hp => hsp.trans (h5 hp),
    fun hp A => ?_⟩
  · show (z.setCl c (begunCl (z.cl c) (r.extractLsb' 0 48) phase x bases)).cl c = _
    rw [State.cl_setCl_same, begunCl, hcl, h1, h2]
    rfl
  · refine (hcs n hn).trans ?_
    unfold State.course
    rw [h3]
  · show z.regions ++ [⟨r.extractLsb' 0 48, [c], none, z.cycle, [], false, none, false⟩] = _
    rw [hreg, hcy]
  · show Memory.byte z.sp A = _
    rw [hsp]
    exact h6 hp A

/-! ## REGION_START (R359) -/

theorem bindGroup_bow (c : Nat) : bindGroup (4096 + c) = 16 * (17 * c + 16) := by
  unfold bindGroup
  rw [if_neg (by omega)]
  omega

theorem bow_lanes (c : Nat) : groupLanes (16 * (17 * c + 16)) = [0] := by
  have : isBow (groupCore (16 * (17 * c + 16))) = true := by
    unfold isBow groupCore
    rw [beq_iff_eq]
    omega
  unfold groupLanes
  rw [if_pos this]

/-- Workgroups without a place stay pending. -/
theorem startPending_none (c rcb : Nat) (l : List (Nat × W256 × Option Nat)) (s : State) : State.startPending c rcb l [] s = s := by
  induction l with
  | nil => rfl
  | cons p l ih =>
    obtain ⟨i, r, n⟩ := p
    unfold State.startPending
    split
    · exact ih
    · exact ih

theorem Hears.announceAll (s : State) (rcb : BitVec 48) : Hears s (s.announceAll rcb) :=
  State.foldl_keeps (fun u => Hears s u) _ _ _ (Hears.refl s) fun _ hu c _ => hu.trans (Hears.announce _ c)

/-- The state without the pending record of the bow of a cluster. -/
def bowTaken (s : State) (c : Nat) : State := { s with pending := s.pending.filter fun p => p.1 != 4096 + c }

/-- The bow of a region has started on a cluster. -/
def bowStarted (s : State) (c : Nat) (r : W256) (x : Resolved) (bases : List Nat) : State :=
  ((bowTaken s c).beginCluster c (recRcb r) 0 x bases false).startFresh (4096 + c) r x

theorem find_region_none {s : State} {r : W256} (h : ∀ z ∈ s.regions, z.rcb ≠ r.extractLsb' 0 48) :
    (s.regions.find? fun z => z.rcb.toNat == recRcb r) = none :=
  List.find?_eq_none.2 fun z hz => by rw [no_region h z hz]; decide

/-- A cluster that no other fault domain holds may begin a region at once (R386, R435). -/
theorem engineBusy_free {s : State} {c : Nat} {f : BitVec 16}
    (h : (s.cl c).fdomLast = none ∨ (s.cl c).fdomLast = some f ∨ ∀ q < 4, ∀ z ∈ s.copies (4 * c + q), z.dead = false) :
    s.engineBusy c f = false := by
  unfold State.engineBusy
  rcases h with h | h | h
  · rw [h]; rfl
  · rw [h]; simp
  · rw [Bool.and_eq_false_iff]
    refine .inr (List.any_eq_false.2 fun q hq => ?_)
    rw [Bool.not_eq_true, List.any_eq_false]
    intro z hz
    rw [h q (List.mem_range.1 hq) z hz]
    decide

theorem sharesOk_of {x : Resolved} {bases : List Nat} (hn : bases.length = 16) (h : ∀ b ∈ bases, b + 256 * x.zs ≤ 0x200000) :
    State.sharesOk x bases = true := by
  unfold State.sharesOk
  rw [List.all_eq_true]
  intro k hk
  have hk := List.mem_range.1 hk
  have : bases.getD k 0 ∈ bases := by
    rw [List.getD_eq_getElem _ _ (by omega)]
    exact List.getElem_mem ..
  exact decide_eq_true (h _ this)

/-- A CLUSTER ON WHICH THE REGION OF A PENDING RECORD MAY BEGIN: it has no region and is in service, no command of another fault domain
still runs there, the region is new, and its shares fit (R359, R386, R435, R438). -/
structure MayBegin (s : State) (c : Nat) (r : W256) (x : Resolved) (bases : List Nat) : Prop where
  record : s.bowRecord c = some r
  free : (s.cl c).region = none
  bow : (s.grp (16 * (17 * c + 16))).bound = false
  serves : (s.cl c).retired = false
  idle : (s.cl c).fdomLast = none ∨ (s.cl c).fdomLast = some x.fdom ∨ ∀ q < 4, ∀ z ∈ s.copies (4 * c + q), z.dead = false
  resolved : s.resolve (r.extractLsb' 0 48).toNat = some x
  new : ∀ z ∈ s.regions, z.rcb ≠ r.extractLsb' 0 48
  count : bases.length = 16
  fit : ∀ b ∈ bases, b + 256 * x.zs ≤ 0x200000

/-- What REGION_START does on a free cluster. -/
theorem regionStart_begins {s : State} {cl : BitVec 4} {r : W256} {x : Resolved} {bases : List Nat}
    (h : MayBegin s cl.toNat r x bases) (hi : s.imageReady x = false) :
    exec (.regionStart cl bases) s =
      (((bowStarted s cl.toNat r x bases).holdPending cl.toNat (recRcb r)).announceAll (r.extractLsb' 0 48)).out := by
  obtain ⟨hb, hr, hg, ht, hf, hx, hz, hn, hs⟩ := h
  have hbow : State.bowOf cl.toNat = 16 * (17 * cl.toNat + 16) := rfl
  have hfirst : s.firstPhase (recRcb r) cl.toNat = 0 := by
    unfold State.firstPhase
    rw [find_region_none hz]
    rfl
  have hapart : s.bowApart (recRcb r) cl.toNat = false := by
    unfold State.bowApart
    rw [find_region_none hz]
  have hdrop : bases.drop 16 = [] := List.drop_eq_nil_of_le hn.le
  rw [← recRcb_eq] at hx
  rw [exec_regionStart]
  unfold execRegionStart
  simp only [hb, hr, hbow, hg, ht, hx, hi, engineBusy_free hf, hapart, sharesOk_of hn hs, hfirst, hdrop, startPending_none, recRcb_ofNat,
    Option.isSome_none, Bool.or_self, Bool.not_true, Bool.false_eq_true, if_false]
  rfl

/-- The records of a region that are still pending wait for the next advance of its cluster (R359). -/
def heldPending (l : List (Nat × W256 × Option Nat)) (c : Nat) (rcb : BitVec 48) (phase : Nat) : List (Nat × W256 × Option Nat) :=
  l.map fun p => if bindCluster p.1 = c ∧ recField p.2.1 47 0 = rcb.toNat ∧ p.2.2 = none then (p.1, p.2.1, some phase) else p

theorem holdPending_eq (s : State) (c : Nat) (r : W256) :
    s.holdPending c (recRcb r) = { s with pending := heldPending s.pending c (r.extractLsb' 0 48) (s.cl c).phase } := by
  have : ∀ p : Nat × W256 × Option Nat, (bindCluster p.1 == c && recRcb p.2.1 == recRcb r && p.2.2.isNone) =
      decide (bindCluster p.1 = c ∧ recField p.2.1 47 0 = (r.extractLsb' 0 48).toNat ∧ p.2.2 = none) := fun p => by
    rw [← recRcb_eq, ← recField_eq p.2.1 47 0, Bool.eq_iff_iff]
    simp only [Bool.and_eq_true, beq_iff_eq, Option.isNone_iff_eq_none, decide_eq_true_eq, and_assoc]
    rfl
  unfold State.holdPending heldPending
  simp only [this, decide_eq_true_eq]

theorem stateAt_of_begin {s u : State} {i : Nat} (h : butBegin u = butBegin s) : stateAt u i = stateAt s i :=
  (congrArg (fun u : State => stateAt u i) h : _)

/-- What REGION_START leaves, but for announcements. -/
theorem bowStarted_parts {s : State} {c : Nat} {r : W256} {x : Resolved} {bases : List Nat}
    (hz : ∀ z ∈ s.regions, z.rcb ≠ r.extractLsb' 0 48) (hn : recNode r = false) (hp : physOkN (stateAt s (4096 + c)) 1 = true) :
    ∃ w, Begun (bowTaken s c) w c (r.extractLsb' 0 48) 0 x bases false ∧ Started w (bowStarted s c r x bases) (4096 + c) r x := by
  have b := beginCluster_begun (s := bowTaken s c) (c := c) (phase := 0) (x := x) (bases := bases) (rst := false) hz
  refine ⟨_, b, startFresh_started hn ?_⟩
  rw [stateAt_of_begin b.rest]
  exact hp

/-- REGION_START begins the region and starts its bow (R43, R359). -/
theorem regionStart_next {s : State} {cl : BitVec 4} {r : W256} {x : Resolved} {bases : List Nat} (hh : s.hole = false)
    (h : MayBegin s cl.toNat r x bases) (hl : r.getLsbD 192 = true) (hnode : r.getLsbD 176 = false)
    (hp : physOkN (stateAt s (4096 + cl.toNat)) 1 = true) (hi : s.imageReady x = false) :
    let c := cl.toNat
    let bow := 16 * (17 * c + 16)
    let rcb := r.extractLsb' 0 48
    ∃ u, exec (.regionStart cl bases) s = .next u ∧ StateWritten s.mem u.mem [stateAt s (4096 + c)] 2#3 ∧
      (u.cl c).region = some rcb ∧ (u.cl c).res = x ∧ (u.cl c).phase = 0 ∧ (u.cl c).zs = 256 * x.zs ∧ (u.cl c).ended = false ∧
      (∀ k < 16, mget 0 (u.cl c).share k = bases.getD k 0) ∧
      (∀ n < 8, u.course (8 * c + n) = { Course.zero with retired := (s.course (8 * c + n)).retired }) ∧
      (u.cl c).kb = [] ∧ (((s.cl c).fdomLast = none ∨ (s.cl c).fdomLast = some x.fdom) → u.sp = s.sp) ∧
      (∀ f, (s.cl c).fdomLast = some f → f ≠ x.fdom →
        ∀ A, Memory.byte u.sp A = if spKey c 0 0 ≤ A ∧ A < spKey c 0 0 + 16 * 0x200000 then 0 else Memory.byte s.sp A) ∧
      u.regions = s.regions ++ [⟨rcb, [c], none, s.cycle, [], false, none, false⟩] ∧
      u.pending = heldPending (s.pending.filter fun p => p.1 != 4096 + c) c rcb 0 ∧
      (u.grp bow).bound = true ∧ (u.grp bow).bind = r ∧ NewThread (u.thr (tid bow 0)) (tid bow 0) 0 r ∧
      ∀ t, t ≠ tid bow 0 → u.thr t = s.thr t := by
  intro c bow rcb
  have e := regionStart_begins h hi
  obtain ⟨w, b, a⟩ := bowStarted_parts (x := x) (bases := bases) h.new hnode hp
  rw [holdPending_eq] at e
  generalize bowStarted s cl.toNat r x bases = v at e a
  let v' : State := { v with pending := heldPending v.pending c rcb (v.cl c).phase }
  have hu := Hears.announceAll v' rcb
  generalize hU : v'.announceAll rcb = u at hu
  obtain ⟨hv, hc⟩ := hu
  have hvb := a.rest
  have hwb := b.rest
  have hole : u.hole = false :=
    (congrArg State.hole hv : _).trans ((congrArg State.hole hvb : _).trans ((congrArg State.hole hwb : _).trans hh))
  have hcl : v.cl c = begunCl (s.cl c) rcb 0 x bases := (congrArg (fun u : State => u.cl c) hvb : _).trans b.cl
  have hcu : ∃ h, u.cl c = { begunCl (s.cl c) rcb 0 x bases with heard := h } := by
    obtain ⟨h, eh⟩ := hc c
    exact ⟨h, by rw [eh]; exact congrArg (fun y : Cluster => { y with heard := h }) hcl⟩
  obtain ⟨heard, hcu⟩ := hcu
  have hsp : u.sp = w.sp := (congrArg State.sp hv : _).trans (congrArg State.sp hvb : _)
  have hbow : bindGroup (4096 + c) = bow := bindGroup_bow c
  have hgrp : u.grp bow = boundGroup (4096 + c) r x := by
    have : v.grp bow = _ := a.grp bow
    rw [hbow, if_pos rfl] at this
    exact (congrArg (fun z : State => z.grp bow) hv : _).trans this
  have hthr : ∀ t, u.thr t = v.thr t := fun t => (congrArg (fun z : State => z.thr t) hv : _)
  have hwthr : ∀ t, w.thr t = s.thr t := fun t => (congrArg (fun z : State => z.thr t) hwb : _)
  have hlanes : groupLanes (bindGroup (4096 + c)) = [0] := by rw [hbow]; exact bow_lanes c
  have course : ∀ n < 8, u.course (8 * c + n) = { Course.zero with retired := (s.course (8 * c + n)).retired } := fun n hn =>
    (congrArg (fun z : State => z.course (8 * c + n)) hv : _).trans
      ((congrArg (fun z : State => z.course (8 * c + n)) hvb : _).trans (b.course n hn))
  have regions : u.regions = s.regions ++ [⟨rcb, [c], none, s.cycle, [], false, none, false⟩] :=
    (congrArg State.regions hv : _).trans ((congrArg State.regions hvb : _).trans b.regions)
  have mem : StateWritten s.mem u.mem [stateAt s (4096 + c)] 2#3 := by
    have h1 : u.mem = stateMem w (4096 + c) 2 := (congrArg State.mem hv : _).trans a.mem
    have h2 : w.mem = s.mem := (congrArg State.mem hwb : _)
    have h3 : stateAt w (4096 + c) = stateAt s (4096 + c) := (stateAt_of_begin hwb : _)
    have := stateMem_written w (4096 + c) 2
    rw [h2, h3] at this
    rw [h1]
    exact this
  have pending : u.pending = heldPending (s.pending.filter fun p => p.1 != 4096 + c) c rcb 0 := by
    have h1 : u.pending = heldPending v.pending c rcb (v.cl c).phase := (congrArg State.pending hv : _)
    have h2 : v.pending = s.pending.filter fun p => p.1 != 4096 + c := (congrArg State.pending hvb : _).trans (congrArg State.pending hwb : _)
    rw [h1, h2, hcl]
    rfl
  have lane : u.thr (tid bow 0) = startedThread w.cycle (tid bow 0) 0 r := by
    have := a.lane 0 (by rw [hlanes]; exact List.mem_singleton_self 0)
    rw [hbow] at this
    exact (hthr _).trans this
  have other : ∀ t, t ≠ tid bow 0 → u.thr t = s.thr t := fun t h => by
    refine (hthr t).trans ((a.other t fun l hl => ?_).trans (hwthr t))
    rw [hlanes, List.mem_singleton] at hl
    rw [hl, hbow]
    exact h
  have kept : passes (bowTaken s c) c x = false → u.sp = s.sp := fun h => hsp.trans (b.kept h)
  have zeroed : passes (bowTaken s c) c x = true → ∀ A, Memory.byte u.sp A =
      if spKey c 0 0 ≤ A ∧ A < spKey c 0 0 + 16 * 0x200000 then 0 else Memory.byte s.sp A := fun h A => by
    rw [hsp]
    exact b.zeroed h A
  have hpass : passes (bowTaken s c) c x = (s.cl c).fdomLast.any fun f => f != x.fdom := rfl
  refine ⟨u, e.trans ((congrArg State.out hU).trans (out_next hole)), mem, ?_⟩
  rw [hcu, hgrp]
  refine ⟨rfl, rfl, rfl, rfl, rfl, fun k hk => sharePlaces_get bases hk, course, rfl, fun h => kept ?_, fun f h1 h2 => zeroed ?_, regions,
    pending, rfl, rfl, lane ▸ startedThread_new hl, other⟩
  · rw [hpass]
    rcases h with h | h <;> rw [h] <;> simp
  · rw [hpass, h1]
    simpa using h2

/-! ## Writes of the scratchpad that wake nobody (R394) -/

/-- Everything but the scratchpad and what is known of writes. -/
def butSp (s : State) : State := { s with sp := [], writes := [] }

theorem zeroSp_butSp (s : State) (k n : Nat) : butSp (s.zeroSp k n) = butSp s := by
  unfold State.zeroSp State.dropRange butSp
  rfl

/-- Where nobody waits for a place of the scratchpad, no write of one wakes anyone (R193, R337). -/
theorem wakeSp_none {lo n : Nat} {l : List Sleeper}
    (h : ∀ z ∈ l, (∀ a w v d sc, z.kind ≠ .waita a w v d sc) ∧ ∀ a b d, z.kind ≠ .ringwait a b d)
    (s : State) : State.wakeSp lo n s l = s := by
  induction l with
  | nil => rfl
  | cons z l ih =>
    obtain ⟨h1, h2⟩ := h z List.mem_cons_self
    unfold State.wakeSp
    split
    · next e => exact (h1 _ _ _ _ _ e).elim
    · next e => exact (h2 _ _ _ e).elim
    · exact ih fun y hy => h y (List.mem_cons_of_mem _ hy)

theorem spPut_butSp {s : State} (h : NoneAsleepSp s) (k : Nat) (b : List Byte) : butSp (s.spPut k b) = butSp s := by
  unfold State.spPut
  dsimp only
  rw [wakeSp_none h]
  unfold butSp
  rfl

theorem NoneAsleepSp.congr {s u : State} (h : butSp u = butSp s) (hs : NoneAsleepSp s) : NoneAsleepSp u := by
  have : u.sleepers = s.sleepers := (congrArg State.sleepers h : _)
  unfold NoneAsleepSp
  rw [this]
  exact hs

theorem spPuts_butSp {α : Type} (k : State → α → Nat) (b : State → α → List Byte) (l : List α) {s : State} (h : NoneAsleepSp s) :
    butSp (l.foldl (fun s a => s.spPut (k s a) (b s a)) s) = butSp s :=
  State.foldl_keeps (fun u : State => butSp u = butSp s) _ _ _ rfl fun _ hu _ _ => (spPut_butSp (h.congr hu) ..).trans hu

/-! ## A bow that starts from its section (R394) -/

theorem restoreThread_congr {s u : State} (h : u.mem = s.mem) (t : Nat) (z : Section) : u.restoreThread t z = s.restoreThread t z := by
  have : u.rd = s.rd := by
    funext a n
    unfold State.rd
    rw [h]
  unfold State.restoreThread
  rw [this]

/-- A restored thread names no range. -/
theorem restoreThread_ranges (s : State) (t : Nat) (z : Section) : (s.restoreThread t z).live.ranges = [] := rfl

/-- The wait of a restored thread at its `PHASE` (R42). -/
def phaseWait (s : State) (g : Nat) (t : Thread) : Sleeper := ⟨s.nextId, g, 1, t.pc, State.afterPhase t, none, s.cycle, .phase⟩

/-- Everything but what the start of a bow from its section changes. -/
def butSaved (s : State) : State :=
  { s with mem := [], threads := [], groups := [], codes := [], writes := [], sleepers := [], nextId := 0 }

/-- WHAT THE START OF A BOW FROM ITS SECTION CHANGES (R394). -/
structure SavedBow (s u : State) (i : Nat) (z : Section) : Prop where
  rest : butSaved u = butSaved s
  mem : u.mem = stateMem s i 2
  bound : (u.grp (bindGroup i)).bound = true
  lane : u.thr (tid (bindGroup i) 0) = { s.restoreThread (tid (bindGroup i) 0) z with stat := .sleep s.nextId }
  other : ∀ t, t ≠ tid (bindGroup i) 0 → u.thr t = s.thr t
  wait : u.sleepers = s.sleepers ++ [phaseWait s (bindGroup i) (s.restoreThread (tid (bindGroup i) 0) z)]

/-- A matrix register of a group is restored. -/
def matrixRestored (g : Nat) (s : State) (z : Section) : State :=
  s.setGrp g { s.grp g with m := mset MVal.zero (s.grp g).m z.index (s.restoreMatrix z) }

theorem startSaved_parts {s : State} {i : Nat} {r : W256} {x : Resolved} {im : ImageAt} {y : GroupImg} {z : Section}
    (hb : isBow (groupCore (bindGroup i)) = true) (hf : (y.parts.find? fun z => z.kind == 2 && z.index == 0) = some z) :
    s.startSaved i r x im y =
      (let b := (s.clearFor (bindGroup i) x).bindGroupTo i r x
       ((y.parts.filter fun z => z.kind == 3).foldl (matrixRestored (bindGroup i))
         (b.sleepPhase (bindGroup i) 0 (b.restoreThread (tid (bindGroup i) 0) z))).bindState i 2) := by
  have hl : groupLanes (bindGroup i) = [0] := by
    unfold groupLanes
    rw [if_pos hb]
  have same : ∀ (p : Bool) (t : Thread), t.live.ranges = [] → (if p then { t with live := { t.live with ranges := [] } } else t) = t := by
    intro p t ht
    split
    · rw [← ht]
    · rfl
  unfold State.startSaved
  simp only [hl, hb, List.foldl_cons, List.foldl_nil, hf, Bool.false_and, show (true == false) = false from rfl, List.filter_false,
    List.map_nil]
  rw [same _ _ (restoreThread_ranges ..)]
  rfl

/-- Everything but the groups. -/
def butGroups (s : State) : State := { s with groups := [] }

theorem matricesRestored {g : Nat} (l : List Section) {s : State} (hb : (s.grp g).bound = true) :
    butGroups (l.foldl (matrixRestored g) s) = butGroups s ∧ ((l.foldl (matrixRestored g) s).grp g).bound = true := by
  refine State.foldl_keeps (fun u : State => butGroups u = butGroups s ∧ (u.grp g).bound = true) _ _ _ ⟨rfl, hb⟩ fun u hu z _ => ?_
  obtain ⟨h1, h2⟩ := hu
  unfold matrixRestored
  refine ⟨?_, by rw [State.grp_setGrp_same]; exact h2⟩
  rw [← h1]
  unfold butGroups State.setGrp
  rfl

/-- The thread of a bow in the sleeping wait of its `PHASE` (R42). -/
theorem sleepPhase_parts (s : State) (g : Nat) (t : Thread) : butSaved (s.sleepPhase g 0 t) = butSaved s ∧
    (s.sleepPhase g 0 t).groups = s.groups ∧ (s.sleepPhase g 0 t).mem = s.mem ∧
    (s.sleepPhase g 0 t).sleepers = s.sleepers ++ [phaseWait s g t] ∧
    (s.sleepPhase g 0 t).thr (tid g 0) = { t with stat := .sleep s.nextId } ∧
    ∀ j, j ≠ tid g 0 → (s.sleepPhase g 0 t).thr j = s.thr j :=
  ⟨rfl, rfl, rfl, rfl,
    (State.thr_setThr_same ({ s with nextId := s.nextId + 1 } : State) (tid g 0) { t with stat := .sleep s.nextId } : _),
    fun _ hj => (State.thr_setThr_other ({ s with nextId := s.nextId + 1 } : State) { t with stat := .sleep s.nextId } hj : _)⟩

theorem startSaved_bow {s : State} {i : Nat} {r : W256} {x : Resolved} {im : ImageAt} {y : GroupImg} {z : Section}
    (hb : isBow (groupCore (bindGroup i)) = true) (hf : (y.parts.find? fun z => z.kind == 2 && z.index == 0) = some z)
    (hp : physOkN (stateAt s i) 1 = true) : SavedBow s (s.startSaved i r x im y) i z := by
  have e := startSaved_parts (s := s) (r := r) (x := x) (im := im) hb hf
  dsimp only at e
  rw [bindGroupTo_eq] at e
  have hk := clearFor_known s (bindGroup i) x
  generalize s.clearFor (bindGroup i) x = k at e hk
  generalize hB : k.setGrp (bindGroup i) (boundGroup i r x) = b at e
  have hbb : (b.grp (bindGroup i)).bound = true := by rw [← hB, State.grp_setGrp_same]; rfl
  have hbk : butGroups b = butGroups k := by rw [← hB]; unfold butGroups State.setGrp; rfl
  have hmem : b.mem = s.mem := (congrArg State.mem hbk : _).trans (congrArg State.mem hk : _)
  rw [restoreThread_congr hmem] at e
  have hpw : phaseWait b (bindGroup i) (s.restoreThread (tid (bindGroup i) 0) z) =
      phaseWait s (bindGroup i) (s.restoreThread (tid (bindGroup i) 0) z) := by
    have h1 : b.nextId = s.nextId := (congrArg State.nextId hbk : _).trans (congrArg State.nextId hk : _)
    have h2 : b.cycle = s.cycle := (congrArg State.cycle hbk : _).trans (congrArg State.cycle hk : _)
    unfold phaseWait
    rw [h1, h2]
  have hid : b.nextId = s.nextId := (congrArg State.nextId hbk : _).trans (congrArg State.nextId hk : _)
  have hsl : b.sleepers = s.sleepers := (congrArg State.sleepers hbk : _).trans (congrArg State.sleepers hk : _)
  have hbs : butSaved b = butSaved s := (congrArg butSaved hbk : _).trans (congrArg butSaved hk : _)
  have hbt : ∀ j, b.thr j = s.thr j := fun j =>
    (congrArg (fun u : State => u.thr j) hbk : _).trans (congrArg (fun u : State => u.thr j) hk : _)
  -- the thread sleeps
  obtain ⟨hab, hag, ham, has, hat, hao⟩ := sleepPhase_parts b (bindGroup i) (s.restoreThread (tid (bindGroup i) 0) z)
  rw [hpw, hsl] at has
  rw [hid] at hat
  generalize b.sleepPhase (bindGroup i) 0 (s.restoreThread (tid (bindGroup i) 0) z) = a at e hab hag ham has hat hao
  have habd : (a.grp (bindGroup i)).bound = true := by unfold State.grp; rw [hag]; exact hbb
  -- the matrix registers are restored
  obtain ⟨hm, hmb⟩ := matricesRestored (y.parts.filter fun z => z.kind == 3) habd
  generalize (y.parts.filter fun z => z.kind == 3).foldl (matrixRestored (bindGroup i)) a = m at e hm hmb
  have hms : butSaved m = butSaved s := (congrArg butSaved hm : _).trans (hab.trans hbs)
  have hst : stateAt m i = stateAt s i := (congrArg (fun u : State => stateAt u i) hms : _)
  have hmm : m.mem = s.mem := (congrArg State.mem hm : _).trans (ham.trans hmem)
  rw [show m.bindState i 2 = { m with mem := stateMem m i 2 } from bindState_eq 2#3 (by rw [hst]; exact hp)] at e
  rw [e]
  refine ⟨hms, ?_, hmb, (congrArg (fun u : State => u.thr _) hm : _).trans hat,
    fun j hj => (congrArg (fun u : State => u.thr j) hm : _).trans ((hao j hj).trans (hbt j)), (congrArg State.sleepers hm : _).trans has⟩
  show stateMem m i 2 = stateMem s i 2
  unfold stateMem
  rw [hst, hmm]

/-! ## REGION_RESUME (R394) -/

/-- Where no latent error stands, none is met (R388). -/
theorem latentAt_none {s : State} (h : s.latent = []) (p : Phys) (n : Nat) : s.latentAt p n = none := by
  unfold State.latentAt
  rw [h]
  rfl

/-- The cluster share of a resumed region: zero but for the ranges of its sections (R38, R394). -/
def sharesRestored (s : State) (c : Nat) (x : Resolved) (im : ImageAt) (y : GroupImg) : State :=
  let s := (List.range 16).foldl (fun s k => s.zeroSp (spKey c k (mget 0 (s.cl c).share k)) (256 * x.zs)) s
  (im.ranges.filter fun z => bitAt (s.rd z.place 8) 29 && z.clus == y.clus).foldl (fun s z =>
    s.spPut (spKey c (bits (s.rd z.place 8) 24 21) (mget 0 (s.cl c).share (bits (s.rd z.place 8) 24 21) + bits (s.rd z.place 8) 20 0))
      (Memory.bytes s.mem (z.place + 8) (z.len - 8))) s

theorem sharesRestored_butSp {s : State} (h : NoneAsleepSp s) (c : Nat) (x : Resolved) (im : ImageAt) (y : GroupImg) :
    butSp (sharesRestored s c x im y) = butSp s := by
  have hz : butSp ((List.range 16).foldl (fun s k => s.zeroSp (spKey c k (mget 0 (s.cl c).share k)) (256 * x.zs)) s) = butSp s :=
    State.foldl_keeps (fun u : State => butSp u = butSp s) _ _ _ rfl fun _ hu _ _ => (zeroSp_butSp ..).trans hu
  exact (spPuts_butSp _ _ _ (h.congr hz)).trans hz

/-- The mark of an edited region is set in its control block (R354). -/
theorem markEdited_eq {s : State} {rcb : BitVec 48} (h : physOkN (rcb.toNat + 56) 1 = true) :
    ∃ m e, s.markEdited rcb = { s with mem := m, edited := e } :=
  ⟨_, _, wr_eq h _⟩

/-- What a region still has to restore (R394). -/
def regionLeft (s : State) (rcb : Nat) (left : List Nat) (phase : Nat) : State :=
  s.modRegion rcb fun z => { z with resuming := left, image := some phase }

/-- What is left after the bow of a resumed region has started: its image is read, its control block marked, its records wait. -/
def bowLeft (s : State) (c : Nat) (r : W256) (left : List Nat) (im : ImageAt) : State :=
  let u := regionLeft s (recRcb r) left im.phase
  (if im.dedit then u.markEdited (r.extractLsb' 0 48) else u).holdPending c (recRcb r)

/-- The bow of a resumed region has started on its first cluster. -/
def bowResumed (s : State) (c : Nat) (r : W256) (x : Resolved) (bases : List Nat) (im : ImageAt) (y : GroupImg) : State :=
  (sharesRestored ((bowTaken s c).beginCluster c (recRcb r) im.phase x bases true) c x im y).startSaved (4096 + c) r x im y

/-- What REGION_RESUME does on a free cluster, where no workgroup has a place. -/
theorem regionResume_begins {s : State} {cl : BitVec 4} {r : W256} {x : Resolved} {bases : List Nat} {y : GroupImg}
    (h : MayBegin s cl.toNat r x bases) (hi : s.imageReady x = true) (hl : s.latent = [])
    (hy : (s.imageAt x.image.toNat).sectionFor ((s.imageAt x.image.toNat).groups.map (·.num)) (4096 + cl.toNat) r = some y) :
    exec (.regionResume cl bases []) s =
      (let im := s.imageAt x.image.toNat
       ((bowLeft (bowResumed s cl.toNat r x bases im y) cl.toNat r ((im.groups.map (·.num)).filter (· != y.num)) im).announceAll
         (r.extractLsb' 0 48)).out) := by
  obtain ⟨hb, hr, hg, ht, hf, hx, hz, hn, hs⟩ := h
  have hbow : State.bowOf cl.toNat = 16 * (17 * cl.toNat + 16) := rfl
  rw [← recRcb_eq] at hx
  rw [exec_regionResume]
  unfold execRegionResume
  simp only [hb, hr, hbow, hg, ht, hx, hi, engineBusy_free hf, sharesOk_of hn hs, find_region_none hz, latentAt_none hl, hy, recRcb_ofNat,
    Option.isSome_none, Bool.or_self, Bool.not_true, Bool.false_eq_true, if_false, List.foldl_nil]
  rfl

/-- Everything but what a resumed bow changes. -/
def butResumed (s : State) : State :=
  { s with
    mem := [], sp := [], threads := [], groups := [], clusters := [], courses := [], regions := [], sleepers := [], pending := [], codes := []
    writes := [], edited := [], nextId := 0 }

/-- WHAT THE START OF A RESUMED REGION'S BOW LEAVES (R394). -/
structure Resumed (s u : State) (c : Nat) (r : W256) (x : Resolved) (bases : List Nat) (phase : Nat) (z : Section) : Prop where
  rest : butResumed u = butResumed s
  cl : u.cl c = begunCl (s.cl c) (r.extractLsb' 0 48) phase x bases
  course : ∀ n < 8, (u.course (8 * c + n)).rst = true
  regions : u.regions = s.regions ++ [⟨r.extractLsb' 0 48, [c], none, s.cycle, [], false, none, false⟩]
  bound : (u.grp (16 * (17 * c + 16))).bound = true
  lane : u.thr (tid (16 * (17 * c + 16)) 0) = { s.restoreThread (tid (16 * (17 * c + 16)) 0) z with stat := .sleep s.nextId }
  other : ∀ t, t ≠ tid (16 * (17 * c + 16)) 0 → u.thr t = s.thr t
  wait : u.sleepers = s.sleepers ++ [phaseWait s (16 * (17 * c + 16)) (s.restoreThread (tid (16 * (17 * c + 16)) 0) z)]

theorem bowResumed_parts {s : State} {c : Nat} {r : W256} {x : Resolved} {bases : List Nat} {im : ImageAt} {y : GroupImg} {z : Section}
    (hz : ∀ z ∈ s.regions, z.rcb ≠ r.extractLsb' 0 48) (hw : NoneAsleepSp s) (hp : physOkN (stateAt s (4096 + c)) 1 = true)
    (hf : (y.parts.find? fun z => z.kind == 2 && z.index == 0) = some z) :
    Resumed s (bowResumed s c r x bases im y) c r x bases im.phase z := by
  have b1 := beginCluster_begun (s := bowTaken s c) (c := c) (phase := im.phase) (x := x) (bases := bases) (rst := true) hz
  unfold bowResumed
  generalize (bowTaken s c).beginCluster c (recRcb r) im.phase x bases true = s1 at b1
  have r1 := b1.rest
  have w1 : NoneAsleepSp s1 := by
    have : s1.sleepers = s.sleepers := (congrArg State.sleepers r1 : _)
    unfold NoneAsleepSp
    rw [this]
    exact hw
  have r2 := sharesRestored_butSp w1 c x im y
  generalize sharesRestored s1 c x im y = s2 at r2
  have hb : isBow (groupCore (bindGroup (4096 + c))) = true := by
    rw [bindGroup_bow]
    unfold isBow groupCore
    rw [beq_iff_eq]
    omega
  have hst : stateAt s2 (4096 + c) = stateAt s (4096 + c) :=
    (congrArg (fun u : State => stateAt u (4096 + c)) r2 : _).trans (congrArg (fun u : State => stateAt u (4096 + c)) r1 : _)
  have b3 := startSaved_bow (r := r) (x := x) (im := im) hb hf (by rw [hst]; exact hp)
  generalize s2.startSaved (4096 + c) r x im y = s3 at b3
  have r3 := b3.rest
  have hm : s2.mem = s.mem := (congrArg State.mem r2 : _).trans (congrArg State.mem r1 : _)
  have hid : s2.nextId = s.nextId := (congrArg State.nextId r2 : _).trans (congrArg State.nextId r1 : _)
  have hcy : s2.cycle = s.cycle := (congrArg State.cycle r2 : _).trans (congrArg State.cycle r1 : _)
  have hsl : s2.sleepers = s.sleepers := (congrArg State.sleepers r2 : _).trans (congrArg State.sleepers r1 : _)
  have bound := b3.bound
  have lane := b3.lane
  have other := b3.other
  have wait := b3.wait
  rw [bindGroup_bow] at bound lane other wait
  rw [restoreThread_congr hm, hid] at lane
  rw [restoreThread_congr hm, hsl] at wait
  have hpw : ∀ t, phaseWait s2 (16 * (17 * c + 16)) t = phaseWait s (16 * (17 * c + 16)) t := fun t => by
    unfold phaseWait
    rw [hid, hcy]
  rw [hpw] at wait
  refine ⟨?_, ?_, fun n hn => ?_, ?_, bound, lane, fun t ht => ?_, wait⟩
  · exact (congrArg butResumed r3 : _).trans ((congrArg butResumed r2 : _).trans (congrArg butResumed r1 : _))
  · exact (congrArg (fun u : State => u.cl c) r3 : _).trans ((congrArg (fun u : State => u.cl c) r2 : _).trans b1.cl)
  · have : s3.course (8 * c + n) = s1.course (8 * c + n) :=
      (congrArg (fun u : State => u.course (8 * c + n)) r3 : _).trans (congrArg (fun u : State => u.course (8 * c + n)) r2 : _)
    rw [this, b1.course n hn]
  · exact (congrArg State.regions r3 : _).trans ((congrArg State.regions r2 : _).trans b1.regions)
  · exact (other t ht).trans ((congrArg (fun u : State => u.thr t) r2 : _).trans (congrArg (fun u : State => u.thr t) r1 : _))

/-- Everything but memory, the regions, the regions edited and the records pending. -/
def butLeft (s : State) : State := { s with mem := [], regions := [], edited := [], pending := [] }

theorem bowLeft_frame (s : State) (c : Nat) (r : W256) (left : List Nat) {im : ImageAt} (h : physOkN ((r.extractLsb' 0 48).toNat + 56) 1 = true) :
    butLeft (bowLeft s c r left im) = butLeft s ∧ (bowLeft s c r left im).regions = (regionLeft s (recRcb r) left im.phase).regions := by
  have hl : butLeft (regionLeft s (recRcb r) left im.phase) = butLeft s := rfl
  unfold bowLeft
  dsimp only
  rw [holdPending_eq]
  generalize regionLeft s (recRcb r) left im.phase = u at hl ⊢
  cases im.dedit with
  | true =>
    obtain ⟨m, e, hm⟩ := markEdited_eq (s := u) h
    rw [if_pos rfl, hm]
    exact ⟨hl, rfl⟩
  | false => exact ⟨hl, rfl⟩

theorem regionLeft_regions {s : State} {l : List Region} {r : W256} {c cycle phase : Nat} {left : List Nat}
    (hz : ∀ z ∈ l, z.rcb ≠ r.extractLsb' 0 48)
    (hr : s.regions = l ++ [⟨r.extractLsb' 0 48, [c], none, cycle, [], false, none, false⟩]) :
    (regionLeft s (recRcb r) left phase).regions = l ++ [⟨r.extractLsb' 0 48, [c], none, cycle, left, false, some phase, false⟩] := by
  have hold : l.map (fun z : Region => if z.rcb.toNat == recRcb r then { z with resuming := left, image := some phase } else z) = l := by
    refine (List.map_congr_left fun z hm => ?_).trans l.map_id
    rw [if_neg]
    · rfl
    · rw [recRcb_eq, beq_iff_eq]
      exact fun e => hz z hm (BitVec.eq_of_toNat_eq e)
  show s.regions.map _ = _
  rw [hr, List.map_append, hold, List.map_singleton, if_pos (by rw [recRcb_eq]; exact beq_self_eq_true _)]

/-- REGION_RESUME restores the bow's thread into its `PHASE` (R394). -/
theorem regionResume_next {s : State} {cl : BitVec 4} {r : W256} {x : Resolved} {bases : List Nat} {y : GroupImg} {z : Section}
    (hh : s.hole = false) (h : MayBegin s cl.toNat r x bases)
    (hp : physOkN (stateAt s (4096 + cl.toNat)) 1 = true) (hi : s.imageReady x = true)
    (hl : s.latent = []) (hw : NoneAsleepSp s) (he : physOkN ((r.extractLsb' 0 48).toNat + 56) 1 = true)
    (hy : (s.imageAt x.image.toNat).sectionFor ((s.imageAt x.image.toNat).groups.map (·.num)) (4096 + cl.toNat) r = some y)
    (hsec : (y.parts.find? fun z => z.kind == 2 && z.index == 0) = some z) :
    let c := cl.toNat
    let bow := 16 * (17 * c + 16)
    let rcb := r.extractLsb' 0 48
    let im := s.imageAt x.image.toNat
    ∃ u, exec (.regionResume cl bases []) s = .next u ∧ (u.cl c).region = some rcb ∧ (u.cl c).res = x ∧ (u.cl c).phase = im.phase ∧
      (u.cl c).kb = [] ∧ (∀ n < 8, (u.course (8 * c + n)).rst = true) ∧ (u.grp bow).bound = true ∧
      (u.thr (tid bow 0) = { s.restoreThread (tid bow 0) z with stat := .sleep s.nextId }) ∧
      (∃ e : Sleeper, u.sleepers = s.sleepers ++ [e] ∧ e.id = s.nextId ∧ e.group = bow ∧ e.lanes = 1 ∧ e.kind = .phase ∧
        e.word = (s.restoreThread (tid bow 0) z).pc) ∧
      (∃ e : Region, u.regions = s.regions ++ [e] ∧ e.rcb = rcb ∧ e.clusters = [c] ∧
        e.resuming = (im.groups.map (·.num)).filter (· != y.num) ∧ e.image = some im.phase) ∧
      ∀ t, t ≠ tid bow 0 → u.thr t = s.thr t := by
  intro c bow rcb im
  have e := regionResume_begins h hi hl hy
  have a := bowResumed_parts (c := c) (x := x) (bases := bases) (im := im) h.new hw hp hsec
  dsimp only at e
  generalize bowResumed s cl.toNat r x bases (s.imageAt x.image.toNat) y = v at e a
  obtain ⟨hl, reg⟩ := bowLeft_frame v c r ((im.groups.map (·.num)).filter (· != y.num)) (im := im) he
  rw [regionLeft_regions h.new a.regions] at reg
  change _ = ((bowLeft v c r ((im.groups.map (·.num)).filter (· != y.num)) im).announceAll rcb).out at e
  generalize bowLeft v c r ((im.groups.map (·.num)).filter (· != y.num)) im = w at e hl reg
  have hu := Hears.announceAll w rcb
  generalize w.announceAll rcb = u at e hu
  obtain ⟨hv, hc⟩ := hu
  have hrest := a.rest
  have hole : u.hole = false := (congrArg State.hole hv : _).trans ((congrArg State.hole hl : _).trans ((congrArg State.hole hrest : _).trans hh))
  have hthr : ∀ t, u.thr t = v.thr t := fun t =>
    (congrArg (fun z : State => z.thr t) hv : _).trans (congrArg (fun z : State => z.thr t) hl : _)
  have hcu : ∃ h, u.cl c = { begunCl (s.cl c) rcb im.phase x bases with heard := h } := by
    obtain ⟨h, eh⟩ := hc c
    have : w.cl c = begunCl (s.cl c) rcb im.phase x bases := (congrArg (fun z : State => z.cl c) hl : _).trans a.cl
    exact ⟨h, by rw [eh, this]⟩
  obtain ⟨heard, hcu⟩ := hcu
  have hco : ∀ n < 8, (u.course (8 * c + n)).rst = true := fun n hn => by
    have : u.course (8 * c + n) = v.course (8 * c + n) :=
      (congrArg (fun z : State => z.course (8 * c + n)) hv : _).trans (congrArg (fun z : State => z.course (8 * c + n)) hl : _)
    rw [this]
    exact a.course n hn
  have hgr : (u.grp bow).bound = true := by
    have : u.grp bow = v.grp bow := (congrArg (fun z : State => z.grp bow) hv : _).trans (congrArg (fun z : State => z.grp bow) hl : _)
    rw [this]
    exact a.bound
  refine ⟨u, e.trans (out_next hole), by rw [hcu]; rfl, by rw [hcu]; rfl, by rw [hcu]; rfl, by rw [hcu]; rfl, hco, hgr,
    (hthr _).trans a.lane,
    ⟨_, (congrArg State.sleepers hv : _).trans ((congrArg State.sleepers hl : _).trans a.wait), rfl, rfl, rfl, rfl, rfl⟩,
    ⟨_, (congrArg State.regions hv : _).trans reg, rfl, rfl, rfl, rfl⟩, fun t h => (hthr t).trans (a.other t h)⟩

/-! ## Slices of bytes (R10) -/

/-- The number that a slice of bytes in memory holds. -/
theorem read_slice {m : Memory} {a n v : Nat} {A B : List Byte}
    (h : Memory.bytes m a (A ++ leBytes v n ++ B).length = A ++ leBytes v n ++ B) : Memory.read m (a + A.length) n = v % 256 ^ n := by
  induction A generalizing a with
  | nil =>
    rw [List.nil_append] at h
    rw [List.length_nil, Nat.add_zero]
    induction n generalizing a v with
    | zero => simp [Memory.read, Nat.mod_one]
    | succ n ih =>
      rw [leBytes, List.cons_append, List.length_cons, Memory.bytes, List.cons.injEq] at h
      obtain ⟨h1, h2⟩ := h
      rw [Memory.read, ih h2, h1, BitVec.toNat_ofNat, pow_succ 256 n, Nat.mul_comm (256 ^ n) 256, Nat.mod_mul]
  | cons b A ih =>
    rw [List.cons_append, List.cons_append, List.length_cons, Memory.bytes, List.cons.injEq] at h
    have := ih h.2
    rw [List.length_cons, ← this]
    congr 1
    omega

/-- A block of a row of blocks of one length. -/
theorem flatMap_split {α : Type} {f : α → List Byte} {c : Nat} (hc : ∀ a, (f a).length = c) {l : List α} {k : Nat} {a : α}
    (h : l[k]? = some a) : ∃ A B, l.flatMap f = A ++ f a ++ B ∧ A.length = c * k := by
  obtain ⟨hk, rfl⟩ := List.getElem?_eq_some_iff.1 h
  refine ⟨(l.take k).flatMap f, (l.drop (k + 1)).flatMap f, ?_, ?_⟩
  · conv_lhs => rw [← List.take_append_drop k l, List.drop_eq_getElem_cons hk, List.flatMap_append, List.flatMap_cons]
    rw [List.append_assoc]
  · rw [List.length_flatMap, List.map_congr_left fun a _ => hc a, List.map_const', List.sum_replicate, smul_eq_mul, List.length_take,
      Nat.min_eq_left hk.le, Nat.mul_comm]

theorem flatMap_length {α : Type} {f : α → List Byte} {c : Nat} (hc : ∀ a, (f a).length = c) (l : List α) :
    (l.flatMap f).length = c * l.length := by
  rw [List.length_flatMap, List.map_congr_left fun a _ => hc a, List.map_const', List.sum_replicate, smul_eq_mul, Nat.mul_comm]

/-- The bits of distinct places. -/
theorem foldl_testBit {l : List Nat} (hn : l.Nodup) (f : Nat → Bool) (k : Nat) :
    (l.foldl (fun n i => n + if f i then 2 ^ i else 0) 0).testBit k = (decide (k ∈ l) && f k) := by
  have key : ∀ (l : List Nat) (n : Nat), l.foldl (fun n i => n + if f i then 2 ^ i else 0) n = n + ((l.filter f).map fun i => 2 ^ i).sum := by
    intro l
    induction l with
    | nil => exact fun _ => rfl
    | cons i l ih =>
      intro n
      rw [List.foldl_cons, ih, List.filter_cons]
      split
      · rw [List.map_cons, List.sum_cons, Nat.add_assoc]
      · rw [Nat.add_zero]
  rw [key, Nat.zero_add, ← List.sum_toFinset _ (hn.filter f), Bool.eq_iff_iff, ← Nat.mem_bitIndices, ← List.mem_toFinset,
    Finset.toFinset_bitIndices_sum_two_pow, List.mem_toFinset, List.mem_filter, Bool.and_eq_true, decide_eq_true_eq]

/-- A register that a section lists, at its place. -/
theorem mget_listed {β : Type} [DecidableEq β] (d : β) {l : List Nat} (hn : l.Nodup) (f : Nat → β) {k n : Nat} (h : l[k]? = some n) :
    mget d (l.zipIdx.foldl (fun m e => mset d m e.1 (f e.2)) []) n = f k := by
  refine mget_foldl_mset d Prod.fst (fun e => f e.2) l.zipIdx [] (a := (n, k)) (List.mem_zipIdx_iff_getElem?.2 h) fun b hb e => ?_
  have hb := List.mem_zipIdx_iff_getElem?.1 hb
  obtain ⟨h1, e1⟩ := List.getElem?_eq_some_iff.1 h
  obtain ⟨h2, e2⟩ := List.getElem?_eq_some_iff.1 hb
  have : b.2 = k := (List.Nodup.getElem_inj_iff hn).1 (e2.trans (e.trans e1.symm))
  rw [this]

/-- A register that a section does not list. -/
theorem mget_unlisted {β : Type} [DecidableEq β] (d : β) {l : List Nat} (f : Nat → β) {n : Nat} (h : n ∉ l) :
    mget d (l.zipIdx.foldl (fun m e => mset d m e.1 (f e.2)) []) n = d :=
  mget_foldl_mset_other d Prod.fst (fun e => f e.2) l.zipIdx [] fun _ he hk => h (hk ▸ List.mem_of_getElem? (List.mem_zipIdx_iff_getElem?.1 he))

/-! ## What a thread's section holds (R393) -/

theorem gs_nodup (l : Live) : l.gs.Nodup := List.Nodup.filter _ List.nodup_range
theorem vs_nodup (l : Live) : l.vs.Nodup := List.Nodup.filter _ List.nodup_range
theorem ps_nodup (l : Live) : l.ps.Nodup := List.Nodup.filter _ List.nodup_range

/-- The vector register of a thread, after every write so far. -/
def archV (x : Thread) (i : Nat) : VVal := match x.arch (.v (BitVec.ofNat 5 i)) with
  | .v y => y
  | _ => VVal.zero

/-- The predicate of a thread, after every write so far. -/
def archP (x : Thread) (i : Nat) : Bool := match x.arch (.p (BitVec.ofNat 3 i)) with
  | .p b => b
  | _ => false

def gBytes (x : Thread) (i : Nat) : List Byte := leBytes (x.archW (.g (BitVec.ofNat 6 i))).toNat 8
def vBytes (x : Thread) (i : Nat) : List Byte := leBytes (archV x i).bits.toNat 16 ++ leBytes (archV x i).tag.toNat 8
def pWord (x : Thread) : Nat := x.live.ps.foldl (fun n i => n + if archP x i then 2 ^ i else 0) 0

theorem threadPayload_eq (x : Thread) : threadPayload x =
    leBytes x.pc.toNat 8 ++ leBytes x.live.gmask.toNat 8 ++ leBytes (x.live.word2.toNat % 2 ^ 48) 8 ++ x.live.gs.flatMap (gBytes x) ++
      x.live.vs.flatMap (vBytes x) ++ (if x.live.ps.isEmpty then [] else leBytes (pWord x) 8) := rfl

theorem gBytes_length (x : Thread) (i : Nat) : (gBytes x i).length = 8 := leBytes_length ..
theorem vBytes_length (x : Thread) (i : Nat) : (vBytes x i).length = 24 := by
  unfold vBytes
  rw [List.length_append, leBytes_length, leBytes_length]

/-- The section of a thread lies in memory. -/
def SectionHeld (m : Memory) (place : Nat) (x : Thread) : Prop := Memory.bytes m place (threadPayload x).length = threadPayload x

section
variable {m : Memory} {place : Nat} {x : Thread} (h : SectionHeld m place x)
include h

theorem SectionHeld.read {A B : List Byte} {v n k : Nat} (e : threadPayload x = A ++ leBytes v n ++ B) (hv : v < 256 ^ n) (hk : A.length = k) :
    Memory.read m (place + k) n = v := by
  unfold SectionHeld at h
  rw [e] at h
  rw [← hk, read_slice h, Nat.mod_eq_of_lt hv]

theorem SectionHeld.pc : Memory.read m (place + 8 * 0) 8 = x.pc.toNat :=
  h.read (A := []) (by rw [threadPayload_eq]; simp only [List.nil_append, List.append_assoc]; rfl) x.pc.isLt rfl

theorem SectionHeld.gmask : Memory.read m (place + 8 * 1) 8 = x.live.gmask.toNat :=
  h.read (by rw [threadPayload_eq]; simp only [List.append_assoc]; rfl) x.live.gmask.isLt (leBytes_length ..)

theorem SectionHeld.word2 : Memory.read m (place + 8 * 2) 8 = x.live.word2.toNat % 2 ^ 48 :=
  h.read (A := leBytes x.pc.toNat 8 ++ leBytes x.live.gmask.toNat 8) (by rw [threadPayload_eq]; simp only [List.append_assoc]; rfl) (by omega)
    (by rw [List.length_append, leBytes_length, leBytes_length])

theorem SectionHeld.g {k n : Nat} (hn : x.live.gs[k]? = some n) :
    Memory.read m (place + 8 * (3 + k)) 8 = (x.archW (.g (BitVec.ofNat 6 n))).toNat := by
  obtain ⟨A, B, e, hA⟩ := flatMap_split (gBytes_length x) hn
  refine h.read (A := leBytes x.pc.toNat 8 ++ leBytes x.live.gmask.toNat 8 ++ leBytes (x.live.word2.toNat % 2 ^ 48) 8 ++ A)
    (B := B ++ (x.live.vs.flatMap (vBytes x) ++ (if x.live.ps.isEmpty then [] else leBytes (pWord x) 8))) ?_ (BitVec.isLt _) ?_
  · rw [threadPayload_eq, e, gBytes]
    simp only [List.append_assoc]
  · simp only [List.length_append, leBytes_length, hA]
    omega

theorem SectionHeld.v {k n : Nat} (hn : x.live.vs[k]? = some n) :
    Memory.read m (place + 8 * (3 + x.live.gs.length + 3 * k)) 16 = (archV x n).bits.toNat ∧
    Memory.read m (place + 8 * (3 + x.live.gs.length + 3 * k + 2)) 8 = (archV x n).tag.toNat := by
  obtain ⟨A, B, e, hA⟩ := flatMap_split (vBytes_length x) hn
  have hg := flatMap_length (gBytes_length x) x.live.gs
  have ht := (archV x n).tag.isLt
  refine ⟨h.read (A := leBytes x.pc.toNat 8 ++ leBytes x.live.gmask.toNat 8 ++ leBytes (x.live.word2.toNat % 2 ^ 48) 8 ++
      x.live.gs.flatMap (gBytes x) ++ A)
    (B := leBytes (archV x n).tag.toNat 8 ++ B ++ (if x.live.ps.isEmpty then [] else leBytes (pWord x) 8)) ?_ (BitVec.isLt _) ?_,
    h.read (A := leBytes x.pc.toNat 8 ++ leBytes x.live.gmask.toNat 8 ++ leBytes (x.live.word2.toNat % 2 ^ 48) 8 ++
      x.live.gs.flatMap (gBytes x) ++ A ++ leBytes (archV x n).bits.toNat 16)
    (B := B ++ (if x.live.ps.isEmpty then [] else leBytes (pWord x) 8)) ?_ (ht.trans (by decide)) ?_⟩
  · rw [threadPayload_eq, e, vBytes]
    simp only [List.append_assoc]
  · simp only [List.length_append, leBytes_length, hA, hg]
    omega
  · rw [threadPayload_eq, e, vBytes]
    simp only [List.append_assoc]
  · simp only [List.length_append, leBytes_length, hA, hg]
    omega

theorem SectionHeld.p {n : Nat} (hn : n ∈ x.live.ps) :
    (Memory.read m (place + 8 * (3 + x.live.gs.length + 3 * x.live.vs.length)) 8).testBit n = archP x n := by
  have hps := ps_nodup x.live
  have hlt : pWord x < 256 ^ 8 := by
    rw [show 256 ^ 8 = 2 ^ 64 from rfl]
    refine Nat.lt_pow_two_of_testBit _ fun i hi => ?_
    rw [pWord, foldl_testBit hps, Bool.and_eq_false_iff, decide_eq_false_iff_not]
    refine .inl fun hm => ?_
    have := List.mem_range.1 (List.mem_of_mem_filter hm)
    omega
  have hne : x.live.ps.isEmpty = false := by
    rw [List.isEmpty_eq_false_iff]
    exact List.ne_nil_of_mem hn
  have hg := flatMap_length (gBytes_length x) x.live.gs
  have hv := flatMap_length (vBytes_length x) x.live.vs
  have := h.read (A := leBytes x.pc.toNat 8 ++ leBytes x.live.gmask.toNat 8 ++ leBytes (x.live.word2.toNat % 2 ^ 48) 8 ++
      x.live.gs.flatMap (gBytes x) ++ x.live.vs.flatMap (vBytes x)) (B := []) (v := pWord x) (n := 8)
    (k := 8 * (3 + x.live.gs.length + 3 * x.live.vs.length)) (by rw [threadPayload_eq, hne, List.append_nil]; rfl) hlt
    (by simp only [List.length_append, leBytes_length, hg, hv]; omega)
  rw [this, pWord, foldl_testBit hps, decide_eq_true hn, Bool.true_and]

end

/-! ## What a resume restores (R394) -/

theorem resumeAt_fields {h : BitVec 48} {w : Nat} {r : W64} (e : r = resumeAt h w) :
    resumeAt (r.truncate 48) ((r >>> 48).truncate 4 : BitVec 4).toNat = r := by
  have hr : r.toNat = h.toNat + 2 ^ 48 * (w % 16) := by
    have := h.isLt
    rw [e, resumeAt, BitVec.toNat_ofNat, Nat.mod_eq_of_lt (by omega)]
  have := h.isLt
  apply BitVec.eq_of_toNat_eq
  simp only [resumeAt, BitVec.toNat_ofNat, BitVec.truncate_eq_setWidth, BitVec.toNat_setWidth, BitVec.toNat_ushiftRight, Nat.shiftRight_eq_div_pow]
  omega

/-- The registers that a thread's section names are those it lists: those of its live masks. -/
theorem live_lists {a b : Live} (hg : a.gmask = b.gmask) (hw : a.word2.toNat = b.word2.toNat % 2 ^ 48) :
    a.gs = b.gs ∧ a.vs = b.vs ∧ a.ps = b.ps := by
  have bit : ∀ k < 48, a.word2.getLsbD k = b.word2.getLsbD k := fun k hk => by
    show a.word2.toNat.testBit k = b.word2.toNat.testBit k
    rw [hw, Nat.testBit_mod_two_pow, decide_eq_true hk, Bool.true_and]
  refine ⟨by unfold Live.gs; rw [hg], ?_, ?_⟩
  · exact List.filter_congr fun i hi => bit i (by have := List.mem_range.1 hi; omega)
  · exact List.filter_congr fun i hi => bit (40 + i) (by have := List.mem_range.1 hi; omega)

theorem mem_gs {l : Live} {n : GReg} : n.toNat ∈ l.gs ↔ l.gmask.getLsbD n.toNat = true := by
  unfold Live.gs
  rw [List.mem_filter, List.mem_range]
  exact and_iff_right n.isLt

theorem mem_vs {l : Live} {n : VReg} : n.toNat ∈ l.vs ↔ l.word2.getLsbD n.toNat = true := by
  unfold Live.vs
  rw [List.mem_filter, List.mem_range]
  exact and_iff_right n.isLt

theorem mem_ps {l : Live} {n : PReg} (h : n ≠ 7) : n.toNat ∈ l.ps ↔ l.word2.getLsbD (40 + n.toNat) = true := by
  unfold Live.ps
  rw [List.mem_filter, List.mem_range]
  have : n.toNat ≠ 7 := fun e => h (BitVec.eq_of_toNat_eq e)
  exact and_iff_right (by have := n.isLt; omega)

theorem archV_of {x : Thread} {n : VReg} {b : VVal} (h : x.arch (.v n) = .v b) : archV x n.toNat = b := by
  unfold archV
  rw [BitVec.ofNat_toNat, BitVec.setWidth_eq, h]

theorem archP_of {x : Thread} {n : PReg} {b : Bool} (h : x.arch (.p n) = .p b) : archP x n.toNat = b := by
  unfold archP
  rw [BitVec.ofNat_toNat, BitVec.setWidth_eq, h]

/-- The liveness that a section restores. -/
def restoredLive (s : State) (z : Section) : Live :=
  ⟨BitVec.ofNat 64 (s.rd (z.place + 8 * 1) 8), BitVec.ofNat 64 (s.rd (z.place + 8 * 2) 8), []⟩

section
variable {s : State} {x : Thread} {z : Section} (h : SectionHeld s.mem z.place x)
include h

theorem restored_lists : (restoredLive s z).gs = x.live.gs ∧ (restoredLive s z).vs = x.live.vs ∧ (restoredLive s z).ps = x.live.ps := by
  have w1 : s.rd (z.place + 8 * 1) 8 = x.live.gmask.toNat := h.gmask
  have w2 : s.rd (z.place + 8 * 2) 8 = x.live.word2.toNat % 2 ^ 48 := h.word2
  refine live_lists ?_ ?_
  · show BitVec.ofNat 64 (s.rd (z.place + 8 * 1) 8) = _
    rw [w1, BitVec.ofNat_toNat, BitVec.setWidth_eq]
  · show (BitVec.ofNat 64 (s.rd (z.place + 8 * 2) 8)).toNat = _
    rw [w2, BitVec.toNat_ofNat]
    omega

theorem restored_pc (t : Nat) : (s.restoreThread t z).pc = x.pc := by
  have w0 : s.rd (z.place + 8 * 0) 8 = x.pc.toNat := h.pc
  show resumeAt ((BitVec.ofNat 64 (s.rd (z.place + 8 * 0) 8)).truncate 48)
    ((BitVec.ofNat 64 (s.rd (z.place + 8 * 0) 8) >>> 48).truncate 4 : BitVec 4).toNat = x.pc
  rw [w0, BitVec.ofNat_toNat, BitVec.setWidth_eq]
  exact resumeAt_fields rfl

theorem restored_g (t : Nat) (n : GReg) :
    (s.restoreThread t z).arch (.g n) = .w (if x.live.gmask.getLsbD n.toNat then x.archW (.g n) else 0) := by
  obtain ⟨gs, -⟩ := restored_lists h
  let f := fun k => BitVec.ofNat 64 (s.rd (z.place + 8 * (3 + k)) 8)
  have e : (s.restoreThread t z).arch (.g n) = .w (mget 0 (x.live.gs.zipIdx.foldl (fun m e => mset 0 m e.1 (f e.2)) []) n.toNat) := by
    rw [← gs]; rfl
  rw [e]
  by_cases hm : n.toNat ∈ x.live.gs
  · obtain ⟨k, hk⟩ := List.getElem?_of_mem hm
    have hf : f k = x.archW (.g n) := by
      show BitVec.ofNat 64 (Memory.read s.mem _ 8) = _
      rw [h.g hk, BitVec.ofNat_toNat, BitVec.ofNat_toNat, BitVec.setWidth_eq, BitVec.setWidth_eq]
    rw [if_pos (mem_gs.1 hm), mget_listed 0 (gs_nodup _) f hk, hf]
  · rw [if_neg (mt mem_gs.2 hm), mget_unlisted 0 f hm]

theorem restored_v (t : Nat) (n : VReg) {b : VVal} (hb : x.arch (.v n) = .v b) :
    (s.restoreThread t z).arch (.v n) = .v (if x.live.word2.getLsbD n.toNat then b else VVal.zero) := by
  obtain ⟨gs, vs, -⟩ := restored_lists h
  let f := fun k => (⟨BitVec.ofNat 128 (s.rd (z.place + 8 * (3 + x.live.gs.length + 3 * k)) 16),
    BitVec.ofNat 8 (s.rd (z.place + 8 * (3 + x.live.gs.length + 3 * k + 2)) 8)⟩ : VVal)
  have e : (s.restoreThread t z).arch (.v n) = .v (mget VVal.zero (x.live.vs.zipIdx.foldl
      (fun m e => mset VVal.zero m e.1 (f e.2)) []) n.toNat) := by
    simp only [f]
    rw [← gs, ← vs]; rfl
  rw [e]
  by_cases hm : n.toNat ∈ x.live.vs
  · obtain ⟨k, hk⟩ := List.getElem?_of_mem hm
    obtain ⟨r1, r2⟩ := h.v hk
    have hf : f k = b := by
      show (⟨BitVec.ofNat 128 (Memory.read s.mem _ 16), BitVec.ofNat 8 (Memory.read s.mem _ 8)⟩ : VVal) = b
      rw [r1, r2, BitVec.ofNat_toNat, BitVec.ofNat_toNat, BitVec.setWidth_eq, BitVec.setWidth_eq, archV_of hb]
    rw [if_pos (mem_vs.1 hm), mget_listed VVal.zero (vs_nodup _) f hk, hf]
  · rw [if_neg (mt mem_vs.2 hm), mget_unlisted VVal.zero f hm]

theorem restored_p (t : Nat) {n : PReg} {b : Bool} (h7 : n ≠ 7) (hb : x.arch (.p n) = .p b) :
    (s.restoreThread t z).arch (.p n) = .p (x.live.word2.getLsbD (40 + n.toNat) && b) := by
  obtain ⟨gs, vs, ps⟩ := restored_lists h
  let w := s.rd (z.place + 8 * (3 + x.live.gs.length + 3 * x.live.vs.length)) 8
  have e : (s.restoreThread t z).arch (.p n) = .p (mget false (x.live.ps.foldl (fun m i => mset false m i (bitAt w i)) []) n.toNat) := by
    refine (congrArg RVal.p (if_neg h7) : _).trans ?_
    simp only [w]
    rw [← gs, ← vs, ← ps]; rfl
  rw [e]
  by_cases hm : n.toNat ∈ x.live.ps
  · have hr : bitAt w n.toNat = b := (h.p hm).trans (archP_of hb)
    rw [(mem_ps h7).1 hm, Bool.true_and]
    exact congrArg RVal.p ((mget_foldl_mset false id (bitAt w) x.live.ps [] hm fun b _ e => by rw [show b = n.toNat from e]).trans hr)
  · have : x.live.word2.getLsbD (40 + n.toNat) = false := by simpa using mt (mem_ps h7).2 hm
    rw [this, Bool.false_and]
    exact congrArg RVal.p (mget_foldl_mset_other false id (bitAt w) x.live.ps [] fun i hi e => hm (show n.toNat ∈ _ from e ▸ hi))

end

/-! ## The obligation -/

/-- Settles O48: the three cases of BINDGO, `groupStart_next`, `regionStart_next`, `regionResume_next`, and what a section restores. -/
theorem starts : Obligations.Starts := by
  unfold Obligations.Starts
  refine ⟨fun s mc w hh => ⟨bindgo_error hh, fun hi hr hf hp hc => ?_, fun hi hr ok => bindgo_pending hh hi hr ok⟩, ?_, ?_, ?_⟩
  · refine bindgo_refused hh hi hr ?_ hp hc
    rcases hf with hf | ⟨x, hf, hx⟩
    · exact bindOk_unresolved ((resolvedOn_eq ..).trans hf)
    · exact bindOk_refused ((resolvedOn_eq ..).trans hf) hx
  · intro s rec base r since i core c l hh hf ho hd hw hb hre hn hl
    exact groupStart_next hh hf ho hd hw hb hre hn hl
  · intro s cl r x bases c bow rcb hh hb hr hg ht hf hx hz hn hs hl hnode hp
    refine ⟨fun hi => regionStart_next hh ⟨hb, hr, hg, ht, hf, hx, hz, hn, hs⟩ hl hnode hp hi, ?_⟩
    intro y z hi hlat hw he im hy hsec
    exact regionResume_next hh ⟨hb, hr, hg, ht, hf, hx, hz, hn, hs⟩ hp hi hlat hw he hy hsec
  · intro s t x z h
    exact ⟨restored_pc h t, restored_g h t, fun n b => restored_v h t n, fun n b => restored_p h t⟩

end Sys2Proof.Slice0
end

section
namespace Sys2Proof.Slice0
open Machine

/-! # The ends of exchanges, ring messages and Ethernet frames (O54)

## Numbers in memory (R10) -/

theorem read_add (m : Memory) (a n k : Nat) : Memory.read m a (n + k) = Memory.read m a n + 256 ^ n * Memory.read m (a + n) k := by
  induction n generalizing a with
  | zero => simp [Memory.read]
  | succ n ih =>
    rw [Nat.add_right_comm, Memory.read, Memory.read, ih, Nat.add_right_comm a 1 n, Nat.add_assoc a n 1, pow_succ']
    ring

theorem read_lt (m : Memory) (a n : Nat) : Memory.read m a n < 256 ^ n := by
  induction n generalizing a with
  | zero => exact Nat.one_pos
  | succ n ih =>
    have hb := (Memory.byte m a).isLt
    have hr := ih (a + 1)
    rw [Memory.read, pow_succ']
    omega

/-- The bytes from the one at `o` on, within a number in memory. -/
theorem bits_read (m : Memory) (a : Nat) {o n N h l : Nat} (hl : l = 8 * o) (hh : h + 1 - l = 8 * n) (hN : o + n ≤ N) :
    bits (Memory.read m a N) h l = Memory.read m (a + o) n := by
  obtain ⟨k, rfl⟩ := Nat.exists_eq_add_of_le hN
  have e : ∀ j, 2 ^ (8 * j) = 256 ^ j := fun j => pow_mul 2 8 j
  unfold bits
  rw [hh, hl, Nat.shiftRight_eq_div_pow, e, e, Nat.add_assoc, read_add, read_add m (a + o), Nat.add_mul_div_left _ _ (by positivity),
    Nat.div_eq_of_lt (read_lt ..), Nat.zero_add, Nat.add_mul_mod_self_left, Nat.mod_eq_of_lt (read_lt ..)]

/-- The low bits of a field. -/
theorem bits_low (x : Nat) {h h' l : Nat} (hh : h ≤ h') : bits x h l = bits x h' l % 2 ^ (h + 1 - l) := by
  unfold bits
  rw [Nat.mod_mod_of_dvd _ (Nat.pow_dvd_pow 2 (by omega))]

/-- A number is that of its bytes (R10). -/
theorem leVal_leBytes (x n : Nat) : leVal (leBytes x n) = x % 256 ^ n := by
  induction n generalizing x with
  | zero => rw [leBytes, leVal, pow_zero, Nat.mod_one]
  | succ n ih => rw [leBytes, leVal, ih, BitVec.toNat_ofNat, pow_succ' 256 n, Nat.mod_mul]

/-! ## Descriptors of rings (R335) -/

/-- The fill, HEAD, BASE and the number of slots of a ring are fields of its descriptor (R335). -/
theorem ringAt_eq (s : State) (k : Nat) : s.ringAt k =
    ((Memory.read s.sp (k + 12) 4 + 2 ^ 32 - Memory.read s.sp (k + 8) 4) % 2 ^ 32, Memory.read s.sp (k + 8) 4,
      Memory.read s.sp (k + 0) 4 % 2 ^ 30, 2 ^ (Memory.read s.sp (k + 16) 1 % 32)) := by
  have tail : bits (s.spRd k 32) 127 96 = _ := bits_read s.sp k (o := 12) (n := 4) rfl rfl (by omega)
  have head : bits (s.spRd k 32) 95 64 = _ := bits_read s.sp k (o := 8) (n := 4) rfl rfl (by omega)
  have base : bits (s.spRd k 32) 31 0 = _ := bits_read s.sp k (o := 0) (n := 4) rfl rfl (by omega)
  have size : bits (s.spRd k 32) 135 128 = _ := bits_read s.sp k (o := 16) (n := 1) rfl rfl (by omega)
  unfold State.ringAt
  dsimp only
  rw [bits_low _ (show 29 ≤ 31 by omega), bits_low _ (show 132 ≤ 135 by omega), tail, head, base, size]
  rfl

theorem ringMark_eq (s : State) (k : Nat) : bits (s.spRd k 32) 175 160 = Memory.read s.sp (k + 20) 2 :=
  bits_read s.sp k rfl rfl (by omega)

/-! ## Writes of the network interface and of a destination slice -/

/-- Everything but what writes at a destination change: the places written, the sleepers that a write wakes, the rows opened, and the
record of writes. -/
def butWritten (s : State) : State := { s with mem := [], sp := [], threads := [], sleepers := [], slices := [], writes := [], seq := 0 }

theorem wakeSp_butWritten (lo n : Nat) (l : List Sleeper) (s : State) : butWritten (State.wakeSp lo n s l) = butWritten s := by
  induction l generalizing s with
  | nil => rfl
  | cons z l ih =>
    have woken : ∀ m t sc a k u r v, butWritten (((s.wake z m).acquireSp t sc a k).putReg u r v) = butWritten s := by
      intro m t sc a k u r v
      rw [State.acquireSp_eq, s.wake_keeps z m]
      rfl
    unfold State.wakeSp
    split <;> try dsimp only
    · split
      · exact (ih _).trans (woken ..)
      · exact ih s
    · split
      · exact (ih _).trans (woken ..)
      · exact ih s
    · exact ih s

theorem pass_butWritten (s : State) (a b : Holder) (l : List (Nat × BitVec 4)) : butWritten (s.pass a b l) = butWritten s := by
  rw [State.pass_eq]; rfl

theorem spPutBy_butWritten (s : State) (a : Nat) (also : List Known) (rel : Option (Nat × BitVec 4)) (atomic : Option (BitVec 4)) (k : Nat)
    (b : List Byte) : butWritten (s.spPutBy a also rel atomic k b) = butWritten s := by
  unfold State.spPutBy State.spPut
  rw [State.record_eq]
  exact wakeSp_butWritten ..

theorem touchAll_butWritten (s : State) (l : List Nat) : butWritten (s.touchAll l) = butWritten s := by
  unfold State.touchAll
  refine State.foldl_keeps (fun u => butWritten u = butWritten s) _ _ _ rfl fun u hu b _ => Eq.trans ?_ hu
  unfold State.touch
  split
  · rfl
  · dsimp only; split <;> rfl

theorem writeBy_butWritten (s : State) (a : Nat) (also : List Known) (rel : Option (Nat × BitVec 4)) (atomic : Option (BitVec 4)) (p : Phys)
    (b : List Byte) : butWritten (s.writeBy a also rel atomic p b) = butWritten s := by
  unfold State.writeBy
  dsimp only
  rw [State.record_eq]
  exact touchAll_butWritten ..

/-! ## Blocks of bytes -/

theorem keptOutside_put (m : Memory) (a n v : Nat) : KeptOutside m (Memory.put m a (leBytes v n)) [(a, n)] := fun _ h =>
  Memory.byte_put_outside _ _ _ _ (by rw [leBytes_length]; exact h (a, n) (List.mem_singleton_self _))

theorem KeptOutside.read {m0 m1 : Memory} {l : List (Nat × Nat)} (h : KeptOutside m0 m1 l) {a n : Nat}
    (ha : ∀ e ∈ l, a + n ≤ e.1 ∨ e.1 + e.2 ≤ a) : Memory.read m1 a n = Memory.read m0 a n := by
  induction n generalizing a with
  | zero => rfl
  | succ n ih =>
    rw [Memory.read, Memory.read]
    rw [h a fun e he => by have := ha e he; omega, ih fun e he => by have := ha e he; omega]

section
variable {α : Type} (f : α → Nat) (g : α → List Byte)

theorem byte_puts_outside (l : List α) (m : Memory) {A : Nat} (h : ∀ j ∈ l, A < f j ∨ f j + (g j).length ≤ A) :
    Memory.byte (l.foldl (fun m j => Memory.put m (f j) (g j)) m) A = Memory.byte m A :=
  State.foldl_keeps (fun u => Memory.byte u A = Memory.byte m A) _ _ _ rfl fun _ hu j hj =>
    (Memory.byte_put_outside _ _ _ _ (h j hj)).trans hu

/-- A byte of one of some blocks that do not meet. -/
theorem byte_puts_inside {l : List α} (hl : l.Pairwise fun i j => f i + (g i).length ≤ f j ∨ f j + (g j).length ≤ f i) {i : α} (hi : i ∈ l)
    {b : Nat} (hb : b < (g i).length) (m : Memory) : Memory.byte (l.foldl (fun m j => Memory.put m (f j) (g j)) m) (f i + b) = (g i)[b] := by
  induction l generalizing m with
  | nil => cases hi
  | cons j l ih =>
    obtain ⟨hj, hl⟩ := List.pairwise_cons.1 hl
    rw [List.foldl_cons]
    rcases List.mem_cons.1 hi with rfl | hi
    · rw [byte_puts_outside f g _ _ fun k hk => by have := hj k hk; omega, Memory.byte_put_inside]
    · exact ih hl hi _

end

/-! ## The step of a ring (R336) -/

/-- The place of the slot that is `j` after TAIL, in a ring whose slots begin at a place. -/
def slotAt (s : State) (k place j : Nat) : Nat := place + 64 * ((Memory.read s.sp (k + 12) 4 + j) % 2 ^ (Memory.read s.sp (k + 16) 1 % 32))

/-- What a slot of a message holds. -/
def slotBytes (msg : List Byte) (j : Nat) : List Byte := (msg.drop (64 * j)).take 64

theorem slotBytes_length {msg : List Byte} {j : Nat} (h : j < msg.length / 64) : (slotBytes msg j).length = 64 := by
  unfold slotBytes
  rw [List.length_take, List.length_drop]
  omega

theorem slotBytes_get {msg : List Byte} {j b : Nat} (hb : b < (slotBytes msg j).length) : (slotBytes msg j)[b] = msg.getD (64 * j + b) 0 := by
  simp only [slotBytes, List.length_take, List.length_drop] at hb
  simp only [slotBytes, List.getElem_take, List.getElem_drop]
  rw [List.getD_eq_getElem _ _ (by omega)]

/-- Different slots of a ring do not meet. -/
theorem slotAt_disjoint (s : State) (k place : Nat) {i j : Nat} (hij : i < j) (hj : j < 2 ^ (Memory.read s.sp (k + 16) 1 % 32)) :
    slotAt s k place i + 64 ≤ slotAt s k place j ∨ slotAt s k place j + 64 ≤ slotAt s k place i := by
  unfold slotAt
  generalize Memory.read s.sp (k + 12) 4 = t, 2 ^ (Memory.read s.sp (k + 16) 1 % 32) = N at *
  have : (t + i) % N ≠ (t + j) % N := fun e => by
    have e : i ≡ j [MOD N] := Nat.ModEq.add_left_cancel' t e
    rw [Nat.ModEq, Nat.mod_eq_of_lt (hij.trans hj), Nat.mod_eq_of_lt hj] at e
    omega
  omega

theorem slotAt_within (s : State) (k place j : Nat) :
    place ≤ slotAt s k place j ∧ slotAt s k place j + 64 ≤ place + 64 * 2 ^ (Memory.read s.sp (k + 16) 1 % 32) := by
  have := Nat.mod_lt (Memory.read s.sp (k + 12) 4 + j) (show 0 < 2 ^ (Memory.read s.sp (k + 16) 1 % 32) by positivity)
  unfold slotAt
  omega

theorem ringFill_butWritten (s : State) (c k : Nat) (msg : List Byte) : butWritten (s.ringFill c k msg) = butWritten s :=
  State.foldl_keeps (fun u => butWritten u = butWritten s) _ _ _ rfl fun _ hu _ _ => (spPutBy_butWritten ..).trans hu

theorem ringCommit_butWritten (s : State) (c k n : Nat) : butWritten (s.ringCommit c k n) = butWritten s :=
  (spPutBy_butWritten ..).trans (pass_butWritten ..)

theorem ringFill_mem (s : State) (c k : Nat) (msg : List Byte) : (s.ringFill c k msg).mem = s.mem :=
  State.foldl_keeps (fun u : State => u.mem = s.mem) _ _ _ rfl fun _ hu _ _ => (State.spPutBy_mem ..).trans hu

theorem ringCommit_mem (s : State) (c k n : Nat) : (s.ringCommit c k n).mem = s.mem := by
  unfold State.ringCommit
  rw [State.spPutBy_mem, State.pass_eq]

theorem ringFill_sp (s : State) {c k place : Nat} (msg : List Byte)
    (h : s.ringSlots c k (Memory.read s.sp k 4 % 2 ^ 30) (64 * 2 ^ (Memory.read s.sp (k + 16) 1 % 32)) = some place) :
    (s.ringFill c k msg).sp =
      (List.range (msg.length / 64)).foldl (fun m j => Memory.put m (slotAt s k place j) (slotBytes msg j)) s.sp := by
  unfold State.ringFill
  rw [ringAt_eq]
  dsimp only [Nat.add_zero]
  rw [h, Option.getD_some]
  exact (List.foldl_hom State.sp fun _ _ => (State.spPutBy_sp ..).symm).symm

/-- TAIL counts more slots. -/
theorem ringCommit_sp (s : State) (c k n : Nat) :
    (s.ringCommit c k n).sp = Memory.put s.sp (k + 12) (leBytes (Memory.read s.sp (k + 12) 4 + n) 4) := by
  unfold State.ringCommit
  rw [State.spPutBy_sp, State.pass_eq]
  rfl

theorem ringDrop_sp (s : State) (c k : Nat) :
    (s.ringDrop c k).sp = Memory.put s.sp (k + 24) (leBytes (Memory.read s.sp (k + 24) 4 + 1) 4) := State.spPutBy_sp ..

/-- The slots of a message hold it, and nothing else has changed. -/
theorem ringFill_bytes (s : State) {c k place : Nat} {msg : List Byte}
    (h : s.ringSlots c k (Memory.read s.sp k 4 % 2 ^ 30) (64 * 2 ^ (Memory.read s.sp (k + 16) 1 % 32)) = some place)
    (hn : msg.length / 64 ≤ 2 ^ (Memory.read s.sp (k + 16) 1 % 32)) :
    (∀ j < msg.length / 64, ∀ b < 64, Memory.byte (s.ringFill c k msg).sp (slotAt s k place j + b) = msg.getD (64 * j + b) 0) ∧
      KeptOutside s.sp (s.ringFill c k msg).sp [(place, 64 * 2 ^ (Memory.read s.sp (k + 16) 1 % 32))] := by
  have len : ∀ j ∈ List.range (msg.length / 64), (slotBytes msg j).length = 64 := fun j hj => slotBytes_length (List.mem_range.1 hj)
  rw [ringFill_sp s msg h]
  refine ⟨fun j hj b hb => ?_, fun A hA => byte_puts_outside _ _ _ _ fun j hj => ?_⟩
  · rw [byte_puts_inside _ _ ?_ (List.mem_range.2 hj) (by rw [slotBytes_length hj]; exact hb), slotBytes_get]
    refine List.pairwise_lt_range.imp_of_mem fun {i l} hi hl hil => ?_
    rw [len i hi, len l hl]
    exact slotAt_disjoint s k place hil ((List.mem_range.1 hl).trans_le hn)
  · have := hA _ (List.mem_singleton_self _)
    have := slotAt_within s k place j
    rw [len j hj]
    omega

/-- A message that a ring takes stands in the slots after TAIL, and TAIL counts them (R336). -/
theorem ringEntered (s : State) {c k place : Nat} {msg : List Byte}
    (h : s.ringSlots c k (Memory.read s.sp k 4 % 2 ^ 30) (64 * 2 ^ (Memory.read s.sp (k + 16) 1 % 32)) = some place)
    (hn : msg.length / 64 ≤ 2 ^ (Memory.read s.sp (k + 16) 1 % 32))
    (hd : place + 64 * 2 ^ (Memory.read s.sp (k + 16) 1 % 32) ≤ k ∨ k + 32 ≤ place) :
    let m := ((s.ringFill c k msg).ringCommit c k (msg.length / 64)).sp
    Memory.read m (k + 12) 4 = (Memory.read s.sp (k + 12) 4 + msg.length / 64) % 2 ^ 32 ∧
      (∀ j < msg.length / 64, ∀ b < 64, Memory.byte m (slotAt s k place j + b) = msg.getD (64 * j + b) 0) ∧
      KeptOutside s.sp m [(place, 64 * 2 ^ (Memory.read s.sp (k + 16) 1 % 32)), (k + 12, 4)] := by
  obtain ⟨bytes, kept⟩ := ringFill_bytes s h hn
  have tail : Memory.read (s.ringFill c k msg).sp (k + 12) 4 = Memory.read s.sp (k + 12) 4 := by
    refine kept.read fun e he => ?_
    rw [List.mem_singleton.1 he]
    omega
  rw [ringCommit_sp, tail]
  refine ⟨Memory.read_put_leBytes .., fun j hj b hb => ?_, fun A hA => ?_⟩
  · have := slotAt_within s k place j
    rw [Memory.byte_put_outside _ _ _ _ (by rw [leBytes_length]; omega)]
    exact bytes j hj b hb
  · rw [keptOutside_put _ _ _ _ A fun e he => hA e (List.mem_cons_of_mem _ he)]
    exact kept A fun e he => hA e (List.mem_cons.2 (.inl (List.mem_singleton.1 he)))

theorem ringFull_iff (s : State) (k n : Nat) (tc : TClass) : s.ringFull k n tc = true ↔
    let fill := (Memory.read s.sp (k + 12) 4 + 2 ^ 32 - Memory.read s.sp (k + 8) 4) % 2 ^ 32
    2 ^ (Memory.read s.sp (k + 16) 1 % 32) < fill + n ∨
      (tc ≠ .lat ∧ Memory.read s.sp (k + 20) 2 ≠ 0 ∧ Memory.read s.sp (k + 20) 2 < fill + n) := by
  unfold State.ringFull
  dsimp only
  rw [ringAt_eq, ringMark_eq]
  simp only [Bool.or_eq_true, Bool.and_eq_true, decide_eq_true_eq, bne_iff_ne, and_assoc]

theorem ringDeliver_bad {s : State} {c k : Nat} {tc : TClass} {posted : Bool} {msg : List Byte} (h : ¬s.ringGood c k = true) :
    s.ringDeliver c k tc posted msg = (s, 2) := if_pos (by rw [Bool.not_eq_true', ← Bool.not_eq_true]; exact h)

theorem ringDeliver_full {s : State} {c k : Nat} {tc : TClass} {posted : Bool} {msg : List Byte} (h : s.ringGood c k = true)
    (hf : s.ringFull k (msg.length / 64) tc = true) :
    s.ringDeliver c k tc posted msg = (if posted then s.ringDrop c k else s, 1) := by
  unfold State.ringDeliver
  rw [if_neg (by rw [h]; decide), if_pos hf]

theorem ringDeliver_room {s : State} {c k : Nat} {tc : TClass} {posted : Bool} {msg : List Byte} (h : s.ringGood c k = true)
    (hf : ¬s.ringFull k (msg.length / 64) tc = true) :
    s.ringDeliver c k tc posted msg = ((s.ringFill c k msg).ringCommit c k (msg.length / 64), 0) := by
  unfold State.ringDeliver
  rw [if_neg (by rw [h]; decide), if_neg hf]

/-- A delivery changes the scratchpad, and what its writes change beside. -/
theorem ringDeliver_keeps (s : State) (c k : Nat) (tc : TClass) (posted : Bool) (msg : List Byte) :
    butWritten (s.ringDeliver c k tc posted msg).1 = butWritten s ∧ (s.ringDeliver c k tc posted msg).1.mem = s.mem := by
  by_cases hg : s.ringGood c k = true
  · by_cases hf : s.ringFull k (msg.length / 64) tc = true
    · rw [ringDeliver_full hg hf]
      cases posted
      · exact ⟨rfl, rfl⟩
      · exact ⟨spPutBy_butWritten .., State.spPutBy_mem ..⟩
    · rw [ringDeliver_room hg hf]
      exact ⟨(ringCommit_butWritten ..).trans (ringFill_butWritten ..), (ringCommit_mem ..).trans (ringFill_mem ..)⟩
  · rw [ringDeliver_bad hg]
    exact ⟨rfl, rfl⟩

/-- R336: the network interface performs the step of the ring. -/
theorem ringDeliver_step (s : State) (c k : Nat) (tc : TClass) (posted : Bool) (msg : List Byte) :
    RingStep s (s.ringDeliver c k tc posted msg).1.sp c k tc posted msg (s.ringDeliver c k tc posted msg).2 := by
  unfold RingStep
  refine ⟨fun hg => ?_, fun hg hf => ?_, fun hg hf place hp hd => ?_⟩
  · rw [ringDeliver_bad hg]
    exact ⟨rfl, rfl⟩
  · rw [ringDeliver_full hg ((ringFull_iff ..).2 hf)]
    refine ⟨rfl, ?_, ?_⟩
    · rintro rfl; rfl
    · rintro rfl
      rw [if_pos rfl, ringDrop_sp]
      exact ⟨Memory.read_put_leBytes .., keptOutside_put _ _ _ _⟩
  · rw [ringDeliver_room hg (mt (ringFull_iff ..).1 hf)]
    exact ⟨rfl, ringEntered s hp ((Nat.le_add_left ..).trans (Nat.le_of_not_lt (not_or.1 hf).1)) hd⟩

/-! ## Rings of the classifier's rules (R428) -/

theorem bits_ringCluster (ring : Nat) : bits ring 28 25 = ring / 2 ^ 25 % 16 := by
  rw [bits, Nat.shiftRight_eq_div_pow]
  rfl

theorem ringKey_atShare {s : State} {ring k : Nat} (h : RingAtShare s ring k) : s.ringKey ring = some k := by
  obtain ⟨far, lt, aligned, inside, rfl⟩ := h
  have hx : (BitVec.ofNat 64 ring).toNat = ring := by
    rw [BitVec.toNat_ofNat]
    omega
  have high : bits ring 63 30 = 0 := by
    unfold bits
    rw [Nat.shiftRight_eq_div_pow, Nat.div_eq_of_lt lt, Nat.zero_mod]
  have off : bits ring 20 0 = ring % 2 ^ 21 := rfl
  have core : bits ring 24 21 = ring / 2 ^ 21 % 16 := by
    rw [bits, Nat.shiftRight_eq_div_pow]
    rfl
  unfold State.ringKey farPlace
  dsimp only
  rw [hx, high, off, core, bits_ringCluster, if_neg, if_neg (by rw [aligned]; decide)]
  rintro (h | h | h)
  · exact h rfl
  · rw [bitAt, far] at h
    exact absurd h (by decide)
  · omega

theorem ringPending_of {s : State} {k : Nat} (h : ∃ g ∈ s.frames, RingAtShare s g.ring k) : s.ringPending k = true := by
  obtain ⟨g, hg, hk⟩ := h
  exact List.any_eq_true.2 ⟨g, hg, by rw [ringKey_atShare hk, beq_self_eq_true]⟩

theorem ringPending_none {s : State} {k : Nat} (h : ∀ g ∈ s.frames, s.ringKey g.ring ≠ some k) : s.ringPending k = false :=
  List.any_eq_false.2 fun g hg => by rw [beq_iff_eq]; exact h g hg

/-- A frame enters its ring by the step of R336: one too long for the ring finds it full. -/
theorem frameDeliver_eq {s : State} {ring k : Nat} (h : s.ringKey ring = some k) (msg : List Byte) :
    s.frameDeliver ring msg = (s.ringDeliver (ring / 2 ^ 25 % 16) k .lat true msg).1 := by
  unfold State.frameDeliver
  rw [h]
  dsimp only
  rw [ringAt_eq]
  dsimp only
  rw [bits_ringCluster]
  split
  · next hb =>
    rw [Bool.and_eq_true, decide_eq_true_eq] at hb
    obtain ⟨good, long⟩ := hb
    rw [ringDeliver_full good ((ringFull_iff ..).2 (.inl (by omega))), if_pos rfl]
  · rfl

theorem frameDeliver_step {s : State} {ring k : Nat} (h : s.ringKey ring = some k) (msg : List Byte) :
    ∃ st, RingStep s (s.frameDeliver ring msg).sp (ring / 2 ^ 25 % 16) k .lat true msg st := by
  rw [frameDeliver_eq h]
  exact ⟨_, ringDeliver_step ..⟩

theorem frameDeliver_keeps {s : State} {ring k : Nat} (h : s.ringKey ring = some k) (msg : List Byte) :
    butWritten (s.frameDeliver ring msg) = butWritten s ∧ (s.frameDeliver ring msg).mem = s.mem := by
  rw [frameDeliver_eq h]
  exact ringDeliver_keeps ..

/-! ## FIXED_LATENCY_RELEASE (R429) -/

theorem fixedLatencyRelease_none {s : State} {x : Nat} (hh : s.hole = false) (hf : s.frames.find? (fun f => f.id == x) = none) :
    exec (.fixedLatencyRelease x) s = .next s := by
  rw [exec_fixedLatencyRelease]
  unfold execFixedLatencyRelease
  rw [hf]
  exact out_next hh

section
variable {s : State} {x : Nat} {f e : FixFrame} (hh : s.hole = false) (hf : s.frames.find? (fun f => f.id == x) = some f)
  (he : s.frames.find? (fun g => g.ring == f.ring) = some e)
include hh hf he

theorem fixedLatencyRelease_early (h : s.cycle < e.due) : exec (.fixedLatencyRelease x) s = .next s := by
  rw [exec_fixedLatencyRelease]
  unfold execFixedLatencyRelease
  rw [hf, Option.bind_some, he]
  dsimp only
  rw [if_pos h]
  exact out_next hh

/-- The first frame of a ring leaves the fixed-latency path: its slots count, it is dropped, or it enters the ring now (R429). -/
theorem fixedLatencyRelease_next {k : Nat} (h : e.due ≤ s.cycle) (hk : RingAtShare s e.ring k) : ∃ u,
    exec (.fixedLatencyRelease x) s = .next u ∧ u.frames = s.frames.filter (fun g => g.id != e.id) ∧ u.mem = s.mem ∧
    (e.landed = true → Memory.read u.sp (k + 12) 4 = (Memory.read s.sp (k + 12) 4 + e.msg.length / 64) % 2 ^ 32 ∧
      KeptOutside s.sp u.sp [(k + 12, 4)]) ∧
    (e.landed = false → e.bulk = true → Memory.read u.sp (k + 24) 4 = (Memory.read s.sp (k + 24) 4 + 1) % 2 ^ 32 ∧
      KeptOutside s.sp u.sp [(k + 24, 4)]) ∧
    (e.landed = false → e.bulk = false → ∃ st, RingStep s u.sp (e.ring / 2 ^ 25 % 16) k .lat true e.msg st) := by
  let v : State := { s with frames := s.frames.filter fun g => g.id != e.id }
  have hkey : v.ringKey e.ring = some k := ringKey_atShare (s := v) hk
  have key : exec (.fixedLatencyRelease x) s =
      (if e.landed then v.ringCommit (e.ring / 2 ^ 25 % 16) k (e.msg.length / 64)
        else if e.bulk then v.ringDrop (e.ring / 2 ^ 25 % 16) k else v.frameDeliver e.ring e.msg).out := by
    rw [exec_fixedLatencyRelease]
    unfold execFixedLatencyRelease
    rw [hf, Option.bind_some, he]
    dsimp only
    rw [if_neg (Nat.not_lt.2 h), bits_ringCluster]
    show (match v.ringKey e.ring with | none => v | some k => _).out = _
    rw [hkey]
  have frame : ∀ u : State, butWritten u = butWritten v → u.hole = false ∧ u.frames = v.frames := fun u hu =>
    ⟨(congrArg State.hole hu : _).trans hh, (congrArg State.frames hu : _)⟩
  rw [key]
  cases hl : e.landed with
  | true =>
    obtain ⟨hole, frames⟩ := frame _ (ringCommit_butWritten v (e.ring / 2 ^ 25 % 16) k (e.msg.length / 64))
    refine ⟨_, out_next hole, frames, ringCommit_mem .., fun _ => ?_, fun h => absurd h (by decide), fun h => absurd h (by decide)⟩
    rw [if_pos rfl, ringCommit_sp]
    exact ⟨Memory.read_put_leBytes .., keptOutside_put _ _ _ _⟩
  | false =>
    cases hb : e.bulk with
    | true =>
      obtain ⟨hole, frames⟩ := frame (v.ringDrop (e.ring / 2 ^ 25 % 16) k) (spPutBy_butWritten ..)
      refine ⟨_, out_next hole, frames, State.spPutBy_mem .., fun h => absurd h (by decide), fun _ _ => ?_, fun _ h => absurd h (by decide)⟩
      rw [if_neg Bool.false_ne_true, if_pos rfl, ringDrop_sp]
      exact ⟨Memory.read_put_leBytes .., keptOutside_put _ _ _ _⟩
    | false =>
      obtain ⟨keeps, mem⟩ := frameDeliver_keeps hkey e.msg
      obtain ⟨hole, frames⟩ := frame _ keeps
      exact ⟨_, out_next hole, frames, mem, fun h => absurd h (by decide), fun _ h => absurd h (by decide),
        fun _ _ => frameDeliver_step hkey e.msg⟩

end

/-! ## The classifier (R428) -/

/-- A rule of the classifier. -/
def ruleAt (s : State) (i : Nat) : W128 := BitVec.ofNat 128 (Memory.read s.mem (s.sys.classTab.toNat + 16 * i) 16)

/-- A rule matches a frame on a port. -/
def RuleFits (s : State) (port : Nat) (f : List Byte) (i : Nat) : Prop :=
  (ruleAt s i).getLsbD 0 = true ∧ (ruleAt s i).getLsbD (64 + port) = true ∧ ((ruleAt s i).extractLsb' 32 16).toNat = be16 f (etherAt f) ∧
    ((ruleAt s i).extractLsb' 48 16 = 0 ∨ udpPort f = some ((ruleAt s i).extractLsb' 48 16).toNat)

theorem ruleTakes_iff (s : State) (port : Nat) (f : List Byte) (i : Nat) :
    RuleTakes s port f i ↔ i < 256 ∧ RuleFits s port f i ∧ ∀ j < i, ¬RuleFits s port f j := Iff.rfl

theorem rd_rule (s : State) (i : Nat) : s.rd (s.sys.classTab.toNat + 16 * i) 16 = (ruleAt s i).toNat := by
  unfold ruleAt State.rd
  rw [BitVec.toNat_ofNat, Nat.mod_eq_of_lt ((read_lt ..).trans_le (by decide))]

/-- The classifier finds the first rule that matches. -/
theorem classify_eq (s : State) (port : Nat) (f : List Byte) [DecidablePred (RuleFits s port f)] :
    s.classify port f = ((List.range 256).find? fun i => decide (RuleFits s port f i)).map fun i => (ruleAt s i).toNat := by
  unfold State.classify
  simp only [rd_rule]
  rw [List.find?_map]
  congr 2
  funext i
  have zero : ∀ x : BitVec 16, x.toNat = 0 ↔ x = 0 := fun x => ⟨fun h => BitVec.eq_of_toNat_eq h, fun h => h ▸ rfl⟩
  rw [Bool.eq_iff_iff, decide_eq_true_eq]
  simp only [Function.comp_apply, bitAt_eq, bits_eq, Bool.and_eq_true, Bool.or_eq_true, beq_iff_eq, RuleFits, and_assoc, zero]

theorem classify_takes {s : State} {port : Nat} {f : List Byte} {i : Nat} (h : RuleTakes s port f i) :
    s.classify port f = some (ruleAt s i).toNat := by
  classical
  obtain ⟨hi, fits, first⟩ := (ruleTakes_iff ..).1 h
  rw [classify_eq, List.find?_range_eq_some.2 ⟨decide_eq_true fits, List.mem_range.2 hi, fun j hj => by simpa using first j hj⟩]
  rfl

theorem classify_none {s : State} {port : Nat} {f : List Byte} (h : ∀ i, ¬RuleTakes s port f i) : s.classify port f = none := by
  classical
  rw [classify_eq, Option.map_eq_none_iff]
  by_contra hn
  obtain ⟨i, hi⟩ := Option.ne_none_iff_exists'.1 hn
  obtain ⟨fits, lt, first⟩ := List.find?_range_eq_some.1 hi
  exact h i ((ruleTakes_iff ..).2 ⟨List.mem_range.1 lt, of_decide_eq_true fits, fun j hj => by simpa using first j hj⟩)

/-- R429: the message of a frame. -/
theorem frameMsg_message (draw : Nat) {port : Nat} {f : List Byte} (hp : port < 4) (hf : f.length ≤ 9212) :
    MessageOf port f (frameMsg draw port f) := by
  have head : (leBytes (f.length % 2 ^ 14 + 2 ^ 16 * port) 8).length = 8 := leBytes_length ..
  unfold MessageOf frameMsg
  dsimp only
  refine ⟨?_, ?_, ?_⟩
  · rw [List.length_append, List.length_append, head, List.length_map, List.length_range]
    omega
  · rw [List.append_assoc, List.take_left' head, leVal_leBytes]
    omega
  · rw [List.append_assoc, List.drop_left' head, List.take_left' rfl]

/-! ## ETHERNET_FRAME_RECEIVE (R428, R429) -/

/-- A frame that its port takes: good, of a legal length, at a port in service, and no carrier of an exchange packet. -/
def FrameOk (s : State) (p : Nat) (f : List Byte) (good : Bool) : Prop :=
  good = true ∧ 60 ≤ f.length ∧ f.length ≤ 9212 ∧ s.portDown (24 + p) = false ∧ be16 f (etherAt f) ≠ 0x88B5

/-- What a frame does that a rule takes to a ring. -/
def frameTaken (s : State) (port : BitVec 2) (f : List Byte) (good : Bool) (r : W128) : State :=
  let ring := (r.extractLsb' 68 30).toNat
  let c := ring / 2 ^ 25 % 16
  let msg := frameMsg s.draw port.toNat f
  if r.getLsbD 1 = true ∧ (s.cl c).region ≠ none ∧ (s.cl c).res.resident = true then
    { s with nextId := s.nextId + 1, frames := s.frames ++ [⟨s.nextId, s.cycle + 2160, port.toNat, ring, false, false, msg⟩] }
  else if (s.ringKey ring).any s.ringPending then
    { s with inputs := s.inputs ++ [(s.cycle + 1, .ethernetFrameReceive port f good)] }
  else s.frameDeliver ring msg

section
variable {s : State} {port : BitVec 2} {f : List Byte} {good : Bool}

theorem frameOk_iff : (!good || decide (f.length + 4 < 64) || decide (9216 < f.length + 4) || s.portDown (24 + port.toNat) ||
    be16 f (etherAt f) == 0x88B5) = true ↔ ¬FrameOk s port.toNat f good := by
  have short : f.length + 4 < 64 ↔ f.length < 60 := by omega
  have long : 9216 < f.length + 4 ↔ 9212 < f.length := by omega
  simp only [FrameOk, short, long, Bool.or_eq_true, Bool.not_eq_true', decide_eq_true_eq, beq_iff_eq, not_and_or, not_le, ne_eq, not_not,
    Bool.not_eq_true, Bool.not_eq_false, or_assoc]

theorem ethernetFrameReceive_dropped (hh : s.hole = false) (h : ¬FrameOk s port.toNat f good ∨ ∀ i, ¬RuleTakes s port.toNat f i) :
    exec (.ethernetFrameReceive port f good) s = .next s := by
  rw [exec_ethernetFrameReceive]
  unfold execEthernetFrameReceive
  by_cases ok : FrameOk s port.toNat f good
  · dsimp only
    rw [if_neg (not_not_intro ok ∘ frameOk_iff.1), classify_none (h.resolve_left (not_not_intro ok))]
    exact out_next hh
  · exact (if_pos (frameOk_iff.2 ok)).trans (out_next hh)

theorem ethernetFrameReceive_taken {i : Nat} (ok : FrameOk s port.toNat f good) (h : RuleTakes s port.toNat f i) :
    exec (.ethernetFrameReceive port f good) s = (frameTaken s port f good (ruleAt s i)).out := by
  have ring : bits (ruleAt s i).toNat 97 68 = ((ruleAt s i).extractLsb' 68 30).toNat := bits_eq ..
  rw [exec_ethernetFrameReceive]
  unfold execEthernetFrameReceive frameTaken
  dsimp only
  rw [if_neg (not_not_intro ok ∘ frameOk_iff.1), classify_takes h]
  dsimp only
  rw [ring, bits_ringCluster]
  simp only [bitAt_eq, Option.isSome_iff_ne_none]
  split
  · rfl
  · split <;> rfl

end

section
variable {s : State} {port : BitVec 2} {f : List Byte} {good : Bool} {i : Nat} (hh : s.hole = false) (ok : FrameOk s port.toNat f good)
  (hi : RuleTakes s port.toNat f i)
include hh ok hi

/-- A frame of a rule with FIXED goes on the fixed-latency path of a ring on a resident region. -/
theorem ethernetFrameReceive_fixed (hf : (ruleAt s i).getLsbD 1 = true ∧
      (s.cl (((ruleAt s i).extractLsb' 68 30).toNat / 2 ^ 25 % 16)).region ≠ none ∧
      (s.cl (((ruleAt s i).extractLsb' 68 30).toNat / 2 ^ 25 % 16)).res.resident = true) :
    ∃ e, exec (.ethernetFrameReceive port f good) s = .next { s with nextId := s.nextId + 1, frames := s.frames ++ [e] } ∧
      MessageOf port.toNat f e.msg ∧ e.id = s.nextId ∧ e.due = s.cycle + 2160 ∧ e.ring = ((ruleAt s i).extractLsb' 68 30).toNat ∧
      e.port = port.toNat ∧ e.landed = false ∧ e.bulk = false := by
  obtain ⟨_, _, short, _⟩ := id ok
  rw [ethernetFrameReceive_taken ok hi]
  unfold frameTaken
  dsimp only
  rw [if_pos hf]
  exact ⟨_, out_next hh, frameMsg_message _ port.isLt short, rfl, rfl, rfl, rfl, rfl, rfl⟩

section
variable {k : Nat} (hf : ¬((ruleAt s i).getLsbD 1 = true ∧ (s.cl (((ruleAt s i).extractLsb' 68 30).toNat / 2 ^ 25 % 16)).region ≠ none ∧
    (s.cl (((ruleAt s i).extractLsb' 68 30).toNat / 2 ^ 25 % 16)).res.resident = true))
  (hk : RingAtShare s ((ruleAt s i).extractLsb' 68 30).toNat k)
include hf hk

/-- A frame for a ring that a frame before it has not entered yet comes again. -/
theorem ethernetFrameReceive_waits (hp : ∃ g ∈ s.frames, RingAtShare s g.ring k) : exec (.ethernetFrameReceive port f good) s =
    .next { s with inputs := s.inputs ++ [(s.cycle + 1, .ethernetFrameReceive port f good)] } := by
  rw [ethernetFrameReceive_taken ok hi]
  unfold frameTaken
  dsimp only
  rw [if_neg hf, ringKey_atShare hk, Option.any_some, if_pos (ringPending_of hp)]
  exact out_next hh

/-- A frame enters its ring at once. -/
theorem ethernetFrameReceive_enters (hp : ∀ g ∈ s.frames, s.ringKey g.ring ≠ some k) :
    ∃ u msg st, exec (.ethernetFrameReceive port f good) s = .next u ∧ MessageOf port.toNat f msg ∧
      RingStep s u.sp (((ruleAt s i).extractLsb' 68 30).toNat / 2 ^ 25 % 16) k .lat true msg st ∧ u.mem = s.mem := by
  obtain ⟨_, _, short, _⟩ := id ok
  have key := ringKey_atShare hk
  rw [ethernetFrameReceive_taken ok hi]
  unfold frameTaken
  dsimp only
  rw [if_neg hf, key, Option.any_some, if_neg (by rw [ringPending_none hp]; decide)]
  obtain ⟨keeps, mem⟩ := frameDeliver_keeps key (frameMsg s.draw port.toNat f)
  obtain ⟨st, step⟩ := frameDeliver_step key (frameMsg s.draw port.toNat f)
  exact ⟨_, _, st, out_next ((congrArg State.hole keeps : _).trans hh), frameMsg_message _ port.isLt short, step, mem⟩

end
end

/-! ## Sending a reply (R319, R321, R422) -/

theorem modXfer_eq (s : State) (id : Nat) (f : Xfer → Xfer) :
    s.modXfer id f = { s with xfers := s.xfers.map fun x => if x.id = id then f x else x } := by
  simp only [State.modXfer, beq_iff_eq]

/-- No reply leaves while one is awaited, its route is good, and neither reply input has room. -/
theorem sendReply_none {s : State} {x : Xfer} (h : ¬CanReply s x) : s.sendReply x = none := by
  unfold CanReply at h
  simp only [not_or, not_not, not_le] at h
  obtain ⟨posted, good, full0, full6⟩ := h
  unfold ReplyRouteGood replyRoute at good
  unfold State.sendReply
  dsimp only
  rw [if_neg posted, if_neg (by rw [good]; decide), if_pos (max_lt full0 full6)]

/-- A reply leaves, changing transfers and routers. -/
theorem sendReply_replied {s : State} {x : Xfer} (h : CanReply s x) :
    ∃ v : State, s.sendReply x = some v ∧ v = { s with xfers := v.xfers, routers := v.routers } ∧ Replied s v x id := by
  unfold State.sendReply
  dsimp only
  by_cases posted : x.posted = true
  · rw [if_pos posted]
    exact ⟨_, rfl, rfl, fun _ => ⟨rfl, rfl⟩, fun h => by simp [posted] at h, fun h => by simp [posted] at h⟩
  by_cases good : ReplyRouteGood s x
  · have route : s.restOk x.cluster 0 ((x.back ++ [0#4]).map (·.toNat)) = true := good
    have room : ¬max (s.freeFlits true x.cluster 0 x.tc) (s.freeFlits true x.cluster 6 x.tc) < x.repFlits := by
      rw [not_lt, le_max_iff]
      rcases h with h | h | h
      · exact absurd h posted
      · exact absurd good h
      · exact h
    rw [if_neg posted, if_neg (by rw [route]; decide), if_neg room, modXfer_eq]
    refine ⟨_, rfl, rfl, fun h => absurd h (by simp [posted, good]), fun _ _ h => absurd good h, fun _ _ => ⟨rfl, ?_, fun j hj => ?_⟩⟩
    · exact (mget_mset_same ..).trans (by rw [max_self]; rfl)
    · exact mget_mset_other _ _ _ hj
  · have route : s.restOk x.cluster 0 ((x.back ++ [0#4]).map (·.toNat)) = false := Bool.eq_false_iff.2 good
    rw [if_neg posted, if_pos (by rw [route]; decide)]
    by_cases foreign : x.foreign = true
    · rw [if_pos foreign]
      exact ⟨_, rfl, rfl, fun _ => ⟨rfl, rfl⟩, fun _ h => by simp [foreign] at h, fun _ h => absurd h good⟩
    · rw [if_neg foreign, modXfer_eq]
      exact ⟨_, rfl, rfl, fun h => absurd h (by simp [posted, foreign]), fun _ _ _ => ⟨rfl, rfl⟩, fun _ h => absurd h good⟩

/-- A change of the transfer whose reply has left. -/
theorem Replied.mod {s v u : State} {x : Xfer} {f g : Xfer → Xfer} (h : Replied s v x f) (hf : ∀ z, (f z).id = z.id)
    (hx : u.xfers = v.xfers.map fun z => if z.id = x.id then g z else z) (hr : u.routers = v.routers) : Replied s u x (g ∘ f) := by
  obtain ⟨done, lost, sent⟩ := h
  have queue : ∀ k, u.queueAt k = v.queueAt k := fun k => by rw [State.queueAt, State.queueAt, hr]
  have both : ∀ pos : XWhere,
      (s.xfers.map fun y => if y.id = x.id then f { y with pos := pos } else y).map (fun z => if z.id = x.id then g z else z) =
        s.xfers.map fun y => if y.id = x.id then (g ∘ f) { y with pos := pos } else y := fun pos => by
    rw [List.map_map]
    refine List.map_congr_left fun y _ => ?_
    by_cases hy : y.id = x.id
    · simp only [Function.comp_apply, if_pos hy, hf]
    · simp only [Function.comp_apply, if_neg hy]
  refine ⟨fun h => ?_, fun h1 h2 h3 => ?_, fun h1 h2 => ?_⟩
  · obtain ⟨xs, rs⟩ := done h
    rw [hx, hr, xs]
    exact ⟨(List.map_congr_left fun z hz => if_neg (by simpa using List.of_mem_filter hz)).trans (List.map_id' _), rs⟩
  · obtain ⟨xs, rs⟩ := lost h1 h2 h3
    rw [hx, hr, xs]
    exact ⟨both _, rs⟩
  · obtain ⟨xs, q, others⟩ := sent h1 h2
    rw [hx, xs]
    exact ⟨both _, (queue _).trans q, fun j hj => (queue j).trans (others j hj)⟩

/-- A transfer whose reply has left is not held. -/
theorem Replied.noneHeld {s u : State} {x : Xfer} {f : Xfer → Xfer} (h : Replied s u x f) (hf : ∀ z, (f z).pos = z.pos) (hn : NoneHeld s) :
    NoneHeld u := by
  obtain ⟨done, lost, sent⟩ := h
  have moved : ∀ pos : XWhere, pos ≠ .held →
      ∀ z ∈ s.xfers.map (fun y => if y.id = x.id then f { y with pos := pos } else y), z.pos ≠ .held := by
    intro pos hp z hz
    obtain ⟨y, hy, rfl⟩ := List.mem_map.1 hz
    split
    · rw [hf]; exact hp
    · exact hn y hy
  unfold NoneHeld
  by_cases h1 : x.posted = true ∨ (x.foreign = true ∧ ¬ReplyRouteGood s x)
  · rw [(done h1).1]
    exact fun z hz => hn z (List.mem_of_mem_filter hz)
  · have posted : x.posted = false := Bool.eq_false_iff.2 fun h => h1 (.inl h)
    by_cases good : ReplyRouteGood s x
    · rw [(sent posted good).1]
      exact moved _ (by decide)
    · rw [(lost posted (Bool.eq_false_iff.2 fun h => h1 (.inr ⟨h, good⟩)) good).1]
      exact moved _ (by decide)

theorem injectHeld_none {l : List Xfer} (s : State) (h : ∀ x ∈ l, x.pos ≠ .held) : State.injectHeld l s = s := by
  induction l with
  | nil => rfl
  | cons x l ih =>
    rw [State.injectHeld, if_neg fun e => h x List.mem_cons_self e.1]
    exact ih fun y hy => h y (List.mem_cons_of_mem _ hy)

/-! ## At the destination (R54, R331) -/

/-- A place of a transfer is its region's when it arrives. -/
def HeldThere (s : State) (x : Xfer) (p : Option CopyPlace) : Prop :=
  match p with
  | some (.sp _) => (s.cl x.cluster).region = some x.rcb
  | some _ => True
  | none => False

theorem accepted_places (s : State) (x : Xfer) : Accepted s x ↔ x.status = 0 ∧ ∀ l ∈ x.lanes, HeldThere s x l.place := Iff.rfl

theorem placeHeld_iff (s : State) (x : Xfer) (p : Option CopyPlace) : s.placeHeld x p = true ↔ HeldThere s x p := by
  rcases p with _ | _ | _ | _ <;> simp [State.placeHeld, HeldThere]

theorem accepted_iff (s : State) (x : Xfer) : s.accepted x = true ↔ Accepted s x := by
  rw [accepted_places]
  unfold State.accepted
  simp only [Bool.and_eq_true, beq_iff_eq, List.all_eq_true, placeHeld_iff]
  rfl

/-- The status of a transfer that its destination refuses. -/
def refusal (x : Xfer) : BitVec 8 := if x.status = 0 then 2 else x.status

section
variable {s : State} {y : Xfer}

theorem arriveAt_waits (h : ¬CanReply s y) (act : State → State × BitVec 8) : s.arriveAt y act = s := by
  unfold State.arriveAt
  rw [sendReply_none h]

/-- The reply of a refused transfer leaves, and nothing is performed. -/
theorem arriveAt_refused (h : CanReply s y) (ha : ¬Accepted s y) (act : State → State × BitVec 8) :
    Replied s (s.arriveAt y act) y (fun x => { x with status := refusal y }) ∧
      s.arriveAt y act = { s with xfers := (s.arriveAt y act).xfers, routers := (s.arriveAt y act).routers } := by
  obtain ⟨v, hv, frame, replied⟩ := sendReply_replied h
  have no : v.accepted y ≠ true := by
    rw [frame]
    exact mt (accepted_iff s y).1 ha
  have e : s.arriveAt y act = v.modXfer y.id fun z => { z with status := refusal y } := by
    unfold State.arriveAt
    rw [hv]
    dsimp only
    rw [if_neg no]
    rfl
  rw [e, modXfer_eq]
  refine ⟨replied.mod (g := fun z => { z with status := refusal y }) (fun _ => rfl) rfl rfl, ?_⟩
  rw [frame]

/-- The reply of an accepted transfer leaves with what it did. -/
theorem arriveAt_accepted (h : CanReply s y) (ha : Accepted s y) (act : State → State × BitVec 8) :
    ∃ v : State, v = { s with xfers := v.xfers, routers := v.routers } ∧ Replied s v y id ∧
      s.arriveAt y act = { (act v).1 with
        xfers := (act v).1.xfers.map fun z => if z.id = y.id then { z with status := (act v).2 } else z } := by
  obtain ⟨v, hv, frame, replied⟩ := sendReply_replied h
  have yes : v.accepted y = true := by
    rw [frame]
    exact (accepted_iff s y).2 ha
  refine ⟨v, frame, replied, ?_⟩
  unfold State.arriveAt
  rw [hv]
  dsimp only
  rw [if_pos yes, modXfer_eq]

end

/-! ## What a destination reads (R72, R114, R116–R119) -/

/-- A record of the same write of which more may be known. -/
def Grown (r r' : WriteRec) : Prop := ∃ l, r' = { r with known := r.known ++ l }

theorem Grown.refl (r : WriteRec) : Grown r r := ⟨[], by rw [List.append_nil]⟩

theorem Grown.trans {r r' r'' : WriteRec} (h : Grown r r') (h' : Grown r' r'') : Grown r r'' := by
  obtain ⟨l, rfl⟩ := h
  obtain ⟨l', rfl⟩ := h'
  exact ⟨l ++ l', by simp only [List.append_assoc]⟩

theorem Grown.ite {c : Prop} {_ : Decidable c} {r r' : WriteRec} (h : Grown r r') : Grown r (if c then r' else r) := by
  split
  · exact h
  · exact .refl r

theorem grown_learn (r : WriteRec) (k : Known) : Grown r (r.learn k) := by
  unfold WriteRec.learn
  split
  · exact .refl r
  · exact ⟨[k], rfl⟩

/-- More may be known of the writes of a state, and its transfers may differ. -/
def Learns (s u : State) : Prop := u = { s with writes := u.writes, xfers := u.xfers } ∧ ∀ r' ∈ u.writes, ∃ r ∈ s.writes, Grown r r'

theorem Learns.refl (s : State) : Learns s s := ⟨rfl, fun r h => ⟨r, h, .refl r⟩⟩

theorem Learns.trans {s u v : State} (h : Learns s u) (h' : Learns u v) : Learns s v := by
  obtain ⟨e, hr⟩ := h
  obtain ⟨e', hr'⟩ := h'
  refine ⟨by rw [e', e], fun r'' h'' => ?_⟩
  obtain ⟨r', m', g'⟩ := hr' r'' h''
  obtain ⟨r, m, g⟩ := hr r' m'
  exact ⟨r, m, g.trans g'⟩

theorem Learns.modWrites (s : State) {f : WriteRec → WriteRec} (h : ∀ r, Grown r (f r)) : Learns s (s.modWrites f) := by
  refine ⟨by rw [State.modWrites_eq], fun r' hr => ?_⟩
  rw [State.modWrites_writes] at hr
  obtain ⟨r, m, rfl⟩ := List.mem_map.1 hr
  exact ⟨r, m, h r⟩

theorem Learns.pass (s : State) (a b : Holder) (l : List (Nat × BitVec 4)) : Learns s (s.pass a b l) :=
  .modWrites s fun r => State.foldl_keeps (Grown r) _ _ _ (.refl r) fun _ h _ _ => h.trans (.ite (grown_learn ..))

theorem Learns.took (s : State) (a : Nat) (acq : Option (BitVec 4)) (got : List (Nat × Byte × Option Nat)) : Learns s (s.took a acq got) := by
  have saw : ∀ p : WriteRec → Bool, Learns s (s.modWrites fun r => if p r then r.learn ⟨.saw a, [], none, false, []⟩ else r) :=
    fun p => .modWrites s fun r => .ite (grown_learn ..)
  unfold State.took
  dsimp only
  split
  · exact saw _
  · refine State.foldl_keeps (Learns s) _ _ _ (saw _) fun u h _ _ => ?_
    split
    · exact h.trans (.pass ..)
    · exact h

theorem Learns.modXfer (s : State) (id : Nat) (f : Xfer → Xfer) : Learns s (s.modXfer id f) := ⟨rfl, fun r h => ⟨r, h, .refl r⟩⟩

theorem knowsOp_grown {s u : State} (h : Learns s u) {r r' : WriteRec} (g : Grown r r') {id c kind : Nat} (hk : s.knowsOp id c kind r = true) :
    u.knowsOp id c kind r' = true := by
  obtain ⟨l, rfl⟩ := g
  have e : ∀ q, u.knowsOp id c kind q = s.knowsOp id c kind q := fun q => by rw [h.1]; rfl
  rw [e]
  unfold State.knowsOp State.chains at hk ⊢
  rw [List.any_eq_true] at hk ⊢
  obtain ⟨k, hm, hk⟩ := hk
  obtain ⟨hm, who⟩ := List.mem_filter.1 hm
  exact ⟨k, List.mem_filter.2 ⟨List.mem_append_left _ hm, who⟩, hk⟩

/-- What is found where more is known could be found before. -/
theorem Learns.finds {s u : State} (h : Learns s u) {id c kind A b : Nat} {space : Space}
    (hf : FindsOp u id c space kind A b) : FindsOp s id c space kind A b := by
  obtain ⟨now, old⟩ := hf
  have byte : u.byteOf space A = s.byteOf space A := by
    rw [h.1]
    cases space <;> rfl
  rw [byte] at now old
  refine ⟨fun hk => now fun r' hr hc => ?_, old.imp_right fun ⟨r', hr, hc, hb⟩ => ?_⟩
  · obtain ⟨r, m, g⟩ := h.2 r' hr
    exact knowsOp_grown h g (hk r m (by obtain ⟨l, rfl⟩ := g; exact hc))
  · obtain ⟨r, m, l, rfl⟩ := h.2 r' hr
    exact ⟨r, m, hc, hb⟩

/-- A byte of a read: the present one where all writes of it are kept, and always the present one or one that a write replaced. -/
def Rolled (keep : WriteRec → Bool) (ws : List WriteRec) (now : Nat → Byte) (e : Nat × Byte × Option Nat) : Prop :=
  ((∀ r ∈ ws, r.addr ≤ e.1 → e.1 < r.addr + r.old.length → keep r = true) → e.2.1 = now e.1) ∧
    (e.2.1 = now e.1 ∨ ∃ r ∈ ws, r.addr ≤ e.1 ∧ e.1 < r.addr + r.old.length ∧ e.2.1 = r.old.getD (e.1 - r.addr) 0)

theorem rollBack_rolled {keep : WriteRec → Bool} {ws : List WriteRec} {now : Nat → Byte} (rs : List WriteRec) (hr : ∀ r ∈ rs, r ∈ ws)
    (l : List (Nat × Byte × Option Nat)) (hl : ∀ e ∈ l, Rolled keep ws now e) : ∀ e ∈ State.rollBack keep rs l, Rolled keep ws now e := by
  induction rs generalizing l with
  | nil => exact hl
  | cons r rs ih =>
    have ih := ih fun q hq => hr q (List.mem_cons_of_mem _ hq)
    unfold State.rollBack
    dsimp only
    split
    · exact ih l hl
    · split
      · refine ih _ fun e he => ?_
        obtain ⟨a, ha, rfl⟩ := List.mem_map.1 he
        split <;> exact hl a ha
      · next hk =>
        rw [Bool.or_eq_true, not_or] at hk
        obtain ⟨_, undone⟩ := hk
        refine ih _ fun e he => ?_
        obtain ⟨a, ha, rfl⟩ := List.mem_map.1 he
        split
        · next hit =>
          rw [Bool.and_eq_true, decide_eq_true_eq, decide_eq_true_eq] at hit
          obtain ⟨lo, hi⟩ := hit
          refine ⟨fun all => absurd (all r (hr r List.mem_cons_self) lo hi) undone, .inr ⟨r, hr r List.mem_cons_self, lo, hi, ?_⟩⟩
          dsimp only
          rw [List.getD_eq_getElem _ _ (by omega), List.getD_eq_getElem _ _ (by omega)]
        · exact hl a ha

theorem rollBack_spots (keep : WriteRec → Bool) (rs : List WriteRec) (l : List (Nat × Byte × Option Nat)) :
    (State.rollBack keep rs l).map (·.1) = l.map (·.1) := by
  induction rs generalizing l with
  | nil => rfl
  | cons r rs ih =>
    unfold State.rollBack
    dsimp only
    split
    · exact ih l
    · split <;> rw [ih, List.map_map] <;> refine List.map_congr_left fun e _ => ?_ <;> rw [Function.comp_apply] <;> split <;> rfl

/-- The parts of an access are the access. -/
theorem parts_flatMap {α : Type} (l : List α) : ((List.range ((l.length + 7) / 8)).flatMap fun i => (l.drop (8 * i)).take 8) = l := by
  have key : ∀ n, ((List.range n).flatMap fun i => (l.drop (8 * i)).take 8) = l.take (8 * n) := by
    intro n
    induction n with
    | zero => rfl
    | succ n ih => rw [List.range_succ, List.flatMap_append, ih, List.flatMap_singleton, Nat.mul_succ, List.take_add]
  rw [key, List.take_of_length_le (by omega)]

/-- What a transfer's lane reads at some spots, with the accesses it reads from. -/
def laneGot (s : State) (x : Xfer) (space : Space) (kind : Nat) (spots : List Nat) : List (Nat × Byte × Option Nat) :=
  if s.writes.isEmpty then spots.map fun a => (a, s.byteOf space a, none)
  else State.inParts (s.find (300000 + x.id) space (s.knowsOp x.id x.cluster kind)
    fun r => if r.kind.toNat == kind then r.access else 2 ^ 49 + r.seq) spots

theorem find_spots (s : State) (a : Nat) (space : Space) (ordered : WriteRec → Bool) (key : WriteRec → Nat) (spots : List Nat) :
    (s.find a space ordered key spots).map (·.1) = spots := by
  unfold State.find
  rw [rollBack_spots, List.map_map]
  exact List.map_id' _

theorem laneGot_spots (s : State) (x : Xfer) (space : Space) (kind : Nat) (spots : List Nat) : (laneGot s x space kind spots).map (·.1) = spots := by
  unfold laneGot
  split
  · rw [List.map_map]
    exact List.map_id' _
  · unfold State.inParts
    rw [List.map_flatMap]
    simp only [find_spots]
    exact parts_flatMap spots

theorem laneGot_finds (s : State) (x : Xfer) (space : Space) (kind : Nat) (spots : List Nat) :
    ∀ e ∈ laneGot s x space kind spots, FindsOp s x.id x.cluster space kind e.1 e.2.1.toNat := by
  intro e he
  unfold laneGot at he
  split at he
  · obtain ⟨a, _, rfl⟩ := List.mem_map.1 he
    exact ⟨fun _ => rfl, .inl rfl⟩
  · obtain ⟨i, _, he⟩ := List.mem_flatMap.1 he
    have mem : ∀ r, r ∈ (s.writes.filter fun r => r.space == space).reverse ↔ r ∈ s.writes ∧ r.space = space := fun r => by
      rw [List.mem_reverse, List.mem_filter, beq_iff_eq]
    obtain ⟨now, old⟩ := rollBack_rolled (now := s.byteOf space) _ (fun _ h => h) _
      (fun e he => by obtain ⟨a, _, rfl⟩ := List.mem_map.1 he; exact ⟨fun _ => rfl, .inl rfl⟩) e he
    refine ⟨fun hk => congrArg BitVec.toNat (now fun r hr lo hi => ?_), ?_⟩
    · obtain ⟨hr, hs⟩ := (mem r).1 hr
      rw [Bool.or_eq_true]
      exact .inl (hk r hr ⟨hs, lo, hi⟩)
    · rcases old with old | ⟨r, hr, lo, hi, hb⟩
      · exact .inl (congrArg BitVec.toNat old)
      · obtain ⟨hr, hs⟩ := (mem r).1 hr
        exact .inr ⟨r, hr, ⟨hs, lo, hi⟩, congrArg BitVec.toNat hb⟩

/-! ## The lanes of a transfer (R333) -/

/-- A lane that lies in a scratchpad or in memory. -/
def LanePlaced (l : XLane) : Prop := (∃ k, l.place = some (.sp k)) ∨ ∃ p, l.place = some (.mem p)

theorem placed_of {s : State} {y : Xfer} (ha : Accepted s y) {L : List XLane} (hp : L.Perm y.lanes)
    (hd : ∀ l ∈ L, ∀ b, l.place ≠ some (.data b)) : ∀ l ∈ L, LanePlaced l := by
  obtain ⟨_, held⟩ := (accepted_places s y).1 ha
  intro l hl
  have there := held l (hp.subset hl)
  rcases e : l.place with _ | k | p | b
  · rw [e] at there
    exact there.elim
  · exact .inl ⟨k, e⟩
  · exact .inr ⟨p, e⟩
  · exact absurd e (hd l hl b)

/-- What a lane of a read finds. -/
def LaneReads (s : State) (y : Xfer) (l : XLane) (e : Nat × List Byte) : Prop :=
  e.1 = l.lane ∧ e.2.length = y.width ∧ ∀ j b, e.2[j]? = some b →
    (∀ k, l.place = some (.sp k) → FindsOp s y.id y.cluster .sp 0 (k + j) b.toNat) ∧
    (∀ p, l.place = some (.mem p) → FindsOp s y.id y.cluster .mem p.kind (p.at j) b.toNat)

theorem Learns.laneReads {s u : State} (h : Learns s u) {y : Xfer} {l : XLane} {e : Nat × List Byte} (hr : LaneReads u y l e) :
    LaneReads s y l e := by
  obtain ⟨lane, len, bytes⟩ := hr
  exact ⟨lane, len, fun j b hb => ⟨fun k hk => h.finds ((bytes j b hb).1 k hk), fun p hp => h.finds ((bytes j b hb).2 p hp)⟩⟩

/-- A lane's bytes are found at its spots, one after the other. -/
theorem laneGot_bytes {s : State} {y : Xfer} {space : Space} {kind : Nat} {spots : List Nat} {j : Nat} {b : Byte}
    (h : ((laneGot s y space kind spots).map (·.2.1))[j]? = some b) :
    ∃ A, spots[j]? = some A ∧ FindsOp s y.id y.cluster space kind A b.toNat := by
  rw [List.getElem?_map, Option.map_eq_some_iff] at h
  obtain ⟨e, he, rfl⟩ := h
  refine ⟨e.1, ?_, laneGot_finds _ _ _ _ _ e (List.mem_of_getElem? he)⟩
  rw [← laneGot_spots s y space kind spots, List.getElem?_map, he]
  rfl

theorem laneGot_length (s : State) (y : Xfer) (space : Space) (kind : Nat) (spots : List Nat) :
    ((laneGot s y space kind spots).map (·.2.1)).length = spots.length := by
  conv_rhs => rw [← laneGot_spots s y space kind spots]
  rw [List.length_map, List.length_map]

theorem range_map_get {f : Nat → Nat} {n j A : Nat} (h : ((List.range n).map f)[j]? = some A) : f j = A := by
  rw [List.getElem?_map, Option.map_eq_some_iff] at h
  obtain ⟨i, hi, rfl⟩ := h
  obtain ⟨_, e⟩ := List.getElem?_eq_some_iff.1 hi
  rw [← e, List.getElem_range]

/-- The change of a transfer whose lanes have read. -/
def withReads (id : Nat) (reads : List (Nat × List Byte)) (z : Xfer) : Xfer := if z.id = id then { z with data := z.data ++ reads } else z

/-- A lane of a read. -/
theorem performLane_read {s : State} {y : Xfer} (hw : y.write = false) {l : XLane} (hl : LanePlaced l) : ∃ e, LaneReads s y l e ∧
    Learns s (State.performLane y s l) ∧ (State.performLane y s l).xfers = s.xfers.map (withReads y.id [e]) := by
  have frame : ∀ (space : Space) (kind : Nat) (spots : List Nat), State.performLane y s l =
      (if y.acq.isSome then s.took (tid y.group l.lane) y.acq (laneGot s y space kind spots) else s).modXfer y.id
        (fun z => { z with data := z.data ++ [(l.lane, (laneGot s y space kind spots).map (·.2.1))] }) →
      Learns s (State.performLane y s l) ∧
        (State.performLane y s l).xfers = s.xfers.map (withReads y.id [(l.lane, (laneGot s y space kind spots).map (·.2.1))]) := by
    intro space kind spots e
    rw [e]
    refine ⟨?_, ?_⟩
    · split
      · exact (Learns.took ..).trans (.modXfer ..)
      · exact .modXfer ..
    · rw [modXfer_eq]
      split
      · rw [State.took_eq]; rfl
      · rfl
  rcases hl with ⟨k, hl⟩ | ⟨p, hl⟩
  · refine ⟨_, ⟨rfl, (laneGot_length ..).trans (by simp), fun j b hb => ⟨fun k' hk => ?_, fun p hp => by simp [hl] at hp⟩⟩,
      frame .sp 0 ((List.range y.width).map (k + ·)) ?_⟩
    · rw [hl] at hk
      obtain rfl : k = k' := by simpa using hk
      obtain ⟨A, hA, hf⟩ := laneGot_bytes hb
      rwa [← range_map_get hA] at hf
    · unfold State.performLane
      rw [hl, hw]
      rfl
  · refine ⟨_, ⟨rfl, (laneGot_length ..).trans (by simp [State.spots]), fun j b hb => ⟨fun k hk => by simp [hl] at hk, fun p' hp => ?_⟩⟩,
      frame .mem p.kind (State.spots p y.width) ?_⟩
    · rw [hl] at hp
      obtain rfl : p = p' := by simpa using hp
      obtain ⟨A, hA, hf⟩ := laneGot_bytes hb
      rwa [← range_map_get hA] at hf
    · unfold State.performLane
      rw [hl, hw]
      rfl

/-- The lanes of a read, one after the other. -/
theorem performLanes_read {y : Xfer} (hw : y.write = false) (L : List XLane) (hL : ∀ l ∈ L, LanePlaced l) (s : State) :
    ∃ reads, List.Forall₂ (LaneReads s y) L reads ∧ Learns s (L.foldl (State.performLane y) s) ∧
      (L.foldl (State.performLane y) s).xfers = s.xfers.map (withReads y.id reads) := by
  induction L generalizing s with
  | nil =>
    refine ⟨[], .nil, .refl s, ((List.map_congr_left fun z _ => ?_).trans (List.map_id' _)).symm⟩
    unfold withReads
    split
    · rw [List.append_nil]
    · rfl
  | cons l L ih =>
    obtain ⟨e, he, learns, xs⟩ := performLane_read (s := s) hw (hL l List.mem_cons_self)
    obtain ⟨reads, hr, learns', xs'⟩ := ih (fun l' h => hL l' (List.mem_cons_of_mem _ h)) (State.performLane y s l)
    refine ⟨e :: reads, .cons he (hr.imp fun _ _ h => learns.laneReads h), learns.trans learns', ?_⟩
    rw [List.foldl_cons, xs', xs, List.map_map]
    refine List.map_congr_left fun z _ => ?_
    by_cases hz : z.id = y.id
    · simp only [withReads, Function.comp_apply, hz, if_true, List.append_assoc, List.singleton_append]
    · simp only [withReads, Function.comp_apply, hz, if_false]

/-- A lane of a write, as memory and scratchpads see it. -/
def plainWrite (c : Nat) (s : State) (l : XLane) : State :=
  match l.place with
  | some (.sp k) => s.spPut k l.data
  | some (.mem p) => s.writePhys (200000 + c) p l.data
  | _ => s

/-- A lane of a write changes what the plain write changes, and what its record changes beside. -/
theorem performLane_write {s : State} {y : Xfer} (hw : y.write = true) {l : XLane} (hl : LanePlaced l) :
    (State.performLane y s l).mem = (plainWrite y.cluster s l).mem ∧ (State.performLane y s l).sp = (plainWrite y.cluster s l).sp ∧
      butWritten (State.performLane y s l) = butWritten s := by
  let v : State := if y.rel.isSome then s.pass (.op y.id) (.write s.seq) [] else s
  have hv : v.mem = s.mem ∧ v.sp = s.sp ∧ butWritten v = butWritten s := by
    unfold v
    split
    · rw [State.pass_eq]; exact ⟨rfl, rfl, rfl⟩
    · exact ⟨rfl, rfl, rfl⟩
  obtain ⟨mem, sp, but⟩ := hv
  rcases hl with ⟨k, hl⟩ | ⟨p, hl⟩
  · have e : State.performLane y s l =
        v.spPutBy (200000 + y.cluster) (State.opKnown y.id) (y.rel.map fun sc => (tid y.group l.lane, sc)) none k l.data := by
      unfold State.performLane
      rw [hl, hw]
      rfl
    unfold plainWrite
    rw [e, hl]
    dsimp only
    rw [State.spPutBy_mem, State.spPutBy_sp, State.spPut_mem, State.spPut_sp, spPutBy_butWritten, mem, sp]
    exact ⟨rfl, rfl, but⟩
  · have e : State.performLane y s l =
        v.writeBy (200000 + y.cluster) (State.opKnown y.id) (y.rel.map fun sc => (tid y.group l.lane, sc)) none p l.data := by
      unfold State.performLane
      rw [hl, hw]
      rfl
    unfold plainWrite State.writePhys
    rw [e, hl]
    dsimp only
    rw [State.writeBy_mem, State.writeBy_mem, State.writeBy_sp, State.writeBy_sp, writeBy_butWritten, mem, sp]
    exact ⟨rfl, rfl, but⟩

/-- A plain write sees memory and scratchpads alone. -/
theorem plainWrite_congr (c : Nat) {s u : State} (hm : u.mem = s.mem) (hs : u.sp = s.sp) (l : XLane) :
    (plainWrite c u l).mem = (plainWrite c s l).mem ∧ (plainWrite c u l).sp = (plainWrite c s l).sp := by
  unfold plainWrite
  split
  · rw [State.spPut_mem, State.spPut_sp, State.spPut_mem, State.spPut_sp, hm, hs]
    exact ⟨rfl, rfl⟩
  · unfold State.writePhys
    rw [State.writeBy_mem, State.writeBy_mem, State.writeBy_sp, State.writeBy_sp, hm, hs]
    exact ⟨rfl, rfl⟩
  · exact ⟨hm, hs⟩

/-- The lanes of a write, one after the other. -/
theorem performLanes_write {y : Xfer} (hw : y.write = true) (L : List XLane) (hL : ∀ l ∈ L, LanePlaced l) {u s : State} (hm : u.mem = s.mem)
    (hs : u.sp = s.sp) :
    (L.foldl (State.performLane y) u).mem = (L.foldl (plainWrite y.cluster) s).mem ∧
      (L.foldl (State.performLane y) u).sp = (L.foldl (plainWrite y.cluster) s).sp ∧
      butWritten (L.foldl (State.performLane y) u) = butWritten u := by
  induction L generalizing u s with
  | nil => exact ⟨hm, hs, rfl⟩
  | cons l L ih =>
    obtain ⟨m, p, but⟩ := performLane_write (s := u) hw (hL l List.mem_cons_self)
    obtain ⟨m', p'⟩ := plainWrite_congr y.cluster hm hs l
    obtain ⟨i1, i2, i3⟩ := ih (fun l' h => hL l' (List.mem_cons_of_mem _ h)) (m.trans m') (p.trans p')
    exact ⟨i1, i2, i3.trans but⟩

/-- Lanes in ascending order are the ones that a sort by lane gives. -/
theorem mergeSort_lanes {y : Xfer} {L : List XLane} (hp : L.Perm y.lanes) (hs : L.Pairwise fun a b => a.lane < b.lane) :
    (y.lanes.mergeSort fun a b => decide (a.lane ≤ b.lane)) = L := by
  have perm : (y.lanes.mergeSort fun a b => decide (a.lane ≤ b.lane)).Perm L := (List.mergeSort_perm ..).trans hp.symm
  have sorted := List.pairwise_mergeSort (le := fun a b : XLane => decide (a.lane ≤ b.lane))
    (fun a b c h h' => by simp only [decide_eq_true_eq] at *; omega) (fun a b => by simp only [Bool.or_eq_true, decide_eq_true_eq]; omega) y.lanes
  refine perm.eq_of_pairwise (le := fun a b => a.lane ≤ b.lane) (fun a b ha hb h h' => ?_) (sorted.imp fun h => of_decide_eq_true h)
    (hs.imp fun h => h.le)
  have inj := List.inj_on_of_nodup_map (f := XLane.lane) (List.pairwise_map.2 (hs.imp fun h => h.ne))
  exact inj (perm.subset ha) hb (le_antisymm h h')

/-! ## REQUEST_AT_DESTINATION (R54, R333) -/

/-- What a destination performs for a transfer of some lanes. -/
def lanesAct (y : Xfer) (L : List XLane) (v : State) : State × BitVec 8 := (L.foldl (State.performLane y) v, 0)

section
variable {s : State} {y : Xfer} (hh : s.hole = false) (hx : s.xfer y.id = some y)
include hh hx

theorem requestAtDestination_elsewhere (h : y.pos ≠ .arrived ∨ y.ring = true) : exec (.requestAtDestination y.id) s = .next s := by
  rw [exec_requestAtDestination]
  unfold execRequestAtDestination
  rw [hx]
  exact (if_pos h).trans (out_next hh)

omit hh in
theorem requestAtDestination_eq (hp : y.pos = .arrived) (hr : y.ring = false) {L : List XLane}
    (hL : (y.lanes.mergeSort fun a b => decide (a.lane ≤ b.lane)) = L) :
    exec (.requestAtDestination y.id) s =
      (State.injectHeld (s.arriveAt y (lanesAct y L)).xfers (s.arriveAt y (lanesAct y L))).out := by
  rw [exec_requestAtDestination]
  unfold execRequestAtDestination
  rw [hx]
  dsimp only
  rw [if_neg (by simp [hp, hr]), hL]
  rfl

variable (hn : NoneHeld s) (hp : y.pos = .arrived)
include hn hp

theorem requestAtDestination_waits (hc : ¬CanReply s y) : exec (.requestAtDestination y.id) s = .next s := by
  cases hr : y.ring with
  | true => exact requestAtDestination_elsewhere hh hx (.inr hr)
  | false =>
    rw [requestAtDestination_eq hx hp hr rfl, arriveAt_waits hc, injectHeld_none s hn]
    exact out_next hh

variable (hr : y.ring = false)
include hr

omit hh in
/-- A reply has left, and no other transfer is held back. -/
theorem requestAtDestination_replied {L : List XLane} (hL : (y.lanes.mergeSort fun a b => decide (a.lane ≤ b.lane)) = L) {f : Xfer → Xfer}
    (done : Replied s (s.arriveAt y (lanesAct y L)) y f) (hf : ∀ z, (f z).pos = z.pos) (hole : (s.arriveAt y (lanesAct y L)).hole = false) :
    exec (.requestAtDestination y.id) s = .next (s.arriveAt y (lanesAct y L)) := by
  rw [requestAtDestination_eq hx hp hr hL, injectHeld_none _ (done.noneHeld hf hn)]
  exact out_next hole

variable (hc : CanReply s y)
include hc

theorem requestAtDestination_refused (ha : ¬Accepted s y) : ∃ u, exec (.requestAtDestination y.id) s = .next u ∧
    Replied s u y (fun x => { x with status := refusal y }) ∧ u.mem = s.mem ∧ u.sp = s.sp := by
  obtain ⟨replied, frame⟩ := arriveAt_refused hc ha (lanesAct y _)
  refine ⟨_, requestAtDestination_replied hx hn hp hr rfl replied (fun _ => rfl) ?_, replied, ?_, ?_⟩ <;> rw [frame]
  exact hh

variable {L : List XLane} (ha : Accepted s y) (hL : L.Perm y.lanes) (ho : L.Pairwise fun a b => a.lane < b.lane)
  (hd : ∀ l ∈ L, ∀ b, l.place ≠ some (.data b))
include ha hL ho hd

/-- An accepted write performs its lanes in ascending order. -/
theorem requestAtDestination_write (hw : y.write = true) : ∃ u, exec (.requestAtDestination y.id) s = .next u ∧
    Replied s u y (fun x => { x with status := 0 }) ∧ u.mem = (L.foldl (plainWrite y.cluster) s).mem ∧
    u.sp = (L.foldl (plainWrite y.cluster) s).sp := by
  obtain ⟨v, frame, replied, e⟩ := arriveAt_accepted hc ha (lanesAct y L)
  obtain ⟨mem, sp, but⟩ := performLanes_write hw L (placed_of ha hL hd) (u := v) (s := s) (by rw [frame]) (by rw [frame])
  have hole : v.hole = false := by rw [frame]; exact hh
  have done := replied.mod (u := s.arriveAt y (lanesAct y L)) (g := fun z => { z with status := 0 })
    (fun _ => rfl) (by rw [e]; exact congrArg (List.map _) (congrArg State.xfers but : _)) (by rw [e]; exact (congrArg State.routers but : _))
  refine ⟨_, requestAtDestination_replied hx hn hp hr (mergeSort_lanes hL ho) done (fun _ => rfl) ?_, done, ?_, ?_⟩ <;> rw [e]
  · exact (congrArg State.hole but : _).trans hole
  · exact mem
  · exact sp

/-- An accepted read finds what its lanes find, in ascending order. -/
theorem requestAtDestination_read (hw : y.write = false) : ∃ u reads, exec (.requestAtDestination y.id) s = .next u ∧
    Replied s u y (fun x => { x with status := 0, data := x.data ++ reads }) ∧ u.mem = s.mem ∧ u.sp = s.sp ∧
    List.Forall₂ (LaneReads s y) L reads := by
  obtain ⟨v, frame, replied, e⟩ := arriveAt_accepted hc ha (lanesAct y L)
  obtain ⟨reads, found, learns, xs⟩ := performLanes_read hw L (placed_of ha hL hd) v
  obtain ⟨only, _⟩ := id learns
  have read := replied.mod (u := L.foldl (State.performLane y) v) (g := fun z => { z with data := z.data ++ reads }) (fun _ => rfl) xs
    (by rw [only])
  have done := read.mod (u := s.arriveAt y (lanesAct y L)) (g := fun z => { z with status := 0 })
    (fun _ => rfl) (by rw [e]; rfl) (by rw [e]; rfl)
  refine ⟨_, reads, requestAtDestination_replied hx hn hp hr (mergeSort_lanes hL ho) done (fun _ => rfl) ?_, done, ?_, ?_,
    found.imp fun l e h => ?_⟩
  · rw [e]
    exact (congrArg State.hole only : _).trans (by rw [frame]; exact hh)
  · rw [e]
    exact (congrArg State.mem only : _).trans (by rw [frame])
  · rw [e]
    exact (congrArg State.sp only : _).trans (by rw [frame])
  · rw [frame] at h
    exact h

end

/-! ## RING_MESSAGE_DELIVERY (R54, R335, R336) -/

/-- What the network interface performs for a message. -/
def messageAct (y : Xfer) (k : Nat) (v : State) : State × BitVec 8 :=
  (v.pass (.op y.id) (State.ringHolder k) []).ringDeliver y.cluster k y.tc y.posted ((y.lanes.head?.map (·.data)).getD [])

section
variable {s : State} {y : Xfer} (hh : s.hole = false) (hx : s.xfer y.id = some y)
include hh hx

theorem ringMessageDelivery_elsewhere (h : y.pos ≠ .arrived ∨ y.ring = false) : exec (.ringMessageDelivery y.id) s = .next s := by
  rw [exec_ringMessageDelivery]
  unfold execRingMessageDelivery
  rw [hx]
  dsimp only
  rw [if_pos (h.imp_right fun h => by rw [h]; rfl)]
  exact out_next hh

variable (hp : y.pos = .arrived) (hr : y.ring = true)
include hp hr

omit hh in
theorem ringMessageDelivery_ring {l : XLane} {k : Nat} (hl : y.lanes.head? = some l) (hk : l.place = some (.sp k)) :
    exec (.ringMessageDelivery y.id) s = if s.ringPending k then s.out else (s.arriveAt y (messageAct y k)).out := by
  rw [exec_ringMessageDelivery]
  unfold execRingMessageDelivery
  rw [hx]
  dsimp only
  rw [if_neg (by simp [hp, hr]), show y.lanes.head?.bind (·.place) = some (.sp k) by rw [hl]; exact hk]
  rfl

omit hh in
theorem ringMessageDelivery_noRing (h : ∀ l k, y.lanes.head? = some l → l.place ≠ some (.sp k)) :
    exec (.ringMessageDelivery y.id) s = (s.arriveAt y fun v => (v, 2)).out := by
  rw [exec_ringMessageDelivery]
  unfold execRingMessageDelivery
  rw [hx]
  dsimp only
  rw [if_neg (by simp [hp, hr])]
  split
  · next k e =>
    obtain ⟨l, hl, hk⟩ := Option.bind_eq_some_iff.1 e
    exact absurd hk (h l k hl)
  · rfl

theorem ringMessageDelivery_waits (hc : ¬CanReply s y) : exec (.ringMessageDelivery y.id) s = .next s := by
  by_cases h : ∃ l k, y.lanes.head? = some l ∧ l.place = some (.sp k)
  · obtain ⟨l, k, hl, hk⟩ := h
    rw [ringMessageDelivery_ring hx hp hr hl hk, arriveAt_waits hc, ite_self]
    exact out_next hh
  · rw [ringMessageDelivery_noRing hx hp hr fun l k hl hk => h ⟨l, k, hl, hk⟩, arriveAt_waits hc]
    exact out_next hh

/-- A message that names no ring at its destination is refused. -/
theorem ringMessageDelivery_noPlace (hc : CanReply s y) (h : ∀ l k, y.lanes.head? = some l → l.place ≠ some (.sp k)) :
    ∃ u, exec (.ringMessageDelivery y.id) s = .next u ∧ Replied s u y (fun x => { x with status := refusal y }) ∧ u.mem = s.mem ∧
      u.sp = s.sp := by
  rw [ringMessageDelivery_noRing hx hp hr h]
  by_cases ha : Accepted s y
  · obtain ⟨v, frame, replied, e⟩ := arriveAt_accepted hc ha fun v => (v, 2)
    have two : refusal y = 2 := if_pos ha.1
    have done := replied.mod (u := s.arriveAt y fun v => (v, 2)) (g := fun z => { z with status := 2 }) (fun _ => rfl) (by rw [e]) (by rw [e])
    rw [two]
    refine ⟨_, out_next ?_, done, ?_, ?_⟩ <;> rw [e, frame]
    exact hh
  · obtain ⟨replied, frame⟩ := arriveAt_refused hc ha fun v => (v, 2)
    refine ⟨_, out_next ?_, replied, ?_, ?_⟩ <;> rw [frame]
    exact hh

variable {l : XLane} {k : Nat} (hl : y.lanes = [l]) (hk : l.place = some (.sp k))
include hl hk

theorem ringMessageDelivery_pending (hf : ∃ g ∈ s.frames, RingAtShare s g.ring k) : exec (.ringMessageDelivery y.id) s = .next s := by
  rw [ringMessageDelivery_ring hx hp hr (by rw [hl]; rfl) hk, if_pos (ringPending_of hf)]
  exact out_next hh

variable (hc : CanReply s y) (hf : ∀ g ∈ s.frames, s.ringKey g.ring ≠ some k)
include hc hf

/-- A message that its destination accepts takes the step of its ring. -/
theorem ringMessageDelivery_enters (ha : Accepted s y) : ∃ u st, exec (.ringMessageDelivery y.id) s = .next u ∧
    RingStep s u.sp y.cluster k y.tc y.posted l.data st ∧ Replied s u y (fun x => { x with status := st }) ∧ u.mem = s.mem := by
  obtain ⟨v, frame, replied, e⟩ := arriveAt_accepted hc ha (messageAct y k)
  let w := v.pass (.op y.id) (State.ringHolder k) []
  have act : messageAct y k v = w.ringDeliver y.cluster k y.tc y.posted l.data := by
    unfold messageAct
    rw [hl]
    rfl
  rw [act] at e
  obtain ⟨keeps, mem⟩ := ringDeliver_keeps w y.cluster k y.tc y.posted l.data
  have but : butWritten (w.ringDeliver y.cluster k y.tc y.posted l.data).1 = butWritten v := keeps.trans (pass_butWritten ..)
  have step := ringDeliver_step w y.cluster k y.tc y.posted l.data
  have done := replied.mod (u := s.arriveAt y (messageAct y k))
    (g := fun z => { z with status := (w.ringDeliver y.cluster k y.tc y.posted l.data).2 })
    (fun _ => rfl) (by rw [e]; exact congrArg (List.map _) (congrArg State.xfers but : _)) (by rw [e]; exact (congrArg State.routers but : _))
  have same : w = { s with xfers := v.xfers, routers := v.routers, writes := w.writes } := by
    unfold w
    rw [State.pass_eq, frame]
  rw [ringMessageDelivery_ring hx hp hr (by rw [hl]; rfl) hk, if_neg (by rw [ringPending_none hf]; decide)]
  refine ⟨_, (w.ringDeliver y.cluster k y.tc y.posted l.data).2, out_next ?_, ?_, done, ?_⟩
  · rw [e]
    exact (congrArg State.hole but : _).trans (by rw [frame]; exact hh)
  · rw [e]
    generalize w.ringDeliver y.cluster k y.tc y.posted l.data = d at step
    rw [same] at step
    exact step
  · rw [e]
    exact mem.trans (by rw [same])

theorem ringMessageDelivery_refused (ha : ¬Accepted s y) : ∃ u, exec (.ringMessageDelivery y.id) s = .next u ∧
    Replied s u y (fun x => { x with status := refusal y }) ∧ u.mem = s.mem ∧ u.sp = s.sp := by
  obtain ⟨replied, frame⟩ := arriveAt_refused hc ha (messageAct y k)
  rw [ringMessageDelivery_ring hx hp hr (by rw [hl]; rfl) hk, if_neg (by rw [ringPending_none hf]; decide)]
  refine ⟨_, out_next ?_, replied, ?_, ?_⟩ <;> rw [frame]
  exact hh

end

/-! ## The end of a transfer (R331, R333) -/

theorem evRecord_low (cycle ty c core slot fdom rcb w3 w4 w5 w6 w7 : Nat) :
    (evRecord cycle ty c core slot fdom rcb w3 w4 w5 w6 w7).extractLsb' 192 32 = BitVec.ofNat 32 w3 := by
  apply BitVec.eq_of_toNat_eq
  simp only [evRecord, BitVec.extractLsb'_toNat, BitVec.toNat_ofNat, Nat.shiftRight_eq_div_pow]
  omega

theorem evRecord_status (cycle ty c core slot fdom rcb w3 w4 w5 w6 w7 : Nat) :
    (evRecord cycle ty c core slot fdom rcb w3 w4 w5 w6 w7).extractLsb' 224 8 = BitVec.ofNat 8 (w3 / 2 ^ 32) := by
  apply BitVec.eq_of_toNat_eq
  simp only [evRecord, BitVec.extractLsb'_toNat, BitVec.toNat_ofNat, Nat.shiftRight_eq_div_pow]
  omega

theorem evRecord_pair (cycle ty c core slot fdom rcb w3 w4 w5 w6 w7 : Nat) :
    (evRecord cycle ty c core slot fdom rcb w3 w4 w5 w6 w7).extractLsb' 320 128 = BitVec.ofNat 128 (w5 % 2 ^ 64 + 2 ^ 64 * w6) := by
  apply BitVec.eq_of_toNat_eq
  simp only [evRecord, BitVec.extractLsb'_toNat, BitVec.toNat_ofNat, Nat.shiftRight_eq_div_pow]
  omega

/-- The fields of a state on which the posting of a record depends. -/
structure SamePosts (s v : State) : Prop where
  mem : v.mem = s.mem
  sys : v.sys = s.sys
  evWait : v.evWait = s.evWait
  hole : v.hole = s.hole

theorem SamePosts.wr {s v : State} (h : SamePosts s v) (pa n x : Nat) : SamePosts (s.wr pa n x) (v.wr pa n x) := by
  unfold State.wr State.wrBytes
  split
  · exact ⟨congrArg (Memory.put · pa _) h.mem, h.sys, h.evWait, h.hole⟩
  · exact ⟨h.mem, h.sys, h.evWait, rfl⟩

theorem SamePosts.reach {s v : State} (h : SamePosts s v) (pa n : Nat) : SamePosts (s.reach pa n) (v.reach pa n) := by
  unfold State.reach
  split
  · exact h
  · exact ⟨h.mem, h.sys, h.evWait, rfl⟩

/-- What a record leaves depends on memory, the queues and the records that wait (R382). -/
theorem SamePosts.post {s v : State} (h : SamePosts s v) (q : Bool) (r : W512) : SamePosts (s.post q r) (v.post q r) := by
  have rd : ∀ a n, v.rd a n = s.rd a n := fun a n => congrArg (Memory.read · a n) h.mem
  have room : ∀ d, v.evRoom d = s.evRoom d := fun d => by simp only [State.evRoom, rd]
  unfold State.post
  dsimp only
  rw [h.sys, h.evWait, room]
  generalize (if q then s.sys.evqs else s.sys.evqn) = desc
  split
  · exact ⟨h.mem, rfl, rfl, h.hole⟩
  · unfold State.evAppend
    dsimp only
    rw [rd]
    exact ((h.reach ..).wr ..).wr ..

/-- The record that reports the error of a transfer (R384). -/
def xferRecord (s : State) (x : Xfer) (st : BitVec 8) : W512 :=
  evRecord s.cycle 7 (coreCluster (groupCore x.group)) (coreNum (groupCore x.group)) (groupSlot x.group) (s.grpRes x.group).fdom.toNat
    (s.grp x.group).rcb.toNat (x.pmask.toNat + 2 ^ 32 * st.toNat) (x.lanes.headD ⟨0, 0, none, []⟩).addr.toNat (x.route.toNat % 2 ^ 64)
    (x.route.toNat / 2 ^ 64) 0

theorem xferRecord_fields (s : State) (x : Xfer) (st : BitVec 8) : (xferRecord s x st).extractLsb' 0 8 = 7#8 ∧
    (xferRecord s x st).extractLsb' 192 32 = x.pmask ∧ (xferRecord s x st).extractLsb' 224 8 = st ∧
    (xferRecord s x st).extractLsb' 320 128 = x.route := by
  have hm := x.pmask.isLt
  have hs := st.isLt
  refine ⟨evRecord_type .., (evRecord_low ..).trans ?_, (evRecord_status ..).trans ?_, (evRecord_pair ..).trans ?_⟩ <;>
    apply BitVec.eq_of_toNat_eq <;> rw [BitVec.toNat_ofNat]
  · omega
  · omega
  · rw [Nat.mod_mod, Nat.mod_add_div, Nat.mod_eq_of_lt x.route.isLt]

theorem xferResult_eq (x : Xfer) (st : BitVec 8) (i : Nat) : State.xferResult { x with status := st } i = received x st i := by
  unfold State.xferResult received
  rcases x.dst with _ | _ | _ <;> cases x.write <;> rfl

theorem lateResult_eq (s : State) (t op : Nat) (w : List (RegId × RVal)) : s.lateResult t op w = s.modThr t (filled op w) := by
  unfold State.lateResult filled
  congr 1

/-- The transfers after one has ended: its place is kept when its time-out has passed. -/
def xfersLeft (s : State) (id : Nat) (keep : Bool) : List Xfer :=
  if keep then s.xfers.map fun y => if y.id = id then { y with late := true } else y else s.xfers.filter fun y => y.id != id

theorem xfersLeft_pos {s : State} {id : Nat} {keep : Bool} (hn : NoneHeld s) : ∀ z ∈ xfersLeft s id keep, z.pos ≠ .held := by
  unfold xfersLeft
  intro z hz
  split at hz
  · obtain ⟨y, hy, rfl⟩ := List.mem_map.1 hz
    have := hn y hy
    split <;> exact this
  · exact hn z (List.mem_of_mem_filter hz)

/-- What a status brings to the lanes of a transfer: their results, and what later fences know of its writes (R331, R339). -/
def lanesEnd (x : Xfer) (st : BitVec 8) (v : State) : State :=
  let u := State.lanesMod x.group (fun i => filled x.op (received x st i)) (lanesOf x.pmask) v
  if x.write then (lanesOf x.pmask).foldl (fun v i => v.pass (.op x.id) (State.sentBy (tid x.group i)) []) u else u

/-- The operation of a transfer is done with its last packet. -/
def opEnd (x : Xfer) (v : State) : State :=
  if v.xfers.any fun z => z.op == x.op && !z.late then v
  else { v with ops := v.ops.map fun o => if o.id = x.op then { o with done := true } else o }

/-- Somebody awaits the status of a transfer. -/
def Awaited (s : State) (x : Xfer) : Prop := x.foreign = false ∧ x.late = false ∧ ∃ o ∈ s.ops, o.id = x.op

theorem awaited_iff (s : State) (x : Xfer) : (!x.foreign && !x.late && s.ops.any fun o => o.id == x.op) = true ↔ Awaited s x := by
  unfold Awaited
  simp only [Bool.and_eq_true, Bool.not_eq_true', List.any_eq_true, beq_iff_eq, and_assoc]

section
variable {s : State} {x : Xfer} (hx : s.xfer x.id = some x) (st : BitVec 8) (keep : Bool)
include hx

theorem endXfer_unawaited (h : ¬Awaited s x) : s.endXfer x.id st keep = { s with xfers := xfersLeft s x.id keep } := by
  have no : (!x.foreign && !x.late && s.ops.any fun o => o.id == x.op) = false := Bool.eq_false_iff.2 (mt (awaited_iff s x).1 h)
  unfold State.endXfer
  rw [hx]
  dsimp only
  rw [no, if_pos (by decide), modXfer_eq]
  unfold xfersLeft
  split <;> rfl

theorem endXfer_awaited (h : Awaited s x) : s.endXfer x.id st keep =
    let v := lanesEnd x st { s with xfers := xfersLeft s x.id keep }
    opEnd x (if st = 2#8 ∨ st = 3#8 then v.post false (xferRecord v x st) else v) := by
  have left : (if keep = true then s.modXfer x.id fun y => { y with late := true } else { s with xfers := s.xfers.filter fun y => y.id != x.id }) =
      { s with xfers := xfersLeft s x.id keep } := by
    rw [modXfer_eq]
    unfold xfersLeft
    split <;> rfl
  unfold State.endXfer
  rw [hx]
  dsimp only
  rw [(awaited_iff s x).2 h, if_neg (by decide), left]
  simp only [xferResult_eq, lateResult_eq]
  simp only [opEnd, beq_iff_eq]
  rfl

end

theorem passes_congr (src : Holder) (dst : Nat → Holder) (ls : List Nat) {s u : State} (hw : u.writes = s.writes) (h : State.SameScopes s u) :
    (ls.foldl (fun v i => v.pass src (dst i) []) u).writes = (ls.foldl (fun v i => v.pass src (dst i) []) s).writes := by
  induction ls generalizing s u with
  | nil => exact hw
  | cons i ls ih =>
    rw [List.foldl_cons, List.foldl_cons]
    refine ih (State.pass_congr _ _ _ hw h) ?_
    rw [State.pass_eq u, State.pass_eq s]
    exact ⟨h.clusters, h.regions, h.wg⟩

/-- The lanes of a transfer have their results; threads and the record of writes change. -/
theorem lanesEnd_parts {x : Xfer} (ho : OneOfBow x.group x.pmask) (st : BitVec 8) (v : State) :
    lanesEnd x st v = { v with threads := (lanesEnd x st v).threads, writes := (lanesEnd x st v).writes } ∧
      (x.write = false → (lanesEnd x st v).writes = v.writes) ∧
      (x.write = true → (lanesEnd x st v).writes =
        ((lanesOf x.pmask).foldl (fun v i => v.pass (.op x.id) (State.sentBy (tid x.group i)) []) v).writes) ∧
      (∀ i ∈ lanesOf x.pmask, (lanesEnd x st v).thr (tid x.group i) = filled x.op (received x st i) (v.thr (tid x.group i))) ∧
      ∀ t, (∀ i ∈ lanesOf x.pmask, t ≠ tid x.group i) → (lanesEnd x st v).thr t = v.thr t := by
  let u := State.lanesMod x.group (fun i => filled x.op (received x st i)) (lanesOf x.pmask) v
  have same : ∀ i ∈ lanesOf x.pmask, u.thr (tid x.group i) = filled x.op (received x st i) (v.thr (tid x.group i)) :=
    fun i hi => lanesMod_lane ho _ v hi
  have other : ∀ t, (∀ i ∈ lanesOf x.pmask, t ≠ tid x.group i) → u.thr t = v.thr t := fun t ht => State.foldl_modThr_other _ _ _ _ t ht
  have frame : u = { v with threads := u.threads } := State.lanesMod_eq ..
  cases hw : x.write with
  | false =>
    have e : lanesEnd x st v = u := if_neg (by rw [hw]; decide)
    rw [e]
    exact ⟨by rw [frame], fun _ => by rw [frame], fun h => absurd h (by decide), same, other⟩
  | true =>
    have e : lanesEnd x st v = (lanesOf x.pmask).foldl (fun v i => v.pass (.op x.id) (State.sentBy (tid x.group i)) []) u := if_pos hw
    have only := State.foldl_writes_eq (fun (v : State) i => v.pass (.op x.id) (State.sentBy (tid x.group i)) []) (fun v i => v.pass_eq ..)
      (lanesOf x.pmask) u
    have thr : ∀ t, (lanesEnd x st v).thr t = u.thr t := fun t => by rw [e, only]; rfl
    refine ⟨?_, fun h => absurd h (by decide), fun _ => ?_, fun i hi => (thr _).trans (same i hi), fun t ht => (thr t).trans (other t ht)⟩
    · rw [e, only, frame]
    · rw [e]
      exact passes_congr _ _ _ (by rw [frame]) (by rw [frame]; exact ⟨rfl, rfl, fun _ => rfl⟩)

theorem opEnd_parts (x : Xfer) (v : State) : opEnd x v = { v with ops := (opEnd x v).ops } ∧
    ((∃ y ∈ v.xfers, y.op = x.op ∧ y.late = false) → (opEnd x v).ops = v.ops) ∧
    ((∀ y ∈ v.xfers, y.op = x.op → y.late = true) →
      (opEnd x v).ops = v.ops.map fun o => if o.id = x.op then { o with done := true } else o) := by
  have more : (v.xfers.any fun z => z.op == x.op && !z.late) = true ↔ ∃ y ∈ v.xfers, y.op = x.op ∧ y.late = false := by
    simp only [List.any_eq_true, Bool.and_eq_true, beq_iff_eq, Bool.not_eq_true']
  unfold opEnd
  by_cases h : ∃ y ∈ v.xfers, y.op = x.op ∧ y.late = false
  · rw [if_pos (more.2 h)]
    refine ⟨rfl, fun _ => rfl, fun all => ?_⟩
    obtain ⟨y, hy, op, late⟩ := h
    exact absurd (all y hy op) (by rw [late]; decide)
  · rw [if_neg (mt more.1 h)]
    exact ⟨rfl, fun h' => absurd h' h, fun _ => rfl⟩

/-- R331: a transfer ends with a status. -/
theorem endXfer_ends {s : State} {x : Xfer} (hh : s.hole = false) (hx : s.xfer x.id = some x) (hp : CanPost s false)
    (ho : OneOfBow x.group x.pmask) (st : BitVec 8) (keep : Bool) : XferEnds s (s.endXfer x.id st keep) x st keep := by
  let v : State := { s with xfers := xfersLeft s x.id keep }
  by_cases hl : Awaited s x
  · obtain ⟨frame, plain, known, lanes, others⟩ := lanesEnd_parts ho st v
    let w := lanesEnd x st v
    have posts : SamePosts s w := by
      unfold w
      rw [frame]
      exact ⟨rfl, rfl, rfl, rfl⟩
    let p := if st = 2#8 ∨ st = 3#8 then w.post false (xferRecord w x st) else w
    have pw : p = { w with mem := p.mem, evWait := p.evWait, hole := p.hole } := by
      unfold p
      split
      · exact of_butPosts (post_butPosts ..)
      · rfl
    have hole : p.hole = false := by
      unfold p
      split
      · exact (posts.post ..).hole.trans (hp _)
      · exact posts.hole.trans hh
    obtain ⟨opFrame, opKept, opDone⟩ := opEnd_parts x p
    have whole : opEnd x p = { s with
        xfers := xfersLeft s x.id keep, threads := w.threads, writes := w.writes, mem := p.mem, evWait := p.evWait, ops := (opEnd x p).ops } := by
      calc opEnd x p = { p with ops := (opEnd x p).ops } := opFrame
        _ = { w with mem := p.mem, evWait := p.evWait, hole := p.hole, ops := (opEnd x p).ops } :=
          congrArg (fun z : State => { z with ops := (opEnd x p).ops }) pw
        _ = { v with threads := w.threads, writes := w.writes, mem := p.mem, evWait := p.evWait, hole := p.hole, ops := (opEnd x p).ops } :=
          congrArg (fun z : State => { z with mem := p.mem, evWait := p.evWait, hole := p.hole, ops := (opEnd x p).ops }) frame
        _ = _ := by rw [hole, ← hh]
    have px : p.xfers = (opEnd x p).xfers := (congrArg State.xfers opFrame).symm
    have ops : p.ops = s.ops := (congrArg State.ops pw : _).trans (congrArg State.ops frame : _)
    have thr : ∀ t, (opEnd x p).thr t = w.thr t := fun t => (congrArg (fun u : State => u.thr t) whole : _)
    have writes : (opEnd x p).writes = w.writes := (congrArg State.writes whole : _)
    have posted : (opEnd x p).mem = p.mem ∧ (opEnd x p).evWait = p.evWait := ⟨(congrArg State.mem whole : _), (congrArg State.evWait whole : _)⟩
    obtain ⟨pm, pe⟩ := posted
    rw [show s.endXfer x.id st keep = opEnd x p from endXfer_awaited hx st keep hl]
    refine ⟨by rw [whole], fun h => ?_, fun _ hw => ?_, (congrArg State.xfers whole : _), fun h => absurd hl h,
      fun _ => ⟨fun i hi => ?_, fun t ht => ?_, fun h => ?_, fun h => ?_, fun h2 h3 => ?_, fun h => ?_⟩⟩
    · exact writes.trans (plain (Bool.eq_false_iff.2 fun hw => h ⟨hl, hw⟩))
    · exact writes.trans ((known hw).trans (passes_congr _ _ _ rfl ⟨rfl, rfl, fun _ => rfl⟩))
    · exact (thr _).trans (lanes i hi)
    · exact (thr t).trans (others t ht)
    · exact (opKept (by rw [px]; exact h)).trans ops
    · exact (opDone (by rw [px]; exact h)).trans (by rw [ops])
    · have e : p = w := if_neg (not_or.2 ⟨h2, h3⟩)
      rw [pm, pe, e]
      exact ⟨posts.mem, posts.evWait⟩
    · have e : p = w.post false (xferRecord w x st) := if_pos h
      have both := posts.post false (xferRecord w x st)
      exact ⟨_, ⟨by rw [pm, e]; exact both.mem, by rw [pe, e]; exact both.evWait⟩, xferRecord_fields w x st⟩
  · rw [endXfer_unawaited hx st keep hl]
    exact ⟨rfl, fun _ => rfl, fun h => absurd h hl, rfl, fun _ => ⟨rfl, rfl, rfl, rfl⟩, fun h => absurd h hl⟩

/-- After a transfer has ended, what was held before it is held still: nothing. -/
theorem endXfer_inject {s : State} {x : Xfer} (hh : s.hole = false) (hx : s.xfer x.id = some x) (hp : CanPost s false)
    (ho : OneOfBow x.group x.pmask) (hn : NoneHeld s) (st : BitVec 8) (keep : Bool) :
    (State.injectHeld (s.endXfer x.id st keep).xfers (s.endXfer x.id st keep)).out = .next (s.endXfer x.id st keep) := by
  obtain ⟨frame, _, _, xs, _⟩ := endXfer_ends hh hx hp ho st keep
  rw [injectHeld_none]
  · exact out_next ((congrArg State.hole frame : _).trans hh)
  · rw [xs]
    exact xfersLeft_pos hn

/-! ## REPLY_ARRIVAL and EXCHANGE_TIMEOUT (R331) -/

section
variable {s : State} {y : Xfer} (hh : s.hole = false) (hx : s.xfer y.id = some y)
include hh hx

theorem replyArrival_elsewhere (hb : y.pos ≠ .back) (ha : y.pos ≠ .away) : exec (.replyArrival y.id) s = .next s := by
  rw [exec_replyArrival]
  unfold execReplyArrival
  rw [hx]
  dsimp only
  split
  · next h => exact absurd h hb
  · next h => exact absurd h ha
  · exact out_next hh

theorem replyArrival_back (hp : CanPost s false) (ho : OneOfBow y.group y.pmask) (hn : NoneHeld s) (hb : y.pos = .back) :
    ∃ u, exec (.replyArrival y.id) s = .next u ∧ XferEnds s u y y.status false := by
  refine ⟨_, ?_, endXfer_ends hh hx hp ho y.status false⟩
  rw [exec_replyArrival]
  unfold execReplyArrival
  rw [hx]
  dsimp only
  rw [hb]
  exact endXfer_inject hh hx hp ho hn y.status false

theorem exchangeTimeout_early (h : ¬(y.foreign = false ∧ y.late = false ∧ y.since + 2 ^ 24 ≤ s.cycle)) :
    exec (.exchangeTimeout y.id) s = .next s := by
  rw [exec_exchangeTimeout]
  unfold execExchangeTimeout
  rw [hx]
  dsimp only
  rw [if_pos]
  · exact out_next hh
  · simp only [Bool.or_eq_true, decide_eq_true_eq]
    by_contra hc
    simp only [not_or, Bool.not_eq_true, Nat.not_lt] at hc
    obtain ⟨⟨⟨foreign, late⟩, since⟩, _⟩ := hc
    exact h ⟨foreign, late, since⟩

theorem exchangeTimeout_due (hp : CanPost s false) (ho : OneOfBow y.group y.pmask) (hn : NoneHeld s)
    (h : y.foreign = false ∧ y.late = false ∧ y.since + 2 ^ 24 ≤ s.cycle) :
    ∃ u, exec (.exchangeTimeout y.id) s = .next u ∧ XferEnds s u y 3 true := by
  obtain ⟨foreign, late, since⟩ := h
  have pos : (y.pos == .held) = false := beq_eq_false_iff_ne.2 (hn y (List.mem_of_find?_eq_some hx))
  refine ⟨_, ?_, endXfer_ends hh hx hp ho 3 true⟩
  rw [exec_exchangeTimeout]
  unfold execExchangeTimeout
  rw [hx]
  dsimp only
  rw [foreign, late, pos, decide_eq_false (Nat.not_lt.2 since), if_neg (by decide)]
  exact endXfer_inject hh hx hp ho hn 3 true

end

/-! ## The reply of a request that left the module (R321, R331, R426) -/

/-- The hops of the first segment of a route that leaves the module, and the port that it leaves by. -/
theorem returnFrom_eq {x : Xfer} {hops l : List Nat} {a b : Nat} (h : routeSyms x.route = hops ++ 5 :: a :: b :: l) (hh : ∀ d ∈ hops, d ≤ 4) :
    State.returnFrom x = (escNum a b, hops.reverse.map dirOpp ++ [0]) := by
  have first : (routeSyms x.route).takeWhile (fun d => decide (d ≤ 4)) = hops := by
    rw [h, List.takeWhile_append_of_pos fun d hd => decide_eq_true (hh d hd), List.takeWhile_cons_of_neg (by decide), List.append_nil]
  unfold State.returnFrom
  dsimp only
  rw [first, h, List.drop_left]
  rfl

/-- A status that a reply from outside may bring (R331). -/
def OutsideStatus (y : Xfer) (st : BitVec 8) : Prop :=
  st = 0 ∨ (st = 1 ∧ y.ring = true) ∨ st = 2 ∨ st = 3 ∨ (st = 4 ∧ 7 ∈ routeEscs (routeSyms y.route))

/-- The statuses of which one is chosen. -/
def outsideCodes (y : Xfer) : List (BitVec 8) :=
  (if y.ring then [0, 1, 2, 3] else [0, 2, 3]) ++ if (routeEscs (routeSyms y.route)).contains 7 then [4] else []

theorem outsideCodes_status {y : Xfer} {st : BitVec 8} (h : st ∈ outsideCodes y) : OutsideStatus y st := by
  unfold outsideCodes at h
  unfold OutsideStatus
  rcases List.mem_append.1 h with h | h
  · split at h <;> simp only [List.mem_cons, List.not_mem_nil, or_false] at h <;> tauto
  · split at h
    · next h7 => exact .inr (.inr (.inr (.inr ⟨List.mem_singleton.1 h, List.contains_iff_mem.1 h7⟩)))
    · exact absurd h List.not_mem_nil

theorem outsideCodes_getD (y : Xfer) (n : Nat) : (outsideCodes y).getD (n % (outsideCodes y).length) 0 ∈ outsideCodes y := by
  have pos : 0 < (outsideCodes y).length := by
    unfold outsideCodes
    rw [List.length_append]
    split <;> simp
  rw [List.getD_eq_getElem _ _ (Nat.mod_lt _ pos)]
  exact List.getElem_mem _

/-- What a reply from outside brings: a status, and for a read the data of every lane. -/
def outsideData (s : State) (y : Xfer) : List (Nat × List Byte) :=
  if y.write then [] else y.lanes.map fun l => (l.lane, (List.range y.width).map fun j =>
    BitVec.ofNat 8 (Config.freeNat s.draw (2 ^ 91 + 16 * l.lane + j)))

theorem outsideData_lanes (s : State) (y : Xfer) : (y.write = true → outsideData s y = []) ∧
    (y.write = false → (outsideData s y).map (·.1) = y.lanes.map (·.lane) ∧ ∀ e ∈ outsideData s y, e.2.length = y.width) := by
  unfold outsideData
  refine ⟨fun h => if_pos h, fun h => ?_⟩
  rw [if_neg (by rw [h]; decide), List.map_map]
  refine ⟨rfl, fun e he => ?_⟩
  obtain ⟨l, _, rfl⟩ := List.mem_map.1 he
  rw [List.length_map, List.length_range]

/-- The packet of a reply that comes in through a port. -/
def outsidePkt (s : State) (y : Xfer) (home : List Nat) : Pkt :=
  ⟨y.id, true, home.map (BitVec.ofNat 4), [], y.tc, y.repFlits, s.cycle, s.cycle, false⟩

/-- The transfer whose reply comes from outside, and its packet: in the port's drain slot, or in the external input of the reply router. -/
def ComesIn (s u : State) (y : Xfer) (port : Nat) (home : List Nat) : Prop :=
  let c := (Config.portCluster port).toNat
  let k := 8 * port + 4 + y.tc.code.toNat
  let key := inKey true c 5 y.tc
  ∃ (st : BitVec 8) (data : List (Nat × List Byte)) (q : Pkt), u = { s with xfers := u.xfers, routers := u.routers, portDrain := u.portDrain } ∧
    OutsideStatus y st ∧
    (y.write = true → data = []) ∧ (y.write = false → data.map (·.1) = y.lanes.map (·.lane) ∧ ∀ e ∈ data, e.2.length = y.width) ∧
    u.xfers = s.xfers.map (fun x => if x.id = y.id then { x with pos := .returning, status := st, data := data } else x) ∧
    q.xfer = y.id ∧ q.reply = true ∧ q.syms = home.map (BitVec.ofNat 4) ∧ q.vc = y.tc ∧ q.flits = y.repFlits ∧
    ((mget none s.portDrain k = none ∧ mget none u.portDrain k = some q ∧
        (∀ j, j ≠ k → mget none u.portDrain j = mget none s.portDrain j) ∧ u.routers = s.routers) ∨
      (y.repFlits ≤ s.freeFlits true c 5 y.tc ∧ u.queueAt key = s.queueAt key ++ [q] ∧ (∀ j, j ≠ key → u.queueAt j = s.queueAt j) ∧
        u.portDrain = s.portDrain))

section
variable {s : State} {y : Xfer} (hh : s.hole = false) (hx : s.xfer y.id = some y) (hp : y.pos = .away) {hops l : List Nat} {a b : Nat}
  (hr : routeSyms y.route = hops ++ 5 :: a :: b :: l) (hl : ∀ d ∈ hops, d ≤ 4)
include hx hp hr hl

/-- What comes of a reply from outside: it is lost, waits in the port's drain slot, or enters the reply router, once there is room. -/
theorem replyArrival_away : exec (.replyArrival y.id) s =
    (let port := escNum a b
     let c := (Config.portCluster port).toNat
     let home := hops.reverse.map dirOpp ++ [0]
     let k := 8 * port + 4 + y.tc.code.toNat
     let st := (outsideCodes y).getD (Config.freeNat s.draw (2 ^ 90) % (outsideCodes y).length) 0
     let back := s.xfers.map fun x => if x.id = y.id then { x with pos := .returning, status := st, data := outsideData s y } else x
     if s.portDown port || !s.restOk c 0 home then
       State.out { s with xfers := s.xfers.map fun x => if x.id = y.id then { x with pos := .lost } else x }
     else if (mget none s.portDrain k).isNone && s.flip (2 ^ 92) then
       State.out { s with xfers := back, portDrain := mset none s.portDrain k (some (outsidePkt s y home)) }
     else if y.repFlits ≤ s.freeFlits true c 5 y.tc then
       (State.pushPkt { s with xfers := back } (inKey true c 5 y.tc) (outsidePkt s y home)).out
     else s.out) := by
  rw [exec_replyArrival]
  unfold execReplyArrival
  rw [hx]
  dsimp only
  rw [hp]
  dsimp only
  unfold State.replyIn
  rw [returnFrom_eq hr hl]
  simp only [modXfer_eq]
  simp only [apply_ite State.out]
  rfl

include hh

theorem replyArrival_lost (h : ¬(s.portDown (escNum a b) = false ∧
      s.restOk (Config.portCluster (escNum a b)).toNat 0 (hops.reverse.map dirOpp ++ [0]) = true)) :
    exec (.replyArrival y.id) s = .next { s with xfers := s.xfers.map fun x => if x.id = y.id then { x with pos := .lost } else x } := by
  rw [replyArrival_away hx hp hr hl]
  dsimp only
  rw [if_pos]
  · exact out_next hh
  · rw [Bool.or_eq_true, Bool.not_eq_true']
    by_contra hc
    rw [not_or, Bool.not_eq_true, Bool.not_eq_false] at hc
    exact h hc

variable (hg : s.portDown (escNum a b) = false ∧
  s.restOk (Config.portCluster (escNum a b)).toNat 0 (hops.reverse.map dirOpp ++ [0]) = true)
include hg

theorem replyArrival_full (room : ¬y.repFlits ≤ s.freeFlits true (Config.portCluster (escNum a b)).toNat 5 y.tc)
    (drain : mget none s.portDrain (8 * escNum a b + 4 + y.tc.code.toNat) ≠ none) : exec (.replyArrival y.id) s = .next s := by
  obtain ⟨up, ok⟩ := hg
  have taken : (mget none s.portDrain (8 * escNum a b + 4 + y.tc.code.toNat)).isNone = false :=
    Bool.eq_false_iff.2 fun h => drain (Option.isNone_iff_eq_none.1 h)
  rw [replyArrival_away hx hp hr hl]
  dsimp only
  rw [up, ok, if_neg (by decide), taken, Bool.false_and, if_neg (by decide), if_neg room]
  exact out_next hh

theorem replyArrival_comes : ∃ u, exec (.replyArrival y.id) s = .next u ∧
    ((u = s ∧ ¬y.repFlits ≤ s.freeFlits true (Config.portCluster (escNum a b)).toNat 5 y.tc) ∨
      ComesIn s u y (escNum a b) (hops.reverse.map dirOpp ++ [0])) := by
  obtain ⟨up, ok⟩ := hg
  obtain ⟨empty, each⟩ := outsideData_lanes s y
  have code := outsideCodes_status (outsideCodes_getD y (Config.freeNat s.draw (2 ^ 90)))
  let q := outsidePkt s y (hops.reverse.map dirOpp ++ [0])
  rw [replyArrival_away hx hp hr hl]
  dsimp only
  rw [up, ok, if_neg (by decide)]
  split
  · next free =>
    obtain ⟨free, _⟩ := (Bool.and_eq_true ..).mp free
    exact ⟨_, out_next hh, .inr ⟨_, _, q, rfl, code, empty, each, rfl, rfl, rfl, rfl, rfl, rfl,
      .inl ⟨Option.isNone_iff_eq_none.1 free, mget_mset_same none s.portDrain _ (some q),
        fun j hj => mget_mset_other none s.portDrain (some q) hj, rfl⟩⟩⟩
  · split
    · next room =>
      exact ⟨_, out_next hh, .inr ⟨_, _, { q with headAt := max s.cycle s.cycle }, rfl, code, empty, each, rfl, rfl, rfl, rfl, rfl, rfl,
        .inr ⟨room, mget_mset_same .., fun j hj => mget_mset_other _ _ _ hj, rfl⟩⟩⟩
    · next room => exact ⟨s, out_next hh, .inl ⟨rfl, room⟩⟩

end

/-! ## The obligation -/

/-- Nothing happens to a transfer that is over. -/
theorem exchange_none {s : State} {id : Nat} (hh : s.hole = false) (hx : s.xfer id = none) : exec (.requestAtDestination id) s = .next s ∧
    exec (.ringMessageDelivery id) s = .next s ∧ exec (.replyArrival id) s = .next s ∧ exec (.exchangeTimeout id) s = .next s := by
  rw [exec_requestAtDestination, exec_ringMessageDelivery, exec_replyArrival, exec_exchangeTimeout]
  unfold execRequestAtDestination execRingMessageDelivery execReplyArrival execExchangeTimeout
  rw [hx]
  exact ⟨out_next hh, out_next hh, out_next hh, out_next hh⟩

/-- What the lanes of a read find, lane by lane. -/
theorem laneReads_get {s : State} {y : Xfer} {L : List XLane} {reads : List (Nat × List Byte)} (h : List.Forall₂ (LaneReads s y) L reads)
    {i : Nat} {l : XLane} {e : Nat × List Byte} (hl : L[i]? = some l) (he : reads[i]? = some e) : LaneReads s y l e := by
  obtain ⟨il, rfl⟩ := List.getElem?_eq_some_iff.1 hl
  obtain ⟨ie, rfl⟩ := List.getElem?_eq_some_iff.1 he
  exact h.get il ie

/-- Settles O54: at the destination `requestAtDestination_write`, `requestAtDestination_read` and `ringMessageDelivery_enters`; the ends by
`endXfer_ends`; replies from outside by `replyArrival_comes`; frames by `ethernetFrameReceive_enters`, `ethernetFrameReceive_fixed` and
`fixedLatencyRelease_next`. -/
theorem exchangeEnds : Obligations.ExchangeEnds := by
  unfold Obligations.ExchangeEnds
  refine ⟨fun s id hh hx => exchange_none hh hx, fun s y hh hx hn => ⟨?_, ?_, ?_, ?_, ?_, ?_, ?_, ?_, ?_⟩, ?_, ?_⟩
  · exact requestAtDestination_elsewhere hh hx
  · intro hp hr hc
    refine ⟨fun ha => requestAtDestination_refused hh hx hn hp hr hc ha, fun L ha hL ho hd => ⟨fun hw => ?_, fun hw => ?_⟩⟩
    · exact requestAtDestination_write hh hx hn hp hr hc ha hL ho hd hw
    · obtain ⟨u, reads, e, replied, mem, sp, found⟩ := requestAtDestination_read hh hx hn hp hr hc ha hL ho hd hw
      exact ⟨u, reads, e, replied, mem, sp, found.length_eq.symm, fun i l e hl he => laneReads_get found hl he⟩
  · exact ringMessageDelivery_elsewhere hh hx
  · intro hp hr
    refine ⟨fun l k hl hk => ⟨ringMessageDelivery_pending hh hx hp hr hl hk, fun hc hf => ⟨?_, ?_⟩⟩, ?_⟩
    · exact ringMessageDelivery_enters hh hx hp hr hl hk hc hf
    · exact ringMessageDelivery_refused hh hx hp hr hl hk hc hf
    · exact ringMessageDelivery_noPlace hh hx hp hr
  · intro hp hc
    refine ⟨requestAtDestination_waits hh hx hn hp hc, ?_⟩
    cases hr : y.ring with
    | true => exact ringMessageDelivery_waits hh hx hp hr hc
    | false => exact ringMessageDelivery_elsewhere hh hx (.inr hr)
  · exact replyArrival_elsewhere hh hx
  · exact fun hc ho hb => replyArrival_back hh hx hc ho hn hb
  · intro hops l a b hp hr hl
    refine ⟨replyArrival_lost hh hx hp hr hl, ?_, ?_⟩
    · exact replyArrival_full hh hx hp hr hl
    · exact replyArrival_comes hh hx hp hr hl
  · exact ⟨exchangeTimeout_early hh hx, fun hd hc ho => exchangeTimeout_due hh hx hc ho hn hd⟩
  · intro s port f good hh
    refine ⟨ethernetFrameReceive_dropped hh, fun i ok hi => ⟨fun k hf hk => ⟨?_, ?_⟩, ?_⟩⟩
    · exact ethernetFrameReceive_waits hh ok hi hf hk
    · exact ethernetFrameReceive_enters hh ok hi hf hk
    · exact ethernetFrameReceive_fixed hh ok hi
  · intro s x hh
    refine ⟨fixedLatencyRelease_none hh, fun f e hf he => ⟨fixedLatencyRelease_early hh hf he, fun k hd hk => ?_⟩⟩
    exact fixedLatencyRelease_next hh hf he hd hk

end Sys2Proof.Slice0
end

section
namespace Sys2Proof.Slice0
open Machine

/-! # Codes and exact results (O21) -/

/-- A code is its sign and its magnitude. -/
theorem signed_sign_mag (d : FDesc) {c : Nat} (hw : 0 < d.w) (hc : c < 2 ^ d.w) :
    d.signed (bitAt c (d.w - 1)) (c % 2 ^ (d.w - 1)) = c := by
  have hq : c / 2 ^ (d.w - 1) < 2 := by
    rw [Nat.div_lt_iff_lt_mul (by positivity), ← pow_succ', Nat.sub_add_cancel hw]
    exact hc
  have hsplit := Nat.div_add_mod c (2 ^ (d.w - 1))
  unfold FDesc.signed bitAt
  rw [Nat.testBit_eq_decide_div_mod_eq]
  rcases Nat.le_one_iff_eq_zero_or_eq_one.1 (Nat.le_of_lt_succ hq) with h | h
  · rw [h] at hsplit ⊢
    simpa using hsplit
  · rw [h] at hsplit ⊢
    simpa using hsplit

/-- What a code denotes, by its magnitude (R77). -/
theorem dec_cases (d : FDesc) (c : Nat) :
    let neg := bitAt c (d.w - 1)
    let mag := c % 2 ^ (d.w - 1)
    (d.inf = some mag ∧ d.dec c = .inf neg) ∨
    (∃ b, d.dec c = .nan b) ∨
    (mag ≤ d.top ∧ mag < 2 ^ d.m ∧ d.dec c = .num neg mag (1 - (d.bias : Int) - d.m)) ∨
    ∃ E M, mag ≤ d.top ∧ mag = (E + 1) * 2 ^ d.m + M ∧ M < 2 ^ d.m ∧
      d.dec c = .num neg (2 ^ d.m + M) (((E + 1 : Nat) : Int) - d.bias - d.m) := by
  intro neg mag
  by_cases hinf : d.inf = some mag
  · exact .inl ⟨hinf, if_pos hinf⟩
  by_cases htop : d.top < mag
  · exact .inr (.inl ⟨_, (if_neg hinf).trans (if_pos htop)⟩)
  have hdec : d.dec c = if mag / 2 ^ d.m = 0 then .num neg (mag % 2 ^ d.m) (1 - (d.bias : Int) - d.m)
      else .num neg (2 ^ d.m + mag % 2 ^ d.m) (((mag / 2 ^ d.m : Nat) : Int) - d.bias - d.m) := (if_neg hinf).trans (if_neg htop)
  have hM : mag % 2 ^ d.m < 2 ^ d.m := Nat.mod_lt _ (by positivity)
  have hsplit := Nat.div_add_mod' mag (2 ^ d.m)
  right; right
  cases hE : mag / 2 ^ d.m with
  | zero =>
    have hlt : mag < 2 ^ d.m := (Nat.div_eq_zero_iff_lt (by positivity)).1 hE
    exact .inl ⟨by omega, hlt, by rw [hdec, if_pos hE, Nat.mod_eq_of_lt hlt]⟩
  | succ E =>
    refine .inr ⟨E, mag % 2 ^ d.m, by omega, by rw [← hE]; exact hsplit.symm, hM, ?_⟩
    rw [hdec, if_neg (by omega), hE]

/-- A cut that leaves nothing below the quantum. -/
def exactCut (lo : Nat) : Cut := ⟨lo, 0, 0, false⟩

/-- No mode moves an exact multiple of the quantum (R86, R91). -/
theorem up_exactCut (r : Rnd) (neg : Bool) {k : Nat} (lo : Nat) (hk : k < 65536) : r.up neg k (exactCut lo) = false := by
  cases r with
  | rne => rfl
  | rz => rfl
  | rdn => exact Bool.and_false _
  | rup => exact Bool.and_false _
  | rs => simpa [Rnd.up, exactCut] using hk

/-- The high half of a state of the generator. -/
theorem srs_high_lt (x : BitVec 32) : x.toNat / 65536 < 65536 := Nat.div_lt_of_lt_mul x.isLt

/-- A multiple of the quantum of its own binade, within the format, is delivered as it stands (R87). -/
theorem deliver_multiple (d : FDesc) (mode : Rnd) (sat : Bool) {up : Bool → Cut → Bool} (hup : ∀ neg lo, up neg (exactCut lo) = false)
    (neg : Bool) {n : Nat} {e : Int} (hn : n ≠ 0) (hq : max (e + Nat.log2 n) (1 - (d.bias : Int)) - d.m = e)
    {code : Nat} (hcode : (e + d.m + d.bias).toNat * 2 ^ d.m + n = code + 2 ^ d.m) (htop : code ≤ d.top) :
    d.deliver mode sat up (.num neg n e false) = (d.signed neg code, 0) := by
  have hcut : cutAt n e false e = exactCut n := by simp [cutAt, exactCut]
  have hexact : (exactCut n).inexact = false := rfl
  have hpick : (exactCut n).pick (up neg) = n := by unfold Cut.pick; rw [hup]; rfl
  unfold FDesc.deliver
  simp only [hn, if_false, hq, hcut, hpick, hcode, Nat.add_sub_cancel, htop.not_gt, hexact, Bool.false_and, flagIf, Bool.false_eq_true]
  rfl

/-- Every code that is no NaN is what its value rounds to, whichever way the candidates are chosen (R87). -/
theorem deliver_dec (d : FDesc) (mode : Rnd) (sat : Bool) {up : Bool → Cut → Bool} (hup : ∀ neg lo, up neg (exactCut lo) = false)
    {c : Nat} (hw : 0 < d.w) (hc : c < 2 ^ d.w) (hnan : ∀ b, d.dec c ≠ .nan b) : d.deliver mode sat up (d.dec c).exact = (c, 0) := by
  have hsigned := signed_sign_mag d hw hc
  rcases dec_cases d c with ⟨hinf, hdec⟩ | ⟨b, hdec⟩ | ⟨htop, hsub, hdec⟩ | ⟨E, M, htop, hmag, hM, hdec⟩
  · rw [hdec]
    simp only [FVal.exact, FDesc.deliver, hinf, hsigned]
  · exact absurd hdec (hnan b)
  · rw [hdec, FVal.exact]
    by_cases h0 : c % 2 ^ (d.w - 1) = 0
    · rw [h0] at hsigned ⊢
      simp only [FDesc.deliver, if_true, hsigned]
    · have hlog : Nat.log2 (c % 2 ^ (d.w - 1)) < d.m := (Nat.log2_lt h0).2 hsub
      rw [deliver_multiple d mode sat hup _ h0 (by omega) (code := c % 2 ^ (d.w - 1)) _ htop, hsigned]
      rw [show (1 - (d.bias : Int) - d.m + d.m + d.bias).toNat = 1 by omega]
      omega
  · rw [hdec, FVal.exact]
    have hne : 2 ^ d.m + M ≠ 0 := by positivity
    have hlog : Nat.log2 (2 ^ d.m + M) = d.m := (Nat.log2_eq_iff hne).2 ⟨by omega, by rw [pow_succ]; omega⟩
    rw [deliver_multiple d mode sat hup _ hne (by rw [hlog]; omega) (code := c % 2 ^ (d.w - 1)) _ htop, hsigned]
    rw [show (((E + 1 : Nat) : Int) - d.bias - d.m + d.m + d.bias).toNat = E + 1 by omega, hmag]
    omega

theorem fm_width_pos (f : FFmt) : 0 < (fm f).w := by cases f <;> decide

/-- Settles O21: `deliver_dec`, with the choices of a mode under the generator. -/
theorem exactResultsStand : Obligations.ExactResultsStand := by
  unfold Obligations.ExactResultsStand
  intro f r sat x0 j n _ _ hn hnan
  exact deliver_dec (fm f) r sat (fun neg lo => up_exactCut r neg lo (srs_high_lt _)) (fm_width_pos f) hn hnan

end Sys2Proof.Slice0
end

section
namespace Sys2Proof.Slice0
open Machine

/-! # One group of the harp's summation (O36)

A finite addend is the rational `ratOf`; its leading exponent and its truncation are facts about that number. -/

/-! ## A finite addend as a rational -/

theorem abs_ratOf_num (b : Bool) (n : Nat) (e : Int) : |ratOf (.num b n e false)| = n * (2 : ℚ) ^ e := by
  have hpow : (0 : ℚ) < 2 ^ e := by positivity
  cases b <;> simp [ratOf, abs_mul, abs_of_pos hpow]

theorem ratOf_num_neg_iff (b : Bool) (n : Nat) (e : Int) : ratOf (.num b n e false) < 0 ↔ b = true ∧ n ≠ 0 := by
  have hpow : (0 : ℚ) < 2 ^ e := by positivity
  have hn : (0 : ℚ) ≤ n * 2 ^ e := by positivity
  cases b with
  | false => simpa [ratOf] using hn
  | true => simp [ratOf, hpow, Nat.pos_iff_ne_zero]

/-- A magnitude lies in the binade of its leading bit. -/
theorem binade_log2 {n : Nat} (hn : n ≠ 0) (e : Int) :
    (2 : ℚ) ^ (e + Nat.log2 n) ≤ n * 2 ^ e ∧ n * (2 : ℚ) ^ e < 2 ^ (e + Nat.log2 n + 1) := by
  have hpow : (0 : ℚ) < 2 ^ e := by positivity
  have hlo : ((2 ^ Nat.log2 n : Nat) : ℚ) ≤ n := by exact_mod_cast Nat.log2_self_le hn
  have hhi : (n : ℚ) < ((2 ^ (Nat.log2 n + 1) : Nat) : ℚ) := by exact_mod_cast Nat.lt_log2_self (n := n)
  push_cast at hlo hhi
  rw [add_assoc, zpow_add₀ two_ne_zero, zpow_add₀ two_ne_zero, mul_comm (n : ℚ)]
  exact ⟨mul_le_mul_of_nonneg_left (by exact_mod_cast hlo) hpow.le, mul_lt_mul_of_pos_left (by exact_mod_cast hhi) hpow⟩

/-- A magnitude cut at a quantum is the whole number of quanta in it (R87). -/
theorem cutAt_lo (n : Nat) (e : Int) (more : Bool) (q : Int) : ((cutAt n e more q).lo : ℤ) = ⌊(n * (2 : ℚ) ^ e) / 2 ^ q⌋ := by
  have hdiv : (n * (2 : ℚ) ^ e) / 2 ^ q = n * 2 ^ (e - q) := by rw [zpow_sub₀ two_ne_zero, mul_div_assoc]
  rw [hdiv]
  unfold cutAt
  split
  · next h =>
    have hpow : (2 : ℚ) ^ (e - q) = ((2 ^ (e - q).toNat : Nat) : ℚ) := by
      rw [Nat.cast_pow, ← zpow_natCast, Int.toNat_of_nonneg (by omega)]; rfl
    rw [hpow]
    exact_mod_cast (Int.floor_natCast (R := ℚ) (n * 2 ^ (e - q).toNat)).symm
  · next h =>
    have hpow : (n : ℚ) * 2 ^ (e - q) = ((n : ℤ) : ℚ) / ((2 ^ (q - e).toNat : Nat) : ℚ) := by
      rw [Nat.cast_pow, ← zpow_natCast, Int.toNat_of_nonneg (by omega), ← neg_sub q e, zpow_neg]; rfl
    rw [hpow, Rat.floor_intCast_div_natCast]
    exact Int.natCast_div n _

/-- The truncation of a finite addend (R98). -/
theorem trunc_num (b : Bool) (n : Nat) (e q : Int) : ((Exact.num b n e false).trunc q).1 =
    (if ratOf (.num b n e false) < 0 then -1 else 1) * ⌊|ratOf (.num b n e false)| / (2 : ℚ) ^ q⌋ := by
  rw [abs_ratOf_num, ← cutAt_lo n e false]
  simp only [ratOf_num_neg_iff]
  have hzero : (cutAt 0 e false q).lo = 0 := by unfold cutAt; split <;> simp
  cases b with
  | false => simp [Exact.trunc]
  | true =>
    by_cases h : n = 0
    · simp [h, hzero, Exact.trunc]
    · simp [h, Exact.trunc]

/-- The largest leading exponent of finite addends is the E of R98. -/
theorem greatest_lead {t : List Exact} {E : Int} (hfin : ∀ x ∈ t, ∃ s n e, x = .num s n e false)
    (hex : ∃ x ∈ t, (2 : ℚ) ^ E ≤ |ratOf x|) (hall : ∀ x ∈ t, |ratOf x| < (2 : ℚ) ^ (E + 1)) :
    (t.filterMap Exact.lead).max? = some E := by
  have below : ∀ k ∈ t.filterMap Exact.lead, k ≤ E := by
    intro k hk
    obtain ⟨x, hx, hlead⟩ := List.mem_filterMap.1 hk
    obtain ⟨b, n, e, rfl⟩ := hfin x hx
    have hlt := hall _ hx
    rw [abs_ratOf_num] at hlt
    by_cases hn : n = 0
    · simp [Exact.lead, hn] at hlead
    · simp only [Exact.lead, hn, if_false, Option.some.injEq] at hlead
      have := (zpow_lt_zpow_iff_right₀ one_lt_two).1 ((binade_log2 hn e).1.trans_lt hlt)
      omega
  refine List.max?_eq_some_iff.2 ⟨?_, below⟩
  obtain ⟨x, hx, hge⟩ := hex
  obtain ⟨b, n, e, rfl⟩ := hfin x hx
  rw [abs_ratOf_num] at hge
  have hn : n ≠ 0 := by
    rintro rfl
    have : (0 : ℚ) < 2 ^ E := by positivity
    simp at hge
    linarith
  have hlead : (Exact.num b n e false).lead = some (e + Nat.log2 n) := if_neg hn
  have hmem := List.mem_filterMap.2 ⟨_, hx, hlead⟩
  have hle := below _ hmem
  have := (zpow_lt_zpow_iff_right₀ one_lt_two).1 (hge.trans_lt (binade_log2 hn e).2)
  rwa [show E = e + Nat.log2 n by omega]

/-! ## The cases of a group (R98) -/

/-- Whether an addend is a NaN. -/
def isNanE : Exact → Bool
  | .nan _ => true
  | _ => false

/-- Whether an addend is +inf. -/
def isPosInf : Exact → Bool
  | .inf s => !s
  | _ => false

/-- Whether an addend is −inf. -/
def isNegInf : Exact → Bool
  | .inf s => s
  | _ => false

theorem any_isNanE {t : List Exact} : t.any isNanE = true ↔ ∃ x ∈ t, ∃ b, x = .nan b := by
  rw [List.any_eq_true]
  refine exists_congr fun x => and_congr_right fun _ => ?_
  cases x <;> simp [isNanE]

theorem any_isPosInf {t : List Exact} : t.any isPosInf = true ↔ .inf false ∈ t := by
  rw [List.any_eq_true]
  constructor
  · rintro ⟨x, hx, h⟩
    cases x <;> simp_all [isPosInf]
  · exact fun h => ⟨_, h, rfl⟩

theorem any_isNegInf {t : List Exact} : t.any isNegInf = true ↔ .inf true ∈ t := by
  rw [List.any_eq_true]
  constructor
  · rintro ⟨x, hx, h⟩
    cases x <;> simp_all [isNegInf]
  · exact fun h => ⟨_, h, rfl⟩

/-- The code of the sum of the addends `t` in units of 2^(E − 30), rounded once; a sum of zero is +0 (R98). -/
def sumCode (t : List Exact) (E : Int) : Nat :=
  let sum := (t.map fun x => (x.trunc (E - 30)).1).sum
  if sum = 0 then 0 else (fp32.round .rne false (.num (decide (sum < 0)) sum.natAbs (E - 30) false)).1

/-- The code of a group's sum over the addends `t`: the special cases, then the sum at the greatest exponent (R98). -/
def groupCode (t : List Exact) : Nat :=
  if t.any isNanE || (t.any isPosInf && t.any isNegInf) then 0x7FC00000
  else if t.any isPosInf then 0x7F800000
  else if t.any isNegInf then 0xFF800000
  else ((t.filterMap Exact.lead).max?.map (sumCode t)).getD 0

theorem harpGroup_code (acc : Nat) (prods : List Exact) :
    (harpGroup acc prods).1 = groupCode (prods ++ [(fp32.dec acc).exact]) := by
  unfold harpGroup groupCode
  generalize prods ++ [(fp32.dec acc).exact] = t
  dsimp only
  split
  · next h => exact (if_pos h).symm
  split
  · next h1 h2 => exact ((if_neg h1).trans (if_pos h2)).symm
  split
  · next h1 h2 h3 => exact ((if_neg h1).trans ((if_neg h2).trans (if_pos h3))).symm
  next h1 h2 h3 =>
  refine Eq.trans ?_ ((if_neg h1).trans ((if_neg h2).trans (if_neg h3))).symm
  cases t.filterMap Exact.lead with
  | nil => rfl
  | cons k l =>
    rw [List.max?_cons']
    simp only [List.foldl_map, Option.map_some, Option.getD_some, sumCode, List.sum_eq_foldl]
    split <;> rfl

theorem groupCode_nan {t : List Exact} (h : (∃ x ∈ t, ∃ b, x = .nan b) ∨ (.inf false ∈ t ∧ .inf true ∈ t)) :
    groupCode t = 0x7FC00000 := by
  rw [← any_isNanE, ← any_isPosInf, ← any_isNegInf, ← Bool.and_eq_true, ← Bool.or_eq_true] at h
  exact if_pos h

theorem groupCode_inf {t : List Exact} {g : Bool} (hnan : ∀ x ∈ t, ∀ b, x ≠ .nan b) (hg : .inf g ∈ t) (ho : .inf (!g) ∉ t) :
    groupCode t = if g then 0xFF800000 else 0x7F800000 := by
  have h1 : ¬ t.any isNanE = true := fun h => by
    obtain ⟨x, hx, b, hb⟩ := any_isNanE.1 h
    exact hnan x hx b hb
  unfold groupCode
  cases g with
  | false =>
    rw [← any_isPosInf] at hg
    have h2 : ¬ t.any isNegInf = true := mt any_isNegInf.1 ho
    simp [h1, hg, h2]
  | true =>
    rw [← any_isNegInf] at hg
    have h2 : ¬ t.any isPosInf = true := mt any_isPosInf.1 ho
    simp [h1, hg, h2]

/-- Finite addends: the sum at the greatest exponent, or +0 where none is nonzero. -/
theorem groupCode_finite {t : List Exact} (hfin : ∀ x ∈ t, ∃ s n e, x = .num s n e false) :
    groupCode t = ((t.filterMap Exact.lead).max?.map (sumCode t)).getD 0 := by
  have h1 : ¬ t.any isNanE = true := fun h => by
    obtain ⟨x, hx, b, rfl⟩ := any_isNanE.1 h
    obtain ⟨_, _, _, h⟩ := hfin _ hx
    cases h
  have hinf : ∀ g, .inf g ∉ t := by
    intro g hg
    obtain ⟨_, _, _, h⟩ := hfin _ hg
    cases h
  have h2 : ¬ t.any isPosInf = true := mt any_isPosInf.1 (hinf _)
  have h3 : ¬ t.any isNegInf = true := mt any_isNegInf.1 (hinf _)
  unfold groupCode
  simp [h1, h2, h3]

/-- Settles O36: `harpGroup_code`; a finite sum by `greatest_lead` and `trunc_num`, the special cases by `groupCode_nan`, `groupCode_inf`
and `groupCode_finite`. -/
theorem harpSum : Obligations.HarpSum := by
  unfold Obligations.HarpSum
  intro acc prods t out
  have hout : out = groupCode t := harpGroup_code acc prods
  rw [hout]
  refine ⟨fun E S hfin hex hall hS => ?_, groupCode_nan, fun g => groupCode_inf, fun hzero => ?_⟩
  · have hsum : (t.map fun x => (x.trunc (E - 30)).1).sum = S := by
      rw [hS]
      refine congrArg List.sum (List.map_congr_left fun x hx => ?_)
      obtain ⟨b, n, e, rfl⟩ := hfin x hx
      exact trunc_num b n e (E - 30)
    rw [groupCode_finite hfin, greatest_lead hfin hex hall]
    simp only [Option.map_some, Option.getD_some, sumCode, hsum]
    rfl
  · have hlead : t.filterMap Exact.lead = [] := by
      refine List.filterMap_eq_nil_iff.2 fun x hx => ?_
      obtain ⟨s, e, rfl⟩ := hzero x hx
      rfl
    rw [groupCode_finite fun x hx => (hzero x hx).imp fun s ⟨e, h⟩ => ⟨0, e, h⟩, hlead]
    rfl

end Sys2Proof.Slice0
end

section
namespace Sys2Proof.Slice0
open Machine

/-! # `FRED`, `SCALE` and `CBENC` (O17)

Each word writes a vector register of which the statement names the elements; the first two parts say what joined elements read as and which
codes fit a format, for any word of class 1.

## The elements of a vector register (R84) -/

/-- Some numbers packed in fields of w bits, the first lowest. -/
def packed (w : Nat) (l : List Nat) : Nat := l.foldr (fun c y => c % 2 ^ w + 2 ^ w * y) 0

theorem packed_field (w : Nat) (l : List Nat) (j : Nat) : packed w l / 2 ^ (w * j) % 2 ^ w = l.getD j 0 % 2 ^ w := by
  induction l generalizing j with
  | nil => simp [packed]
  | cons c l ih =>
    have hcons : packed w (c :: l) = c % 2 ^ w + 2 ^ w * packed w l := rfl
    cases j with
    | zero => rw [hcons]; simp
    | succ j =>
      have htail : (c % 2 ^ w + 2 ^ w * packed w l) / 2 ^ w = packed w l := by
        rw [Nat.add_mul_div_left _ _ (by positivity), Nat.div_eq_of_lt (Nat.mod_lt _ (by positivity)), Nat.zero_add]
      rw [hcons, Nat.mul_succ, Nat.add_comm (w * j), pow_add, ← Nat.div_div_eq_div_mul, htail, ih, List.getD_cons_succ]

theorem elemAt_eq (w : Nat) (x : W128) (j : Nat) : elemAt w x j = x.toNat / 2 ^ (w * j) % 2 ^ w := by
  rw [elemAt, BitVec.extractLsb'_toNat, Nat.shiftRight_eq_div_pow]

theorem elemAt_lt (w : Nat) (x : W128) (j : Nat) : elemAt w x j < 2 ^ w := BitVec.isLt _

/-- Element j of joined elements. -/
theorem elemAt_vJoin (w : Nat) (l : List Nat) {j : Nat} (hj : w * j + w ≤ 128) : elemAt w (vJoin w l) j = l.getD j 0 % 2 ^ w := by
  rw [elemAt_eq, ← packed_field]
  change packed w l % 2 ^ 128 / 2 ^ (w * j) % 2 ^ w = _
  rw [show 2 ^ 128 = 2 ^ (w * j) * 2 ^ (128 - w * j) by rw [← pow_add]; congr 1; omega, Nat.mod_mul_right_div_self,
    Nat.mod_mod_of_dvd _ (pow_dvd_pow 2 (by omega))]

/-- The elements of a vector register in order. -/
theorem vElems_eq {w : Nat} (hw : 0 < w) (x : W128) : vElems w x = (List.range (128 / w)).map (elemAt w x) := by
  refine List.map_congr_left fun j _ => ?_
  have hsize : (j + 1) * w - 1 + 1 - j * w = w := by
    have : (j + 1) * w = j * w + w := Nat.succ_mul j w
    omega
  rw [bits_eq, elemAt, hsize, Nat.mul_comm]

theorem vElems_getD {w : Nat} (hw : 0 < w) (x : W128) {j : Nat} (hj : j < 128 / w) : (vElems w x).getD j 0 = elemAt w x j := by
  rw [vElems_eq hw, List.getD_eq_getElem?_getD, List.getElem?_map, List.getElem?_range hj]
  rfl

/-- A word that writes the joined codes `out l j` and the OR of their flags writes its vector register element by element. -/
theorem vecWrites_of_codes {s : State} {i : Instr} {c : Ctl} {p : List Nat} {lat : Nat} {d : VReg} {tag : Nat → Byte} {w n : Nat}
    {out : Nat → Nat → Nat × BitVec 5} {more : Nat → List (RegId × RVal)} (hn : w * n ≤ 128) (hlt : ∀ l ∈ p, ∀ j < n, (out l j).1 < 2 ^ w)
    (h : s.Writes i c p lat fun l => [(.v d, .v ⟨vJoin w ((List.range n).map fun j => (out l j).1), tag l⟩),
      (.s .fsr, .orF (flagsOf n (out l)))] ++ more l) : VecWrites s i c p lat d tag w n out more := by
  refine ⟨_, fun l hl => ⟨rfl, fun j hj => ?_⟩, h⟩
  have hfit : w * j + w ≤ 128 := (Nat.mul_le_mul_left w hj).trans hn
  rw [elemAt_vJoin w _ hfit, List.getD_eq_getElem?_getD, List.getElem?_map, List.getElem?_range hj]
  exact Nat.mod_eq_of_lt (hlt l hl j hj)

/-- The writes of a vector result of some codes with their flags, without the generator. -/
def joinedWrites (d : VReg) (tag : Byte) (w : Nat) (l : List (Nat × BitVec 5)) : List (RegId × RVal) :=
  vWrites d .rne tag w ⟨l.map (·.1), l.foldl (fun z e => z ||| e.2) 0, 0⟩

theorem joinedWrites_map (d : VReg) (tag : Byte) (w n : Nat) (out : Nat → Nat × BitVec 5) :
    joinedWrites d tag w ((List.range n).map out) =
      [(.v d, .v ⟨vJoin w ((List.range n).map fun j => (out j).1), tag⟩), (.s .fsr, .orF (flagsOf n out))] ++ [] := by
  simp only [joinedWrites, vWrites, List.map_map, List.foldl_map]
  rfl

/-! ## Formats and tags -/

theorem fm_width_dvd (f : FFmt) : (fm f).w * count f = 128 := by cases f <;> decide

theorem mkTag_code (f : FFmt) : mkTag f.code.toNat 0 0 = ftag f := by cases f <;> decide

/-- A source that carries the format's tag passes. -/
theorem badTag_none {f : FFmt} {x : VVal} (h : x.tag = ftag f) : badTag f [x] = none := by
  simp [badTag, mkTag_code, h]

theorem tagFmt_ftag (f : FFmt) : tagFmt (ftag f) = f.code.toNat := by cases f <;> decide

theorem tagVOk_ftag (f : FFmt) : tagVOk (ftag f) = true := by cases f <;> decide

theorem ite_below {q : Prop} [Decidable q] {x y n : Nat} (hx : x < n) (hy : y < n) : (if q then x else y) < n := by
  split
  · exact hx
  · exact hy

/-- The codes that a format names lie below its sign bit (R76). -/
structure Fits (d : FDesc) : Prop where
  width : 0 < d.w
  top   : d.top < 2 ^ (d.w - 1)
  inf   : d.inf.getD 0 < 2 ^ (d.w - 1)
  nan   : d.nan.getD 0 < 2 ^ (d.w - 1)

theorem fm_fits (f : FFmt) : Fits (fm f) := by
  cases f <;> exact ⟨by decide, by decide, by decide, by decide⟩

section
variable {d : FDesc} (hd : Fits d)
include hd

theorem pow_width_eq : 2 ^ d.w = 2 ^ (d.w - 1) + 2 ^ (d.w - 1) := by
  rw [← Nat.two_mul, ← pow_succ', Nat.sub_add_cancel hd.width]

theorem lt_of_mag {c : Nat} (h : c < 2 ^ (d.w - 1)) : c < 2 ^ d.w := by
  have := pow_width_eq hd
  omega

theorem signed_lt {neg : Bool} {mag : Nat} (h : mag < 2 ^ (d.w - 1)) : d.signed neg mag < 2 ^ d.w := by
  have := pow_width_eq hd
  cases neg
  · simpa [FDesc.signed] using lt_of_mag hd h
  · simp only [FDesc.signed, if_true]
    omega

theorem inf_lt {i : Nat} (h : d.inf = some i) : i < 2 ^ (d.w - 1) := by simpa [h] using hd.inf

theorem nan_lt {c : Nat} (h : d.nan = some c) : c < 2 ^ (d.w - 1) := by simpa [h] using hd.nan

/-- An overflow gives a code of the format (R88). -/
theorem overflow_lt (mode : Rnd) (sat neg : Bool) : (d.overflow mode sat neg).1 < 2 ^ d.w := by
  unfold FDesc.overflow
  split
  · exact signed_lt hd hd.top
  · split
    · cases h : d.inf with
      | none => exact lt_of_mag hd hd.nan
      | some i => exact signed_lt hd (inf_lt hd h)
    · exact signed_lt hd hd.top

/-- Every delivered result is a code of the format (R87–R89). -/
theorem deliver_lt (mode : Rnd) (sat : Bool) (up : Bool → Cut → Bool) (x : Exact) : (d.deliver mode sat up x).1 < 2 ^ d.w := by
  cases x with
  | nan nv =>
    unfold FDesc.deliver
    cases h : d.nan with
    | none => positivity
    | some c => exact lt_of_mag hd (nan_lt hd h)
  | inf neg =>
    unfold FDesc.deliver
    cases hi : d.inf with
    | some i => exact signed_lt hd (inf_lt hd hi)
    | none =>
      cases hn : d.nan with
      | none => exact signed_lt hd hd.top
      | some c =>
        cases sat
        · exact lt_of_mag hd (nan_lt hd hn)
        · exact signed_lt hd hd.top
  | num neg n e more =>
    unfold FDesc.deliver
    have hpos : 0 < 2 ^ (d.w - 1) := by positivity
    dsimp only
    split
    · exact signed_lt hd hpos
    · split
      · exact overflow_lt hd mode sat neg
      · next h => exact signed_lt hd ((not_lt.1 h).trans_lt hd.top)

/-- A minimum or maximum of codes is a code of the format (R206). -/
theorem minMax_lt (big : Bool) {a b : Nat} (ha : a < 2 ^ d.w) (hb : b < 2 ^ d.w) : (d.minMax big a b).1 < 2 ^ d.w := by
  unfold FDesc.minMax
  dsimp only
  split
  · exact lt_of_mag hd hd.nan
  split
  · exact hb
  split
  · exact ha
  · exact ite_below hb ha

/-! ## The tree of `FRED` (R96, R210) -/

theorem absent_lt (op : RedOp) : absent d op < 2 ^ d.w := by
  have := pow_width_eq hd
  have := hd.inf
  cases op <;> simp only [absent] <;> omega

theorem redNode_lt (op : RedOp) (r : Rnd) {a b : Nat × BitVec 5} (ha : a.1 < 2 ^ d.w) (hb : b.1 < 2 ^ d.w) :
    (redNode op d r a b).1 < 2 ^ d.w := by
  cases op with
  | add => exact deliver_lt hd ..
  | min => exact minMax_lt hd false ha hb
  | max => exact minMax_lt hd true ha hb

end

/-- A property that the leaves have and a node keeps holds of the whole tree. -/
theorem overTree_of_leaf {α : Type} {P : α → Prop} {node : α → α → α} {leaf : Nat → α} (hn : ∀ a b, P a → P b → P (node a b))
    (hl : ∀ i, P (leaf i)) (h lo : Nat) : P (overTree node leaf h lo) := by
  induction h generalizing lo with
  | zero => exact hl lo
  | succ h ih => exact hn _ _ (ih lo) (ih _)

/-- Neighbours of a list in order are combined in order. -/
theorem pairUp_range {α : Type} (f : α → α → α) (g : Nat → α) (n : Nat) :
    pairUp f ((List.range (2 * n)).map g) = (List.range n).map fun i => f (g (2 * i)) (g (2 * i + 1)) := by
  induction n generalizing g with
  | zero => rfl
  | succ n ih =>
    rw [Nat.mul_succ, List.range_succ_eq_map, List.range_succ_eq_map, List.range_succ_eq_map]
    simp only [List.map_cons, List.map_map, pairUp]
    exact congrArg _ (ih (g ∘ Nat.succ ∘ Nat.succ))

/-- One level of the tree over 2n subtrees of one height. -/
theorem pairUp_overTree {α : Type} (node : α → α → α) (leaf : Nat → α) (h n : Nat) :
    pairUp node ((List.range (2 * n)).map fun i => overTree node leaf h (2 ^ h * i)) =
      (List.range n).map fun i => overTree node leaf (h + 1) (2 ^ (h + 1) * i) := by
  rw [pairUp_range]
  refine List.map_congr_left fun i _ => ?_
  have hl : 2 ^ h * (2 * i) = 2 ^ (h + 1) * i := by ring
  have hr : 2 ^ h * (2 * i + 1) = 2 ^ (h + 1) * i + 2 ^ h := by ring
  rw [hl, hr]
  rfl

theorem unit_eq_absent (k : FDesc) (op : RedOp) : op.unit k = absent k op := by
  cases op <;> simp [RedOp.unit, absent, FDesc.signed]

/-- The model's five levels are the tree over the 32 lanes. -/
theorem tree_eq_overTree (op : RedOp) (k : FDesc) (r : Rnd) (leaf : Nat → Nat) :
    op.tree k r ((List.range 32).map leaf) = overTree (redNode op k r) (fun i => (leaf i, 0)) 5 0 := by
  have hnode : op.node k r = redNode op k r := rfl
  have hleaves : ((List.range 32).map leaf).map (fun c => (c, 0#5)) =
      (List.range (2 * 16)).map fun i => overTree (redNode op k r) (fun i => (leaf i, 0)) 0 (2 ^ 0 * i) := by
    simp [overTree]
  unfold RedOp.tree
  dsimp only
  rw [hnode, hleaves, pairUp_overTree, show 16 = 2 * 8 from rfl, pairUp_overTree, show 8 = 2 * 4 from rfl, pairUp_overTree,
    show 4 = 2 * 2 from rfl, pairUp_overTree, show 2 = 2 * 1 from rfl, pairUp_overTree]
  rfl

/-- Element j of what `FRED` writes in every participant. -/
def redElem (s : State) (op : RedOp) (f : FFmt) (r : Rnd) (a : VReg) (p : List Nat) (j : Nat) : Nat × BitVec 5 :=
  overTree (redNode op (fm f) r) (fun i => (if i ∈ p then code s f i a j else absent (fm f) op, 0)) 5 0

theorem redElem_lt (s : State) (op : RedOp) (f : FFmt) (r : Rnd) (a : VReg) (p : List Nat) (j : Nat) :
    (redElem s op f r a p j).1 < 2 ^ (fm f).w := by
  refine overTree_of_leaf (P := fun x : Nat × BitVec 5 => x.1 < 2 ^ (fm f).w) (fun _ _ => redNode_lt (fm_fits f) op r) (fun i => ?_) 5 0
  exact ite_below (elemAt_lt _ _ _) (absent_lt (fm_fits f) op)

/-- `FRED` on sources of its format (R210). -/
theorem fred_picks {s : State} {c : Ctl} {op : RedOp} {f : FFmt} {r : Rnd} {d a : VReg} {p : List Nat}
    (h : s.Acts c (.fixC 10 [.v a]) p) (ht : Tagged s f p [a]) :
    Picks s (.fred c op f r d a) c p 10 f d (fun _ => redElem s op f r a p) := by
  have hgood : ∀ i ∈ p, badTag f [s.v (tid s.curG i) a] = none := fun i hi => badTag_none (ht i hi a List.mem_cons_self)
  have hfilter : p.filter (fun i => (badTag f [s.v (tid s.curG i) a]).isNone) = p :=
    List.filter_eq_self.2 fun i hi => by rw [hgood i hi]; rfl
  have hcodes : (List.range (count f)).map (fun j => op.tree (fm f) r ((List.range 32).map fun i =>
      if p.contains i then (vElems (fm f).w (s.v (tid s.curG i) a).bits).getD j 0 else op.unit (fm f))) =
      (List.range (count f)).map (redElem s op f r a p) := by
    refine List.map_congr_left fun j hj => ?_
    rw [tree_eq_overTree]
    simp only [List.contains_iff_mem, unit_eq_absent, vElems_getD (fm_width_pos f) _ (List.mem_range.1 hj)]
    rfl
  refine vecWrites_of_codes (fm_width_dvd f).le (fun _ _ j _ => redElem_lt s op f r a p j) ?_
  refine State.writes_of_word _ exec_fred h rfl rfl ?_
  dsimp only
  rw [hfilter]
  refine congrArg (Acted.of s) (List.map_congr_left fun i hi => ?_)
  rw [hgood i hi, mkTag_code]
  dsimp only
  rw [← joinedWrites_map, ← hcodes]
  rfl

/-! ## `SCALE` (R217) -/

/-- A magnitude in units of 2^q, for q up to its exponent. -/
theorem fixed_eq (n : Nat) {e q : Int} (h : q ≤ e) : (fixed false n e q : ℚ) = n * 2 ^ (e - q) := by
  have hpow : (2 : ℚ) ^ (e - q) = ((2 ^ (e - q).toNat : Nat) : ℚ) := by
    rw [Nat.cast_pow, ← zpow_natCast, Int.toNat_of_nonneg (by omega)]; rfl
  rw [hpow]
  simp [fixed]

/-- One magnitude is not above another as the values compare (R207). -/
theorem cmp_not_above_iff (a n : Nat) (q f : Int) :
    ((FVal.num false a q).cmp (.num false n f) != some 1) = true ↔ (a : ℚ) * 2 ^ q ≤ n * 2 ^ f := by
  have hscale : ∀ (k : Nat) (e : Int), (k : ℚ) * 2 ^ e = (k * 2 ^ (e - min q f)) * 2 ^ min q f := fun k e => by
    rw [mul_assoc, ← zpow_add₀ two_ne_zero, sub_add_cancel]
  have hpos : (0 : ℚ) < 2 ^ min q f := by positivity
  rw [hscale a q, hscale n f, mul_le_mul_iff_left₀ hpos, ← fixed_eq a (min_le_left q f), ← fixed_eq n (min_le_right q f), Int.cast_le,
    ← sub_nonpos]
  unfold FVal.cmp
  dsimp only
  generalize fixed false a q (min q f) - fixed false n f (min q f) = z
  rcases lt_trichotomy z 0 with hz | rfl | hz
  · simp [hz, hz.le]
  · simp
  · simp [hz.ne', not_lt.2 hz.le, hz]

/-- The magnitude of a value in units of 2^−200. -/
def fixedMag : FVal → Nat
  | .num _ n e => (fixed false n e (-200)).toNat
  | _ => 0

theorem magOf_eq {x : FVal} (h : ∀ b n e, x = .num b n e → -200 ≤ e) : magOf x = fixedMag x * 2 ^ (-200 : Int) := by
  cases x with
  | nan _ => simp [magOf, fixedMag]
  | inf _ => simp [magOf, fixedMag]
  | num b n e =>
    have hnonneg : 0 ≤ fixed false n e (-200) := by simp only [fixed, Bool.false_eq_true, if_false]; positivity
    have hcast : ((fixedMag (.num b n e) : Nat) : ℚ) = (fixed false n e (-200) : ℚ) := by
      exact_mod_cast Int.toNat_of_nonneg hnonneg
    rw [hcast, fixed_eq n (h b n e rfl), mul_assoc, ← zpow_add₀ two_ne_zero, sub_add_cancel]
    rfl

/-- The greatest magnitude of some values in units of 2^−200. -/
def maxMag (xs : List FVal) : Nat := xs.foldl (fun m x => max m (fixedMag x)) 0

theorem maxMag_spec (xs : List FVal) : maxMag xs ∈ 0 :: xs.map fixedMag ∧ ∀ k ∈ 0 :: xs.map fixedMag, k ≤ maxMag xs := by
  rw [← List.max?_eq_some_iff, List.max?_cons', List.foldl_map]
  rfl

theorem fixedMag_le_maxMag {xs : List FVal} {x : FVal} (hx : x ∈ xs) : fixedMag x ≤ maxMag xs :=
  (maxMag_spec xs).2 _ (List.mem_cons_of_mem _ (List.mem_map_of_mem hx))

theorem exists_fixedMag_eq_maxMag {xs : List FVal} (h : maxMag xs ≠ 0) : ∃ x ∈ xs, fixedMag x = maxMag xs := by
  rcases List.mem_cons.1 (maxMag_spec xs).1 with h0 | hmem
  · exact absurd h0 h
  · exact List.mem_map.1 hmem

/-- The exponent t of the smallest n × 2^(e + t) that bounds a × 2^−200, as the model finds it. -/
def scaleExp (a n : Nat) (e : Int) : Int :=
  let t : Int := Nat.log2 a + (-200) - (Nat.log2 n + e)
  if (FVal.num false a (-200)).cmp (.num false n (e + t)) != some 1 then t else t + 1

theorem scaleExp_bounds {a n : Nat} (ha : a ≠ 0) (hn : n ≠ 0) (e : Int) :
    (a : ℚ) * 2 ^ (-200 : Int) ≤ n * 2 ^ (e + scaleExp a n e) ∧ n * (2 : ℚ) ^ (e + (scaleExp a n e - 1)) < a * 2 ^ (-200 : Int) := by
  unfold scaleExp
  set t : Int := Nat.log2 a + (-200) - (Nat.log2 n + e) with ht
  dsimp only
  obtain ⟨halo, hahi⟩ := binade_log2 ha (-200)
  split
  · next h =>
    refine ⟨(cmp_not_above_iff a n _ _).1 h, (binade_log2 hn _).2.trans_le (le_trans (le_of_eq ?_) halo)⟩
    congr 1
    omega
  · next h =>
    have hgt := not_le.1 (mt (cmp_not_above_iff a n _ _).2 h)
    refine ⟨hahi.le.trans (le_trans (le_of_eq ?_) (binade_log2 hn _).1), by rwa [add_sub_cancel_right]⟩
    congr 1
    omega

/-- The byte and the flags for an exponent t (R217). -/
def scaleByteOf (t : Int) : Nat × BitVec 5 := if 127 + t > 254 then (254, flagSA) else ((127 + t).toNat, 0)

theorem scaleOf_special (target : FDesc) {xs : List FVal} (h : ∃ x ∈ xs, ∀ b m e, x ≠ .num b m e) : scaleOf target xs = (255, flagNV) := by
  unfold scaleOf
  refine if_pos (List.any_eq_true.2 ?_)
  obtain ⟨x, hx, hnum⟩ := h
  refine ⟨x, hx, ?_⟩
  cases x with
  | nan _ => rfl
  | inf _ => rfl
  | num b m e => exact absurd rfl (hnum b m e)

theorem scaleOf_finite {target : FDesc} {b : Bool} {n : Nat} {e : Int} (htop : target.dec target.top = .num b n e) {xs : List FVal}
    (h : ∀ x ∈ xs, ∃ b m e, x = .num b m e) :
    scaleOf target xs = if maxMag xs = 0 then (127, 0) else scaleByteOf (scaleExp (maxMag xs) n e) := by
  unfold scaleOf
  rw [if_neg, htop]
  · rfl
  · rw [List.any_eq_true]
    rintro ⟨x, hx, hspecial⟩
    obtain ⟨b, m, e, rfl⟩ := h x hx
    cases hspecial

/-- The scale of some values that are multiples of 2^−200 (R217). -/
theorem scaleOf_isScale {target : FDesc} {b : Bool} {m : Nat} {e : Int} (htop : target.dec target.top = .num b m e) (hm : m ≠ 0) {n : Nat}
    {x : Nat → FVal} (hx : ∀ j b k f, x j = .num b k f → -200 ≤ f) : IsScale target n x (scaleOf target ((List.range n).map x)) := by
  have hmag : ∀ j, magOf (x j) = fixedMag (x j) * 2 ^ (-200 : Int) := fun j => magOf_eq (hx j)
  have hpos : (0 : ℚ) < 2 ^ (-200 : Int) := by positivity
  have hle : ∀ j < n, fixedMag (x j) ≤ maxMag ((List.range n).map x) :=
    fun j hj => fixedMag_le_maxMag (List.mem_map_of_mem (List.mem_range.2 hj))
  have hmax : maxMag ((List.range n).map x) ≠ 0 → ∃ j < n, fixedMag (x j) = maxMag ((List.range n).map x) := fun h => by
    obtain ⟨y, hy, hfix⟩ := exists_fixedMag_eq_maxMag h
    obtain ⟨j, hj, rfl⟩ := List.mem_map.1 hy
    exact ⟨j, List.mem_range.1 hj, hfix⟩
  refine ⟨fun ⟨j, hj, hnum⟩ => ?_, fun hfin => ?_⟩
  · exact scaleOf_special target ⟨x j, List.mem_map_of_mem (List.mem_range.2 hj), hnum⟩
  rw [scaleOf_finite htop (by simpa using hfin)]
  generalize maxMag ((List.range n).map x) = a at hle hmax
  refine ⟨fun hzero => if_pos ?_, fun ⟨j, hj, hne⟩ => ?_⟩
  · by_contra hne
    obtain ⟨j, hj, hfix⟩ := hmax hne
    have hmax0 := hzero j hj
    rw [hmag, hfix] at hmax0
    exact (mul_pos (Nat.cast_pos.2 (Nat.pos_of_ne_zero hne)) hpos).ne' hmax0
  · have ha : a ≠ 0 := by
      rintro rfl
      rw [hmag, Nat.le_zero.1 (hle j hj)] at hne
      simp at hne
    obtain ⟨hbound, htight⟩ := scaleExp_bounds ha hm e
    have htopt : ∀ t : Int, magOf (target.dec target.top) * 2 ^ t = m * 2 ^ (e + t) := fun t => by
      rw [htop, zpow_add₀ two_ne_zero, ← mul_assoc]
      rfl
    refine ⟨scaleExp a m e, fun i hi => ?_, ?_, if_neg ha⟩
    · rw [htopt, hmag]
      refine le_trans (mul_le_mul_of_nonneg_right ?_ hpos.le) hbound
      exact_mod_cast hle i hi
    · obtain ⟨i, hi, hfix⟩ := hmax ha
      exact ⟨i, hi, by rw [htopt, hmag, hfix]; exact htight⟩

theorem isScale_lt {target : FDesc} {n : Nat} {x : Nat → FVal} {y : Nat × BitVec 5} (h : IsScale target n x y) : y.1 < 2 ^ 32 := by
  obtain ⟨hspecial, hfinite⟩ := h
  by_cases hnum : ∀ j < n, ∃ b m e, x j = .num b m e
  · obtain ⟨hzero, hscale⟩ := hfinite hnum
    by_cases hne : ∃ j < n, magOf (x j) ≠ 0
    · obtain ⟨t, _, _, rfl⟩ := hscale hne
      split
      · decide
      · dsimp only
        omega
    · push Not at hne
      rw [hzero hne]
      decide
  · push Not at hnum
    rw [hspecial hnum]
    decide

/-- The exponent of a value is at least that of the smallest subnormal (R77). -/
theorem dec_exp_ge {d : FDesc} {c : Nat} {b : Bool} {n : Nat} {e : Int} (h : d.dec c = .num b n e) : 1 - (d.bias : Int) - d.m ≤ e := by
  rcases dec_cases d c with ⟨_, hdec⟩ | ⟨b, hdec⟩ | ⟨_, _, hdec⟩ | ⟨E, M, _, _, _, hdec⟩ <;> rw [h] at hdec <;> cases hdec
  · exact le_rfl
  · push_cast
    omega

/-- The elements of a register that carries a format's tag, as the model takes them from the tag. -/
theorem elements_of_tag {s : State} {h : FFmt} {l : Nat} {a : VReg} (hw : fmtWidth h.code.toNat = (fm h).w)
    (ht : (s.v (tid s.curG l) a).tag = ftag h) :
    (vElems (fmtWidth (tagFmt (s.v (tid s.curG l) a).tag)) (s.v (tid s.curG l) a).bits).map
      (fdesc (tagFmt (s.v (tid s.curG l) a).tag)).dec = (List.range (count h)).map (num s h l a) := by
  rw [ht, tagFmt_ftag, hw, vElems_eq (fm_width_pos h), List.map_map]
  rfl

/-- The largest finite value of a target of `SCALE`. -/
theorem dec_top {f : FFmt} (hf : f = .e4m3 ∨ f = .e5m2 ∨ f = .e2m1) : ∃ m e, m ≠ 0 ∧ (fm f).dec (fm f).top = .num false m e := by
  rcases hf with rfl | rfl | rfl
  · exact ⟨14, 5, by decide, by decide⟩
  · exact ⟨7, 13, by decide, by decide⟩
  · exact ⟨3, 1, by decide, by decide⟩

/-- Flags that the first of four elements raises alone. -/
theorem flagsOf_first (x : Nat) (fl : BitVec 5) : flagsOf 4 (fun j => (x, if j = 0 then fl else 0)) = fl := by
  simp [flagsOf, List.range_succ]

/-- `SCALE` on sources of FP32, BF16 or FP16 (R217). -/
theorem scale_writes {s : State} {c : Ctl} {f h : FFmt} {d a : VReg} {p : List Nat} (hh : h = .f32 ∨ h = .bf16 ∨ h = .f16)
    (hf : f = .e4m3 ∨ f = .e5m2 ∨ f = .e2m1) (hacts : s.Acts c (.fixC 6 [.v a]) p) (ht : Tagged s h p [a]) :
    ∃ y : Nat → Nat × BitVec 5, (∀ l ∈ p, IsScale (fm f) (count h) (num s h l a) (y l)) ∧
      VecWrites s (.scale c f d a) c p 6 d (fun _ => 0x90#8) 32 4 (fun l j => ((y l).1, if j = 0 then (y l).2 else 0)) (fun _ => []) := by
  have hwidth : fmtWidth h.code.toNat = (fm h).w := by rcases hh with rfl | rfl | rfl <;> decide
  have hcode : ¬ 3 < h.code.toNat := by rcases hh with rfl | rfl | rfl <;> decide
  have hexp : -200 ≤ 1 - ((fm h).bias : Int) - (fm h).m := by rcases hh with rfl | rfl | rfl <;> decide
  obtain ⟨m, e, hm, htop⟩ := dec_top hf
  have hscale : ∀ l, IsScale (fm f) (count h) (num s h l a) (scaleOf (fm f) ((List.range (count h)).map (num s h l a))) :=
    fun l => scaleOf_isScale htop hm fun j b k e he => hexp.trans (dec_exp_ge he)
  have hlt := fun l => isScale_lt (hscale l)
  refine ⟨_, fun l _ => hscale l, vecWrites_of_codes (by decide) (fun l _ j _ => hlt l) ?_⟩
  refine State.writes_of_perLane _ exec_scale hacts rfl rfl fun l hl => ?_
  have htag : (s.v (tid s.curG l) a).tag = ftag h := ht l hl a List.mem_cons_self
  have hok : (!tagVOk (ftag h) || decide (3 < h.code.toNat)) = false := by rw [tagVOk_ftag]; simpa using hcode
  dsimp only
  rw [elements_of_tag hwidth htag, htag, tagFmt_ftag, hok, flagsOf_first]
  rfl

/-! ## `CBENC` (R222) -/

/-- The entry that a fold keeps is one of the entries. -/
theorem foldl_keeps_mem {α : Type} (better : α → α → Bool) (l : List α) (e : α) :
    l.foldl (fun b x => if better b x then x else b) e ∈ e :: l := by
  induction l generalizing e with
  | nil => exact List.mem_cons_self
  | cons x l ih =>
    rw [List.foldl_cons]
    rcases List.mem_cons.1 (ih (if better e x then x else e)) with h | h
    · rw [h]
      split
      · exact List.mem_cons_of_mem _ List.mem_cons_self
      · exact List.mem_cons_self
    · exact List.mem_cons_of_mem _ (List.mem_cons_of_mem _ h)

/-- A code of a codebook has four bits. -/
theorem cbEncode_lt (s : State) (cb : W256) (a : FVal) : (cbEncode s cb a).1 < 2 ^ 4 := by
  unfold cbEncode
  dsimp only
  have hentries : ∀ e ∈ (List.range 16).map fun k => (k, (fdesc 2).dec (cbEntry cb k)), e.1 < 16 := by simp
  generalize (List.range 16).map (fun k => (k, (fdesc 2).dec (cbEntry cb k))) = es at hentries
  split
  · split
    · next e h => exact hentries e (List.mem_of_find?_eq_some h)
    · decide
  · split
    · exact Nat.mod_lt _ (by decide)
    · next e l h =>
      refine hentries _ (List.mem_of_mem_filter (p := fun e => !e.2.isNan) ?_)
      rw [h]
      exact foldl_keeps_mem (fun b x => distLt (cbDist a x.2) (cbDist a b.2)) l e

/-- A list of n elements of which only the first m are not `z`. -/
theorem map_range_padded {α : Type} (out : Nat → α) (z : α) {m n : Nat} (h : m ≤ n) :
    (List.range n).map (fun j => if j < m then out j else z) = (List.range m).map out ++ List.replicate (n - m) z := by
  obtain ⟨k, rfl⟩ := Nat.exists_eq_add_of_le h
  rw [List.range_add, List.map_append, List.map_map]
  congr 1
  · exact List.map_congr_left fun j hj => if_pos (List.mem_range.1 hj)
  · rw [Nat.add_sub_cancel_left, List.eq_replicate_iff]
    simp

theorem packed_zeros (w k : Nat) : packed w (List.replicate k 0) = 0 := by
  induction k with
  | zero => rfl
  | succ k ih =>
    have hcons : packed w (List.replicate (k + 1) 0) = 0 % 2 ^ w + 2 ^ w * packed w (List.replicate k 0) := rfl
    rw [hcons, ih, Nat.zero_mod, Nat.mul_zero]

theorem packed_append_zeros (w : Nat) (l : List Nat) (k : Nat) : packed w (l ++ List.replicate k 0) = packed w l := by
  unfold packed
  rw [List.foldr_append]
  exact congrArg (fun z => l.foldr _ z) (packed_zeros w k)

theorem flags_of_zeros (fl : BitVec 5) (k : Nat) : (List.replicate k ((0, 0) : Nat × BitVec 5)).foldl (fun z e => z ||| e.2) fl = fl := by
  induction k with
  | zero => rfl
  | succ k ih => simpa [List.replicate_succ] using ih

/-- Elements of code 0 without flags above the others change nothing of what is written. -/
theorem joinedWrites_padded (d : VReg) (tag : Byte) (w : Nat) (l : List (Nat × BitVec 5)) (k : Nat) :
    joinedWrites d tag w (l ++ List.replicate k (0, 0)) = joinedWrites d tag w l := by
  have hjoin : vJoin w ((l ++ List.replicate k ((0, 0) : Nat × BitVec 5)).map (·.1)) = vJoin w (l.map (·.1)) := by
    rw [List.map_append, List.map_replicate]
    exact congrArg (BitVec.ofNat 128) (packed_append_zeros w _ k)
  unfold joinedWrites vWrites
  dsimp only
  rw [hjoin, List.foldl_append, flags_of_zeros]

theorem mkTag_codebook (cb : CReg) : mkTag 10 0 cb.toNat = 0xA#4 ++ 0#2 ++ cb := by
  revert cb
  decide

/-- `CBENC` on sources of FP32 or BF16 (R222). -/
theorem cbenc_writes {s : State} {c : Ctl} {h : FFmt} {d a : VReg} {cb : CReg} {p : List Nat} (hh : h = .f32 ∨ h = .bf16)
    (hacts : s.Acts c (.fixC 8 [.v a]) p) (ht : Tagged s h p [a]) :
    VecWrites s (.cbenc c d a cb) c p 8 d (fun _ => 0xA#4 ++ 0#2 ++ cb) 4 32
      (fun l j => if j < count h then cbEncode s (s.codebook (tid s.curG l) cb) (num s h l a j) else (0, 0)) (fun _ => []) := by
  have hwidth : fmtWidth h.code.toNat = (fm h).w := by rcases hh with rfl | rfl <;> decide
  have hcount : count h ≤ 32 := by rcases hh with rfl | rfl <;> decide
  have hok : (ftag h != mkTag 1 0 0 && ftag h != mkTag 2 0 0) = false := by rcases hh with rfl | rfl <;> decide
  refine vecWrites_of_codes (by decide) (fun l _ j _ => ?_) ?_
  · split
    · exact cbEncode_lt ..
    · decide
  refine State.writes_of_perLane _ exec_cbenc hacts rfl rfl fun l hl => ?_
  have htag : (s.v (tid s.curG l) a).tag = ftag h := ht l hl a List.mem_cons_self
  have hout := congrArg (List.map (cbEncode s (s.codebook (tid s.curG l) cb))) (elements_of_tag hwidth htag)
  rw [List.map_map, List.map_map] at hout
  rw [← joinedWrites_map, map_range_padded _ _ hcount, joinedWrites_padded, ← mkTag_codebook]
  dsimp only
  rw [htag, hok, ← htag]
  exact congrArg (LaneRes.next ∘ joinedWrites d (mkTag 10 0 cb.toNat) 4) hout

/-- Settles O17: `fred_picks`, `scale_writes` and `cbenc_writes`. -/
theorem reductionAndScale : Obligations.ReductionAndScale := by
  unfold Obligations.ReductionAndScale
  exact fun s c op f r d a cb p => ⟨fred_picks, fun h hh hf => scale_writes hh hf, fun h hh => cbenc_writes hh⟩

end Sys2Proof.Slice0
end

section
namespace Sys2Proof.Slice0
open Machine

/-! # Decoding and encoding agree (O56, O57)

A lemma `…_eq` per reader says that it answers a value just where the field is that value's specifier or code. So a word that decodes has the
fields of its instruction (`encodeRaw_of_decodeClass`), and the fields of a well-formed instruction are read back (`decodeClass_encodeRaw`). -/

/-- Settles O56: the decoder computes each of the words. -/
theorem decodedWords : Obligations.DecodedWords := by
  unfold Obligations.DecodedWords
  refine ⟨rfl, rfl, rfl, rfl, rfl, rfl, rfl, rfl, rfl, rfl, rfl, rfl, rfl, rfl, rfl, rfl, rfl, rfl, rfl, rfl, rfl⟩

/-! ## Bit fields -/

theorem append_eq_iff {m n : Nat} {z : BitVec (m + n)} {x : BitVec m} {y : BitVec n} :
    x ++ y = z ↔ x = z.extractLsb' n m ∧ y = z.extractLsb' 0 n := by
  constructor
  · rintro rfl
    exact ⟨BitVec.extractLsb'_append_eq_left.symm, BitVec.extractLsb'_append_eq_right.symm⟩
  · rintro ⟨rfl, rfl⟩
    exact BitVec.extractLsb'_append_extractLsb'

theorem extractLsb'_extractLsb' {n k l s t : Nat} {x : BitVec n} (h : s + k ≤ l) :
    (x.extractLsb' t l).extractLsb' s k = x.extractLsb' (t + s) k := by
  ext i hi
  simp [Nat.add_assoc, show s + i < l by omega]

theorem ofBool_eq_extractLsb' {n : Nat} {b : Bool} {w : BitVec n} {k : Nat} : BitVec.ofBool b = w.extractLsb' k 1 ↔ b = w.getLsbD k := by
  rw [BitVec.getLsbD_eq_extractLsb']
  generalize w.extractLsb' k 1 = x
  revert b x
  decide

theorem zero_eq_extractLsb' {n : Nat} {w : BitVec n} {k : Nat} : 0#1 = w.extractLsb' k 1 ↔ w.getLsbD k = false :=
  (ofBool_eq_extractLsb' (b := false)).trans eq_comm

theorem one_eq_extractLsb' {n : Nat} {w : BitVec n} {k : Nat} : 1#1 = w.extractLsb' k 1 ↔ w.getLsbD k = true :=
  (ofBool_eq_extractLsb' (b := true)).trans eq_comm

theorem two_bits_eq_extractLsb' {n : Nat} {b a : Bool} {w : BitVec n} {k : Nat} :
    BitVec.ofBool b ++ BitVec.ofBool a = w.extractLsb' k 2 ↔ b = w.getLsbD (k + 1) ∧ a = w.getLsbD k := by
  rw [append_eq_iff, extractLsb'_extractLsb' (by decide), extractLsb'_extractLsb' (by decide), ofBool_eq_extractLsb', ofBool_eq_extractLsb']
  rfl

/-- The fields of an instruction word (R150). -/
theorem toWord_eq_iff {r : Raw} {w : W64} : r.toWord = w ↔ r = Raw.ofWord w r.lits := by
  obtain ⟨opc, gneg, gpred, stall, den, dctr, dst, sa, sb, low, lits⟩ := r
  unfold Raw.toWord Raw.ofWord
  refine append_eq_iff.trans ?_
  simp only [append_eq_iff, ofBool_eq_extractLsb']
  simp [extractLsb'_extractLsb', and_assoc]

/-! ## Specifiers (R151–R153) -/

@[simp] theorem spNone_eq {s : BitVec 9} {u : Unit} : spNone s = some u ↔ s = 0#9 := by
  simp [spNone]

@[simp] theorem spG_eq {s : BitVec 9} {r : GReg} : spG s = some r ↔ s = mkG r := by
  rw [eq_comm (a := s), mkG, append_eq_iff, spG, Option.ite_none_right_eq_some]
  simp [spFile, spIdx, @eq_comm _ r, @eq_comm _ 1#3]
@[simp] theorem spV_eq {s : BitVec 9} {r : VReg} : spV s = some r ↔ s = mkV r := by
  rw [eq_comm (a := s), mkV, append_eq_iff, append_eq_iff, zero_eq_extractLsb', spV, Option.ite_none_right_eq_some, Bool.and_eq_true,
    decide_eq_true_eq]
  simp [spFile, spIdx, and_assoc, @eq_comm _ r, @eq_comm _ 2#3]
@[simp] theorem spM_eq {s : BitVec 9} {r : MReg} : spM s = some r ↔ s = mkM r := by
  rw [eq_comm (a := s), mkM, append_eq_iff, append_eq_iff, spM, Option.ite_none_right_eq_some, Bool.and_eq_true, decide_eq_true_eq]
  simp [spFile, spIdx, and_assoc, @eq_comm _ r, @eq_comm _ 3#3, @eq_comm _ 0#3]
@[simp] theorem spP_eq {s : BitVec 9} {r : PReg} : spP s = some r ↔ s = mkP r := by
  rw [eq_comm (a := s), mkP, append_eq_iff, append_eq_iff, spP, Option.ite_none_right_eq_some, Bool.and_eq_true, decide_eq_true_eq]
  simp [spFile, spIdx, and_assoc, @eq_comm _ r, @eq_comm _ 4#3, @eq_comm _ 0#3]
@[simp] theorem spB_eq {s : BitVec 9} {r : BReg} : spB s = some r ↔ s = mkB r := by
  rw [eq_comm (a := s), mkB, append_eq_iff, append_eq_iff, spB, Option.ite_none_right_eq_some, Bool.and_eq_true, decide_eq_true_eq]
  simp [spFile, spIdx, and_assoc, @eq_comm _ r, @eq_comm _ 5#3, @eq_comm _ 0#2]
@[simp] theorem spS_eq {s : BitVec 9} {r : SReg} : spS s = some r ↔ s = mkS r := by
  rw [eq_comm (a := s), mkS, append_eq_iff, spS, Option.ite_none_right_eq_some]
  simp [spFile, spIdx, @eq_comm _ r, @eq_comm _ 6#3]
@[simp] theorem spCb_eq {s : BitVec 9} {r : CReg} : spCb s = some r ↔ s = mkCb r := by
  rw [eq_comm (a := s), mkCb, append_eq_iff, append_eq_iff, spCb, Option.ite_none_right_eq_some, Bool.and_eq_true, decide_eq_true_eq]
  simp [spFile, spIdx, and_assoc, @eq_comm _ r, @eq_comm _ 6#3, @eq_comm _ 8#4]

@[simp] theorem spBar_eq {s : BitVec 9} {n : Bar} : spBar s = some n ↔ s = mkBar n := by
  rw [eq_comm (a := s), spBar, Option.ite_none_right_eq_some, Bool.and_eq_true, decide_eq_true_eq]
  cases n with
  | nb i =>
    rw [mkBar, append_eq_iff, append_eq_iff, show 0#2 = BitVec.ofBool false ++ BitVec.ofBool false from rfl, two_bits_eq_extractLsb']
    cases h : s[4] <;> simp [spFile, spIdx, h, and_assoc, @eq_comm _ i, @eq_comm _ 6#3]
  | kb i =>
    rw [mkBar, append_eq_iff, append_eq_iff, show 1#2 = BitVec.ofBool false ++ BitVec.ofBool true from rfl, two_bits_eq_extractLsb']
    cases h : s[4] <;> simp [spFile, spIdx, h, and_assoc, @eq_comm _ i, @eq_comm _ 6#3]

/-- A source reads whole where it is no constant 63: index 63 of file 7 names a literal (R151, R157). -/
theorem whole_iff {a : Src} : a.whole = true ↔ a ≠ .k 63#6 := by
  cases a <;> simp [Src.whole, Src.fits, litFits]

/-- A source that is no general register: what file 7 names (R151). -/
def Constant (a : Src) : Prop := a.whole = true ∧ ∀ r, a ≠ .g r

theorem spec_eq_iff {s : BitVec 9} {f : BitVec 3} {x : BitVec 6} : s = f ++ x ↔ spFile s = f ∧ spIdx s = x := by
  rw [eq_comm (a := s), append_eq_iff, @eq_comm _ f, @eq_comm _ x, spFile, spIdx]

@[simp] theorem spFile_append (f : BitVec 3) (x : BitVec 6) : spFile (f ++ x) = f := (spec_eq_iff.1 rfl).1
@[simp] theorem spFile_mkG (r : GReg) : spFile (mkG r) = 1#3 := spFile_append ..
@[simp] theorem spFile_mkV (r : VReg) : spFile (mkV r) = 2#3 := spFile_append ..
@[simp] theorem spFile_mkB (r : BReg) : spFile (mkB r) = 5#3 := spFile_append ..
@[simp] theorem spFile_mkBar (n : Bar) : spFile (mkBar n) = 6#3 := by cases n <;> exact spFile_append ..

theorem spFile_mkSrc {a : Src} (h : Constant a) : spFile (mkSrc a) = 7#3 := by
  cases a with
  | g r => exact absurd rfl (h.2 r)
  | k n => exact spFile_append ..
  | lit x => exact spFile_append ..

/-- A specifier of a file other than 0 is not the absent operand (R151). -/
theorem ne_zero_of_spFile {s : BitVec 9} (h : spFile s ≠ 0#3) : s ≠ 0#9 := by
  rintro rfl
  exact h rfl

theorem mkG_ne_zero (r : GReg) : mkG r ≠ 0#9 := ne_zero_of_spFile (by simp)
theorem mkBar_ne_zero (n : Bar) : mkBar n ≠ 0#9 := ne_zero_of_spFile (by simp)
theorem mkSrc_ne_zero {a : Src} (h : Constant a) : mkSrc a ≠ 0#9 := ne_zero_of_spFile (by simp [spFile_mkSrc h])

theorem spG_none_of_spFile {s : BitVec 9} (h : spFile s ≠ 1#3) : spG s = none := by simp [spG, h]

@[simp] theorem spK_eq {s : BitVec 9} {ls ls' : List W64} {a : Src} :
    spK s ls = some (a, ls') ↔ s = mkSrc a ∧ ls = a.lits ++ ls' ∧ Constant a := by
  unfold spK
  rw [Option.ite_none_right_eq_some]
  cases a with
  | g r => split <;> [split; skip] <;> simp [Constant]
  | k n =>
    rw [mkSrc, spec_eq_iff]
    split <;> [split; skip] <;> simp [Constant, whole_iff, Src.lits] <;> grind
  | lit x =>
    rw [mkSrc, spec_eq_iff]
    split <;> [split; skip] <;> simp [Constant, whole_iff, Src.lits] <;> grind

@[simp] theorem spGK_eq {s : BitVec 9} {ls ls' : List W64} {a : Src} :
    spGK s ls = some (a, ls') ↔ s = mkSrc a ∧ ls = a.lits ++ ls' ∧ a.whole = true := by
  unfold spGK
  by_cases hg : ∃ r, a = .g r
  · obtain ⟨r, rfl⟩ := hg
    cases h : spG s <;> simp [spK_eq, Constant, whole_iff, mkSrc, Src.lits, ← spG_eq, h, @eq_comm _ ls ls']
  · have hc : Constant a ↔ a.whole = true := and_iff_left fun r h => hg ⟨r, h⟩
    cases h : spG s with
    | none => simp [spK_eq, hc]
    | some r =>
      have hs : a.whole = true → s ≠ mkSrc a := fun hn hs => by simp [hs, spG_none_of_spFile, spFile_mkSrc (hc.2 hn)] at h
      simp only [Option.some.injEq, Prod.mk.injEq]
      grind

@[simp] theorem spOptG_eq {s : BitVec 9} {d : Option GReg} : spOptG s = some d ↔ s = mkXY d := by
  unfold spOptG
  split
  next h => subst h; cases d <;> simp [mkXY, (mkG_ne_zero _).symm]
  next h => cases d <;> simp [mkXY, spG_eq, h]

@[simp] theorem spOptK_eq {s : BitVec 9} {ls ls' : List W64} {k : Option Src} :
    spOptK s ls = some (k, ls') ↔ s = mkOptK k ∧ ls = optKLits k ++ ls' ∧ ∀ a, k = some a → Constant a := by
  unfold spOptK
  split
  next h =>
    subst h
    cases k with
    | none => simp [mkOptK, optKLits]
    | some a => simpa [mkOptK] using fun h _ hc => (mkSrc_ne_zero hc) h.symm
  next h => cases k <;> simp [mkOptK, optKLits, spK_eq, h]

theorem zeroExtend_eq_iff {v : BitVec 16} {x : W64} : v.zeroExtend 64 = x ↔ x.extractLsb' 16 48 = 0#48 ∧ x.extractLsb' 0 16 = v := by
  have h : v.zeroExtend 64 = 0#48 ++ v := by
    apply BitVec.eq_of_toNat_eq
    exact (BitVec.toNat_setWidth_of_le (by decide)).trans (by simpa using (BitVec.toNat_append 0#48 v).symm)
  rw [h, append_eq_iff, @eq_comm _ v, @eq_comm _ 0#48]

/-- The base register of a scratchpad operand stands in a field of its own; any will do here. -/
@[simp] theorem spOff_eq {s : BitVec 9} {ls ls' : List W64} {o : Option (BitVec 16)} :
    spOff s ls = some (o, ls') ↔ s = SpOp.sb ⟨0, o⟩ ∧ ls = SpOp.lits ⟨0, o⟩ ++ ls' := by
  unfold spOff
  split
  next h =>
    subst h
    cases o <;> simp [SpOp.sb, SpOp.lits]
  next h =>
    cases o with
    | none => split <;> simp [SpOp.sb, h]
    | some v =>
      have hv : s = SpOp.sb ⟨0, some v⟩ ∧ ls = SpOp.lits ⟨0, some v⟩ ++ ls' ↔ spK s ls = some (.lit (v.zeroExtend 64), ls') := by
        rw [spK_eq]
        simp [Constant, whole_iff, SpOp.sb, SpOp.lits, mkSrc, Src.lits]
      rw [hv]
      split
      next x r hk => simp [hk, @eq_comm _ x, zeroExtend_eq_iff, and_assoc]
      next hk => simpa using hk _ _

@[simp] theorem spTagCb_eq {f : FFmt} {s : BitVec 9} {cb : CReg} :
    spTagCb f s = some cb ↔ s = mkTagCb f cb ∧ (f ≠ .cb4 → cb = 0#2) := by
  unfold spTagCb mkTagCb
  split
  next h => simp [spCb_eq, h]
  next h => simp [spNone, h, @eq_comm _ cb]

@[simp] theorem spDat_eq {s : BitVec 9} {d : Dat} : spDat s = some d ↔ s = mkDat d := by
  unfold spDat
  split
  next r h =>
    obtain rfl := spG_eq.1 h
    cases d with
    | g r' => rw [mkDat, ← spG_eq, h]; simp
    | v r' => rw [mkDat, ← spV_eq]; simp [spV]
  next h => cases d <;> simp [mkDat, ← spG_eq, ← spV_eq, h]

@[simp] theorem need_eq {b : Bool} {u : Unit} : need b = some u ↔ b = true := by
  simp [need]

@[simp] theorem noLits_eq {ls : List W64} {u : Unit} : noLits ls = some u ↔ ls = [] := by
  simp [noLits, need]

@[simp] theorem lowDat_eq {x : BitVec 7} {d : Dat} : lowDat x = some d ↔ x = d.low := by
  unfold lowDat
  rw [eq_comm (a := x)]
  cases d with
  | g r =>
    rw [Dat.low, append_eq_iff, zero_eq_extractLsb']
    cases h : x[6] <;> simp [h, @eq_comm _ r]
  | v r =>
    rw [Dat.low, append_eq_iff, append_eq_iff, one_eq_extractLsb', zero_eq_extractLsb']
    cases h : x[6] <;> simp [h, @eq_comm _ r]

@[simp] theorem lowG_eq {x : BitVec 7} {d : GReg} : lowG x = some d ↔ x = 0#1 ++ d := by
  rw [lowG, eq_comm (a := x), append_eq_iff, zero_eq_extractLsb']
  simp [@eq_comm _ d]

@[simp] theorem ctl_eq {r : Raw} {c : Ctl} : r.ctl = some c ↔
    r.gneg = c.gneg ∧ r.gpred = c.gpred ∧ r.stall = c.stall ∧ r.den = c.ctr.isSome ∧ r.dctr = c.ctr.getD 0 := by
  obtain ⟨gneg, gpred, stall, ctr⟩ := c
  unfold Raw.ctl
  cases ctr <;> cases h : r.den <;> simp [and_comm, and_assoc]

/-! ## Codes of the modifier fields (R156) -/

@[simp] theorem ityOfCode_eq {t : ITy} {b : BitVec 4} : ITy.ofCode b = some t ↔ b = t.code := by
  revert b; cases t <;> decide
@[simp] theorem ffmtOfCode_eq {f : FFmt} {b : BitVec 4} : FFmt.ofCode b = some f ↔ b = f.code := by
  revert b; cases f <;> decide
@[simp] theorem rndOfCode_eq {m : Rnd} {b : BitVec 3} : Rnd.ofCode b = some m ↔ b = m.code := by
  revert b; cases m <;> decide
@[simp] theorem cmpOfCode_eq {k : CmpOp} {b : BitVec 3} : CmpOp.ofCode b = some k ↔ b = k.code := by
  revert b; cases k <;> decide
@[simp] theorem scopeOfCode_eq {sc : Scope} {b : BitVec 4} : Scope.ofCode b = some sc ↔ b = sc.code := by
  revert b; cases sc <;> decide
@[simp] theorem fkindOfCode_eq {k : FKind} {b : BitVec 2} : FKind.ofCode b = some k ↔ b = k.code := by
  revert b; cases k <;> decide
@[simp] theorem logOfCode_eq {op : LogOp} {b : BitVec 3} : LogOp.ofCode b = some op ↔ b = op.code := by
  revert b; cases op <;> decide
@[simp] theorem shModeOfCode_eq {m : ShMode} {b : BitVec 3} : ShMode.ofCode b = some m ↔ b = m.code := by
  revert b; cases m <;> decide
@[simp] theorem laneOfCode_eq {op : LaneOp} {b : BitVec 3} : LaneOp.ofCode b = some op ↔ b = op.code := by
  revert b; cases op <;> decide
@[simp] theorem redOfCode_eq {op : RedOp} {b : BitVec 2} : RedOp.ofCode b = some op ↔ b = op.code := by
  revert b; cases op <;> decide
@[simp] theorem afTyOfCode_eq {t : AFTy} {b : BitVec 4} : AFTy.ofCode b = some t ↔ b = t.code := by
  revert b; cases t <;> decide
@[simp] theorem maxTyOfCode_eq {t : MaxTy} {b : BitVec 4} : MaxTy.ofCode b = some t ↔ b = t.code := by
  revert b; cases t <;> decide
@[simp] theorem tlbModeOfCode_eq {m : TlbMode} {b : BitVec 2} : TlbMode.ofCode b = some m ↔ b = m.code := by
  revert b; cases m <;> decide

@[simp] theorem ordrCode_ofCode (b : BitVec 2) : (Ordr.ofCode b).code = b := by revert b; decide
@[simp] theorem ordrOfCode_code (o : Ordr) : Ordr.ofCode o.code = o := by cases o <;> rfl
@[simp] theorem tclassCode_ofCode (b : BitVec 2) : (TClass.ofCode b).code = b := by revert b; decide
@[simp] theorem tclassOfCode_code (t : TClass) : TClass.ofCode t.code = t := by cases t <;> rfl

/-! ## The forms of LOW (R155) -/

theorem lowT_eq_iff {low : BitVec 18} {x : BitVec 9} {t : BitVec 4} {m : BitVec 3} {l : BitVec 2} :
    lowT x t m l = low ↔ tX low = x ∧ tT low = t ∧ tM low = m ∧ tL low = l := by
  refine append_eq_iff.trans ?_
  simp only [append_eq_iff]
  simp [extractLsb'_extractLsb', and_assoc, tX, tT, tM, tL, @eq_comm _ x, @eq_comm _ t, @eq_comm _ m, @eq_comm _ l]

theorem eq_lowT_iff {low : BitVec 18} {x : BitVec 9} {t : BitVec 4} {m : BitVec 3} {l : BitVec 2} :
    low = lowT x t m l ↔ tX low = x ∧ tT low = t ∧ tM low = m ∧ tL low = l := eq_comm.trans lowT_eq_iff

theorem lowM_eq_iff {low : BitVec 18} {x : BitVec 7} {t : BitVec 4} {o : BitVec 2} {sc : BitVec 4} :
    lowM x t o sc = low ↔ mX low = x ∧ mT low = t ∧ mO low = o ∧ mS low = sc ∧ low[0] = false := by
  refine append_eq_iff.trans ?_
  simp only [append_eq_iff, zero_eq_extractLsb']
  simp [extractLsb'_extractLsb', and_assoc, mX, mT, mO, mS, @eq_comm _ x, @eq_comm _ t, @eq_comm _ o, @eq_comm _ sc]

theorem eq_lowM_iff {low : BitVec 18} {x : BitVec 7} {t : BitVec 4} {o : BitVec 2} {sc : BitVec 4} :
    low = lowM x t o sc ↔ mX low = x ∧ mT low = t ∧ mO low = o ∧ mS low = sc ∧ low[0] = false := eq_comm.trans lowM_eq_iff

theorem lowK_eq_iff {low : BitVec 18} {x : BitVec 16} : lowK x = low ↔ low.extractLsb' 16 2 = 0#2 ∧ low.extractLsb' 0 16 = x := by
  rw [lowK, append_eq_iff, @eq_comm _ 0#2, @eq_comm _ x]

theorem lowMul_eq_iff {low : BitVec 18} {f : MulF} : lowMul f = low ↔ mulOf low = f ∧ low[0] = false := by
  obtain ⟨slot, km1, q⟩ := f
  refine append_eq_iff.trans ?_
  simp only [append_eq_iff, zero_eq_extractLsb']
  simp [extractLsb'_extractLsb', and_assoc, mulOf, @eq_comm _ slot, @eq_comm _ km1, @eq_comm _ q]

theorem eq_lowMul_iff {low : BitVec 18} {f : MulF} : low = lowMul f ↔ mulOf low = f ∧ low[0] = false := eq_comm.trans lowMul_eq_iff

theorem tL_eq_iff {low : BitVec 18} {b a : Bool} : tL low = BitVec.ofBool b ++ BitVec.ofBool a ↔ low[1] = b ∧ low[0] = a := by
  rw [eq_comm, tL, two_bits_eq_extractLsb', eq_comm (a := b), eq_comm (a := a)]
  rfl

theorem tL_eq_zero_append_iff {low : BitVec 18} {a : Bool} : tL low = 0#1 ++ BitVec.ofBool a ↔ low[1] = false ∧ low[0] = a :=
  tL_eq_iff (b := false)

theorem tL_eq_append_zero_iff {low : BitVec 18} {b : Bool} : tL low = BitVec.ofBool b ++ 0#1 ↔ low[1] = b ∧ low[0] = false :=
  tL_eq_iff (a := false)

/-! Words of one row or of a few: a handle's slot (`MLDB`), `MTOPK`, a fence, and a value above zeros. -/

theorem slot_eq_iff {low : BitVec 18} {xy : BitVec 9} {s : BitVec 5} :
    xy ++ 0#4 ++ s = low ↔ tX low = xy ∧ low.extractLsb' 5 4 = 0#4 ∧ low.extractLsb' 0 5 = s := by
  refine append_eq_iff.trans ?_
  simp only [append_eq_iff]
  simp [extractLsb'_extractLsb', and_assoc, tX, @eq_comm _ xy, @eq_comm _ s, @eq_comm _ 0#4]

theorem topk_eq_iff {low : BitVec 18} {k : BitVec 5} {w : BitVec 8} {m : Bool} : k ++ w ++ BitVec.ofBool m ++ 0#4 = low ↔
    low.extractLsb' 13 5 = k ∧ low.extractLsb' 5 8 = w ∧ low[4] = m ∧ low.extractLsb' 0 4 = 0#4 := by
  refine append_eq_iff.trans ?_
  simp only [append_eq_iff]
  simp [extractLsb'_extractLsb', and_assoc, ofBool_eq_extractLsb', @eq_comm _ k, @eq_comm _ w, @eq_comm _ 0#4, @eq_comm _ m]

theorem fence_eq_iff {low : BitVec 18} {k : BitVec 2} {sc : BitVec 4} :
    0#12 ++ k ++ sc = low ↔ low.extractLsb' 6 12 = 0#12 ∧ low.extractLsb' 4 2 = k ∧ low.extractLsb' 0 4 = sc := by
  refine append_eq_iff.trans ?_
  simp only [append_eq_iff]
  simp [extractLsb'_extractLsb', and_assoc, @eq_comm _ k, @eq_comm _ sc, @eq_comm _ 0#12]

theorem scope_eq_iff {low : BitVec 18} {sc : BitVec 4} : 0#14 ++ sc = low ↔ low.extractLsb' 4 14 = 0#14 ∧ low.extractLsb' 0 4 = sc := by
  rw [append_eq_iff, @eq_comm _ 0#14, @eq_comm _ sc]

theorem sysReg_eq_iff {low : BitVec 18} {n : BitVec 12} : 0#6 ++ n = low ↔ low.extractLsb' 12 6 = 0#6 ∧ low.extractLsb' 0 12 = n := by
  rw [append_eq_iff, @eq_comm _ 0#6, @eq_comm _ n]

theorem mode_eq_iff {low : BitVec 18} {m : BitVec 2} : 0#16 ++ m = low ↔ low.extractLsb' 2 16 = 0#16 ∧ tL low = m := by
  rw [append_eq_iff, @eq_comm _ 0#16, @eq_comm _ m, tL]

theorem chpt_eq_iff {s : BitVec 9} {n : BitVec 4} : 7#3 ++ (0#2 ++ n) = s ↔
    spFile s = 7#3 ∧ (spIdx s).extractLsb' 4 2 = 0#2 ∧ (spIdx s).extractLsb' 0 4 = n := by
  rw [append_eq_iff, append_eq_iff, @eq_comm _ n, @eq_comm _ 7#3, @eq_comm _ 0#2]
  rfl

/-! ## From a word to the instruction that it encodes

Each row of a map reads the fields of its word in turn; what every reader says of its field makes the fields those that the encoder writes. -/

theorem bind_imp {α β : Type} {o : Option α} {f : α → Option β} {i : β} {P : Prop} :
    ((o >>= f) = some i → P) ↔ ∀ a, o = some a → f a = some i → P := by
  cases o <;> simp

theorem eq_ofNat_of_toNat {n k : Nat} {x : BitVec n} (h : x.toNat = k) : x = BitVec.ofNat n k := by
  subst h
  simp

/-- An encoding is settled by its fields. -/
theorem encoding_congr {k : Nat} {r r' : Raw} (h : r = r') : some (k, r) = some (k, r') := by
  rw [h]

theorem encodeRaw_of_dAtom {τ : Type} {ty : BitVec 4 → Option τ} {code : τ → BitVec 4} {mk} {opc : BitVec 8} {gneg : Bool}
    {gpred stall : BitVec 3} {den : Bool} {dctr : BitVec 3} {dst sa sb : BitVec 9} {low : BitVec 18} {lits : List W64} {i : Instr}
    (hty : ∀ {b t}, ty b = some t ↔ b = code t)
    (hmk : ∀ c t o sc d a x, encodeRaw (mk c t o sc d a x) = some (eAtom opc c (code t) o sc d a x)) :
    dAtom ⟨opc, gneg, gpred, stall, den, dctr, dst, sa, sb, low, lits⟩ ty mk = some i →
    encodeRaw i = some (2, ⟨opc, gneg, gpred, stall, den, dctr, dst, sa, sb, low, lits⟩) := by
  unfold dAtom
  dsimp only
  split
  next b hb =>
    obtain rfl := spB_eq.1 hb
    simp only [bind_imp, Option.pure_def, Option.some.injEq, ctl_eq, hty, scopeOfCode_eq, lowG_eq, spOptG_eq, need_eq, spG_eq, noLits_eq,
      Bool.not_eq_true', and_imp, BitVec.getLsbD_eq_getElem, Nat.reduceLT]
    intros
    subst_vars
    rw [hmk]
    refine encoding_congr ?_
    simp [*, Ctl.raw, lowM_eq_iff, mkXY]
  next =>
    simp only [bind_imp, Option.pure_def, Option.some.injEq, Prod.forall, ctl_eq, hty, scopeOfCode_eq, lowG_eq, spOptG_eq, need_eq, spG_eq,
      spOff_eq, noLits_eq, Bool.not_eq_true', and_imp, BitVec.getLsbD_eq_getElem, Nat.reduceLT]
    intros
    subst_vars
    rw [hmk]
    refine encoding_congr ?_
    simp [*, Ctl.raw, lowM_eq_iff, mkXY, SpOp.sb, SpOp.lits]

theorem encodeRaw_of_decode0 {r : Raw} {i : Instr} : decode0 r = some (some i) → encodeRaw i = some (0, r) := by
  obtain ⟨opc, gneg, gpred, stall, den, dctr, dst, sa, sb, low, lits⟩ := r
  unfold decode0
  dsimp only
  split <;> rename_i hop
  case h_49 => simp -- a reserved opcode
  all_goals obtain rfl := eq_ofNat_of_toNat hop; clear hop
  all_goals
    simp only [d0, dT1, dT2, dT3, bind_imp, Option.pure_def, Option.some.injEq, Prod.forall, and_imp, ctl_eq, ityOfCode_eq, cmpOfCode_eq,
      logOfCode_eq, laneOfCode_eq, shModeOfCode_eq, spNone_eq, spG_eq, spP_eq, spS_eq, spGK_eq, noLits_eq, need_eq, beq_iff_eq, eq_lowT_iff,
      tL_eq_zero_append_iff, BitVec.getLsbD_eq_getElem, Nat.reduceLT]
  -- `CALL`: absolute where there is no source, else by a register.
  case h_4 =>
    rintro c rfl rfl rfl rfl rfl d rfl - rfl - rfl
    split
    next h =>
      rintro ⟨⟩
      rw [h]
      rfl
    next =>
      simp only [bind_imp, Option.some.injEq, spG_eq, need_eq, beq_iff_eq]
      rintro a rfl - rfl rfl
      rfl
  -- `PHASE`: two literal words.
  case h_9 =>
    rintro c rfl rfl rfl rfl rfl - rfl - rfl - rfl - rfl
    split
    · rintro ⟨⟩
      rfl
    · simp
  -- `MOVL`: one literal word.
  case h_38 =>
    rintro c rfl rfl rfl rfl rfl d rfl - rfl - rfl - rfl
    split
    · rintro ⟨⟩
      rfl
    · simp
  -- `VOTE`: the form is read from LOW.
  case h_45 =>
    rintro c rfl rfl rfl rfl rfl a rfl - rfl - hx ht - -
    split
    all_goals
      simp only [bind_imp, Option.some.injEq, spP_eq, spG_eq, spNone_eq, reduceCtorEq, false_implies]
    any_goals
      rename_i hm hl
      have hm := eq_ofNat_of_toNat hm
      have hl := eq_ofNat_of_toNat hl
      intros
      subst_vars
      refine encoding_congr ?_
      simp [*, Ctl.raw, lowT_eq_iff]
  all_goals
    intros
    subst_vars
    refine encoding_congr ?_
    simp [*, Ctl.raw, lowT_eq_iff, lowK_eq_iff, tL_eq_iff, tL_eq_zero_append_iff]

theorem encodeRaw_of_decode1 {r : Raw} {i : Instr} : decode1 r = some (some i) → encodeRaw i = some (1, r) := by
  obtain ⟨opc, gneg, gpred, stall, den, dctr, dst, sa, sb, low, lits⟩ := r
  unfold decode1
  dsimp only
  split <;> rename_i hop
  case h_29 => simp -- a reserved opcode
  all_goals obtain rfl := eq_ofNat_of_toNat hop; clear hop
  all_goals
    simp only [bind_imp, Option.pure_def, Option.some.injEq, and_imp, ctl_eq, dV1, dV1r, dV2, dV2r, Prod.forall, ffmtOfCode_eq,
      rndOfCode_eq, cmpOfCode_eq, redOfCode_eq, spNone_eq, spG_eq, spV_eq, spM_eq, spS_eq, spCb_eq, spK_eq, spGK_eq, spDat_eq, spOptK_eq,
      spTagCb_eq, noLits_eq, need_eq, beq_iff_eq, eq_lowT_iff, tL_eq_append_zero_iff, BitVec.getLsbD_eq_getElem, Nat.reduceLT]
  -- `QNT`: with or without a scale vector.
  case h_25 =>
    rintro c rfl rfl rfl rfl rfl f ht m hm d rfl a rfl - - - - - h0
    split
    next hx =>
      simp only [bind_imp, Option.some.injEq, spNone_eq, noLits_eq]
      rintro - rfl - rfl rfl
      refine encoding_congr ?_
      simp [*, Ctl.raw, lowT_eq_iff, satBits, tL_eq_append_zero_iff]
    next =>
      simp only [bind_imp, Option.some.injEq, Prod.forall, spV_eq, spK_eq, noLits_eq, and_imp]
      rintro v rfl k ls hx rfl - - rfl rfl
      refine encoding_congr ?_
      simp [*, Ctl.raw, lowT_eq_iff, satBits, tL_eq_append_zero_iff]
  all_goals
    intros
    subst_vars
    refine encoding_congr ?_
    simp [*, Ctl.raw, lowT_eq_iff, satBits, tL_eq_iff, tL_eq_append_zero_iff]

theorem encodeRaw_of_decode2 {r : Raw} {i : Instr} : decode2 r = some (some i) → encodeRaw i = some (2, r) := by
  obtain ⟨opc, gneg, gpred, stall, den, dctr, dst, sa, sb, low, lits⟩ := r
  unfold decode2
  dsimp only
  split <;> rename_i hop
  case h_25 => simp -- a reserved opcode
  all_goals obtain rfl := eq_ofNat_of_toNat hop; clear hop
  -- The atomics, by the codes of their types.
  case h_13 | h_15 | h_16 | h_18 | h_19 | h_20 | h_21 | h_22 | h_24 =>
    exact fun h => encodeRaw_of_dAtom ityOfCode_eq (fun _ _ _ _ _ _ _ => rfl) (Option.some.inj h)
  case h_14 => exact fun h => encodeRaw_of_dAtom afTyOfCode_eq (fun _ _ _ _ _ _ _ => rfl) (Option.some.inj h)
  case h_17 => exact fun h => encodeRaw_of_dAtom (code := fun _ => 1#4) (by simp) (fun _ _ _ _ _ _ _ => rfl) (Option.some.inj h)
  case h_23 => exact fun h => encodeRaw_of_dAtom maxTyOfCode_eq (fun _ _ _ _ _ _ _ => rfl) (Option.some.inj h)
  all_goals
    simp only [bind_imp, Option.pure_def, Option.some.injEq, and_imp, ctl_eq, Prod.forall, d0, ityOfCode_eq, scopeOfCode_eq, fkindOfCode_eq,
      spNone_eq, spG_eq, spM_eq, spB_eq, spBar_eq, spGK_eq, spDat_eq, spOff_eq, lowDat_eq, lowG_eq, noLits_eq, need_eq, beq_iff_eq,
      Bool.and_eq_true, Bool.not_eq_true', eq_lowT_iff, eq_lowM_iff, BitVec.getLsbD_eq_getElem, Nat.reduceLT]
    intros
    subst_vars
    refine encoding_congr ?_
    simp [*, Ctl.raw, lowT_eq_iff, lowM_eq_iff, lowK_eq_iff, fence_eq_iff, scope_eq_iff, SpOp.sb, SpOp.lits]

theorem encodeRaw_of_decode3 {r : Raw} {i : Instr} : decode3 r = some (some i) → encodeRaw i = some (3, r) := by
  obtain ⟨opc, gneg, gpred, stall, den, dctr, dst, sa, sb, low, lits⟩ := r
  unfold decode3
  dsimp only
  split <;> rename_i hop
  case h_16 => simp -- a reserved opcode
  all_goals obtain rfl := eq_ofNat_of_toNat hop; clear hop
  all_goals
    simp only [bind_imp, Option.pure_def, Option.some.injEq, and_imp, ctl_eq, Prod.forall, d0, ityOfCode_eq, ffmtOfCode_eq, scopeOfCode_eq,
      spNone_eq, spG_eq, spV_eq, spBar_eq, spGK_eq, spOff_eq, lowG_eq, noLits_eq, need_eq, beq_iff_eq, Bool.and_eq_true, Bool.or_eq_true,
      Bool.not_eq_true', eq_lowT_iff, BitVec.getLsbD_eq_getElem, Nat.reduceLT]
  -- `CPY`: with or without a barrier register.
  case h_1 =>
    rintro c rfl rfl rfl rfl rfl a rfl - rfl - rfl - rfl
    split
    next h =>
      rintro ⟨⟩
      rw [h]
      rfl
    next =>
      simp only [bind_imp, Option.some.injEq, spBar_eq]
      rintro n rfl rfl
      rfl
  -- `MRGOPEN`: LOW is 0 or has the float bit.
  case h_10 =>
    rintro c rfl rfl rfl rfl rfl - rfl a rfl - rfl - rfl - hlow rfl
    obtain rfl | ⟨hx, ht, hm, hl⟩ := hlow
    · rfl
    · obtain rfl := eq_lowT_iff.2 ⟨hx, ht, hm, hl⟩
      rfl
  all_goals
    intros
    subst_vars
    refine encoding_congr ?_
    simp [*, Ctl.raw, lowT_eq_iff, lowM_eq_iff, lowK_eq_iff, scope_eq_iff, SpOp.sb, SpOp.lits]

theorem encodeRaw_of_decode4 {r : Raw} {i : Instr} : decode4 r = some (some i) → encodeRaw i = some (4, r) := by
  obtain ⟨opc, gneg, gpred, stall, den, dctr, dst, sa, sb, low, lits⟩ := r
  unfold decode4
  dsimp only
  split <;> rename_i hop
  case h_7 => simp -- a reserved opcode
  all_goals obtain rfl := eq_ofNat_of_toNat hop; clear hop
  all_goals
    simp only [bind_imp, Option.pure_def, Option.some.injEq, and_imp, ctl_eq, Prod.forall, ffmtOfCode_eq, rndOfCode_eq, spNone_eq, spM_eq,
      spGK_eq, noLits_eq, need_eq, beq_iff_eq, eq_lowT_iff, tL_eq_append_zero_iff, BitVec.getLsbD_eq_getElem, Nat.reduceLT]
    intros
    subst_vars
    refine encoding_congr ?_
    simp [*, Ctl.raw, lowT_eq_iff, satBits, tL_eq_append_zero_iff]

theorem encodeRaw_of_decode5 {r : Raw} {i : Instr} : decode5 r = some (some i) → encodeRaw i = some (5, r) := by
  obtain ⟨opc, gneg, gpred, stall, den, dctr, dst, sa, sb, low, lits⟩ := r
  unfold decode5
  dsimp only
  split <;> rename_i hop
  case h_11 => simp -- a reserved opcode
  all_goals obtain rfl := eq_ofNat_of_toNat hop; clear hop
  all_goals
    simp only [bind_imp, Option.pure_def, Option.some.injEq, and_imp, ctl_eq, Prod.forall, dHnd, spXY, spNone_eq, spG_eq, spOptG_eq,
      spGK_eq, noLits_eq, need_eq, beq_iff_eq, eq_lowT_iff, eq_lowMul_iff, BitVec.getLsbD_eq_getElem, Nat.reduceLT]
    intros
    subst_vars
    refine encoding_congr ?_
    simp [*, Ctl.raw, lowT_eq_iff, lowMul_eq_iff, slot_eq_iff, topk_eq_iff]

theorem encodeRaw_of_decode6 {r : Raw} {i : Instr} : decode6 r = some (some i) → encodeRaw i = some (6, r) := by
  obtain ⟨opc, gneg, gpred, stall, den, dctr, dst, sa, sb, low, lits⟩ := r
  unfold decode6
  dsimp only
  split <;> rename_i hop
  case h_11 => simp -- a reserved opcode
  all_goals obtain rfl := eq_ofNat_of_toNat hop; clear hop
  all_goals
    simp only [bind_imp, Option.pure_def, Option.some.injEq, and_imp, ctl_eq, d0, spNone_eq, spG_eq, spP_eq, spOptG_eq, noLits_eq, need_eq,
      beq_iff_eq, Bool.and_eq_true, scopeOfCode_eq]
  -- `CHPT`: the count is the constant of the first source.
  case h_7 =>
    rintro c rfl rfl rfl rfl rfl - rfl - rfl - rfl - hfile hzero rfl
    refine encoding_congr ?_
    rw [chpt_eq_iff.2 ⟨hfile, hzero, rfl⟩]
    rfl
  all_goals
    intros
    subst_vars
    refine encoding_congr ?_
    simp [*, Ctl.raw, scope_eq_iff]

theorem encodeRaw_of_decode7 {r : Raw} {i : Instr} : decode7 r = some (some i) → encodeRaw i = some (7, r) := by
  obtain ⟨opc, gneg, gpred, stall, den, dctr, dst, sa, sb, low, lits⟩ := r
  unfold decode7
  dsimp only
  split <;> rename_i hop
  case h_7 => simp -- a reserved opcode
  all_goals obtain rfl := eq_ofNat_of_toNat hop; clear hop
  all_goals
    simp only [bind_imp, Option.pure_def, Option.some.injEq, and_imp, ctl_eq, Prod.forall, spNone_eq, spG_eq, spP_eq, spB_eq, spGK_eq,
      noLits_eq, need_eq, beq_iff_eq, eq_lowT_iff, tL_eq_zero_append_iff, BitVec.getLsbD_eq_getElem, Nat.reduceLT]
    intros
    subst_vars
    refine encoding_congr ?_
    simp [*, Ctl.raw, lowT_eq_iff, tL_eq_zero_append_iff]

theorem encodeRaw_of_decode8 {r : Raw} {i : Instr} : decode8 r = some (some i) → encodeRaw i = some (8, r) := by
  obtain ⟨opc, gneg, gpred, stall, den, dctr, dst, sa, sb, low, lits⟩ := r
  unfold decode8
  dsimp only
  split <;> rename_i hop
  case h_10 => simp -- a reserved opcode
  all_goals obtain rfl := eq_ofNat_of_toNat hop; clear hop
  all_goals
    simp only [bind_imp, Option.pure_def, Option.some.injEq, and_imp, ctl_eq, Prod.forall, ityOfCode_eq, scopeOfCode_eq, fkindOfCode_eq,
      spNone_eq, spG_eq, spGK_eq, spDat_eq, spOptG_eq, spOff_eq, lowDat_eq, noLits_eq, need_eq, beq_iff_eq, Bool.and_eq_true,
      Bool.not_eq_true', eq_lowT_iff, BitVec.getLsbD_eq_getElem, Nat.reduceLT]
    intros
    subst_vars
    refine encoding_congr ?_
    simp [*, Ctl.raw, lowT_eq_iff, lowM_eq_iff, fence_eq_iff, SpOp.sb, SpOp.lits]

theorem encodeRaw_of_decode9 {r : Raw} {i : Instr} : decode9 r = some (some i) → encodeRaw i = some (9, r) := by
  obtain ⟨opc, gneg, gpred, stall, den, dctr, dst, sa, sb, low, lits⟩ := r
  unfold decode9
  dsimp only
  split <;> rename_i hop
  case h_6 => simp -- a reserved opcode
  all_goals obtain rfl := eq_ofNat_of_toNat hop; clear hop
  all_goals
    simp only [bind_imp, Option.pure_def, Option.some.injEq, and_imp, ctl_eq, Prod.forall, d0, spNone_eq, spG_eq, spGK_eq, noLits_eq,
      need_eq, beq_iff_eq, tlbModeOfCode_eq]
    intros
    subst_vars
    refine encoding_congr ?_
    simp [*, Ctl.raw, lowK_eq_iff, sysReg_eq_iff, mode_eq_iff]

theorem encodeRaw_of_decodeClass {k : Nat} {r : Raw} {i : Instr} (h : decodeClass k r = some (some i)) : encodeRaw i = some (k, r) := by
  unfold decodeClass at h
  split at h
  · exact encodeRaw_of_decode0 h
  · exact encodeRaw_of_decode1 h
  · exact encodeRaw_of_decode2 h
  · exact encodeRaw_of_decode3 h
  · exact encodeRaw_of_decode4 h
  · exact encodeRaw_of_decode5 h
  · exact encodeRaw_of_decode6 h
  · exact encodeRaw_of_decode7 h
  · exact encodeRaw_of_decode8 h
  · exact encodeRaw_of_decode9 h
  · cases h

/-! ## Reading what the encoder wrote -/

@[simp] theorem spNone_zero : spNone 0#9 = some () := rfl
@[simp] theorem spG_mkG (r : GReg) : spG (mkG r) = some r := spG_eq.2 rfl
@[simp] theorem spV_mkV (r : VReg) : spV (mkV r) = some r := spV_eq.2 rfl
@[simp] theorem spM_mkM (r : MReg) : spM (mkM r) = some r := spM_eq.2 rfl
@[simp] theorem spP_mkP (r : PReg) : spP (mkP r) = some r := spP_eq.2 rfl
@[simp] theorem spB_mkB (r : BReg) : spB (mkB r) = some r := spB_eq.2 rfl
@[simp] theorem spS_mkS (r : SReg) : spS (mkS r) = some r := spS_eq.2 rfl
@[simp] theorem spCb_mkCb (r : CReg) : spCb (mkCb r) = some r := spCb_eq.2 rfl
@[simp] theorem spBar_mkBar (n : Bar) : spBar (mkBar n) = some n := spBar_eq.2 rfl
@[simp] theorem spTagCb_mkTagCb {f : FFmt} {cb : CReg} (h : f = .cb4 ∨ cb = 0#2) : spTagCb f (mkTagCb f cb) = some cb :=
  spTagCb_eq.2 ⟨rfl, h.resolve_left⟩
@[simp] theorem spDat_mkDat (d : Dat) : spDat (mkDat d) = some d := spDat_eq.2 rfl
@[simp] theorem spOptG_mkXY (d : Option GReg) : spOptG (mkXY d) = some d := spOptG_eq.2 rfl
@[simp] theorem lowDat_low (d : Dat) : lowDat d.low = some d := lowDat_eq.2 rfl
@[simp] theorem lowG_append (r : GReg) : lowG (0#1 ++ r) = some r := lowG_eq.2 rfl
@[simp] theorem ityOfCode_code (t : ITy) : ITy.ofCode t.code = some t := ityOfCode_eq.2 rfl
@[simp] theorem ffmtOfCode_code (f : FFmt) : FFmt.ofCode f.code = some f := ffmtOfCode_eq.2 rfl
@[simp] theorem rndOfCode_code (m : Rnd) : Rnd.ofCode m.code = some m := rndOfCode_eq.2 rfl
@[simp] theorem cmpOfCode_code (k : CmpOp) : CmpOp.ofCode k.code = some k := cmpOfCode_eq.2 rfl
@[simp] theorem scopeOfCode_code (sc : Scope) : Scope.ofCode sc.code = some sc := scopeOfCode_eq.2 rfl
@[simp] theorem fkindOfCode_code (k : FKind) : FKind.ofCode k.code = some k := fkindOfCode_eq.2 rfl
@[simp] theorem logOfCode_code (op : LogOp) : LogOp.ofCode op.code = some op := logOfCode_eq.2 rfl
@[simp] theorem shModeOfCode_code (m : ShMode) : ShMode.ofCode m.code = some m := shModeOfCode_eq.2 rfl
@[simp] theorem laneOfCode_code (op : LaneOp) : LaneOp.ofCode op.code = some op := laneOfCode_eq.2 rfl
@[simp] theorem redOfCode_code (op : RedOp) : RedOp.ofCode op.code = some op := redOfCode_eq.2 rfl
@[simp] theorem tlbModeOfCode_code (m : TlbMode) : TlbMode.ofCode m.code = some m := tlbModeOfCode_eq.2 rfl

@[simp] theorem ctl_raw (c : Ctl) (opc dst sa sb low lits) : (c.raw opc dst sa sb low lits).ctl = some c :=
  ctl_eq.2 ⟨rfl, rfl, rfl, rfl, rfl⟩
section
variable (c : Ctl) (opc : BitVec 8) (dst sa sb : BitVec 9) (low : BitVec 18) (lits : List W64)
@[simp] theorem raw_dst : (c.raw opc dst sa sb low lits).dst = dst := rfl
@[simp] theorem raw_sa : (c.raw opc dst sa sb low lits).sa = sa := rfl
@[simp] theorem raw_sb : (c.raw opc dst sa sb low lits).sb = sb := rfl
@[simp] theorem raw_low : (c.raw opc dst sa sb low lits).low = low := rfl
@[simp] theorem raw_lits : (c.raw opc dst sa sb low lits).lits = lits := rfl
end
theorem spK_mkSrc_last {a : Src} (h : Constant a) : spK (mkSrc a) a.lits = some (a, []) := spK_eq.2 ⟨rfl, (List.append_nil _).symm, h⟩
theorem spOptK_mkOptK {k : Option Src} (h : ∀ a, k = some a → Constant a) : spOptK (mkOptK k) (optKLits k) = some (k, []) :=
  spOptK_eq.2 ⟨rfl, (List.append_nil _).symm, h⟩
@[simp] theorem spGK_mkSrc {a : Src} (h : a.whole = true) (ls : List W64) : spGK (mkSrc a) (a.lits ++ ls) = some (a, ls) :=
  spGK_eq.2 ⟨rfl, rfl, h⟩
@[simp] theorem spGK_mkSrc_last {a : Src} (h : a.whole = true) : spGK (mkSrc a) a.lits = some (a, []) :=
  spGK_eq.2 ⟨rfl, (List.append_nil _).symm, h⟩
@[simp] theorem spOff_sb (a : SpOp) (ls : List W64) : spOff a.sb (a.lits ++ ls) = some (a.off, ls) := spOff_eq.2 ⟨rfl, rfl⟩
@[simp] theorem spOff_sb_last (a : SpOp) : spOff a.sb a.lits = some (a.off, []) := spOff_eq.2 ⟨rfl, (List.append_nil _).symm⟩
@[simp] theorem need_true : need true = some () := rfl
@[simp] theorem noLits_nil : noLits [] = some () := rfl

section
variable (x : BitVec 9) (t : BitVec 4) (m : BitVec 3) (l : BitVec 2)

@[simp] theorem lowT_fields : tX (lowT x t m l) = x ∧ tT (lowT x t m l) = t ∧ tM (lowT x t m l) = m ∧ tL (lowT x t m l) = l :=
  lowT_eq_iff.1 rfl

@[simp] theorem lowT_bits (b a : Bool) :
    (lowT x t m (BitVec.ofBool b ++ BitVec.ofBool a))[1] = b ∧ (lowT x t m (BitVec.ofBool b ++ BitVec.ofBool a))[0] = a :=
  tL_eq_iff.1 (lowT_eq_iff.1 rfl).2.2.2

@[simp] theorem lowT_bit_one (b : Bool) : (lowT x t m (BitVec.ofBool b ++ 0#1))[1] = b := (lowT_bits x t m b false).1
@[simp] theorem lowT_bit_zero (a : Bool) : (lowT x t m (0#1 ++ BitVec.ofBool a))[0] = a := (lowT_bits x t m false a).2

end

@[simp] theorem lowM_fields (x : BitVec 7) (t : BitVec 4) (o : BitVec 2) (sc : BitVec 4) : mX (lowM x t o sc) = x ∧ mT (lowM x t o sc) = t ∧
    mO (lowM x t o sc) = o ∧ mS (lowM x t o sc) = sc ∧ (lowM x t o sc)[0] = false :=
  lowM_eq_iff.1 rfl

@[simp] theorem lowK_fields (x : BitVec 16) : (lowK x).extractLsb' 16 2 = 0#2 ∧ (lowK x).extractLsb' 0 16 = x := lowK_eq_iff.1 rfl

@[simp] theorem slot_fields (xy : BitVec 9) (s : BitVec 5) :
    tX (xy ++ 0#4 ++ s) = xy ∧ (xy ++ 0#4 ++ s).extractLsb' 5 4 = 0#4 ∧ (xy ++ 0#4 ++ s).extractLsb' 0 5 = s := slot_eq_iff.1 rfl

@[simp] theorem topk_fields (k : BitVec 5) (w : BitVec 8) (m : Bool) : (k ++ w ++ BitVec.ofBool m ++ 0#4).extractLsb' 13 5 = k ∧
    (k ++ w ++ BitVec.ofBool m ++ 0#4).extractLsb' 5 8 = w ∧ (k ++ w ++ BitVec.ofBool m ++ 0#4)[4] = m ∧
    (k ++ w ++ BitVec.ofBool m ++ 0#4).extractLsb' 0 4 = 0#4 := topk_eq_iff.1 rfl

@[simp] theorem fence_fields (k : BitVec 2) (sc : BitVec 4) : (0#12 ++ k ++ sc).extractLsb' 6 12 = 0#12 ∧
    (0#12 ++ k ++ sc).extractLsb' 4 2 = k ∧ (0#12 ++ k ++ sc).extractLsb' 0 4 = sc := fence_eq_iff.1 rfl

@[simp] theorem scope_fields (sc : BitVec 4) : (0#14 ++ sc).extractLsb' 4 14 = 0#14 ∧ (0#14 ++ sc).extractLsb' 0 4 = sc := scope_eq_iff.1 rfl

@[simp] theorem sysReg_fields (n : BitVec 12) : (0#6 ++ n).extractLsb' 12 6 = 0#6 ∧ (0#6 ++ n).extractLsb' 0 12 = n := sysReg_eq_iff.1 rfl

@[simp] theorem mode_fields (m : BitVec 2) : (0#16 ++ m).extractLsb' 2 16 = 0#16 ∧ tL (0#16 ++ m) = m := mode_eq_iff.1 rfl

theorem chpt_fields (n : BitVec 4) : spFile (7#3 ++ (0#2 ++ n)) = 7#3 ∧ (spIdx (7#3 ++ (0#2 ++ n))).extractLsb' 4 2 = 0#2 ∧
    (spIdx (7#3 ++ (0#2 ++ n))).extractLsb' 0 4 = n := chpt_eq_iff.1 rfl

@[simp] theorem mulOf_lowMul (f : MulF) : mulOf (lowMul f) = f := (lowMul_eq_iff.1 rfl).1

theorem typed_iff {t : ITy} {a : Src} : a.typed t = true ↔ a.whole = true ∧ ∀ x, a = .lit x → litFits t.signed t.width x = true := by
  cases a <;> simp [Src.typed, Src.whole, Src.fits, litFits]

theorem handle_iff {a : Src} : a.handle = true ↔ a.whole = true ∧ ∀ x, a = .lit x → litFits false 32 x = true := by
  cases a <;> simp [Src.handle, Src.whole, Src.fits, litFits]

theorem constant_of_atMost {k : Src} {n : Nat} (h : k.atMost n = true) : Constant k := by
  cases k <;> simp_all [Src.atMost, Constant, whole_iff]

theorem whole_of_typed {t : ITy} {a : Src} (h : a.typed t = true) : a.whole = true := (typed_iff.1 h).1

/-! ### The shapes that several opcodes share -/

@[simp] theorem d0_raw {c : Ctl} {opc : BitVec 8} {mk} : d0 (c.raw opc 0#9 0#9 0#9 0#18 []) mk = some (mk c) := by
  simp [d0]

section
variable {c : Ctl} {opc : BitVec 8} {t : ITy} {d : GReg} {a b x : Src} {f : FFmt} {m : Rnd}

@[simp] theorem dT1_eT1 {mk} (ha : a.whole = true) : dT1 (eT1 opc c t d a).2 mk = some (mk c t d a) := by
  simp [dT1, eT1, ha]

@[simp] theorem dT2_eT2 {mk} (ha : a.whole = true) (hb : b.whole = true) : dT2 (eT2 opc c t d a b).2 mk = some (mk c t d a b) := by
  simp [dT2, eT2, ha, hb]

@[simp] theorem dT3_eT3 {mk} (ha : a.whole = true) (hb : b.whole = true) (hx : x.whole = true) :
    dT3 (eT3 opc c t d a b x).2 mk = some (mk c t d a b x) := by
  simp [dT3, eT3, ha, hb, hx]

@[simp] theorem dHnd_eHnd {xy : Option GReg} {mk} (ha : a.whole = true) (hb : b.whole = true) :
    dHnd (eHnd opc c a b xy).2 mk = some (mk c a b xy) := by
  simp [dHnd, eHnd, spXY, ha, hb]

@[simp] theorem dV1_eV1 {d a : VReg} {mk} : dV1 (eV1 opc c f d a).2 mk = some (mk c f d a) := by
  simp [dV1, eV1]

@[simp] theorem dV1r_eV1r {d a : VReg} {mk} : dV1r (eV1r opc c f m d a).2 mk = some (mk c f m d a) := by
  simp [dV1r, eV1r]

@[simp] theorem dV2_eV2 {d a b : VReg} {mk} : dV2 (eV2 opc c f d a b).2 mk = some (mk c f d a b) := by
  simp [dV2, eV2]

@[simp] theorem dV2r_eV2r {d a b : VReg} {mk} : dV2r (eV2r opc c f m d a b).2 mk = some (mk c f m d a b) := by
  simp [dV2r, eV2r]

end

theorem spB_mkG (r : GReg) : spB (mkG r) = none := by simp [spB]

theorem dAtom_eAtom {τ : Type} {ty : BitVec 4 → Option τ} {code : τ → BitVec 4} (hty : ∀ t, ty (code t) = some t) {mk}
    (opc c t o sc d a x) : dAtom (eAtom opc c (code t) o sc d a x).2 ty mk = some (mk c t o sc d a x) := by
  cases a <;> cases d <;> simp [dAtom, eAtom, hty, spB_mkG, spOptG, mkG_ne_zero]

/-- A well-formed instruction's word decodes to it (R150–R157). -/
theorem decodeClass_encodeRaw {i : Instr} (hw : i.wf = true) {x : Nat × Raw} (hx : encodeRaw i = some x) :
    decodeClass x.1 x.2 = some (some i) := by
  cases i with
  | vote c f =>
    rcases f with ⟨d, x⟩ | ⟨d, x⟩ | ⟨d, x, _ | ⟨_ | _ | _, y⟩⟩
    all_goals
      cases hx
      refine congrArg some ?_
      simp
  | qnt c f m s d a k =>
    rcases k with _ | ⟨v, k⟩
    · cases hx
      refine congrArg some ?_
      simp [satBits]
    · have hk : Constant k := constant_of_atMost (n := 3) (by simp_all [Instr.wf])
      cases hx
      refine congrArg some ?_
      simp [satBits, mkSrc_ne_zero hk, spK_mkSrc_last hk]
  | cpy c n a =>
    cases n
    all_goals
      cases hx
      refine congrArg some ?_
      simp [mkBar_ne_zero]
  | fcvt c f m s d a k | icvt c f m tf n d a k =>
    have hk : ∀ a, k = some a → Constant a := by
      rintro a rfl
      exact constant_of_atMost (n := 7) (by simp_all [Instr.wf])
    cases hx
    refine congrArg some ?_
    simp [satBits, spOptK_mkOptK hk]
  | funpk c d a k =>
    have hk : Constant k := constant_of_atMost (n := 1) (by simp_all [Instr.wf])
    cases hx
    refine congrArg some ?_
    simp [spK_mkSrc_last hk]
  | mov c t d a =>
    have ha : a.whole = true := by
      obtain ⟨-, ha⟩ := Bool.and_eq_true_iff.1 hw
      split at ha
      · cases a <;> simp_all [Src.whole, Src.fits]
      · exact whole_of_typed ha
    cases hx
    refine congrArg some ?_
    simp [ha]
  | vtag c f cb d a =>
    have ha : a.whole = true := by cases a <;> simp_all [Instr.wf, Src.whole, Src.fits]
    have hcb : f = .cb4 ∨ cb = 0#2 := by simp_all [Instr.wf]
    cases hx
    refine congrArg some ?_
    simp [ha, hcb]
  | aadd c t o sc d a x | amin c t o sc d a x | amax c t o sc d a x | aand c t o sc d a x | aor c t o sc d a x | axor c t o sc d a x
  | axchg c t o sc d a x | acas c t o sc d a x | aincw c t o sc d a x =>
    cases hx
    cases a <;> exact congrArg some (dAtom_eAtom ityOfCode_code ..)
  | afadd c t o sc d a x =>
    cases hx
    cases a <;> exact congrArg some (dAtom_eAtom (fun _ => afTyOfCode_eq.2 rfl) ..)
  | afmax c o sc d a x =>
    cases hx
    cases a <;> exact congrArg some (dAtom_eAtom (code := fun _ => 1#4) (fun _ => rfl) _ _ () ..)
  | amaxrst c t o sc d a x =>
    cases hx
    cases a <;> exact congrArg some (dAtom_eAtom (fun _ => maxTyOfCode_eq.2 rfl) ..)
  | mrgopen c f a =>
    have hlow : lowT 0#9 0#4 0#3 0#2 = 0#18 ∧ (lowT 0#9 0#4 0#3 0#2)[5] = false ∧ (lowT 0#9 1#4 0#3 0#2)[5] = true := ⟨rfl, rfl, rfl⟩
    cases f
    all_goals
      cases hx
      refine congrArg some ?_
      simp [hlow]
  | chpt c n off =>
    obtain ⟨hfile, hzero, hn⟩ := chpt_fields n
    cases hx
    refine congrArg some ?_
    rw [raw_sa, hfile, hzero, hn]
    simp
  | _ =>
    cases hx
    all_goals
      refine congrArg some ?_
      simp only [Instr.wf, Bool.and_eq_true, Bool.or_eq_true, beq_iff_eq, typed_iff, handle_iff] at hw
      simp [*, mkG_ne_zero, satBits, spXY]

/-- Only the events have no word. -/
theorem exists_encodeRaw {i : Instr} (hw : i.wf = true) : ∃ x, encodeRaw i = some x := by
  cases he : encodeRaw i with
  | some x => exact ⟨x, rfl⟩
  | none =>
    unfold encodeRaw at he
    split at he <;> cases he
    all_goals cases hw

theorem encode_eq_cons_iff {i : Instr} {w : W64} {lits : List W64} :
    encode i = w :: lits ↔ encodeRaw i = some (i.cls, Raw.ofWord w lits) := by
  unfold encode Instr.cls
  cases encodeRaw i with
  | none => simp
  | some x =>
    obtain ⟨k, r⟩ := x
    simp only [List.cons.injEq, Option.some.injEq, Prod.mk.injEq, true_and, toWord_eq_iff]
    constructor
    · rintro ⟨hr, rfl⟩
      exact hr
    · rintro rfl
      exact ⟨rfl, rfl⟩

theorem decode_eq_ok_iff {k : Nat} {w : W64} {lits : List W64} {i : Instr} :
    decode k w lits = .ok i ↔ decodeClass k (Raw.ofWord w lits) = some (some i) ∧ i.wf = true := by
  unfold decode decodeResult
  cases decodeClass k (Raw.ofWord w lits) with
  | none => simp
  | some o =>
    cases o with
    | none => simp
    | some j =>
      by_cases hj : j.wf = true
      · simp only [hj, if_true, Except.ok.injEq, Option.some.injEq]
        exact ⟨fun h => ⟨h, h ▸ hj⟩, And.left⟩
      · simp only [hj, Option.some.injEq]
        exact ⟨nofun, fun h => absurd (h.1 ▸ h.2) hj⟩

/-- Settles O57: a word's fields are those of the instruction that it decodes to (`encodeRaw_of_decodeClass`), and a well-formed
instruction's fields are read back (`decodeClass_encodeRaw`). -/
theorem encodeDecode : Obligations.EncodeDecode := by
  unfold Obligations.EncodeDecode
  refine ⟨fun i hw => ?_, fun k w lits i h => ?_⟩
  · obtain ⟨⟨k, r⟩, hx⟩ := exists_encodeRaw hw
    have hk : i.cls = k := by rw [Instr.cls, hx]
    have hr : Raw.ofWord r.toWord r.lits = r := (toWord_eq_iff.1 rfl).symm
    exact ⟨r.toWord, r.lits, by rw [encode, hx], decode_eq_ok_iff.2 ⟨by rw [hr, hk]; exact decodeClass_encodeRaw hw hx, hw⟩⟩
  · obtain ⟨hd, hw⟩ := decode_eq_ok_iff.1 h
    have he := encodeRaw_of_decodeClass hd
    have hk : i.cls = k := by rw [Instr.cls, he]
    exact ⟨encode_eq_cons_iff.2 (hk ▸ he), hk, hw⟩

end Sys2Proof.Slice0
end

section
namespace Sys2Proof.Slice0
open Machine

/-! # Operations end (O45) -/

/-! ## The end of an operation (R159, R248) -/

/-- What is known of the writes when an operation has been performed is all that its performance changes (R117). -/
theorem performed_eq (s : State) (o : OutOp) : s.performed o = { s with writes := (s.performed o).writes } := by
  unfold State.performed
  dsimp only
  rw [State.foldl_writes_eq _ fun s _ => State.pass_eq s _ _ _]
  split
  · rfl
  · rw [State.pass_eq]

/-- What is known of the writes when an operation begins is all that its beginning changes (R117). -/
theorem beginOp_eq (s : State) (o : OutOp) : s.beginOp o = { s with writes := (s.beginOp o).writes } := by
  unfold State.beginOp
  dsimp only
  rw [State.foldl_writes_eq _ fun s _ => State.pass_eq s _ _ _]
  split
  · rfl
  · rw [State.pass_eq]

/-- A thread that no debugger halts or steps. -/
def Unhalted (x : Thread) : Prop := x.halt = none ∧ x.stepping = false

/-- A thread of an operation that has ended: its counter has fallen, its results may be read and it waits for the operation no longer. -/
def afterOp (o : OutOp) (x : Thread) : Thread :=
  let x := match o.ctr with | none => x | some n => x.decD n
  { x.mature o.id with waitOp := if x.waitOp = o.id then 0 else x.waitOp }

theorem afterOp_unhalted (o : OutOp) {x : Thread} (h : Unhalted x) : Unhalted (afterOp o x) := by
  unfold afterOp
  split <;> exact h

/-- An operation no longer stands among the outstanding ones, and its lanes know. -/
def opLanded (s : State) (o : OutOp) : State :=
  (({ s.performed o with ops := s.ops.filter fun x => x.id != o.id }).decCtr o.group o.lanes o.ctr).modLanes o.group o.lanes fun x =>
    { x.mature o.id with waitOp := if x.waitOp = o.id then 0 else x.waitOp }

/-- The joins and the matrix registers of its group know too. -/
def opEnded (s : State) (o : OutOp) : State :=
  ((opLanded s o).setGrp o.group (((opLanded s o).grp o.group).mature o.id)).clearJoins o.id

theorem opLanded_eq (s : State) (o : OutOp) : opLanded s o = { s with
    ops := s.ops.filter fun x => x.id != o.id, threads := (opLanded s o).threads, writes := (s.performed o).writes } := by
  unfold opLanded
  rw [State.modLanes_keeps, State.decCtr_keeps, performed_eq]

theorem opEnded_eq (s : State) (o : OutOp) : opEnded s o = { s with
    ops := s.ops.filter fun x => x.id != o.id, threads := (opLanded s o).threads, groups := (opEnded s o).groups,
    joins := (opEnded s o).joins, writes := (s.performed o).writes } := by
  have e : opEnded s o = { opLanded s o with groups := (opEnded s o).groups, joins := (opEnded s o).joins } := rfl
  rw [e, opLanded_eq]

theorem opEnded_thr (s : State) (o : OutOp) (t : Nat) : (opEnded s o).thr t = (opLanded s o).thr t := by
  unfold State.thr
  rw [opEnded_eq]

/-- A lane in which a counter falls (R159). -/
theorem decCtr_lane {g : Nat} {m : BitVec 32} (h : OneOfBow g m) (s : State) (c : Option (BitVec 3)) {l : Nat} (hl : l ∈ lanesOf m) :
    (s.decCtr g m c).thr (tid g l) = match c with | none => s.thr (tid g l) | some n => (s.thr (tid g l)).decD n := by
  cases c with
  | none => rfl
  | some n => exact lanesMod_lane h (fun _ x => x.decD n) s hl

/-- A lane of the operation. -/
theorem opEnded_lane {s : State} {o : OutOp} (h : OneOfBow o.group o.lanes) {l : Nat} (hl : l ∈ lanesOf o.lanes) :
    (opEnded s o).thr (tid o.group l) = afterOp o (s.thr (tid o.group l)) := by
  have same : ({ s.performed o with ops := s.ops.filter fun x => x.id != o.id } : State).thr (tid o.group l) = s.thr (tid o.group l) := by
    rw [performed_eq]
    rfl
  rw [opEnded_thr]
  refine (lanesMod_lane h (fun _ x => { x.mature o.id with waitOp := if x.waitOp = o.id then 0 else x.waitOp }) _ hl).trans ?_
  rw [decCtr_lane h _ _ hl, same]
  rfl

/-- Any other thread. -/
theorem opEnded_other {s : State} {o : OutOp} {t : Nat} (h : ∀ l ∈ lanesOf o.lanes, t ≠ tid o.group l) : (opEnded s o).thr t = s.thr t := by
  rw [opEnded_thr]
  unfold opLanded
  rw [State.modLanes_thr_other _ _ _ _ _ h, State.decCtr_thr_other _ _ _ _ _ h, performed_eq]
  rfl

/-- Where no thread is halted or stepped, none is when an operation has ended. -/
theorem opEnded_unhalted {s : State} {o : OutOp} (h : OneOfBow o.group o.lanes) (hq : ∀ t, Unhalted (s.thr t)) (t : Nat) :
    Unhalted ((opEnded s o).thr t) := by
  by_cases ht : ∀ l ∈ lanesOf o.lanes, t ≠ tid o.group l
  · rw [opEnded_other ht]
    exact hq t
  · push Not at ht
    obtain ⟨l, hl, rfl⟩ := ht
    rw [opEnded_lane h hl]
    exact afterOp_unhalted o (hq _)

/-- A group with no matrix register open to the operation. -/
theorem mature_none {x : Group} {id : Nat} (h : ∀ e ∈ x.mpend, e.op ≠ id) : x.mature id = x := by
  unfold Group.mature
  rw [List.map_congr_left (g := fun e => e) fun e he => if_neg (by simpa using h e he), List.map_id']

theorem opEnded_grp {s : State} {o : OutOp} {g : Nat} (h : ∀ e ∈ (s.grp g).mpend, e.op ≠ o.id) : (opEnded s o).grp g = s.grp g := by
  have landed : ∀ k, (opLanded s o).grp k = s.grp k := fun k => by rw [opLanded_eq]; rfl
  change ((opLanded s o).setGrp o.group _).grp g = _
  rw [State.grp_setGrp, landed, landed]
  split
  · next e =>
    subst e
    exact mature_none h
  · rfl

theorem opEnded_ends (s : State) {o : OutOp} (h : OneOfBow o.group o.lanes) : OpEnds s (opEnded s o) o where
  ops := by rw [opEnded_eq]
  lanes _ hl := opEnded_lane h hl
  others _ ht := opEnded_other ht
  mem := by rw [opEnded_eq]
  sp := by rw [opEnded_eq]

/-- Where nothing asks for a step of its own, an operation ends without more (R159). -/
theorem finishOp_quiet {s : State} {o : OutOp} (hq : Quiet s) (hf : (s.ops.find? fun x => x.id == o.id) = some o)
    (h : OneOfBow o.group o.lanes) : s.finishOp o.id = opEnded s o := by
  have parks : (opEnded s o).parks = [] := by rw [opEnded_eq]; exact hq.parks
  have samples : (opEnded s o).samples = [] := by rw [opEnded_eq]; exact hq.samples
  have retried : (opEnded s o).retryParks o.group = opEnded s o := by
    unfold State.retryParks
    rw [parks]
    rfl
  have told : ((lanesOf o.lanes).foldl (fun s i => s.haltReport (tid o.group i)) (opEnded s o)) = opEnded s o :=
    State.foldl_keeps (fun u => u = opEnded s o) _ _ _ rfl fun u hu i _ => by
      rw [hu]
      unfold State.haltReport
      dsimp only
      rw [(opEnded_unhalted h hq.halts _).1]
  have parts : s.finishOp o.id =
      (let u := (lanesOf o.lanes).foldl (fun s i => s.haltReport (tid o.group i)) ((opEnded s o).retryParks o.group)
       if u.samples.isEmpty then u else State.sampleSettle u.samples u) := by
    unfold State.finishOp
    rw [hf]
    have : (s.performed o).ops = s.ops := by rw [performed_eq]
    dsimp only
    rw [this]
    rfl
  rw [parts, retried, told]
  dsimp only
  rw [samples]
  rfl

/-! ## RESULT_COMPLETION (R159, R232, R351, R353) -/

/-- Every join before an operation has gone (R248). -/
theorem joinsGone_of {s : State} {js : List Nat} (h : ∀ j ∈ js, ∀ x ∈ s.joins, x.id ≠ j) : s.joinsGone js = true := by
  simpa [State.joinsGone] using h

section
variable {s : State} {o : OutOp} (hq : Quiet s) (hf : (s.ops.find? fun x => x.id == o.id) = some o) (ho : OneOfBow o.group o.lanes)
  (hj : s.joinsGone o.joins = true)
include hq hf ho hj

/-- An operation that may complete ends in the state that its completion leaves, which changes shared registers, system registers and
cached translations only (R159). -/
theorem completed_endsIn {s1 : State} (hk : o.kind.atOnce = true) (hc : s.completed o = some s1)
    (h1 : s1 = { s with wgs := s1.wgs, tlb := s1.tlb, tabs := s1.tabs, codes := s1.codes, sys := s1.sys, writes := s1.writes, seq := s1.seq }) :
    EndsIn s (.resultCompletion o.id) s1 o := by
  have ops : s1.ops = s.ops := by rw [h1]
  have quiet : Quiet s1 := by
    rw [h1]
    exact ⟨hq.hole, hq.samples, hq.parks, hq.latent, hq.halts⟩
  have ended : s1.finishOp o.id = opEnded s1 o := finishOp_quiet quiet (ops ▸ hf) ho
  have hole : (opEnded s1 o).hole = false := by
    rw [opEnded_eq]
    exact quiet.hole
  refine ⟨opEnded s1 o, ?_, opEnded_ends s1 ho, ?_, fun g hg => opEnded_grp hg⟩
  · rw [exec_resultCompletion]
    unfold execResultCompletion
    rw [hf]
    dsimp only
    rw [hk, hj, if_neg (by decide), if_pos rfl, hc]
    dsimp only
    rw [ended]
    exact out_next hole
  · have ops' : (opEnded s1 o).ops = s1.ops.filter fun x => x.id != o.id := by rw [opEnded_eq]
    have thr : (opEnded s1 o).threads = (opLanded s1 o).threads := by rw [opEnded_eq]
    rw [ops', thr]
    exact opEnded_eq s1 o

/-- A completion that leaves the state as it is. -/
theorem completed_endsIn_same (hk : o.kind.atOnce = true) (hc : s.completed o = some s) : EndsIn s (.resultCompletion o.id) s o :=
  completed_endsIn hq hf ho hj hk hc rfl

variable (hd : o.done = true)
include hd

/-- Plain operations and transfers (R159, R333). -/
theorem plain_endsIn (hk : o.kind = .plain ∨ o.kind = .xfer) : EndsIn s (.resultCompletion o.id) s o := by
  refine completed_endsIn_same hq hf ho hj ?_ ?_
  · rcases hk with hk | hk <;> rw [hk] <;> rfl
  · unfold State.completed
    rcases hk with hk | hk <;> rw [hd, hk] <;> rfl

/-- A fence, once what it waits for has ended (R111). -/
theorem fence_endsIn {l : List Nat} (hk : o.kind = .fence l) (hl : ∀ x ∈ s.ops, x.id ∉ l) : EndsIn s (.resultCompletion o.id) s o := by
  refine completed_endsIn_same hq hf ho hj (by rw [hk]; rfl) ?_
  unfold State.completed
  rw [hd, hk]
  dsimp only
  rw [if_neg (by decide), if_neg (by simpa using hl)]

/-- A buffer record arrives in its register (R232). -/
theorem brld_endsIn {w : Nat} {d : BReg} {r : W256} (hk : o.kind = .brld w d r) : EndsIn s (.resultCompletion o.id)
    ((s.recordReg .buf o (groupLanes o.group) w d.toNat (mget 0 (s.wg w).b d.toNat)).setWg w
      { s.wg w with b := mset 0 (s.wg w).b d.toNat r }) o := by
  have kept := State.record_eq s .buf 0 (tid o.group (lowLane o.lanes)) ((groupLanes o.group).map fun i =>
    ⟨.agent (tid o.group i), [], none, false, []⟩) none none [(512 * w + 32 * d.toNat, leBytes (mget 0 (s.wg w).b d.toNat).toNat 32)]
  refine completed_endsIn hq hf ho hj (by rw [hk]; rfl) ?_ ?_
  · unfold State.completed
    rw [hd, hk]
    unfold State.recordReg
    dsimp only
    rw [kept]
    rfl
  · unfold State.recordReg
    rw [kept]
    rfl

/-- A codebook arrives in its register (R220, R221). -/
theorem cbld_endsIn {w : Nat} {d : CReg} {e : W256} (hk : o.kind = .cbld w d e) : EndsIn s (.resultCompletion o.id)
    ((s.recordReg .cbook o (lanesOf o.lanes) w d.toNat (mget 0 (s.wg w).cb d.toNat)).setWg w
      { s.wg w with cb := mset 0 (s.wg w).cb d.toNat e }) o := by
  have kept := State.record_eq s .cbook 0 (tid o.group (lowLane o.lanes)) ((lanesOf o.lanes).map fun i =>
    ⟨.agent (tid o.group i), [], none, false, []⟩) none none [(512 * w + 32 * d.toNat, leBytes (mget 0 (s.wg w).cb d.toNat).toNat 32)]
  refine completed_endsIn hq hf ho hj (by rw [hk]; rfl) ?_ ?_
  · unfold State.completed
    rw [hd, hk]
    unfold State.recordReg
    dsimp only
    rw [kept]
    rfl
  · unfold State.recordReg
    rw [kept]
    rfl

/-- A write of a system register takes effect (R351, R353). -/
theorem syswr_endsIn {n : BitVec 12} {x : W64} {secure : Bool} (hk : o.kind = .syswr n x secure) (hn : n ≠ 0x011#12) {z : SysRegs}
    (hz : s.sysWrite secure n.toNat x = { s with sys := z }) : EndsIn s (.resultCompletion o.id) { s with sys := z } o := by
  refine completed_endsIn hq hf ho hj (by rw [hk]; rfl) ?_ rfl
  unfold State.completed
  rw [hd, hk]
  dsimp only
  rw [if_neg (by decide), if_neg hn, hz]

/-- A write of `WTSYNC` that is no synchronisation (R350). -/
theorem wtsync_endsIn {x : W64} {secure : Bool} (hk : o.kind = .syswr 0x011#12 x secure) (hx : ¬(secure = true ∧ x = 1)) :
    EndsIn s (.resultCompletion o.id) s o := by
  refine completed_endsIn_same hq hf ho hj (by rw [hk]; rfl) ?_
  unfold State.completed
  rw [hd, hk]
  dsimp only
  rw [if_neg (by decide), if_pos rfl]
  exact if_neg hx

/-- Translations, table entries and code lines are dropped (R353). -/
theorem tlbinv_endsIn {m : TlbMode} {asid : BitVec 16} {page : W64} {world : Bool} (hk : o.kind = .tlbinv m asid page world)
    (hh : s.heldAccesses (s.invMeets m asid world) = false) : EndsIn s (.resultCompletion o.id) (s.invalidate m asid page world) o := by
  refine completed_endsIn hq hf ho hj (by rw [hk]; rfl) ?_ rfl
  unfold State.completed
  rw [hd, hk]
  dsimp only
  rw [if_neg (by decide), hh]
  rfl

end

/-! ## Writes of system registers (R351) -/

/-- The class weights of `ARBW` are 26 bits, written together or not at all. -/
theorem sysWrite_arbw (s : State) (secure : Bool) (x : W64) : s.sysWrite secure 0x031 x =
    { s with sys := if x.extractLsb' 16 10 = 0 then s.sys else { s.sys with arbw := (x.extractLsb' 0 26).setWidth 64 } } := by
  have top : bits x.toNat 25 16 = 0 ↔ x.extractLsb' 16 10 = 0 := by
    rw [← BitVec.toNat_inj]
    simp [bits, BitVec.extractLsb'_toNat, Nat.shiftRight_eq_div_pow]
  have low : x &&& 0x03FFFFFF#64 = (x.extractLsb' 0 26).setWidth 64 := by
    apply BitVec.eq_of_toNat_eq
    rw [BitVec.toNat_and, show (0x03FFFFFF#64).toNat = 2 ^ 26 - 1 from rfl, Nat.and_two_pow_sub_one_eq_mod]
    simp only [BitVec.toNat_setWidth, BitVec.extractLsb'_toNat, Nat.shiftRight_zero]
    omega
  show (if bits x.toNat 25 16 = 0 then s else { s with sys := { s.sys with arbw := x &&& 0x03FFFFFF#64 } }) = _
  rw [low]
  by_cases h : x.extractLsb' 16 10 = 0
  · rw [if_pos (top.2 h), if_pos h]
  · rw [if_neg (mt top.1 h), if_neg h]

/-- `EPERIOD` within its range. -/
theorem clampPeriod_eq (x : W64) : State.clampPeriod x =
    if x < 0x10000#64 then 0x10000 else if x ≤ 0x100000000#64 then x else 0x100000000 := by
  have lt : x < 0x10000#64 ↔ x.toNat < 2 ^ 16 := BitVec.lt_def
  have le : x ≤ 0x100000000#64 ↔ ¬2 ^ 32 < x.toNat := BitVec.le_def.trans Nat.not_lt.symm
  unfold State.clampPeriod
  simp only [lt, le, ite_not]

/-- `EWGT` 0 to 9 (R351). -/
theorem sysWrite_ewgt (s : State) (secure : Bool) (x : W64) {k : Nat} (hk : k < 10) : s.sysWrite secure (0x51 + k) x =
    { s with sys := { s.sys with ewgt := mset 0 s.sys.ewgt k (x.setWidth 16) } } := by
  interval_cases k <;> rfl

/-! ## Translations that a `TLBINV` names (R353) -/

/-- What a `TLBINV` names. -/
theorem invNames_iff (m : TlbMode) (asid : BitVec 16) (page : W64) (world : Bool) (a : BitVec 16) (w : Bool) (lo n : Nat) :
    State.invNames m asid page world a w lo n = true ↔ (m = .all ∧ w = world) ∨ (m = .asid ∧ a = asid) ∨
      (m = .page ∧ a = asid ∧ lo ≤ page.toNat ∧ page.toNat < lo + n) := by
  cases m <;> simp [State.invNames, and_assoc]

theorem invalidate_tlb (s : State) (m : TlbMode) (asid : BitVec 16) (page : W64) (world : Bool) (e : TlbEnt) :
    e ∈ (s.invalidate m asid page world).tlb ↔ e ∈ s.tlb ∧ ¬((m = .all ∧ e.world = world) ∨ (m = .asid ∧ e.asid = asid) ∨
      (m = .page ∧ e.asid = asid ∧ e.page ≤ page.toNat ∧ page.toNat < e.page + e.size)) := by
  rw [← invNames_iff]
  unfold State.invalidate
  simp only [List.mem_filter, Bool.not_eq_true', List.contains_eq_mem, decide_eq_false_iff_not, not_and]
  exact and_congr_right fun he => ⟨fun h => h he, fun h _ => h⟩

theorem invalidate_tabs (s : State) (m : TlbMode) (asid : BitVec 16) (page : W64) (world : Bool) {e : TabEnt}
    (he : e ∈ (s.invalidate m asid page world).tabs) :
    e ∈ s.tabs ∧ ¬((m = .all ∧ e.world = world) ∨ (m ≠ .all ∧ e.asid = asid)) := by
  obtain ⟨hm, hp⟩ := List.mem_filter.1 he
  refine ⟨hm, ?_⟩
  cases m <;> simpa using hp

theorem invalidate_codes (s : State) (m : TlbMode) (asid : BitVec 16) (page : W64) (world : Bool) {e : CodeEnt}
    (he : e ∈ (s.invalidate m asid page world).codes) :
    e ∈ s.codes ∧ ¬((m = .all ∧ e.world = world) ∨ (m = .asid ∧ e.asid = asid) ∨
      (m = .page ∧ e.asid = asid ∧ e.va / 4096 * 4096 ≤ page.toNat ∧ page.toNat < e.va / 4096 * 4096 + 4096)) := by
  obtain ⟨hm, hp⟩ := List.mem_filter.1 he
  rw [← invNames_iff]
  dsimp only at hp
  rw [Bool.not_eq_true', Bool.or_eq_false_iff] at hp
  exact ⟨hm, by rw [hp.1]; decide⟩

/-! ## TRAP_DELIVERY (R160, R379) -/

/-- While an operation is outstanding the trap waits. -/
theorem trapDelivery_waits {s : State} {t : Nat} {i : TrapInfo} (hh : s.hole = false) (ht : (s.thr t).stat = .trapWait i)
    (ho : s.hasOps t = true) : exec (.trapDelivery t) s = .next s := by
  rw [exec_trapDelivery]
  unfold execTrapDelivery
  rw [ht]
  dsimp only
  rw [if_pos ho]
  exact out_next hh

/-- A trap that finds a handler is delivered (R379). -/
theorem deliver_eq {s : State} {t : Nat} (i : TrapInfo) (ho : s.hasOps t = false) (hn : (s.thr t).handler = none)
    (hv : (s.grpRes (threadGroup t)).trapvec ≠ 0) : s.deliver t i = s.setThr t (s.entering t i) := by
  have vec : ((s.grpRes (threadGroup t)).trapvec == 0#48) = false := by simpa using hv
  unfold State.deliver State.entering
  dsimp only
  rw [hn, vec, ho]
  rfl

theorem trapDelivery_delivers {s : State} {t : Nat} {i : TrapInfo} (hh : s.hole = false) (ht : (s.thr t).stat = .trapWait i)
    (ho : s.hasOps t = false) (hn : (s.thr t).handler = none) (hv : (s.grpRes (threadGroup t)).trapvec ≠ 0) :
    exec (.trapDelivery t) s = .next (s.setThr t (s.entering t i)) := by
  rw [exec_trapDelivery]
  unfold execTrapDelivery
  rw [ht]
  dsimp only
  rw [if_neg (by rw [ho]; decide), deliver_eq i ho hn hv]
  exact out_next hh

/-! ## Barrier registers (R118, R245) -/

theorem lanesOf_inj {a b : BitVec 32} (h : ∀ i, i ∈ lanesOf a ↔ i ∈ lanesOf b) : a = b := by
  refine BitVec.eq_of_getLsbD_eq fun i hi => ?_
  have := h i
  rw [mem_lanesOf, mem_lanesOf, and_congr_right_iff] at this
  exact Bool.eq_iff_iff.2 (this hi)

theorem maskOf_lanesOf (m : BitVec 32) : maskOf (lanesOf m) = m :=
  lanesOf_inj fun _ => mem_lanesOf_maskOf fun _ hj => (mem_lanesOf.1 hj).1

theorem bar_setBar_same (s : State) (g : Nat) (n : Bar) (y : Barrier) : (s.setBar g n y).bar g n = y := by
  cases n with
  | nb i =>
    show mget Barrier.zero ((s.setWg (s.grp g).wg _).wg (s.grp g).wg).nb i.toNat = y
    rw [State.wg_setWg_same, mget_mset_same]
  | kb i =>
    show mget Barrier.zero ((s.setCl (coreCluster (groupCore g)) _).cl (coreCluster (groupCore g))).kb i.toNat = y
    rw [State.cl_setCl_same, mget_mset_same]

/-- A barrier register that is another one, or of groups that do not share it, stays. -/
theorem bar_setBar_other (s : State) {g h : Nat} {n m : Bar} (y : Barrier) (hm : m ≠ n ∨ ¬SameBar s n g h) :
    (s.setBar g n y).bar h m = s.bar h m := by
  cases n with
  | nb i =>
    cases m with
    | nb j =>
      show mget Barrier.zero ((s.setWg (s.grp g).wg _).wg (s.grp h).wg).nb j.toNat = mget Barrier.zero (s.wg (s.grp h).wg).nb j.toNat
      rw [State.wg_setWg]
      split
      · next e =>
        have hij : j.toNat ≠ i.toNat := fun hij => hm.elim (fun ne => ne (congrArg Bar.nb (BitVec.eq_of_toNat_eq hij))) fun no => no e.symm
        rw [mget_mset_other _ _ _ hij, e]
        rfl
      · rfl
    | kb j => rfl
  | kb i =>
    cases m with
    | nb j => rfl
    | kb j =>
      show mget Barrier.zero ((s.setCl (coreCluster (groupCore g)) _).cl (coreCluster (groupCore h))).kb j.toNat =
        mget Barrier.zero (s.cl (coreCluster (groupCore h))).kb j.toNat
      rw [State.cl_setCl]
      split
      · next e =>
        have hij : j.toNat ≠ i.toNat := fun hij => hm.elim (fun ne => ne (congrArg Bar.kb (BitVec.eq_of_toNat_eq hij))) fun no => no e.symm
        rw [mget_mset_other _ _ _ hij, e]
      · rfl

theorem setBar_eq (s : State) (g : Nat) (n : Bar) (y : Barrier) :
    s.setBar g n y = { s with wgs := (s.setBar g n y).wgs, clusters := (s.setBar g n y).clusters } := by
  cases n <;> rfl

theorem setBar_barPlace (s : State) (g : Nat) (n : Bar) (y : Barrier) : (s.setBar g n y).barPlace g n = s.barPlace g n := by
  cases n <;> rfl

/-- What the arrivals and the round leave: the register and what is known of the writes. -/
theorem arrived_eq (s : State) (g : Nat) (n : Bar) (y : Barrier) (who : List Holder) :
    arrived s g n y who = { s.setBar g n y with writes := (arrived s g n y who).writes } := by
  have came : ∀ (f : State → Holder → State) (_ : ∀ v h, f v h = { v with writes := (f v h).writes }),
      (who.foldl f s).setBar g n y = { s.setBar g n y with writes := ((who.foldl f s).setBar g n y).writes } := by
    intro f hf
    rw [State.foldl_writes_eq f hf]
    cases n <;> rfl
  unfold arrived State.roundOver State.arrivalOf
  dsimp only
  split
  · exact came _ fun v h => State.pass_eq v h _ _
  · rw [State.pass_eq, came _ fun v h => State.pass_eq v h _ _]

/-- A barrier register has taken a value, and where its parity turned the round is over; its waiters do not know it yet. -/
def barSet (s : State) (g : Nat) (n : Bar) (y : Barrier) : State :=
  if y.parity = (s.bar g n).parity then s.setBar g n y else (s.setBar g n y).roundOver (s.barPlace g n)

theorem updBar_eq (s : State) (g : Nat) (n : Bar) (f : Barrier → Barrier) :
    s.updBar g n f = State.wakeBar g n (barSet s g n (f (s.bar g n))) (barSet s g n (f (s.bar g n))).sleepers := by
  unfold State.updBar barSet
  dsimp only
  rw [bar_setBar_same, setBar_barPlace]

/-- One arrival of an engine command on a barrier register. -/
theorem arriveBar_op (s : State) (g : Nat) (n : Bar) (id : Nat) : s.arriveBar g n [.op id] =
    State.wakeBar g n (arrived s g n (s.bar g n).arrive [.op id]) (arrived s g n (s.bar g n).arrive [.op id]).sleepers := by
  have came := State.pass_eq s (.op id) (.round (s.barPlace g n) false) []
  have value : (s.arrivalOf (s.barPlace g n) (.op id) []).bar g n = s.bar g n := by
    unfold State.arrivalOf
    rw [came]
    cases n <;> rfl
  have place : (s.arrivalOf (s.barPlace g n) (.op id) []).barPlace g n = s.barPlace g n := by
    unfold State.arrivalOf
    rw [came]
    cases n <;> rfl
  have set : ∀ y, barSet (s.arrivalOf (s.barPlace g n) (.op id) []) g n y = arrived s g n y [.op id] := by
    intro y
    unfold barSet
    rw [value, place]
    rfl
  show (s.arrivalOf (s.barPlace g n) (.op id) []).updBar g n Barrier.arrive = _
  rw [updBar_eq, value, set]

/-- A round completes where the count reaches a nonzero expected count (R245). -/
theorem round_eq (x : Barrier) : x.round = roundOf x.count.toNat x.expected.toNat x.parity := by
  have due : (x.expected ≠ 0#16 ∧ x.expected ≤ x.count) ↔ 0 < x.expected.toNat ∧ x.expected.toNat ≤ x.count.toNat := by
    rw [Nat.pos_iff_ne_zero, ne_eq, ne_eq, ← BitVec.toNat_inj]
    exact Iff.rfl
  unfold Barrier.round roundOf
  by_cases h : x.expected ≠ 0#16 ∧ x.expected ≤ x.count
  · rw [if_pos h, if_pos (due.1 h), BitVec.ofNat_toNat, BitVec.setWidth_eq]
    congr 1
    apply BitVec.eq_of_toNat_eq
    rw [BitVec.toNat_sub_of_le h.2, BitVec.toNat_ofNat]
    omega
  · rw [if_neg h, if_neg (mt due.2 h), BitVec.ofNat_toNat, BitVec.ofNat_toNat, BitVec.setWidth_eq, BitVec.setWidth_eq]

/-- An arrival, saturating, and the round that it may complete (R245). -/
theorem arrive_eq (x : Barrier) : x.arrive = roundOf (min (x.count.toNat + 1) 65535) x.expected.toNat x.parity := by
  have count : (if x.count = 0xFFFF#16 then x.count else x.count + 1).toNat = min (x.count.toNat + 1) 65535 := by
    split
    · next h => rw [h]; rfl
    · next h =>
      have : x.count.toNat ≠ 65535 := fun e => h (BitVec.eq_of_toNat_eq e)
      bv_omega
  unfold Barrier.arrive
  rw [round_eq, count]

/-! ## Waking the threads at `BARW` (R245) -/

/-- Acquiring what a round released changes what is known of the writes. -/
theorem waited_fold_eq (place : State → Nat) (t : Nat → Nat) (sc : BitVec 4) (l : List Nat) (s : State) :
    l.foldl (fun s i => s.waited (place s) (t i) sc) s =
      { s with writes := (l.foldl (fun s i => s.waited (place s) (t i) sc) s).writes } :=
  State.foldl_writes_eq _ (fun s _ => State.pass_eq s _ _ _) l s

/-- The lanes of a wait whose parity differs from the register's. -/
def turnedLanes (s : State) (z : Sleeper) (n : Bar) (par : Bool) : List Nat :=
  (lanesOf z.lanes).filter fun i => mget false (s.thr (tid z.group i)).parity (barKey n) != par

/-- Lanes of a wait at `BARW` go on with the register's parity. -/
def turnedOn (s : State) (g : Nat) (n : Bar) (z : Sleeper) (m : BitVec 32) : State :=
  (s.wake z m).modLanes z.group m fun x => { x with parity := mset false x.parity (barKey n) (s.bar g n).parity }

/-- They acquire what the round released. -/
def wakeTurned (s : State) (g : Nat) (n : Bar) (z : Sleeper) (m : BitVec 32) : State :=
  (lanesOf m).foldl (fun v i => v.waited (v.barPlace g n) (tid z.group i) (barScope n)) (turnedOn s g n z m)

theorem turnedOn_eq (s : State) (g : Nat) (n : Bar) (z : Sleeper) (m : BitVec 32) : turnedOn s g n z m = { s with
    threads := (turnedOn s g n z m).threads, sleepers := (s.wake z m).sleepers } := by
  have e : turnedOn s g n z m = { s.wake z m with threads := (turnedOn s g n z m).threads } := State.modLanes_keeps ..
  rw [e, State.wake_keeps]

theorem wakeTurned_eq (s : State) (g : Nat) (n : Bar) (z : Sleeper) (m : BitVec 32) : wakeTurned s g n z m = { s with
    threads := (turnedOn s g n z m).threads, sleepers := (s.wake z m).sleepers, writes := (wakeTurned s g n z m).writes } := by
  have e : wakeTurned s g n z m = { turnedOn s g n z m with writes := (wakeTurned s g n z m).writes } :=
    waited_fold_eq (·.barPlace g n) (tid z.group) (barScope n) ..
  rw [e, turnedOn_eq]

/-- Whether a wait is at a barrier register as a group sees it. -/
def WaitsAt (s : State) (g : Nat) (n : Bar) (z : Sleeper) : Prop := z.kind = .barw n ∧ SameBar s n z.group g

theorem wakeBar_cons {s : State} {g : Nat} {n : Bar} {z : Sleeper} (l : List Sleeper) (h : WaitsAt s g n z) :
    State.wakeBar g n s (z :: l) =
      if maskOf (turnedLanes s z n (s.bar g n).parity) = 0#32 then State.wakeBar g n s l
      else State.wakeBar g n (wakeTurned s g n z (maskOf (turnedLanes s z n (s.bar g n).parity))) l := by
  obtain ⟨kind, same⟩ := h
  conv_lhs => unfold State.wakeBar
  rw [if_pos]
  · rfl
  · rw [decide_eq_true kind]
    cases n with
    | nb i => exact beq_iff_eq.2 same
    | kb i => exact beq_iff_eq.2 same

theorem wakeBar_cons_other {s : State} {g : Nat} {n : Bar} {z : Sleeper} (l : List Sleeper) (h : ¬WaitsAt s g n z) :
    State.wakeBar g n s (z :: l) = State.wakeBar g n s l := by
  conv_lhs => unfold State.wakeBar
  rw [if_neg]
  rw [Bool.and_eq_true, decide_eq_true_eq]
  rintro ⟨kind, same⟩
  refine h ⟨kind, ?_⟩
  cases n with
  | nb i => exact beq_iff_eq.1 same
  | kb i => exact beq_iff_eq.1 same

/-- What waking the waiters of a barrier register leaves alone. -/
theorem wakeBar_eq (g : Nat) (n : Bar) (l : List Sleeper) (s : State) : State.wakeBar g n s l = { s with
    threads := (State.wakeBar g n s l).threads, sleepers := (State.wakeBar g n s l).sleepers, writes := (State.wakeBar g n s l).writes } := by
  induction l generalizing s with
  | nil => rfl
  | cons z l ih =>
    by_cases h : WaitsAt s g n z
    · rw [wakeBar_cons l h]
      split
      · exact ih s
      · rw [ih, wakeTurned_eq]
    · rw [wakeBar_cons_other l h]
      exact ih s

/-- Where nobody waits at a barrier register nobody wakes. -/
theorem wakeBar_none {g : Nat} {n : Bar} {l : List Sleeper} (h : ∀ z ∈ l, z.kind ≠ .barw n) (s : State) : State.wakeBar g n s l = s := by
  induction l with
  | nil => rfl
  | cons z l ih =>
    rw [wakeBar_cons_other l fun hm => h z List.mem_cons_self hm.1]
    exact ih fun y hy => h y (List.mem_cons_of_mem _ hy)

/-! ## A barrier register takes a value (R245) -/

section
variable {z : Sleeper} (hz : isBow (groupCore z.group) = true → z.lanes = 1#32)
include hz

/-- The lanes of a wait that wake are distinct threads. -/
theorem turned_oneOfBow {s : State} {n : Bar} {par : Bool} (hm : maskOf (turnedLanes s z n par) ≠ 0#32) :
    OneOfBow z.group (maskOf (turnedLanes s z n par)) := by
  intro hb
  have lanes : turnedLanes s z n par = [0] ∨ turnedLanes s z n par = [] := by
    unfold turnedLanes
    rw [hz hb, lanesOf_one, List.filter_singleton, Bool.cond_eq_ite]
    split
    · exact .inl rfl
    · exact .inr rfl
  rcases lanes with e | e
  · rw [e]; rfl
  · rw [e] at hm
    exact absurd rfl hm

end

theorem mem_turned {s : State} {z : Sleeper} {n : Bar} {par : Bool} {l : Nat} : l ∈ lanesOf (maskOf (turnedLanes s z n par)) ↔
    l ∈ lanesOf z.lanes ∧ (mget false (s.thr (tid z.group l)).parity (barKey n) != par) = true := by
  unfold turnedLanes
  rw [mem_lanesOf_maskOf fun j hj => (mem_lanesOf.1 (List.mem_of_mem_filter hj)).1, List.mem_filter]

/-- A lane that wakes goes on with the register's parity. -/
theorem wakeTurned_lane {s : State} {g : Nat} {n : Bar} {z : Sleeper} {m : BitVec 32} (h : OneOfBow z.group m) {l : Nat}
    (hl : l ∈ lanesOf m) : (wakeTurned s g n z m).thr (tid z.group l) =
      { woken s z (s.thr (tid z.group l)) with
        parity := mset false (s.thr (tid z.group l)).parity (barKey n) (s.bar g n).parity } := by
  have awake : (s.wake z m).thr (tid z.group l) = woken s z (s.thr (tid z.group l)) := wake_all (z := { z with lanes := m }) h hl
  have parity : (woken s z (s.thr (tid z.group l))).parity = (s.thr (tid z.group l)).parity := by
    unfold woken
    split <;> rfl
  rw [wakeTurned_eq]
  refine (lanesMod_lane h (fun _ x => { x with parity := mset false x.parity (barKey n) (s.bar g n).parity }) _ hl).trans ?_
  rw [awake, parity]

theorem wakeTurned_other {s : State} {g : Nat} {n : Bar} {z : Sleeper} {m : BitVec 32} {t : Nat} (h : ∀ l ∈ lanesOf m, t ≠ tid z.group l) :
    (wakeTurned s g n z m).thr t = s.thr t := by
  rw [wakeTurned_eq]
  exact (State.modLanes_thr_other _ _ _ _ _ h).trans (State.wake_thr_other _ _ _ _ h)

/-- The one wait at a barrier register, once its lanes have woken whose parity differs. -/
theorem wakeBar_one {s : State} {g : Nat} {n : Bar} {z : Sleeper} (h : WaitsAt s g n z)
    (hz : isBow (groupCore z.group) = true → z.lanes = 1#32) (hs : s.sleepers = [z]) :
    let turned := fun l => mget false (s.thr (tid z.group l)).parity (barKey n) != (s.bar g n).parity
    let u := State.wakeBar g n s [z]
    (∀ l ∈ lanesOf z.lanes, u.thr (tid z.group l) = if turned l
      then { woken s z (s.thr (tid z.group l)) with parity := mset false (s.thr (tid z.group l)).parity (barKey n) (s.bar g n).parity }
      else s.thr (tid z.group l)) ∧
    (∀ t, (∀ l ∈ lanesOf z.lanes, t ≠ tid z.group l) → u.thr t = s.thr t) ∧
    (z.lanes ≠ 0 → (∀ l ∈ lanesOf z.lanes, turned l = true) → u.sleepers = []) ∧
    ((∀ l ∈ lanesOf z.lanes, turned l = false) → u.sleepers = [z]) := by
  intro turned u
  let m := maskOf (turnedLanes s z n (s.bar g n).parity)
  have mem : ∀ l, l ∈ lanesOf m ↔ l ∈ lanesOf z.lanes ∧ turned l = true := fun l => mem_turned
  have some_turned : (∃ l ∈ lanesOf z.lanes, turned l = true) → m ≠ 0#32 := fun ⟨l, hl, ht⟩ e => by
    have := (mem l).2 ⟨hl, ht⟩
    rw [e] at this
    simp [mem_lanesOf] at this
  by_cases hm : m = 0#32
  · have hu : u = s := (wakeBar_cons [] h).trans (if_pos hm)
    have none_turned : ∀ l ∈ lanesOf z.lanes, turned l = false := fun l hl => by
      by_contra ht
      exact some_turned ⟨l, hl, by simpa using ht⟩ hm
    rw [hu]
    refine ⟨fun l hl => ?_, fun _ _ => rfl, fun hne all => ?_, fun _ => hs⟩
    · rw [none_turned l hl]; rfl
    · refine absurd (lanesOf_inj fun l => ?_) hne
      rw [show lanesOf 0 = [] from by decide]
      exact ⟨fun hl => absurd (all l hl) (by rw [none_turned l hl]; decide), fun hl => absurd hl List.not_mem_nil⟩
  · have hu : u = wakeTurned s g n z m := (wakeBar_cons [] h).trans (if_neg hm)
    have one : OneOfBow z.group m := turned_oneOfBow hz hm
    rw [hu]
    refine ⟨fun l hl => ?_, fun t ht => wakeTurned_other fun l hl => ht l ((mem l).1 hl).1, fun _ all => ?_, fun none => ?_⟩
    · by_cases ht : turned l = true
      · rw [if_pos ht]
        exact wakeTurned_lane one ((mem l).2 ⟨hl, ht⟩)
      · rw [if_neg ht]
        refine wakeTurned_other fun j hj e => ht ?_
        have : l = j := wait_inj (m := z.lanes) hz hl ((mem j).1 hj).1 e
        rw [this]
        exact ((mem j).1 hj).2
    · have whole : m = z.lanes := lanesOf_inj fun l => (mem l).trans ⟨fun h => h.1, fun h => ⟨h, all l h⟩⟩
      have before : (s.decCtr z.group z.lanes z.ctr).sleepers = s.sleepers := by rw [State.decCtr_keeps]
      rw [wakeTurned_eq, whole]
      show (s.wake z z.lanes).sleepers = []
      unfold State.wake
      dsimp only
      rw [if_pos (by simp), State.modLanes_keeps]
      dsimp only
      rw [before, hs]
      simp
    · refine absurd (lanesOf_inj fun l => (mem l).trans ⟨fun hl => ?_, fun hl => ?_⟩) hm
      · rw [none l hl.1] at hl
        exact absurd hl.2 (by decide)
      · simp [mem_lanesOf] at hl

/-- After some arrivals a barrier register takes a value, and its waiters wake (R245). -/
theorem wakeBar_takes (s : State) (g : Nat) (n : Bar) (y : Barrier) (who : List Holder) :
    BarTakes s (State.wakeBar g n (arrived s g n y who) (arrived s g n y who).sleepers) g n y who := by
  let a := arrived s g n y who
  let u := State.wakeBar g n a a.sleepers
  have ha : a = { s.setBar g n y with writes := a.writes } := arrived_eq s g n y who
  have hu : u = { a with threads := u.threads, sleepers := u.sleepers, writes := u.writes } := wakeBar_eq g n a.sleepers a
  have bar : ∀ h m, u.bar h m = (s.setBar g n y).bar h m := fun h m => by
    rw [hu, ha]
    cases m <;> rfl
  have abar : a.bar g n = y := by
    rw [ha]
    exact Eq.trans (by cases n <;> rfl) (bar_setBar_same s g n y)
  have same : ∀ t, a.thr t = s.thr t := fun t => by
    rw [ha, setBar_eq]
    rfl
  have sleepers : a.sleepers = s.sleepers := by rw [ha, setBar_eq]
  have cycle : a.cycle = s.cycle := by rw [ha, setBar_eq]
  have awake : ∀ z x, woken a z x = woken s z x := fun z x => by
    unfold woken
    rw [cycle]
  have shared : ∀ h, SameBar a n h g ↔ SameBar s n h g := fun h => by
    rw [ha, setBar_eq]
    cases n <;> exact Iff.rfl
  refine ⟨(bar g n).trans (bar_setBar_same ..), ?_, ?_, fun h m hm => (bar h m).trans (bar_setBar_other s y hm), fun none => ?_,
    fun z hz kind meets one => ?_⟩
  · show u.mem = s.mem
    rw [hu, ha, setBar_eq]
  · show u.sp = s.sp
    rw [hu, ha, setBar_eq]
  · exact wakeBar_none (sleepers ▸ none) a
  · have key := wakeBar_one (s := a) ⟨kind, (shared _).2 meets⟩ one (sleepers.trans hz)
    simp only [same, abar, awake] at key
    rw [show a.sleepers = [z] from sleepers.trans hz]
    exact key

/-- What a barrier register leaves does not depend on the number of the next write. -/
theorem arrived_op_seq (s : State) (g : Nat) (n : Bar) (y : Barrier) (id k : Nat) :
    arrived { s with seq := k } g n y [.op id] = { arrived s g n y [.op id] with seq := k } := by
  have pass : ∀ (v : State) a b l, ({ v with seq := k } : State).pass a b l = { v.pass a b l with seq := k } := by
    intro v a b l
    have same := State.pass_congr (s := v) (u := { v with seq := k }) a b l rfl ⟨rfl, rfl, fun _ => rfl⟩
    rw [State.pass_eq { v with seq := k }, same, State.pass_eq v]
  have set : ∀ v : State, ({ v with seq := k } : State).setBar g n y = { v.setBar g n y with seq := k } := fun v => by cases n <;> rfl
  have came : ∀ place, (({ s with seq := k } : State).pass (.op id) (.round place false) []).setBar g n y =
      { (s.pass (.op id) (.round place false) []).setBar g n y with seq := k } := fun place => by rw [pass, set]
  have turn : ∀ (u : State), (if y.parity = (s.bar g n).parity then ({ u with seq := k } : State) else
      ({ u with seq := k } : State).roundOver (s.barPlace g n)) =
      { (if y.parity = (s.bar g n).parity then u else u.roundOver (s.barPlace g n)) with seq := k } := fun u => by
    split
    · rfl
    · exact pass u _ _ _
  exact (congrArg (fun u : State => if y.parity = (s.bar g n).parity then u else u.roundOver (s.barPlace g n)) (came (s.barPlace g n))).trans
    (turn _)

/-- A barrier register takes a value whatever the number of the next write is. -/
theorem BarTakes.seq {s u : State} {g : Nat} {n : Bar} {y : Barrier} {id : Nat} (h : BarTakes s u g n y [.op id]) (k : Nat) :
    BarTakes { s with seq := k } { u with seq := k } g n y [.op id] where
  value := h.value
  mem := h.mem
  sp := h.sp
  others := h.others
  quiet none := by rw [arrived_op_seq, h.quiet none]
  waiter := h.waiter

/-! ## What an engine command reads (R72, R114, R116–R119) -/

/-- A transfer that reads as a command of a cluster's engine does. -/
def readerOf (id c : Nat) : Xfer :=
  ⟨id, 0, 0, [], 0, false, false, 0, .b8, none, 0, .mg, 0, false, .arrived, 0, 0, [], c, [], false, false, 0, none, none⟩

theorem opBytes_eq (s : State) (id c : Nat) (space : Space) (kind : Nat) (spots : List Nat) :
    s.opBytes id c space kind spots = (laneGot s (readerOf id c) space kind spots).map (·.2.1) := by
  unfold State.opBytes laneGot
  split
  · rw [List.map_map]
    rfl
  · rfl

/-- The bytes that a command reads at a place of memory. -/
theorem opBytes_finds {s : State} {id c n j : Nat} {q : Phys} {x : Byte}
    (h : (s.opBytes id c .mem q.kind (State.spots q n))[j]? = some x) : FindsOp s id c .mem q.kind (q.at j) x.toNat := by
  rw [opBytes_eq] at h
  obtain ⟨A, hA, found⟩ := laneGot_bytes h
  rwa [← range_map_get hA] at found

theorem opBytes_length (s : State) (id c : Nat) (space : Space) (kind : Nat) (spots : List Nat) :
    (s.opBytes id c space kind spots).length = spots.length := by
  rw [opBytes_eq]
  exact laneGot_length ..

theorem leBytes_zero {n : Nat} {x : Byte} (h : x ∈ leBytes 0 n) : x = 0 := by
  induction n with
  | zero => exact absurd h List.not_mem_nil
  | succ n ih =>
    rcases List.mem_cons.1 h with h | h
    · exact h
    · exact ih h

/-! ## Loads into the scratchpad (R239) -/

/-- Moves of a load have written the scratchpad, opened rows and recorded their writes. -/
structure Loading (s u : State) : Prop where
  kept : u = { s with sp := u.sp, slices := u.slices, writes := u.writes, seq := u.seq }
  recorded : ∀ r ∈ u.writes, r.space ≠ .sp → r ∈ s.writes

theorem Loading.refl (s : State) : Loading s s := ⟨rfl, fun _ h _ => h⟩

theorem Loading.trans {s u v : State} (h : Loading s u) (h' : Loading u v) : Loading s v :=
  ⟨by rw [h'.kept, h.kept], fun r hr hs => h.recorded r (h'.recorded r hr hs) hs⟩

theorem Loading.noneAsleep {s u : State} (h : Loading s u) (hs : NoneAsleepSp s) : NoneAsleepSp u := by
  rw [h.kept]
  exact hs

/-- What a command finds in memory between its moves, it could find before them. -/
theorem Loading.finds {s u : State} (h : Loading s u) {id c kind A b : Nat} (hf : FindsOp u id c .mem kind A b) :
    FindsOp s id c .mem kind A b := by
  obtain ⟨now, old⟩ := hf
  have byte : u.byteOf .mem A = s.byteOf .mem A := by rw [h.kept]; rfl
  have knows : ∀ r, u.knowsOp id c kind r = s.knowsOp id c kind r := fun r => by rw [h.kept]; rfl
  have before : ∀ r ∈ u.writes, Covers r .mem A → r ∈ s.writes := fun r hr hc => h.recorded r hr (by rw [hc.1]; decide)
  rw [byte] at now old
  exact ⟨fun hk => now fun r hr hc => (knows r).trans (hk r (before r hr hc) hc),
    old.imp_right fun ⟨r, hr, hc, hb⟩ => ⟨r, before r hr hc, hc, hb⟩⟩

/-- Reading opens rows. -/
theorem touchAll_loading (s : State) (l : List Nat) : Loading s (s.touchAll l) := by
  refine State.foldl_keeps (Loading s) _ _ _ (.refl s) fun u hu b _ => hu.trans ?_
  unfold State.touch
  split
  · exact .refl u
  · dsimp only
    split
    · exact .refl u
    · exact ⟨rfl, fun _ h _ => h⟩

/-- A write of the scratchpad that wakes nobody. -/
theorem spPutBy_loading {s : State} (hs : NoneAsleepSp s) (a : Nat) (also : List Known) (k : Nat) (b : List Byte) :
    Loading s (s.spPutBy a also none none k b) := by
  let r := s.record .sp 0 a also none none (State.halves k (Memory.bytes s.sp k b.length))
  have kept := State.record_eq s .sp 0 a also none none (State.halves k (Memory.bytes s.sp k b.length))
  have put : s.spPutBy a also none none k b = { r with sp := Memory.put s.sp k b } := by
    unfold State.spPutBy State.spPut
    dsimp only
    rw [wakeSp_none]
    · rw [State.record_sp]
    · show ∀ z ∈ r.sleepers, _
      rw [show r.sleepers = s.sleepers from (congrArg State.sleepers kept : _)]
      exact hs
  have writes : ∀ w ∈ r.writes, w.space ≠ .sp → w ∈ s.writes := fun w hw hn => by
    rcases List.mem_append.1 hw with hw | hw
    · exact hw
    · obtain ⟨_, _, rfl⟩ := List.mem_map.1 hw
      exact absurd rfl hn
  rw [put]
  exact ⟨congrArg (fun u : State => { u with sp := Memory.put s.sp k b }) kept, writes⟩

/-- A byte that a load's move delivers: zero for none, otherwise what its command finds (R239). -/
def Delivers (s : State) (id c j : Nat) (x : Byte) : Option Phys → Prop
  | none => x = 0
  | some q => FindsOp s id c .mem q.kind (q.at j) x.toNat

/-- One move of a load. -/
theorem ldxMoves_cons (id c w : Nat) (e : Nat × Option Phys × Nat) (l : List (Nat × Option Phys × Nat)) {s v : State} (h : Loading s v)
    (hs : NoneAsleepSp s) : ∃ (b : List Byte) (u : State), ldxMoves id c w (e :: l) v = ldxMoves id c w l u ∧ Loading s u ∧
      u.sp = Memory.put v.sp e.1 b ∧ b.length = w ∧ ∀ j x, b[j]? = some x → Delivers s id c j x e.2.1 := by
  obtain ⟨k, p, m⟩ := e
  cases p with
  | none =>
    refine ⟨leBytes 0 w, v.spPutBy (200000 + c) (State.opKnown id) none none k (leBytes 0 w), rfl,
      h.trans (spPutBy_loading (h.noneAsleep hs) ..), State.spPutBy_sp .., leBytes_length .., fun j x hx => leBytes_zero (List.mem_of_getElem? hx)⟩
  | some q =>
    have touched := h.trans (touchAll_loading v (State.spots q w))
    refine ⟨v.opBytes id c .mem q.kind (State.spots q w), (v.touchAll (State.spots q w)).spPutBy (200000 + c) (State.opKnown id) none none k
      (v.opBytes id c .mem q.kind (State.spots q w)), rfl, touched.trans (spPutBy_loading (touched.noneAsleep hs) ..), ?_, ?_,
      fun j x hx => h.finds (opBytes_finds hx)⟩
    · rw [State.spPutBy_sp, State.touchAll_sp]
    · rw [opBytes_length]
      simp [State.spots]

/-- THE MOVES OF A LOAD (R239): each element takes what it delivers, and the rest of the scratchpad stays. -/
theorem ldxMoves_load (id c w : Nat) (moves : List (Nat × Option Phys × Nat)) {s v : State} (h : Loading s v) (hs : NoneAsleepSp s) :
    Loading s (ldxMoves id c w moves v) ∧
    (∀ A, (∀ e ∈ moves, A < e.1 ∨ e.1 + w ≤ A) → Memory.byte (ldxMoves id c w moves v).sp A = Memory.byte v.sp A) ∧
    (Apart (moves.map fun e => (e.1, w)) → ∀ e ∈ moves, ∀ j < w,
      Delivers s id c j (Memory.byte (ldxMoves id c w moves v).sp (e.1 + j)) e.2.1) := by
  induction moves generalizing v with
  | nil => exact ⟨h, fun _ _ => rfl, fun _ _ he => absurd he List.not_mem_nil⟩
  | cons e l ih =>
    obtain ⟨b, u, step, hu, sp, len, found⟩ := ldxMoves_cons id c w e l h hs
    obtain ⟨loads, outside, inside⟩ := ih hu
    rw [step]
    refine ⟨loads, fun A hA => ?_, fun apart e' he' j hj => ?_⟩
    · rw [outside A fun e' he' => hA e' (List.mem_cons_of_mem _ he'), sp]
      exact Memory.byte_put_outside _ _ _ _ (len ▸ hA e List.mem_cons_self)
    · obtain ⟨first, rest⟩ := List.pairwise_cons.1 apart
      rcases List.mem_cons.1 he' with rfl | he'
      · have clear : ∀ e'' ∈ l, e'.1 + j < e''.1 ∨ e''.1 + w ≤ e'.1 + j := fun e'' he'' => by
          have := first (e''.1, w) (List.mem_map_of_mem he'')
          dsimp only at this
          omega
        have hb : j < b.length := len ▸ hj
        rw [outside _ clear, sp, Memory.byte_put_inside _ _ _ _ hb]
        exact found j _ (List.getElem?_eq_getElem hb)
      · exact inside rest e' he' j hj

/-! ## LDX_COMPLETION (R239) -/

/-- A property of threads that a change of lanes keeps. -/
theorem modLanes_all {P : Thread → Prop} {f : Thread → Thread} (hf : ∀ x, P x → P (f x)) {s : State} (h : ∀ t, P (s.thr t)) (g : Nat)
    (m : BitVec 32) : ∀ t, P ((s.modLanes g m f).thr t) :=
  State.foldl_keeps (fun u : State => ∀ t, P (u.thr t)) _ _ _ h fun u hu i _ t => by
    rw [State.thr_modThr]
    split
    · exact hf _ (hu _)
    · exact hu t

theorem wake_unhalted {s : State} (h : ∀ t, Unhalted (s.thr t)) (z : Sleeper) (m : BitVec 32) : ∀ t, Unhalted ((s.wake z m).thr t) := by
  have fell : ∀ t, Unhalted ((s.decCtr z.group m z.ctr).thr t) := by
    cases z.ctr with
    | none => exact h
    | some n => exact modLanes_all (f := fun x => x.decD n) (fun _ hx => hx) h _ _
  refine modLanes_all (P := Unhalted) (fun x hx => ?_) fell z.group m
  obtain ⟨halt, step⟩ := hx
  exact ⟨by dsimp only [Thread.goto]; rw [step, halt]; rfl, step⟩

/-- Waking the waiters of a barrier register halts nobody. -/
theorem wakeBar_unhalted (g : Nat) (n : Bar) (l : List Sleeper) {s : State} (h : ∀ t, Unhalted (s.thr t)) :
    ∀ t, Unhalted ((State.wakeBar g n s l).thr t) := by
  induction l generalizing s with
  | nil => exact h
  | cons z l ih =>
    by_cases hm : WaitsAt s g n z
    · rw [wakeBar_cons l hm]
      split
      · exact ih h
      · refine ih fun t => ?_
        rw [wakeTurned_eq]
        exact modLanes_all (P := Unhalted) (f := fun x => { x with parity := mset false x.parity (barKey n) (s.bar g n).parity })
          (fun _ hx => hx) (wake_unhalted h z _) _ _ t
    · rw [wakeBar_cons_other l hm]
      exact ih h

/-- An arrival of an engine command changes barrier registers, threads, waits and what is known of the writes. -/
theorem arriveBar_op_eq (s : State) (g : Nat) (n : Bar) (id : Nat) : s.arriveBar g n [.op id] = { s with
    wgs := (s.arriveBar g n [.op id]).wgs, clusters := (s.arriveBar g n [.op id]).clusters, threads := (s.arriveBar g n [.op id]).threads,
    sleepers := (s.arriveBar g n [.op id]).sleepers, writes := (s.arriveBar g n [.op id]).writes } := by
  rw [arriveBar_op, wakeBar_eq, arrived_eq, setBar_eq]

theorem arriveBar_op_quiet {s : State} (hq : Quiet s) (g : Nat) (n : Bar) (id : Nat) : Quiet (s.arriveBar g n [.op id]) where
  hole := by rw [arriveBar_op_eq]; exact hq.hole
  samples := by rw [arriveBar_op_eq]; exact hq.samples
  parks := by rw [arriveBar_op_eq]; exact hq.parks
  latent := by rw [arriveBar_op_eq]; exact hq.latent
  halts := by
    rw [arriveBar_op]
    refine wakeBar_unhalted g n _ fun t => ?_
    rw [arrived_eq, setBar_eq]
    exact hq.halts t

theorem arriveBar_op_takes (s : State) (g : Nat) (n : Bar) (id : Nat) : BarTakes s (s.arriveBar g n [.op id]) g n
    (roundOf (min ((s.bar g n).count.toNat + 1) 65535) (s.bar g n).expected.toNat (s.bar g n).parity) [.op id] := by
  rw [arriveBar_op, ← arrive_eq]
  exact wakeBar_takes ..

/-- The oldest load of its core moves what it has and arrives (R239). -/
theorem ldxCompletion_eq {s : State} {o : OutOp} (hf : (s.ops.find? fun x => x.id == o.id) = some o) (hj : s.joinsGone o.joins = true)
    {n : Bar} {w : Nat} {moves : List (Nat × Option Phys × Nat)} {core : Nat} (hk : o.kind = .ldx n w moves 0 core)
    (hold : ∀ x ∈ s.ops, ∀ a b d e k, x.kind = .ldx a b d e k → k = core → o.id ≤ x.id) : exec (.ldxCompletion o.id) s =
      (((ldxMoves o.id (coreCluster core) w moves (s.beginOp o)).arriveBar o.group n [.op o.id]).finishOp o.id).out := by
  have first : s.ldxFirst core o.id = true := by
    unfold State.ldxFirst
    rw [Bool.not_eq_true', List.any_eq_false]
    intro x hx
    split
    · next e =>
      rw [Bool.and_eq_true, beq_iff_eq, decide_eq_true_eq]
      rintro ⟨hc, lt⟩
      exact absurd (hold x hx _ _ _ _ _ e hc) (by omega)
    · decide
  rw [exec_ldxCompletion]
  unfold execLdxCompletion
  rw [hf]
  dsimp only
  rw [hk]
  dsimp only
  rw [first, hj, if_neg (by decide)]
  exact if_pos rfl

theorem ldxCompletion_ends {s : State} {o : OutOp} (hq : Quiet s) (hf : (s.ops.find? fun x => x.id == o.id) = some o)
    (ho : OneOfBow o.group o.lanes) (hj : s.joinsGone o.joins = true)
    {n : Bar} {w : Nat} {moves : List (Nat × Option Phys × Nat)} {core : Nat} (hk : o.kind = .ldx n w moves 0 core) (hs : NoneAsleepSp s)
    (hold : ∀ x ∈ s.ops, ∀ a b d e k, x.kind = .ldx a b d e k → k = core → o.id ≤ x.id) :
    ∃ s1 s2, s1 = { s with sp := s1.sp, slices := s1.slices, writes := s1.writes } ∧
      (∀ A, (∀ e ∈ moves, A < e.1 ∨ e.1 + w ≤ A) → Memory.byte s1.sp A = Memory.byte s.sp A) ∧
      (Apart (moves.map fun e => (e.1, w)) → ∀ e ∈ moves, ∀ j < w,
        Delivers (s.beginOp o) o.id (coreCluster core) j (Memory.byte s1.sp (e.1 + j)) e.2.1) ∧
      BarTakes s1 s2 o.group n (roundOf (min ((s.bar o.group n).count.toNat + 1) 65535) (s.bar o.group n).expected.toNat
        (s.bar o.group n).parity) [.op o.id] ∧
      ∃ u, exec (.ldxCompletion o.id) s = .next u ∧ OpEnds s2 u o := by
  let r := ldxMoves o.id (coreCluster core) w moves (s.beginOp o)
  let v := r.arriveBar o.group n [.op o.id]
  have begun := beginOp_eq s o
  have asleep : NoneAsleepSp (s.beginOp o) := by
    rw [begun]
    exact hs
  obtain ⟨loads, outside, inside⟩ := ldxMoves_load o.id (coreCluster core) w moves (.refl (s.beginOp o)) asleep
  have kept : r = { s with sp := r.sp, slices := r.slices, writes := r.writes, seq := r.seq } := by
    rw [show r = _ from loads.kept, begun]
  have quiet : Quiet v := arriveBar_op_quiet (by rw [kept]; exact ⟨hq.hole, hq.samples, hq.parks, hq.latent, hq.halts⟩) ..
  have ops : v.ops = s.ops := by rw [show v = _ from arriveBar_op_eq .., kept]
  have bar : r.bar o.group n = s.bar o.group n := by
    rw [kept]
    cases n <;> rfl
  have takes : BarTakes r v o.group n _ [.op o.id] := arriveBar_op_takes r o.group n o.id
  rw [bar] at takes
  refine ⟨{ r with seq := s.seq }, { v with seq := s.seq }, by rw [kept], fun A hA => (outside A hA).trans (by rw [begun]), inside,
    takes.seq s.seq, opEnded v o, ?_, ?_⟩
  · rw [ldxCompletion_eq hf hj hk hold, finishOp_quiet quiet (ops ▸ hf) ho]
    exact out_next (by rw [opEnded_eq]; exact quiet.hole)
  · have ends := opEnded_ends v ho
    exact ⟨ends.ops, ends.lanes, ends.others, ends.mem, ends.sp⟩

/-- Settles O45: each completion ends its operation in the state that its kind leaves, a load moves its elements and arrives, and a
trap that waited for operations enters its handler. -/
theorem operationsEnd : Obligations.OperationsEnd := by
  unfold Obligations.OperationsEnd
  refine ⟨fun s o hq hf ho hjoins => ?_, fun s t i hh ht => ⟨trapDelivery_waits hh ht, fun hn hd hv => ?_⟩⟩
  · have hj := joinsGone_of hjoins
    refine ⟨fun hd => ⟨plain_endsIn hq hf ho hj hd, fun l => fence_endsIn hq hf ho hj hd, fun w d r => brld_endsIn hq hf ho hj hd,
      fun w d e => cbld_endsIn hq hf ho hj hd, fun n x secure hk => ?_, fun m asid page world hk hh => ?_⟩, fun n w moves core hk hs hold => ?_⟩
    · have writes := fun (hn : n ≠ 0x011#12) (z : SysRegs) => syswr_endsIn (z := z) hq hf ho hj hd hk hn
      refine ⟨?_, ?_, ?_, ?_, ?_, ?_, fun k lt hn => ?_, ?_, ?_, ?_, fun hn => ?_, ?_⟩
      · rintro rfl
        exact writes (by decide) _ (by cases secure <;> rfl)
      · rintro rfl
        exact writes (by decide) _ rfl
      · rintro rfl
        exact writes (by decide) _ rfl
      · rintro rfl
        exact writes (by decide) _ rfl
      · rintro rfl
        exact writes (by decide) _ (sysWrite_arbw s secure x)
      · rintro rfl
        rw [← clampPeriod_eq]
        exact writes (by decide) _ rfl
      · refine writes (fun e => ?_) _ (hn ▸ sysWrite_ewgt s secure x lt)
        rw [e] at hn
        change 0x11 = _ at hn
        omega
      · rintro rfl
        exact writes (by decide) _ (by cases secure <;> rfl)
      · rintro rfl
        exact writes (by decide) _ rfl
      · rintro rfl
        exact writes (by decide) _ rfl
      · simp only [List.mem_cons, List.not_mem_nil, or_false] at hn
        rcases hn with rfl | rfl | rfl | rfl <;> exact writes (by decide) s.sys rfl
      · rintro rfl hx
        exact wtsync_endsIn hq hf ho hj hd hk hx
    · exact ⟨s.invalidate m asid page world, tlbinv_endsIn hq hf ho hj hd hk hh, rfl, invalidate_tlb s m asid page world,
        fun _ => invalidate_tabs s m asid page world, fun _ => invalidate_codes s m asid page world⟩
    · obtain ⟨s1, s2, kept, outside, inside, takes, u, step, ends⟩ := ldxCompletion_ends hq hf ho hj hk hs hold
      refine ⟨s1, s2, kept, outside, fun apart e he j lt => ?_, takes, u, step, ends⟩
      have found := inside apart e he j lt
      obtain ⟨k, p, m⟩ := e
      cases p <;> exact found
  · exact ⟨_, trapDelivery_delivers hh ht hn hd hv, rfl, State.thr_setThr_same .., fun t' ne => State.thr_setThr_other _ _ ne⟩

end Sys2Proof.Slice0
end

section
namespace Sys2Proof.Slice0
open Machine

/-! # Integer words (O1, O2, O3)

## The low bits of typed values (R185) -/

/-- The value of low bits under a type: two's complement for `.s`, natural otherwise (R185). -/
def valueOf (t : ITy) (v : BitVec t.width) : Int := if t.signed then v.toInt else v.toNat

theorem val_eq_valueOf (t : ITy) (x : W64) : t.val x = valueOf t (lo t x) := t.val_eq x

/-- The low bits of a typed value are those of the word. -/
theorem ofInt_val_lo (t : ITy) (x : W64) : BitVec.ofInt t.width (t.val x) = lo t x := t.ofInt_val x

theorem ofInt_valueOf (t : ITy) (v : BitVec t.width) : BitVec.ofInt t.width (valueOf t v) = v := by
  rw [valueOf]
  cases t.signed
  · exact (BitVec.ofInt_natCast ..).trans ((BitVec.ofNat_toNat ..).trans (BitVec.setWidth_eq _))
  · exact BitVec.ofInt_toInt

theorem nat_val_lo (t : ITy) (x : W64) : t.nat (t.val x) = (lo t x).toNat := t.nat_val x

/-- The shift count of the model is that of the statement (R186). -/
theorem amount_val (t : ITy) (x : W64) : t.amount (t.val x) = shamt t (lo t x) := by
  rw [ITy.amount, nat_val_lo, shamt]

/-- The order of a type on low bits is the order of their values (R188). -/
theorem less_iff (t : ITy) (x y : BitVec t.width) : less t x y = true ↔ valueOf t x < valueOf t y := by
  rw [valueOf, valueOf, less]
  cases t.signed
  · exact BitVec.ult_iff_toNat_lt.trans Int.ofNat_lt.symm
  · exact BitVec.slt_iff_toInt_lt

theorem valueOf_inj (t : ITy) (x y : BitVec t.width) : valueOf t x = valueOf t y ↔ x = y := by
  rw [valueOf, valueOf]
  cases t.signed
  · exact Int.ofNat_inj.trans BitVec.toNat_inj
  · exact BitVec.toInt_inj

/-! ## Words of one and of two sources -/

section
variable {s : State} {i : Instr} {c : Ctl} {t : ITy} {d : GReg} {a b x : Src} {p : List Nat}

/-- A word of one source writes the operation `f` on the low bits that its operation `e` on values comes to. -/
theorem writes_unary {e : Int → Int} {f : BitVec t.width → BitVec t.width} (hi : exec i s = int1 c t d a e s)
    (he : ∀ y, BitVec.ofInt t.width (e (t.val y)) = f (lo t y)) (h : s.Acts c (.fixA 2 a.regs) p) :
    s.Writes i c p 2 (fun l => toG d (fit t (f (val s t l a)))) :=
  (writes_int1 hi h).congr fun l _ => by rw [ITy.ext_eq, he]; rfl

/-- A word of two sources writes the operation `f` on the low bits that its operation `e` on values comes to. -/
theorem writes_binary {lat : Nat} {e : Int → Int → Int} {f : BitVec t.width → BitVec t.width → BitVec t.width}
    (hi : exec i s = int2 lat c t d a b e s) (he : ∀ y z, BitVec.ofInt t.width (e (t.val y) (t.val z)) = f (lo t y) (lo t z))
    (h : s.Acts c (.fixA lat (a.regs ++ b.regs)) p) :
    s.Writes i c p lat (fun l => toG d (fit t (f (val s t l a) (val s t l b)))) :=
  (writes_int2 hi h).congr fun l _ => by rw [ITy.ext_eq, he]; rfl

/-- A word that acts in each lane alone writes one general register. -/
theorem writes_general {lat : Nat} {reads : List RegId} {e : Nat → Int} {f : Nat → BitVec t.width}
    (hi : exec i s = s.perLane c (.fixA lat reads) fun j => .next [(.g d, .w (t.ext (e j)))])
    (he : ∀ l, BitVec.ofInt t.width (e (tid s.curG l)) = f l) (h : s.Acts c (.fixA lat reads) p) :
    s.Writes i c p lat (fun l => toG d (fit t (f l))) :=
  State.writes_of_perLane _ hi h rfl rfl fun l _ => by rw [ITy.ext_eq, he]; rfl

end

/-! ## Products and orderings (R186) -/

/-- The bits of an exact number from a place on. -/
theorem extractLsb'_ofInt (w : Nat) (z : Int) : (BitVec.ofInt (2 * w) z).extractLsb' w w = BitVec.ofInt w (z / 2 ^ w) := by
  have hw : (0 : Int) < 2 ^ w := by positivity
  have hr : 0 ≤ z % (2 ^ w * 2 ^ w) := Int.emod_nonneg z (by positivity)
  have hlt : z % (2 ^ w * 2 ^ w) < 2 ^ w * 2 ^ w := Int.emod_lt_of_pos z (by positivity)
  have hz : z / 2 ^ w % 2 ^ w = z % (2 ^ w * 2 ^ w) / 2 ^ w := by
    conv_lhs => rw [← Int.emod_add_mul_ediv z (2 ^ w * 2 ^ w), mul_assoc, Int.add_mul_ediv_left _ _ hw.ne', Int.add_mul_emod_self_left]
    exact Int.emod_eq_of_lt (Int.ediv_nonneg hr hw.le) (Int.ediv_lt_of_lt_mul hw hlt)
  apply BitVec.eq_of_toNat_eq
  rw [BitVec.extractLsb'_toNat, BitVec.toNat_ofInt, BitVec.toNat_ofInt, Nat.shiftRight_eq_div_pow]
  zify
  rw [Int.toNat_of_nonneg (Int.emod_nonneg _ (by positivity)), Int.toNat_of_nonneg (Int.emod_nonneg _ (by positivity))]
  rw [two_mul, pow_add, ← hz, Int.emod_emod]

theorem ofInt_mulHigh (t : ITy) (y z : W64) :
    BitVec.ofInt t.width (t.val y * t.val z / 2 ^ t.width) = mulHigh t (lo t y) (lo t z) := by
  rw [← extractLsb'_ofInt, BitVec.ofInt_mul, val_eq_valueOf, val_eq_valueOf, valueOf, valueOf, mulHigh]
  cases t.signed
  · simp only [Bool.false_eq_true, if_false, BitVec.ofInt_natCast, BitVec.ofNat_toNat]
  · rfl

/-- The smaller of two values. -/
theorem smaller_valueOf (t : ITy) (y z : BitVec t.width) :
    (if valueOf t y ≤ valueOf t z then valueOf t y else valueOf t z) = valueOf t (if less t z y then z else y) := by
  by_cases h : valueOf t z < valueOf t y
  · rw [if_neg (not_le.2 h), if_pos ((less_iff ..).2 h)]
  · rw [if_pos (not_lt.1 h), if_neg (mt (less_iff ..).1 h)]

/-- The larger of two values. -/
theorem larger_valueOf (t : ITy) (y z : BitVec t.width) :
    (if valueOf t y ≤ valueOf t z then valueOf t z else valueOf t y) = valueOf t (if less t y z then z else y) := by
  by_cases h : valueOf t y < valueOf t z
  · rw [if_pos h.le, if_pos ((less_iff ..).2 h)]
  · rw [if_neg (mt (less_iff ..).1 h)]
    split
    · exact le_antisymm (not_lt.1 h) ‹_›
    · rfl

theorem ofInt_abs {t : ITy} (ht : t.signed = true) (y : W64) :
    BitVec.ofInt t.width (if t.val y < 0 then -t.val y else t.val y) = if (lo t y).msb then -lo t y else lo t y := by
  have hm : (lo t y).msb = true ↔ t.val y < 0 := by
    rw [val_eq_valueOf, valueOf, if_pos ht, BitVec.msb_eq_toInt, decide_eq_true_eq]
  by_cases h : t.val y < 0
  · rw [if_pos h, if_pos (hm.2 h), BitVec.ofInt_neg, ofInt_val_lo]
  · rw [if_neg h, if_neg (mt hm.1 h), ofInt_val_lo]

/-- Settles O1: the product of two typed values, its high half and the order of their values, on their low bits. -/
theorem productsAndOrder : Obligations.ProductsAndOrder := by
  unfold Obligations.ProductsAndOrder
  intro s c t d a b x p _
  refine ⟨fun h => ⟨?_, ?_⟩, fun h => ?_, fun h => ⟨?_, ?_⟩, fun ht h => ?_⟩
  · exact writes_binary (f := (· * ·)) exec_mul (fun y z => by rw [BitVec.ofInt_mul, ofInt_val_lo, ofInt_val_lo]) h
  · exact writes_binary (f := mulHigh t) exec_mulh (ofInt_mulHigh t) h
  · refine writes_general (e := fun j => t.val (s.src j a) * t.val (s.src j b) + t.val (s.src j x)) exec_mad (fun l => ?_) h
    rw [BitVec.ofInt_add, BitVec.ofInt_mul, ofInt_val_lo, ofInt_val_lo, ofInt_val_lo]
    rfl
  · exact writes_binary (f := fun y z => if less t z y then z else y) exec_min
      (fun y z => by rw [val_eq_valueOf, val_eq_valueOf, smaller_valueOf, ofInt_valueOf]) h
  · exact writes_binary (f := fun y z => if less t y z then z else y) exec_max
      (fun y z => by rw [val_eq_valueOf, val_eq_valueOf, larger_valueOf, ofInt_valueOf]) h
  · exact writes_unary (f := fun y => if y.msb then -y else y) exec_abs (ofInt_abs ht) h

/-! ## Additive and logical operations (R186) -/

theorem ofInt_sub (w : Nat) (y z : Int) : BitVec.ofInt w (y - z) = BitVec.ofInt w y - BitVec.ofInt w z := by
  rw [Int.sub_eq_add_neg, BitVec.ofInt_add, BitVec.ofInt_neg, BitVec.sub_eq_add_neg]

/-- A bitwise operation on the low bits. -/
theorem ofInt_bitwise {t : ITy} {e : Nat → Nat → Nat} {f : BitVec t.width → BitVec t.width → BitVec t.width}
    (he : ∀ y z : BitVec t.width, e y.toNat z.toNat = (f y z).toNat) (y z : W64) :
    BitVec.ofInt t.width (t.bitOp e (t.val y) (t.val z)) = f (lo t y) (lo t z) := by
  rw [ITy.ofInt_bitOp, ← lo, ← lo, he, BitVec.ofNat_toNat, BitVec.setWidth_eq]

theorem toNat_andNot {w : Nat} (y z : BitVec w) : y.toNat &&& (2 ^ w - 1 - z.toNat) = (y &&& ~~~z).toNat := by
  rw [BitVec.toNat_and, BitVec.toNat_not]

theorem ofInt_complement (t : ITy) (y : W64) : BitVec.ofInt t.width (-t.val y - 1) = ~~~lo t y := by
  rw [ofInt_sub, BitVec.ofInt_neg, ofInt_val_lo, BitVec.neg_eq_not_add]
  exact BitVec.add_sub_cancel _ _

theorem additiveAndLogicalRule : AdditiveAndLogicalRule := by
  intro s c t d a b p _
  refine ⟨fun h => ⟨?_, ?_, ?_, ?_, ?_, ?_⟩, fun h => ⟨?_, ?_⟩⟩
  · exact writes_binary (f := (· + ·)) exec_add (fun y z => by rw [BitVec.ofInt_add, ofInt_val_lo, ofInt_val_lo]) h
  · exact writes_binary (f := (· - ·)) exec_sub (fun y z => by rw [ofInt_sub, ofInt_val_lo, ofInt_val_lo]) h
  · exact writes_binary (f := (· &&& ·)) exec_and (ofInt_bitwise fun _ _ => (BitVec.toNat_and ..).symm) h
  · exact writes_binary (f := (· ||| ·)) exec_or (ofInt_bitwise fun _ _ => (BitVec.toNat_or ..).symm) h
  · exact writes_binary (f := (· ^^^ ·)) exec_xor (ofInt_bitwise fun _ _ => (BitVec.toNat_xor ..).symm) h
  · exact writes_binary (f := fun y z => y &&& ~~~z) exec_andn (ofInt_bitwise (f := fun y z => y &&& ~~~z) toNat_andNot) h
  · exact writes_unary (f := (- ·)) exec_neg (fun y => by rw [BitVec.ofInt_neg, ofInt_val_lo]) h
  · exact writes_unary (f := (~~~ ·)) exec_not (ofInt_complement t) h

/-! ## Shifts (R186) -/

theorem shamt_lt (t : ITy) (y : BitVec t.width) : shamt t y < t.width := Nat.mod_lt _ t.width_pos

theorem ofInt_shiftLeft {w : Nat} (z : Int) (n : Nat) : BitVec.ofInt w (z * 2 ^ n) = BitVec.ofInt w z <<< n := by
  rw [BitVec.ofInt_mul, BitVec.shiftLeft_eq_mul_twoPow]
  have e : BitVec.ofInt w (2 ^ n) = BitVec.twoPow w n := by
    refine (BitVec.ofInt_natCast w (2 ^ n)).trans (BitVec.eq_of_toNat_eq ?_)
    rw [BitVec.toNat_ofNat, BitVec.toNat_twoPow]
  rw [e]

theorem ofInt_ushiftRight {w : Nat} (y : BitVec w) (n : Nat) : BitVec.ofInt w ((y.toNat : Int) / 2 ^ n) = y >>> n := by
  have e : ((y.toNat : Int) / 2 ^ n) = ((y >>> n).toNat : Nat) := by
    rw [BitVec.toNat_ushiftRight, Nat.shiftRight_eq_div_pow]
    push_cast
    rfl
  rw [e, BitVec.ofInt_natCast, BitVec.ofNat_toNat, BitVec.setWidth_eq]

theorem ofInt_sshiftRight {t : ITy} (y : BitVec t.width) (n : Nat) :
    BitVec.ofInt t.width (sval t.width y.toNat / 2 ^ n) = y.sshiftRight n := by
  rw [sval_toNat _ t.width_pos, BitVec.sshiftRight_eq, Int.shiftRight_eq_div_pow]
  push_cast
  rfl

/-- The halves of a rotation lie in different bits. -/
theorem ofInt_rotateLeft {w : Nat} (y : BitVec w) {n : Nat} (hn : n < w) :
    BitVec.ofInt w ((y.toNat * 2 ^ n + y.toNat / 2 ^ (w - n) : Nat) : Int) = y.rotateLeft n := by
  have low : y.toNat / 2 ^ (w - n) < 2 ^ n := by
    rw [Nat.div_lt_iff_lt_mul (Nat.two_pow_pos _), ← pow_add, Nat.add_sub_cancel' hn.le]
    exact y.isLt
  rw [BitVec.ofInt_natCast]
  apply BitVec.eq_of_toNat_eq
  rw [BitVec.toNat_rotateLeft, Nat.mod_eq_of_lt hn, BitVec.toNat_ofNat, Nat.mul_comm, Nat.two_pow_add_eq_or_of_lt low,
    Nat.or_mod_two_pow, Nat.shiftLeft_eq, Nat.mul_comm, Nat.shiftRight_eq_div_pow,
    Nat.mod_eq_of_lt (low.trans (Nat.pow_lt_pow_right one_lt_two hn))]

/-! ## Bit counts (R186) -/

theorem popBelow_eq (x n : Nat) : popBelow x n = ((List.range n).filter fun i => x.testBit i).length := by
  induction n with
  | zero => rfl
  | succ n ih =>
    rw [popBelow, ih, List.range_succ, List.filter_append, List.length_append, List.filter_singleton]
    cases x.testBit n <;> rfl

theorem leadZeros_from {w : Nat} (y : BitVec w) (n : Nat) :
    BitVec.ofNat w ((List.range (n + 1)).foldl (fun k i => if y.toNat.testBit i then w - 1 - i else k) w) = y.clzAuxRec n := by
  induction n with
  | zero =>
    rw [BitVec.clzAuxRec_zero, ← BitVec.testBit_toNat]
    exact apply_ite (BitVec.ofNat w) ..
  | succ n ih =>
    rw [BitVec.clzAuxRec_succ, List.range_succ, List.foldl_append, ← ih, ← BitVec.testBit_toNat]
    exact apply_ite (BitVec.ofNat w) ..

theorem ofNat_leadZeros {w : Nat} (hw : 0 < w) (y : BitVec w) : BitVec.ofNat w (leadZeros w y.toNat) = y.clz := by
  rw [BitVec.clz, ← leadZeros_from, leadZeros, Nat.sub_add_cancel hw]

/-- The reverse lists the bits from the highest. -/
theorem revBits_eq (w x : Nat) : revBits w x =
    ((List.range w).map (w - 1 - ·)).foldl (fun n j => n + if x.testBit (w - 1 - j) then 2 ^ j else 0) 0 := by
  rw [List.foldl_map]
  refine List.foldl_ext _ _ _ fun n i hi => ?_
  rw [show w - 1 - (w - 1 - i) = i by have := List.mem_range.1 hi; omega]

theorem ofNat_revBits {w : Nat} (y : BitVec w) : BitVec.ofNat w (revBits w y.toNat) = y.reverse := by
  have distinct : ((List.range w).map (w - 1 - ·)).Nodup := List.nodup_range.map_on fun i hi j hj e => by
    rw [List.mem_range] at hi hj
    omega
  refine BitVec.eq_of_getLsbD_eq fun i hi => ?_
  have listed : i ∈ (List.range w).map (w - 1 - ·) := List.mem_map.2 ⟨w - 1 - i, List.mem_range.2 (by omega), by omega⟩
  rw [BitVec.getLsbD_ofNat, revBits_eq, foldl_testBit distinct, BitVec.getLsbD_reverse, BitVec.getMsbD, BitVec.testBit_toNat,
    decide_eq_true listed, Bool.true_and]

theorem shiftsAndBitsRule : ShiftsAndBitsRule := by
  intro s c t d a b p ht
  refine ⟨fun h => ⟨?_, ?_, ?_, ?_⟩, fun h => ⟨?_, ?_, ?_⟩⟩
  · exact writes_binary (f := fun y z => y <<< shamt t z) exec_shl (fun y z => by rw [ofInt_shiftLeft, ofInt_val_lo, amount_val]) h
  · exact writes_binary (f := fun y z => y >>> shamt t z) exec_shr (fun y z => by rw [nat_val_lo, amount_val, ofInt_ushiftRight]) h
  · exact writes_binary (f := fun y z => y.sshiftRight (shamt t z)) exec_sar
      (fun y z => by rw [nat_val_lo, amount_val, ofInt_sshiftRight]) h
  · exact writes_binary (f := fun y z => y.rotateLeft (shamt t z)) exec_rol
      (fun y z => by rw [nat_val_lo, amount_val, ofInt_rotateLeft _ (shamt_lt t _)]) h
  · refine writes_unary (f := fun y => BitVec.ofNat 64 ((List.range t.width).filter fun i => y.getLsbD i).length |> lo t) exec_popc
      (fun y => ?_) h
    rw [nat_val_lo, BitVec.ofInt_natCast, popBelow_eq]
    exact (BitVec.setWidth_ofNat_of_le (t.width_le ht) _).symm
  · exact writes_unary (f := BitVec.clz) exec_clz (fun y => by rw [nat_val_lo, BitVec.ofInt_natCast, ofNat_leadZeros t.width_pos]) h
  · exact writes_unary (f := BitVec.reverse) exec_brev (fun y => by rw [nat_val_lo, BitVec.ofInt_natCast, ofNat_revBits]) h

/-- Settles O2: each operation on values is one on the low bits, a rotation because its halves lie in different bits. -/
theorem integerArithmetic : Obligations.IntegerArithmetic := ⟨additiveAndLogicalRule, shiftsAndBitsRule⟩

/-! ## Bit fields (R187) -/

theorem fieldLen_eq (t : ITy) (f : W64) : fieldLen t.width f.toNat = fieldM t f := by
  rw [fieldLen, fieldM, fieldPos, bits_eq, bits_eq]

/-- The field that `BFX` takes out. -/
theorem ofInt_bfxVal (t : ITy) (y f : W64) : BitVec.ofInt t.width (bfxVal t y.toNat f.toNat) = fieldOf t (lo t y) f := by
  have cut : y.toNat % 2 ^ t.width / 2 ^ fieldPos f % 2 ^ fieldM t f = ((lo t y).extractLsb' (fieldPos f) (fieldM t f)).toNat := by
    rw [BitVec.extractLsb'_toNat, Nat.shiftRight_eq_div_pow, lo, BitVec.toNat_setWidth]
  unfold bfxVal fieldOf
  dsimp only
  rw [fieldLen_eq, show bits f.toNat 5 0 = fieldPos f from bits_eq f 5 0, cut]
  generalize (lo t y).extractLsb' (fieldPos f) (fieldM t f) = v
  generalize fieldM t f = m at v
  rcases Nat.eq_zero_or_pos m with rfl | hm
  · rw [if_pos rfl, BitVec.of_length_zero (x := v)]
    cases t.signed
    · exact BitVec.eq_of_toNat_eq (by simp)
    · rfl
  · rw [if_neg hm.ne', sval_toNat m hm]
    cases t.signed
    · exact (BitVec.ofInt_natCast ..).trans (BitVec.ofNat_toNat ..)
    · rfl

theorem testBit_setBits (x pos m v i : Nat) (hm : 0 < m) : (setBits x (pos + m - 1) pos v).testBit i =
    if pos ≤ i ∧ i < pos + m then v.testBit (i - pos) else x.testBit i := by
  have parts : setBits x (pos + m - 1) pos v = 2 ^ pos * (2 ^ m * (x >>> (pos + m)) + v % 2 ^ m) + x % 2 ^ pos := by
    rw [setBits, Nat.sub_add_cancel (by omega), Nat.add_sub_cancel_left, pow_add]
    ring
  rw [parts, Nat.testBit_two_pow_mul_add _ (Nat.mod_lt _ (Nat.two_pow_pos _)),
    Nat.testBit_two_pow_mul_add _ (Nat.mod_lt _ (Nat.two_pow_pos _)), Nat.testBit_mod_two_pow, Nat.testBit_mod_two_pow,
    Nat.testBit_shiftRight]
  by_cases below : i < pos
  · rw [if_pos below, if_neg (by omega), decide_eq_true below, Bool.true_and]
  · rw [if_neg below]
    by_cases inside : i - pos < m
    · rw [if_pos inside, if_pos (by omega), decide_eq_true inside, Bool.true_and]
    · rw [if_neg inside, if_neg (by omega), show pos + m + (i - pos - m) = i by omega]

theorem getLsbD_fieldMask (t : ITy) (f : W64) {i : Nat} (hi : i < t.width) :
    (fieldMask t f).getLsbD i = decide (fieldPos f ≤ i ∧ i < fieldPos f + fieldM t f) := by
  rw [fieldMask, BitVec.getLsbD_shiftLeft, BitVec.getLsbD_setWidth, BitVec.getLsbD_allOnes, Bool.eq_iff_iff]
  simp only [Bool.and_eq_true, Bool.not_eq_true', decide_eq_true_eq, decide_eq_false_iff_not]
  omega

/-- Outside the field `BFI` keeps the bits of b; inside it takes the low bits of a. -/
theorem ofNat_bfiVal (t : ITy) (y z f : W64) :
    BitVec.ofNat t.width (bfiVal t y.toNat z.toNat f.toNat) = fieldIn t (lo t y) (lo t z) f := by
  have low : z.toNat % 2 ^ t.width = (lo t z).toNat := (BitVec.toNat_setWidth ..).symm
  refine BitVec.eq_of_getLsbD_eq fun i hi => ?_
  rw [fieldIn, BitVec.getLsbD_or, BitVec.getLsbD_and, BitVec.getLsbD_and, BitVec.getLsbD_not, getLsbD_fieldMask t f hi,
    BitVec.getLsbD_shiftLeft, BitVec.getLsbD_ofNat, decide_eq_true hi, Bool.true_and, Bool.true_and, Bool.true_and]
  unfold bfiVal
  dsimp only
  rw [fieldLen_eq, show bits f.toNat 5 0 = fieldPos f from bits_eq f 5 0, low]
  by_cases inside : fieldPos f ≤ i ∧ i < fieldPos f + fieldM t f
  · have hm : 0 < fieldM t f := by omega
    rw [if_neg hm.ne', testBit_setBits _ _ _ _ _ hm, if_pos inside, Nat.testBit_mod_two_pow, BitVec.testBit_toNat,
      decide_eq_true (show i - fieldPos f < fieldM t f by omega), decide_eq_false (show ¬i < fieldPos f by omega), decide_eq_true inside]
    simp only [lo, BitVec.getLsbD_setWidth, decide_eq_true (show i - fieldPos f < t.width by omega), Bool.true_and, Bool.not_true,
      Bool.not_false, Bool.and_true, Bool.and_false, Bool.false_or]
  · have kept : (if fieldM t f = 0 then (lo t z).toNat
        else setBits (lo t z).toNat (fieldPos f + fieldM t f - 1) (fieldPos f) (y.toNat % 2 ^ fieldM t f)).testBit i = (lo t z).getLsbD i := by
      split
      · rw [BitVec.testBit_toNat]
      · rw [testBit_setBits _ _ _ _ _ (by omega), if_neg inside, BitVec.testBit_toNat]
    rw [kept, decide_eq_false inside, Bool.not_false, Bool.and_true, Bool.and_false, Bool.or_false]

theorem fieldsAndMovesRule : FieldsAndMovesRule := by
  intro s c t d r a b x q y p
  refine ⟨fun ht => ⟨fun h => ?_, fun h => ?_, fun h => ?_, fun h => ?_⟩, fun h => ?_, fun h => ⟨fun k => ?_, ?_, ?_⟩⟩
  · refine writes_general (e := fun j => bfxVal t (s.src j a).toNat (s.src j b).toNat) exec_bfx (fun l => ?_) h
    rw [ofInt_bfxVal]
    rfl
  · refine writes_general (e := fun j => bfiVal t (s.src j a).toNat (s.src j b).toNat (s.src j x).toNat) exec_bfi (fun l => ?_) h
    rw [BitVec.ofInt_natCast, ofNat_bfiVal]
    rfl
  · refine writes_general (e := fun j => if s.p j q then t.val (s.src j a) else t.val (s.src j b)) exec_sel (fun l => ?_) h
    rw [apply_ite (BitVec.ofInt t.width), ofInt_val_lo, ofInt_val_lo]
    rfl
  · have hi : exec (.mov c t d a) s = int1 c t d a id s := if_neg ht
    exact writes_unary (f := id) hi (ofInt_val_lo t) h
  · exact State.writes_of_perLane (fun i => .next [(.g d, .w (s.g i r)), (.g (d + 1), .w (s.g i (r + 1)))]) rfl h rfl rfl fun _ _ => rfl
  · exact State.writes_of_perLane (fun i => .next [(.g d, .w (s.src i (.k k))), (.g (d + 1), .w 0)]) rfl h rfl rfl fun _ _ => rfl
  · exact State.writes_of_perLane (fun i => .next [(.g d, .w (s.src i (.lit y))), (.g (d + 1), .w 0)]) rfl h rfl rfl fun _ _ => rfl
  · exact State.writes_of_perLane (fun _ => .next [(.g d, .w y)]) rfl h rfl rfl fun _ _ => rfl

/-! ## Predicates (R188, R189) -/

/-- The comparisons of a type are those of the values. -/
theorem int_valueOf (t : ITy) (k : CmpOp) (y z : BitVec t.width) : k.int (valueOf t y) (valueOf t z) = holds t y z k := by
  rw [Bool.eq_iff_iff]
  cases k
  case eq => simp [CmpOp.int, holds, valueOf_inj]
  case ne => simp [CmpOp.int, holds, valueOf_inj]
  case lt => simp [CmpOp.int, holds, less_iff]
  case le => simp [CmpOp.int, holds, ← Bool.not_eq_true, less_iff]
  case gt => simp [CmpOp.int, holds, less_iff]
  case ge => simp [CmpOp.int, holds, ← Bool.not_eq_true, less_iff]
  case un => rfl

theorem predicatesRule : PredicatesRule := by
  intro s c p d
  refine ⟨fun k t a b h => ?_, fun a b na nb h => ⟨?_, ?_, ?_⟩⟩
  · exact State.writes_of_perLane (fun i => .next [(.p d, .p (k.int (t.val (s.src i a)) (t.val (s.src i b))))]) rfl h rfl rfl
      fun l _ => by rw [val_eq_valueOf, val_eq_valueOf, int_valueOf]; rfl
  · exact State.writes_of_perLane (fun i => .next [(.p d, .p (LogOp.and.app (s.p i a != na) (s.p i b != nb)))]) rfl h rfl rfl
      fun _ _ => rfl
  · exact State.writes_of_perLane (fun i => .next [(.p d, .p (LogOp.or.app (s.p i a != na) (s.p i b != nb)))]) rfl h rfl rfl
      fun _ _ => rfl
  · exact State.writes_of_perLane (fun i => .next [(.p d, .p (LogOp.xor.app (s.p i a != na) (s.p i b != nb)))]) rfl h rfl rfl
      fun _ _ => rfl

/-- Settles O3: a field is cut out of and put into the low bits; the comparisons of a type are those of its values. -/
theorem fieldsMovesAndPredicates : Obligations.FieldsMovesAndPredicates := ⟨fieldsAndMovesRule, predicatesRule⟩

end Sys2Proof.Slice0
end

section
namespace Sys2Proof.Slice0
open Machine

/-! # Lane words (O4, O5)

## Participants and sets of lanes (R195, R198) -/

theorem acts_lt {s : State} {c : Ctl} {w : WordSpec} {p : List Nat} (h : s.Acts c w p) : ∀ l ∈ p, l < 32 :=
  fun l hl => (mem_lanesOf.1 ((State.gate_go h.2).1 l hl)).1

theorem setWidth_lane {l : Nat} (h : l < 32) : (1#32 <<< l).setWidth 64 = 1#64 <<< l := by
  apply BitVec.eq_of_toNat_eq
  have hp : 2 ^ l < 2 ^ 32 := Nat.pow_lt_pow_right one_lt_two h
  simp only [BitVec.toNat_setWidth, BitVec.toNat_shiftLeft, BitVec.toNat_ofNat, Nat.shiftLeft_eq]
  omega

/-- A set of lanes as a word holds it is the set of R198. -/
theorem maskW_eq_laneBits {p : List Nat} (h : ∀ l ∈ p, l < 32) : maskW p = laneBits p := by
  have key : ∀ (p : List Nat) (m : BitVec 32), (∀ l ∈ p, l < 32) →
      (p.foldl (fun m l => m ||| (1#32 <<< l)) m).setWidth 64 = p.foldl (fun m l => m ||| (1#64 <<< l)) (m.setWidth 64) := by
    intro p
    induction p with
    | nil => exact fun _ _ => rfl
    | cons l p ih =>
      intro m h
      rw [List.foldl_cons, List.foldl_cons, ih _ fun j hj => h j (List.mem_cons_of_mem _ hj), BitVec.setWidth_or,
        setWidth_lane (h l List.mem_cons_self)]
  exact key p 0#32 h

/-- The set of the participants that pass a test. -/
theorem maskW_filter {p : List Nat} (h : ∀ l ∈ p, l < 32) (f : Nat → Bool) : maskW (p.filter f) = laneBits (p.filter f) :=
  maskW_eq_laneBits fun l hl => h l (List.mem_of_mem_filter hl)

/-! ## Exchanges (R196, R197, R199) -/

theorem fromLane_eq (p : List Nat) (l j : Nat) : fromLane p l j = if p.contains j then j else l := by
  simp [fromLane]

/-- A shuffle that names a lane of the group reads it, or its own lane where that one does not take part (R196). -/
theorem fromLane_of_some {p : List Nat} {m : ShMode} {l b j : Nat} (h : m.lane l b = some j) :
    fromLane p l (shLane m l b) = if p.contains j then j else l := by
  rw [← fromLane_eq]
  cases m with
  | idx => rw [← Option.some.inj h, shLane]
  | xor => rw [← Option.some.inj h, shLane]
  | up =>
    obtain ⟨hb, e⟩ := Option.ite_none_right_eq_some.1 h
    rw [← Option.some.inj e, shLane, Nat.cast_sub hb]
  | down =>
    obtain ⟨-, e⟩ := Option.ite_none_right_eq_some.1 h
    rw [← Option.some.inj e, shLane, Nat.cast_add]

/-- A shuffle beyond the lanes of the group reads its own lane (R196). -/
theorem fromLane_of_none {p : List Nat} (hp : ∀ l ∈ p, l < 32) {m : ShMode} {l b : Nat} (h : m.lane l b = none) :
    fromLane p l (shLane m l b) = l := by
  cases m with
  | idx => cases h
  | xor => cases h
  | up =>
    have hb : ¬b ≤ l := fun hb => by simp [ShMode.lane, hb] at h
    exact if_neg fun e => by have := e.1; rw [shLane] at this; omega
  | down =>
    have hb : ¬l + b < 32 := fun hb => by simp [ShMode.lane, hb] at h
    exact if_neg fun e => hb (hp _ e.2)

theorem toNat_beq_toNat {w : Nat} (x y : BitVec w) : (x.toNat == y.toNat) = (x == y) := by
  rw [Bool.eq_iff_iff, beq_iff_eq, beq_iff_eq, BitVec.toNat_inj]

theorem ext_val (t : ITy) (x : W64) : t.ext (t.val x) = fit t (lo t x) := by
  rw [ITy.ext_eq, ofInt_val_lo]
  rfl

/-- Settles O4: each word writes what its participants exchange; a set of lanes is below 2^32. -/
theorem laneExchanges : Obligations.LaneExchanges := by
  unfold Obligations.LaneExchanges
  intro s c t d a b dp pa pb m p _
  refine ⟨fun h => ⟨?_, ?_⟩, fun h => ⟨?_, ?_, ?_⟩, fun h => ⟨?_, ?_, ?_⟩, fun h => ?_⟩
  · refine (writes_laneOp exec_shfl h).congr fun l _ => ?_
    dsimp only
    rw [ext_val, nat_val_lo, toG, val, src, val, src]
    split
    · next e => rw [fromLane_of_some e]
    · next e => rw [fromLane_of_none (acts_lt h) e]
  · refine (writes_laneOp exec_bcast h).congr fun l _ => ?_
    dsimp only
    rw [ext_val, nat_val_lo, ← fromLane_eq]
    rfl
  · exact writes_laneOp (i := .vote c (.all dp pa)) rfl h
  · exact writes_laneOp (i := .vote c (.any dp pa)) rfl h
  · exact (writes_laneOp exec_vote h).congr fun _ _ => by rw [maskW_filter (acts_lt h)]; rfl
  · exact (writes_laneOp exec_vote h).congr fun _ _ => by rw [maskW_filter (acts_lt h)]; rfl
  · exact (writes_laneOp exec_vote h).congr fun _ _ => by rw [maskW_filter (acts_lt h)]; rfl
  · exact (writes_laneOp exec_vote h).congr fun _ _ => by rw [maskW_filter (acts_lt h)]; rfl
  · refine (writes_laneOp exec_matchLanes h).congr fun l _ => ?_
    dsimp only
    simp only [nat_val_lo, toNat_beq_toNat]
    rw [maskW_filter (acts_lt h)]
    rfl

/-! ## Combinations (R200) -/

/-- An exact combination stands for one of low bits: it has those bits, and where the operation compares it is their value. -/
def StandsFor (op : LaneOp) (t : ITy) (y : Int) (v : BitVec t.width) : Prop :=
  BitVec.ofInt t.width y = v ∧ (op = .min ∨ op = .max → y = valueOf t v)

theorem StandsFor.of_bits {op : LaneOp} {t : ITy} {y : Int} {v : BitVec t.width} (h : BitVec.ofInt t.width y = v)
    (hop : op ≠ .min ∧ op ≠ .max) : StandsFor op t y v := ⟨h, fun e => absurd e (not_or.2 hop)⟩

theorem StandsFor.of_value {op : LaneOp} {t : ITy} {y : Int} {v : BitVec t.width} (h : y = valueOf t v) : StandsFor op t y v :=
  ⟨by rw [h, ofInt_valueOf], fun _ => h⟩

theorem toNat_allOnes_cast (w : Nat) : ((BitVec.allOnes w).toNat : Int) = 2 ^ w - 1 := by
  rw [BitVec.toNat_allOnes, Nat.cast_sub Nat.one_le_two_pow]
  push_cast
  rfl

theorem ofInt_allOnes (w : Nat) : BitVec.ofInt w (2 ^ w - 1) = BitVec.allOnes w := by
  rw [← toNat_allOnes_cast, BitVec.ofInt_natCast, BitVec.ofNat_toNat, BitVec.setWidth_eq]

/-- The identity of the smaller is the greatest value of the type, that of the larger the least (R200). -/
theorem unit_min (t : ITy) : LaneOp.unit t .min = valueOf t (laneUnit .min t) := by
  rw [LaneOp.unit, laneUnit, valueOf]
  cases t.signed
  · exact (toNat_allOnes_cast _).symm
  · exact BitVec.toInt_intMax.symm

theorem unit_max (t : ITy) : LaneOp.unit t .max = valueOf t (laneUnit .max t) := by
  rw [LaneOp.unit, laneUnit, valueOf]
  cases t.signed
  · rfl
  · exact (BitVec.toInt_intMin_of_pos t.width_pos).symm

/-- The identities agree (R200). -/
theorem unit_standsFor (op : LaneOp) (t : ITy) : StandsFor op t (op.unit t) (laneUnit op t) := by
  have zero : BitVec.ofInt t.width 0 = 0 := BitVec.ofInt_natCast _ 0
  cases op
  case add => exact .of_bits zero ⟨nofun, nofun⟩
  case or => exact .of_bits zero ⟨nofun, nofun⟩
  case xor => exact .of_bits zero ⟨nofun, nofun⟩
  case and => exact .of_bits (ofInt_allOnes _) ⟨nofun, nofun⟩
  case min => exact .of_value (unit_min t)
  case max => exact .of_value (unit_max t)

/-- A bitwise step on an exact combination is one on its low bits. -/
theorem ofInt_bitOp_bits {t : ITy} {e : Nat → Nat → Nat} {f : BitVec t.width → BitVec t.width → BitVec t.width}
    (he : ∀ y z : BitVec t.width, e y.toNat z.toNat = (f y z).toNat) (y : Int) (z : W64) :
    BitVec.ofInt t.width (t.bitOp e y (t.val z)) = f (BitVec.ofInt t.width y) (lo t z) := by
  rw [ITy.bitOp, nat_val_lo, ITy.nat, wrapTo_eq, he, BitVec.ofInt_natCast, BitVec.ofNat_toNat, BitVec.setWidth_eq]

/-- A step of an exact combination stands for the step of the low bits (R200). -/
theorem StandsFor.step {op : LaneOp} {t : ITy} {y : Int} {v : BitVec t.width} (h : StandsFor op t y v) (z : W64) :
    StandsFor op t (op.app t y (t.val z)) (laneStep op t v (lo t z)) := by
  obtain ⟨bits, value⟩ := h
  cases op
  case add => exact .of_bits (by rw [LaneOp.app, BitVec.ofInt_add, bits, ofInt_val_lo]; rfl) ⟨nofun, nofun⟩
  case and => exact .of_bits (bits ▸ ofInt_bitOp_bits (fun _ _ => (BitVec.toNat_and ..).symm) y z) ⟨nofun, nofun⟩
  case or => exact .of_bits (bits ▸ ofInt_bitOp_bits (fun _ _ => (BitVec.toNat_or ..).symm) y z) ⟨nofun, nofun⟩
  case xor => exact .of_bits (bits ▸ ofInt_bitOp_bits (fun _ _ => (BitVec.toNat_xor ..).symm) y z) ⟨nofun, nofun⟩
  case min => exact .of_value (by rw [LaneOp.app, value (.inl rfl), val_eq_valueOf, smaller_valueOf]; rfl)
  case max => exact .of_value (by rw [LaneOp.app, value (.inr rfl), val_eq_valueOf, larger_valueOf]; rfl)

/-- The combination of exact values has the low bits of the combination of low bits (R200). -/
theorem over_eq_combine (op : LaneOp) (t : ITy) {α : Type} (l : List α) (f : α → W64) :
    op.over t (l.map fun j => t.val (f j)) = fit t (combine op t (l.map fun j => lo t (f j))) := by
  have key : ∀ (l : List α) (y : Int) (v : BitVec t.width), StandsFor op t y v →
      StandsFor op t ((l.map fun j => t.val (f j)).foldl (op.app t) y) ((l.map fun j => lo t (f j)).foldl (laneStep op t) v) := by
    intro l
    induction l with
    | nil => exact fun _ _ h => h
    | cons j l ih => exact fun y v h => ih _ _ (h.step (f j))
  rw [LaneOp.over, ITy.ext_eq, (key l _ _ (unit_standsFor op t)).1]
  rfl

/-- No word compares raw bits across lanes (R200). -/
theorem raw_not_ordered {t : ITy} (h : t.raw = true) : (t.signed || t.natural) = false := by
  cases t <;> revert h <;> decide

/-- Settles O5: the exact combination stands, step by step, for the combination of the low bits. -/
theorem laneCombinations : Obligations.LaneCombinations := by
  unfold Obligations.LaneCombinations
  intro s c op t d a p _ h
  refine ⟨?_, ?_, ?_, fun hop hraw excl => ?_⟩
  · exact (writes_laneOp exec_scan h).congr fun l _ => by rw [over_eq_combine]; rfl
  · exact (writes_laneOp exec_scan h).congr fun l _ => by rw [over_eq_combine]; rfl
  · exact (writes_laneOp exec_redux h).congr fun l _ => by rw [over_eq_combine]; rfl
  · have unordered := raw_not_ordered hraw
    rcases hop with rfl | rfl <;> exact ⟨by rw [Instr.wf, unordered, Bool.and_false], by rw [Instr.wf, unordered, Bool.and_false]⟩

end Sys2Proof.Slice0
end

section
namespace Sys2Proof.Slice0
open Machine

/-! # The special registers (O6)

## Reads (R191–R193) -/

/-- A word of two parts as a number. -/
theorem toNat_parts {m n : Nat} (x : BitVec m) (y : BitVec n) : (x ++ y).toNat = x.toNat * 2 ^ n + y.toNat := by
  rw [BitVec.toNat_append, ← Nat.shiftLeft_add_eq_or_of_lt y.isLt, Nat.shiftLeft_eq]

theorem word_eq_snapshot (x : Barrier) : x.word = snapshot x := by
  have hc := x.count.isLt
  have he := x.expected.isLt
  apply BitVec.eq_of_toNat_eq
  rw [Barrier.word, snapshot, toNat_parts, toNat_parts, toNat_parts, BitVec.toNat_ofNat, BitVec.toNat_ofNat, BitVec.toNat_ofBool]
  cases x.parity <;> simp only [Bool.false_eq_true, if_false, if_true, Bool.toNat_false, Bool.toNat_true] <;> omega

/-- The registers that a bow core does not have (R192). -/
theorem bowBlind_eq (s : State) (h : s.cur.slot < 16) (r : SReg) : bowBlind s.curG r = (isBow s.cur.core && bowAbsent r.toNat) := by
  have e : (r == 43#6) = decide (r.toNat = 43) := by
    rw [Bool.eq_iff_iff, beq_iff_eq, decide_eq_true_eq, ← BitVec.toNat_inj]
    rfl
  rw [bowBlind, groupCore_curG s h, bowAbsent, e]

theorem groupSlot_curG (s : State) (h : s.cur.slot < 16) : groupSlot s.curG = s.cur.slot := by
  unfold groupSlot State.curG
  omega

/-- A register below 16 reads the snapshot of a barrier register of the workgroup, or zero on the bow. -/
theorem rdsVal_nb {s : State} {t : Nat} {r : SReg} (h : r.toNat < 16) :
    s.rdsVal t r = if isBow (groupCore (threadGroup t)) then 0 else snapshot (s.bar (threadGroup t) (.nb (BitVec.ofNat 4 r.toNat))) := by
  rw [State.rdsVal]
  rw [if_pos h, word_eq_snapshot]

/-- A register from 16 on reads the snapshot of a barrier register of the cluster. -/
theorem rdsVal_kb {s : State} {t : Nat} {r : SReg} (h : 16 ≤ r.toNat ∧ r.toNat < 32) :
    s.rdsVal t r = snapshot (s.bar (threadGroup t) (.kb (BitVec.ofNat 4 (r.toNat - 16)))) := by
  rw [State.rdsVal]
  rw [if_neg (by omega), if_pos h.2, word_eq_snapshot]

/-- The thread's own registers are 43 to 56 (R152). -/
theorem sregAt_range {n : Nat} {x : Sreg} (h : sregAt n = some x) : 43 ≤ n ∧ n ≤ 56 := by
  unfold sregAt at h
  split at h
  case h_15 => cases h
  all_goals decide

theorem sregAt_some {n : Nat} (h : 43 ≤ n ∧ n ≤ 56) : ∃ x, sregAt n = some x := by
  obtain ⟨low, high⟩ := h
  interval_cases n <;> exact ⟨_, rfl⟩

/-- A register of the thread's own reads its value, or zero where the bow has none. -/
theorem rdsVal_own {s : State} {t : Nat} {r : SReg} {x : Sreg} (h : sregAt r.toNat = some x) :
    s.rdsVal t r = if bowBlind (threadGroup t) r then 0 else s.sr t x := by
  have := sregAt_range h
  rw [State.rdsVal]
  rw [if_neg (by omega), if_neg (by omega), h]

theorem rds_reads (s : State) (c : Ctl) (d : GReg) (r : SReg) (p : List Nat) (h : s.Acts c (.fixA 2 (sregRegs r)) p) :
    s.Writes (.rds c d r) c p 2 (fun l => toG d (s.rdsVal (tid s.curG l) r)) :=
  State.writes_of_perLane (fun t => .next [(.g d, .w (s.rdsVal t r))]) rfl h rfl rfl fun _ _ => rfl

/-- The numbers of a thread, the superstep, the energy sum and the mode (R193). -/
structure NumbersRead (s : State) (t : Nat) : Prop where
  lane    : s.rdsVal t 36#6 = BitVec.ofNat 64 (threadLane t)
  slot    : s.rdsVal t 37#6 = BitVec.ofNat 64 (groupSlot (threadGroup t))
  core    : s.rdsVal t 38#6 = BitVec.ofNat 64 (coreNum (groupCore (threadGroup t)))
  cluster : s.rdsVal t 39#6 = BitVec.ofNat 64 (coreCluster (groupCore (threadGroup t)))
  group   : s.rdsVal t 40#6 = ((s.grp (threadGroup t)).bind.extractLsb' 224 32).setWidth 64
  gid     : s.rdsVal t 41#6 = BitVec.ofNat 64 t
  phase   : s.rdsVal t 42#6 = (BitVec.ofNat 32 (s.grpCl (threadGroup t)).phase).setWidth 64
  energy  : s.rdsVal t 57#6 = (s.grp (threadGroup t)).ecnt
  mode    : s.rdsVal t 58#6 = 0#62 ++ BitVec.ofBool (s.grp (threadGroup t)).sc ++ BitVec.ofBool (s.grp (threadGroup t)).pp

/-- No bow is blind to a register that is none of its own. -/
theorem bowBlind_none {g : Nat} {r : SReg} (h : sregAt r.toNat = none) : bowBlind g r = false := by
  by_contra blind
  rw [Bool.not_eq_false, bowBlind, Bool.and_eq_true, Bool.or_eq_true, Bool.and_eq_true, beq_iff_eq, decide_eq_true_eq,
    decide_eq_true_eq] at blind
  obtain ⟨-, rfl | own⟩ := blind
  · cases h
  · obtain ⟨x, hx⟩ := sregAt_some (n := r.toNat) (by omega)
    rw [hx] at h
    cases h

theorem numbersRead (s : State) (t : Nat) : NumbersRead s t := by
  constructor <;> rw [State.rdsVal, if_neg (by decide), if_neg (by decide), bowBlind_none rfl, if_neg Bool.false_ne_true]
  case group => exact (congrArg (BitVec.ofNat 64) (bits_eq ..)).trans (BitVec.ofNat_toNat ..)
  case phase => exact BitVec.ofNat_toNat 64 (BitVec.ofNat 32 (s.grpCl (threadGroup t)).phase)
  case mode => cases (s.grp (threadGroup t)).sc <;> cases (s.grp (threadGroup t)).pp <;> rfl
  all_goals rfl

theorem specialRegisterReadsRule : SpecialRegisterReadsRule := by
  intro s c d r p h
  have calm := h.1
  refine ⟨fun l => s.rdsVal (tid s.curG l) r, rds_reads s c d r p h, fun l hl => ?_⟩
  have path := (State.gate_go h.2).1 l hl
  have hk := groupCore_curG s calm.slot
  have own : ∀ x, sregAt r.toNat = some x →
      s.rdsVal (tid s.curG l) r = if isBow s.cur.core && bowAbsent r.toNat then 0 else s.sr (tid s.curG l) x := fun x hx => by
    rw [rdsVal_own hx, calm.threadGroup path, bowBlind_eq s calm.slot]
  obtain ⟨lane, slot, core, cluster, group, gid, phase, energy, mode⟩ := numbersRead s (tid s.curG l)
  rw [calm.threadGroup path] at slot core cluster group phase energy mode
  rw [hk] at core cluster
  rw [groupSlot_curG s calm.slot] at slot
  rw [calm.threadLane path] at lane
  refine ⟨?_, ?_, fun e => e ▸ lane, fun e => e ▸ slot, fun e => e ▸ core, fun e => e ▸ cluster, fun e => e ▸ group, fun e => e ▸ gid,
    fun e => e ▸ phase, fun e => e ▸ energy, fun e => e ▸ mode, own⟩
  · rintro n rfl
    have hn : (n.setWidth 6).toNat = n.toNat := BitVec.toNat_setWidth_of_le (by decide)
    refine (rdsVal_nb (by omega)).trans ?_
    rw [calm.threadGroup path, hk, hn, BitVec.ofNat_toNat, BitVec.setWidth_eq]
  · rintro n rfl
    have hn : (16#6 + n.setWidth 6).toNat = 16 + n.toNat := by
      rw [BitVec.toNat_add, BitVec.toNat_setWidth, BitVec.toNat_ofNat]
      omega
    refine (rdsVal_kb (by omega)).trans ?_
    rw [hn, calm.threadGroup path, Nat.add_sub_cancel_left, BitVec.ofNat_toNat, BitVec.setWidth_eq]

/-! ## Writes (R191, R192) -/

/-- The low bits that a register of the thread takes of a word (R191). -/
def narrowed (x : Sreg) (w : W64) : W64 :=
  match x with
  | .srs => (w.setWidth 32).setWidth 64
  | .fsr => (w.setWidth 5).setWidth 64
  | _ => w

theorem and_low (w : W64) {k : Nat} (hk : k ≤ 64) : w &&& BitVec.ofNat 64 (2 ^ k - 1) = (w.setWidth k).setWidth 64 := by
  apply BitVec.eq_of_toNat_eq
  have hp : 2 ^ k ≤ 2 ^ 64 := Nat.pow_le_pow_right two_pos hk
  have hk : 2 ^ k - 1 < 2 ^ 64 := by have := Nat.two_pow_pos k; omega
  rw [BitVec.toNat_and, BitVec.toNat_ofNat, Nat.mod_eq_of_lt hk, Nat.and_two_pow_sub_one_eq_mod, BitVec.toNat_setWidth,
    BitVec.toNat_setWidth, Nat.mod_eq_of_lt ((Nat.mod_lt _ (Nat.two_pow_pos k)).trans_le hp)]

theorem sregAt_writable {n : Nat} {x : Sreg} (h : sregAt n = some x) (hn : n ≤ 54) : x ≠ .re ∧ x ≠ .rc := by
  have := (sregAt_range h).1
  interval_cases n <;> rw [← Option.some.inj h] <;> exact ⟨nofun, nofun⟩

/-- A register marked RW takes the low bits of a word (R191). -/
theorem wrsWrites_own {g : Nat} {r : SReg} {x : Sreg} (w : W64) (hb : bowBlind g r = false) (hx : sregAt r.toNat = some x)
    (hn : r.toNat ≤ 54) : wrsWrites g r w = [(.s x, .w (narrowed x w))] := by
  obtain ⟨hre, hrc⟩ := sregAt_writable hx hn
  rw [wrsWrites, hb, if_neg Bool.false_ne_true, hx]
  cases x
  case srs => exact congrArg (fun y => [(RegId.s .srs, RVal.w y)]) (and_low w (k := 32) (by decide))
  case fsr => exact congrArg (fun y => [(RegId.s .fsr, RVal.w y)]) (and_low w (k := 5) (by decide))
  case re => exact absurd rfl hre
  case rc => exact absurd rfl hrc
  all_goals rfl

theorem sregAt_readOnly {n : Nat} {x : Sreg} (h : sregAt n = some x) (hn : 54 < n) : x = .re ∨ x = .rc := by
  have := (sregAt_range h).2
  interval_cases n
  · exact .inl (Option.some.inj h).symm
  · exact .inr (Option.some.inj h).symm

/-- A register marked RO, and one that a bow does not have, ignores a write (R191, R192). -/
theorem wrsWrites_ignored {g : Nat} {r : SReg} (w : W64) (h : ¬(43 ≤ r.toNat ∧ r.toNat ≤ 54) ∨ bowBlind g r = true) :
    wrsWrites g r w = [] := by
  obtain hb | hb := Bool.eq_false_or_eq_true (bowBlind g r)
  · rw [wrsWrites, if_pos hb]
  have ro := h.resolve_right (Bool.eq_false_iff.1 hb)
  rw [wrsWrites, hb, if_neg Bool.false_ne_true]
  cases hx : sregAt r.toNat with
  | none => rfl
  | some x =>
    have := sregAt_range hx
    obtain rfl | rfl := sregAt_readOnly hx (by omega) <;> rfl

theorem wrs_writes {s : State} {c : Ctl} {r : SReg} {a : Src} {p : List Nat} (h : s.Acts c (.fixA 2 a.regs) p) :
    s.Writes (.wrs c r a) c p 2 (fun l => wrsWrites s.curG r (src s l a)) :=
  State.writes_of_perLane (fun t => .next (wrsWrites (threadGroup t) r (s.src t a))) rfl h rfl rfl fun l hl => by
    rw [h.1.threadGroup ((State.gate_go h.2).1 l hl)]
    rfl

theorem specialRegisterWritesRule : SpecialRegisterWritesRule := by
  intro s c r a p h
  have blind := bowBlind_eq s h.1.slot r
  refine ⟨fun ⟨low, high, seen⟩ => ?_, fun ignored => ?_⟩
  · obtain ⟨x, hx⟩ := sregAt_some (n := r.toNat) (by omega)
    exact ⟨x, hx, (wrs_writes h).congr fun l _ => wrsWrites_own _ (blind.trans seen) hx high⟩
  · exact (wrs_writes h).congr fun l _ => wrsWrites_ignored _ (blind ▸ ignored)

/-- Settles O6: reads by the kind of the register, writes by whether it is marked RW and the bow has it. -/
theorem specialRegisters : Obligations.SpecialRegisters := ⟨specialRegisterReadsRule, specialRegisterWritesRule⟩

end Sys2Proof.Slice0
end

section
namespace Sys2Proof.Slice0
open Machine

/-! # Transfers (O7, O12)

## Resume addresses (R169) -/

theorem resumeAt_eq (hdr : BitVec 48) (word : Nat) : resumeAt hdr word = 0#12 ++ BitVec.ofNat 4 word ++ hdr := by
  have := hdr.isLt
  apply BitVec.eq_of_toNat_eq
  rw [resumeAt, BitVec.toNat_ofNat, toNat_parts, toNat_parts, BitVec.toNat_ofNat, BitVec.toNat_ofNat]
  omega

theorem resumeAt_zero (hdr : BitVec 48) : resumeAt hdr 0 = hdr.setWidth 64 := by
  apply BitVec.eq_of_toNat_eq
  rw [resumeAt, BitVec.toNat_ofNat, BitVec.toNat_setWidth, Nat.zero_mod, Nat.mul_zero, Nat.add_zero]

/-- The resume address of the word in issue. -/
theorem curPc_eq (s : State) : s.curPc = wordAt s := resumeAt_eq ..

/-- The header that follows the clause, as the statements write it (R147). -/
theorem curEnd_eq (s : State) : s.curEnd = s.cur.hdr + 8#48 * BitVec.ofNat 48 (s.cur.words + 1) :=
  congrArg (s.cur.hdr + ·) (BitVec.ofNat_mul ..)

theorem afterClause_eq (s : State) : resumeAt s.curEnd 0 = afterClause s := by
  rw [resumeAt_zero, curEnd_eq, afterClause]

/-- The link of a call is the header that follows its clause (R172). -/
theorem linkVal_eq (s : State) : s.linkVal = .w (afterClause s) := by
  rw [State.linkVal, curEnd_eq]
  rfl

/-- The offset of a branch counts words of eight bytes (R170). -/
theorem branchTo_eq (s : State) (off : BitVec 18) : s.branchTo off = branchTo s off := by
  rw [State.branchTo, resumeAt_zero, branchTo, BitVec.shiftLeft_eq_mul_twoPow, BitVec.mul_comm]
  rfl

/-! ## The checks of a target in a register (R171) -/

theorem aligned_iff (x : W64) : x.extractLsb' 0 3 = 0 ↔ x.toNat % 8 = 0 := by
  rw [← BitVec.toNat_inj, BitVec.extractLsb'_toNat]
  exact Iff.rfl

theorem targetRes_good {x : W64} (h : goodTarget x) (w : List (RegId × RVal)) : targetRes x w = .jump x w := by
  have high : x.extractLsb' 48 16 = 0#16 := h.1
  rw [targetRes, if_neg (not_not_intro high), if_neg (not_not_intro ((aligned_iff x).1 h.2))]

/-- The cause of the trap of a bad target: `BOUNDS` before `ALIGN`. -/
def badCause (x : W64) : BitVec 8 := if x.extractLsb' 48 16 ≠ 0#16 then 4 else 5

/-- A bad target traps at the word itself, with the target as its value. -/
theorem targetRes_bad {x : W64} (h : ¬goodTarget x) (w : List (RegId × RVal)) :
    targetRes x w = .trap (badCause x).toNat 0 x 0 none := by
  rw [targetRes, badCause]
  by_cases high : x.extractLsb' 48 16 = 0#16
  · have low : x.toNat % 8 ≠ 0 := fun e => h ⟨high, (aligned_iff x).2 e⟩
    rw [if_neg (not_not_intro high), if_pos low, if_neg (not_not_intro high), LaneRes.align, BitVec.ofNat_toNat, BitVec.setWidth_eq]
    rfl
  · rw [if_pos high, if_pos high, LaneRes.bounds, BitVec.ofNat_toNat, BitVec.setWidth_eq]
    rfl

/-! ## Where the lanes go on -/

section
variable {s : State} {i : Instr} {c : Ctl} {a : GReg} {p : List Nat} {lat : Nat} {wr : List (RegId × RVal)}

/-- A transfer to one place, whatever the lane. -/
theorem lands_at {x y : W64} (hi : exec i s = s.perLane c (.fixA lat []) fun _ => .jump x wr) (e : x = y)
    (h : s.Acts c (.fixA lat []) p) : s.Lands i c p lat (fun _ => y) (fun _ => wr) :=
  e ▸ State.lands_of_perLane _ hi h rfl rfl fun _ _ => .inr rfl

/-- A transfer to the address that a register holds in each lane. -/
theorem lands_through (hi : exec i s = s.perLane c (.fixA lat [.g a]) fun t => targetRes (s.g t a) wr)
    (good : ∀ l ∈ p, goodTarget (src s l (.g a))) (h : s.Acts c (.fixA lat [.g a]) p) :
    s.Lands i c p lat (fun l => src s l (.g a)) (fun _ => wr) :=
  State.lands_of_perLane _ hi h rfl rfl fun l hl => .inr (targetRes_good (good l hl) wr)

theorem callIndirect_lands {link : GReg} (good : ∀ l ∈ p, goodTarget (src s l (.g a))) (h : s.Acts c (.fixA 2 [.g a]) p) :
    s.Lands (.callIndirect c link a) c p 2 (fun l => src s l (.g a)) (fun _ => toG link (afterClause s)) := by
  have lands := lands_through (exec_callIndirect (link := link)) good h
  rwa [linkVal_eq] at lands

theorem call_lands {link : GReg} {off : BitVec 18} (h : s.Acts c (.fixA 2 []) p) :
    s.Lands (.call c link off) c p 2 (fun _ => branchTo s off) (fun _ => toG link (afterClause s)) := by
  have lands := lands_at (exec_call (link := link)) (branchTo_eq s off) h
  rwa [linkVal_eq] at lands

end

/-- Settles O7: the checks of R171 pass, and each transfer is a jump to the place that the statement names. -/
theorem transfers : Obligations.Transfers := fun s _ off _ _ _ =>
  ⟨fun h => ⟨State.writes_of_perLane _ exec_nop h rfl rfl fun _ _ => rfl, lands_at exec_bra (branchTo_eq s off) h⟩, call_lands,
    fun good => ⟨fun h => ⟨lands_through exec_brx good h, lands_through exec_ret good h⟩, callIndirect_lands good⟩⟩

/-! ## Traps of the word in issue (R381) -/

theorem trapRecord_eq (s : State) (code : BitVec 16) (detail cause : BitVec 8) :
    State.trapRecord code.toNat s.curOpc s.cur.cls detail.toNat cause.toNat = recordOf s code detail cause := by
  have hc := code.isLt
  have hd := detail.isLt
  have hx := cause.isLt
  have hl := (s.cur.raw.extractLsb' 56 8).isLt
  have opc : s.curOpc = (s.cur.raw.extractLsb' 56 8).toNat := bits_eq ..
  apply BitVec.eq_of_toNat_eq
  rw [State.trapRecord, opc, recordOf, BitVec.toNat_ofNat]
  simp only [toNat_parts, BitVec.toNat_ofNat]
  omega

/-- A lane that traps at the word in issue. -/
theorem trapOf_own (s : State) (detail cause : BitVec 8) (v : W64) :
    s.trapOf (.trap cause.toNat detail.toNat v 0 none) = some (own s detail cause v) := by
  rw [own, ← curPc_eq, ← trapRecord_eq]
  rfl

/-- A lane that traps and goes on behind the clause when its handler returns. -/
theorem trapOf_behind (s : State) (code : BitVec 16) (detail cause : BitVec 8) (v : W64) :
    s.trapOf (.trap cause.toNat detail.toNat v code.toNat (some (resumeAt s.curEnd 0))) =
      some ⟨recordOf s code detail cause, v, afterClause s⟩ := by
  rw [← afterClause_eq, ← trapRecord_eq]
  rfl

section
variable {s : State} {i : Instr} {c : Ctl} {a : GReg} {p : List Nat} {lat : Nat} {wr : List (RegId × RVal)}

/-- A word that acts in each lane alone traps in each of them. -/
theorem traps_of_perLane {w : WordSpec} {f : Nat → LaneRes} {info : Nat → TrapInfo} (hi : exec i s = s.perLane c w f)
    (h : s.Acts c w p) (hh : s.Handled p) (hf : ∀ l ∈ p, s.trapOf (f (tid s.curG l)) = some (info l)) : s.Traps i c p info :=
  State.traps_of_word _ (fun l => f (tid s.curG l)) hi h hh rfl hf

theorem traps_through (hi : exec i s = s.perLane c (.fixA lat [.g a]) fun t => targetRes (s.g t a) wr)
    (h : s.Acts c (.fixA lat [.g a]) p) (hh : s.Handled p) (bad : ∀ l ∈ p, ¬goodTarget (src s l (.g a))) :
    s.Traps i c p fun l => own s 0 (badCause (src s l (.g a))) (src s l (.g a)) :=
  traps_of_perLane hi h hh fun l hl => (congrArg s.trapOf (targetRes_bad (bad l hl) wr)).trans (trapOf_own s 0 ..)

end

/-- Settles O12: every bad target traps alike, whichever of the three transfers reads it. -/
theorem transferTraps : Obligations.TransferTraps := by
  rintro s c a link p i w (⟨rfl, rfl⟩ | ⟨rfl, rfl⟩ | ⟨rfl, rfl⟩) h hh bad
  · exact traps_through exec_brx h hh bad
  · exact traps_through exec_ret h hh bad
  · exact traps_through exec_callIndirect h hh bad

end Sys2Proof.Slice0
end

section
namespace Sys2Proof.Slice0
open Machine

/-! # Words that write no register of their lanes (O8, O11, O13)

A lane of such a word completes, leaves its path by the word's own effect, or ends. -/

/-- An outcome without register writes, traps or faults. -/
def Bare (r : LaneRes) : Prop := r = .done ∨ r = .gone ∨ r = .exits

/-- The lanes of the path that go on. -/
def staying (s : State) (res : List (Nat × LaneRes)) : List Nat := (lanesOf s.cur.lanes).filter fun i => (s.wayOn res i).isSome

/-- Some lanes of the path in issue go on at the next word; nothing else changes but groups' paths and accounts, and cores. -/
structure WentOn (s : State) (c : Ctl) (stay : List Nat) (v u : State) : Prop where
  rest : u.rest = v.rest
  groups : ∀ h, (u.grp h).still = (v.grp h).still
  stays : ∀ l ∈ stay, u.thr (tid s.curG l) = s.onward c s.curNext (v.thr (tid s.curG l))
  others : ∀ t, (∀ l ∈ stay, t ≠ tid s.curG l) → u.thr t = v.thr t

section
variable {s v : State} {c : Ctl} {p : List Nat} {f : Nat → LaneRes}

theorem acted_of_res (v : State) (res : List (Nat × LaneRes)) : (Acted.of v res).res = res := rfl

theorem writeBack_bare (g : Nat) (lat : Option Nat) (op : Nat) (hf : ∀ l ∈ p, Bare (f l)) (v : State) :
    let u := State.writeBack g lat op (p.map fun l => (l, f l)) v
    u = { v with threads := u.threads } ∧ ∀ t, u.thr t = v.thr t := by
  induction p generalizing v with
  | nil => exact ⟨rfl, fun _ => rfl⟩
  | cons l p ih =>
    have ih := ih fun k hk => hf k (List.mem_cons_of_mem _ hk)
    rw [List.map_cons]
    rcases hf l List.mem_cons_self with e | e | e <;> rw [e]
    · obtain ⟨keeps, same⟩ := ih (v.pendAll (tid g l) lat op [])
      refine ⟨keeps, fun t => (same t).trans ?_⟩
      rw [State.pendAll_eq, State.thr_modThr]
      split
      · subst_vars; rfl
      · rfl
    · exact ih v
    · exact ih v

theorem wayOn_bare (hf : ∀ l ∈ p, Bare (f l)) (i : Nat) :
    s.wayOn (p.map fun l => (l, f l)) i = if i ∈ p ∧ f i ≠ .done then none else some s.curNext := by
  rw [State.wayOn, State.find_map]
  by_cases hi : i ∈ p
  · rcases hf i hi with e | e | e <;> simp [hi, e, LaneRes.done]
  · simp [hi]

theorem mem_staying (hf : ∀ l ∈ p, Bare (f l)) {i : Nat} :
    i ∈ staying s (p.map fun l => (l, f l)) ↔ i ∈ lanesOf s.cur.lanes ∧ (i ∈ p → f i = .done) := by
  rw [staying, List.mem_filter, wayOn_bare hf]
  by_cases h : i ∈ p ∧ f i ≠ .done
  · rw [if_pos h]
    exact ⟨nofun, fun path => absurd (path.2 h.1) h.2⟩
  · rw [if_neg h]
    exact ⟨fun path => ⟨path.1, fun hi => not_not.1 fun e => h ⟨hi, e⟩⟩, fun path => ⟨path.1, rfl⟩⟩

/-- The word is accounted, nothing is written, and the lanes that stay go on. -/
theorem retire_bare (hc : s.Calm) (hv : s.Undisturbed v) (hf : ∀ l ∈ p, Bare (f l)) (n : Nat) (rs : List RegId) :
    ∃ x, s.retire c (.fixA n rs) (Acted.of v (p.map fun l => (l, f l))) [] = State.closeWord c (p.map fun l => (l, f l)) s x ∧
      WentOn s c (staying s (p.map fun l => (l, f l))) v x := by
  let res := p.map fun l => (l, f l)
  let y := State.writeBack s.curG (some n) 0 res (v.charge s.curG s.cur.mapCls)
  obtain ⟨keeps, same⟩ : y = { v.charge s.curG s.cur.mapCls with threads := y.threads } ∧ _ := writeBack_bare s.curG (some n) 0 hf _
  have cur : y.cur = s.cur := (congrArg (·.cur) keeps).trans hv.cur
  have cycle : y.cycle = s.cycle := (congrArg (·.cycle) keeps).trans hv.cycle
  have samples : y.samples = [] := (congrArg (·.samples) keeps).trans hv.samples
  have path : ∀ i ∈ staying s res, i ∈ lanesOf s.cur.lanes := fun i hi => ((mem_staying hf).1 hi).1
  have nodup : (staying s res).Nodup := (lanesOf_nodup _).filter _
  have inj : ∀ i ∈ staying s res, ∀ j ∈ staying s res, tid s.curG i = tid s.curG j → i = j :=
    fun i hi j hj => hc.inj (path i hi) (path j hj)
  have goes : State.goOn c res s y = State.lanesMod s.curG (fun _ => s.onward c s.curNext) (staying s res) y := by
    refine (State.foldl_way (s.wayOn res) (fun s' i r => s'.advance s.curG c.stall.toNat i r) _ y).trans ?_
    refine State.advance_fold s.curG c _ (fun _ => s.curNext) _ y s (fun i hi => ?_) cur cycle
      (fun i hi => (congrArg (·.stepping) (same _)).trans (hv.steps i (path i hi))) nodup inj
    rw [wayOn_bare hf, if_neg fun h => h.2 (((mem_staying hf).1 hi).2 h.1)]
  let x := State.lanesMod s.curG (fun _ => s.onward c s.curNext) (staying s res) y
  have xsamples : x.samples = [] := (State.lanesMod_samples ..).trans samples
  refine ⟨x, ?_, ?_, fun h => ?_, fun l hl => ?_, fun t ht => ?_⟩
  · have results : State.results c (.fixA n rs) (Acted.of v res) res s = (y, 0) := rfl
    have app : p.map (fun l => (l, f l)) ++ [] = res := List.append_nil _
    unfold State.retire
    simp only [acted_of_res, app]
    rw [results]
    simp only [goes]
    rw [State.sampleWord_calm x _ _ _ _ _ xsamples (absurd · Bool.false_ne_true)]
  · rw [State.lanesMod_rest, keeps]
    rfl
  · rw [State.lanesMod_grp, keeps]
    exact State.still_charge ..
  · rw [State.lanesMod_same _ _ _ _ l hl nodup (inj l hl), same]
    rfl
  · rw [State.lanesMod_other _ _ _ _ _ ht, same]
    rfl

theorem faultsOf_bare (hf : ∀ l ∈ p, Bare (f l)) : State.faultsOf (p.map fun l => (l, f l)) = [] := by
  rw [State.faultsOf, List.filterMap_map, List.filterMap_eq_nil_iff]
  intro l hl
  rcases hf l hl with e | e | e <;> simp [e, LaneRes.done]

/-- The pipeline of a word whose participants have the outcomes `f` and whose action leaves the state `v`. -/
theorem word_bare {n : Nat} {rs : List RegId} {act : State → List Nat → Acted} (h : s.Acts c (.fixA n rs) p)
    (ha : act s p = Acted.of v (p.map fun l => (l, f l))) (hv : s.Undisturbed v) (hf : ∀ l ∈ p, Bare (f l)) :
    ∃ x, s.word c (.fixA n rs) act = (State.closeWord c (p.map fun l => (l, f l)) s x).out ∧
      WentOn s c (staying s (p.map fun l => (l, f l))) v x := by
  obtain ⟨x, retires, went⟩ := retire_bare h.1 hv hf n rs
  refine ⟨x, ?_, went⟩
  rw [← retires]
  unfold State.word
  simp only [h.2, ha, acted_of_res, faultsOf_bare hf, ite_self]

/-! ## The end of the clause (R22, R28) -/

/-- The clause in issue goes on, or ends and leaves the path to the lanes that stay. -/
def clauseEnd (s : State) (c : Ctl) (stay : List Nat) (x : State) : State :=
  if s.curLast then (x.advanceSel c.stall.toNat).repath s.curG stay else x.advanceSel c.stall.toNat

theorem clauseEnd_thr (stay : List Nat) (x : State) (t : Nat) : (clauseEnd s c stay x).thr t = x.thr t := by
  unfold clauseEnd
  split
  · exact State.repath_thr ..
  · rfl

theorem WentOn.clauseEnd {stay : List Nat} {x : State} (h : WentOn s c stay v x) (left : List Nat) :
    WentOn s c stay v (clauseEnd s c left x) where
  rest := by
    rw [← h.rest]
    unfold Slice0.clauseEnd
    split
    · exact State.repath_rest ..
    · rfl
  groups g := by
    rw [← h.groups g]
    unfold Slice0.clauseEnd
    split
    · exact State.repath_still ..
    · rfl
  stays l hl := (clauseEnd_thr ..).trans (h.stays l hl)
  others t ht := (clauseEnd_thr ..).trans (h.others t ht)

/-- The end of a word without register writes, from the state `y` that its leaving lanes have left. -/
theorem closeWord_bare {x y : State} (hf : ∀ l ∈ p, Bare (f l)) (left : State.leave s.curG (p.map fun l => (l, f l)) x = y)
    (steps : ∀ i ∈ lanesOf s.cur.lanes, (y.thr (tid s.curG i)).stepping = false)
    (quiet : ∀ i ∈ staying s (p.map fun l => (l, f l)), (y.thr (tid s.curG i)).quiet = true) :
    State.closeWord c (p.map fun l => (l, f l)) s x =
      let res := p.map fun l => (l, f l)
      let z := clauseEnd s c (staying s res) y
      let z := if res.any (fun r => r.2 == .exits) then z.exited s.curG else z
      let z := if res.all (fun r => r.2.isNext) then z else z.reconvRelease s.curG
      if z.samples.isEmpty then z else State.sampleSettle z.samples z := by
  have stepOut := State.stepOut_calm (clauseEnd s c (staying s (p.map fun l => (l, f l))) y) s.curG (lanesOf s.cur.lanes)
    fun i hi => by rw [clauseEnd_thr]; exact steps i hi
  have bound := State.boundary_fold_calm (clauseEnd s c (staying s (p.map fun l => (l, f l))) y) s.curG
    (staying s (p.map fun l => (l, f l))) fun i hi => by rw [clauseEnd_thr]; exact quiet i hi
  unfold clauseEnd staying at stepOut bound
  unfold State.closeWord
  simp only [left, faultsOf_bare hf, State.parkLanes_nil, stepOut, bound, ite_self]
  rfl

/-! ## What going on leaves of a lane -/

theorem onward_same (s : State) (c : Ctl) (r : W64) (x : Thread) :
    (s.onward c r x).stepping = x.stepping ∧ (s.onward c r x).stat = x.stat ∧ (s.onward c r x).quiet = x.quiet ∧
      (s.onward c r x).handler = x.handler ∧ (s.onward c r x).halt = x.halt ∧ (s.onward c r x).yielded = x.yielded := by
  unfold State.onward
  dsimp only
  split <;> exact ⟨rfl, rfl, rfl, rfl, rfl, rfl⟩

theorem undisturbed_lanesMod {f : Nat → Thread → Thread} (h : s.Undisturbed v) (g : Nat) (l : List Nat)
    (hf : ∀ i x, (f i x).quiet = x.quiet ∧ (f i x).stepping = x.stepping) : s.Undisturbed (State.lanesMod g f l v) := by
  have same : ∀ t, ((State.lanesMod g f l v).thr t).quiet = (v.thr t).quiet ∧
      ((State.lanesMod g f l v).thr t).stepping = (v.thr t).stepping := fun t => by
    refine State.foldl_keeps (fun u : State => (u.thr t).quiet = (v.thr t).quiet ∧ (u.thr t).stepping = (v.thr t).stepping)
      _ l v ⟨rfl, rfl⟩ fun u hu i _ => ?_
    rw [State.thr_modThr]
    split
    · subst_vars
      exact ⟨(hf i _).1.trans hu.1, (hf i _).2.trans hu.2⟩
    · exact hu
  exact ⟨by simpa using h.hole, by simpa using h.cur, by simpa using h.cycle, by simpa using h.samples, by simpa using h.armed,
    fun i hi => (same _).1.trans (h.quiet i hi), fun i hi => (same _).2.trans (h.steps i hi)⟩

/-- A word that acts in turn, with one outcome for all its participants. -/
theorem eachLane_const (s : State) (g : Nat) (p : List Nat) (act : State → Nat → State) (r : LaneRes) :
    s.eachLane g p (fun s t => (act s t, r)) = (p.foldl (fun s l => act s (tid g l)) s, p.map fun l => (l, r)) := by
  have key : ∀ (p : List Nat) (s : State) (done : List (Nat × LaneRes)),
      p.foldl (fun (x : State × List (Nat × LaneRes)) l => (act x.1 (tid g l), x.2 ++ [(l, r)])) (s, done) =
        (p.foldl (fun s l => act s (tid g l)) s, done ++ p.map fun l => (l, r)) := by
    intro p
    induction p with
    | nil => intro s done; rw [List.map_nil, List.append_nil]; rfl
    | cons l p ih => intro s done; rw [List.foldl_cons, ih, List.append_assoc]; rfl
  exact key p s []

theorem inTurn_bare {n : Nat} {rs : List RegId} {act : State → Nat → State} {r : LaneRes} (h : s.Acts c (.fixA n rs) p)
    (hv : s.Undisturbed (p.foldl (fun v l => act v (tid s.curG l)) s)) (hr : Bare r) :
    ∃ x, s.inTurn c (.fixA n rs) (fun s t => (act s t, r)) = (State.closeWord c (p.map fun l => (l, r)) s x).out ∧
      WentOn s c (staying s (p.map fun l => (l, r))) (p.foldl (fun v l => act v (tid s.curG l)) s) x :=
  word_bare h (congrArg (fun e => Acted.of e.1 e.2) (eachLane_const s s.curG p act r)) hv fun _ _ => hr

end

/-! ## `IDEM` (R45, R184) -/

/-- The count of a region rises modulo 2^32. -/
theorem raised_eq (x : W64) : (x + 1) &&& 0xFFFFFFFF#64 = (x.setWidth 32 + 1).setWidth 64 := by
  refine (and_low (x + 1) (k := 32) (by decide)).trans (congrArg (BitVec.setWidth 64) ?_)
  exact BitVec.setWidth_add x 1 (by decide)

theorem idem_writes {s : State} {c : Ctl} {p : List Nat} (h : s.Acts c (.fixA 2 []) p) : s.Writes (.idem c) c p 2 (fun l =>
    [(.s .re, .w (resumeAt s.cur.hdr s.cur.word)),
     (.s .rc, .w ((((s.thr (tid s.curG l)).archW (.s .rc)).setWidth 32 + 1).setWidth 64))]) :=
  (State.writes_of_perLane _ exec_idem h rfl rfl fun _ _ => rfl).congr fun l _ => by rw [raised_eq]; rfl

/-! ## `YIELD` (R27, R28, R175) -/

def yielding (x : Thread) : Thread := { x with yielded := 16 }

/-- A path whose lanes have all yielded leaves no current path. -/
theorem repath_yielded {s : State} {g : Nat} {left : List Nat} (hp : (s.grp g).pp = false)
    (hy : ∀ l ∈ left, (s.thr (tid g l)).yielded = 16) : ((s.repath g left).grp g).cur = 0 := by
  have none : left.filter (fun i => (s.thr (tid g i)).yielded != 16) = [] :=
    List.filter_eq_nil_iff.2 fun l hl => by rw [hy l hl]; decide
  unfold State.repath
  simp only [hp, Bool.false_eq_true, if_false, none, State.grp_setGrp_same]
  rfl

theorem yield_sets (s : State) (c : Ctl) (p : List Nat) (h : s.Acts c (.fixA 1 []) p) :
    ∃ u, exec (.yield c) s = .next u ∧ s.Frame u ∧
      (∀ l ∈ lanesOf s.cur.lanes, l ∉ p → u.thr (tid s.curG l) = s.onward c s.curNext (s.thr (tid s.curG l))) ∧
      (∀ l ∈ p, u.thr (tid s.curG l) = s.onward c s.curNext (yielding (s.thr (tid s.curG l)))) ∧
      (s.curLast = true → (s.grp s.curG).pp = false → (∀ l ∈ lanesOf s.cur.lanes, l ∈ p) → (u.grp s.curG).cur = 0) := by
  obtain ⟨sub, nodup⟩ := State.gate_go h.2
  have inj : ∀ i ∈ lanesOf s.cur.lanes, ∀ j ∈ p, tid s.curG i = tid s.curG j → i = j := fun i hi j hj => h.1.inj hi (sub j hj)
  let v := State.lanesMod s.curG (fun _ => yielding) p s
  have hv : s.Undisturbed v := undisturbed_lanesMod h.1.undisturbed _ _ fun _ _ => ⟨rfl, rfl⟩
  have hf : ∀ l ∈ p, Bare LaneRes.done := fun _ _ => .inl rfl
  obtain ⟨x, ends, went⟩ := inTurn_bare (act := fun s t => s.modThr t yielding) h hv (.inl rfl)
  have stays : ∀ l ∈ lanesOf s.cur.lanes, l ∈ staying s (p.map fun l => (l, .done)) := fun l hl => (mem_staying hf).2 ⟨hl, fun _ => rfl⟩
  have lane : ∀ l ∈ lanesOf s.cur.lanes, x.thr (tid s.curG l) = s.onward c s.curNext (v.thr (tid s.curG l)) :=
    fun l hl => went.stays l (stays l hl)
  let u := clauseEnd s c (staying s (p.map fun l => (l, .done))) x
  have done : WentOn s c _ v u := went.clauseEnd _
  have closes : State.closeWord c (p.map fun l => (l, .done)) s x = u :=
    State.closeWord_calm s x c _ (fun e he => by obtain ⟨l, -, rfl⟩ := List.mem_map.1 he; rfl)
      (fun l hl => by rw [lane l hl, (onward_same ..).2.2.1]; exact hv.quiet l hl)
      (fun l hl => by rw [lane l hl, (onward_same ..).1]; exact hv.steps l hl) ((congrArg (·.samples) went.rest).trans hv.samples)
  have hole : u.hole = false := (congrArg (·.hole) done.rest).trans hv.hole
  refine ⟨u, ?_, ⟨done.rest.trans (State.lanesMod_rest ..), fun g => (done.groups g).trans ?_, fun t ht => ?_⟩, fun l hl hlp => ?_,
    fun l hl => ?_, fun last pp all => ?_⟩
  · refine (exec_yield.trans ends).trans ?_
    rw [closes, State.out, hole, if_neg Bool.false_ne_true]
  · rw [State.lanesMod_grp]
  · rw [done.others t fun l hl => ht l (List.mem_of_mem_filter hl)]
    exact State.lanesMod_other _ _ _ _ _ fun l hl => ht l (sub l hl)
  · rw [done.stays l (stays l hl)]
    exact congrArg _ (State.lanesMod_out _ _ _ _ l hlp (inj l hl))
  · rw [done.stays l (stays l (sub l hl))]
    exact congrArg _ (State.lanesMod_same _ _ _ _ l hl nodup (inj l (sub l hl)))
  · have yielded : ∀ l ∈ p, ((x.advanceSel c.stall.toNat).thr (tid s.curG l)).yielded = 16 := fun l hl => by
      rw [State.advanceSel_thr, lane l (sub l hl), (onward_same ..).2.2.2.2.2]
      exact congrArg (·.yielded) (State.lanesMod_same _ _ _ _ l hl nodup (inj l (sub l hl)))
    have e : u = (x.advanceSel c.stall.toNat).repath s.curG _ := if_pos last
    rw [e]
    refine repath_yielded ?_ fun l hl => yielded l (all l (List.mem_of_mem_filter hl))
    have same : (x.grp s.curG).still = (v.grp s.curG).still := went.groups s.curG
    rw [State.lanesMod_grp] at same
    exact (congrArg (·.pp) same).trans pp

/-- Settles O8: `IDEM` writes in each lane alone; the lanes of a `YIELD` go on with their new count, which no path's choice passes over. -/
theorem idemAndYield : Obligations.IdemAndYield := fun s c p => ⟨idem_writes, yield_sets s c p⟩

end Sys2Proof.Slice0
end

section
namespace Sys2Proof.Slice0
open Machine

/-! # Words whose participants leave the path (O11, O13)

## Their end (R22, R28, R29) -/

/-- The participants have left the path, the other lanes go on, and the paths and accounts of groups and the cores may have changed. -/
structure PathLeft (s : State) (c : Ctl) (p : List Nat) (v u : State) : Prop where
  rest : u.rest = v.rest
  groups : ∀ h, (u.grp h).still = (v.grp h).still
  left : ∀ l ∈ p, u.thr (tid s.curG l) = v.thr (tid s.curG l)
  stays : ∀ l ∈ lanesOf s.cur.lanes, l ∉ p → u.thr (tid s.curG l) = s.onward c s.curNext (v.thr (tid s.curG l))
  others : ∀ t, (∀ l ∈ lanesOf s.cur.lanes, t ≠ tid s.curG l) → u.thr t = v.thr t

/-- The lanes of a path are lanes of its group. -/
theorem path_groupLanes {s : State} (h : s.Calm) {l : Nat} (hl : l ∈ lanesOf s.cur.lanes) : l ∈ groupLanes s.curG := by
  unfold groupLanes
  rw [groupCore_curG s h.slot]
  split
  · next bow => rwa [h.bow bow, lanesOf_one] at hl
  · exact List.mem_range.2 (mem_lanesOf.1 hl).1

section
variable {s v : State} {c : Ctl} {p : List Nat}

theorem bare_gone : ∀ l ∈ p, Bare ((fun _ => LaneRes.gone) l) := fun _ _ => .inr (.inl rfl)

theorem mem_staying_gone {l : Nat} : l ∈ staying s (p.map fun l => (l, .gone)) ↔ l ∈ lanesOf s.cur.lanes ∧ l ∉ p :=
  (mem_staying (f := fun _ => .gone) bare_gone).trans (and_congr_right fun _ => ⟨fun h hl => LaneRes.noConfusion (h hl), fun h hl => absurd hl h⟩)

theorem WentOn.pathLeft {stay : List Nat} {u : State} (h : WentOn s c stay v u) (hc : s.Calm) (hp : ∀ l ∈ p, l ∈ lanesOf s.cur.lanes)
    (hs : ∀ l, l ∈ stay ↔ l ∈ lanesOf s.cur.lanes ∧ l ∉ p) : PathLeft s c p v u where
  rest := h.rest
  groups := h.groups
  left l hl := h.others _ fun j hj e => by
    obtain ⟨path, out⟩ := (hs j).1 hj
    exact out (hc.inj (hp l hl) path e ▸ hl)
  stays l hl out := h.stays l ((hs l).2 ⟨hl, out⟩)
  others t ht := h.others t fun l hl => ht l ((hs l).1 hl).1

theorem PathLeft.undisturbed {u : State} (h : PathLeft s c p v u) (hv : s.Undisturbed v) : s.Undisturbed u := by
  have lane : ∀ l ∈ lanesOf s.cur.lanes, (u.thr (tid s.curG l)).quiet = (v.thr (tid s.curG l)).quiet ∧
      (u.thr (tid s.curG l)).stepping = (v.thr (tid s.curG l)).stepping := fun l hl => by
    by_cases hp : l ∈ p
    · rw [h.left l hp]
      exact ⟨rfl, rfl⟩
    · obtain ⟨steps, -, quiet, -⟩ := onward_same s c s.curNext (v.thr (tid s.curG l))
      rw [h.stays l hl hp]
      exact ⟨quiet, steps⟩
  exact ⟨(congrArg (·.hole) h.rest).trans hv.hole, (congrArg (·.cur) h.rest).trans hv.cur, (congrArg (·.cycle) h.rest).trans hv.cycle,
    (congrArg (·.samples) h.rest).trans hv.samples, (congrArg (·.armed) (h.groups s.curG)).trans hv.armed,
    fun l hl => (lane l hl).1.trans (hv.quiet l hl), fun l hl => (lane l hl).2.trans (hv.steps l hl)⟩

theorem leave_gone (g : Nat) (x : State) : State.leave g (p.map fun l => (l, .gone)) x = x := by
  induction p with
  | nil => rfl
  | cons l p ih => exact ih

/-- A word by whose effect its participants have left the path ends with the release of `RECONV` (R29). -/
theorem word_gone {n : Nat} {rs : List RegId} {act : State → List Nat → Acted} (h : s.Acts c (.fixA n rs) p)
    (ha : act s p = Acted.of v (p.map fun l => (l, .gone))) (hv : s.Undisturbed v) :
    ∃ u, PathLeft s c p v u ∧ s.word c (.fixA n rs) act = (if p = [] then u else u.reconvRelease s.curG).out := by
  obtain ⟨sub, -⟩ := State.gate_go h.2
  obtain ⟨x, ends, went⟩ := word_bare (f := fun _ => .gone) h ha hv bare_gone
  have before := (went.pathLeft h.1 sub fun _ => mem_staying_gone).undisturbed hv
  let u := clauseEnd s c (staying s (p.map fun l => (l, .gone))) x
  have after : PathLeft s c p v u := (went.clauseEnd _).pathLeft h.1 sub fun _ => mem_staying_gone
  refine ⟨u, after, ends.trans (congrArg State.out ?_)⟩
  have exits : (p.map fun l => (l, LaneRes.gone)).any (fun r => r.2 == .exits) = false := by
    rw [List.any_map, List.any_eq_false]
    exact fun _ _ => Bool.false_ne_true
  have nexts : (p.map fun l => (l, LaneRes.gone)).all (fun r => r.2.isNext) = true ↔ p = [] := by
    cases p <;> simp [LaneRes.isNext]
  have samples : (if p = [] then u else u.reconvRelease s.curG).samples = [] := by
    have := (after.undisturbed hv).samples
    split
    · exact this
    · rw [State.reconvRelease_keeps, this]
  rw [closeWord_bare bare_gone (leave_gone ..) before.steps fun l hl => before.quiet l (mem_staying_gone.1 hl).1]
  simp only [exits, Bool.false_eq_true, if_false, nexts]
  rw [samples]
  rfl

theorem inTurn_gone {n : Nat} {rs : List RegId} {act : State → Nat → State} (h : s.Acts c (.fixA n rs) p)
    (hv : s.Undisturbed (p.foldl (fun v l => act v (tid s.curG l)) s)) :
    ∃ u, PathLeft s c p (p.foldl (fun v l => act v (tid s.curG l)) s) u ∧
      s.inTurn c (.fixA n rs) (fun s t => (act s t, .gone)) = (if p = [] then u else u.reconvRelease s.curG).out :=
  word_gone h (congrArg (fun e => Acted.of e.1 e.2) (eachLane_const s s.curG p act .gone)) hv

end

/-! ## Where no `RECONV` is released (R29) -/

/-- A parked thread of the group, or a counted one that is not at a `RECONV`, holds every release back. -/
theorem reconvRelease_held {s : State} {g l : Nat} (hl : l ∈ groupLanes g)
    (h : (∃ tok, (s.thr (tid g l)).stat = .parked tok) ∨ s.counted (tid g l) = true ∧ s.reconvAt (tid g l) = none) :
    s.reconvRelease g = s := by
  have ht : tid g l ∈ (groupLanes g).map (tid g) := List.mem_map_of_mem hl
  unfold State.reconvRelease
  dsimp only
  refine if_pos ?_
  rw [Bool.or_eq_true, Bool.or_eq_true]
  obtain ⟨tok, parked⟩ | ⟨counted, away⟩ := h
  · exact .inl (.inl (List.any_eq_true.2 ⟨_, ht, by rw [parked]⟩))
  · exact .inr (List.any_eq_true.2 ⟨_, List.mem_filter.2 ⟨ht, counted⟩, by rw [away]; rfl⟩)

theorem counted_running {s : State} {t : Nat} (hr : (s.thr t).stat = .run) (hh : (s.thr t).handler = none) :
    s.counted t = true ∧ s.reconvAt t = none := by
  unfold State.counted State.reconvAt
  dsimp only
  rw [hr, hh]
  exact ⟨rfl, rfl⟩

end Sys2Proof.Slice0
end

section
namespace Sys2Proof.Slice0
open Machine

/-! # `TRAP` and `BRK` (O11)

## Lanes that halt for a debugger (R398) -/

/-- Nothing changes but threads, the paths and accounts of groups, cores, and what clusters have heard. -/
structure Kept (s u : State) : Prop where
  rest : butClusters u.rest = butClusters s.rest
  groups : ∀ h, (u.grp h).still = (s.grp h).still

theorem Kept.trans {s u v : State} (h : Kept s u) (h' : Kept u v) : Kept s v :=
  ⟨h'.rest.trans h.rest, fun g => (h'.groups g).trans (h.groups g)⟩

theorem Kept.ops {s u : State} (h : Kept s u) : u.ops = s.ops := (congrArg (·.ops) h.rest : _)
theorem Kept.bound {s u : State} (h : Kept s u) (g : Nat) : (u.grp g).bound = (s.grp g).bound := (congrArg (·.bound) (h.groups g) : _)

theorem Hears.kept {s u : State} (h : Hears s u) : Kept s u :=
  ⟨congrArg State.rest h.1, fun g => (congrArg (fun z : State => (z.grp g).still) h.1 : _)⟩

theorem Hears.thr {s u : State} (h : Hears s u) (t : Nat) : u.thr t = s.thr t :=
  (congrArg (fun z : State => z.thr t) h.1 : _)

theorem Hears.hole {s u : State} (h : Hears s u) : u.hole = s.hole := (congrArg (·.hole) h.1 : _)

theorem modThr_kept (s : State) (t : Nat) (f : Thread → Thread) : Kept s (s.modThr t f) := ⟨rfl, fun _ => rfl⟩

theorem dropLanes_kept (s : State) (g : Nat) (m : BitVec 32) : Kept s (s.dropLanes g m) := by
  refine ⟨rfl, fun h => ?_⟩
  show ((s.setGrp g _).grp h).still = _
  rw [State.grp_setGrp]
  split
  · subst_vars; rfl
  · rfl

theorem unsleep_awake {s : State} {t : Nat} (h : ∀ id, (s.thr t).stat ≠ .sleep id) : s.unsleep t = s := by
  unfold State.unsleep
  split
  · next id e => exact absurd e (h id)
  · rfl

theorem hasOps_congr {s u : State} (h : u.ops = s.ops) (t : Nat) : u.hasOps t = s.hasOps t := by
  unfold State.hasOps
  rw [h]

/-- While a thread of a bound group has not exited, arrivals on its cluster end nothing (R35, R36). -/
theorem arrivals_hears {s : State} {g l : Nat} (hb : (s.grp g).bound = true) (hl : l ∈ groupLanes g)
    (hr : (s.thr (tid g l)).stat ≠ .exited) : Hears s (s.arrivals (coreCluster (groupCore g))) := by
  have lives : ((groupLanes g).all fun i => (s.thr (tid g i)).stat == .exited) = false :=
    List.all_eq_false.2 ⟨l, hl, by simpa using hr⟩
  have exited := exited_hears hb hl hr
  unfold State.exited at exited
  rwa [lives, Bool.and_false, if_neg Bool.false_ne_true] at exited

/-- A lane that has just left issue for a debugger halt, at a resume address. -/
def halting (r : W64) (code : BitVec 16) (x : Thread) : Thread := { x.goto r with halt := some ⟨1, code, false⟩ }

/-- A running lane that a word sends on and halts, before its report. -/
def leftIssue (s : State) (g l : Nat) (r : W64) (code : BitVec 16) : State :=
  ((s.modThr (tid g l) (·.goto r)).dropLanes g (1#32 <<< l)).modThr (tid g l) fun x => { x with halt := some ⟨1, code, false⟩ }

theorem leftIssue_kept (s : State) (g l : Nat) (r : W64) (code : BitVec 16) : Kept s (leftIssue s g l r code) :=
  ((modThr_kept ..).trans (dropLanes_kept ..)).trans (modThr_kept ..)

theorem leftIssue_same (s : State) (g l : Nat) (r : W64) (code : BitVec 16) :
    (leftIssue s g l r code).thr (tid g l) = halting r code (s.thr (tid g l)) := by
  rw [leftIssue, State.thr_modThr_same, State.dropLanes_thr, State.thr_modThr_same]
  rfl

theorem leftIssue_other (s : State) {g l t : Nat} (r : W64) (code : BitVec 16) (h : t ≠ tid g l) :
    (leftIssue s g l r code).thr t = s.thr t := by
  rw [leftIssue, State.thr_modThr_other _ _ h, State.dropLanes_thr, State.thr_modThr_other _ _ h]

/-- A thread of a group, found by its number. -/
structure Names (g l : Nat) : Prop where
  lane : l ∈ groupLanes g
  group : threadGroup (tid g l) = g
  number : threadLane (tid g l) = l

theorem Calm.names {s : State} (h : s.Calm) {l : Nat} (hl : l ∈ lanesOf s.cur.lanes) : Names s.curG l :=
  ⟨path_groupLanes h hl, h.threadGroup hl, h.threadLane hl⟩

/-- A running lane that a word sends on and halts reports, and its cluster learns of it. -/
theorem haltLane_running {s : State} {g l : Nat} (n : Names g l) (hr : (s.thr (tid g l)).stat = .run) (r : W64) (code : BitVec 16) :
    (s.modThr (tid g l) (·.goto r)).haltLane (tid g l) 1 code.toNat =
      ((leftIssue s g l r code).haltReport (tid g l)).arrivals (coreCluster (groupCore g)) := by
  have awake : ∀ id, ((s.modThr (tid g l) (·.goto r)).thr (tid g l)).stat ≠ .sleep id := fun id => by
    rw [State.thr_modThr_same]
    exact fun e => TStat.noConfusion (hr.symm.trans e)
  unfold State.haltLane
  rw [unsleep_awake awake, n.group, n.number, BitVec.ofNat_toNat, BitVec.setWidth_eq]
  rfl

/-- A lane with an operation outstanding halts without a report. -/
theorem haltLane_silent {s : State} {g l : Nat} (n : Names g l) (hb : (s.grp g).bound = true) (hr : (s.thr (tid g l)).stat = .run)
    (ho : s.hasOps (tid g l) = true) (r : W64) (code : BitVec 16) :
    Hears (leftIssue s g l r code) ((s.modThr (tid g l) (·.goto r)).haltLane (tid g l) 1 code.toNat) := by
  have kept := leftIssue_kept s g l r code
  have ops : (leftIssue s g l r code).hasOps (tid g l) = true := (hasOps_congr kept.ops _).trans ho
  have silent : (leftIssue s g l r code).haltReport (tid g l) = leftIssue s g l r code := by
    unfold State.haltReport
    rw [leftIssue_same, ops]
    rfl
  rw [haltLane_running n hr, silent]
  refine arrivals_hears ((kept.bound g).trans hb) n.lane ?_
  rw [leftIssue_same]
  exact fun e => TStat.noConfusion (hr.symm.trans e)

/-- A lane of a `BRK` that halts. -/
def brkLane (code : BitVec 16) (s : State) (t : Nat) : State := (s.modThr t (·.goto (resumeAt s.curEnd 0))).haltLane t 1 code.toNat

theorem Kept.cur {s u : State} (h : Kept s u) : u.cur = s.cur := (congrArg (·.cur) h.rest : _)

theorem curEnd_congr {s u : State} (h : u.cur = s.cur) : u.curEnd = s.curEnd := by
  rw [State.curEnd, h, State.curEnd]

/-- Lanes with operations outstanding halt one after the other, without a report. -/
theorem haltAll_silent {g : Nat} {r : W64} (code : BitVec 16) (p : List Nat) (hn : p.Nodup) (s : State) (place : resumeAt s.curEnd 0 = r)
    (hb : (s.grp g).bound = true) (hp : ∀ l ∈ p, Names g l ∧ (s.thr (tid g l)).stat = .run ∧ s.hasOps (tid g l) = true) :
    let v := p.foldl (fun v l => brkLane code v (tid g l)) s
    Kept s v ∧ (∀ l ∈ p, v.thr (tid g l) = halting r code (s.thr (tid g l))) ∧ ∀ t, (∀ l ∈ p, t ≠ tid g l) → v.thr t = s.thr t := by
  induction p generalizing s with
  | nil => exact ⟨⟨rfl, fun _ => rfl⟩, nofun, fun _ _ => rfl⟩
  | cons l p ih =>
    obtain ⟨out, hn⟩ := List.nodup_cons.1 hn
    obtain ⟨names, runs, ops⟩ := hp l List.mem_cons_self
    let u := brkLane code s (tid g l)
    have hears : Hears (leftIssue s g l r code) u := place ▸ haltLane_silent names hb runs ops _ code
    have kept : Kept s u := (leftIssue_kept ..).trans hears.kept
    have other : ∀ t, t ≠ tid g l → u.thr t = s.thr t := fun t ht => (hears.thr t).trans (leftIssue_other s r code ht)
    have apart : ∀ k ∈ p, tid g k ≠ tid g l := fun k hk e =>
      out (groupLanes_inj (hp k (List.mem_cons_of_mem _ hk)).1.lane names.lane e ▸ hk)
    have ends : resumeAt u.curEnd 0 = r := (congrArg (resumeAt · 0) (curEnd_congr kept.cur)).trans place
    obtain ⟨rest, halts, others⟩ := ih hn u ends ((kept.bound g).trans hb) fun k hk => by
      obtain ⟨a, b, d⟩ := hp k (List.mem_cons_of_mem _ hk)
      exact ⟨a, (congrArg (·.stat) (other _ (apart k hk))).trans b, (hasOps_congr kept.ops _).trans d⟩
    refine ⟨kept.trans rest, fun k hk => ?_, fun t ht => ?_⟩
    · rcases List.mem_cons.1 hk with rfl | hk
      · rw [List.foldl_cons, others _ fun j hj => (apart j hj).symm, hears.thr, leftIssue_same]
      · rw [List.foldl_cons, halts k hk, other _ (apart k hk)]
    · rw [List.foldl_cons, others t fun j hj => ht j (List.mem_cons_of_mem _ hj), other t (ht l List.mem_cons_self)]

/-! ## The record of a halt (R398) -/

theorem evRecord_word4 (cycle ty c core slot fdom rcb w3 w4 w5 w6 w7 : Nat) :
    (evRecord cycle ty c core slot fdom rcb w3 w4 w5 w6 w7).extractLsb' 256 64 = BitVec.ofNat 64 w4 := by
  apply BitVec.eq_of_toNat_eq
  simp only [evRecord, BitVec.extractLsb'_toNat, BitVec.toNat_ofNat, Nat.shiftRight_eq_div_pow]
  omega

theorem evRecord_word5 (cycle ty c core slot fdom rcb w3 w4 w5 w6 w7 : Nat) :
    (evRecord cycle ty c core slot fdom rcb w3 w4 w5 w6 w7).extractLsb' 320 64 = BitVec.ofNat 64 w5 := by
  apply BitVec.eq_of_toNat_eq
  simp only [evRecord, BitVec.extractLsb'_toNat, BitVec.toNat_ofNat, Nat.shiftRight_eq_div_pow]
  omega

theorem evRecord_word6 (cycle ty c core slot fdom rcb w3 w4 w5 w6 w7 : Nat) :
    (evRecord cycle ty c core slot fdom rcb w3 w4 w5 w6 w7).extractLsb' 384 64 = BitVec.ofNat 64 w6 := by
  apply BitVec.eq_of_toNat_eq
  simp only [evRecord, BitVec.extractLsb'_toNat, BitVec.toNat_ofNat, Nat.shiftRight_eq_div_pow]
  omega

theorem evRecord_word7 (cycle ty c core slot fdom rcb w3 w4 w5 w6 w7 : Nat) :
    (evRecord cycle ty c core slot fdom rcb w3 w4 w5 w6 w7).extractLsb' 448 64 = BitVec.ofNat 64 w7 := by
  apply BitVec.eq_of_toNat_eq
  simp only [evRecord, BitVec.extractLsb'_toNat, BitVec.toNat_ofNat, Nat.shiftRight_eq_div_pow]
  omega

/-- A field of a word of a record. -/
theorem field_of_word {r : W512} {b w a n : Nat} (h : r.extractLsb' b 64 = BitVec.ofNat 64 w) (fits : a + n ≤ 64) :
    r.extractLsb' (b + a) n = BitVec.ofNat n (w / 2 ^ a) := by
  apply BitVec.eq_of_getLsbD_eq
  intro i hi
  have bit := congrArg (fun x : W64 => x.getLsbD (a + i)) h
  simp only [BitVec.getLsbD_extractLsb', BitVec.getLsbD_ofNat, show a + i < 64 by omega, decide_true, Bool.true_and] at bit
  rw [BitVec.getLsbD_extractLsb', BitVec.getLsbD_ofNat, Nat.testBit_div_two_pow, Nat.add_assoc, bit, Nat.add_comm i]

/-- The name of a thread in a debug record: its number, or the bow's bit and its cluster (R396). -/
theorem dbgName_fields {t : Nat} (ht : t < 2 ^ 18) (reason : Nat) :
    (t < 131072 → BitVec.ofNat 18 (State.dbgName t + 2 ^ 56 * reason) = BitVec.ofNat 18 t) ∧
    (131072 ≤ t → BitVec.ofNat 18 (State.dbgName t + 2 ^ 56 * reason) = 1#1 ++ BitVec.ofNat 17 (t - 131072)) ∧
    (State.dbgName t + 2 ^ 56 * reason) / 2 ^ 56 = reason := by
  unfold State.dbgName
  refine ⟨fun low => ?_, fun high => ?_, ?_⟩
  · apply BitVec.eq_of_toNat_eq
    rw [BitVec.toNat_ofNat, BitVec.toNat_ofNat, if_pos low]
    omega
  · apply BitVec.eq_of_toNat_eq
    rw [toNat_parts, BitVec.toNat_ofNat, BitVec.toNat_ofNat, BitVec.toNat_ofNat, if_neg (Nat.not_lt.2 high)]
    omega
  · split <;> omega

/-- The record of a halt of a running thread. -/
theorem dbgRecord_halt {s : State} {t : Nat} (ht : t < 2 ^ 18) (hr : (s.thr t).stat = .run) (reason : Nat) (code : BitVec 16) :
    DebugRecord (s.dbgRecord t 0 reason code.toNat 0) t reason code (s.thr t).pc 0 0 ∧
      (s.dbgRecord t 0 reason code.toNat 0).extractLsb' 257 1 = BitVec.ofBool (s.thr t).warn := by
  obtain ⟨low, high, top⟩ := dbgName_fields ht reason
  have name : (s.dbgRecord t 0 reason code.toNat 0).extractLsb' 192 64 = BitVec.ofNat 64 (State.dbgName t + 2 ^ 56 * reason) :=
    evRecord_word ..
  have state : (s.dbgRecord t 0 reason code.toNat 0).extractLsb' 256 64 =
      BitVec.ofNat 64 ((if (s.thr t).warn then 2 else 0) + 2 ^ 48 * code.toNat) := by
    unfold State.dbgRecord
    simp only [hr, Nat.zero_add]
    exact evRecord_word4 ..
  refine ⟨⟨evRecord_type .., fun h => ?_, fun h => ?_, ?_, ?_, ?_, ?_, ?_⟩, ?_⟩
  · rw [← low h]
    exact (field_of_word name (a := 0) (n := 18) (by decide)).trans (by rw [Nat.pow_zero, Nat.div_one])
  · rw [← high h]
    exact (field_of_word name (a := 0) (n := 18) (by decide)).trans (by rw [Nat.pow_zero, Nat.div_one])
  · exact (field_of_word name (a := 56) (n := 8) (by decide)).trans (by rw [top])
  · refine (field_of_word state (a := 48) (n := 16) (by decide)).trans ?_
    have : ((if (s.thr t).warn then 2 else 0) + 2 ^ 48 * code.toNat) / 2 ^ 48 = code.toNat := by split <;> omega
    rw [this, BitVec.ofNat_toNat, BitVec.setWidth_eq]
  · exact (evRecord_word5 ..).trans ((BitVec.ofNat_toNat ..).trans (BitVec.setWidth_eq _))
  · exact evRecord_word6 ..
  · exact (field_of_word (evRecord_word7 ..) (a := 0) (n := 8) (by decide)).trans rfl
  · refine (field_of_word state (a := 1) (n := 1) (by decide)).trans ?_
    apply BitVec.eq_of_toNat_eq
    cases (s.thr t).warn <;> simp only [BitVec.toNat_ofNat, Bool.false_eq_true, if_false, if_true, BitVec.toNat_ofBool,
      Bool.toNat_false, Bool.toNat_true] <;> omega

/-! ## A lane whose operations are done reports its halt (R398, R399) -/

/-- Nothing changes but threads, the paths and accounts of groups, cores, what clusters have heard, and what a posted record leaves. -/
structure KeptButPosts (s u : State) : Prop where
  rest : butPosts (butClusters u.rest) = butPosts (butClusters s.rest)
  groups : ∀ h, (u.grp h).still = (s.grp h).still

theorem Kept.butPosts {s u : State} (h : Kept s u) : KeptButPosts s u := ⟨congrArg Slice0.butPosts h.rest, h.groups⟩

theorem KeptButPosts.trans {s u v : State} (h : KeptButPosts s u) (h' : KeptButPosts u v) : KeptButPosts s v :=
  ⟨h'.rest.trans h.rest, fun g => (h'.groups g).trans (h.groups g)⟩

/-- The threads stand alike: in one state, in a handler or not, asked for the same and stepped or not. -/
structure Alike (x y : Thread) : Prop where
  stat : y.stat = x.stat
  handler : y.handler = x.handler
  quiet : y.quiet = x.quiet
  stepping : y.stepping = x.stepping

theorem KeptButPosts.undisturbed {s v : State} (h : KeptButPosts s v) (hc : s.Calm) (hole : v.hole = false)
    (alike : ∀ t, Alike (s.thr t) (v.thr t)) : s.Undisturbed v where
  hole := hole
  cur := (congrArg (·.cur) h.rest : _)
  cycle := (congrArg (·.cycle) h.rest : _)
  samples := (congrArg (·.samples) h.rest : _).trans hc.samples
  armed := (congrArg (·.armed) (h.groups s.curG) : _).trans hc.armed
  quiet l hl := (alike _).quiet.trans (hc.undisturbed.quiet l hl)
  steps l hl := (alike _).stepping.trans (hc.steps l hl)

theorem post_kept (s : State) (q : Bool) (r : W512) : KeptButPosts s (s.post q r) :=
  ⟨(congrArg (fun z : State => butClusters z.rest) (post_butPosts s q r) : _),
    fun g => (congrArg (fun z : State => (z.grp g).still) (post_butPosts s q r) : _)⟩

theorem post_thr (s : State) (q : Bool) (r : W512) (t : Nat) : (s.post q r).thr t = s.thr t :=
  (congrArg (fun z : State => z.thr t) (post_butPosts s q r) : _)

theorem Kept.samePosts {s u : State} (h : Kept s u) : SamePosts s u :=
  ⟨(congrArg (·.mem) h.rest : _), (congrArg (·.sys) h.rest : _), (congrArg (·.evWait) h.rest : _), (congrArg (·.hole) h.rest : _)⟩

theorem Hears.postsOne {s u v : State} (h : Hears u v) {q : Bool} {r : W512} (hu : PostsOne s u q r) : PostsOne s v q r :=
  ⟨(congrArg (·.mem) h.1 : _).trans hu.1, (congrArg (·.evWait) h.1 : _).trans hu.2⟩

/-- A place in the low 52 bits is the place at which a thread sent there stands (R169). -/
theorem goto_pc {r : W64} (h : r.toNat < 2 ^ 52) (x : Thread) : (x.goto r).pc = r := by
  apply BitVec.eq_of_toNat_eq
  have low : (r.truncate 48).toNat = r.toNat % 2 ^ 48 := BitVec.toNat_setWidth ..
  have high : ((r >>> 48).truncate 4).toNat = r.toNat / 2 ^ 48 % 2 ^ 4 := by
    rw [BitVec.truncate_eq_setWidth, BitVec.toNat_setWidth, BitVec.toNat_ushiftRight, Nat.shiftRight_eq_div_pow]
  rw [Thread.pc, Thread.goto, resumeAt, BitVec.toNat_ofNat, low, high]
  omega

/-- A lane that has left issue for a debugger halt and has reported it, with its warning. -/
def haltedAt (r : W64) (code : BitVec 16) (x : Thread) : Thread := { x.goto r with halt := some ⟨1, code, true⟩, warn := false }

/-- A halted lane without an outstanding operation posts its record. -/
theorem haltReport_posts {s : State} {t : Nat} {code : BitVec 16} (hh : (s.thr t).halt = some ⟨1, code, false⟩)
    (ho : s.hasOps t = false) :
    s.haltReport t = (s.post (s.dbgSecure (s.grp (threadGroup t)).rcb) (s.dbgRecord t 0 1 code.toNat 0)).setThr t
      { s.thr t with halt := some ⟨1, code, true⟩, warn := false } := by
  unfold State.haltReport
  dsimp only
  rw [hh, ho]
  rfl

/-- A running lane without an outstanding operation halts and reports. -/
theorem brkLane_reports {s v : State} {g l : Nat} {code : BitVec 16} (hv : v = brkLane code s (tid g l)) (n : Names g l)
    (lt : tid g l < 2 ^ 18) (hb : (s.grp g).bound = true) (hr : (s.thr (tid g l)).stat = .run) (ho : s.hasOps (tid g l) = false)
    {q : Bool} (hq : q = s.dbgSecure (s.grp g).rcb) (can : CanPost s q) {r : W64} (ends : resumeAt s.curEnd 0 = r)
    (place : r.toNat < 2 ^ 52) :
    KeptButPosts s v ∧ v.hole = false ∧ v.thr (tid g l) = haltedAt r code (s.thr (tid g l)) ∧
      (∀ t, t ≠ tid g l → v.thr t = s.thr t) ∧
      ∃ d, PostsOne s v q d ∧ DebugRecord d (tid g l) 1 code r 0 0 ∧ d.extractLsb' 257 1 = BitVec.ofBool (s.thr (tid g l)).warn := by
  let w := leftIssue s g l r code
  let d := w.dbgRecord (tid g l) 0 1 code.toNat 0
  have kept : Kept s w := leftIssue_kept s g l r code
  have thr : w.thr (tid g l) = halting r code (s.thr (tid g l)) := leftIssue_same s g l r code
  have secure : w.dbgSecure (w.grp g).rcb = q := by
    have rcb : (w.grp g).rcb = (s.grp g).rcb := (congrArg (·.rcb) (kept.groups g) : _)
    have attached : w.attached = s.attached := (congrArg (·.attached) kept.rest : _)
    rw [hq, rcb, State.dbgSecure, attached]
    rfl
  let y := (w.post q d).setThr (tid g l) { w.thr (tid g l) with halt := some ⟨1, code, true⟩, warn := false }
  have reports : w.haltReport (tid g l) = y := by
    rw [haltReport_posts (congrArg (·.halt) thr) ((hasOps_congr kept.ops _).trans ho), n.group, secure]
  have same : y.thr (tid g l) = haltedAt r code (s.thr (tid g l)) := by
    rw [State.thr_setThr_same, thr]
    rfl
  have posts := kept.samePosts.post q d
  have keeps : KeptButPosts s y := kept.butPosts.trans ⟨(post_kept w q d).rest, (post_kept w q d).groups⟩
  have bound : (y.grp g).bound = true := (congrArg (·.bound) (keeps.groups g) : _).trans hb
  have hears : Hears y v := by
    rw [hv, brkLane, ends, haltLane_running n hr, reports]
    refine arrivals_hears bound n.lane ?_
    rw [same]
    exact fun e => TStat.noConfusion (hr.symm.trans e)
  obtain ⟨record, warn⟩ := dbgRecord_halt (s := w) lt ((congrArg (·.stat) thr).trans hr) 1 code
  have pc : (w.thr (tid g l)).pc = r := (congrArg Thread.pc thr).trans (goto_pc place (s.thr (tid g l)))
  have warns : (w.thr (tid g l)).warn = (s.thr (tid g l)).warn := congrArg (·.warn) thr
  have hole : y.hole = false := posts.hole.trans (can d)
  have one : PostsOne s y q d := ⟨posts.mem, posts.evWait⟩
  refine ⟨keeps.trans hears.kept.butPosts, hears.hole.trans hole, (hears.thr _).trans same,
    fun t ht => (hears.thr t).trans ?_, d, hears.postsOne one, pc ▸ record, warns ▸ warn⟩
  rw [State.thr_setThr_other _ _ ht, post_thr]
  exact leftIssue_other s r code ht

/-! ## The end of a `BRK` that halts (R29) -/

theorem tid_lt {s : State} (h : s.Calm) {l : Nat} (hl : l ∈ lanesOf s.cur.lanes) : tid s.curG l < 2 ^ 18 := by
  have core := h.core
  have slot := h.slot
  have lane := (mem_lanesOf.1 hl).1
  unfold tid
  rw [groupCore_curG s h.slot]
  unfold coreCluster coreNum groupSlot
  dsimp only
  split <;> omega

theorem afterClause_lt (s : State) : (afterClause s).toNat < 2 ^ 52 := by
  have := (s.cur.hdr + 8#48 * BitVec.ofNat 48 (s.cur.words + 1)).isLt
  rw [afterClause, BitVec.toNat_setWidth]
  omega

theorem PathLeft.sameStat {s v u : State} {c : Ctl} {p : List Nat} (h : PathLeft s c p v u) (t : Nat) :
    (u.thr t).stat = (v.thr t).stat ∧ (u.thr t).handler = (v.thr t).handler := by
  by_cases path : ∃ l ∈ lanesOf s.cur.lanes, t = tid s.curG l
  · obtain ⟨l, hl, rfl⟩ := path
    by_cases hp : l ∈ p
    · rw [h.left l hp]
      exact ⟨rfl, rfl⟩
    · rw [h.stays l hl hp]
      obtain ⟨-, stat, -, handler, -⟩ := onward_same s c s.curNext (v.thr (tid s.curG l))
      exact ⟨stat, handler⟩
  · rw [h.others t fun l hl e => path ⟨l, hl, e⟩]
    exact ⟨rfl, rfl⟩

/-- No `RECONV` is released where none waits, or where a lane goes on that would have been counted. -/
theorem reconvRelease_noReconv {s u : State} {p : List Nat} (h : NoReconv s (fun _ => false) p) (hs : u.sleepers = s.sleepers)
    (same : ∀ t, (u.thr t).stat = (s.thr t).stat ∧ (u.thr t).handler = (s.thr t).handler) : u.reconvRelease s.curG = u := by
  obtain none | ⟨l, hl, -, runs, out⟩ := h
  · exact reconvRelease_none _ fun z hz => none z (hs ▸ hz)
  · exact reconvRelease_held hl (.inr (counted_running ((same _).1.trans runs) ((same _).2.trans out)))

theorem exec_brk_attached {s : State} {c : Ctl} {code : BitVec 16} (ha : ∃ a ∈ s.attached, a.1 = (s.grp s.curG).rcb) :
    exec (.brk c code) s = s.inTurn c (.fixA 1 []) fun s t => (brkLane code s t, .gone) := by
  obtain ⟨a, mem, e⟩ := ha
  have any : (s.attached.any fun a => a.1 == (s.grp s.curG).rcb) = true := List.any_eq_true.2 ⟨a, mem, beq_iff_eq.2 e⟩
  exact exec_brk.trans (if_pos any)

theorem exec_brk_alone {s : State} {c : Ctl} {code : BitVec 16} (ha : ∀ a ∈ s.attached, a.1 ≠ (s.grp s.curG).rcb) :
    exec (.brk c code) s = s.perLane c (.fixA 1 []) fun _ => .trap 14 0 0 code.toNat (some (resumeAt s.curEnd 0)) := by
  refine exec_brk.trans (if_neg fun h => ?_)
  obtain ⟨a, mem, e⟩ := List.any_eq_true.1 h
  exact ha a mem (beq_iff_eq.1 e)

section
variable {s v : State} {c : Ctl} {code : BitVec 16} {p : List Nat}

/-- Threads of a list of lanes change to threads alike. -/
theorem alike_of_lanes {g : Nat} {f : Thread → Thread} (hf : ∀ x, Alike x (f x)) (same : ∀ l ∈ p, v.thr (tid g l) = f (s.thr (tid g l)))
    (others : ∀ t, (∀ l ∈ p, t ≠ tid g l) → v.thr t = s.thr t) (t : Nat) : Alike (s.thr t) (v.thr t) := by
  by_cases hp : ∃ l ∈ p, t = tid g l
  · obtain ⟨l, hl, rfl⟩ := hp
    exact same l hl ▸ hf _
  · rw [others t fun l hl e => hp ⟨l, hl, e⟩]
    exact ⟨rfl, rfl, rfl, rfl⟩

/-- Halted lanes have left the path, and no `RECONV` is released. -/
theorem brk_halts (h : s.Acts c (.fixA 1 []) p) (ha : ∃ a ∈ s.attached, a.1 = (s.grp s.curG).rcb) (nr : NoReconv s (fun _ => false) p)
    (hv : v = p.foldl (fun v l => brkLane code v (tid s.curG l)) s) (kept : KeptButPosts s v) (hole : v.hole = false)
    (alike : ∀ t, Alike (s.thr t) (v.thr t)) : ∃ u, exec (.brk c code) s = .next u ∧ PathLeft s c p v u := by
  have und := kept.undisturbed h.1 hole alike
  subst hv
  obtain ⟨u, left, ends⟩ := inTurn_gone h und
  have sleepers : u.sleepers = s.sleepers := (congrArg (·.sleepers) left.rest).trans (congrArg (·.sleepers) kept.rest)
  have held : u.reconvRelease s.curG = u := reconvRelease_noReconv nr sleepers fun t =>
    ⟨(left.sameStat t).1.trans (alike t).stat, (left.sameStat t).2.trans (alike t).handler⟩
  rw [held, ite_self] at ends
  exact ⟨u, (exec_brk_attached ha).trans (ends.trans (out_next (left.undisturbed und).hole)), left⟩

/-- A `BRK` whose lanes have operations outstanding. -/
theorem brk_silent (h : s.Acts c (.fixA 1 []) p) (ha : ∃ a ∈ s.attached, a.1 = (s.grp s.curG).rcb) (hb : (s.grp s.curG).bound = true)
    (nr : NoReconv s (fun _ => false) p) (ops : ∀ l ∈ p, s.hasOps (tid s.curG l) = true) :
    ∃ u, exec (.brk c code) s = .next u ∧ u.mem = s.mem ∧ u.sp = s.sp ∧ u.evWait = s.evWait ∧
      (∀ l ∈ p, u.thr (tid s.curG l) = halting (afterClause s) code (s.thr (tid s.curG l))) ∧
      (∀ l ∈ lanesOf s.cur.lanes, l ∉ p → u.thr (tid s.curG l) = s.onward c s.curNext (s.thr (tid s.curG l))) := by
  obtain ⟨sub, nodup⟩ := State.gate_go h.2
  obtain ⟨kept, halts, others⟩ := haltAll_silent code p nodup s (afterClause_eq s) hb fun l hl =>
    ⟨Calm.names h.1 (sub l hl), h.1.runs l (sub l hl), ops l hl⟩
  obtain ⟨u, next, left⟩ := brk_halts h ha nr rfl kept.butPosts (kept.samePosts.hole.trans h.1.hole)
    (alike_of_lanes (f := halting (afterClause s) code) (fun _ => ⟨rfl, rfl, rfl, rfl⟩) halts others)
  have rest := (congrArg butClusters left.rest).trans kept.rest
  refine ⟨u, next, (congrArg (·.mem) rest : _), (congrArg (·.sp) rest : _), (congrArg (·.evWait) rest : _), fun l hl => ?_,
    fun l hl out => ?_⟩
  · rw [left.left l hl, halts l hl]
  · rw [left.stays l hl out, others _ fun j hj e => out (h.1.inj hl (sub j hj) e ▸ hj)]

/-- A `BRK` of one lane that has no operation outstanding. -/
theorem brk_reports {l : Nat} {q : Bool} (h : s.Acts c (.fixA 1 []) [l]) (ha : ∃ a ∈ s.attached, a.1 = (s.grp s.curG).rcb)
    (hb : (s.grp s.curG).bound = true) (nr : NoReconv s (fun _ => false) [l]) (hq : q = s.dbgSecure (s.grp s.curG).rcb)
    (ops : s.hasOps (tid s.curG l) = false) (can : CanPost s q) :
    ∃ u r, exec (.brk c code) s = .next u ∧ u.sp = s.sp ∧ PostsOne s u q r ∧ DebugRecord r (tid s.curG l) 1 code (afterClause s) 0 0 ∧
      r.extractLsb' 257 1 = BitVec.ofBool (s.thr (tid s.curG l)).warn ∧
      u.thr (tid s.curG l) = haltedAt (afterClause s) code (s.thr (tid s.curG l)) ∧
      (∀ j ∈ lanesOf s.cur.lanes, j ≠ l → u.thr (tid s.curG j) = s.onward c s.curNext (s.thr (tid s.curG j))) := by
  obtain ⟨sub, -⟩ := State.gate_go h.2
  have hl := sub l List.mem_cons_self
  obtain ⟨v, hv⟩ : ∃ v, v = brkLane code s (tid s.curG l) := ⟨_, rfl⟩
  obtain ⟨kept, hole, halts, others, r, one, record, warn⟩ := brkLane_reports hv (Calm.names h.1 hl) (tid_lt h.1 hl) hb (h.1.runs l hl)
    ops hq can (afterClause_eq s) (afterClause_lt s)
  obtain ⟨u, next, left⟩ := brk_halts h ha nr hv kept hole
    (alike_of_lanes (p := [l]) (f := haltedAt (afterClause s) code) (fun _ => ⟨rfl, rfl, rfl, rfl⟩)
      (fun k hk => List.mem_singleton.1 hk ▸ halts) fun t ht => others t (ht l List.mem_cons_self))
  refine ⟨u, r, next, (congrArg (·.sp) left.rest).trans (congrArg (·.sp) kept.rest),
    ⟨(congrArg (·.mem) left.rest).trans one.1, (congrArg (·.evWait) left.rest).trans one.2⟩, record, warn,
    (left.left l List.mem_cons_self).trans halts, fun j hj out => ?_⟩
  rw [left.stays j hj fun hk => out (List.mem_singleton.1 hk), others _ fun e => out (h.1.inj hj hl e)]

end

/-- Settles O11: both trap alike behind the clause, and a halt takes the lanes of a `BRK` out of the path before it ends. -/
theorem trapAndBreak : Obligations.TrapAndBreak := by
  intro s c code p h hh
  refine ⟨traps_of_perLane exec_trap h hh fun _ _ => trapOf_behind s code 0 15 0,
    fun alone => traps_of_perLane (exec_brk_alone alone) h hh fun _ _ => trapOf_behind s code 0 14 0,
    fun ha hb nr => ⟨brk_silent h ha hb nr, ?_⟩⟩
  rintro l q rfl hq ops can
  exact brk_reports h ha hb nr hq ops can

end Sys2Proof.Slice0
end

section
namespace Sys2Proof.Slice0
open Machine

/-! # `EXIT` and `RECONV` (O13)

## `EXIT` (R173) -/

/-- A thread that has exited. -/
def exiting (x : Thread) : Thread := { x with stat := .exited }

/-- Lanes that exit leave their path one after the other. -/
theorem leave_exits {g : Nat} (p : List Nat) (hn : p.Nodup) (hp : ∀ l ∈ p, l ∈ groupLanes g) (s : State) :
    Kept s (State.leave g (p.map fun l => (l, .exits)) s) ∧
      (∀ l ∈ p, (State.leave g (p.map fun l => (l, .exits)) s).thr (tid g l) = exiting (s.thr (tid g l))) ∧
      ∀ t, (∀ l ∈ p, t ≠ tid g l) → (State.leave g (p.map fun l => (l, .exits)) s).thr t = s.thr t := by
  induction p generalizing s with
  | nil => exact ⟨⟨rfl, fun _ => rfl⟩, nofun, fun _ _ => rfl⟩
  | cons l p ih =>
    obtain ⟨out, hn⟩ := List.nodup_cons.1 hn
    have later : ∀ k ∈ p, k ∈ groupLanes g := fun k hk => hp k (List.mem_cons_of_mem _ hk)
    have apart : ∀ k ∈ p, tid g k ≠ tid g l := fun k hk e => out (groupLanes_inj (later k hk) (hp l List.mem_cons_self) e ▸ hk)
    let u := (s.dropLanes g (1#32 <<< l)).modThr (tid g l) exiting
    have kept : Kept s u := (dropLanes_kept ..).trans (modThr_kept ..)
    have same : u.thr (tid g l) = exiting (s.thr (tid g l)) := State.thr_modThr_same ..
    have other : ∀ t, t ≠ tid g l → u.thr t = s.thr t := fun t ht => State.thr_modThr_other _ _ ht
    have step : State.leave g ((l :: p).map fun l => (l, .exits)) s = State.leave g (p.map fun l => (l, .exits)) u := rfl
    obtain ⟨rest, exits, others⟩ := ih hn later u
    rw [step]
    refine ⟨kept.trans rest, fun k hk => ?_, fun t ht => ?_⟩
    · rcases List.mem_cons.1 hk with rfl | hk
      · rw [others _ fun j hj => (apart j hj).symm, same]
      · rw [exits k hk, other _ (apart k hk)]
    · rw [others t fun j hj => ht j (List.mem_cons_of_mem _ hj), other t (ht l List.mem_cons_self)]

/-- A release of `RECONV` leaves the lanes of the path in issue alone where they do not sleep. -/
theorem reconvRelease_path {s u : State} (h : s.Calm) {l : Nat} (hl : l ∈ lanesOf s.cur.lanes)
    (awake : ∀ id, (u.thr (tid s.curG l)).stat ≠ .sleep id) : (u.reconvRelease s.curG).thr (tid s.curG l) = u.thr (tid s.curG l) := by
  refine State.reconvRelease_thr u s.curG l h.curG_lt (fun bow => ?_) (mem_lanesOf.1 hl).1 awake
  rw [groupCore_curG s h.slot] at bow
  rw [h.bow bow, lanesOf_one, List.mem_singleton] at hl
  have slot := h.bowSlot bow
  refine ⟨?_, hl⟩
  unfold State.curG
  omega

section
variable {s : State} {c : Ctl} {p : List Nat}

theorem bare_exits : ∀ l ∈ p, Bare ((fun _ => LaneRes.exits) l) := fun _ _ => .inr (.inr rfl)

theorem mem_staying_exits {l : Nat} : l ∈ staying s (p.map fun l => (l, .exits)) ↔ l ∈ lanesOf s.cur.lanes ∧ l ∉ p :=
  (mem_staying (f := fun _ => .exits) bare_exits).trans
    (and_congr_right fun _ => ⟨fun h hl => LaneRes.noConfusion (h hl), fun h hl => absurd hl h⟩)

/-- The path holds at an `EXIT` until its threads have no operation outstanding. -/
theorem exit_holds (h : s.Acts c (.fixA 1 []) p) (work : ∃ l ∈ p, s.hasWork (tid s.curG l) = true) :
    exec (.exit c) s = .next s.holdWord := by
  obtain ⟨l, hl, e⟩ := work
  have any : (p.any fun l => s.hasWork (tid s.curG l)) = true := List.any_eq_true.2 ⟨l, hl, e⟩
  rw [exec_exit]
  unfold execExit
  rw [h.2]
  dsimp only
  rw [if_pos any]
  exact out_next h.1.hole

theorem exec_exit_idle (h : s.Acts c (.fixA 1 []) p) (idle : ∀ l ∈ p, s.hasWork (tid s.curG l) = false) :
    exec (.exit c) s = s.perLane c (.fixA 1 []) fun _ => .exits := by
  have any : (p.any fun l => s.hasWork (tid s.curG l)) = false := List.any_eq_false.2 fun l hl => by simp [idle l hl]
  rw [exec_exit]
  unfold execExit
  rw [h.2]
  dsimp only
  rw [any, if_neg Bool.false_ne_true]

/-- What the end of a word of exits leaves of the state `y` in which its threads have exited: the clause's end, the exits' arrivals and
the release of `RECONV`. -/
def exitsEnd (s : State) (c : Ctl) (p : List Nat) (y : State) : State :=
  let res := p.map fun l => (l, LaneRes.exits)
  let z := clauseEnd s c (staying s res) y
  let z := if res.any (fun r => r.2 == .exits) then z.exited s.curG else z
  if res.all (fun r => r.2.isNext) then z else z.reconvRelease s.curG

theorem clauseEnd_kept (left : List Nat) (y : State) : Kept y (clauseEnd s c left y) := by
  have none : WentOn s c [] y y := ⟨rfl, fun _ => rfl, nofun, fun _ _ => rfl⟩
  exact ⟨congrArg butClusters (none.clauseEnd left).rest, (none.clauseEnd left).groups⟩

/-- While another thread of the group lives, exits leave everything but threads, groups, cores, waits and what clusters have heard. -/
theorem exitsEnd_keeps {y : State} (h : s.Calm) (hb : (y.grp s.curG).bound = true)
    (lives : ∃ l ∈ groupLanes s.curG, (y.thr (tid s.curG l)).stat ≠ .exited)
    (awake : ∀ l ∈ lanesOf s.cur.lanes, ∀ id, (y.thr (tid s.curG l)).stat ≠ .sleep id) :
    let u := exitsEnd s c p y
    u.mem = y.mem ∧ u.sp = y.sp ∧ u.hole = y.hole ∧ u.samples = y.samples ∧
      ∀ l ∈ lanesOf s.cur.lanes, u.thr (tid s.curG l) = y.thr (tid s.curG l) := by
  intro u
  let res := p.map fun l => (l, LaneRes.exits)
  let z := clauseEnd s c (staying s res) y
  have zy : Kept y z := clauseEnd_kept ..
  obtain ⟨l, hl, lives⟩ := lives
  obtain ⟨w, hw⟩ : ∃ w, (if res.any (fun r => r.2 == .exits) then z.exited s.curG else z) = w := ⟨_, rfl⟩
  have wz : Hears z w := by
    rw [← hw]
    split
    · exact exited_hears ((zy.bound _).trans hb) hl fun e => lives ((congrArg (·.stat) (clauseEnd_thr ..)).symm.trans e)
    · exact Hears.refl z
  have wy : Kept y w := zy.trans wz.kept
  have thr : ∀ t, w.thr t = y.thr t := fun t => (wz.thr t).trans (clauseEnd_thr ..)
  have hu : u = if res.all (fun r => r.2.isNext) then w else w.reconvRelease s.curG := by
    rw [← hw]
    rfl
  rw [hu]
  split
  · exact ⟨(congrArg (·.mem) wy.rest : _), (congrArg (·.sp) wy.rest : _), (congrArg (·.hole) wy.rest : _),
      (congrArg (·.samples) wy.rest : _), fun l _ => thr _⟩
  · rw [State.reconvRelease_keeps w]
    exact ⟨(congrArg (·.mem) wy.rest : _), (congrArg (·.sp) wy.rest : _), (congrArg (·.hole) wy.rest : _),
      (congrArg (·.samples) wy.rest : _),
      fun l hl => (reconvRelease_path h hl fun id e => awake l hl id ((congrArg (·.stat) (thr _)).symm.trans e)).trans (thr _)⟩

/-- The participants of an `EXIT` leave their path and end, before what their end entails. -/
theorem exits_leave (h : s.Acts c (.fixA 1 []) p) :
    ∃ y, (s.perLane c (.fixA 1 []) fun _ => .exits) = (let u := exitsEnd s c p y
        if u.samples.isEmpty then u else State.sampleSettle u.samples u).out ∧
      Kept s y ∧ (∀ l ∈ p, y.thr (tid s.curG l) = exiting (s.thr (tid s.curG l))) ∧
      (∀ l ∈ lanesOf s.cur.lanes, l ∉ p → y.thr (tid s.curG l) = s.onward c s.curNext (s.thr (tid s.curG l))) ∧
      ∀ t, (∀ l ∈ lanesOf s.cur.lanes, t ≠ tid s.curG l) → y.thr t = s.thr t := by
  obtain ⟨sub, nodup⟩ := State.gate_go h.2
  obtain ⟨x, ends, went⟩ := word_bare (f := fun _ => .exits) (act := fun s p => Acted.of s (p.map fun l => (l, .exits))) h rfl
    h.1.undisturbed bare_exits
  have left : PathLeft s c p s x := went.pathLeft h.1 sub fun _ => mem_staying_exits
  have und := left.undisturbed h.1.undisturbed
  obtain ⟨leaves, exits, others⟩ := leave_exits p nodup (fun l hl => path_groupLanes h.1 (sub l hl)) x
  obtain ⟨y, hy⟩ : ∃ y, State.leave s.curG (p.map fun l => (l, .exits)) x = y := ⟨_, rfl⟩
  rw [hy] at leaves exits others
  have stays : ∀ l ∈ lanesOf s.cur.lanes, l ∉ p → y.thr (tid s.curG l) = x.thr (tid s.curG l) :=
    fun l hl out => others _ fun j hj e => out (h.1.inj hl (sub j hj) e ▸ hj)
  have asked : ∀ l ∈ lanesOf s.cur.lanes, (y.thr (tid s.curG l)).stepping = false ∧ (y.thr (tid s.curG l)).quiet = true := fun l hl => by
    by_cases hp : l ∈ p
    · rw [exits l hp]
      exact ⟨und.steps l hl, und.quiet l hl⟩
    · rw [stays l hl hp]
      exact ⟨und.steps l hl, und.quiet l hl⟩
  have closes := closeWord_bare (c := c) bare_exits hy (fun l hl => (asked l hl).1)
    fun l hl => (asked l (mem_staying_exits.1 hl).1).2
  refine ⟨y, ends.trans (congrArg State.out closes), Kept.trans ⟨congrArg butClusters left.rest, left.groups⟩ leaves, fun l hl => ?_,
    fun l hl out => ?_, fun t ht => ?_⟩
  · rw [exits l hl, left.left l hl]
  · rw [stays l hl out, left.stays l hl out]
  · rw [others t fun l hl => ht l (sub l hl), left.others t ht]

/-- Threads without an operation outstanding end. -/
theorem exit_ends (h : s.Acts c (.fixA 1 []) p) (idle : ∀ l ∈ p, s.hasWork (tid s.curG l) = false) (hb : (s.grp s.curG).bound = true)
    (lives : ∃ l ∈ groupLanes s.curG, l ∉ p ∧ (s.thr (tid s.curG l)).stat ≠ .exited) :
    ∃ u, exec (.exit c) s = .next u ∧ u.mem = s.mem ∧ u.sp = s.sp ∧
      (∀ l ∈ p, u.thr (tid s.curG l) = exiting (s.thr (tid s.curG l))) ∧
      (∀ l ∈ lanesOf s.cur.lanes, l ∉ p → u.thr (tid s.curG l) = s.onward c s.curNext (s.thr (tid s.curG l))) := by
  obtain ⟨sub, -⟩ := State.gate_go h.2
  obtain ⟨y, ends, kept, exits, stays, others⟩ := exits_leave h
  obtain ⟨l, hl, out, alive⟩ := lives
  have lives : (y.thr (tid s.curG l)).stat ≠ .exited := by
    by_cases path : l ∈ lanesOf s.cur.lanes
    · rw [stays l path out, (onward_same ..).2.1]
      exact alive
    · rw [others _ fun j hj e => path (groupLanes_inj hl (path_groupLanes h.1 hj) e ▸ hj)]
      exact alive
  have awake : ∀ l ∈ lanesOf s.cur.lanes, ∀ id, (y.thr (tid s.curG l)).stat ≠ .sleep id := fun l hl id => by
    by_cases hp : l ∈ p
    · rw [exits l hp]
      exact TStat.noConfusion
    · rw [stays l hl hp, (onward_same ..).2.1, h.1.runs l hl]
      exact TStat.noConfusion
  obtain ⟨mem, sp, hole, samples, same⟩ := exitsEnd_keeps (c := c) (p := p) h.1 ((kept.bound _).trans hb) ⟨l, hl, lives⟩ awake
  have none : (exitsEnd s c p y).samples = [] := samples.trans ((congrArg (·.samples) kept.rest : _).trans h.1.samples)
  refine ⟨exitsEnd s c p y, ?_, mem.trans (congrArg (·.mem) kept.rest), sp.trans (congrArg (·.sp) kept.rest),
    fun l hl => (same l (sub l hl)).trans (exits l hl), fun l hl out => (same l hl).trans (stays l hl out)⟩
  rw [exec_exit_idle h idle, ends]
  dsimp only
  rw [none]
  exact out_next (hole.trans ((congrArg (·.hole) kept.rest : _).trans h.1.hole))

theorem exitsRule : ExitsRule := fun s _ _ h =>
  ⟨fun work => ⟨s.holdWord, exit_holds h work, rfl, rfl⟩, exit_ends h⟩

end

end Sys2Proof.Slice0
end

section
namespace Sys2Proof.Slice0
open Machine

/-! # Sleeping at a word (O13, O14)

## Entering the wait (R21) -/

theorem goto_resumeAt (x : Thread) (hdr : BitVec 48) (word : Nat) : x.goto (resumeAt hdr word) = { x with hdr := hdr, word := BitVec.ofNat 4 word } := by
  have low : (resumeAt hdr word).truncate 48 = hdr := by
    have := hdr.isLt
    apply BitVec.eq_of_toNat_eq
    rw [BitVec.truncate_eq_setWidth, BitVec.toNat_setWidth, resumeAt, BitVec.toNat_ofNat]
    omega
  have high : (resumeAt hdr word >>> 48).truncate 4 = BitVec.ofNat 4 word := by
    have := hdr.isLt
    apply BitVec.eq_of_toNat_eq
    rw [BitVec.truncate_eq_setWidth, BitVec.toNat_setWidth, BitVec.toNat_ushiftRight, Nat.shiftRight_eq_div_pow, resumeAt,
      BitVec.toNat_ofNat, BitVec.toNat_ofNat]
    omega
  rw [Thread.goto, low, high]

/-- A thread that sleeps at a place, in the wait of a number. -/
def sleeping (word : W64) (id : Nat) (x : Thread) : Thread := { x.goto word with stat := .sleep id }

/-- The state in which the lanes of a wait have just fallen asleep. -/
def fallAsleep (s : State) (g : Nat) (m : BitVec 32) (z : Sleeper) : State :=
  let u := ({ s with nextId := s.nextId + 1 }.dropLanes g m).modLanes g m (sleeping z.word s.nextId)
  { u with sleepers := u.sleepers ++ [z] }

/-- Lanes of which nothing else is asked fall asleep, and that is all. -/
theorem sleep_quiet {s : State} {g : Nat} {m : BitVec 32} (hm : OneOfBow g m)
    (quiet : ∀ l ∈ lanesOf m, (s.thr (tid g l)).quiet = true) (word next : W64) (due : Nat) (k : SleepKind) :
    s.sleep g m word next none due k = fallAsleep s g m ⟨s.nextId, g, m, word, next, none, due, k⟩ := by
  let v := fallAsleep s g m ⟨s.nextId, g, m, word, next, none, due, k⟩
  have lane : ∀ l ∈ lanesOf m, v.thr (tid g l) = sleeping word s.nextId (s.thr (tid g l)) := fun l hl =>
    lanesMod_lane hm (fun _ => sleeping word s.nextId) _ hl
  have asked : ∀ l ∈ lanesOf m, (v.thr (tid g l)).strag = false ∧ (v.thr (tid g l)).haltReq = none := fun l hl => by
    have calm : (s.thr (tid g l)).strag = false ∧ (s.thr (tid g l)).haltReq = none := by simpa [Thread.quiet] using quiet l hl
    rw [lane l hl]
    exact calm
  have late : ((lanesOf m).filter fun l => (v.thr (tid g l)).strag && (v.thr (tid g l)).handler.isNone) = [] :=
    List.filter_eq_nil_iff.2 fun l hl => by rw [(asked l hl).1]; exact Bool.false_ne_true
  have held : (lanesOf m).foldl (fun s l => s.haltHeld (tid g l)) v = v :=
    State.foldl_keeps (fun u => u = v) _ _ v rfl fun u hu l hl => by
      rw [hu]
      unfold State.haltHeld
      rw [(asked l hl).2]
  show (lanesOf m).foldl (fun s l => s.haltHeld (tid g l))
    (if ((lanesOf m).filter fun l => (v.thr (tid g l)).strag && (v.thr (tid g l)).handler.isNone).isEmpty then v else _) = v
  rw [late]
  exact held

section
variable {s : State} {g : Nat} {m : BitVec 32} {z : Sleeper}

/-- Falling asleep changes threads, paths, cores, the list of waits and the number of the next one. -/
theorem fallAsleep_rest : (fallAsleep s g m z).rest = { s.rest with nextId := s.nextId + 1, sleepers := s.sleepers ++ [z] } := by
  unfold fallAsleep
  dsimp only
  rw [State.modLanes_keeps]
  rfl

theorem fallAsleep_groups (h : Nat) : ((fallAsleep s g m z).grp h).still = (s.grp h).still := by
  unfold fallAsleep
  dsimp only
  rw [State.modLanes_keeps]
  exact (dropLanes_kept ({ s with nextId := s.nextId + 1 }) g m).groups h

theorem fallAsleep_lane (hm : OneOfBow g m) {l : Nat} (hl : l ∈ lanesOf m) :
    (fallAsleep s g m z).thr (tid g l) = sleeping z.word s.nextId (s.thr (tid g l)) :=
  lanesMod_lane hm (fun _ => sleeping z.word s.nextId) _ hl

theorem fallAsleep_other {t : Nat} (ht : ∀ l ∈ lanesOf m, t ≠ tid g l) : (fallAsleep s g m z).thr t = s.thr t :=
  State.modLanes_thr_other _ _ _ _ _ ht

end

/-! ## `RECONV` puts its participants to sleep (R21, R29, R174) -/

/-- The wait of a `RECONV`. -/
def reconvWait (s : State) (c : Ctl) (p : List Nat) : Sleeper :=
  ⟨s.nextId, s.curG, maskOf p, wordAt s, s.curNext, none, s.cycle + c.stall.toNat + 1, .reconv⟩

section
variable {s : State} {c : Ctl} {p : List Nat}

theorem lanesOf_participants (hp : ∀ l ∈ p, l ∈ lanesOf s.cur.lanes) {l : Nat} : l ∈ lanesOf (maskOf p) ↔ l ∈ p :=
  mem_lanesOf_maskOf fun j hj => (mem_lanesOf.1 (hp j hj)).1

/-- The participants of a bow are its one lane. -/
theorem participants_oneOfBow (h : s.Calm) (hp : ∀ l ∈ p, l ∈ lanesOf s.cur.lanes) (hn : p.Nodup) (hne : p ≠ []) :
    OneOfBow s.curG (maskOf p) := by
  intro bow
  rw [groupCore_curG s h.slot] at bow
  have zero : ∀ l ∈ p, l = 0 := fun l hl => by
    have path := hp l hl
    rwa [h.bow bow, lanesOf_one, List.mem_singleton] at path
  have one : p = [0] := by
    obtain ⟨l, rest, rfl⟩ := List.exists_cons_of_ne_nil hne
    obtain ⟨out, -⟩ := List.nodup_cons.1 hn
    have none : rest = [] := List.eq_nil_iff_forall_not_mem.2 fun k hk =>
      out ((zero k (List.mem_cons_of_mem _ hk)).trans (zero l List.mem_cons_self).symm ▸ hk)
    rw [none, zero l List.mem_cons_self]
  rw [one]
  rfl

theorem sleeping_wordAt (s : State) (id : Nat) (x : Thread) : sleeping (wordAt s) id x = asleep s id x := by
  rw [sleeping, ← curPc_eq, State.curPc, goto_resumeAt]
  rfl

/-- The participants of a `RECONV` fall asleep at it, and a release follows. -/
theorem reconv_sleeps (h : s.Acts c (.fixA 1 []) p) (hne : p ≠ []) :
    ∃ v u, PathLeft s c p v u ∧ exec (.reconv c) s = (u.reconvRelease s.curG).out ∧ u.hole = false ∧
      v.rest = { s.rest with nextId := s.nextId + 1, sleepers := s.sleepers ++ [reconvWait s c p] } ∧
      (∀ l ∈ p, v.thr (tid s.curG l) = asleep s s.nextId (s.thr (tid s.curG l))) ∧
      ∀ t, (∀ l ∈ p, t ≠ tid s.curG l) → v.thr t = s.thr t := by
  obtain ⟨sub, nodup⟩ := State.gate_go h.2
  have calm := h.1
  have one := participants_oneOfBow calm sub nodup hne
  have mem : ∀ l, l ∈ lanesOf (maskOf p) ↔ l ∈ p := fun l => lanesOf_participants sub
  obtain ⟨v, hv⟩ : ∃ v, v = fallAsleep s s.curG (maskOf p) (reconvWait s c p) := ⟨_, rfl⟩
  have rest := hv ▸ fallAsleep_rest (s := s) (g := s.curG) (m := maskOf p) (z := reconvWait s c p)
  have groups := hv ▸ fallAsleep_groups (s := s) (g := s.curG) (m := maskOf p) (z := reconvWait s c p)
  have lane : ∀ l ∈ p, v.thr (tid s.curG l) = asleep s s.nextId (s.thr (tid s.curG l)) := fun l hl => by
    rw [hv, fallAsleep_lane one ((mem l).2 hl)]
    exact sleeping_wordAt ..
  have others : ∀ t, (∀ l ∈ p, t ≠ tid s.curG l) → v.thr t = s.thr t := fun t ht => by
    rw [hv]
    exact fallAsleep_other fun l hl => ht l ((mem l).1 hl)
  have sleeps : s.sleep s.curG (maskOf p) s.curPc s.curNext none (s.dueAt c) .reconv = v := by
    rw [sleep_quiet one fun l hl => calm.undisturbed.quiet l (sub l ((mem l).1 hl)), hv, curPc_eq]
    rfl
  have asked : ∀ l ∈ lanesOf s.cur.lanes, (v.thr (tid s.curG l)).quiet = true ∧ (v.thr (tid s.curG l)).stepping = false := fun l hl => by
    by_cases hp : l ∈ p
    · rw [lane l hp]
      exact ⟨calm.undisturbed.quiet l hl, calm.steps l hl⟩
    · rw [others _ fun j hj e => hp (calm.inj hl (sub j hj) e ▸ hj)]
      exact ⟨calm.undisturbed.quiet l hl, calm.steps l hl⟩
  have und : s.Undisturbed v := ⟨(congrArg (·.hole) rest : _).trans calm.hole, (congrArg (·.cur) rest : _), (congrArg (·.cycle) rest : _),
    (congrArg (·.samples) rest : _).trans calm.samples, (congrArg (·.armed) (groups s.curG) : _).trans calm.armed,
    fun l hl => (asked l hl).1, fun l hl => (asked l hl).2⟩
  have acts : s.sleepAll c p .reconv = Acted.of v (p.map fun l => (l, .gone)) := by
    rw [State.sleepAll, List.isEmpty_eq_false_iff.2 hne, if_neg Bool.false_ne_true, sleeps]
  obtain ⟨u, left, ends⟩ := word_gone (act := fun s p => s.sleepAll c p .reconv) h acts und
  rw [if_neg hne] at ends
  exact ⟨v, u, left, exec_reconv.trans ends, (left.undisturbed und).hole, rest, lane, others⟩

end

end Sys2Proof.Slice0
end

section
namespace Sys2Proof.Slice0
open Machine

/-! # The release of `RECONV` (O13, R29)

## A participant that is held back -/

theorem counted_of {s : State} {t : Nat} (hh : (s.thr t).handler = none)
    (hs : (s.thr t).stat = .run ∨ (s.thr t).stat = .arriving ∨ (s.thr t).stat = .parkWait ∨ ∃ id, (s.thr t).stat = .sleep id) :
    s.counted t = true := by
  unfold State.counted
  dsimp only
  obtain e | e | e | ⟨id, e⟩ := hs <;> rw [e, hh] <;> rfl

theorem reconvAt_awake {s : State} {t : Nat}
    (hs : (s.thr t).stat = .run ∨ (s.thr t).stat = .arriving ∨ (s.thr t).stat = .parkWait) : s.reconvAt t = none := by
  unfold State.reconvAt
  obtain e | e | e := hs <;> rw [e]

theorem reconvAt_asleep {s : State} {t : Nat} {z : Sleeper} (hs : (s.thr t).stat = .sleep z.id)
    (hz : (s.sleepers.find? fun y => y.id == z.id) = some z) :
    s.reconvAt t = if z.kind = .reconv then some ((s.thr t).hdr.toNat * 16 + (s.thr t).word.toNat) else none := by
  unfold State.reconvAt
  rw [hs]
  dsimp only
  rw [hz]

/-- A thread that holds a `RECONV` back does so wherever it stands alike and its wait is the one found. -/
theorem holds_back {s u : State} {t : Nat} (stat : (u.thr t).stat = (s.thr t).stat) (handler : (u.thr t).handler = (s.thr t).handler)
    (waits : ∃ w, u.sleepers = s.sleepers ++ w)
    (h : (s.thr t).handler = none ∧ ((s.thr t).stat = .run ∨ (s.thr t).stat = .arriving ∨ (s.thr t).stat = .parkWait ∨
      ∃ z, (s.thr t).stat = .sleep z.id ∧ (s.sleepers.find? fun y => y.id == z.id) = some z ∧ z.kind ≠ .reconv)) :
    u.counted t = true ∧ u.reconvAt t = none := by
  rw [← stat, ← handler] at h
  obtain ⟨hh, awake⟩ := h
  rcases awake with e | e | e | ⟨z, e, found, kind⟩
  · exact ⟨counted_of hh (.inl e), reconvAt_awake (.inl e)⟩
  · exact ⟨counted_of hh (.inr (.inl e)), reconvAt_awake (.inr (.inl e))⟩
  · exact ⟨counted_of hh (.inr (.inr (.inl e))), reconvAt_awake (.inr (.inr e))⟩
  · obtain ⟨w, waits⟩ := waits
    have found : (u.sleepers.find? fun y => y.id == z.id) = some z := by
      rw [waits, List.find?_append, found]
      rfl
    exact ⟨counted_of hh (.inr (.inr (.inr ⟨_, e⟩))), (reconvAt_asleep e found).trans (if_neg kind)⟩

theorem reconv_heldBack {s : State} {c : Ctl} {p : List Nat} (h : s.Acts c (.fixA 1 []) p) (hne : p ≠ []) (held : HeldBack s p) :
    ∃ u, exec (.reconv c) s = .next u ∧ u.mem = s.mem ∧ u.sp = s.sp ∧
      (∀ l ∈ p, u.thr (tid s.curG l) = asleep s s.nextId (s.thr (tid s.curG l))) ∧
      (∀ l ∈ lanesOf s.cur.lanes, l ∉ p → u.thr (tid s.curG l) = s.onward c s.curNext (s.thr (tid s.curG l))) ∧
      u.sleepers = s.sleepers ++ [reconvWait s c p] := by
  obtain ⟨sub, -⟩ := State.gate_go h.2
  obtain ⟨v, u, left, ends, hole, rest, lane, others⟩ := reconv_sleeps h hne
  have waits : u.sleepers = s.sleepers ++ [reconvWait s c p] := (congrArg (·.sleepers) left.rest).trans (congrArg (·.sleepers) rest)
  have apart : ∀ l ∈ groupLanes s.curG, l ∉ p → v.thr (tid s.curG l) = s.thr (tid s.curG l) := fun l hl out =>
    others _ fun j hj e => out (groupLanes_inj hl (path_groupLanes h.1 (sub j hj)) e ▸ hj)
  have stays : u.reconvRelease s.curG = u := by
    obtain ⟨l, hl, out, held⟩ := held
    have stat := (left.sameStat (tid s.curG l)).1.trans (congrArg (·.stat) (apart l hl out))
    have handler := (left.sameStat (tid s.curG l)).2.trans (congrArg (·.handler) (apart l hl out))
    refine reconvRelease_held hl (held.imp (fun ⟨tok, parked⟩ => ⟨tok, stat.trans parked⟩) (holds_back stat handler ⟨_, waits⟩))
  rw [stays] at ends
  refine ⟨u, ends.trans (out_next hole), (congrArg (·.mem) left.rest).trans (congrArg (·.mem) rest),
    (congrArg (·.sp) left.rest).trans (congrArg (·.sp) rest), fun l hl => (left.left l hl).trans (lane l hl), fun l hl out => ?_, waits⟩
  rw [left.stays l hl out, apart l (path_groupLanes h.1 hl) out]

/-! ## All that wait are released -/

/-- One thread at a `RECONV` wakes. -/
def wakeAt (s : State) (t : Nat) : State :=
  match (s.thr t).stat with
  | .sleep id => match s.sleepers.find? fun y => y.id == id with
    | some z => s.wake z (1#32 <<< threadLane t)
    | none => s
  | _ => s

theorem wakeAt_asleep {s : State} {t : Nat} {z : Sleeper} (hs : (s.thr t).stat = .sleep z.id)
    (hz : (s.sleepers.find? fun y => y.id == z.id) = some z) : wakeAt s t = s.wake z (1#32 <<< threadLane t) := by
  unfold wakeAt
  rw [hs]
  dsimp only
  rw [hz]

theorem minOf_same {k : Nat} {l : List Nat} (h : ∀ x ∈ l, x = k) : minOf k l = k := by
  unfold minOf
  exact State.foldl_keeps (· = k) _ _ _ rfl fun b hb x hx => by rw [hb, h x hx, min_self]

/-- Where every counted thread of a group waits at one `RECONV` and none is parked, each of them wakes. -/
theorem reconvRelease_all {s : State} {g k : Nat} {ls : List Nat} (hne : ls ≠ [])
    (parked : ∀ l ∈ groupLanes g, ∀ tok, (s.thr (tid g l)).stat ≠ .parked tok)
    (counted : ((groupLanes g).map (tid g)).filter (fun t => s.counted t) = ls.map (tid g))
    (waits : ∀ l ∈ ls, s.reconvAt (tid g l) = some k ∧ (s.thr (tid g l)).halt = none) :
    s.reconvRelease g = ls.foldl (fun s l => wakeAt s (tid g l)) s := by
  have unparked : (((groupLanes g).map (tid g)).any fun t => match (s.thr t).stat with | .parked _ => true | _ => false) = false := by
    rw [List.any_map, List.any_eq_false]
    intro l hl
    dsimp only [Function.comp_apply]
    split
    · next tok e => exact absurd e (parked l hl tok)
    · exact Bool.false_ne_true
  have busy : ((ls.map (tid g)).any fun t => (s.reconvAt t).isNone || (s.thr t).halt.isSome) = false := by
    rw [List.any_map, List.any_eq_false]
    intro l hl
    rw [Function.comp_apply, (waits l hl).1, (waits l hl).2]
    exact Bool.false_ne_true
  have waitsAt : ∀ t ∈ ls.map (tid g), s.reconvAt t = some k := fun t ht => by
    obtain ⟨l, hl, rfl⟩ := List.mem_map.1 ht
    exact (waits l hl).1
  have nonempty : (ls.map (tid g)).isEmpty = false := by
    rw [List.isEmpty_eq_false_iff, ne_eq, List.map_eq_nil_iff]
    exact hne
  have first : (s.reconvAt ((ls.map (tid g)).headD 0)).getD 0 = k := by
    obtain ⟨l, rest, rfl⟩ := List.exists_cons_of_ne_nil hne
    rw [List.map_cons, List.headD_cons, (waits l List.mem_cons_self).1]
    rfl
  have low : minOf k ((ls.map (tid g)).filterMap fun t => s.reconvAt t) = k := minOf_same fun x hx => by
    obtain ⟨t, ht, e⟩ := List.mem_filterMap.1 hx
    exact Option.some.inj (e.symm.trans (waitsAt t ht))
  have all : (ls.map (tid g)).filter (fun t => s.reconvAt t == some k) = ls.map (tid g) :=
    List.filter_eq_self.2 fun t ht => beq_iff_eq.2 (waitsAt t ht)
  unfold State.reconvRelease
  simp only [counted, busy, nonempty, first, low, all, List.foldl_map]
  refine if_neg ?_
  rw [Bool.or_false, Bool.or_false, Bool.not_eq_true]
  exact unparked

/-! ## Waking one lane after the other -/

theorem lane_of_shift {l : Nat} (hl : l < 32) (j : Nat) (hj : j < 32) : (1#32 <<< l).getLsbD j = decide (j = l) := by
  rw [Bool.eq_iff_iff, decide_eq_true_eq]
  constructor
  · exact fun e => State.lanesOf_shift (mem_lanesOf.2 ⟨hj, e⟩)
  · rintro rfl
    simp [hj]

/-- One lane of a wait without a counter wakes. -/
theorem wake_lane {s : State} {z : Sleeper} {l : Nat} (hc : z.ctr = none) (hl : l < 32) :
    (s.wake z (1#32 <<< l)).thr (tid z.group l) = woken s z (s.thr (tid z.group l)) := by
  obtain ⟨id, g, m, word, next, ctr, due, kind⟩ := z
  obtain rfl : ctr = none := hc
  have mem : l ∈ lanesOf (1#32 <<< l) := mem_lanesOf.2 ⟨hl, (lane_of_shift hl l hl).trans (decide_eq_true rfl)⟩
  exact State.foldl_modThr_same g (fun _ x => woken s ⟨id, g, m, word, next, none, due, kind⟩ x) _ s l mem (lanesOf_nodup _)
    fun j hj _ => (State.lanesOf_shift hj).symm

theorem wake_lane_other {s : State} {z : Sleeper} {l t : Nat} (ht : t ≠ tid z.group l) :
    (s.wake z (1#32 <<< l)).thr t = s.thr t :=
  State.wake_thr_other s z _ t fun _ hj => State.lanesOf_shift hj ▸ ht

/-- The waits of which one has only some lanes left, or has ended. -/
def waitsLeft (ys : List Sleeper) (z : Sleeper) (m : BitVec 32) : List Sleeper := if m = 0#32 then ys else ys ++ [{ z with lanes := m }]

theorem wake_waits {s : State} {ys : List Sleeper} {z : Sleeper} {m : BitVec 32} (new : ∀ y ∈ ys, y.id ≠ z.id)
    (hs : s.sleepers = ys ++ [{ z with lanes := m }]) (k : BitVec 32) :
    (s.wake { z with lanes := m } k).sleepers = waitsLeft ys z (m &&& ~~~k) := by
  have list : (s.wake { z with lanes := m } k).sleepers = if m &&& ~~~k = 0#32 then s.sleepers.filter (fun y => y.id != z.id)
      else s.sleepers.map fun y => if y.id == z.id then { y with lanes := m &&& ~~~k } else y := by
    unfold State.wake
    dsimp only
    rw [State.modLanes_keeps, State.decCtr_keeps]
  rw [list, hs, waitsLeft]
  split
  · rw [List.filter_append, List.filter_eq_self.2 fun y hy => bne_iff_ne.2 (new y hy)]
    simp
  · rw [List.map_append, List.map_cons, List.map_nil, if_pos (beq_iff_eq.2 rfl)]
    congr 1
    exact (List.map_congr_left fun y hy => if_neg fun e => new y hy (beq_iff_eq.1 e)).trans (List.map_id ys)

/-- The lanes of a wait wake one after the other, and its wait ends with the last of them. -/
theorem wakeAll_ends {ys : List Sleeper} {z : Sleeper} (hc : z.ctr = none) (new : ∀ y ∈ ys, y.id ≠ z.id) (ls : List Nat) (hn : ls.Nodup)
    (names : ∀ l ∈ ls, Names z.group l ∧ l < 32) (s : State) (m : BitVec 32) (hm : ∀ j < 32, m.getLsbD j = decide (j ∈ ls))
    (hs : s.sleepers = waitsLeft ys z m) (asleep : ∀ l ∈ ls, (s.thr (tid z.group l)).stat = .sleep z.id) :
    let v := ls.foldl (fun s l => wakeAt s (tid z.group l)) s
    v = { s with threads := v.threads, sleepers := ys } ∧ (∀ l ∈ ls, v.thr (tid z.group l) = woken s z (s.thr (tid z.group l))) ∧
      ∀ t, (∀ l ∈ ls, t ≠ tid z.group l) → v.thr t = s.thr t := by
  induction ls generalizing s m with
  | nil =>
    have none : m = 0#32 := BitVec.eq_of_getLsbD_eq fun j hj => (hm j hj).trans BitVec.getLsbD_zero.symm
    rw [none, waitsLeft, if_pos rfl] at hs
    refine ⟨?_, nofun, fun _ _ => rfl⟩
    rw [← hs]
    rfl
  | cons l ls ih =>
    obtain ⟨out, hn⟩ := List.nodup_cons.1 hn
    obtain ⟨name, hl⟩ := names l List.mem_cons_self
    have some : m ≠ 0#32 := fun e => by
      have bit := hm l hl
      rw [e, BitVec.getLsbD_zero, decide_eq_true List.mem_cons_self] at bit
      exact Bool.false_ne_true bit
    rw [waitsLeft, if_neg some] at hs
    have found : (s.sleepers.find? fun y => y.id == z.id) = Option.some { z with lanes := m } := by
      rw [hs, List.find?_append, List.find?_eq_none.2 fun y hy e => new y hy (beq_iff_eq.1 e)]
      simp
    have wakes : wakeAt s (tid z.group l) = s.wake { z with lanes := m } (1#32 <<< l) := by
      rw [wakeAt_asleep (z := { z with lanes := m }) (asleep l List.mem_cons_self) found, name.number]
    obtain ⟨u, hu⟩ : ∃ u, wakeAt s (tid z.group l) = u := ⟨_, rfl⟩
    have keeps : u = { s with threads := u.threads, sleepers := u.sleepers } := by
      rw [← hu, wakes]
      exact State.wake_keeps ..
    have waits : u.sleepers = waitsLeft ys z (m &&& ~~~(1#32 <<< l)) := by
      rw [← hu, wakes]
      exact wake_waits new hs _
    have same : u.thr (tid z.group l) = woken s z (s.thr (tid z.group l)) := by
      rw [← hu, wakes]
      exact wake_lane (z := { z with lanes := m }) hc hl
    have other : ∀ t, t ≠ tid z.group l → u.thr t = s.thr t := fun t ht => by
      rw [← hu, wakes]
      exact wake_lane_other (z := { z with lanes := m }) ht
    have later : ∀ k ∈ ls, k ∈ l :: ls := fun k hk => List.mem_cons_of_mem _ hk
    have apart : ∀ k ∈ ls, tid z.group k ≠ tid z.group l := fun k hk e =>
      out (groupLanes_inj (names k (later k hk)).1.lane name.lane e ▸ hk)
    have left : ∀ j < 32, (m &&& ~~~(1#32 <<< l)).getLsbD j = decide (j ∈ ls) := fun j hj => by
      rw [BitVec.getLsbD_and, BitVec.getLsbD_not, hm j hj, lane_of_shift hl j hj, decide_eq_true hj, Bool.true_and]
      by_cases e : j = l
      · subst e
        simp [out]
      · simp [e]
    obtain ⟨rest, ends, others⟩ := ih hn (fun k hk => names k (later k hk)) u _ left waits
      fun k hk => (congrArg (·.stat) (other _ (apart k hk))).trans (asleep k (later k hk))
    have cycle : u.cycle = s.cycle := congrArg (·.cycle) keeps
    rw [List.foldl_cons, hu]
    refine ⟨?_, fun k hk => ?_, fun t ht => ?_⟩
    · rw [rest, keeps]
    · rcases List.mem_cons.1 hk with rfl | hk
      · rw [others _ fun j hj => (apart j hj).symm, same]
      · rw [ends k hk, other _ (apart k hk), woken, cycle, woken]
    · rw [others t fun j hj => ht j (later j hj), other t (ht l List.mem_cons_self)]

/-! ## Participants that go on at once -/

theorem uncounted_eq {s : State} {t : Nat} (h : Uncounted (s.thr t)) : s.counted t = false := by
  obtain ⟨-, h⟩ := h
  unfold State.counted
  dsimp only
  obtain handled | e | e | e | ⟨i, e⟩ := h
  · have busy : (s.thr t).handler.isNone = false := Bool.eq_false_iff.2 fun e => handled (Option.isNone_iff_eq_none.1 e)
    split
    case h_6 => exact busy
    all_goals rfl
  all_goals rw [e]

theorem woken_asleep {s u : State} (c : Ctl) (p : List Nat) (cycle : u.cycle = s.cycle) (x : Thread) :
    woken u (reconvWait s c p) (asleep s s.nextId x) = woken s (reconvWait s c p) x := by
  unfold woken
  rw [cycle]
  rfl

/-- The participants sleep at the `RECONV` in issue, and no other thread of their group is counted or parked. -/
structure AllWait (s u : State) (c : Ctl) (p : List Nat) : Prop where
  waits : u.sleepers = s.sleepers ++ [reconvWait s c p]
  new : ∀ y ∈ s.sleepers, y.id ≠ s.nextId
  lanes : ∀ l ∈ p, l ∈ groupLanes s.curG
  sleeps : ∀ l ∈ p, u.thr (tid s.curG l) = asleep s s.nextId (s.thr (tid s.curG l))
  ready : ∀ l ∈ p, (s.thr (tid s.curG l)).handler = none ∧ (s.thr (tid s.curG l)).halt = none
  away : ∀ l ∈ groupLanes s.curG, l ∉ p → Uncounted (u.thr (tid s.curG l))

/-- The participants in ascending order. -/
def ascending (s : State) (p : List Nat) : List Nat := (groupLanes s.curG).filter fun l => decide (l ∈ p)

section
variable {s u : State} {c : Ctl} {p : List Nat}

theorem AllWait.mem (h : AllWait s u c p) {l : Nat} : l ∈ ascending s p ↔ l ∈ p := by
  rw [ascending, List.mem_filter, decide_eq_true_eq]
  exact ⟨And.right, fun hl => ⟨h.lanes l hl, hl⟩⟩

theorem AllWait.found (h : AllWait s u c p) : (u.sleepers.find? fun y => y.id == s.nextId) = some (reconvWait s c p) := by
  rw [h.waits, List.find?_append, List.find?_eq_none.2 fun y hy e => h.new y hy (beq_iff_eq.1 e)]
  simp [reconvWait]

theorem AllWait.counted (h : AllWait s u c p) :
    ((groupLanes s.curG).map (tid s.curG)).filter (fun t => u.counted t) = (ascending s p).map (tid s.curG) := by
  rw [List.filter_map]
  refine congrArg _ (List.filter_congr fun l hl => ?_)
  by_cases hp : l ∈ p
  · rw [decide_eq_true hp]
    refine counted_of ?_ (.inr (.inr (.inr ⟨s.nextId, ?_⟩))) <;> rw [h.sleeps l hp]
    · exact (h.ready l hp).1
    · rfl
  · rw [decide_eq_false hp]
    exact uncounted_eq (h.away l hl hp)

theorem AllWait.reconvAt (h : AllWait s u c p) {l : Nat} (hl : l ∈ p) :
    u.reconvAt (tid s.curG l) = some (s.cur.hdr.toNat * 16 + (BitVec.ofNat 4 s.cur.word).toNat) := by
  have stat : (u.thr (tid s.curG l)).stat = .sleep (reconvWait s c p).id := congrArg (·.stat) (h.sleeps l hl)
  refine (reconvAt_asleep stat h.found).trans ((if_pos rfl).trans ?_)
  rw [h.sleeps l hl]
  rfl

/-- The participants wake one after the other. -/
theorem AllWait.releases (h : AllWait s u c p) (hne : p ≠ []) :
    u.reconvRelease s.curG = (ascending s p).foldl (fun v l => wakeAt v (tid s.curG l)) u := by
  refine reconvRelease_all ?_ (fun l hl tok => ?_) h.counted fun l hl => ⟨h.reconvAt (h.mem.1 hl), ?_⟩
  · obtain ⟨l, hl⟩ := List.exists_mem_of_ne_nil p hne
    exact List.ne_nil_of_mem (h.mem.2 hl)
  · by_cases hp : l ∈ p
    · rw [h.sleeps l hp]
      exact TStat.noConfusion
    · exact (h.away l hl hp).1 tok
  · rw [h.sleeps l (h.mem.1 hl)]
    exact (h.ready l (h.mem.1 hl)).2

/-- After the release the participants are awake and their wait has ended. -/
theorem AllWait.wakes (h : AllWait s u c p) (hne : p ≠ []) (hc : s.Calm) (hp : ∀ l ∈ p, l ∈ lanesOf s.cur.lanes)
    (cycle : u.cycle = s.cycle) :
    let v := u.reconvRelease s.curG
    v = { u with threads := v.threads, sleepers := s.sleepers } ∧
      (∀ l ∈ p, v.thr (tid s.curG l) = woken s (reconvWait s c p) (s.thr (tid s.curG l))) ∧
      ∀ t, (∀ l ∈ p, t ≠ tid s.curG l) → v.thr t = u.thr t := by
  have lt : ∀ l ∈ p, l < 32 := fun l hl => (mem_lanesOf.1 (hp l hl)).1
  have bits : ∀ j < 32, (maskOf p).getLsbD j = decide (j ∈ ascending s p) := fun j hj => by
    rw [maskOf, getLsbD_maskFold p _ j hj, BitVec.getLsbD_zero, Bool.false_or]
    exact decide_eq_decide.2 h.mem.symm
  have mask : maskOf p ≠ 0#32 := fun e => by
    obtain ⟨l, hl⟩ := List.exists_mem_of_ne_nil p hne
    have bit := bits l (lt l hl)
    rw [e, BitVec.getLsbD_zero, decide_eq_true (h.mem.2 hl)] at bit
    exact Bool.false_ne_true bit
  have waits : u.sleepers = waitsLeft s.sleepers (reconvWait s c p) (maskOf p) := by
    rw [waitsLeft, if_neg mask, h.waits]
    rfl
  obtain ⟨keeps, ends, others⟩ := wakeAll_ends (z := reconvWait s c p) rfl h.new (ascending s p) ((groupLanes_nodup _).filter _)
    (fun l hl => ⟨Calm.names hc (hp l (h.mem.1 hl)), lt l (h.mem.1 hl)⟩) u _ bits waits
    fun l hl => congrArg (·.stat) (h.sleeps l (h.mem.1 hl))
  rw [h.releases hne]
  refine ⟨keeps, fun l hl => (ends l (h.mem.2 hl)).trans ?_, fun t ht => others t fun l hl => ht l (h.mem.1 hl)⟩
  exact (congrArg _ (h.sleeps l hl)).trans (woken_asleep c p cycle _)

theorem reconv_releases (h : s.Acts c (.fixA 1 []) p) (hne : p ≠ [])
    (ready : ∀ l ∈ p, (s.thr (tid s.curG l)).handler = none ∧ (s.thr (tid s.curG l)).halt = none)
    (free : ∀ l ∈ groupLanes s.curG, l ∉ p → Uncounted (s.thr (tid s.curG l))) (new : ∀ y ∈ s.sleepers, y.id ≠ s.nextId) :
    ∃ u, exec (.reconv c) s = .next u ∧ u.mem = s.mem ∧ u.sp = s.sp ∧
      (∀ l ∈ p, u.thr (tid s.curG l) = woken s (reconvWait s c p) (s.thr (tid s.curG l))) ∧
      (∀ l ∈ groupLanes s.curG, l ∉ p → l ∉ lanesOf s.cur.lanes → u.thr (tid s.curG l) = s.thr (tid s.curG l)) ∧
      u.sleepers = s.sleepers := by
  obtain ⟨sub, -⟩ := State.gate_go h.2
  obtain ⟨v, u, left, ends, hole, rest, lane, others⟩ := reconv_sleeps h hne
  have lanes : ∀ l ∈ p, l ∈ groupLanes s.curG := fun l hl => path_groupLanes h.1 (sub l hl)
  have apart : ∀ l ∈ groupLanes s.curG, l ∉ p → ∀ j ∈ p, tid s.curG l ≠ tid s.curG j := fun l hl out j hj e =>
    out (groupLanes_inj hl (lanes j hj) e ▸ hj)
  have wait : AllWait s u c p :=
    { waits := (congrArg (·.sleepers) left.rest).trans (congrArg (·.sleepers) rest)
      new, lanes, ready
      sleeps := fun l hl => (left.left l hl).trans (lane l hl)
      away := fun l hl out => by
        have free := free l hl out
        rw [← others _ (apart l hl out)] at free
        unfold Uncounted
        rw [(left.sameStat _).1, (left.sameStat _).2]
        exact free }
  have cycle : u.cycle = s.cycle := (congrArg (·.cycle) left.rest).trans (congrArg (·.cycle) rest)
  obtain ⟨keeps, wakes, same⟩ := wait.wakes hne h.1 sub cycle
  obtain ⟨w, hw⟩ : ∃ w, u.reconvRelease s.curG = w := ⟨_, rfl⟩
  rw [hw] at ends keeps wakes same
  refine ⟨w, ends.trans (out_next ((congrArg (·.hole) keeps).trans hole)), ?_, ?_, wakes, fun l hl out path => ?_, congrArg (·.sleepers) keeps⟩
  · exact (congrArg (·.mem) keeps).trans ((congrArg (·.mem) left.rest).trans (congrArg (·.mem) rest))
  · exact (congrArg (·.sp) keeps).trans ((congrArg (·.sp) left.rest).trans (congrArg (·.sp) rest))
  · rw [same _ (apart l hl out), left.others _ fun j hj e => path (groupLanes_inj hl (path_groupLanes h.1 hj) e ▸ hj),
      others _ (apart l hl out)]

end

theorem reconvergesRule : ReconvergesRule := fun _ _ _ h hne => ⟨reconv_heldBack h hne, reconv_releases h hne⟩

/-- Settles O13: threads that exit leave before `RECONV` is tried; at a `RECONV` one thread that is not there holds back, else each wakes. -/
theorem exitsAndReconvergence : Obligations.ExitsAndReconvergence := ⟨exitsRule, reconvergesRule⟩

end Sys2Proof.Slice0
end

section
namespace Sys2Proof.Slice0
open Machine

/-! # `PHASE` and the arrival at a boundary (O14)

## `PHASE` holds its lanes in their clause (R178, R182) -/

/-- A thread that holds at `PHASE`. -/
def arriving (live : Live) (x : Thread) : Thread := { x with stat := .arriving, live := live }

/-- A clause of the path in issue holds at its word for a reason of its own. -/
theorem holdFor_inIssue {s : State} {h : Held} {due k : Nat} {y : Sel} (hy : InIssue s s.cur.core k y) :
    InIssue (s.holdFor h due) s.cur.core k
      (if y.slot = s.cur.slot ∧ y.lanes = s.cur.lanes then { y with held := h, nextAt := due } else y) := by
  have mine : (y.slot == s.cur.slot && y.lanes == s.cur.lanes) = true ↔ y.slot = s.cur.slot ∧ y.lanes = s.cur.lanes := by simp
  unfold InIssue State.holdFor at *
  rw [State.core_setCore_same, List.getElem?_map, hy, Option.map_some]
  exact congrArg some (if_congr mine rfl rfl)

theorem phase_holds {s : State} {c : Ctl} {gmask word2 : W64} {live : Live} {p : List Nat} (h : s.Acts c (.fixA 1 []) p)
    (checks : s.phaseCheck s.curG gmask word2 = .inl live) :
    ∃ u, exec (.phase c gmask word2) s = .next u ∧ u.rest = s.rest ∧
      (∀ l ∈ p, u.thr (tid s.curG l) = arriving live (s.thr (tid s.curG l))) ∧
      (∀ t, (∀ l ∈ p, t ≠ tid s.curG l) → u.thr t = s.thr t) ∧ (∀ h, (u.grp h).still = (s.grp h).still) ∧
      (∀ k y, InIssue s s.cur.core k y → InIssue u s.cur.core k (if y.slot = s.cur.slot ∧ y.lanes = s.cur.lanes then
        { y with held := .arrive, nextAt := s.cycle + c.stall.toNat + 1 } else y)) := by
  obtain ⟨sub, nodup⟩ := State.gate_go h.2
  let v := (s.charge s.curG s.cur.mapCls).holdFor .arrive (s.dueAt c)
  let u := State.lanesMod s.curG (fun _ => arriving live) p v
  have keeps : u = { v with threads := u.threads } := State.lanesMod_eq ..
  have next : exec (.phase c gmask word2) s = u.out := by
    rw [exec_phase]
    unfold execPhase
    dsimp only
    rw [h.2]
    dsimp only
    rw [checks]
    rfl
  refine ⟨u, next.trans (out_next ((congrArg (·.hole) keeps).trans h.1.hole)), (State.lanesMod_rest ..).trans rfl, fun l hl => ?_,
    fun t ht => State.lanesMod_other _ _ _ _ _ ht, fun g => ?_, fun k y hy => ?_⟩
  · exact State.lanesMod_same _ _ _ v l hl nodup fun j hj => h.1.inj (sub l hl) (sub j hj)
  · rw [State.lanesMod_grp]
    exact State.still_charge ..
  · rw [keeps]
    exact holdFor_inIssue (s := s.charge s.curG s.cur.mapCls) hy

/-! ## A failing check (R181) -/

/-- The offset of a `PHASE` record. -/
theorem recordOffset_eq (x : W64) : bits x.toNat 63 48 = x.toNat / 2 ^ 48 := by
  have := x.isLt
  rw [bits]
  omega

theorem phaseCheck_misaligned {s : State} {g : Nat} {gmask word2 : W64} (vector : isBow (groupCore g) = false)
    (named : word2.getLsbD 47 = true) (off : word2.toNat / 2 ^ 48 % 8 ≠ 0) :
    s.phaseCheck g gmask word2 = .inr (.align (word2.toNat / 2 ^ 48)) := by
  rw [← bitAt_eq] at named
  unfold State.phaseCheck
  dsimp only
  rw [vector, named, recordOffset_eq, Bool.false_and, if_neg Bool.false_ne_true, Bool.not_true, if_neg Bool.false_ne_true, if_pos off]

theorem exec_phase_fails {s : State} {c : Ctl} {gmask word2 : W64} {r : LaneRes} {p : List Nat} (h : s.Acts c (.fixA 1 []) p)
    (vector : isBow s.cur.core = false) (checks : s.phaseCheck s.curG gmask word2 = .inr r) :
    exec (.phase c gmask word2) s = s.word c (.fixA 1 []) fun s p => Acted.of s (p.map fun l => (l, r)) := by
  rw [exec_phase]
  unfold execPhase State.word
  dsimp only
  rw [h.2]
  dsimp only
  rw [checks, vector]
  rfl

theorem phase_misaligned {s : State} {c : Ctl} {gmask word2 : W64} {p : List Nat} (h : s.Acts c (.fixA 1 []) p) (hh : s.Handled p)
    (vector : isBow s.cur.core = false) (named : word2.getLsbD 47 = true) (off : word2.toNat / 2 ^ 48 % 8 ≠ 0) :
    s.Traps (.phase c gmask word2) c p (fun _ => own s 0 5 (BitVec.ofNat 64 (word2.toNat / 2 ^ 48))) := by
  have checks := phaseCheck_misaligned (s := s) (gmask := gmask) ((congrArg isBow (groupCore_curG s h.1.slot)).trans vector) named off
  exact State.traps_of_word _ _ (exec_phase_fails h vector checks) h hh rfl fun _ _ => trapOf_own s 0 5 _

/-! ## The arrival (R35, R182) -/

theorem tid_thread (t : Nat) : tid (threadGroup t) (threadLane t) = t := by
  unfold tid isBow groupCore coreCluster coreNum groupSlot threadGroup threadLane
  dsimp only
  simp only [beq_iff_eq]
  split <;> split <;> omega

theorem isBow_thread (t : Nat) : isBow (groupCore (threadGroup t)) = decide (131072 ≤ t) := by
  unfold isBow groupCore threadGroup
  dsimp only
  rw [Bool.eq_iff_iff, beq_iff_eq, decide_eq_true_eq]
  split <;> omega

theorem thread_names (t : Nat) : Names (threadGroup t) (threadLane t) := by
  refine ⟨?_, by rw [tid_thread], by rw [tid_thread]⟩
  unfold groupLanes threadLane
  rw [isBow_thread]
  by_cases bow : 131072 ≤ t
  · rw [decide_eq_true bow, if_pos rfl, if_neg (Nat.not_lt.2 bow)]
    exact List.mem_singleton.2 rfl
  · rw [decide_eq_false bow, if_neg Bool.false_ne_true, if_pos (Nat.not_le.1 bow)]
    exact List.mem_range.2 (Nat.mod_lt t (by decide))

theorem thread_oneOfBow (t : Nat) : OneOfBow (threadGroup t) (1#32 <<< threadLane t) := by
  intro bow
  rw [isBow_thread, decide_eq_true_eq] at bow
  rw [threadLane, if_neg (Nat.not_lt.2 bow)]
  rfl

/-- A thread that falls asleep where it stands keeps all but its state. -/
theorem sleeping_here (id : Nat) (x : Thread) : sleeping x.pc id x = { x with stat := .sleep id } := by
  rw [sleeping, Thread.pc, goto_resumeAt, BitVec.ofNat_toNat, BitVec.setWidth_eq]

/-- Where a thread at `PHASE` goes on, and when: behind its clause (R147, R182). -/
def arrivalPlace (s : State) (t : Nat) : W64 × Nat :=
  match (s.core (groupCore (threadGroup t))).sels.find? fun y => y.slot == groupSlot (threadGroup t) && y.lanes.getLsbD (threadLane t) with
  | some y => (resumeAt (y.hdr + BitVec.ofNat 48 (8 * ((Header.ofWord y.header).words + 1))) 0, y.nextAt)
  | none => ((s.thr t).pc, s.cycle)

/-- The wait of a thread that has arrived. -/
def arrivalWait (s : State) (t : Nat) : Sleeper :=
  ⟨s.nextId, threadGroup t, 1#32 <<< threadLane t, (s.thr t).pc, (arrivalPlace s t).1, none, (arrivalPlace s t).2, .phase⟩

theorem arrivalPlace_clause {s : State} {t : Nat} {y : Sel}
    (hy : ((s.core (groupCore (threadGroup t))).sels.find? fun y =>
      y.slot == groupSlot (threadGroup t) && y.lanes.getLsbD (threadLane t)) = some y) :
    (arrivalPlace s t).1 = (y.hdr + 8#48 * BitVec.ofNat 48 ((Header.ofWord y.header).words + 1)).setWidth 64 ∧
      (arrivalPlace s t).2 = y.nextAt := by
  unfold arrivalPlace
  rw [hy]
  refine ⟨(resumeAt_zero _).trans ?_, rfl⟩
  rw [BitVec.ofNat_mul]

/-- The straggler time-out of a cluster whose thread has just arrived (R39). -/
def arrivedAt (s : State) (c : Nat) : State :=
  s.setCl c { s.cl c with strag := match (s.cl c).strag with | none => some s.cycle | some k => some k }

theorem exec_phaseArrival_arrives {s : State} {t : Nat} (may : s.mayArrive t = true) (hs : (s.thr t).strag = false)
    (hq : (s.thr t).haltReq = none) :
    let c := coreCluster (groupCore (threadGroup t))
    exec (.phaseArrival t) s =
      ((arrivedAt (fallAsleep s (threadGroup t) (1#32 <<< threadLane t) (arrivalWait s t)) c).arrivals c).out := by
  have quiet : ∀ l ∈ lanesOf (1#32 <<< threadLane t), (s.thr (tid (threadGroup t) l)).quiet = true := fun l hl => by
    rw [State.lanesOf_shift hl, tid_thread, Thread.quiet, hs, hq]
    rfl
  have sleeps := sleep_quiet (thread_oneOfBow t) quiet (s.thr t).pc (arrivalPlace s t).1 (arrivalPlace s t).2 .phase
  have unfolds : exec (.phaseArrival t) s = ((arrivedAt (s.sleep (threadGroup t) (1#32 <<< threadLane t) (s.thr t).pc
      (arrivalPlace s t).1 none (arrivalPlace s t).2 .phase) (coreCluster (groupCore (threadGroup t)))).arrivals
        (coreCluster (groupCore (threadGroup t)))).out := (exec_phaseArrival.trans (if_pos may)).trans rfl
  rw [unfolds, sleeps]
  rfl

theorem phase_arrives {s : State} {t : Nat} (hh : s.hole = false) (may : s.mayArrive t = true)
    (hb : (s.grp (threadGroup t)).bound = true) (hs : (s.thr t).strag = false) (hq : (s.thr t).haltReq = none) :
    ∃ u, exec (.phaseArrival t) s = .next u ∧ u.mem = s.mem ∧ u.sp = s.sp ∧ u.thr t = { s.thr t with stat := .sleep s.nextId } ∧
      (∀ t', t' ≠ t → u.thr t' = s.thr t') ∧ u.sleepers = s.sleepers ++ [arrivalWait s t] := by
  let m : BitVec 32 := 1#32 <<< threadLane t
  let v := fallAsleep s (threadGroup t) m (arrivalWait s t)
  let w := arrivedAt v (coreCluster (groupCore (threadGroup t)))
  have one := thread_oneOfBow t
  have names := thread_names t
  have mem : threadLane t ∈ lanesOf m := by
    have lt : threadLane t < 32 := by unfold threadLane; split <;> omega
    exact mem_lanesOf.2 ⟨lt, (lane_of_shift lt _ lt).trans (decide_eq_true rfl)⟩
  have asleep : v.thr t = { s.thr t with stat := .sleep s.nextId } := by
    have lane := fallAsleep_lane (s := s) (z := arrivalWait s t) one mem
    rw [tid_thread] at lane
    exact lane.trans (sleeping_here ..)
  have others : ∀ t', t' ≠ t → v.thr t' = s.thr t' := fun t' ht => fallAsleep_other fun l hl => by
    rw [State.lanesOf_shift hl, tid_thread]
    exact ht
  have rest : v.rest = { s.rest with nextId := s.nextId + 1, sleepers := s.sleepers ++ [arrivalWait s t] } := fallAsleep_rest
  have bound : (w.grp (threadGroup t)).bound = true :=
    (congrArg (·.bound) (fallAsleep_groups (s := s) (g := threadGroup t) (m := m) (z := arrivalWait s t) (threadGroup t)) : _).trans hb
  have hears := arrivals_hears bound names.lane fun e => by
    have stat : (w.thr t).stat = .sleep s.nextId := congrArg (·.stat) asleep
    rw [tid_thread, stat] at e
    exact TStat.noConfusion e
  obtain ⟨u, hu⟩ : ∃ u, w.arrivals (coreCluster (groupCore (threadGroup t))) = u := ⟨_, rfl⟩
  rw [hu] at hears
  refine ⟨u, (exec_phaseArrival_arrives may hs hq).trans ((congrArg State.out hu).trans (out_next ?_)), ?_, ?_,
    (hears.thr t).trans asleep, fun t' ht => (hears.thr t').trans (others t' ht), ?_⟩
  · exact hears.hole.trans ((congrArg (·.hole) rest).trans hh)
  · exact (congrArg (·.mem) hears.1 : _).trans (congrArg (·.mem) rest)
  · exact (congrArg (·.sp) hears.1 : _).trans (congrArg (·.sp) rest)
  · exact (congrArg (·.sleepers) hears.1 : _).trans (congrArg (·.sleepers) rest)

/-- Settles O14: `PHASE` holds its clause or traps as its checks say; an arrival is a quiet sleep at `PHASE` that its cluster hears of. -/
theorem phaseAndArrival : Obligations.PhaseAndArrival := by
  refine ⟨fun _ _ _ _ _ _ h checks => phase_holds h checks, fun _ _ _ _ _ h _ hh vector named off => phase_misaligned h hh vector named off,
    fun s t _ hh may hb hs hq => ?_⟩
  obtain ⟨u, next, mem, sp, asleep, others, waits⟩ := phase_arrives hh may hb hs hq
  exact ⟨u, next, mem, sp, congrArg (·.stat) asleep, (congrArg Thread.pc asleep : _), fun r => (congrArg (Thread.arch · r) asleep : _), others,
    (arrivalPlace s t).1, (arrivalPlace s t).2, waits, fun _ => arrivalPlace_clause⟩

end Sys2Proof.Slice0
end
